-- ==== Sys2Proof/Word.lean ====
section
/-! DEFINITION. The word types of the DSX-9404. Everything a later test could show wrong (bit fields, byte order,
sign extension) is defined under Machine/; only the names of the types stand here. -/

namespace Sys2Proof

/-- A byte of memory. -/
abbrev Byte := BitVec 8

/-- A general register, a CSR or a virtual address (R147, R182). -/
abbrev Word := BitVec 64

/-- A predicate register p0–p15: one bit. -/
abbrev Pred := Bool

/-- A vector register of 512 bits (R147). -/
abbrev Vec := BitVec 512

/-- A mask register of 16 bits (R147, R354). -/
abbrev Mask := BitVec 16

/-- A 96-bit instruction slot (R283). -/
abbrev Slot := BitVec 96

/-- A fetch line of 64 bytes (R283): slot i at bit 96 i, the line word at bit 480. -/
abbrev LineImg := BitVec 512

/-- A parameter block: slots 1 to 4 of a PL = 1 line (R298). -/
abbrev Block := BitVec 384

/-- What a packet of another package carries beside its address: its bytes, its issuer's privilege, and the range of its copy (R196, R220). -/
structure RemotePacket where
  data : BitVec 512
  user : Bool
  base : Word
  len : Nat
deriving DecidableEq, Repr

end Sys2Proof
end

