-- ==== Sys2Proof/Config.lean ====
section
/-! DEFINITION. What an implementation fixes, and the free values: constants without a body, of which no proof can know a
value. A claim that holds of the model holds whatever they are. -/

namespace Sys2Proof.Config

/-- A value that the spec leaves open; the argument is the state's counter of uses, so that each use has its own value
(DESIGN CHOICE, log entry 6). -/
opaque freeValue : Nat → BitVec 64

/-- DEVID.STEP, the silicon stepping, which the spec does not give (Table 2.3; DESIGN CHOICE, log entry 7). -/
opaque devStep : BitVec 8

/-- The bytes of the module flash as it was made: (component × 2 + bank) × 2^32 + offset (R80, R82; DESIGN CHOICE, log entry 8). -/
opaque flashInit : Nat → BitVec 8

/-- Whether the image of a component in a bank passes the checks of R80 on its key digest and XMSS signature; the algorithms are those of
another standard (DESIGN CHOICE, log entry 8). Arguments: component 0–3, bank, bytes staged to the bank. -/
opaque imageOk : Nat → Bool → List (Nat × BitVec 8) → Bool

/-- The security version that the image of a component of firmware carries (R80, R81). -/
opaque imageSvn : Nat → Bool → List (Nat × BitVec 8) → Nat

/-- The SHAKE256 digest of a component's image (Tables 2.18 and 4.8). -/
opaque imageDigest : Nat → Bool → List (Nat × BitVec 8) → BitVec 256

/-- What the header of the supervisor runtime image in a bank names for context 0, given the bytes staged to it: page-table root, save area
and its size, and the initial trap entry (R55, R442; DESIGN CHOICE, log entry 9). -/
opaque context0Root : Bool → List (Nat × BitVec 8) → Nat
opaque context0Save : Bool → List (Nat × BitVec 8) → Nat
opaque context0SaveSize : Bool → List (Nat × BitVec 8) → Nat
opaque context0Tvec : Bool → List (Nat × BitVec 8) → BitVec 64

/-- SHAKE256 with a 256-bit result, and the XMSS^MT signature of a report under a key's secret and a leaf index (R83, R84; DESIGN CHOICE, log
entry 8). -/
opaque shake256 : List (BitVec 8) → BitVec 256
opaque xmssMtSign : BitVec 256 → Nat → List (BitVec 8) → List (BitVec 8)

/-- The helper data in module flash, the root that the PUF reconstructs with it, the label of each use of a secret (0 the identity, 1 the
attestation key), and the serial that the identity signs (R82, R83; DESIGN CHOICE, log entry 8). -/
opaque helperData : List (BitVec 8)
opaque pufRoot : List (BitVec 8) → BitVec 256
opaque label : Nat → List (BitVec 8)
opaque pufSerial : BitVec 256 → BitVec 128

/-- Spare rows of a bank, and the bank of a row by its structure code and number (R86; DESIGN CHOICE, log entry 117). -/
opaque spareRows : Nat
opaque rowBank : Nat → Nat → Nat

/-- Dravmund's vendor ID, and the bytes of the configuration space that R37 does not give (R19, R37; DESIGN CHOICE, log entry 109). -/
opaque vendorId : BitVec 16
opaque configSpace : Nat → BitVec 8

/-- The hash that chooses a port from a route's candidates (R23): source, destination, operation. (DESIGN CHOICE, log entry 83.) -/
opaque portHash : Nat → Nat → Nat → Nat

/-- The die whose weight store the hub reads and writes: the hub is on none of the four, and R191 names the reader's (DESIGN CHOICE, log
entry 95). -/
opaque hubWsDie : Fin 4

/-- The hash that indexes the PC table of the profiler (R101): line address and reason. -/
opaque pcHash : Nat → Nat → Nat

/-- Which entry of a TLB makes room for a new one: of a full TLB of a core, and of a vat's TLB, whose eight ways may have no room at any
time. The spec names no rule (R178; DESIGN CHOICE, log entry 11). Argument: the pages that the TLB holds, newest first. -/
opaque coreVictim : List Nat → Nat
opaque vatVictim : List Nat → Option Nat

/-- The PC at which the runtime's default movement routine starts (R106, R164): its image is not in the spec (DESIGN CHOICE, log entry 9). -/
opaque defaultMovement : BitVec 64

/-- The address of that routine's trap handler, which it puts into UVEC (R164; DESIGN CHOICE, log entry 9). -/
opaque defaultHandler : BitVec 64

/-- Codes that the spec's layouts leave open: of a park reason in the stored context (Table 7.6, offset 0x690; DESIGN CHOICE, log entry 12), of the
flags of a context that checkpoints and of one that is lost, and of a kind of retired unit (Table 2.18, sections 4 and 5; DEDUCED, log entry 28). -/
opaque parkCode : Nat → BitVec 64
opaque contextFlags : Bool → Bool → BitVec 8
opaque retiredKind : Nat → BitVec 8

end Sys2Proof.Config
end

