-- ==== Sys2Proof/Machine/Tbl.lean ====
section
/-! DEFINITION. Tables of plain data: lists of key and value in strictly rising key order, which list no entry equal to the
value of a missing key, so that equal tables are equal data. Memory, the register-like tables of the package and the
counters are kept in this form. -/

namespace Sys2Proof.Machine.Tbl

variable {α : Type}

/-- The entry of a key, if the table lists it. -/
def find (t : List (Nat × α)) (k : Nat) : Option α :=
  match t with
  | [] => none
  | (k', v) :: r => if k = k' then some v else find r k

/-- The value of a key: d where the table lists none. (DESIGN CHOICE, log entry 3.) -/
def get (d : α) (t : List (Nat × α)) (k : Nat) : α := (find t k).getD d

/-- The table with an entry for a key, whatever its value. -/
def ins (t : List (Nat × α)) (k : Nat) (v : α) : List (Nat × α) :=
  match t with
  | [] => [(k, v)]
  | (k', v') :: r =>
    if k = k' then (k, v) :: r else if k < k' then (k, v) :: (k', v') :: r else (k', v') :: ins r k v

/-- The table without a key. -/
def del (t : List (Nat × α)) (k : Nat) : List (Nat × α) := t.filter fun e => decide (e.1 ≠ k)

/-- Write a key: an entry equal to the value of a missing key is removed. -/
def put [DecidableEq α] (d : α) (t : List (Nat × α)) (k : Nat) (v : α) : List (Nat × α) :=
  if v = d then del t k else ins t k v

/-- Change the value of a key. -/
def upd [DecidableEq α] (d : α) (t : List (Nat × α)) (k : Nat) (f : α → α) : List (Nat × α) :=
  put d t k (f (get d t k))

/-- Change the entry of a key that the table lists. -/
def modify (t : List (Nat × α)) (k : Nat) (f : α → α) : List (Nat × α) :=
  match t with
  | [] => []
  | (k', v') :: r => if k = k' then (k', f v') :: r else (k', v') :: modify r k f

/-- Every key of a table lies above a bound, and the keys rise strictly. -/
def sortedFrom (lo : Nat) (t : List (Nat × α)) : Bool :=
  match t with
  | [] => true
  | (k, _) :: r => decide (lo ≤ k) && sortedFrom (k + 1) r

/-- The canonical form: keys rise strictly and no entry equals the value of a missing key. -/
def wf [DecidableEq α] (d : α) (t : List (Nat × α)) : Bool :=
  sortedFrom 0 t && t.all fun e => decide (e.2 ≠ d)

end Sys2Proof.Machine.Tbl

namespace Sys2Proof.Machine

/-- The list of the numbers lo, lo + 1, … of a length n. -/
def span (lo : Nat) : Nat → List Nat
  | 0 => []
  | n + 1 => lo :: span (lo + 1) n

/-- Apply a function once for each number lo, lo + 1, … of a length n, in rising order. -/
def foldSpan {σ : Type} (f : σ → Nat → σ) (s : σ) (lo : Nat) : Nat → σ
  | 0 => s
  | n + 1 => foldSpan f (f s lo) (lo + 1) n

/-- Replace element i of a list. -/
def setNth {α : Type} (l : List α) (i : Nat) (x : α) : List α :=
  match l, i with
  | [], _ => []
  | _ :: r, 0 => x :: r
  | a :: r, i + 1 => a :: setNth r i x

/-- The first n elements of a list. -/
def takeN {α : Type} (n : Nat) (l : List α) : List α := l.take n

/-- Insert an element into a list by a comparison that tells what comes strictly before, after its equals. -/
def insertBy {α : Type} (before : α → α → Bool) (x : α) : List α → List α
  | [] => [x]
  | y :: r => if before x y then x :: y :: r else y :: insertBy before x r

/-- Stable insertion sort. -/
def sortBy {α : Type} (before : α → α → Bool) (l : List α) : List α :=
  l.foldl (fun acc x => insertBy before x acc) []

end Sys2Proof.Machine
end

