-- ==== Sys2Proof/Machine/Bits.lean ====
section
/-! DEFINITION. Bit fields, sign extension, byte order and lanes. -/

namespace Sys2Proof.Machine

/-- Bits lo + n − 1 : lo of a number. -/
def bits (v lo n : Nat) : Nat := v >>> lo % 2 ^ n

/-- A field of a bit vector, as a number. -/
def fld {w : Nat} (v : BitVec w) (lo n : Nat) : Nat := bits v.toNat lo n

/-- One bit of a bit vector. -/
def bit {w : Nat} (v : BitVec w) (i : Nat) : Bool := v.getLsbD i

/-- A bit vector with a field replaced. -/
def setFld {w : Nat} (v : BitVec w) (lo n x : Nat) : BitVec w :=
  let mask : BitVec w := BitVec.ofNat w (2 ^ n - 1) <<< lo
  (v &&& ~~~mask) ||| (BitVec.ofNat w (x % 2 ^ n) <<< lo)

/-- 1 for true. -/
def b2n (b : Bool) : Nat := if b then 1 else 0

/-- A 64-bit word from a number, cut to 64 bits. -/
def word (n : Nat) : Word := BitVec.ofNat 64 n

/-- SignExt(v, n): the low n bits of a number as a signed 64-bit word. -/
def sext (v n : Nat) : Word :=
  if n ≥ 64 then word v
  else
    let x := v % 2 ^ n
    if x.testBit (n - 1) then word (x + (2 ^ 64 - 2 ^ n)) else word x

/-- The low n bits of a number as a signed integer. -/
def sint (v n : Nat) : Int :=
  let x := v % 2 ^ n
  if n > 0 ∧ x.testBit (n - 1) then (x : Int) - (2 ^ n : Nat) else x

/-- An integer cut to n bits. -/
def ucut (x : Int) (n : Nat) : Nat := (x % (2 ^ n : Nat)).toNat

/-- The bytes of a number, n of them, least significant first. -/
def bytesOf (v : Nat) : Nat → List Byte
  | 0 => []
  | n + 1 => BitVec.ofNat 8 v :: bytesOf (v >>> 8) n

/-- The number of bytes given least significant first. -/
def ofBytes : List Byte → Nat
  | [] => 0
  | b :: r => b.toNat + 256 * ofBytes r

/-- Lane i of width w of a packed register (R353). -/
def lane {n : Nat} (v : BitVec n) (w i : Nat) : Nat := bits v.toNat (w * i) w

/-- A packed register from lanes of width w, lane 0 first. -/
def ofLanes (n w : Nat) (l : List Nat) : BitVec n :=
  BitVec.ofNat n (l.foldr (fun x acc => x % 2 ^ w + 2 ^ w * acc) 0)

/-- The lanes of a packed register, lane 0 first. -/
def lanesOf {n : Nat} (v : BitVec n) (w k : Nat) : List Nat := (span 0 k).map (lane v w)

/-- The number of ones among the low n bits. -/
def popCount (v : Nat) : Nat → Nat
  | 0 => 0
  | n + 1 => b2n (v.testBit n) + popCount v n

/-- The number of significant bits: 0 for 0, else Floor(Log2 v) + 1. -/
def bitLen (v : Nat) : Nat := if v = 0 then 0 else Nat.log2 v + 1

/-- Trailing zeros of a non-zero number, counted to at most n. -/
def trailZeros (v : Nat) : Nat → Nat
  | 0 => 0
  | n + 1 => if v.testBit 0 then 0 else 1 + trailZeros (v / 2) n

/-- Round up a quotient. -/
def ceilDiv (a b : Nat) : Nat := (a + b - 1) / b

/-- The XOR of the 2-bit digits lo to lo + n − 1 of a number (R188). -/
def xorDigits (v : Nat) (lo : Nat) : Nat → Nat
  | 0 => 0
  | n + 1 => (v >>> (2 * lo) % 4) ^^^ xorDigits v (lo + 1) n

end Sys2Proof.Machine
end

