-- ==== Sys2Proof/Syntax.lean ====
section
/-! DEFINITION. The instructions and steps of the DSX-9404: one constructor for each row of the opcode table.
The first 204 are the instructions a thread issues (opcodes 0x00 to 0xEE, R302), each with the common header
of R291 and its typed operand fields; the other 132 are the steps of the other agents and the inputs
from outside the package, whose arguments name the unit that moves and what the outside supplies. -/

namespace Sys2Proof

/-- The fields that every instruction slot carries beside its opcode (R291): guard predicate, negation of the
guard, wait count and energy class. The X bit follows from the opcode (R303). -/
structure Hdr where
  /-- G, bits 87:84: the guard predicate. -/
  g : BitVec 4
  /-- N, bit 83: the guard is negated. -/
  n : Bool
  /-- W, bits 82:80: turns skipped after issue (R152). -/
  w : BitVec 3
  /-- E, bits 79:78: the energy class (R143). -/
  e : BitVec 2
deriving DecidableEq, Repr

/-- The header with every field zero: always executes, no wait, energy class 0. -/
abbrev Hdr.zero : Hdr := ⟨0, false, 0, 0⟩

/-- One constructor for each row of the opcode table. (DESIGN CHOICE, log entry 2.) (DESIGN CHOICE, log entry 84.) -/
inductive Instr where
  /-- ILL (R302). Always traps with ILLOP, reason 0. -/
  | ill
  /-- NOP (R329). Has no effect. -/
  | nop (h : Hdr)
  /-- ADD (R329). D := a + b, cut to 64 bits. -/
  | add (h : Hdr) (d a b : BitVec 5)
  /-- SUB (R329). D := a − b. -/
  | sub (h : Hdr) (d a b : BitVec 5)
  /-- MUL (R329). D := the low 64 bits of a × b. -/
  | mul (h : Hdr) (d a b : BitVec 5)
  /-- MULH (R329). D := the high 64 bits of the signed product. -/
  | mulh (h : Hdr) (d a b : BitVec 5)
  /-- MULHU (R329). D := the high 64 bits of the unsigned product. -/
  | mulhu (h : Hdr) (d a b : BitVec 5)
  /-- DIV (R330). Signed division rounded towards zero, without traps. -/
  | div (h : Hdr) (d a b : BitVec 5)
  /-- DIVU (R330). Unsigned division, with −1 for division by zero. -/
  | divu (h : Hdr) (d a b : BitVec 5)
  /-- REM (R330). Signed remainder with the sign of a. -/
  | rem (h : Hdr) (d a b : BitVec 5)
  /-- REMU (R330). Unsigned remainder. -/
  | remu (h : Hdr) (d a b : BitVec 5)
  /-- AND (R329). D := a AND b. -/
  | and (h : Hdr) (d a b : BitVec 5)
  /-- OR (R329). D := a OR b. -/
  | or (h : Hdr) (d a b : BitVec 5)
  /-- XOR (R329). D := a XOR b. -/
  | xor (h : Hdr) (d a b : BitVec 5)
  /-- ANDN (R329). D := a AND NOT b. -/
  | andn (h : Hdr) (d a b : BitVec 5)
  /-- SHL (R329). Shifts left by b<5:0>. -/
  | shl (h : Hdr) (d a b : BitVec 5)
  /-- SHR (R329). Shifts right logically by b<5:0>. -/
  | shr (h : Hdr) (d a b : BitVec 5)
  /-- SAR (R329). Shifts right arithmetically by b<5:0>. -/
  | sar (h : Hdr) (d a b : BitVec 5)
  /-- ROTR (R329). Rotates right by b<5:0>. -/
  | rotr (h : Hdr) (d a b : BitVec 5)
  /-- CLZ (R329). Counts leading zeros. -/
  | clz (h : Hdr) (d a : BitVec 5)
  /-- CTZ (R329). Counts trailing zeros. -/
  | ctz (h : Hdr) (d a : BitVec 5)
  /-- POPC (R329). Counts ones. -/
  | popc (h : Hdr) (d a : BitVec 5)
  /-- MIN (R329). Signed minimum. -/
  | min (h : Hdr) (d a b : BitVec 5)
  /-- MAX (R329). Signed maximum. -/
  | max (h : Hdr) (d a b : BitVec 5)
  /-- MINU (R329). Unsigned minimum. -/
  | minu (h : Hdr) (d a b : BitVec 5)
  /-- MAXU (R329). Unsigned maximum. -/
  | maxu (h : Hdr) (d a b : BitVec 5)
  /-- MOV (R329). D := a. -/
  | mov (h : Hdr) (d a : BitVec 5)
  /-- BSWAP (R329). Reverses the bytes of a. -/
  | bswap (h : Hdr) (d a : BitVec 5)
  /-- ADDI (R331). D := a + SignExt(IMM). -/
  | addi (h : Hdr) (d a : BitVec 5) (imm : BitVec 48)
  /-- MULI (R331). D := the low 64 bits of a × SignExt(IMM). -/
  | muli (h : Hdr) (d a : BitVec 5) (imm : BitVec 48)
  /-- ANDI (R331). D := a AND SignExt(IMM). -/
  | andi (h : Hdr) (d a : BitVec 5) (imm : BitVec 48)
  /-- ORI (R331). D := a OR SignExt(IMM). -/
  | ori (h : Hdr) (d a : BitVec 5) (imm : BitVec 48)
  /-- XORI (R331). D := a XOR SignExt(IMM). -/
  | xori (h : Hdr) (d a : BitVec 5) (imm : BitVec 48)
  /-- SHLI (R331). Shifts left by IMM<5:0>. -/
  | shli (h : Hdr) (d a : BitVec 5) (n : BitVec 6)
  /-- SHRI (R331). Shifts right logically by IMM<5:0>. -/
  | shri (h : Hdr) (d a : BitVec 5) (n : BitVec 6)
  /-- SARI (R331). Shifts right arithmetically by IMM<5:0>. -/
  | sari (h : Hdr) (d a : BitVec 5) (n : BitVec 6)
  /-- MOVI (R332). D := SignExt(IMM, 48). -/
  | movi (h : Hdr) (d : BitVec 5) (imm : BitVec 48)
  /-- MOVHI (R332). Places IMM<15:0> in bits 63:48 and keeps a<47:0>. -/
  | movhi (h : Hdr) (d a : BitVec 5) (imm : BitVec 16)
  /-- EXTR (R332). Extracts a bit field, zero- or sign-extended. -/
  | extr (h : Hdr) (d a : BitVec 5) (pos len : BitVec 6) (sx : Bool)
  /-- INSR (R332). Inserts the low bits of b into a bit field of a. -/
  | insr (h : Hdr) (d a b : BitVec 5) (pos len : BitVec 6)
  /-- SEL (R334). Selects a or b by a predicate. -/
  | sel (h : Hdr) (d a b : BitVec 5) (p : BitVec 4)
  /-- LEA (R333). Computes an address without translating it. -/
  | lea (h : Hdr) (d a b : BitVec 5) (sc : BitVec 3) (imm : BitVec 48)
  /-- CMP (R335). Writes a predicate from an integer condition on a and b. -/
  | cmp (h : Hdr) (pd : BitVec 4) (a b : BitVec 5) (cond : BitVec 4)
  /-- CMPI (R335). Writes a predicate from an integer condition on a and an immediate. -/
  | cmpi (h : Hdr) (pd : BitVec 4) (a : BitVec 5) (cond : BitVec 4) (imm : BitVec 48)
  /-- PLOG (R336). Combines two predicates through a truth table. -/
  | plog (h : Hdr) (pd pa pb tab : BitVec 4)
  /-- PGET (R336). Reads the predicate word. -/
  | pget (h : Hdr) (d : BitVec 5)
  /-- PSET (R336). Writes p1–p15 from a. -/
  | pset (h : Hdr) (a : BitVec 5)
  /-- NCHILD (R337). NODE function 0: D := 2a + 1 + b<0>. -/
  | nchild (h : Hdr) (d a b : BitVec 5)
  /-- NPARENT (R337). NODE function 1: the parent node number. -/
  | nparent (h : Hdr) (d a : BitVec 5)
  /-- NLEVEL (R337). NODE function 2: the level of a node. -/
  | nlevel (h : Hdr) (d a : BitVec 5)
  /-- NLVLBASE (R337). NODE function 3: 2^a − 1. -/
  | nlvlbase (h : Hdr) (d a : BitVec 5)
  /-- NLEAF (R337). NODE function 4: the leaf index at depth b. -/
  | nleaf (h : Hdr) (d a b : BitVec 5)
  /-- FADD (R338). Scalar floating-point add, rounded once. -/
  | fadd (h : Hdr) (d a b : BitVec 5) (ty rm : BitVec 3)
  /-- FSUB (R338). Scalar floating-point subtract. -/
  | fsub (h : Hdr) (d a b : BitVec 5) (ty rm : BitVec 3)
  /-- FMUL (R338). Scalar floating-point multiply. -/
  | fmul (h : Hdr) (d a b : BitVec 5) (ty rm : BitVec 3)
  /-- FFMA (R338). Fused multiply-add, rounded once. -/
  | ffma (h : Hdr) (d a b c : BitVec 5) (ty rm : BitVec 3)
  /-- FDIV (R338). Scalar floating-point divide, asynchronous. -/
  | fdiv (h : Hdr) (d a b : BitVec 5) (ty rm : BitVec 3)
  /-- FSQRT (R338). Scalar square root, asynchronous. -/
  | fsqrt (h : Hdr) (d a : BitVec 5) (ty rm : BitVec 3)
  /-- FMIN (R339). Floating-point minimum with NaN rules. -/
  | fmin (h : Hdr) (d a b : BitVec 5) (ty : BitVec 3)
  /-- FMAX (R339). Floating-point maximum with NaN rules. -/
  | fmax (h : Hdr) (d a b : BitVec 5) (ty : BitVec 3)
  /-- FCMP (R340). Floating-point compare into a predicate. -/
  | fcmp (h : Hdr) (pd : BitVec 4) (a b : BitVec 5) (ty : BitVec 3) (cond : BitVec 4)
  /-- FCVT (R341). Converts between floating-point and integer types. -/
  | fcvt (h : Hdr) (d a : BitVec 5) (st dt rm : BitVec 3)
  /-- FCLASS (R342). Classifies a floating-point value into one of ten bits. -/
  | fclass (h : Hdr) (d a : BitVec 5) (ty : BitVec 3)
  /-- FSGN (R343). Gives the magnitude of a with the sign of b. -/
  | fsgn (h : Hdr) (d a b : BitVec 5) (ty : BitVec 3)
  /-- FSGNN (R343). Gives the magnitude of a with the inverted sign of b. -/
  | fsgnn (h : Hdr) (d a b : BitVec 5) (ty : BitVec 3)
  /-- FSGNX (R343). Gives the magnitude of a with the XOR of both signs. -/
  | fsgnx (h : Hdr) (d a b : BitVec 5) (ty : BitVec 3)
  /-- FMOVI (R344). Loads a floating-point constant pattern. -/
  | fmovi (h : Hdr) (d : BitVec 5) (ty : BitVec 3) (imm : BitVec 48)
  /-- BR (R345). Branches to a line and slot. -/
  | br (h : Hdr) (tgt : BitVec 48)
  /-- BRL (R345). Branches and writes the link. -/
  | brl (h : Hdr) (d : BitVec 5) (tgt : BitVec 48)
  /-- JMP (R346). Jumps to the code address in a. -/
  | jmp (h : Hdr) (a : BitVec 5)
  /-- JMPL (R346). Jumps to a and writes the link. -/
  | jmpl (h : Hdr) (d a : BitVec 5)
  /-- LOOP (R348). Decrements a counter and branches while it is not zero. -/
  | loop (h : Hdr) (d : BitVec 5) (tgt : BitVec 48)
  /-- WFW (R349). Parks the worker until an item or token is dispensed to it. -/
  | wfw (h : Hdr)
  /-- YIELD (R350). May forgo the next turn to a sibling. -/
  | yield (h : Hdr)
  /-- EXIT (R351). Ends the thread once its results, sends, pacts and streams are settled. -/
  | exit (h : Hdr)
  /-- LD (R384). Loads 1 to 8 bytes, zero- or sign-extended. -/
  | ld (h : Hdr) (d a b : BitVec 5) (sz : BitVec 2) (sx : Bool) (sc : BitVec 3) (imm : BitVec 48)
  /-- ST (R384). Stores 1 to 8 bytes. -/
  | st (h : Hdr) (d a b : BitVec 5) (sz : BitVec 2) (sc : BitVec 3) (imm : BitVec 48)
  /-- LDX (R385). Loads 16 bytes into two consecutive registers. -/
  | ldx (h : Hdr) (d a b : BitVec 5) (sc : BitVec 3) (imm : BitVec 48)
  /-- STX (R385). Stores two consecutive registers as 16 bytes. -/
  | stx (h : Hdr) (d a b : BitVec 5) (sc : BitVec 3) (imm : BitVec 48)
  /-- LDV (R386). Loads the active lanes of a 64-byte block. -/
  | ldv (h : Hdr) (vd : BitVec 4) (a b : BitVec 5) (sz : BitVec 2) (mk sc : BitVec 3) (imm : BitVec 48)
  /-- STV (R386). Stores the active lanes of a 64-byte block. -/
  | stv (h : Hdr) (vd : BitVec 4) (a b : BitVec 5) (sz : BitVec 2) (mk sc : BitVec 3) (imm : BitVec 48)
  /-- GATH (R387). Gathers one access per active lane, in ascending lane order. -/
  | gath (h : Hdr) (vd : BitVec 4) (a : BitVec 5) (vb : BitVec 4) (sz : BitVec 2) (sx : Bool) (mk sc : BitVec 3) (imm : BitVec 48)
  /-- SCAT (R387). Scatters one store per active lane, in ascending lane order. -/
  | scat (h : Hdr) (vd : BitVec 4) (a : BitVec 5) (vb : BitVec 4) (sz : BitVec 2) (mk sc : BitVec 3) (imm : BitVec 48)
  /-- AADD (R388). Atomic add, returning the old value. -/
  | aadd (h : Hdr) (d a b : BitVec 5) (sz : BitVec 2) (sx : Bool) (imm : BitVec 48)
  /-- AAND (R388). Atomic AND. -/
  | aand (h : Hdr) (d a b : BitVec 5) (sz : BitVec 2) (sx : Bool) (imm : BitVec 48)
  /-- AOR (R388). Atomic OR. -/
  | aor (h : Hdr) (d a b : BitVec 5) (sz : BitVec 2) (sx : Bool) (imm : BitVec 48)
  /-- AXOR (R388). Atomic XOR. -/
  | axor (h : Hdr) (d a b : BitVec 5) (sz : BitVec 2) (sx : Bool) (imm : BitVec 48)
  /-- AMIN (R388). Atomic minimum. -/
  | amin (h : Hdr) (d a b : BitVec 5) (sz : BitVec 2) (sx : Bool) (imm : BitVec 48)
  /-- AMAX (R388). Atomic maximum. -/
  | amax (h : Hdr) (d a b : BitVec 5) (sz : BitVec 2) (sx : Bool) (imm : BitVec 48)
  /-- AXCH (R388). Atomic exchange. -/
  | axch (h : Hdr) (d a b : BitVec 5) (sz : BitVec 2) (sx : Bool) (imm : BitVec 48)
  /-- ACAS (R389). Atomic compare and swap. -/
  | acas (h : Hdr) (d a b c : BitVec 5) (sz : BitVec 2) (sx : Bool) (imm : BitVec 48)
  /-- AFADD (R390). Atomic floating-point add, rounded once. -/
  | afadd (h : Hdr) (d a b : BitVec 5) (sz : BitVec 2) (rm : BitVec 3) (imm : BitVec 48)
  /-- LDW (R391). Loads from the weight store through the core's weight port. -/
  | ldw (h : Hdr) (d a b : BitVec 5) (sz : BitVec 2) (sx : Bool) (sc : BitVec 3) (imm : BitVec 48)
  /-- LDVW (R391). Vector load from the weight store. -/
  | ldvw (h : Hdr) (vd : BitVec 4) (a b : BitVec 5) (sz : BitVec 2) (mk sc : BitVec 3) (imm : BitVec 48)
  /-- SBIND (R394). Binds a stream register to a descriptor and registers its holds. -/
  | sbind (h : Hdr) (d : BitVec 5) (blk : BitVec 384)
  /-- SDRAIN (R396). Drains or discards a stream, releases its holds and unbinds it. -/
  | sdrain (h : Hdr) (a : BitVec 5)
  /-- SSTAT (R397). Reads a stream register's status. -/
  | sstat (h : Hdr) (d a : BitVec 5)
  /-- QBIND (R398). Binds a queue register to an endpoint. -/
  | qbind (h : Hdr) (d a : BitVec 5) (imm : BitVec 48)
  /-- QSTAT (R399). Reads a queue register's status. -/
  | qstat (h : Hdr) (d a : BitVec 5)
  /-- EMPTY (R400). Sets a register empty with no producer. -/
  | empty (h : Hdr) (d : BitVec 5)
  /-- ISFULL (R401). Writes a register's full bit to a predicate. -/
  | isfull (h : Hdr) (pd : BitVec 4) (a : BitVec 5)
  /-- PUTR (R402). Writes a register of another thread when it is empty. -/
  | putr (h : Hdr) (a b rg : BitVec 5)
  /-- MIGR (R403). Migrates a light thread to a named core. -/
  | migr (h : Hdr) (a : BitVec 5)
  /-- TMODE_LIGHT (R404). Makes the thread light. -/
  | tmodeLight (h : Hdr)
  /-- TMODE_HEAVY (R404). Makes the thread heavy, zeroing h, v and m. -/
  | tmodeHeavy (h : Hdr)
  /-- BAR (R406). Arrives at a crew hardware barrier and waits for its phase. -/
  | bar (h : Hdr) (n : BitVec 3)
  /-- BARA (R406). Arrives at a hardware barrier without waiting. -/
  | bara (h : Hdr) (n : BitVec 3)
  /-- BARW (R406). Waits on an outstanding arrival at a hardware barrier. -/
  | barw (h : Hdr) (n : BitVec 3)
  /-- SEV (R408). Sets an event flag of a target thread. -/
  | sev (h : Hdr) (a : BitVec 5) (e : BitVec 4)
  /-- WEV (R408). Waits for and clears an event flag. -/
  | wev (h : Hdr) (e : BitVec 4)
  /-- BFREE (R409). Sets a buffer-free flag of the core. -/
  | bfree (h : Hdr) (e : BitVec 4)
  /-- DQPUSH (R411). Pushes a range onto the owner end of a deque. -/
  | dqpush (h : Hdr) (d a b : BitVec 5) (imm : BitVec 48)
  /-- DQPOP (R411). Pops a range or part of one from the owner end. -/
  | dqpop (h : Hdr) (d a b : BitVec 5) (imm : BitVec 48)
  /-- DQSPL (R411). Splits the newest deque entry in two. -/
  | dqspl (h : Hdr) (d a b : BitVec 5) (imm : BitVec 48)
  /-- DQSTL (R411). Steals a range or half of one from the thief end. -/
  | dqstl (h : Hdr) (d a b : BitVec 5) (imm : BitVec 48)
  /-- ITEM (R412). Pushes one item to a graph queue. -/
  | item (h : Hdr) (a : BitVec 5)
  /-- ITEM_EOS (R412). Pushes the end-of-stream token to a graph queue. -/
  | itemEos (h : Hdr) (a : BitVec 5)
  /-- VADD (R359). Adds vectors lane by lane. -/
  | vadd (h : Hdr) (vd va vb : BitVec 4) (ty mk rnd : BitVec 3)
  /-- VSUB (R359). Subtracts vectors lane by lane. -/
  | vsub (h : Hdr) (vd va vb : BitVec 4) (ty mk rnd : BitVec 3)
  /-- VMUL (R359). Multiplies vectors lane by lane. -/
  | vmul (h : Hdr) (vd va vb : BitVec 4) (ty mk rnd : BitVec 3)
  /-- VDIV (R359). Divides vectors lane by lane. -/
  | vdiv (h : Hdr) (vd va vb : BitVec 4) (ty mk rnd : BitVec 3)
  /-- VFMA (R359). Computes a × b + c lane by lane. -/
  | vfma (h : Hdr) (vd va vb vc : BitVec 4) (ty mk rnd : BitVec 3)
  /-- VFNMA (R359). Computes c − a × b lane by lane. -/
  | vfnma (h : Hdr) (vd va vb vc : BitVec 4) (ty mk rnd : BitVec 3)
  /-- VMIN (R360). Lane-wise minimum. -/
  | vmin (h : Hdr) (vd va vb : BitVec 4) (ty mk : BitVec 3)
  /-- VMAX (R360). Lane-wise maximum. -/
  | vmax (h : Hdr) (vd va vb : BitVec 4) (ty mk : BitVec 3)
  /-- VABS (R360). Lane-wise absolute value. -/
  | vabs (h : Hdr) (vd va : BitVec 4) (ty mk : BitVec 3)
  /-- VNEG (R360). Lane-wise negation. -/
  | vneg (h : Hdr) (vd va : BitVec 4) (ty mk : BitVec 3)
  /-- VAND (R361). Lane-wise AND. -/
  | vand (h : Hdr) (vd va vb : BitVec 4) (ty mk : BitVec 3)
  /-- VOR (R361). Lane-wise OR. -/
  | vor (h : Hdr) (vd va vb : BitVec 4) (ty mk : BitVec 3)
  /-- VXOR (R361). Lane-wise XOR. -/
  | vxor (h : Hdr) (vd va vb : BitVec 4) (ty mk : BitVec 3)
  /-- VSHL (R361). Lane-wise shift left. -/
  | vshl (h : Hdr) (vd va vb : BitVec 4) (ty mk : BitVec 3)
  /-- VSHR (R361). Lane-wise logical shift right. -/
  | vshr (h : Hdr) (vd va vb : BitVec 4) (ty mk : BitVec 3)
  /-- VSAR (R361). Lane-wise arithmetic shift right. -/
  | vsar (h : Hdr) (vd va vb : BitVec 4) (ty mk : BitVec 3)
  /-- VSQRT (R362). Lane-wise square root. -/
  | vsqrt (h : Hdr) (vd va : BitVec 4) (ty mk rnd : BitVec 3)
  /-- VRSQ (R362). Lane-wise reciprocal square root. -/
  | vrsq (h : Hdr) (vd va : BitVec 4) (ty mk rnd : BitVec 3)
  /-- VRCP (R362). Lane-wise reciprocal. -/
  | vrcp (h : Hdr) (vd va : BitVec 4) (ty mk rnd : BitVec 3)
  /-- VEXP2 (R362). Lane-wise power of two. -/
  | vexp2 (h : Hdr) (vd va : BitVec 4) (ty mk rnd : BitVec 3)
  /-- VLOG2 (R362). Lane-wise base-2 logarithm. -/
  | vlog2 (h : Hdr) (vd va : BitVec 4) (ty mk rnd : BitVec 3)
  /-- VCMP (R363). Compares lanes into a mask. -/
  | vcmp (h : Hdr) (md : BitVec 3) (va vb : BitVec 4) (ty mk : BitVec 3) (cond : BitVec 4)
  /-- VCVT (R364). Converts vector lanes between types. -/
  | vcvt (h : Hdr) (vd va : BitVec 4) (st ty mk rnd : BitVec 3)
  /-- VDOT (R365). Adds pairwise dot products into wider lanes. -/
  | vdot (h : Hdr) (vd va vb vc : BitVec 4) (ty mk rnd : BitVec 3)
  /-- VMOV (R366). Copies active lanes. -/
  | vmov (h : Hdr) (vd va : BitVec 4) (ty mk : BitVec 3)
  /-- VSEL (R366). Selects lanes of A or B by mask. -/
  | vsel (h : Hdr) (vd va vb : BitVec 4) (ty mk : BitVec 3)
  /-- VBCAST (R366). Broadcasts a general register into lanes. -/
  | vbcast (h : Hdr) (vd : BitVec 4) (a : BitVec 5) (ty mk : BitVec 3)
  /-- VFILL (R366). Fills lanes with an immediate value. -/
  | vfill (h : Hdr) (vd : BitVec 4) (ty mk : BitVec 3) (imm : BitVec 48)
  /-- VEXT (R367). Extracts one lane to a general register. -/
  | vext (h : Hdr) (d : BitVec 5) (va : BitVec 4) (lane : BitVec 5) (ty : BitVec 3)
  /-- VINS (R367). Inserts a general register into one lane. -/
  | vins (h : Hdr) (vd : BitVec 4) (a lane : BitVec 5) (ty : BitVec 3)
  /-- VIOTA (R368). Writes active-lane counts. -/
  | viota (h : Hdr) (vd : BitVec 4) (ty mk : BitVec 3)
  /-- VCMPRS (R368). Compresses active lanes downward. -/
  | vcmprs (h : Hdr) (vd va : BitVec 4) (ty mk : BitVec 3)
  /-- VEXPND (R368). Expands low lanes into active lanes. -/
  | vexpnd (h : Hdr) (vd va : BitVec 4) (ty mk : BitVec 3)
  /-- VSHUF (R369). Permutes lanes by an index vector. -/
  | vshuf (h : Hdr) (vd va vb : BitVec 4) (ty mk : BitVec 3)
  /-- VLUT (R369). Looks up 4-bit codes in a lane table. -/
  | vlut (h : Hdr) (vd va vb : BitVec 4) (ty mk : BitVec 3)
  /-- VRED (R371). Reduces lanes through the fixed pairwise tree. -/
  | vred (h : Hdr) (d : BitVec 5) (va : BitVec 4) (fn ty mk rnd : BitVec 3)
  /-- VSCAN (R372). Computes an inclusive prefix over the tree's blocks. -/
  | vscan (h : Hdr) (vd va : BitVec 4) (fn ty mk rnd : BitVec 3)
  /-- VSORT (R374). Sorts keys and values of active lanes. -/
  | vsort (h : Hdr) (vd va vb vc : BitVec 4) (desc : Bool) (ty mk : BitVec 3)
  /-- VMERGE (R375). Merges two ordered half-vector runs. -/
  | vmerge (h : Hdr) (vd va vb vc : BitVec 4) (desc : Bool) (ty mk : BitVec 3)
  /-- VPACKQ (R377). Encodes 32 FP32 values as a BQ8 or BQ4 block. -/
  | vpackq (h : Hdr) (vd va vb : BitVec 4) (bq4 : Bool) (mk : BitVec 3)
  /-- VUNPKQ (R378). Decodes half of a BQ block into FP32 lanes. -/
  | vunpkq (h : Hdr) (vd va : BitVec 4) (bq4 hi : Bool) (mk : BitVec 3)
  /-- MLOG (R379). Combines two masks through a truth table. -/
  | mlog (h : Hdr) (md ma mb : BitVec 3) (tab : BitVec 4)
  /-- MPOPC (R379). Counts the ones of a mask. -/
  | mpopc (h : Hdr) (d : BitVec 5) (ma : BitVec 3)
  /-- MGET (R379). Reads a mask into a general register. -/
  | mget (h : Hdr) (d : BitVec 5) (ma : BitVec 3)
  /-- MSET (R379). Writes a mask from a general register. -/
  | mset (h : Hdr) (md : BitVec 3) (a : BitVec 5)
  /-- PMM (R417). Issues one half of a matrix-product pact, or re-issues to resume a suspended pact. -/
  | pmm (h : Hdr) (port : BitVec 2) (tag : BitVec 8) (blk : BitVec 384)
  /-- PDSC (R269). Issues one half of a tree-descent pact. -/
  | pdsc (h : Hdr) (port : BitVec 2) (tag : BitVec 8) (blk : BitVec 384)
  /-- PDGR (R276). Issues one half of a gradient pact that replays the last descent. -/
  | pdgr (h : Hdr) (port : BitVec 2) (tag : BitVec 8) (blk : BitVec 384)
  /-- PWAIT (R420). Waits until the tagged pacts on the press have ended. -/
  | pwait (h : Hdr) (port : BitVec 2) (tag : BitVec 8)
  /-- PQRY (R421). Reports the newest tagged pact's state or outcome. -/
  | pqry (h : Hdr) (d : BitVec 5) (port : BitVec 2) (tag : BitVec 8)
  /-- PCLR (R423). Clears an accumulator slot or pair. -/
  | pclr (h : Hdr) (port slot : BitVec 2) (f64 : Bool)
  /-- PSCL (R423). Scales an accumulator slot or pair. -/
  | pscl (h : Hdr) (a : BitVec 5) (port slot : BitVec 2) (f64 : Bool)
  /-- PLDS (R424). Loads a slot image from the own scratchpad. -/
  | plds (h : Hdr) (a : BitVec 5) (port slot : BitVec 2) (f64 : Bool)
  /-- PSTS (R424). Stores a slot image to the own scratchpad. -/
  | psts (h : Hdr) (a : BitVec 5) (port slot : BitVec 2) (f64 : Bool)
  /-- PRDL (R425). Delivers again the result of a pact in DFAULT. -/
  | prdl (h : Hdr) (a b : BitVec 5) (port : BitVec 2) (tag : BitVec 8)
  /-- PABT (R422). Cancels the newest tagged pact. -/
  | pabt (h : Hdr) (port : BitVec 2) (tag : BitVec 8)
  /-- PRDT (R426). Reads a path-trace register. -/
  | prdt (h : Hdr) (d : BitVec 5) (port : BitVec 2) (pt : BitVec 4)
  /-- PWRT (R426). Writes a path-trace register. -/
  | pwrt (h : Hdr) (a : BitVec 5) (port : BitVec 2) (pt : BitVec 4)
  /-- PORD (R427). Clears the rank held in LPR. -/
  | pord (h : Hdr)
  /-- CPY (R429). Starts a copy-engine copy with holds and barrier counting. -/
  | cpy (h : Hdr) (blk : BitVec 384)
  /-- REMOTE_ATOMIC_ADD (R433). A CPY with KIND 1 performs element-wise atomic adds at another package. -/
  | remoteAtomicAdd (h : Hdr) (blk : BitVec 384)
  /-- CPYM (R431). Multicasts a range into buffer k of the masked cores. -/
  | cpym (h : Hdr) (k : BitVec 4) (blk : BitVec 384)
  /-- GATHR (R432). Gathers indexed elements into a destination. -/
  | gathr (h : Hdr) (blk : BitVec 384)
  /-- CPYST (R437). Asks the engine about a command in progress by its status address. -/
  | cpyst (h : Hdr) (d a : BitVec 5)
  /-- TBINIT (R439). Stores a fresh transaction barrier. -/
  | tbinit (h : Hdr) (a b : BitVec 5)
  /-- TBARV (R440). Arrives at a transaction barrier. -/
  | tbarv (h : Hdr) (a : BitVec 5)
  /-- TBARX (R440). Arrives at a transaction barrier and adds expected sectors. -/
  | tbarx (h : Hdr) (a b : BitVec 5)
  /-- TBEXP (R440). Adds expected sectors without arriving. -/
  | tbexp (h : Hdr) (a b : BitVec 5)
  /-- TBWAIT (R441). Parks while the barrier's phase equals b. -/
  | tbwait (h : Hdr) (a b : BitVec 5)
  /-- TBTRY (R441). Tests whether the barrier's phase has moved. -/
  | tbtry (h : Hdr) (pd : BitVec 4) (a b : BitVec 5)
  /-- CSRR (R443). Reads a CSR. -/
  | csrr (h : Hdr) (d : BitVec 5) (n : BitVec 12)
  /-- CSRW (R443). Writes a CSR. -/
  | csrw (h : Hdr) (a : BitVec 5) (n : BitVec 12)
  /-- CSRSC_SET (R443). Sets CSR bits and returns the old value. -/
  | csrscSet (h : Hdr) (d a : BitVec 5) (n : BitVec 12)
  /-- CSRSC_CLR (R443). Clears CSR bits and returns the old value. -/
  | csrscClr (h : Hdr) (d a : BitVec 5) (n : BitVec 12)
  /-- TRAP (R444). Raises TRAPI with a code. -/
  | trap (h : Hdr) (n : BitVec 12)
  /-- SYSC (R444). Raises SYSC with a service number. -/
  | sysc (h : Hdr) (n : BitVec 12)
  /-- RFT (R445). Returns from a trap to TPC. -/
  | rft (h : Hdr)
  /-- NRET (R446). Returns from a notify handler to y0. -/
  | nret (h : Hdr)
  /-- FEAT (R449). Reads a FEAT word. -/
  | feat (h : Hdr) (d : BitVec 5) (n : BitVec 8)
  /-- TLBI (R450). Removes every translation of an ASID. -/
  | tlbi (h : Hdr) (a : BitVec 5)
  /-- TLBI_ONE (R450). Removes the translations of an ASID that cover one address. -/
  | tlbiOne (h : Hdr) (a b : BitVec 5)
  /-- TRC (R451). Writes a trace record while profiling runs. -/
  | trc (h : Hdr) (a : BitVec 5) (tag : BitVec 16)
  /-- LUTLD (R452). Loads the crew's T4 table on this core. -/
  | lutld (h : Hdr) (a : BitVec 5)
  /-- CTXSW (R453). Swaps a slot with a closet entry. -/
  | ctxsw (h : Hdr) (a b : BitVec 5)
  /-- CKPT (R454). Seals the context's checkpoint interval. -/
  | ckpt (h : Hdr)
  /-- HALT (R455). Debug-halts the issuing thread when DBGEN is set. -/
  | halt (h : Hdr)
  /-- FENCEO (R456). Waits for acknowledgement of the thread's host and remote writes. -/
  | fenceo (h : Hdr)
  /-- COLD_RESET (R32). RST_N is released after REFCLK has been stable for 1 ms after PWRGD, which resets the package and starts management boot. -/
  | coldReset
  /-- WARM_RESET (R31). A WRST_N pulse of at least 10 µs resets the package and keeps the black-box ring. -/
  | warmReset
  /-- SECURE_BOOT (R80). The management processor loads, key-checks, signature-verifies and version-checks every firmware component, falling back to the other bank, then sets READY or FWERR. -/
  | secureBoot (pufOk : Bool)
  /-- HOST_LINK_TRAIN (R32). After firmware verification, the UCIe host link trains, either fully or for the mailbox only when FWERR is set. -/
  | hostLinkTrain (m0 m1 : Bool)
  /-- HOST_LINK_MODULE_FAIL (R18). A UCIe module fails to train or fails later; the link runs on one module, ONEMOD is set and the loss is logged. -/
  | hostLinkModuleFail (md : Nat)
  /-- SCALE_OUT_PORT_FAIL (R24). A scale-out port link fails; its unacknowledged transfers are reissued on up to 3 alternate ports of the same PMASK. -/
  | scaleOutPortFail (port : Nat)
  /-- SCALE_OUT_PORT_UP (R20). A scale-out port trains at 1.6 Tb/s and becomes a routing candidate. -/
  | scaleOutPortUp (port : Nat)
  /-- REMOTE_ROUTE_TIMEOUT (R23). No enabled, up port of PMASK becomes available, or no path exists, within 10 ms, so the remote transfer ends with RMTERR. -/
  | remoteRouteTimeout (vat idx : Nat)
  /-- SLW_ASSERT (R33). SLW_N has been low continuously for 2 µs and counts as asserted, which starts the supply-loss sequence if it has not started. -/
  | slwAssert
  /-- SUPPLY_LOSS_SEQUENCE (R95). Every crew is parked and saved, dirty L2 lines are written back, DRAM enters self-refresh, and the supply-loss marker is sealed within 4 ms. -/
  | supplyLossSequence
  /-- THERMTRIP (R34). A core or DRAM-layer sensor reaches 115 °C, THERMTRIP_N asserts and every clock outside management stops. -/
  | thermtrip (kind idx : Nat)
  /-- PSTP_FRAME (R27). A 16-byte telemetry frame is received and accepted or discarded, updating PSTPST counters and clearing LOST. -/
  | pstpFrame (bytes : BitVec 128) (idle : Nat) (clean : Bool)
  /-- TELEMETRY_LOST (R29). No frame is accepted for 1 ms, so PSTPST.LOST is set. -/
  | telemetryLost
  /-- DROOP_EVALUATION (R135). Within 10 µs of a frame end or of LOST rising, the raw level is computed and LEVEL, RISE, CEIL and ECEIL are updated. -/
  | droopEvaluation
  /-- ECEIL_STEP (R137). After each further 1 ms, ECEIL rises by one towards CEIL and restores one class. -/
  | eceilStep
  /-- SHED_GRACE_EXPIRY (R139). A marked crew's shed grace expires before it has parked, so it is gang-pre-empted into PREEMPT. -/
  | shedGraceExpiry (crew : Nat)
  /-- SENSOR_SAMPLE (R77). A sensor point is sampled at its period and its latest value is kept. -/
  | sensorSample (kind idx : Nat) (val : BitVec 16)
  /-- THERMAL_CAP_DROP (R146). A core has read above CLIM for 100 µs, so its quad's thermal cap drops one operating point. -/
  | thermalCapDrop (core : Nat)
  /-- THERMAL_CAP_RISE (R146). Every core of a quad has read at or below CLIM − 5 °C for 1 ms, so the cap rises one point. -/
  | thermalCapRise (quad : Nat)
  /-- DRAM_THROTTLE (R146). A DRAM layer reads above DLIM, so the die halves its refresh interval and caps DRAM bandwidth at 50 %. -/
  | dramThrottle (layer : Nat)
  /-- DRAM_THROTTLE_LIFT (R146). After 1 ms at or below DLIM − 5 °C, the DRAM bandwidth cap lifts. -/
  | dramThrottleLift (layer : Nat)
  /-- RELOCATION_MARK (R129). A core is still above its limit 1 ms after the first cap drop and an idle rectangle exists, so its crew is marked for relocation. -/
  | relocationMark (core : Nat)
  /-- RELOCATION (R130). At a barrier completion, a marked crew is spilled, moved to the new rectangle, remapped and restored, and the barrier then releases. -/
  | relocation (crew : Nat)
  /-- OPERATING_POINT_CHANGE (R144). A quad changes its CCLK operating point within 10 µs of its cause. -/
  | operatingPointChange (quad : Nat)
  /-- CORE_SLEEP (R145). A core whose slots are all vacant or parked, with no curd and no active press, enters its SLEEPD depth. -/
  | coreSleep (core : Nat)
  /-- CORE_WAKE (R145). An event makes a slot ready, and the core wakes after its depth's wake latency. -/
  | coreWake (core : Nat)
  /-- ENERGY_REFILL (R143). At each 1 µs boundary, each eligible thread's EBUD is refilled by EREF.RATE times the level's scale, capped at ECAP. -/
  | energyRefill
  /-- WS_REFRESH_WINDOW (R192). The refreshing weight-store bank group advances every 500 ns, and reads waiting on the previous group proceed. -/
  | wsRefreshWindow
  /-- STRUCTURE_ERROR (R85). An error in a structure of Table 4.6 fences it and starts its transparent test. -/
  | structureError (code unit : Nat) (corrected : Bool) (ctx : Nat)
  /-- SELF_TEST_DONE (R86). A fenced structure's test ends; a pass records a soft error and a failure retires the unit. -/
  | selfTestDone (code unit : Nat) (pass : Bool)
  /-- UNRECOVERABLE_FAULT (R87). Consumed uncorrected data or lost live state either rolls the context back, traps UNCORR or stops the crew and ends the graph with GRAPHERR. -/
  | unrecoverableFault (crew core slot : Nat) (byThread : Bool) (addr : BitVec 64)
  /-- CHECKPOINT_PERIOD (R92). The checkpoint period given at CREATE expires since the previous seal, which starts a seal. -/
  | checkpointPeriod (ctx : Nat)
  /-- INTERVAL_SEAL (R92). The context's crews are gang-parked and snapshotted, dirty L1-bit lines are written back, the marker is written, and held outputs are released. -/
  | intervalSeal (ctx : Nat)
  /-- ROLLBACK (R94). A checkpointed context's crews are stopped, held outputs are discarded, undo-log pre-images are written back and the snapshot is reloaded. -/
  | rollback (ctx : Nat)
  /-- BAR0_REGISTER_WRITE (R38). A host writes a device register that has no behaviour of its own, which stores the value under its field access. -/
  | bar0RegisterWrite (off : Nat) (val : BitVec 64)
  /-- Q0RING_WRITE (R40). A host write to Q0RING enables or disables queue 0 after checking SZ and ring placement. -/
  | q0ringWrite (val : BitVec 64)
  /-- Q0CPL_WRITE (R40). A host write to Q0CPL configures queue 0's completion ring while EN is 0. -/
  | q0cplWrite (val : BitVec 64)
  /-- PKGID_WRITE (R21). A host write to PKGID sets the package number and, with LOCK, locks it and enables the scale-out ports. -/
  | pkgidWrite (val : BitVec 32)
  /-- PSTPST_READ (R30). A read of PSTPST returns the word and clears its MISSED, CRCERR and FRAMERR counters. -/
  | pstpstRead
  /-- KICK (R42). A host write to a queue's KICK is tested against TAIL and HEAD, and either sets TAIL or stops the queue with BADKICK. -/
  | kick (q : Nat) (val : BitVec 32)
  /-- CPLHEAD_WRITE (R60). A host write to CPLHEAD frees completion-ring records, so waiting records and commands may proceed. -/
  | cplheadWrite (q : Nat) (val : BitVec 32)
  /-- COMMAND_FETCH (R44). The command processor reads the command at HEAD, checks its header and body, advances HEAD and EXPSEQ, and begins it or stops the queue. -/
  | commandFetch (q : Nat)
  /-- HEADER_REREAD (R44). In WAIT, the header is re-read every 1 µs; a match returns the queue to RUN, and the 64th mismatch stops it with STALEPKT. -/
  | headerReread (q : Nat)
  /-- COMPLETION_RECORD_WRITE (R60). A completed command's 32-byte record is written once the ring has room and any checkpoint hold ends, then IRQ signals the vector. -/
  | completionRecordWrite (q : Nat)
  /-- NOP_PACKET (R48). A NOP command completes when it is read. -/
  | nopPacket (q : Nat)
  /-- LAUNCH (R105). A LAUNCH validates the graph descriptor, allocates the graph's save-area range, initialises its queues and wait-lists its crews. -/
  | launch (q : Nat)
  /-- COPY (R52). A hub COPY registers its holds and moves BYTES from SRC to DST on the hub copy engine. -/
  | copy (q : Nat)
  /-- HUB_COPY_DONE (R52). The hub copy's last byte lands and its holds are released, or a translation fault ends it, which completes the COPY. -/
  | hubCopyDone (id : Nat)
  /-- SIGNAL_STORE (R53). A SIGNAL with OP 0 performs one 64-bit store in the global order. -/
  | signalStore (q : Nat)
  /-- SIGNAL_ATOMIC_ADD (R53). A SIGNAL with OP 1 performs a 64-bit wrapping add at the home slice. -/
  | signalAtomicAdd (q : Nat)
  /-- SIGNAL_ARRIVE (R53). A SIGNAL with OP 2 arrives once at the transaction barrier at ADDR, as TBARV does. -/
  | signalArrive (q : Nat)
  /-- WAITV (R53). A WAITV evaluates its condition on ADDR and waits in WAIT until the condition holds. -/
  | waitv (q : Nat)
  /-- WAITV_REEVALUATE (R53). A write to the watched device line, or the 1 µs poll of a host address, re-evaluates a waiting WAITV and completes it if the condition holds. -/
  | waitvReevaluate (q : Nat)
  /-- WAITV_TIMEOUT (R53). A WAITV's TMO expires, so it writes a TIMEOUT record and the queue stops with WAITTMO. -/
  | waitvTimeout (q : Nat)
  /-- WSLOAD (R58). A WSLOAD checks the region state, owner and bounds, then writes BYTES into every replica of the region. -/
  | wsload (q : Nat)
  /-- WSSEAL_SEAL (R59). WSSEAL OP 0 waits for earlier WSLOADs to the region and then seals it. -/
  | wssealSeal (q : Nat)
  /-- WSSEAL_REOPEN (R59). WSSEAL OP 1 marks the region open and waits for earlier engine fetches from it to complete. -/
  | wssealReopen (q : Nat)
  /-- CREATE (R56). CTXCTL CREATE makes a context with its ASID, page-table root, save area, checkpoint settings and initial TVEC. -/
  | create
  /-- DESTROY (R56). CTXCTL DESTROY stops the context's queues, aborts its graphs, frees its regions, invalidates its ASID and frees its number. -/
  | destroy
  /-- QSET (R56). CTXCTL QSET binds an OFF queue to a context with class, weight and rings, and puts it in RUN. -/
  | qset
  /-- QRESET (R56). CTXCTL QRESET sets HEAD, TAIL and EXPSEQ of a stopped or OFF queue and optionally enables it. -/
  | qreset
  /-- WSREG (R57). CTXCTL WSREG registers an open weight region on the dies of its mask, checking overlap and bounds. -/
  | wsreg
  /-- WSFREE (R59). CTXCTL WSFREE frees a registered region that is not sealed and has no WSLOAD in flight. -/
  | wsfree
  /-- CKPT_PACKET (R92). A CKPT packet seals the queue's context's open interval and completes with the interval number. -/
  | ckptPacket (q : Nat)
  /-- RESYNC (R61). RESYNC writes the summary header and sections 1 to 8 to BUF, truncating when SIZE is too small. -/
  | resync
  /-- PREEMPT_SWAP_OUT (R54). PREEMPT OP 0 brings every crew of the target graph into SWAPPED. -/
  | preemptSwapOut (q : Nat)
  /-- PREEMPT_RESTORE (R54). PREEMPT OP 1 re-lists every SWAPPED crew of the graph in WAIT. -/
  | preemptRestore (q : Nat)
  /-- PROFILE_START (R100). PROFILE OP 0 starts profiling the context into a ring, spilling to any earlier ring first. -/
  | profileStart (q : Nat)
  /-- PROFILE_STOP (R100). PROFILE OP 1 stops profiling for the context. -/
  | profileStop (q : Nat)
  /-- PROFILE_SPILL (R101). PROFILE OP 2 spills every profile table and counter to the ring. -/
  | profileSpill (q : Nat)
  /-- PROFILE_ACCOUNT (R101). Every CCLK cycle, each core classes every slot's rotation slot, updates the histogram and the PC table, and spills displaced entries. -/
  | profileAccount
  /-- QFENCE (R50). A QFENCE waits for its own queue's earlier commands and, with ALSO = 1, for queue Q2 through sequence S2. -/
  | qfence (q : Nat)
  /-- ATTEST (R84). The mailbox command ATTEST increments the leaf counter and signs a package or context attestation report under XMSS^MT. -/
  | attest (writeOk : Bool)
  /-- BBREAD (R78). The mailbox command BBREAD returns black-box records newest first into the data window. -/
  | bbread
  /-- FWSTAGE (R81). The mailbox command FWSTAGE writes an image chunk into the component's inactive flash bank. -/
  | fwstage
  /-- FWACTIVATE (R81). The mailbox command FWACTIVATE verifies the staged image, marks it active for the next cold reset and raises the version counter. -/
  | fwactivate
  /-- SENSRD (R77). The mailbox or SMBus command SENSRD returns 16-bit sensor readings. -/
  | sensrd
  /-- DBGHALT (R98). The mailbox command DBGHALT halts one context's threads in the named vats and freezes its copies and presses there. -/
  | dbghalt
  /-- DBGRESUME (R98). The mailbox command DBGRESUME resumes a context's halted threads in the named vats. -/
  | dbgresume
  /-- DBGSTEP (R99). The mailbox command DBGSTEP grants a halted thread the stated number of turns and then halts it again. -/
  | dbgstep
  /-- DBGREAD (R99). The mailbox command DBGREAD returns the thread state named by the selector. -/
  | dbgread
  /-- DBGWRITE (R99). The mailbox command DBGWRITE writes thread state, which affects only later reads. -/
  | dbgwrite
  /-- DBGCFG (R98). The mailbox command DBGCFG writes a vat's DBGCTL: breakpoint, watch range and cross-trigger group. -/
  | dbgcfg
  /-- MAILBOX_DONE (R79). A mailbox command completes: BUSY clears, DONE and STATUS are set, and an MSI-X vector is signalled if requested. -/
  | mailboxDone
  /-- BREAKPOINT_HALT (R98). A context's thread issues from the breakpoint line and slot, or touches the watch range, and the vat halts with cross-trigger propagation. -/
  | breakpointHalt (core slot : Nat)
  /-- HOST_MEM_ACCESS (R218). A host CXL.mem read or write is performed at the line's home slice, waiting while the line is held. -/
  | hostMemAccess (write : Bool) (line : Nat) (data : BitVec 512) (mask : BitVec 64)
  /-- HOST_HOLD_TIMEOUT (R209). A host access has waited 100 µs on a hold, so a read returns poison and a write is discarded. -/
  | hostHoldTimeout (id : Nat)
  /-- PLACEMENT_RESERVE (R110). The distributor reserves an eligible rectangle for the next crew in the wait list and begins writing its slots. -/
  | placementReserve
  /-- PLACEMENT_COMMIT (R110). LOAD ends, ownership of the slots and presses passes to the crew, and SCRIMG copying begins. -/
  | placementCommit
  /-- SCRIMG_COPY_DONE (R110). The SCRIMG bytes have been copied, so the crew enters RUN, or PREEMPT if its class is shed. -/
  | scrimgCopyDone (crew : Nat)
  /-- WAIT_LIST_STARVATION (R113). The earliest crew of a class has waited 10 ms, so no crew of that class or lower priority is placed ahead of it. -/
  | waitListStarvation (cls : Nat)
  /-- GANG_PREEMPT (R125). A crew's threads stop, its presses spill, its copies are saved and its state goes to the save block. -/
  | gangPreempt (crew : Nat)
  /-- SWAP_OUT (R125). A pre-empted crew's scratchpads are written to its save block and its rectangle is released. -/
  | swapOut (crew : Nat)
  /-- CREW_RESTORE (R126). A saved crew's scratchpads, holds, presses, threads, LPR and barriers are reloaded before any of its threads issues. -/
  | crewRestore (crew : Nat)
  /-- IDLE_SWAP (R121). The distributor swaps out an idle crew to place another, and re-lists it when an item enters its input queues. -/
  | idleSwap (crew : Nat)
  /-- ITEM_DISPENSE (R116). A task dispenser writes the next item into a WFW thread's g0–g9 and re-inserts the thread. -/
  | itemDispense (gid task : Nat)
  /-- EOS_DISPENSE (R119). A queue's end-of-stream token is dispensed once to each unexited consumer thread at its WFW. -/
  | eosDispense (gid q core slot : Nat)
  /-- GRAPH_RETIRE (R122). When every retirement condition holds, the graph's crews and storage are freed and its LAUNCH completes. -/
  | graphRetire (gid : Nat)
  /-- ASYNC_TRAP_ENTRY (R447). At an instruction boundary with NEST = 0, the oldest pending asynchronous trap is taken with TPC at the next instruction. -/
  | asyncTrapEntry (core slot : Nat)
  /-- NOTIFY_ENTRY (R173). A slot takes its oldest notify entry at a boundary, sets y0–y3 and enters NVEC in notify mode. -/
  | notifyEntry (core slot : Nat)
  /-- ASYNC_RESULT_LAND (R153). An asynchronous result lands in its destination register, setting it full and its flags. -/
  | asyncResultLand (core slot i : Nat)
  /-- ACCESS_PERFORMED (R150). A parked thread's memory access, atomic or pop is performed in the global order and the thread resumes. -/
  | accessPerformed (core slot : Nat)
  /-- SEND_DELIVERY (R160). A buffered send word enters its target's inbound queue once there is room. -/
  | sendDelivery (core slot : Nat)
  /-- PUTR_LAND (R162). A buffered PUTR lands once its target register is empty with no producer outstanding. -/
  | putrLand (core slot : Nat)
  /-- SEND_TIMEOUT (R161). A thread parked on a send, PUTR, mailbox push or graph-queue push for SNDTMO µs traps with SNDTO. -/
  | sendTimeout (core slot : Nat)
  /-- CURD_ADMIT (R167). A migrating curd is admitted into its home core's class run queue when there is room, freeing its source slot. -/
  | curdAdmit (core slot : Nat)
  /-- CURD_RESUME (R167). An admitted curd resumes in a vacant worker slot of its crew on the home core. -/
  | curdResume (core : Nat)
  /-- CLOSET_SWAP (R169). Once the slot's pending results have landed, a slot and a closet entry are exchanged within 64 cycles. -/
  | closetSwap (core : Nat)
  /-- MOVEMENT_SWAP (R108). Slot 7 is swapped through the closet to another crew's movement context when the resident one parks on empty mailboxes. -/
  | movementSwap (core : Nat)
  /-- PACT_FORM (R226). A pact's second half arrives and is compared; destination and weight ranges are checked, holds are registered and a queue entry is taken. -/
  | pactForm (press : Nat) (tag : BitVec 8)
  /-- PACT_TIMEOUT (R237). A thread waiting on a half or a suspended pact for PACTMO µs traps PTIMEO and that pact is cancelled. -/
  | pactTimeout (core slot : Nat)
  /-- PRESS_ENTRY_START (R234). A press queue entry begins once earlier entries naming its slot or path-trace registers have completed and the array is free. -/
  | pressEntryStart (press i : Nat)
  /-- PACT_STREAM_END (R231). A pact's last K-step or descent level ends, and it enters DELIVER or DONE. -/
  | pactStreamEnd (press : Nat)
  /-- PACT_DELIVERY_DONE (R233). A pact's last delivery granule is counted, and its flags merge into the lead's FCSR. -/
  | pactDeliveryDone (press i : Nat)
  /-- PACT_SUSPEND (R239). A streaming pact or descent reaches its next suspension point with a suspension cause pending, and suspends. -/
  | pactSuspend (press koff : Nat)
  /-- PACT_RESUME (R239). Every suspension cause of a pact has cleared, and it resumes streaming from its saved offset. -/
  | pactResume (press : Nat)
  /-- OPERAND_FAULT (R240). An operand element or scale entry fails to fetch, so the pact suspends and the owning end receives PFLT. -/
  | operandFault (press koff : Nat) (own scale : Bool) (addr : BitVec 64)
  /-- DELIVERY_FAULT (R242). A delivery granule fails to land, so the pact enters DFAULT, TB is updated by BarError and the lead receives PDLV. -/
  | deliveryFault (press i landed : Nat) (addr : BitVec 64)
  /-- COPY_SECTOR_LAND (R430). A copy-engine sector lands and counts at its barrier; the last one writes status and releases holds first. -/
  | copySectorLand (vat idx sector : Nat)
  /-- COPY_FAILURE (R434). A copy meets an unrecoverable failure, so the status is written, holds are released and BarError updates the barrier. -/
  | copyFailure (vat idx sector : Nat) (rmt : Bool)
  /-- CPYM_ACCEPT (R194). A parked CPYM finds BFk set at every named core, is accepted and clears the flags. -/
  | cpymAccept (core : Nat)
  /-- REMOTE_WRITE_ARRIVE (R220). An incoming remote write or atomic add registers its hold and is performed at the destination package's home slice. -/
  | remoteWriteArrive (xfer kind ctx asid : Nat) (va : BitVec 64) (n : Nat) (data : RemotePacket) (last : Bool)
  /-- STREAM_ELEMENT_FETCH (R158). A read stream fetches an element ahead under its read hold. -/
  | streamElementFetch (core slot sr : Nat)
  /-- STREAM_ELEMENT_LAND (R395). An appended write-stream element lands, or fails and stops the stream. -/
  | streamElementLand (core slot sr : Nat) (ok : Bool)
  /-- TLBI_COMPLETE (R179). Every matching TLB entry has been removed and every affected walk and access has finished, so the TLBI completes. -/
  | tlbiComplete (core slot : Nat)
  /-- SLW_RELEASE (R33). SLW_N rises again, DEVSTAT.SLW clears, and LAUNCH commands that were waiting in their queues may begin. -/
  | slwRelease
  /-- WSLOAD_DONE (R58). The last byte of a WSLOAD is in every replica, so the command completes and a waiting WSSEAL or a later COPY or WSLOAD of the queue may proceed. -/
  | wsloadDone (i : Nat)
  /-- REMOTE_HOLD_WAIT_TIMEOUT (R207). An incoming remote operation has waited 10 ms on a conflicting hold and ends with RMTERR. -/
  | remoteHoldWaitTimeout (xfer : Nat)
  /-- WRITE_ACKNOWLEDGE (R219). The host link, or a destination package, acknowledges a thread's store, atomic or remote atomic add, which can release a FENCEO park. -/
  | writeAcknowledge (core slot n : Nat)
  /-- KEY_TREE_STATE_LOAD (R84). The management processor loads the encrypted XMSS^MT tree state, at most 50 ms after READY, after which ATTEST stops returning STATUS 4. -/
  | keyTreeStateLoad
  /-- VSTBY_FAILURE (R96). The VSTBY rail fails, so DRAM self-refresh, management SRAM and the supply-loss state are lost. -/
  | vstbyFailure
  /-- SLOT_COMMAND_DONE (R423). A single-end press command (PCLR, PSCL, PLDS, PSTS, PWRT) finishes in the press, releases any image hold, resumes a parked issuer and frees its queue place. -/
  | slotCommandDone (press i : Nat)
deriving DecidableEq, Repr

end Sys2Proof
end

