-- ==== Sys2Proof/Machine/State.lean ====
section
/-! DEFINITION. The state of the package as plain data: threads, cores, memory, presses, crews, graphs, contexts, host
queues, power and management, each with what the spec names; the reasons a step can stop; and the state after reset. -/

namespace Sys2Proof.Machine

/-! ## Names of threads, presses and agents -/

/-- A thread context named as the spec's records name it: its crew, its crew-logical core index (row-major in the
crew) and its crew-logical slot (R466). Swaps and relocations do not change it. -/
structure TRef where
  crew : Nat
  lcore : Nat
  lslot : Nat
deriving DecidableEq, Repr

/-- A write of one register, as a producer leaves it: a general specifier, a vector, a mask or a predicate. -/
inductive RegWrite where
  | g (r : BitVec 5) (v : Word)
  | v (r : BitVec 4) (v : Vec)
  | m (r : BitVec 3) (v : Mask)
  | p (r : BitVec 4) (v : Bool)
  /-- y0–y3, named by specifiers 10–13 inside a notify handler (R156). -/
  | y (r : BitVec 2) (v : Word)
deriving DecidableEq, Repr

/-- A result that has been computed and not yet written (R152, R153). -/
structure Pending where
  /-- Turns of the thread left before a fixed-latency result is written; none for an asynchronous result. -/
  left : Option Nat
  /-- The registers that the producer owns, with the values that land. -/
  writes : List RegWrite
  /-- Floating-point flags that are set when the result is written (R327, R356). -/
  flags : BitVec 5
  /-- Whether the value has still to come from a press (PRDT, R426): then it does not land by itself. -/
  awaits : Bool
  /-- It is a floating-point result, whose flags an access to FCSR waits for (R443). -/
  fp : Bool
deriving DecidableEq, Repr

/-- Why a thread is parked (R147, R150; the reasons of the not-ready counters of R101). -/
inductive ParkWhy where
  /-- An empty or pending register, or a destination with an outstanding producer (R153, R326). -/
  | reg
  /-- A memory access that is not yet performed, hold-table entries, or a crew that is not placed (R150, R183, R206). -/
  | memory
  /-- A send, PUTR, pop, mailbox or graph queue (R150, R160, R163, R118). -/
  | message
  /-- A half in a rendezvous table (R225). -/
  | pact
  /-- A full rendezvous table or a full press queue (R225, R234). -/
  | pressQueue
  /-- The wait of PWAIT, of PABT, or of a slot command (R420 to R424). -/
  | press
  /-- A crew hardware barrier (R406). -/
  | barrier
  /-- A transaction barrier (R441). -/
  | tbar
  /-- An event flag (R408). -/
  | event
  /-- WFW (R349). -/
  | wfw
  /-- EXIT that still waits (R351). -/
  | exit
  /-- A stall on the energy budget (R143). -/
  | budget
  /-- TLBI, FENCEO, CKPT and CTXSW until they complete (R448 to R457). -/
  | system
  /-- A curd that travels or waits for admission (R165, R167). -/
  | migrate
deriving DecidableEq, Repr

/-- The operand values of an instruction that has passed its issue checks and been debited: what it read at issue. -/
structure Ops where
  a : Word
  b : Word
  c : Word
  d : Word
  va : Vec
  vb : Vec
  vc : Vec
  vd : Vec
  ma : Mask
  mb : Mask
  pa : Bool
  pb : Bool
  /-- The predicate word, for PGET. -/
  pw : BitVec 16
  /-- The resolved record of a parameter block (R299). -/
  rcd : BitVec 320
  /-- Words of an item (R412). -/
  item : List Word
  /-- The instruction was issued inside a notify handler or at an earlier moment: the rounding mode of FCSR then. -/
  rm : BitVec 2
  /-- The general specifiers that the instruction writes: it is their producer while it is parked (R162). -/
  gd : List (BitVec 5)
  /-- The address of the instruction after the turn: the link, and where the thread goes on. -/
  nxt : Word
  /-- The instruction's own code address. -/
  own : Word
deriving DecidableEq, Repr

/-- A parked thread (Table 7.6, offset 0x690: the park reason and the parked instruction's address). -/
structure Park where
  why : ParkWhy
  /-- Address of the parked instruction, or of the first member of its pair. -/
  addr : Word
  /-- Empty when the instruction is issued again from its first step; otherwise the members that have been debited and
  wait for their effect, with what they read. -/
  resume : List (Instr × Ops)
  /-- Where the thread goes on, when its effect has been made and only the wait is left (BAR after its arrival, EXIT,
  a half in the table): none while the effect is still to come. -/
  next : Option Word
  /-- A number that the waiting operation knows the thread by (a pact, a command), 0 where there is none. -/
  key : Nat
  /-- A number that rises with the moment of parking: parked pushes on one queue are performed in this order (R118). -/
  stamp : Nat
  /-- The members in `resume` are not tried before the thread is released: they are the EXIT or WFW of a pair whose other
  member waits. -/
  held : Bool
deriving DecidableEq, Repr

/-- An entry of a notify queue (R172, R173): barrier address, phase that completed, error bit. -/
structure Notify where
  addr : Word
  phase : BitVec 4
  err : Bool
deriving DecidableEq, Repr

/-- A pending asynchronous trap (Table 7.6, offset 0x748; R447). -/
structure AsyncTrap where
  cause : BitVec 8
  addr : Word
  aux : Word
deriving DecidableEq, Repr

/-- A word in the one-word outbound buffer: its target, and the register it is meant for when it is a PUTR (R160, R162). -/
structure OutWord where
  core : BitVec 12
  slot : BitVec 3
  reg : Option (BitVec 5)
  word : Word
deriving DecidableEq, Repr

/-- A fetched element of a read stream that waits to be popped: its value, or the fault that its read will take (R395). -/
structure StreamElem where
  val : Word
  /-- Cause of the fault, 0 when there is none; the fault's TAUX. -/
  cause : BitVec 8
  aux : Word
deriving DecidableEq, Repr

/-- A stream register's binding (R392 to R397; Table 7.6, offset 0x5A0). -/
structure StreamBind where
  /-- Bytes 0–39: the resolved descriptor. -/
  desc : BitVec 320
  /-- Bytes 40–43: elements read or appended. -/
  count : Nat
  /-- Byte 44 bit 0. -/
  bound : Bool
  /-- Byte 44 bit 1: a write stream that has stopped. -/
  stopped : Bool
  /-- Read stream: elements fetched ahead, oldest first (at most 16). Write stream: appended elements in flight. -/
  buf : List StreamElem
  /-- The fault that stopped a write stream: cause, address and TAUX. -/
  stop : Option AsyncTrap
  /-- The owner number of the stream's holds. -/
  hold : Nat
  /-- Translations latched at SBIND: page VA, PA and page entry; whether a TLBI has completed since (R180); and whether the thread
  bound it at U. -/
  pages : List (Nat × Nat × BitVec 64)
  retrans : Bool
  user : Bool
deriving DecidableEq, Repr

/-- An unbound stream register. -/
def StreamBind.none : StreamBind := ⟨0, 0, false, false, [], Option.none, 0, [], false, false⟩

/-- The control registers that travel with a thread context (R442; Table 7.6, offset 0x510). -/
structure Csrs where
  tstat : Word
  tpc : Word
  tcause : Word
  taddr : Word
  taux : Word
  tnest : Word
  tvec : Word
  uvec : Word
  nvec : Word
  tdlg : Word
  fcsr : Word
  ebud : Word
  eref : Word
  ecap : Word
  ecost : Word
  lpr : Word
  sndtmo : Word
  pactmo : Word
deriving DecidableEq, Repr

/-- A pact that a thread has joined and that PWAIT, EXIT and TMODE ask about (R233, R351, R404). -/
structure Joined where
  press : Nat
  /-- The far end (ports w and n). -/
  far : Bool
  tag : BitVec 8
  /-- The pact's number. -/
  pact : Nat
deriving DecidableEq, Repr

/-- The stages of the default movement routine (R164). -/
inductive MoverStage where
  /-- It pops its mailboxes. -/
  | pop
  /-- It executes EXIT. -/
  | leave
  /-- It reads the request block at an address. -/
  | read (va : Word)
  /-- It issues the request of a block that it has read. -/
  | ask (va : Word) (blk : BitVec 512)
  /-- The request has been issued and waits for the engine. -/
  | sent (va : Word)
  /-- It stores TADDR, where that is still to do, and then the status dword. -/
  | tell (va status : Word) (addr : Option Word)
deriving DecidableEq, Repr

/-- A thread context (R168, R170, Table 7.6), with the state of the thread that Table 7.6 does not name because it is
empty whenever the context is stored. -/
structure Thread where
  /-- The crew whose record this is, and its place in the crew. -/
  ref : TRef
  /-- Whether a thread occupies the slot. -/
  occ : Bool
  /-- Whether the thread has executed EXIT. -/
  exited : Bool
  /-- Specifiers 0–22: g0–g9, h0–h12 (R155). -/
  g : Vector Word 23
  /-- v0–v15. -/
  v : Vector Vec 16
  /-- m0–m7; m0 is kept at 0xFFFF (R156). -/
  m : Vector Mask 8
  /-- Full bits: 22:0 specifiers, 38:23 v0–v15, 46:39 m0–m7. -/
  full : BitVec 47
  /-- The predicate word; bit 0 reads 1. -/
  pred : BitVec 16
  /-- y0–y3 (R156), and their full bits (Table 7.2). -/
  y : Vector Word 4
  yfull : BitVec 4
  light : Bool
  /-- In a notify handler. -/
  notify : Bool
  /-- The PC, as a code address (R283). -/
  pc : Word
  csr : Csrs
  streams : Vector StreamBind 4
  /-- q0–q3 binding dwords (Table 17.6). -/
  queues : Vector Word 4
  outBuf : Option OutWord
  park : Option Park
  /-- Notify queue, at most 8 entries, oldest first. -/
  nq : List Notify
  /-- Mailboxes 0–3 and their full bits, used by a movement context (R163). -/
  mbox : Vector Word 4
  mboxFull : BitVec 4
  /-- The mailbox popped last. -/
  mboxLast : BitVec 2
  /-- The worker slot whose mailbox push was served last, for each mailbox (R163). -/
  mboxServed : Vector Nat 4
  /-- Inbound queue, at most 16 words, oldest first; its head index in the stored layout. -/
  inq : List Word
  inHead : BitVec 4
  /-- Pending asynchronous traps, oldest first, and the causes that wait for a place behind three (R447). -/
  atraps : List AsyncTrap
  atrapsHeld : List AsyncTrap
  /-- Results computed and not yet written. -/
  pend : List Pending
  /-- Turns still to be skipped under a wait count (R152). -/
  skip : Nat
  /-- The image of the line the thread issues from, and its virtual line address (R290). -/
  line : Option (Word × LineImg)
  /-- The next fetch is an entry that checks TGT: first start, trap entry, notify entry (R286). -/
  entry : Bool
  /-- Time in ns that the current park has counted towards SNDTMO or PACTMO. -/
  timer : Nat
  /-- Pacts the thread has joined or ordered a PRDL of, oldest first. -/
  joined : List Joined
  /-- The slot is frozen by a double trap (R97). -/
  frozen : Bool
  /-- Stores and atomics to host memory, and remote atomic adds, not yet acknowledged (R219, R220). -/
  unacked : Nat
  /-- Halted by the vat debug module, or by HALT (R98, R455). -/
  halted : Bool
  /-- The halt is HALT's own, which only a resume of the thread's vat ends (R455). -/
  haltOwn : Bool
  /-- Single-step turns that a DBGSTEP still allows (R98). -/
  steps : Nat
  /-- Lanes that a GATH or SCAT in flight has performed, and the values that the GATH has read (R387). -/
  lanes : Option (Nat × Vec)
  /-- The value and the flags of an access that has been performed, while the push of that value waits (R380). -/
  carry : Option (Word × BitVec 5)
  /-- SNDTMO and PACTMO before a write of either, which its timers use until this DEVTIME: the next µs (R443). -/
  tmoWas : Option (Nat × Word × Word)
  /-- Where a movement context stands in the default routine (R164). -/
  mover : MoverStage
deriving DecidableEq, Repr

/-- A curd (Table 7.5) with the thread place it left. -/
structure Curd where
  g : Vector Word 10
  full : BitVec 10
  pc : Word
  pred : BitVec 16
  ctx : Nat
  cls : Nat
  prv : Bool
  rm : BitVec 2
  flags : BitVec 5
  /-- Context-logical source core and source slot. -/
  srcCore : BitVec 12
  srcSlot : BitVec 3
  /-- The crew, and the writes of the thread that are not acknowledged yet (R219), kept beside the packet's own fields. -/
  crew : Nat
  unacked : Nat
  /-- The input queues of its task whose end-of-stream token the thread has received (R119). -/
  eos : List Nat
deriving DecidableEq, Repr

/-! ## Translation and caches -/

/-- A cached translation (R178): ASID, virtual page base and size, the page entry and its level. -/
structure TlbEntry where
  asid : Nat
  va : Nat
  size : Nat
  lvl : Nat
  pte : BitVec 64
deriving DecidableEq, Repr

/-- A range hold (R203 to R206): agent code of Table 9.2, owner, kind, physical range and context. -/
structure Hold where
  agent : Nat
  owner : Nat
  write : Bool
  lo : Nat
  len : Nat
  ctx : Nat
deriving DecidableEq, Repr

/-! ## Presses -/

/-- Pact states (Table 10.6). -/
inductive PactState where
  | half
  | queued
  | stream
  | susp
  | deliver
  | dfault
  | done
  | cancel
deriving DecidableEq, Repr

/-- The kinds of entry of a press: the three pact opcodes and the single-end commands (R225, R423). -/
inductive PressOp where
  | pmm
  | pdsc
  | pdgr
  | pclr
  | pscl
  | plds
  | psts
  | prdl
  | prdt
  | pwrt
deriving DecidableEq, Repr

/-- A half in a rendezvous table (R225): its record, its end, its issuer and the operands it read. -/
structure Half where
  op : PressOp
  rcd : BitVec 320
  far : Bool
  tag : BitVec 8
  issuer : TRef
  /-- SCL factor of a lead, read at issue (R231). -/
  factor : Word
  id : Nat
deriving DecidableEq, Repr

/-- Why a pact is suspended (R239). -/
structure SuspCauses where
  /-- An operand fault of the lead (A) or of the B end. -/
  faultA : Bool
  faultB : Bool
  /-- An issuing thread is pre-empted. -/
  preempt : Bool
  /-- The crew is pre-empted, sealed, swapped, relocated, shed, fenced or halted. -/
  gang : Bool
deriving DecidableEq, Repr

/-- A formed pact or a single-end command: an entry of a press's command queue, or what the press keeps of one that has
left it (R234, R421). -/
structure PressEntry where
  id : Nat
  op : PressOp
  /-- The record of the lead (or of the command's pact), and of the other end. -/
  recA : BitVec 320
  recB : BitVec 320
  /-- Which end leads: true when the lead is the far end. For a command, the issuing end. -/
  leadFar : Bool
  tag : BitVec 8
  state : PactState
  /-- The issuers of the lead half and of the other half; equal for a command. -/
  lead : TRef
  other : TRef
  /-- SCL factor, PSCL factor, PLDS or PSTS address, PRDL destination, PWRT value. -/
  opA : Word
  /-- PRDL barrier, PRDT destination register. -/
  opB : Word
  /-- Slot, FP64 pair flag and path-trace index of a command. -/
  slot : Nat
  f64 : Bool
  pt : Nat
  /-- K-steps done; for a descent 1 plus levels completed, 0 before the row load. -/
  kdone : Nat
  /-- Granules counted; adds performed for PDGR. -/
  gran : Nat
  flags : BitVec 5
  causes : SuspCauses
  /-- The gang's base entry: equal numbers make one gang (R246). -/
  gang : Nat
  /-- The slot of a single-end command as issued (R462), and the resolved addresses of a pact: lead operand, B operand,
  destination and barrier, 0 where there is none. -/
  insn : Slot
  addrs : List Nat
  /-- PABT has asked for a cancellation at the next suspension point. -/
  abort : Bool
  /-- T4 tables latched at formation, for A and for B (R257, R461). -/
  t4a : BitVec 128
  t4b : BitVec 128
  /-- Who is told of a delivery fault: the lead's issuer, or the issuer of the PRDL that delivers again (R425). -/
  pdlv : TRef
  /-- Translations latched at formation: page VA, PA and page entry; and whether a TLBI has completed since (R180). -/
  pages : List (Nat × Nat × BitVec 64)
  retrans : Bool
  /-- Privilege of the two issuers when the pact formed: the lead's and the other's (R177, R180). -/
  userA : Bool
  userB : Bool
  /-- Reads of the weight store that a refresh window has delayed since the last progress: whether the lead's, port line and window
  (R192). -/
  delays : List (Bool × Nat × Nat)
  /-- A gang's member whose own sub-tile has landed whole (R217). -/
  landed : Bool
  /-- Another press of the gang has met a delivery fault at this address, which this one will tell its lead (R242). -/
  doomed : Option Word
  /-- A PRDL delivers the pact again: it is in DFAULT until that is done (R425, Table 10.7). -/
  redo : Bool
deriving DecidableEq, Repr

/-- A press (R222). -/
structure Press where
  /-- S0–S3 as 32-bit words: slot × 4,096 + word index; a missing word is 0 (R223). -/
  slots : List (Nat × BitVec 32)
  halves : List Half
  /-- Command queue, in order of arrival, at most 4. -/
  queue : List PressEntry
  /-- Pacts that have left the table and the queue, as PQRY reports them (R421), newest first. -/
  past : List (Bool × PressEntry)
  /-- PT0–PT15. -/
  pt : Vector Word 16
  /-- Latched T4 tables: entry c of a table in bits 8c + 7 : 8c. -/
  t4a : BitVec 128
  t4b : BitVec 128
  /-- The pair into which the last completed descent loaded its rows (R268). -/
  rows : Option Nat
deriving DecidableEq, Repr

/-! ## Copy engines -/

/-- The route of a remote command, as it was when the engine accepted it (R22, R23): the destination is this package, or the ports
that may carry it; the port that carries it; the port that failed under it, after which its alternates are counted (R24); since when
it has no path, if it has none; and since when it waits on a conflicting hold at the destination (R207). -/
structure CopyRoute where
  own : Bool
  pmask : Nat
  port : Option Nat
  failed : Option Nat
  since : Nat
  heldAt : Option Nat
deriving DecidableEq, Repr

/-- A command of a copy engine (R193, R428 to R436). -/
structure CopyCmd where
  id : Nat
  /-- 0 CPY, 1 CPYM, 2 GATHR. -/
  kind : Nat
  rcd : BitVec 320
  /-- The CPYM buffer. -/
  buf : Nat
  issuer : TRef
  /-- First sector or element not landed, and the later ones that have landed. -/
  next : Nat
  landed : List Nat
  /-- Sectors counted at the barrier, and those of them in which a GATHR gathers elements again after a save (R436). -/
  counted : Nat
  again : List Nat
  flags : BitVec 5
  /-- Translations at issue of the pages of the command's ranges: page VA, PA and page entry (R180). -/
  pages : List (Nat × Nat × BitVec 64)
  /-- A TLBI has completed since the command was accepted: its remaining sectors are translated again (R180). -/
  retrans : Bool
  /-- The issuer's privilege was U. -/
  user : Bool
  /-- Units that a seal has released from the output buffer and that have still to land (R91). -/
  sent : List Nat
  route : CopyRoute
  /-- A command to a range of this package by package number holds it from its first sector on (R203, code 8). -/
  destHeld : Bool
deriving DecidableEq, Repr

/-! ## Cores, crews and graphs -/

/-- A closet entry (R169): the stored context, and the moment of its last use for the least-recently-used choice. -/
structure ClosetEntry where
  th : Thread
  used : Nat
deriving DecidableEq, Repr

/-- Core-level state (R178, R184, R185, R145, R167, R86). -/
structure Core where
  /-- SLEEPD. -/
  sleepd : Word
  /-- The core is at its sleep depth, and the DEVTIME at which a started wake ends. -/
  asleep : Bool
  wakeAt : Nat
  /-- Run queues of curds, in FIFO order, all classes in one list in order of admission (R167). -/
  runq : List Curd
  /-- Core TLB, newest first, at most 64 entries. -/
  tlb : List TlbEntry
  /-- The core is retired (R86). -/
  retired : Bool
  /-- Consecutive samples above CLIM, and the time its last drop began to count for relocation (R129, R146). -/
  hot : Nat
  hotSince : Option Nat
  /-- The last junction temperature, in units of 0.25 °C (Table 4.1). -/
  temp : Nat
deriving DecidableEq, Repr

/-- Vat-level state (R178, R193, R98). -/
structure Vat where
  /-- Vat TLB, newest first, at most 2,048 entries. -/
  tlb : List TlbEntry
  /-- Copy commands in progress, oldest first, at most 32. -/
  copies : List CopyCmd
  /-- DBGCTL (Table 4.11), its watch range and the context it was configured for a halt of. -/
  dbgctl : Word
  watchLo : Word
  watchHi : Word
  /-- Contexts whose threads in this vat are halted. -/
  halted : List Nat
deriving DecidableEq, Repr

/-- What a crew keeps on one of its cores (R194, R257, R466). -/
structure CrewCore where
  /-- BF0–BF15. -/
  bf : BitVec 16
  /-- The crew's T4 table on this core. -/
  t4 : BitVec 128
  /-- Physical worker slot of each crew-logical slot. -/
  slots : List Nat
deriving DecidableEq, Repr

/-- Crew states (Table 5.3, in the order of their codes). -/
inductive CrewState where
  | wait
  | resv
  | load
  | init
  | run
  | parked
  | preempt
  | swapped
  | reloc
  | halted
deriving DecidableEq, Repr

/-- One hardware barrier of a crew: phase and arrivals pending (R405), and whether a completion is held back by a shed, a
relocation or a seal (R406). -/
structure HwBar where
  phase : Bool
  ap : Nat
  held : Bool
deriving DecidableEq, Repr

/-- What a gang pre-emption saves, beside the bytes of the save block (R125, R127): everything that Restoration reloads. -/
structure CrewSave where
  /-- Thread contexts, keyed by logical core × 8 + crew-logical slot, and those that were in the closet. -/
  threads : List (Nat × Thread)
  /-- Per-core state, keyed by logical core. -/
  cores : List (Nat × CrewCore)
  /-- Presses, keyed by logical core × 2 + direction. -/
  presses : List (Nat × Press)
  /-- Copies saved as resume records. -/
  copies : List CopyCmd
  /-- Curds of the run queues, with the logical core that held them. -/
  curds : List (Nat × Curd)
  /-- Scratchpad bytes, keyed by logical core × 262,144 + offset; saved by a swap-out only. -/
  spm : List Host.Cell
  /-- The scratchpads were saved. -/
  withSpm : Bool
  /-- Scratchpad holds of the crew's copies, and, once the rectangle is released, every hold on its scratchpads (R128): the crew and
  its logical core, and the hold with `lo` as an offset in that scratchpad. A seal's snapshot also keeps the holds on cached
  ranges, under crew 0, with their own `lo` (R210). -/
  holds : List (Nat × Nat × Hold)
deriving DecidableEq, Repr

/-- A crew (R103 to R110, Tables 5.2 to 5.4). -/
structure Crew where
  /-- Its graph, its task index in the descriptor, its class and its context. -/
  graph : Nat
  task : Nat
  cls : Nat
  ctx : Nat
  state : CrewState
  /-- The state that a halted crew returns to. -/
  back : CrewState
  h : Nat
  w : Nat
  t : Nat
  /-- Byte 5 bit 0 of the task entry: worker threads start light (R106). -/
  light : Bool
  entry : Word
  mentry : Word
  /-- Logical and physical north-west coordinates. -/
  lrow : Nat
  lcol : Nat
  prow : Nat
  pcol : Nat
  /-- The crew has been placed before. -/
  started : Bool
  bars : Vector HwBar 8
  /-- Worker threads that have not executed EXIT. -/
  expected : Nat
  /-- Marks: shed (with the DEVTIME at which the grace ends), relocation, seal pending. -/
  shedMark : Bool
  graceAt : Option Nat
  relocMark : Bool
  /-- DEVTIME at which the crew entered the wait list. -/
  waitSince : Nat
  /-- PREEMPT OP 0, a displacement or a retirement asks that the crew end in SWAPPED; for the latter two it enters the wait
  list again. -/
  swapWanted : Bool
  requeue : Bool
  /-- It was swapped out while idle (R121), so that an item for it brings it back to WAIT. -/
  idle : Bool
  /-- The save block has room since LAUNCH; its offset in the context's save area (R127). -/
  saveOff : Nat
  saved : Option CrewSave
  /-- Per-core state while the crew holds its rectangle, keyed by logical core. -/
  cores : List (Nat × CrewCore)
deriving DecidableEq, Repr

/-- A graph queue (R115 to R120): producer and consumer tasks (0xFFFF for the host and for a sink), item length, capacity,
storage offset in the save area, and its state. -/
structure GQueue where
  producer : Nat
  consumer : Nat
  len : Nat
  cap : Nat
  off : Nat
  /-- Items waiting, oldest first, each of `len` words. -/
  items : List (List Word)
  /-- Free-running counts of items entered and dispensed. -/
  entered : Nat
  dispensed : Nat
  /-- The end-of-stream token has been accepted, and the count of items that entered before it. -/
  eos : Bool
  /-- Worker threads that have received the token. -/
  eosTo : List (TRef × Bool)
deriving DecidableEq, Repr

/-- A graph (R105, R122, R123). -/
structure Graph where
  /-- Queue of its LAUNCH, the command's number and its SEQ. -/
  q : Nat
  cmd : Nat
  seq : Nat
  ctx : Nat
  cpl : Bool
  irq : Bool
  args : List Word
  /-- Crew number of each task. -/
  crews : List Nat
  queues : List GQueue
  /-- Start time, in ns. -/
  start : Nat
  /-- A thread took UNCORR under R87, so that the LAUNCH ends with GRAPHERR. -/
  err : Bool
  /-- Last queue visited and last receiver of each task's dispensers (R117). -/
  lastQ : List (Nat × Nat)
  lastTo : List (Nat × Nat)
  /-- Its allocation in the save area: offset, bytes, snapshot offset, queue storage, queue snapshot, record (Table 4.17). -/
  off : Nat
  bytes : Nat
  snapOff : Nat
  qOff : Nat
  qSnapOff : Nat
  recOff : Nat
  /-- SCRIMG address and length of each task. -/
  scrimg : List (Nat × Nat)
deriving DecidableEq, Repr

/-! ## Contexts -/

/-- A command that its queue has read and that has not completed (R44, R46). -/
structure Cmd where
  /-- The model's own number of the command, since SEQ repeats after 65,536 commands, and the context that its queue was bound to. -/
  id : Nat
  ctx : Nat
  seq : Nat
  typ : Nat
  /-- LEN in packets. -/
  len : Nat
  cpl : Bool
  irq : Bool
  /-- The 64 bytes of its packet. -/
  body : BitVec 512
  /-- It has begun, and when, in ns. -/
  begun : Bool
  since : Nat
  /-- When a WAITV last read its condition, in ns; the numbers of the loads that a seal waits for (R53, R59). -/
  polled : Nat
  waits : List Nat
deriving DecidableEq, Repr

/-- A write that output commit holds back until the interval seals (R91). -/
inductive HeldOut where
  /-- Bytes to host memory: PA and byte. -/
  | host (pa : Nat) (bytes : List Byte)
  /-- A sector or element of a copy to another package or to host memory: the copy's identity. -/
  | remote (vat id sector : Nat)
  /-- A completion record of a queue, its interrupt flag, and the command that it completes; it found no room in the output buffer and
  waits for the seal (R89). -/
  | record (q : Nat) (rec : BitVec 256) (irq : Bool) (cmd : Option Cmd) (late : Bool)
  /-- No output: a command of a queue that has completed without a record, which a rollback makes complete again (R94). -/
  | silent (q : Nat) (cmd : Cmd)
deriving DecidableEq, Repr

/-- What a seal snapshots (R92): the crews, graphs and queues of the context, and the bytes of its scratchpads. -/
structure Snapshot where
  interval : Nat
  crews : List (Nat × Crew)
  graphs : List (Nat × Graph)
deriving DecidableEq, Repr

/-- A context (R55, R56, R88 to R94). -/
structure Ctx where
  asid : Nat
  /-- Page-table root, PA. -/
  root : Nat
  /-- Save area: PA and size. -/
  save : Nat
  saveSize : Nat
  /-- Flags of CREATE: checkpointing. -/
  ckpt : Bool
  /-- Checkpoint period in µs, 0 for none. -/
  period : Nat
  /-- Initial trap entry. -/
  tvec : Word
  /-- Logical-to-physical core table: only the entries that differ from the identity (R107). -/
  l2p : List (Nat × Nat)
  /-- Open interval, last sealed interval (0 for none), and DEVTIME of the last seal. -/
  interval : Nat
  sealed : Nat
  lastSeal : Nat
  /-- A seal is in progress, or has been asked for: the queues whose CKPT packets and the threads whose CKPT or FENCEO wait. -/
  sealWanted : Bool
  sealQ : List Nat
  /-- Undo log, newest first: line PA and pre-image (R88, R89). -/
  undo : List (Nat × BitVec 512)
  /-- Held outputs, newest first. -/
  outs : List HeldOut
  snap : Option Snapshot
  /-- Profiling: running flag, ring address (a VA, or 2^64 + PA), size, units written and dropped. -/
  profOn : Bool
  profRing : Nat
  profSize : Nat
  profUnits : Nat
  profDropped : Nat
  /-- Free-running count of fault-ring records (R97). -/
  faults : Nat
  /-- BTEXT digest of the last LAUNCH (Table 4.8). -/
  digest : BitVec 256
deriving DecidableEq, Repr

/-! ## Host queues, weight regions and the hub -/

/-- Queue states (Table 2.8, in the order of their codes). -/
inductive QState where
  | off
  | run
  | wait
  | stop
deriving DecidableEq, Repr

/-- A work queue (R40 to R47). -/
structure Queue where
  ringcfg : Word
  cplcfg : Word
  ctx : Nat
  cls : Nat
  weight : Nat
  state : QState
  code : Nat
  head : BitVec 32
  tail : BitVec 32
  cplHead : BitVec 32
  cplTail : BitVec 32
  expSeq : BitVec 16
  /-- A RINGCFG with EN = 0 that takes effect when the packet in execution has finished (R40). -/
  ringNext : Option Word
  /-- 0, or 1 more than the mismatching re-reads of the header so far, and the time of the last read (R44). -/
  rereads : Nat
  rereadAt : Nat
  deficit : Nat
  /-- Commands read and not completed, oldest first. -/
  cmds : List Cmd
  /-- Completion records that wait for room in the completion ring. -/
  backlog : List (BitVec 256 × Bool)
deriving DecidableEq, Repr

/-- A weight region (R57 to R59, R191). -/
structure Region where
  ctx : Nat
  dies : BitVec 4
  off : Nat
  size : Nat
  sealed : Bool
  /-- Writes into the region that are in progress (WSLOAD, copies). -/
  busy : Nat
deriving DecidableEq, Repr

/-- A COPY on the hub copy engine (R52), or a WSLOAD under way (R58), whose `dst` is then its region. -/
structure HubCopy where
  q : Nat
  /-- The number of its command, and its context. -/
  id : Nat
  ctx : Nat
  /-- Translations at issue of the pages of its ranges, and whether a TLBI has completed since (R180). -/
  pages : List (Nat × Nat × BitVec 64)
  retrans : Bool
  src : Nat
  dst : Nat
  bytes : Nat
  done : Nat
  /-- Its holds are registered; until then it waits for conflicting holds. -/
  held : Bool
  /-- Where a page of its ranges did not translate at issue: the bytes before it, and its address (R52, R180). -/
  bad : Option (Nat × Nat)
deriving DecidableEq, Repr

/-- A host access that waits on a hold (R209). -/
structure HostAcc where
  write : Bool
  line : Nat
  data : BitVec 512
  mask : BitVec 64
  since : Nat
deriving DecidableEq, Repr

/-- A remote transfer that has arrived: its kind, context, the pieces of physical memory that it holds (R196, R203 code 8, R220),
and whether it waits for its hold, since when. -/
structure RemoteIn where
  xfer : Nat
  kind : Nat
  ctx : Nat
  pieces : List (Nat × Nat)
  waiting : Bool
  since : Nat
deriving DecidableEq, Repr

/-- An entry of a core's PC table (R101): its key, the context of its slot and its count. -/
structure PcEntry where
  line : Word
  reason : Nat
  ctx : Nat
  count : Nat
deriving DecidableEq, Repr

/-- The command processor, the hub and the host link (Chapter 2). -/
structure Hub where
  /-- DEVSTAT: READY, FWERR, ONEMOD, SLW (Table 2.4). -/
  ready : Bool
  fwerr : Bool
  onemod : Bool
  slw : Bool
  /-- The host link has trained: fully, or for the mailbox alone. -/
  linkUp : Bool
  mailboxOnly : Bool
  /-- Q0RING and Q0CPL are queue 0's ringcfg and cplcfg. The queues that differ from an OFF queue. -/
  queues : List (Nat × Queue)
  /-- The queue visited last in each class (R47). -/
  lastVisit : List (Nat × Nat)
  regions : List (Nat × Region)
  copies : List HubCopy
  loads : List HubCopy
  hostAccs : List HostAcc
  remotes : List RemoteIn
  /-- GATHR reads of other packages that have been answered: transfer and bytes, newest first (R196). -/
  remoteReads : List (Nat × List Byte)
  /-- Host reads that have been answered: line, data, poisoned (what the host sees), newest first. -/
  hostReads : List (Nat × BitVec 512 × Bool)
  /-- MSI-X vectors signalled, newest first. -/
  msix : List Nat
  /-- BAR2 (R37): the MSI-X table's entries that differ from their reset value, and the vectors whose pending bit is set. -/
  msixTab : List (Nat × BitVec 128)
  msixPend : List Nat
  /-- CXL error signals for discarded host writes (R209). -/
  cxlErrs : Nat
  /-- HGRP0–HGRP31 (R187). -/
  hgrp : List (Nat × BitVec 320)
  /-- Scale-out block: PKGID, GRT entries that are not 0, ports that are up. -/
  pkgid : BitVec 32
  grt : List (Nat × BitVec 32)
  portsUp : BitVec 16
  /-- Crews wait list is in the crews; the placement in progress: a crew number (R110). -/
  placing : Option Nat
  /-- Next numbers for crews, graphs and agents. -/
  nextCrew : Nat
  nextGraph : Nat
  nextId : Nat
  /-- Rotation counts and histograms (R101): core × 64 + slot × 4 + class, and core × 64 + 32 + bin. -/
  prof : List (Nat × Nat)
  /-- PC tables: core × 256 + index. -/
  pcs : List (Nat × PcEntry)
deriving DecidableEq, Repr

/-! ## Power following, telemetry and management -/

/-- The power registers (Tables 6.1 to 6.5, 6.13): written values and the values that the evaluator uses. -/
structure Power where
  drpctl : Word
  fbp : Vector Word 8
  vbp : Vector Word 8
  lvl : Vector Word 8
  therm : Word
  /-- The values that took effect at the last evaluation (R133). -/
  drpctlEff : Word
  fbpEff : Vector Word 8
  vbpEff : Vector Word 8
  lvlEff : Vector Word 8
  /-- DRPSTAT's fields; a 1 written to GRID clears it at the next evaluation (R133). -/
  gridClear : Bool
  grid : Bool
  batt : Bool
  rise : Nat
  low : Nat
  raw : Nat
  level : Nat
  ceil : Nat
  eceil : Nat
  /-- DEVTIME of the next ceiling step while ECEIL is below CEIL (R137). -/
  stepAt : Option Nat
  /-- PSTPST's fields and the last accepted SEQ (R27 to R30). -/
  lost : Bool
  missed : Nat
  crcerr : Nat
  framerr : Nat
  lastSeq : Option Nat
  lastFrame : Nat
  lastFdev : BitVec 16
  lastVbus : BitVec 16
  /-- An accepted frame waits for its evaluation, and whether its SEQ skipped a value; a loss waits for its evaluation. -/
  due : Option Bool
  dueLost : Bool
  /-- Quad operating point requested and in force, and the thermal cap, in MHz; quads that differ from 200, 200 and 800. -/
  points : List (Nat × Nat)
  caps : List (Nat × Nat)
  coolSince : List (Nat × Nat)
  /-- DRAM layers that are throttled, and since when they have read at or below DLIM − 5 °C (R146). -/
  throttled : List (Nat × Option Nat)
deriving DecidableEq, Repr

/-- The management subsystem (Chapter 4). -/
structure Mgmt where
  /-- Mailbox registers and data window (Table 4.4). -/
  mbcmd : Word
  mbstat : Word
  mbarg : Vector Word 8
  window : List Host.Cell
  /-- The STATUS of a mailbox command that has been carried out and not yet reported. -/
  mbdone : Option Nat
  /-- Black-box ring, newest first, at most 4,096 records (R78). -/
  blackbox : List (BitVec 128)
  /-- Latest sensor values, keyed by kind × 65,536 + index (R77). -/
  sensors : List (Nat × BitVec 16)
  /-- Non-volatile store: component version counters, leaf index counter, checkpoint markers by context. -/
  svn : Vector Nat 4
  leaf : Nat
  markers : List (Nat × Nat)
  /-- The supply-loss marker, when one is sealed: contexts recorded. -/
  slMarker : Option (List Nat)
  /-- Which bank of each component is active, and whether a staged image is marked for the next cold reset. -/
  bank : Vector Bool 4
  staged : Vector Bool 4
  /-- Bytes that FWSTAGE has written to the banks: ((component − 1) × 2 + bank) × 2^32 + offset; the other bytes are as the module was
  made, Config.flashInit (DESIGN CHOICE, log entry 8). -/
  flash : List Host.Cell
  /-- The flash banks as the last verified boot found them: the images that run until a cold reset (R81). -/
  running : List Host.Cell
  /-- The images of the active banks have passed at the last cold reset's boot, and run until the next one (R81). -/
  verified : Bool
  /-- The device root, once the PUF has been reconstructed at this boot (R83). -/
  root : Option (BitVec 256)
  /-- Attestation key state is loaded. -/
  keyReady : Bool
  /-- Configuration record fields: DBGEN, PORTMODE, serial. -/
  dbgen : Bool
  portmode : BitVec 16
  serial : BitVec 128
  /-- Units retired since the cold reset: kind, index and DEVTIME, oldest first (RESYNC section 5). -/
  retired : List (Nat × Nat × Nat)
  /-- Retired presses; structures under a fence: code × 2^32 + unit; rows that have failed their test, by the fence's number: 1 for one
  that is remapped to a spare row, 2 for one that is retired without. -/
  retiredPress : List Nat
  fences : List Nat
  rows : List (Nat × Nat)
  /-- Contexts reported lost (RESYNC section 4). -/
  lostCtx : List Nat
  /-- A supply-loss sequence has started; every clock but the management's has stopped; pins. -/
  slStarted : Bool
  stopped : Bool
  /-- A sensor (kind, index) that has reached 115 °C, for which THERMTRIP_N is about to assert (R34). -/
  tripDue : Option (Nat × Nat)
  thermtrip : Bool
  pwrgd : Bool
deriving DecidableEq, Repr

/-- Where a barrier update comes from: a thread's instruction, a unit of a copy, a press entry, a stream register, or a SIGNAL. -/
inductive BarSrc where
  | thread (r : TRef)
  | copy (id unit : Nat)
  | press (id : Nat)
  | stream (hold : Nat)
  | signal (q id : Nat)
deriving DecidableEq, Repr

/-- A multicast read of a line: its slice, the line, its moment and what it read (R195). -/
structure McRead where
  slice : Nat
  line : Nat
  at_ : Nat
  data : BitVec 512
deriving DecidableEq, Repr

/-- What moves next: an interval of time that passes first, and then the turn of a thread's slot, or a step of another
agent or an input. -/
inductive Act where
  | turn (dt core slot : Nat)
  /-- After a turn: the GATH or SCAT that it issues, or tries again, performs this many lanes, and accesses of other agents fall
  between them and the rest (R387). -/
  | part (n : Nat)
  | ev (dt : Nat) (i : Instr)
  /-- A thread has met the breakpoint or the watch range of its vat: BREAKPOINT_HALT comes next. -/
  | hit (core slot : Nat)
deriving DecidableEq, Repr

/-! ## The machine -/

/-- The whole package. Tables hold only the entries that differ from the value of a missing key, in rising key order.
(DESIGN CHOICE, log entry 87.) -/
structure State where
  /-- DEVTIME in ns since the cold reset (Table 2.2). -/
  devtime : Nat
  /-- Device and host memory, by physical address (Table 8.2): a byte that is not listed reads 0. -/
  mem : List Host.Cell
  /-- Weight stores: die × 2^32 + offset (R190). -/
  ws : List Host.Cell
  /-- Granules (PA / 64) whose data is uncorrectable, in memory and in the weight stores (R87). -/
  poison : List Nat
  wsPoison : List Nat
  /-- Hardware threads in their slots: core × 8 + physical slot. -/
  threads : List (Nat × Thread)
  /-- Closet entries: core × 24 + entry. -/
  closet : List (Nat × ClosetEntry)
  cores : List (Nat × Core)
  vats : List (Nat × Vat)
  /-- Presses: press number of Table 1.1. -/
  presses : List (Nat × Press)
  /-- L1 tags (core × 256 + set) and L2 tags (core × 256 + set): line numbers, most recently used first (R184, R185). -/
  l1 : List (Nat × List Nat)
  l2 : List (Nat × List Nat)
  /-- Lines written in an L2 slice and not yet in DRAM. -/
  dirty : List Nat
  /-- Multicast reads whose line is still outstanding at its slice (R195). -/
  mcReads : List McRead
  /-- Weight-store reads that a refresh window has delayed: reader, port line, number of the window (R192). -/
  wsWaits : List (Nat × Nat × Nat)
  /-- Barrier updates that are held at their source, since the barrier's crew has no rectangle, oldest first (R216). -/
  barHeld : List (Nat × BarSrc)
  /-- Performance counters, by their PA − 0x70_0000_0000 (Table 8.9). -/
  counters : List (Nat × Word)
  /-- Range holds (R203, R206), oldest first. -/
  holds : List Hold
  crews : List (Nat × Crew)
  graphs : List (Nat × Graph)
  ctxs : List (Nat × Ctx)
  hub : Hub
  power : Power
  mgmt : Mgmt
  /-- The thread whose instruction is being issued. -/
  curCore : Nat
  curSlot : Nat
  /-- What moves next, first entry first; when empty, the rotation gives the next slot its turn. -/
  agenda : List Act
  rotor : Nat
  /-- The model's own counter for free values: it is advanced at each use of Config.freeValue and has no meaning in the
  hardware. -/
  freeCtr : Nat
deriving DecidableEq, Repr

/-- Why the machine stops with a fault. The model raises none: every condition of the spec is a trap, a status or a wait. -/
inductive Fault where
  /-- Raised by nobody; kept so that the type is inhabited (safe). -/
  | none
deriving DecidableEq, Repr

/-- Why an instruction has no next state. -/
inductive Refusal where
  /-- An instruction of the table whose meaning is not written yet, by its mnemonic; raised by exec alone (safe). -/
  | notModelled (mnemonic : String)
deriving DecidableEq, Repr

namespace State

/-- The control registers of a context that no thread has started in: the resets of Tables 6.7 to 6.10, 10.4, 10.5, 19.2 to
19.8. TVEC, UVEC and NVEC have no reset value and hold 0 (DESIGN CHOICE, log entry 4). -/
def csrs0 : Csrs where
  tstat := 0
  tpc := 0
  tcause := 0
  taddr := 0
  taux := 0
  tnest := 0
  tvec := 0
  uvec := 0
  nvec := 0
  tdlg := 0
  fcsr := 0
  ebud := 0xFFFFFFFFFF
  eref := 0
  ecap := 0xFFFFFFFFFF
  ecost := 0
  lpr := 0x8000000000000000
  sndtmo := 100
  pactmo := 1000

/-- A slot that holds no thread: every register 0 and full (the registers' values before a first start are not given:
DESIGN CHOICE, log entry 4). -/
def thread0 : Thread where
  ref := ⟨0, 0, 0⟩
  occ := false
  exited := false
  g := Vector.replicate 23 0
  v := Vector.replicate 16 0
  m := (Vector.replicate 8 0).set 0 0xFFFF
  full := 0x7FFFFFFFFFFF
  pred := 1
  y := Vector.replicate 4 0
  yfull := 0xF
  light := false
  notify := false
  pc := 0
  csr := csrs0
  streams := Vector.replicate 4 StreamBind.none
  queues := Vector.replicate 4 0
  outBuf := none
  park := none
  nq := []
  mbox := Vector.replicate 4 0
  mboxFull := 0
  mboxLast := 3
  mboxServed := Vector.replicate 4 6
  inq := []
  inHead := 0
  atraps := []
  atrapsHeld := []
  pend := []
  skip := 0
  line := none
  entry := false
  timer := 0
  joined := []
  frozen := false
  unacked := 0
  halted := false
  haltOwn := false
  steps := 0
  lanes := none
  carry := none
  tmoWas := none
  mover := .pop

/-- A core after reset: SLEEPD depth 1 (Table 6.11), caches, TLB and run queues empty. -/
def core0 : Core where
  sleepd := 1
  asleep := false
  wakeAt := 0
  runq := []
  tlb := []
  retired := false
  hot := 0
  hotSince := none
  temp := 0

/-- A vat after reset: DBGCTL 0 (Table 4.11), no command, no translation. -/
def vat0 : Vat where
  tlb := []
  copies := []
  dbgctl := 0
  watchLo := 0
  watchHi := 0
  halted := []

/-- A press as it is set when a crew is first placed (R223). -/
def press0 : Press where
  slots := []
  halves := []
  queue := []
  past := []
  pt := Vector.replicate 16 0
  t4a := 0
  t4b := 0
  rows := none

/-- A queue after reset: OFF, every field 0 (Tables 2.5 to 2.8); class 0 and weight 255 are queue 0's (R47). -/
def queue0 : Queue where
  ringcfg := 0
  cplcfg := 0
  ctx := 0
  cls := 0
  weight := 255
  state := .off
  code := 0
  head := 0
  tail := 0
  cplHead := 0
  cplTail := 0
  expSeq := 0
  ringNext := none
  rereads := 0
  rereadAt := 0
  deficit := 0
  cmds := []
  backlog := []

/-- The hub after reset: DEVSTAT 0, no region, no route, PKGID 0 (Tables 1.4, 1.5, 2.4). -/
def hub0 : Hub where
  ready := false
  fwerr := false
  onemod := false
  slw := false
  linkUp := false
  mailboxOnly := false
  queues := []
  lastVisit := []
  regions := []
  copies := []
  loads := []
  hostAccs := []
  remotes := []
  remoteReads := []
  hostReads := []
  msix := []
  msixTab := []
  msixPend := []
  cxlErrs := 0
  hgrp := []
  pkgid := 0
  grt := []
  portsUp := 0
  placing := none
  nextCrew := 1
  nextGraph := 1
  nextId := 1
  prof := []
  pcs := []

/-- The power registers after reset (Tables 1.7, 6.2 to 6.5, 6.13): LOST set, LEVEL, RAW, CEIL and ECEIL 7. -/
def power0 : Power where
  drpctl := 0xF80C8
  fbp := Vector.replicate 8 0
  vbp := Vector.replicate 8 0
  lvl := Vector.replicate 8 0x6407
  therm := 0x5F69
  drpctlEff := 0xF80C8
  fbpEff := Vector.replicate 8 0
  vbpEff := Vector.replicate 8 0
  lvlEff := Vector.replicate 8 0x6407
  gridClear := false
  grid := false
  batt := false
  rise := 0
  low := 7
  raw := 7
  level := 7
  ceil := 7
  eceil := 7
  stepAt := none
  lost := true
  missed := 0
  crcerr := 0
  framerr := 0
  lastSeq := none
  lastFrame := 0
  lastFdev := 0
  lastVbus := 0
  due := none
  dueLost := false
  points := []
  caps := []
  coolSince := []
  throttled := []

/-- The management subsystem after a cold reset: black box empty (R78), mailbox idle and its registers 0 (DESIGN CHOICE, log entry
90). The non-volatile store, the flash banks and the configuration record survive resets; in this first state they hold nothing
(DESIGN CHOICE, log entry 5). -/
def mgmt0 : Mgmt where
  mbcmd := 0
  mbstat := 0
  mbarg := Vector.replicate 8 0
  window := []
  mbdone := none
  blackbox := []
  sensors := []
  svn := Vector.replicate 4 0
  leaf := 0
  markers := []
  slMarker := none
  bank := Vector.replicate 4 false
  staged := Vector.replicate 4 false
  flash := []
  running := []
  verified := false
  root := none
  keyReady := false
  dbgen := false
  portmode := 0
  serial := 0
  retired := []
  retiredPress := []
  fences := []
  rows := []
  lostCtx := []
  slStarted := false
  stopped := false
  tripDue := none
  thermtrip := false
  pwrgd := true

/-- The machine right after the cold reset (R32): management boot has not run, so that nothing is configured; there is no
context, no crew and no thread, and memory lists nothing. -/
def reset : State where
  devtime := 0
  mem := []
  ws := []
  poison := []
  wsPoison := []
  threads := []
  closet := []
  cores := []
  vats := []
  presses := []
  l1 := []
  l2 := []
  dirty := []
  mcReads := []
  wsWaits := []
  barHeld := []
  counters := []
  holds := []
  crews := []
  graphs := []
  ctxs := []
  hub := hub0
  power := power0
  mgmt := mgmt0
  curCore := 0
  curSlot := 0
  agenda := []
  rotor := 0
  freeCtr := 0

end State

end Sys2Proof.Machine
end

