-- ==== Sys2Proof/Machine/Access.lean ====
section
/-! DEFINITION. Geometry of the package and the accessors of the state: where a thread, a core, a press and a crew are, and
how they are read and changed. -/

namespace Sys2Proof.Machine

/-! ## Geometry (Table 1.1) -/

def rowOf (core : Nat) : Nat := core / 64
def colOf (core : Nat) : Nat := core % 64
def coreAt (row col : Nat) : Nat := row * 64 + col
def dieOf (core : Nat) : Nat := rowOf core / 32 * 2 + colOf core / 32
def vatOf (core : Nat) : Nat := rowOf core / 4 * 16 + colOf core / 4
def inVat (core : Nat) : Nat := rowOf core % 4 * 4 + colOf core % 4
def quadOf (core : Nat) : Nat := rowOf core / 2 * 32 + colOf core / 2

/-- The physical core of a vat with a core-in-vat index. -/
def coreOfVat (vat i : Nat) : Nat := coreAt (vat / 16 * 4 + i / 4) (vat % 16 * 4 + i % 4)

/-- The press that a port code of a core reaches (Table 1.2), and whether the core is its far end; none where the link
does not exist (R15). -/
def pressOf (core port : Nat) : Option (Nat × Bool) :=
  let r := rowOf core
  let c := colOf core
  if port = 0 then (if c ≤ 62 then some (core * 2, false) else none)
  else if port = 1 then (if r ≤ 62 then some (core * 2 + 1, false) else none)
  else if port = 2 then (if 1 ≤ c then some ((core - 1) * 2, true) else none)
  else (if 1 ≤ r then some ((core - 64) * 2 + 1, true) else none)

/-- The core at an end of a press (R15, R224). -/
def pressEnd (press : Nat) (far : Bool) : Nat :=
  if far then (if press % 2 = 0 then press / 2 + 1 else press / 2 + 64) else press / 2

/-- The port code by which an end names its press. -/
def portOfEnd (press : Nat) (far : Bool) : Nat := press % 2 + (if far then 2 else 0)

/-! ## Accessors -/

/-- The value of a vector at an index, d outside it. -/
def vget {α : Type} {n : Nat} (v : Vector α n) (i : Nat) (d : α) : α := (v[i]?).getD d

/-- Masks and predicates: m0 reads 0xFFFF, and p0 reads 1 (R156). -/
def Thread.getM (t : Thread) (r : Nat) : Mask := if r = 0 then 0xFFFF else vget t.m r 0
def Thread.getP (t : Thread) (r : Nat) : Bool := r = 0 || bit t.pred r

/-- The predicate word, bit 0 reading 1. -/
def Thread.predWord (t : Thread) : BitVec 16 := t.pred ||| 1


namespace State

def thread (s : State) (core slot : Nat) : Thread := Tbl.get thread0 s.threads (core * 8 + slot)
def setThread (s : State) (core slot : Nat) (t : Thread) : State :=
  { s with threads := Tbl.put thread0 s.threads (core * 8 + slot) t }
def modThread (s : State) (core slot : Nat) (f : Thread → Thread) : State :=
  s.setThread core slot (f (s.thread core slot))

/-- The thread whose instruction is being issued. -/
def me (s : State) : Thread := s.thread s.curCore s.curSlot
def setMe (s : State) (t : Thread) : State := s.setThread s.curCore s.curSlot t
def modMe (s : State) (f : Thread → Thread) : State := s.setMe (f s.me)

def core (s : State) (c : Nat) : Core := Tbl.get core0 s.cores c
def modCore (s : State) (c : Nat) (f : Core → Core) : State := { s with cores := Tbl.upd core0 s.cores c f }
/-- The depth at which a core sleeps: that of SLEEPD, but 1 for the slots that a debug halt holds (R99, R145). -/
def sleepDepth (s : State) (c : Nat) : Nat :=
  if (List.range 8).any fun k => (s.thread c k).occ && (s.thread c k).halted then 1 else fld (s.core c).sleepd 0 2

/-- What sleeps at a depth or a deeper one is at retention voltage: the core sleeps, or its wake latency runs (Table 6.12). -/
def retained (s : State) (c depth : Nat) : Bool :=
  depth ≤ s.sleepDepth c && ((s.core c).asleep || s.devtime < (s.core c).wakeAt)

def vat (s : State) (v : Nat) : Vat := Tbl.get vat0 s.vats v
def modVat (s : State) (v : Nat) (f : Vat → Vat) : State := { s with vats := Tbl.upd vat0 s.vats v f }
def press (s : State) (p : Nat) : Press := Tbl.get press0 s.presses p
def modPress (s : State) (p : Nat) (f : Press → Press) : State := { s with presses := Tbl.upd press0 s.presses p f }
def queue (s : State) (q : Nat) : Queue := Tbl.get queue0 s.hub.queues q
def modHub (s : State) (f : Hub → Hub) : State := { s with hub := f s.hub }
def modQueue (s : State) (q : Nat) (f : Queue → Queue) : State :=
  s.modHub fun h => { h with queues := Tbl.upd queue0 h.queues q f }
def modPower (s : State) (f : Power → Power) : State := { s with power := f s.power }
def modMgmt (s : State) (f : Mgmt → Mgmt) : State := { s with mgmt := f s.mgmt }
def crew? (s : State) (n : Nat) : Option Crew := Tbl.find s.crews n
def modCrew (s : State) (n : Nat) (f : Crew → Crew) : State := { s with crews := Tbl.modify s.crews n f }
def graph? (s : State) (n : Nat) : Option Graph := Tbl.find s.graphs n
def modGraph (s : State) (n : Nat) (f : Graph → Graph) : State := { s with graphs := Tbl.modify s.graphs n f }
def ctx? (s : State) (n : Nat) : Option Ctx := Tbl.find s.ctxs n
def modCtx (s : State) (n : Nat) (f : Ctx → Ctx) : State := { s with ctxs := Tbl.modify s.ctxs n f }

/-- A counter of counter space, by its offset from 0x70_0000_0000 (R197). -/
def counter (s : State) (off : Nat) : Word := Tbl.get 0 s.counters off
def bump (s : State) (off n : Nat) : State :=
  { s with counters := Tbl.upd 0 s.counters off fun w => w + word n }

/-- A free value, and the state with its counter advanced (DESIGN CHOICE, log entry 6). -/
def free (s : State) : Word × State := (Config.freeValue s.freeCtr, { s with freeCtr := s.freeCtr + 1 })

/-- A fresh number for an agent or a pact. -/
def fresh (s : State) : Nat × State := (s.hub.nextId, s.modHub fun h => { h with nextId := h.nextId + 1 })

/-- The context number of a crew, 0 when there is no such crew. -/
def ctxOf (s : State) (crew : Nat) : Nat := match s.crew? crew with | some c => c.ctx | none => 0

/-- The logical-to-physical core table of a context (R107). -/
def l2p (s : State) (ctx n : Nat) : Nat :=
  match s.ctx? ctx with | some c => (Tbl.find c.l2p n).getD n | none => n

/-- The ASID of a context. -/
def asid (s : State) (ctx : Nat) : Nat := match s.ctx? ctx with | some c => c.asid | none => 0

end State

/-! ## Crews and the places of their threads -/

/-- Whether a crew's state holds a rectangle with its threads in it (Table 5.3): INIT to PREEMPT, RELOC and HALTED. -/
def CrewState.holds : CrewState → Bool
  | .init | .run | .parked | .preempt | .reloc | .halted => true
  | .wait | .resv | .load | .swapped => false

/-- Whether a crew can be reached by accesses to its cores: placed, and not between steps 1 and 4 of a relocation (R183). -/
def CrewState.reachable : CrewState → Bool
  | .init | .run | .parked | .preempt | .halted => true
  | _ => false

/-- The state that a crew has behind a halt (R114). -/
def Crew.real (c : Crew) : CrewState := match c.state with | .halted => c.back | x => x

/-- Another state for a crew, behind its halt where it is halted. -/
def Crew.become (c : Crew) (x : CrewState) : Crew := if c.state = .halted then { c with back := x } else { c with state := x }

/-- An uncommitted placement has reserved the crew's rectangle (R110). -/
def Crew.reserves (c : Crew) : Bool := c.state = .resv || c.state = .load

/-- Number of cores of a crew. -/
def Crew.n (c : Crew) : Nat := c.h * c.w

/-- The context-logical core number of a crew's core (R107). -/
def Crew.logical (c : Crew) (lc : Nat) : Nat := coreAt (c.lrow + lc / c.w) (c.lcol + lc % c.w)

/-- The physical core of a crew's core in its rectangle. -/
def Crew.phys (c : Crew) (lc : Nat) : Nat := coreAt (c.prow + lc / c.w) (c.pcol + lc % c.w)

/-- The crew-logical index of a physical core inside the rectangle. -/
def Crew.indexOf (c : Crew) (core : Nat) : Option Nat :=
  let r := rowOf core
  let k := colOf core
  if c.prow ≤ r && r < c.prow + c.h && c.pcol ≤ k && k < c.pcol + c.w then some ((r - c.prow) * c.w + (k - c.pcol))
  else none

/-- The crew-logical index of a context-logical core inside the logical rectangle. -/
def Crew.lindexOf (c : Crew) (core : Nat) : Option Nat :=
  let r := rowOf core
  let k := colOf core
  if c.lrow ≤ r && r < c.lrow + c.h && c.lcol ≤ k && k < c.lcol + c.w then some ((r - c.lrow) * c.w + (k - c.lcol))
  else none

/-- A core inside the rectangle of a crew that holds one. -/
def Crew.covers (c : Crew) (core : Nat) : Bool := c.state.holds && (c.indexOf core).isSome

/-- The live crew of a context whose logical rectangle holds a context-logical core, with the crew-logical index; a crew
that has never been placed has no logical rectangle (R107). -/
def State.crewAt (s : State) (ctx core : Nat) : Option (Nat × Nat) :=
  s.crews.findSome? fun (n, c) =>
    if c.ctx = ctx && c.started then (c.lindexOf core).map fun i => (n, i) else none

/-- The crews that hold a physical core. -/
def State.crewsOn (s : State) (core : Nat) : List (Nat × Crew) := s.crews.filter fun (_, c) => c.covers core

/-- Where a thread context is: in a slot, in a closet entry, or in its crew's save block (R215). -/
inductive Loc where
  | slot (core slot : Nat)
  | closet (key : Nat)
  | saved (crew key : Nat)
deriving DecidableEq, Repr

/-- The crew's save block holds the thread: all of a saved crew's, or one that a full closet has spilled (R124). -/
def Crew.holdsSaved (c : Crew) (r : TRef) : Bool :=
  match c.saved with | some sv => (Tbl.find sv.threads (r.lcore * 8 + r.lslot)).isSome | none => false

/-- The place of a thread context: a heavy thread in its slot, one in the closet, and then a light thread in the slot, or the record of
a vacant one (R168). A light thread whose slot's own context is in the closet has no other name than that one's (DESIGN CHOICE, log
entry 116). -/
def State.locate (s : State) (r : TRef) : Option Loc :=
  match s.crew? r.crew with
  | none => none
  | some c =>
    if c.holdsSaved r then some (.saved r.crew (r.lcore * 8 + r.lslot))
    else if !c.state.holds then none
    else
      let core := c.phys r.lcore
      match (span 0 8).find? fun k => decide ((s.thread core k).ref = r ∧ r.crew ≠ 0 ∧ (s.thread core k).occ = true ∧ (s.thread core k).light = false) with
      | some k => some (.slot core k)
      | none =>
        match (span 0 24).find? fun e =>
            match Tbl.find s.closet (core * 24 + e) with | some x => x.th.ref = r | none => false with
        | some e => some (.closet (core * 24 + e))
        | none =>
          match (span 0 8).find? fun k => decide ((s.thread core k).ref = r ∧ r.crew ≠ 0) with
          | some k => some (.slot core k)
          | none => none

/-- The thread context at a place. -/
def State.atLoc (s : State) : Loc → Thread
  | .slot c k => s.thread c k
  | .closet k => match Tbl.find s.closet k with | some x => x.th | none => State.thread0
  | .saved n k => match s.crew? n with
    | some c => match c.saved with | some sv => Tbl.get State.thread0 sv.threads k | none => State.thread0
    | none => State.thread0

/-- Change the thread context at a place. -/
def State.modLoc (s : State) (l : Loc) (f : Thread → Thread) : State :=
  match l with
  | .slot c k => s.modThread c k f
  | .closet k => { s with closet := Tbl.modify s.closet k fun x => { x with th := f x.th } }
  | .saved n k => s.modCrew n fun c =>
      { c with saved := c.saved.map fun sv => { sv with threads := Tbl.modify sv.threads k f } }

/-- Change a thread context wherever it is held; nothing where there is none. -/
def State.modRef (s : State) (r : TRef) (f : Thread → Thread) : State :=
  match s.locate r with | some l => s.modLoc l f | none => s

/-- The thread context of a name, if there is one. -/
def State.ref? (s : State) (r : TRef) : Option Thread := (s.locate r).map s.atLoc

/-- The thread that a (context-logical core, crew-logical slot) names, in the context's crews (R466). -/
def State.target (s : State) (ctx core slot : Nat) : Option TRef :=
  match s.crewAt ctx core with
  | none => none
  | some (n, lc) => some ⟨n, lc, slot⟩

/-- The crew record of the thread that is issuing. -/
def State.myCrew (s : State) : Option Crew := s.crew? s.me.ref.crew

/-- The context of the thread that is issuing. -/
def State.myCtx (s : State) : Nat := s.ctxOf s.me.ref.crew

/-- The crew's record on one of its cores. -/
def State.crewCore (s : State) (n lc : Nat) : CrewCore :=
  match s.crew? n with | some c => Tbl.get ⟨0xFFFF, 0, []⟩ c.cores lc | none => ⟨0xFFFF, 0, []⟩

def State.modCrewCore (s : State) (n lc : Nat) (f : CrewCore → CrewCore) : State :=
  s.modCrew n fun c => { c with cores := Tbl.ins c.cores lc (f (Tbl.get ⟨0xFFFF, 0, []⟩ c.cores lc)) }

end Sys2Proof.Machine
end

