-- ==== Sys2Proof/Machine/Memory.lean ====
section
/-! DEFINITION. Memory: the physical map, byte access, page walks and translation, homes, caches and their counters, the
undo log and held outputs, range holds, and the checked access of a thread (Chapters 8 and 9). -/

namespace Sys2Proof.Machine

/-! ## Physical map (Table 8.2) -/

/-- What a device physical address names. -/
inductive Kind where
  | dram
  | ws (off : Nat)
  | spm (core off : Nat)
  | ctr (off : Nat)
  | host
  | none
deriving DecidableEq, Repr

def hostBit : Nat := 2 ^ 47

/-- The kind of an address. -/
def kindOf (pa : Nat) : Kind :=
  if pa < 0x3000000000 then .dram
  else if hostBit ≤ pa && pa < 2 ^ 48 then .host
  else if 0x4000000000 ≤ pa && pa < 0x4100000000 then .ws (pa - 0x4000000000)
  else if 0x5000000000 ≤ pa && pa < 0x5040000000 then .spm ((pa - 0x5000000000) / 0x40000) (pa % 0x40000)
  else if 0x7000000000 ≤ pa && pa < 0x7001000000 then .ctr (pa - 0x7000000000)
  else .none

/-- PA of a byte of a core's scratchpad. -/
def spmPA (core off : Nat) : Nat := 0x5000000000 + core * 0x40000 + off

/-- Die of a DRAM or host line (R188, R186: bits 46:0). -/
def dieOfPA (pa : Nat) : Nat := xorDigits (pa % hostBit / 4096) 0 18

/-- Canonical address of a die offset (R189). -/
def canon (d o : Nat) : Nat :=
  let hi := o / 4096 * 4
  o % 4096 + (hi + (d ^^^ xorDigits hi 1 17)) * 4096

/-! ## Bytes -/

namespace State

/-- The byte at a PA; a byte that nothing has written reads 0 (DESIGN CHOICE, log entry 1). Weight-store bytes are those of a die, and
counter bytes those of the counter (R191, R197). -/
def byteAt (s : State) (die pa : Nat) : Byte :=
  match kindOf pa with
  | .ws o => Tbl.get 0 s.ws (die * 2 ^ 32 + o)
  | .ctr o => BitVec.ofNat 8 ((s.counter (o / 8 * 8)).toNat >>> (8 * (o % 8)))
  | _ => Tbl.get 0 s.mem pa

/-- n bytes from a PA up, as a little-endian number. -/
def read (s : State) (die pa : Nat) : Nat → Nat
  | 0 => 0
  | n + 1 => (s.byteAt die pa).toNat + 256 * s.read die (pa + 1) n

/-- The 64 bytes of a line of memory. -/
def lineBytes (s : State) (line : Nat) : BitVec 512 := BitVec.ofNat 512 (s.read 0 (line * 64) 64)

/-- Write one byte of memory (not of a weight store or counter). -/
def setByte (s : State) (pa : Nat) (b : Byte) : State := { s with mem := Tbl.put 0 s.mem pa b }

/-- Write bytes from a PA up. -/
def setBytes (s : State) (pa : Nat) : List Byte → State
  | [] => s
  | b :: r => (s.setByte pa b).setBytes (pa + 1) r

/-- Write a number of n bytes, least significant byte first. -/
def write (s : State) (pa n v : Nat) : State := s.setBytes pa (bytesOf v n)

/-- Write a byte of a die's weight store. -/
def setWs (s : State) (die off : Nat) (b : Byte) : State := { s with ws := Tbl.put 0 s.ws (die * 2 ^ 32 + off) b }

/-- Whether a granule's data is uncorrectable. -/
def poisoned (s : State) (die pa n : Nat) : Bool :=
  match kindOf pa with
  | .ws o => (span (o / 64) ((o + n - 1) / 64 + 1 - o / 64)).any fun g => s.wsPoison.contains (die * 2 ^ 26 + g)
  | _ => (span (pa / 64) ((pa + n - 1) / 64 + 1 - pa / 64)).any fun g => s.poison.contains g

end State

/-! ## Homes and caches (R184 to R186, R459, R460) -/

/-- Whether some core is retired. -/
def State.anyRetired (s : State) : Bool := s.cores.any fun c => c.2.retired

/-- The cores of a die in rising number. -/
def dieCore (d i : Nat) : Nat := coreAt (d / 2 * 32 + i / 32) (d % 2 * 32 + i % 32)

def hashPA (pa : Nat) : Nat := (bits pa 6 12 ^^^ bits pa 18 12) ^^^ (bits pa 30 12 ^^^ bits pa 42 6)

/-- Element k mod |S| of a list of cores. -/
def pickCore (l : List Nat) (k d : Nat) : Nat := if l.isEmpty then d else l.getD (k % l.length) d

/-- The last rule of Home: the active cores of the line's die. -/
def homeOnDie (s : State) (pa : Nat) : Nat :=
  let d := dieOfPA pa
  if s.anyRetired then
    pickCore (((span 0 1024).map (dieCore d)).filter fun c => !(s.core c).retired) (hashPA pa) (dieCore d 0)
  else dieCore d (hashPA pa % 1024)

/-- The home slice of a line reached through a page entry (R186). Outside device DRAM no HOM but 1 has an effect (R176). -/
def home (s : State) (ctx pa : Nat) (pte : BitVec 64) : Nat :=
  let hom := fld pte 10 2
  if hom = 1 then
    let c := s.l2p ctx (fld pte 48 12)
    if (s.core c).retired then homeOnDie s pa else c
  else if hom = 2 && pa < 0x3000000000 then
    let g := Tbl.get 0 s.hub.hgrp (fld pte 48 5)
    let l := (span 0 4096).filter fun c => bit g (vatOf c) && bit g (256 + inVat c) && !(s.core c).retired
    if l.isEmpty then homeOnDie s pa else pickCore l (hashPA pa) 0
  else homeOnDie s pa

/-- Touch a line in a set of at most n ways: whether it was there, the set with the line most recently used, and the line
that left. A line that comes in evict-first is entered least recently used (Table 8.3, EF). -/
def lruTouch (n line : Nat) (ef : Bool) (l : List Nat) : Bool × List Nat × Option Nat :=
  if l.contains line then (true, line :: l.filter (· ≠ line), none)
  else
    let out := if l.length < n then none else l.getLast?
    let kept := if l.length < n then l else l.dropLast
    (false, if ef then kept ++ [line] else line :: kept, out)

/-- The EF bit of a page entry. -/
def evictFirst (pte : BitVec 64) : Bool := bit pte 62

/-- A transfer between a die's DRAM and a slice (R460). Host memory is no die's DRAM. -/
def State.countDram (s : State) (pa slice : Nat) : State :=
  if pa < hostBit then
    let d := dieOfPA pa
    s.bump (0x100000 + 0x100 * d + (if dieOf slice = d then 0 else 8)) 1
  else s

/-- The slice in which a line is resident (R185). -/
def State.residentAt (s : State) (pa : Nat) : Option Nat :=
  (s.l2.find? fun e => e.1 % 256 = pa / 64 % 256 && e.2.contains (pa / 64)).map fun e => e.1 / 256

/-- A dirty line is written back by its slice; a clean one is not (R185, R460). -/
def State.writeBack (s : State) (line slice : Nat) : State :=
  if s.dirty.contains line then { s.countDram (line * 64) slice with dirty := s.dirty.filter (· ≠ line) } else s

/-- A fill by `slice` makes another slice that holds the line write it back and drop it first (R185). -/
def State.recall (s : State) (slice pa : Nat) : State :=
  match s.residentAt pa with
  | none => s
  | some c =>
    if c = slice then s
    else
      let s := s.writeBack (pa / 64) c
      { s with l2 := Tbl.upd [] s.l2 (c * 256 + pa / 64 % 256) fun l => l.filter (· ≠ pa / 64) }

/-- A write ends every read lease on its line but that of the writing core, whose present line is updated (R184, R200). -/
def State.endLeases (s : State) (keep : Option Nat) (pa : Nat) : State :=
  let line := pa / 64
  { s with l1 := s.l1.filterMap fun e =>
      if e.1 % 256 ≠ line % 256 || keep = some (e.1 / 256) then some e
      else
        let l := e.2.filter (· ≠ line)
        if l.isEmpty then none else some (e.1, l) }

/-- A line is used at its home slice: filled from DRAM when it is not resident there, with the write-back of a dirty victim
(R185, R460). `keep` is the core of a thread that writes. -/
def State.touchL2 (s : State) (slice pa : Nat) (wr ef : Bool) (keep : Option Nat := none) : State :=
  let s := if wr then s.endLeases keep pa else s
  let line := pa / 64
  let key := slice * 256 + line % 256
  let s := s.recall slice pa
  let (hit, set, out) := lruTouch 16 line ef (Tbl.get [] s.l2 key)
  let s := { s with l2 := Tbl.put [] s.l2 key set }
  let s := if hit then s else s.countDram pa slice
  let s := match out with
    | some v => s.writeBack v slice
    | none => s
  if wr && !s.dirty.contains line then { s with dirty := line :: s.dirty } else s

/-- A read that reaches a slice while a multicast read of its line is outstanding there is answered from the same data (R195).
The multicast read is outstanding for the rest of its moment of DEVTIME, and while the line's bytes are what it read (DESIGN
CHOICE, log entry 92). -/
def State.merge (s : State) (slice pa : Nat) : State :=
  let line := pa / 64
  if s.mcReads.any fun e => e.slice = slice && e.line = line && e.at_ = s.devtime && e.data = s.lineBytes line then
    s.bump (0x100 * slice + 0x18) 1
  else s

/-- An access that goes to the owning controller (host CXL.mem, R185): it is forwarded to the slice where the line is resident,
where a multicast read may answer a read (R195), and fills no slice. -/
def State.touchResident (s : State) (pa : Nat) (wr : Bool) : State :=
  match s.residentAt pa with
  | some c => (if wr then s else s.merge c pa).touchL2 c pa wr false
  | none => if wr then s.endLeases none pa else s

/-- A read of cached memory by an agent of a die that does not go through an L1 (R459): it counts once at the slice. -/
def State.engineRead (s : State) (die slice pa : Nat) (ef : Bool) : State :=
  (((s.bump (0x100 * slice + (if die = dieOf slice then 0 else 8)) 1).merge slice pa)).touchL2 slice pa false ef

/-- A thread's read of a cached line: it counts when the line is not in the core's L1 (R459; a present line's lease is
taken to be unexpired until another agent writes the line, DEDUCED, log entry 10). Instruction fetches fill the L1 and count nothing but a merge. -/
def State.threadRead (s : State) (core slice pa : Nat) (fetch ef : Bool) : State :=
  let line := pa / 64
  let key := core * 256 + line % 256
  let (hit, set, _) := lruTouch 4 line ef (Tbl.get [] s.l1 key)
  let s := { s with l1 := Tbl.put [] s.l1 key set }
  if hit then s
  else if fetch then (s.merge slice pa).touchL2 slice pa false ef
  else s.engineRead (dieOf core) slice pa ef

/-! ## Weight-store refresh (R192) -/

/-- The bank group of a weight-store offset refreshes now. -/
def State.refreshing (s : State) (off : Nat) : Bool := bits off 16 6 = s.devtime % 32000 / 500

/-- The reads through the 64-byte weight port that n bytes from an offset take, and that meet a refreshing group. -/
def State.refreshReads (s : State) (off n : Nat) : List Nat :=
  (span (off / 64) ((off + n - 1) / 64 + 1 - off / 64)).filter fun l => s.refreshing (l * 64)

/-- A weight-store read that meets a refreshing group waits for the end of the window, and counts once in WSDLY of the reading core
(R192, Table 8.9): the state with the read counted, or none where nothing delays it. `who` is a number for the reader. -/
def State.wsDelay (s : State) (core who pa n : Nat) : Option State :=
  match kindOf pa with
  | .ws o =>
    match s.refreshReads o n with
    | [] => none
    | l :: r =>
      let k := (who, l, s.devtime / 500)
      some (if s.wsWaits.contains k then s
        else ({ s with wsWaits := k :: s.wsWaits.filter fun e => e.2.2 = s.devtime / 500 }).bump (0x100 * core + 0x30) (1 + r.length))
  | _ => none

/-- The die whose weight store the hub reads and writes (DESIGN CHOICE, log entry 95), and a read of the hub that meets a refreshing
group: it is no core's, so that no WSDLY counts it. -/
def hubWs : Nat := Config.hubWsDie.val
def State.hubRefresh (s : State) (pa n : Nat) : Bool := match kindOf pa with | .ws o => !(s.refreshReads o n).isEmpty | _ => false

/-- The issuing thread as a reader of the weight store. -/
def State.meReader (s : State) : Nat := s.curCore * 8 + s.curSlot

/-- An engine, by its number, as a reader of the weight store. -/
def engReader (id : Nat) : Nat := 32768 + id

/-! ## Translation (R174 to R180, R183) -/

inductive Acc where
  | read
  | write
  | exec
deriving DecidableEq, Repr

/-- A translation: the PA, the page entry (0 for a window), whether the address lies in a scratchpad window, and the level of the leaf. -/
structure Xl where
  pa : Nat
  pte : BitVec 64
  win : Bool
  lvl : Nat
deriving DecidableEq, Repr

/-- The answer of a translation: an address, a fault (cause, TAUX), or a wait for a crew that is not placed (R183). -/
inductive XRes where
  | ok (x : Xl)
  | flt (cause aux : Nat)
  | wait
deriving DecidableEq, Repr

def PAGEF : Nat := 6
def PROT : Nat := 7

/-- A fault code and level in TAUX form (Table 8.4). (DEDUCED, log entry 56.) -/
def xaux (code lvl : Nat) : Nat := code * 16 + lvl

/-- The fields of a leaf entry checked by the walk (R177): an error code, or none. -/
def leafBad (e : BitVec 64) (lvl : Nat) : Option Nat :=
  if lvl = 3 then some 2
  else if bit e 63 || bit e 7 || fld e 10 2 = 3 || (bit e 5 && lvl != 0) || (fld e 10 2 = 2 && fld e 53 7 != 0) then some 1
  else
    let size := if lvl = 2 then 2 ^ 30 else if lvl = 1 then 2 ^ 21 else if bit e 5 then 2 ^ 16 else 2 ^ 12
    if fld e 12 36 * 4096 % size ≠ 0 then some 4 else none

/-- Size of the page that a leaf maps. -/
def leafSize (e : BitVec 64) (lvl : Nat) : Nat :=
  if lvl = 2 then 2 ^ 30 else if lvl = 1 then 2 ^ 21 else if bit e 5 then 2 ^ 16 else 2 ^ 12

/-- The walk from a table at a level down (R177): the translation, or a fault code and level. -/
def walkFrom (s : State) (asid va t : Nat) : Nat → Nat × Nat ⊕ TlbEntry
  | 0 => .inl (1, 0)
  | n + 1 =>
    let e : BitVec 64 := BitVec.ofNat 64 (s.read 0 (t + 8 * bits va (12 + 9 * n) 9) 8)
    if !bit e 0 then .inl (0, n)
    else if !bit e 4 then
      if n = 0 || fld e 48 16 ≠ 0 || fld e 1 11 ≠ 0 then .inl (1, n)
      else
        let t' := fld e 12 36 * 4096
        if t' ≥ 0x3000000000 then .inl (3, n) else walkFrom s asid va t' n
    else
      match leafBad e n with
      | some c => .inl (c, n)
      | none =>
        let size := leafSize e n
        .inr ⟨asid, va / size * size, size, n, e⟩

/-- The addresses that the walk reads. -/
def walkReads (s : State) (va t : Nat) : Nat → List Nat
  | 0 => []
  | n + 1 =>
    let a := t + 8 * bits va (12 + 9 * n) 9
    let e : BitVec 64 := BitVec.ofNat 64 (s.read 0 a 8)
    if bit e 0 && !bit e 4 then a :: walkReads s va (fld e 12 36 * 4096) n else [a]

/-- Walker reads go to the slice where their line is resident, where a multicast read answers them (R185, R195). -/
def State.countWalk (s : State) (ctx va : Nat) : State :=
  if s.mcReads.isEmpty then s
  else match s.ctx? ctx with
    | some c => (walkReads s va c.root 4).foldl (fun s a => match s.residentAt a with | some k => s.merge k a | none => s) s
    | none => s

/-- The walk from a context's root. -/
def walk (s : State) (ctx va : Nat) : Nat × Nat ⊕ TlbEntry :=
  match s.ctx? ctx with
  | some c => walkFrom s c.asid va c.root 4
  | none => .inl (0, 3)

/-- An entry of a TLB that covers an address. -/
def tlbFind (l : List TlbEntry) (asid va : Nat) : Option TlbEntry :=
  l.find? fun e => e.asid = asid && e.va ≤ va && va < e.va + e.size

/-- A core's TLB with an entry filled in: some entry leaves a full one. -/
def coreFill (l : List TlbEntry) (e : TlbEntry) : List TlbEntry :=
  e :: if l.length < 64 then l else l.eraseIdx (Config.coreVictim (l.map (·.va)) % l.length)

/-- A vat's TLB with an entry filled in: an entry of its set may leave, and one leaves a full one. -/
def vatFill (l : List TlbEntry) (e : TlbEntry) : List TlbEntry :=
  e :: match Config.vatVictim (l.map (·.va)) with
    | some i => l.eraseIdx (i % l.length)
    | none => l.take 2047

/-- Device DRAM, weight store, counter space or host memory: what a translation may reach (R175, R177). -/
def mappable (pa : Nat) : Bool := match kindOf pa with | .dram | .ws _ | .ctr _ | .host => true | _ => false

/-- The frame of a leaf lies in range, so that not every use of it faults: such an entry alone enters a TLB (R177, R178). -/
def TlbEntry.frameOk (e : TlbEntry) : Bool :=
  let base := fld e.pte 12 36 * 4096
  if fld e.pte 6 2 = 1 && base < 0x3000000000 then base + e.size ≤ 48 * 2 ^ 30 else mappable base

/-- Lookup in the core's TLB, then the vat's, then a walk, filling what missed. Which entry makes room is not stated (DESIGN CHOICE,
log entry 11). -/
def tlbLookup (s : State) (core ctx va : Nat) : State × (Nat × Nat ⊕ TlbEntry) :=
  let asid := s.asid ctx
  match tlbFind (s.core core).tlb asid va with
  | some e => (s, .inr e)
  | none =>
    let s := s.bump (0x100 * core + 0x28) 1
    let v := vatOf core
    match tlbFind (s.vat v).tlb asid va with
    | some e => (s.modCore core fun c => { c with tlb := coreFill c.tlb e }, .inr e)
    | none =>
      let s := s.countWalk ctx va
      match walk s ctx va with
      | .inl f => (s, .inl f)
      | .inr e =>
        if e.frameOk then
          let s := s.modCore core fun c => { c with tlb := coreFill c.tlb e }
          (s.modVat v fun x => { x with tlb := vatFill x.tlb e }, .inr e)
        else (s, .inr e)

/-- The checks and the address of a translation that has been found (R177). An address that Table 8.2 does not map faults as the frame
would (R175). -/
def applyPte (e : TlbEntry) (va : Nat) (acc : Acc) (user : Bool) : XRes :=
  let p := e.pte
  if acc = .write && !bit p 1 then .flt PROT (xaux 0 e.lvl)
  else if acc = .exec && !bit p 2 then .flt PROT (xaux 1 e.lvl)
  else if user && !bit p 3 then .flt PROT (xaux 2 e.lvl)
  else
    let base := fld p 12 36 * 4096
    let off := va % e.size
    if fld p 6 2 = 1 && base < 0x3000000000 then
      if base + e.size > 48 * 2 ^ 30 then .flt PAGEF (xaux 3 e.lvl) else .ok ⟨canon (fld p 8 2) (base + off), p, false, e.lvl⟩
    else
      if mappable base && mappable (base + off) then .ok ⟨base + off, p, false, e.lvl⟩ else .flt PAGEF (xaux 3 e.lvl)

/-- The crew of a context on a physical core, if it hosts one (R183). -/
def hostsCtx (s : State) (ctx core : Nat) : Bool := s.crews.any fun (_, c) => c.ctx = ctx && c.covers core

/-- ScratchTarget (R183) for a window address, given its low 32 bits; core is the issuing core. -/
def scratch (s : State) (core ctx lo : Nat) (acc : Acc) : XRes :=
  if acc = .exec then .flt PROT (xaux 1 0)
  else if lo < 0x40000000 then
    match s.crewAt ctx (lo / 0x40000) with
    | none => .flt PROT (xaux 5 0)
    | some (n, lc) =>
      match s.crew? n with
      | some c => if c.state.reachable then .ok ⟨spmPA (c.phys lc) (lo % 0x40000), 0, true, 0⟩ else .wait
      | none => .flt PROT (xaux 5 0)
  else if lo < 0x80040000 then .ok ⟨spmPA core (lo % 0x40000), 0, true, 0⟩
  else
    let c := coreOfVat (vatOf core) (lo / 0x40000 % 16)
    if hostsCtx s ctx c then .ok ⟨spmPA c (lo % 0x40000), 0, true, 0⟩ else .flt PROT (xaux 5 0)

/-- Whether an upper-region address lies in a scratchpad window (Table 8.1). -/
def inWindow (lo : Nat) : Bool :=
  lo < 0x40000000 || (0x80000000 ≤ lo && lo < 0x80040000) || (0x80400000 ≤ lo && lo < 0x80800000)

/-- The address's bits 63:48 equal bit 47 (R174). -/
def canonicalVA (va : Word) : Bool := va = sext va.toNat 48

/-- Translate (R177) for an access from a core in a context; engines translate without a core's TLB. -/
def translate (s : State) (core ctx : Nat) (user tlb : Bool) (va : Word) (acc : Acc) : State × XRes :=
  let v := va.toNat
  if !canonicalVA va then (s, .flt PAGEF (xaux 5 0))
  else if v >>> 32 = 0xFFFFFFFF then
    if inWindow (v % 2 ^ 32) then (s, scratch s core ctx (v % 2 ^ 32) acc) else (s, .flt PAGEF (xaux 5 0))
  else
    let (s, r) := if tlb then tlbLookup s core ctx v else (s.countWalk ctx v, walk s ctx v)
    match r with
    | .inl (code, lvl) => (s, .flt PAGEF (xaux code lvl))
    | .inr e => (s, applyPte e v acc user)

/-! ## Weight regions (R191) -/

/-- The region of a context that holds a weight-store offset on a die. -/
def regionAt (s : State) (ctx die off : Nat) : Option Region :=
  (s.hub.regions.find? fun (_, r) => r.ctx = ctx && bit r.dies die && r.off ≤ off / 65536 * 65536 &&
    off / 65536 * 65536 < r.off + r.size).map (·.2)

def WSWRITE : Nat := 0x16
def WSCLOSED : Nat := 0x17

/-- The LDW column of Table 8.7 for an offset that a leaf of a level maps: a cause and TAUX, or none. -/
def wsReadCheck (s : State) (ctx die off lvl : Nat) : Option (Nat × Nat) :=
  match regionAt s ctx die off with
  | none => some (PROT, xaux 3 lvl)
  | some r => if r.sealed then none else some (WSCLOSED, 0)

/-- TargetCheck (R383, Table 17.2) for a load, or for a store or atomic. -/
def targetCheck (s : State) (ctx die pa lvl : Nat) (acc : Acc) : Option (Nat × Nat) :=
  match kindOf pa with
  | .ws o => if acc = .write then some (WSWRITE, 0) else wsReadCheck s ctx die o lvl
  | .ctr _ => if acc = .write then some (PROT, xaux 4 lvl) else none
  | _ => none

/-! ## Holds (R203 to R210) -/

/-- Whether two byte ranges touch a common 64-byte granule (R204). -/
def granulesMeet (lo n lo' n' : Nat) : Bool :=
  n ≠ 0 && n' ≠ 0 && lo / 64 ≤ (lo' + n' - 1) / 64 && lo' / 64 ≤ (lo + n - 1) / 64

/-- The hold that makes a thread access trap (Table of R204): any write hold; for a write, any hold. -/
def holdHit (s : State) (pa n : Nat) (acc : Acc) : Option Hold :=
  s.holds.find? fun h => granulesMeet pa n h.lo h.len && (h.write || acc = .write)

/-- TAUX of RHLD (R205). -/
def rhldAux (h : Hold) (reg : Bool) : Nat := h.agent * 16 + b2n reg * 2 + b2n h.write

/-- A hold of another agent that conflicts with a new one (R207). -/
def holdConflict (s : State) (owner : Nat) (w : Bool) (lo n : Nat) : Option Hold :=
  s.holds.find? fun h => h.owner ≠ owner && granulesMeet lo n h.lo h.len && (w || h.write)

/-- The tables that a hold occupies (R206): the vat of a scratchpad range, or every die that holds a granule of a cached
range; a table is a number, vats first. -/
def holdTables (lo n : Nat) : List Nat :=
  match kindOf lo with
  | .spm c _ => [vatOf c]
  | _ =>
    let pages := span (lo / 4096) ((lo + n - 1) / 4096 + 1 - lo / 4096)
    (span 0 4).filterMap fun d => if (pages.take 4096).any fun p => dieOfPA (p * 4096) = d then some (256 + d) else none

/-- Entries that a table has in use. -/
def tableUse (s : State) (t : Nat) : Nat := (s.holds.filter fun h => (holdTables h.lo h.len).contains t).length

/-- Room for new holds in every table (128 entries of a vat, 256 of a die). -/
def holdsFit (s : State) (l : List Hold) : Bool :=
  (l.flatMap fun h => holdTables h.lo h.len).eraseDups.all fun t =>
    tableUse s t + (l.filter fun h => (holdTables h.lo h.len).contains t).length ≤ (if t < 256 then 128 else 256)

/-- More than 64 entries in one table: never accepted (R206). -/
def holdsTooMany (l : List Hold) : Bool :=
  (l.flatMap fun h => holdTables h.lo h.len).eraseDups.any fun t =>
    64 < (l.filter fun h => (holdTables h.lo h.len).contains t).length

/-- An operation's own read and write holds overlap (R206). -/
def holdsSelfClash (l : List Hold) : Bool :=
  l.any fun h => h.write && l.any fun g => !g.write && granulesMeet h.lo h.len g.lo g.len

def State.addHolds (s : State) (l : List Hold) : State := { s with holds := s.holds ++ l }

/-- A saved crew's holds without those of an owner. -/
def Crew.dropHolds (c : Crew) (owner : Nat) (p : Hold → Bool) : Crew :=
  { c with saved := c.saved.map fun sv => { sv with holds := sv.holds.filter fun h => !(h.2.2.owner = owner && p h.2.2) } }

/-- Release every hold of an owner, of one kind or both, wherever it is kept: in the tables, or by a crew that is saved (R208,
R210). -/
def State.dropHolds (s : State) (owner : Nat) (p : Hold → Bool) : State :=
  { s with
    holds := s.holds.filter fun h => !(h.owner = owner && p h)
    crews := s.crews.map fun e => (e.1, if e.2.saved.isSome then e.2.dropHolds owner p else e.2) }

/-! ## Undo log and held outputs (R88 to R91) -/

/-- Bytes in use by the undo log and by the output buffer. -/
def logBytes (c : Ctx) : Nat := 72 * c.undo.length
def outBytes (c : Ctx) : Nat :=
  80 * (c.outs.filter fun o => match o with | .record _ _ _ _ late => !late | .silent _ _ => false | _ => true).length

/-- Whether one more entry of a size still fits (R89). -/
def logRoom (c : Ctx) (n : Nat) : Bool := logBytes c + outBytes c + n < c.saveSize / 2

/-- The undo-log end and the output-buffer start in the context header (Table 4.16). -/
def State.writeEnds (s : State) (c : Ctx) : State :=
  (s.write (c.save + 48) 8 (c.saveSize / 2 + logBytes c)).write (c.save + 56) 8 (c.saveSize - outBytes c)

/-- A byte of the save area of a context, which is never logged (R88). -/
def State.inSave (s : State) (pa : Nat) : Bool := s.ctxs.any fun e => e.2.save ≤ pa && pa < e.2.save + e.2.saveSize

/-- Log a line's pre-image before its first write of the interval (R88), where the context checkpoints and the page is
logged: none when there is no room, so that the write waits for a seal. -/
def logLine (s : State) (ctx pa : Nat) (pte : BitVec 64) : Option State :=
  match s.ctx? ctx with
  | none => some s
  | some c =>
    if c.ckpt && bit pte 61 && pa < 0x3000000000 && !s.inSave pa && !(c.undo.any fun e => e.1 = pa / 64) then
      if logRoom c 72 then
        let line := pa / 64
        let img := s.read 0 (line * 64) 64
        let at_ := c.save + c.saveSize / 2 + logBytes c
        let c' := { c with undo := (line, BitVec.ofNat 512 img) :: c.undo }
        let s := { s with ctxs := Tbl.ins s.ctxs ctx c' }
        some (((s.write at_ 8 (line * 64)).write (at_ + 8) 64 img).writeEnds c')
      else none
    else some s

/-- Write the newest entry of the output buffer (R89): a line's address, the mask of its bytes and the data, for bytes from an address
up that lie inside one line. `c` already holds the entry. -/
def State.putEntry (s : State) (c : Ctx) (pa : Nat) (bs : List Byte) : State :=
  let at_ := c.save + c.saveSize - outBytes c
  (((s.write at_ 8 (pa / 64 * 64)).write (at_ + 8) 8 ((2 ^ bs.length - 1) <<< (pa % 64))).setBytes (at_ + 16 + pa % 64) bs).writeEnds c

/-- Hold back a write to host memory (R91): none when there is no room. -/
def holdOut (s : State) (ctx pa : Nat) (bs : List Byte) : Option State :=
  match s.ctx? ctx with
  | none => none
  | some c =>
    if logRoom c 80 then
      let c' := { c with outs := .host pa bs :: c.outs }
      some (({ s with ctxs := Tbl.ins s.ctxs ctx c' }).putEntry c' pa bs)
    else none

/-- Whether a context checkpoints. -/
def State.ckpts (s : State) (ctx : Nat) : Bool := match s.ctx? ctx with | some c => c.ckpt | none => false

/-- A held write of the context covers a line (R91). -/
def State.lineHeld (s : State) (ctx pa : Nat) : Bool :=
  match s.ctx? ctx with
  | none => false
  | some c => c.outs.any fun o => match o with | .host p bs => p / 64 ≤ pa / 64 && pa / 64 ≤ (p + bs.length - 1) / 64 | _ => false

/-- Ask for the seal of a context's interval (R89, R92). -/
def State.wantSeal (s : State) (ctx : Nat) : State := s.modCtx ctx fun c => { c with sealWanted := true }

/-- A write of the context finds no room in its log: the interval is to seal at once (R89). -/
def State.logFull (s : State) (ctx : Nat) : Bool :=
  match s.ctx? ctx with | some c => c.ckpt && !c.sealWanted && !logRoom c 80 | none => false

/-- A granule that is written whole holds no uncorrectable data any more (DEDUCED, log entry 14). -/
def State.unpoison (s : State) (pa n : Nat) : State :=
  if pa % 64 = 0 && n = 64 then { s with poison := s.poison.filter (· ≠ pa / 64) } else s

/-- Write bytes of one line in the global order for an agent of a context: logged, or held back, or performed; none when the
write must wait for a seal (R88 to R91). -/
def storeLine (s : State) (ctx die pa : Nat) (pte : BitVec 64) (bs : List Byte) : Option State :=
  match kindOf pa with
  | .ws o => some { s with ws := (bs.zip (span o bs.length)).foldl (fun w e => Tbl.put 0 w (die * 2 ^ 32 + e.2) e.1) s.ws }
  | .host => if s.ckpts ctx then holdOut s ctx pa bs else some ((s.setBytes pa bs).unpoison pa bs.length)
  | .dram => (logLine s ctx pa pte).map fun s => (s.setBytes pa bs).unpoison pa bs.length
  | _ => some ((s.setBytes pa bs).unpoison pa bs.length)

/-! ## The access of a thread (R380) -/

/-- The answer of DoAccess: performed at a PA, a trap, a park until it can be performed, or a migration to a home core. -/
inductive AccRes where
  | ok (x : Xl)
  | trap (cause aux : Nat)
  | wait
  | migrate (home : Nat)
deriving DecidableEq, Repr

/-- A structure that holds an address is under a fence (R85): the scratchpad bank (code 1), the home's L2 bank (code 2), the DRAM row
(code 6) or the weight row (code 7), by unit number; bits 8:6 of an address select the L2 bank of its line (DESIGN CHOICE, log
entry 118). -/
def underFence (s : State) (ctx die pa : Nat) (pte : BitVec 64) : Bool :=
  match kindOf pa with
    | .spm c o => s.mgmt.fences.contains (2 ^ 32 + c * 8 + bits o 5 3)
    | .ws o => s.mgmt.fences.contains (7 * 2 ^ 32 + die * 65536 + o / 65536)
    | .dram => s.mgmt.fences.contains (2 * 2 ^ 32 + home s ctx pa pte * 8 + bits pa 6 3) ||
        s.mgmt.fences.contains (6 * 2 ^ 32 + pa / 4096)
    | .host => s.mgmt.fences.contains (2 * 2 ^ 32 + home s ctx pa pte * 8 + bits pa 6 3)
    | _ => false

/-- The address lies in a scratchpad at retention voltage (R145). -/
def asleepAt (s : State) (pa : Nat) : Bool := match kindOf pa with | .spm c _ => s.retained c 3 | _ => false

/-- An access waits for a structure under a fence, or for a scratchpad at retention voltage: no thread of its own core then issues. -/
def fenced (s : State) (ctx die pa : Nat) (pte : BitVec 64) : Bool := underFence s ctx die pa pte || asleepAt s pa

def RHLD : Nat := 8
def UNCORR : Nat := 0x18

/-- An access of the issuing thread that touches the watch range of its vat halts the context there next (R98, Table 4.11);
the range is from MBARG5 to MBARG6, both included (DEDUCED, log entry 16). -/
def State.watch (s : State) (va : Word) (n : Nat) : State :=
  let v := s.vat (vatOf s.curCore)
  if s.mgmt.dbgen && bit v.dbgctl 9 && decide (va.toNat ≤ v.watchHi.toNat ∧ v.watchLo.toNat < va.toNat + n) then
    { s with agenda := .hit s.curCore s.curSlot :: s.agenda }
  else s

/-- Translate, migration test, TargetCheck and HoldCheck of an aligned access of n bytes by the issuing thread, then
whether it can be performed now (R380). Reads that reach cached memory fill the L1 and count; an atomic has acc = write and
count = false, and reads as well. (DEDUCED, log entry 85.) A store to a line that is in the core's L1 is no use of it for
replacement (DESIGN CHOICE, log entry 119). -/
def threadAccess (s : State) (va : Word) (n : Nat) (acc : Acc) (count : Bool) : State × AccRes :=
  let t := s.me
  let core := s.curCore
  let ctx := s.myCtx
  let (s, r) := translate s core ctx (!bit t.csr.tstat 0) true va acc
  match r with
  | .flt c a => (s, .trap c a)
  | .wait => (s, .wait)
  | .ok x =>
    let die := dieOf core
    let cached := match kindOf x.pa with | .dram | .host => true | _ => false
    let h := if cached then home s ctx x.pa x.pte else core
    if t.light && !t.notify && cached && bit x.pte 60 && h ≠ core then (s, .migrate h)
    else
      match targetCheck s ctx die x.pa x.lvl acc with
      | some (c, a) => (s, .trap c a)
      | none =>
        match holdHit s x.pa n acc with
        | some hd => (s, .trap RHLD (rhldAux hd false))
        | none =>
          if fenced s ctx die x.pa x.pte then (s, .wait)
          else if (acc = .read || !count) && s.lineHeld ctx x.pa then (s, .wait)
          else if s.poisoned die x.pa n && (acc = .read || !count) then
            (s, if s.ckpts ctx then .wait else .trap UNCORR 0)
          else
            match s.wsDelay core s.meReader x.pa n with
            | some s => (s, .wait)
            | none =>
            let s := s.watch va n
            if cached then
              (if acc = .read && count then s.threadRead core h x.pa false (evictFirst x.pte)
                else s.touchL2 h x.pa (acc = .write) (evictFirst x.pte) (some core), .ok x)
            else (s, .ok x)

end Sys2Proof.Machine
end

