-- ==== Sys2Proof/Machine/Records.lean ====
section
/-! DEFINITION. What the package writes for others to read: black-box records, completion records, thread contexts and crew
save blocks in their byte layouts, and the ends of crews and graphs that a fault or the command processor brings about. -/

namespace Sys2Proof.Machine

/-! ## Black box and interrupts -/

/-- Record a black-box event (R78, Tables 4.2 and 4.3): kind, unit and detail. The spec does not say which severity a kind has:
SEV is a free value among its three codes (DESIGN CHOICE, log entry 6). -/
def State.blackbox (s : State) (kind unit detail : Nat) : State :=
  let (w, s) := s.free
  let r : BitVec 128 := BitVec.ofNat 128 (detail % 2 ^ 32 + unit % 2 ^ 32 * 2 ^ 32 + w.toNat % 3 * 2 ^ 64 + kind * 2 ^ 72 +
    s.devtime / 1000 % 2 ^ 48 * 2 ^ 80)
  s.modMgmt fun m => { m with blackbox := (r :: m.blackbox).take 4096 }

/-- An entry of the MSI-X table after reset, and whether an entry masks its vector: bit 0 of its last dword, which is set after reset
(PRESUMED, log entry 96). -/
def msixReset : BitVec 128 := 1 <<< 96
def Hub.masked (h : Hub) (vec : Nat) : Bool := bit (Tbl.get msixReset h.msixTab vec) 96

/-- Signal an MSI-X vector; a masked one becomes pending (PRESUMED, log entry 96). -/
def State.signal (s : State) (vec : Nat) : State :=
  s.modHub fun h =>
    if h.masked vec then { h with msixPend := if h.msixPend.contains vec then h.msixPend else vec :: h.msixPend }
    else { h with msix := vec :: h.msix }

/-! ## Completion records (R60) -/

/-- Ring sizes and bases of RINGCFG and CPLCFG (Tables 2.5, 2.6). -/
def ringSz (cfg : Word) : Nat := 2 ^ fld cfg 0 5
def ringBase (cfg : Word) : Nat := fld cfg 12 36 * 4096
def ringVec (cfg : Word) : Nat := fld cfg 52 11

/-- The completion ring has room: it is full while CPLTAIL − CPLHEAD = 2^SZ (R60). -/
def cplRoom (q : Queue) : Bool := (q.cplTail - q.cplHead).toNat ≠ ringSz q.cplcfg

/-- Reading a ring, or writing into it, meets an error: its granule is uncorrectable, or it lies in host memory and the host link is
down (R40). -/
def State.ringBad (s : State) (pa n : Nat) : Bool := s.poisoned 0 pa n || (kindOf pa = .host && !s.hub.linkUp)

/-- Where a queue's record goes whose place in the completion ring is `k` beyond CPLTAIL, and the record with its P (R60). -/
def cplSlot (q : Queue) (k : Nat) : Nat := ringBase q.cplcfg + 32 * ((q.cplTail.toNat + k) % ringSz q.cplcfg)
def withPhase (q : Queue) (k : Nat) (r : BitVec 256) : Nat :=
  r.toNat + (1 - (q.cplTail.toNat + k) / ringSz q.cplcfg % 2) * 2 ^ 48

/-- A record's fields but P, which is set when it is written (Table 2.15). -/
def mkRecord (q seq typ status detail time aux : Nat) : BitVec 256 :=
  BitVec.ofNat 256 (seq + typ * 2 ^ 16 + status * 2 ^ 24 + q * 2 ^ 32 + detail % 2 ^ 64 * 2 ^ 64 + time % 2 ^ 64 * 2 ^ 128 +
    aux % 2 ^ 64 * 2 ^ 192)

/-- A record that meets an error while it is written is lost, and the queue stops with RINGFLT; its stop record would meet the same
error and is lost as well (R40). CPLTAIL counts written records alone (DEDUCED, log entry 97). -/
def State.ringFault (s : State) (q : Nat) : State :=
  s.modQueue q fun x => match x.state with
    | .run | .wait => { x with state := .stop, code := 7, rereads := 0 }
    | _ => x

/-- Put a record into the completion ring, or behind those that wait for room; the interrupt follows the record. -/
def putRecord (s : State) (q : Nat) (r : BitVec 256) (irq : Bool) : State :=
  let qu := s.queue q
  if cplRoom qu && qu.backlog.isEmpty then
    if s.ringBad (cplSlot qu 0) 32 then s.ringFault q
    else
      let s := s.write (cplSlot qu 0) 32 (withPhase qu 0 r)
      let s := s.modQueue q fun x => { x with cplTail := x.cplTail + 1 }
      if irq then s.signal (ringVec qu.ringcfg) else s
  else s.modQueue q fun x => { x with backlog := x.backlog ++ [(r, irq)] }

/-- Write the records that waited for room, as far as there is room. -/
def flushBacklog (s : State) (q : Nat) : Nat → State
  | 0 => s
  | n + 1 =>
    match (s.queue q).backlog with
    | [] => s
    | (r, irq) :: rest =>
      if cplRoom (s.queue q) then
        flushBacklog (putRecord (s.modQueue q fun x => { x with backlog := [] }) q r irq
          |>.modQueue q fun x => { x with backlog := rest }) q n
      else s

/-- Records of a queue that a context holds back. -/
def Ctx.recordsOf (c : Ctx) (q : Nat) : Nat :=
  (c.outs.filter fun o => match o with | .record k _ _ _ _ => k = q | _ => false).length

/-- Hold a record back (R91): its entry in the output buffer names the place that it is to take in the completion ring. Without room
the interval is to seal, and the record waits for that seal (R89; DEDUCED, log entry 98). -/
def holdRecord (s : State) (ctx q : Nat) (r : BitVec 256) (irq : Bool) (cmd : Option Cmd) : State :=
  match s.ctx? ctx with
  | none => s
  | some c =>
    if logRoom c 80 then
      let k := (s.queue q).backlog.length + c.recordsOf q
      let c' := { c with outs := .record q r irq cmd false :: c.outs }
      ({ s with ctxs := Tbl.ins s.ctxs ctx c' }).putEntry c' (cplSlot (s.queue q) k) (bytesOf (withPhase (s.queue q) k r) 32)
    else { s with ctxs := Tbl.ins s.ctxs ctx { c with outs := .record q r irq cmd true :: c.outs, sealWanted := true } }

/-- A record of a queue, held until the interval seals when its context checkpoints (R60, R91). -/
def State.record (s : State) (q : Nat) (r : BitVec 256) (irq : Bool) (cmd : Option Cmd) : State :=
  let ctx := match cmd with | some c => c.ctx | none => (s.queue q).ctx
  if q ≠ 0 && s.ckpts ctx then holdRecord s ctx q r irq cmd else putRecord s q r irq

/-- A command that has been read must wait for the earlier ones of its queue before it begins (R46). -/
def Queue.mustWait (q : Queue) (c : Cmd) : Bool :=
  let before := q.cmds.takeWhile fun x => x.id ≠ c.id
  if c.typ = 4 || c.typ = 9 || c.typ = 0x0D then !before.isEmpty
  else if c.typ = 3 || c.typ = 6 then before.any fun x => x.typ = 3 || x.typ = 6
  else false

/-- The queue's STATE is WAIT: its header is being read again, its next command waits to begin, or a SIGNAL, WAITV or QFENCE
that has begun waits (R44, R46, R53). -/
def Queue.waits (q : Queue) : Bool :=
  0 < q.rereads || q.cmds.any fun c =>
    if c.begun then c.typ = 4 || c.typ = 5 || c.typ = 0x0D else q.mustWait c

/-- A packet of the queue is in execution, so that a write of EN = 0 has to wait (R40): it has been read and waits to begin, or it is a
SIGNAL, WAITV or QFENCE that has begun, for which the queue itself waits. The rule does not say which begun commands count; those that run
on beside later ones do not: LAUNCH, COPY, WSLOAD, WSSEAL, PREEMPT, CKPT, DESTROY (DESIGN CHOICE, log entry 126). -/
def Queue.executing (q : Queue) : Bool := q.cmds.any fun c => !c.begun || c.typ = 4 || c.typ = 5 || c.typ = 0x0D

/-- A queue takes the RINGCFG that clears EN: it is OFF, and what it has read and not begun is dropped (R40, R45). -/
def Queue.takeRing (x : Queue) (w : Word) : Queue :=
  { x with state := .off, code := 0, ringcfg := w, ringNext := none, rereads := 0, cmds := x.cmds.filter fun c => c.begun }

/-- Bring STATE up to date; a RINGCFG that clears EN is taken as soon as no packet is in execution, at once where the queue has stopped
(R40, R45). -/
def refreshQueue (s : State) (q : Nat) : State :=
  s.modQueue q fun x => match x.state with
    | .run | .wait =>
      (match x.ringNext with
        | some w => if x.executing then { x with state := if x.waits then .wait else .run } else x.takeRing w
        | none => { x with state := if x.waits then .wait else .run })
    | .stop => (match x.ringNext with | some w => x.takeRing w | none => x)
    | .off => x

/-- A command that changes memory and completes without a record, in a context with checkpointing, is kept until the interval seals: a
rollback undoes what it did, and it completes again (R94; DEDUCED, log entry 27). -/
def keepSilent (s : State) (q : Nat) (cmd : Option Cmd) : State :=
  match cmd with
  | some c => if q ≠ 0 && s.ckpts c.ctx && (c.typ = 2 || c.typ = 3 || c.typ = 4) then s.modCtx c.ctx fun x => { x with outs := .silent q c :: x.outs } else s
  | none => s

/-- A command of a queue is no longer in progress, and its record is made where there is one (R60). -/
def finish (s : State) (q id seq typ status detail aux : Nat) (cpl irq : Bool) : State :=
  let cmd := (s.queue q).cmds.find? fun c => c.id = id
  let s := s.modQueue q fun x => { x with cmds := x.cmds.filter fun c => c.id ≠ id }
  if cpl || status ≠ 0 then s.record q (mkRecord q seq typ status detail s.devtime aux) irq cmd else keepSilent s q cmd

/-- Complete a command of a queue: its record is made under the ring configuration in which it finishes, and then the queue's state is
brought up to date (R40, R60). -/
def complete (s : State) (q id seq typ status detail aux : Nat) (cpl irq : Bool) : State :=
  refreshQueue (finish s q id seq typ status detail aux cpl irq) q

/-- Complete a command from its own flags. -/
def completeCmd (s : State) (q : Nat) (c : Cmd) (status detail aux : Nat) : State :=
  complete s q c.id c.seq c.typ status detail aux c.cpl c.irq

/-- Stop a queue (R45): a record with STATUS 0xFF and the stop code. The rule gives no other field of the record: its SEQ is EXPSEQ, its
TYPE 0, and no vector is signalled (DESIGN CHOICE, log entry 99). -/
def stopQueue (s : State) (q code : Nat) : State :=
  let qu := s.queue q
  let s := s.modQueue q fun x => { x with state := .stop, code := code, rereads := 0 }
  refreshQueue (s.record q (mkRecord q qu.expSeq.toNat 0 0xFF code s.devtime 0) false none) q

/-! ## Thread contexts in their layout (Table 7.6) -/

/-- The 18 CSRs of a context in the order of Table 7.6. -/
def Csrs.list (c : Csrs) : List Word :=
  [c.tstat, c.tpc, c.tcause, c.taddr, c.taux, c.tnest, c.tvec, c.uvec, c.nvec, c.tdlg, c.fcsr, c.ebud, c.eref, c.ecap,
    c.ecost, c.lpr, c.sndtmo, c.pactmo]

/-- The park reasons by number: the model's own, none of the device's. -/
def ParkWhy.index : ParkWhy → Nat
  | .reg => 1 | .memory => 2 | .message => 3 | .pact => 4 | .pressQueue => 5 | .press => 6 | .barrier => 7 | .tbar => 8
  | .event => 9 | .wfw => 10 | .exit => 11 | .budget => 12 | .system => 13 | .migrate => 14

/-- Code of a park reason in the stored context: the spec gives none, and it is a free value (DESIGN CHOICE, log entry 12). -/
def ParkWhy.code (w : ParkWhy) : Nat := (Config.parkCode w.index).toNat

/-- A stream binding's 48 bytes (R397). -/
def StreamBind.bytes (b : StreamBind) : List Byte :=
  if b.bound || b.stopped then
    bytesOf b.desc.toNat 40 ++ bytesOf b.count 4 ++ bytesOf (b2n b.bound + 2 * b2n b.stopped) 1 ++ bytesOf 0 3
  else bytesOf 0 48

/-- The bytes of a thread context. -/
def Thread.bytes (t : Thread) : List Byte :=
  t.g.toList.flatMap (fun x => bytesOf x.toNat 8) ++ bytesOf t.full.toNat 8 ++ bytesOf t.pc.toNat 8 ++
  bytesOf (t.predWord.toNat + b2n t.light * 2 ^ 16 + b2n t.notify * 2 ^ 17 + b2n t.outBuf.isSome * 2 ^ 18) 8 ++
  t.y.toList.flatMap (fun x => bytesOf x.toNat 8) ++ bytesOf 0 16 ++
  t.v.toList.flatMap (fun x => bytesOf x.toNat 64) ++ (span 0 8).flatMap (fun i => bytesOf (t.getM i).toNat 2) ++
  t.csr.list.flatMap (fun x => bytesOf x.toNat 8) ++ t.streams.toList.flatMap StreamBind.bytes ++
  t.queues.toList.flatMap (fun x => bytesOf x.toNat 8) ++
  (match t.outBuf with
    | some o => bytesOf (o.core.toNat + o.slot.toNat * 2 ^ 12 +
        (match o.reg with | some r => r.toNat * 2 ^ 15 + 2 ^ 20 | none => 0)) 8 ++ bytesOf o.word.toNat 8
    | none => bytesOf 0 16) ++
  (match t.park with | some p => bytesOf p.why.code 8 ++ bytesOf p.addr.toNat 8 | none => bytesOf 0 16) ++
  (span 0 8).flatMap (fun i => match t.nq[i]? with
    | some n => bytesOf n.addr.toNat 8 ++ bytesOf (n.phase.toNat + 16 * b2n n.err) 8 | none => bytesOf 0 16) ++
  t.mbox.toList.flatMap (fun x => bytesOf x.toNat 8) ++
  bytesOf (t.mboxFull.toNat + t.mboxLast.toNat * 16 + t.inq.length * 2 ^ 8 + t.inHead.toNat * 2 ^ 16) 8 ++
  (span 0 3).flatMap (fun i => match t.atraps[i]? with
    | some a => bytesOf a.addr.toNat 8 ++ bytesOf a.aux.toNat 4 ++ bytesOf a.cause.toNat 1 ++ bytesOf 0 3
    | none => bytesOf 0 16) ++
  bytesOf t.atraps.length 8 ++
  (span 0 16).flatMap (fun i =>
    let k := (i + 16 - t.inHead.toNat) % 16
    match t.inq[k]? with | some w => bytesOf w.toNat 8 | none => bytesOf 0 8)

/-! ## Crew save blocks (Table 5.6) -/

/-- The presses with both ends in the rectangle, as logical core × 2 + direction, in the order of Table 5.6 (R127). -/
def Crew.pressList (c : Crew) : List Nat :=
  (span 0 c.n).flatMap fun i =>
    (if i % c.w + 1 < c.w then [i * 2] else []) ++ (if i / c.w + 1 < c.h then [i * 2 + 1] else [])

/-- The physical press of a crew's press. -/
def Crew.physPress (c : Crew) (k : Nat) : Nat := c.phys (k / 2) * 2 + k % 2

/-- Bytes of a crew's save block (R127). -/
def Crew.saveBytes (c : Crew) : Nat := 64 + 286720 * c.n + 67584 * c.pressList.length

/-- State codes of crews (Table 5.3) and of pacts (Table 10.6). -/
def CrewState.code : CrewState → Nat
  | .wait => 0 | .resv => 1 | .load => 2 | .init => 3 | .run => 4 | .parked => 5 | .preempt => 6 | .swapped => 7
  | .reloc => 8 | .halted => 9
def PactState.code : PactState → Nat
  | .half => 0 | .queued => 1 | .stream => 2 | .susp => 3 | .deliver => 4 | .dfault => 5 | .done => 6 | .cancel => 7

/-- The state of a pact as PQRY reports it: DFAULT until a PRDL has delivered it (Table 10.7). -/
def PressEntry.code (e : PressEntry) : Nat := if e.redo && e.state = .deliver then 5 else e.state.code

def PressOp.isPact : PressOp → Bool
  | .pmm | .pdsc | .pdgr => true
  | _ => false

/-- Issuers in saved records: logical core and slot. -/
def issuerWord (s : State) (r : TRef) : Nat :=
  match s.crew? r.crew with | some c => c.logical r.lcore + r.lslot * 2 ^ 12 | none => 0

/-- A queue entry's 128 bytes (Table 23.1). A PRDT reads no register: its B value is 0. -/
def PressEntry.bytes (s : State) (e : PressEntry) : List Byte :=
  if e.op.isPact then
    bytesOf e.recA.toNat 40 ++ bytesOf e.recB.toNat 40 ++ bytesOf e.tag.toNat 1 ++ bytesOf e.state.code 1 ++
    bytesOf (issuerWord s e.lead) 2 ++ bytesOf (issuerWord s e.other) 2 ++
    bytesOf (match e.op with | .pmm => 0 | .pdsc => 1 | _ => 2) 1 ++ bytesOf 0 1 ++ bytesOf e.opA.toNat 8 ++
    (span 0 4).flatMap fun i => bytesOf (e.addrs.getD i 0) 8
  else
    bytesOf e.insn.toNat 12 ++ bytesOf 0 28 ++ bytesOf e.opA.toNat 8 ++ bytesOf (if e.op = .prdt then 0 else e.opB.toNat) 8 ++ bytesOf 0 24 ++
    bytesOf 0 1 ++ bytesOf 1 1 ++ bytesOf (issuerWord s e.lead) 2 ++ bytesOf 0 2 ++ bytesOf 8 1 ++ bytesOf 0 1 ++ bytesOf 0 40

/-- The bytes of a press record beyond its slots, from offset 65,536 (Table 10.8). -/
def Press.tailBytes (s : State) (p : Press) : List Byte :=
  let head := p.queue.head?
  let susp := match head with | some e => e.state = .susp | none => false
  -- One entry for each tag: a pair that waits for room in the queue is the entry of its first half.
  let halves := p.halves.foldl (fun l h => if l.any fun x => x.tag = h.tag then l else l ++ [h]) []
  bytesOf (p.queue.length + halves.length * 8 + b2n susp * 256) 8 ++
  (match head with | some e => bytesOf (e.kdone + e.gran * 2 ^ 32) 8 | none => bytesOf 0 8) ++
  bytesOf p.t4a.toNat 16 ++ bytesOf p.t4b.toNat 16 ++
  bytesOf (p.queue.foldl (fun a e => a ||| e.flags) (0 : BitVec 5)).toNat 8 ++ bytesOf 0 8 ++
  p.pt.toList.flatMap (fun x => bytesOf x.toNat 8) ++
  (span 0 4).flatMap (fun i => match p.queue[i]? with | some e => e.bytes s | none => bytesOf 0 128) ++
  (span 0 4).flatMap (fun i => match halves[i]? with
    | some h => bytesOf h.rcd.toNat 40 ++ bytesOf h.tag.toNat 1 ++ bytesOf 0 1 ++ bytesOf (issuerWord s h.issuer) 2 ++ bytesOf 0 20
    | none => bytesOf 0 64) ++ bytesOf 0 1088

/-- Clear a range of memory. -/
def State.clear (s : State) (pa n : Nat) : State := { s with mem := s.mem.filter fun c => !(pa ≤ c.1 && c.1 < pa + n) }

/-- The listed bytes of a range, as offsets from its start. -/
def State.cells (s : State) (pa n : Nat) : List Host.Cell :=
  s.mem.filterMap fun c => if pa ≤ c.1 && c.1 < pa + n then some (c.1 - pa, c.2) else none

/-- Write listed bytes at offsets from a start. -/
def State.putCells (s : State) (pa : Nat) (l : List Host.Cell) : State :=
  l.foldl (fun s c => s.setByte (pa + c.1) c.2) s

/-- Move the bytes of a range. -/
def State.copyRange (s : State) (src dst n : Nat) : State := (s.clear dst n).putCells dst (s.cells src n)

/-- The bytes of a copy's resume record (R436). -/
def CopyCmd.bytes (s : State) (c : CopyCmd) : List Byte :=
  let off :=
    if c.kind = 2 then c.next
    else if fld c.rcd 181 2 = 1 then c.next * (if fld c.rcd 183 2 = 2 then 4 else 8)
    else if c.next = 0 then 0 else c.next * 64 - fld c.rcd 48 48 % 64
  bytesOf c.rcd.toNat 40 ++ bytesOf 0 8 ++ bytesOf off 8 ++ bytesOf (issuerWord s c.issuer % 4096) 2 ++ bytesOf c.buf 1 ++ bytesOf 0 5

/-- Write what a saved crew's block holds (Table 5.6) at a PA. (DEDUCED, log entry 66.) -/
def writeSave (s : State) (n : Nat) (c : Crew) (sv : CrewSave) (at_ : Nat) : State :=
  let hdr := bytesOf n 4 ++ bytesOf c.task 2 ++ bytesOf c.state.code 1 ++ bytesOf c.t 1 ++ bytesOf c.h 1 ++ bytesOf c.w 1 ++
    bytesOf c.lrow 1 ++ bytesOf c.lcol 1 ++ bytesOf c.prow 1 ++ bytesOf c.pcol 1 ++ bytesOf 0 2 ++
    c.bars.toList.flatMap (fun b => bytesOf (b.ap % 2 ^ 15 + b2n b.phase * 2 ^ 15) 2) ++
    bytesOf sv.copies.length 8 ++ bytesOf s.devtime 8 ++ bytesOf 0 16
  let s := (s.clear at_ c.saveBytes).setBytes at_ hdr
  let s := (sv.threads.filter fun e => e.1 < 2 ^ 16).foldl (fun s e => s.setBytes (at_ + 64 + 286720 * (e.1 / 8) + 2048 * (e.1 % 8)) e.2.bytes) s
  let s := sv.spm.foldl (fun s e => s.setByte (at_ + 64 + 286720 * (e.1 / 262144) + 16384 + e.1 % 262144) e.2) s
  let s := (span 0 c.n).foldl (fun s i =>
    let mine := sv.copies.filter fun k => k.issuer.lcore = i
    let s := s.setBytes (at_ + 64 + 286720 * i + 278528) ((mine.take 127).flatMap fun k => k.bytes s)
    let cc := Tbl.get ⟨0xFFFF, 0, []⟩ sv.cores i
    s.setBytes (at_ + 64 + 286720 * i + 286656) (bytesOf cc.bf.toNat 2 ++ bytesOf cc.t4.toNat 16)) s
  (c.pressList.zip (span 0 c.pressList.length)).foldl (fun s e =>
    let p := Tbl.get State.press0 sv.presses e.1
    let base := at_ + 64 + 286720 * c.n + 67584 * e.2
    let s := p.slots.foldl (fun s w => s.write (base + 4 * w.1) 4 w.2.toNat) s
    s.setBytes (base + 65536) (p.tailBytes s)) s

/-! ## Freeing crews and graphs -/

/-- The owner number of the hold that a command to this package by package number has at its destination (R203, code 8). -/
def destOwner (id : Nat) : Nat := 2 ^ 81 + id

/-- The threads of a crew that are in slots or closet entries are taken away. -/
def State.dropThreads (s : State) (n : Nat) : State :=
  { s with
    threads := s.threads.filter fun e => e.2.ref.crew ≠ n
    closet := s.closet.filter fun e => e.2.th.ref.crew ≠ n
    cores := s.cores.filterMap fun e =>
      let c := { e.2 with runq := e.2.runq.filter fun k => k.crew ≠ n }
      if c = State.core0 then none else some (e.1, c) }

/-- The agents of a crew's copies, presses and streams, where they run and where they are saved. -/
def State.ownersOf (s : State) (n : Nat) : List Nat :=
  let ofThread (t : Thread) : List Nat := if t.ref.crew = n then t.streams.toList.map (·.hold) else []
  let ofPress (p : Press) : List Nat :=
    ((p.queue.filter fun e => e.lead.crew = n).flatMap fun e => [e.id, e.gang]) ++ (p.halves.filter fun h => h.issuer.crew = n).map (·.id)
  let ofCopy (k : CopyCmd) : List Nat := [k.id, destOwner k.id]
  let saved := match s.crew? n with
    | some c => match c.saved with
      | some v => v.copies.flatMap ofCopy ++ (v.presses.flatMap fun p => ofPress p.2) ++ v.threads.flatMap fun t => ofThread t.2
      | none => []
    | none => []
  (s.vats.flatMap fun v => (v.2.copies.filter fun k => k.issuer.crew = n).flatMap ofCopy) ++
  (s.presses.flatMap fun p => ofPress p.2) ++ (s.threads.flatMap fun t => ofThread t.2) ++
  (s.closet.flatMap fun t => ofThread t.2.th) ++ saved

/-- Stop the agents of a crew and release their holds (R87, R210), those too that another crew's save keeps with its scratchpads. -/
def State.dropAgents (s : State) (n : Nat) : State :=
  let own := s.ownersOf n
  let without (v : CrewSave) : CrewSave := { v with holds := v.holds.filter fun x => x.2.2.owner = 0 || !own.contains x.2.2.owner }
  { s with
    crews := s.crews.map fun e => if e.1 = n then e else (e.1, { e.2 with saved := e.2.saved.map without })
    holds := s.holds.filter fun h => h.owner = 0 || !own.contains h.owner
    vats := s.vats.filterMap fun e =>
      let v := { e.2 with copies := e.2.copies.filter fun k => k.issuer.crew ≠ n }
      if v = State.vat0 then none else some (e.1, v) }

/-- Set every press of a crew's rectangle as at a first placement (R223). -/
def State.clearPresses (s : State) (c : Crew) : State :=
  c.pressList.foldl (fun s k => { s with presses := Tbl.del s.presses (c.physPress k) }) s

/-- Free a crew: its threads, agents, presses and rectangle; the save block keeps its bytes (R90, R122). -/
def freeCrew (s : State) (n : Nat) : State :=
  match s.crew? n with
  | none => s
  | some c =>
    let s := s.dropAgents n
    let s := if c.state.holds then s.clearPresses c else s
    let s := s.dropThreads n
    { s with crews := Tbl.del s.crews n, hub := { s.hub with placing := if s.hub.placing = some n then none else s.hub.placing } }

/-- Rewrite the list of graph records in a context's header and records (Tables 4.16, 4.17). -/
def linkGraphs (s : State) (ctx : Nat) : State :=
  match s.ctx? ctx with
  | none => s
  | some c =>
    let gs := s.graphs.filter fun g => g.2.ctx = ctx
    let offs := gs.map fun g => g.2.recOff
    let s := s.write (c.save + 64) 8 (offs.headD 0)
    (offs.zip (offs.drop 1 ++ [0])).foldl (fun s e => s.write (c.save + e.1 + 8) 8 e.2) s

/-- End a graph: its crews are freed, its range is released, and its LAUNCH completes (R87, R122, R56, R94). -/
def endGraph (s : State) (gid status detail : Nat) : State :=
  match s.graph? gid with
  | none => s
  | some g =>
    let s := g.crews.foldl freeCrew s
    let s := { s with graphs := Tbl.del s.graphs gid }
    linkGraphs (complete s g.q g.cmd g.seq 2 status detail 0 g.cpl g.irq) g.ctx

/-- The graph of a thread's crew. -/
def graphOf (s : State) (crew : Nat) : Nat := match s.crew? crew with | some c => c.graph | none => 0

end Sys2Proof.Machine
end

