-- ==== Sys2Proof/Machine/Profile.lean ====
section
/-! DEFINITION. The profile ring of a context (R100, R102): writing a record, and trace records. -/

namespace Sys2Proof.Machine

/-- PA of a byte of the ring: the ring's address is a VA of the context, or, from 2^64 up, a device physical address given on
queue 0 (R48, R100). -/
def ringByte (s : State) (ctx a : Nat) : Option Nat :=
  if 2 ^ 64 ≤ a then some (a - 2 ^ 64)
  else match (translate s 0 ctx true false (word a) .write).2 with
    | .ok x => some x.pa
    | _ => none

/-- Write bytes of the ring; none where one does not translate. Profile writes are not logged and register no hold. -/
def ringPut (s : State) (ctx a : Nat) : List Byte → Option State
  | [] => some s
  | b :: r => match ringByte s ctx a with
    | some pa => ringPut (s.setByte pa b) ctx (a + 1) r
    | none => none

/-- Append a record of 16, 32 or 64 bytes to the ring. A record that does not fit before the end goes to the ring's start; the
units that it leaves out count as written, so that the count gives the place (DEDUCED, log entry 15). A record that cannot be
written is dropped. -/
def profPut (s : State) (ctx : Nat) (bs : List Byte) : State :=
  match s.ctx? ctx with
  | none => s
  | some c =>
    if c.profSize < 128 then s
    else
      let n := (c.profSize - 64) / 16
      let k := bs.length / 16
      let pos := c.profUnits % n
      let skip := if pos + k ≤ n then 0 else n - pos
      let units := c.profUnits + skip + k
      match (ringPut s ctx (c.profRing + 64 + 16 * ((pos + skip) % n)) bs).bind fun s =>
          ringPut s ctx (c.profRing + 8) (bytesOf units 8) with
      | some s => s.modCtx ctx fun c => { c with profUnits := units }
      | none =>
        let s := (ringPut s ctx (c.profRing + 16) (bytesOf (c.profDropped + k) 8)).getD s
        s.modCtx ctx fun c => { c with profDropped := c.profDropped + k }

/-- The context is profiled. -/
def State.profiled (s : State) (ctx : Nat) : Bool := match s.ctx? ctx with | some c => c.profOn | none => false

/-- A record that is written only while profiling runs. -/
def profWrite (s : State) (ctx : Nat) (bs : List Byte) : State := if s.profiled ctx then profPut s ctx bs else s

/-- A trace record (Table 4.14). -/
def trace (s : State) (ctx kind tag arg core slot : Nat) : State :=
  profWrite s ctx (bytesOf (kind + slot % 8 * 2 ^ 17 + core % 4096 * 2 ^ 20 + arg % 2 ^ 32 * 2 ^ 32 + tag % 2 ^ 16 * 2 ^ 64 +
    s.devtime % 2 ^ 48 * 2 ^ 80) 16)

/-- A trace record of the issuing thread. -/
def traceMe (s : State) (kind tag arg : Nat) : State := trace s s.myCtx kind tag arg s.curCore s.curSlot

end Sys2Proof.Machine
end

