-- ==== Sys2Proof/Machine/Ops.lean ====
section
/-! DEFINITION. The operations that instructions share: reading and writing registers and their full bits, results in
flight, taking a trap and returning from one, entering and leaving a notify handler, barrier updates, sends and the
parking and releasing of threads. -/

namespace Sys2Proof.Machine

/-! ## Registers (R155, R156) -/

/-- Full-bit positions of vector and mask registers (Table 7.6). -/
def vFullBit (i : Nat) : Nat := 23 + i
def mFullBit (i : Nat) : Nat := 39 + i

namespace Thread

/-- Whether a general specifier names y0–y3 now. (DEDUCED, log entry 38.) -/
def isY (t : Thread) (r : Nat) : Bool := t.notify && 10 ≤ r && r ≤ 13

/-- Value of specifiers 0–23: z reads 0 (R156). -/
def getG (t : Thread) (r : Nat) : Word :=
  if r ≥ 23 then 0 else if t.isY r then vget t.y (r - 10) 0 else vget t.g r 0

def isFull (t : Thread) (k : Nat) : Bool := t.full.getLsbD k
def setFull (t : Thread) (k : Nat) (b : Bool) : Thread := { t with full := setFld t.full k 1 (b2n b) }

/-- Write a register and set it full; a write to z, m0 or p0 is discarded (R156). -/
def writeReg (t : Thread) : RegWrite → Thread
  | .g r v => if r.toNat ≥ 23 then t else { t with g := t.g.setIfInBounds r.toNat v }.setFull r.toNat true
  | .v r v => { t with v := t.v.setIfInBounds r.toNat v }.setFull (vFullBit r.toNat) true
  | .m r v => if r = 0 then t else { t with m := t.m.setIfInBounds r.toNat v }.setFull (mFullBit r.toNat) true
  | .p r v => if r = 0 then t else { t with pred := setFld t.pred r.toNat 1 (b2n v) }
  | .y r v => { t with y := t.y.setIfInBounds r.toNat v, yfull := setFld t.yfull r.toNat 1 1 }

/-- The register of a write is set empty: the result is on its way (R153). -/
def emptyReg (t : Thread) : RegWrite → Thread
  | .g r _ => if r.toNat ≥ 23 then t else t.setFull r.toNat false
  | .v r _ => t.setFull (vFullBit r.toNat) false
  | .m r _ => if r = 0 then t else t.setFull (mFullBit r.toNat) false
  | .p _ _ => t
  | .y r _ => { t with yfull := setFld t.yfull r.toNat 1 0 }

/-- Set floating-point flags of FCSR (R252). -/
def raise (t : Thread) (f : BitVec 5) : Thread := { t with csr := { t.csr with fcsr := t.csr.fcsr ||| f.setWidth 64 } }

/-- The privilege is U. -/
def user (t : Thread) : Bool := !bit t.csr.tstat 0

/-- FCSR.RM. -/
def rm (t : Thread) : Nat := fld t.csr.fcsr 5 2

def setTstat (t : Thread) (lo n x : Nat) : Thread := { t with csr := { t.csr with tstat := setFld t.csr.tstat lo n x } }

end Thread

/-- Two writes of one register. -/
def RegWrite.same : RegWrite → RegWrite → Bool
  | .g a _, .g b _ => a = b && a.toNat ≠ 23
  | .v a _, .v b _ => a = b
  | .m a _, .m b _ => a = b
  | .p a _, .p b _ => a = b
  | .y a _, .y b _ => a = b
  | _, _ => false

/-- The destination of a general specifier 0–23 as it stands: y0–y3 inside a notify handler. -/
def Thread.destG (t : Thread) (r : BitVec 5) (v : Word) : RegWrite :=
  if t.isY r.toNat then .y (BitVec.ofNat 2 (r.toNat - 10)) v else .g r v

/-- A result of the thread that has still to be written to this register (R153, R326). -/
def Thread.awaits (t : Thread) (w : RegWrite) : Bool := t.pend.any fun p => p.writes.any fun x => x.same w

/-- The same, from a fixed-latency producer (R154). -/
def Thread.awaitsFixed (t : Thread) (w : RegWrite) : Bool :=
  t.pend.any fun p => p.left.isSome && p.writes.any fun x => x.same w

/-- Write a result's registers and set its flags. -/
def Thread.land (t : Thread) (p : Pending) : Thread := (p.writes.foldl Thread.writeReg t).raise p.flags

/-- One turn passes: the fixed-latency results that are due are written (R152). (DEDUCED, log entry 39.) -/
def Thread.tick (t : Thread) : Thread :=
  let ps := t.pend.map fun p => { p with left := p.left.map fun n => n - 1 }
  let due := ps.filter fun p => p.left = some 0
  due.foldl Thread.land { t with pend := ps.filter fun p => p.left ≠ some 0 }

/-- Give a result to the thread: written at once for a latency of 1, otherwise its registers become empty until it is
written `lat` turns later; an asynchronous result has no latency bound (R152, R153). `fp` marks an asynchronous floating-point one. -/
def Thread.result (t : Thread) (lat : Option Nat) (ws : List RegWrite) (flags : BitVec 5) (fp : Bool := false) : Thread :=
  if lat = some 1 then (ws.foldl Thread.writeReg t).raise flags
  else { ws.foldl Thread.emptyReg t with pend := t.pend ++ [⟨lat, ws, flags, false, fp⟩] }

/-- SNDTMO and PACTMO as the thread's timers use them now (R443). -/
def Thread.tmoNow (t : Thread) (now : Nat) : Word × Word :=
  match t.tmoWas with
  | some (at_, s, p) => if now < at_ then (s, p) else (t.csr.sndtmo, t.csr.pactmo)
  | none => (t.csr.sndtmo, t.csr.pactmo)

/-- A write of SNDTMO or PACTMO applies to the timers from the next µs of DEVTIME: until then they use what they use now. -/
def Thread.holdTmo (t : Thread) (now : Nat) : Thread :=
  { t with tmoWas := some ((now / 1000 + 1) * 1000, (t.tmoNow now).1, (t.tmoNow now).2) }

/-! ## Code addresses (R283, R290) -/

/-- The line of a code address, and its slot. -/
def lineOf (pc : Word) : Word := pc &&& 0xFFFFFFFFFFFFFFC0#64
def slotOf (pc : Word) : Nat := fld pc 0 3

/-- The instruction after the one at a code address: the next slot, or slot 0 of the next line after slot 4 or after an
instruction with a parameter block (R290); `n` is the number of slots issued. -/
def nextPC (pc : Word) (n : Nat) (blk : Bool) : Word :=
  if blk || slotOf pc + n ≥ 5 then lineOf pc + 64 else pc + word n

/-! ## Saving a crew (R125) -/

/-- The copies of a crew in progress. -/
def State.copiesOf (s : State) (n : Nat) : List CopyCmd := s.vats.flatMap fun v => v.2.copies.filter fun k => k.issuer.crew = n

/-- A hold is one of the crew's copies. -/
def State.copyOwns (s : State) (n : Nat) (h : Hold) : Bool :=
  (s.copiesOf n).any fun k => h.owner = k.id || h.owner = destOwner k.id

/-- A hold on a scratchpad by the crew and logical core that have it, for keeping while its range may move (R128). -/
def State.seatHold (s : State) (h : Hold) : Option (Nat × Nat × Hold) :=
  match kindOf h.lo with
  | .spm k off => s.crews.findSome? fun e =>
      if e.2.state.holds then (e.2.indexOf k).map fun i => (e.1, i, { h with lo := off }) else none
  | _ => none

/-- The hold as it stands now: none while its crew has no rectangle. -/
def State.unseatHold (s : State) (x : Nat × Nat × Hold) : Option Hold :=
  if x.1 = 0 then some x.2.2
  else match s.crew? x.1 with
    | some c => if c.state.holds then some { x.2.2 with lo := spmPA (c.phys x.2.1) x.2.2.lo } else none
    | none => none

/-- Writable bits of TVEC, UVEC and NVEC (Table 19.5). -/
def vecMask : Word := 0xFFFFFFFFFFFFFFC7

/-- The physical worker slots of a core that no other crew occupies there, lowest first: crew-logical slot k is the k-th (R466). -/
def freeSlots (s : State) (n core : Nat) : List Nat :=
  let used := (s.crewsOn core).flatMap fun e =>
    if e.1 = n then [] else match e.2.indexOf core with
      | some i => (Tbl.get ⟨0xFFFF, 0, []⟩ e.2.cores i).slots
      | none => []
  (span 0 7).filter fun p => !used.contains p

/-- Those of a crew's T worker threads. -/
def slotsFor (s : State) (n t core : Nat) : List Nat := (freeSlots s n core).take t

/-- A thread context at first start (Table 5.2, R142). -/
def startThread (s : State) (n : Nat) (c : Crew) (args : List Word) (lcore lslot : Nat) (occ : Bool) : Thread :=
  let mover := lslot = 7
  let pc := if mover then (if c.mentry = 0 then Config.defaultMovement else c.mentry) else c.entry
  let g6 := lcore % c.w + lcore / c.w * 2 ^ 8 + lslot * 2 ^ 16 + c.task * 2 ^ 32
  let g7 := c.w + c.h * 2 ^ 8 + c.t * 2 ^ 16
  let tvec := match s.ctx? c.ctx with | some x => x.tvec | none => 0
  { State.thread0 with
    ref := ⟨n, lcore, lslot⟩
    occ := occ
    g := Vector.ofFn fun i : Fin 23 =>
      if i.val < 6 then args.getD i.val 0 else if i.val = 6 then word g6 else if i.val = 7 then word g7
      else if i.val = 21 then word (0xFFFFFFFF80000000 + 262144) else 0
    light := !mover && c.light
    pc := pc
    entry := true
    csr := { State.csrs0 with tvec := tvec &&& vecMask } }

/-- The thread contexts of a crew: those in the closet take their slots' places, but for one whose slot a light thread occupies, which
is kept beside it; and a slot without a record has that of a first start (R92, R125, R168). -/
def crewThreads (s : State) (n : Nat) (c : Crew) : List (Nat × Thread) :=
  let key (t : Thread) : Nat := t.ref.lcore * 8 + t.ref.lslot
  let args := match s.graph? c.graph with | some g => g.args | none => []
  let first := (span 0 c.n).flatMap fun i => ((span c.t (7 - c.t)).map fun k => (i * 8 + k, startThread s n c args i k false))
  let slots := s.threads.filterMap fun e => if e.2.ref.crew = n then some (key e.2, e.2) else none
  let put (l : List (Nat × Thread)) (x : Thread) : List (Nat × Thread) :=
    match Tbl.find l (key x) with
    | some y => Tbl.ins (if y.occ then Tbl.ins l (2 ^ 16 + key x) y else l) (key x) x
    | none => Tbl.ins l (key x) x
  let mine := s.closet.filterMap fun e => if e.2.th.ref.crew = n then some e.2.th else none
  mine.foldl put (slots.foldl (fun t e => Tbl.ins t e.1 e.2) first)

/-- A hold on a scratchpad of the crew's rectangle. -/
def Crew.onSpm (c : Crew) (h : Hold) : Bool := match kindOf h.lo with | .spm k _ => (c.indexOf k).isSome | _ => false

/-- Scratchpad holds that a save takes out of the hold tables: those of the crew's own copies, and, where the rectangle is released,
every one on its scratchpads (R128). -/
def State.savesHold (s : State) (n : Nat) (c : Crew) (release : Bool) (h : Hold) : Bool :=
  (s.copyOwns n h || (release && c.onSpm h)) && (s.seatHold h).isSome

/-- Everything a gang pre-emption saves of a crew. -/
def captureCrew (s : State) (n : Nat) (c : Crew) (withSpm : Bool) : CrewSave where
  threads := crewThreads s n c
  cores := c.cores
  presses := c.pressList.foldl (fun t k => Tbl.put State.press0 t k (s.press (c.physPress k))) []
  copies := s.copiesOf n
  curds := s.cores.flatMap fun e => (e.2.runq.filter fun k => k.crew = n).map fun k => ((c.indexOf e.1).getD 0, k)
  spm := if withSpm then
      (span 0 c.n).flatMap fun i => (s.cells (spmPA (c.phys i) 0) 262144).map fun x => (i * 262144 + x.1, x.2)
    else []
  withSpm := withSpm
  holds := (s.holds.filter (s.savesHold n c withSpm)).filterMap s.seatHold

/-- PA of a crew's save block. -/
def saveBlockPA (s : State) (c : Crew) : Nat := match s.ctx? c.ctx with | some x => x.save + c.saveOff | none => 0

/-! ## Traps (R171, R97, R445, R447) -/

/-- A trap in a light thread makes it heavy: h0–h12 become 0 and full (R168). -/
def Thread.makeHeavy (t : Thread) : Thread :=
  { t with light := false, g := Vector.ofFn fun i : Fin 23 => if i.val < 10 then vget t.g i.val 0 else 0
           full := t.full ||| 0x7FFC00#47 }

/-- The freeze of a double trap (R97): the slot issues nothing more, its context goes to its place in the save block, the
freeze record to the fault ring, the event to the black box, and the graph ends with GRAPHERR. (DEDUCED, log entry 80.) -/
def freezeAt (s : State) (l : Loc) (core slot cause : Nat) (addr aux : Word) : State :=
  let t := { s.atLoc l with frozen := true }
  let s := s.modLoc l fun _ => t
  let ctx := s.ctxOf t.ref.crew
  match s.ctx? ctx, s.crew? t.ref.crew with
  | some c, some cr =>
    let at_ := c.save + 0x1040 + 64 * (c.faults % 63)
    let record := bytesOf 1 2 ++ bytesOf core 2 ++ bytesOf slot 1 ++ bytesOf 0 3 ++ bytesOf t.csr.tpc.toNat 8 ++
      bytesOf t.csr.tcause.toNat 1 ++ bytesOf cause 1 ++ bytesOf 0 6 ++ bytesOf t.csr.taddr.toNat 8 ++
      bytesOf t.csr.taux.toNat 8 ++ bytesOf addr.toNat 8 ++ bytesOf aux.toNat 8 ++ bytesOf s.devtime 8
    let s := (s.setBytes at_ record).write (c.save + 0x1000) 8 (c.faults + 1)
    let s := s.modCtx ctx fun x => { x with faults := x.faults + 1 }
    let s := s.blackbox 0x05 core (ctx + slot * 2 ^ 12)
    let cr' := { cr with state := .preempt }
    let s := writeSave s t.ref.crew cr' (captureCrew s t.ref.crew cr false) (saveBlockPA s cr)
    endGraph s cr.graph 0x0A 0
  | _, _ => s

/-- The freeze of a thread in its slot. -/
def freeze (s : State) (core slot cause : Nat) (addr aux : Word) : State := freezeAt s (.slot core slot) core slot cause addr aux

/-- The causes that TDLG may delegate (Table 19.6): its other bits are reserved and read 0. -/
def dlgMask : Word := 0x6DFFFFA

/-- The thread context after a trap's entry (R171). -/
def Thread.enterTrap (t : Thread) (cause : Nat) (addr aux tpc : Word) (pm async : Bool) : Thread :=
  let t := if t.light then t.makeHeavy else t
  let prv := bit t.csr.tstat 0
  let deleg := (t.csr.tdlg &&& dlgMask).getLsbD cause && !prv
  let st := setFld (setFld (setFld t.csr.tstat 1 1 (b2n prv)) 4 1 (b2n pm)) 0 1 (if deleg then 0 else 1)
  let csr := { t.csr with
    tpc := tpc, tcause := word (cause + b2n async * 256), taddr := addr, taux := aux, tnest := t.csr.tnest ||| 1, tstat := st }
  { t with
    csr := csr, pc := if deleg then csr.uvec else csr.tvec, entry := true, line := none, park := none, skip := 0, timer := 0
    lanes := none, carry := none }

/-- UNCORR makes the graph's LAUNCH end with GRAPHERR (R87). -/
def markUncorr (s : State) (crew cause : Nat) : State :=
  if cause = UNCORR then s.modGraph (graphOf s crew) fun g => { g with err := true } else s

/-- TAKING A TRAP (R171): TPC, TCAUSE, TADDR and TAUX are written, the privilege is saved and raised, or kept where TDLG
delegates the cause of a U-level thread to UVEC, and the thread goes on at its vector, an entry that checks TGT. A trap with
TNEST set freezes the slot; a trap with UNCORR makes the graph's LAUNCH end with GRAPHERR (R87). `pm` names the failing member
of a pair, `async` marks a trap at a boundary. -/
def takeTrap (s : State) (core slot cause : Nat) (addr aux tpc : Word) (pm async : Bool) : State :=
  let t := s.thread core slot
  if bit t.csr.tnest 0 then freeze s core slot cause addr aux
  else (markUncorr s t.ref.crew cause).setThread core slot (t.enterTrap cause addr aux tpc pm async)

/-- RETURN FROM A TRAP (R445): privilege from PPRV, NEST and PM clear, and the thread goes on at TPC without a TGT check. -/
def Thread.returnTrap (t : Thread) : Thread :=
  let st := setFld (setFld t.csr.tstat 0 1 (b2n (bit t.csr.tstat 1))) 4 1 0
  { t with csr := { t.csr with tstat := st, tnest := setFld t.csr.tnest 0 1 0 }, pc := t.csr.tpc, entry := false, line := none }

/-- Post an asynchronous trap: three are pending at most, and further ones are held at their source in order (R447). -/
def Thread.postTrap (t : Thread) (cause : Nat) (addr aux : Word) : Thread :=
  let a : AsyncTrap := ⟨BitVec.ofNat 8 cause, addr, aux⟩
  if t.atraps.length < 3 && t.atrapsHeld.isEmpty then { t with atraps := t.atraps ++ [a] }
  else { t with atrapsHeld := t.atrapsHeld ++ [a] }

/-- Take the oldest pending asynchronous trap off; the oldest held one is posted in its place. -/
def Thread.popTrap (t : Thread) : Thread :=
  match t.atrapsHeld with
  | [] => { t with atraps := t.atraps.drop 1 }
  | h :: r => { t with atraps := t.atraps.drop 1 ++ [h], atrapsHeld := r }

/-! ## Notify handlers (R172, R173, R215) -/

/-- Enter the notify handler with the oldest entry; `resume` is where the thread goes on after NRET. -/
def Thread.enterNotify (t : Thread) (n : Notify) (resume : Word) : Thread :=
  { t with
    y := #v[resume, n.addr, word (n.phase.toNat + 16 * b2n n.err), 0]
    yfull := 0xF, lanes := none, carry := none
    notify := true, pc := t.csr.nvec, entry := true, line := none, park := none, skip := 0, timer := 0, nq := t.nq.drop 1 }

/-- Post an entry to the notify queue of the thread at a context-logical core and slot: discarded where no thread occupies
it; the ninth entry is discarded and sets NOVF. -/
def postNotify (s : State) (ctx core slot : Nat) (n : Notify) : State :=
  match s.target ctx core slot with
  | none => s
  | some r =>
    match s.ref? r with
    | none => s
    | some t =>
      if !t.occ || t.exited then s
      else s.modRef r fun t => if t.nq.length ≥ 8 then t.setTstat 5 1 1 else { t with nq := t.nq ++ [n] }

/-! ## Transaction barriers (R211 to R214) -/

/-- Fields of a barrier (Table 9.3). -/
def tbPhase (b : Nat) : Nat := bits b 0 4
def tbAP (b : Nat) : Nat := bits b 4 16
def tbAE (b : Nat) : Nat := bits b 20 16
def tbSP (b : Nat) : Int := sint (bits b 36 32) 32
def tbNEN (b : Nat) : Bool := b.testBit 68
def tbNCORE (b : Nat) : Nat := bits b 69 12
def tbNSLOT (b : Nat) : Nat := bits b 81 3
def tbERR (b : Nat) : Bool := b.testBit 84
def tbReserved (b : Nat) : Nat := bits b 85 43

/-- A barrier from its fields; the notify fields and the reserved bits are those of b. -/
def tbMake (b phase ap : Nat) (sp : Int) (err : Bool) : Nat :=
  phase % 16 + ap % 2 ^ 16 * 2 ^ 4 + tbAE b * 2 ^ 20 + ucut sp 32 * 2 ^ 36 + bits b 68 16 * 2 ^ 68 + b2n err * 2 ^ 84 +
    tbReserved b * 2 ^ 85

/-- The crew scratchpad space address of a scratchpad PA in a context: the address of a barrier in a notify (R173). -/
def spmVA (s : State) (ctx pa : Nat) : Word :=
  match kindOf pa with
  | .spm core off =>
    let lg := (s.crewsOn core).findSome? fun (_, c) => if c.ctx = ctx then (c.indexOf core).map c.logical else none
    word (0xFFFFFFFF00000000 + lg.getD core * 0x40000 + off)
  | _ => 0

/-- Complete a phase and store the barrier (R212): the phase advances, AP reloads, waiters wake since PHASE has changed,
and a notify is posted. `b` already holds the new SP and ERR. -/
def tbComplete (s : State) (ctx pa b : Nat) : State :=
  let old := tbPhase b
  let s := s.write pa 16 (tbMake b (old + 1) (tbAE b) (tbSP b) (tbERR b))
  if tbNEN b then postNotify s ctx (tbNCORE b) (tbNSLOT b) ⟨spmVA s ctx pa, BitVec.ofNat 4 old, tbERR b⟩ else s

/-- BarUpdate (R212): the new state, or the code of a refusal (1 for an arrival on AP = 0, 2 for a sector overflow). -/
def barUpdate (s : State) (ctx pa : Nat) (arr : Bool) (sec : Int) : Except Nat State :=
  let b := s.read 0 pa 16
  if arr && tbAP b = 0 then .error 1
  else if 0 < sec && 2147483647 < tbSP b + sec then .error 2
  else
    let ap := tbAP b - b2n arr
    let sp := tbSP b + sec
    let low : Bool := decide (sp < -2147483648)
    let err := low || tbERR b
    let sp : Int := if low then -2147483648 else sp
    let b' := tbMake b (tbPhase b) ap sp err
    if ap = 0 && sp = 0 then .ok (tbComplete s ctx pa b') else .ok (s.write pa 16 b')

/-- An engine counts a landed sector; engines make no update that could be refused. -/
def countSector (s : State) (ctx pa : Nat) : State :=
  match barUpdate s ctx pa false (-1) with | .ok s' => s' | .error _ => s

/-- BarError (R213): ERR is set and the phase completes at once. -/
def barError (s : State) (ctx pa : Nat) (unlanded : Nat) : State :=
  let b := s.read 0 pa 16
  let sp := tbSP b - unlanded
  let sp := if tbAP b = 0 && sp = 0 then sp else 0
  tbComplete s ctx pa (tbMake b (tbPhase b) (tbAP b) sp true)

/-- PA of a barrier (R211): the address is a multiple of 16 in a scratchpad of the context. `none` is PARAM; a crew that is
not placed gives a wait (R216). -/
def barPA (s : State) (core ctx : Nat) (va : Word) : Option (Nat ⊕ Unit) :=
  if va.toNat % 16 ≠ 0 || va.toNat >>> 32 ≠ 0xFFFFFFFF || !inWindow (va.toNat % 2 ^ 32) then none
  else match scratch s core ctx (va.toNat % 2 ^ 32) .write with
    | .ok x => some (.inl x.pa)
    | .wait => some (.inr ())
    | .flt _ _ => none

/-- The crew whose barriers an address of the crew scratchpad space names. -/
def windowCrew (s : State) (ctx : Nat) (va : Word) : Option Nat :=
  if va.toNat >>> 32 = 0xFFFFFFFF && va.toNat % 2 ^ 32 < 0x40000000 then (s.crewAt ctx (va.toNat % 2 ^ 32 / 0x40000)).map (·.1)
  else none

/-- The VA that a record's TB field names. -/
def tbVA (tb : Nat) : Word := word (0xFFFFFFFF00000000 + 16 * tb)

/-! ## Sends and register puts (R160 to R162, R402) -/

def SNDTO : Nat := 0x11
def PARAM : Nat := 0x19

/-- A state in which a crew accepts words for its threads: it is not relocating, swapped or shed (R160). -/
def CrewState.accepts : CrewState → Bool
  | .run | .init => true
  | _ => false

/-- A crew accepts words for its threads; a halted one as the state behind the halt does (R114). -/
def Crew.accepts (c : Crew) : Bool := c.real.accepts

/-- An instruction of the thread that is parked will still write the specifier. -/
def Thread.parkWrites (t : Thread) (r : BitVec 5) : Bool :=
  match t.park with | some p => p.resume.any fun x => x.2.gd.contains r | none => false

/-- Try to deliver a word of a thread: none while the target is full or does not accept, or a register's core sleeps at depth 2 or 3
(R145, R160, R162). -/
def tryDeliver (s : State) (sender : TRef) (o : OutWord) : Option State :=
  match s.target (s.ctxOf sender.crew) o.core.toNat o.slot.toNat with
  | none => none
  | some r =>
    match s.crew? r.crew, s.ref? r with
    | some c, some t =>
      if !c.accepts || !t.occ || t.exited then none
      else match o.reg with
        | none => if t.inq.length < 16 then some (s.modRef r fun t => { t with inq := t.inq ++ [o.word] }) else none
        | some k =>
          if t.light && 10 ≤ k.toNat then
            some (s.modRef sender fun x => x.postTrap PARAM 0 (word (o.core.toNat + o.slot.toNat * 2 ^ 12 + k.toNat * 2 ^ 15)))
          else if t.isFull k.toNat || t.awaits (.g k 0) || t.parkWrites k || s.retained (c.phys r.lcore) 2 then none
          else some (s.modRef r fun t => t.writeReg (.g k o.word))
    | _, _ => none

/-- Deliver the word in a thread's outbound buffer if its target has room. -/
def drainOut (s : State) (r : TRef) : State :=
  match s.ref? r with
  | none => s
  | some t =>
    match t.outBuf with
    | none => s
    | some o => match tryDeliver s r o with
      | some s' => s'.modRef r fun x => { x with outBuf := none }
      | none => s

/-- A send or PUTR of the issuing thread whose outbound buffer is empty: delivered, or buffered (R160). -/
def sendWord (s : State) (o : OutWord) : State :=
  match tryDeliver s s.me.ref o with
  | some s' => s'
  | none => s.modMe fun t => { t with outBuf := some o }

/-! ## Parking and releasing -/

/-- Release a parked thread: it goes on after its instruction, or makes what a pair has still to make. -/
def Thread.release (t : Thread) : Thread :=
  match t.park with
  | some p =>
    if p.held then { t with park := some { p with held := false, key := 0 }, timer := 0 }
    else { t with park := none, timer := 0, pc := p.next.getD t.pc, line := none }
  | none => t

/-- Release a thread wherever it is held. -/
def State.release (s : State) (r : TRef) : State := s.modRef r Thread.release

/-- Change every thread context, wherever it is held. -/
def State.mapThreads (s : State) (f : Thread → Thread) : State :=
  { s with
    threads := s.threads.map fun e => (e.1, f e.2)
    closet := s.closet.map fun e => (e.1, { e.2 with th := f e.2.th })
    crews := s.crews.map fun e => (e.1, { e.2 with saved := e.2.saved.map fun v =>
      { v with threads := v.threads.map fun x => (x.1, f x.2) } }) }

/-- Where a trap at a boundary leaves the thread to go on: at an EXIT that waits by itself, at that instruction's own address (R351);
else at its PC. -/
def Thread.boundaryPC (t : Thread) : Word :=
  match t.park with
  | some p => match p.why, p.resume with | .exit, [(_, o)] => o.own | _, _ => t.pc
  | none => t.pc

/-- A trap of a thread that waits at EXIT is asynchronous (R447): taken at once, or pending while TNEST is set or an older one is
pending. -/
def exitTrap (s : State) (core slot cause : Nat) (addr aux : Word) : State :=
  let t := s.thread core slot
  if bit t.csr.tnest 0 || !t.atraps.isEmpty then s.setThread core slot (t.postTrap cause addr aux)
  else takeTrap s core slot cause addr aux t.boundaryPC false true

/-- The physical core and slot of a thread context's own place. -/
def State.homeOf (s : State) (r : TRef) : Nat × Nat :=
  match s.crew? r.crew with
  | some c => (c.phys r.lcore, if r.lslot = 7 then 7 else (Tbl.get ⟨0xFFFF, 0, []⟩ c.cores r.lcore).slots.getD r.lslot r.lslot)
  | none => (0, 0)

/-- A trap of a thread that is parked at an instruction, raised by another agent. It is precise wherever the thread is held: in its
slot, or in the closet or a save block, where the stored context enters the trap (R226). -/
def trapRef (s : State) (r : TRef) (cause : Nat) (addr aux : Word) : State :=
  match s.locate r with
  | some (.slot core slot) =>
    let t := s.thread core slot
    takeTrap s core slot cause addr aux (match t.park with | some p => p.addr | none => t.pc) false false
  | some l =>
    let t := s.atLoc l
    if bit t.csr.tnest 0 then freezeAt s l (s.homeOf r).1 (s.homeOf r).2 cause addr aux
    else (markUncorr s r.crew cause).modLoc l fun t =>
      t.enterTrap cause addr aux (match t.park with | some p => p.addr | none => t.pc) false false
  | none => s

/-- The threads of a context's pacts at presses with an end in a vat. -/
def pactThreads (s : State) (ctx v : Nat) : List TRef :=
  s.presses.flatMap fun e =>
    if vatOf (pressEnd e.1 false) = v || vatOf (pressEnd e.1 true) = v then
      e.2.queue.flatMap fun x => if s.ctxOf x.lead.crew = ctx && x.lead ≠ x.other then [x.lead, x.other] else []
    else []

/-- Halt the threads of a context in a vat, in slots and in closets, and those at the far ends of its pacts (R98); DBGCTL.HALTED is set, and the black box
told. -/
def haltVat (s : State) (ctx v : Nat) : State :=
  let s := (pactThreads s ctx v).foldl (fun s r => s.modRef r fun t => { t with halted := true }) s
  let stop (e : Nat × Thread) : Nat × Thread :=
    if vatOf (e.1 / 8) = v && s.ctxOf e.2.ref.crew = ctx && e.2.occ then (e.1, { e.2 with halted := true }) else e
  let s := { s with
    threads := s.threads.map stop
    closet := s.closet.map fun (e : Nat × ClosetEntry) =>
      if vatOf (e.1 / 24) = v && s.ctxOf e.2.th.ref.crew = ctx then (e.1, { e.2 with th := { e.2.th with halted := true } }) else e }
  let s := s.modVat v fun x => { x with dbgctl := x.dbgctl ||| 1, halted := if x.halted.contains ctx then x.halted else ctx :: x.halted }
  let hold (e : Nat × Crew) : Nat × Crew :=
    if e.2.ctx = ctx && e.2.state.holds && e.2.state ≠ .halted && (span 0 e.2.n).any (fun i => vatOf (e.2.phys i) = v) then
      (e.1, { e.2 with state := .halted, back := e.2.state })
    else e
  let s := { s with crews := s.crews.map hold }
  s.blackbox 0x0E v v

/-- A halt of a context in a vat, with every vat of its cross-trigger group (R98). -/
def haltGroup (s : State) (ctx v : Nat) : State :=
  let g := fld (s.vat v).dbgctl 10 8
  let s := haltVat s ctx v
  if g = 0 then s
  else (s.vats.filter fun e => e.1 ≠ v && fld e.2.dbgctl 10 8 = g).foldl (fun s e => haltVat s ctx e.1) s

end Sys2Proof.Machine
end

