-- ==== Sys2Proof/Machine/Items.lean ====
section
/-! DEFINITION. Graph queues: their bytes in the save area, pushes and end-of-stream tokens (R115 to R121, R412), and the
keys under which a parked push, send or register put is known. -/

namespace Sys2Proof.Machine

/-! ## Keys of parked sends

Bits 14:0 of a key hold the target's context-logical core and slot, or bits 15:0 the graph queue index. -/

/-- A send or PUTR to a core and slot. -/
def keySend (core slot : Nat) : Nat := 2 ^ 32 + core % 4096 + slot % 8 * 4096

/-- A push to mailbox k of a crew's movement context on a context-logical core. -/
def keyMbox (crew core k : Nat) : Nat := 2 ^ 60 + crew * 2 ^ 20 + k * 2 ^ 16 + core % 4096 + 7 * 4096

/-- A pop of an empty mailbox. -/
def keyMail : Nat := 2 ^ 123

/-- A push to a graph queue. -/
def keyItem (gid q : Nat) : Nat := 2 ^ 100 + gid * 2 ^ 16 + q

/-- TAUX of the SNDTO of a parked push, send or PUTR (R118, R161). -/
def sndtoAux (key : Nat) : Nat := if key ≥ 2 ^ 100 then key % 2 ^ 16 + 2 ^ 31 else key % 2 ^ 15

/-- The thread is parked on empty mailboxes, before the instruction that pops (R108, R122). -/
def Thread.mailParked (t : Thread) : Bool :=
  t.mboxFull = 0 && match t.park with
    | some p => p.why = .message && p.key = keyMail && p.resume.isEmpty && p.next.isNone
    | none => false

/-- A movement context that waits on empty mailboxes with no word on its way. -/
def Thread.mailIdle (t : Thread) : Bool := t.mailParked && t.outBuf.isNone

/-- Whether a thread is parked under a key and had parked before a moment. -/
def Thread.parkedBefore (t : Thread) (key stamp : Nat) : Bool :=
  t.occ && match t.park with | some p => p.key = key && p.stamp < stamp | none => false

/-- Threads of a crew that holds its rectangle which a full closet has spilled into its save block (R124). -/
def Crew.spilled (c : Crew) : List (Nat × Thread) :=
  if c.state.holds then (match c.saved with | some v => v.threads | none => []) else []

/-- Some other thread parked earlier under the key of the issuing thread's push (R118), in a slot, in the closet or spilled from it: the
stamp of the issuing thread is that of its own park, or the present moment. -/
def someoneFirst (s : State) (key : Nat) : Bool :=
  let mine := match s.me.park with | some p => if p.key = key then p.stamp else s.hub.nextId | none => s.hub.nextId
  s.threads.any (fun e => e.2.parkedBefore key mine) || s.closet.any (fun e => e.2.th.parkedBefore key mine) ||
    s.crews.any fun e => e.2.spilled.any fun x => x.2.parkedBefore key mine

/-! ## Queues -/

/-- A graph queue of a graph. -/
def State.gqueue? (s : State) (gid q : Nat) : Option GQueue :=
  match s.graph? gid with | some g => g.queues[q]? | none => none

def State.modGQueue (s : State) (gid q : Nat) (f : GQueue → GQueue) : State :=
  s.modGraph gid fun g => { g with queues := match g.queues[q]? with | some x => setNth g.queues q (f x) | none => g.queues }

/-- A thread as one that has received tokens: its name, and whether it is the light thread of its place (R119). -/
def Thread.tokenName (t : Thread) : TRef × Bool := (t.ref, t.light)

/-- The queues of a graph whose token a thread has received. -/
def tokensOf (s : State) (gid : Nat) (n : TRef × Bool) : List Nat :=
  match s.graph? gid with
  | some g => (span 0 g.queues.length).filter fun q => match g.queues[q]? with | some x => x.eosTo.contains n | none => false
  | none => []

/-- A light thread leaves its place, and takes the tokens it has received with it. -/
def dropTokens (s : State) (gid : Nat) (n : TRef × Bool) : State :=
  (tokensOf s gid n).foldl (fun s q => s.modGQueue gid q fun x => { x with eosTo := x.eosTo.filter (· ≠ n) }) s

/-- A light thread comes to a place with the tokens it has received. -/
def addTokens (s : State) (gid : Nat) (n : TRef × Bool) (l : List Nat) : State :=
  l.foldl (fun s q => s.modGQueue gid q fun x => { x with eosTo := n :: x.eosTo }) s

/-- PA of the save area of a graph's context. -/
def State.savePA (s : State) (gid : Nat) : Nat :=
  match s.graph? gid with
  | some g => match s.ctx? g.ctx with | some c => c.save | none => 0
  | none => 0

/-- The header of a graph queue in memory (R115). -/
def writeQHeader (s : State) (gid q : Nat) : State :=
  match s.gqueue? gid q with
  | some x => s.setBytes (s.savePA gid + x.off)
      (bytesOf x.entered 8 ++ bytesOf x.dispensed 8 ++ bytesOf (b2n x.eos) 1 ++ bytesOf 0 47)
  | none => s

/-- The class of a crew is shed (R138). -/
def State.shedClass (s : State) (cls : Nat) : Bool := s.power.eceil < cls

/-- The consumer's crew takes no item for now: swapped other than for idleness, or held by shedding (R118, R139).
(DEDUCED, log entry 35.) -/
def State.consumerAway (s : State) (gid task : Nat) : Bool :=
  match s.graph? gid with
  | none => false
  | some g => match g.crews[task]? with
    | none => false
    | some n => match s.crew? n with
      | none => false
      | some c => match c.state with
        | .swapped => !c.idle
        | .parked | .preempt => s.shedClass c.cls
        | _ => false

/-- A push must wait: no free place, or a consumer that takes nothing; a sink takes everything (R118, R120). -/
def State.gqFull (s : State) (gid q : Nat) : Bool :=
  match s.gqueue? gid q with
  | some x => x.consumer ≠ 0xFFFF && (x.items.length ≥ x.cap || s.consumerAway gid x.consumer)
  | none => true

/-- An item or token for an idle-swapped crew lists it again (R121). -/
def relist (s : State) (gid task : Nat) : State :=
  match s.graph? gid with
  | none => s
  | some g => match g.crews[task]? with
    | none => s
    | some n => s.modCrew n fun c =>
        if c.state = .swapped && c.idle then { c with state := .wait, idle := false, waitSince := s.devtime } else c

/-- Push an item; a sink discards it (R115, R120). -/
def gqPush (s : State) (gid q : Nat) (ws : List Word) : State :=
  match s.gqueue? gid q with
  | none => s
  | some x =>
    if x.consumer = 0xFFFF then s
    else
      let at_ := s.savePA gid + x.off + 64 * (1 + x.entered % x.cap)
      let s := s.setBytes at_ (ws.flatMap fun w => bytesOf w.toNat 8)
      let s := s.modGQueue gid q fun x => { x with items := x.items ++ [ws], entered := x.entered + 1 }
      relist (writeQHeader s gid q) gid x.consumer

/-- The word that a parked item push of a queue that has closed traps with (R118): PARAM, TADDR 0, TAUX the queue index. -/
def closePushers (s : State) (gid q : Nat) : State :=
  let key := keyItem gid q
  let hit (t : Thread) : Bool := t.occ && match t.park with | some p => p.key = key | none => false
  let refs := (s.threads.filterMap fun e => if hit e.2 then some e.2.ref else none) ++
    (s.closet.filterMap fun e => if hit e.2.th then some e.2.th.ref else none) ++
    (s.crews.flatMap fun e => match e.2.saved with
      | some v => v.threads.filterMap fun x => if hit x.2 then some x.2.ref else none
      | none => [])
  refs.foldl (fun s r => trapRef s r PARAM 0 (word q)) s

/-- Push the end-of-stream token: every item push still parked on the queue traps (R118, R119). -/
def gqEos (s : State) (gid q : Nat) : State :=
  match s.gqueue? gid q with
  | none => s
  | some x =>
    let s := s.modGQueue gid q fun x => { x with eos := true }
    relist (closePushers (writeQHeader s gid q) gid q) gid x.consumer

/-- The checks of a push at issue (R412): the queue exists and its producer is the issuing thread's task. -/
def gqMine (s : State) (gid q : Nat) : Bool :=
  match s.gqueue? gid q, s.myCrew with
  | some x, some c => x.producer = c.task
  | _, _ => false

/-- The graph of the issuing thread. -/
def State.myGraph (s : State) : Nat := graphOf s s.me.ref.crew

end Sys2Proof.Machine
end

