-- ==== Sys2Proof/Machine/ParamBlock.lean ====
section
/-! DEFINITION. Parameter blocks: the record layouts' field indices and reserved bits, and the resolution of substitution
entries (R298, R299, Tables 10.1, 13.7, 17.5, 18.2, 18.7). -/

namespace Sys2Proof.Machine

/-- The four kinds of record. -/
inductive RecKind where
  | shape
  | descent
  | copy
  | stream
deriving DecidableEq, Repr

/-- A field that a substitution entry may name: lowest bit, width, and whether it is sign-extended. -/
structure SubField where
  lo : Nat
  w : Nat
  sg : Bool
deriving DecidableEq, Repr

/-- The substitution fields of a record, index 1 first. -/
def RecKind.fields : RecKind → List SubField
  | .shape => [⟨64, 20, false⟩, ⟨24, 7, false⟩, ⟨32, 7, false⟩, ⟨128, 48, true⟩, ⟨100, 20, false⟩, ⟨192, 48, true⟩,
      ⟨176, 16, false⟩, ⟨256, 26, false⟩, ⟨288, 18, false⟩, ⟨240, 16, false⟩, ⟨88, 12, false⟩, ⟨8, 2, false⟩, ⟨306, 14, false⟩]
  | .descent => [⟨24, 48, true⟩, ⟨72, 20, false⟩, ⟨92, 48, true⟩, ⟨140, 48, true⟩, ⟨188, 20, false⟩, ⟨208, 48, true⟩,
      ⟨256, 26, false⟩, ⟨303, 7, false⟩]
  | .copy => [⟨0, 48, true⟩, ⟨48, 48, true⟩, ⟨96, 32, false⟩, ⟨128, 26, false⟩, ⟨160, 20, false⟩, ⟨192, 48, true⟩,
      ⟨256, 25, false⟩, ⟨240, 16, false⟩]
  | .stream => [⟨0, 48, true⟩, ⟨64, 32, false⟩, ⟨96, 32, false⟩, ⟨128, 48, true⟩, ⟨192, 48, true⟩, ⟨176, 16, true⟩,
      ⟨240, 16, false⟩, ⟨256, 26, false⟩]

/-- The reserved bits of a record: lowest bit and width of each run. -/
def RecKind.reserved : RecKind → List (Nat × Nat)
  | .shape => [(287, 1), (120, 8), (63, 1), (39, 1), (31, 1), (13, 3), (7, 1)]
  | .descent => [(282, 12), (10, 14), (1, 1)]
  | .copy => [(282, 38), (189, 3), (154, 6)]
  | .stream => [(282, 38), (56, 8)]

/-- Substitution entry k of a block: its index and its register (Table 13.7). -/
def blkIdx (b : Block) (k : Nat) : Nat := fld b (320 + 10 * k) 5
def blkReg (b : Block) (k : Nat) : Nat := fld b (320 + 10 * k + 5) 5

/-- The registers that a block reads, in entry order. -/
def blkRegs (b : Block) : List Nat :=
  (span 0 6).filterMap fun k => if blkIdx b k ≠ 0 && blkReg b k < 24 then some (blkReg b k) else none

/-- A value fits a field (R227, R299). -/
def SubField.fits (f : SubField) (v : Word) : Bool := if f.sg then v = sext v.toNat f.w else v.toNat < 2 ^ f.w

/-- Resolve entries k, k + 1, …: none is PARAM. -/
def resolveFrom (t : Thread) (kind : RecKind) (b : Block) (k : Nat) (seen : List Nat) (acc : BitVec 320) :
    Nat → Option (BitVec 320)
  | 0 => some acc
  | n + 1 =>
    let idx := blkIdx b k
    let reg := blkReg b k
    if idx = 0 then (if reg ≠ 0 then none else resolveFrom t kind b (k + 1) seen acc n)
    else if reg ≥ 24 || seen.contains idx then none
    else match kind.fields[idx - 1]? with
      | none => none
      | some f =>
        let v := t.getG reg
        if fld b f.lo f.w ≠ 0 || !f.fits v then none
        else resolveFrom t kind b (k + 1) (idx :: seen) (setFld acc f.lo f.w v.toNat) n

/-- The resolved record of a block, or none where R299 traps with PARAM. -/
def resolveBlk (t : Thread) (kind : RecKind) (b : Block) : Option (BitVec 320) :=
  if fld b 380 4 ≠ 0 || (kind.reserved.any fun r => fld b r.1 r.2 ≠ 0) then none
  else resolveFrom t kind b 0 [] (b.setWidth 320) 6

end Sys2Proof.Machine
end

