-- ==== Sys2Proof/Machine/Operands.lean ====
section
/-! DEFINITION. The issue of an instruction (R149, R153, R292, R299, R300, R326): every operand form with its readiness
rule, stream and queue registers as sources and destinations, the checks in their order, the debit, and what an effect may
answer. -/

namespace Sys2Proof.Machine

/-! ## What stops an instruction at issue -/

/-- A trap at a step of R300, or a park. A stream number names a stream whose elements are fetched again after the trap. -/
inductive Stop where
  | trap (step cause : Nat) (addr aux : Word) (refetch : Option Nat)
  | park (why : ParkWhy) (key : Nat)
deriving DecidableEq, Repr

/-- The step of R300 at which a stop arises: parks on operands and destinations are those of step 8. -/
def Stop.step : Stop → Nat
  | .trap n _ _ _ _ => n
  | .park .budget _ => 11
  | .park _ _ => 8

/-- The first of two stops. -/
def orStop (a b : Option Stop) : Option Stop := match a with | some x => some x | none => b

/-- PARAM at step 9. (DEDUCED, log entry 37.) -/
def paramStop (aux : Nat) : Stop := .trap 9 PARAM 0 (word aux) none

def WAITCNT : Nat := 0x0B
def LIGHTREG : Nat := 0x09
def MOVONLY : Nat := 0x13
def EBIG : Nat := 0x12
def PRIV : Nat := 2
def MISALIGN : Nat := 5

/-! ## Sources -/

/-- An operand of an instruction, with the place of Ops that receives its value. -/
inductive Src where
  | a (r : BitVec 5)
  | b (r : BitVec 5)
  | c (r : BitVec 5)
  | d (r : BitVec 5)
  | va (r : BitVec 4)
  | vb (r : BitVec 4)
  | vc (r : BitVec 4)
  | vd (r : BitVec 4)
  | ma (r : BitVec 3)
  | mb (r : BitVec 3)
  | pa (r : BitVec 4)
  | pb (r : BitVec 4)
  | preds
  | blk (k : RecKind) (b : Block)
deriving DecidableEq, Repr

/-- The register is checked: not ready gives WAITCNT under CSB for a fixed-latency producer, otherwise a park (R153, R154). -/
def Thread.regStop (t : Thread) (w : RegWrite) (full : Bool) (spec : Nat) : Option Stop :=
  if full then none
  else if bit t.csr.tstat 3 && t.awaitsFixed w then some (.trap 8 WAITCNT 0 (word spec) none)
  else some (.park .reg 0)

/-- Readiness of a general specifier 0–22. -/
def Thread.gStop (t : Thread) (r : Nat) : Option Stop :=
  if r ≥ 23 then none
  else if t.isY r then
    t.regStop (.y (BitVec.ofNat 2 (r - 10)) 0) (bit t.yfull (r - 10)) r
  else t.regStop (.g (BitVec.ofNat 5 r) 0) (t.isFull r) r

/-- Readiness of a vector, a mask and a predicate. (DEDUCED, log entry 34.) -/
def Thread.vStop (t : Thread) (r : BitVec 4) : Option Stop := t.regStop (.v r 0) (t.isFull (vFullBit r.toNat)) r.toNat
def Thread.mStop (t : Thread) (r : BitVec 3) : Option Stop :=
  if r = 0 then none else t.regStop (.m r 0) (t.isFull (mFullBit r.toNat)) r.toNat
def Thread.pStop (t : Thread) (r : BitVec 4) : Option Stop :=
  if r = 0 then none else t.regStop (.p r false) (!t.awaits (.p r false)) (0x40 + r.toNat)

/-- The first stop of a list. -/
def firstStop {α : Type} (f : α → Option Stop) : List α → Option Stop
  | [] => none
  | x :: r => match f x with | some st => some st | none => firstStop f r

/-! ### Stream and queue registers as sources (R158, R159, R163, R274, R395) -/

/-- Fields of a stream descriptor. -/
def StreamBind.esz (b : StreamBind) : Nat := fld b.desc 48 3
def StreamBind.isWrite (b : StreamBind) : Bool := bit b.desc 52
def StreamBind.total (b : StreamBind) : Nat := fld b.desc 64 32 * fld b.desc 96 32

def State.stream (s : State) (r : Nat) : StreamBind := vget s.me.streams (r - 24) StreamBind.none
def State.modStream (s : State) (r : Nat) (f : StreamBind → StreamBind) : State :=
  s.modMe fun t => { t with streams := t.streams.setIfInBounds (r - 24) (f (vget t.streams (r - 24) StreamBind.none)) }

def State.qbinding (s : State) (r : Nat) : Word := vget s.me.queues (r - 28) 0
def State.setQ (s : State) (r : Nat) (w : Word) : State :=
  s.modMe fun t => { t with queues := t.queues.setIfInBounds (r - 28) w }

/-- The first full mailbox after the one popped last (R163). -/
def Thread.fullMbox (t : Thread) : Option Nat :=
  [1, 2, 3, 4].findSome? fun d =>
    let k := (t.mboxLast.toNat + d) % 4
    if bit t.mboxFull k then some k else none

/-- Own-scratchpad VA of an offset. -/
def ownVA (off : Nat) : Word := word (0xFFFFFFFF80000000 + off)

/-- Fields of a path binding (Table 17.6): the table's offset, TB's offset, the recorded phase, j and whether it is used up. -/
def pathTable (w : Word) : Nat := fld w 4 18
def pathTB (w : Word) : Nat := fld w 22 14 * 16
def pathPhase (w : Word) : Nat := fld w 36 4
def pathJ (w : Word) : Nat := fld w 40 7
def pathEnd (w : Word) : Bool := bit w 47 || pathJ w ≥ 64

/-- Why a pop of a stream or queue register cannot be made now. -/
def popStop (s : State) (r : Nat) : Option Stop :=
  if r < 28 then
    let b := s.stream r
    if !b.bound || b.isWrite || b.count ≥ b.total then some (paramStop r)
    else match b.buf with
      | [] => some (.park .memory 0)
      | e :: _ => if e.cause = 0 then none else some (.trap 8 e.cause.toNat e.val e.aux (some (r - 24)))
  else
    let w := s.qbinding r
    let t := s.me
    match fld w 0 4 with
    | 1 => if t.inq.isEmpty then some (.park .message 0) else none
    | 3 => if s.curSlot ≠ 7 then some (paramStop r) else if bit t.mboxFull (fld w 4 2) then none else some (.park .message keyMail)
    | 4 => if s.curSlot ≠ 7 then some (paramStop r) else if t.fullMbox.isNone then some (.park .message keyMail) else none
    | 5 =>
      if pathEnd w then none
      else if tbPhase (s.read 0 (spmPA s.curCore (pathTB w)) 16) = pathPhase w then some (.park .message 0)
      else match (threadAccess s (ownVA (pathTable w + 4 * pathJ w)) 4 .read true).2 with
        | .ok _ => none
        | .trap c a => some (.trap 8 c (ownVA (pathTable w + 4 * pathJ w)) (word a) none)
        | _ => some (.park .memory 0)
    | _ => some (paramStop r)

/-- The value of a pop that can be made, and the state after it; the pop of a read stream's last element releases its holds
(Table 9.2). -/
def popVal (s : State) (r : Nat) : Word × State :=
  if r < 28 then
    match (s.stream r).buf with
    | [] => (0, s)
    | e :: rest =>
      let b := s.stream r
      let s := s.modStream r fun b => { b with buf := rest, count := b.count + 1 }
      (e.val, if b.count + 1 ≥ b.total then s.dropHolds b.hold fun _ => true else s)
  else
    let w := s.qbinding r
    let t := s.me
    match fld w 0 4 with
    | 1 => (t.inq.headD 0, s.modMe fun t => { t with inq := t.inq.drop 1, inHead := t.inHead + 1 })
    | 3 => let k := fld w 4 2
      (vget t.mbox k 0, s.modMe fun t => { t with mboxFull := setFld t.mboxFull k 1 0 })
    | 4 => let k := t.fullMbox.getD 0
      (vget t.mbox k 0, (s.modMe fun t => { t with mboxFull := setFld t.mboxFull k 1 0, mboxLast := BitVec.ofNat 2 k }).setQ r
        (setFld w 4 2 k))
    | 5 =>
      if pathEnd w then (0xFFFFFFFFFFFFFFFF, s.setQ r (setFld w 47 1 1))
      else
        let e := s.read 0 (spmPA s.curCore (pathTable w + 4 * pathJ w)) 4
        let w' := setFld w 40 7 (pathJ w + 1)
        if bits e 24 8 = 0xFF then (0xFFFFFFFFFFFFFFFF, s.setQ r (setFld w' 47 1 1)) else (word e, s.setQ r w')
    | _ => (0, s)

/-- The part of a pop's stop that is a park: PARAM and faults come after every operand has been waited for. -/
def popPark (s : State) (r : Nat) : Option Stop :=
  match popStop s r with | some (.park w k) => some (.park w k) | _ => none

/-! ### Readiness and values -/

/-- The general specifier of a source. -/
def Src.spec : Src → Option (BitVec 5)
  | .a r | .b r | .c r | .d r => some r
  | _ => none

/-- Registers that a block reads: its entries, and the SCL factor's register of a lead's shape (R231). -/
def blkReads (k : RecKind) (b : Block) : List Nat :=
  blkRegs b ++ (if k = .shape && bit b 3 && !bit b 0 && fld b 282 5 < 23 then [fld b 282 5] else [])

/-- Readiness of a source (step 8). -/
def Src.gate (s : State) : Src → Option Stop
  | .a r | .b r | .c r | .d r => if r.toNat ≥ 24 then popPark s r.toNat else s.me.gStop r.toNat
  | .va r | .vb r | .vc r | .vd r => s.me.vStop r
  | .ma r | .mb r => s.me.mStop r
  | .pa r | .pb r => s.me.pStop r
  | .preds => firstStop s.me.pStop ((span 1 15).map (BitVec.ofNat 4))
  | .blk k x => firstStop s.me.gStop (blkReads k x)

/-- Value of a general operand: a pop for a stream or queue register (R158, R159). -/
def readG (s : State) (r : BitVec 5) : Except Stop (Word × State) :=
  if r.toNat ≥ 24 then
    match popStop s r.toNat with | some st => .error st | none => .ok (popVal s r.toNat)
  else .ok (s.me.getG r.toNat, s)

/-- Read one source into the operands. -/
def Src.read (o : Ops) (s : State) : Src → Except Stop (Ops × State)
  | .a r => (readG s r).map fun x => ({ o with a := x.1 }, x.2)
  | .b r => (readG s r).map fun x => ({ o with b := x.1 }, x.2)
  | .c r => (readG s r).map fun x => ({ o with c := x.1 }, x.2)
  | .d r => (readG s r).map fun x => ({ o with d := x.1 }, x.2)
  | .va r => .ok ({ o with va := vget s.me.v r.toNat 0 }, s)
  | .vb r => .ok ({ o with vb := vget s.me.v r.toNat 0 }, s)
  | .vc r => .ok ({ o with vc := vget s.me.v r.toNat 0 }, s)
  | .vd r => .ok ({ o with vd := vget s.me.v r.toNat 0 }, s)
  | .ma r => .ok ({ o with ma := s.me.getM r.toNat }, s)
  | .mb r => .ok ({ o with mb := s.me.getM r.toNat }, s)
  | .pa r => .ok ({ o with pa := s.me.getP r.toNat }, s)
  | .pb r => .ok ({ o with pb := s.me.getP r.toNat }, s)
  | .preds => .ok ({ o with pw := s.me.predWord }, s)
  | .blk k x => match resolveBlk s.me k x with
    | some rcd => .ok ({ o with rcd := rcd, a := s.me.getG (fld x 282 5) }, s)
    | none => .error (paramStop 0)

/-- Read the sources in order. -/
def readAll (o : Ops) (s : State) : List Src → Except Stop (Ops × State)
  | [] => .ok (o, s)
  | x :: r => match x.read o s with | .error e => .error e | .ok (o', s') => readAll o' s' r

/-- Operands before anything is read. -/
def Ops.zero : Ops := ⟨0, 0, 0, 0, 0, 0, 0, 0, 0, 0, false, false, 0, 0, [], 0, [], 0, 0⟩

/-! ## Destinations -/

/-- A register that an instruction writes. -/
inductive Dst where
  | g (r : BitVec 5)
  | v (r : BitVec 4)
  | m (r : BitVec 3)
  | p (r : BitVec 4)
  | preds
deriving DecidableEq, Repr

/-- The destination still awaits a result of an earlier producer of the thread: the instruction parks (R153, R326). -/
def Dst.gate (t : Thread) : Dst → Option Stop
  | .g r => if r.toNat < 23 && t.awaits (t.destG r 0) then some (.park .reg 0) else none
  | .v r => if t.awaits (.v r 0) then some (.park .reg 0) else none
  | .m r => if r ≠ 0 && t.awaits (.m r 0) then some (.park .reg 0) else none
  | .p r => if r ≠ 0 && t.awaits (.p r false) then some (.park .reg 0) else none
  | .preds => if (span 1 15).any fun n => t.awaits (.p (BitVec.ofNat 4 n) false) then some (.park .reg 0) else none

/-- A write to a stream or queue register that is not allowed (step 9): PARAM, or the fault that stopped a write stream. -/
def pushStop (s : State) (r : Nat) : Option Stop :=
  if r < 24 then none
  else if r < 28 then
    let b := s.stream r
    match b.stopped, b.stop with
    | true, some f => some (.trap 9 f.cause.toNat f.addr f.aux none)
    | _, _ => if !b.bound || !b.isWrite || b.count ≥ b.total then some (paramStop r) else none
  else
    let w := s.qbinding r
    match fld w 0 4 with
    | 2 => none
    | 3 => if s.curSlot = 7 then some (paramStop r) else none
    | 6 => match s.gqueue? s.myGraph (fld w 4 12) with
      | some x => if x.eos then some (paramStop (fld w 4 12)) else none
      | none => some (paramStop r)
    | _ => some (paramStop r)

/-- Step 9 of a destination. -/
def Dst.stop (s : State) : Dst → Option Stop
  | .g r => pushStop s r.toNat
  | _ => none

/-- The movement context of the issuing thread's crew on this core, while it takes mailbox words. -/
def State.myMover (s : State) : Option Thread :=
  match s.ref? ⟨s.me.ref.crew, s.me.ref.lcore, 7⟩ with
  | some t => if t.occ && !t.exited then some t else none
  | none => none

/-- The context-logical core number of the issuing thread. -/
def State.myLogical (s : State) : Nat :=
  match s.myCrew with | some c => c.logical s.me.ref.lcore | none => s.curCore

/-- A mailbox takes the issuing thread's word now: it is empty, and no parked writer of the core comes before in slot order
after the one served last (R163). (DEDUCED, log entry 45.) -/
def mboxReady (s : State) (m : Thread) (k key : Nat) : Bool :=
  let rank (slot : Nat) : Nat := (slot + 6 - vget m.mboxServed k 6) % 7
  !bit m.mboxFull k && !((span 0 7).any fun p =>
    let t := s.thread s.curCore p
    p ≠ s.curSlot && t.occ && !t.frozen && !t.halted && rank t.ref.lslot < rank s.me.ref.lslot &&
      (match t.park with | some q => q.key = key | none => false))

/-- A write that is parked on the full buffer of a stream register is known by it: it takes the fault where the stream stops (R395). -/
def keyStream (r : Nat) : Nat := 2 ^ 121 + r

/-- Why a push to a stream or queue register must wait (R118, R160, R163, R395). -/
def pushWait (s : State) (r : Nat) : Option (ParkWhy × Nat) :=
  if r < 24 then none
  else if r < 28 then (if (s.stream r).buf.length ≥ 16 then some (.memory, keyStream r) else none)
  else
    let w := s.qbinding r
    match fld w 0 4 with
    | 2 => if s.me.outBuf.isSome then some (.message, keySend (fld w 4 12) (fld w 16 3)) else none
    | 3 =>
      let k := fld w 4 2
      let key := keyMbox s.me.ref.crew s.myLogical k
      match s.myMover with
      | some m => if mboxReady s m k key then none else some (.message, key)
      | none => some (.message, key)
    | 6 =>
      let key := keyItem s.myGraph (fld w 4 12)
      if s.gqFull s.myGraph (fld w 4 12) || someoneFirst s key then some (.message, key) else none
    | _ => none

/-- Push a word to a stream or queue register that takes it. -/
def pushG (s : State) (r : Nat) (v : Word) : State :=
  if r < 28 then
    s.modStream r fun b => { b with buf := b.buf ++ [⟨v, 0, 0⟩], count := b.count + 1 }
  else
    let w := s.qbinding r
    match fld w 0 4 with
    | 2 => sendWord s ⟨BitVec.ofNat 12 (fld w 4 12), BitVec.ofNat 3 (fld w 16 3), none, v⟩
    | 3 =>
      let k := fld w 4 2
      s.modRef ⟨s.me.ref.crew, s.me.ref.lcore, 7⟩ fun m =>
        { m with mbox := m.mbox.setIfInBounds k v, mboxFull := setFld m.mboxFull k 1 1
                 mboxServed := m.mboxServed.setIfInBounds k s.me.ref.lslot }
    | 6 => gqPush s s.myGraph (fld w 4 12) [v]
    | _ => s

/-! ## Instructions as bodies -/

/-- Pairing classes (R465). -/
inductive PairClass where
  | control
  | memory
  | press
  | copy
  | system
  | other
deriving DecidableEq, Repr

/-- What an effect answers once the instruction has been debited. -/
inductive Eff where
  /-- The effect is made; the thread goes on at the next instruction. -/
  | done (s : State)
  /-- A taken branch: the target, and its line when the branch has fetched it. -/
  | jump (s : State) (pc : Word) (img : Option LineImg)
  /-- What can be made is made; the thread waits, and goes on at the next instruction when it is released. -/
  | hold (s : State) (why : ParkWhy) (key : Nat)
  /-- Nothing is made yet; the effect is tried again with the same operands. -/
  | wait (s : State) (why : ParkWhy) (key : Nat)
  /-- A trap after issue. -/
  | trap (s : State) (cause : Nat) (addr aux : Word)
  /-- TRAP and SYSC: a trap that saves the address of the next instruction. -/
  | trapNext (s : State) (cause : Nat) (aux : Word)
  /-- The thread has left its slot, or its place is as the effect put it. -/
  | gone (s : State)
deriving DecidableEq, Repr

/-- An instruction as its issue sees it. -/
structure Body where
  h : Hdr
  cls : PairClass
  /-- R448: it never pairs. -/
  solo : Bool
  /-- A light thread may issue it (R157). -/
  light : Bool
  /-- It takes a parameter block (R303). -/
  blk : Bool
  /-- It traps with MOVONLY in a worker slot. -/
  mov : Bool
  /-- Steps 3 (CSR numbers) and 4. -/
  priv : State → Option Stop
  srcs : List Src
  dsts : List Dst
  /-- What is read at issue beyond the sources. -/
  fill : Ops → State → Ops
  /-- Steps 8 to 10 beyond the operand and destination rules. -/
  chk : Ops → State → Option Stop
  units : Ops → State → Nat
  eff : Ops → State → Eff

/-- The rounding mode of FCSR is taken at issue. -/
def takeRm (o : Ops) (s : State) : Ops := { o with rm := BitVec.ofNat 2 s.me.rm }

/-- A body with every field at its plain value: one unit, legal in a light thread, no check of its own. -/
def Body.mk' (h : Hdr) (cls : PairClass) (srcs : List Src) (dsts : List Dst) (eff : Ops → State → Eff) : Body where
  h := h
  cls := cls
  solo := false
  light := true
  blk := false
  mov := false
  priv := fun _ => none
  srcs := srcs
  dsts := dsts
  fill := fun o _ => o
  chk := fun _ _ => none
  units := fun _ _ => 1
  eff := eff

/-! ## The checks -/

/-- A specifier that a light thread may not name (Table 7.2). -/
def Thread.lightBad (t : Thread) (r : Nat) : Bool :=
  (10 ≤ r && r ≤ 13 && !t.notify) || (14 ≤ r && r ≤ 22) || (24 ≤ r && r ≤ 27)

def Dst.spec : Dst → Option (BitVec 5)
  | .g r => some r
  | _ => none

/-- Step 5. (DEDUCED, log entry 33.) -/
def Body.lightStop (b : Body) (s : State) : Option Stop :=
  if !s.me.light then none
  else if !b.light then some (.trap 5 LIGHTREG s.me.pc 0x20 none)
  else match (b.srcs.filterMap Src.spec ++ b.dsts.filterMap Dst.spec).find? fun r => s.me.lightBad r.toNat with
    | some r => some (.trap 5 LIGHTREG s.me.pc (word r.toNat) none)
    | none => none

/-- Step 6. -/
def Body.movStop (b : Body) (s : State) : Option Stop :=
  if b.mov && s.curSlot ≠ 7 then some (.trap 6 MOVONLY 0 0 none) else none

/-- Steps 3 to 6 that need no operand. -/
def Body.early (b : Body) (s : State) : Option Stop :=
  match b.priv s with
  | some st => some st
  | none => match b.lightStop s with
    | some st => some st
    | none => b.movStop s

/-- The guard (R292). -/
def Body.guard (b : Body) (s : State) : Bool := s.me.getP b.h.g.toNat != b.h.n

/-- Step 8 of a member whose guard is true: the operands it reads and the state after its pops, or the first stop. -/
def Body.readOps (b : Body) (s : State) : Except Stop (Ops × State) :=
  match firstStop (Src.gate s) b.srcs with
  | some st => .error st
  | none => match firstStop (Dst.gate s.me) b.dsts with
    | some st => .error st
    | none => match readAll Ops.zero s b.srcs with
      | .error st => .error st
      | .ok (o, s') => .ok ({ b.fill (takeRm o s) s with gd := b.dsts.filterMap Dst.spec }, s')

/-- Steps 9 and 10. -/
def Body.late (b : Body) (o : Ops) (s : State) : Option Stop :=
  match firstStop (Dst.stop s) b.dsts with | some st => some st | none => b.chk o s

/-- Steps 8 to 10 of a member whose guard is true. -/
def Body.gather (b : Body) (s : State) : Except Stop (Ops × State) :=
  match b.readOps s with
  | .error st => .error st
  | .ok (o, s') => match b.late o s with | some st => .error st | none => .ok (o, s')

/-- The debit of one member (R143). -/
def Body.cost (b : Body) (o : Ops) (s : State) : Nat := fld s.me.csr.ecost (16 * b.h.e.toNat) 16 * b.units o s

/-! ## Parking, stopping and going on -/

/-- Park the issuing thread. Its timer and its place among parked pushes go on when it parks again on the same thing. -/
def parkMe (s : State) (why : ParkWhy) (key : Nat) (resume : List (Instr × Ops)) (next : Option Word) : State :=
  let t := s.me
  let again := match t.park with | some p => p.key = key && key ≠ 0 && p.addr = t.pc | none => false
  let stamp := match again, t.park with | true, some p => p.stamp | _, _ => s.hub.nextId
  let s := if again then s else s.fresh.2
  s.setMe { t with
    park := some ⟨why, t.pc, resume, next, key, stamp, false⟩
    timer := if again then t.timer else 0
    line := none }

/-- A stop takes effect: the state is the one before any pop (R149, R300). -/
def stopMe (s : State) (st : Stop) (pm : Bool) : State :=
  match st with
  | .park why key => parkMe s why key [] none
  | .trap _ cause addr aux refetch =>
    let s := match refetch with | some k => s.modStream (24 + k) fun b => { b with buf := [] } | none => s
    takeTrap s s.curCore s.curSlot cause addr aux s.me.pc pm false

/-- The thread goes on at an address; its line image stays while it stays in the line (R290). A branch whose target line has still to be
fetched leaves the thread without an image at an entry that is checked. -/
def goOn (s : State) (pc : Word) (img : Option LineImg) : State :=
  s.modMe fun t => { t with
    pc := pc, entry := t.entry && img.isNone, park := none, timer := 0
    line := match img with
      | some x => some (lineOf pc, x)
      | none => if lineOf pc = lineOf t.pc then t.line else none }

/-- The wait count of an issued turn (R152). -/
def setSkip (s : State) (w : Nat) : State := s.modMe fun t => { t with skip := w }

/-- The answer of the effect of the turn that issued `members`, whose next instruction is at `nxt`. -/
def settle (s0 : State) (members : List (Instr × Ops)) (w : Nat) (nxt : Word) (e : Eff) : State :=
  match e with
  | .done s => setSkip (goOn s nxt none) w
  | .jump s pc img => setSkip (goOn s pc img) w
  | .hold s why key => setSkip (parkMe s why key [] (some nxt)) w
  | .wait s why key => parkMe s why key members (some nxt)
  | .trap s cause addr aux => takeTrap s s0.curCore s0.curSlot cause addr aux s0.me.pc false false
  | .trapNext s cause aux => takeTrap s s0.curCore s0.curSlot cause 0 aux nxt false false
  | .gone s => s

/-- Step 11 (R143): EBIG, a budget stall, or the state after the debit, from which the instruction makes its access anew. -/
def debit (s : State) (d : Nat) : Except Stop State :=
  if d > fld s.me.csr.ecap 0 40 then .error (.trap 11 EBIG 0 (word d) none)
  else if fld s.me.csr.ebud 0 40 < d then .error (.park .budget 0)
  else .ok (s.modMe fun t => { t with csr := { t.csr with ebud := t.csr.ebud - word d }, carry := none })

/-- Steps 4 to 11 of R300 for one instruction by itself: none where its guard is false; otherwise what it read, and the state
after its pops and its debit. -/
def Body.accept (b : Body) (s : State) : Except Stop (Option (Ops × State)) :=
  match b.early s with
  | some st => .error st
  | none =>
    match s.me.pStop b.h.g with
    | some st => .error st
    | none =>
      if !b.guard s then .ok none
      else match b.gather s with
        | .error st => .error st
        | .ok (o, s') => match debit s' (b.cost o s) with
          | .error st => .error st
          | .ok s1 => .ok (some ({ o with nxt := nextPC s.me.pc 1 b.blk, own := s.me.pc }, s1))

/-- THE ISSUE of one instruction by itself at the thread's PC: its checks (R300), and its effect. -/
def issue (i : Instr) (b : Body) (s : State) : State :=
  let nxt := nextPC s.me.pc 1 b.blk
  match b.accept s with
  | .error st => stopMe s st false
  | .ok none => setSkip (goOn s nxt none) b.h.w.toNat
  | .ok (some (o, s1)) => settle s [(i, o)] b.h.w.toNat nxt (b.eff o s1)

/-! ## Results -/

/-- Whether a result for a general specifier can be given now: a push may have to wait. -/
def giveWait (s : State) (r : BitVec 5) : Option (ParkWhy × Nat) := pushWait s r.toNat

/-- Give a result to a general specifier: a register, or a push (R158, R159). (DEDUCED, log entry 32.) -/
def giveG (s : State) (lat : Option Nat) (r : BitVec 5) (v : Word) (fl : BitVec 5) (fp : Bool := false) : State :=
  if r.toNat ≥ 24 then (pushG s r.toNat v).modMe fun t => t.raise fl
  else s.modMe fun t => t.result lat [t.destG r v] fl fp

/-- The effect of an instruction that computes one general result. -/
def effG (lat : Option Nat) (r : BitVec 5) (f : Ops → Word × BitVec 5) (o : Ops) (s : State) : Eff :=
  match giveWait s r with
  | some (why, key) => .wait s why key
  | none => let x := f o; .done (giveG s lat r x.1 x.2)

/-- The same of an asynchronous result that is marked as floating point or not. -/
def effFp (fp : Bool) (r : BitVec 5) (f : Ops → Word × BitVec 5) (o : Ops) (s : State) : Eff :=
  match giveWait s r with
  | some (why, key) => .wait s why key
  | none => let x := f o; .done (giveG s none r x.1 x.2 fp)

/-- The value of an access that has been performed goes to a general specifier. A push that waits leaves the access performed and its
value with the thread (R380) until its next instruction is debited. -/
def giveLoaded (s : State) (r : BitVec 5) (v : Word) (fl : BitVec 5) : Eff :=
  match giveWait s r with
  | some (why, key) => .wait (s.modMe fun t => { t with carry := some (v, fl) }) why key
  | none => .done (giveG s (some 1) r v fl)

/-- An access whose value goes to a general specifier: `acc` performs it, unless it has been performed and its push still waits. -/
def loading (s : State) (r : BitVec 5) (acc : State → Eff) : Eff :=
  match s.me.carry with
  | some (v, fl) => giveLoaded s r v fl
  | none => acc s

/-- The effect of an instruction that writes a predicate, a vector or a mask. -/
def effP (lat : Nat) (r : BitVec 4) (f : Ops → Bool × BitVec 5) (o : Ops) (s : State) : Eff :=
  let x := f o
  .done (s.modMe fun t => t.result (some lat) [.p r x.1] x.2)
def effV (fp : Bool) (lat : Option Nat) (r : BitVec 4) (f : Ops → Vec × BitVec 5) (o : Ops) (s : State) : Eff :=
  let x := f o
  .done (s.modMe fun t => t.result lat [.v r x.1] x.2 fp)
def effM (lat : Nat) (r : BitVec 3) (f : Ops → Mask × BitVec 5) (o : Ops) (s : State) : Eff :=
  let x := f o
  .done (s.modMe fun t => t.result (some lat) [.m r x.1] x.2)

end Sys2Proof.Machine
end

