-- ==== Sys2Proof/Machine/Rects.lean ====
section
/-! DEFINITION. Rectangles of the mesh: which are eligible for a crew, and which are idle (R108, R129). -/

namespace Sys2Proof.Machine

/-! ## Eligible rectangles (R108, R109) -/

/-- The cores of a rectangle. -/
def rectCores (row col h w : Nat) : List Nat :=
  (span 0 h).flatMap fun i => (span 0 w).map fun j => coreAt (row + i) (col + j)

/-- The presses with both ends in a rectangle. -/
def rectPresses (row col h w : Nat) : List Nat :=
  (span 0 h).flatMap fun i => (span 0 w).flatMap fun j =>
    (if j + 1 < w then [coreAt (row + i) (col + j) * 2] else []) ++
    (if i + 1 < h then [coreAt (row + i) (col + j) * 2 + 1] else [])

/-- Cores that a placed crew's rectangle shares with a rectangle. -/
def Crew.shared (c : Crew) (row col h w : Nat) : Nat :=
  (min (c.prow + c.h) (row + h) - max c.prow row) * (min (c.pcol + c.w) (col + w) - max c.pcol col)

/-- The logical rectangle of a live crew meets a rectangle. -/
def Crew.meetsLogical (c : Crew) (row col h w : Nat) : Bool :=
  c.lrow < row + h && row < c.lrow + c.h && c.lcol < col + w && col < c.lcol + c.w

/-- R108. `gone` are the crews taken as removed. A rectangle that is reserved counts as taken (R110). -/
def eligible (s : State) (n : Nat) (c : Crew) (gone : Crew → Bool) (row col : Nat) : Bool :=
  let placed := s.crews.filter fun e => e.1 ≠ n && (e.2.state.holds || e.2.reserves) && !gone e.2
  row + c.h ≤ 64 && col + c.w ≤ 64 &&
  (placed.all fun e => e.2.shared row col c.h c.w ≤ 1) &&
  ((rectCores row col c.h c.w).all fun k =>
    !(s.core k).retired && c.t + ((placed.filter fun e => (e.2.indexOf k).isSome).foldl (fun a e => a + e.2.t) 0) ≤ 7) &&
  (s.mgmt.retiredPress.isEmpty || (rectPresses row col c.h c.w).all fun p => !s.mgmt.retiredPress.contains p) &&
  (c.started || s.crews.all fun e => e.1 = n || e.2.ctx ≠ c.ctx || !e.2.started || !e.2.meetsLogical row col c.h c.w)

/-- A rectangle is idle for a crew: eligible, and without a thread of any crew. -/
def idleRect (s : State) (n : Nat) (c : Crew) (row col : Nat) : Bool :=
  eligible s n { c with started := true } (fun _ => false) row col &&
  s.crews.all fun e => e.1 = n || !(e.2.state.holds || e.2.reserves) || e.2.shared row col c.h c.w = 0

/-- The idle rectangle whose hottest core is coolest; ties go to the lowest north-west core (R129). It meets no core of the
crew's own. -/
def coolestRect (s : State) (n : Nat) (c : Crew) : Option (Nat × Nat) :=
  let heat (k : Nat) : Nat := (rectCores (rowOf k) (colOf k) c.h c.w).foldl (fun m x => max m (s.core x).temp) 0
  let l := (span 0 4096).filter fun k =>
    idleRect s n c (rowOf k) (colOf k) && (c.shared (rowOf k) (colOf k) c.h c.w = 0 || !c.state.holds)
  match l with
  | [] => none
  | a :: rest =>
    let k := rest.foldl (fun b x => if heat x < heat b then x else b) a
    some (rowOf k, colOf k)

end Sys2Proof.Machine
end

