-- ==== Sys2Proof/Machine/Barriers.lean ====
section
/-! DEFINITION. Crew hardware barriers (R405 to R407), counting at a transaction barrier from a virtual address (R216), the
drain of a stream (R396), and whether a joined pact is still live. -/

namespace Sys2Proof.Machine

/-! ## Hardware barriers -/

/-- Fields of TSTAT for hardware barrier b: the outstanding arrival and its phase (Table 19.2). -/
def Thread.out (t : Thread) (b : Nat) : Bool := bit t.csr.tstat (16 + b)
def Thread.ph (t : Thread) (b : Nat) : Bool := bit t.csr.tstat (24 + b)

/-- Pass(b): the outstanding arrival is cleared and LPR holds no rank (R235, R406). -/
def Thread.passBar (t : Thread) (b : Nat) : Thread :=
  let t := t.setTstat (16 + b) 1 0
  { t with csr := { t.csr with lpr := setFld t.csr.lpr 63 1 1 } }

/-- A barrier of a crew. -/
def Crew.bar (c : Crew) (b : Nat) : HwBar := vget c.bars b ⟨false, 0, false⟩
def Crew.setBar (c : Crew) (b : Nat) (x : HwBar) : Crew := { c with bars := c.bars.setIfInBounds b x }

/-- Threads parked at a barrier of a crew pass it, wherever they are held. -/
def releaseBar (s : State) (n b : Nat) : State :=
  let go (t : Thread) : Thread :=
    match t.park with
    | some p => if t.occ && t.ref.crew = n && p.why = .barrier && p.key = b + 1 then (t.passBar b).release else t
    | none => t
  s.mapThreads go

/-- A seal of the context is pending. -/
def State.sealPending (s : State) (ctx : Nat) : Bool := match s.ctx? ctx with | some c => c.sealWanted | none => false

/-- A trace record of a hardware barrier (R102); the spec gives its TAG no meaning, so that TAG is a free value. -/
def traceBar (s : State) (kind ap : Nat) : State :=
  match s.ctx? s.myCtx with
  | some c => if c.profOn then let (w, s) := s.free; traceMe s kind (fld w 0 16) ap else s
  | none => s

/-- The mark of a crew for relocation can be acted on: an idle rectangle exists. Where none does, nothing happens and the mark stays
for a later completion (R129; that it stays: DEDUCED, log entry 123). -/
def mayRelocate (s : State) (n : Nat) (c : Crew) : Bool := c.relocMark && (coolestRect s n c).isSome

/-- A phase completes: it advances, the arrivals reload, and the waiters pass, unless a shed, a relocation or a seal is
pending: then the completion is held and the crew is parked, behind its halt where it is halted (R114, R130, R131, R139, R406). -/
def completeBar (s : State) (n b : Nat) : State :=
  match s.crew? n with
  | none => s
  | some c =>
    let x := c.bar b
    let hold := c.shedMark || mayRelocate s n c || s.sealPending c.ctx
    let c := c.setBar b ⟨!x.phase, c.expected, hold || x.held⟩
    let c := if hold then
        { c with
          state := if c.state = .run then .parked else c.state
          back := if c.state = .halted && c.back = .run then .parked else c.back
          relocMark := c.relocMark && !c.shedMark
          shedMark := false, graceAt := none }
      else c
    let s := { s with crews := Tbl.ins s.crews n c }
    let s := traceBar s 6 c.expected
    if hold then s else releaseBar s n b

/-- One arrival at a barrier: the pending count falls, and at 0 the phase completes. -/
def lowerBar (s : State) (n b : Nat) : State :=
  match s.crew? n with
  | none => s
  | some c =>
    let x := c.bar b
    let s := { s with crews := Tbl.ins s.crews n (c.setBar b { x with ap := x.ap - 1 }) }
    if x.ap ≤ 1 then completeBar s n b else s

/-- Held completions of a crew are released: the shed is lifted, the relocation is over, or the seal is done (R407). -/
def freeHeldBars (s : State) (n : Nat) : State :=
  foldSpan (fun s b =>
    match s.crew? n with
    | some c => if (c.bar b).held then releaseBar { s with crews := Tbl.ins s.crews n (c.setBar b { c.bar b with held := false }) } n b
      else s
    | none => s) s 0 8

/-- A worker's EXIT (R407): every expected count falls by 1, and the pending count of the barriers at which the thread has no
outstanding arrival. -/
def exitBars (s : State) (n : Nat) (t : Thread) : State :=
  let s := s.modCrew n fun c => { c with expected := c.expected - 1 }
  foldSpan (fun s b => if t.out b then s else lowerBar s n b) s 0 8

/-! ## Counting from a virtual address -/

/-- The key of a thread's park on a barrier update that is held. -/
def barKey : Nat := 2 ^ 122

/-- The source of a held update can still make it: its thread waits with it, its copy has not landed the unit, its press entry, stream or
command is there. -/
def BarSrc.live (s : State) : BarSrc → Bool
  | .thread r => match s.ref? r with | some t => (match t.park with | some p => p.key = barKey | none => false) | none => false
  | .copy id unit =>
    let has (k : CopyCmd) : Bool := k.id = id && k.next ≤ unit && !k.landed.contains unit
    (s.vats.any fun v => v.2.copies.any has) ||
      s.crews.any fun c => match c.2.saved with | some v => v.copies.any has | none => false
  | .press id =>
    let has (p : Press) : Bool := p.queue.any (fun e => e.id = id) || p.halves.any fun h => h.id = id
    (s.presses.any fun p => has p.2) ||
      s.crews.any fun c => match c.2.saved with | some v => v.presses.any fun p => has p.2 | none => false
  | .stream hold => s.threads.any fun t => t.2.streams.toList.any fun b => b.bound && b.hold = hold
  | .signal q id => (s.queue q).cmds.any fun c => c.id = id

/-- An update of a crew's barriers may be made now: none that was held earlier is still to be made (R216). -/
def barTurn (s : State) (crew : Nat) (src : BarSrc) : Bool :=
  match s.barHeld.find? fun e => e.1 = crew && (e.2 = src || e.2.live s) with
  | some e => e.2 = src
  | none => true

/-- An update is held at its source: it takes its place behind those held before. -/
def State.holdBar (s : State) (crew : Nat) (src : BarSrc) : State :=
  if s.barHeld.contains (crew, src) then s else { s with barHeld := s.barHeld ++ [(crew, src)] }

/-- An update that has been made is no longer held. -/
def State.madeBar (s : State) (src : BarSrc) : State :=
  if s.barHeld.isEmpty then s else { s with barHeld := s.barHeld.filter fun e => e.2 ≠ src && e.2.live s }

/-- The records of an update at the barrier of a PA, made from `s0` to `s`, while its context is profiled: 0x05 for an arrival, with the
arrivals then pending, and 0x06 where the phase has changed (R102), of a thread's core and slot, else of the barrier's home core. The spec
gives the TAG of such a record, and the SLOT of an update without an issuing slot, no meaning: they are free values. -/
def traceTb (s0 : State) (ctx pa : Nat) (arr : Bool) (who : Option (Nat × Nat)) (s : State) : State :=
  if s.profiled ctx then
    let (w, s) := s.free
    let home := match kindOf pa with | .spm core _ => core | _ => 0
    let (core, slot) := who.getD (home, fld w 16 3)
    let b0 := s0.read 0 pa 16
    let b := s.read 0 pa 16
    let s := if arr then trace s ctx 5 (fld w 0 16) (tbAP b0 - 1) core slot else s
    if tbPhase b0 = tbPhase b then s else trace s ctx 6 (fld w 0 16) (tbAP b) core slot
  else s

/-- What an engine's update of a barrier meets. -/
inductive BarRes where
  /-- It is made. -/
  | ok (s : State)
  /-- It is held at its source, behind a crew. -/
  | held (crew : Nat)
deriving DecidableEq, Repr

/-- An update at the barrier of a VA, which the crew of the barrier makes wait while it has no rectangle, and then in the order in
which updates were held (R216); so does a fence or a sleeping scratchpad (R85, R145). An address that names no barrier of the context any more is not updated. -/
def updateAt (s : State) (core ctx : Nat) (va : Word) (src : BarSrc) (f : Nat → State) : BarRes :=
  match barPA s core ctx va with
  | some (.inl pa) =>
    (match windowCrew s ctx va with
      | some n =>
        if barTurn s n src && !fenced s ctx 0 pa 0 then .ok (traceTb s ctx pa false none ((f pa).madeBar src)) else .held n
      | none => .ok (traceTb s ctx pa false none (f pa)))
  | some (.inr _) => .held ((windowCrew s ctx va).getD 0)
  | none => .ok s

/-- Count one landed sector at the barrier of a VA. -/
def countAt (s : State) (core ctx : Nat) (va : Word) (src : BarSrc) : BarRes :=
  updateAt s core ctx va src fun pa => countSector s ctx pa

/-- BarError at the barrier of a VA, under the same rule. -/
def errorAt (s : State) (core ctx : Nat) (va : Word) (unlanded : Nat) (src : BarSrc) : BarRes :=
  updateAt s core ctx va src fun pa => barError s ctx pa unlanded

/-- An event whose last part is a barrier update: made whole, or held, which the first attempt notes. -/
def BarRes.orHold (r : BarRes) (s : State) (src : BarSrc) (k : State → State) : Option State :=
  match r with
  | .ok s' => some (k s')
  | .held n => if s.barHeld.contains (n, src) then none else some (s.holdBar n src)

/-! ## Streams -/

/-- What a drain of a stream register meets. -/
inductive Drained where
  | ok (s : State)
  /-- The register is not drained yet: an update that is held has its place among those held (R216). -/
  | wait (s : State)
  | stopped (s : State) (f : AsyncTrap)
deriving DecidableEq, Repr

/-- The barrier of a stream that counts when it drains. -/
def StreamBind.tben (b : StreamBind) : Bool := bit b.desc 55
def StreamBind.tb (b : StreamBind) : Word := tbVA (fld b.desc 256 26)

/-- Drain the issuing thread's stream register (R396): a read stream drops what it fetched; a write stream waits until its
elements have landed; then the holds are released, one sector is counted, and the register is unbound. -/
def drainStream (s : State) (r : Nat) : Drained :=
  let b := s.stream r
  match b.stopped, b.stop with
  | true, some f => .stopped (s.modStream r fun _ => StreamBind.none) f
  | _, _ =>
    if !b.bound then .ok s
    else if b.isWrite && !b.buf.isEmpty then .wait s
    else
      let s0 := s
      let s := (s.dropHolds b.hold fun _ => true).modStream r fun _ => StreamBind.none
      if b.isWrite && b.tben then
        match countAt s s.curCore s.myCtx b.tb (.stream b.hold) with
        | .ok s => .ok s
        | .held n => .wait (s0.holdBar n (.stream b.hold))
      else .ok s

/-- Drain the four stream registers in order. -/
def drainAll (s : State) : List Nat → Drained
  | [] => .ok s
  | r :: rest => match drainStream s r with
    | .ok s => drainAll s rest
    | x => x

/-! ## Pacts -/

/-- A pact or command is still in a rendezvous table or a queue (R233, R420). -/
def pactLive (s : State) (id : Nat) : Bool :=
  s.presses.any fun e => e.2.halves.any (fun h => h.id = id) || e.2.queue.any fun q => q.id = id

/-- A pact is suspended (R237). -/
def pactSusp (s : State) (id : Nat) : Bool :=
  s.presses.any fun e => e.2.queue.any fun q => q.id = id && q.state = .susp

/-- The thread has a joined pact that is still live. -/
def Thread.pactsOpen (t : Thread) (s : State) : Bool := t.joined.any fun j => pactLive s j.pact

end Sys2Proof.Machine
end

