-- ==== Sys2Proof/Machine/Float.lean ====
section
/-! DEFINITION. The number formats (Chapter 11): exact values, the one rounding of R249 and R250, the arithmetic of scalar,
vector and press instructions over exact values, and the BQ8, BQ4 and T4 codes. -/

namespace Sys2Proof.Machine

/-- An IEEE format: exponent and fraction bits (Table 11.1). -/
structure Fmt where
  eb : Nat
  fb : Nat
deriving DecidableEq, Repr

/-- The format of a TYPE code 0–3 (R296). -/
def fmtOf (ty : Nat) : Fmt := if ty = 0 then ⟨11, 52⟩ else if ty = 1 then ⟨8, 23⟩ else if ty = 2 then ⟨5, 10⟩ else ⟨8, 7⟩

/-- Bits of an encoding. -/
def Fmt.width (f : Fmt) : Nat := 1 + f.eb + f.fb

/-- The exponent bias. -/
def Fmt.bias (f : Fmt) : Int := 2 ^ (f.eb - 1) - 1

/-- Exponent of the smallest normal magnitude. -/
def Fmt.emin (f : Fmt) : Int := 1 - f.bias

/-- The encoding of +∞. -/
def Fmt.infBits (f : Fmt) : Nat := (2 ^ f.eb - 1) <<< f.fb

/-- The canonical quiet NaN (Table 11.1, R251). -/
def Fmt.nan (f : Fmt) : Nat := f.infBits + 2 ^ (f.fb - 1)

/-- The sign bit in place. -/
def Fmt.signBit (f : Fmt) (neg : Bool) : Nat := b2n neg <<< (f.eb + f.fb)

/-- A floating-point datum: a NaN (signalling or quiet), an infinity, a zero, or the exact value ± m × 2^e with m > 0. -/
inductive FVal where
  | nan (sig : Bool)
  | inf (neg : Bool)
  | zero (neg : Bool)
  | fin (neg : Bool) (m : Nat) (e : Int)
deriving DecidableEq, Repr

/-- Exception flags in FCSR order: 16 NV, 8 DZ, 4 OF, 2 UF, 1 NX (Table 11.2). -/
abbrev Flags5 := BitVec 5

/-- Rounding modes in FCSR.RM order: 0 RNE, 1 RTZ, 2 RUP, 3 RDN. -/
abbrev Mode := Nat

/-- An encoding with the flags that producing it raises. -/
abbrev Res := Nat × Flags5

/-- Decode an encoding; bits above the format are ignored (R327). -/
def decodeF (f : Fmt) (v : Nat) : FVal :=
  let neg := v.testBit (f.eb + f.fb)
  let ex := bits v f.fb f.eb
  let fr := bits v 0 f.fb
  if ex = 2 ^ f.eb - 1 then
    if fr = 0 then .inf neg else .nan (!fr.testBit (f.fb - 1))
  else if ex = 0 then
    if fr = 0 then .zero neg else .fin neg fr (f.emin - f.fb)
  else .fin neg (fr + 2 ^ f.fb) ((ex : Int) - f.bias - f.fb)

/-- Whether rounding increments the magnitude: the discarded part compared with a half (0 none, 1 below, 2 half, 3 above),
the parity of the kept part, the sign and the mode (R249). -/
def roundsUp (rest : Nat) (odd neg : Bool) (mode : Mode) : Bool :=
  if rest = 0 then false
  else if mode = 0 then rest = 3 || (rest = 2 && odd)
  else if mode = 1 then false
  else if mode = 2 then !neg
  else neg

/-- Round a magnitude m × 2^e, with more non-zero digits below when sticky, to a multiple of 2^q: the multiple, and whether
it is inexact. -/
def roundAt (m : Nat) (e q : Int) (sticky neg : Bool) (mode : Mode) : Nat × Bool :=
  if q ≤ e then (m <<< (e - q).toNat, sticky)
  else
    let s := (q - e).toNat
    let k := m >>> s
    let r := m % 2 ^ s
    let half := 2 ^ (s - 1)
    let rest := if r = 0 then b2n sticky else if r < half then 1 else if r = half && !sticky then 2 else 3
    (k + b2n (roundsUp rest (k % 2 = 1) neg mode), rest ≠ 0)

/-- Round (R249, R250) of ± m × 2^e, m > 0, with more non-zero digits below m when sticky: encoding and flags. -/
def roundF (f : Fmt) (mode : Mode) (neg : Bool) (m : Nat) (e : Int) (sticky : Bool) : Res :=
  let top := e + bitLen m - 1
  let q := max (top - f.fb) (f.emin - f.fb)
  let (k, inexact) := roundAt m e q sticky neg mode
  let enc := ((q - (f.emin - f.fb)).toNat <<< f.fb) + k
  let s := f.signBit neg
  if f.infBits ≤ enc then
    let toInf := mode = 0 || (mode = 2 && !neg) || (mode = 3 && neg)
    (s + (if toInf then f.infBits else f.infBits - 1), 0b00101)
  else
    let (k2, _) := roundAt m e (top - f.fb) sticky neg mode
    let tiny := top < f.emin && !(top = f.emin - 1 && k2 = 2 ^ (f.fb + 1))
    (s + enc, (if inexact then 1 else 0) ||| (if inexact && tiny then 2 else 0))

/-- Round a datum; a NaN becomes the canonical one, with NV when it is signalling (R251). -/
def roundV (f : Fmt) (mode : Mode) : FVal → Res
  | .nan sig => (f.nan, if sig then 16 else 0)
  | .inf neg => (f.signBit neg + f.infBits, 0)
  | .zero neg => (f.signBit neg, 0)
  | .fin neg m e => roundF f mode neg m e false

def FVal.isNan : FVal → Bool
  | .nan _ => true
  | _ => false

def FVal.isSig : FVal → Bool
  | .nan sig => sig
  | _ => false

def FVal.isInf : FVal → Bool
  | .inf _ => true
  | _ => false

def FVal.isZero : FVal → Bool
  | .zero _ => true
  | _ => false

/-- The sign of a datum, false for a NaN. -/
def FVal.neg : FVal → Bool
  | .nan _ => false
  | .inf n => n
  | .zero n => n
  | .fin n _ _ => n

def FVal.flip : FVal → FVal
  | .nan s => .nan s
  | .inf n => .inf !n
  | .zero n => .zero !n
  | .fin n m e => .fin (!n) m e

/-- NV when some operand is a signalling NaN. -/
def sigFlag (l : List FVal) : Flags5 := if l.any FVal.isSig then 16 else 0

/-- An exact product; 0 × ∞ is a NaN and raises NV, and so does a signalling operand (R251). -/
def mulV (a b : FVal) : FVal × Flags5 :=
  match a, b with
  | .nan _, _ | _, .nan _ => (.nan false, sigFlag [a, b])
  | .inf _, .zero _ | .zero _, .inf _ => (.nan false, 16)
  | .inf n, x | x, .inf n => (.inf (n != x.neg), 0)
  | .zero n, x | x, .zero n => (.zero (n != x.neg), 0)
  | .fin n m e, .fin n' m' e' => (.fin (n != n') (m * m') (e + e'), 0)

/-- The least exponent of the finite non-zero terms. -/
def minExp (l : List FVal) (d : Int) : Int :=
  l.foldl (fun acc x => match x with | .fin _ _ e => min acc e | _ => acc) d

/-- A term scaled to an integer multiple of 2^q. -/
def scaled (q : Int) : FVal → Int
  | .fin n m e => (if n then -1 else 1) * ((m <<< (e - q).toNat : Nat) : Int)
  | _ => 0

/-- The exact sum of terms (R260): NaNs, opposite infinities, an infinity, else the exact real sum; an exact zero sum is −0
when every term is −0, and otherwise has the sign given for it. -/
def sumV (l : List FVal) (zeroNeg : Bool) : FVal × Flags5 :=
  if l.any FVal.isNan then (.nan false, sigFlag l)
  else if l.any (fun x => x = .inf true) && l.any (fun x => x = .inf false) then (.nan false, 16)
  else if l.any (fun x => x = .inf true) then (.inf true, 0)
  else if l.any (fun x => x = .inf false) then (.inf false, 0)
  else
    let q := minExp l 100000
    let t := l.foldl (fun acc x => acc + scaled q x) (0 : Int)
    if t = 0 then
      if l.all (fun x => x = .zero true) then (.zero true, 0)
      else if l.all (fun x => x = .zero false) then (.zero false, 0)
      else (.zero zeroNeg, 0)
    else (.fin (t < 0) t.natAbs q, 0)

/-- Round a sum, joining the flags of its terms. -/
def roundSum (f : Fmt) (mode : Mode) (r : FVal × Flags5) (fl : Flags5) : Res :=
  let (v, g) := roundV f mode r.1
  (v, g ||| r.2 ||| fl)

/-- a + b (R338): an exact zero sum of opposite signs is −0 under RDN. -/
def addF (f : Fmt) (mode : Mode) (a b : Nat) : Res := roundSum f mode (sumV [decodeF f a, decodeF f b] (mode = 3)) 0

/-- a − b (R338). A NaN subtrahend keeps its kind. -/
def subF (f : Fmt) (mode : Mode) (a b : Nat) : Res :=
  roundSum f mode (sumV [decodeF f a, (decodeF f b).flip] (mode = 3)) 0

/-- a × b (R338). -/
def mulF (f : Fmt) (mode : Mode) (a b : Nat) : Res := roundSum f mode (mulV (decodeF f a) (decodeF f b)) 0

/-- ± a × b + c with one rounding (R338, R359): 0 × ∞ raises NV even when c is a quiet NaN. -/
def fmaF (f : Fmt) (mode : Mode) (negate : Bool) (a b c : Nat) : Res :=
  let (p, fl) := mulV (decodeF f a) (decodeF f b)
  let p := if negate then p.flip else p
  roundSum f mode (sumV [p, decodeF f c] (mode = 3)) fl

/-- a / b (R338). -/
def divF (f : Fmt) (mode : Mode) (a b : Nat) : Res :=
  let x := decodeF f a
  let y := decodeF f b
  match x, y with
  | .nan _, _ | _, .nan _ => (f.nan, sigFlag [x, y])
  | .inf _, .inf _ | .zero _, .zero _ => (f.nan, 16)
  | .inf n, _ => (f.signBit (n != y.neg) + f.infBits, 0)
  | .zero n, _ => (f.signBit (n != y.neg), 0)
  | .fin n _ _, .inf n' => (f.signBit (n != n'), 0)
  | .fin n _ _, .zero n' => (f.signBit (n != n') + f.infBits, 8)
  | .fin n m e, .fin n' m' e' =>
    let k := f.fb + 4 + bitLen m' - bitLen m
    let num := m <<< k
    roundF f mode (n != n') (num / m') (e - e' - k) (num % m' ≠ 0)

/-- The integer square root, digit by digit from bit k down. -/
def isqrtAux (v : Nat) (r : Nat) : Nat → Nat
  | 0 => r
  | k + 1 =>
    let r' := r + 2 ^ k
    if r' * r' ≤ v then isqrtAux v r' k else isqrtAux v r k

/-- Floor of the square root. -/
def isqrt (v : Nat) : Nat := isqrtAux v 0 (bitLen v / 2 + 1)

/-- √a (R338, Table 16.3). -/
def sqrtF (f : Fmt) (mode : Mode) (a : Nat) : Res :=
  match decodeF f a with
  | .nan sig => (f.nan, if sig then 16 else 0)
  | .zero n => (f.signBit n, 0)
  | .inf false => (f.infBits, 0)
  | .inf true => (f.nan, 16)
  | .fin true _ _ => (f.nan, 16)
  | .fin false m e =>
    let k := 2 * f.fb + 8
    let k := if (e - k) % 2 = 0 then k else k + 1
    let v := m <<< k
    let r := isqrt v
    roundF f mode false r ((e - k) / 2) (r * r ≠ v)

/-- 1 / √a (R362, Table 16.3). -/
def rsqrtF (f : Fmt) (mode : Mode) (a : Nat) : Res :=
  match decodeF f a with
  | .nan sig => (f.nan, if sig then 16 else 0)
  | .zero n => (f.signBit n + f.infBits, 8)
  | .inf false => (0, 0)
  | .inf true => (f.nan, 16)
  | .fin true _ _ => (f.nan, 16)
  | .fin false m e =>
    -- the operand as m' × 2^e' with e' even; the result is Floor(2^k / √m') × 2^(−e'/2 − k)
    let (m', e') := if e % 2 = 0 then (m, e) else (m * 2, e - 1)
    let k := f.fb + 4 + bitLen m'
    let r := isqrt (2 ^ (2 * k) / m')
    roundF f mode false r (-(e' / 2) - k) (r * r * m' ≠ 2 ^ (2 * k))

/-- 1 / a (R362, Table 16.3). -/
def rcpF (f : Fmt) (mode : Mode) (a : Nat) : Res := divF f mode ((f.bias.toNat) <<< f.fb) a

/-- Round an irrational value that lies strictly between two neighbours lo and lo + w of one exponent: none when the two
ends round apart. -/
def roundBetween (f : Fmt) (mode : Mode) (neg : Bool) (lo hi : Nat) (e : Int) : Option Res :=
  let a := roundF f mode neg lo e true
  let b := roundF f mode neg hi e true
  if a = b then some a else none

/-- 2^(2^−1), 2^(2^−2), …, each with p fraction bits, rounded down; multiplied into r where the fraction has its bit. -/
def exp2Bits (p fr frBits : Nat) (root r : Nat) (i : Nat) : Nat → Nat
  | 0 => r
  | n + 1 =>
    let root := isqrt (root <<< p)
    let r := if fr.testBit (frBits - 1 - i) then (r * root) >>> p else r
    exp2Bits p fr frBits root r (i + 1) n

/-- The rounding of 2^(n + fr / 2^frBits), 0 < fr < 2^frBits, from enclosures of rising precision. -/
def exp2Try (f : Fmt) (mode : Mode) (n : Int) (fr frBits : Nat) : List Nat → Res
  | [] => (f.nan, 0)
  | p :: ps =>
    let steps := min frBits p
    let r := exp2Bits p fr frBits (2 <<< p) (1 <<< p) 0 steps
    let hi := min (r + 8 * (steps + 2)) (2 ^ (p + 1) - 1)
    match roundBetween f mode false r hi (n - p) with
    | some x => x
    | none => exp2Try f mode n fr frBits ps

/-- 2^a, correctly rounded (R362, Table 16.3). (DEDUCED, log entry 44.) -/
def exp2F (f : Fmt) (mode : Mode) (a : Nat) : Res :=
  match decodeF f a with
  | .nan sig => (f.nan, if sig then 16 else 0)
  | .zero _ => ((f.bias.toNat) <<< f.fb, 0)
  | .inf false => (f.infBits, 0)
  | .inf true => (0, 0)
  | .fin neg m e =>
    if e + bitLen m > 16 then
      -- the magnitude is 2^15 or more: beyond every format's range
      if neg then roundF f mode false 1 (-100000) false else roundF f mode false 1 100000 false
    else
      let k := (max (-e) 0).toNat
      let v : Int := (if neg then -1 else 1) * ((m <<< (e + k).toNat : Nat) : Int)
      let n := v / (2 ^ k : Nat)
      let fr := (v % (2 ^ k : Nat)).toNat
      if fr = 0 then roundF f mode false 1 n false
      else exp2Try f mode n fr k [160, 320, 1280]

/-- Binary digits of log2 z for z in [1, 2), z having w fraction bits, most significant first. -/
def log2Digits (w : Nat) (z acc : Nat) : Nat → Nat
  | 0 => acc
  | n + 1 =>
    let z2 := (z * z) >>> w
    if z2 ≥ 2 ^ (w + 1) then log2Digits w (z2 >>> 1) (2 * acc + 1) n else log2Digits w z2 (2 * acc) n

/-- The rounding of log2 of m × 2^e, not a power of two, from enclosures of rising precision. -/
def log2Try (f : Fmt) (mode : Mode) (m : Nat) (e : Int) : List Nat → Res
  | [] => (f.nan, 0)
  | p :: ps =>
    let n := e + bitLen m - 1
    let w := 2 * p + bitLen m
    let z := m <<< (w + 1 - bitLen m)
    let lo : Int := n * (2 ^ p : Nat) + (log2Digits w z 0 p : Int)
    let r := if 0 ≤ lo then roundBetween f mode false lo.toNat (lo + 2).toNat (-p)
      else roundBetween f mode true (-(lo + 2)).toNat (-lo).toNat (-p)
    match r with
    | some x => x
    | none => log2Try f mode m e ps

/-- log2 a, correctly rounded (R362, Table 16.3). -/
def log2F (f : Fmt) (mode : Mode) (a : Nat) : Res :=
  match decodeF f a with
  | .nan sig => (f.nan, if sig then 16 else 0)
  | .zero _ => (f.signBit true + f.infBits, 8)
  | .inf false => (f.infBits, 0)
  | .inf true => (f.nan, 16)
  | .fin true _ _ => (f.nan, 16)
  | .fin false m e =>
    let n := e + bitLen m - 1
    if m = 2 ^ (bitLen m - 1) then
      if n = 0 then (0, 0) else roundF f mode (n < 0) n.natAbs 0 false
    else log2Try f mode m e [192, 384, 1280]

/-- The order of two data that are not NaNs: −1, 0 or 1; −0 = +0 unless zeros are told apart. -/
def cmpV (a b : FVal) (zeros : Bool) : Int :=
  let rank : FVal → Int := fun x => match x with
    | .inf true => -2
    | .inf false => 2
    | .fin true _ _ => -1
    | .fin false _ _ => 1
    | _ => 0
  if rank a ≠ rank b then (if rank a < rank b then -1 else 1)
  else match a, b with
    | .fin _ _ _, .fin _ _ _ =>
      let q := minExp [a, b] 100000
      let x := scaled q a
      let y := scaled q b
      if x < y then -1 else if x = y then 0 else 1
    | .zero n, .zero n' => if zeros && n != n' then (if n then -1 else 1) else 0
    | _, _ => 0

/-- A comparison under COND 0–5 (R340): result and flags. -/
def fcmpF (f : Fmt) (cond : Nat) (a b : Nat) : Bool × Flags5 :=
  let x := decodeF f a
  let y := decodeF f b
  if x.isNan || y.isNan then
    (cond = 1, if cond ≥ 2 then 16 else sigFlag [x, y])
  else
    let c := cmpV x y false
    (match cond with
      | 0 => c = 0
      | 1 => c ≠ 0
      | 2 => c < 0
      | 3 => c ≤ 0
      | 4 => c > 0
      | _ => c ≥ 0, 0)

/-- FMIN and FMAX (R339): the operand's encoding unchanged, −0 below +0, a NaN only when both are. -/
def minmaxF (f : Fmt) (isMax : Bool) (a b : Nat) : Res :=
  let x := decodeF f a
  let y := decodeF f b
  let fl := sigFlag [x, y]
  let a := a % 2 ^ f.width
  let b := b % 2 ^ f.width
  if x.isNan && y.isNan then (f.nan, fl)
  else if x.isNan then (b, fl)
  else if y.isNan then (a, fl)
  else
    let c := cmpV x y true
    (if isMax then (if c < 0 then b else a) else (if c > 0 then b else a), fl)

/-- FCLASS (R342). -/
def classF (f : Fmt) (a : Nat) : Nat :=
  match decodeF f a with
  | .inf true => 1
  | .fin true m _ => if m < 2 ^ f.fb then 4 else 2
  | .zero true => 8
  | .zero false => 16
  | .fin false m _ => if m < 2 ^ f.fb then 32 else 64
  | .inf false => 128
  | .nan true => 256
  | .nan false => 512

/-- FSGN (R343): the magnitude of a with a chosen sign; a NaN becomes canonical. -/
def signF (f : Fmt) (fn : Nat) (a b : Nat) : Res :=
  let x := decodeF f a
  if x.isNan then (f.nan, sigFlag [x])
  else
    let sa := a.testBit (f.eb + f.fb)
    let sb := b.testBit (f.eb + f.fb)
    let s := if fn = 0 then sb else if fn = 1 then !sb else sa != sb
    (a % 2 ^ (f.eb + f.fb) + f.signBit s, 0)

/-- Round an integer (R341). -/
def ofIntF (f : Fmt) (mode : Mode) (x : Int) : Res :=
  if x = 0 then (0, 0) else roundF f mode (x < 0) x.natAbs 0 false

/-- A floating-point value to an integer in a range (R341): result and flags. -/
def toIntF (f : Fmt) (mode : Mode) (lo hi : Int) (a : Nat) : Int × Flags5 :=
  match decodeF f a with
  | .nan _ => (0, 16)
  | .inf n => (if n then lo else hi, 16)
  | .zero _ => (0, 0)
  | .fin n m e =>
    let (k, inexact) := roundAt m e 0 false n mode
    let v : Int := if n then -(k : Int) else k
    if v < lo then (lo, 16) else if v > hi then (hi, 16) else (v, if inexact then 1 else 0)

/-- One conversion of a TYPE code to another, on widths that the caller gives an integer type (R341, R364): the result bits,
an integer cut to its width, and the flags. `ity` 4 I64, 5 I32, 6 I16, 7 U64. -/
def convF (st dt : Nat) (mode : Mode) (a : Nat) : Res :=
  let iw : Nat → Nat := fun t => if t = 5 then 32 else if t = 6 then 16 else 64
  if st < 4 && dt < 4 then
    let x := decodeF (fmtOf st) a
    roundV (fmtOf dt) mode x
  else if dt < 4 then
    ofIntF (fmtOf dt) mode (if st = 7 then ((a % 2 ^ 64 : Nat) : Int) else sint a (iw st))
  else
    let w := iw dt
    let lo : Int := if dt = 7 then 0 else -(2 ^ (w - 1) : Nat)
    let hi : Int := if dt = 7 then (2 ^ 64 - 1 : Nat) else (2 ^ (w - 1) - 1 : Nat)
    let (v, fl) := toIntF (fmtOf st) mode lo hi a
    (ucut v w, fl)

/-! ## BQ8, BQ4 (R253 to R256) -/

/-- Parameters of a BQ format: scaling constant, magnitude limit, distance of E1 below E0, bits of the magnitude. -/
structure Bq where
  k : Int
  lim : Nat
  gap : Nat
  mb : Nat

def bq8 : Bq := ⟨133, 63, 5, 6⟩
def bq4 : Bq := ⟨129, 3, 2, 2⟩

/-- Selector, sign and magnitude of an element code (Table 11.3). -/
def Bq.elem (b : Bq) (sel s : Bool) (mag : Nat) : Nat := mag + b2n s <<< b.mb + b2n sel <<< (b.mb + 1)

/-- The value of an element under its scale entry (R253). -/
def Bq.decode (b : Bq) (e0 e1 code : Nat) : FVal :=
  let mag := bits code 0 b.mb
  let s := code.testBit b.mb
  let ex := if code.testBit (b.mb + 1) then e1 else e0
  if ex = 255 then .nan false else if mag = 0 then .zero s else .fin s mag ((ex : Int) - b.k)

/-- Encode one FP32 element (R255): its code and flags. -/
def Bq.encode1 (b : Bq) (e0 e1 : Nat) (hasnan : Bool) (x : FVal) : Nat × Flags5 :=
  match x with
  | .nan sig => (b.elem true false 0, if sig then 16 else 0)
  | .inf s => (b.elem false s b.lim, 5)
  | .zero s => (if !hasnan then b.elem true s 0 else b.elem false s 0, 0)
  | .fin s m e =>
    let (q1, i1) := roundAt m (e + b.k - e1) 0 false s 0
    let (q0, i0) := roundAt m (e + b.k - e0) 0 false s 0
    if !hasnan && q1 ≤ b.lim then
      (b.elem true s q1, (if i1 then 1 else 0) ||| (if q1 = 0 then 2 else 0))
    else
      let mag := min q0 b.lim
      (b.elem false s mag, (if q0 > b.lim + 1 then 5 else 0) ||| (if i0 || q0 > b.lim then 1 else 0) |||
        (if mag = 0 then 2 else 0))

/-- Encode a block of FP32 encodings, masked lanes given as none: E0, E1, the codes (0 in masked lanes) and the flags
(R255, R256). -/
def Bq.encode (b : Bq) (xs : List (Option Nat)) : Nat × Nat × List Nat × Flags5 :=
  let vals := xs.map (Option.map (decodeF (fmtOf 1)))
  let tops := vals.filterMap fun x => match x with | some (.fin _ m e) => some (e + bitLen m - 1) | _ => none
  let e0 := match tops with
    | [] => 1
    | t :: ts => ((max (min (ts.foldl max t + 128) 254) 1) : Int).toNat
  let hasnan := vals.any fun x => match x with | some v => v.isNan | none => false
  let e1 := if hasnan then 255 else e0 - b.gap
  let out := vals.map fun x => match x with | some v => b.encode1 e0 e1 hasnan v | none => (0, 0)
  (e0, e1, out.map (·.1), out.foldl (fun acc x => acc ||| x.2) 0)

end Sys2Proof.Machine
end

