-- ==== Sys2Proof/Machine/Flags.lean ====
section
/-! DEFINITION. Conditions and rounding: the integer conditions of Table 15.3, the rounding mode that an instruction's field
chooses (R249), and how a floating-point result lies in a register (R327). -/

namespace Sys2Proof.Machine

/-- Cond(a, b) of Table 15.3 (R335). -/
def icond (c : Nat) (a b : Word) : Bool :=
  match c with
  | 0 => a = b
  | 1 => a ≠ b
  | 2 => a.slt b
  | 3 => a.sle b
  | 4 => b.slt a
  | 5 => b.sle a
  | 6 => a.ult b
  | 7 => a.ule b
  | 8 => b.ult a
  | 9 => b.ule a
  | _ => false

/-- The rounding mode: 0 takes FCSR.RM as it stood at issue, 1 to 4 name RNE, RTZ, RUP and RDN (R249). -/
def fmode (rm : BitVec 3) (o : Ops) : Mode := if rm = 0 then o.rm.toNat else rm.toNat - 1

/-- A scalar floating-point result in a register: the bits above the format are zero (R327). -/
def fres (r : Res) : Word × BitVec 5 := (word r.1, r.2)

/-- FCSR: the flags that a result raises are merged with those that stand (R252). -/
def fcsrMerge (fcsr : Word) (f : BitVec 5) : Word := fcsr ||| f.setWidth 64

/-- Lane i of width w is active under a mask (R354). -/
def laneOn (w : Nat) (m : Mask) (i : Nat) : Bool := bit m (if w = 16 then i / 2 else i)

/-- The active lanes of width w, lowest first. -/
def activeLanes (w : Nat) (m : Mask) : List Nat := (span 0 (512 / w)).filter (laneOn w m)

/-- Number of active lanes. -/
def activeCount (w : Nat) (m : Mask) : Nat := (activeLanes w m).length

end Sys2Proof.Machine
end

