-- ==== Sys2Proof/Machine/Scalar.lean ====
section
/-! DEFINITION. Integer arithmetic and logic, moves, bit fields, addresses, compares, predicates and node-address arithmetic
(R329 to R337). -/

namespace Sys2Proof.Machine

/-- What a step of this machine answers. -/
abbrev Out := Host.Outcome State Fault Refusal

/-! ## Values -/

/-- The 128-bit products' upper halves (R329). -/
def mulHigh (a b : Word) : Word := word (ucut (a.toInt * b.toInt) 128 / 2 ^ 64)
def mulHighU (a b : Word) : Word := word (a.toNat * b.toNat / 2 ^ 64)

/-- Division (R330): rounding towards zero, with the results of division by zero and of the one overflow. -/
def divS (a b : Word) : Word := if b = 0 then 0xFFFFFFFFFFFFFFFF else word (ucut (Int.tdiv a.toInt b.toInt) 64)
def remS (a b : Word) : Word := if b = 0 then a else word (ucut (Int.tmod a.toInt b.toInt) 64)
def divU (a b : Word) : Word := if b = 0 then 0xFFFFFFFFFFFFFFFF else word (a.toNat / b.toNat)
def remU (a b : Word) : Word := if b = 0 then a else word (a.toNat % b.toNat)

/-- A shift count: the low six bits of the second operand. -/
def cnt (b : Word) : Nat := fld b 0 6

def clz64 (a : Word) : Word := word (64 - bitLen a.toNat)
def ctz64 (a : Word) : Word := word (if a = 0 then 64 else trailZeros a.toNat 64)

/-- Byte i to byte 7 − i. -/
def bswap64 (a : Word) : Word := word (ofBytes (bytesOf a.toNat 8).reverse)

/-- EXTR and INSR (R332): POS, and LEN as the field holds it, one less than the length. -/
def extract (a : Word) (pos len : Nat) (sx : Bool) : Word :=
  let v := bits a.toNat pos (len + 1)
  if sx then sext v (len + 1) else word v
def insert (a b : Word) (pos len : Nat) : Word := setFld a pos (len + 1) b.toNat

/-- Node-address arithmetic (Table 12.1, R337). -/
def nodeChild (n dir : Word) : Word := 2 * n + 1 + word (fld dir 0 1)
def nodeParent (n : Word) : Word := if n = 0 then 0xFFFFFFFFFFFFFFFF else (n - 1) >>> 1
def nodeLevel (n : Word) : Word := word (Nat.log2 (n.toNat + 1))
def nodeBase (l : Word) : Word := if l.toNat < 64 then word (2 ^ l.toNat - 1) else 0xFFFFFFFFFFFFFFFF
def nodeLeaf (n d : Word) : Word := n - nodeBase d

/-! ## Forms -/

/-- Two general operands, one general result. -/
def alu2 (h : Hdr) (d a b : BitVec 5) (lat : Option Nat) (f : Word → Word → Word) : Body :=
  Body.mk' h .other [.a a, .b b] [.g d] (effG lat d fun o => (f o.a o.b, 0))

/-- One general operand, one general result. -/
def alu1 (h : Hdr) (d a : BitVec 5) (lat : Option Nat) (f : Word → Word) : Body :=
  Body.mk' h .other [.a a] [.g d] (effG lat d fun o => (f o.a, 0))

/-- A sign-extended 48-bit immediate. -/
def imm48 (i : BitVec 48) : Word := i.signExtend 64

/-! ## The instructions -/

/-- OP 0x00 traps with ILLOP, reason 0 (R301, R304). -/
def bodyIll : Body :=
  { Body.mk' Hdr.zero .other [] [] (fun _ s => .done s) with
    priv := fun s => some (.trap 3 1 s.me.pc 0 none) }

def bodyNop (h : Hdr) : Body := Body.mk' h .other [] [] (fun _ s => .done s)

def bodyAdd (h : Hdr) (d a b : BitVec 5) : Body := alu2 h d a b (some 1) fun x y => x + y
def bodySub (h : Hdr) (d a b : BitVec 5) : Body := alu2 h d a b (some 1) fun x y => x - y
def bodyMul (h : Hdr) (d a b : BitVec 5) : Body := alu2 h d a b (some 2) fun x y => x * y
def bodyMulh (h : Hdr) (d a b : BitVec 5) : Body := alu2 h d a b (some 2) mulHigh
def bodyMulhu (h : Hdr) (d a b : BitVec 5) : Body := alu2 h d a b (some 2) mulHighU
def bodyDiv (h : Hdr) (d a b : BitVec 5) : Body := alu2 h d a b none divS
def bodyDivu (h : Hdr) (d a b : BitVec 5) : Body := alu2 h d a b none divU
def bodyRem (h : Hdr) (d a b : BitVec 5) : Body := alu2 h d a b none remS
def bodyRemu (h : Hdr) (d a b : BitVec 5) : Body := alu2 h d a b none remU
def bodyAnd (h : Hdr) (d a b : BitVec 5) : Body := alu2 h d a b (some 1) fun x y => x &&& y
def bodyOr (h : Hdr) (d a b : BitVec 5) : Body := alu2 h d a b (some 1) fun x y => x ||| y
def bodyXor (h : Hdr) (d a b : BitVec 5) : Body := alu2 h d a b (some 1) fun x y => x ^^^ y
def bodyAndn (h : Hdr) (d a b : BitVec 5) : Body := alu2 h d a b (some 1) fun x y => x &&& ~~~y
def bodyShl (h : Hdr) (d a b : BitVec 5) : Body := alu2 h d a b (some 1) fun x y => x <<< cnt y
def bodyShr (h : Hdr) (d a b : BitVec 5) : Body := alu2 h d a b (some 1) fun x y => x >>> cnt y
def bodySar (h : Hdr) (d a b : BitVec 5) : Body := alu2 h d a b (some 1) fun x y => x.sshiftRight (cnt y)
def bodyRotr (h : Hdr) (d a b : BitVec 5) : Body := alu2 h d a b (some 1) fun x y => x.rotateRight (cnt y)
def bodyClz (h : Hdr) (d a : BitVec 5) : Body := alu1 h d a (some 1) clz64
def bodyCtz (h : Hdr) (d a : BitVec 5) : Body := alu1 h d a (some 1) ctz64
def bodyPopc (h : Hdr) (d a : BitVec 5) : Body := alu1 h d a (some 1) fun x => word (popCount x.toNat 64)
def bodyMin (h : Hdr) (d a b : BitVec 5) : Body := alu2 h d a b (some 1) fun x y => if x.sle y then x else y
def bodyMax (h : Hdr) (d a b : BitVec 5) : Body := alu2 h d a b (some 1) fun x y => if x.sle y then y else x
def bodyMinu (h : Hdr) (d a b : BitVec 5) : Body := alu2 h d a b (some 1) fun x y => if x.ule y then x else y
def bodyMaxu (h : Hdr) (d a b : BitVec 5) : Body := alu2 h d a b (some 1) fun x y => if x.ule y then y else x
def bodyMov (h : Hdr) (d a : BitVec 5) : Body := alu1 h d a (some 1) fun x => x
def bodyBswap (h : Hdr) (d a : BitVec 5) : Body := alu1 h d a (some 1) bswap64

def bodyAddi (h : Hdr) (d a : BitVec 5) (imm : BitVec 48) : Body := alu1 h d a (some 1) fun x => x + imm48 imm
def bodyMuli (h : Hdr) (d a : BitVec 5) (imm : BitVec 48) : Body := alu1 h d a (some 2) fun x => x * imm48 imm
def bodyAndi (h : Hdr) (d a : BitVec 5) (imm : BitVec 48) : Body := alu1 h d a (some 1) fun x => x &&& imm48 imm
def bodyOri (h : Hdr) (d a : BitVec 5) (imm : BitVec 48) : Body := alu1 h d a (some 1) fun x => x ||| imm48 imm
def bodyXori (h : Hdr) (d a : BitVec 5) (imm : BitVec 48) : Body := alu1 h d a (some 1) fun x => x ^^^ imm48 imm
def bodyShli (h : Hdr) (d a : BitVec 5) (n : BitVec 6) : Body := alu1 h d a (some 1) fun x => x <<< n.toNat
def bodyShri (h : Hdr) (d a : BitVec 5) (n : BitVec 6) : Body := alu1 h d a (some 1) fun x => x >>> n.toNat
def bodySari (h : Hdr) (d a : BitVec 5) (n : BitVec 6) : Body := alu1 h d a (some 1) fun x => x.sshiftRight n.toNat

def bodyMovi (h : Hdr) (d : BitVec 5) (imm : BitVec 48) : Body :=
  Body.mk' h .other [] [.g d] (effG (some 1) d fun _ => (imm48 imm, 0))
def bodyMovhi (h : Hdr) (d a : BitVec 5) (imm : BitVec 16) : Body :=
  alu1 h d a (some 1) fun x => setFld x 48 16 imm.toNat
def bodyExtr (h : Hdr) (d a : BitVec 5) (pos len : BitVec 6) (sx : Bool) : Body :=
  alu1 h d a (some 1) fun x => extract x pos.toNat len.toNat sx
def bodyInsr (h : Hdr) (d a b : BitVec 5) (pos len : BitVec 6) : Body :=
  alu2 h d a b (some 1) fun x y => insert x y pos.toNat len.toNat

/-- R333: nothing is translated. -/
def bodyLea (h : Hdr) (d a b : BitVec 5) (sc : BitVec 3) (imm : BitVec 48) : Body :=
  alu2 h d a b (some 1) fun x y => x + (y <<< sc.toNat) + imm48 imm

/-- R334: the predicate is read at issue. -/
def bodySel (h : Hdr) (d a b : BitVec 5) (p : BitVec 4) : Body :=
  Body.mk' h .other [.a a, .b b, .pa p] [.g d] (effG (some 1) d fun o => (if o.pa then o.a else o.b, 0))

def bodyCmp (h : Hdr) (pd : BitVec 4) (a b : BitVec 5) (cond : BitVec 4) : Body :=
  Body.mk' h .other [.a a, .b b] [.p pd] (effP 1 pd fun o => (icond cond.toNat o.a o.b, 0))
def bodyCmpi (h : Hdr) (pd : BitVec 4) (a : BitVec 5) (cond : BitVec 4) (imm : BitVec 48) : Body :=
  Body.mk' h .other [.a a] [.p pd] (effP 1 pd fun o => (icond cond.toNat o.a (imm48 imm), 0))

/-- R336. -/
def bodyPlog (h : Hdr) (pd pa pb tab : BitVec 4) : Body :=
  Body.mk' h .other [.pa pa, .pb pb] [.p pd] (effP 1 pd fun o => (bit tab (2 * b2n o.pa + b2n o.pb), 0))
def bodyPget (h : Hdr) (d : BitVec 5) : Body :=
  Body.mk' h .other [.preds] [.g d] (effG (some 1) d fun o => (o.pw.setWidth 64, 0))
def bodyPset (h : Hdr) (a : BitVec 5) : Body :=
  Body.mk' h .other [.a a] [.preds] fun o s => .done (s.modMe fun t => { t with pred := o.a.setWidth 16 ||| 1 })

def bodyNchild (h : Hdr) (d a b : BitVec 5) : Body := alu2 h d a b (some 1) nodeChild
def bodyNparent (h : Hdr) (d a : BitVec 5) : Body := alu1 h d a (some 1) nodeParent
def bodyNlevel (h : Hdr) (d a : BitVec 5) : Body := alu1 h d a (some 1) nodeLevel
def bodyNlvlbase (h : Hdr) (d a : BitVec 5) : Body := alu1 h d a (some 1) nodeBase
def bodyNleaf (h : Hdr) (d a b : BitVec 5) : Body := alu2 h d a b (some 1) nodeLeaf

/-! ## Execution: each instruction issued by itself -/

def execIll (s : State) : Out := .next (issue .ill bodyIll s)
def execNop (h : Hdr) (s : State) : Out := .next (issue (.nop h) (bodyNop h) s)
def execAdd (h : Hdr) (d a b : BitVec 5) (s : State) : Out := .next (issue (.add h d a b) (bodyAdd h d a b) s)
def execSub (h : Hdr) (d a b : BitVec 5) (s : State) : Out := .next (issue (.sub h d a b) (bodySub h d a b) s)
def execMul (h : Hdr) (d a b : BitVec 5) (s : State) : Out := .next (issue (.mul h d a b) (bodyMul h d a b) s)
def execMulh (h : Hdr) (d a b : BitVec 5) (s : State) : Out := .next (issue (.mulh h d a b) (bodyMulh h d a b) s)
def execMulhu (h : Hdr) (d a b : BitVec 5) (s : State) : Out := .next (issue (.mulhu h d a b) (bodyMulhu h d a b) s)
def execDiv (h : Hdr) (d a b : BitVec 5) (s : State) : Out := .next (issue (.div h d a b) (bodyDiv h d a b) s)
def execDivu (h : Hdr) (d a b : BitVec 5) (s : State) : Out := .next (issue (.divu h d a b) (bodyDivu h d a b) s)
def execRem (h : Hdr) (d a b : BitVec 5) (s : State) : Out := .next (issue (.rem h d a b) (bodyRem h d a b) s)
def execRemu (h : Hdr) (d a b : BitVec 5) (s : State) : Out := .next (issue (.remu h d a b) (bodyRemu h d a b) s)
def execAnd (h : Hdr) (d a b : BitVec 5) (s : State) : Out := .next (issue (.and h d a b) (bodyAnd h d a b) s)
def execOr (h : Hdr) (d a b : BitVec 5) (s : State) : Out := .next (issue (.or h d a b) (bodyOr h d a b) s)
def execXor (h : Hdr) (d a b : BitVec 5) (s : State) : Out := .next (issue (.xor h d a b) (bodyXor h d a b) s)
def execAndn (h : Hdr) (d a b : BitVec 5) (s : State) : Out := .next (issue (.andn h d a b) (bodyAndn h d a b) s)
def execShl (h : Hdr) (d a b : BitVec 5) (s : State) : Out := .next (issue (.shl h d a b) (bodyShl h d a b) s)
def execShr (h : Hdr) (d a b : BitVec 5) (s : State) : Out := .next (issue (.shr h d a b) (bodyShr h d a b) s)
def execSar (h : Hdr) (d a b : BitVec 5) (s : State) : Out := .next (issue (.sar h d a b) (bodySar h d a b) s)
def execRotr (h : Hdr) (d a b : BitVec 5) (s : State) : Out := .next (issue (.rotr h d a b) (bodyRotr h d a b) s)
def execClz (h : Hdr) (d a : BitVec 5) (s : State) : Out := .next (issue (.clz h d a) (bodyClz h d a) s)
def execCtz (h : Hdr) (d a : BitVec 5) (s : State) : Out := .next (issue (.ctz h d a) (bodyCtz h d a) s)
def execPopc (h : Hdr) (d a : BitVec 5) (s : State) : Out := .next (issue (.popc h d a) (bodyPopc h d a) s)
def execMin (h : Hdr) (d a b : BitVec 5) (s : State) : Out := .next (issue (.min h d a b) (bodyMin h d a b) s)
def execMax (h : Hdr) (d a b : BitVec 5) (s : State) : Out := .next (issue (.max h d a b) (bodyMax h d a b) s)
def execMinu (h : Hdr) (d a b : BitVec 5) (s : State) : Out := .next (issue (.minu h d a b) (bodyMinu h d a b) s)
def execMaxu (h : Hdr) (d a b : BitVec 5) (s : State) : Out := .next (issue (.maxu h d a b) (bodyMaxu h d a b) s)
def execMov (h : Hdr) (d a : BitVec 5) (s : State) : Out := .next (issue (.mov h d a) (bodyMov h d a) s)
def execBswap (h : Hdr) (d a : BitVec 5) (s : State) : Out := .next (issue (.bswap h d a) (bodyBswap h d a) s)
def execAddi (h : Hdr) (d a : BitVec 5) (imm : BitVec 48) (s : State) : Out :=
  .next (issue (.addi h d a imm) (bodyAddi h d a imm) s)
def execMuli (h : Hdr) (d a : BitVec 5) (imm : BitVec 48) (s : State) : Out :=
  .next (issue (.muli h d a imm) (bodyMuli h d a imm) s)
def execAndi (h : Hdr) (d a : BitVec 5) (imm : BitVec 48) (s : State) : Out :=
  .next (issue (.andi h d a imm) (bodyAndi h d a imm) s)
def execOri (h : Hdr) (d a : BitVec 5) (imm : BitVec 48) (s : State) : Out :=
  .next (issue (.ori h d a imm) (bodyOri h d a imm) s)
def execXori (h : Hdr) (d a : BitVec 5) (imm : BitVec 48) (s : State) : Out :=
  .next (issue (.xori h d a imm) (bodyXori h d a imm) s)
def execShli (h : Hdr) (d a : BitVec 5) (n : BitVec 6) (s : State) : Out :=
  .next (issue (.shli h d a n) (bodyShli h d a n) s)
def execShri (h : Hdr) (d a : BitVec 5) (n : BitVec 6) (s : State) : Out :=
  .next (issue (.shri h d a n) (bodyShri h d a n) s)
def execSari (h : Hdr) (d a : BitVec 5) (n : BitVec 6) (s : State) : Out :=
  .next (issue (.sari h d a n) (bodySari h d a n) s)
def execMovi (h : Hdr) (d : BitVec 5) (imm : BitVec 48) (s : State) : Out :=
  .next (issue (.movi h d imm) (bodyMovi h d imm) s)
def execMovhi (h : Hdr) (d a : BitVec 5) (imm : BitVec 16) (s : State) : Out :=
  .next (issue (.movhi h d a imm) (bodyMovhi h d a imm) s)
def execExtr (h : Hdr) (d a : BitVec 5) (pos len : BitVec 6) (sx : Bool) (s : State) : Out :=
  .next (issue (.extr h d a pos len sx) (bodyExtr h d a pos len sx) s)
def execInsr (h : Hdr) (d a b : BitVec 5) (pos len : BitVec 6) (s : State) : Out :=
  .next (issue (.insr h d a b pos len) (bodyInsr h d a b pos len) s)
def execLea (h : Hdr) (d a b : BitVec 5) (sc : BitVec 3) (imm : BitVec 48) (s : State) : Out :=
  .next (issue (.lea h d a b sc imm) (bodyLea h d a b sc imm) s)
def execSel (h : Hdr) (d a b : BitVec 5) (p : BitVec 4) (s : State) : Out :=
  .next (issue (.sel h d a b p) (bodySel h d a b p) s)
def execCmp (h : Hdr) (pd : BitVec 4) (a b : BitVec 5) (cond : BitVec 4) (s : State) : Out :=
  .next (issue (.cmp h pd a b cond) (bodyCmp h pd a b cond) s)
def execCmpi (h : Hdr) (pd : BitVec 4) (a : BitVec 5) (cond : BitVec 4) (imm : BitVec 48) (s : State) : Out :=
  .next (issue (.cmpi h pd a cond imm) (bodyCmpi h pd a cond imm) s)
def execPlog (h : Hdr) (pd pa pb tab : BitVec 4) (s : State) : Out :=
  .next (issue (.plog h pd pa pb tab) (bodyPlog h pd pa pb tab) s)
def execPget (h : Hdr) (d : BitVec 5) (s : State) : Out := .next (issue (.pget h d) (bodyPget h d) s)
def execPset (h : Hdr) (a : BitVec 5) (s : State) : Out := .next (issue (.pset h a) (bodyPset h a) s)
def execNchild (h : Hdr) (d a b : BitVec 5) (s : State) : Out := .next (issue (.nchild h d a b) (bodyNchild h d a b) s)
def execNparent (h : Hdr) (d a : BitVec 5) (s : State) : Out := .next (issue (.nparent h d a) (bodyNparent h d a) s)
def execNlevel (h : Hdr) (d a : BitVec 5) (s : State) : Out := .next (issue (.nlevel h d a) (bodyNlevel h d a) s)
def execNlvlbase (h : Hdr) (d a : BitVec 5) (s : State) : Out := .next (issue (.nlvlbase h d a) (bodyNlvlbase h d a) s)
def execNleaf (h : Hdr) (d a b : BitVec 5) (s : State) : Out := .next (issue (.nleaf h d a b) (bodyNleaf h d a b) s)

end Sys2Proof.Machine
end

