-- ==== Sys2Proof/Machine/FloatOps.lean ====
section
/-! DEFINITION. Scalar floating point (R327, R338 to R344). -/

namespace Sys2Proof.Machine

/-- Two operands of a type, rounded by the mode of the instruction's field. -/
def fp2 (h : Hdr) (d a b : BitVec 5) (ty rm : BitVec 3) (lat : Option Nat) (f : Fmt → Mode → Nat → Nat → Res) : Body :=
  Body.mk' h .other [.a a, .b b] [.g d]
    (effG lat d fun o => fres (f (fmtOf ty.toNat) (fmode rm o) o.a.toNat o.b.toNat))

/-- Two operands of a type, without rounding. -/
def fpSel (h : Hdr) (d a b : BitVec 5) (ty : BitVec 3) (f : Fmt → Nat → Nat → Res) : Body :=
  Body.mk' h .other [.a a, .b b] [.g d]
    (effG (some 2) d fun o => fres (f (fmtOf ty.toNat) (cutTo ty o.a) (cutTo ty o.b)))
where
  /-- The bits that the type reads. -/
  cutTo (ty : BitVec 3) (x : Word) : Nat := x.toNat % 2 ^ (fmtOf ty.toNat).width

def bodyFadd (h : Hdr) (d a b : BitVec 5) (ty rm : BitVec 3) : Body := fp2 h d a b ty rm (some 2) addF
def bodyFsub (h : Hdr) (d a b : BitVec 5) (ty rm : BitVec 3) : Body := fp2 h d a b ty rm (some 2) subF
def bodyFmul (h : Hdr) (d a b : BitVec 5) (ty rm : BitVec 3) : Body := fp2 h d a b ty rm (some 2) mulF
def bodyFfma (h : Hdr) (d a b c : BitVec 5) (ty rm : BitVec 3) : Body :=
  Body.mk' h .other [.a a, .b b, .c c] [.g d]
    (effG (some 2) d fun o => fres (fmaF (fmtOf ty.toNat) (fmode rm o) false o.a.toNat o.b.toNat o.c.toNat))
def bodyFdiv (h : Hdr) (d a b : BitVec 5) (ty rm : BitVec 3) : Body :=
  Body.mk' h .other [.a a, .b b] [.g d] (effFp true d fun o => fres (divF (fmtOf ty.toNat) (fmode rm o) o.a.toNat o.b.toNat))
def bodyFsqrt (h : Hdr) (d a : BitVec 5) (ty rm : BitVec 3) : Body :=
  Body.mk' h .other [.a a] [.g d] (effFp true d fun o => fres (sqrtF (fmtOf ty.toNat) (fmode rm o) o.a.toNat))
def bodyFmin (h : Hdr) (d a b : BitVec 5) (ty : BitVec 3) : Body := fpSel h d a b ty fun f x y => minmaxF f false x y
def bodyFmax (h : Hdr) (d a b : BitVec 5) (ty : BitVec 3) : Body := fpSel h d a b ty fun f x y => minmaxF f true x y
def bodyFcmp (h : Hdr) (pd : BitVec 4) (a b : BitVec 5) (ty : BitVec 3) (cond : BitVec 4) : Body :=
  Body.mk' h .other [.a a, .b b] [.p pd]
    (effP 2 pd fun o => fcmpF (fmtOf ty.toNat) cond.toNat o.a.toNat o.b.toNat)

/-- A converted value in a register: an I32 result is sign-extended (R341). -/
def cvtPlace (dt : BitVec 3) (r : Res) : Word × BitVec 5 := (if dt = 5 then sext r.1 32 else word r.1, r.2)

def bodyFcvt (h : Hdr) (d a : BitVec 5) (st dt rm : BitVec 3) : Body :=
  Body.mk' h .other [.a a] [.g d]
    (effG (some 2) d fun o => cvtPlace dt (convF st.toNat dt.toNat (fmode rm o) o.a.toNat))
def bodyFclass (h : Hdr) (d a : BitVec 5) (ty : BitVec 3) : Body :=
  Body.mk' h .other [.a a] [.g d] (effG (some 2) d fun o => (word (classF (fmtOf ty.toNat) o.a.toNat), 0))
def bodyFsgn (h : Hdr) (d a b : BitVec 5) (ty : BitVec 3) : Body := fpSel h d a b ty fun f x y => signF f 0 x y
def bodyFsgnn (h : Hdr) (d a b : BitVec 5) (ty : BitVec 3) : Body := fpSel h d a b ty fun f x y => signF f 1 x y
def bodyFsgnx (h : Hdr) (d a b : BitVec 5) (ty : BitVec 3) : Body := fpSel h d a b ty fun f x y => signF f 2 x y

/-- R344: an FP64 literal lies in bits 63:16. -/
def bodyFmovi (h : Hdr) (d : BitVec 5) (ty : BitVec 3) (imm : BitVec 48) : Body :=
  Body.mk' h .other [] [.g d]
    (effG (some 2) d fun _ => (if ty = 0 then imm.setWidth 64 <<< 16 else imm.setWidth 64, 0))

/-! ## Execution: each instruction issued by itself -/

def execFadd (h : Hdr) (d a b : BitVec 5) (ty rm : BitVec 3) (s : State) : Out :=
  .next (issue (.fadd h d a b ty rm) (bodyFadd h d a b ty rm) s)
def execFsub (h : Hdr) (d a b : BitVec 5) (ty rm : BitVec 3) (s : State) : Out :=
  .next (issue (.fsub h d a b ty rm) (bodyFsub h d a b ty rm) s)
def execFmul (h : Hdr) (d a b : BitVec 5) (ty rm : BitVec 3) (s : State) : Out :=
  .next (issue (.fmul h d a b ty rm) (bodyFmul h d a b ty rm) s)
def execFfma (h : Hdr) (d a b c : BitVec 5) (ty rm : BitVec 3) (s : State) : Out :=
  .next (issue (.ffma h d a b c ty rm) (bodyFfma h d a b c ty rm) s)
def execFdiv (h : Hdr) (d a b : BitVec 5) (ty rm : BitVec 3) (s : State) : Out :=
  .next (issue (.fdiv h d a b ty rm) (bodyFdiv h d a b ty rm) s)
def execFsqrt (h : Hdr) (d a : BitVec 5) (ty rm : BitVec 3) (s : State) : Out :=
  .next (issue (.fsqrt h d a ty rm) (bodyFsqrt h d a ty rm) s)
def execFmin (h : Hdr) (d a b : BitVec 5) (ty : BitVec 3) (s : State) : Out :=
  .next (issue (.fmin h d a b ty) (bodyFmin h d a b ty) s)
def execFmax (h : Hdr) (d a b : BitVec 5) (ty : BitVec 3) (s : State) : Out :=
  .next (issue (.fmax h d a b ty) (bodyFmax h d a b ty) s)
def execFcmp (h : Hdr) (pd : BitVec 4) (a b : BitVec 5) (ty : BitVec 3) (cond : BitVec 4) (s : State) : Out :=
  .next (issue (.fcmp h pd a b ty cond) (bodyFcmp h pd a b ty cond) s)
def execFcvt (h : Hdr) (d a : BitVec 5) (st dt rm : BitVec 3) (s : State) : Out :=
  .next (issue (.fcvt h d a st dt rm) (bodyFcvt h d a st dt rm) s)
def execFclass (h : Hdr) (d a : BitVec 5) (ty : BitVec 3) (s : State) : Out :=
  .next (issue (.fclass h d a ty) (bodyFclass h d a ty) s)
def execFsgn (h : Hdr) (d a b : BitVec 5) (ty : BitVec 3) (s : State) : Out :=
  .next (issue (.fsgn h d a b ty) (bodyFsgn h d a b ty) s)
def execFsgnn (h : Hdr) (d a b : BitVec 5) (ty : BitVec 3) (s : State) : Out :=
  .next (issue (.fsgnn h d a b ty) (bodyFsgnn h d a b ty) s)
def execFsgnx (h : Hdr) (d a b : BitVec 5) (ty : BitVec 3) (s : State) : Out :=
  .next (issue (.fsgnx h d a b ty) (bodyFsgnx h d a b ty) s)
def execFmovi (h : Hdr) (d : BitVec 5) (ty : BitVec 3) (imm : BitVec 48) (s : State) : Out :=
  .next (issue (.fmovi h d ty imm) (bodyFmovi h d ty imm) s)

end Sys2Proof.Machine
end

