-- ==== Sys2Proof/Machine/LoadStore.lean ====
section
/-! DEFINITION. Loads, stores, gathers, scatters, atomics and weight-store loads (R380 to R391). -/

namespace Sys2Proof.Machine

/-! ## The access procedure (R380) -/

/-- The address of a memory form: A + (B << SCALE) + offset (R382). -/
def memAddr (o : Ops) (sc : BitVec 3) (imm : BitVec 48) : Word := o.a + (o.b <<< sc.toNat) + imm48 imm

/-- The context-logical number of a physical core: the inverse of the core table (R107). (DEDUCED, log entry 48.) -/
def State.p2l (s : State) (ctx core : Nat) : Nat :=
  match s.ctx? ctx with
  | some c => match c.l2p.find? fun e => e.2 = core with | some e => e.1 | none => core
  | none => core

/-- Migration of a light thread (R165): MIGDOM for a home outside the crew's rectangle; otherwise it waits for its results,
and then for its admission at the home core, where it goes on at `pc`. -/
def migrate (s : State) (home : Nat) (va pc : Word) : Eff :=
  match s.myCrew with
  | none => .gone s
  | some c =>
    match c.indexOf home with
    | none => .trap s 0x0A va (word (s.p2l c.ctx home))
    | some i => if s.me.pend.isEmpty then .gone (parkMe s .migrate (i + 1) [] (some pc)) else .wait s .migrate 0

/-- An access of n bytes: `k` performs it at its address. -/
def access (s : State) (va : Word) (n : Nat) (acc : Acc) (atomic : Bool) (k : State → Xl → Eff) : Eff :=
  if va.toNat % n ≠ 0 then .trap s MISALIGN va 0
  else match threadAccess s va n acc (!atomic) with
    | (s, .trap c a) => .trap s c va (word a)
    | (s, .wait) => .wait s .memory 0
    | (s, .migrate h) => migrate s h va s.me.pc
    | (s, .ok x) => k s x

/-- A write to host memory counts as not yet acknowledged (R219). -/
def ackOut (s : State) (pa : Nat) : State :=
  match kindOf pa with | .host => s.modMe fun t => { t with unacked := t.unacked + 1 } | _ => s

/-- Perform the issuing thread's write; it waits for a seal where there is no room to log it or to hold it back. -/
def putBytes (s : State) (x : Xl) (bs : List Byte) (k : State → Eff) : Eff :=
  match storeLine s s.myCtx (dieOf s.curCore) x.pa x.pte bs with
  | none => .wait (s.wantSeal s.myCtx) .memory 0
  | some s => k (ackOut s x.pa)

/-- The bytes of an access, as a number. -/
def rdX (s : State) (x : Xl) (n : Nat) : Nat := s.read (dieOf s.curCore) x.pa n

/-- A loaded value in a register: zero- or sign-extended (R384). -/
def loadExt (v n : Nat) (sx : Bool) : Word := if sx then sext v (8 * n) else word v

/-- The bytes of an access of size code SZ. -/
def szBytes (sz : BitVec 2) : Nat := 2 ^ sz.toNat

/-! ## Scalar loads and stores -/

/-- The effect of a load into D, after which a stream or queue destination takes the value. -/
def loadEff (d : BitVec 5) (va : Word) (n : Nat) (sx : Bool) (s : State) : Eff :=
  loading s d fun s => access s va n .read false fun s x => giveLoaded s d (loadExt (rdX s x n) n sx) 0

def bodyLd (h : Hdr) (d a b : BitVec 5) (sz : BitVec 2) (sx : Bool) (sc : BitVec 3) (imm : BitVec 48) : Body :=
  Body.mk' h .memory [.a a, .b b] [.g d] fun o s => loadEff d (memAddr o sc imm) (szBytes sz) sx s

def bodySt (h : Hdr) (d a b : BitVec 5) (sz : BitVec 2) (sc : BitVec 3) (imm : BitVec 48) : Body :=
  Body.mk' h .memory [.a a, .b b, .d d] [] fun o s =>
    access s (memAddr o sc imm) (szBytes sz) .write false fun s x =>
      putBytes s x (bytesOf o.d.toNat (szBytes sz)) fun s => .done s

/-- The full bit of a general specifier 0–22 as it stands, and the thread with another one. -/
def Thread.fullG (t : Thread) (r : Nat) : Bool := if t.isY r then bit t.yfull (r - 10) else t.isFull r
def Thread.setFullNow (t : Thread) (r : Nat) (b : Bool) : Thread :=
  if t.isY r then { t with yfull := setFld t.yfull (r - 10) 1 (b2n b) } else t.setFull r b

/-- A light thread names D of LDX and STX in 0 to 8 only, also inside a notify handler (R385); the specifiers of A and B come first. -/
def pairLight (d a b : BitVec 5) (s : State) : Option Stop :=
  if s.me.light && s.me.notify && 10 ≤ d.toNat && d.toNat ≤ 12 && !s.me.lightBad a.toNat && !s.me.lightBad b.toNat then
    some (.trap 5 LIGHTREG s.me.pc (word d.toNat) none)
  else none

/-- What an LDX that has been issued leaves of its two registers: empty while it waits, and as they were where it traps or leaves to be
issued again (R380, R385). `o` holds their full bits at issue. -/
def ldxRegs (d : BitVec 5) (o : Ops) (e : Eff) : Eff :=
  let back (s : State) : State := s.modMe fun t => (t.setFullNow d.toNat o.pa).setFullNow (d.toNat + 1) o.pb
  match e with
  | .wait s why key => .wait (s.modMe fun t => (t.setFullNow d.toNat false).setFullNow (d.toNat + 1) false) why key
  | .trap s c a x => .trap (back s) c a x
  | .gone s => .gone (back s)
  | e => e

/-- R385: the lower dword belongs to D, the upper to D + 1; both registers fill together. -/
def bodyLdx (h : Hdr) (d a b : BitVec 5) (sc : BitVec 3) (imm : BitVec 48) : Body :=
  { Body.mk' h .memory [.a a, .b b] [.g d, .g (d + 1)] (fun o s =>
      ldxRegs d o (access s (memAddr o sc imm) 16 .read false fun s x =>
        let v := rdX s x 16
        .done (s.modMe fun t => t.result (some 1) [t.destG d (word v), t.destG (d + 1) (word (v / 2 ^ 64))] 0))) with
    priv := pairLight d a b
    fill := fun o s => { o with pa := s.me.fullG d.toNat, pb := s.me.fullG (d.toNat + 1) } }

def bodyStx (h : Hdr) (d a b : BitVec 5) (sc : BitVec 3) (imm : BitVec 48) : Body :=
  { Body.mk' h .memory [.a a, .b b, .d d, .c (d + 1)] [] (fun o s =>
      access s (memAddr o sc imm) 16 .write false fun s x =>
        putBytes s x (bytesOf o.d.toNat 8 ++ bytesOf o.c.toNat 8) fun s => .done s) with
    priv := pairLight d a b }

/-! ## Vector loads and stores -/

/-- Lane width of SZ in bits. -/
def szLane (sz : BitVec 2) : Nat := 8 * szBytes sz

/-- Lanes taken from a new value where they are active, from an old one elsewhere. -/
def mergeLanes (w : Nat) (m : Mask) (old new : Vec) : Vec :=
  ofLanes 512 w ((span 0 (512 / w)).map fun i => if laneOn w m i then lane new w i else lane old w i)

/-- The sources of a masked vector form: mask, then the operands, then D when MASK is not 0 (R355). -/
def maskedSrcs (mk : BitVec 3) (ops : List Src) (vd : BitVec 4) (keep : Bool) : List Src :=
  .ma mk :: ops ++ (if keep && mk ≠ 0 then [.vd vd] else [])

/-- A body that a light thread may not issue. -/
def Body.heavy (b : Body) : Body := { b with light := false }

/-- R386: one access of the 64-byte block; with no active lane nothing is performed. -/
def loadVec (vd : BitVec 4) (sz : BitVec 2) (va : Word) (o : Ops) (s : State)
    (acc : State → (State → Xl → Eff) → Eff) : Eff :=
  if activeCount (szLane sz) o.ma = 0 then
    .done (s.modMe fun t => t.result (some 1) [.v vd o.vd] 0)
  else acc s fun s x =>
    .done (s.modMe fun t => t.result (some 1) [.v vd (mergeLanes (szLane sz) o.ma o.vd (BitVec.ofNat 512 (rdX s x 64)))] 0)

def bodyLdv (h : Hdr) (vd : BitVec 4) (a b : BitVec 5) (sz : BitVec 2) (mk sc : BitVec 3) (imm : BitVec 48) : Body :=
  (Body.mk' h .memory (maskedSrcs mk [.a a, .b b] vd true) [.v vd] fun o s =>
    loadVec vd sz (memAddr o sc imm) o s fun s k => access s (memAddr o sc imm) 64 .read false k).heavy

/-- The bytes of the active lanes, lane by lane, of one block. -/
def putLanes (s : State) (x : Xl) (w : Nat) (v : Vec) : List Nat → Option State
  | [] => some s
  | i :: r =>
    match storeLine s s.myCtx (dieOf s.curCore) (x.pa + i * (w / 8)) x.pte (bytesOf (lane v w i) (w / 8)) with
    | none => none
    | some s => putLanes s x w v r

def bodyStv (h : Hdr) (vd : BitVec 4) (a b : BitVec 5) (sz : BitVec 2) (mk sc : BitVec 3) (imm : BitVec 48) : Body :=
  (Body.mk' h .memory [.ma mk, .a a, .b b, .vd vd] [] fun o s =>
    let w := szLane sz
    if activeCount w o.ma = 0 then .done s
    else access s (memAddr o sc imm) 64 .write false fun s x =>
      if activeCount w o.ma = 512 / w then putBytes s x (bytesOf o.vd.toNat 64) fun s => .done s
      else match putLanes s x w o.vd (activeLanes w o.ma) with
        | none => .wait (s.wantSeal s.myCtx) .memory 0
        | some s => .done (ackOut s x.pa)).heavy

/-! ## Gather and scatter (R387) -/

/-- The address of lane i. -/
def gatherVA (o : Ops) (w : Nat) (sx : Bool) (sc : BitVec 3) (imm : BitVec 48) (i : Nat) : Word :=
  let x := lane o.vb w i
  o.a + ((if sx then sext x w else word x) <<< sc.toNat) + imm48 imm

/-- The answer of one lane's access. -/
def laneAccess (s : State) (va : Word) (n i : Nat) (acc : Acc) : State × (Xl ⊕ Eff) :=
  if va.toNat % n ≠ 0 then (s, .inr (.trap s MISALIGN va (word (i * 65536))))
  else match threadAccess s va n acc true with
    | (s, .trap c a) => (s, .inr (.trap s c va (word (a + i * 65536))))
    | (s, .ok x) => (s, .inl x)
    | (s, _) => (s, .inr (.wait s .memory 0))

/-- Lanes that this try may perform: as many as the agenda's next entry says, else all that are left. -/
def laneBudget (s : State) (n : Nat) : State × Nat :=
  match s.agenda with | .part k :: r => ({ s with agenda := r }, k) | _ => (s, n)

/-- Lanes in rising order from the first not performed. A lane that waits, or that is left for another try, leaves those before it
performed, and their number and what they read with the thread; a lane that traps leaves them performed (R387). -/
def laneSteps (one : State → Nat → Vec → (State × Vec) ⊕ Eff) (budget : Nat) : List Nat → State → Nat → Vec → (State × Vec) ⊕ Eff
  | [], s, _, v => .inl (s.modMe fun t => { t with lanes := none }, v)
  | i :: r, s, k, v =>
    let keep (s : State) : State := s.modMe fun t => { t with lanes := some (k, v) }
    match budget with
    | 0 => .inr (.wait (keep s) .memory 0)
    | b + 1 => match one s i v with
      | .inl (s, v) => laneSteps one b r s (k + 1) v
      | .inr (.wait s why key) => .inr (.wait (keep s) why key)
      | .inr e => .inr e

/-- Every active lane of an instruction whose thread may have performed some already. (DEDUCED, log entry 47.) -/
def laneRun (one : State → Nat → Vec → (State × Vec) ⊕ Eff) (l : List Nat) (v : Vec) (s : State) : (State × Vec) ⊕ Eff :=
  let (s, b) := laneBudget s l.length
  let (k, v) := s.me.lanes.getD (0, v)
  laneSteps one b (l.drop k) s k v

/-- Units of a gather or scatter: one per active lane, at least one (R382). -/
def laneUnits (sz : BitVec 2) (o : Ops) (_ : State) : Nat := max 1 (activeCount (szLane sz) o.ma)

/-- Lane i of a gather. -/
def gathLane (o : Ops) (w : Nat) (sx : Bool) (sc : BitVec 3) (imm : BitVec 48) (s : State) (i : Nat) (v : Vec) : (State × Vec) ⊕ Eff :=
  match laneAccess s (gatherVA o w sx sc imm i) (w / 8) i .read with
  | (_, .inr e) => .inr e
  | (s, .inl x) => .inl (s, setFld v (i * w) w (rdX s x (w / 8)))

def bodyGath (h : Hdr) (vd : BitVec 4) (a : BitVec 5) (vb : BitVec 4) (sz : BitVec 2) (sx : Bool) (mk sc : BitVec 3)
    (imm : BitVec 48) : Body :=
  { (Body.mk' h .memory (maskedSrcs mk [.a a, .vb vb] vd true) [.v vd] fun o s =>
      let w := szLane sz
      match laneRun (gathLane o w sx sc imm) (activeLanes w o.ma) o.vd s with
      | .inr e => e
      | .inl (s, v) => .done (s.modMe fun t => t.result (some 1) [.v vd v] 0)) with
    light := false, units := laneUnits sz }

/-- Lane i of a scatter. -/
def scatLane (o : Ops) (w : Nat) (sc : BitVec 3) (imm : BitVec 48) (s : State) (i : Nat) (v : Vec) : (State × Vec) ⊕ Eff :=
  match laneAccess s (gatherVA o w false sc imm i) (w / 8) i .write with
  | (_, .inr e) => .inr e
  | (s, .inl x) =>
    match storeLine s s.myCtx (dieOf s.curCore) x.pa x.pte (bytesOf (lane o.vd w i) (w / 8)) with
    | none => .inr (.wait (s.wantSeal s.myCtx) .memory 0)
    | some s => .inl (ackOut s x.pa, v)

def bodyScat (h : Hdr) (vd : BitVec 4) (a : BitVec 5) (vb : BitVec 4) (sz : BitVec 2) (mk sc : BitVec 3) (imm : BitVec 48) :
    Body :=
  { (Body.mk' h .memory [.ma mk, .a a, .vb vb, .vd vd] [] fun o s =>
      match laneRun (scatLane o (szLane sz) sc imm) (activeLanes (szLane sz) o.ma) 0 s with
      | .inr e => e
      | .inl (s, _) => .done s) with
    light := false, units := laneUnits sz }

/-! ## Atomics (R388 to R390) -/

/-- An atomic of size code SZ: `f` gives the new value from the old, none for no change of bytes, and the flags. -/
def atomicEff (d : BitVec 5) (sz : BitVec 2) (sx : Bool) (va : Word) (f : Nat → Option Nat × BitVec 5) (s : State) : Eff :=
  loading s d fun s => access s va (szBytes sz) .write true fun s x =>
    let v := rdX s x (szBytes sz)
    let r := f v
    putBytes s x (bytesOf (r.1.getD v) (szBytes sz)) fun s => giveLoaded s d (loadExt v (szBytes sz) sx) r.2

/-- The integer atomics of Table 17.3. -/
def atomicBody (h : Hdr) (d a b : BitVec 5) (sz : BitVec 2) (sx : Bool) (imm : BitVec 48) (f : Nat → Nat → Nat → Nat) : Body :=
  Body.mk' h .memory [.a a, .b b] [.g d] fun o s =>
    let w := 8 * szBytes sz
    atomicEff d sz sx (o.a + imm48 imm) (fun v => (some (f w v (o.b.toNat % 2 ^ w)), 0)) s

/-- Whether v ≤ b, signed when SX = 1. -/
def leqBy (sx : Bool) (w v b : Nat) : Bool := if sx then sint v w ≤ sint b w else v ≤ b

def bodyAadd (h : Hdr) (d a b : BitVec 5) (sz : BitVec 2) (sx : Bool) (imm : BitVec 48) : Body :=
  atomicBody h d a b sz sx imm fun _ v b => v + b
def bodyAand (h : Hdr) (d a b : BitVec 5) (sz : BitVec 2) (sx : Bool) (imm : BitVec 48) : Body :=
  atomicBody h d a b sz sx imm fun _ v b => v &&& b
def bodyAor (h : Hdr) (d a b : BitVec 5) (sz : BitVec 2) (sx : Bool) (imm : BitVec 48) : Body :=
  atomicBody h d a b sz sx imm fun _ v b => v ||| b
def bodyAxor (h : Hdr) (d a b : BitVec 5) (sz : BitVec 2) (sx : Bool) (imm : BitVec 48) : Body :=
  atomicBody h d a b sz sx imm fun _ v b => v ^^^ b
def bodyAmin (h : Hdr) (d a b : BitVec 5) (sz : BitVec 2) (sx : Bool) (imm : BitVec 48) : Body :=
  atomicBody h d a b sz sx imm fun w v b => if leqBy sx w v b then v else b
def bodyAmax (h : Hdr) (d a b : BitVec 5) (sz : BitVec 2) (sx : Bool) (imm : BitVec 48) : Body :=
  atomicBody h d a b sz sx imm fun w v b => if leqBy sx w v b then b else v
def bodyAxch (h : Hdr) (d a b : BitVec 5) (sz : BitVec 2) (sx : Bool) (imm : BitVec 48) : Body :=
  atomicBody h d a b sz sx imm fun _ _ b => b

/-- R389: a comparison that fails is still a write, which changes no byte. -/
def bodyAcas (h : Hdr) (d a b c : BitVec 5) (sz : BitVec 2) (sx : Bool) (imm : BitVec 48) : Body :=
  Body.mk' h .memory [.a a, .b b, .c c] [.g d] fun o s =>
    let w := 8 * szBytes sz
    atomicEff d sz sx (o.a + imm48 imm) (fun v => (if v = o.b.toNat % 2 ^ w then some o.c.toNat else none, 0)) s

/-- R390: the old encoding returns; the flags of the one rounding are set when the thread resumes. -/
def bodyAfadd (h : Hdr) (d a b : BitVec 5) (sz : BitVec 2) (rm : BitVec 3) (imm : BitVec 48) : Body :=
  Body.mk' h .memory [.a a, .b b] [.g d] fun o s =>
    let f := fmtOf (if sz = 3 then 0 else 1)
    atomicEff d sz false (o.a + imm48 imm)
      (fun v => let r := addF f (fmode rm o) v (o.b.toNat % 2 ^ f.width); (some r.1, r.2)) s

/-! ## Weight-store loads (R391) -/

/-- An access through the weight port: PAGEF code 3 where the address is no weight-store address. -/
def weightAccess (s : State) (va : Word) (n : Nat) (k : State → Xl → Eff) : Eff :=
  if va.toNat % n ≠ 0 then .trap s MISALIGN va 0
  else
    let (s, r) := translate s s.curCore s.myCtx s.me.user true va .read
    match r with
    | .flt c a => .trap s c va (word a)
    | .wait => .wait s .memory 0
    | .ok x =>
      match kindOf x.pa with
      | .ws o =>
        match wsReadCheck s s.myCtx (dieOf s.curCore) o x.lvl with
        | some (c, a) => .trap s c va (word a)
        | none =>
          if fenced s s.myCtx (dieOf s.curCore) x.pa x.pte then .wait s .memory 0
          else if s.poisoned (dieOf s.curCore) x.pa n then
            (if s.ckpts s.myCtx then .wait s .memory 0 else .trap s UNCORR va 0)
          else match s.wsDelay s.curCore s.meReader x.pa n with
            | some s => .wait s .memory 0
            | none => k s x
      | _ => .trap s PAGEF va (word (xaux 3 x.lvl))

def bodyLdw (h : Hdr) (d a b : BitVec 5) (sz : BitVec 2) (sx : Bool) (sc : BitVec 3) (imm : BitVec 48) : Body :=
  Body.mk' h .memory [.a a, .b b] [.g d] fun o s =>
    loading s d fun s => weightAccess s (memAddr o sc imm) (szBytes sz) fun s x =>
      giveLoaded s d (loadExt (rdX s x (szBytes sz)) (szBytes sz) sx) 0

def bodyLdvw (h : Hdr) (vd : BitVec 4) (a b : BitVec 5) (sz : BitVec 2) (mk sc : BitVec 3) (imm : BitVec 48) : Body :=
  (Body.mk' h .memory (maskedSrcs mk [.a a, .b b] vd true) [.v vd] fun o s =>
    loadVec vd sz (memAddr o sc imm) o s fun s k => weightAccess s (memAddr o sc imm) 64 k).heavy

/-! ## Execution: each instruction issued by itself -/

def execLd (h : Hdr) (d a b : BitVec 5) (sz : BitVec 2) (sx : Bool) (sc : BitVec 3) (imm : BitVec 48) (s : State) : Out :=
  .next (issue (.ld h d a b sz sx sc imm) (bodyLd h d a b sz sx sc imm) s)
def execSt (h : Hdr) (d a b : BitVec 5) (sz : BitVec 2) (sc : BitVec 3) (imm : BitVec 48) (s : State) : Out :=
  .next (issue (.st h d a b sz sc imm) (bodySt h d a b sz sc imm) s)
def execLdx (h : Hdr) (d a b : BitVec 5) (sc : BitVec 3) (imm : BitVec 48) (s : State) : Out :=
  .next (issue (.ldx h d a b sc imm) (bodyLdx h d a b sc imm) s)
def execStx (h : Hdr) (d a b : BitVec 5) (sc : BitVec 3) (imm : BitVec 48) (s : State) : Out :=
  .next (issue (.stx h d a b sc imm) (bodyStx h d a b sc imm) s)
def execLdv (h : Hdr) (vd : BitVec 4) (a b : BitVec 5) (sz : BitVec 2) (mk sc : BitVec 3) (imm : BitVec 48) (s : State) : Out :=
  .next (issue (.ldv h vd a b sz mk sc imm) (bodyLdv h vd a b sz mk sc imm) s)
def execStv (h : Hdr) (vd : BitVec 4) (a b : BitVec 5) (sz : BitVec 2) (mk sc : BitVec 3) (imm : BitVec 48) (s : State) : Out :=
  .next (issue (.stv h vd a b sz mk sc imm) (bodyStv h vd a b sz mk sc imm) s)
def execGath (h : Hdr) (vd : BitVec 4) (a : BitVec 5) (vb : BitVec 4) (sz : BitVec 2) (sx : Bool) (mk sc : BitVec 3) (imm : BitVec 48) (s : State) : Out :=
  .next (issue (.gath h vd a vb sz sx mk sc imm) (bodyGath h vd a vb sz sx mk sc imm) s)
def execScat (h : Hdr) (vd : BitVec 4) (a : BitVec 5) (vb : BitVec 4) (sz : BitVec 2) (mk sc : BitVec 3) (imm : BitVec 48) (s : State) : Out :=
  .next (issue (.scat h vd a vb sz mk sc imm) (bodyScat h vd a vb sz mk sc imm) s)
def execAadd (h : Hdr) (d a b : BitVec 5) (sz : BitVec 2) (sx : Bool) (imm : BitVec 48) (s : State) : Out :=
  .next (issue (.aadd h d a b sz sx imm) (bodyAadd h d a b sz sx imm) s)
def execAand (h : Hdr) (d a b : BitVec 5) (sz : BitVec 2) (sx : Bool) (imm : BitVec 48) (s : State) : Out :=
  .next (issue (.aand h d a b sz sx imm) (bodyAand h d a b sz sx imm) s)
def execAor (h : Hdr) (d a b : BitVec 5) (sz : BitVec 2) (sx : Bool) (imm : BitVec 48) (s : State) : Out :=
  .next (issue (.aor h d a b sz sx imm) (bodyAor h d a b sz sx imm) s)
def execAxor (h : Hdr) (d a b : BitVec 5) (sz : BitVec 2) (sx : Bool) (imm : BitVec 48) (s : State) : Out :=
  .next (issue (.axor h d a b sz sx imm) (bodyAxor h d a b sz sx imm) s)
def execAmin (h : Hdr) (d a b : BitVec 5) (sz : BitVec 2) (sx : Bool) (imm : BitVec 48) (s : State) : Out :=
  .next (issue (.amin h d a b sz sx imm) (bodyAmin h d a b sz sx imm) s)
def execAmax (h : Hdr) (d a b : BitVec 5) (sz : BitVec 2) (sx : Bool) (imm : BitVec 48) (s : State) : Out :=
  .next (issue (.amax h d a b sz sx imm) (bodyAmax h d a b sz sx imm) s)
def execAxch (h : Hdr) (d a b : BitVec 5) (sz : BitVec 2) (sx : Bool) (imm : BitVec 48) (s : State) : Out :=
  .next (issue (.axch h d a b sz sx imm) (bodyAxch h d a b sz sx imm) s)
def execAcas (h : Hdr) (d a b c : BitVec 5) (sz : BitVec 2) (sx : Bool) (imm : BitVec 48) (s : State) : Out :=
  .next (issue (.acas h d a b c sz sx imm) (bodyAcas h d a b c sz sx imm) s)
def execAfadd (h : Hdr) (d a b : BitVec 5) (sz : BitVec 2) (rm : BitVec 3) (imm : BitVec 48) (s : State) : Out :=
  .next (issue (.afadd h d a b sz rm imm) (bodyAfadd h d a b sz rm imm) s)
def execLdw (h : Hdr) (d a b : BitVec 5) (sz : BitVec 2) (sx : Bool) (sc : BitVec 3) (imm : BitVec 48) (s : State) : Out :=
  .next (issue (.ldw h d a b sz sx sc imm) (bodyLdw h d a b sz sx sc imm) s)
def execLdvw (h : Hdr) (vd : BitVec 4) (a b : BitVec 5) (sz : BitVec 2) (mk sc : BitVec 3) (imm : BitVec 48) (s : State) : Out :=
  .next (issue (.ldvw h vd a b sz mk sc imm) (bodyLdvw h vd a b sz mk sc imm) s)

end Sys2Proof.Machine
end

