-- ==== Sys2Proof/Machine/Streams.lean ====
section
/-! DEFINITION. Streams and queue registers, register readiness, PUTR, MIGR and TMODE (R392 to R404). -/

namespace Sys2Proof.Machine

/-! ## Stream descriptors (R392, R393) -/

/-- Fields of a descriptor as integers. -/
def sdBase (d : BitVec 320) : Int := sint (fld d 0 48) 48
def sdN0 (d : BitVec 320) : Nat := fld d 64 32
def sdN1 (d : BitVec 320) : Nat := fld d 96 32
def sdS1 (d : BitVec 320) : Int := sint (fld d 128 48) 48
def sdS0 (d : BitVec 320) : Int := sint (fld d 176 16) 16
def sdIx (d : BitVec 320) : Int := sint (fld d 192 48) 48
def sdLim (d : BitVec 320) : Nat := if fld d 240 16 = 0 then 65536 else fld d 240 16
def sdIndexed (d : BitVec 320) : Bool := bit d 53
def sdIxBytes (d : BitVec 320) : Nat := 2 ^ fld d 54 1
def sdBytes (d : BitVec 320) : Nat := 2 ^ fld d 48 3

/-- A virtual address from an integer. -/
def vaOf (x : Int) : Word := word (ucut x 64)

/-- The address of row j / N0's index entry, and of element j when its row's index is r. -/
def sdEntryVA (d : BitVec 320) (row : Nat) : Word := vaOf (sdIx d + row * sdIxBytes d)
def sdElemVA (d : BitVec 320) (j r : Nat) : Word := vaOf (sdBase d + r * sdS1 d + (j % sdN0 d : Nat) * sdS0 d)

/-- The smallest range that covers every element address (R393): its first address and its bytes. -/
def sdSpan (d : BitVec 320) : Int × Nat :=
  let rows : Int := if sdIndexed d then sdLim d - 1 else sdN1 d - 1
  let cols : Int := sdN0 d - 1
  let lo := sdBase d + min 0 (rows * sdS1 d) + min 0 (cols * sdS0 d)
  let hi := sdBase d + max 0 (rows * sdS1 d) + max 0 (cols * sdS0 d) + sdBytes d
  (lo, (hi - lo).toNat)

/-- The checks of R394 on the fields: false is PARAM. -/
def sdFieldsOk (s : State) (d : BitVec 320) : Bool :=
  fld d 48 3 < 4 && sdN0 d ≠ 0 && sdN1 d ≠ 0 && sdN0 d * sdN1 d < 2 ^ 32 &&
  (!bit d 51 || (!bit d 52 && fld d 48 3 < 3)) && (!bit d 55 || bit d 52) &&
  (sdIndexed d || (fld d 192 48 = 0 && !bit d 54 && fld d 240 16 = 0)) &&
  (!bit d 55 || (barPA s s.curCore s.myCtx (tbVA (fld d 256 26))).isSome)

/-- Unaligned BASE, S0 or S1: MISALIGN at BASE. -/
def sdAligned (d : BitVec 320) : Bool :=
  sdBase d % sdBytes d = 0 && sdS0 d % sdBytes d = 0 && sdS1 d % sdBytes d = 0

/-! ## Ranges and their holds -/

/-- A range of virtual addresses with the kind of access that it is held for. -/
structure VRange where
  lo : Int
  len : Nat
  write : Bool
deriving DecidableEq, Repr

/-- What the translation of a range answers: its physical pieces, a fault at an address, or a wait. -/
inductive Pieces where
  | ok (l : List (Nat × Nat × Nat × BitVec 64))
  | flt (cause : Nat) (va : Word) (aux : Nat)
  | wait
deriving DecidableEq, Repr

/-- The walk of an engine's translation, where it makes one (R195, R459). -/
def State.walked (s : State) (ctx : Nat) (pages : List (Nat × Nat × BitVec 64)) (again : Bool) (va : Word) : State :=
  if va.toNat >>> 32 = 0xFFFFFFFF || (!again && pages.any fun p => p.1 = va.toNat / 4096) then s else s.countWalk ctx va.toNat

/-- The level of the leaf that maps an address: 0 for 4 KiB, 1 for 2 MiB, 2 for 1 GiB (R179, Table 8.4). -/
def leafLevel (s : State) (core ctx : Nat) (user : Bool) (va : Nat) (acc : Acc) : Nat :=
  match (translate s core ctx user false (word va) acc).2 with | .ok x => x.lvl | _ => 0

/-- Translate a range page by page from an address on: pieces of (VA, PA, length, page entry). Each piece ends at a page of 4 KiB. -/
def piecesFrom (f : Word → XRes) (va : Int) (left : Nat) (out : List (Nat × Nat × Nat × BitVec 64)) : Nat → Pieces
  | 0 => .ok out
  | n + 1 =>
    if left = 0 then .ok out
    else
      let w := vaOf va
      let k := min left (4096 - w.toNat % 4096)
      match f w with
      | .flt c a => .flt c w a
      | .wait => .wait
      | .ok x => piecesFrom f (va + k) (left - k) (out ++ [(w.toNat, x.pa, k, x.pte)]) n

/-- The same in a context, as an engine translates for a core. -/
def pieces (s : State) (core ctx : Nat) (user : Bool) (acc : Acc) (va : Int) (left : Nat) : Pieces :=
  piecesFrom (fun w => (translate s core ctx user false w acc).2) va left [] (left / 4096 + 2)

/-- Two addresses lie in one memory: the scratchpads of two cores are two memories. -/
def oneMemory (a b : Nat) : Bool :=
  match kindOf a, kindOf b with | .spm c _, .spm d _ => c = d | _, _ => true

/-- Join pieces that follow each other in one physical memory into as few ranges as possible (R206). -/
def joinPieces : List (Nat × Nat × Nat × BitVec 64) → List (Nat × Nat)
  | [] => []
  | (_, pa, k, _) :: r =>
    match joinPieces r with
    | (p, m) :: rest => if pa + k = p && oneMemory pa p then (pa, k + m) :: rest else (pa, k) :: (p, m) :: rest
    | [] => [(pa, k)]

/-- Holds on ranges of physical memory for an agent. Weight-store ranges are never held (R203). -/
def holdsOf (agent owner ctx : Nat) (write : Bool) (l : List (Nat × Nat)) : List Hold :=
  (l.filter fun r => match kindOf r.1 with | .ws _ => false | _ => true).map fun r => ⟨agent, owner, write, r.1, r.2, ctx⟩

/-- The answer of a registration (R206, R207). -/
inductive Registered where
  | ok (s : State)
  | rhld (aux : Nat) (h : Hold)
  | wait
  | param
deriving DecidableEq, Repr

/-- Register holds in one step. -/
def register (s : State) (l : List Hold) : Registered :=
  if holdsTooMany l || holdsSelfClash l then .param
  else match l.findSome? fun h => (holdConflict s h.owner h.write h.lo h.len).map fun c => (c, h) with
    | some (c, h) => .rhld (rhldAux c true) h
    | none => if holdsFit s l then .ok (s.addHolds l) else .wait

/-- A range of a stream, or of a copy, may lie in scratchpad, device DRAM or host memory. -/
def holdable (pa : Nat) : Bool := match kindOf pa with | .dram | .host | .spm _ _ => true | _ => false

/-! ## Translations of an engine (R180) -/

/-- The pages of translated pieces, with their page entries. Window addresses move with their crew and are not latched. -/
def latchPages (l : List (Nat × Nat × Nat × BitVec 64)) : List (Nat × Nat × BitVec 64) :=
  (l.filter fun p => p.1 >>> 32 ≠ 0xFFFFFFFF).map fun p => (p.1 / 4096, p.2.1 / 4096, p.2.2.2)

/-- The translation of an address that an engine uses after issue (R180): the latched one, or, once a TLBI has completed, a
new one under the issuer's privilege, which must name the same physical address. (DEDUCED, log entry 42.) -/
def engineXlate (s : State) (core ctx : Nat) (user : Bool) (pages : List (Nat × Nat × BitVec 64)) (again : Bool) (va : Word)
    (acc : Acc) : XRes :=
  match if va.toNat >>> 32 = 0xFFFFFFFF then none else pages.find? fun p => p.1 = va.toNat / 4096 with
  | none => (translate s core ctx user false va acc).2
  | some p =>
    let pa := p.2.1 * 4096 + va.toNat % 4096
    if !again then .ok ⟨pa, p.2.2, false, 0⟩
    else match (translate s core ctx user false va acc).2 with
      | .ok x => if x.pa = pa then .ok x else .flt PAGEF (xaux 6 x.lvl)
      | r => r

/-! ## SBIND (R394) -/

/-- The first address of the contiguous range, among the pieces, in which a physical byte lies. -/
def rangeStart (pa start last : Nat) : List (Nat × Nat × Nat × BitVec 64) → Word
  | [] => word start
  | p :: r =>
    let st := if p.1 = last then start else p.1
    if p.2.1 ≤ pa && pa < p.2.1 + p.2.2.1 then word st else rangeStart pa st (p.1 + p.2.2.1) r

/-- TADDR of RHLD at registration (R205): the first address of the range with a hold's first byte. -/
def vaAtPA (l : List (Nat × Nat × Nat × BitVec 64)) (pa : Nat) : Word :=
  match l with | p :: _ => rangeStart pa p.1 p.1 l | [] => 0

/-- Holds and pieces of every range of a descriptor. -/
def sdPieces (s : State) (d : BitVec 320) : Pieces × Pieces :=
  let user := s.me.user
  let (lo, len) := sdSpan d
  (pieces s s.curCore s.myCtx user (if bit d 52 then .write else .read) lo len,
    if sdIndexed d then pieces s s.curCore s.myCtx user .read (sdIx d) (sdN1 d * sdIxBytes d) else .ok [])

/-- The checks and the binding, once the earlier one is drained. (DEDUCED, log entry 36.) -/
def sbindEff (r : Nat) (d : BitVec 320) (s : State) : Eff :=
  if !sdFieldsOk s d then .trap s PARAM 0 0
  else if !sdAligned d then .trap s MISALIGN (vaOf (sdBase d)) 0
  else match sdPieces s d with
  | (.flt c va a, _) => .trap s c va (word a)
  | (_, .flt c va a) => .trap s c va (word a)
  | (.wait, _) => .wait s .memory 0
  | (_, .wait) => .wait s .memory 0
  | (.ok l, .ok ix) =>
    if !((l ++ ix).all fun p => holdable p.2.1) then .trap s PARAM 0 0
    else
      let (id, s1) := s.fresh
      let w := bit d 52
      let data := holdsOf (if w then 7 else 6) id s.myCtx w (joinPieces l)
      match register s1 (data ++ holdsOf 6 id s.myCtx false (joinPieces ix)) with
      | .param => .trap s PARAM 0 0
      | .rhld aux h => .trap s RHLD (vaAtPA (if data.contains h then l else ix) h.lo) (word aux)
      | .wait => .wait s .memory 0
      | .ok s => .done (s.modStream r fun _ => ⟨d, 0, true, false, [], none, id, latchPages (l ++ ix), false, s.me.user⟩)

def bodySbind (h : Hdr) (d : BitVec 5) (blk : BitVec 384) : Body :=
  { (Body.mk' h .memory [.blk .stream blk] [] fun o s =>
      match drainStream s d.toNat with
      | .wait s => .wait s .memory 0
      | .stopped s f => .trap s f.cause.toNat f.addr f.aux
      | .ok s => sbindEff d.toNat o.rcd s) with
    light := false
    blk := true }

def bodySdrain (h : Hdr) (a : BitVec 5) : Body :=
  { (Body.mk' h .memory [] [] fun _ s =>
      match drainStream s a.toNat with
      | .wait s => .wait s .memory 0
      | .stopped s f => .trap s f.cause.toNat f.addr f.aux
      | .ok s => .done s) with light := false }

/-- The word of R397. -/
def sstatWord (b : StreamBind) : Word :=
  if !b.bound && !b.stopped then 0
  else word (b.total - b.count + b2n b.bound * 2 ^ 33 + b2n b.isWrite * 2 ^ 34 + b2n b.stopped * 2 ^ 35)

def bodySstat (h : Hdr) (d a : BitVec 5) : Body :=
  { (Body.mk' h .other [] [.g d] fun o s => effG (some 1) d (fun _ => (sstatWord (s.stream a.toNat), 0)) o s) with
    light := false }

/-! ## Queue registers (R398, R399) -/

/-- The endpoint kinds that read A (Table 17.6). -/
def qbindReadsA (imm : BitVec 48) : Bool := fld imm 0 4 = 2 || fld imm 0 4 = 5 || fld imm 0 4 = 6

/-- A names a target: a context-logical core of a live crew of the context, a slot, and zero elsewhere (R398, R402). -/
def targetOk (s : State) (a : Word) : Bool := fld a 15 49 = 0 && (s.crewAt s.myCtx (fld a 0 12)).isSome

/-- The VA lies in the own-scratchpad window with n bytes. -/
def inOwn (a : Word) (n : Nat) : Bool := 0xFFFFFFFF80000000 ≤ a.toNat && a.toNat + n ≤ 0xFFFFFFFF80040000

/-- The checks of QBIND: PARAM for every failure. -/
def qbindOk (imm : BitVec 48) (a : Word) (s : State) : Bool :=
  let k := fld imm 0 4
  (!s.me.light || (1 ≤ k && k ≤ 3)) &&
  (match k with
    | 2 => targetOk s a
    | 5 => a.toNat % 4 = 0 && inOwn a 256
    | 6 => a.toNat < 65536 && gqMine s s.myGraph a.toNat &&
        (match s.gqueue? s.myGraph a.toNat with | some q => q.len = 1 | none => false)
    | _ => true)

/-- The binding dword. -/
def qbindWord (imm : BitVec 48) (a : Word) (s : State) : Word :=
  match fld imm 0 4 with
  | 1 => 1
  | 2 => word (2 + fld a 0 12 * 2 ^ 4 + fld a 12 3 * 2 ^ 16)
  | 3 => word (3 + fld imm 4 2 * 2 ^ 4)
  | 4 => word (4 + s.me.mboxLast.toNat * 2 ^ 4)
  | 5 => word (5 + (a.toNat % 0x40000) * 2 ^ 4 + fld imm 6 14 * 2 ^ 22 +
      tbPhase (s.read 0 (spmPA s.curCore (16 * fld imm 6 14)) 16) * 2 ^ 36)
  | 6 => word (6 + a.toNat * 2 ^ 4)
  | _ => 0

/-- R398: KIND 5 reads TB's PHASE as one load. -/
def qbindEff (d : BitVec 5) (imm : BitVec 48) (o : Ops) (s : State) : Eff :=
  if fld imm 0 4 = 5 then
    access s (ownVA (16 * fld imm 6 14)) 16 .read false fun s _ => .done (s.setQ d.toNat (qbindWord imm o.a s))
  else .done (s.setQ d.toNat (qbindWord imm o.a s))

def bodyQbind (h : Hdr) (d a : BitVec 5) (imm : BitVec 48) : Body :=
  { Body.mk' h .memory (if qbindReadsA imm then [.a a] else []) [] (qbindEff d imm) with
    chk := fun o s => if qbindOk imm o.a s then none else some (paramStop 0) }

/-- The word of R399. -/
def qstatWord (s : State) (r : Nat) : Word :=
  let w := s.qbinding r
  let k := fld w 0 4
  let v := match k with
    | 1 => s.me.inq.length
    | 2 => b2n s.me.outBuf.isSome
    | 3 => match (if s.curSlot = 7 then some s.me else s.ref? ⟨s.me.ref.crew, s.me.ref.lcore, 7⟩) with
      | some m => b2n (bit m.mboxFull (fld w 4 2))
      | none => 0
    | 4 => match (if s.curSlot = 7 then some s.me else s.ref? ⟨s.me.ref.crew, s.me.ref.lcore, 7⟩) with
      | some m => m.mboxLast.toNat + m.mboxFull.toNat * 4
      | none => 0
    | 5 => pathJ w + b2n (bit w 47) * 2 ^ 7
    | 6 => match s.gqueue? s.myGraph (fld w 4 12) with
      | some x => x.cap - x.items.length + b2n x.eos * 2 ^ 16
      | none => 0
    | _ => 0
  if k = 0 then 0 else word (v + k * 2 ^ 60)

def bodyQstat (h : Hdr) (d a : BitVec 5) : Body :=
  Body.mk' h .other [] [.g d] fun o s => effG (some 1) d (fun _ => (qstatWord s a.toNat, 0)) o s

/-! ## Register readiness (R400, R401) -/

/-- R400: D is set empty with no producer; inside a notify handler specifiers 10–13 name y0–y3, which have full bits of their own
(Table 7.2). -/
def bodyEmpty (h : Hdr) (d : BitVec 5) : Body :=
  Body.mk' h .other [] [.g d] fun _ s => .done (s.modMe fun t => t.emptyReg (t.destG d 0))

/-- R401: A is named and not read, so that it is tested for LIGHTREG alone (R157). Its full bit is taken at issue, as a pair's operands
are (R149). -/
def bodyIsfull (h : Hdr) (pd : BitVec 4) (a : BitVec 5) : Body :=
  { Body.mk' h .other [] [.p pd] (effP 1 pd fun o => (o.pa, 0)) with
    fill := fun o s => { o with pa := s.me.fullG a.toNat }
    priv := fun s =>
      if s.me.light && s.me.lightBad a.toNat then some (.trap 5 LIGHTREG s.me.pc (word a.toNat) none) else none }

/-! ## PUTR, MIGR, TMODE (R402 to R404) -/

def putrEff (rg : BitVec 5) (o : Ops) (s : State) : Eff :=
  if s.me.outBuf.isSome then .wait s .message (keySend (fld o.a 0 12) (fld o.a 12 3))
  else .done (sendWord s ⟨BitVec.ofNat 12 (fld o.a 0 12), BitVec.ofNat 3 (fld o.a 12 3), some rg, o.b⟩)

def bodyPutr (h : Hdr) (a b rg : BitVec 5) : Body :=
  { Body.mk' h .memory [.a a, .b b] [] (putrEff rg) with
    chk := fun o s => if targetOk s o.a && rg.toNat ≤ 22 then none else some (paramStop 0) }

def migrEff (o : Ops) (s : State) : Eff :=
  match s.myCrew with
  | none => .done s
  | some c =>
    match c.lindexOf (fld o.a 0 12) with
    | none => .trap s 0x0A 0 (word (fld o.a 0 12))
    | some i =>
      if i = s.me.ref.lcore then .done s
      else if s.me.pend.isEmpty then .gone (parkMe s .migrate (i + 1) [] (some o.nxt)) else .wait s .migrate 0

def bodyMigr (h : Hdr) (a : BitVec 5) : Body :=
  { Body.mk' h .memory [.a a] [] migrEff with
    chk := fun o s => if !s.me.light || s.me.notify || fld o.a 12 52 ≠ 0 then some (paramStop 0) else none }

/-- What a thread may not hold when it becomes light (R168, R404). -/
def lightBlocked (s : State) : Bool :=
  s.curSlot = 7 || s.me.notify || s.me.pactsOpen s ||
  (s.me.streams.toList.any fun b => b.bound || b.stopped) ||
  (s.me.queues.toList.any fun w => 3 < fld w 0 4)

/-- h0–h12, v0–v15 and m1–m7 become 0 and full (R404). -/
def Thread.dropHeavy (t : Thread) (light : Bool) : Thread :=
  { t.makeHeavy with
    light := light
    v := Vector.replicate 16 0
    m := (Vector.replicate 8 0).set 0 0xFFFF
    full := t.full ||| 0x7FFFFFFFFC00#47 }

/-- R404. The registers that a light thread discards read 0 and full when it becomes heavy again; they are made so when it becomes light,
while no instruction names them (DESIGN CHOICE, log entry 122). -/
def bodyTmodeLight (h : Hdr) : Body :=
  { Body.mk' h .other [] [] (fun _ s => if s.me.light then .done s else .done (s.modMe fun t => t.dropHeavy true)) with
    chk := fun _ s =>
      if s.me.light then none
      else if lightBlocked s then some (paramStop 0)
      else if !s.me.pend.isEmpty then some (.park .reg 0) else none }

def bodyTmodeHeavy (h : Hdr) : Body :=
  Body.mk' h .other [] [] fun _ s => if s.me.light then .done (s.modMe fun t => t.dropHeavy false) else .done s

/-! ## Execution: each instruction issued by itself -/

def execSbind (h : Hdr) (d : BitVec 5) (blk : BitVec 384) (s : State) : Out :=
  .next (issue (.sbind h d blk) (bodySbind h d blk) s)
def execSdrain (h : Hdr) (a : BitVec 5) (s : State) : Out := .next (issue (.sdrain h a) (bodySdrain h a) s)
def execSstat (h : Hdr) (d a : BitVec 5) (s : State) : Out := .next (issue (.sstat h d a) (bodySstat h d a) s)
def execQbind (h : Hdr) (d a : BitVec 5) (imm : BitVec 48) (s : State) : Out :=
  .next (issue (.qbind h d a imm) (bodyQbind h d a imm) s)
def execQstat (h : Hdr) (d a : BitVec 5) (s : State) : Out := .next (issue (.qstat h d a) (bodyQstat h d a) s)
def execEmpty (h : Hdr) (d : BitVec 5) (s : State) : Out := .next (issue (.empty h d) (bodyEmpty h d) s)
def execIsfull (h : Hdr) (pd : BitVec 4) (a : BitVec 5) (s : State) : Out :=
  .next (issue (.isfull h pd a) (bodyIsfull h pd a) s)
def execPutr (h : Hdr) (a b rg : BitVec 5) (s : State) : Out := .next (issue (.putr h a b rg) (bodyPutr h a b rg) s)
def execMigr (h : Hdr) (a : BitVec 5) (s : State) : Out := .next (issue (.migr h a) (bodyMigr h a) s)
def execTmodeLight (h : Hdr) (s : State) : Out := .next (issue (.tmodeLight h) (bodyTmodeLight h) s)
def execTmodeHeavy (h : Hdr) (s : State) : Out := .next (issue (.tmodeHeavy h) (bodyTmodeHeavy h) s)

end Sys2Proof.Machine
end

