-- ==== Sys2Proof/Machine/PressRec.lean ====
section
/-! DEFINITION. The records of the presses: the shape and descent records by field, their checks at issue, ranks, debits and the
slots that an entry names (R224 to R236, R263, R264 to R268). -/

namespace Sys2Proof.Machine

/-! ## The shape record (Table 10.1) -/

/-- A resolved shape record by field; addresses are sign-extended. -/
structure Shape where
  dspl : Nat
  spl : Nat
  sreg : Nat
  tb : Nat
  spstr : Nat
  dest : Word
  dstr : Nat
  oaddr : Word
  ostr : Nat
  oidx : Nat
  oslot : Nat
  osrc : Nat
  k : Nat
  gbase : Nat
  gdir : Nat
  gj : Nat
  gi : Nat
  gc : Nat
  gr : Nat
  n : Nat
  m : Nat
  bf : Nat
  af : Nat
  of : Nat
  slot : Nat
  keep : Bool
  sat : Bool
  zsk : Bool
  scl : Bool
  acc : Bool
  dlv : Bool
  bEnd : Bool
deriving DecidableEq, Repr

def shapeOf (r : BitVec 320) : Shape where
  dspl := fld r 306 14
  spl := fld r 288 18
  sreg := fld r 282 5
  tb := fld r 256 26
  spstr := fld r 240 16
  dest := sext (fld r 192 48) 48
  dstr := fld r 176 16
  oaddr := sext (fld r 128 48) 48
  ostr := fld r 100 20
  oidx := fld r 88 12
  oslot := fld r 86 2
  osrc := fld r 84 2
  k := fld r 64 20
  gbase := fld r 51 12
  gdir := fld r 50 1
  gj := fld r 47 3
  gi := fld r 46 1
  gc := fld r 42 4
  gr := fld r 40 2
  n := fld r 32 7
  m := fld r 24 7
  bf := fld r 20 4
  af := fld r 16 4
  of := fld r 10 3
  slot := fld r 8 2
  keep := bit r 6
  sat := bit r 5
  zsk := bit r 4
  scl := bit r 3
  acc := bit r 2
  dlv := bit r 1
  bEnd := bit r 0

/-- Bits per element, cycles per K-step and group of an operand format (Table 10.3). -/
def opBits (f : Nat) : Nat := [64, 32, 16, 16, 8, 8, 4, 4].getD f 8
def opCycles (f : Nat) : Nat := [64, 16, 4, 4, 2, 2, 1, 1].getD f 1
def opGroup (f : Nat) : Nat := [1, 1, 4, 4, 8, 8, 16, 16].getD f 1

/-- Bytes of n elements in a row. -/
def opBytes (f n : Nat) : Nat := ceilDiv (n * opBits f) 8

/-- A format with a scale plane. -/
def opScaled (f : Nat) : Bool := f = 4 || f = 6

/-- The accumulator of a format: 0 FP64 pair, 1 FP32, 2 INT32. -/
def opAcc (f : Nat) : Nat := if f = 0 then 0 else if f = 5 || f = 7 then 2 else 1

/-- Bytes of an element of an output format. -/
def outBytesOf (f : Nat) : Nat := [8, 4, 2, 2, 1, 4].getD f 1

/-- OF suits the accumulator (R228). -/
def outSuits (acc f : Nat) : Bool :=
  match acc with
  | 0 => f = 0 || f = 1
  | 1 => f = 1 || f = 2 || f = 3 || f = 4
  | _ => f = 5

/-- Bit set of a slot, or of the pair that it starts. -/
def slotBits (slot : Nat) (pair : Bool) : Nat := if pair then 3 <<< slot else 1 <<< slot

/-- The agreeing fields (Table 10.2). -/
def shapeAgree (r : BitVec 320) : List Nat :=
  [fld r 16 4, fld r 20 4, fld r 24 7, fld r 32 7, fld r 64 20, fld r 40 2, fld r 42 4, fld r 46 1, fld r 47 3, fld r 50 1,
    fld r 51 12]

/-- The lead-only fields. -/
def shapeLead (r : BitVec 320) : List Nat :=
  [fld r 1 6, fld r 8 2, fld r 10 3, fld r 192 48, fld r 176 16, fld r 256 26, fld r 282 5, fld r 306 14]

/-- The ranges of memory that an end's operand reads, as VA and length (R229): elements, index table and scale plane. -/
def opRanges (p : Shape) (idx : List Nat) : List (Nat × Nat) :=
  let f := if p.bEnd then p.bf else p.af
  let cnt := if p.bEnd then p.n else p.m
  let o := p.oaddr.toNat
  let main := match p.osrc with
    | 1 =>
      let lo := idx.foldl min (idx.headD 0)
      let hi := idx.foldl max 0
      [(o + lo * p.ostr, (hi - lo) * p.ostr + opBytes f p.k), (0xFFFFFFFF80000000 + 64 * p.oidx, cnt)]
    | 2 => []
    | _ => [(o, (p.k - 1) * p.ostr + opBytes f cnt)]
  main ++ (if p.osrc ≠ 2 && opScaled f then [(o + p.spl, (ceilDiv p.k 32 - 1) * p.spstr + 2 * cnt)] else [])

/-- The physical addresses of the row-index table in a core's scratchpad. -/
def Shape.oidxPA (p : Shape) (core : Nat) : List Nat := (span 0 p.m).map fun i => spmPA core ((64 * p.oidx + i) % 262144)

/-- The row-index table of a row-gathered operand, as it stands in a core's scratchpad. -/
def opIndex (s : State) (core : Nat) (p : Shape) : List Nat :=
  if p.osrc = 1 then (p.oidxPA core).map fun a => s.read 0 a 1 else []

/-- A range lies in the own-scratchpad window. -/
def rangeOwn (r : Nat × Nat) : Bool := 0xFFFFFFFF80000000 ≤ r.1 && r.1 + r.2 ≤ 0xFFFFFFFF80040000

/-- Slots that a slot-sourced operand reads. -/
def opSlots (p : Shape) : Nat :=
  if p.osrc = 2 then slotBits p.oslot ((if p.bEnd then p.bf else p.af) = 0) else 0

/-- Slots of the result. -/
def resSlots (p : Shape) : Nat := slotBits p.slot (p.af = 0)

/-- The rules on a lead's own fields (R228, R263). -/
def shapeLeadOk (s : State) (p : Shape) : Bool :=
  let acc := opAcc p.af
  outSuits acc p.of && (acc ≠ 0 || p.slot % 2 = 0) && (!p.sat || acc = 2) && (!p.scl || (p.acc && acc ≠ 2)) &&
  (p.dlv || p.keep) && p.sreg ≤ 23 && (p.scl || p.sreg = 0) &&
  (!p.dlv || (p.dest.toNat % 64 = 0 && p.dstr % 64 = 0 && p.gc * p.n * outBytesOf p.of ≤ p.dstr &&
    (barPA s s.curCore s.myCtx (tbVA p.tb)).isSome)) &&
  (p.of ≠ 4 || p.gc ≤ 1 || p.n % 32 = 0)

/-- The rules on an end's own operand (R229, R230). -/
def shapeOwnOk (s : State) (p : Shape) : Bool :=
  let f := if p.bEnd then p.bf else p.af
  match p.osrc with
  | 2 => p.k ≤ 64 && p.af ≤ 3 && p.bf ≤ 3 && (f ≠ 0 || p.oslot % 2 = 0) && (p.bEnd || opSlots p &&& resSlots p = 0)
  | c =>
    p.oaddr.toNat % 32 = 0 && p.ostr % 32 = 0 && (c ≠ 1 || !p.bEnd) &&
    (c = 3 || (opRanges p (opIndex s s.curCore p)).all rangeOwn)

/-- The form of a PMM's record (R227, R228, R263). -/
def shapeForm (s : State) (r : BitVec 320) : Bool :=
  let p := shapeOf r
  p.af ≤ 7 && p.bf ≤ 7 && (p.af = p.bf || (p.af = 2 && p.bf = 3) || (p.af = 3 && p.bf = 2)) &&
  1 ≤ p.k && 1 ≤ p.n && p.n ≤ 64 && 1 ≤ p.m && p.m ≤ 64 &&
  1 ≤ p.gr && p.gr ≤ 2 && 1 ≤ p.gc && p.gc ≤ 8 && p.gr * p.gc ≤ 16 && p.gi < p.gr && p.gj < p.gc &&
  (if p.bEnd then (shapeLead r).all (· = 0) else shapeLeadOk s p)

/-- The check of a PMM's record at issue: its form and its operand (R229, R230). -/
def shapeOk (s : State) (r : BitVec 320) : Bool := shapeForm s r && shapeOwnOk s (shapeOf r)

/-- The destination ranges of a PMM (R232). -/
def shapeSpan (p : Shape) : List (Nat × Nat) :=
  if !p.dlv then []
  else
    (p.dest.toNat, (p.gr * p.m - 1) * p.dstr + p.gc * p.n * outBytesOf p.of) ::
      (if p.of = 4 then [((p.dest + word (64 * p.dspl)).toNat, 2 * (p.gr * p.m) * ceilDiv (p.gc * p.n) 32)] else [])

/-! ## The descent record (Table 18.2) -/

structure Desc where
  dlen : Nat
  batch : Nat
  depth : Nat
  fmt : Nat
  tb : Nat
  garr : Word
  gstr : Nat
  gbase : Word
  dest : Word
  ostr : Nat
  oaddr : Word
  tslot : Nat
  rslot : Nat
  rsrc : Bool
  gix : Bool
  tr : Bool
  bias : Bool
  tree : Bool
deriving DecidableEq, Repr

def descOf (r : BitVec 320) : Desc where
  dlen := fld r 310 10
  batch := fld r 303 7
  depth := fld r 298 5
  fmt := fld r 294 4
  tb := fld r 256 26
  garr := sext (fld r 208 48) 48
  gstr := fld r 188 20
  gbase := sext (fld r 140 48) 48
  dest := sext (fld r 92 48) 48
  ostr := fld r 72 20
  oaddr := sext (fld r 24 48) 48
  tslot := fld r 8 2
  rslot := fld r 6 2
  rsrc := bit r 5
  gix := bit r 4
  tr := bit r 3
  bias := bit r 2
  tree := bit r 0

def descAgree (r : BitVec 320) : List Nat := [fld r 310 10, fld r 303 7, fld r 298 5, fld r 294 4, fld r 2 1]
def descLead (r : BitVec 320) : List Nat :=
  [fld r 3 3, fld r 6 4, fld r 92 48, fld r 140 48, fld r 188 20, fld r 208 48, fld r 256 26]

/-- Bytes of an element of a descent's format. -/
def Desc.e (d : Desc) : Nat := opBits d.fmt / 8

/-- The rows' range. -/
def Desc.rows (d : Desc) : Nat × Nat := (d.oaddr.toNat, (d.batch - 1) * d.ostr + d.dlen * d.e)

/-- The tree's range, as far as its nodes reach. -/
def Desc.treeRange (d : Desc) : Nat × Nat :=
  (d.oaddr.toNat, (2 ^ d.depth - 2) * d.ostr + d.dlen * d.e + (if d.bias then 4 else 0))

/-- Bytes of the PDSC block (Table 12.3), and its granules (R273). -/
def Desc.blockBytes (d : Desc) : Nat := 448 + (if d.tr then 256 * d.depth else 0) + (if d.gix then 64 * d.batch else 0)

/-- The write range of a descent: its block, or the gradient buffer (R277). -/
def Desc.span (d : Desc) (grad : Bool) : Nat × Nat :=
  if grad then (d.gbase.toNat, (2 ^ d.depth - 1) * d.gstr) else (d.dest.toNat, d.blockBytes)

/-- The read range of the score gradients. -/
def Desc.scores (d : Desc) : Nat × Nat := (d.garr.toNat, 4 * (64 * (d.depth - 1) + d.batch))

/-- A range translates to addresses of some kinds, or does not translate: then formation meets the fault (R226, R268). -/
def rangeKind (s : State) (acc : Acc) (ok : Nat → Bool) (r : Nat × Nat) : Bool :=
  match pieces s s.curCore s.myCtx s.me.user acc (r.1 : Nat) r.2 with
  | .ok l => l.all fun p => ok p.2.1
  | _ => true

def isCached (pa : Nat) : Bool := match kindOf pa with | .dram | .host => true | _ => false

/-- The form of a descent's record (R267, R268, R419). -/
def descForm (s : State) (grad : Bool) (r : BitVec 320) : Bool :=
  let d := descOf r
  1 ≤ d.depth && d.depth ≤ 16 && 1 ≤ d.batch && d.batch ≤ 64 && 32 ≤ d.dlen && d.dlen ≤ 512 && d.dlen % 32 = 0 &&
  (d.fmt = 1 || d.fmt = 2 || d.fmt = 3 || d.fmt = 5) && (d.fmt ≠ 1 || d.dlen ≤ 256) && d.batch * d.dlen * d.e ≤ 32768 &&
  (if grad then !d.tr && !d.gix && d.tslot = 0 && d.dest = 0 else !d.rsrc && d.gbase = 0 && d.gstr = 0 && d.garr = 0) &&
  (if d.tree then
    (descLead r).all (· = 0) && d.oaddr.toNat % 64 = 0 && d.ostr % 64 = 0 &&
    d.dlen * d.e + (if d.bias then 4 else 0) ≤ d.ostr
  else
    d.rslot % 2 = 0 && (!d.tr || d.tslot / 2 ≠ d.rslot / 2) && d.oaddr.toNat % 32 = 0 && d.ostr % 32 = 0 &&
    (barPA s s.curCore s.myCtx (tbVA d.tb)).isSome &&
    (if grad then d.garr.toNat % 64 = 0 && d.gstr % 4 = 0 && 4 * (d.dlen + 1) ≤ d.gstr else d.dest.toNat % 64 = 0))

/-- The places that a descent's lead names (R268): its rows' range, with RSRC = 1 as well, its destinations, its gradients, and the
press's row pair. -/
def descPlaces (s : State) (press : Nat) (grad : Bool) (d : Desc) : Bool :=
  d.tree ||
    (rangeOwn d.rows && (!(grad && d.rsrc) || (s.press press).rows = some d.rslot) &&
      (if grad then rangeKind s .write isCached (d.span true) && rangeKind s .read holdable d.scores
        else rangeKind s .write holdable (d.span false)))

/-- The check of a descent's record at issue. -/
def descOk (s : State) (press : Nat) (grad : Bool) (r : BitVec 320) : Bool := descForm s grad r && descPlaces s press grad (descOf r)

/-! ## Ports, ranks and debits -/

/-- A port of a crew-logical core: the near end's crew-logical index and the link's direction, or none where the far end lies
outside the crew (R224, R413). -/
def crewPort (c : Crew) (lcore port : Nat) : Option (Nat × Nat) :=
  let r := lcore / c.w
  let k := lcore % c.w
  match port with
  | 0 => if k + 1 < c.w then some (lcore, 0) else none
  | 1 => if r + 1 < c.h then some (lcore, 1) else none
  | 2 => if 1 ≤ k then some (lcore - 1, 0) else none
  | _ => if 1 ≤ r then some (lcore - c.w, 1) else none

/-- The press that a port of the issuing thread names: its physical number, whether the thread's core is the far end, and the
rank of the link (R235). -/
def myPress (s : State) (port : BitVec 2) : Option (Nat × Bool × Nat) :=
  match s.myCrew with
  | none => none
  | some c =>
    match crewPort c s.me.ref.lcore port.toNat, pressOf s.curCore port.toNat with
    | some (near, dir), some (p, far) => some (p, far, 2 * near + dir)
    | _, _ => none

/-- The rank that a record's pact takes (R235): a gang's is that of its base press. (DEDUCED, log entry 49.) -/
def pactRank (op : PressOp) (r : BitVec 320) (own : Nat) : Nat :=
  let p := shapeOf r
  match op with
  | .pmm => if p.gr * p.gc ≤ 1 then own else 2 * p.gbase + p.gdir
  | _ => own

/-- Debit units of a pact instruction (Table 18.1). -/
def pactUnits (op : PressOp) (r : BitVec 320) : Nat :=
  match op with
  | .pmm => let p := shapeOf r; max 1 (ceilDiv (p.k * opCycles p.af) 16)
  | .pdsc => let d := descOf r; d.depth * ceilDiv (d.batch * d.dlen) 1024
  | _ => let d := descOf r; 2 * d.depth * ceilDiv (d.batch * d.dlen) 1024

/-! ## What entries name (R234) -/

/-- Slots (bits 3:0) and path-trace registers (bits 19:4) that a pact names. A PDSC names TSLOT whether or not it traces (R269). -/
def pactNames (op : PressOp) (a b : BitVec 320) : Nat :=
  match op with
  | .pmm => resSlots (shapeOf a) ||| opSlots (shapeOf a) ||| opSlots (shapeOf b)
  | _ =>
    let d := descOf a
    slotBits d.rslot true ||| (if op = .pdsc then slotBits d.tslot false else 0) ||| 0xFFFF0

/-- The same of an entry of the queue. -/
def PressEntry.names (e : PressEntry) : Nat :=
  match e.op with
  | .pclr | .pscl | .plds | .psts => slotBits e.slot e.f64
  | .prdt | .pwrt => 16 <<< e.pt
  | .prdl => e.slot
  | op => pactNames op e.recA e.recB

/-- An entry that the cell array serves. -/
def PressEntry.streams (e : PressEntry) : Bool := e.op.isPact

end Sys2Proof.Machine
end

