-- ==== Sys2Proof/Machine/Copy.lean ====
section
/-! DEFINITION. Copy instructions as their movement context meets them: the record's checks, the ranges and their holds, and
acceptance by the vat's engine (R193, R194, R428 to R437). -/

namespace Sys2Proof.Machine

/-! ## The copy record (Table 18.7) -/

/-- A resolved copy record by field; addresses are sign-extended. -/
structure CopyRec where
  src : Word
  dst : Word
  bytes : Nat
  tb : Nat
  pkg : Nat
  rem : Bool
  kind : Nat
  aop : Nat
  esz : Nat
  ixsz : Nat
  ixaddr : Word
  mask : Nat
  stat : Nat
  sten : Bool
deriving DecidableEq, Repr

def copyRec (r : BitVec 320) : CopyRec where
  src := sext (fld r 0 48) 48
  dst := sext (fld r 48 48) 48
  bytes := fld r 96 32
  tb := fld r 128 26
  pkg := fld r 160 20
  rem := bit r 180
  kind := fld r 181 2
  aop := fld r 183 2
  esz := fld r 185 3
  ixsz := fld r 188 1
  ixaddr := sext (fld r 192 48) 48
  mask := fld r 240 16
  stat := fld r 256 25
  sten := bit r 281

/-- The forms of a copy command. -/
def CPYK : Nat := 0
def CPYMK : Nat := 1
def GATHRK : Nat := 2

/-- VA of the status record. -/
def CopyRec.statVA (c : CopyRec) : Word := word (0xFFFFFFFF00000000 + 32 * c.stat)

/-- Size of an element: of GATHR, or of a remote atomic add. -/
def CopyRec.elem (c : CopyRec) (k : Nat) : Nat := if k = GATHRK then 2 ^ c.esz else if c.aop = 2 then 4 else 8

/-- Bytes that a command lands. -/
def CopyRec.total (c : CopyRec) (k : Nat) : Nat := if k = GATHRK then c.bytes * 2 ^ c.esz else c.bytes

/-- Sectors of a destination (R193). -/
def sectorsOf (d n : Nat) : Nat := (d + n - 1) / 64 + 1 - d / 64

/-- The destination is in another package or is named by package (R196). -/
def CopyRec.away (c : CopyRec) (k : Nat) : Bool := c.rem && k = CPYK

/-- The crew's cores that a CPYM names, as crew-logical indices; none where one lies outside the crew (R194). -/
def receivers (s : State) (r : TRef) (mask : Nat) : Option (List Nat) :=
  match s.crew? r.crew with
  | none => none
  | some c =>
    let l := ((span 0 16).filter fun i => mask.testBit i).map fun i => c.lindexOf (coreOfVat (vatOf (c.logical r.lcore)) i)
    if l.all Option.isSome then some (l.filterMap id) else none

/-- The checks of R429 and of each form on the fields alone: false is PARAM. -/
def copyFieldsOk (s : State) (k : Nat) (c : CopyRec) : Bool :=
  c.bytes ≠ 0 && c.kind < 2 && c.aop < 3 && c.esz < 7 &&
  (if k = CPYMK then c.tb < 2 ^ 14 else (barPA s s.curCore s.myCtx (tbVA c.tb)).isSome) &&
  (!c.sten || (barPA s s.curCore s.myCtx c.statVA).isSome) && (c.sten || c.stat = 0) &&
  !(c.rem && k = CPYMK) && (c.rem || c.pkg = 0) &&
  (c.kind = 0 || (k = CPYK && c.rem)) && (c.kind = 1 || c.aop = 0) &&
  (k = CPYMK || c.mask = 0) && (k = GATHRK || (c.esz = 0 && c.ixsz = 0 && c.ixaddr = 0)) &&
  (k ≠ CPYMK || (c.mask ≠ 0 && (receivers s s.me.ref c.mask).isSome && inOwn c.dst c.bytes)) &&
  (k ≠ GATHRK || (c.src.toNat % 2 ^ c.esz = 0 && c.dst.toNat % 2 ^ c.esz = 0 && c.ixaddr.toNat % (4 * (1 + c.ixsz)) = 0)) &&
  (c.kind = 0 || (c.bytes % c.elem k = 0 && c.bytes ≤ 4096 && c.src.toNat % c.elem k = 0 && c.dst.toNat % c.elem k = 0))

/-! ## Ranges -/

/-- A local range of a command. -/
structure CopyRange where
  va : Word
  len : Nat
  write : Bool
deriving DecidableEq, Repr

/-- The status record's range. -/
def statRange (c : CopyRec) : List CopyRange := if c.sten then [⟨c.statVA, 32, true⟩] else []

/-- The local ranges that are translated at issue; the receivers' buffers of CPYM need none. -/
def copyRanges (k : Nat) (c : CopyRec) : List CopyRange :=
  (if k = GATHRK then [⟨c.ixaddr, c.bytes * (4 * (1 + c.ixsz)), false⟩, ⟨c.dst, c.total k, true⟩]
  else ⟨c.src, c.bytes, false⟩ :: (if k = CPYMK || c.rem then [] else [⟨c.dst, c.bytes, true⟩])) ++ statRange c

/-- WeightCheck, and the refusal of counter space (R191, R429): cause and TAUX. -/
def copyCheck (s : State) (ctx die pa lvl : Nat) (w : Bool) : Option (Nat × Nat) :=
  match kindOf pa with
  | .ctr _ => some (PROT, xaux 4 lvl)
  | .ws o =>
    if !w then wsReadCheck s ctx die o lvl
    else match regionAt s ctx die o with
      | none => some (PROT, xaux 3 lvl)
      | some r => if r.sealed then some (WSWRITE, 0) else none
  | _ => none

/-- Translate and check a range page by page (CopyIssue of R429). -/
def copyPages (s : State) (core ctx : Nat) (user w : Bool) (va left : Nat) (out : List (Nat × Nat × Nat × BitVec 64)) : Nat → Pieces
  | 0 => .ok out
  | n + 1 =>
    if left = 0 then .ok out
    else
      let k := min left (4096 - va % 4096)
      match (translate s core ctx user false (word va) (if w then .write else .read)).2 with
      | .flt c a => .flt c (word va) a
      | .wait => .wait
      | .ok x =>
        match copyCheck s ctx (dieOf core) x.pa x.lvl w with
        | some (c, a) => .flt c (word va) a
        | none => copyPages s core ctx user w ((va + k) % 2 ^ 64) (left - k) (out ++ [(va, x.pa, k, x.pte)]) n

/-- What the translation of every range answers. -/
inductive CopyXl where
  | ok (l : List (CopyRange × List (Nat × Nat × Nat × BitVec 64)))
  | flt (cause : Nat) (va : Word) (aux : Nat)
  | wait
deriving DecidableEq, Repr

def copyXl (s : State) : List CopyRange → CopyXl
  | [] => .ok []
  | r :: rest =>
    match copyPages s s.curCore s.myCtx s.me.user r.write r.va.toNat r.len [] (r.len / 4096 + 2) with
    | .flt c va a => .flt c va a
    | .wait => .wait
    | .ok p => match copyXl s rest with
      | .ok l => .ok ((r, p) :: l)
      | x => x

/-- PA of a receiver's buffer. -/
def recvPA (s : State) (crew lc : Nat) (va : Word) : Nat :=
  match s.crew? crew with | some c => spmPA (c.phys lc) (va.toNat % 0x40000) | none => 0

/-- The receivers' buffers. -/
def recvRanges (s : State) (k : Nat) (c : CopyRec) : List (Nat × Nat) :=
  if k = CPYMK then ((receivers s s.me.ref c.mask).getD []).map fun lc => (recvPA s s.me.ref.crew lc c.dst, c.bytes) else []

/-- The holds of a command (R203, codes 0 and 1). -/
def copyHolds (s : State) (k id : Nat) (c : CopyRec) (l : List (CopyRange × List (Nat × Nat × Nat × BitVec 64))) : List Hold :=
  let agent := if k = GATHRK then 1 else 0
  l.flatMap (fun x => holdsOf agent id s.myCtx x.1.write (joinPieces x.2)) ++ holdsOf agent id s.myCtx true (recvRanges s k c)

/-- The status record overlaps another range of the command. -/
def statClash (s : State) (k : Nat) (c : CopyRec) (l : List (CopyRange × List (Nat × Nat × Nat × BitVec 64))) : Bool :=
  c.sten &&
    match l.getLast? with
    | none => false
    | some st =>
      st.1 = ⟨c.statVA, 32, true⟩ &&
      let others := l.dropLast.flatMap (fun x => joinPieces x.2) ++ recvRanges s k c
      (joinPieces st.2).any fun a => others.any fun b => a.1 < b.1 + b.2 && b.1 < a.1 + a.2

/-- The ranges that translate whole. -/
def copyReach (s : State) (l : List CopyRange) : List (CopyRange × List (Nat × Nat × Nat × BitVec 64)) :=
  l.filterMap fun r => match copyXl s [r] with | .ok [x] => some x | _ => none

/-- PARAM of R429, which comes before the fault of a range that does not translate. -/
def copyChk (k : Nat) (o : Ops) (s : State) : Option Stop :=
  let c := copyRec o.rcd
  if !copyFieldsOk s k c then some (paramStop 0)
  else
    let l := copyReach s (copyRanges k c)
    let hs := copyHolds s k 0 c l
    if statClash s k c l || holdsTooMany hs || holdsSelfClash hs then some (paramStop 0) else none

/-! ## Issue (R429) -/

/-- BFk is 1 at every named core (R194). -/
def buffersFree (s : State) (b : BitVec 4) (c : CopyRec) : Bool :=
  ((receivers s s.me.ref c.mask).getD []).all fun lc => bit (s.crewCore s.me.ref.crew lc).bf b.toNat

/-- BFk is cleared at every named core. -/
def takeBuffers (s : State) (b : BitVec 4) (c : CopyRec) : State :=
  ((receivers s s.me.ref c.mask).getD []).foldl (fun s lc =>
    s.modCrewCore s.me.ref.crew lc fun x => { x with bf := setFld x.bf b.toNat 1 0 }) s

/-- A trace record of a copy, with the issuer's physical core and slot (R102, R466). -/
def traceCopy (s : State) (kind : Nat) (c : CopyCmd) (landed : Nat) : State :=
  let h := s.homeOf c.issuer
  trace s (s.ctxOf c.issuer.crew) kind (16 * (copyRec c.rcd).tb) landed h.1 h.2

/-- The route of a command, decided when the engine accepts it: a later change of the route table applies to later transfers (R22, R23;
every transfer of a command starts at its acceptance, DEDUCED, log entry 93). -/
def routeOf (s : State) (c : CopyRec) : CopyRoute :=
  let e := Tbl.get 0 s.hub.grt (c.pkg / 1024)
  ⟨c.pkg = fld s.hub.pkgid 0 20, if bit e 16 then fld e 0 16 else 0, none, none, s.devtime, none⟩

/-- CopyIssue after its checks. -/
def copyEff (k : Nat) (b : BitVec 4) (o : Ops) (s : State) : Eff :=
  let c := copyRec o.rcd
  match copyXl s (copyRanges k c) with
  | .flt cause va a => .trap s cause va (word a)
  | .wait => .wait s .memory 0
  | .ok l =>
    let v := vatOf s.curCore
    if 32 ≤ (s.vat v).copies.length then .wait s .memory 0
    else if k = CPYMK && !buffersFree s b c then .wait s .message 0
    else
      let (id, s1) := s.fresh
      match register s1 (copyHolds s k id c l) with
      | .param => .trap s PARAM 0 0
      | .wait => .wait s .memory 0
      | .rhld aux h =>
        let at_ := match l.find? fun x => (joinPieces x.2).any fun p => p.1 = h.lo with | some x => x.1.va | none => c.dst
        .trap s RHLD at_ (word aux)
      | .ok s2 =>
        let cmd : CopyCmd := ⟨id, k, o.rcd, b.toNat, s.me.ref, 0, [], 0, [], 0, latchPages (l.flatMap fun x => x.2), false, s.me.user, [],
          routeOf s c, false⟩
        let s2 := if k = CPYMK then takeBuffers s2 b c else s2
        .done (traceCopy (s2.modVat v fun x => { x with copies := x.copies ++ [cmd] }) 1 cmd 0)

/-- Debit units (Table 18.1). -/
def copyUnits (k : Nat) (o : Ops) (_ : State) : Nat :=
  let c := copyRec o.rcd
  max 1 (ceilDiv c.bytes (if k = GATHRK || c.kind = 1 then 64 else 4096))

/-- A copy instruction: movement contexts only (R193). -/
def copyBody (h : Hdr) (k : Nat) (b : BitVec 4) (blk : Block) : Body :=
  { Body.mk' h .copy [.blk .copy blk] [] (copyEff k b) with
    light := false
    blk := true
    mov := true
    chk := copyChk k
    units := copyUnits k }

def bodyCpy (h : Hdr) (blk : BitVec 384) : Body := copyBody h CPYK 0 blk
def bodyRemoteAtomicAdd (h : Hdr) (blk : BitVec 384) : Body := copyBody h CPYK 0 blk
def bodyCpym (h : Hdr) (k : BitVec 4) (blk : BitVec 384) : Body := copyBody h CPYMK k blk
def bodyGathr (h : Hdr) (blk : BitVec 384) : Body := copyBody h GATHRK 0 blk

/-! ## CPYST (R437) -/

/-- Whether sector or element j has landed. -/
def CopyCmd.has (c : CopyCmd) (j : Nat) : Bool := j < c.next || c.landed.contains j

/-- Units that a command lands one by one: sectors, or elements of GATHR and of remote atomic adds. -/
def CopyCmd.units (c : CopyCmd) : Nat :=
  let r := copyRec c.rcd
  if c.kind = GATHRK then r.bytes else if r.kind = 1 then r.bytes / r.elem c.kind else sectorsOf r.dst.toNat r.bytes

/-- Bytes of the destination that unit j lands, as offset and length from DST. -/
def CopyCmd.part (c : CopyCmd) (j : Nat) : Nat × Nat :=
  let r := copyRec c.rcd
  if c.kind = GATHRK || r.kind = 1 then (j * r.elem c.kind, r.elem c.kind)
  else
    let d := r.dst.toNat
    let lo := max d (64 * (d / 64 + j))
    let hi := min (d + r.bytes) (64 * (d / 64 + j + 1))
    (lo - d, hi - lo)

/-- Bytes landed. -/
def CopyCmd.landedBytes (c : CopyCmd) : Nat := ((span 0 c.next ++ c.landed).map fun j => (c.part j).2).sum

/-- LANDED: bytes of a copy, elements of GATHR. -/
def CopyCmd.landedCount (c : CopyCmd) : Nat := if c.kind = GATHRK then c.next + c.landed.length else c.landedBytes

/-- The PA of a command's status record as its issuer names it. -/
def statPA (s : State) (c : CopyCmd) : Option Nat :=
  let r := copyRec c.rcd
  match s.crew? c.issuer.crew with
  | none => none
  | some x =>
    if !r.sten then none
    else match (translate s (x.phys c.issuer.lcore) x.ctx false false r.statVA .read).2 with
      | .ok y => some y.pa
      | _ => none

/-- The word of CPYST. -/
def cpystWord (s : State) (a : Word) : Word :=
  match (translate s s.curCore s.myCtx false false a .read).2 with
  | .ok x =>
    match (s.vat (vatOf s.curCore)).copies.find? fun c => x.win && statPA s c = some x.pa with
    | some c => word (2 ^ 63 + c.landedCount % 2 ^ 40)
    | none => word (2 ^ 62)
  | _ => word (2 ^ 62)

def bodyCpyst (h : Hdr) (d a : BitVec 5) : Body :=
  { Body.mk' h .copy [.a a] [.g d] (fun o s => effG (some 1) d (fun o => (cpystWord s o.a, 0)) o s) with light := false }

/-! ## Execution: each instruction issued by itself -/

def execCpy (h : Hdr) (blk : BitVec 384) (s : State) : Out := .next (issue (.cpy h blk) (bodyCpy h blk) s)
def execRemoteAtomicAdd (h : Hdr) (blk : BitVec 384) (s : State) : Out :=
  .next (issue (.remoteAtomicAdd h blk) (bodyRemoteAtomicAdd h blk) s)
def execCpym (h : Hdr) (k : BitVec 4) (blk : BitVec 384) (s : State) : Out :=
  .next (issue (.cpym h k blk) (bodyCpym h k blk) s)
def execGathr (h : Hdr) (blk : BitVec 384) (s : State) : Out := .next (issue (.gathr h blk) (bodyGathr h blk) s)
def execCpyst (h : Hdr) (d a : BitVec 5) (s : State) : Out := .next (issue (.cpyst h d a) (bodyCpyst h d a) s)


end Sys2Proof.Machine
end

