-- ==== Sys2Proof/Machine/FieldCheck.lean ====
section
/-! DEFINITION. The field-code checks of the opcode map (R293 to R297, R301, Tables 13.9 to 13.16): for each
instruction, the ILLOP reason that its operand fields give, or none. -/

namespace Sys2Proof

/-- The first reason of a list of failed checks: each entry is a failing condition and its reason. A field that must
be zero (reason 1) is listed before a reserved code (reason 2), the order of step 3 of R300. -/
def firstReason : List (Bool × Nat) → Option Nat
  | [] => none
  | (true, r) :: _ => some r
  | (false, _) :: t => firstReason t

/-- The width in bits of a floating-point TYPE code 0–3 (R296). -/
def fpBits (ty : BitVec 3) : Nat := if ty = 0 then 64 else if ty = 1 then 32 else 16

/-- Whether a bit pattern of a floating-point TYPE code 0–3 is a NaN other than the canonical one, whose sign is 0
and whose only fraction bit is the top one (R251, R344). -/
def badNaN (ty : BitVec 3) (v : Nat) : Bool :=
  let fb := if ty = 0 then 52 else if ty = 1 then 23 else if ty = 2 then 10 else 7
  let eb := fpBits ty - 1 - fb
  let isNaN := v / 2 ^ fb % 2 ^ eb == 2 ^ eb - 1 && v % 2 ^ fb != 0
  isNaN && v % 2 ^ fpBits ty != (2 ^ eb - 1) * 2 ^ fb + 2 ^ (fb - 1)

/-- Lane width in bits of a vector TYPE code (R353). -/
def laneBits (ty : BitVec 3) : Nat :=
  if ty = 0 ∨ ty = 4 ∨ ty = 7 then 64 else if ty = 1 ∨ ty = 5 then 32 else 16

/-- Number of lanes of a vector TYPE code (R353). -/
def laneCount (ty : BitVec 3) : Nat := 512 / laneBits ty

/-- Whether a TYPE code names a floating-point type (R296). -/
def isFpTy (ty : BitVec 3) : Bool := ty.toNat < 4

/-- Whether a TYPE code names an integer type (R296). -/
def isIntTy (ty : BitVec 3) : Bool := !isFpTy ty

/-- FP layout: TYPE 0–3 and RM 0–4 (R295, R296). -/
def ckFp (ty rm : BitVec 3) : Option Nat :=
  firstReason [(decide (4 ≤ ty.toNat), 2), (decide (5 ≤ rm.toNat), 2)]

/-- FP layout without rounding: TYPE 0–3. -/
def ckFpTy (ty : BitVec 3) : Option Nat := firstReason [(decide (4 ≤ ty.toNat), 2)]

/-- FCVT and VCVT: neither type is the reserved code, they differ, at least one is floating point, and the rounding
code is 0–4 (R341, R364). -/
def ckConv (st dt : BitVec 3) (reserved : BitVec 3) (rm : BitVec 3) : Option Nat :=
  firstReason [(st == reserved || dt == reserved || st == dt || (isIntTy st && isIntTy dt), 2),
    (decide (5 ≤ rm.toNat), 2)]

/-- FMOVI: no immediate bit above the type's width, and no NaN but the canonical one (R344). -/
def ckFmovi (ty : BitVec 3) (imm : BitVec 48) : Option Nat :=
  let v := if ty = 0 then imm.toNat * 2 ^ 16 else imm.toNat
  firstReason [(isFpTy ty && ty != 0 && decide (2 ^ fpBits ty ≤ imm.toNat), 1), (decide (4 ≤ ty.toNat), 2),
    (badNaN ty v, 2)]

/-- VFILL: no immediate bit above the type's width, and no NaN but the canonical one (R366). -/
def ckVfill (ty : BitVec 3) (imm : BitVec 48) : Option Nat :=
  let v := if ty = 0 then imm.toNat * 2 ^ 16 else imm.toNat
  firstReason [(laneBits ty != 64 && decide (2 ^ laneBits ty ≤ imm.toNat), 1), (ty == 7, 2),
    (isFpTy ty && badNaN ty v, 2)]

/-- VEC layout with RND: RND zero on integer types (R297), TYPE 7 and RND 5–7 reserved. -/
def ckVecR (ty rnd : BitVec 3) : Option Nat :=
  firstReason [(isIntTy ty && ty != 7 && rnd != 0, 1), (ty == 7, 2), (decide (5 ≤ rnd.toNat), 2)]

/-- VEC layout of an operation defined on floating-point types alone (R362). -/
def ckVecFp (ty rnd : BitVec 3) : Option Nat :=
  firstReason [(decide (4 ≤ ty.toNat), 2), (decide (5 ≤ rnd.toNat), 2)]

/-- VEC layout without rounding: TYPE 7 reserved. -/
def ckVec (ty : BitVec 3) : Option Nat := firstReason [(ty == 7, 2)]

/-- VEC layout of an operation on integer types alone (TYPE 4–6, R361). -/
def ckVecInt (ty : BitVec 3) : Option Nat := firstReason [(!(4 ≤ ty.toNat && ty.toNat ≤ 6), 2)]

/-- VRED and VSCAN: function 0–5, 3–5 on integers only, RND for a floating-point sum only (R370). -/
def ckRed (fn ty rnd : BitVec 3) : Option Nat :=
  firstReason [(!(fn == 0 && isFpTy ty) && ty != 7 && rnd != 0, 1), (ty == 7, 2), (decide (6 ≤ fn.toNat), 2),
    (isFpTy ty && decide (3 ≤ fn.toNat), 2), (decide (5 ≤ rnd.toNat), 2)]

/-- A load's SZ and SX: SX zero with SZ = 3 (R297). -/
def ckLoad (sz : BitVec 2) (sx : Bool) : Option Nat := firstReason [(sz == 3 && sx, 1)]

/-- An atomic's SZ: 2 or 3. AMIN and AMAX also use SX to choose the comparison (Table 13.12). -/
def ckAtomic (sz : BitVec 2) (sx cmp : Bool) : Option Nat :=
  firstReason [(sz == 3 && sx && !cmp, 1), (decide (sz.toNat < 2), 2)]

/-- A specifier in a closed range (R293). -/
def ckIn (r : BitVec 5) (lo hi : Nat) : Option Nat := firstReason [(!(lo ≤ r.toNat && r.toNat ≤ hi), 2)]

/-- The register pair of LDX and STX: the first of two consecutive specifiers, 0–8 or 10–21 (Table 13.12). -/
def ckPair (d : BitVec 5) : Option Nat :=
  firstReason [(!(d.toNat ≤ 8 || (10 ≤ d.toNat && d.toNat ≤ 21)), 2)]

/-- QBIND (R398, Table 17.6): the A field is zero for the kinds that do not read it, the immediate bits that the kind
leaves unused are zero, D is a queue register, and KIND is 0–6. -/
def ckQbind (d a : BitVec 5) (imm : BitVec 48) : Option Nat :=
  let kind := imm.toNat % 16
  let hi := imm.toNat / 16
  let unused := if kind = 3 then decide (4 ≤ hi) else if kind = 5 then decide (2 ^ 16 ≤ hi ∨ hi % 4 ≠ 0) else decide (0 < hi)
  let usesA := kind == 2 || kind == 5 || kind == 6
  firstReason [(decide (kind < 7) && (unused || (!usesA && a != 0)), 1), (decide (d.toNat < 28), 2),
    (decide (7 ≤ kind), 2)]

/-- Whether Table 19.1 assigns a CSR number (R442). -/
def csrAssigned (n : BitVec 12) : Bool := n.toNat ≤ 0x11 || (0x100 ≤ n.toNat && n.toNat ≤ 0x104)

/-- A CSR number that is read: it is assigned (R442). -/
def ckCsr (n : BitVec 12) : Option Nat := firstReason [(!csrAssigned n, 2)]

/-- A CSR number that is written: it is assigned, and it is not LPR, CID or WSRW, which are read-only at every level.
PCID and CLSTAT depend on the privilege and are judged when the instruction issues (R442). -/
def ckCsrW (n : BitVec 12) : Option Nat :=
  firstReason [(!csrAssigned n, 2), (n == 0x00F || n == 0x101 || n == 0x103, 2)]

/-- CPY and the remote atomic add share an opcode, and KIND in the block tells them apart (R428, R433). -/
def ckCopyKind (atomic : Bool) (blk : Block) : Option Nat :=
  firstReason [(decide (blk.extractLsb' 181 2 = 1) != atomic, 2)]

/-- The ILLOP reason of an instruction's field codes, none when every code is assigned (R301). ILL has reason 0. The
steps that are not thread instructions carry no fields. -/
def fieldReason : Instr → Option Nat
  | .ill => some 0
  | .nop _ => none
  | .add _ _ _ _ => none
  | .sub _ _ _ _ => none
  | .mul _ _ _ _ => none
  | .mulh _ _ _ _ => none
  | .mulhu _ _ _ _ => none
  | .div _ _ _ _ => none
  | .divu _ _ _ _ => none
  | .rem _ _ _ _ => none
  | .remu _ _ _ _ => none
  | .and _ _ _ _ => none
  | .or _ _ _ _ => none
  | .xor _ _ _ _ => none
  | .andn _ _ _ _ => none
  | .shl _ _ _ _ => none
  | .shr _ _ _ _ => none
  | .sar _ _ _ _ => none
  | .rotr _ _ _ _ => none
  | .clz _ _ _ => none
  | .ctz _ _ _ => none
  | .popc _ _ _ => none
  | .min _ _ _ _ => none
  | .max _ _ _ _ => none
  | .minu _ _ _ _ => none
  | .maxu _ _ _ _ => none
  | .mov _ _ _ => none
  | .bswap _ _ _ => none
  | .addi _ _ _ _ => none
  | .muli _ _ _ _ => none
  | .andi _ _ _ _ => none
  | .ori _ _ _ _ => none
  | .xori _ _ _ _ => none
  | .shli _ _ _ _ => none
  | .shri _ _ _ _ => none
  | .sari _ _ _ _ => none
  | .movi _ _ _ => none
  | .movhi _ _ _ _ => none
  | .extr _ _ _ pos len _ => firstReason [(decide (64 < pos.toNat + len.toNat + 1), 2)]
  | .insr _ _ _ _ pos len => firstReason [(decide (64 < pos.toNat + len.toNat + 1), 2)]
  | .sel _ _ _ _ _ => none
  | .lea _ _ _ _ _ _ => none
  | .cmp _ _ _ _ cond => firstReason [(decide (10 ≤ cond.toNat), 2)]
  | .cmpi _ _ _ cond _ => firstReason [(decide (10 ≤ cond.toNat), 2)]
  | .plog _ _ _ _ _ => none
  | .pget _ _ => none
  | .pset _ _ => none
  | .nchild _ _ _ _ => none
  | .nparent _ _ _ => none
  | .nlevel _ _ _ => none
  | .nlvlbase _ _ _ => none
  | .nleaf _ _ _ _ => none
  | .fadd _ _ _ _ ty rm => ckFp ty rm
  | .fsub _ _ _ _ ty rm => ckFp ty rm
  | .fmul _ _ _ _ ty rm => ckFp ty rm
  | .ffma _ _ _ _ _ ty rm => ckFp ty rm
  | .fdiv _ _ _ _ ty rm => ckFp ty rm
  | .fsqrt _ _ _ ty rm => ckFp ty rm
  | .fmin _ _ _ _ ty => ckFpTy ty
  | .fmax _ _ _ _ ty => ckFpTy ty
  | .fcmp _ _ _ _ ty cond => firstReason [(decide (4 ≤ ty.toNat), 2), (decide (6 ≤ cond.toNat), 2)]
  | .fcvt _ _ _ st dt rm => ckConv st dt 6 rm
  | .fclass _ _ _ ty => ckFpTy ty
  | .fsgn _ _ _ _ ty => ckFpTy ty
  | .fsgnn _ _ _ _ ty => ckFpTy ty
  | .fsgnx _ _ _ _ ty => ckFpTy ty
  | .fmovi _ _ ty imm => ckFmovi ty imm
  | .br _ tgt => firstReason [(decide (4 < tgt.toNat % 8), 2)]
  | .brl _ d tgt => firstReason [(decide (4 < tgt.toNat % 8), 2), (decide (24 ≤ d.toNat), 2)]
  | .jmp _ _ => none
  | .jmpl _ d _ => firstReason [(decide (24 ≤ d.toNat), 2)]
  | .loop _ d tgt => firstReason [(decide (4 < tgt.toNat % 8), 2), (decide (23 ≤ d.toNat), 2)]
  | .wfw _ => none
  | .yield _ => none
  | .exit _ => none
  | .ld _ _ _ _ sz sx _ _ => ckLoad sz sx
  | .st _ _ _ _ _ _ _ => none
  | .ldx _ d _ _ _ _ => ckPair d
  | .stx _ d _ _ _ _ => ckPair d
  | .ldv _ _ _ _ sz _ _ _ => firstReason [(sz == 0, 2)]
  | .stv _ _ _ _ sz _ _ _ => firstReason [(sz == 0, 2)]
  | .gath _ _ _ _ sz sx _ _ _ => firstReason [(sz == 3 && sx, 1), (sz == 0, 2)]
  | .scat _ _ _ _ sz _ _ _ => firstReason [(sz == 0, 2)]
  | .aadd _ _ _ _ sz sx _ => ckAtomic sz sx false
  | .aand _ _ _ _ sz sx _ => ckAtomic sz sx false
  | .aor _ _ _ _ sz sx _ => ckAtomic sz sx false
  | .axor _ _ _ _ sz sx _ => ckAtomic sz sx false
  | .amin _ _ _ _ sz sx _ => ckAtomic sz sx true
  | .amax _ _ _ _ sz sx _ => ckAtomic sz sx true
  | .axch _ _ _ _ sz sx _ => ckAtomic sz sx false
  | .acas _ _ _ _ _ sz sx _ => ckAtomic sz sx false
  | .afadd _ _ _ _ sz rm _ => firstReason [(decide (sz.toNat < 2), 2), (decide (5 ≤ rm.toNat), 2)]
  | .ldw _ _ _ _ sz sx _ _ => ckLoad sz sx
  | .ldvw _ _ _ _ sz _ _ _ => firstReason [(sz == 0, 2)]
  | .sbind _ d _ => ckIn d 24 27
  | .sdrain _ a => ckIn a 24 27
  | .sstat _ _ a => ckIn a 24 27
  | .qbind _ d a imm => ckQbind d a imm
  | .qstat _ _ a => ckIn a 28 31
  | .empty _ d => ckIn d 0 22
  | .isfull _ _ a => ckIn a 0 22
  | .putr _ _ _ _ => none
  | .migr _ _ => none
  | .tmodeLight _ => none
  | .tmodeHeavy _ => none
  | .bar _ _ => none
  | .bara _ _ => none
  | .barw _ _ => none
  | .sev _ _ _ => none
  | .wev _ _ => none
  | .bfree _ _ => none
  | .dqpush _ _ _ _ _ => none
  | .dqpop _ _ _ _ _ => none
  | .dqspl _ _ _ _ _ => none
  | .dqstl _ _ _ _ _ => none
  | .item _ _ => none
  | .itemEos _ _ => none
  | .vadd _ _ _ _ ty _ rnd => ckVecR ty rnd
  | .vsub _ _ _ _ ty _ rnd => ckVecR ty rnd
  | .vmul _ _ _ _ ty _ rnd => ckVecR ty rnd
  | .vdiv _ _ _ _ ty _ rnd => ckVecR ty rnd
  | .vfma _ _ _ _ _ ty _ rnd => ckVecR ty rnd
  | .vfnma _ _ _ _ _ ty _ rnd => ckVecR ty rnd
  | .vmin _ _ _ _ ty _ => ckVec ty
  | .vmax _ _ _ _ ty _ => ckVec ty
  | .vabs _ _ _ ty _ => ckVec ty
  | .vneg _ _ _ ty _ => ckVec ty
  | .vand _ _ _ _ ty _ => ckVecInt ty
  | .vor _ _ _ _ ty _ => ckVecInt ty
  | .vxor _ _ _ _ ty _ => ckVecInt ty
  | .vshl _ _ _ _ ty _ => ckVecInt ty
  | .vshr _ _ _ _ ty _ => ckVecInt ty
  | .vsar _ _ _ _ ty _ => ckVecInt ty
  | .vsqrt _ _ _ ty _ rnd => ckVecFp ty rnd
  | .vrsq _ _ _ ty _ rnd => ckVecFp ty rnd
  | .vrcp _ _ _ ty _ rnd => ckVecFp ty rnd
  | .vexp2 _ _ _ ty _ rnd => ckVecFp ty rnd
  | .vlog2 _ _ _ ty _ rnd => ckVecFp ty rnd
  | .vcmp _ _ _ _ ty _ cond => firstReason [(ty == 7, 2), (decide (10 ≤ cond.toNat), 2), (isFpTy ty && decide (6 ≤ cond.toNat), 2)]
  | .vcvt _ _ _ st ty _ rnd => ckConv st ty 7 rnd
  | .vdot _ _ _ _ _ ty _ rnd => firstReason [(isIntTy ty && ty != 7 && rnd != 0, 1), (ty == 0 || ty == 4 || ty == 7, 2), (decide (5 ≤ rnd.toNat), 2)]
  | .vmov _ _ _ ty _ => ckVec ty
  | .vsel _ _ _ _ ty _ => ckVec ty
  | .vbcast _ _ _ ty _ => ckVec ty
  | .vfill _ _ ty _ imm => ckVfill ty imm
  | .vext _ _ _ lane ty => firstReason [(ty == 7, 2), (decide (laneCount ty ≤ lane.toNat), 2)]
  | .vins _ _ _ lane ty => firstReason [(ty == 7, 2), (decide (laneCount ty ≤ lane.toNat), 2)]
  | .viota _ _ ty _ => ckVecInt ty
  | .vcmprs _ _ _ ty _ => ckVec ty
  | .vexpnd _ _ _ ty _ => ckVec ty
  | .vshuf _ _ _ _ ty _ => ckVec ty
  | .vlut _ _ _ _ ty _ => ckVec ty
  | .vred _ _ _ fn ty _ rnd => ckRed fn ty rnd
  | .vscan _ _ _ fn ty _ rnd => ckRed fn ty rnd
  | .vsort _ vd va vb vc _ ty _ => firstReason [(ty == 7, 2), (vc == vd || vc == va || vc == vb, 2)]
  | .vmerge _ vd va vb vc _ ty _ => firstReason [(ty == 7, 2), (vc == vd || vc == va || vc == vb, 2)]
  | .vpackq _ _ _ _ _ _ => none
  | .vunpkq _ _ _ _ _ _ => none
  | .mlog _ _ _ _ _ => none
  | .mpopc _ _ _ => none
  | .mget _ _ _ => none
  | .mset _ _ _ => none
  | .pmm _ _ _ _ => none
  | .pdsc _ _ _ _ => none
  | .pdgr _ _ _ _ => none
  | .pwait _ _ _ => none
  | .pqry _ _ _ _ => none
  | .pclr _ _ slot f64 => firstReason [(f64 && slot.getLsbD 0, 2)]
  | .pscl _ _ _ slot f64 => firstReason [(f64 && slot.getLsbD 0, 2)]
  | .plds _ _ _ slot f64 => firstReason [(f64 && slot.getLsbD 0, 2)]
  | .psts _ _ _ slot f64 => firstReason [(f64 && slot.getLsbD 0, 2)]
  | .prdl _ _ _ _ _ => none
  | .pabt _ _ _ => none
  | .prdt _ _ _ _ => none
  | .pwrt _ _ _ _ => none
  | .pord _ => none
  | .cpy _ blk => ckCopyKind false blk
  | .remoteAtomicAdd _ blk => ckCopyKind true blk
  | .cpym _ _ _ => none
  | .gathr _ _ => none
  | .cpyst _ _ _ => none
  | .tbinit _ _ _ => none
  | .tbarv _ _ => none
  | .tbarx _ _ _ => none
  | .tbexp _ _ _ => none
  | .tbwait _ _ _ => none
  | .tbtry _ _ _ _ => none
  | .csrr _ _ n => ckCsr n
  | .csrw _ _ n => ckCsrW n
  | .csrscSet _ _ _ n => ckCsrW n
  | .csrscClr _ _ _ n => ckCsrW n
  | .trap _ _ => none
  | .sysc _ _ => none
  | .rft _ => none
  | .nret _ => none
  | .feat _ _ _ => none
  | .tlbi _ _ => none
  | .tlbiOne _ _ _ => none
  | .trc _ _ _ => none
  | .lutld _ _ => none
  | .ctxsw _ _ _ => none
  | .ckpt _ => none
  | .halt _ => none
  | .fenceo _ => none
  | .coldReset => none
  | .warmReset => none
  | .secureBoot _ => none
  | .hostLinkTrain _ _ => none
  | .hostLinkModuleFail _ => none
  | .scaleOutPortFail _ => none
  | .scaleOutPortUp _ => none
  | .remoteRouteTimeout _ _ => none
  | .slwAssert => none
  | .supplyLossSequence => none
  | .thermtrip _ _ => none
  | .pstpFrame _ _ _ => none
  | .telemetryLost => none
  | .droopEvaluation => none
  | .eceilStep => none
  | .shedGraceExpiry _ => none
  | .sensorSample _ _ _ => none
  | .thermalCapDrop _ => none
  | .thermalCapRise _ => none
  | .dramThrottle _ => none
  | .dramThrottleLift _ => none
  | .relocationMark _ => none
  | .relocation _ => none
  | .operatingPointChange _ => none
  | .coreSleep _ => none
  | .coreWake _ => none
  | .energyRefill => none
  | .wsRefreshWindow => none
  | .structureError _ _ _ _ => none
  | .selfTestDone _ _ _ => none
  | .unrecoverableFault _ _ _ _ _ => none
  | .checkpointPeriod _ => none
  | .intervalSeal _ => none
  | .rollback _ => none
  | .bar0RegisterWrite _ _ => none
  | .q0ringWrite _ => none
  | .q0cplWrite _ => none
  | .pkgidWrite _ => none
  | .pstpstRead => none
  | .kick _ _ => none
  | .cplheadWrite _ _ => none
  | .commandFetch _ => none
  | .headerReread _ => none
  | .completionRecordWrite _ => none
  | .nopPacket _ => none
  | .launch _ => none
  | .copy _ => none
  | .hubCopyDone _ => none
  | .signalStore _ => none
  | .signalAtomicAdd _ => none
  | .signalArrive _ => none
  | .waitv _ => none
  | .waitvReevaluate _ => none
  | .waitvTimeout _ => none
  | .wsload _ => none
  | .wssealSeal _ => none
  | .wssealReopen _ => none
  | .create => none
  | .destroy => none
  | .qset => none
  | .qreset => none
  | .wsreg => none
  | .wsfree => none
  | .ckptPacket _ => none
  | .resync => none
  | .preemptSwapOut _ => none
  | .preemptRestore _ => none
  | .profileStart _ => none
  | .profileStop _ => none
  | .profileSpill _ => none
  | .profileAccount => none
  | .qfence _ => none
  | .attest _ => none
  | .bbread => none
  | .fwstage => none
  | .fwactivate => none
  | .sensrd => none
  | .dbghalt => none
  | .dbgresume => none
  | .dbgstep => none
  | .dbgread => none
  | .dbgwrite => none
  | .dbgcfg => none
  | .mailboxDone => none
  | .breakpointHalt _ _ => none
  | .hostMemAccess _ _ _ _ => none
  | .hostHoldTimeout _ => none
  | .placementReserve => none
  | .placementCommit => none
  | .scrimgCopyDone _ => none
  | .waitListStarvation _ => none
  | .gangPreempt _ => none
  | .swapOut _ => none
  | .crewRestore _ => none
  | .idleSwap _ => none
  | .itemDispense _ _ => none
  | .eosDispense _ _ _ _ => none
  | .graphRetire _ => none
  | .asyncTrapEntry _ _ => none
  | .notifyEntry _ _ => none
  | .asyncResultLand _ _ _ => none
  | .accessPerformed _ _ => none
  | .sendDelivery _ _ => none
  | .putrLand _ _ => none
  | .sendTimeout _ _ => none
  | .curdAdmit _ _ => none
  | .curdResume _ => none
  | .closetSwap _ => none
  | .movementSwap _ => none
  | .pactForm _ _ => none
  | .pactTimeout _ _ => none
  | .pressEntryStart _ _ => none
  | .pactStreamEnd _ => none
  | .pactDeliveryDone _ _ => none
  | .pactSuspend _ _ => none
  | .pactResume _ => none
  | .operandFault _ _ _ _ _ => none
  | .deliveryFault _ _ _ _ => none
  | .copySectorLand _ _ _ => none
  | .copyFailure _ _ _ _ => none
  | .cpymAccept _ => none
  | .remoteWriteArrive _ _ _ _ _ _ _ _ => none
  | .streamElementFetch _ _ _ => none
  | .streamElementLand _ _ _ _ => none
  | .tlbiComplete _ _ => none
  | .slwRelease => none
  | .wsloadDone _ => none
  | .remoteHoldWaitTimeout _ => none
  | .writeAcknowledge _ _ _ => none
  | .keyTreeStateLoad => none
  | .vstbyFailure => none
  | .slotCommandDone _ _ => none

end Sys2Proof
end

