-- ==== Sys2Proof/WellFormed.lean ====
section
/-! DEFINITION. Well-formed instructions: those whose operand fields hold no reserved code, so that the hardware
issues them instead of trapping with ILLOP (R291 to R297, R304). -/

namespace Sys2Proof

/-- An instruction is well formed when the opcode map reserves none of its field codes. -/
def Instr.WellFormed (i : Instr) : Prop := fieldReason i = none

/-- Well-formedness as a Bool. -/
def Instr.wellFormed (i : Instr) : Bool := (fieldReason i).isNone

theorem Instr.wellFormed_iff (i : Instr) : i.wellFormed = true ↔ i.WellFormed := by
  simp [Instr.wellFormed, Instr.WellFormed]

end Sys2Proof
end

