-- ==== Sys2Proof/Decode.lean ====
section
/-! DEFINITION. The decoder and the encoder of instruction slots and fetch lines (Tables 13.1 to 13.16): which
instruction a slot holds, the ILLOP reason of one that holds none (R301), and the words of a well-formed instruction. -/

namespace Sys2Proof

/-- The fields of Table 13.3, in the order of the slot from bit 95 down. -/
structure Fields where
  op : BitVec 8
  g : BitVec 4
  n : Bool
  w : BitVec 3
  e : BitVec 2
  x : Bool
  d : BitVec 5
  a : BitVec 5
  b : BitVec 5
  c : BitVec 5
  f : BitVec 9
  imm : BitVec 48
deriving DecidableEq, Repr

/-- One bit of a 9-bit F field. -/
def bit9 (b : Bool) (k : Nat) : BitVec 9 := (BitVec.ofBool b).setWidth 9 <<< k

/-- One bit of a 48-bit IMM field. -/
def bit48 (b : Bool) (k : Nat) : BitVec 48 := (BitVec.ofBool b).setWidth 48 <<< k

/-- The fields of a slot (R291, Table 13.3). -/
def Fields.unpack (s : Slot) : Fields where
  op := s.extractLsb' 88 8
  g := s.extractLsb' 84 4
  n := s.getLsbD 83
  w := s.extractLsb' 80 3
  e := s.extractLsb' 78 2
  x := s.getLsbD 77
  d := s.extractLsb' 72 5
  a := s.extractLsb' 67 5
  b := s.extractLsb' 62 5
  c := s.extractLsb' 57 5
  f := s.extractLsb' 48 9
  imm := s.extractLsb' 0 48

/-- The slot that holds the fields (Table 13.3). -/
def Fields.pack (f : Fields) : Slot :=
  (f.op ++ f.g ++ BitVec.ofBool f.n ++ f.w ++ f.e ++ BitVec.ofBool f.x ++ f.d ++ f.a ++ f.b ++ f.c ++ f.f ++ f.imm).cast
    (by decide)

/-- The common header of the fields. -/
def Fields.hdr (f : Fields) : Hdr := ⟨f.g, f.n, f.w, f.e⟩

/-- Fields from an opcode, a header, the X bit and the operand fields. -/
def mkFields (op : BitVec 8) (h : Hdr) (x : Bool) (d a b c : BitVec 5) (f : BitVec 9) (imm : BitVec 48) : Fields :=
  ⟨op, h.g, h.n, h.w, h.e, x, d, a, b, c, f, imm⟩

/-- The fields of an instruction, from Tables 13.4 to 13.16; none for ILL, whose only encoding fault is its opcode,
and for the steps that no slot encodes. -/
def encF : Instr → Option Fields
  | .ill => none
  | .nop h => some (mkFields 0x01 h false 0 0 0 0 0 0)
  | .add h d a b => some (mkFields 0x02 h false d a b 0 0 0)
  | .sub h d a b => some (mkFields 0x04 h false d a b 0 0 0)
  | .mul h d a b => some (mkFields 0x05 h false d a b 0 0 0)
  | .mulh h d a b => some (mkFields 0x07 h false d a b 0 0 0)
  | .mulhu h d a b => some (mkFields 0x08 h false d a b 0 0 0)
  | .div h d a b => some (mkFields 0x09 h false d a b 0 0 0)
  | .divu h d a b => some (mkFields 0x0A h false d a b 0 0 0)
  | .rem h d a b => some (mkFields 0x0B h false d a b 0 0 0)
  | .remu h d a b => some (mkFields 0x0C h false d a b 0 0 0)
  | .and h d a b => some (mkFields 0x0D h false d a b 0 0 0)
  | .or h d a b => some (mkFields 0x0E h false d a b 0 0 0)
  | .xor h d a b => some (mkFields 0x0F h false d a b 0 0 0)
  | .andn h d a b => some (mkFields 0x10 h false d a b 0 0 0)
  | .shl h d a b => some (mkFields 0x14 h false d a b 0 0 0)
  | .shr h d a b => some (mkFields 0x15 h false d a b 0 0 0)
  | .sar h d a b => some (mkFields 0x16 h false d a b 0 0 0)
  | .rotr h d a b => some (mkFields 0x17 h false d a b 0 0 0)
  | .min h d a b => some (mkFields 0x1E h false d a b 0 0 0)
  | .max h d a b => some (mkFields 0x1F h false d a b 0 0 0)
  | .minu h d a b => some (mkFields 0x20 h false d a b 0 0 0)
  | .maxu h d a b => some (mkFields 0x21 h false d a b 0 0 0)
  | .addi h d a imm => some (mkFields 0x03 h false d a 0 0 0 imm)
  | .muli h d a imm => some (mkFields 0x06 h false d a 0 0 0 imm)
  | .andi h d a imm => some (mkFields 0x11 h false d a 0 0 0 imm)
  | .ori h d a imm => some (mkFields 0x12 h false d a 0 0 0 imm)
  | .xori h d a imm => some (mkFields 0x13 h false d a 0 0 0 imm)
  | .shli h d a n => some (mkFields 0x18 h false d a 0 0 0 (n.setWidth 48))
  | .shri h d a n => some (mkFields 0x19 h false d a 0 0 0 (n.setWidth 48))
  | .sari h d a n => some (mkFields 0x1A h false d a 0 0 0 (n.setWidth 48))
  | .clz h d a => some (mkFields 0x1B h false d a 0 0 0 0)
  | .ctz h d a => some (mkFields 0x1C h false d a 0 0 0 0)
  | .popc h d a => some (mkFields 0x1D h false d a 0 0 0 0)
  | .bswap h d a => some (mkFields 0x2F h false d a 0 0 0 0)
  | .mov h d a => some (mkFields 0x22 h false d a 0 0 0 0)
  | .movi h d imm => some (mkFields 0x23 h false d 0 0 0 0 imm)
  | .movhi h d a imm => some (mkFields 0x24 h false d a 0 0 0 (imm.setWidth 48))
  | .extr h d a pos len sx => some (mkFields 0x25 h false d a 0 0 0 ((pos.setWidth 48) ||| (len.setWidth 48 <<< 6) ||| (bit48 sx 12)))
  | .insr h d a b pos len => some (mkFields 0x26 h false d a b 0 0 ((pos.setWidth 48) ||| (len.setWidth 48 <<< 6)))
  | .sel h d a b p => some (mkFields 0x27 h false d a b 0 (p.setWidth 9) 0)
  | .lea h d a b sc imm => some (mkFields 0x28 h false d a b 0 (sc.setWidth 9 <<< 3) imm)
  | .cmp h pd a b cond => some (mkFields 0x29 h false (pd.setWidth 5) a b 0 (cond.setWidth 9) 0)
  | .cmpi h pd a cond imm => some (mkFields 0x2A h false (pd.setWidth 5) a 0 0 (cond.setWidth 9) imm)
  | .plog h pd pa pb tab => some (mkFields 0x2B h false (pd.setWidth 5) (pa.setWidth 5) (pb.setWidth 5) 0 (tab.setWidth 9) 0)
  | .pget h d => some (mkFields 0x2C h false d 0 0 0 0 0)
  | .pset h a => some (mkFields 0x2D h false 0 a 0 0 0 0)
  | .nchild h d a b => some (mkFields 0x2E h false d a b 0 0 0)
  | .nleaf h d a b => some (mkFields 0x2E h false d a b 0 4 0)
  | .nparent h d a => some (mkFields 0x2E h false d a 0 0 1 0)
  | .nlevel h d a => some (mkFields 0x2E h false d a 0 0 2 0)
  | .nlvlbase h d a => some (mkFields 0x2E h false d a 0 0 3 0)
  | .fadd h d a b ty rm => some (mkFields 0x30 h false d a b 0 ((ty.setWidth 9) ||| (rm.setWidth 9 <<< 3)) 0)
  | .fsub h d a b ty rm => some (mkFields 0x31 h false d a b 0 ((ty.setWidth 9) ||| (rm.setWidth 9 <<< 3)) 0)
  | .fmul h d a b ty rm => some (mkFields 0x32 h false d a b 0 ((ty.setWidth 9) ||| (rm.setWidth 9 <<< 3)) 0)
  | .fdiv h d a b ty rm => some (mkFields 0x34 h false d a b 0 ((ty.setWidth 9) ||| (rm.setWidth 9 <<< 3)) 0)
  | .ffma h d a b c ty rm => some (mkFields 0x33 h false d a b c ((ty.setWidth 9) ||| (rm.setWidth 9 <<< 3)) 0)
  | .fsqrt h d a ty rm => some (mkFields 0x35 h false d a 0 0 ((ty.setWidth 9) ||| (rm.setWidth 9 <<< 3)) 0)
  | .fmin h d a b ty => some (mkFields 0x36 h false d a b 0 (ty.setWidth 9) 0)
  | .fmax h d a b ty => some (mkFields 0x37 h false d a b 0 (ty.setWidth 9) 0)
  | .fcmp h pd a b ty cond => some (mkFields 0x38 h false (pd.setWidth 5) a b 0 ((cond.setWidth 9) ||| (ty.setWidth 9 <<< 4)) 0)
  | .fcvt h d a st dt rm => some (mkFields 0x39 h false d a 0 0 ((dt.setWidth 9) ||| (rm.setWidth 9 <<< 3) ||| (st.setWidth 9 <<< 6)) 0)
  | .fclass h d a ty => some (mkFields 0x3A h false d a 0 0 (ty.setWidth 9) 0)
  | .fsgn h d a b ty => some (mkFields 0x3B h false d a b 0 (ty.setWidth 9) 0)
  | .fsgnn h d a b ty => some (mkFields 0x3B h false d a b 0 ((ty.setWidth 9) ||| 0x008) 0)
  | .fsgnx h d a b ty => some (mkFields 0x3B h false d a b 0 ((ty.setWidth 9) ||| 0x010) 0)
  | .fmovi h d ty imm => some (mkFields 0x3C h false d 0 0 0 (ty.setWidth 9) imm)
  | .br h tgt => some (mkFields 0x40 h false 0 0 0 0 0 tgt)
  | .brl h d tgt => some (mkFields 0x41 h false d 0 0 0 0 tgt)
  | .jmp h a => some (mkFields 0x42 h false 0 a 0 0 0 0)
  | .jmpl h d a => some (mkFields 0x43 h false d a 0 0 0 0)
  | .loop h d tgt => some (mkFields 0x44 h false d 0 0 0 0 tgt)
  | .wfw h => some (mkFields 0x45 h false 0 0 0 0 0 0)
  | .yield h => some (mkFields 0x46 h false 0 0 0 0 0 0)
  | .exit h => some (mkFields 0x47 h false 0 0 0 0 0 0)
  | .ld h d a b sz sx sc imm => some (mkFields 0x50 h false d a b 0 ((sz.setWidth 9) ||| (bit9 sx 2) ||| (sc.setWidth 9 <<< 3)) imm)
  | .ldw h d a b sz sx sc imm => some (mkFields 0x61 h false d a b 0 ((sz.setWidth 9) ||| (bit9 sx 2) ||| (sc.setWidth 9 <<< 3)) imm)
  | .st h d a b sz sc imm => some (mkFields 0x52 h false d a b 0 ((sz.setWidth 9) ||| (sc.setWidth 9 <<< 3)) imm)
  | .ldx h d a b sc imm => some (mkFields 0x51 h false d a b 0 (sc.setWidth 9 <<< 3) imm)
  | .stx h d a b sc imm => some (mkFields 0x53 h false d a b 0 (sc.setWidth 9 <<< 3) imm)
  | .ldv h vd a b sz mk sc imm => some (mkFields 0x54 h false (vd.setWidth 5) a b 0 ((sz.setWidth 9) ||| (sc.setWidth 9 <<< 3) ||| (mk.setWidth 9 <<< 6)) imm)
  | .stv h vd a b sz mk sc imm => some (mkFields 0x55 h false (vd.setWidth 5) a b 0 ((sz.setWidth 9) ||| (sc.setWidth 9 <<< 3) ||| (mk.setWidth 9 <<< 6)) imm)
  | .ldvw h vd a b sz mk sc imm => some (mkFields 0x62 h false (vd.setWidth 5) a b 0 ((sz.setWidth 9) ||| (sc.setWidth 9 <<< 3) ||| (mk.setWidth 9 <<< 6)) imm)
  | .gath h vd a vb sz sx mk sc imm => some (mkFields 0x56 h false (vd.setWidth 5) a (vb.setWidth 5) 0 ((sz.setWidth 9) ||| (bit9 sx 2) ||| (sc.setWidth 9 <<< 3) ||| (mk.setWidth 9 <<< 6)) imm)
  | .scat h vd a vb sz mk sc imm => some (mkFields 0x57 h false (vd.setWidth 5) a (vb.setWidth 5) 0 ((sz.setWidth 9) ||| (sc.setWidth 9 <<< 3) ||| (mk.setWidth 9 <<< 6)) imm)
  | .aadd h d a b sz sx imm => some (mkFields 0x58 h false d a b 0 ((sz.setWidth 9) ||| (bit9 sx 2)) imm)
  | .aand h d a b sz sx imm => some (mkFields 0x59 h false d a b 0 ((sz.setWidth 9) ||| (bit9 sx 2)) imm)
  | .aor h d a b sz sx imm => some (mkFields 0x5A h false d a b 0 ((sz.setWidth 9) ||| (bit9 sx 2)) imm)
  | .axor h d a b sz sx imm => some (mkFields 0x5B h false d a b 0 ((sz.setWidth 9) ||| (bit9 sx 2)) imm)
  | .amin h d a b sz sx imm => some (mkFields 0x5C h false d a b 0 ((sz.setWidth 9) ||| (bit9 sx 2)) imm)
  | .amax h d a b sz sx imm => some (mkFields 0x5D h false d a b 0 ((sz.setWidth 9) ||| (bit9 sx 2)) imm)
  | .axch h d a b sz sx imm => some (mkFields 0x5E h false d a b 0 ((sz.setWidth 9) ||| (bit9 sx 2)) imm)
  | .acas h d a b c sz sx imm => some (mkFields 0x5F h false d a b c ((sz.setWidth 9) ||| (bit9 sx 2)) imm)
  | .afadd h d a b sz rm imm => some (mkFields 0x60 h false d a b 0 ((sz.setWidth 9) ||| (rm.setWidth 9 <<< 3)) imm)
  | .sbind h d _ => some (mkFields 0x70 h true d 0 0 0 0 0)
  | .sdrain h a => some (mkFields 0x71 h false 0 a 0 0 0 0)
  | .sstat h d a => some (mkFields 0x72 h false d a 0 0 0 0)
  | .qbind h d a imm => some (mkFields 0x73 h false d a 0 0 0 imm)
  | .qstat h d a => some (mkFields 0x74 h false d a 0 0 0 0)
  | .empty h d => some (mkFields 0x75 h false d 0 0 0 0 0)
  | .isfull h pd a => some (mkFields 0x76 h false (pd.setWidth 5) a 0 0 0 0)
  | .putr h a b rg => some (mkFields 0x77 h false 0 a b 0 (rg.setWidth 9) 0)
  | .migr h a => some (mkFields 0x78 h false 0 a 0 0 0 0)
  | .tmodeLight h => some (mkFields 0x79 h false 0 0 0 0 1 0)
  | .tmodeHeavy h => some (mkFields 0x79 h false 0 0 0 0 0 0)
  | .bar h n => some (mkFields 0x80 h false 0 0 0 0 (n.setWidth 9) 0)
  | .bara h n => some (mkFields 0x81 h false 0 0 0 0 (n.setWidth 9) 0)
  | .barw h n => some (mkFields 0x82 h false 0 0 0 0 (n.setWidth 9) 0)
  | .sev h a e => some (mkFields 0x83 h false 0 a 0 0 (e.setWidth 9) 0)
  | .wev h e => some (mkFields 0x84 h false 0 0 0 0 (e.setWidth 9) 0)
  | .bfree h e => some (mkFields 0x85 h false 0 0 0 0 (e.setWidth 9) 0)
  | .dqpush h d a b imm => some (mkFields 0x86 h false d a b 0 0 imm)
  | .dqpop h d a b imm => some (mkFields 0x87 h false d a b 0 0 imm)
  | .dqspl h d a b imm => some (mkFields 0x88 h false d a b 0 0 imm)
  | .dqstl h d a b imm => some (mkFields 0x89 h false d a b 0 0 imm)
  | .item h a => some (mkFields 0x8A h false 0 a 0 0 0 0)
  | .itemEos h a => some (mkFields 0x8A h false 0 a 0 0 1 0)
  | .vadd h vd va vb ty mk rnd => some (mkFields 0x90 h false (vd.setWidth 5) (va.setWidth 5) (vb.setWidth 5) 0 ((ty.setWidth 9) ||| (mk.setWidth 9 <<< 3) ||| (rnd.setWidth 9 <<< 6)) 0)
  | .vsub h vd va vb ty mk rnd => some (mkFields 0x91 h false (vd.setWidth 5) (va.setWidth 5) (vb.setWidth 5) 0 ((ty.setWidth 9) ||| (mk.setWidth 9 <<< 3) ||| (rnd.setWidth 9 <<< 6)) 0)
  | .vmul h vd va vb ty mk rnd => some (mkFields 0x92 h false (vd.setWidth 5) (va.setWidth 5) (vb.setWidth 5) 0 ((ty.setWidth 9) ||| (mk.setWidth 9 <<< 3) ||| (rnd.setWidth 9 <<< 6)) 0)
  | .vdiv h vd va vb ty mk rnd => some (mkFields 0x99 h false (vd.setWidth 5) (va.setWidth 5) (vb.setWidth 5) 0 ((ty.setWidth 9) ||| (mk.setWidth 9 <<< 3) ||| (rnd.setWidth 9 <<< 6)) 0)
  | .vmin h vd va vb ty mk => some (mkFields 0x95 h false (vd.setWidth 5) (va.setWidth 5) (vb.setWidth 5) 0 ((ty.setWidth 9) ||| (mk.setWidth 9 <<< 3)) 0)
  | .vmax h vd va vb ty mk => some (mkFields 0x96 h false (vd.setWidth 5) (va.setWidth 5) (vb.setWidth 5) 0 ((ty.setWidth 9) ||| (mk.setWidth 9 <<< 3)) 0)
  | .vand h vd va vb ty mk => some (mkFields 0xA2 h false (vd.setWidth 5) (va.setWidth 5) (vb.setWidth 5) 0 ((ty.setWidth 9) ||| (mk.setWidth 9 <<< 3)) 0)
  | .vor h vd va vb ty mk => some (mkFields 0xA3 h false (vd.setWidth 5) (va.setWidth 5) (vb.setWidth 5) 0 ((ty.setWidth 9) ||| (mk.setWidth 9 <<< 3)) 0)
  | .vxor h vd va vb ty mk => some (mkFields 0xA4 h false (vd.setWidth 5) (va.setWidth 5) (vb.setWidth 5) 0 ((ty.setWidth 9) ||| (mk.setWidth 9 <<< 3)) 0)
  | .vshl h vd va vb ty mk => some (mkFields 0xA5 h false (vd.setWidth 5) (va.setWidth 5) (vb.setWidth 5) 0 ((ty.setWidth 9) ||| (mk.setWidth 9 <<< 3)) 0)
  | .vshr h vd va vb ty mk => some (mkFields 0xA6 h false (vd.setWidth 5) (va.setWidth 5) (vb.setWidth 5) 0 ((ty.setWidth 9) ||| (mk.setWidth 9 <<< 3)) 0)
  | .vsar h vd va vb ty mk => some (mkFields 0xA7 h false (vd.setWidth 5) (va.setWidth 5) (vb.setWidth 5) 0 ((ty.setWidth 9) ||| (mk.setWidth 9 <<< 3)) 0)
  | .vsel h vd va vb ty mk => some (mkFields 0xA0 h false (vd.setWidth 5) (va.setWidth 5) (vb.setWidth 5) 0 ((ty.setWidth 9) ||| (mk.setWidth 9 <<< 3)) 0)
  | .vshuf h vd va vb ty mk => some (mkFields 0xAC h false (vd.setWidth 5) (va.setWidth 5) (vb.setWidth 5) 0 ((ty.setWidth 9) ||| (mk.setWidth 9 <<< 3)) 0)
  | .vlut h vd va vb ty mk => some (mkFields 0xB2 h false (vd.setWidth 5) (va.setWidth 5) (vb.setWidth 5) 0 ((ty.setWidth 9) ||| (mk.setWidth 9 <<< 3)) 0)
  | .vfma h vd va vb vc ty mk rnd => some (mkFields 0x93 h false (vd.setWidth 5) (va.setWidth 5) (vb.setWidth 5) (vc.setWidth 5) ((ty.setWidth 9) ||| (mk.setWidth 9 <<< 3) ||| (rnd.setWidth 9 <<< 6)) 0)
  | .vfnma h vd va vb vc ty mk rnd => some (mkFields 0x94 h false (vd.setWidth 5) (va.setWidth 5) (vb.setWidth 5) (vc.setWidth 5) ((ty.setWidth 9) ||| (mk.setWidth 9 <<< 3) ||| (rnd.setWidth 9 <<< 6)) 0)
  | .vdot h vd va vb vc ty mk rnd => some (mkFields 0xAF h false (vd.setWidth 5) (va.setWidth 5) (vb.setWidth 5) (vc.setWidth 5) ((ty.setWidth 9) ||| (mk.setWidth 9 <<< 3) ||| (rnd.setWidth 9 <<< 6)) 0)
  | .vsqrt h vd va ty mk rnd => some (mkFields 0x9A h false (vd.setWidth 5) (va.setWidth 5) 0 0 ((ty.setWidth 9) ||| (mk.setWidth 9 <<< 3) ||| (rnd.setWidth 9 <<< 6)) 0)
  | .vrsq h vd va ty mk rnd => some (mkFields 0x9B h false (vd.setWidth 5) (va.setWidth 5) 0 0 ((ty.setWidth 9) ||| (mk.setWidth 9 <<< 3) ||| (rnd.setWidth 9 <<< 6)) 0)
  | .vrcp h vd va ty mk rnd => some (mkFields 0x9C h false (vd.setWidth 5) (va.setWidth 5) 0 0 ((ty.setWidth 9) ||| (mk.setWidth 9 <<< 3) ||| (rnd.setWidth 9 <<< 6)) 0)
  | .vexp2 h vd va ty mk rnd => some (mkFields 0x9D h false (vd.setWidth 5) (va.setWidth 5) 0 0 ((ty.setWidth 9) ||| (mk.setWidth 9 <<< 3) ||| (rnd.setWidth 9 <<< 6)) 0)
  | .vlog2 h vd va ty mk rnd => some (mkFields 0x9E h false (vd.setWidth 5) (va.setWidth 5) 0 0 ((ty.setWidth 9) ||| (mk.setWidth 9 <<< 3) ||| (rnd.setWidth 9 <<< 6)) 0)
  | .vabs h vd va ty mk => some (mkFields 0x97 h false (vd.setWidth 5) (va.setWidth 5) 0 0 ((ty.setWidth 9) ||| (mk.setWidth 9 <<< 3)) 0)
  | .vneg h vd va ty mk => some (mkFields 0x98 h false (vd.setWidth 5) (va.setWidth 5) 0 0 ((ty.setWidth 9) ||| (mk.setWidth 9 <<< 3)) 0)
  | .vmov h vd va ty mk => some (mkFields 0xB5 h false (vd.setWidth 5) (va.setWidth 5) 0 0 ((ty.setWidth 9) ||| (mk.setWidth 9 <<< 3)) 0)
  | .vcmprs h vd va ty mk => some (mkFields 0xB7 h false (vd.setWidth 5) (va.setWidth 5) 0 0 ((ty.setWidth 9) ||| (mk.setWidth 9 <<< 3)) 0)
  | .vexpnd h vd va ty mk => some (mkFields 0xB8 h false (vd.setWidth 5) (va.setWidth 5) 0 0 ((ty.setWidth 9) ||| (mk.setWidth 9 <<< 3)) 0)
  | .vcmp h md va vb ty mk cond => some (mkFields 0x9F h false (md.setWidth 5) (va.setWidth 5) (vb.setWidth 5) 0 ((ty.setWidth 9) ||| (mk.setWidth 9 <<< 3)) (cond.setWidth 48))
  | .vcvt h vd va st ty mk rnd => some (mkFields 0xA1 h false (vd.setWidth 5) (va.setWidth 5) 0 0 ((ty.setWidth 9) ||| (mk.setWidth 9 <<< 3) ||| (rnd.setWidth 9 <<< 6)) (st.setWidth 48))
  | .vbcast h vd a ty mk => some (mkFields 0xA8 h false (vd.setWidth 5) a 0 0 ((ty.setWidth 9) ||| (mk.setWidth 9 <<< 3)) 0)
  | .vext h d va lane ty => some (mkFields 0xA9 h false d (va.setWidth 5) 0 0 (ty.setWidth 9) (lane.setWidth 48))
  | .vins h vd a lane ty => some (mkFields 0xAA h false (vd.setWidth 5) a 0 0 (ty.setWidth 9) (lane.setWidth 48))
  | .viota h vd ty mk => some (mkFields 0xAB h false (vd.setWidth 5) 0 0 0 ((ty.setWidth 9) ||| (mk.setWidth 9 <<< 3)) 0)
  | .vred h d va fn ty mk rnd => some (mkFields 0xAD h false d (va.setWidth 5) 0 0 ((ty.setWidth 9) ||| (mk.setWidth 9 <<< 3) ||| (rnd.setWidth 9 <<< 6)) (fn.setWidth 48))
  | .vscan h vd va fn ty mk rnd => some (mkFields 0xAE h false (vd.setWidth 5) (va.setWidth 5) 0 0 ((ty.setWidth 9) ||| (mk.setWidth 9 <<< 3) ||| (rnd.setWidth 9 <<< 6)) (fn.setWidth 48))
  | .vpackq h vd va vb bq4 mk => some (mkFields 0xB0 h false (vd.setWidth 5) (va.setWidth 5) (vb.setWidth 5) 0 (1 ||| (mk.setWidth 9 <<< 3)) (bit48 bq4 0))
  | .vunpkq h vd va bq4 hi mk => some (mkFields 0xB1 h false (vd.setWidth 5) (va.setWidth 5) 0 0 (1 ||| (mk.setWidth 9 <<< 3)) ((bit48 bq4 0) ||| (bit48 hi 1)))
  | .vsort h vd va vb vc desc ty mk => some (mkFields 0xB3 h false (vd.setWidth 5) (va.setWidth 5) (vb.setWidth 5) (vc.setWidth 5) ((ty.setWidth 9) ||| (mk.setWidth 9 <<< 3)) (bit48 desc 0))
  | .vmerge h vd va vb vc desc ty mk => some (mkFields 0xB4 h false (vd.setWidth 5) (va.setWidth 5) (vb.setWidth 5) (vc.setWidth 5) ((ty.setWidth 9) ||| (mk.setWidth 9 <<< 3)) (bit48 desc 0))
  | .vfill h vd ty mk imm => some (mkFields 0xB6 h false (vd.setWidth 5) 0 0 0 ((ty.setWidth 9) ||| (mk.setWidth 9 <<< 3)) imm)
  | .mlog h md ma mb tab => some (mkFields 0xB9 h false (md.setWidth 5) (ma.setWidth 5) (mb.setWidth 5) 0 0 (tab.setWidth 48))
  | .mpopc h d ma => some (mkFields 0xBA h false d (ma.setWidth 5) 0 0 0 0)
  | .mget h d ma => some (mkFields 0xBB h false d (ma.setWidth 5) 0 0 0 0)
  | .mset h md a => some (mkFields 0xBC h false (md.setWidth 5) a 0 0 0 0)
  | .pmm h port tag _ => some (mkFields 0xC0 h true 0 0 0 0 (port.setWidth 9) (tag.setWidth 48))
  | .pdsc h port tag _ => some (mkFields 0xC1 h true 0 0 0 0 (port.setWidth 9) (tag.setWidth 48))
  | .pdgr h port tag _ => some (mkFields 0xC2 h true 0 0 0 0 (port.setWidth 9) (tag.setWidth 48))
  | .pwait h port tag => some (mkFields 0xC3 h false 0 0 0 0 (port.setWidth 9) (tag.setWidth 48))
  | .pabt h port tag => some (mkFields 0xCA h false 0 0 0 0 (port.setWidth 9) (tag.setWidth 48))
  | .pqry h d port tag => some (mkFields 0xC4 h false d 0 0 0 (port.setWidth 9) (tag.setWidth 48))
  | .pclr h port slot f64 => some (mkFields 0xC5 h false 0 0 0 0 ((port.setWidth 9) ||| (slot.setWidth 9 <<< 2) ||| (bit9 f64 4)) 0)
  | .pscl h a port slot f64 => some (mkFields 0xC6 h false 0 a 0 0 ((port.setWidth 9) ||| (slot.setWidth 9 <<< 2) ||| (bit9 f64 4)) 0)
  | .plds h a port slot f64 => some (mkFields 0xC7 h false 0 a 0 0 ((port.setWidth 9) ||| (slot.setWidth 9 <<< 2) ||| (bit9 f64 4)) 0)
  | .psts h a port slot f64 => some (mkFields 0xC8 h false 0 a 0 0 ((port.setWidth 9) ||| (slot.setWidth 9 <<< 2) ||| (bit9 f64 4)) 0)
  | .prdl h a b port tag => some (mkFields 0xC9 h false 0 a b 0 (port.setWidth 9) (tag.setWidth 48))
  | .prdt h d port pt => some (mkFields 0xCB h false d 0 0 0 ((port.setWidth 9) ||| (pt.setWidth 9 <<< 4)) 0)
  | .pwrt h a port pt => some (mkFields 0xCC h false 0 a 0 0 ((port.setWidth 9) ||| (pt.setWidth 9 <<< 4)) 0)
  | .pord h => some (mkFields 0xCD h false 0 0 0 0 0 0)
  | .cpy h _ => some (mkFields 0xD0 h true 0 0 0 0 0 0)
  | .remoteAtomicAdd h _ => some (mkFields 0xD0 h true 0 0 0 0 0 0)
  | .gathr h _ => some (mkFields 0xD2 h true 0 0 0 0 0 0)
  | .cpym h k _ => some (mkFields 0xD1 h true 0 0 0 0 (k.setWidth 9) 0)
  | .cpyst h d a => some (mkFields 0xD3 h false d a 0 0 0 0)
  | .tbinit h a b => some (mkFields 0xD4 h false 0 a b 0 0 0)
  | .tbarx h a b => some (mkFields 0xD6 h false 0 a b 0 0 0)
  | .tbexp h a b => some (mkFields 0xD7 h false 0 a b 0 0 0)
  | .tbwait h a b => some (mkFields 0xD8 h false 0 a b 0 0 0)
  | .tbarv h a => some (mkFields 0xD5 h false 0 a 0 0 0 0)
  | .tbtry h pd a b => some (mkFields 0xD9 h false (pd.setWidth 5) a b 0 0 0)
  | .csrr h d n => some (mkFields 0xE0 h false d 0 0 0 0 (n.setWidth 48))
  | .csrw h a n => some (mkFields 0xE1 h false 0 a 0 0 0 (n.setWidth 48))
  | .csrscSet h d a n => some (mkFields 0xE2 h false d a 0 0 0 (n.setWidth 48))
  | .csrscClr h d a n => some (mkFields 0xE2 h false d a 0 0 1 (n.setWidth 48))
  | .trap h n => some (mkFields 0xE3 h false 0 0 0 0 0 (n.setWidth 48))
  | .sysc h n => some (mkFields 0xE4 h false 0 0 0 0 0 (n.setWidth 48))
  | .rft h => some (mkFields 0xE5 h false 0 0 0 0 0 0)
  | .nret h => some (mkFields 0xE6 h false 0 0 0 0 0 0)
  | .ckpt h => some (mkFields 0xEC h false 0 0 0 0 0 0)
  | .halt h => some (mkFields 0xED h false 0 0 0 0 0 0)
  | .fenceo h => some (mkFields 0xEE h false 0 0 0 0 0 0)
  | .feat h d n => some (mkFields 0xE7 h false d 0 0 0 0 (n.setWidth 48))
  | .tlbi h a => some (mkFields 0xE8 h false 0 a 0 0 0 0)
  | .tlbiOne h a b => some (mkFields 0xE8 h false 0 a b 0 1 0)
  | .trc h a tag => some (mkFields 0xE9 h false 0 a 0 0 0 (tag.setWidth 48))
  | .lutld h a => some (mkFields 0xEA h false 0 a 0 0 0 0)
  | .ctxsw h a b => some (mkFields 0xEB h false 0 a b 0 0 0)
  | .coldReset => none
  | .warmReset => none
  | .secureBoot _ => none
  | .hostLinkTrain _ _ => none
  | .hostLinkModuleFail _ => none
  | .scaleOutPortFail _ => none
  | .scaleOutPortUp _ => none
  | .remoteRouteTimeout _ _ => none
  | .slwAssert => none
  | .supplyLossSequence => none
  | .thermtrip _ _ => none
  | .pstpFrame _ _ _ => none
  | .telemetryLost => none
  | .droopEvaluation => none
  | .eceilStep => none
  | .shedGraceExpiry _ => none
  | .sensorSample _ _ _ => none
  | .thermalCapDrop _ => none
  | .thermalCapRise _ => none
  | .dramThrottle _ => none
  | .dramThrottleLift _ => none
  | .relocationMark _ => none
  | .relocation _ => none
  | .operatingPointChange _ => none
  | .coreSleep _ => none
  | .coreWake _ => none
  | .energyRefill => none
  | .wsRefreshWindow => none
  | .structureError _ _ _ _ => none
  | .selfTestDone _ _ _ => none
  | .unrecoverableFault _ _ _ _ _ => none
  | .checkpointPeriod _ => none
  | .intervalSeal _ => none
  | .rollback _ => none
  | .bar0RegisterWrite _ _ => none
  | .q0ringWrite _ => none
  | .q0cplWrite _ => none
  | .pkgidWrite _ => none
  | .pstpstRead => none
  | .kick _ _ => none
  | .cplheadWrite _ _ => none
  | .commandFetch _ => none
  | .headerReread _ => none
  | .completionRecordWrite _ => none
  | .nopPacket _ => none
  | .launch _ => none
  | .copy _ => none
  | .hubCopyDone _ => none
  | .signalStore _ => none
  | .signalAtomicAdd _ => none
  | .signalArrive _ => none
  | .waitv _ => none
  | .waitvReevaluate _ => none
  | .waitvTimeout _ => none
  | .wsload _ => none
  | .wssealSeal _ => none
  | .wssealReopen _ => none
  | .create => none
  | .destroy => none
  | .qset => none
  | .qreset => none
  | .wsreg => none
  | .wsfree => none
  | .ckptPacket _ => none
  | .resync => none
  | .preemptSwapOut _ => none
  | .preemptRestore _ => none
  | .profileStart _ => none
  | .profileStop _ => none
  | .profileSpill _ => none
  | .profileAccount => none
  | .qfence _ => none
  | .attest _ => none
  | .bbread => none
  | .fwstage => none
  | .fwactivate => none
  | .sensrd => none
  | .dbghalt => none
  | .dbgresume => none
  | .dbgstep => none
  | .dbgread => none
  | .dbgwrite => none
  | .dbgcfg => none
  | .mailboxDone => none
  | .breakpointHalt _ _ => none
  | .hostMemAccess _ _ _ _ => none
  | .hostHoldTimeout _ => none
  | .placementReserve => none
  | .placementCommit => none
  | .scrimgCopyDone _ => none
  | .waitListStarvation _ => none
  | .gangPreempt _ => none
  | .swapOut _ => none
  | .crewRestore _ => none
  | .idleSwap _ => none
  | .itemDispense _ _ => none
  | .eosDispense _ _ _ _ => none
  | .graphRetire _ => none
  | .asyncTrapEntry _ _ => none
  | .notifyEntry _ _ => none
  | .asyncResultLand _ _ _ => none
  | .accessPerformed _ _ => none
  | .sendDelivery _ _ => none
  | .putrLand _ _ => none
  | .sendTimeout _ _ => none
  | .curdAdmit _ _ => none
  | .curdResume _ => none
  | .closetSwap _ => none
  | .movementSwap _ => none
  | .pactForm _ _ => none
  | .pactTimeout _ _ => none
  | .pressEntryStart _ _ => none
  | .pactStreamEnd _ => none
  | .pactDeliveryDone _ _ => none
  | .pactSuspend _ _ => none
  | .pactResume _ => none
  | .operandFault _ _ _ _ _ => none
  | .deliveryFault _ _ _ _ => none
  | .copySectorLand _ _ _ => none
  | .copyFailure _ _ _ _ => none
  | .cpymAccept _ => none
  | .remoteWriteArrive _ _ _ _ _ _ _ _ => none
  | .streamElementFetch _ _ _ => none
  | .streamElementLand _ _ _ _ => none
  | .tlbiComplete _ _ => none
  | .slwRelease => none
  | .wsloadDone _ => none
  | .remoteHoldWaitTimeout _ => none
  | .writeAcknowledge _ _ _ => none
  | .keyTreeStateLoad => none
  | .vstbyFailure => none
  | .slotCommandDone _ _ => none

/-- The parameter block that an instruction carries, zero for one that takes none (R303). -/
def blockOf : Instr → Block
  | .pmm _ _ _ blk => blk
  | .pdsc _ _ _ blk => blk
  | .pdgr _ _ _ blk => blk
  | .sbind _ _ blk => blk
  | .cpy _ blk => blk
  | .remoteAtomicAdd _ blk => blk
  | .cpym _ _ blk => blk
  | .gathr _ blk => blk
  | _ => 0

/-- The opcodes that take a parameter block (R303). -/
def takesBlock (op : BitVec 8) : Bool :=
  op == 0x70 || op == 0xC0 || op == 0xC1 || op == 0xC2 || op == 0xD0 || op == 0xD1 || op == 0xD2

/-- An instruction whose row admits TYPE 1 alone (VPACKQ, VUNPKQ): another TYPE is a reserved code (2), or comes after a non-zero
unused field (1) (R356). -/
def typeOne (f : Fields) (i : Instr) : Except Nat Instr :=
  if f.f.extractLsb' 0 3 = 1 then .ok i
  else .error (if encF i = some { f with f := (f.f &&& 0x1F8) ||| 1 } then 2 else 1)

/-- The instruction that an opcode and its fields name, before the unused fields and the field codes are checked; the
error is the ILLOP reason of an unassigned opcode (0), or of a reserved function of NODE and FSGN or a reserved TYPE of VPACKQ and
VUNPKQ (1 where an unused field is non-zero too, else 2). -/
def candidate (f : Fields) (blk : Block) : Except Nat Instr :=
  match f.op with
  | 0x01 => .ok (.nop f.hdr)
  | 0x02 => .ok (.add f.hdr f.d f.a f.b)
  | 0x03 => .ok (.addi f.hdr f.d f.a f.imm)
  | 0x04 => .ok (.sub f.hdr f.d f.a f.b)
  | 0x05 => .ok (.mul f.hdr f.d f.a f.b)
  | 0x06 => .ok (.muli f.hdr f.d f.a f.imm)
  | 0x07 => .ok (.mulh f.hdr f.d f.a f.b)
  | 0x08 => .ok (.mulhu f.hdr f.d f.a f.b)
  | 0x09 => .ok (.div f.hdr f.d f.a f.b)
  | 0x0A => .ok (.divu f.hdr f.d f.a f.b)
  | 0x0B => .ok (.rem f.hdr f.d f.a f.b)
  | 0x0C => .ok (.remu f.hdr f.d f.a f.b)
  | 0x0D => .ok (.and f.hdr f.d f.a f.b)
  | 0x0E => .ok (.or f.hdr f.d f.a f.b)
  | 0x0F => .ok (.xor f.hdr f.d f.a f.b)
  | 0x10 => .ok (.andn f.hdr f.d f.a f.b)
  | 0x11 => .ok (.andi f.hdr f.d f.a f.imm)
  | 0x12 => .ok (.ori f.hdr f.d f.a f.imm)
  | 0x13 => .ok (.xori f.hdr f.d f.a f.imm)
  | 0x14 => .ok (.shl f.hdr f.d f.a f.b)
  | 0x15 => .ok (.shr f.hdr f.d f.a f.b)
  | 0x16 => .ok (.sar f.hdr f.d f.a f.b)
  | 0x17 => .ok (.rotr f.hdr f.d f.a f.b)
  | 0x18 => .ok (.shli f.hdr f.d f.a (f.imm.extractLsb' 0 6))
  | 0x19 => .ok (.shri f.hdr f.d f.a (f.imm.extractLsb' 0 6))
  | 0x1A => .ok (.sari f.hdr f.d f.a (f.imm.extractLsb' 0 6))
  | 0x1B => .ok (.clz f.hdr f.d f.a)
  | 0x1C => .ok (.ctz f.hdr f.d f.a)
  | 0x1D => .ok (.popc f.hdr f.d f.a)
  | 0x1E => .ok (.min f.hdr f.d f.a f.b)
  | 0x1F => .ok (.max f.hdr f.d f.a f.b)
  | 0x20 => .ok (.minu f.hdr f.d f.a f.b)
  | 0x21 => .ok (.maxu f.hdr f.d f.a f.b)
  | 0x22 => .ok (.mov f.hdr f.d f.a)
  | 0x23 => .ok (.movi f.hdr f.d f.imm)
  | 0x24 => .ok (.movhi f.hdr f.d f.a (f.imm.extractLsb' 0 16))
  | 0x25 => .ok (.extr f.hdr f.d f.a (f.imm.extractLsb' 0 6) (f.imm.extractLsb' 6 6) (f.imm.getLsbD 12))
  | 0x26 => .ok (.insr f.hdr f.d f.a f.b (f.imm.extractLsb' 0 6) (f.imm.extractLsb' 6 6))
  | 0x27 => .ok (.sel f.hdr f.d f.a f.b (f.f.extractLsb' 0 4))
  | 0x28 => .ok (.lea f.hdr f.d f.a f.b (f.f.extractLsb' 3 3) f.imm)
  | 0x29 => .ok (.cmp f.hdr (f.d.setWidth 4) f.a f.b (f.f.extractLsb' 0 4))
  | 0x2A => .ok (.cmpi f.hdr (f.d.setWidth 4) f.a (f.f.extractLsb' 0 4) f.imm)
  | 0x2B => .ok (.plog f.hdr (f.d.setWidth 4) (f.a.setWidth 4) (f.b.setWidth 4) (f.f.extractLsb' 0 4))
  | 0x2C => .ok (.pget f.hdr f.d)
  | 0x2D => .ok (.pset f.hdr f.a)
  | 0x2E =>
    match f.f.toNat % 8 with
    | 0 => .ok (.nchild f.hdr f.d f.a f.b)
    | 1 => .ok (.nparent f.hdr f.d f.a)
    | 2 => .ok (.nlevel f.hdr f.d f.a)
    | 3 => .ok (.nlvlbase f.hdr f.d f.a)
    | 4 => .ok (.nleaf f.hdr f.d f.a f.b)
    | _ => .error (if f.f.extractLsb' 3 6 = 0 ∧ f.c = 0 ∧ f.imm = 0 then 2 else 1)
  | 0x2F => .ok (.bswap f.hdr f.d f.a)
  | 0x30 => .ok (.fadd f.hdr f.d f.a f.b (f.f.extractLsb' 0 3) (f.f.extractLsb' 3 3))
  | 0x31 => .ok (.fsub f.hdr f.d f.a f.b (f.f.extractLsb' 0 3) (f.f.extractLsb' 3 3))
  | 0x32 => .ok (.fmul f.hdr f.d f.a f.b (f.f.extractLsb' 0 3) (f.f.extractLsb' 3 3))
  | 0x33 => .ok (.ffma f.hdr f.d f.a f.b f.c (f.f.extractLsb' 0 3) (f.f.extractLsb' 3 3))
  | 0x34 => .ok (.fdiv f.hdr f.d f.a f.b (f.f.extractLsb' 0 3) (f.f.extractLsb' 3 3))
  | 0x35 => .ok (.fsqrt f.hdr f.d f.a (f.f.extractLsb' 0 3) (f.f.extractLsb' 3 3))
  | 0x36 => .ok (.fmin f.hdr f.d f.a f.b (f.f.extractLsb' 0 3))
  | 0x37 => .ok (.fmax f.hdr f.d f.a f.b (f.f.extractLsb' 0 3))
  | 0x38 => .ok (.fcmp f.hdr (f.d.setWidth 4) f.a f.b (f.f.extractLsb' 4 3) (f.f.extractLsb' 0 4))
  | 0x39 => .ok (.fcvt f.hdr f.d f.a (f.f.extractLsb' 6 3) (f.f.extractLsb' 0 3) (f.f.extractLsb' 3 3))
  | 0x3A => .ok (.fclass f.hdr f.d f.a (f.f.extractLsb' 0 3))
  | 0x3B =>
    match f.f.toNat / 8 % 8 with
    | 0 => .ok (.fsgn f.hdr f.d f.a f.b (f.f.extractLsb' 0 3))
    | 1 => .ok (.fsgnn f.hdr f.d f.a f.b (f.f.extractLsb' 0 3))
    | 2 => .ok (.fsgnx f.hdr f.d f.a f.b (f.f.extractLsb' 0 3))
    | _ => .error (if f.f.extractLsb' 6 3 = 0 ∧ f.c = 0 ∧ f.imm = 0 then 2 else 1)
  | 0x3C => .ok (.fmovi f.hdr f.d (f.f.extractLsb' 0 3) f.imm)
  | 0x40 => .ok (.br f.hdr f.imm)
  | 0x41 => .ok (.brl f.hdr f.d f.imm)
  | 0x42 => .ok (.jmp f.hdr f.a)
  | 0x43 => .ok (.jmpl f.hdr f.d f.a)
  | 0x44 => .ok (.loop f.hdr f.d f.imm)
  | 0x45 => .ok (.wfw f.hdr)
  | 0x46 => .ok (.yield f.hdr)
  | 0x47 => .ok (.exit f.hdr)
  | 0x50 => .ok (.ld f.hdr f.d f.a f.b (f.f.extractLsb' 0 2) (f.f.getLsbD 2) (f.f.extractLsb' 3 3) f.imm)
  | 0x51 => .ok (.ldx f.hdr f.d f.a f.b (f.f.extractLsb' 3 3) f.imm)
  | 0x52 => .ok (.st f.hdr f.d f.a f.b (f.f.extractLsb' 0 2) (f.f.extractLsb' 3 3) f.imm)
  | 0x53 => .ok (.stx f.hdr f.d f.a f.b (f.f.extractLsb' 3 3) f.imm)
  | 0x54 => .ok (.ldv f.hdr (f.d.setWidth 4) f.a f.b (f.f.extractLsb' 0 2) (f.f.extractLsb' 6 3) (f.f.extractLsb' 3 3) f.imm)
  | 0x55 => .ok (.stv f.hdr (f.d.setWidth 4) f.a f.b (f.f.extractLsb' 0 2) (f.f.extractLsb' 6 3) (f.f.extractLsb' 3 3) f.imm)
  | 0x56 => .ok (.gath f.hdr (f.d.setWidth 4) f.a (f.b.setWidth 4) (f.f.extractLsb' 0 2) (f.f.getLsbD 2) (f.f.extractLsb' 6 3) (f.f.extractLsb' 3 3) f.imm)
  | 0x57 => .ok (.scat f.hdr (f.d.setWidth 4) f.a (f.b.setWidth 4) (f.f.extractLsb' 0 2) (f.f.extractLsb' 6 3) (f.f.extractLsb' 3 3) f.imm)
  | 0x58 => .ok (.aadd f.hdr f.d f.a f.b (f.f.extractLsb' 0 2) (f.f.getLsbD 2) f.imm)
  | 0x59 => .ok (.aand f.hdr f.d f.a f.b (f.f.extractLsb' 0 2) (f.f.getLsbD 2) f.imm)
  | 0x5A => .ok (.aor f.hdr f.d f.a f.b (f.f.extractLsb' 0 2) (f.f.getLsbD 2) f.imm)
  | 0x5B => .ok (.axor f.hdr f.d f.a f.b (f.f.extractLsb' 0 2) (f.f.getLsbD 2) f.imm)
  | 0x5C => .ok (.amin f.hdr f.d f.a f.b (f.f.extractLsb' 0 2) (f.f.getLsbD 2) f.imm)
  | 0x5D => .ok (.amax f.hdr f.d f.a f.b (f.f.extractLsb' 0 2) (f.f.getLsbD 2) f.imm)
  | 0x5E => .ok (.axch f.hdr f.d f.a f.b (f.f.extractLsb' 0 2) (f.f.getLsbD 2) f.imm)
  | 0x5F => .ok (.acas f.hdr f.d f.a f.b f.c (f.f.extractLsb' 0 2) (f.f.getLsbD 2) f.imm)
  | 0x60 => .ok (.afadd f.hdr f.d f.a f.b (f.f.extractLsb' 0 2) (f.f.extractLsb' 3 3) f.imm)
  | 0x61 => .ok (.ldw f.hdr f.d f.a f.b (f.f.extractLsb' 0 2) (f.f.getLsbD 2) (f.f.extractLsb' 3 3) f.imm)
  | 0x62 => .ok (.ldvw f.hdr (f.d.setWidth 4) f.a f.b (f.f.extractLsb' 0 2) (f.f.extractLsb' 6 3) (f.f.extractLsb' 3 3) f.imm)
  | 0x70 => .ok (.sbind f.hdr f.d blk)
  | 0x71 => .ok (.sdrain f.hdr f.a)
  | 0x72 => .ok (.sstat f.hdr f.d f.a)
  | 0x73 => .ok (.qbind f.hdr f.d f.a f.imm)
  | 0x74 => .ok (.qstat f.hdr f.d f.a)
  | 0x75 => .ok (.empty f.hdr f.d)
  | 0x76 => .ok (.isfull f.hdr (f.d.setWidth 4) f.a)
  | 0x77 => .ok (.putr f.hdr f.a f.b (f.f.extractLsb' 0 5))
  | 0x78 => .ok (.migr f.hdr f.a)
  | 0x79 => if f.f.getLsbD 0 then .ok (.tmodeLight f.hdr) else .ok (.tmodeHeavy f.hdr)
  | 0x80 => .ok (.bar f.hdr (f.f.extractLsb' 0 3))
  | 0x81 => .ok (.bara f.hdr (f.f.extractLsb' 0 3))
  | 0x82 => .ok (.barw f.hdr (f.f.extractLsb' 0 3))
  | 0x83 => .ok (.sev f.hdr f.a (f.f.extractLsb' 0 4))
  | 0x84 => .ok (.wev f.hdr (f.f.extractLsb' 0 4))
  | 0x85 => .ok (.bfree f.hdr (f.f.extractLsb' 0 4))
  | 0x86 => .ok (.dqpush f.hdr f.d f.a f.b f.imm)
  | 0x87 => .ok (.dqpop f.hdr f.d f.a f.b f.imm)
  | 0x88 => .ok (.dqspl f.hdr f.d f.a f.b f.imm)
  | 0x89 => .ok (.dqstl f.hdr f.d f.a f.b f.imm)
  | 0x8A => if f.f.getLsbD 0 then .ok (.itemEos f.hdr f.a) else .ok (.item f.hdr f.a)
  | 0x90 => .ok (.vadd f.hdr (f.d.setWidth 4) (f.a.setWidth 4) (f.b.setWidth 4) (f.f.extractLsb' 0 3) (f.f.extractLsb' 3 3) (f.f.extractLsb' 6 3))
  | 0x91 => .ok (.vsub f.hdr (f.d.setWidth 4) (f.a.setWidth 4) (f.b.setWidth 4) (f.f.extractLsb' 0 3) (f.f.extractLsb' 3 3) (f.f.extractLsb' 6 3))
  | 0x92 => .ok (.vmul f.hdr (f.d.setWidth 4) (f.a.setWidth 4) (f.b.setWidth 4) (f.f.extractLsb' 0 3) (f.f.extractLsb' 3 3) (f.f.extractLsb' 6 3))
  | 0x93 => .ok (.vfma f.hdr (f.d.setWidth 4) (f.a.setWidth 4) (f.b.setWidth 4) (f.c.setWidth 4) (f.f.extractLsb' 0 3) (f.f.extractLsb' 3 3) (f.f.extractLsb' 6 3))
  | 0x94 => .ok (.vfnma f.hdr (f.d.setWidth 4) (f.a.setWidth 4) (f.b.setWidth 4) (f.c.setWidth 4) (f.f.extractLsb' 0 3) (f.f.extractLsb' 3 3) (f.f.extractLsb' 6 3))
  | 0x95 => .ok (.vmin f.hdr (f.d.setWidth 4) (f.a.setWidth 4) (f.b.setWidth 4) (f.f.extractLsb' 0 3) (f.f.extractLsb' 3 3))
  | 0x96 => .ok (.vmax f.hdr (f.d.setWidth 4) (f.a.setWidth 4) (f.b.setWidth 4) (f.f.extractLsb' 0 3) (f.f.extractLsb' 3 3))
  | 0x97 => .ok (.vabs f.hdr (f.d.setWidth 4) (f.a.setWidth 4) (f.f.extractLsb' 0 3) (f.f.extractLsb' 3 3))
  | 0x98 => .ok (.vneg f.hdr (f.d.setWidth 4) (f.a.setWidth 4) (f.f.extractLsb' 0 3) (f.f.extractLsb' 3 3))
  | 0x99 => .ok (.vdiv f.hdr (f.d.setWidth 4) (f.a.setWidth 4) (f.b.setWidth 4) (f.f.extractLsb' 0 3) (f.f.extractLsb' 3 3) (f.f.extractLsb' 6 3))
  | 0x9A => .ok (.vsqrt f.hdr (f.d.setWidth 4) (f.a.setWidth 4) (f.f.extractLsb' 0 3) (f.f.extractLsb' 3 3) (f.f.extractLsb' 6 3))
  | 0x9B => .ok (.vrsq f.hdr (f.d.setWidth 4) (f.a.setWidth 4) (f.f.extractLsb' 0 3) (f.f.extractLsb' 3 3) (f.f.extractLsb' 6 3))
  | 0x9C => .ok (.vrcp f.hdr (f.d.setWidth 4) (f.a.setWidth 4) (f.f.extractLsb' 0 3) (f.f.extractLsb' 3 3) (f.f.extractLsb' 6 3))
  | 0x9D => .ok (.vexp2 f.hdr (f.d.setWidth 4) (f.a.setWidth 4) (f.f.extractLsb' 0 3) (f.f.extractLsb' 3 3) (f.f.extractLsb' 6 3))
  | 0x9E => .ok (.vlog2 f.hdr (f.d.setWidth 4) (f.a.setWidth 4) (f.f.extractLsb' 0 3) (f.f.extractLsb' 3 3) (f.f.extractLsb' 6 3))
  | 0x9F => .ok (.vcmp f.hdr (f.d.setWidth 3) (f.a.setWidth 4) (f.b.setWidth 4) (f.f.extractLsb' 0 3) (f.f.extractLsb' 3 3) (f.imm.extractLsb' 0 4))
  | 0xA0 => .ok (.vsel f.hdr (f.d.setWidth 4) (f.a.setWidth 4) (f.b.setWidth 4) (f.f.extractLsb' 0 3) (f.f.extractLsb' 3 3))
  | 0xA1 => .ok (.vcvt f.hdr (f.d.setWidth 4) (f.a.setWidth 4) (f.imm.extractLsb' 0 3) (f.f.extractLsb' 0 3) (f.f.extractLsb' 3 3) (f.f.extractLsb' 6 3))
  | 0xA2 => .ok (.vand f.hdr (f.d.setWidth 4) (f.a.setWidth 4) (f.b.setWidth 4) (f.f.extractLsb' 0 3) (f.f.extractLsb' 3 3))
  | 0xA3 => .ok (.vor f.hdr (f.d.setWidth 4) (f.a.setWidth 4) (f.b.setWidth 4) (f.f.extractLsb' 0 3) (f.f.extractLsb' 3 3))
  | 0xA4 => .ok (.vxor f.hdr (f.d.setWidth 4) (f.a.setWidth 4) (f.b.setWidth 4) (f.f.extractLsb' 0 3) (f.f.extractLsb' 3 3))
  | 0xA5 => .ok (.vshl f.hdr (f.d.setWidth 4) (f.a.setWidth 4) (f.b.setWidth 4) (f.f.extractLsb' 0 3) (f.f.extractLsb' 3 3))
  | 0xA6 => .ok (.vshr f.hdr (f.d.setWidth 4) (f.a.setWidth 4) (f.b.setWidth 4) (f.f.extractLsb' 0 3) (f.f.extractLsb' 3 3))
  | 0xA7 => .ok (.vsar f.hdr (f.d.setWidth 4) (f.a.setWidth 4) (f.b.setWidth 4) (f.f.extractLsb' 0 3) (f.f.extractLsb' 3 3))
  | 0xA8 => .ok (.vbcast f.hdr (f.d.setWidth 4) f.a (f.f.extractLsb' 0 3) (f.f.extractLsb' 3 3))
  | 0xA9 => .ok (.vext f.hdr f.d (f.a.setWidth 4) (f.imm.extractLsb' 0 5) (f.f.extractLsb' 0 3))
  | 0xAA => .ok (.vins f.hdr (f.d.setWidth 4) f.a (f.imm.extractLsb' 0 5) (f.f.extractLsb' 0 3))
  | 0xAB => .ok (.viota f.hdr (f.d.setWidth 4) (f.f.extractLsb' 0 3) (f.f.extractLsb' 3 3))
  | 0xAC => .ok (.vshuf f.hdr (f.d.setWidth 4) (f.a.setWidth 4) (f.b.setWidth 4) (f.f.extractLsb' 0 3) (f.f.extractLsb' 3 3))
  | 0xAD => .ok (.vred f.hdr f.d (f.a.setWidth 4) (f.imm.extractLsb' 0 3) (f.f.extractLsb' 0 3) (f.f.extractLsb' 3 3) (f.f.extractLsb' 6 3))
  | 0xAE => .ok (.vscan f.hdr (f.d.setWidth 4) (f.a.setWidth 4) (f.imm.extractLsb' 0 3) (f.f.extractLsb' 0 3) (f.f.extractLsb' 3 3) (f.f.extractLsb' 6 3))
  | 0xAF => .ok (.vdot f.hdr (f.d.setWidth 4) (f.a.setWidth 4) (f.b.setWidth 4) (f.c.setWidth 4) (f.f.extractLsb' 0 3) (f.f.extractLsb' 3 3) (f.f.extractLsb' 6 3))
  | 0xB0 => typeOne f (.vpackq f.hdr (f.d.setWidth 4) (f.a.setWidth 4) (f.b.setWidth 4) (f.imm.getLsbD 0) (f.f.extractLsb' 3 3))
  | 0xB1 => typeOne f (.vunpkq f.hdr (f.d.setWidth 4) (f.a.setWidth 4) (f.imm.getLsbD 0) (f.imm.getLsbD 1) (f.f.extractLsb' 3 3))
  | 0xB2 => .ok (.vlut f.hdr (f.d.setWidth 4) (f.a.setWidth 4) (f.b.setWidth 4) (f.f.extractLsb' 0 3) (f.f.extractLsb' 3 3))
  | 0xB3 => .ok (.vsort f.hdr (f.d.setWidth 4) (f.a.setWidth 4) (f.b.setWidth 4) (f.c.setWidth 4) (f.imm.getLsbD 0) (f.f.extractLsb' 0 3) (f.f.extractLsb' 3 3))
  | 0xB4 => .ok (.vmerge f.hdr (f.d.setWidth 4) (f.a.setWidth 4) (f.b.setWidth 4) (f.c.setWidth 4) (f.imm.getLsbD 0) (f.f.extractLsb' 0 3) (f.f.extractLsb' 3 3))
  | 0xB5 => .ok (.vmov f.hdr (f.d.setWidth 4) (f.a.setWidth 4) (f.f.extractLsb' 0 3) (f.f.extractLsb' 3 3))
  | 0xB6 => .ok (.vfill f.hdr (f.d.setWidth 4) (f.f.extractLsb' 0 3) (f.f.extractLsb' 3 3) f.imm)
  | 0xB7 => .ok (.vcmprs f.hdr (f.d.setWidth 4) (f.a.setWidth 4) (f.f.extractLsb' 0 3) (f.f.extractLsb' 3 3))
  | 0xB8 => .ok (.vexpnd f.hdr (f.d.setWidth 4) (f.a.setWidth 4) (f.f.extractLsb' 0 3) (f.f.extractLsb' 3 3))
  | 0xB9 => .ok (.mlog f.hdr (f.d.setWidth 3) (f.a.setWidth 3) (f.b.setWidth 3) (f.imm.extractLsb' 0 4))
  | 0xBA => .ok (.mpopc f.hdr f.d (f.a.setWidth 3))
  | 0xBB => .ok (.mget f.hdr f.d (f.a.setWidth 3))
  | 0xBC => .ok (.mset f.hdr (f.d.setWidth 3) f.a)
  | 0xC0 => .ok (.pmm f.hdr (f.f.extractLsb' 0 2) (f.imm.extractLsb' 0 8) blk)
  | 0xC1 => .ok (.pdsc f.hdr (f.f.extractLsb' 0 2) (f.imm.extractLsb' 0 8) blk)
  | 0xC2 => .ok (.pdgr f.hdr (f.f.extractLsb' 0 2) (f.imm.extractLsb' 0 8) blk)
  | 0xC3 => .ok (.pwait f.hdr (f.f.extractLsb' 0 2) (f.imm.extractLsb' 0 8))
  | 0xC4 => .ok (.pqry f.hdr f.d (f.f.extractLsb' 0 2) (f.imm.extractLsb' 0 8))
  | 0xC5 => .ok (.pclr f.hdr (f.f.extractLsb' 0 2) (f.f.extractLsb' 2 2) (f.f.getLsbD 4))
  | 0xC6 => .ok (.pscl f.hdr f.a (f.f.extractLsb' 0 2) (f.f.extractLsb' 2 2) (f.f.getLsbD 4))
  | 0xC7 => .ok (.plds f.hdr f.a (f.f.extractLsb' 0 2) (f.f.extractLsb' 2 2) (f.f.getLsbD 4))
  | 0xC8 => .ok (.psts f.hdr f.a (f.f.extractLsb' 0 2) (f.f.extractLsb' 2 2) (f.f.getLsbD 4))
  | 0xC9 => .ok (.prdl f.hdr f.a f.b (f.f.extractLsb' 0 2) (f.imm.extractLsb' 0 8))
  | 0xCA => .ok (.pabt f.hdr (f.f.extractLsb' 0 2) (f.imm.extractLsb' 0 8))
  | 0xCB => .ok (.prdt f.hdr f.d (f.f.extractLsb' 0 2) (f.f.extractLsb' 4 4))
  | 0xCC => .ok (.pwrt f.hdr f.a (f.f.extractLsb' 0 2) (f.f.extractLsb' 4 4))
  | 0xCD => .ok (.pord f.hdr)
  | 0xD0 => if blk.extractLsb' 181 2 = 1 then .ok (.remoteAtomicAdd f.hdr blk) else .ok (.cpy f.hdr blk)
  | 0xD1 => .ok (.cpym f.hdr (f.f.extractLsb' 0 4) blk)
  | 0xD2 => .ok (.gathr f.hdr blk)
  | 0xD3 => .ok (.cpyst f.hdr f.d f.a)
  | 0xD4 => .ok (.tbinit f.hdr f.a f.b)
  | 0xD5 => .ok (.tbarv f.hdr f.a)
  | 0xD6 => .ok (.tbarx f.hdr f.a f.b)
  | 0xD7 => .ok (.tbexp f.hdr f.a f.b)
  | 0xD8 => .ok (.tbwait f.hdr f.a f.b)
  | 0xD9 => .ok (.tbtry f.hdr (f.d.setWidth 4) f.a f.b)
  | 0xE0 => .ok (.csrr f.hdr f.d (f.imm.extractLsb' 0 12))
  | 0xE1 => .ok (.csrw f.hdr f.a (f.imm.extractLsb' 0 12))
  | 0xE2 => if f.f.getLsbD 0 then .ok (.csrscClr f.hdr f.d f.a (f.imm.extractLsb' 0 12)) else .ok (.csrscSet f.hdr f.d f.a (f.imm.extractLsb' 0 12))
  | 0xE3 => .ok (.trap f.hdr (f.imm.extractLsb' 0 12))
  | 0xE4 => .ok (.sysc f.hdr (f.imm.extractLsb' 0 12))
  | 0xE5 => .ok (.rft f.hdr)
  | 0xE6 => .ok (.nret f.hdr)
  | 0xE7 => .ok (.feat f.hdr f.d (f.imm.extractLsb' 0 8))
  | 0xE8 => if f.f.getLsbD 0 then .ok (.tlbiOne f.hdr f.a f.b) else .ok (.tlbi f.hdr f.a)
  | 0xE9 => .ok (.trc f.hdr f.a (f.imm.extractLsb' 0 16))
  | 0xEA => .ok (.lutld f.hdr f.a)
  | 0xEB => .ok (.ctxsw f.hdr f.a f.b)
  | 0xEC => .ok (.ckpt f.hdr)
  | 0xED => .ok (.halt f.hdr)
  | 0xEE => .ok (.fenceo f.hdr)
  | _ => .error 0

/-- Decode the fields of one slot, whose X bit agrees with its line (R289): the opcode, then the unused fields, which
are zero exactly when the instruction's own encoding gives the fields back, then the field codes (R300 step 3). -/
def decodeFields (f : Fields) (blk : Block) : Except Nat Instr :=
  match candidate f blk with
  | .error r => .error r
  | .ok i =>
    if encF i = some f then
      match fieldReason i with
      | none => .ok i
      | some r => .error r
    else .error 1

/-- Slot i of a line (R283). -/
def lineSlot (l : LineImg) (i : Nat) : Slot := l.extractLsb' (96 * i) 96

/-- The line word (R283, R284). -/
def lineWord (l : LineImg) : BitVec 32 := l.extractLsb' 480 32

/-- The parameter block of a PL = 1 line: slots 1 to 4 (R298). -/
def lineBlock (l : LineImg) : Block := l.extractLsb' 96 384

/-- PL, bit 9 of the line word. -/
def linePL (l : LineImg) : Bool := (lineWord l).getLsbD 9

/-- TGT bit i of the line word. -/
def lineTgt (l : LineImg) (i : Nat) : Bool := decide (i < 5) && (lineWord l).getLsbD i

/-- Whether slots i and i + 1 form a pair (bits 5 to 8 of the line word). -/
def linePair (l : LineImg) (i : Nat) : Bool := decide (i < 4) && (lineWord l).getLsbD (5 + i)

/-- The number of ones among the low n bits of a number. -/
def onesBelow (v : Nat) : Nat → Nat
  | 0 => 0
  | n + 1 => (if v.testBit n then 1 else 0) + onesBelow v n

/-- Even parity of slot i: true when the slot and its PARS bit hold an even number of ones (R285). -/
def slotParityOk (l : LineImg) (i : Nat) : Bool :=
  (onesBelow (lineSlot l i).toNat 96 + (if (lineWord l).getLsbD (24 + i) then 1 else 0)) % 2 == 0

/-- Even parity of line-word bits 23:0 with PARW (R285). -/
def wordParityOk (l : LineImg) : Bool :=
  (onesBelow (lineWord l).toNat 24 + (if (lineWord l).getLsbD 29 then 1 else 0)) % 2 == 0

/-- The line word's own rules (R284, R288, R289), reason 3: reserved bits, overlapping pairs, a target on a second
member, and the conflicts of PL. -/
def lineWordOk (l : LineImg) : Bool :=
  let w := lineWord l
  let pairs := w.toNat / 32 % 16
  let reservedZero := w.toNat / 2 ^ 10 % 2 ^ 14 == 0 && w.toNat / 2 ^ 30 == 0
  let legal := pairs == 0 || pairs == 1 || pairs == 2 || pairs == 4 || pairs == 8 ||
    pairs == 5 || pairs == 9 || pairs == 10
  let noSecond := [0, 1, 2, 3].all fun i => !(linePair l i && lineTgt l (i + 1))
  let plOk := !linePL l || (pairs == 0 && w.toNat / 2 % 16 == 0)
  reservedZero && legal && noSecond && plOk

/-- Whether the X bit of slot i agrees with PL, its place and its opcode (R289, R303), reason 5 otherwise. -/
def xBitOk (l : LineImg) (i : Nat) : Bool :=
  let f := Fields.unpack (lineSlot l i)
  f.x == (linePL l && i == 0) && f.x == takesBlock f.op

/-- The instruction in slot i of a line, its X bit apart: the error is the ILLOP reason. -/
def decodeSlot (l : LineImg) (i : Nat) : Except Nat Instr :=
  decodeFields (Fields.unpack (lineSlot l i)) (lineBlock l)

/-- A line whose slot 0 is a given slot, with TGT bit 0 set, a block in slots 1 to 4 where PL is set, NOPs in them
where it is not, and every parity bit right (R284, R285). -/
def buildLine (s : Slot) (blk : Block) (pl : Bool) : LineImg :=
  let nop : Slot := 1#8 ++ 0#88
  let rest : Block := if pl then blk else nop ++ nop ++ nop ++ nop
  let body : LineImg := 0#32 ++ rest ++ s
  let par (i : Nat) : BitVec 1 := BitVec.ofNat 1 (onesBelow (lineSlot body i).toNat 96)
  let w0 : BitVec 24 := if pl then 0x201#24 else 0x001#24
  let w : BitVec 32 := 0#2 ++ BitVec.ofNat 1 (onesBelow w0.toNat 24) ++ par 4 ++ par 3 ++ par 2 ++ par 1 ++ par 0 ++ w0
  w ++ rest ++ s

/-- The slot and the block of an instruction: its words, for every instruction that has an encoding. -/
def encode (i : Instr) : Option (Slot × Block) := (encF i).map fun f => (f.pack, blockOf i)

/-- The line that holds one instruction in slot 0 (R283, R303). -/
def encodeLine (i : Instr) : Option LineImg :=
  (encF i).map fun f => buildLine f.pack (blockOf i) f.x

/-- Decode a slot with the block that follows it: the whole reading of one instruction from its words. -/
def decode (s : Slot) (blk : Block) : Except Nat Instr :=
  let f := Fields.unpack s
  if f.x = takesBlock f.op then decodeFields f blk else .error 5

/-- The instruction that the decoder reads from the bits of a table row: the first 96 bits are the slot, and for an
instruction whose X bit is set the next 384 are its parameter block. -/
def decodeTableWord (nbits w : Nat) : Option Instr :=
  let v := w % 2 ^ nbits
  match decode (BitVec.ofNat 96 v) (BitVec.ofNat 384 (v / 2 ^ 96)) with
  | .ok i => some i
  | .error _ => none

end Sys2Proof
end

