-- ==== Sys2Proof/Machine/PressOps.lean ====
section
/-! DEFINITION. What happens to a pact from its halves to its end: joining, outcomes, cancellation, and the counts of its
delivery (R225, R232, R237, R238, R421, R422). -/

namespace Sys2Proof.Machine

def RORD : Nat := 0x0C
def PMISM : Nat := 0x0D
def PTIMEO : Nat := 0x0E
def PFLT : Nat := 0x0F
def PDLV : Nat := 0x10

/-- Keys of a thread that waits on a press by tag. -/
def keyTag (press : Nat) (tag : BitVec 8) : Nat := 2 ^ 50 + press * 256 + tag.toNat

/-- The core at an end of a press, and the context of a thread. -/
def PressEntry.core (press : Nat) (e : PressEntry) (lead : Bool) : Nat := pressEnd press (e.leadFar == lead)

/-- A pact of one end before it is formed, as an entry. -/
def Half.entry (h : Half) (st : PactState) : PressEntry where
  id := h.id
  op := h.op
  recA := h.rcd
  recB := h.rcd
  leadFar := h.far
  tag := h.tag
  state := st
  lead := h.issuer
  other := h.issuer
  opA := h.factor
  opB := 0
  slot := 0
  f64 := false
  pt := 0
  kdone := 0
  gran := 0
  flags := 0
  causes := ⟨false, false, false, false⟩
  gang := h.id
  insn := 0
  addrs := []
  abort := false
  t4a := 0
  t4b := 0
  pdlv := h.issuer
  pages := []
  retrans := false
  userA := false
  userB := false
  delays := []
  landed := false
  doomed := none
  redo := false

/-- A single-end command as it enters the queue. -/
def mkCommand (op : PressOp) (id : Nat) (far : Bool) (issuer : TRef) (a b : Word) (insn : Slot) : PressEntry :=
  { (Half.entry ⟨op, 0, far, 0, issuer, a, id⟩ .queued) with opB := b, insn := insn }

/-- The record of an end. -/
def PressEntry.recOf (e : PressEntry) (far : Bool) : BitVec 320 := if far = e.leadFar then e.recA else e.recB

/-- The newest pact with a tag that an end has joined (R421): a half of that end, an entry of the queue, or its outcome. -/
def newestPact (p : Press) (far : Bool) (tag : BitVec 8) : Option PressEntry :=
  let hs := (p.halves.filter fun h => h.far = far && h.tag = tag).map fun h => h.entry .half
  let qs := p.queue.filter fun e => e.op.isPact && e.tag = tag
  let os := (p.past.filter fun x => x.1 = far && x.2.tag = tag).map (·.2)
  (hs ++ qs ++ os).foldl (fun best e => match best with
    | none => some e
    | some x => if x.id < e.id then some e else some x) none

/-- The press keeps one outcome for each end and tag. -/
def Press.keepPast (p : Press) (far : Bool) (e : PressEntry) : Press :=
  { p with past := (far, e) :: p.past.filter fun x => !(x.1 = far && x.2.tag = e.tag) }

/-- A pact leaves the queue in a final state; both ends keep its outcome. -/
def Press.retire (p : Press) (e : PressEntry) (st : PactState) : Press :=
  let e := { e with state := st, abort := false, redo := false, doomed := none }
  ({ p with queue := p.queue.filter fun x => x.id ≠ e.id }.keepPast false e).keepPast true e

/-- The issuing thread joins a pact, or orders a PRDL of it. -/
def joinPact (s : State) (press : Nat) (far : Bool) (tag : BitVec 8) (id : Nat) : State :=
  s.modMe fun t => { t with joined := (t.joined.filter fun j => pactLive s j.pact) ++ [⟨press, far, tag, id⟩] }

/-- Forget a pact that a thread did not join after all. -/
def Thread.unjoin (t : Thread) (id : Nat) : Thread := { t with joined := t.joined.filter fun j => j.pact ≠ id }

/-- Threads parked on an action of a press under a number go on. -/
def releaseKey (s : State) (why : ParkWhy) (key : Nat) : State :=
  let go (t : Thread) : Thread :=
    match t.park with
    | some p => if t.occ && p.why = why && p.key = key && p.next.isSome && (p.resume.isEmpty || p.held) then t.release else t
    | none => t
  s.mapThreads go

/-! ## Counts of a delivery -/

/-- Sectors that the delivery of a pact counts at its barrier (R232, R273, R277). -/
def deliverySectors (op : PressOp) (r : BitVec 320) : Nat :=
  match op with
  | .pmm =>
    let p := shapeOf r
    if !p.dlv then 0
    else
      p.gr * p.m * ceilDiv (p.gc * p.n * outBytesOf p.of) 64 +
        (if p.of = 4 then ceilDiv (2 * (p.gr * p.m) * ceilDiv (p.gc * p.n) 32) 64 else 0)
  | .pdsc => (descOf r).blockBytes / 64
  | .pdgr => 1
  | _ => 0

/-- The entries of a gang in the queues of every press, with their press. -/
def gangEntries (s : State) (g : Nat) : List (Nat × PressEntry) :=
  s.presses.flatMap fun x => (x.2.queue.filter fun e => e.op.isPact && e.gang = g).map fun e => (x.1, e)

/-- The outcomes of a gang, one for each press. -/
def gangPast (s : State) (g : Nat) : List (Nat × PressEntry) :=
  s.presses.flatMap fun x => (x.2.past.filter fun e => !e.1 && e.2.gang = g).map fun e => (x.1, e.2)

/-- Sectors that a gang has counted. -/
def gangCounted (s : State) (g : Nat) : Nat :=
  ((gangEntries s g).map fun e => if e.2.op = .pdgr then 0 else e.2.gran).sum +
    ((gangPast s g).map fun e => if e.2.op = .pdgr then 0 else e.2.gran).sum

/-- The granules, as VA / 64, that bytes from an address up touch. -/
def granuleSpan (va n : Nat) : List Nat := span (va / 64) ((va + n - 1) / 64 + 1 - va / 64)

/-- The granules of one press's own sub-tile (R232). -/
def tileGranules (p : Shape) : List Nat :=
  let w := p.n * outBytesOf p.of
  let row (i : Nat) : Nat := (p.dest + word ((p.gi * p.m + i) * p.dstr + p.gj * w)).toNat
  let plane (i : Nat) : Nat :=
    (p.dest + word (64 * p.dspl + 2 * ((p.gi * p.m + i) * ceilDiv (p.gc * p.n) 32 + p.gj * p.n / 32))).toNat
  (((span 0 p.m).flatMap fun i => granuleSpan (row i) w) ++
    (if p.of = 4 then (span 0 p.m).flatMap fun i => granuleSpan (plane i) (2 * ceilDiv p.n 32) else [])).eraseDups

/-- The granules that a pact's own press delivers. -/
def PressEntry.granules (e : PressEntry) : List Nat :=
  match e.op with
  | .pmm => if (shapeOf e.recA).dlv then tileGranules (shapeOf e.recA) else []
  | .pdsc => let r := (descOf e.recA).span false; granuleSpan r.1 r.2
  | _ => []

/-- The members of a gang that are still delivering their own sub-tiles. -/
def stillLanding (s : State) (g : Nat) : List (Nat × PressEntry) :=
  (gangEntries s g).filter fun x => x.2.state = .deliver && !x.2.landed

/-- Sectors of a gang that are not counted, and will not be once the others that deliver have landed. -/
def gangLeft (s : State) (e : PressEntry) : Nat :=
  deliverySectors e.op e.recA - gangCounted s e.gang -
    ((stillLanding s e.gang).flatMap fun x => x.2.granules).eraseDups.length

/-- The VA of a pact's barrier. -/
def PressEntry.tb (e : PressEntry) : Word := tbVA (fld e.recA 256 26)

/-- A pact delivers. -/
def PressEntry.delivers (e : PressEntry) : Bool := match e.op with | .pmm => bit e.recA 1 | _ => true

/-- The half belongs to a gang of more than one press. -/
def Half.inGang (h : Half) : Bool := h.op = .pmm && (1 < (shapeOf h.rcd).gr * (shapeOf h.rcd).gc)

/-- Two halves belong to one gang (R246). -/
def sameGang (a b : Half) : Bool :=
  b.op = .pmm && a.tag = b.tag && a.issuer.crew = b.issuer.crew && fld a.rcd 40 6 = fld b.rcd 40 6 && fld a.rcd 50 13 = fld b.rcd 50 13

/-- Every half of a gang that has arrived, with its press. -/
def gangHalves (s : State) (h : Half) : List (Nat × Half) :=
  s.presses.flatMap fun x => (x.2.halves.filter (sameGang h)).map fun y => (x.1, y)

/-- TAUX with the tag and the port code of an end. -/
def tagAux (press : Nat) (far : Bool) (tag : BitVec 8) : Nat := tag.toNat + portOfEnd press far * 256

/-- A half leaves the table and its issuer traps (R226, R237, R422). -/
def failHalf (s : State) (press : Nat) (h : Half) (cause : Nat) (addr aux : Word) : State :=
  let s := s.modPress press fun p =>
    { p with halves := p.halves.filter fun x => !(x.id = h.id && x.far = h.far) }.keepPast h.far (h.entry .cancel)
  trapRef (s.modRef h.issuer fun t => t.unjoin h.id) h.issuer cause addr aux

/-- PMISM of a half with a reason (R226). -/
def mismatch (s : State) (press : Nat) (h : Half) (reason : Nat) : State :=
  failHalf s press h PMISM 0 (word (tagAux press h.far h.tag + reason * 1024))

/-- A half is cancelled (R237, R422): holds that its pact took while it waited for room in a queue are released, and where it is the
lead of a delivery, the barrier is updated by BarError with the granules of its own press. (DEDUCED, log entry 91.) -/
def cancelHalf (s : State) (press : Nat) (h : Half) (cause : Nat) (aux : Word) : BarRes :=
  let e := h.entry .half
  let ids := h.id :: if h.inGang then (gangHalves s h).map fun x => x.2.id else []
  let s := ids.foldl (fun s i => s.dropHolds i fun _ => true) (failHalf s press h cause 0 aux)
  if bit h.rcd 0 || !e.delivers then .ok s
  else errorAt s (pressEnd press h.far) (s.ctxOf h.issuer.crew) e.tb (if h.op = .pdgr then 1 else e.granules.length) (.press h.id)

end Sys2Proof.Machine
end

