-- ==== Sys2Proof/Machine/PressMath.lean ====
section
/-! DEFINITION. What the cells of a press compute: slots, operand elements, group sums, descents, and the bytes that a delivery
writes (R223, R229 to R232, R245, R257 to R263, R269 to R276). -/

namespace Sys2Proof.Machine

/-! ## Slots (R223) -/

def slotWord (p : Press) (slot i : Nat) : Nat := (Tbl.get 0 p.slots (slot * 4096 + i)).toNat
def setSlotWord (p : Press) (slot i v : Nat) : Press :=
  { p with slots := Tbl.put 0 p.slots (slot * 4096 + i) (BitVec.ofNat 32 v) }

/-- Element (i, j) of a 32-bit slot, or of the FP64 pair that a slot starts. -/
def slotGet (p : Press) (slot : Nat) (pair : Bool) (i j : Nat) : Nat :=
  let x := 64 * i + j
  if pair then slotWord p slot (2 * x) + slotWord p slot (2 * x + 1) * 2 ^ 32 else slotWord p slot x
def slotPut (p : Press) (slot : Nat) (pair : Bool) (i j v : Nat) : Press :=
  let x := 64 * i + j
  if pair then setSlotWord (setSlotWord p slot (2 * x) v) slot (2 * x + 1) (v / 2 ^ 32) else setSlotWord p slot x v

/-- Byte b of the image of the pair that a slot starts. -/
def pairByte (p : Press) (slot b : Nat) : Nat := slotWord p slot (b / 4) >>> (8 * (b % 4)) % 256

/-- Number of elements of a kind that start at byte b of a pair's image. -/
def pairElem (p : Press) (slot b n : Nat) : Nat := ofBytes ((span b n).map fun k => BitVec.ofNat 8 (pairByte p slot k))

/-- Change each element (i, j), i < m and j < n, and join the flags. -/
def mapSlot (p : Press) (slot : Nat) (pair : Bool) (m n : Nat) (f : Nat → Nat → Nat → Res) : Press × BitVec 5 :=
  foldSpan (fun acc i => foldSpan (fun (acc : Press × BitVec 5) j =>
    let r := f i j (slotGet acc.1 slot pair i j)
    (slotPut acc.1 slot pair i j r.1, acc.2 ||| r.2)) acc 0 n) (p, 0) 0 m

/-! ## Reading operands -/

/-- An end as the reader of an operand: its core, context, privilege, translations, and whether they are to be made again. -/
structure Reader where
  core : Nat
  ctx : Nat
  user : Bool
  pages : List (Nat × Nat × BitVec 64)
  again : Bool

/-- The translation that an end uses (R180). -/
def Reader.xlate (s : State) (rd : Reader) (va : Word) (acc : Acc) : XRes :=
  engineXlate s rd.core rd.ctx rd.user rd.pages rd.again va acc

/-- Bytes of a weight-store operand, page by page (R191, R226): none where they cannot be read now. -/
def weightBytes (s : State) (rd : Reader) (va n : Nat) : Option Nat :=
  let die := dieOf rd.core
  match piecesFrom (fun w => rd.xlate s w .read) (va : Nat) n [] (n / 4096 + 2) with
  | .ok l => l.foldr (fun p acc =>
      match kindOf p.2.1, acc with
      | .ws o, some v =>
        if (wsReadCheck s rd.ctx die o 0).isSome || s.poisoned die p.2.1 p.2.2.1 || fenced s rd.ctx die p.2.1 p.2.2.2 then none
        else some (s.read die p.2.1 p.2.2.1 + v <<< (8 * p.2.2.1))
      | _, _ => none) (some 0)
  | _ => none

/-- The bytes of a weight-store operand, or of one in the own scratchpad, awake and under no fence: none where they cannot be read
now. -/
def pressRead (s : State) (rd : Reader) (weight : Bool) (va n : Nat) : Option Nat :=
  if weight then weightBytes s rd va n
  else
    let pa := spmPA rd.core (va % 262144)
    if s.poisoned 0 pa n || fenced s rd.ctx 0 pa 0 || fenced s rd.ctx 0 (pa + n - 1) 0 then none else some (s.read 0 pa n)

/-- An element as the cells see it: whether zero-skip leaves it out, its value in floating point, and as an integer. -/
structure PElem where
  zero : Bool
  f : FVal
  n : Int

/-- Decode an element of a format (R258), with its scale entry or T4 table. -/
def pressDecode (fmt code scale : Nat) (t4 : BitVec 128) : PElem :=
  if fmt < 4 then
    let v := decodeF (fmtOf fmt) code
    ⟨v.isZero, v, 0⟩
  else if fmt = 4 || fmt = 6 then
    let b := if fmt = 4 then bq8 else bq4
    ⟨bits code 0 b.mb = 0, b.decode (scale % 256) (scale / 256 % 256) code, 0⟩
  else
    let v := if fmt = 5 then sint code 8 else sint (lane t4 8 code) 8
    ⟨v = 0, .zero false, v⟩

/-- Address and shift of an element (R229): row i (or column j) and K-step k. -/
def elemVA (p : Shape) (idx : List Nat) (fmt i k : Nat) : Nat × Nat :=
  let (row, pos) := if p.osrc = 1 then (p.oaddr.toNat + idx.getD i 0 * p.ostr, k) else (p.oaddr.toNat + k * p.ostr, i)
  if opBits fmt = 4 then (row + pos / 2, 4 * (pos % 2)) else (row + pos * (opBits fmt / 8), 0)

/-- Address of a scale entry. -/
def scaleVA (p : Shape) (i k : Nat) : Nat := p.oaddr.toNat + p.spl + k / 32 * p.spstr + 2 * i

/-- One end's operand of a pact. -/
structure Operand where
  rd : Reader
  p : Shape
  fmt : Nat
  idx : List Nat
  t4 : BitVec 128

/-- Element of a slot-sourced operand (R230), with the flags of its rounding. -/
def slotElem (q : Press) (o : Operand) (i k : Nat) : PElem × BitVec 5 :=
  let (a, b) := if o.p.bEnd then (k, i) else (i, k)
  let raw := slotGet q o.p.oslot (o.fmt = 0) a b
  if o.fmt ≤ 1 then (pressDecode o.fmt raw 0 0, 0)
  else
    let r := roundV (fmtOf o.fmt) 0 (decodeF (fmtOf 1) raw)
    (pressDecode o.fmt r.1 0 0, r.2)

/-- The code of an element of an operand in memory. -/
def opCode (s : State) (o : Operand) (i k : Nat) : Option Nat :=
  let (va, sh) := elemVA o.p o.idx o.fmt i k
  (pressRead s o.rd (o.p.osrc = 3) va (max 1 (opBits o.fmt / 8))).map fun raw => if opBits o.fmt = 4 then raw >>> sh % 16 else raw

/-- The scale entry of an element, or 0 where zero-skip leaves the element out, or it meets only such elements: the entry of a masked
element need not be read (R254). `zsk` says whether its own zero leaves it out, `skip` whether all that it meets are left out. -/
def opScale (s : State) (o : Operand) (zsk skip : Bool) (i k code : Nat) : Option Nat :=
  if !opScaled o.fmt || skip || (zsk && (pressDecode o.fmt code 0 o.t4).zero) then some 0
  else pressRead s o.rd (o.p.osrc = 3) (scaleVA o.p i k) 2

/-- Element for row (or column) i at K-step k; none where it cannot be read. -/
def opElem (s : State) (q : Press) (o : Operand) (zsk skip : Bool) (i k : Nat) : Option (PElem × BitVec 5) :=
  if o.p.osrc = 2 then some (slotElem q o i k)
  else (opCode s o i k).bind fun code => (opScale s o zsk skip i k code).map fun sc => (pressDecode o.fmt code sc o.t4, 0)

/-- A list of results, or none where one fails. -/
def allSome {α : Type} : List (Option α) → Option (List α)
  | [] => some []
  | none :: _ => none
  | some x :: r => (allSome r).map fun l => x :: l

/-- The elements of K-steps k0 … for each of cnt rows (or columns); `skip` tells of a K-step whether it is left out. -/
def opGroupElems (s : State) (q : Press) (o : Operand) (zsk : Bool) (skip : Nat → Bool) (cnt k0 n : Nat) :
    Option (List (List (PElem × BitVec 5))) :=
  allSome ((span 0 cnt).map fun i => allSome ((span k0 n).map fun k => opElem s q o zsk (skip k) i k))

/-- The A elements of a K-step that some row does not leave out (R245): with zero-skip, B elements matter only there. -/
def liveStep (zsk : Bool) (a : List (List (PElem × BitVec 5))) (k : Nat) : Bool :=
  !zsk || a.any fun l => match l[k]? with | some e => !e.1.zero | none => false

/-! ## Group sums (R231, R259) -/

/-- GroupSum of one element (R259). -/
def groupSum (acc : Nat) (kind : Nat) (zsk sat : Bool) (a b : List PElem) : Res :=
  let t := (a.zip b).filter fun x => !(zsk && x.1.zero)
  if t.isEmpty then (acc, 0)
  else if kind = 2 then
    let v := t.foldl (fun x e => x + e.1.n * e.2.n) (sint acc 32)
    let v : Int := if sat then max (-2147483648) (min v 2147483647) else v
    (ucut v 32, 0)
  else
    let f := fmtOf kind
    let ps := t.map fun e => mulV e.1.f e.2.f
    roundSum f 0 (sumV (decodeF f acc :: ps.map (·.1)) false) (ps.foldl (fun x e => x ||| e.2) 0)

/-- The flags of the elements' own conversions (R230). An element that zero-skip leaves out, or that meets only such elements, is
masked and raises none (R245, R254). -/
def convFlags (zsk : Bool) (a b : List (List (PElem × BitVec 5))) : BitVec 5 :=
  let fa : BitVec 5 := a.foldl (fun x l => l.foldl (fun y e => if zsk && e.1.zero then y else y ||| e.2) x) 0
  b.foldl (fun x l => (l.zip (span 0 l.length)).foldl (fun y e => if liveStep zsk a e.2 then y ||| e.1.2 else y) x) fa

/-- One summation group of every element of the slot. -/
def groupStep (q : Press) (pa : Shape) (a b : List (List (PElem × BitVec 5))) : Press × BitVec 5 :=
  let kind := opAcc pa.af
  let fl := convFlags pa.zsk a b
  let r := mapSlot q pa.slot (kind = 0) pa.m pa.n fun i j acc =>
    groupSum acc kind pa.zsk pa.sat ((a.getD i []).map (·.1)) ((b.getD j []).map (·.1))
  (r.1, r.2 ||| fl)

/-- The end of the summation group that starts or stands at K-step k. -/
def groupEnd (p : Shape) (k : Nat) : Nat := min p.k ((k / opGroup p.af + 1) * opGroup p.af)

/-- What happens to the slot before the first K-step (R231, R461). -/
def slotStart (q : Press) (p : Shape) (factor : Word) : Press × BitVec 5 :=
  let kind := opAcc p.af
  if !p.acc then mapSlot q p.slot (kind = 0) p.m p.n fun _ _ _ => (0, 0)
  else if p.scl then
    let f := fmtOf kind
    mapSlot q p.slot (kind = 0) p.m p.n fun _ _ v => mulF f 0 v factor.toNat
  else (q, 0)

/-- The result's elements become +0 (R231, KEEP = 0). -/
def slotClear (q : Press) (p : Shape) : Press := (mapSlot q p.slot (opAcc p.af = 0) p.m p.n fun _ _ _ => (0, 0)).1

/-! ## Delivery of a product (R232, R262, R263) -/

/-- One element in the output format. -/
def outElem (acc of : Nat) (v : Nat) : Res :=
  if (acc = 0 && of = 0) || (acc = 1 && of = 1) || acc = 2 then (v, 0) else roundV (fmtOf of) 0 (decodeF (fmtOf acc) v)

/-- The sub-tile as writes of bytes at VAs, with the flags of the conversion. -/
def deliverTile (q : Press) (p : Shape) : List (Nat × List Byte) × BitVec 5 :=
  let acc := opAcc p.af
  let sz := outBytesOf p.of
  let rowVA (i : Nat) : Nat := (p.dest + word ((p.gi * p.m + i) * p.dstr + p.gj * p.n * sz)).toNat
  if p.of = 4 then
    let nb := ceilDiv (p.gc * p.n) 32
    let rows := (span 0 p.m).flatMap fun i =>
      (span 0 (ceilDiv p.n 32)).map fun b =>
        let xs := (span 0 32).map fun c => if 32 * b + c < p.n then some (slotGet q p.slot false i (32 * b + c)) else none
        let r := bq8.encode xs
        let code := (r.2.2.1.take (min 32 (p.n - 32 * b))).map fun c => BitVec.ofNat 8 c
        let sv := (p.dest + word (64 * p.dspl + 2 * ((p.gi * p.m + i) * nb + p.gj * p.n / 32 + b))).toNat
        ([(rowVA i + 32 * b, code)], [(sv, bytesOf (r.1 + r.2.1 * 256) 2)], r.2.2.2)
    (rows.flatMap (fun x => x.1) ++ rows.flatMap (fun x => x.2.1), rows.foldl (fun f x => f ||| x.2.2) 0)
  else
    let rows := (span 0 p.m).map fun i =>
      let es := (span 0 p.n).map fun j => outElem acc p.of (slotGet q p.slot (acc = 0) i j)
      ((rowVA i, es.flatMap fun e => bytesOf e.1 sz), es.foldl (fun (f : BitVec 5) e => f ||| e.2) 0)
    (rows.map (·.1), rows.foldl (fun f x => f ||| x.2) 0)

/-- Cut a write at the granules that it touches. -/
def chop (va : Nat) (bs : List Byte) : Nat → List (Nat × List Byte)
  | 0 => []
  | n + 1 =>
    if bs.isEmpty then []
    else
      let k := 64 - va % 64
      (va, bs.take k) :: chop (va + k) (bs.drop k) n

def chopAll (l : List (Nat × List Byte)) : List (Nat × List Byte) := l.flatMap fun w => chop w.1 w.2 (w.2.length / 64 + 2)

/-- The granules of chopped writes, in order. -/
def granulesOf (l : List (Nat × List Byte)) : List Nat := (l.map fun w => w.1 / 64).eraseDups

/-! ## Descents (R264 to R276) -/

/-- The node of a row after l levels, from the path-trace bits. -/
def rowNode (pt : Vector Word 16) (r : Nat) : Nat → Nat
  | 0 => 0
  | l + 1 => 2 * rowNode pt r l + 1 + b2n (bit (vget pt l 0) r)

/-- Row r's element k of the pair that holds the rows, decoded. -/
def rowElem (q : Press) (d : Desc) (r k : Nat) : PElem :=
  pressDecode d.fmt (pairElem q d.rslot (r * d.dlen * d.e + k * d.e) d.e) 0 0

/-- A product of two decoded elements of a format. -/
def elemProduct (fmt : Nat) (a b : PElem) : FVal × BitVec 5 :=
  if fmt = 5 then
    let n := a.n * b.n
    (if n = 0 then .zero false else .fin (n < 0) n.natAbs 0, 0)
  else mulV a.f b.f

/-- The rows are loaded into the pair (R269); none where they cannot be read. -/
def loadRows (s : State) (rd : Reader) (q : Press) (d : Desc) : Option Press :=
  (allSome ((span 0 d.batch).map fun r => pressRead s rd false (d.oaddr.toNat + r * d.ostr) (d.dlen * d.e))).map fun rows =>
    (rows.zip (span 0 d.batch)).foldl (fun q x =>
      foldSpan (fun q w => setSlotWord q d.rslot (x.2 * (d.dlen * d.e / 4) + w) (bits x.1 (32 * w) 32)) q 0 (d.dlen * d.e / 4)) q

/-- A node's record: its elements and its bias (R265). -/
def fetchNode (s : State) (rd : Reader) (d : Desc) (tree : Desc) (n : Nat) : Option (List PElem × FVal) :=
  match pressRead s rd true (tree.oaddr.toNat + n * tree.ostr) (d.dlen * d.e + (if d.bias then 4 else 0)) with
  | none => none
  | some v =>
    some ((span 0 d.dlen).map fun k => pressDecode d.fmt (bits v (8 * d.e * k) (8 * d.e)) 0 0,
      if d.bias then decodeF (fmtOf 1) (bits v (8 * d.e * d.dlen) 32) else .zero true)

/-- Distinct elements in rising order. -/
def distinctSorted (l : List Nat) : List Nat := sortBy (fun a b => a < b) l.eraseDups

/-- Rows at a node after l levels. -/
def rowsAt (q : Press) (d : Desc) (l n : Nat) : List Nat := (span 0 d.batch).filter fun r => rowNode q.pt r l = n

/-- The nodes of level l that rows have reached, ascending. -/
def nodesAt (q : Press) (d : Desc) (l : Nat) : List Nat := distinctSorted ((span 0 d.batch).map fun r => rowNode q.pt r l)

/-- Score of a row at a node. -/
def nodeScore (q : Press) (d : Desc) (w : List PElem) (b : FVal) (r : Nat) : Res :=
  let ps := (w.zip (span 0 d.dlen)).map fun x => elemProduct d.fmt x.1 (rowElem q d r x.2)
  roundSum (fmtOf 1) 0 (sumV (b :: ps.map (·.1)) false) (ps.foldl (fun f x => f ||| x.2) 0)

/-- Level l of a descent (R269); none where a node cannot be fetched. -/
def descendLevel (s : State) (rd : Reader) (q : Press) (d tree : Desc) (l : Nat) : Option (Press × BitVec 5) :=
  (nodesAt q d l).foldl (fun acc n =>
    match acc, fetchNode s rd d tree n with
    | some (q', fl), some (w, b) =>
      some ((rowsAt q d l n).foldl (fun (x : Press × BitVec 5) r =>
        let (v, f) := nodeScore q d w b r
        let fv := decodeF (fmtOf 1) v
        let dir := !fv.isNan && !(fv.neg && !fv.isZero)
        let p := { x.1 with pt := x.1.pt.setIfInBounds l (setFld (vget x.1.pt l 0) r 1 (b2n dir)) }
        let p := if d.tr then slotPut p d.tslot false l r v else p
        (p, x.2 ||| f ||| (if fv.isNan then 16 else 0))) (q', fl))
    | _, _ => none) (some (q, 0))

/-- The PDSC block (Table 12.3). -/
def descBlock (q : Press) (d : Desc) : List Byte :=
  let leaf (r : Nat) : Nat := rowNode q.pt r d.depth - (2 ^ d.depth - 1)
  let perm := sortBy (fun a b => leaf a < leaf b) (span 0 d.batch)
  let leaves := distinctSorted ((span 0 d.batch).map leaf)
  let group (j : Nat) : List Nat := match leaves[j]? with | some x => perm.filter fun r => leaf r = x | none => []
  let first (j : Nat) : Nat := ((span 0 j).map fun i => (group i).length).sum
  (span 0 64).flatMap (fun r => bytesOf (if r < d.batch then leaf r else 0xFFFF) 2) ++
  (span 0 64).map (fun k => BitVec.ofNat 8 (perm.getD k 0xFF)) ++
  (span 0 64).flatMap (fun j => bytesOf (match leaves[j]? with
    | some x => x + first j * 2 ^ 16 + (group j).length * 2 ^ 24
    | none => 0xFFFFFFFF) 4) ++
  (if d.tr then (span 0 d.depth).flatMap fun l => (span 0 64).flatMap fun r =>
      bytesOf (if r < d.batch then slotGet q d.tslot false l r else 0) 4
    else []) ++
  (if d.gix then (span 0 d.batch).flatMap fun j => (span 0 64).map fun k => BitVec.ofNat 8 ((group j).getD k 0xFF) else [])

/-- Adds of a gradient pact's levels below l, in number: DLEN + 1 for each node that rows have reached. -/
def addsBelow (q : Press) (d : Desc) (l : Nat) : Nat := ((span 0 l).map fun k => (nodesAt q d k).length * (d.dlen + 1)).sum

/-- The adds of a gradient pact's level, in order: VA and FP32 value, with their flags (R276). -/
def gradAdds (s : State) (rd : Reader) (q : Press) (d : Desc) (l : Nat) : Option (List (Nat × Res)) :=
  let g (r : Nat) : Option Nat :=
    match rd.xlate s (d.garr + word (4 * (64 * l + r))) .read with
    | .ok x =>
      if s.poisoned (dieOf rd.core) x.pa 4 || fenced s rd.ctx (dieOf rd.core) x.pa x.pte then none
      else some (s.read (dieOf rd.core) x.pa 4)
    | _ => none
  (allSome ((nodesAt q d l).map fun n =>
    let rs := rowsAt q d l n
    (allSome (rs.map g)).map fun gs =>
      let base := (d.gbase + word (n * d.gstr)).toNat
      let sum (l : List (FVal × BitVec 5)) : Res :=
        roundSum (fmtOf 1) 0 (sumV (.zero true :: l.map (·.1)) false) (l.foldl (fun f x => f ||| x.2) 0)
      let val (r k : Nat) : FVal :=
        let e := rowElem q d r k
        if d.fmt = 5 then (if e.n = 0 then .zero false else .fin (e.n < 0) e.n.natAbs 0) else e.f
      (span 0 d.dlen).map (fun k => (base + 4 * k, sum ((gs.zip rs).map fun x => mulV (decodeF (fmtOf 1) x.1) (val x.2 k)))) ++
        [(base + 4 * d.dlen, sum (gs.map fun x => (decodeF (fmtOf 1) x, 0)))])).map fun l => l.flatten

/-- A gradient pact reads the gradients of a level's rows: each line of cached memory counts once at its slice, for the die of the press's
near end (R459). -/
def countGrads (s : State) (rd : Reader) (near : Nat) (d : Desc) (l : Nat) : State :=
  (span 0 (ceilDiv (4 * d.batch) 64)).foldl (fun s j =>
    let va := d.garr + word (256 * l + 64 * j)
    let s := s.walked rd.ctx rd.pages rd.again va
    match rd.xlate s va .read with
    | .ok x => (match kindOf x.pa with
      | .dram | .host => s.engineRead (dieOf near) (home s rd.ctx x.pa x.pte) x.pa (evictFirst x.pte)
      | _ => s)
    | _ => s) s

/-! ## Reads of the weight store that a refresh delays (R192, R282) -/

/-- The port lines of the weight store that a range of an operand takes, in order. -/
def portLines (s : State) (rd : Reader) (va n : Nat) : List Nat :=
  match piecesFrom (fun w => rd.xlate s w .read) (va : Nat) n [] (n / 4096 + 2) with
  | .ok l => l.flatMap fun p => match kindOf p.2.1 with
    | .ws o => span (o / 64) ((o + p.2.2.1 - 1) / 64 + 1 - o / 64)
    | _ => []
  | _ => []

/-- What follows the last element that satisfies p; the whole list where none does. -/
def afterLast {α : Type} (p : α → Bool) : List α → List α
  | [] => []
  | x :: r => if r.any p then afterLast p r else if p x then r else x :: r

/-- The first of some port lines that is refreshing now: those up to the last one whose delay is over have been read. -/
def nextDelay (s : State) (delays : List (Bool × Nat × Nat)) (lines : List (Bool × Nat)) : Option (Bool × Nat) :=
  let now := s.devtime / 500
  (afterLast (fun l => delays.any fun x => x.1 = l.1 && x.2.1 = l.2 && x.2.2 < now) lines).find? fun l => s.refreshing (l.2 * 64)

/-- The port lines that K-steps k … of an end's operand take. -/
def Operand.lines (s : State) (o : Operand) (k n : Nat) : List (Bool × Nat) :=
  if o.p.osrc ≠ 3 then []
  else
    let cnt := if o.p.bEnd then o.p.n else o.p.m
    ((span k n).flatMap fun j => portLines s o.rd (o.p.oaddr.toNat + j * o.p.ostr) (opBytes o.fmt cnt) ++
      (if opScaled o.fmt && (j = k || j % 32 = 0) then portLines s o.rd (scaleVA o.p 0 j) (2 * cnt) else [])).map
        fun l => (!o.p.bEnd, l)

/-- The port lines that the nodes of level l take. -/
def levelLines (s : State) (rd : Reader) (q : Press) (d tree : Desc) (l : Nat) : List (Bool × Nat) :=
  (nodesAt q d l).flatMap fun n =>
    (portLines s rd (tree.oaddr.toNat + n * tree.ostr) (d.dlen * d.e + (if d.bias then 4 else 0))).map fun l => (false, l)

/-- How far a streaming pact comes: to where it was to go; up to a K-step or level whose first read a refresh delays; or not, where
an operand cannot be read. -/
inductive Progress where
  | ok (q : Press) (fl : BitVec 5)
  | delay (q : Press) (fl : BitVec 5) (k : Nat) (line : Bool × Nat)
  | fail

/-- Accumulate from K-step k up to k1. `delays` are those of the group at k. -/
def accumulate (s : State) (a b : Operand) (k1 : Nat) (delays : List (Bool × Nat × Nat)) (q : Press) (fl : BitVec 5) (k : Nat) :
    Nat → Progress
  | 0 => .ok q fl
  | n + 1 =>
    if k ≥ k1 then .ok q fl
    else
      let k' := groupEnd a.p k
      match nextDelay s delays (a.lines s k (k' - k) ++ b.lines s k (k' - k)) with
      | some l => .delay q fl k l
      | none =>
        match opGroupElems s q a a.p.zsk (fun _ => false) a.p.m k (k' - k) with
        | none => .fail
        | some x =>
          match opGroupElems s q b false (fun j => !liveStep a.p.zsk x (j - k)) a.p.n k (k' - k) with
          | none => .fail
          | some y =>
            let r := groupStep q a.p x y
            accumulate s a b k1 [] r.1 (fl ||| r.2) k' n

/-! ## PSCL (R423) -/

/-- Each element of a slot or pair times a factor. -/
def scaleSlot (q : Press) (slot : Nat) (f64 : Bool) (factor : Word) : Press × BitVec 5 :=
  let f := fmtOf (if f64 then 0 else 1)
  mapSlot q slot f64 64 64 fun _ _ v => mulF f 0 v factor.toNat

end Sys2Proof.Machine
end

