-- ==== Sys2Proof/Machine/PressEnd.lean ====
section
/-! DEFINITION. How a pact ends: done, cancelled, or in DFAULT, and with it the members of its gang that have landed (R217, R237, R238,
R242, R422). -/

namespace Sys2Proof.Machine

/-- A trace record of a press operation, with its issuer's place (R102). -/
def tracePress (s : State) (kind : Nat) (e : PressEntry) : State :=
  let h := s.homeOf e.lead
  trace s (s.ctxOf e.lead.crew) kind e.tag.toNat e.kdone h.1 h.2

/-- A pact leaves its press in a final state: its operand holds are released, threads that wait for it go on, and a trace record is
written. -/
def endEntry (s : State) (press : Nat) (e : PressEntry) (st : PactState) : State :=
  tracePress (releaseKey ((s.modPress press fun p => p.retire e st).dropHolds e.id fun h => !h.write) .press e.id) 4 e

/-- The pact's end: its flags reach the lead's FCSR, a slot that is not kept is cleared, and the press names its row pair. -/
def finishPact (s : State) (press : Nat) (e : PressEntry) : State :=
  let s := endEntry (s.modRef e.lead fun t => t.raise e.flags) press e .done
  s.modPress press fun p => match e.op with
    | .pmm => if bit e.recA 6 then p else slotClear p (shapeOf e.recA)
    | .pdgr => if (descOf e.recA).rsrc then p else { p with rows := some (descOf e.recA).rslot }
    | _ => { p with rows := some (descOf e.recA).rslot }

/-- The delivery of a gang is over: its write hold goes, and its members that have landed are done (R217). -/
def endGang (s : State) (g : Nat) : State :=
  (gangEntries s g).foldl (fun s x => if x.2.landed then finishPact s x.1 x.2 else s) (s.dropHolds g fun h => h.write)

/-- Cancel a pact, with every press of its gang that is not delivering (R237, R422): they leave their queues, their holds are
released, and an incomplete delivery ends in BarError. -/
def cancelPact (s : State) (press : Nat) (e : PressEntry) : BarRes :=
  let left := gangLeft s e
  let s := ((gangEntries s e.gang).filter fun x => x.2.state ≠ .deliver).foldl (fun s x => endEntry s x.1 x.2 .cancel) s
  let s := if (stillLanding s e.gang).isEmpty then endGang s e.gang else s
  if e.delivers && e.doomed.isNone then errorAt s (e.core press true) (s.ctxOf e.lead.crew) e.tb left (.press e.id) else .ok s

/-- PDLV to whom a pact's delivery faults are told (R242, R280). -/
def tellPdlv (s : State) (press : Nat) (e : PressEntry) (other : Bool) (addr : Word) : State :=
  let slot := match e.op with | .pmm => (shapeOf e.recA).slot | _ => (descOf e.recA).rslot
  s.modRef e.pdlv fun t => t.postTrap PDLV addr
    (word (tagAux press e.leadFar e.tag + slot * 1024 + b2n other * 4096 + e.gran % 2 ^ 16 * 65536))

/-- The pact leaves the queue in DFAULT, and its lead is told. -/
def enterDfault (s : State) (press : Nat) (e : PressEntry) (other : Bool) (addr : Word) : State :=
  tellPdlv (endEntry s press e .dfault) press e other addr

/-- A member of a gang has met a delivery fault (R242): every other one that delivers and has not landed enters DFAULT, and those that
have yet to deliver will. -/
def failGang (s : State) (g : Nat) (addr : Word) : State :=
  let s := (stillLanding s g).foldl (fun s x => enterDfault s x.1 x.2 true addr) s
  let doom (e : PressEntry) : PressEntry := if e.op.isPact && e.gang = g && !e.landed then { e with doomed := some addr } else e
  endGang { s with presses := s.presses.map fun x => (x.1, { x.2 with queue := x.2.queue.map doom }) } g

end Sys2Proof.Machine
end

