-- ==== Sys2Proof/Machine/Press.lean ====
section
/-! DEFINITION. Press instructions as their issuer meets them (R413 to R427): halves of pacts, waits and queries, and the
single-end commands. -/

namespace Sys2Proof.Machine

/-- An instruction of a press: a port whose link does not exist, or leaves the crew, traps with PARAM. -/
def portChk (port : BitVec 2) (s : State) : Option Stop := if (myPress s port).isNone then some (paramStop 0) else none

/-- A plain press instruction. -/
def pressBody (h : Hdr) (port : BitVec 2) (srcs : List Src) (dsts : List Dst) (eff : Nat → Bool → Ops → State → Eff) : Body :=
  { Body.mk' h .press srcs dsts (fun o s =>
      match myPress s port with
      | some (p, far, _) => eff p far o s
      | none => .wait s .message 0) with
    light := false
    chk := fun _ s => portChk port s }

/-! ## Starting a pact (R417) -/

/-- The pact of this end that an operand fault of this end has suspended, with a tag and a ROLE: nothing else is compared (R241). -/
def suspended (p : Press) (far : Bool) (tag : BitVec 8) (r : BitVec 320) : Option PressEntry :=
  p.queue.find? fun e => e.op.isPact && e.tag = tag && e.state = .susp && bit (e.recOf far) 0 = bit r 0 &&
    (if far = e.leadFar then e.causes.faultA else e.causes.faultB)

/-- The record's check by its opcode (R419). -/
def recordOk (s : State) (press : Nat) (op : PressOp) (r : BitVec 320) : Bool :=
  match op with
  | .pmm => shapeOk s r
  | .pdsc => descOk s press false r
  | _ => descOk s press true r

/-- The holds that a lead's record shows at issue; a range that does not translate is left to formation. -/
def leadHolds (s : State) (op : PressOp) (r : BitVec 320) : List Hold :=
  let user := s.me.user
  let hold (agent : Nat) (w : Bool) (x : Nat × Nat) : List Hold :=
    match pieces s s.curCore s.myCtx user (if w then .write else .read) (x.1 : Nat) x.2 with
    | .ok l => holdsOf agent 0 s.myCtx w (joinPieces l)
    | _ => []
  if bit r 0 then []
  else match op with
    | .pmm =>
      let p := shapeOf r
      (shapeSpan p).flatMap (hold 4 true) ++
        (if p.osrc < 2 then (opRanges p (opIndex s s.curCore p)).flatMap (hold 3 false) else [])
    | .pdsc => let d := descOf r; hold 5 true (d.span false) ++ hold 5 false d.rows
    | _ =>
      let d := descOf r
      hold 5 true (d.span true) ++ hold 5 false d.scores ++ (if d.rsrc then [] else hold 5 false d.rows)

/-- A half of this end with the tag is in the table. -/
def dupHalf (p : Press) (far : Bool) (tag : BitVec 8) : Bool := p.halves.any fun h => h.far = far && h.tag = tag

/-- The rendezvous table is full for a tag: four other pacts wait for their second half (R225). -/
def tableFull (p : Press) (tag : BitVec 8) : Bool :=
  let tags := (p.halves.map fun h => h.tag).eraseDups
  !tags.contains tag && 4 ≤ tags.length

/-- The checks of a pact instruction, in the order of R417: the record's come before the search for a suspended pact. -/
def pactChk (op : PressOp) (port : BitVec 2) (tag : BitVec 8) (o : Ops) (s : State) : Option Stop :=
  match myPress s port with
  | none => some (paramStop 0)
  | some (p, far, own) =>
    if !recordOk s p op o.rcd then some (paramStop 0)
    else if (suspended (s.press p) far tag o.rcd).isSome then none
    else if holdsTooMany (leadHolds s op o.rcd) || holdsSelfClash (leadHolds s op o.rcd) then some (paramStop 0)
    else if dupHalf (s.press p) far tag then some (paramStop tag.toNat)
    else
      let rk := pactRank op o.rcd own
      let lpr := s.me.csr.lpr
      if !bit lpr 63 && rk ≤ fld lpr 0 13 then some (.trap 10 RORD 0 (word (rk + fld lpr 0 13 * 65536)) none) else none

/-- The factor that a record's pact reads at issue: a PMM with SCL has one (R462). -/
def scaleFactor (op : PressOp) (r : BitVec 320) (a : Word) : Word := if op = .pmm && (shapeOf r).scl then a else 0

/-- The effect of a pact instruction once it has been debited. A half that has waited for room waits on while another half of its end,
entered in the meantime, has its tag: PARAM is a check at issue (DESIGN CHOICE, log entry 133). -/
def pactEff (op : PressOp) (port : BitVec 2) (tag : BitVec 8) (o : Ops) (s : State) : Eff :=
  match myPress s port with
  | none => .wait s .pressQueue 0
  | some (p, far, _) =>
    match suspended (s.press p) far tag o.rcd with
    | some e =>
      let f (x : PressEntry) : PressEntry :=
        if x.id ≠ e.id then x
        else { x with causes := if far = x.leadFar then { x.causes with faultA := false } else { x.causes with faultB := false } }
      .hold (s.modPress p fun q => { q with queue := q.queue.map f }) .pact e.id
    | none =>
      if dupHalf (s.press p) far tag || tableFull (s.press p) tag then .wait s .pressQueue 0
      else
        let (id, s) := match (s.press p).halves.find? fun h => h.far ≠ far && h.tag = tag with
          | some h => (h.id, s)
          | none => s.fresh
        let s := joinPact s p far tag id
        .hold (s.modPress p fun q => { q with
          halves := q.halves ++ [⟨op, o.rcd, far, tag, s.me.ref, scaleFactor op o.rcd o.a, id⟩]
          past := q.past.filter fun x => !(x.1 = far && x.2.tag = tag) }) .pact id

/-- A pact instruction. -/
def pactBody (h : Hdr) (op : PressOp) (kind : RecKind) (port : BitVec 2) (tag : BitVec 8) (blk : BitVec 384) : Body :=
  { Body.mk' h .press [.blk kind blk] [] (pactEff op port tag) with
    light := false
    blk := true
    chk := pactChk op port tag
    units := fun o s =>
      match myPress s port with
      | some (p, far, _) => if (suspended (s.press p) far tag o.rcd).isSome then 1 else pactUnits op o.rcd
      | none => 1 }

def bodyPmm (h : Hdr) (port : BitVec 2) (tag : BitVec 8) (blk : BitVec 384) : Body := pactBody h .pmm .shape port tag blk
def bodyPdsc (h : Hdr) (port : BitVec 2) (tag : BitVec 8) (blk : BitVec 384) : Body := pactBody h .pdsc .descent port tag blk
def bodyPdgr (h : Hdr) (port : BitVec 2) (tag : BitVec 8) (blk : BitVec 384) : Body := pactBody h .pdgr .descent port tag blk

/-! ## Waiting, querying and cancelling (R420 to R422) -/

/-- Live pacts with the tag on the press that the thread joined or ordered a PRDL of. -/
def Thread.waitsOn (t : Thread) (s : State) (press : Nat) (tag : BitVec 8) : List Nat :=
  (t.joined.filter fun j => j.press = press && j.tag = tag && pactLive s j.pact).map (·.pact)

def bodyPwait (h : Hdr) (port : BitVec 2) (tag : BitVec 8) : Body :=
  pressBody h port [] [] fun p _ _ s => if (s.me.waitsOn s p tag).isEmpty then .done s else .wait s .press (keyTag p tag)

/-- The word of Table 18.3. -/
def pqryWord (p : Press) (far : Bool) (tag : BitVec 8) : Word :=
  match newestPact p far tag with
  | none => 0
  | some e => word (e.code + 8 + p.queue.length * 16 + b2n (bit (e.recOf far) 0) * 128 + e.kdone % 2 ^ 20 * 2 ^ 12 +
      e.gran % 2 ^ 16 * 2 ^ 32)

def bodyPqry (h : Hdr) (d : BitVec 5) (port : BitVec 2) (tag : BitVec 8) : Body :=
  pressBody h port [] [.g d] fun p far o s => effG (some 1) d (fun _ => (pqryWord (s.press p) far tag, 0)) o s

/-- PABT (Table 18.4). -/
def pabtEff (tag : BitVec 8) (p : Nat) (far : Bool) (_ : Ops) (s : State) : Eff :=
  match newestPact (s.press p) far tag with
  | none => .done s
  | some e =>
    match e.state with
    | .half =>
      match (s.press p).halves.find? fun h => h.far = far && h.tag = tag with
      | some h => match cancelHalf s p h PTIMEO (word (tagAux p far tag + 2048)) with
        | .ok s => .done s
        | .held n => .wait (s.holdBar n (.press h.id)) .press (keyTag p tag)
      | none => .done s
    | .queued | .susp => match cancelPact s p e with
      | .ok s => .done s
      | .held n => .wait (s.holdBar n (.press e.id)) .press (keyTag p tag)
    | .stream =>
      let f (x : PressEntry) : PressEntry := if x.gang = e.gang && x.op.isPact then { x with abort := true } else x
      let s := { s with presses := s.presses.map fun q => (q.1, { q.2 with queue := q.2.queue.map f }) }
      .hold s .press e.id
    | _ => .done s

def bodyPabt (h : Hdr) (port : BitVec 2) (tag : BitVec 8) : Body := pressBody h port [] [] (pabtEff tag)

/-! ## Single-end commands (R423 to R426) -/

/-- The instruction as issued, for the saved record (R462). -/
def insnOf (i : Instr) : Slot := match encode i with | some x => x.1 | none => 0

/-- A command enters the queue, or its issuer waits for room (R234). -/
def enqueue (s : State) (p : Nat) (e : PressEntry) (k : State → Eff) : Eff :=
  if 4 ≤ (s.press p).queue.length then .wait s .pressQueue 0
  else k (s.modPress p fun q => { q with queue := q.queue ++ [e] })

/-- The units of a slot command. -/
def Body.withUnits (b : Body) (n : Nat) : Body := { b with units := fun _ _ => n }

def bodyPclr (h : Hdr) (port slot : BitVec 2) (f64 : Bool) : Body :=
  pressBody h port [] [] fun p far _ s =>
    let (id, s1) := s.fresh
    let e := { mkCommand .pclr id far s.me.ref 0 0 (insnOf (.pclr h port slot f64)) with slot := slot.toNat, f64 := f64 }
    enqueue s1 p e .done

def bodyPscl (h : Hdr) (a : BitVec 5) (port slot : BitVec 2) (f64 : Bool) : Body :=
  (pressBody h port [.a a] [] fun p far o s =>
    let (id, s1) := s.fresh
    let e := { mkCommand .pscl id far s.me.ref o.a 0 (insnOf (.pscl h a port slot f64)) with slot := slot.toNat, f64 := f64 }
    enqueue s1 p e .done).withUnits 4

/-- Bytes of a slot image. -/
def imageBytes (f64 : Bool) : Nat := if f64 then 32768 else 16384

/-- PLDS and PSTS: the image is held, and the issuer parks until the command is done (R424). -/
def imageBody (h : Hdr) (op : PressOp) (i : Instr) (a : BitVec 5) (port slot : BitVec 2) (f64 : Bool) : Body :=
  let b := (pressBody h port [.a a] [] fun p far o s =>
    let (id, s1) := s.fresh
    let hd := ⟨if op = .plds then 3 else 4, id, decide (op = .psts), spmPA s.curCore (o.a.toNat % 262144), imageBytes f64, s.myCtx⟩
    if 4 ≤ (s.press p).queue.length then .wait s .pressQueue 0
    else match register s1 [hd] with
      | .rhld aux _ => .trap s RHLD o.a (word aux)
      | .ok s => enqueue s p { mkCommand op id far s.me.ref o.a 0 (insnOf i) with slot := slot.toNat, f64 := f64 }
          fun s => .hold s .press id
      | _ => .wait s .memory 0).withUnits (if f64 then 8 else 4)
  { b with
    chk := fun o s =>
      if (myPress s port).isNone || o.a.toNat % 64 ≠ 0 || !inOwn o.a (imageBytes f64) then some (paramStop 0) else none }

def bodyPlds (h : Hdr) (a : BitVec 5) (port slot : BitVec 2) (f64 : Bool) : Body :=
  imageBody h .plds (.plds h a port slot f64) a port slot f64
def bodyPsts (h : Hdr) (a : BitVec 5) (port slot : BitVec 2) (f64 : Bool) : Body :=
  imageBody h .psts (.psts h a port slot f64) a port slot f64

/-- The newest pact with the tag that is in DFAULT and of which this end is the lead (R425). -/
def faultedPact (p : Press) (far : Bool) (tag : BitVec 8) : Option PressEntry :=
  (p.past.filter fun x => x.1 = far && x.2.tag = tag && x.2.state = .dfault && x.2.leadFar = far).head?.map (·.2)

/-- Bytes that a PRDL delivers. -/
def prdlBytes (e : PressEntry) : Nat :=
  match e.op with
  | .pmm =>
    let p := shapeOf e.recA
    p.m * p.n * outBytesOf p.of + (if p.of = 4 then 2 * p.m * ceilDiv p.n 32 else 0)
  | .pdsc => (descOf e.recA).blockBytes
  | _ => 0

/-- The span of a press's own sub-tile under a new destination (R232, R425). -/
def subSpan (p : Shape) : List (Nat × Nat) :=
  let w := p.n * outBytesOf p.of
  ((p.dest + word (p.gi * p.m * p.dstr + p.gj * w)).toNat, (p.m - 1) * p.dstr + w) ::
    (if p.of = 4 then
      let nb := ceilDiv (p.gc * p.n) 32
      [((p.dest + word (64 * p.dspl + 2 * (p.gi * p.m * nb + p.gj * (p.n / 32)))).toNat,
        2 * ((p.m - 1) * nb + ceilDiv p.n 32))]
    else [])

/-- The ranges that a PRDL writes. -/
def redeliverRanges (op : PressOp) (r : BitVec 320) : List (Nat × Nat) :=
  match op with
  | .pmm => subSpan (shapeOf r)
  | .pdsc => [(descOf r).span false]
  | _ => [(descOf r).span true]

/-- Translate ranges for writing: pieces, or the first fault, or a wait. -/
def rangesPieces (s : State) (core ctx : Nat) (user : Bool) (acc : Acc) : List (Nat × Nat) → Pieces
  | [] => .ok []
  | r :: rest =>
    match pieces s core ctx user acc (r.1 : Nat) r.2 with
    | .ok l => match rangesPieces s core ctx user acc rest with
      | .ok l' => .ok (l ++ l')
      | x => x
    | x => x

/-- The checks of PRDL. -/
def prdlChk (port : BitVec 2) (tag : BitVec 8) (o : Ops) (s : State) : Option Stop :=
  match myPress s port with
  | none => some (paramStop 0)
  | some (p, far, _) =>
    match faultedPact (s.press p) far tag with
    | none => some (paramStop 0)
    | some e =>
      if o.a.toNat % 64 ≠ 0 || (e.op = .pdgr && o.a ≠ 0) || (barPA s s.curCore s.myCtx o.b).isNone then some (paramStop 0)
      else none

/-- The TB field of a barrier's VA: a barrier in another window is named by its address in crew scratchpad space. -/
def tbField (s : State) (va : Word) : Nat :=
  match barPA s s.curCore s.myCtx va with
  | some (.inl pa) => fld (spmVA s s.myCtx pa) 4 26
  | _ => fld va 4 26

/-- PRDL's effect: the saved record with the new destination and barrier, a write hold, and a place in the queue.
(DEDUCED, log entry 53.) -/
def prdlEff (h : Hdr) (a b : BitVec 5) (port : BitVec 2) (tag : BitVec 8) (p : Nat) (far : Bool) (o : Ops) (s : State) : Eff :=
  match faultedPact (s.press p) far tag with
  | none => .trap s PARAM 0 0
  | some e =>
    let r := match e.op with
      | .pmm => setFld e.recA 192 48 o.a.toNat
      | .pdsc => setFld e.recA 92 48 o.a.toNat
      | _ => e.recA
    let r := setFld r 256 26 (tbField s o.b)
    if o.a ≠ sext o.a.toNat 48 then .trap s PAGEF o.a (word (xaux 5 0))
    else if 4 ≤ (s.press p).queue.length then .wait s .pressQueue 0
    else match rangesPieces s s.curCore s.myCtx s.me.user .write (redeliverRanges e.op r) with
      | .flt c va x => .trap s c va (word x)
      | .wait => .wait s .memory 0
      | .ok l =>
        let agent := if e.op = .pdgr then 5 else 4
        -- The delivery is a gang of its own (R425).
        let (g, s) := s.fresh
        match register s (holdsOf agent g s.myCtx true (joinPieces l)) with
        | .param => .trap s PARAM 0 0
        | .rhld aux hd => .trap s RHLD (vaAtPA l hd.lo) (word aux)
        | .wait => .wait s .memory 0
        | .ok s =>
          let c := { mkCommand .prdl e.id far s.me.ref o.a o.b (insnOf (.prdl h a b port tag)) with
            recA := r, recB := e.recB, tag := tag, slot := pactNames e.op r e.recB, pages := latchPages l, gang := g
            userA := s.me.user
            pt := match e.op with | .pmm => 0 | .pdsc => 1 | _ => 2 }
          enqueue (joinPact s p far tag e.id) p c .done

def bodyPrdl (h : Hdr) (a b : BitVec 5) (port : BitVec 2) (tag : BitVec 8) : Body :=
  { pressBody h port [.a a, .b b] [] (prdlEff h a b port tag) with
    chk := prdlChk port tag
    units := fun _ s =>
      match myPress s port with
      | some (p, far, _) => match faultedPact (s.press p) far tag with
        | some e => max 1 (ceilDiv (prdlBytes e) 4096)
        | none => 1
      | none => 1 }

/-- PRDT's destination is empty until the command executes (R415, R426); a write of z is discarded as it lands. -/
def bodyPrdt (h : Hdr) (d : BitVec 5) (port : BitVec 2) (pt : BitVec 4) : Body :=
  pressBody h port [] [.g d] fun p far _ s =>
    let (id, s1) := s.fresh
    let e := { mkCommand .prdt id far s.me.ref 0 (d.setWidth 64) (insnOf (.prdt h d port pt)) with pt := pt.toNat }
    enqueue s1 p e fun s =>
      if d.toNat < 24 then
        .done (s.modMe fun t =>
          let w := t.destG d 0
          { t.emptyReg w with pend := t.pend ++ [⟨none, [w], 0, true, false⟩] })
      else .done s

def bodyPwrt (h : Hdr) (a : BitVec 5) (port : BitVec 2) (pt : BitVec 4) : Body :=
  pressBody h port [.a a] [] fun p far o s =>
    let (id, s1) := s.fresh
    let e := { mkCommand .pwrt id far s.me.ref o.a 0 (insnOf (.pwrt h a port pt)) with pt := pt.toNat }
    enqueue s1 p e .done

def bodyPord (h : Hdr) : Body :=
  { Body.mk' h .press [] [] (fun _ s => .done (s.modMe fun t => { t with csr := { t.csr with lpr := setFld t.csr.lpr 63 1 1 } })) with
    light := false }

/-! ## Execution: each instruction issued by itself -/

def execPmm (h : Hdr) (port : BitVec 2) (tag : BitVec 8) (blk : BitVec 384) (s : State) : Out :=
  .next (issue (.pmm h port tag blk) (bodyPmm h port tag blk) s)
def execPdsc (h : Hdr) (port : BitVec 2) (tag : BitVec 8) (blk : BitVec 384) (s : State) : Out :=
  .next (issue (.pdsc h port tag blk) (bodyPdsc h port tag blk) s)
def execPdgr (h : Hdr) (port : BitVec 2) (tag : BitVec 8) (blk : BitVec 384) (s : State) : Out :=
  .next (issue (.pdgr h port tag blk) (bodyPdgr h port tag blk) s)
def execPwait (h : Hdr) (port : BitVec 2) (tag : BitVec 8) (s : State) : Out :=
  .next (issue (.pwait h port tag) (bodyPwait h port tag) s)
def execPqry (h : Hdr) (d : BitVec 5) (port : BitVec 2) (tag : BitVec 8) (s : State) : Out :=
  .next (issue (.pqry h d port tag) (bodyPqry h d port tag) s)
def execPabt (h : Hdr) (port : BitVec 2) (tag : BitVec 8) (s : State) : Out :=
  .next (issue (.pabt h port tag) (bodyPabt h port tag) s)
def execPclr (h : Hdr) (port slot : BitVec 2) (f64 : Bool) (s : State) : Out :=
  .next (issue (.pclr h port slot f64) (bodyPclr h port slot f64) s)
def execPscl (h : Hdr) (a : BitVec 5) (port slot : BitVec 2) (f64 : Bool) (s : State) : Out :=
  .next (issue (.pscl h a port slot f64) (bodyPscl h a port slot f64) s)
def execPlds (h : Hdr) (a : BitVec 5) (port slot : BitVec 2) (f64 : Bool) (s : State) : Out :=
  .next (issue (.plds h a port slot f64) (bodyPlds h a port slot f64) s)
def execPsts (h : Hdr) (a : BitVec 5) (port slot : BitVec 2) (f64 : Bool) (s : State) : Out :=
  .next (issue (.psts h a port slot f64) (bodyPsts h a port slot f64) s)
def execPrdl (h : Hdr) (a b : BitVec 5) (port : BitVec 2) (tag : BitVec 8) (s : State) : Out :=
  .next (issue (.prdl h a b port tag) (bodyPrdl h a b port tag) s)
def execPrdt (h : Hdr) (d : BitVec 5) (port : BitVec 2) (pt : BitVec 4) (s : State) : Out :=
  .next (issue (.prdt h d port pt) (bodyPrdt h d port pt) s)
def execPwrt (h : Hdr) (a : BitVec 5) (port : BitVec 2) (pt : BitVec 4) (s : State) : Out :=
  .next (issue (.pwrt h a port pt) (bodyPwrt h a port pt) s)
def execPord (h : Hdr) (s : State) : Out := .next (issue (.pord h) (bodyPord h) s)

end Sys2Proof.Machine
end

