-- ==== Sys2Proof/Machine/PressRun.lean ====
section
/-! DEFINITION. What presses do by themselves: pacts form, entries begin, stream, suspend, resume, fault, deliver and end, and
single-end commands finish (R226, R230 to R246, R269 to R281, R423 to R426). -/

namespace Sys2Proof.Machine

/-- The answer of an event: what it makes of the state, or nothing where it cannot happen now. (DESIGN CHOICE, log entry 41.) -/
def event (s : State) (o : Option State) : Out := .next (o.getD s)

/-! ## Formation (R226, R246) -/

/-- The two halves of a press with one tag: the lead's and the other. -/
structure Pair where
  press : Nat
  lead : Half
  other : Half

/-- The halves of a tag on a press, in any roles. -/
def bothHalves (p : Press) (tag : BitVec 8) : Option (Half × Half) :=
  match p.halves.find? fun h => !h.far && h.tag = tag, p.halves.find? fun h => h.far && h.tag = tag with
  | some a, some b => some (a, b)
  | _, _ => none

/-- The pair by roles; none where the roles are equal. -/
def pairOf (press : Nat) (a b : Half) : Option Pair :=
  if bit a.rcd 0 = bit b.rcd 0 then none else if bit a.rcd 0 then some ⟨press, b, a⟩ else some ⟨press, a, b⟩

/-- The agreeing fields of a record. -/
def agreeOf (op : PressOp) (r : BitVec 320) : List Nat := match op with | .pmm => shapeAgree r | _ => descAgree r

/-- The crew's number of a physical press: its near end's crew-logical index × 2 + direction. -/
def crewPress (s : State) (crew press : Nat) : Nat :=
  match s.crew? crew with
  | some c => ((c.indexOf (press / 2)).getD 0) * 2 + press % 2
  | none => 0

/-- The pairs of a complete gang, the base press first; none where R246 is not met. -/
def gangPairs (s : State) (h : Half) : Option (List Pair) :=
  let all := gangHalves s h
  let p := shapeOf h.rcd
  let base := 2 * p.gbase + p.gdir
  let pairs := (all.map (·.1)).eraseDups.map fun k => (bothHalves (s.press k) h.tag).bind fun x => pairOf k x.1 x.2
  match allSome pairs with
  | none => none
  | some l =>
    let pos (x : Pair) : Nat × Nat := ((shapeOf x.lead.rcd).gi, (shapeOf x.lead.rcd).gj)
    let rank (x : Pair) : Nat := crewPress s h.issuer.crew x.press
    let lead := match l with | x :: _ => shapeLead x.lead.rcd | [] => []
    if l.length = p.gr * p.gc && (l.map pos).eraseDups.length = l.length &&
        (l.all fun x => if pos x = (0, 0) then rank x = base else base < rank x) &&
        (l.all fun x => shapeLead x.lead.rcd = lead) && (l.all fun x => agreeOf .pmm x.lead.rcd = agreeOf .pmm x.other.rcd) then
      some (sortBy (fun a b => pos a = (0, 0) && pos b ≠ (0, 0)) l)
    else none

/-- Privilege of a thread context. -/
def State.userOf (s : State) (r : TRef) : Bool := match s.ref? r with | some t => t.user | none => false

/-- A failure at formation: whether the lead owns it, cause, TADDR and TAUX; or a wait. -/
inductive FormStop where
  | trap (lead : Bool) (cause : Nat) (addr : Word) (aux : Nat)
  | wait

/-- Check a weight-store range as for LDW (R226, step 2). -/
def weightRange (s : State) (lead : Bool) (core ctx : Nat) (user : Bool) (r : Nat × Nat) :
    Except FormStop (List (Nat × Nat × Nat × BitVec 64)) :=
  match pieces s core ctx user .read (r.1 : Nat) r.2 with
  | .flt c va a => .error (.trap lead c va a)
  | .wait => .error .wait
  | .ok l =>
    match l.findSome? fun p =>
        let lvl := leafLevel s core ctx user p.1 .read
        match kindOf p.2.1 with
        | .ws o => (wsReadCheck s ctx (dieOf core) o lvl).map fun x => (x.1, p.1, x.2)
        | _ => some (PAGEF, p.1, xaux 3 lvl) with
    | some (c, va, a) => .error (.trap lead c (word va) a)
    | none => .ok l

/-- A list of checks, in order. -/
def allOk {ε α β : Type} (f : α → Except ε (List β)) : List α → Except ε (List β)
  | [] => .ok []
  | x :: r => match f x with | .error e => .error e | .ok l => match allOk f r with | .error e => .error e | .ok m => .ok (l ++ m)

/-- A hold with the end that owns its range. -/
structure OwnedHold where
  lead : Bool
  hold : Hold
  va : Word

/-- The holds of a pair, and the pages that it latches (R180, R203, R226). `gang` owns the delivery's hold, `id` the
operands'. (DEDUCED, log entry 52.) -/
def pairHolds (s : State) (x : Pair) (id gang : Nat) : Except FormStop (List OwnedHold × List (Nat × Nat × BitVec 64)) :=
  let ctx := s.ctxOf x.lead.issuer.crew
  let coreA := pressEnd x.press x.lead.far
  let coreB := pressEnd x.press x.other.far
  let userA := s.userOf x.lead.issuer
  let userB := s.userOf x.other.issuer
  let held (lead : Bool) (agent owner : Nat) (w : Bool) (l : List (Nat × Nat × Nat × BitVec 64)) : List OwnedHold :=
    (holdsOf agent owner ctx w (joinPieces l)).map fun h => ⟨lead, h, vaAtPA l h.lo⟩
  let range (lead : Bool) (core : Nat) (user : Bool) (acc : Acc) (r : Nat × Nat) :
      Except FormStop (List (Nat × Nat × Nat × BitVec 64)) :=
    match pieces s core ctx user acc (r.1 : Nat) r.2 with
    | .flt c va a => .error (.trap lead c va a)
    | .wait => .error .wait
    | .ok l =>
      match acc, l.find? fun p => !holdable p.2.1 with
      | .write, some p => .error (match kindOf p.2.1 with
          | .ws _ => .trap lead WSWRITE (word p.1) 0
          | _ => .trap lead PROT (word p.1) (xaux 4 (leafLevel s core ctx user p.1 acc)))
      | _, _ => .ok l
  let a := x.lead.rcd
  let b := x.other.rcd
  match x.lead.op with
  | .pmm =>
    let pa := shapeOf a
    let pb := shapeOf b
    if opSlots pb &&& resSlots pa ≠ 0 then .error (.trap false PARAM 0 0)
    else if pa.osrc = 1 && (s.retained coreA 3 || (pa.oidxPA coreA).any fun x => underFence s ctx 0 x 0) then .error .wait
    else
      let ownA := opRanges pa (opIndex s coreA pa)
      let ownB := opRanges pb (opIndex s coreB pb)
      match allOk (range true coreA userA .write) (if gang = id then shapeSpan pa else []),
          allOk (weightRange s true coreA ctx userA) (if pa.osrc = 3 then ownA else []),
          allOk (weightRange s false coreB ctx userB) (if pb.osrc = 3 then ownB else []),
          allOk (range true coreA userA .read) (if pa.osrc < 2 then ownA else []),
          allOk (range false coreB userB .read) (if pb.osrc < 2 then ownB else []) with
      | .ok dst, .ok wa, .ok wb, .ok oa, .ok ob =>
        .ok (held true 3 id false oa ++ held false 3 id false ob ++ held true 4 gang true dst, latchPages (dst ++ wa ++ wb))
      | .error e, _, _, _, _ => .error e
      | _, .error e, _, _, _ => .error e
      | _, _, .error e, _, _ => .error e
      | _, _, _, .error e, _ => .error e
      | _, _, _, _, .error e => .error e
  | op =>
    let d := descOf a
    let grad : Bool := op = .pdgr
    match allOk (range true coreA userA .write) [d.span grad],
        allOk (weightRange s false coreB ctx userB) [{ d with oaddr := (descOf b).oaddr, ostr := (descOf b).ostr }.treeRange],
        allOk (range true coreA userA .read) (if grad then [d.scores] else []),
        allOk (range true coreA userA .read) (if grad && d.rsrc then [] else [d.rows]) with
    | .ok dst, .ok w, .ok g, .ok r =>
      .ok (held true 5 id false (g ++ r) ++ held true 5 gang true dst, latchPages (dst ++ w ++ g))
    | .error e, _, _, _ => .error e
    | _, .error e, _, _ => .error e
    | _, _, .error e, _ => .error e
    | _, _, _, .error e => .error e

/-- Every half of the pairs leaves the table: the owner of a failure with its trap, every other one with PMISM, reason 2.
(DEDUCED, log entry 51.) -/
def failPairs (s : State) (ps : List Pair) (press : Nat) (lead : Bool) (cause : Nat) (addr : Word) (aux : Nat) : State :=
  ps.foldl (fun s x =>
    let one (s : State) (h : Half) (isLead : Bool) : State :=
      if x.press = press && isLead = lead then failHalf s x.press h cause addr (word aux) else mismatch s x.press h 2
    one (one s x.lead true) x.other false) s

/-- The address of a place as a saved record gives it (R462). -/
def resolvedAddr (s : State) (core ctx : Nat) (va : Word) : Nat :=
  match (translate s core ctx false false va .read).2 with
  | .ok x => if x.win then (spmVA s ctx x.pa).toNat else x.pa
  | _ => 0

/-- T4 table of the issuer's crew on its core. -/
def State.t4Of (s : State) (r : TRef) : BitVec 128 := (s.crewCore r.crew r.lcore).t4

/-- The entry of a pair that forms. -/
def pairEntry (s : State) (x : Pair) (gang : Nat) (pages : List (Nat × Nat × BitVec 64)) : PressEntry :=
  let ctx := s.ctxOf x.lead.issuer.crew
  let coreA := pressEnd x.press x.lead.far
  let coreB := pressEnd x.press x.other.far
  let oa (r : BitVec 320) : Word := match x.lead.op with | .pmm => (shapeOf r).oaddr | _ => (descOf r).oaddr
  let src (r : BitVec 320) : Bool := match x.lead.op with
    | .pmm => (shapeOf r).osrc = 2
    | .pdgr => !(descOf r).tree && (descOf r).rsrc
    | _ => false
  let dst : Word := match x.lead.op with
    | .pmm => (shapeOf x.lead.rcd).dest
    | .pdsc => (descOf x.lead.rcd).dest
    | _ => (descOf x.lead.rcd).gbase
  let e := x.lead.entry .queued
  { e with
    recB := x.other.rcd
    other := x.other.issuer
    gang := gang
    addrs := [if src x.lead.rcd then 0 else resolvedAddr s coreA ctx (oa x.lead.rcd),
      if src x.other.rcd then 0 else resolvedAddr s coreB ctx (oa x.other.rcd),
      if e.delivers then resolvedAddr s coreA ctx dst else 0, if e.delivers then resolvedAddr s coreA ctx e.tb else 0]
    t4a := s.t4Of x.lead.issuer
    t4b := s.t4Of x.other.issuer
    pages := pages
    userA := s.userOf x.lead.issuer
    userB := s.userOf x.other.issuer }

/-- The pair takes a queue entry; both threads hold the pact's rank and go on (R226, step 5). -/
def formPair (s : State) (x : Pair) (gang rank : Nat) (pages : List (Nat × Nat × BitVec 64)) : State :=
  let e := pairEntry s x gang pages
  let latch (p : Press) : Press :=
    if x.lead.op = .pmm && (shapeOf x.lead.rcd).af = 7 then { p with t4a := e.t4a, t4b := e.t4b } else p
  let s := s.modPress x.press fun p =>
    latch { p with halves := p.halves.filter (fun h => h.tag ≠ x.lead.tag), queue := p.queue ++ [e] }
  let go (s : State) (r : TRef) : State :=
    (s.modRef r fun t => { t with csr := { t.csr with lpr := word rank } }).release r
  go (go s x.lead.issuer) x.other.issuer

/-- The holds of every pair of a pact, or the first failure with its press. -/
def collectHolds (s : State) (gang : Nat) :
    List Pair → Except (Nat × FormStop) (List (Nat × OwnedHold) × List (Pair × List (Nat × Nat × BitVec 64)))
  | [] => .ok ([], [])
  | x :: r => match pairHolds s x x.lead.id gang with
    | .error e => .error (x.press, e)
    | .ok (h, pg) => match collectHolds s gang r with
      | .error e => .error e
      | .ok (hs, l) => .ok (h.map (fun y => (x.press, y)) ++ hs, (x, pg) :: l)

/-- Steps 2 to 5 of R226 for the pairs of a pact. -/
def formPairs (s : State) (ps : List Pair) (rank : Nat) : Option State :=
  let gang := match ps with | x :: _ => x.lead.id | [] => 0
  match collectHolds s gang ps with
  | .error (_, .wait) => none
  | .error (p, .trap lead c addr aux) => some (failPairs s ps p lead c addr aux)
  | .ok (hs, l) =>
    let mine := hs.map fun h => h.2.hold
    -- Holds that an earlier attempt has registered, while a queue was full.
    let s0 := ps.foldl (fun s x => s.dropHolds x.lead.id fun _ => true) s
    match register s0 mine with
    | .wait => none
    | .param => some (failPairs s0 ps (match ps with | x :: _ => x.press | [] => 0) true PARAM 0 0)
    | .rhld aux h =>
      match hs.find? fun y => y.2.hold = h with
      | some (p, y) => some (failPairs s0 ps p y.lead RHLD y.va aux)
      | none => none
    | .ok s1 =>
      if ps.any fun x => 4 ≤ (s.press x.press).queue.length then some s1
      else some (l.foldl (fun s x => formPair s x.1 gang rank x.2) s1)

/-- PACT_FORM: the second half of a pact has arrived, or the last one of a gang. -/
def pactForm (press : Nat) (tag : BitVec 8) (s : State) : Option State :=
  match bothHalves (s.press press) tag with
  | none => none
  | some (a, b) =>
    if a.op ≠ b.op || agreeOf a.op a.rcd ≠ agreeOf a.op b.rcd then some (mismatch (mismatch s press a 0) press b 0)
    else match pairOf press a b with
    | none => some (mismatch (mismatch s press a 1) press b 1)
    | some x =>
      let rank := pactRank a.op a.rcd (crewPress s a.issuer.crew press)
      if !a.inGang then formPairs s [x] rank
      else
        let all := gangHalves s a
        if all.length < 2 * ((shapeOf a.rcd).gr * (shapeOf a.rcd).gc) then none
        else match gangPairs s a with
          | none => some (all.foldl (fun s y => mismatch s y.1 y.2 3) s)
          | some ps => formPairs s ps rank

def execPactForm (press : Nat) (tag : BitVec 8) (s : State) : Out := event s (pactForm press tag s)

/-! ## What suspends a pact (R239, R243) -/

/-- A thread is not in a slot. -/
def State.away (s : State) (r : TRef) : Bool := match s.locate r with | some (.slot _ _) => false | _ => true

/-- The reader of an end of an entry. -/
def PressEntry.reader (s : State) (press : Nat) (e : PressEntry) (lead : Bool) : Reader :=
  ⟨e.core press lead, s.ctxOf e.lead.crew, if lead then e.userA else e.userB, e.pages, e.retrans⟩

/-- The operand of an end. -/
def PressEntry.operand (s : State) (press : Nat) (e : PressEntry) (lead : Bool) : Operand :=
  let p := shapeOf (if lead then e.recA else e.recB)
  ⟨e.reader s press lead, p, if lead then p.af else p.bf, opIndex s (e.core press lead) p, if lead then e.t4a else e.t4b⟩

/-- The descent record with the tree end's own fields. -/
def PressEntry.tree (e : PressEntry) : Desc :=
  { descOf e.recA with oaddr := (descOf e.recB).oaddr, ostr := (descOf e.recB).ostr }

/-- The ranges of memory that an entry uses at its lead's end, or at the other: a pact's operands, a gradient pact's adds, and the image of
a PLDS or PSTS. What a delivery writes waits by itself (R85). -/
def PressEntry.ranges (s : State) (press : Nat) (e : PressEntry) (lead : Bool) : List (Nat × Nat) :=
  match e.op with
  | .pmm => let o := e.operand s press lead; opRanges o.p o.idx
  | .pdsc => if lead then [(descOf e.recA).rows] else [e.tree.treeRange]
  | .pdgr =>
    let d := descOf e.recA
    if lead then (if d.rsrc then [] else [d.rows]) ++ [d.scores, d.span true] else []
  | .plds | .psts => if lead then [(e.opA.toNat, imageBytes e.f64)] else []
  | _ => []

/-- The lines that an entry uses at an end, as they translate for it: die, physical address and page entry. -/
def PressEntry.lines (s : State) (press : Nat) (e : PressEntry) (lead : Bool) : List (Nat × Nat × BitVec 64) :=
  let rd := e.reader s press lead
  ((e.ranges s press lead).flatMap fun r => granuleSpan r.1 r.2).filterMap fun g =>
    match rd.xlate s (word (64 * g)) .read with
    | .ok x => some (match kindOf x.pa with | .ws _ => dieOf rd.core | _ => 0, x.pa, x.pte)
    | _ => none

/-- A structure that an entry of a press uses is under a fence (R85): the cell array where it computes (code 4), a slot that it names
(code 5), or what holds a line that it uses. (DEDUCED, log entry 58.) -/
def pressFenced (s : State) (press : Nat) (e : PressEntry) : Bool :=
  !s.mgmt.fences.isEmpty &&
    ((s.mgmt.fences.contains (4 * 2 ^ 32 + press) && (e.op.isPact || e.op = .pscl)) ||
      ((span 0 4).any fun k => s.mgmt.fences.contains (5 * 2 ^ 32 + press * 4 + k) && e.names >>> k % 2 = 1) ||
      [true, false].any fun lead => (e.lines s press lead).any fun x => underFence s (s.ctxOf e.lead.crew) x.1 x.2.1 x.2.2)

/-- A debug halt of the context in a vat of an end (R98). -/
def pressHalted (s : State) (press ctx : Nat) : Bool :=
  (s.vat (vatOf (pressEnd press false))).halted.contains ctx || (s.vat (vatOf (pressEnd press true))).halted.contains ctx

/-- The crew's presses must suspend: it is pre-empted, sealed, swapped, relocated or parked, behind a halt or not. A halt itself
freezes only the presses with an end in a halted vat (R98). -/
def crewStopped (s : State) (n : Nat) : Bool :=
  match s.crew? n with
  | some c => (match c.state with | .run => false | .halted => c.back ≠ .run | _ => true)
  | none => true

/-- The causes of a suspension, beside operand faults, that hold now. -/
def pressCauses (s : State) (press : Nat) (e : PressEntry) : Bool :=
  s.away e.lead || s.away e.other || crewStopped s e.lead.crew || pressFenced s press e || pressHalted s press (s.ctxOf e.lead.crew)

/-- A cause at one press of a gang suspends every one. -/
def gangCauses (s : State) (e : PressEntry) : Bool := (gangEntries s e.gang).any fun x => pressCauses s x.1 x.2

/-- An operand fault somewhere in the gang. -/
def gangFault (s : State) (e : PressEntry) : Bool :=
  (gangEntries s e.gang).any fun x => x.2.causes.faultA || x.2.causes.faultB

/-! ## Entries begin (R234) -/

/-- Replace an entry of a queue. -/
def Press.setEntry (p : Press) (i : Nat) (e : PressEntry) : Press := { p with queue := setNth p.queue i e }

/-- An entry that has the cell array: it has begun, and has not reached DELIVER, in which a gradient pact may suspend as well. -/
def holdsArray (e : PressEntry) : Bool :=
  e.streams && (e.state = .stream || (e.state = .susp && !(e.op = .pdgr && 1 ≤ e.kdone)))

/-- A PRDL becomes the delivery of its pact, which is in DFAULT until it is done (R425, Table 10.7). -/
def redelivery (p : Press) (e : PressEntry) : PressEntry :=
  let old := (p.past.find? fun x => x.2.id = e.id).map (·.2)
  let op : PressOp := if e.pt = 0 then .pmm else if e.pt = 1 then .pdsc else .pdgr
  let x : PressEntry := match old with
    | some x => { x with gran := if op = .pdgr then x.gran else 0 }
    | none => { e with op := op, opA := 0, opB := 0, slot := 0, pt := 0 }
  { x with
    recA := e.recA, state := .deliver, gang := e.gang, pdlv := e.lead, pages := e.pages, retrans := e.retrans, userA := e.userA
    landed := false, doomed := none, redo := true }

/-- A structure that a command uses is fenced, or its context is halted in a vat of its ends: it waits (R85, R98). -/
def pressHeld (s : State) (press : Nat) (e : PressEntry) : Bool := pressFenced s press e || pressHalted s press (s.ctxOf e.lead.crew)

def pressEntryStart (press i : Nat) (s : State) : Option State :=
  let p := s.press press
  match p.queue[i]? with
  | none => none
  | some e =>
    let before := p.queue.take i
    let held := if e.op.isPact then pressCauses s press e else pressHeld s press e
    if e.state ≠ .queued || before.any (fun x => x.state = .queued) || before.any (fun x => x.names &&& e.names ≠ 0) || held then none
    else match e.op with
      | .pmm =>
        if before.any holdsArray then none
        else
          let sh := shapeOf e.recA
          let (q, fl) := slotStart p sh e.opA
          some (tracePress (s.modPress press fun _ => q.setEntry i { e with state := .stream, flags := e.flags ||| fl }) 3 e)
      | .pdsc | .pdgr =>
        if before.any holdsArray then none
        else some (tracePress (s.modPress press fun q => q.setEntry i { e with state := .stream }) 3 e)
      | .prdl =>
        let r := redelivery p e
        some (tracePress (s.modPress press fun q => { q.setEntry i r with past := q.past.filter fun x => x.2.id ≠ e.id }) 3 r)
      | _ => some (s.modPress press fun q => q.setEntry i { e with state := .stream })

def execPressEntryStart (press i : Nat) (s : State) : Out := event s (pressEntryStart press i s)

/-! ## Progress -/

/-- The units that a pact streams: K-steps; for a descent its row load and its levels; for PDGR its row load alone. -/
def PressEntry.total (e : PressEntry) : Nat :=
  match e.op with | .pmm => (shapeOf e.recA).k | .pdgr => 1 | _ => 1 + (descOf e.recA).depth

/-- Levels of a descent from kdone up to k: 0 stands before the row load (R278). -/
def descendTo (s : State) (press : Nat) (e : PressEntry) (k : Nat) (delays : List (Bool × Nat × Nat)) (q : Press) (fl : BitVec 5)
    (at_ : Nat) : Nat → Progress
  | 0 => .ok q fl
  | n + 1 =>
    if at_ ≥ k then .ok q fl
    else
      let d := descOf e.recA
      if at_ = 0 then
        match (if e.op = .pdgr && d.rsrc then some q else loadRows s (e.reader s press true) q d) with
        | none => .fail
        | some q' =>
          let q' := if e.op = .pdsc then { q' with pt := Vector.replicate 16 0 } else q'
          descendTo s press e k [] q' fl 1 n
      else match nextDelay s delays (levelLines s (e.reader s press false) q d e.tree (at_ - 1)) with
        | some l => .delay q fl at_ l
        | none => match descendLevel s (e.reader s press false) q d e.tree (at_ - 1) with
          | none => .fail
          | some (q', f) => descendTo s press e k [] q' (fl ||| f) (at_ + 1) n

/-- How far a streaming pact comes on its way to K-step (or level count) k. (DEDUCED, log entry 50.) -/
def advance (s : State) (press : Nat) (e : PressEntry) (k : Nat) : Progress :=
  let q := s.press press
  match e.op with
  | .pmm => accumulate s (e.operand s press true) (e.operand s press false) k e.delays q e.flags e.kdone (k - e.kdone)
  | _ => descendTo s press e k e.delays q e.flags e.kdone (k + 1)

/-- The walks of a pact's operands on its way, where its pages are translated again (R180, R195). -/
def pressWalks (s : State) (press : Nat) (e : PressEntry) : State :=
  let at_ (rd : Reader) (s : State) (r : Nat × Nat) : State :=
    foldSpan (fun s p => s.walked rd.ctx rd.pages rd.again (word (4096 * p))) s (r.1 / 4096) ((r.1 + r.2 - 1) / 4096 + 1 - r.1 / 4096)
  [true, false].foldl (fun s lead => (e.ranges s press lead).foldl (at_ (e.reader s press lead)) s) s

/-- A streaming pact goes on to K-step (or level count) k, where something happens to it. A read that a refresh window delays holds
it up on the way, and counts once in WSDLY of the reading end's core (R192, R282). None where an operand cannot be read, or the
delay lasts. -/
def onward (s : State) (press i : Nat) (e : PressEntry) (k : Nat) (next : State → PressEntry → Option State) : Option State :=
  match advance s press e k with
  | .fail => none
  | .ok q fl =>
    let e := { e with kdone := max e.kdone k, flags := fl, delays := [] }
    next ((pressWalks s press e).modPress press fun _ => q.setEntry i e) e
  | .delay q fl k' l =>
    let key := (l.1, l.2, s.devtime / 500)
    let old := if k' = e.kdone then e.delays else []
    if old.contains key then none
    else some ((s.modPress press fun _ => q.setEntry i { e with kdone := k', flags := fl, delays := old ++ [key] }).bump
      (0x100 * e.core press l.1 + 0x30) 1)

/-- The streaming entry of a press. -/
def streaming (p : Press) : Option (Nat × PressEntry) :=
  ((span 0 p.queue.length).zip p.queue).find? fun x => x.2.op.isPact && x.2.state = .stream

/-- A pact whose streaming is done delivers, without its operands' holds (Table 10.6; a gradient pact still reads its own, R277), or
is done. -/
def streamEnd (press i : Nat) (s : State) (e : PressEntry) : State :=
  if e.delivers then
    let s := s.modPress press fun q => q.setEntry i { e with state := .deliver }
    releaseKey (if e.op = .pdgr then s else s.dropHolds e.id fun h => !h.write) .press e.id
  else finishPact s press e

/-- PACT_STREAM_END: no cause of a suspension stands, and no PABT. -/
def pactStreamEnd (press : Nat) (s : State) : Option State :=
  match streaming (s.press press) with
  | none => none
  | some (i, e) =>
    if e.abort || gangCauses s e || gangFault s e then none
    else onward s press i e e.total fun s e => some (streamEnd press i s e)

def execPactStreamEnd (press : Nat) (s : State) : Out := event s (pactStreamEnd press s)

/-! ## Delivery -/

/-- The writes of a delivery, and the flags of its conversion. -/
def deliveryWrites (q : Press) (e : PressEntry) : List (Nat × List Byte) × BitVec 5 :=
  match e.op with
  | .pmm => let r := deliverTile q (shapeOf e.recA); (chopAll r.1, r.2)
  | _ => (chopAll [((descOf e.recA).dest.toNat, descBlock q (descOf e.recA))], 0)

/-- One write of an engine at a VA, in the core's context, with the walk that it makes: none where it fails or must wait. -/
def engineStore (s : State) (rd : Reader) (va : Nat) (bs : List Byte) : Option State :=
  match rd.xlate s (word va) .write with
  | .ok x =>
    if s.poisoned 0 x.pa bs.length || fenced s rd.ctx 0 x.pa x.pte then none
    else
      let s := s.walked rd.ctx rd.pages rd.again (word va)
      let s := if isCached x.pa then s.touchL2 (home s rd.ctx x.pa x.pte) x.pa true (evictFirst x.pte) else s
      storeLine s rd.ctx 0 x.pa x.pte bs
  | _ => none

/-- Writes in order. -/
def engineStores (s : State) (rd : Reader) : List (Nat × List Byte) → Option State
  | [] => some s
  | w :: r => (engineStore s rd w.1 w.2).bind fun s => engineStores s rd r

/-- Count n sectors at a barrier. -/
def countN (s : State) (core ctx : Nat) (va : Word) (src : BarSrc) : Nat → BarRes
  | 0 => .ok s
  | n + 1 => match countAt s core ctx va src with
    | .ok s => countN s core ctx va src n
    | r => r

/-- The other members of a gang that have not landed, and the granules that they have still to write. -/
def gangOthers (s : State) (press : Nat) (e : PressEntry) : List PressEntry :=
  ((gangEntries s e.gang).filter fun x => x.1 ≠ press && !x.2.landed).map (·.2)
def othersGranules (s : State) (press : Nat) (e : PressEntry) : List Nat := (gangOthers s press e).flatMap PressEntry.granules

/-- The FP32 add at the home slice (R202, R276): the state, with the flags of its rounding. It reads the line, and so waits while a held
write covers it (R91). -/
def addAtHome (s : State) (rd : Reader) (va v : Nat) : Option (State × BitVec 5) :=
  match rd.xlate s (word va) .write with
  | .ok x =>
    if s.poisoned 0 x.pa 4 || s.lineHeld rd.ctx x.pa then none
    else
      let r := addF (fmtOf 1) 0 (s.read 0 x.pa 4) v
      (engineStore s rd va (bytesOf r.1 4)).map fun s => (s, r.2)
  | _ => none

/-- Adds in order: the state, the entry with its count and flags, and whether all were performed. -/
def performAdds (s : State) (rd : Reader) (e : PressEntry) : List (Nat × Res) → State × PressEntry × Bool
  | [] => (s, e, true)
  | w :: r =>
    match addAtHome s rd w.1 w.2.1 with
    | none => (s, e, false)
    | some (s, fl) => performAdds s rd { e with gran := e.gran + 1, flags := e.flags ||| w.2.2 ||| fl } r

/-- Levels below l whose adds have all been performed: their gradients are read no more. -/
def addedLevels (q : Press) (d : Desc) (gran : Nat) : Nat → Nat
  | 0 => 0
  | l + 1 => if addsBelow q d (l + 1) ≤ gran then l + 1 else addedLevels q d gran l

/-- Every add of a gradient pact's levels from k up to l, in order. -/
def allAdds (s : State) (rd : Reader) (q : Press) (d : Desc) (k l : Nat) : Option (List (Nat × Res)) :=
  (allSome ((span k (l - k)).map fun j => gradAdds s rd q d j)).map fun x => x.flatten

/-- A gradient pact's adds from the first one not performed, up to the end of a number of levels, or at most `most` of them: the gradients
of the levels that are not finished are read. (DEDUCED, log entry 54.) -/
def gradTo (s : State) (press : Nat) (e : PressEntry) (l : Nat) (most : Option Nat := none) : Option (State × PressEntry × Bool) :=
  let rd := e.reader s press true
  let d := descOf e.recA
  let q := s.press press
  let k := addedLevels q d e.gran l
  (allAdds s rd q d k l).map fun a =>
    let s := (span k (l - k)).foldl (fun s j => countGrads s rd (pressEnd press false) d j) s
    let a := a.drop (e.gran - addsBelow q d k)
    performAdds s rd e (match most with | some n => a.take n | none => a)

/-- The VA of a gradient pact's first add that has not been performed; its gradients need not be read. -/
def nextAdd (q : Press) (e : PressEntry) : Option Nat :=
  let d := descOf e.recA
  let l := addedLevels q d e.gran d.depth
  let n := e.gran - addsBelow q d l
  ((nodesAt q d l)[n / (d.dlen + 1)]?).map fun x => ((d.gbase + word (x * d.gstr)) + word (4 * (n % (d.dlen + 1)))).toNat

/-- A sub-tile, or a block, has landed and counted its own granules: the pact is done, or waits for the rest of its gang (R217). -/
def landTile (press i : Nat) (s : State) (e : PressEntry) : State :=
  if (gangOthers s press e).isEmpty then endGang (finishPact s press e) e.gang
  else s.modPress press fun p => p.setEntry i { e with landed := true }

/-- PACT_DELIVERY_DONE of entry i. A halt freezes it, and a gradient pact that must suspend does not end; any other pact in DELIVER
finishes, also for a crew that is parked (R98, R244, R278). -/
def pactDeliveryDone (press i : Nat) (s : State) : Option State :=
  let q := s.press press
  match q.queue[i]? with
  | none => none
  | some e =>
    if !e.op.isPact || e.state ≠ .deliver || e.landed || e.doomed.isSome || pressHalted s press (s.ctxOf e.lead.crew) then none
    else
      let rd := e.reader s press true
      match e.op with
      | .pdgr =>
        if gangCauses s e || gangFault s e then none
        else match gradTo s press e (descOf e.recA).depth with
        | some (s1, e1, true) =>
          (countAt (s1.dropHolds e.gang fun _ => true) rd.core rd.ctx e.tb (.press e.id)).orHold s (.press e.id) fun s =>
            finishPact s press { e1 with kdone := 1 + (descOf e.recA).depth }
        | _ => none
      | _ =>
        let (ws, fl) := deliveryWrites q e
        let others := othersGranules s press e
        let n := (e.granules.filter fun g => !others.contains g).length
        (engineStores s rd ws).bind fun s1 =>
          let s1 := if (gangOthers s press e).isEmpty then s1.dropHolds e.gang fun h => h.write else s1
          (countN s1 rd.core rd.ctx e.tb (.press e.id) n).orHold s (.press e.id) fun s =>
            landTile press i s { e with gran := e.gran + n, flags := e.flags ||| fl }

def execPactDeliveryDone (press i : Nat) (s : State) : Out := event s (pactDeliveryDone press i s)

/-- A write at an address fails: its translation, an uncorrectable error, or an error of the host link. -/
def storeFails (s : State) (rd : Reader) (va : Nat) : Bool :=
  match rd.xlate s (word va) .write with
  | .flt _ _ => true
  | .wait => false
  | .ok x => s.poisoned 0 x.pa 1 || (match kindOf x.pa with | .host => true | _ => false)

/-- Granules of the pact, or of its gang, that are not counted. A PRDL counts every one of its own. -/
def uncounted (s : State) (e : PressEntry) : Nat :=
  if e.redo then e.granules.length - e.gran else deliverySectors e.op e.recA - gangCounted s e.gang

/-- DELIVERY_FAULT of entry i: `landed` granules land first, or adds are performed, then the granule (or the next add) at an address
fails. A member of a gang that has
met one enters DFAULT as its turn comes. -/
def deliveryFault (press i landed : Nat) (addr : Word) (s : State) : Option State :=
  let q := s.press press
  match q.queue[i]? with
  | none => none
  | some e =>
    if !e.op.isPact || e.state ≠ .deliver || e.landed || pressHalted s press (s.ctxOf e.lead.crew) then none
    else match e.doomed with
    | some a => some (enterDfault s press e true a)
    | none =>
      let rd := e.reader s press true
      match e.op with
      | .pdgr =>
        match gradTo s press e (addedLevels q (descOf e.recA) (e.gran + landed) (descOf e.recA).depth + 1) (some landed) with
        | some (s1, e1, true) =>
          if e1.gran ≠ e.gran + landed || nextAdd q e1 ≠ some addr.toNat || !storeFails s1 rd addr.toNat then none
          else
            let s1 := (enterDfault s1 press e1 false addr).dropHolds e1.gang fun _ => true
            (errorAt s1 rd.core rd.ctx e1.tb 1 (.press e.id)).orHold s (.press e.id) id
        | _ => none
      | _ =>
        let (ws, fl) := deliveryWrites q e
        let gs := granulesOf ws
        if gs[landed]? ≠ some (addr.toNat / 64) || !storeFails s rd addr.toNat then none
        else
          let first := gs.take landed
          let others := othersGranules s press e
          let n := (first.filter fun g => !others.contains g).length
          (engineStores s rd (ws.filter fun w => first.contains (w.1 / 64))).bind fun s1 =>
            let e := { e with gran := e.gran + n, flags := e.flags ||| fl }
            match countN s1 rd.core rd.ctx e.tb (.press e.id) n with
            | .ok s1 =>
              let s1 := s1.modPress press fun p => p.setEntry i e
              let left := uncounted s1 e
              let s1 := failGang (enterDfault s1 press e false addr) e.gang addr
              (errorAt s1 rd.core rd.ctx e.tb left (.press e.id)).orHold s (.press e.id) id
            | r => r.orHold s (.press e.id) id

def execDeliveryFault (press i landed : Nat) (addr : BitVec 64) (s : State) : Out := event s (deliveryFault press i landed addr s)

/-! ## Suspension, resumption and operand faults (R239 to R241, R278, R279) -/

/-- A K-step, or a count of levels, at which a pact may stop. -/
def stopPoint (e : PressEntry) (k : Nat) : Bool :=
  e.kdone ≤ k &&
  match e.op with
  | .pmm => let p := shapeOf e.recA; k < p.k && (k = e.kdone || k % opGroup p.af = 0)
  | .pdgr => k ≤ (descOf e.recA).depth && (e.state = .deliver || k ≤ 1)
  | _ => k ≤ (descOf e.recA).depth

/-- Entries of a queue, with their places, that satisfy p. -/
def Press.entries (q : Press) (p : PressEntry → Bool) : List (Nat × PressEntry) :=
  ((span 0 q.queue.length).zip q.queue).filter fun x => x.2.op.isPact && p x.2

/-- The entry that streams, and gradient pacts that add. -/
def active (p : Press) : List (Nat × PressEntry) :=
  p.entries fun e => e.state = .stream || (e.op = .pdgr && e.state = .deliver)

/-- An active pact goes on to a stopping point, where something happens to it. -/
def activeTo (s : State) (press i : Nat) (e : PressEntry) (k : Nat) (next : State → PressEntry → Option State) : Option State :=
  if !stopPoint e k then none
  else if e.state = .deliver then
    match gradTo s press e (k - 1) with
    | some (s, e, true) => next (s.modPress press fun p => p.setEntry i { e with kdone := k }) { e with kdone := k }
    | _ => none
  else onward s press i e k next

/-- An active pact stops: for PABT it is cancelled, else it is suspended for the causes that hold. -/
def suspendNow (press i : Nat) (s : State) (e : PressEntry) : Option State :=
  if e.abort then (cancelPact s press e).orHold s (.press e.id) id
  else
    let c := { e.causes with
      preempt := s.away e.lead || s.away e.other
      gang := crewStopped s e.lead.crew || pressFenced s press e || pressHalted s press (s.ctxOf e.lead.crew) }
    some (s.modPress press fun p => p.setEntry i { e with state := .susp, causes := c })

/-- PACT_SUSPEND at an offset: for a cause that holds, or for PABT. -/
def pactSuspend (press koff : Nat) (s : State) : Option State :=
  (active (s.press press)).findSome? fun (i, e) =>
    if e.abort || gangCauses s e || gangFault s e then activeTo s press i e koff (suspendNow press i) else none

def execPactSuspend (press koff : Nat) (s : State) : Out := event s (pactSuspend press koff s)

/-- The suspended pacts of a press. -/
def suspendedEntries (p : Press) : List (Nat × PressEntry) := p.entries fun e => e.state = .susp

/-- The first refetch after a re-issue succeeds: the next group, or level, can be read. -/
def refetchOk (s : State) (press : Nat) (e : PressEntry) : Bool :=
  let go (k : Nat) : Bool := match advance s press e k with | .fail => false | _ => true
  match e.op with
  | .pmm => go (groupEnd (shapeOf e.recA) e.kdone)
  | .pdgr =>
    if e.kdone = 0 then go 1
    else e.kdone > (descOf e.recA).depth ||
      (gradAdds s (e.reader s press true) (s.press press) (descOf e.recA) (e.kdone - 1)).isSome
  | _ => e.kdone ≥ e.total || go (e.kdone + 1)

/-- A suspended pact goes on; a thread parked on its re-issue does as well. -/
def resumeNow (press i : Nat) (s : State) (e : PressEntry) : State :=
  let e := { e with
    state := if e.op = .pdgr && 1 ≤ e.kdone then .deliver else .stream
    causes := ⟨false, false, false, false⟩ }
  releaseKey (s.modPress press fun p => p.setEntry i e) .pact e.id

/-- The thread at an end that is parked on its re-issue of a pact (R241). -/
def reissuer (s : State) (press : Nat) (e : PressEntry) (own : Bool) : Option TRef :=
  (s.threads.find? fun x => x.2.occ && x.1 / 8 = e.core press (!own) && x.2.ref.crew = e.lead.crew &&
    (match x.2.park with | some p => p.why = .pact && p.key = e.id && p.next.isSome | none => false)).map (·.2.ref)

/-- A thread is parked on a re-issue of the pact. -/
def reissued (s : State) (press : Nat) (e : PressEntry) : Bool := (reissuer s press e false).isSome || (reissuer s press e true).isSome

/-- PACT_RESUME: no cause is left anywhere in the gang. A re-issue resumes it once its first refetch succeeds; any other pact goes on to
meet its fetches as it streams (R241, R279). -/
def pactResume (press : Nat) (s : State) : Option State :=
  (suspendedEntries (s.press press)).findSome? fun (i, e) =>
    if gangCauses s e || gangFault s e || (reissued s press e && !refetchOk s press e) then none else some (resumeNow press i s e)

def execPactResume (press : Nat) (s : State) : Out := event s (pactResume press s)

/-- A read at an address of an end fails: its translation, the region's state, or an uncorrectable error outside a
checkpointed context, which is rolled back instead (R87). (DEDUCED, log entry 55.) -/
def readFails (s : State) (rd : Reader) (weight : Bool) (va : Nat) : Bool :=
  let bad (die pa : Nat) : Bool := s.poisoned die pa 1 && !s.ckpts rd.ctx
  if weight then
    match rd.xlate s (word va) .read with
    | .flt _ _ => true
    | .wait => false
    | .ok x => match kindOf x.pa with
      | .ws o => (wsReadCheck s rd.ctx (dieOf rd.core) o x.lvl).isSome || bad (dieOf rd.core) x.pa
      | _ => true
  else if va >>> 32 = 0xFFFFFFFF && 0x80000000 ≤ va % 2 ^ 32 && va % 2 ^ 32 < 0x80040000 then bad 0 (spmPA rd.core (va % 262144))
  else match rd.xlate s (word va) .read with
    | .flt _ _ => true
    | .wait => false
    | .ok x => bad 0 x.pa

/-- The scale entry of element (i, j) of an end's operand must be read: the element is not masked (R254). An A element that cannot be read
is not known to be. -/
def scaleRead (s : State) (press : Nat) (e : PressEntry) (own : Bool) (i j : Nat) : Bool :=
  let p := shapeOf e.recA
  let a := e.operand s press true
  let zero (i : Nat) : Bool := match opCode s a i j with | some c => (pressDecode a.fmt c 0 a.t4).zero | none => false
  !p.zsk || (if own then (span 0 p.m).any fun i => !zero i else !zero i)

/-- An address lies among those that a pact's end reads from a stopping point on. -/
def readsAt (s : State) (press : Nat) (e : PressEntry) (k : Nat) (own scale : Bool) (va : Nat) : Bool :=
  match e.op with
  | .pmm =>
    let o := e.operand s press (!own)
    let cnt := if own then o.p.n else o.p.m
    let k' := groupEnd (shapeOf e.recA) k
    o.p.osrc ≠ 2 && ((span 0 cnt).any fun i => (span k (k' - k)).any fun j =>
      let a := if scale then scaleVA o.p i j else (elemVA o.p o.idx o.fmt i j).1
      let n := if scale then 2 else max 1 (opBits o.fmt / 8)
      a ≤ va && va < a + n && (!scale || scaleRead s press e own i j)) && (!scale || opScaled o.fmt)
  | _ =>
    let d := descOf e.recA
    let inRange (r : Nat × Nat) : Bool := r.1 ≤ va && va < r.1 + r.2
    let rowRead : Bool := !(e.op = .pdgr && d.rsrc) && (span 0 d.batch).any fun r => inRange (d.oaddr.toNat + r * d.ostr, d.dlen * d.e)
    !scale && (if own then
      e.op = .pdsc && 1 ≤ k && (nodesAt (s.press press) d (k - 1)).any fun n =>
        inRange (e.tree.oaddr.toNat + n * e.tree.ostr, d.dlen * d.e + (if d.bias then 4 else 0))
    else if k = 0 then rowRead else e.op = .pdgr && inRange (d.garr.toNat + 256 * (k - 1), 4 * d.batch))

/-- PFLT's TAUX (R240, R279). -/
def pfltAux (press : Nat) (e : PressEntry) (k : Nat) (own scale : Bool) : Word :=
  let far := if own then !e.leadFar else e.leadFar
  let off := match e.op with | .pmm => k | _ => k - 1
  word (tagAux press far e.tag + b2n own * 1024 + b2n scale * 2048 + off % 2 ^ 20 * 4096)

/-- The operand of an end lies in the weight store. -/
def PressEntry.weight (e : PressEntry) (own : Bool) : Bool :=
  match e.op with | .pmm => (shapeOf (if own then e.recB else e.recA)).osrc = 3 | _ => own

/-- A fetch at an address fails for an end: the pact is suspended, and the state is what the owner is told of. -/
def failFetch (s : State) (press i koff : Nat) (own scale : Bool) (addr : Word) (e : PressEntry) : Option State :=
  if !readsAt s press e koff own scale addr.toNat || !readFails s (e.reader s press (!own)) (e.weight own) addr.toNat then none
  else
    let c := if own then { e.causes with faultB := true } else { e.causes with faultA := true }
    some (s.modPress press fun p => p.setEntry i { e with state := .susp, causes := c })

/-- OPERAND_FAULT: at a stopping point the read of an address fails; the owner of the operand is told, at the instruction of its
re-issue where it is parked on one. `own` names the B end. -/
def operandFault (press koff : Nat) (own scale : Bool) (addr : Word) (s : State) : Option State :=
  match (active (s.press press)).findSome? fun (i, e) =>
      if e.abort then none
      else activeTo s press i e koff fun s e => (failFetch s press i koff own scale addr e).map fun s =>
        s.modRef (if own then e.other else e.lead) fun t => t.postTrap PFLT addr (pfltAux press e koff own scale) with
  | some s => some s
  | none => (suspendedEntries (s.press press)).findSome? fun (i, e) =>
    match reissuer s press e own with
    | none => none
    | some r =>
      if koff ≠ e.kdone || gangFault s e then none
      else (failFetch s press i koff own scale addr e).map fun s => trapRef s r PFLT addr (pfltAux press e koff own scale)

def execOperandFault (press koff : Nat) (own scale : Bool) (addr : BitVec 64) (s : State) : Out :=
  event s (operandFault press koff own scale addr s)

/-! ## Single-end commands end (R423 to R426) -/

/-- A PRDT's value reaches the register that has awaited it. -/
def Thread.fillAwaited (t : Thread) (d : Nat) (v : Word) : Thread :=
  let hit (p : Pending) : Bool := p.awaits && p.writes.any fun w => match w with
    | .g r _ => r.toNat = d
    | .y r _ => r.toNat + 10 = d
    | _ => false
  let fill (p : Pending) : Pending :=
    { p with awaits := false, writes := p.writes.map fun w => match w with
      | .g r _ => .g r v
      | .y r _ => .y r v
      | x => x }
  let rec go : List Pending → List Pending
    | [] => []
    | p :: r => if hit p then fill p :: r else p :: go r
  { t with pend := go t.pend }

/-- The issuer of a PRDT receives its value: in a register that then awaits its landing, or as a push. -/
def giveAwaited (s : State) (r : TRef) (d : Nat) (v : Word) : Option State :=
  if d < 24 then some (s.modRef r fun t => t.fillAwaited d v)
  else match s.locate r with
    | some (.slot c k) =>
      let s1 := { s with curCore := c, curSlot := k }
      if (pushWait s1 d).isSome then none
      else some { pushG s1 d v with curCore := s.curCore, curSlot := s.curSlot }
    | _ => none

/-- SLOT_COMMAND_DONE of entry i. -/
def slotCommandDone (press i : Nat) (s : State) : Option State :=
  let q := s.press press
  match q.queue[i]? with
  | none => none
  | some e =>
    let stop (s : State) : State :=
      releaseKey ((s.modPress press fun p => { p with queue := p.queue.filter fun x => !(x.id = e.id && !x.op.isPact) }).dropHolds
        e.id fun _ => true) .press e.id
    let core := e.core press true
    let words := imageBytes e.f64 / 4
    let pa := spmPA core (e.opA.toNat % 262144)
    let image : Bool := e.op = .plds || e.op = .psts
    if e.op.isPact || e.state ≠ .stream || pressHeld s press e || (image && s.retained core 3) then none
    else match e.op with
      | .pclr => some (stop (s.modPress press fun p => foldSpan (fun p w => setSlotWord p e.slot w 0) p 0 words))
      | .pscl =>
        let (q', fl) := scaleSlot q e.slot e.f64 e.opA
        some (stop ((s.modPress press fun _ => q').modRef e.lead fun t => t.raise fl))
      | .plds =>
        if s.poisoned 0 pa (4 * words) then
          (if s.ckpts (s.ctxOf e.lead.crew) then none
          else
            let s1 := trapRef s e.lead UNCORR e.opA 0
            some (stop s1))
        else some (stop (s.modPress press fun p => foldSpan (fun p w => setSlotWord p e.slot w (s.read 0 (pa + 4 * w) 4)) p 0 words))
      | .psts => some (stop (foldSpan (fun s w => s.write (pa + 4 * w) 4 (slotWord q e.slot w)) s 0 words))
      | .prdt => (giveAwaited s e.lead e.opB.toNat (vget q.pt e.pt 0)).map stop
      | .pwrt => some (stop (s.modPress press fun p => { p with pt := p.pt.setIfInBounds e.pt e.opA }))
      | _ => none

def execSlotCommandDone (press i : Nat) (s : State) : Out := event s (slotCommandDone press i s)

/-! ## The pact timeout (R237) -/

/-- The first pact on which a parked thread waits: its half, or a suspended pact that it joined first. -/
def waitedPact (s : State) (t : Thread) : Option Joined :=
  match t.park with
  | none => none
  | some p =>
    match p.why with
    | .pact => t.joined.find? fun j => j.pact = p.key && (s.press j.press).halves.any fun h => h.id = j.pact
    | .press => t.joined.find? fun j => keyTag j.press j.tag = p.key && pactSusp s j.pact
    | .exit => t.joined.find? fun j => pactSusp s j.pact
    | _ => none

/-- A half whose partner, and every other half of its gang, has arrived waits for no one (R226, step 4). (DEDUCED, log entry 57.) -/
def halfMatched (s : State) (j : Joined) : Bool :=
  match (s.press j.press).halves.find? fun h => h.id = j.pact && h.far = j.far, bothHalves (s.press j.press) j.tag with
  | some h, some _ => !h.inGang || 2 * ((shapeOf h.rcd).gr * (shapeOf h.rcd).gc) ≤ (gangHalves s h).length
  | _, _ => false

/-- PACT_TIMEOUT: the timer of a waiting thread has reached PACTMO. -/
def pactTimeout (core slot : Nat) (s : State) : Option State :=
  let t := s.thread core slot
  let tmo := fld (t.tmoNow s.devtime).2 0 20
  match waitedPact s t with
  | none => none
  | some j =>
    if tmo = 0 || t.timer < tmo * 1000 then none
    else
      let aux := tagAux j.press j.far j.tag
      match (s.press j.press).halves.find? fun h => h.id = j.pact && h.far = j.far with
      | some h =>
        if halfMatched s j then none
        else (cancelHalf s j.press h PTIMEO (word aux)).orHold s (.press h.id) id
      | none =>
        match (s.press j.press).queue.find? fun e => e.id = j.pact && e.op.isPact && e.state = .susp with
        | none => none
        | some e =>
          (cancelPact s j.press e).orHold s (.press e.id) fun s =>
            let t := s.thread core slot
            match t.park with
            | some p =>
              if p.why = .exit then exitTrap s core slot PTIMEO 0 (word (aux + 1024))
              else takeTrap s core slot PTIMEO 0 (word (aux + 1024)) p.addr false false
            | none => s

def execPactTimeout (core slot : Nat) (s : State) : Out := event s (pactTimeout core slot s)

end Sys2Proof.Machine
end

