-- ==== Sys2Proof/Machine/CopyRun.lean ====
section
/-! DEFINITION. What copy engines, scale-out ports and other packages do: sectors and elements that land, failures, routes,
incoming remote writes and acknowledgements (R18 to R24, R193 to R196, R207, R219, R220, R430 to R436). -/

namespace Sys2Proof.Machine

/-! ## Routes (R21 to R24) -/

/-- Where a transfer of a command goes: it stays inside, has no route, waits for a port, or goes out on one. -/
inductive Path where
  | own
  | none
  | wait
  | out (port : Nat)
deriving DecidableEq, Repr

/-- A port is enabled and up; none is enabled before PKGID.LOCK is set (R21, R23). -/
def State.portLive (s : State) (p : Nat) : Bool := bit s.hub.pkgid 31 && bit s.hub.portsUp p

/-- The alternates of a command whose port has failed (R24): the entry's next ports in ascending number and around, at most 3, and the
failed port itself, should it come up again (DEDUCED, log entry 100). -/
def CopyRoute.alternates (r : CopyRoute) (failed : Nat) : List Nat :=
  (((span 1 15).map fun i => (failed + i) % 16).filter fun p => r.pmask.testBit p).take 3 ++ [failed]

/-- The path of a command (R23, R24): the port that carries it; before one does, the one that the hash picks among the candidates; after
its port has failed, the first alternate that is up. -/
def CopyCmd.path (s : State) (c : CopyCmd) : Path :=
  let pkg := (copyRec c.rcd).pkg
  if c.route.own then .own
  else if c.route.pmask = 0 then .none
  else
    let mine := match c.route.port with | some p => s.portLive p | none => false
    if mine then .out (c.route.port.getD 0)
    else if let some f := c.route.failed then
      match (c.route.alternates f).find? s.portLive with | some p => .out p | none => .wait
    else
      let cand := (span 0 16).filter fun p => c.route.pmask.testBit p && s.portLive p
      if cand.isEmpty then .wait
      else .out (cand.getD (Config.portHash (fld s.hub.pkgid 0 20) pkg c.id % cand.length) 0)

/-- The port of the path carries every sector of the command. -/
def CopyCmd.onPort (s : State) (c : CopyCmd) : CopyCmd :=
  match c.path s with | .out p => { c with route := { c.route with port := some p } } | _ => c

/-- The command's port fails (R24): the first of its alternates that is up takes its transfers; otherwise it has no path from now on. -/
def CopyCmd.reroute (s : State) (port : Nat) (c : CopyCmd) : CopyCmd :=
  if c.route.port ≠ some port then c
  else
    let next := (c.route.alternates port).find? s.portLive
    { c with route := { c.route with port := next, failed := some port, since := if next.isSome then c.route.since else s.devtime } }

/-- Change every copy command, in its vat or saved with its crew. -/
def State.mapCopies (s : State) (f : CopyCmd → CopyCmd) : State :=
  { s with
    vats := s.vats.map fun e => (e.1, { e.2 with copies := e.2.copies.map f })
    crews := s.crews.map fun e => (e.1, { e.2 with saved := e.2.saved.map fun v => { v with copies := v.copies.map f } }) }

/-- A port is down (R20, Table 4.2): the transfers on it go on over others of the entry. -/
def portDown (s : State) (port : Nat) : State :=
  let s := (s.modHub fun h => { h with portsUp := setFld h.portsUp port 1 0 }).blackbox 0x0D port 0
  s.mapCopies (CopyCmd.reroute s port)

/-- A port trains (R20). -/
def portUp (s : State) (port : Nat) : State :=
  (s.modHub fun h => { h with portsUp := setFld h.portsUp port 1 1 }).blackbox 0x0D port 1

/-- A port is under test, or has failed one (R85, R86): it does not come up. -/
def State.portOut (s : State) (port : Nat) : Bool :=
  s.mgmt.fences.contains (8 * 2 ^ 32 + port) || s.mgmt.retired.any fun e => e.1 = 5 && e.2.1 = port

/-- SCALE_OUT_PORT_UP and SCALE_OUT_PORT_FAIL. -/
def scaleOutPortUp (port : Nat) (s : State) : Option State :=
  if port < 16 && bit s.hub.pkgid 31 && !bit s.hub.portsUp port && !s.portOut port then some (portUp s port) else none

def scaleOutPortFail (port : Nat) (s : State) : Option State :=
  if port < 16 && bit s.hub.portsUp port then some (portDown s port) else none

def execScaleOutPortUp (port : Nat) (s : State) : Out := event s (scaleOutPortUp port s)
def execScaleOutPortFail (port : Nat) (s : State) : Out := event s (scaleOutPortFail port s)

/-! ## Reads and writes of an engine -/

/-- What the engine meets at a unit: it goes on, a failure (R434), a failure of the remote side, a wait, a refresh of the weight store
that it counts and waits for (R192), a conflicting hold at the destination (R207), or a write that output commit holds back until the
interval seals (R91), with its physical address where there is one and its bytes. -/
inductive Landing where
  | ok (s : State) (bytes : List Byte)
  | flt (cause : Nat) (va : Word) (aux : Nat)
  | rmt (va : Word)
  | wait
  | delay (s : State)
  | conflict
  | held (pa : Option Nat) (bytes : List Byte)

/-- The engine and the command whose unit it moves. -/
structure Eng where
  vat : Nat
  cmd : CopyCmd
  core : Nat
  ctx : Nat

def Eng.die (g : Eng) : Nat := dieOf (coreOfVat g.vat 0)
def Eng.rcd (g : Eng) : CopyRec := copyRec g.cmd.rcd

/-- The engine of a command in progress. -/
def engOf (s : State) (vat : Nat) (c : CopyCmd) : Option Eng :=
  (s.crew? c.issuer.crew).map fun x => ⟨vat, c, x.phys c.issuer.lcore, x.ctx⟩

/-- Outputs of a router for a multicast packet (R458): toward the receivers beyond it, and its own core. -/
def forks (home : Nat) (l : List Nat) (core : Nat) : Nat :=
  let hr := rowOf home
  let hc := colOf home
  let r := rowOf core
  let c := colOf core
  let any (p : Nat → Nat → Bool) : Nat := b2n (l.any fun x => p (rowOf x) (colOf x))
  if r = hr then
    (if hc ≤ c then any fun _ k => c < k else 0) + (if c ≤ hc then any fun _ k => k < c else 0) +
      any (fun a k => k = c && r < a) + any (fun a k => k = c && a < r) + any fun a k => a = r && k = c
  else
    any (fun a k => k = c && (if hr < r then r < a else a < r)) + any fun a k => a = r && k = c

/-- RTREP of every router on the tree of a multicast. -/
def countForks (s : State) (home : Nat) (l : List Nat) : State :=
  let cores := ((span 0 64).map fun c => coreAt (rowOf home) c) ++
    ((l.map colOf).eraseDups.flatMap fun c => ((span 0 64).filter fun r => r ≠ rowOf home).map fun r => coreAt r c)
  cores.foldl (fun s x => let k := forks home l x; if k ≤ 1 then s else s.bump (0x100 * x + 0x20) (k - 1)) s

/-- A multicast read of a line is outstanding at its slice (R195). -/
def State.castRead (s : State) (slice pa : Nat) : State :=
  { s with mcReads := ⟨slice, pa / 64, s.devtime, s.lineBytes (pa / 64)⟩ :: s.mcReads.filter fun e => e.at_ = s.devtime }

/-- Count a source line that is read: at its home slice, as an engine's read, or once for a multicast (R195, R458, R459). -/
def countLine (s : State) (g : Eng) (x : Xl) (cast : Option (List Nat)) : State :=
  let at_ := match kindOf x.pa with
    | .dram | .host => home s g.ctx x.pa x.pte
    | .spm c _ => c
    | _ => g.core
  match cast with
  | none => if isCached x.pa then s.engineRead g.die at_ x.pa (evictFirst x.pte) else s
  | some l =>
    let s := if isCached x.pa then
        (((s.bump (0x100 * at_ + 0x10) 1).merge at_ x.pa).touchL2 at_ x.pa false (evictFirst x.pte)).castRead at_ x.pa
      else s
    countForks s at_ l

/-- An engine's read of the weight store meets a refresh: the first try counts it, and the read waits (R192). -/
def State.engDelay (s : State) (core id pa n : Nat) : Option Landing :=
  (s.wsDelay core (engReader id) pa n).map fun d => if d.wsWaits = s.wsWaits then .wait else .delay d

/-- Read n bytes at an address inside one line; `count` says that the line has not been read before. -/
def engRead (s : State) (g : Eng) (va n : Nat) (count : Bool) (cast : Option (List Nat)) : Landing :=
  match engineXlate s g.core g.ctx g.cmd.user g.cmd.pages g.cmd.retrans (word va) .read with
  | .flt c a => .flt c (word va) a
  | .wait => .wait
  | .ok x =>
    match copyCheck s g.ctx g.die x.pa x.lvl false with
    | some (c, a) => .flt c (word va) a
    | none =>
      let s := s.walked g.ctx g.cmd.pages g.cmd.retrans (word va)
      if fenced s g.ctx g.die x.pa x.pte then .wait
      else if s.poisoned g.die x.pa n then (if s.ckpts g.ctx then .wait else .flt UNCORR (word va) 0)
      else match s.engDelay g.core g.cmd.id x.pa n with
      | some d => d
      | none =>
        let bs := bytesOf (s.read g.die x.pa n) n
        .ok (if count then countLine s g x cast else s) bs

/-- Read a part of the source that starts at `src`: at most two lines. -/
def engReadSpan (s : State) (g : Eng) (src va n : Nat) (cast : Option (List Nat)) : Landing :=
  let k := min n (64 - va % 64)
  let first (a : Nat) : Bool := a % 64 = 0 || a = src
  match (if k = n then none else match engRead s g (va + k) (n - k) true cast with | .delay d => some (Landing.delay d) | _ => none) with
  | some d => d
  | none =>
  match engRead s g va k (first va) cast with
  | .ok s b =>
    if k = n then .ok s b
    else match engRead s g (va + k) (n - k) true cast with
      | .ok s b' => .ok s (b ++ b')
      | x => x
  | x => x

/-- Write bytes inside one line of the local destination. A write to host memory of a checkpointed context is held back,
unless `now` says that its interval has sealed. -/
def engWrite (s : State) (g : Eng) (va : Nat) (bs : List Byte) (now : Bool) : Landing :=
  match engineXlate s g.core g.ctx g.cmd.user g.cmd.pages g.cmd.retrans (word va) .write with
  | .flt c a => .flt c (word va) a
  | .wait => .wait
  | .ok x =>
    match copyCheck s g.ctx g.die x.pa x.lvl true with
    | some (c, a) => .flt c (word va) a
    | none =>
      let s := s.walked g.ctx g.cmd.pages g.cmd.retrans (word va)
      if fenced s g.ctx g.die x.pa x.pte then .wait
      else if kindOf x.pa = .host && s.ckpts g.ctx then
        (if now then .ok ((s.setBytes x.pa bs).unpoison x.pa bs.length) [] else .held (some x.pa) bs)
      else
        let s := if isCached x.pa then s.touchL2 (home s g.ctx x.pa x.pte) x.pa true (evictFirst x.pte) else s
        match storeLine s g.ctx g.die x.pa x.pte bs with
        | some s => .ok s []
        | none => .wait

/-! ## The destination package (R196, R220), when it is this one -/

/-- An address that reaches a package in a context of its own: the windows relative to a core name nothing there. -/
def remoteXlate (s : State) (ctx : Nat) (user : Bool) (va : Word) (acc : Acc) : XRes :=
  if va.toNat >>> 32 = 0xFFFFFFFF && 0x40000000 ≤ va.toNat % 2 ^ 32 then .flt PAGEF (xaux 5 0)
  else (translate s 0 ctx user false va acc).2

/-- Memory that a copy may write in the package that it names: what an engine may write and, as the destination of sectors, an open region
of the weight store of a die (R191). Which die's replica a write by package number reaches the spec does not say: the copy engine's own
for a copy that stays inside, and the hub's for another package's (DESIGN CHOICE, log entry 125). -/
def remoteMemory (s : State) (ctx die pa : Nat) (sector : Bool) : Bool :=
  holdable pa || (sector && match kindOf pa with | .ws _ => (copyCheck s ctx die pa 0 true).isNone | _ => false)

/-- The pieces of a range that another package, or a copy by package number, names. -/
def remotePieces (s : State) (ctx die : Nat) (user : Bool) (va : Word) (n : Nat) (sector : Bool) : Pieces :=
  match piecesFrom (fun w => remoteXlate s ctx user w .write) va.toNat n [] (n / 4096 + 2) with
  | .ok l => if l.all fun p => remoteMemory s ctx die p.2.1 sector then .ok l else .flt PAGEF va (xaux 3 0)
  | x => x

/-- The holds of code 8 on a destination (R203, R206). -/
def destHolds (owner ctx : Nat) (l : List (Nat × Nat × Nat × BitVec 64)) : List Hold := holdsOf 8 owner ctx true (joinPieces l)

/-- Physical memory that an owner holds for writing; weight-store ranges are never held (R203). -/
def State.heldBy (s : State) (owner pa : Nat) : Bool :=
  (match kindOf pa with | .ws _ => true | _ => false) ||
    s.holds.any fun h => h.owner = owner && h.write && h.lo ≤ pa && pa < h.lo + h.len

/-- A write inside one line by an agent of code 8: `owner`, where there is one, holds the destination since its first sector, and a
translation that now names other memory ends the transfer there (R180). -/
def remoteWrite (s : State) (ctx die : Nat) (user : Bool) (va : Word) (owner : Option Nat) (f : State → Nat → List Byte) : Landing :=
  match remoteXlate s ctx user va .write with
  | .flt _ _ => .rmt va
  | .wait => .wait
  | .ok x =>
    let s := s.walked ctx [] false va
    if !remoteMemory s ctx die x.pa owner.isSome || (match owner with | some o => !s.heldBy o x.pa | none => false) then .rmt va
    else if fenced s ctx die x.pa x.pte then .wait
    else
      let s := if isCached x.pa then s.touchL2 (home s ctx x.pa x.pte) x.pa true (evictFirst x.pte) else s
      match storeLine s ctx die x.pa x.pte (f s x.pa) with
      | some s => .ok s []
      | none => .wait

/-- Take holds of code 8 and go on: a conflict and a full table make it wait (R206, R207). -/
def takeDest (s : State) (hs : List Hold) (k : State → Landing) : Landing :=
  if hs.any fun h => (holdConflict s h.owner true h.lo h.len).isSome then .conflict
  else if holdsFit s hs then k (s.addHolds hs)
  else .wait

/-- The result of an atomic add of R433 and its flags. -/
def atomicSum (aop a b : Nat) : Nat × BitVec 5 :=
  if aop = 0 then ((a + b) % 2 ^ 64, 0) else addF (fmtOf (if aop = 1 then 0 else 1)) 0 a b

/-! ## Units (R430 to R433) -/

/-- A sector of a copy, or an element of an add, that stays in this package under a package number (R23, step 1): the first sector takes
the hold on the whole destination, an element its own for as long as the add takes (R203, code 8; R220). -/
def landOwn (s : State) (g : Eng) (dst n : Nat) (bs : List Byte) : Landing × BitVec 5 :=
  let r := g.rcd
  let own := destOwner g.cmd.id
  if r.kind = 1 then
    match remotePieces s g.ctx g.die g.cmd.user (word dst) n false with
    | .flt _ _ _ => (.rmt (word dst), 0)
    | .wait => (.wait, 0)
    | .ok l =>
      let old := match l with | p :: _ => s.read 0 p.2.1 n | [] => 0
      let sum := atomicSum r.aop old (ofBytes bs)
      (takeDest s (destHolds own g.ctx l) fun _ => remoteWrite s g.ctx g.die g.cmd.user (word dst) none fun _ _ => bytesOf sum.1 n, sum.2)
  else
    let write (s : State) : Landing := remoteWrite s g.ctx g.die g.cmd.user (word dst) (some own) fun _ _ => bs
    if g.cmd.destHeld then (write s, 0)
    else match remotePieces s g.ctx g.die g.cmd.user r.dst r.bytes true with
      | .flt _ _ _ => (.rmt (word dst), 0)
      | .wait => (.wait, 0)
      | .ok l => (takeDest s (destHolds own g.ctx l) write, 0)

/-- Bytes that come from another package: free values. -/
def freeBytes (s : State) (n : Nat) : List Byte × State :=
  (span 0 n).foldl (fun (x : List Byte × State) _ => let (w, s) := x.2.free; (x.1 ++ [w.setWidth 8], s)) ([], s)

/-- An element of a GATHR by its address (R432): read here, or in the package that the record names. -/
def gatherElem (s : State) (g : Eng) (ea : Word) (n : Nat) : Landing :=
  let r := g.rcd
  let take (x : Xl) : Landing :=
    match s.engDelay g.core g.cmd.id x.pa n with
    | some d => d
    | none => .ok (countLine (s.walked g.ctx [] false ea) g x none) (bytesOf (s.read g.die x.pa n) n)
  if r.rem then
    match g.cmd.path s with
    | .none => .rmt ea
    | .wait => .wait
    | .out _ => let (bs, s) := freeBytes s n; .ok s bs
    | .own => match remoteXlate s g.ctx g.cmd.user ea .read with
      | .flt _ _ => .rmt ea
      | .wait => .wait
      | .ok x =>
        if (copyCheck s g.ctx g.die x.pa x.lvl false).isSome || s.poisoned g.die x.pa n then .rmt ea
        else if fenced s g.ctx g.die x.pa x.pte then .wait
        else take x
  else match (translate s g.core g.ctx g.cmd.user false ea .read).2 with
    | .flt c a => .flt c ea a
    | .wait => .wait
    | .ok x =>
      match copyCheck s g.ctx g.die x.pa x.lvl false with
      | some (c, a) => .flt c ea a
      | none =>
        if fenced s g.ctx g.die x.pa x.pte then .wait
        else if s.poisoned g.die x.pa n then (if s.ckpts g.ctx then .wait else .flt UNCORR ea 0)
        else take x

/-- The unit lands: its source is read, and its bytes are written at the destination. The answer's flags are those of the
adds. (DEDUCED, log entry 59.) -/
def landUnit (s : State) (g : Eng) (j : Nat) (now : Bool) : Landing × BitVec 5 :=
  let r := g.rcd
  let (off, n) := g.cmd.part j
  let src := (r.src + word off).toNat
  let dst := (r.dst + word off).toNat
  if g.cmd.kind = CPYMK then
    let rs := (receivers s g.cmd.issuer r.mask).getD []
    let cast := rs.map fun lc => match s.crew? g.cmd.issuer.crew with | some c => c.phys lc | none => 0
    let at_ (lc : Nat) : Nat := recvPA s g.cmd.issuer.crew lc (word dst)
    if rs.any fun lc => fenced s g.ctx g.die (at_ lc) 0 then (.wait, 0)
    else match engReadSpan s g r.src.toNat src n (some cast) with
    | .ok s bs => (.ok (rs.foldl (fun s lc => s.setBytes (recvPA s g.cmd.issuer.crew lc (word dst)) bs) s) [], 0)
    | x => (x, 0)
  else if g.cmd.kind = GATHRK then
    let k := 4 * (1 + r.ixsz)
    let ia := (r.ixaddr + word (k * j)).toNat
    match engRead s g ia k (j = 0 || ia % 64 = 0) none with
    | .ok s ib =>
      (match gatherElem s g (r.src + word (ofBytes ib * n)) n with
        | .ok s bs => engWrite s g dst bs now
        | x => x, 0)
    | x => (x, 0)
  else
    match engReadSpan s g r.src.toNat src n none with
    | .ok s bs =>
      if !r.rem then (engWrite s g dst bs now, 0)
      else match g.cmd.path s with
        | .none => (.rmt (word dst), 0)
        | .wait => (.wait, 0)
        | .out _ =>
          if s.ckpts g.ctx && !now then (.held none bs, 0)
          else if r.kind = 1 then let (w, s) := s.free; (.ok s [], if r.aop = 0 then 0 else w.setWidth 5)
          else (.ok s [], 0)
        | .own => landOwn s g dst n bs
    | x => (x, 0)

/-! ## Counting and the end (R208, R430, R434, R435) -/

/-- A unit has landed; the first sector that lands inside the package under a package number leaves the destination held. -/
def CopyCmd.land (c : CopyCmd) (j : Nat) (fl : BitVec 5) : CopyCmd :=
  let l := j :: c.landed
  let rec up (k : Nat) : Nat → Nat
    | 0 => k
    | n + 1 => if l.contains k then up (k + 1) n else k
  let next := up c.next (l.length + 1)
  let r := copyRec c.rcd
  { c with
    next := next, landed := l.filter (fun x => next ≤ x), flags := c.flags ||| fl, sent := c.sent.filter (· ≠ j)
    route := { c.route with heldAt := none }
    destHeld := c.destHeld || (r.rem && c.kind = CPYK && r.kind = 0 && c.route.own) }

/-- The destination sector of an element. -/
def CopyCmd.sectorOf (c : CopyCmd) (j : Nat) : Nat :=
  let r := copyRec c.rcd
  (r.dst.toNat + j * r.elem c.kind) / 64

/-- Every unit of the destination sector of unit j has landed. -/
def CopyCmd.sectorDone (c : CopyCmd) (j : Nat) : Bool :=
  let r := copyRec c.rcd
  if c.kind = GATHRK || r.kind = 1 then
    let sz := r.elem c.kind
    let d := r.dst.toNat
    let sec := c.sectorOf j
    let lo := ceilDiv (64 * sec - d) sz
    let hi := min (c.units - 1) ((64 * sec + 63 - d) / sz)
    (span lo (hi + 1 - lo)).all c.has
  else true

/-- A command as a save keeps it (R436): the elements above its resume offset that a GATHR has landed are gathered again, and what has been
counted of their sectors is not counted again. -/
def CopyCmd.saved (c : CopyCmd) : CopyCmd :=
  if c.kind ≠ GATHRK then c
  else { c with landed := [], again := (c.landed.filter c.sectorDone).map c.sectorOf ++ c.again }

/-- Sectors that the command counts in all. -/
def CopyCmd.sectors (c : CopyCmd) : Nat :=
  let r := copyRec c.rcd
  sectorsOf r.dst.toNat (r.total c.kind)

/-- The status record (Table 18.9). -/
def statusBytes (c : CopyCmd) (status cause : Nat) (va : Word) (aux : Nat) : List Byte :=
  bytesOf c.landedCount 8 ++ bytesOf (if c.kind = GATHRK && c.next < c.units then c.next else 0xFFFFFFFF) 4 ++
  bytesOf status 1 ++ bytesOf cause 1 ++ bytesOf c.flags.toNat 1 ++ bytesOf 0 1 ++ bytesOf va.toNat 8 ++ bytesOf aux 8

/-- Write the status record; none while its crew is not placed, or its bank is under a fence (R85). -/
def putStatus (s : State) (g : Eng) (c : CopyCmd) (status cause : Nat) (va : Word) (aux : Nat) : Option State :=
  let r := g.rcd
  if !r.sten then some s
  else match (translate s g.core g.ctx false false r.statVA .write).2 with
    | .ok x => if fenced s g.ctx g.die x.pa x.pte then none else some (s.setBytes x.pa (statusBytes c status cause va aux))
    | .wait => none
    | .flt _ _ => some s

/-- An update at each receiver's own barrier of a CPYM, which its crew's place makes present (R431); a fence of one makes it wait (R85). -/
def atReceivers (s : State) (g : Eng) (f : State → Nat → State) : BarRes :=
  let l := ((receivers s g.cmd.issuer g.rcd.mask).getD []).map fun lc => recvPA s g.cmd.issuer.crew lc (word (16 * g.rcd.tb))
  if l.any fun pa => fenced s g.ctx g.die pa 0 then .held g.cmd.issuer.crew
  else .ok (l.foldl (fun s pa => traceTb s g.ctx pa false none (f s pa)) s)

/-- Count one sector of a command: at its barrier, or at each receiver's own. -/
def countCopy (s : State) (g : Eng) (unit : Nat) : BarRes :=
  let r := g.rcd
  if g.cmd.kind = CPYMK then atReceivers s g fun s pa => countSector s g.ctx pa
  else countAt s g.core g.ctx (tbVA r.tb) (.copy g.cmd.id unit)

/-- BarError with the sectors that will not be counted (R213). -/
def errorCopy (s : State) (g : Eng) (left : Nat) : BarRes :=
  let r := g.rcd
  if g.cmd.kind = CPYMK then atReceivers s g fun s pa => barError s g.ctx pa left
  else errorAt s g.core g.ctx (tbVA r.tb) left (.copy g.cmd.id g.cmd.next)

/-- Put a command back, or take it away. -/
def setCopy (s : State) (vat : Nat) (c : CopyCmd) : State :=
  s.modVat vat fun v => { v with copies := v.copies.map fun x => if x.id = c.id then c else x }
def dropCopy (s : State) (vat : Nat) (c : CopyCmd) : State :=
  s.modVat vat fun v => { v with copies := v.copies.filter fun x => x.id ≠ c.id }

/-- Release a command's holds, at its destination by package number too. -/
def State.dropCopyHolds (s : State) (id : Nat) : State := (s.dropHolds id fun _ => true).dropHolds (destOwner id) fun _ => true

/-- What follows a unit's landing, which made `s` of `s0`: the last one writes the status and releases the holds before its sector is
counted. A sector whose count is held is held with it (R216). -/
def afterLanding (s0 s : State) (g : Eng) (j : Nat) (fl : BitVec 5) : Option State :=
  let c := g.cmd.land j fl
  let n := b2n (c.sectorDone j && !c.again.contains (c.sectorOf j))
  let c := { c with counted := c.counted + n }
  let count (s : State) (k : State → State) : Option State :=
    if n = 0 then some (k s) else (countCopy s g j).orHold s0 (.copy c.id j) k
  if c.next = c.units then
    (putStatus s g c 0 0 0 0).bind fun s =>
      count (s.dropCopyHolds c.id) fun s => traceCopy (dropCopy s g.vat c) 2 c c.landedBytes
  else count s fun s => setCopy s g.vat c

/-- The command stops at a failure (R434). -/
def stopCopy (s0 : State) (g : Eng) (status cause : Nat) (va : Word) (aux : Nat) : Option State :=
  let c := g.cmd
  (putStatus s0 g c status cause va aux).bind fun s =>
    (errorCopy (s.dropCopyHolds c.id) g (c.sectors - c.counted)).orHold s0 (.copy c.id c.next) fun s =>
      traceCopy (dropCopy s g.vat c) 2 c c.landedBytes

/-- The command of an index in a vat, its engine being free to move it: the context is not halted in the vat. A command that leaves the
package has its port. -/
def movable (s : State) (vat idx : Nat) : Option Eng :=
  match (s.vat vat).copies[idx]? with
  | none => none
  | some c => match engOf s vat (c.onPort s) with
    | some g => if (s.vat vat).halted.contains g.ctx then none else some g
    | none => none

/-- A unit of a command is held back already. -/
def unitHeld (s : State) (g : Eng) (j : Nat) : Bool :=
  match s.ctx? g.ctx with | some c => c.outs.any fun o => o = .remote g.vat g.cmd.id j | none => false

/-- Hold a unit back until the interval seals (R91); without room the interval is asked to seal. The entry of a unit for another package
holds a free value in place of the physical address, which it has not (DESIGN CHOICE, log entry 101). -/
def holdUnit (s : State) (g : Eng) (j : Nat) (pa : Option Nat) (bs : List Byte) : Option State :=
  match s.ctx? g.ctx with
  | none => none
  | some c =>
    if unitHeld s g j then none
    else if logRoom c 80 then
      let c' := { c with outs := .remote g.vat g.cmd.id j :: c.outs }
      let s := setCopy { s with ctxs := Tbl.ins s.ctxs g.ctx c' } g.vat g.cmd
      match pa with
      | some a => some (s.putEntry c' a bs)
      | none => let (w, s) := s.free; some (s.putEntry c' (w.toNat / 64 * 64) bs)
    else if c.sealWanted then none else some (s.wantSeal g.ctx)

/-- COPY_SECTOR_LAND. -/
def copySectorLand (vat idx sector : Nat) (s : State) : Option State :=
  match movable s vat idx with
  | none => none
  | some g =>
    if g.cmd.units ≤ sector || g.cmd.has sector then none
    else match landUnit s g sector (g.cmd.sent.contains sector) with
      | (.ok t _, fl) => afterLanding s t g sector fl
      | (.held pa bs, _) => holdUnit s g sector pa bs
      | (.delay t, _) => some t
      | (.conflict, _) =>
        if g.cmd.route.heldAt.isSome then none
        else some (setCopy s vat { g.cmd with route := { g.cmd.route with heldAt := some s.devtime } })
      | _ => none

def execCopySectorLand (vat idx sector : Nat) (s : State) : Out := event s (copySectorLand vat idx sector s)

/-- A held unit is released at a seal (R91): it is performed here and counted; one for another package is sent, and lands when the other
package has it (R220), and so does one that cannot land at once. -/
def releaseUnit (s : State) (vat id j : Nat) : State :=
  match (s.vat vat).copies.find? fun c => c.id = id with
  | none => s
  | some c =>
    let c := { c.onPort s with sent := j :: c.sent }
    let s := setCopy s vat c
    match engOf s vat c with
    | none => s
    | some g =>
      if g.rcd.rem && g.cmd.kind = CPYK && !g.cmd.route.own then s
      else match landUnit s g j true with
        | (.ok t _, fl) => (afterLanding s t g j fl).getD s
        | _ => s

/-- The address of unit j at the remote side: of its sector, or of the element that its index names for GATHR (R432). -/
def Eng.remoteVA (s : State) (g : Eng) (j : Nat) : Word :=
  let r := g.rcd
  if g.cmd.kind = GATHRK then
    let k := 4 * (1 + r.ixsz)
    match engRead s g (r.ixaddr + word (k * j)).toNat k false none with
    | .ok _ ib => r.src + word (ofBytes ib * (g.cmd.part j).2)
    | _ => r.src
  else r.dst + word (g.cmd.part j).1

/-- The unit's failure as R434 lists it; a failure of the remote side is definite, or is the refusal of the package that a port
reaches, or the end of 10 ms on a conflicting hold here (R207). -/
def copyFailure (vat idx sector : Nat) (rmt : Bool) (s : State) : Option State :=
  match movable s vat idx with
  | none => none
  | some g =>
    if g.cmd.units ≤ sector || g.cmd.has sector then none
    else match (landUnit s g sector (g.cmd.sent.contains sector)).1 with
      | .flt c va a => if rmt then none else stopCopy s g 1 c va (if c = PAGEF || c = PROT then a else 0)
      | .rmt va => if rmt then stopCopy s g 2 0x1A va 0 else none
      | .ok _ _ => match g.cmd.path s with
        | .out _ => if rmt && g.rcd.rem then stopCopy s g 2 0x1A (g.remoteVA s sector) 0 else none
        | _ => none
      | .conflict => match g.cmd.route.heldAt with
        | some t => if rmt && t + 10000000 ≤ s.devtime then stopCopy s g 2 0x1A (g.remoteVA s sector) 0 else none
        | none => none
      | _ => none

def execCopyFailure (vat idx sector : Nat) (rmt : Bool) (s : State) : Out := event s (copyFailure vat idx sector rmt s)

/-- REMOTE_ROUTE_TIMEOUT: no port has been available for 10 ms since the transfer's start, or since its port failed (R23, R24). -/
def remoteRouteTimeout (vat idx : Nat) (s : State) : Option State :=
  match movable s vat idx with
  | none => none
  | some g =>
    if g.rcd.rem && g.cmd.path s = .wait && g.cmd.route.since + 10000000 ≤ s.devtime then
      stopCopy s g 2 0x1A (g.remoteVA s g.cmd.next) 0
    else none

def execRemoteRouteTimeout (vat idx : Nat) (s : State) : Out := event s (remoteRouteTimeout vat idx s)

/-! ## Incoming transfers (R196, R203 code 8, R207, R220) -/

/-- The owner number of an incoming transfer's holds. -/
def xferOwner (xfer : Nat) : Nat := 2 ^ 80 + xfer

/-- What the agents of other packages name as their die: the scale-out block is on none of the four. -/
def hubDie : Nat := 4

/-- A transfer reaches the package: a port is enabled and up. -/
def State.linked (s : State) : Bool := (span 0 16).any s.portLive

/-- The form of a packet: 0 a sector of a copy, 1 to 3 an add of one element (1 + AOP), 4 a GATHR's read of one element; its bytes lie in
one line, and a sector inside the range of its copy. -/
def remoteForm (kind : Nat) (va : Word) (n : Nat) (base : Word) (len : Nat) : Bool :=
  1 ≤ n && va.toNat % 64 + n ≤ 64 && kind ≤ 4 &&
  (if kind = 0 then base.toNat ≤ va.toNat && va.toNat + n ≤ base.toNat + len
  else if kind = 4 then va.toNat % n = 0
  else n = (if kind = 3 then 4 else 8) && va.toNat % n = 0)

/-- A transfer waits on a conflicting hold from its first try on (R207). -/
def waitRemote (s : State) (e : RemoteIn) : Option State :=
  if s.hub.remotes.any fun r => r.xfer = e.xfer && r.waiting then none
  else some (s.modHub fun h => { h with remotes := h.remotes.filter (fun r => r.xfer ≠ e.xfer) ++ [e] })

/-- A transfer ends with an error: what it holds is released (R196, R210). None where nothing of it is here. -/
def endRemote (s : State) (xfer : Nat) : Option State :=
  if s.hub.remotes.any fun r => r.xfer = xfer then
    some ((s.modHub fun h => { h with remotes := h.remotes.filter fun r => r.xfer ≠ xfer }).dropHolds (xferOwner xfer) fun _ => true)
  else none

/-- An incoming sector of a copy: the first one registers the hold on the whole destination (R203, code 8). A later one that fails, or
that a new translation takes out of the hold (R180), ends the copy. -/
def remoteSector (xfer ctx : Nat) (user : Bool) (va : Word) (n : Nat) (data : BitVec 512) (base : Word) (len : Nat) (last : Bool)
    (s : State) : Option State :=
  let own := xferOwner xfer
  let others := s.hub.remotes.filter fun r => r.xfer ≠ xfer
  let held := s.hub.remotes.any fun r => r.xfer = xfer && !r.waiting
  match remotePieces s ctx hubWs user base len true with
  | .ok l =>
    let entry : RemoteIn := ⟨xfer, 0, ctx, joinPieces l, false, s.devtime⟩
    let write (s : State) : Landing := remoteWrite s ctx hubWs user va (some own) fun _ _ => bytesOf (data.toNat % 2 ^ (8 * n)) n
    match if held then write s else takeDest s (destHolds own ctx l) write with
    | .ok t _ =>
      let t := t.modHub fun h => { h with remotes := if last then others else others ++ [entry] }
      some (if last then t.dropHolds own fun _ => true else t)
    | .conflict => waitRemote s { entry with waiting := true }
    | .rmt _ => endRemote s xfer
    | _ => none
  | .flt _ _ _ => endRemote s xfer
  | .wait => none

/-- An incoming add of one element: its hold lasts as long as the add. -/
def remoteAdd (xfer kind ctx : Nat) (user : Bool) (va : Word) (n : Nat) (data : BitVec 512) (s : State) : Option State :=
  match remotePieces s ctx hubWs user va n false with
  | .ok (p :: l) =>
    let sum := atomicSum (kind - 1) (s.read 0 p.2.1 n) (data.toNat % 2 ^ (8 * n))
    let done (t : State) : State := t.modHub fun h => { h with remotes := h.remotes.filter fun r => r.xfer ≠ xfer }
    match takeDest s (destHolds (xferOwner xfer) ctx (p :: l)) fun _ => remoteWrite s ctx hubWs user va none fun _ _ => bytesOf sum.1 n with
    | .ok t _ => some (done t)
    | .conflict => waitRemote s ⟨xfer, kind, ctx, joinPieces (p :: l), true, s.devtime⟩
    | _ => none
  | _ => none

/-- An incoming GATHR read of one element (R196, R432): without a hold, and answered with the bytes. A weight store is read from the die
that the hub reads (DESIGN CHOICE, log entry 95). -/
def remoteReadIn (xfer ctx : Nat) (user : Bool) (va : Word) (n : Nat) (s : State) : Option State :=
  match remoteXlate s ctx user va .read with
  | .ok x =>
    let die := hubWs
    if (copyCheck s ctx die x.pa x.lvl false).isSome || s.poisoned die x.pa n || fenced s ctx die x.pa x.pte || s.hubRefresh x.pa n then none
    else
      let bs := bytesOf (s.read die x.pa n) n
      let s := if isCached x.pa then s.engineRead hubDie (home s ctx x.pa x.pte) x.pa (evictFirst x.pte) else s
      some (s.modHub fun h => { h with remoteReads := (xfer, bs) :: h.remoteReads })
  | _ => none

/-- REMOTE_WRITE_ARRIVE: a packet of another package arrives over a port, with the number and ASID of its context and its issuer's
privilege. A context that does not exist or carries another ASID, and a failing access, refuse it and end its copy, and nothing is written; a
conflicting hold makes it wait. -/
def remoteWriteArrive (xfer kind ctx asid : Nat) (va : Word) (n : Nat) (p : RemotePacket) (last : Bool) (s : State) : Option State :=
  if !s.linked || !remoteForm kind va n p.base p.len then none
  else match s.ctx? ctx with
  | none => endRemote s xfer
  | some c =>
    if c.asid ≠ asid then endRemote s xfer
    else if kind = 0 then remoteSector xfer ctx p.user va n p.data p.base p.len last s
    else if kind = 4 then remoteReadIn xfer ctx p.user va n s
    else remoteAdd xfer kind ctx p.user va n p.data s

def execRemoteWriteArrive (xfer kind ctx asid : Nat) (va : BitVec 64) (n : Nat) (data : RemotePacket) (last : Bool) (s : State) : Out :=
  event s (remoteWriteArrive xfer kind ctx asid va n data last s)

/-- An incoming operation has waited 10 ms on a conflicting hold that still stands (R207). -/
def remoteHoldWaitTimeout (xfer : Nat) (s : State) : Option State :=
  match s.hub.remotes.find? fun r => r.xfer = xfer && r.waiting with
  | some r =>
    if s.devtime < r.since + 10000000 || !(r.pieces.any fun p => (holdConflict s (xferOwner xfer) true p.1 p.2).isSome) then none
    else some (s.modHub fun h => { h with remotes := h.remotes.filter fun x => x.xfer ≠ xfer })
  | none => none

def execRemoteHoldWaitTimeout (xfer : Nat) (s : State) : Out := event s (remoteHoldWaitTimeout xfer s)

/-- n stores or atomics of the thread in a slot are acknowledged; held writes are not (R91, R219). -/
def writeAcknowledge (core slot n : Nat) (s : State) : Option State :=
  let t := s.thread core slot
  let held : Bool := match s.ctx? (s.ctxOf t.ref.crew) with
    | some c => c.outs.any fun o => match o with | .host _ _ => true | _ => false
    | none => false
  if n = 0 || t.unacked < n || held then none
  else some (s.modThread core slot fun t => { t with unacked := t.unacked - n })

def execWriteAcknowledge (core slot n : Nat) (s : State) : Out := event s (writeAcknowledge core slot n s)

end Sys2Proof.Machine
end

