-- ==== Sys2Proof/Machine/Fetch.lean ====
section
/-! DEFINITION. Fetching a line and entering it: translation for execution, line parity, the line-word rules and the target
test (R285 to R289, R300). -/

namespace Sys2Proof.Machine

/-- What an entry into a line meets: its image, a trap (cause, TADDR, TAUX), or a wait. -/
inductive Entered where
  | ok (img : LineImg)
  | trap (cause : Nat) (addr aux : Word)
  | wait
deriving DecidableEq, Repr

def PARITY : Nat := 4
def ILLOP : Nat := 1
def BADTGT : Nat := 3

/-- Fetch the 64 bytes of a line for a thread on a core (step 1 of R300); it waits for a fence, and for a refresh of the weight store. (DEDUCED, log entry 86.)
A fetch from a page of the weight store makes no region check: Table 8.7 has no column for it (DESIGN CHOICE, log entry 120). -/
def fetchLine (s : State) (core ctx : Nat) (user : Bool) (line : Word) : State × Entered :=
  let (s, r) := translate s core ctx user true line .exec
  match r with
  | .flt c a => (s, .trap c line (word a))
  | .wait => (s, .wait)
  | .ok x =>
    let die := dieOf core
    if fenced s ctx die x.pa x.pte then (s, .wait)
    else if s.poisoned die x.pa 64 then (s, if s.ckpts ctx then .wait else .trap UNCORR line 0)
    else
      match s.wsDelay core s.meReader x.pa 64 with
      | some s => (s, .wait)
      | none =>
      let cached := match kindOf x.pa with | .dram | .host => true | _ => false
      let s := if cached then s.threadRead core (home s ctx x.pa x.pte) x.pa true (evictFirst x.pte) else s
      (s, .ok (BitVec.ofNat 512 (s.read die x.pa 64)))

/-- TAUX of PARITY for a line word whose parity fails: position 5 (R285). -/
def parityLineAux : Word := 32

/-- The TGT test of a checked entry (R286): the TAUX of a failure. The form of the address comes first. -/
def tgtForm (pc : Word) : Option Nat := if fld pc 3 3 ≠ 0 || slotOf pc > 4 then some 1 else none
def tgtBit (img : LineImg) (checked : Bool) (pc : Word) : Option Nat :=
  if linePL img && slotOf pc ≠ 0 then some 2 else if !checked || lineTgt img (slotOf pc) then none else some 0

/-- The line's own checks at an entry (R300): fetch, PARW, the line word, and for a checked entry the target test. An
unchecked entry at an address that names no instruction slot meets the same traps but for the TGT bit (DEDUCED, log entry 13). -/
def enterLine (s : State) (core ctx : Nat) (user checked : Bool) (pc : Word) : State × Entered :=
  let line := lineOf pc
  let (s, e) := fetchLine s core ctx user line
  match e with
  | .ok img =>
    if !wordParityOk img then (s, .trap PARITY line parityLineAux)
    else if !lineWordOk img then (s, .trap ILLOP line 3)
    else
      match tgtForm pc, tgtBit img checked pc with
      | some a, _ => (s, .trap BADTGT pc (word a))
      | none, some a => (s, .trap BADTGT pc (word a))
      | none, none => (s, .ok img)
  | _ => (s, e)

end Sys2Proof.Machine
end

