-- ==== Sys2Proof/Machine/Control.lean ====
section
/-! DEFINITION. Control: branches, jumps, LOOP, WFW, YIELD and EXIT (R345 to R351). -/

namespace Sys2Proof.Machine

/-- The target of a format-B branch (R294): the line at line(PC) + 64 × the signed line offset, and the slot. -/
def brTarget (pc : Word) (tgt : BitVec 48) : Word := lineOf pc + (sext (fld tgt 3 45) 45 <<< 6) + word (fld tgt 0 3)

/-- The thread has no line image, and its next fetch is a checked entry. -/
def Thread.atEntry (t : Thread) : Thread := { t with line := none, entry := true }

/-- A taken branch (R286, R287): BADTGT is a trap of the branch; any other failure of the target line is met again at the
target, where it is taken. `after` is what the branch writes; a branch whose target cannot be fetched yet waits with nothing
written. -/
def branchTo (s : State) (target : Word) (after : State → State) : Eff :=
  let (s1, e) := enterLine s s.curCore s.myCtx s.me.user true target
  match e with
  | .ok img => .jump (after s1) target (some img)
  | .trap c a x => if c = BADTGT then .trap s1 c a x else .jump ((after s1).modMe Thread.atEntry) target none
  | .wait => .wait s1 .memory 0

def bodyBr (h : Hdr) (tgt : BitVec 48) : Body :=
  Body.mk' h .control [] [] fun _ s => branchTo s (brTarget s.me.pc tgt) fun s => s

/-- The link is the address after the turn (R345). -/
def bodyBrl (h : Hdr) (d : BitVec 5) (tgt : BitVec 48) : Body :=
  Body.mk' h .control [] [.g d] fun o s => branchTo s (brTarget s.me.pc tgt) fun s => giveG s (some 1) d o.nxt 0

def bodyJmp (h : Hdr) (a : BitVec 5) : Body :=
  Body.mk' h .control [.a a] [] fun o s => branchTo s o.a fun s => s

def bodyJmpl (h : Hdr) (d a : BitVec 5) : Body :=
  Body.mk' h .control [.a a] [.g d] fun o s => branchTo s o.a fun s => giveG s (some 1) d o.nxt 0

/-- R348: the counter is not written when the branch traps BADTGT. -/
def bodyLoop (h : Hdr) (d : BitVec 5) (tgt : BitVec 48) : Body :=
  Body.mk' h .control [.d d] [.g d] fun o s =>
    let c := o.d - 1
    if c ≠ 0 then branchTo s (brTarget s.me.pc tgt) fun s => giveG s (some 1) d c 0
    else .done (giveG s (some 1) d c 0)

/-- PARAM of an instruction that a place does not allow. -/
def barred (inMover inNotify : Bool) (s : State) : Option Stop :=
  if (inMover && s.curSlot = 7) || (inNotify && s.me.notify) then some (paramStop 0) else none

/-- R349: it awaits every outstanding result of g0 to g9, and then waits for an item or a token. -/
def bodyWfw (h : Hdr) : Body :=
  { Body.mk' h .control [] ((span 0 10).map fun r => Dst.g (BitVec.ofNat 5 r)) (fun _ s => .hold s .wfw 0) with
    chk := fun _ s => barred true true s }

/-- R350. (DEDUCED, log entry 79.) -/
def bodyYield (h : Hdr) : Body := Body.mk' h .control [] [] fun _ s => .done s

/-- What EXIT still waits for is known to SNDTMO by the buffered word's target (R351); without one the wait has a key of its own, so
that PACTMO counts it from one try to the next. -/
def exitKey (t : Thread) : Nat :=
  match t.outBuf with | some o => keySend o.core.toNat o.slot.toNat | none => 2 ^ 120

/-- The effect of EXIT (R351, R407): it waits for results, the outbound buffer, pacts and streams; then the slot is vacant. -/
def exitEff (s : State) : Eff :=
  let t := s.me
  if !t.pend.isEmpty || t.outBuf.isSome || t.pactsOpen s then .wait s .exit (exitKey t)
  else match drainAll s [24, 25, 26, 27] with
    | .wait s => .wait s .exit (2 ^ 120)
    | .stopped s f => .trap s f.cause.toNat f.addr f.aux
    | .ok s =>
      let t := s.me
      let s := s.setMe { t with occ := false, exited := true, park := none, timer := 0, line := none, nq := [] }
      .gone (if s.curSlot = 7 then s else exitBars s t.ref.crew t)

def bodyExit (h : Hdr) : Body :=
  { Body.mk' h .control [] [] (fun _ s => exitEff s) with chk := fun _ s => barred false true s }

/-! ## Execution: each instruction issued by itself -/

def execBr (h : Hdr) (tgt : BitVec 48) (s : State) : Out := .next (issue (.br h tgt) (bodyBr h tgt) s)
def execBrl (h : Hdr) (d : BitVec 5) (tgt : BitVec 48) (s : State) : Out :=
  .next (issue (.brl h d tgt) (bodyBrl h d tgt) s)
def execJmp (h : Hdr) (a : BitVec 5) (s : State) : Out := .next (issue (.jmp h a) (bodyJmp h a) s)
def execJmpl (h : Hdr) (d a : BitVec 5) (s : State) : Out := .next (issue (.jmpl h d a) (bodyJmpl h d a) s)
def execLoop (h : Hdr) (d : BitVec 5) (tgt : BitVec 48) (s : State) : Out :=
  .next (issue (.loop h d tgt) (bodyLoop h d tgt) s)
def execWfw (h : Hdr) (s : State) : Out := .next (issue (.wfw h) (bodyWfw h) s)
def execYield (h : Hdr) (s : State) : Out := .next (issue (.yield h) (bodyYield h) s)
def execExit (h : Hdr) (s : State) : Out := .next (issue (.exit h) (bodyExit h) s)

end Sys2Proof.Machine
end

