-- ==== Sys2Proof/Machine/Vector.lean ====
section
/-! DEFINITION. Vector instructions (R353 to R378): arithmetic, unary functions, compares, conversions, dot products, lane moves,
reductions and scans in their fixed tree, sorting and merging, and BQ blocks in a register. -/

namespace Sys2Proof.Machine

/-! ## Lanes (R353 to R355) -/

/-- Lane width of a TYPE, and the number of lanes (R353). -/
def tyW (ty : BitVec 3) : Nat := match ty.toNat with | 0 | 4 => 64 | 1 | 5 => 32 | _ => 16
def tyN (ty : BitVec 3) : Nat := 512 / tyW ty

/-- A TYPE of integer lanes. -/
def tyInt (ty : BitVec 3) : Bool := ty.toNat ≥ 4

/-- The format of a floating-point TYPE. -/
def tyF (ty : BitVec 3) : Fmt := fmtOf ty.toNat

/-- A register from its lanes with the OR of their flags. -/
def packLanes (w : Nat) (l : List Res) : Vec × BitVec 5 :=
  (ofLanes 512 w (l.map fun x => x.1), l.foldl (fun a x => a ||| x.2) 0)

/-- The active lanes computed by f, the others kept (R355). -/
def mapLanes (w : Nat) (m : Mask) (old : Vec) (f : Nat → Res) : Vec × BitVec 5 :=
  packLanes w ((span 0 (512 / w)).map fun i => if laneOn w m i then f i else (lane old w i, 0))

/-- A lane-by-lane instruction into D under a mask; D is read when MASK is not 0 (R355). -/
def vecLanes (h : Hdr) (vd : BitVec 4) (w : Nat) (mk : BitVec 3) (srcs : List Src) (lat : Option Nat)
    (f : Ops → Nat → Res) (fp : Bool := false) : Body :=
  (Body.mk' h .other (maskedSrcs mk srcs vd true) [.v vd] (effV fp lat vd fun o => mapLanes w o.ma o.vd (f o))).heavy

/-- An instruction that writes every lane of D and does not read it. -/
def vecWhole (h : Hdr) (vd : BitVec 4) (mk : BitVec 3) (srcs : List Src) (f : Ops → Vec × BitVec 5) : Body :=
  (Body.mk' h .other (.ma mk :: srcs) [.v vd] (effV false (some 2) vd f)).heavy

/-- One vector operand. -/
def vec1 (h : Hdr) (vd va : BitVec 4) (ty mk : BitVec 3) (lat : Option Nat) (f : Ops → Nat → Res) : Body :=
  vecLanes h vd (tyW ty) mk [.va va] lat (fun o i => f o (lane o.va (tyW ty) i)) (lat.isNone && !tyInt ty)

/-- Two vector operands. -/
def vec2 (h : Hdr) (vd va vb : BitVec 4) (ty mk : BitVec 3) (lat : Option Nat) (f : Ops → Nat → Nat → Res) : Body :=
  vecLanes h vd (tyW ty) mk [.va va, .vb vb] lat (fun o i => f o (lane o.va (tyW ty) i) (lane o.vb (tyW ty) i))
    (lat.isNone && !tyInt ty)

/-- Three vector operands. -/
def vec3 (h : Hdr) (vd va vb vc : BitVec 4) (ty mk : BitVec 3) (lat : Option Nat) (f : Ops → Nat → Nat → Nat → Res) : Body :=
  vecLanes h vd (tyW ty) mk [.va va, .vb vb, .vc vc] lat
    (fun o i => f o (lane o.va (tyW ty) i) (lane o.vb (tyW ty) i) (lane o.vc (tyW ty) i)) (lat.isNone && !tyInt ty)

/-! ## Arithmetic (Table 16.1, R359 to R362) -/

/-- Latency of VADD, VSUB, VMUL, VFMA and VFNMA. -/
def arithLat (ty : BitVec 3) : Option Nat := if ty = 0 then none else some 2

/-- A lane operation: floating point under the rounding mode, or an integer result cut to the lane. -/
def laneArith (ty rnd : BitVec 3) (ff : Fmt → Mode → Nat → Nat → Res) (fi : Int → Int → Int) (o : Ops) (a b : Nat) : Res :=
  if tyInt ty then (ucut (fi (sint a (tyW ty)) (sint b (tyW ty))) (tyW ty), 0) else ff (tyF ty) (fmode rnd o) a b

def bodyVadd (h : Hdr) (vd va vb : BitVec 4) (ty mk rnd : BitVec 3) : Body :=
  vec2 h vd va vb ty mk (arithLat ty) (laneArith ty rnd addF fun a b => a + b)
def bodyVsub (h : Hdr) (vd va vb : BitVec 4) (ty mk rnd : BitVec 3) : Body :=
  vec2 h vd va vb ty mk (arithLat ty) (laneArith ty rnd subF fun a b => a - b)
def bodyVmul (h : Hdr) (vd va vb : BitVec 4) (ty mk rnd : BitVec 3) : Body :=
  vec2 h vd va vb ty mk (arithLat ty) (laneArith ty rnd mulF fun a b => a * b)
def bodyVdiv (h : Hdr) (vd va vb : BitVec 4) (ty mk rnd : BitVec 3) : Body :=
  vec2 h vd va vb ty mk none (laneArith ty rnd divF fun a b => if b = 0 then -1 else Int.tdiv a b)

/-- a × b + c, or c − a × b, in one lane. -/
def laneFma (ty rnd : BitVec 3) (negate : Bool) (o : Ops) (a b c : Nat) : Res :=
  let w := tyW ty
  if tyInt ty then
    let p := sint a w * sint b w
    (ucut (sint c w + if negate then -p else p) w, 0)
  else fmaF (tyF ty) (fmode rnd o) negate a b c

def bodyVfma (h : Hdr) (vd va vb vc : BitVec 4) (ty mk rnd : BitVec 3) : Body :=
  vec3 h vd va vb vc ty mk (arithLat ty) (laneFma ty rnd false)
def bodyVfnma (h : Hdr) (vd va vb vc : BitVec 4) (ty mk rnd : BitVec 3) : Body :=
  vec3 h vd va vb vc ty mk (arithLat ty) (laneFma ty rnd true)

/-- VMIN and VMAX of one lane (R360). -/
def laneMinMax (ty : BitVec 3) (isMax : Bool) (a b : Nat) : Res :=
  if tyInt ty then
    let le : Bool := sint a (tyW ty) ≤ sint b (tyW ty)
    (if le == isMax then b else a, 0)
  else minmaxF (tyF ty) isMax a b

def bodyVmin (h : Hdr) (vd va vb : BitVec 4) (ty mk : BitVec 3) : Body :=
  vec2 h vd va vb ty mk (some 2) fun _ a b => laneMinMax ty false a b
def bodyVmax (h : Hdr) (vd va vb : BitVec 4) (ty mk : BitVec 3) : Body :=
  vec2 h vd va vb ty mk (some 2) fun _ a b => laneMinMax ty true a b
def bodyVabs (h : Hdr) (vd va : BitVec 4) (ty mk : BitVec 3) : Body :=
  vec1 h vd va ty mk (some 2) fun _ a =>
    if tyInt ty then (ucut (sint a (tyW ty)).natAbs (tyW ty), 0) else signF (tyF ty) 0 a 0
def bodyVneg (h : Hdr) (vd va : BitVec 4) (ty mk : BitVec 3) : Body :=
  vec1 h vd va ty mk (some 2) fun _ a => if tyInt ty then (ucut (-sint a (tyW ty)) (tyW ty), 0) else signF (tyF ty) 1 a a

/-- A logical operation or a shift of one lane (R361). -/
def vecBits (h : Hdr) (vd va vb : BitVec 4) (ty mk : BitVec 3) (f : Nat → Nat → Nat) : Body :=
  vec2 h vd va vb ty mk (some 2) fun _ a b => (f a b, 0)

/-- The shift count of a lane. -/
def laneCnt (ty : BitVec 3) (b : Nat) : Nat := b % tyW ty

def bodyVand (h : Hdr) (vd va vb : BitVec 4) (ty mk : BitVec 3) : Body := vecBits h vd va vb ty mk fun a b => a &&& b
def bodyVor (h : Hdr) (vd va vb : BitVec 4) (ty mk : BitVec 3) : Body := vecBits h vd va vb ty mk fun a b => a ||| b
def bodyVxor (h : Hdr) (vd va vb : BitVec 4) (ty mk : BitVec 3) : Body := vecBits h vd va vb ty mk fun a b => a ^^^ b
def bodyVshl (h : Hdr) (vd va vb : BitVec 4) (ty mk : BitVec 3) : Body :=
  vecBits h vd va vb ty mk fun a b => a <<< laneCnt ty b
def bodyVshr (h : Hdr) (vd va vb : BitVec 4) (ty mk : BitVec 3) : Body :=
  vecBits h vd va vb ty mk fun a b => a >>> laneCnt ty b
def bodyVsar (h : Hdr) (vd va vb : BitVec 4) (ty mk : BitVec 3) : Body :=
  vecBits h vd va vb ty mk fun a b => ucut (Int.fdiv (sint a (tyW ty)) (2 ^ laneCnt ty b : Nat)) (tyW ty)

/-- A unary function, asynchronous (R362). -/
def vecUnary (h : Hdr) (vd va : BitVec 4) (ty mk rnd : BitVec 3) (f : Fmt → Mode → Nat → Res) : Body :=
  vec1 h vd va ty mk none fun o a => f (tyF ty) (fmode rnd o) a

def bodyVsqrt (h : Hdr) (vd va : BitVec 4) (ty mk rnd : BitVec 3) : Body := vecUnary h vd va ty mk rnd sqrtF
def bodyVrsq (h : Hdr) (vd va : BitVec 4) (ty mk rnd : BitVec 3) : Body := vecUnary h vd va ty mk rnd rsqrtF
def bodyVrcp (h : Hdr) (vd va : BitVec 4) (ty mk rnd : BitVec 3) : Body := vecUnary h vd va ty mk rnd rcpF
def bodyVexp2 (h : Hdr) (vd va : BitVec 4) (ty mk rnd : BitVec 3) : Body := vecUnary h vd va ty mk rnd exp2F
def bodyVlog2 (h : Hdr) (vd va : BitVec 4) (ty mk rnd : BitVec 3) : Body := vecUnary h vd va ty mk rnd log2F

/-! ## Compare, convert, dot product (R363 to R365) -/

/-- Condition of one lane. -/
def laneCmp (ty : BitVec 3) (cond : Nat) (a b : Nat) : Bool × BitVec 5 :=
  if tyInt ty then
    let w := tyW ty
    if cond ≤ 5 then (icond cond (sext a w) (sext b w), 0) else (icond cond (word a) (word b), 0)
  else fcmpF (tyF ty) cond a b

/-- The mask that VCMP writes: a bit covers one lane, or a pair of 16-bit lanes (R363). -/
def cmpMask (ty : BitVec 3) (cond : Nat) (m : Mask) (a b : Vec) : Mask × BitVec 5 :=
  let w := tyW ty
  let r := (activeLanes w m).map fun i => (i, laneCmp ty cond (lane a w i) (lane b w i))
  let holds (i : Nat) : Bool := r.any fun x => x.1 = i && x.2.1
  let bitOf (j : Nat) : Bool := if w = 16 then holds (2 * j) && holds (2 * j + 1) else holds j
  (ofLanes 16 1 ((span 0 16).map fun j => b2n (bitOf j)), r.foldl (fun acc x => acc ||| x.2.2) 0)

def bodyVcmp (h : Hdr) (md : BitVec 3) (va vb : BitVec 4) (ty mk : BitVec 3) (cond : BitVec 4) : Body :=
  (Body.mk' h .other [.ma mk, .va va, .vb vb] [.m md] (effM 2 md fun o => cmpMask ty cond.toNat o.ma o.va o.vb)).heavy

/-- R364: activity at the destination's width; lanes past the shorter register are written 0. -/
def bodyVcvt (h : Hdr) (vd va : BitVec 4) (st ty mk rnd : BitVec 3) : Body :=
  vecLanes h vd (tyW ty) mk [.va va] (if st = 0 || ty = 0 then none else some 2) (fun o i =>
    if i < min (tyN st) (tyN ty) then convF st.toNat ty.toNat (fmode rnd o) (lane o.va (tyW st) i) else (0, 0))
    (st = 0 || ty = 0)

/-- R365: one lane of width 2w. -/
def laneDot (ty rnd : BitVec 3) (o : Ops) (i : Nat) : Res :=
  let w := tyW ty
  let a (k : Nat) := lane o.va w (2 * i + k)
  let b (k : Nat) := lane o.vb w (2 * i + k)
  let c := lane o.vc (2 * w) i
  if tyInt ty then (ucut (sint c (2 * w) + sint (a 0) w * sint (b 0) w + sint (a 1) w * sint (b 1) w) (2 * w), 0)
  else
    let f := tyF ty
    let g := fmtOf (if ty = 1 then 0 else 1)
    let p := mulV (decodeF f (a 0)) (decodeF f (b 0))
    let q := mulV (decodeF f (a 1)) (decodeF f (b 1))
    let mode := fmode rnd o
    roundSum g mode (sumV [decodeF g c, p.1, q.1] false) (p.2 ||| q.2)

def bodyVdot (h : Hdr) (vd va vb vc : BitVec 4) (ty mk rnd : BitVec 3) : Body :=
  vecLanes h vd (2 * tyW ty) mk [.va va, .vb vb, .vc vc] (if ty = 1 then none else some 2) (laneDot ty rnd) (ty = 1)

/-! ## Moves and permutations (R357, R366 to R369) -/

def bodyVmov (h : Hdr) (vd va : BitVec 4) (ty mk : BitVec 3) : Body := vec1 h vd va ty mk (some 2) fun _ a => (a, 0)
def bodyVsel (h : Hdr) (vd va vb : BitVec 4) (ty mk : BitVec 3) : Body :=
  vecWhole h vd mk [.va va, .vb vb] fun o => mapLanes (tyW ty) o.ma o.vb fun i => (lane o.va (tyW ty) i, 0)
def bodyVbcast (h : Hdr) (vd : BitVec 4) (a : BitVec 5) (ty mk : BitVec 3) : Body :=
  vecLanes h vd (tyW ty) mk [.a a] (some 2) fun o _ => (fld o.a 0 (tyW ty), 0)

/-- The value of VFILL's immediate. -/
def fillValue (ty : BitVec 3) (imm : BitVec 48) : Nat :=
  match ty.toNat with
  | 0 => imm.toNat <<< 16
  | 4 => (imm48 imm).toNat
  | _ => fld imm 0 (tyW ty)

def bodyVfill (h : Hdr) (vd : BitVec 4) (ty mk : BitVec 3) (imm : BitVec 48) : Body :=
  vecLanes h vd (tyW ty) mk [] (some 2) fun _ _ => (fillValue ty imm, 0)

/-- A lane value in a general register: an integer is sign-extended (R327). -/
def laneG (ty : BitVec 3) (v : Nat) : Word := if tyInt ty then sext v (tyW ty) else word v

def bodyVext (h : Hdr) (d : BitVec 5) (va : BitVec 4) (lane : BitVec 5) (ty : BitVec 3) : Body :=
  (Body.mk' h .other [.va va] [.g d]
    (effG (some 2) d fun o => (laneG ty (Machine.lane o.va (tyW ty) lane.toNat), 0))).heavy
def bodyVins (h : Hdr) (vd : BitVec 4) (a lane : BitVec 5) (ty : BitVec 3) : Body :=
  (Body.mk' h .other [.a a, .vd vd] [.v vd]
    (effV false (some 2) vd fun o => (setFld o.vd (tyW ty * lane.toNat) (tyW ty) o.a.toNat, 0))).heavy

/-- c(i): the number of active lanes below lane i (R368). -/
def activeBelow (w : Nat) (m : Mask) (i : Nat) : Nat := ((span 0 i).filter (laneOn w m)).length

def bodyViota (h : Hdr) (vd : BitVec 4) (ty mk : BitVec 3) : Body :=
  vecLanes h vd (tyW ty) mk [] (some 2) fun o i => (activeBelow (tyW ty) o.ma i, 0)
def bodyVcmprs (h : Hdr) (vd va : BitVec 4) (ty mk : BitVec 3) : Body :=
  vecWhole h vd mk [.va va] fun o =>
    (ofLanes 512 (tyW ty) ((activeLanes (tyW ty) o.ma).map (lane o.va (tyW ty))), 0)
def bodyVexpnd (h : Hdr) (vd va : BitVec 4) (ty mk : BitVec 3) : Body :=
  vecLanes h vd (tyW ty) mk [.va va] (some 2) fun o i => (lane o.va (tyW ty) (activeBelow (tyW ty) o.ma i), 0)
def bodyVshuf (h : Hdr) (vd va vb : BitVec 4) (ty mk : BitVec 3) : Body :=
  vecLanes h vd (tyW ty) mk [.va va, .vb vb] (some 2) fun o i =>
    (lane o.va (tyW ty) (lane o.vb (tyW ty) i % tyN ty), 0)
def bodyVlut (h : Hdr) (vd va vb : BitVec 4) (ty mk : BitVec 3) : Body :=
  vecLanes h vd (tyW ty) mk [.va va, .vb vb] (some 2) fun o i => (lane o.va (tyW ty) (lane o.vb 4 i % tyN ty), 0)

/-! ## Reductions and scans (R370 to R372) -/

/-- The function of IMM<2:0> on two lane values (Table 16.5). -/
def redOp (ty : BitVec 3) (fn : Nat) (mode : Mode) (l r : Nat) : Res :=
  let w := tyW ty
  match fn with
  | 0 => if tyInt ty then ((l + r) % 2 ^ w, 0) else addF (tyF ty) mode l r
  | 1 => laneMinMax ty false l r
  | 2 => laneMinMax ty true l r
  | 3 => (l &&& r, 0)
  | 4 => (l ||| r, 0)
  | _ => (l ^^^ r, 0)

/-- The identity of a function. -/
def redIdentity (ty : BitVec 3) (fn : Nat) : Nat :=
  let w := tyW ty
  match fn with
  | 1 => if tyInt ty then 2 ^ (w - 1) - 1 else (tyF ty).infBits
  | 2 => if tyInt ty then 2 ^ (w - 1) else (tyF ty).signBit true + (tyF ty).infBits
  | 3 => 2 ^ w - 1
  | _ => 0

/-- A node's value, none when it is ABSENT, with the flags raised so far. -/
abbrev NodeVal := Option Nat × BitVec 5

/-- Combine two node values. -/
def joinNodes (ty : BitVec 3) (fn : Nat) (mode : Mode) (l r : NodeVal) : NodeVal :=
  match l.1, r.1 with
  | none, _ => (r.1, l.2 ||| r.2)
  | _, none => (l.1, l.2 ||| r.2)
  | some x, some y => let z := redOp ty fn mode x y; (some z.1, l.2 ||| r.2 ||| z.2)

/-- Node(lo, 2^k) of R370. -/
def redNode (ty : BitVec 3) (fn : Nat) (mode : Mode) (m : Mask) (a : Vec) (lo : Nat) : Nat → NodeVal
  | 0 => if laneOn (tyW ty) m lo then (some (lane a (tyW ty) lo), 0) else (none, 0)
  | k + 1 => joinNodes ty fn mode (redNode ty fn mode m a lo k) (redNode ty fn mode m a (lo + 2 ^ k) k)

/-- The value of a reduction: the identity for ABSENT, and a NaN made canonical (R371). -/
def redFinish (ty : BitVec 3) (fn : Nat) (x : NodeVal) : Res :=
  match x.1 with
  | none => (redIdentity ty fn, x.2)
  | some v =>
    if tyInt ty then (v, x.2)
    else
      let d := decodeF (tyF ty) v
      if d.isNan then ((tyF ty).nan, x.2 ||| sigFlag [d]) else (v, x.2)

/-- The prefix of lane i: the aligned blocks of [0, i], largest first, joined from left to right (R372); `k` is one more
than the exponent of the largest block that may still come. -/
def scanLane (ty : BitVec 3) (fn : Nat) (mode : Mode) (m : Mask) (a : Vec) (i lo : Nat) (acc : NodeVal) : Nat → NodeVal
  | 0 => acc
  | k + 1 =>
    if (i + 1).testBit k then
      scanLane ty fn mode m a i (lo + 2 ^ k) (joinNodes ty fn mode acc (redNode ty fn mode m a lo k)) k
    else scanLane ty fn mode m a i lo acc k

/-- log2 of the number of lanes. -/
def tyLog (ty : BitVec 3) : Nat := match tyW ty with | 64 => 3 | 32 => 4 | _ => 5

def bodyVred (h : Hdr) (d : BitVec 5) (va : BitVec 4) (fn ty mk rnd : BitVec 3) : Body :=
  (Body.mk' h .other [.ma mk, .va va] [.g d] (effFp (!tyInt ty) d fun o =>
    let r := redFinish ty fn.toNat (redNode ty fn.toNat (fmode rnd o) o.ma o.va 0 (tyLog ty))
    (laneG ty r.1, r.2))).heavy
def bodyVscan (h : Hdr) (vd va : BitVec 4) (fn ty mk rnd : BitVec 3) : Body :=
  vecLanes h vd (tyW ty) mk [.va va] none (fun o i =>
    redFinish ty fn.toNat (scanLane ty fn.toNat (fmode rnd o) o.ma o.va i 0 (none, 0) (tyLog ty + 1))) (!tyInt ty)

/-! ## Sort and merge (R373 to R375) -/

/-- Key x comes strictly before key y in ascending order (R373). -/
def keyBefore (ty : BitVec 3) (x y : Nat) : Bool :=
  if tyInt ty then sint x (tyW ty) < sint y (tyW ty)
  else
    let a := decodeF (tyF ty) x
    let b := decodeF (tyF ty) y
    if a.isNan then false else if b.isNan then true else cmpV a b true < 0

/-- The same under the direction of IMM<0>. -/
def keyOrder (ty : BitVec 3) (desc : Bool) (x y : Nat) : Bool := if desc then keyBefore ty y x else keyBefore ty x y

/-- The source lanes in the order of the output: sorted active lanes, then the inactive ones (R374). -/
def sortOrder (ty : BitVec 3) (desc : Bool) (m : Mask) (a : Vec) : List Nat :=
  let w := tyW ty
  sortBy (fun i j => keyOrder ty desc (lane a w i) (lane a w j)) (activeLanes w m) ++
    (span 0 (tyN ty)).filter fun i => !laneOn w m i

/-- The merge of R375: equal keys take the lower run first. -/
def mergeRuns (before : Nat → Nat → Bool) : Nat → List Nat → List Nat → List Nat
  | 0, _, _ => []
  | _ + 1, [], u => u
  | _ + 1, l, [] => l
  | n + 1, x :: l, y :: u =>
    if !before y x then x :: mergeRuns before n l (y :: u) else y :: mergeRuns before n (x :: l) u

def mergeOrder (ty : BitVec 3) (desc : Bool) (m : Mask) (a : Vec) : List Nat :=
  let w := tyW ty
  let act := activeLanes w m
  let before (i j : Nat) : Bool := keyOrder ty desc (lane a w i) (lane a w j)
  mergeRuns before (tyN ty + 1) (act.filter fun i => i < tyN ty / 2) (act.filter fun i => tyN ty / 2 ≤ i) ++
    (span 0 (tyN ty)).filter fun i => !laneOn w m i

/-- Keys to D and values to C in an order of source lanes; both registers fill together (R358). -/
def vecSort (h : Hdr) (vd va vb vc : BitVec 4) (ty mk : BitVec 3) (order : Mask → Vec → List Nat) : Body :=
  (Body.mk' h .other [.ma mk, .va va, .vb vb] [.v vd, .v vc] fun o s =>
    let l := order o.ma o.va
    let w := tyW ty
    .done (s.modMe fun t => t.result none
      [.v vd (ofLanes 512 w (l.map (lane o.va w))), .v vc (ofLanes 512 w (l.map (lane o.vb w)))] 0)).heavy

def bodyVsort (h : Hdr) (vd va vb vc : BitVec 4) (desc : Bool) (ty mk : BitVec 3) : Body :=
  vecSort h vd va vb vc ty mk (sortOrder ty desc)
def bodyVmerge (h : Hdr) (vd va vb vc : BitVec 4) (desc : Bool) (ty mk : BitVec 3) : Body :=
  vecSort h vd va vb vc ty mk (mergeOrder ty desc)

/-! ## BQ blocks in a register (R376 to R378) -/

/-- Element width in bits. -/
def bqW (bq4 : Bool) : Nat := if bq4 then 4 else 8
def bqFmt (b4 : Bool) : Bq := if b4 then bq4 else bq8

/-- The layout of Table 16.8: elements from byte 0, E0 and E1 in bytes 32 and 33. -/
def bqRegister (bq4 : Bool) (e0 e1 : Nat) (codes : List Nat) : Vec :=
  (ofLanes 256 (bqW bq4) codes).setWidth 512 ||| BitVec.ofNat 512 (e0 <<< 256 + e1 <<< 264)

def bodyVpackq (h : Hdr) (vd va vb : BitVec 4) (bq4 : Bool) (mk : BitVec 3) : Body :=
  vecWhole h vd mk [.va va, .vb vb] fun o =>
    let xs := (span 0 32).map fun n =>
      if bit o.ma (n % 16) then some (if n < 16 then lane o.va 32 n else lane o.vb 32 (n - 16)) else none
    let r := (bqFmt bq4).encode xs
    (bqRegister bq4 r.1 r.2.1 r.2.2.1, r.2.2.2)

/-- One element of a block, as an FP32 encoding (R378); the conversion is exact. -/
def bqLane (bq4 : Bool) (a : Vec) (n : Nat) : Nat :=
  (roundV (fmtOf 1) 0 ((bqFmt bq4).decode (lane a 8 32) (lane a 8 33) (lane a (bqW bq4) n))).1

def bodyVunpkq (h : Hdr) (vd va : BitVec 4) (bq4 hi : Bool) (mk : BitVec 3) : Body :=
  vecLanes h vd 32 mk [.va va] (some 2) fun o i => (bqLane bq4 o.va (16 * b2n hi + i), 0)

/-! ## Execution: each instruction issued by itself -/

def execVadd (h : Hdr) (vd va vb : BitVec 4) (ty mk rnd : BitVec 3) (s : State) : Out :=
  .next (issue (.vadd h vd va vb ty mk rnd) (bodyVadd h vd va vb ty mk rnd) s)
def execVsub (h : Hdr) (vd va vb : BitVec 4) (ty mk rnd : BitVec 3) (s : State) : Out :=
  .next (issue (.vsub h vd va vb ty mk rnd) (bodyVsub h vd va vb ty mk rnd) s)
def execVmul (h : Hdr) (vd va vb : BitVec 4) (ty mk rnd : BitVec 3) (s : State) : Out :=
  .next (issue (.vmul h vd va vb ty mk rnd) (bodyVmul h vd va vb ty mk rnd) s)
def execVdiv (h : Hdr) (vd va vb : BitVec 4) (ty mk rnd : BitVec 3) (s : State) : Out :=
  .next (issue (.vdiv h vd va vb ty mk rnd) (bodyVdiv h vd va vb ty mk rnd) s)
def execVfma (h : Hdr) (vd va vb vc : BitVec 4) (ty mk rnd : BitVec 3) (s : State) : Out :=
  .next (issue (.vfma h vd va vb vc ty mk rnd) (bodyVfma h vd va vb vc ty mk rnd) s)
def execVfnma (h : Hdr) (vd va vb vc : BitVec 4) (ty mk rnd : BitVec 3) (s : State) : Out :=
  .next (issue (.vfnma h vd va vb vc ty mk rnd) (bodyVfnma h vd va vb vc ty mk rnd) s)
def execVmin (h : Hdr) (vd va vb : BitVec 4) (ty mk : BitVec 3) (s : State) : Out :=
  .next (issue (.vmin h vd va vb ty mk) (bodyVmin h vd va vb ty mk) s)
def execVmax (h : Hdr) (vd va vb : BitVec 4) (ty mk : BitVec 3) (s : State) : Out :=
  .next (issue (.vmax h vd va vb ty mk) (bodyVmax h vd va vb ty mk) s)
def execVabs (h : Hdr) (vd va : BitVec 4) (ty mk : BitVec 3) (s : State) : Out :=
  .next (issue (.vabs h vd va ty mk) (bodyVabs h vd va ty mk) s)
def execVneg (h : Hdr) (vd va : BitVec 4) (ty mk : BitVec 3) (s : State) : Out :=
  .next (issue (.vneg h vd va ty mk) (bodyVneg h vd va ty mk) s)
def execVand (h : Hdr) (vd va vb : BitVec 4) (ty mk : BitVec 3) (s : State) : Out :=
  .next (issue (.vand h vd va vb ty mk) (bodyVand h vd va vb ty mk) s)
def execVor (h : Hdr) (vd va vb : BitVec 4) (ty mk : BitVec 3) (s : State) : Out :=
  .next (issue (.vor h vd va vb ty mk) (bodyVor h vd va vb ty mk) s)
def execVxor (h : Hdr) (vd va vb : BitVec 4) (ty mk : BitVec 3) (s : State) : Out :=
  .next (issue (.vxor h vd va vb ty mk) (bodyVxor h vd va vb ty mk) s)
def execVshl (h : Hdr) (vd va vb : BitVec 4) (ty mk : BitVec 3) (s : State) : Out :=
  .next (issue (.vshl h vd va vb ty mk) (bodyVshl h vd va vb ty mk) s)
def execVshr (h : Hdr) (vd va vb : BitVec 4) (ty mk : BitVec 3) (s : State) : Out :=
  .next (issue (.vshr h vd va vb ty mk) (bodyVshr h vd va vb ty mk) s)
def execVsar (h : Hdr) (vd va vb : BitVec 4) (ty mk : BitVec 3) (s : State) : Out :=
  .next (issue (.vsar h vd va vb ty mk) (bodyVsar h vd va vb ty mk) s)
def execVsqrt (h : Hdr) (vd va : BitVec 4) (ty mk rnd : BitVec 3) (s : State) : Out :=
  .next (issue (.vsqrt h vd va ty mk rnd) (bodyVsqrt h vd va ty mk rnd) s)
def execVrsq (h : Hdr) (vd va : BitVec 4) (ty mk rnd : BitVec 3) (s : State) : Out :=
  .next (issue (.vrsq h vd va ty mk rnd) (bodyVrsq h vd va ty mk rnd) s)
def execVrcp (h : Hdr) (vd va : BitVec 4) (ty mk rnd : BitVec 3) (s : State) : Out :=
  .next (issue (.vrcp h vd va ty mk rnd) (bodyVrcp h vd va ty mk rnd) s)
def execVexp2 (h : Hdr) (vd va : BitVec 4) (ty mk rnd : BitVec 3) (s : State) : Out :=
  .next (issue (.vexp2 h vd va ty mk rnd) (bodyVexp2 h vd va ty mk rnd) s)
def execVlog2 (h : Hdr) (vd va : BitVec 4) (ty mk rnd : BitVec 3) (s : State) : Out :=
  .next (issue (.vlog2 h vd va ty mk rnd) (bodyVlog2 h vd va ty mk rnd) s)
def execVcmp (h : Hdr) (md : BitVec 3) (va vb : BitVec 4) (ty mk : BitVec 3) (cond : BitVec 4) (s : State) : Out :=
  .next (issue (.vcmp h md va vb ty mk cond) (bodyVcmp h md va vb ty mk cond) s)
def execVcvt (h : Hdr) (vd va : BitVec 4) (st ty mk rnd : BitVec 3) (s : State) : Out :=
  .next (issue (.vcvt h vd va st ty mk rnd) (bodyVcvt h vd va st ty mk rnd) s)
def execVdot (h : Hdr) (vd va vb vc : BitVec 4) (ty mk rnd : BitVec 3) (s : State) : Out :=
  .next (issue (.vdot h vd va vb vc ty mk rnd) (bodyVdot h vd va vb vc ty mk rnd) s)
def execVmov (h : Hdr) (vd va : BitVec 4) (ty mk : BitVec 3) (s : State) : Out :=
  .next (issue (.vmov h vd va ty mk) (bodyVmov h vd va ty mk) s)
def execVsel (h : Hdr) (vd va vb : BitVec 4) (ty mk : BitVec 3) (s : State) : Out :=
  .next (issue (.vsel h vd va vb ty mk) (bodyVsel h vd va vb ty mk) s)
def execVbcast (h : Hdr) (vd : BitVec 4) (a : BitVec 5) (ty mk : BitVec 3) (s : State) : Out :=
  .next (issue (.vbcast h vd a ty mk) (bodyVbcast h vd a ty mk) s)
def execVfill (h : Hdr) (vd : BitVec 4) (ty mk : BitVec 3) (imm : BitVec 48) (s : State) : Out :=
  .next (issue (.vfill h vd ty mk imm) (bodyVfill h vd ty mk imm) s)
def execVext (h : Hdr) (d : BitVec 5) (va : BitVec 4) (lane : BitVec 5) (ty : BitVec 3) (s : State) : Out :=
  .next (issue (.vext h d va lane ty) (bodyVext h d va lane ty) s)
def execVins (h : Hdr) (vd : BitVec 4) (a lane : BitVec 5) (ty : BitVec 3) (s : State) : Out :=
  .next (issue (.vins h vd a lane ty) (bodyVins h vd a lane ty) s)
def execViota (h : Hdr) (vd : BitVec 4) (ty mk : BitVec 3) (s : State) : Out :=
  .next (issue (.viota h vd ty mk) (bodyViota h vd ty mk) s)
def execVcmprs (h : Hdr) (vd va : BitVec 4) (ty mk : BitVec 3) (s : State) : Out :=
  .next (issue (.vcmprs h vd va ty mk) (bodyVcmprs h vd va ty mk) s)
def execVexpnd (h : Hdr) (vd va : BitVec 4) (ty mk : BitVec 3) (s : State) : Out :=
  .next (issue (.vexpnd h vd va ty mk) (bodyVexpnd h vd va ty mk) s)
def execVshuf (h : Hdr) (vd va vb : BitVec 4) (ty mk : BitVec 3) (s : State) : Out :=
  .next (issue (.vshuf h vd va vb ty mk) (bodyVshuf h vd va vb ty mk) s)
def execVlut (h : Hdr) (vd va vb : BitVec 4) (ty mk : BitVec 3) (s : State) : Out :=
  .next (issue (.vlut h vd va vb ty mk) (bodyVlut h vd va vb ty mk) s)
def execVred (h : Hdr) (d : BitVec 5) (va : BitVec 4) (fn ty mk rnd : BitVec 3) (s : State) : Out :=
  .next (issue (.vred h d va fn ty mk rnd) (bodyVred h d va fn ty mk rnd) s)
def execVscan (h : Hdr) (vd va : BitVec 4) (fn ty mk rnd : BitVec 3) (s : State) : Out :=
  .next (issue (.vscan h vd va fn ty mk rnd) (bodyVscan h vd va fn ty mk rnd) s)
def execVsort (h : Hdr) (vd va vb vc : BitVec 4) (desc : Bool) (ty mk : BitVec 3) (s : State) : Out :=
  .next (issue (.vsort h vd va vb vc desc ty mk) (bodyVsort h vd va vb vc desc ty mk) s)
def execVmerge (h : Hdr) (vd va vb vc : BitVec 4) (desc : Bool) (ty mk : BitVec 3) (s : State) : Out :=
  .next (issue (.vmerge h vd va vb vc desc ty mk) (bodyVmerge h vd va vb vc desc ty mk) s)
def execVpackq (h : Hdr) (vd va vb : BitVec 4) (bq4 : Bool) (mk : BitVec 3) (s : State) : Out :=
  .next (issue (.vpackq h vd va vb bq4 mk) (bodyVpackq h vd va vb bq4 mk) s)
def execVunpkq (h : Hdr) (vd va : BitVec 4) (bq4 hi : Bool) (mk : BitVec 3) (s : State) : Out :=
  .next (issue (.vunpkq h vd va bq4 hi mk) (bodyVunpkq h vd va bq4 hi mk) s)

end Sys2Proof.Machine
end

