-- ==== Sys2Proof/Machine/Mask.lean ====
section
/-! DEFINITION. Mask instructions (R379). -/

namespace Sys2Proof.Machine

/-- Bit j of D is bit 2 × mA<j> + mB<j> of the table. -/
def maskLogic (tab : BitVec 4) (a b : Mask) : Mask :=
  ofLanes 16 1 ((span 0 16).map fun j => b2n (bit tab (2 * b2n (bit a j) + b2n (bit b j))))

def bodyMlog (h : Hdr) (md ma mb : BitVec 3) (tab : BitVec 4) : Body :=
  (Body.mk' h .other [.ma ma, .mb mb] [.m md] (effM 1 md fun o => (maskLogic tab o.ma o.mb, 0))).heavy
def bodyMpopc (h : Hdr) (d : BitVec 5) (ma : BitVec 3) : Body :=
  (Body.mk' h .other [.ma ma] [.g d] (effG (some 1) d fun o => (word (popCount o.ma.toNat 16), 0))).heavy
def bodyMget (h : Hdr) (d : BitVec 5) (ma : BitVec 3) : Body :=
  (Body.mk' h .other [.ma ma] [.g d] (effG (some 1) d fun o => (o.ma.setWidth 64, 0))).heavy
def bodyMset (h : Hdr) (md : BitVec 3) (a : BitVec 5) : Body :=
  (Body.mk' h .other [.a a] [.m md] (effM 1 md fun o => (o.a.setWidth 16, 0))).heavy

/-! ## Execution: each instruction issued by itself -/

def execMlog (h : Hdr) (md ma mb : BitVec 3) (tab : BitVec 4) (s : State) : Out :=
  .next (issue (.mlog h md ma mb tab) (bodyMlog h md ma mb tab) s)
def execMpopc (h : Hdr) (d : BitVec 5) (ma : BitVec 3) (s : State) : Out :=
  .next (issue (.mpopc h d ma) (bodyMpopc h d ma) s)
def execMget (h : Hdr) (d : BitVec 5) (ma : BitVec 3) (s : State) : Out :=
  .next (issue (.mget h d ma) (bodyMget h d ma) s)
def execMset (h : Hdr) (md : BitVec 3) (a : BitVec 5) (s : State) : Out :=
  .next (issue (.mset h md a) (bodyMset h md a) s)

end Sys2Proof.Machine
end

