-- ==== Sys2Proof/Machine/Sync.lean ====
section
/-! DEFINITION. Hardware barriers, events, buffer flags, range deques and work items (R405 to R412). -/

namespace Sys2Proof.Machine

/-! ## Hardware barriers (R406) -/

/-- PARAM of an arrival while one is outstanding, with the barrier in TAUX. -/
def outStop (n : BitVec 3) (s : State) : Option Stop := if s.me.out n.toNat then some (paramStop n.toNat) else none

/-- Arrive(b) of the issuing thread. -/
def arrive (s : State) (n : BitVec 3) : State :=
  let b := n.toNat
  let (phase, ap) := match s.myCrew with | some c => ((c.bar b).phase, (c.bar b).ap) | none => (false, 0)
  let s := traceBar s 5 (ap - 1)
  let s := s.modMe fun t => (t.setTstat (16 + b) 1 1).setTstat (24 + b) 1 (b2n phase)
  lowerBar s s.me.ref.crew b

/-- The barrier's phase is still the thread's, or its completion is held. -/
def mustWait (s : State) (n : BitVec 3) : Bool :=
  match s.myCrew with
  | some c => (c.bar n.toNat).phase = s.me.ph n.toNat || (c.bar n.toNat).held
  | none => false

/-- Pass(b). -/
def pass (s : State) (n : BitVec 3) : Eff :=
  if mustWait s n then .hold s .barrier (n.toNat + 1) else .done (s.modMe fun t => t.passBar n.toNat)

def bodyBar (h : Hdr) (n : BitVec 3) : Body :=
  { Body.mk' h .memory [] [] (fun _ s => pass (arrive s n) n) with
    chk := fun _ s => orStop (barred true true s) (outStop n s) }

def bodyBara (h : Hdr) (n : BitVec 3) : Body :=
  { Body.mk' h .memory [] [] (fun _ s => .done (arrive s n)) with
    chk := fun _ s => orStop (barred true false s) (outStop n s) }

def bodyBarw (h : Hdr) (n : BitVec 3) : Body :=
  { Body.mk' h .memory [] [] (fun _ s => if s.me.out n.toNat then pass s n else .done s) with
    chk := fun _ s => barred true true s }

/-! ## Events and buffer flags (R408, R409) -/

/-- Set an event flag of a thread; a thread parked in WEV takes it at its next turn. -/
def setEvent (s : State) (ctx core slot e : Nat) : State :=
  match s.target ctx core slot with
  | none => s
  | some r => match s.ref? r with
    | some t => if t.occ && !t.exited then s.modRef r fun t => t.setTstat (32 + e) 1 1 else s
    | none => s

/-- A crew that is between two rectangles takes the set later (R130). -/
def targetHeld (s : State) (a : Word) : Bool :=
  match s.crewAt s.myCtx (fld a 0 12) with
  | some (n, _) => match s.crew? n with | some c => c.state = .reloc | none => false
  | none => false

def bodySev (h : Hdr) (a : BitVec 5) (e : BitVec 4) : Body :=
  { Body.mk' h .memory [.a a] [] (fun o s =>
      if targetHeld s o.a then .wait s .message 0
      else .done (setEvent s s.myCtx (fld o.a 0 12) (fld o.a 12 3) e.toNat)) with
    chk := fun o s => if targetOk s o.a then none else some (paramStop 0) }

def bodyWev (h : Hdr) (e : BitVec 4) : Body :=
  Body.mk' h .memory [] [] fun _ s =>
    if bit s.me.csr.tstat (32 + e.toNat) then .done (s.modMe fun t => t.setTstat (32 + e.toNat) 1 0) else .wait s .event 0

def bodyBfree (h : Hdr) (e : BitVec 4) : Body :=
  Body.mk' h .memory [] [] fun _ s =>
    .done (s.modCrewCore s.me.ref.crew s.me.ref.lcore fun c => { c with bf := setFld c.bf e.toNat 1 1 })

/-! ## Range deques (R410, R411) -/

/-- A deque's header. -/
structure Deque where
  ent : Word
  cap : Nat
  head : Nat
  tail : Nat
  res : Nat
deriving DecidableEq, Repr

def readDeque (s : State) (pa : Nat) : Deque :=
  let v := s.read 0 pa 64
  ⟨word v, bits v 64 32, bits v 128 32, bits v 160 32, bits v 96 32 + bits v 192 320⟩

/-- Entries in a deque. -/
def Deque.n (q : Deque) : Nat := (q.tail + 2 ^ 32 - q.head) % 2 ^ 32

/-- PA of an entry by its free-running index, the array being at `at_`. -/
def Deque.entry (q : Deque) (at_ k : Nat) : Nat := at_ + 8 * (k % 2 ^ 32 % q.cap)

def rLo (t : Nat) : Nat := bits t 0 32
def rHi (t : Nat) : Nat := bits t 32 32
def rLen (t : Nat) : Nat := rHi t - rLo t
def range (lo hi : Nat) : Nat := hi % 2 ^ 32 * 2 ^ 32 + lo % 2 ^ 32

/-- What one deque instruction does: the result, new head and tail, the entries written, and those read, by index. -/
structure DqOp where
  d : Nat
  head : Nat
  tail : Nat
  wr : List (Nat × Nat)
  rd : List Nat
deriving DecidableEq, Repr

/-- The operations of R411 on a header, with the entry reader. -/
def dqPush (q : Deque) (_ : Nat → Nat) (b : Nat) : DqOp :=
  if rLo b ≥ rHi b then ⟨1, q.head, q.tail, [], []⟩
  else if q.n = q.cap then ⟨0, q.head, q.tail, [], []⟩
  else ⟨1, q.head, (q.tail + 1) % 2 ^ 32, [(q.tail, b)], []⟩

def dqPop (q : Deque) (e : Nat → Nat) (b : Nat) : DqOp :=
  let last := (q.tail + 2 ^ 32 - 1) % 2 ^ 32
  let c := rLo b
  if q.n = 0 then ⟨0, q.head, q.tail, [], []⟩
  else
    let t := e last
    if c = 0 || rLen t ≤ c then ⟨t, q.head, last, [], [last]⟩
    else ⟨range (rLo t) (rLo t + c), q.head, q.tail, [(last, range (rLo t + c) (rHi t))], [last]⟩

def dqSplit (q : Deque) (e : Nat → Nat) (b : Nat) : DqOp :=
  let last := (q.tail + 2 ^ 32 - 1) % 2 ^ 32
  if q.n = 0 || q.n = q.cap then ⟨0, q.head, q.tail, [], []⟩
  else
    let t := e last
    if rLen t < 2 * max (rLo b) 1 then ⟨0, q.head, q.tail, [], [last]⟩
    else
      let m := rLo t + rLen t / 2
      ⟨1, q.head, (q.tail + 1) % 2 ^ 32, [(last, range (rLo t) m), (q.tail, range m (rHi t))], [last]⟩

def dqSteal (q : Deque) (e : Nat → Nat) (b : Nat) : DqOp :=
  let c := rLo b
  if q.n = 0 then ⟨0, q.head, q.tail, [], []⟩
  else
    let t := e q.head
    if c ≠ 0 && c < rLen t then
      let m := rLo t + rLen t / 2
      ⟨range m (rHi t), q.head, q.tail, [(q.head, range (rLo t) m)], [q.head]⟩
    else ⟨t, (q.head + 1) % 2 ^ 32, q.tail, [], [q.head]⟩

/-- The scratchpad core of a PA. -/
def spmCore (pa : Nat) : Option Nat := match kindOf pa with | .spm c _ => some c | _ => none

/-- The PA of the entry array: in a scratchpad window that names the header's core, inside that scratchpad, and clear of the
header; none is PARAM. -/
def dequeArray (s : State) (q : Deque) (pa : Nat) : Option Nat :=
  if q.ent.toNat >>> 32 ≠ 0xFFFFFFFF || !inWindow (q.ent.toNat % 2 ^ 32) then none
  else match scratch s s.curCore s.myCtx (q.ent.toNat % 2 ^ 32) .write with
    | .ok x =>
      if spmCore x.pa ≠ spmCore pa || x.pa % 0x40000 + 8 * q.cap > 0x40000 then none
      else if x.pa < pa + 64 && pa < x.pa + 8 * q.cap then none
      else some x.pa
    | _ => none

/-- A deque's rules (R410). -/
def Deque.ok (q : Deque) : Bool := 1 ≤ q.cap && q.cap ≤ 32768 && q.n ≤ q.cap && q.res = 0

/-- The address of an entry. -/
def Deque.entryVA (q : Deque) (k : Nat) : Word := q.ent + word (8 * (k % q.cap))

/-- One deque instruction: one indivisible access at the bank, with the alignment of R381 and HoldCheck on every entry touched as on the
header. -/
def dequeEff (d : BitVec 5) (imm : BitVec 48) (f : Deque → (Nat → Nat) → Nat → DqOp) (o : Ops) (s : State) : Eff :=
  let va := o.a + imm48 imm
  loading s d fun s => access s va 64 .write true fun s x =>
    if (spmCore x.pa).isNone then .trap s PARAM 0 0
    else
      let q := readDeque s x.pa
      if !q.ok then .trap s PARAM 0 0
      else match dequeArray s q x.pa with
        | none => .trap s PARAM 0 0
        | some at_ =>
          let e (k : Nat) : Nat := s.read 0 (q.entry at_ k) 8
          let r := f q e o.b.toNat
          let touched := r.rd ++ r.wr.map (·.1)
          match touched.find? fun k => (q.entryVA k).toNat % 8 ≠ 0 with
          | some k => .trap s MISALIGN (q.entryVA k) 0
          | none =>
          match touched.findSome? fun k => (holdHit s (q.entry at_ k) 8 .write).map fun h => (k, h) with
          | some (k, h) => .trap s RHLD (q.entryVA k) (word (rhldAux h false))
          | none =>
            let s := r.wr.foldl (fun s w => s.write (q.entry at_ w.1) 8 w.2) s
            let s := s.write (x.pa + 16) 8 (r.head + r.tail * 2 ^ 32)
            giveLoaded s d (word r.d) 0

def dequeBody (h : Hdr) (d a b : BitVec 5) (imm : BitVec 48) (f : Deque → (Nat → Nat) → Nat → DqOp) : Body :=
  Body.mk' h .memory [.a a, .b b] [.g d] (dequeEff d imm f)

def bodyDqpush (h : Hdr) (d a b : BitVec 5) (imm : BitVec 48) : Body := dequeBody h d a b imm dqPush
def bodyDqpop (h : Hdr) (d a b : BitVec 5) (imm : BitVec 48) : Body := dequeBody h d a b imm dqPop
def bodyDqspl (h : Hdr) (d a b : BitVec 5) (imm : BitVec 48) : Body := dequeBody h d a b imm dqSplit
def bodyDqstl (h : Hdr) (d a b : BitVec 5) (imm : BitVec 48) : Body := dequeBody h d a b imm dqSteal

/-! ## Work items (R412) -/

/-- PARAM at issue: no such queue, another producer, or the token has been accepted (TAUX the queue index). -/
def itemStop (o : Ops) (s : State) : Option Stop :=
  if !(o.a.toNat < 65536 && gqMine s s.myGraph o.a.toNat) then some (paramStop 0)
  else match s.gqueue? s.myGraph o.a.toNat with
    | some q => if q.eos then some (paramStop o.a.toNat) else none
    | none => some (paramStop 0)

/-- The item's words: g0 upward, as many as the queue's item length. -/
def itemRegs (o : Ops) (s : State) : List Nat :=
  match s.gqueue? s.myGraph o.a.toNat with | some q => span 0 q.len | none => []

def itemEff (o : Ops) (s : State) : Eff :=
  let gid := s.myGraph
  let q := o.a.toNat
  match s.gqueue? gid q with
  | none => .trap s PARAM 0 0
  | some x =>
    if x.eos then .trap s PARAM 0 (word q)
    else if s.gqFull gid q || someoneFirst s (keyItem gid q) then .wait s .message (keyItem gid q)
    else .done (gqPush s gid q o.item)

def bodyItem (h : Hdr) (a : BitVec 5) : Body :=
  { Body.mk' h .memory [.a a] [] itemEff with
    fill := fun o s => { o with item := (itemRegs o s).map s.me.getG }
    chk := fun o s => orStop (itemStop o s) (firstStop s.me.gStop (itemRegs o s)) }

def bodyItemEos (h : Hdr) (a : BitVec 5) : Body :=
  { Body.mk' h .memory [.a a] [] (fun o s => .done (gqEos s s.myGraph o.a.toNat)) with chk := itemStop }

/-! ## Execution: each instruction issued by itself -/

def execBar (h : Hdr) (n : BitVec 3) (s : State) : Out := .next (issue (.bar h n) (bodyBar h n) s)
def execBara (h : Hdr) (n : BitVec 3) (s : State) : Out := .next (issue (.bara h n) (bodyBara h n) s)
def execBarw (h : Hdr) (n : BitVec 3) (s : State) : Out := .next (issue (.barw h n) (bodyBarw h n) s)
def execSev (h : Hdr) (a : BitVec 5) (e : BitVec 4) (s : State) : Out := .next (issue (.sev h a e) (bodySev h a e) s)
def execWev (h : Hdr) (e : BitVec 4) (s : State) : Out := .next (issue (.wev h e) (bodyWev h e) s)
def execBfree (h : Hdr) (e : BitVec 4) (s : State) : Out := .next (issue (.bfree h e) (bodyBfree h e) s)
def execDqpush (h : Hdr) (d a b : BitVec 5) (imm : BitVec 48) (s : State) : Out :=
  .next (issue (.dqpush h d a b imm) (bodyDqpush h d a b imm) s)
def execDqpop (h : Hdr) (d a b : BitVec 5) (imm : BitVec 48) (s : State) : Out :=
  .next (issue (.dqpop h d a b imm) (bodyDqpop h d a b imm) s)
def execDqspl (h : Hdr) (d a b : BitVec 5) (imm : BitVec 48) (s : State) : Out :=
  .next (issue (.dqspl h d a b imm) (bodyDqspl h d a b imm) s)
def execDqstl (h : Hdr) (d a b : BitVec 5) (imm : BitVec 48) (s : State) : Out :=
  .next (issue (.dqstl h d a b imm) (bodyDqstl h d a b imm) s)
def execItem (h : Hdr) (a : BitVec 5) (s : State) : Out := .next (issue (.item h a) (bodyItem h a) s)
def execItemEos (h : Hdr) (a : BitVec 5) (s : State) : Out := .next (issue (.itemEos h a) (bodyItemEos h a) s)

end Sys2Proof.Machine
end

