-- ==== Sys2Proof/Machine/System.lean ====
section
/-! DEFINITION. Control registers, traps and returns, and the instructions that act beyond the thread (R442 to R457). -/

namespace Sys2Proof.Machine

/-! ## Control registers (R442, Tables 19.1 to 19.8) -/

/-- The value of a CSR for the issuing thread. -/
def csrRead (s : State) (n : Nat) : Word :=
  let t := s.me
  let c := t.csr
  match n with
  | 0x000 => c.tstat | 0x001 => c.tpc | 0x002 => c.tcause | 0x003 => c.taddr | 0x004 => c.taux | 0x005 => c.tnest
  | 0x006 => c.tvec | 0x007 => c.uvec | 0x008 => c.nvec | 0x009 => c.tdlg | 0x00A => c.fcsr | 0x00B => c.ebud
  | 0x00C => c.eref | 0x00D => c.ecap | 0x00E => c.ecost | 0x00F => c.lpr | 0x010 => c.sndtmo | 0x011 => c.pactmo
  | 0x100 => (s.core s.curCore).sleepd
  | 0x101 => match s.myCrew with | some x => word (t.ref.lcore % x.w + t.ref.lcore / x.w * 256) | none => 0
  | 0x102 => word s.curCore
  | 0x103 => word (s.devtime % 32000 / 500 + s.devtime % 32000 * 2 ^ 16)
  | 0x104 => word (((span 0 24).filter fun e => (Tbl.find s.closet (s.curCore * 24 + e)).isSome).map (2 ^ ·)).sum
  | _ => 0

/-- New value of a register of which only the bits of a mask are written. -/
def maskWrite (old new mask : Word) : Word := (old &&& ~~~mask) ||| (new &&& mask)

/-- The caps of R142: a balance above ECAP.CAP is stored as ECAP.CAP. -/
def capBal (bal cap : Word) : Word := word (min (fld bal 0 40) (fld cap 0 40))

/-- Write a CSR under the field access of its map. -/
def csrWrite (s : State) (n : Nat) (v : Word) : State :=
  let put (f : Csrs → Csrs) : State := s.modMe fun t => { t with csr := f t.csr }
  match n with
  | 0x000 => put fun c => { c with tstat := maskWrite c.tstat v (if bit c.tstat 0 then 0x2A else 0x28) }
  | 0x001 => put fun c => { c with tpc := v }
  | 0x002 => put fun c => { c with tcause := v &&& 0x1FF }
  | 0x003 => put fun c => { c with taddr := v }
  | 0x004 => put fun c => { c with taux := v }
  | 0x005 => put fun c => { c with tnest := v &&& 1 }
  | 0x006 => put fun c => { c with tvec := v &&& vecMask }
  | 0x007 => put fun c => { c with uvec := v &&& vecMask }
  | 0x008 => put fun c => { c with nvec := v &&& vecMask }
  | 0x009 => put fun c => { c with tdlg := v &&& dlgMask }
  | 0x00A => put fun c => { c with fcsr := v &&& 0x7F }
  | 0x00B => put fun c => { c with ebud := capBal v c.ecap }
  | 0x00C => put fun c => { c with eref := v &&& 0xFFFFFF }
  | 0x00D => put fun c => { c with ecap := v &&& 0xFFFFFFFFFF, ebud := capBal c.ebud v }
  | 0x00E => put fun c => { c with ecost := v }
  | 0x010 => s.modMe fun t => { t.holdTmo s.devtime with csr := { t.csr with sndtmo := v &&& 0xFFFFF } }
  | 0x011 => s.modMe fun t => { t.holdTmo s.devtime with csr := { t.csr with pactmo := v &&& 0xFFFFF } }
  | 0x100 => s.modCore s.curCore fun c => { c with sleepd := v &&& 3 }
  | _ => s

/-- ILLOP of a CSR number (R442), and PRIV with the number. -/
def csrIll (s : State) : Stop := .trap 3 ILLOP s.me.pc 2 none
def csrPriv (n : BitVec 12) : Stop := .trap 4 PRIV 0 (n.setWidth 64) none

/-- Who may access a CSR: numbers that no access reaches at U, that no write reaches, and that a write reaches at S only. -/
def csrHidden (n : BitVec 12) : Bool := n = 0x006 || n = 0x102 || n = 0x104
def csrConst (n : BitVec 12) : Bool := n = 0x00F || n = 0x101 || n = 0x102 || n = 0x103 || n = 0x104
def csrSupW (n : BitVec 12) : Bool := n = 0x00B || n = 0x00C || n = 0x00D || n = 0x00E || n = 0x100

/-- The checks of an access by number and privilege. -/
def csrStop (n : BitVec 12) (wr : Bool) (s : State) : Option Stop :=
  let user := s.me.user
  if !csrAssigned n then some (csrIll s)
  else if user && csrHidden n then some (csrPriv n)
  else if wr && csrConst n then some (csrIll s)
  else if wr && user && csrSupW n then some (csrPriv n)
  else none

/-- An access to FCSR waits for the thread's asynchronous floating-point results (R443). -/
def fcsrWait (n : BitVec 12) (s : State) : Option Stop :=
  if n = 0x00A && s.me.pend.any (fun p => p.left.isNone && p.fp) then some (.park .reg 0) else none

/-- A CSR instruction. -/
def csrBody (h : Hdr) (n : BitVec 12) (wr light : Bool) (srcs : List Src) (dsts : List Dst) (eff : Ops → State → Eff) : Body :=
  { Body.mk' h .system srcs dsts eff with
    light := light
    priv := csrStop n wr
    chk := fun _ s => fcsrWait n s }

/-- A light thread names D of CSRR in g0–g9 only (R443). -/
def csrLight (d : BitVec 5) (s : State) : Option Stop :=
  if s.me.light && 10 ≤ d.toNat then some (.trap 5 LIGHTREG s.me.pc (word d.toNat) none) else none

def bodyCsrr (h : Hdr) (d : BitVec 5) (n : BitVec 12) : Body :=
  { csrBody h n false true [] [.g d] (fun o s => effG (some 1) d (fun _ => (csrRead s n.toNat, 0)) o s) with
    priv := fun s => orStop (csrStop n false s) (csrLight d s) }

def bodyCsrw (h : Hdr) (a : BitVec 5) (n : BitVec 12) : Body :=
  csrBody h n true false [.a a] [] fun o s => .done (csrWrite s n.toNat o.a)

/-- CSRSC: D receives the old value, and then the CSR the old one with bits set or cleared. -/
def csrscEff (d : BitVec 5) (n : BitVec 12) (f : Word → Word → Word) (o : Ops) (s : State) : Eff :=
  match giveWait s d with
  | some (why, key) => .wait s why key
  | none =>
    let old := csrRead s n.toNat
    .done (giveG (csrWrite s n.toNat (f old o.a)) (some 1) d old 0)

def bodyCsrscSet (h : Hdr) (d a : BitVec 5) (n : BitVec 12) : Body :=
  csrBody h n true false [.a a] [.g d] (csrscEff d n fun old a => old ||| a)
def bodyCsrscClr (h : Hdr) (d a : BitVec 5) (n : BitVec 12) : Body :=
  csrBody h n true false [.a a] [.g d] (csrscEff d n fun old a => old &&& ~~~a)

/-! ## Traps and returns (R444 to R446) -/

def TRAPI : Nat := 0x14
def SYSC : Nat := 0x15

def bodyTrap (h : Hdr) (n : BitVec 12) : Body :=
  { Body.mk' h .system [] [] (fun _ s => .trapNext s TRAPI (n.setWidth 64)) with solo := true }
def bodySysc (h : Hdr) (n : BitVec 12) : Body :=
  { Body.mk' h .system [] [] (fun _ s => .trapNext s SYSC (n.setWidth 64)) with solo := true }

/-- R445. The refusal at U with a saved S is an issue check. (DEDUCED, log entry 60.) -/
def bodyRft (h : Hdr) : Body :=
  { Body.mk' h .system [] [] (fun _ s => .jump (s.modMe Thread.returnTrap) s.me.csr.tpc none) with
    solo := true
    light := false
    chk := fun _ s => if s.me.user && bit s.me.csr.tstat 1 then some (.trap 9 PRIV 0 0 none) else none }

/-- R173, R446: y0, which NRET awaits as any source (R153), is a checked target, and notify mode is left. -/
def bodyNret (h : Hdr) : Body :=
  { Body.mk' h .system [] [] (fun _ s => branchTo s (vget s.me.y 0 0) fun s => s.modMe fun t => { t with notify := false }) with
    solo := true
    chk := fun _ s => if s.me.notify then s.me.gStop 10 else some (paramStop 0) }

/-! ## Features, translations, traces and tables (R449 to R452) -/

/-- The FEAT words (Table 3.6): two words are defined, the generation is 1, and every feature is present. -/
def featWord (n : Nat) : Word := if n = 0 then 0x201 else if n = 1 then 0xFFF else 0

def bodyFeat (h : Hdr) (d : BitVec 5) (n : BitVec 8) : Body :=
  Body.mk' h .system [] [.g d] fun o s => effG (some 1) d (fun _ => (featWord n.toNat, 0)) o s

/-- PRIV for an S-only opcode at U (R305). -/
def supervisorOnly (s : State) : Option Stop := if s.me.user then some (.trap 4 PRIV 0 0 none) else none

/-- The engines' operations translate again after a TLBI (R180), and those that a saved crew keeps, when they go on. -/
def CopyCmd.redo (k : CopyCmd) : CopyCmd := { k with retrans := true }
def Press.again (p : Press) : Press := { p with queue := p.queue.map fun q => { q with retrans := true } }
def Thread.again (t : Thread) : Thread := { t with streams := t.streams.map fun b => if b.bound then { b with retrans := true } else b }
def CrewSave.again (v : CrewSave) : CrewSave :=
  { v with
    copies := v.copies.map CopyCmd.redo, presses := v.presses.map fun e => (e.1, e.2.again)
    threads := v.threads.map fun e => (e.1, e.2.again) }
def Crew.again (c : Crew) : Crew := { c with saved := c.saved.map CrewSave.again }
def Ctx.again (c : Ctx) : Ctx :=
  { c with snap := c.snap.map fun p => { p with crews := p.crews.map fun e => (e.1, e.2.again) } }

/-- Remove translations of an ASID, or only those that cover an address; engine operations in flight, and those that a saved crew or a seal's snapshot keeps, translate again
(R179, R180). -/
def flushTlb (s : State) (asid : Nat) (va : Option Word) : State :=
  let keep (e : TlbEntry) : Bool :=
    e.asid ≠ asid || (match va with | some v => !(e.va ≤ v.toNat && v.toNat < e.va + e.size) | none => false)
  { s with
    hub := { s.hub with
      copies := s.hub.copies.map fun k => { k with retrans := true }, loads := s.hub.loads.map fun k => { k with retrans := true } }
    cores := s.cores.filterMap fun e =>
      let c := { e.2 with tlb := e.2.tlb.filter keep }
      if c = State.core0 then none else some (e.1, c)
    vats := s.vats.filterMap fun e =>
      let v := { e.2 with tlb := e.2.tlb.filter keep, copies := e.2.copies.map CopyCmd.redo }
      if v = State.vat0 then none else some (e.1, v)
    presses := s.presses.map fun e => (e.1, e.2.again)
    threads := s.threads.map fun e => (e.1, e.2.again)
    closet := s.closet.map fun e => (e.1, { e.2 with th := e.2.th.again })
    crews := s.crews.map fun e => (e.1, e.2.again)
    ctxs := s.ctxs.map fun e => (e.1, e.2.again) }

/-- The issuing thread has begun to wait for this instruction's completion at an earlier turn. -/
def State.waited (s : State) : Bool := match s.me.park with | some p => p.why = .system && !p.resume.isEmpty | none => false

/-- The park of TLBI, until a later moment at which it completes. -/
def tlbiEff (va : Option Word) (o : Ops) (s : State) : Eff :=
  if s.waited then .done (flushTlb s (fld o.a 0 16) va) else .wait s .system 0

def bodyTlbi (h : Hdr) (a : BitVec 5) : Body :=
  { Body.mk' h .system [.a a] [] (tlbiEff none) with
    light := false
    priv := supervisorOnly
    chk := fun o _ => if o.a.toNat < 65536 then none else some (paramStop 0) }

def bodyTlbiOne (h : Hdr) (a b : BitVec 5) : Body :=
  { Body.mk' h .system [.a a, .b b] [] (fun o s => tlbiEff (some o.b) o s) with
    light := false
    priv := supervisorOnly
    chk := fun o _ => if o.a.toNat < 65536 && canonicalVA o.b then none else some (paramStop 0) }

def bodyTrc (h : Hdr) (a : BitVec 5) (tag : BitVec 16) : Body :=
  Body.mk' h .system [.a a] [] fun o s => .done (traceMe s 7 tag.toNat (fld o.a 0 32))

def bodyLutld (h : Hdr) (a : BitVec 5) : Body :=
  { Body.mk' h .system [.a a] [] (fun o s =>
      access s o.a 16 .read false fun s x =>
        let v : BitVec 128 := BitVec.ofNat 128 (rdX s x 16)
        .done (s.modCrewCore s.me.ref.crew s.me.ref.lcore fun c => { c with t4 := v })) with
    light := false
    chk := fun o _ => if o.a.toNat % 16 = 0 && inOwn o.a 16 then none else some (paramStop 0) }

/-! ## CTXSW (R453, R169) -/

/-- The physical slot whose context a thread context is, on its core. -/
def homeSlot (s : State) (t : Thread) : Nat :=
  if t.ref.lslot = 7 then 7 else (s.crewCore t.ref.crew t.ref.lcore).slots.getD t.ref.lslot t.ref.lslot

/-- A closet entry of a core. -/
def State.closetAt (s : State) (core e : Nat) : Option ClosetEntry := Tbl.find s.closet (core * 24 + e)

/-- Write a closet entry to its crew's save block, where the closet is full (R124, R169). -/
def spillCloset (s : State) (core e : Nat) : State :=
  match s.closetAt core e with
  | none => s
  | some x =>
    let r := x.th.ref
    let s := { s with closet := Tbl.del s.closet (core * 24 + e) }
    match s.crew? r.crew with
    | none => s
    | some c =>
      let sv := c.saved.getD ⟨[], [], [], [], [], [], false, []⟩
      let s := s.modCrew r.crew fun c =>
        { c with saved := some { sv with threads := Tbl.ins sv.threads (r.lcore * 8 + r.lslot) x.th } }
      s.setBytes (saveBlockPA s c + 64 + 286720 * r.lcore + 2048 * r.lslot) x.th.bytes

/-- The entry that the core chooses for a slot: one with a context of the slot, a free one, or the least recently used. -/
def chooseEntry (s : State) (core slot : Nat) : Nat :=
  match (span 0 24).find? fun e => match s.closetAt core e with | some x => homeSlot s x.th = slot | none => false with
  | some e => e
  | none =>
    match (span 0 24).find? fun e => (s.closetAt core e).isNone with
    | some e => e
    | none =>
      let used (e : Nat) : Nat := match s.closetAt core e with | some x => x.used | none => 0
      (span 0 24).foldl (fun b e => if used e < used b then e else b) 0

/-- A slot whose thread has gone to the closet: vacant, its record as it was (R168); slot 7 is no crew's own. (DEDUCED, log entry 62.) -/
def Thread.vacate (t : Thread) : Thread :=
  { t with ref := if t.ref.lslot < 7 then t.ref else ⟨0, 0, 0⟩
           occ := false, park := none, line := none, timer := 0, skip := 0, joined := [], nq := [], inq := []
           outBuf := none, atraps := [], atrapsHeld := [], halted := false, haltOwn := false, steps := 0 }

/-- Exchange a slot and a closet entry of a core (the four rows of R453). -/
def swapCloset (s : State) (core slot e : Nat) : State :=
  let cur := s.thread core slot
  let key := core * 24 + e
  let ent := Tbl.find s.closet key
  let (now, s) := s.fresh
  let s := if cur.occ then { s with closet := Tbl.ins s.closet key ⟨{ cur with line := none }, now⟩ }
    else { s with closet := Tbl.del s.closet key }
  match ent with
  | some x => s.setThread core slot { x.th with line := none }
  | none => if cur.occ then s.setThread core slot cur.vacate else s

/-- The limits of R453. -/
def ctxswOk (o : Ops) (s : State) : Bool :=
  o.a.toNat < 8 && fld o.b 5 58 = 0 && o.a.toNat ≠ s.curSlot &&
  (bit o.b 63 || (fld o.b 0 5 < 24 &&
    (match s.closetAt s.curCore (fld o.b 0 5) with | some x => homeSlot s x.th = o.a.toNat | none => true)))

/-- A swap of a slot and a closet entry of a core must wait: one of them is under a fence (R85, code 3), or the core's register files are
at retention voltage (R145). -/
def swapWaits (s : State) (core slot e : Nat) : Bool :=
  s.mgmt.fences.contains (3 * 2 ^ 32 + core * 32 + slot) || s.mgmt.fences.contains (3 * 2 ^ 32 + core * 32 + 8 + e) || s.retained core 2

/-- The entry of a CTXSW. -/
def ctxswEntry (o : Ops) (s : State) : Nat := if bit o.b 63 then chooseEntry s s.curCore (fld o.a 0 3) else fld o.b 0 5

/-- The swap, once the slot's results have been written. A named entry that has come to hold another slot's context meanwhile traps
(R453). -/
def ctxswEff (o : Ops) (s : State) : Eff :=
  let slot := fld o.a 0 3
  let cur := s.thread s.curCore slot
  let e := ctxswEntry o s
  if !ctxswOk o s then .trap s PARAM 0 0
  else if (cur.occ && !cur.pend.isEmpty) || swapWaits s s.curCore slot e then .wait s .system 0
  else
    let s := match s.closetAt s.curCore e with
      | some x => if homeSlot s x.th = slot then s else spillCloset s s.curCore e
      | none => s
    .done (swapCloset s s.curCore slot e)

def bodyCtxsw (h : Hdr) (a b : BitVec 5) : Body :=
  { Body.mk' h .system [.a a, .b b] [] ctxswEff with
    solo := true
    light := false
    priv := supervisorOnly
    chk := fun o s => if ctxswOk o s then none else some (paramStop 0) }

/-! ## CKPT, HALT, FENCEO (R454 to R456) -/

/-- The open interval of the issuing thread's context is remembered at issue. -/
def takeInterval (o : Ops) (s : State) : Ops :=
  { o with item := [match s.ctx? s.myCtx with | some c => word c.interval | none => 0] }

/-- The interval that was open at issue has not sealed yet. -/
def unsealed (o : Ops) (s : State) : Bool :=
  match s.ctx? s.myCtx with | some c => c.ckpt && [word c.interval] = o.item | none => false

/-- R454: the interval closes, and the thread waits for the seal. -/
def bodyCkpt (h : Hdr) : Body :=
  { Body.mk' h .system [] [] (fun o s => if unsealed o s then .wait (s.wantSeal s.myCtx) .system 0 else .done s) with
    solo := true
    light := false
    fill := takeInterval }

/-- HALT halts the issuing thread alone, as a debug halt (R98): its vat's DBGCTL.HALTED is set and the black box told. -/
def haltMe (s : State) : State :=
  let v := vatOf s.curCore
  ((s.modMe fun t => { t with halted := true, haltOwn := true }).modVat v fun x => { x with dbgctl := x.dbgctl ||| 1 }).blackbox 0x0E v v

/-- R455. -/
def bodyHalt (h : Hdr) : Body :=
  { Body.mk' h .system [] [] (fun _ s => .done (if s.mgmt.dbgen then haltMe s else s)) with
    solo := true
    light := false
    priv := supervisorOnly }

/-- A copy of the thread to host memory, or a remote atomic add of it, is in progress. Of a copy to another package it is not known here
whether it reaches host memory: it counts (DESIGN CHOICE, log entry 94). -/
def copiesOut (s : State) (r : TRef) : Bool :=
  s.vats.any fun v => v.2.copies.any fun c => c.issuer = r &&
    (fld c.rcd 181 2 = 1 ||
      let d := (sext (fld c.rcd 48 48) 48).toNat
      let n := fld c.rcd 96 32 * (if c.kind = 2 then 2 ^ fld c.rcd 185 3 else 1)
      if bit c.rcd 180 && c.kind = 0 then
        !c.route.own || (span (d / 4096) ((d + n - 1) / 4096 + 1 - d / 4096)).any fun p =>
          match (translate s s.curCore s.myCtx c.user false (word (p * 4096)) .write).2 with
          | .ok x => hostBit ≤ x.pa
          | _ => false
      else c.kind ≠ 1 && c.pages.any fun p => d / 4096 ≤ p.1 && p.1 ≤ (d + n - 1) / 4096 && hostBit ≤ p.2.1 * 4096)

/-- R456: the seal, where there is one, and then the acknowledgements. -/
def bodyFenceo (h : Hdr) : Body :=
  { Body.mk' h .system [] [] (fun o s =>
      if unsealed o s then .wait (s.wantSeal s.myCtx) .system 0
      else if s.me.unacked ≠ 0 || copiesOut s s.me.ref then .wait s .system 0
      else .done s) with
    light := false
    fill := takeInterval }

/-! ## Execution: each instruction issued by itself -/

def execCsrr (h : Hdr) (d : BitVec 5) (n : BitVec 12) (s : State) : Out :=
  .next (issue (.csrr h d n) (bodyCsrr h d n) s)
def execCsrw (h : Hdr) (a : BitVec 5) (n : BitVec 12) (s : State) : Out :=
  .next (issue (.csrw h a n) (bodyCsrw h a n) s)
def execCsrscSet (h : Hdr) (d a : BitVec 5) (n : BitVec 12) (s : State) : Out :=
  .next (issue (.csrscSet h d a n) (bodyCsrscSet h d a n) s)
def execCsrscClr (h : Hdr) (d a : BitVec 5) (n : BitVec 12) (s : State) : Out :=
  .next (issue (.csrscClr h d a n) (bodyCsrscClr h d a n) s)
def execTrap (h : Hdr) (n : BitVec 12) (s : State) : Out := .next (issue (.trap h n) (bodyTrap h n) s)
def execSysc (h : Hdr) (n : BitVec 12) (s : State) : Out := .next (issue (.sysc h n) (bodySysc h n) s)
def execRft (h : Hdr) (s : State) : Out := .next (issue (.rft h) (bodyRft h) s)
def execNret (h : Hdr) (s : State) : Out := .next (issue (.nret h) (bodyNret h) s)
def execFeat (h : Hdr) (d : BitVec 5) (n : BitVec 8) (s : State) : Out := .next (issue (.feat h d n) (bodyFeat h d n) s)
def execTlbi (h : Hdr) (a : BitVec 5) (s : State) : Out := .next (issue (.tlbi h a) (bodyTlbi h a) s)
def execTlbiOne (h : Hdr) (a b : BitVec 5) (s : State) : Out := .next (issue (.tlbiOne h a b) (bodyTlbiOne h a b) s)
def execTrc (h : Hdr) (a : BitVec 5) (tag : BitVec 16) (s : State) : Out :=
  .next (issue (.trc h a tag) (bodyTrc h a tag) s)
def execLutld (h : Hdr) (a : BitVec 5) (s : State) : Out := .next (issue (.lutld h a) (bodyLutld h a) s)
def execCtxsw (h : Hdr) (a b : BitVec 5) (s : State) : Out := .next (issue (.ctxsw h a b) (bodyCtxsw h a b) s)
def execCkpt (h : Hdr) (s : State) : Out := .next (issue (.ckpt h) (bodyCkpt h) s)
def execHalt (h : Hdr) (s : State) : Out := .next (issue (.halt h) (bodyHalt h) s)
def execFenceo (h : Hdr) (s : State) : Out := .next (issue (.fenceo h) (bodyFenceo h) s)


end Sys2Proof.Machine
end

