-- ==== Sys2Proof/Machine/Tbar.lean ====
section
/-! DEFINITION. Transaction-barrier instructions (R438 to R441). -/

namespace Sys2Proof.Machine

/-- The access of a barrier instruction at the barrier's bank (R438): HoldCheck as for an atomic, and PARAM where the reserved
bits are not zero, which TBINIT does not ask. -/
def tbAccess (s : State) (va : Word) (init : Bool) (k : State → Nat → Nat → Eff) : Eff :=
  access s va 16 .write (!init) fun s x =>
    let b := s.read 0 x.pa 16
    if !init && tbReserved b ≠ 0 then .trap s PARAM 0 0 else k s x.pa b

/-- A barrier instruction: R211's address rule, and the bits of b that must be zero from `top` up. -/
def tbBody (h : Hdr) (srcs : List Src) (dsts : List Dst) (top : Nat) (eff : Ops → State → Eff) : Body :=
  { Body.mk' h .copy srcs dsts eff with
    light := false
    chk := fun o s => if (barPA s s.curCore s.myCtx o.a).isSome && o.b.toNat < 2 ^ top then none else some (paramStop 0) }

/-- A thread's update is held, in its order, where the barrier's crew has no rectangle, and while updates held before it have still to
be made (R216). -/
def heldHere (s : State) (va : Word) : Option Nat :=
  match windowCrew s s.myCtx va, barPA s s.curCore s.myCtx va with
  | some n, some (.inr _) => some n
  | some n, _ => if barTurn s n (.thread s.me.ref) then none else some n
  | none, _ => none

/-- An instruction that has its effect or traps is no longer held. -/
def Eff.madeBar : Eff → Eff
  | .done s => .done (s.madeBar (.thread s.me.ref))
  | .trap s cause va aux => .trap (s.madeBar (.thread s.me.ref)) cause va aux
  | e => e

/-- An instruction that writes a barrier, in the order of those held (R216). -/
def tbInTurn (va : Word) (eff : State → Eff) (s : State) : Eff :=
  match heldHere s va with
  | some k => .wait (s.holdBar k (.thread s.me.ref)) .memory barKey
  | none => (eff s).madeBar

/-- An update, or PARAM with the code of its refusal. (DEDUCED, log entry 61.) -/
def tbUpdate (arr : Bool) (n : Nat) (va : Word) : State → Eff :=
  tbInTurn va fun s => tbAccess s va false fun s pa _ =>
    if !arr && n = 0 then .done s
    else match barUpdate s s.myCtx pa arr n with
      | .ok t => .done (traceTb s s.myCtx pa arr (some (s.curCore, s.curSlot)) t)
      | .error code => .trap s PARAM 0 (word code)

/-- The barrier that TBINIT stores (R439). -/
def tbInit (b : Nat) : Nat :=
  bits b 0 16 * 2 ^ 4 + bits b 0 16 * 2 ^ 20 + bits b 16 1 * 2 ^ 68 + bits b 17 12 * 2 ^ 69 + bits b 29 3 * 2 ^ 81

def bodyTbinit (h : Hdr) (a b : BitVec 5) : Body :=
  tbBody h [.a a, .b b] [] 32 fun o => tbInTurn o.a fun s => tbAccess s o.a true fun s pa _ => .done (s.write pa 16 (tbInit o.b.toNat))

def bodyTbarv (h : Hdr) (a : BitVec 5) : Body := tbBody h [.a a] [] 64 fun o => tbUpdate true 0 o.a
def bodyTbarx (h : Hdr) (a b : BitVec 5) : Body := tbBody h [.a a, .b b] [] 31 fun o => tbUpdate true o.b.toNat o.a
def bodyTbexp (h : Hdr) (a b : BitVec 5) : Body := tbBody h [.a a, .b b] [] 31 fun o => tbUpdate false o.b.toNat o.a

def bodyTbwait (h : Hdr) (a b : BitVec 5) : Body :=
  tbBody h [.a a, .b b] [] 4 fun o s =>
    tbAccess s o.a false fun s _ t => if tbPhase t = o.b.toNat then .wait s .tbar 0 else .done s

def bodyTbtry (h : Hdr) (pd : BitVec 4) (a b : BitVec 5) : Body :=
  tbBody h [.a a, .b b] [.p pd] 4 fun o s =>
    tbAccess s o.a false fun s _ t => effP 1 pd (fun o => (tbPhase t ≠ o.b.toNat, 0)) o s

/-! ## Execution: each instruction issued by itself -/

def execTbinit (h : Hdr) (a b : BitVec 5) (s : State) : Out := .next (issue (.tbinit h a b) (bodyTbinit h a b) s)
def execTbarv (h : Hdr) (a : BitVec 5) (s : State) : Out := .next (issue (.tbarv h a) (bodyTbarv h a) s)
def execTbarx (h : Hdr) (a b : BitVec 5) (s : State) : Out := .next (issue (.tbarx h a b) (bodyTbarx h a b) s)
def execTbexp (h : Hdr) (a b : BitVec 5) (s : State) : Out := .next (issue (.tbexp h a b) (bodyTbexp h a b) s)
def execTbwait (h : Hdr) (a b : BitVec 5) (s : State) : Out := .next (issue (.tbwait h a b) (bodyTbwait h a b) s)
def execTbtry (h : Hdr) (pd : BitVec 4) (a b : BitVec 5) (s : State) : Out :=
  .next (issue (.tbtry h pd a b) (bodyTbtry h pd a b) s)


end Sys2Proof.Machine
end

