-- ==== Sys2Proof/Machine/Bodies.lean ====
section
/-! DEFINITION. The body of every thread instruction, by which pairs are issued and waiting instructions go on. -/

namespace Sys2Proof.Machine

/-- The body of an instruction; the package's own steps have none. -/
def bodyOf : Instr → Option Body
  | .coldReset => none
  | .warmReset => none
  | .secureBoot _ => none
  | .hostLinkTrain _ _ => none
  | .hostLinkModuleFail _ => none
  | .scaleOutPortFail _ => none
  | .scaleOutPortUp _ => none
  | .remoteRouteTimeout _ _ => none
  | .slwAssert => none
  | .supplyLossSequence => none
  | .thermtrip _ _ => none
  | .pstpFrame _ _ _ => none
  | .telemetryLost => none
  | .droopEvaluation => none
  | .eceilStep => none
  | .shedGraceExpiry _ => none
  | .sensorSample _ _ _ => none
  | .thermalCapDrop _ => none
  | .thermalCapRise _ => none
  | .dramThrottle _ => none
  | .dramThrottleLift _ => none
  | .relocationMark _ => none
  | .relocation _ => none
  | .operatingPointChange _ => none
  | .coreSleep _ => none
  | .coreWake _ => none
  | .energyRefill => none
  | .wsRefreshWindow => none
  | .structureError _ _ _ _ => none
  | .selfTestDone _ _ _ => none
  | .unrecoverableFault _ _ _ _ _ => none
  | .checkpointPeriod _ => none
  | .intervalSeal _ => none
  | .rollback _ => none
  | .bar0RegisterWrite _ _ => none
  | .q0ringWrite _ => none
  | .q0cplWrite _ => none
  | .pkgidWrite _ => none
  | .pstpstRead => none
  | .kick _ _ => none
  | .cplheadWrite _ _ => none
  | .commandFetch _ => none
  | .headerReread _ => none
  | .completionRecordWrite _ => none
  | .nopPacket _ => none
  | .launch _ => none
  | .copy _ => none
  | .hubCopyDone _ => none
  | .signalStore _ => none
  | .signalAtomicAdd _ => none
  | .signalArrive _ => none
  | .waitv _ => none
  | .waitvReevaluate _ => none
  | .waitvTimeout _ => none
  | .wsload _ => none
  | .wssealSeal _ => none
  | .wssealReopen _ => none
  | .create => none
  | .destroy => none
  | .qset => none
  | .qreset => none
  | .wsreg => none
  | .wsfree => none
  | .ckptPacket _ => none
  | .resync => none
  | .preemptSwapOut _ => none
  | .preemptRestore _ => none
  | .profileStart _ => none
  | .profileStop _ => none
  | .profileSpill _ => none
  | .profileAccount => none
  | .qfence _ => none
  | .attest _ => none
  | .bbread => none
  | .fwstage => none
  | .fwactivate => none
  | .sensrd => none
  | .dbghalt => none
  | .dbgresume => none
  | .dbgstep => none
  | .dbgread => none
  | .dbgwrite => none
  | .dbgcfg => none
  | .mailboxDone => none
  | .breakpointHalt _ _ => none
  | .hostMemAccess _ _ _ _ => none
  | .hostHoldTimeout _ => none
  | .placementReserve => none
  | .placementCommit => none
  | .scrimgCopyDone _ => none
  | .waitListStarvation _ => none
  | .gangPreempt _ => none
  | .swapOut _ => none
  | .crewRestore _ => none
  | .idleSwap _ => none
  | .itemDispense _ _ => none
  | .eosDispense _ _ _ _ => none
  | .graphRetire _ => none
  | .asyncTrapEntry _ _ => none
  | .notifyEntry _ _ => none
  | .asyncResultLand _ _ _ => none
  | .accessPerformed _ _ => none
  | .sendDelivery _ _ => none
  | .putrLand _ _ => none
  | .sendTimeout _ _ => none
  | .curdAdmit _ _ => none
  | .curdResume _ => none
  | .closetSwap _ => none
  | .movementSwap _ => none
  | .pactForm _ _ => none
  | .pactTimeout _ _ => none
  | .pressEntryStart _ _ => none
  | .pactStreamEnd _ => none
  | .pactDeliveryDone _ _ => none
  | .pactSuspend _ _ => none
  | .pactResume _ => none
  | .operandFault _ _ _ _ _ => none
  | .deliveryFault _ _ _ _ => none
  | .copySectorLand _ _ _ => none
  | .copyFailure _ _ _ _ => none
  | .cpymAccept _ => none
  | .remoteWriteArrive _ _ _ _ _ _ _ _ => none
  | .streamElementFetch _ _ _ => none
  | .streamElementLand _ _ _ _ => none
  | .tlbiComplete _ _ => none
  | .ill => some bodyIll
  | .nop h => some (bodyNop h)
  | .add h d a b => some (bodyAdd h d a b)
  | .sub h d a b => some (bodySub h d a b)
  | .mul h d a b => some (bodyMul h d a b)
  | .mulh h d a b => some (bodyMulh h d a b)
  | .mulhu h d a b => some (bodyMulhu h d a b)
  | .div h d a b => some (bodyDiv h d a b)
  | .divu h d a b => some (bodyDivu h d a b)
  | .rem h d a b => some (bodyRem h d a b)
  | .remu h d a b => some (bodyRemu h d a b)
  | .and h d a b => some (bodyAnd h d a b)
  | .or h d a b => some (bodyOr h d a b)
  | .xor h d a b => some (bodyXor h d a b)
  | .andn h d a b => some (bodyAndn h d a b)
  | .shl h d a b => some (bodyShl h d a b)
  | .shr h d a b => some (bodyShr h d a b)
  | .sar h d a b => some (bodySar h d a b)
  | .rotr h d a b => some (bodyRotr h d a b)
  | .clz h d a => some (bodyClz h d a)
  | .ctz h d a => some (bodyCtz h d a)
  | .popc h d a => some (bodyPopc h d a)
  | .min h d a b => some (bodyMin h d a b)
  | .max h d a b => some (bodyMax h d a b)
  | .minu h d a b => some (bodyMinu h d a b)
  | .maxu h d a b => some (bodyMaxu h d a b)
  | .mov h d a => some (bodyMov h d a)
  | .bswap h d a => some (bodyBswap h d a)
  | .addi h d a imm => some (bodyAddi h d a imm)
  | .muli h d a imm => some (bodyMuli h d a imm)
  | .andi h d a imm => some (bodyAndi h d a imm)
  | .ori h d a imm => some (bodyOri h d a imm)
  | .xori h d a imm => some (bodyXori h d a imm)
  | .shli h d a n => some (bodyShli h d a n)
  | .shri h d a n => some (bodyShri h d a n)
  | .sari h d a n => some (bodySari h d a n)
  | .movi h d imm => some (bodyMovi h d imm)
  | .movhi h d a imm => some (bodyMovhi h d a imm)
  | .extr h d a pos len sx => some (bodyExtr h d a pos len sx)
  | .insr h d a b pos len => some (bodyInsr h d a b pos len)
  | .sel h d a b p => some (bodySel h d a b p)
  | .lea h d a b sc imm => some (bodyLea h d a b sc imm)
  | .cmp h pd a b cond => some (bodyCmp h pd a b cond)
  | .cmpi h pd a cond imm => some (bodyCmpi h pd a cond imm)
  | .plog h pd pa pb tab => some (bodyPlog h pd pa pb tab)
  | .pget h d => some (bodyPget h d)
  | .pset h a => some (bodyPset h a)
  | .nchild h d a b => some (bodyNchild h d a b)
  | .nparent h d a => some (bodyNparent h d a)
  | .nlevel h d a => some (bodyNlevel h d a)
  | .nlvlbase h d a => some (bodyNlvlbase h d a)
  | .nleaf h d a b => some (bodyNleaf h d a b)
  | .fadd h d a b ty rm => some (bodyFadd h d a b ty rm)
  | .fsub h d a b ty rm => some (bodyFsub h d a b ty rm)
  | .fmul h d a b ty rm => some (bodyFmul h d a b ty rm)
  | .ffma h d a b c ty rm => some (bodyFfma h d a b c ty rm)
  | .fdiv h d a b ty rm => some (bodyFdiv h d a b ty rm)
  | .fsqrt h d a ty rm => some (bodyFsqrt h d a ty rm)
  | .fmin h d a b ty => some (bodyFmin h d a b ty)
  | .fmax h d a b ty => some (bodyFmax h d a b ty)
  | .fcmp h pd a b ty cond => some (bodyFcmp h pd a b ty cond)
  | .fcvt h d a st dt rm => some (bodyFcvt h d a st dt rm)
  | .fclass h d a ty => some (bodyFclass h d a ty)
  | .fsgn h d a b ty => some (bodyFsgn h d a b ty)
  | .fsgnn h d a b ty => some (bodyFsgnn h d a b ty)
  | .fsgnx h d a b ty => some (bodyFsgnx h d a b ty)
  | .fmovi h d ty imm => some (bodyFmovi h d ty imm)
  | .br h tgt => some (bodyBr h tgt)
  | .brl h d tgt => some (bodyBrl h d tgt)
  | .jmp h a => some (bodyJmp h a)
  | .jmpl h d a => some (bodyJmpl h d a)
  | .loop h d tgt => some (bodyLoop h d tgt)
  | .wfw h => some (bodyWfw h)
  | .yield h => some (bodyYield h)
  | .exit h => some (bodyExit h)
  | .ld h d a b sz sx sc imm => some (bodyLd h d a b sz sx sc imm)
  | .st h d a b sz sc imm => some (bodySt h d a b sz sc imm)
  | .ldx h d a b sc imm => some (bodyLdx h d a b sc imm)
  | .stx h d a b sc imm => some (bodyStx h d a b sc imm)
  | .ldv h vd a b sz mk sc imm => some (bodyLdv h vd a b sz mk sc imm)
  | .stv h vd a b sz mk sc imm => some (bodyStv h vd a b sz mk sc imm)
  | .gath h vd a vb sz sx mk sc imm => some (bodyGath h vd a vb sz sx mk sc imm)
  | .scat h vd a vb sz mk sc imm => some (bodyScat h vd a vb sz mk sc imm)
  | .aadd h d a b sz sx imm => some (bodyAadd h d a b sz sx imm)
  | .aand h d a b sz sx imm => some (bodyAand h d a b sz sx imm)
  | .aor h d a b sz sx imm => some (bodyAor h d a b sz sx imm)
  | .axor h d a b sz sx imm => some (bodyAxor h d a b sz sx imm)
  | .amin h d a b sz sx imm => some (bodyAmin h d a b sz sx imm)
  | .amax h d a b sz sx imm => some (bodyAmax h d a b sz sx imm)
  | .axch h d a b sz sx imm => some (bodyAxch h d a b sz sx imm)
  | .acas h d a b c sz sx imm => some (bodyAcas h d a b c sz sx imm)
  | .afadd h d a b sz rm imm => some (bodyAfadd h d a b sz rm imm)
  | .ldw h d a b sz sx sc imm => some (bodyLdw h d a b sz sx sc imm)
  | .ldvw h vd a b sz mk sc imm => some (bodyLdvw h vd a b sz mk sc imm)
  | .sbind h d blk => some (bodySbind h d blk)
  | .sdrain h a => some (bodySdrain h a)
  | .sstat h d a => some (bodySstat h d a)
  | .qbind h d a imm => some (bodyQbind h d a imm)
  | .qstat h d a => some (bodyQstat h d a)
  | .empty h d => some (bodyEmpty h d)
  | .isfull h pd a => some (bodyIsfull h pd a)
  | .putr h a b rg => some (bodyPutr h a b rg)
  | .migr h a => some (bodyMigr h a)
  | .tmodeLight h => some (bodyTmodeLight h)
  | .tmodeHeavy h => some (bodyTmodeHeavy h)
  | .bar h n => some (bodyBar h n)
  | .bara h n => some (bodyBara h n)
  | .barw h n => some (bodyBarw h n)
  | .sev h a e => some (bodySev h a e)
  | .wev h e => some (bodyWev h e)
  | .bfree h e => some (bodyBfree h e)
  | .dqpush h d a b imm => some (bodyDqpush h d a b imm)
  | .dqpop h d a b imm => some (bodyDqpop h d a b imm)
  | .dqspl h d a b imm => some (bodyDqspl h d a b imm)
  | .dqstl h d a b imm => some (bodyDqstl h d a b imm)
  | .item h a => some (bodyItem h a)
  | .itemEos h a => some (bodyItemEos h a)
  | .vadd h vd va vb ty mk rnd => some (bodyVadd h vd va vb ty mk rnd)
  | .vsub h vd va vb ty mk rnd => some (bodyVsub h vd va vb ty mk rnd)
  | .vmul h vd va vb ty mk rnd => some (bodyVmul h vd va vb ty mk rnd)
  | .vdiv h vd va vb ty mk rnd => some (bodyVdiv h vd va vb ty mk rnd)
  | .vfma h vd va vb vc ty mk rnd => some (bodyVfma h vd va vb vc ty mk rnd)
  | .vfnma h vd va vb vc ty mk rnd => some (bodyVfnma h vd va vb vc ty mk rnd)
  | .vmin h vd va vb ty mk => some (bodyVmin h vd va vb ty mk)
  | .vmax h vd va vb ty mk => some (bodyVmax h vd va vb ty mk)
  | .vabs h vd va ty mk => some (bodyVabs h vd va ty mk)
  | .vneg h vd va ty mk => some (bodyVneg h vd va ty mk)
  | .vand h vd va vb ty mk => some (bodyVand h vd va vb ty mk)
  | .vor h vd va vb ty mk => some (bodyVor h vd va vb ty mk)
  | .vxor h vd va vb ty mk => some (bodyVxor h vd va vb ty mk)
  | .vshl h vd va vb ty mk => some (bodyVshl h vd va vb ty mk)
  | .vshr h vd va vb ty mk => some (bodyVshr h vd va vb ty mk)
  | .vsar h vd va vb ty mk => some (bodyVsar h vd va vb ty mk)
  | .vsqrt h vd va ty mk rnd => some (bodyVsqrt h vd va ty mk rnd)
  | .vrsq h vd va ty mk rnd => some (bodyVrsq h vd va ty mk rnd)
  | .vrcp h vd va ty mk rnd => some (bodyVrcp h vd va ty mk rnd)
  | .vexp2 h vd va ty mk rnd => some (bodyVexp2 h vd va ty mk rnd)
  | .vlog2 h vd va ty mk rnd => some (bodyVlog2 h vd va ty mk rnd)
  | .vcmp h md va vb ty mk cond => some (bodyVcmp h md va vb ty mk cond)
  | .vcvt h vd va st ty mk rnd => some (bodyVcvt h vd va st ty mk rnd)
  | .vdot h vd va vb vc ty mk rnd => some (bodyVdot h vd va vb vc ty mk rnd)
  | .vmov h vd va ty mk => some (bodyVmov h vd va ty mk)
  | .vsel h vd va vb ty mk => some (bodyVsel h vd va vb ty mk)
  | .vbcast h vd a ty mk => some (bodyVbcast h vd a ty mk)
  | .vfill h vd ty mk imm => some (bodyVfill h vd ty mk imm)
  | .vext h d va lane ty => some (bodyVext h d va lane ty)
  | .vins h vd a lane ty => some (bodyVins h vd a lane ty)
  | .viota h vd ty mk => some (bodyViota h vd ty mk)
  | .vcmprs h vd va ty mk => some (bodyVcmprs h vd va ty mk)
  | .vexpnd h vd va ty mk => some (bodyVexpnd h vd va ty mk)
  | .vshuf h vd va vb ty mk => some (bodyVshuf h vd va vb ty mk)
  | .vlut h vd va vb ty mk => some (bodyVlut h vd va vb ty mk)
  | .vred h d va fn ty mk rnd => some (bodyVred h d va fn ty mk rnd)
  | .vscan h vd va fn ty mk rnd => some (bodyVscan h vd va fn ty mk rnd)
  | .vsort h vd va vb vc desc ty mk => some (bodyVsort h vd va vb vc desc ty mk)
  | .vmerge h vd va vb vc desc ty mk => some (bodyVmerge h vd va vb vc desc ty mk)
  | .vpackq h vd va vb bq4 mk => some (bodyVpackq h vd va vb bq4 mk)
  | .vunpkq h vd va bq4 hi mk => some (bodyVunpkq h vd va bq4 hi mk)
  | .mlog h md ma mb tab => some (bodyMlog h md ma mb tab)
  | .mpopc h d ma => some (bodyMpopc h d ma)
  | .mget h d ma => some (bodyMget h d ma)
  | .mset h md a => some (bodyMset h md a)
  | .pmm h port tag blk => some (bodyPmm h port tag blk)
  | .pdsc h port tag blk => some (bodyPdsc h port tag blk)
  | .pdgr h port tag blk => some (bodyPdgr h port tag blk)
  | .pwait h port tag => some (bodyPwait h port tag)
  | .pqry h d port tag => some (bodyPqry h d port tag)
  | .pclr h port slot f64 => some (bodyPclr h port slot f64)
  | .pscl h a port slot f64 => some (bodyPscl h a port slot f64)
  | .plds h a port slot f64 => some (bodyPlds h a port slot f64)
  | .psts h a port slot f64 => some (bodyPsts h a port slot f64)
  | .prdl h a b port tag => some (bodyPrdl h a b port tag)
  | .pabt h port tag => some (bodyPabt h port tag)
  | .prdt h d port pt => some (bodyPrdt h d port pt)
  | .pwrt h a port pt => some (bodyPwrt h a port pt)
  | .pord h => some (bodyPord h)
  | .cpy h blk => some (bodyCpy h blk)
  | .remoteAtomicAdd h blk => some (bodyRemoteAtomicAdd h blk)
  | .cpym h k blk => some (bodyCpym h k blk)
  | .gathr h blk => some (bodyGathr h blk)
  | .cpyst h d a => some (bodyCpyst h d a)
  | .tbinit h a b => some (bodyTbinit h a b)
  | .tbarv h a => some (bodyTbarv h a)
  | .tbarx h a b => some (bodyTbarx h a b)
  | .tbexp h a b => some (bodyTbexp h a b)
  | .tbwait h a b => some (bodyTbwait h a b)
  | .tbtry h pd a b => some (bodyTbtry h pd a b)
  | .csrr h d n => some (bodyCsrr h d n)
  | .csrw h a n => some (bodyCsrw h a n)
  | .csrscSet h d a n => some (bodyCsrscSet h d a n)
  | .csrscClr h d a n => some (bodyCsrscClr h d a n)
  | .trap h n => some (bodyTrap h n)
  | .sysc h n => some (bodySysc h n)
  | .rft h => some (bodyRft h)
  | .nret h => some (bodyNret h)
  | .feat h d n => some (bodyFeat h d n)
  | .tlbi h a => some (bodyTlbi h a)
  | .tlbiOne h a b => some (bodyTlbiOne h a b)
  | .trc h a tag => some (bodyTrc h a tag)
  | .lutld h a => some (bodyLutld h a)
  | .ctxsw h a b => some (bodyCtxsw h a b)
  | .ckpt h => some (bodyCkpt h)
  | .halt h => some (bodyHalt h)
  | .fenceo h => some (bodyFenceo h)
  | .slwRelease => none
  | .wsloadDone _ => none
  | .remoteHoldWaitTimeout _ => none
  | .writeAcknowledge _ _ _ => none
  | .keyTreeStateLoad => none
  | .vstbyFailure => none
  | .slotCommandDone _ _ => none

end Sys2Proof.Machine
end

