-- ==== Sys2Proof/Machine/Mover.lean ====
section
/-! DEFINITION. The runtime's default movement routine (R164): a movement context of a task that names no code of its own serves the
copy requests that workers post to its mailboxes. Each of its turns is one of the routine's accesses or instructions. -/

namespace Sys2Proof.Machine

/-- The turn is one of a movement context in the default routine, or in its handler. -/
def State.inMover (s : State) : Bool :=
  let t := s.me
  t.ref.lslot = 7 && (match s.myCrew with | some c => c.mentry = 0 | none => false) &&
    (t.pc = Config.defaultMovement || t.pc = Config.defaultHandler)

def Thread.stage (t : Thread) (m : MoverStage) : Thread := { t with mover := m }

/-- The routine's own UVEC and TDLG: every cause that may be delegated enters its handler at U. -/
def Thread.moverCsrs (t : Thread) : Thread := { t with csr := { t.csr with uvec := Config.defaultHandler, tdlg := dlgMask } }

/-- The status dword of a request: done, and of one that is refused with its cause and TAUX (Table 7.7). -/
def moverDone : Word := word (2 ^ 63)
def moverRefused (cause : Nat) (aux : Word) : Word := word (2 ^ 63 + 2 ^ 62 + aux.toNat % 2 ^ 32 * 256 + cause % 256)

/-- A header without guard, wait or energy class. -/
def plainHdr : Hdr := ⟨0, false, 0, 0⟩

/-- The answer of an effect of the routine: it goes on, or waits, or the trap is taken. -/
def moverSettle (s0 : State) (members : List (Instr × Ops)) (e : Eff) : State :=
  match e, members with
  | .wait s why key, [] => parkMe s why key [] none
  | e, l => settle s0 l 0 s0.me.pc e

/-- Issue an instruction of the routine with operands that it has read: its checks, its debit and its effect. `ok` and `sent` are the
stages that follow when it is done, and while it waits. -/
def moverIssue (s : State) (i : Instr) (b : Body) (o : Ops) (ok sent : MoverStage) : State :=
  match b.chk o s with
  | some st => stopMe s st false
  | none => match debit s (b.cost o s) with
    | .error st => stopMe s st false
    | .ok s1 => match b.eff o s1 with
      | .done s2 => moverSettle s [(i, o)] (.done (s2.modMe fun t => t.stage ok))
      | .wait s2 why key => moverSettle s [(i, o)] (.wait (s2.modMe fun t => t.stage sent) why key)
      | e => moverSettle s [(i, o)] e

/-- The instruction that a block names, and its meaning; none for an operation that is refused. -/
def moverRequest (blk : BitVec 512) : Option (Instr × Body) :=
  let k : BitVec 4 := BitVec.ofNat 4 (fld blk 328 4)
  match fld blk 320 8 with
  | 0 => some (.cpy plainHdr 0, bodyCpy plainHdr 0)
  | 1 => some (.cpym plainHdr k 0, bodyCpym plainHdr k 0)
  | 2 => some (.gathr plainHdr 0, bodyGathr plainHdr 0)
  | _ => none

/-- Step 1 to 3: the next word of the mailboxes. -/
def moverPop (s : State) : State :=
  let s := s.modMe Thread.moverCsrs
  match s.me.fullMbox with
  | none => parkMe s .message keyMail [] none
  | some k =>
    let w := vget s.me.mbox k 0
    let next : MoverStage := if w = 0 then .leave else if w.toNat % 64 = 0 && inOwn w 64 then .read w else .pop
    s.modMe fun t => { t.stage next with park := none, mboxFull := setFld t.mboxFull k 1 0, mboxLast := BitVec.ofNat 2 k }

/-- One store of the routine into its block. -/
def moverStore (s : State) (va v : Word) (next : MoverStage) : State :=
  moverSettle s [] (access s va 8 .write false fun s x => putBytes s x (bytesOf v.toNat 8) fun s => .done (s.modMe fun t => t.stage next))

/-- A turn in the routine; a reserved bit of the block's copy record is PARAM (R8, R298). -/
def moverTurn (s : State) : State :=
  match s.me.mover with
  | .pop => moverPop s
  | .leave => moverIssue s (.exit plainHdr) (bodyExit plainHdr) Ops.zero .pop .leave
  | .read va => moverSettle s [] (access s va 64 .read false fun s x => .done (s.modMe fun t => t.stage (.ask va (BitVec.ofNat 512 (rdX s x 64)))))
  | .ask va blk =>
    (match moverRequest blk with
    | none => s.modMe fun t => t.stage (.tell va (moverRefused PARAM 0) (some 0))
    | some (i, b) =>
      if RecKind.copy.reserved.any fun r => fld blk r.1 r.2 ≠ 0 then s.modMe fun t => t.stage (.tell va (moverRefused PARAM 0) (some 0))
      else moverIssue s i b { Ops.zero with rcd := blk.setWidth 320 } (.tell va moverDone (some 0)) (.sent va))
  | .sent va => s.modMe fun t => t.stage (.tell va moverDone (some 0))
  | .tell va st (some a) => moverStore s (va + 56) a (.tell va st none)
  | .tell va st none => moverStore s (va + 48) st .pop

/-- The handler: a request that has trapped is refused, and any other access is made again (R164). -/
def moverHandler (s : State) : State :=
  s.modMe fun t =>
    let refuse (va : Word) : MoverStage := .tell va (moverRefused (fld t.csr.tcause 0 8) t.csr.taux) (some t.csr.taddr)
    let m := match t.mover with | .ask va _ => refuse va | .sent va => refuse va | m => m
    { t.returnTrap.stage m with pc := Config.defaultMovement, park := none }

/-- What the turn of a movement context in the routine does. -/
def moverMove (s : State) : State := if bit s.me.csr.tnest 0 then moverHandler s else moverTurn s

end Sys2Proof.Machine
end

