-- ==== Sys2Proof/Machine/Turn.lean ====
section
/-! DEFINITION. A turn of a slot (R147 to R154, R171 to R173, R290, R300, R447): what is due at an instruction boundary, the
fetch, the pair, and the retries of a parked thread. A turn that issues one instruction is left to exec. -/

namespace Sys2Proof.Machine

/-! ## Whether the thread has a turn (R147) -/

/-- The slot's register file is under a fence (R85, code 3); unit numbers are core × 32 + slot, and core × 32 + 8 + entry in
the closet. -/
def State.slotFenced (s : State) (core slot : Nat) : Bool := s.mgmt.fences.contains (3 * 2 ^ 32 + core * 32 + slot)

/-- The crew's threads issue: it runs, or it ran when a debug halt marked it (R98). -/
def Crew.issues (c : Crew) : Bool := match c.state with | .run => true | .halted => c.back = .run | _ => false

/-- The occupied slot is not frozen, halted without a step left, fenced, held back by its crew, or on a core that sleeps or is
waking (R145). -/
def State.hasTurn (s : State) : Bool :=
  let t := s.me
  let c := s.core s.curCore
  t.occ && !t.frozen && !(t.halted && t.steps = 0) && !s.slotFenced s.curCore s.curSlot && !c.asleep && c.wakeAt ≤ s.devtime &&
    (match s.crew? t.ref.crew with | some c => c.issues | none => false)

/-- A thread that steps under a debug halt uses one of the turns it was granted (R99). (DEDUCED, log entry 65.) -/
def Thread.useStep (t : Thread) : Thread := if t.halted then { t with steps := t.steps - 1 } else t

/-! ## The boundary (R172, R173, R447) -/

/-- The thread is parked at an instruction that has not been issued, and its boundary is the one before that instruction; or it waits at
an EXIT by itself, where asynchronous traps are taken (R351, R447). -/
def Thread.atBoundary (t : Thread) : Bool :=
  match t.park with
  | none => true
  | some p => (p.resume.isEmpty && p.next.isNone) || (p.why = .exit && p.resume.length = 1)

/-- A notify may divert the thread: it is not in a handler, has no trap pending, is not halted, and no access of it is in
flight; a travelling curd has left. -/
def Thread.divertible (t : Thread) : Bool :=
  !t.nq.isEmpty && !bit t.csr.tnest 0 && !t.notify && t.atraps.isEmpty && !t.halted &&
    (match t.park with
      | none => true
      | some p => p.why ≠ .migrate && !(p.why = .memory && !p.resume.isEmpty))

/-- Divert the thread to its oldest notify: NRET goes back to the parked instruction, or to the next one.
(DEDUCED, log entry 40.) -/
def Thread.divert (t : Thread) : Thread :=
  match t.nq with
  | [] => t
  | n :: _ => t.enterNotify n (match t.park with | some p => p.addr | none => t.pc)

/-- The oldest pending asynchronous trap may be taken now. -/
def Thread.trapDue (t : Thread) : Bool := !t.atraps.isEmpty && !bit t.csr.tnest 0 && t.atBoundary

/-- Take it, with TPC at the next instruction. -/
def takeAsync (s : State) (core slot : Nat) : State :=
  let t := s.thread core slot
  match t.atraps with
  | [] => s
  | a :: _ =>
    let s := s.setThread core slot t.popTrap
    takeTrap s core slot a.cause.toNat a.addr a.aux t.boundaryPC false true

/-! ## Members of a turn -/

/-- An instruction at its code address. -/
structure Member where
  i : Instr
  b : Body
  addr : Word

/-- Reasons of ILLOP for an instruction: 5 from its X bit, then what decoding gives. -/
def memberOf (img : LineImg) (line : Word) (k : Nat) : Except Nat Member :=
  if !xBitOk img k then .error 5
  else match decodeSlot img k with
    | .error r => .error r
    | .ok i => match bodyOf i with
      | some b => .ok ⟨i, b, line + word k⟩
      | none => .error 0

/-- A trap at issue. -/
def issueTrap (s : State) (pm : Bool) (cause : Nat) (addr aux : Word) : State :=
  takeTrap s s.curCore s.curSlot cause addr aux s.me.pc pm false

/-! ### Pairs (R149, R465) -/

def PairClass.heavy : PairClass → Bool
  | .memory | .press | .copy | .system => true
  | _ => false

/-- Two destinations are one register. -/
def Dst.meets : Dst → Dst → Bool
  | .g a, .g b => a = b && a.toNat ≠ 23
  | .v a, .v b => a = b
  | .m a, .m b => a = b
  | .p a, .p b => a = b
  | .preds, .p _ | .p _, .preds | .preds, .preds => true
  | _, _ => false


/-- The pairing class of an opcode (Table 13.18). -/
def opClass (op : BitVec 8) : PairClass :=
  let n := op.toNat
  if 0x40 ≤ n ∧ n ≤ 0x47 then .control
  else if (0x50 ≤ n ∧ n ≤ 0x62) ∨ [0x70, 0x71, 0x73, 0x77, 0x78].contains n ∨ (0x80 ≤ n ∧ n ≤ 0x8A) then .memory
  else if 0xC0 ≤ n ∧ n ≤ 0xCD then .press
  else if 0xD0 ≤ n ∧ n ≤ 0xD9 then .copy
  else if 0xE0 ≤ n ∧ n ≤ 0xEE then .system
  else .other

/-- Two opcodes that may not pair, whatever the rest of their slots holds. -/
def clashOps (a b : BitVec 8) : Bool :=
  ((opClass a).heavy && (opClass b).heavy) || (opClass a = .control && opClass b = .control)

/-- The opcodes that never pair (R448): TRAP, SYSC, RFT, NRET, CTXSW, CKPT and HALT. -/
def soloOp (op : BitVec 8) : Bool := [0xE3, 0xE4, 0xE5, 0xE6, 0xEB, 0xEC, 0xED].contains op.toNat

/-- The registers that a slot's instruction writes, by its opcode and its register fields, whatever its other fields hold. -/
def slotWrites (f : Fields) : List Dst :=
  match candidate f 0 with
  | .ok i => match bodyOf i with | some b => b.dsts | none => []
  | .error _ =>
    match f.op with
    | 0x2E | 0x3B => [.g f.d]
    | 0xB0 | 0xB1 => [.v (f.d.setWidth 4)]
    | _ => []

/-- The pair at a slot of a line is illegal (R149, R448): a check that comes before those of either member (R300, step 3). -/
def pairIllegal (img : LineImg) (k : Nat) : Bool :=
  let x := Fields.unpack (lineSlot img k)
  let y := Fields.unpack (lineSlot img (k + 1))
  clashOps x.op y.op || soloOp x.op || soloOp y.op || (slotWrites x).any fun a => (slotWrites y).any a.meets

/-- An unchecked entry names the second member of a set pair (RFT, a debugger's PC). -/
def lateMember (img : LineImg) (k : Nat) : Bool := 0 < k && linePair img (k - 1)

/-- EXIT, whose trap while it waits leaves TPC at the EXIT itself, so that RFT repeats it alone (R351). -/
def isExit : Instr → Bool
  | .exit _ => true
  | _ => false

/-- A member's place in the order of the effects of a turn: branches, computations, accesses, then the ends of a thread's
activity; the spec fixes no order that software could see (R149). -/
def Member.rank (m : Member) : Nat :=
  match m.i with
  | .wfw _ | .yield _ | .exit _ => 3
  | _ => if m.b.cls = .control then 0 else if m.b.cls = .other then 1 else 2

/-- Steps 4 to 7 of a member: what stops it, with the thread's PC at the member's own address. -/
def Member.early (m : Member) (s : State) : Option Stop :=
  let s := s.modMe fun t => { t with pc := m.addr }
  match m.b.early s with | some st => some st | none => s.me.pStop m.b.h.g

/-- What a member has read by step 8: none when its guard is false. -/
def Member.readOps (m : Member) (s : State) : Except Stop (Option (Ops × State)) :=
  if m.b.guard s then m.b.readOps s |>.map some else .ok none

/-- Steps 9 and 10 of a member on the state before the turn. -/
def Member.late (m : Member) (r : Option (Ops × State)) (s : State) : Option Stop :=
  match r with | some x => m.b.late x.1 s | none => none

/-- The first failure in the order of the steps, and within a step in the order of the members. -/
def worse (a b : Option Stop) : Option (Bool × Stop) :=
  match a, b with
  | none, none => none
  | some x, none => some (false, x)
  | none, some y => some (true, y)
  | some x, some y => if y.step < x.step then some (true, y) else some (false, x)

/-- The failure of a check. -/
def failed {α : Type} : Except Stop α → Option Stop
  | .error st => some st
  | .ok _ => none

/-- Steps 4 to 11 of a pair: the failing member and its stop, or what each member read (none for a false guard) and the state
after the pops and the debit. -/
def admitPair (x y : Member) (s : State) : Except (Bool × Stop) (Option Ops × Option Ops × State) :=
  let rx := x.readOps s
  let sx := match rx with | .ok (some r) => r.2 | _ => s
  let ry := y.readOps sx
  let stopOf (m : Member) (r : Except Stop (Option (Ops × State))) : Option Stop :=
    match m.early s with
    | some st => some st
    | none => match r with | .error st => some st | .ok o => m.late o s
  match worse (stopOf x rx) (stopOf y ry) with
  | some e => .error e
  | none =>
    let ox := match rx with | .ok (some r) => some r.1 | _ => none
    let oy := match ry with | .ok (some r) => some r.1 | _ => none
    let sy := match ry with | .ok (some r) => r.2 | _ => sx
    let cost (m : Member) (o : Option Ops) : Nat := match o with | some o => m.b.cost o s | none => 0
    match debit sy (cost x ox + cost y oy) with
    | .error st => .error (false, st)
    | .ok s1 =>
      let nxt := nextPC s.me.pc 2 false
      .ok (ox.map fun o => { o with nxt := nxt, own := x.addr }, oy.map fun o => { o with nxt := nxt, own := y.addr }, s1)

/-- The answer of a turn's effects: where the thread goes on, and what is tried again. -/
structure TurnEff where
  e : Eff
  again : List (Instr × Ops)
  nxt : Word
  /-- The members to be tried again wait for the thread's release. -/
  held : Bool

/-- A curd or a thread that leaves after a taken branch goes on at the target. -/
def retarget (s : State) (pc : Word) : State :=
  s.modMe fun t => { t with park := t.park.map fun p => { p with next := some pc } }

/-- The thread leaves to make its access at the home core: the whole pair is issued again there (R165, R149). -/
def leavesToRetry (s : State) (pc : Word) : Bool :=
  match s.me.park with | some p => p.why = .migrate && p.next = some pc | none => false

/-- The effect of the second in order, `g`, after the first has been made. -/
def afterFirst (g : Instr × Body × Ops) (s1 sf : State) (all : List (Instr × Ops)) (nxt : Word) (j : Option (Word × Option LineImg)) :
    TurnEff :=
  let dest := match j with | some x => x.1 | none => nxt
  match g.2.1.eff g.2.2 sf with
  | .done s => match j with | some (pc, img) => ⟨.jump s pc img, [], dest, false⟩ | none => ⟨.done s, [], dest, false⟩
  | .hold s why key => ⟨.hold s why key, [], dest, false⟩
  | .gone s => ⟨.gone (match j with | some x => retarget s x.1 | none => s), [], dest, false⟩
  | .wait s why key =>
    match g.1 with
    | .exit _ => ⟨.wait s why key, [(g.1, g.2.2)], dest, false⟩
    | _ => ⟨.wait s1 why key, all, nxt, false⟩
  | .trap _ c a x => ⟨.trap s1 c a x, [], nxt, false⟩
  | e => ⟨e, [], dest, false⟩

/-- The effects of a pair: `f` is made before `g`. A trap of either discards the other, and a wait keeps both for another
try; an EXIT waits by itself. -/
def pairEff (f g : Instr × Body × Ops) (s1 : State) (nxt : Word) : TurnEff :=
  let all := [(f.1, f.2.2), (g.1, g.2.2)]
  let both : TurnEff :=
    match f.2.1.eff f.2.2 s1 with
    | .done sf => afterFirst g s1 sf all nxt none
    | .jump sf pc img => afterFirst g s1 sf all nxt (some (pc, img))
    | .hold sf why key => match g.1 with
      | .yield _ => ⟨.hold sf why key, [], nxt, false⟩
      | _ => ⟨.hold sf why key, [(g.1, g.2.2)], nxt, true⟩
    | .wait s why key => ⟨.wait s why key, all, nxt, false⟩
    | e => ⟨e, all, nxt, false⟩
  match g.2.1.eff g.2.2 s1 with
  | .trap s c a x => ⟨.trap s c a x, [], nxt, false⟩
  | .gone s => if leavesToRetry s s1.me.pc then ⟨.gone s, [], nxt, false⟩ else both
  | .wait s why key => match g.1 with
    | .exit _ => both
    | _ => ⟨.wait s why key, all, nxt, false⟩
  | _ => both

/-- The end of a turn that has been issued. -/
def endTurn (s0 : State) (w : Nat) (r : TurnEff) : State :=
  match r.e with
  | .hold s why key =>
    let s := setSkip (parkMe s why key (if r.held then r.again else []) (some r.nxt)) w
    if r.held then s.modMe fun t => { t with park := t.park.map fun p => { p with held := true } } else s
  | e => settle s0 r.again w r.nxt e

/-- The effects of the members that read operands, in their order. -/
def effects (l : List (Member × Ops)) (s1 : State) (nxt : Word) : TurnEff :=
  match l with
  | [] => ⟨.done s1, [], nxt, false⟩
  | [(m, o)] => ⟨m.b.eff o s1, [(m.i, o)], nxt, false⟩
  | (m, o) :: (m', o') :: _ =>
    if m'.rank < m.rank then pairEff (m'.i, m'.b, o') (m.i, m.b, o) s1 nxt
    else pairEff (m.i, m.b, o) (m'.i, m'.b, o') s1 nxt

/-- THE ISSUE of a legal pair. (DEDUCED, log entry 64.) -/
def issuePair (x y : Member) (s : State) : State :=
  match admitPair x y s with
  | .error (pm, st) => stopMe s st pm
  | .ok (ox, oy, s1) =>
    let nxt := nextPC s.me.pc 2 false
    let l := (match ox with | some o => [(x, o)] | none => []) ++ (match oy with | some o => [(y, o)] | none => [])
    endTurn s (max x.b.h.w.toNat y.b.h.w.toNat) (effects l s1 nxt)

/-! ## Another try of a parked thread (R150) -/

/-- Members that have been debited are tried again with what they read. -/
def retryParked (s : State) (p : Park) : State :=
  let nxt := p.next.getD s.me.pc
  let l : List (Member × Ops) := p.resume.filterMap fun r => (bodyOf r.1).map fun b => (⟨r.1, b, p.addr⟩, r.2)
  let w := l.foldl (fun n m => max n m.1.b.h.w.toNat) 0
  endTurn s w (effects l s nxt)

/-! ## Breakpoints (R98) -/

/-- The vat's breakpoint is at one of `n` slots from a code address. (DEDUCED, log entry 63.) -/
def breakHere (s : State) (pc : Word) (n : Nat) : Bool :=
  let d := (s.vat (vatOf s.curCore)).dbgctl
  s.mgmt.dbgen && bit d 18 && fld d 22 42 = fld pc 6 42 && slotOf pc ≤ fld d 19 3 && fld d 19 3 < slotOf pc + n && fld d 19 3 < 5

/-- The halt follows the turn that issues from there. -/
def armBreak (s : State) (pc : Word) (n : Nat) : State :=
  if breakHere s pc n then { s with agenda := .hit s.curCore s.curSlot :: s.agenda } else s

/-- What a turn that issues uses up before its effect. -/
def beginTurn (s : State) (pc : Word) (n : Nat) : State := armBreak (s.modMe Thread.useStep) pc n

/-! ## The turn -/

/-- What a turn comes to: one instruction that exec issues, or the state after whatever else it did. -/
inductive Turn where
  | one (i : Instr) (s : State)
  | did (s : State)

/-- Parity of the slots that a turn reads (step 2): the positions whose bit fails. -/
def badSlots (img : LineImg) (l : List Nat) : Nat := l.foldl (fun n k => if slotParityOk img k then n else n + 2 ^ k) 0

/-- Issue from a line (steps 2 to 11). The second member of a pair never issues alone (R288): an unchecked entry there is an illegal
pair (DESIGN CHOICE, log entry 121), but for an EXIT that RFT repeats. -/
def issueFrom (s : State) (img : LineImg) : Turn :=
  let pc := s.me.pc
  let line := lineOf pc
  let k := slotOf pc
  let paired := linePair img k
  let slots := if linePL img then [0, 1, 2, 3, 4] else if paired then [k, k + 1] else [k]
  if badSlots img slots ≠ 0 then
    .did (issueTrap s (paired && slotParityOk img k) PARITY line (word (badSlots img slots)))
  else if !paired then
    match memberOf img line k with
    | .error r => .did (issueTrap s false ILLOP pc (word r))
    | .ok m =>
      if lateMember img k && !isExit m.i then .did (issueTrap s false ILLOP pc 4)
      else .one m.i (match m.b.accept s with | .ok _ => beginTurn s pc 1 | .error _ => s)
  else if pairIllegal img k then .did (issueTrap s true ILLOP (pc + 1) 4)
  else
    match memberOf img line k, memberOf img line (k + 1) with
    | .ok x, .ok y => .did (issuePair x y (match admitPair x y s with | .ok _ => beginTurn s pc 2 | .error _ => s))
    | .error 5, _ => .did (issueTrap s false ILLOP pc 5)
    | _, .error 5 => .did (issueTrap s true ILLOP (pc + 1) 5)
    | .error r, _ => .did (issueTrap s false ILLOP pc (word r))
    | _, .error r => .did (issueTrap s true ILLOP (pc + 1) (word r))

/-- The thread fetches its line where it has none, and issues from it. -/
def fetchIssue (s : State) : Turn :=
  let t := s.me
  let kept := match t.line with | some x => if x.1 = lineOf t.pc && !t.entry then some x.2 else none | none => none
  match kept with
  | some img => issueFrom s img
  | none =>
    match enterLine s s.curCore s.myCtx t.user t.entry t.pc with
    | (s, .trap c a x) => .did (issueTrap s false c a x)
    | (s, .wait) => .did (parkMe s .memory 0 [] none)
    | (s, .ok img) => issueFrom (s.modMe fun t => { t with line := some (lineOf t.pc, img), entry := false }) img

/-- The thread's next instruction: of its own code, or of the default movement routine. -/
def nextInstr (s : State) : Turn := if s.inMover then .did (moverMove (s.modMe Thread.useStep)) else fetchIssue s

/-- A TURN of a slot. -/
def turnOf (s : State) (core slot : Nat) : Turn :=
  let s := { s with curCore := core, curSlot := slot }
  if !s.me.occ then .did s
  else
    let s := s.modMe Thread.tick
    if !s.hasTurn then .did s
    else
      let t := s.me
      if 0 < t.skip then .did (s.modMe fun t => { t.useStep with skip := t.skip - 1 })
      else if t.trapDue then .did (takeAsync s core slot)
      else if t.divertible then .did (s.modMe Thread.divert)
      else match t.park with
        | none => nextInstr s
        | some p =>
          if p.held then .did s
          else if !p.resume.isEmpty then .did (retryParked s p)
          else if p.next.isSome then .did s
          else nextInstr s

end Sys2Proof.Machine
end

