-- ==== Sys2Proof/Machine/ThreadEvents.lean ====
section
/-! DEFINITION. What happens to threads beside their turns: results, accesses and sends that are performed, traps and notifies
at a boundary, timeouts, curds, closets, streams and items (R108, R116 to R119, R150 to R173, R179, R194, R395, R447). -/

namespace Sys2Proof.Machine

/-! ## Parked threads that go on (R150, R160 to R162, R179, R194) -/

/-- The machine about to act for the thread of a slot. -/
def State.at (s : State) (core slot : Nat) : State := { s with curCore := core, curSlot := slot }

/-- The parked thread of a slot whose effect may be tried: it is not frozen or fenced, and its crew runs; a memory access that is in
flight when the crew parks is still performed (R139). An instruction in flight completes under a debug halt (R99). -/
def State.retryable (s : State) (core slot : Nat) : Option Park :=
  let t := s.thread core slot
  let may (p : Park) : Bool := match s.crew? t.ref.crew with
    | some c => c.issues || (c.real = .parked && p.why = .memory)
    | none => false
  if t.occ && !t.frozen && !s.slotFenced core slot then
    match t.park with
    | some p => if p.resume.isEmpty || p.held || !may p then none else some p
    | none => none
  else none

/-- Try the effect of a parked thread that meets a condition. -/
def retryIf (ok : Park → Bool) (core slot : Nat) (s : State) : Option State :=
  match s.retryable core slot with
  | some p => if ok p then some (retryParked (s.at core slot) p) else none
  | none => none

/-- ACCESS_PERFORMED (R150). -/
def accessPerformed (core slot : Nat) (s : State) : Option State :=
  retryIf (fun p => p.why = .memory || p.why = .message || p.why = .tbar) core slot s

/-- TLBI_COMPLETE (R179). -/
def tlbiComplete (core slot : Nat) (s : State) : Option State :=
  retryIf (fun p => p.resume.any fun r => match r.1 with | .tlbi _ _ | .tlbiOne _ _ _ => true | _ => false) core slot s

/-- CPYM_ACCEPT (R194). -/
def cpymAccept (core : Nat) (s : State) : Option State :=
  retryIf (fun p => p.resume.any fun r => match r.1 with | .cpym _ _ _ => true | _ => false) core 7 s

/-- ASYNC_RESULT_LAND (R153): the i-th result in flight of the slot's thread, where it is an asynchronous one that has been
computed. -/
def asyncResultLand (core slot i : Nat) (s : State) : Option State :=
  let t := s.thread core slot
  match t.pend[i]? with
  | some p =>
    if p.left.isNone && !p.awaits && !t.frozen then some (s.setThread core slot ({ t with pend := t.pend.eraseIdx i }.land p))
    else none
  | none => none

/-- The place of a thread by a core and a number: a slot below 8, a closet entry from 8, and from 32 the threads that full closets have
spilled. -/
def State.place (s : State) (core k : Nat) : Option Loc :=
  if k < 8 then some (.slot core k)
  else if k < 32 then some (.closet (core * 24 + (k - 8)))
  else (s.crews.flatMap fun e => e.2.spilled.map fun x => Loc.saved e.1 x.1)[k - 32]?

/-- A buffered word reaches its target, wherever its sender is held (R160, R162). -/
def deliverOut (reg : Bool) (core slot : Nat) (s : State) : Option State :=
  match s.place core slot with
  | none => none
  | some l =>
    let t := s.atLoc l
    match t.outBuf with
    | some o =>
      if o.reg.isSome = reg then (tryDeliver s t.ref o).map fun s => s.modLoc l fun t => { t with outBuf := none }
      else none
    | none => none

def execAccessPerformed (core slot : Nat) (s : State) : Out := event s (accessPerformed core slot s)
def execTlbiComplete (core slot : Nat) (s : State) : Out := event s (tlbiComplete core slot s)
def execCpymAccept (core : Nat) (s : State) : Out := event s (cpymAccept core s)
def execAsyncResultLand (core slot i : Nat) (s : State) : Out := event s (asyncResultLand core slot i s)
def execSendDelivery (core slot : Nat) (s : State) : Out := event s (deliverOut false core slot s)
def execPutrLand (core slot : Nat) (s : State) : Out := event s (deliverOut true core slot s)

/-! ## Boundaries (R172, R447) -/

/-- ASYNC_TRAP_ENTRY. -/
def asyncTrapEntry (core slot : Nat) (s : State) : Option State :=
  let s := s.at core slot
  if s.hasTurn && s.me.skip = 0 && s.me.trapDue then some (takeAsync s core slot) else none

/-- NOTIFY_ENTRY. -/
def notifyEntry (core slot : Nat) (s : State) : Option State :=
  let s := s.at core slot
  if s.hasTurn && s.me.skip = 0 && s.me.divertible then some (s.modMe Thread.divert) else none

def execAsyncTrapEntry (core slot : Nat) (s : State) : Out := event s (asyncTrapEntry core slot s)
def execNotifyEntry (core slot : Nat) (s : State) : Out := event s (notifyEntry core slot s)

/-! ## The send timeout (R118, R161, R163, R351) -/

/-- The thread is parked on a send, a PUTR, a mailbox push or a graph-queue push, or on an EXIT with a buffered word. -/
def Thread.sndWait (t : Thread) : Option Park :=
  match t.park with
  | some p =>
    if p.key ≠ 0 && p.key ≠ keyMail && p.why = .message then some p
    else if p.why = .exit && t.outBuf.isSome then some p
    else none
  | none => none

/-- SEND_TIMEOUT: the park has lasted SNDTMO µs, where SNDTMO is not 0; nothing is pushed. What the instruction has popped, or performed,
by then stays so (DESIGN CHOICE, log entry 132). -/
def sendTimeout (core slot : Nat) (s : State) : Option State :=
  let t := s.thread core slot
  let tmo := fld (t.tmoNow s.devtime).1 0 20
  match t.sndWait with
  | none => none
  | some p =>
    if !t.occ || tmo = 0 || t.timer < tmo * 1000 then none
    else if p.why = .exit then
      if (t.atraps ++ t.atrapsHeld).any fun a => a.cause.toNat = SNDTO then none
      else some (exitTrap s core slot SNDTO 0 (word (sndtoAux (match t.outBuf with
        | some o => keySend o.core.toNat o.slot.toNat | none => 0))))
    else some (takeTrap s core slot SNDTO 0 (word (sndtoAux p.key)) p.addr false false)

def execSendTimeout (core slot : Nat) (s : State) : Out := event s (sendTimeout core slot s)

/-! ## Curds (R165 to R168) -/

/-- Pack the carried state of a light thread (Table 7.5). -/
def packCurd (s : State) (t : Thread) (c : Crew) (pc : Word) : Curd where
  g := Vector.ofFn fun i : Fin 10 => vget t.g i.val 0
  full := t.full.setWidth 10
  pc := pc
  pred := t.pred
  ctx := c.ctx
  cls := c.cls
  prv := !t.user
  rm := BitVec.ofNat 2 t.rm
  flags := t.csr.fcsr.setWidth 5
  srcCore := BitVec.ofNat 12 (c.logical t.ref.lcore)
  srcSlot := BitVec.ofNat 3 t.ref.lslot
  crew := t.ref.crew
  unacked := t.unacked
  eos := tokensOf s c.graph t.tokenName

/-- CURD_ADMIT: the travelling curd of a slot enters its home core's queue of its class, where there is room, and its slot is
vacant. -/
def curdAdmit (core slot : Nat) (s : State) : Option State :=
  let t := s.thread core slot
  match t.park, s.crew? t.ref.crew with
  | some p, some c =>
    if t.occ && p.why = .migrate && p.key ≠ 0 && p.resume.isEmpty && c.state.holds then
      let dest := c.phys (p.key - 1)
      let k := packCurd s t c (p.next.getD t.pc)
      if ((s.core dest).runq.filter fun x => x.cls = k.cls).length < 64 then
        some ((dropTokens (s.modCore dest fun x => { x with runq := x.runq ++ [k] }) c.graph t.tokenName).setThread core slot
          { t with occ := false, park := none, line := none, timer := 0, skip := 0, unacked := 0 })
      else none
    else none
  | _, _ => none

/-- The vacant worker slots of a crew on a core; one that an EXIT has vacated stays so (R351). -/
def vacantSlots (s : State) (n core : Nat) (c : Crew) : List Nat :=
  match c.indexOf core with
  | none => []
  | some i => (Tbl.get ⟨0xFFFF, 0, []⟩ c.cores i).slots.filter fun p =>
      let t := s.thread core p
      p ≠ 7 && !t.occ && !t.exited && !t.frozen && t.ref.crew = n

/-- The curd that resumes first on a core, and the vacant slots of its crew: classes in order, and FIFO within a crew and class
(R167). -/
def nextCurd (s : State) (core : Nat) : Option (Curd × List Nat) :=
  let q := (s.core core).runq
  ((span 0 8).flatMap fun k => q.filter fun x => x.cls = k).findSome? fun x =>
    match s.crew? x.crew with
    | some c => if c.issues then match vacantSlots s x.crew core c with | [] => none | l => some (x, l) else none
    | none => none

/-- The slot's record with a curd in it (R168). -/
def Thread.takeCurd (t : Thread) (k : Curd) : Thread :=
  { t with
    occ := true, exited := false, light := true, pc := k.pc, pred := k.pred, entry := false, line := none, park := none
    g := Vector.ofFn fun i : Fin 23 => if i.val < 10 then vget k.g i.val 0 else vget t.g i.val 0
    full := (t.full &&& 0x7FFFFFFFFC00#47) ||| k.full.setWidth 47
    skip := 0, timer := 0, unacked := k.unacked, lanes := none
    csr := { t.csr with
      tstat := setFld t.csr.tstat 0 1 (b2n k.prv)
      fcsr := setFld (setFld t.csr.fcsr 0 5 k.flags.toNat) 5 2 k.rm.toNat } }

/-- The record of a slot with a curd in it, halted where the vat is halted for the curd's context (R98). -/
def State.takeCurd (s : State) (core : Nat) (t : Thread) (k : Curd) : Thread :=
  { t.takeCurd k with halted := (s.vat (vatOf core)).halted.contains k.ctx, steps := 0 }

/-- CURD_RESUME. Which of several vacant slots it takes is not stated: a free value (DESIGN CHOICE, log entry 6). -/
def curdResume (core : Nat) (s : State) : Option State :=
  match nextCurd s core with
  | none => none
  | some (k, l) =>
    let (w, s) := s.free
    let p := l.getD (w.toNat % l.length) 0
    let s := s.modCore core fun x => { x with runq := x.runq.erase k }
    let t := s.takeCurd core (s.thread core p) k
    some ((addTokens s (match s.crew? k.crew with | some c => c.graph | none => 0) t.tokenName k.eos).setThread core p t)

def execCurdAdmit (core slot : Nat) (s : State) : Out := event s (curdAdmit core slot s)
def execCurdResume (core : Nat) (s : State) : Out := event s (curdResume core s)

/-! ## The closet (R108, R169) -/

/-- CLOSET_SWAP: a CTXSW that waits on a core is made once the slot's results have been written. -/
def closetSwap (core : Nat) (s : State) : Option State :=
  (span 0 8).findSome? fun k =>
    retryIf (fun p => p.resume.any fun r => match r.1 with | .ctxsw _ _ _ => true | _ => false) core k s

/-- The closet entry with another crew's movement context whose mailbox holds a word. -/
def mailWaits (s : State) (core : Nat) : Option Nat :=
  (span 0 24).find? fun e => match s.closetAt core e with
    | some x => x.th.ref.lslot = 7 && x.th.mboxFull ≠ 0 && x.th.occ
    | none => false

/-- MOVEMENT_SWAP: the resident movement context is parked on empty mailboxes, or slot 7 is vacant; it waits while one of the two is under a
fence (R85), and until a core that sleeps at depth 2 or 3 has woken (R145). -/
def movementSwap (core : Nat) (s : State) : Option State :=
  let t := s.thread core 7
  if !t.occ || (t.pend.isEmpty && t.mailParked) then
    (mailWaits s core).bind fun e => if swapWaits s core 7 e then none else some (swapCloset s core 7 e)
  else none

def execClosetSwap (core : Nat) (s : State) : Out := event s (closetSwap core s)
def execMovementSwap (core : Nat) (s : State) : Out := event s (movementSwap core s)

/-! ## Streams (R158, R395) -/

/-- A read by a stream's engine: the bytes, a fault, or a wait. -/
inductive Fetched where
  | ok (s : State) (v : Nat)
  | flt (cause : Nat) (aux : Nat)
  | wait

/-- The engine of a stream as a reader: it uses the translations that SBIND has latched (R180). -/
def StreamBind.reader (s : State) (b : StreamBind) : Reader := ⟨s.curCore, s.myCtx, b.user, b.pages, b.retrans⟩

/-- Read n bytes for a stream. A read of cached memory counts where it takes a line that the read before it did not (R459). -/
def streamRead (s : State) (b : StreamBind) (va : Word) (n : Nat) (counts : Bool) : Fetched :=
  let ctx := s.myCtx
  match (b.reader s).xlate s va .read with
  | .flt c a => .flt c a
  | .wait => .wait
  | .ok x =>
    if fenced s ctx 0 x.pa x.pte || s.lineHeld ctx x.pa then .wait
    else if s.poisoned 0 x.pa n then (if s.ckpts ctx then .wait else .flt UNCORR 0)
    else
      let s := s.walked ctx b.pages b.retrans va
      let s := if isCached x.pa && counts then s.engineRead (dieOf s.curCore) (home s ctx x.pa x.pte) x.pa (evictFirst x.pte) else s
      .ok s (s.read 0 x.pa n)

/-- Where an element is: its address, or the address of an index entry with a fault. -/
inductive Place where
  | ok (s : State) (va : Word)
  | flt (va : Word) (cause aux : Nat)
  | wait

/-- The line of an address is not that of another one. -/
def newLine (a b : Word) : Bool := lineOf a ≠ lineOf b

/-- The address of element j (R393); an index entry at or above IXLIM is PARAM at the entry (R395). -/
def streamPlace (s : State) (b : StreamBind) (j : Nat) : Place :=
  let d := b.desc
  let row := j / sdN0 d
  if sdIndexed d then
    let ea := sdEntryVA d row
    match streamRead s b ea (sdIxBytes d) (j % sdN0 d = 0 && (row = 0 || newLine ea (sdEntryVA d (row - 1)))) with
    | .ok s r => if r < sdLim d then .ok s (sdElemVA d j r) else .flt ea PARAM 0
    | .flt c a => .flt ea c a
    | .wait => .wait
  else .ok s (sdElemVA d j row)

/-- Element j, at an address, lies in another line than the element before it; the first one of an indexed row counts as such. -/
def newElemLine (d : BitVec 320) (j : Nat) (va : Word) : Bool :=
  j = 0 || (if sdIndexed d then j % sdN0 d = 0 || newLine va (va - vaOf (sdS0 d)) else newLine va (sdElemVA d (j - 1) ((j - 1) / sdN0 d)))

/-- STREAM_ELEMENT_FETCH: a read stream fetches its next element, at most 16 ahead of the reads. A fault is kept with its
address for the read that would return the element. -/
def streamElementFetch (core slot sr : Nat) (s : State) : Option State :=
  let s := s.at core slot
  let r := 24 + sr % 4
  let b := s.stream r
  let j := b.count + b.buf.length
  let stuck := match b.buf.getLast? with | some e => e.cause ≠ 0 | none => false
  if !s.me.occ || !b.bound || b.isWrite || j ≥ b.total || b.buf.length ≥ 16 || stuck then none
  else
    let put (s : State) (e : StreamElem) : State := s.modStream r fun b => { b with buf := b.buf ++ [e] }
    match streamPlace s b j with
    | .wait => none
    | .flt va c a => some (put s ⟨va, BitVec.ofNat 8 c, word a⟩)
    | .ok s va =>
      match streamRead s b va (sdBytes b.desc) (newElemLine b.desc j va) with
      | .wait => none
      | .flt c a => some (put s ⟨va, BitVec.ofNat 8 c, word a⟩)
      | .ok s v =>
        let w := if bit b.desc 51 then sext v (8 * sdBytes b.desc) else word v
        some (put s ⟨w, 0, 0⟩)

/-- A write stream stops (R395): its holds are released, what was in flight is dropped, a write of the thread that is parked on its full
buffer takes the fault, and BarError counts one sector. -/
def stopStream (s0 s : State) (r : Nat) (b : StreamBind) (f : AsyncTrap) : Option State :=
  let s := (s.dropHolds b.hold fun _ => true).modStream r fun b => { b with stopped := true, stop := some f, buf := [] }
  let s := match s.me.park with
    | some p => if p.key = keyStream r then takeTrap s s.curCore s.curSlot f.cause.toNat f.addr f.aux p.addr false false else s
    | none => s
  if b.tben then (errorAt s s.curCore s.myCtx b.tb 1 (.stream b.hold)).orHold s0 (.stream b.hold) id else some s

/-- The failure of a write at an address: a translation fault, or an uncorrectable error. -/
def writeFault (s : State) (b : StreamBind) (va : Word) : Option (Nat × Nat) :=
  match (b.reader s).xlate s va .write with
  | .flt c a => some (c, a)
  | .wait => none
  | .ok x => if s.poisoned 0 x.pa 1 then some (UNCORR, 0) else match kindOf x.pa with | .host => some (UNCORR, 0) | _ => none

/-- STREAM_ELEMENT_LAND: the oldest element in flight of a write stream lands (`ok`), or fails. The failure of the host link has
no cause of its own and is reported as UNCORR (DEDUCED, log entry 17). -/
def streamElementLand (core slot sr : Nat) (ok : Bool) (s : State) : Option State :=
  let s := s.at core slot
  let r := 24 + sr % 4
  let b := s.stream r
  match b.buf with
  | [] => none
  | e :: rest =>
    if !s.me.occ || !b.bound || !b.isWrite || b.stopped then none
    else
      match streamPlace s b (b.count - b.buf.length) with
      | .wait => none
      | .flt va c a => if ok then none else stopStream s s r b ⟨BitVec.ofNat 8 c, va, word a⟩
      | .ok s' va =>
        if ok then
          (engineStore s' (b.reader s) va.toNat (bytesOf e.val.toNat (sdBytes b.desc))).map fun s =>
            s.modStream r fun b => { b with buf := rest }
        else match writeFault s b va with
          | some (c, a) => stopStream s s' r b ⟨BitVec.ofNat 8 c, va, word a⟩
          | none => none

def execStreamElementFetch (core slot sr : Nat) (s : State) : Out := event s (streamElementFetch core slot sr s)
def execStreamElementLand (core slot sr : Nat) (ok : Bool) (s : State) : Out := event s (streamElementLand core slot sr ok s)

/-! ## Items (R116 to R119) -/

/-- The crew of a task takes items: it runs, and its class is not shed. -/
def itemCrew (s : State) (g : Graph) (task : Nat) : Option (Nat × Crew) :=
  match g.crews[task]? with
  | none => none
  | some n => match s.crew? n with | some c => if c.state = .run then some (n, c) else none | none => none

/-- A thread that waits at WFW for an item. -/
def Thread.wantsItem (t : Thread) : Bool :=
  t.occ && !t.frozen && !t.notify && (match t.park with | some p => p.why = .wfw && p.next.isSome | none => false)

/-- Worker slots of a crew in the order of logical core and slot: (logical core × 8 + logical slot, core, physical slot). -/
def workerSlots (s : State) (n : Nat) (c : Crew) : List (Nat × Nat × Nat) :=
  (span 0 c.n).flatMap fun i =>
    ((span 0 8).filterMap fun p =>
      let t := s.thread (c.phys i) p
      if t.ref.crew = n && t.ref.lcore = i && t.ref.lslot < 7 then some (i * 8 + t.ref.lslot, c.phys i, p) else none)

/-- The first entry of a list after a number, wrapping (R117). -/
def nextAfter {α : Type} (key : α → Nat) (last : Option Nat) (l : List α) : Option α :=
  let l := sortBy (fun a b => key a < key b) l
  match last with
  | none => l.head?
  | some k => match l.find? fun x => k < key x with | some x => some x | none => l.head?

/-- Write an item's registers g0 to g9 and let the thread go on (R116). -/
def Thread.giveItem (t : Thread) (ws : List Word) (g8 g9 : Word) : Thread :=
  { t with
    g := Vector.ofFn fun i : Fin 23 =>
      if i.val < 8 then ws.getD i.val 0 else if i.val = 8 then g8 else if i.val = 9 then g9 else vget t.g i.val 0
    full := t.full ||| 0x3FF#47 }.release

/-- ITEM_DISPENSE: the next non-empty queue gives its oldest item to the next thread that waits. -/
def itemDispense (gid task : Nat) (s : State) : Option State :=
  match s.graph? gid with
  | none => none
  | some g =>
    match itemCrew s g task with
    | none => none
    | some (n, c) =>
      let qs := (span 0 g.queues.length).filter fun q => match g.queues[q]? with
        | some x => x.consumer = task && !x.items.isEmpty | none => false
      let ths := (workerSlots s n c).filter fun x => (s.thread x.2.1 x.2.2).wantsItem
      match nextAfter id (Tbl.find g.lastQ task) qs, nextAfter (·.1) (Tbl.find g.lastTo task) ths with
      | some q, some (k, core, p) =>
        match s.gqueue? gid q with
        | none => none
        | some x =>
          let ws := x.items.headD []
          let s := s.modGQueue gid q fun x => { x with items := x.items.drop 1, dispensed := x.dispensed + 1 }
          let s := s.modGraph gid fun g => { g with lastQ := Tbl.ins g.lastQ task q, lastTo := Tbl.ins g.lastTo task k }
          some ((writeQHeader s gid q).modThread core p fun t => t.giveItem ws (word (q + x.len * 2 ^ 16)) 0)
      | _, _ => none

/-- EOS_DISPENSE: the token of a queue, once to each thread of its consumer, after every item. (DEDUCED, log entry 68.) -/
def eosDispense (gid q core slot : Nat) (s : State) : Option State :=
  match s.graph? gid, s.gqueue? gid q with
  | some g, some x =>
    match itemCrew s g x.consumer with
    | none => none
    | some (n, _) =>
      let t := s.thread core slot
      if x.eos && x.items.isEmpty && t.ref.crew = n && t.ref.lslot < 7 && t.wantsItem && !x.eosTo.contains t.tokenName then
        let s := s.modGQueue gid q fun x => { x with eosTo := t.tokenName :: x.eosTo }
        some (s.modThread core slot fun t => t.giveItem [] (word q) 1)
      else none
  | _, _ => none

def execItemDispense (gid task : Nat) (s : State) : Out := event s (itemDispense gid task s)
def execEosDispense (gid q core slot : Nat) (s : State) : Out := event s (eosDispense gid q core slot s)

/-! ## Debug hits (R98) -/

/-- BREAKPOINT_HALT: a thread has issued from the breakpoint, or touched the watch range, of its vat. -/
def breakpointHalt (core slot : Nat) (s : State) : Option State :=
  let t := s.thread core slot
  let d := (s.vat (vatOf core)).dbgctl
  if s.mgmt.dbgen && t.ref.crew ≠ 0 && (bit d 18 || bit d 9) then some (haltGroup s (s.ctxOf t.ref.crew) (vatOf core)) else none

def execBreakpointHalt (core slot : Nat) (s : State) : Out := event s (breakpointHalt core slot s)

end Sys2Proof.Machine
end

