-- ==== Sys2Proof/Machine/Sched.lean ====
section
/-! DEFINITION. The crew distributor (R106 to R114, R121, R124 to R131, R138 to R140): placement, first starts, gang
pre-emption, swaps, restoration, relocation and shedding. -/

namespace Sys2Proof.Machine

/-! ## Placement (R109) -/

/-- The first eligible rectangle in order of north-west core number (R109). -/
def findRect (s : State) (n : Nat) (c : Crew) (gone : Crew → Bool) : Option (Nat × Nat) :=
  ((span 0 4096).find? fun k => eligible s n c gone (rowOf k) (colOf k)).map fun k => (rowOf k, colOf k)

/-! ## The wait list (R111 to R113) -/

/-- The wait list: by class, then by the time of entry. Crews of a shed class are not placed (R109, R138). -/
def waitList (s : State) : List (Nat × Crew) :=
  sortBy (fun a b => a.2.cls < b.2.cls || (a.2.cls = b.2.cls && a.2.waitSince < b.2.waitSince))
    (s.crews.filter fun e => e.2.state = .wait && !s.shedClass e.2.cls)

/-- What the distributor does next. -/
inductive Choice where
  | place (n row col : Nat)
  | displace (row col h w cls : Nat)

/-- Go through the wait list: an earlier crew that does not fit is passed over, until it has waited 10 ms (R113). -/
def choose (s : State) : List (Nat × Crew) → Option Choice
  | [] => none
  | (n, c) :: rest =>
    match findRect s n c fun _ => false with
    | some (r, k) => some (.place n r k)
    | none =>
      match findRect s n c fun x => c.cls < x.cls with
      | some (r, k) => some (.displace r k c.h c.w c.cls)
      | none => if c.waitSince + 10000000 ≤ s.devtime then none else choose s rest

/-- Roll back an uncommitted placement: the crew keeps its place in the wait list (R111). -/
def abortPlacement (s : State) (n : Nat) : State :=
  let s := s.modCrew n fun c => if c.reserves then { c with state := .wait } else c
  s.modHub fun h => { h with placing := none }

/-- A crew that PREEMPT OP 0, a displacement or a retirement takes from its rectangle. -/
def Crew.evict (c : Crew) (requeue : Bool) : Crew :=
  if c.swapWanted then { c with requeue := c.requeue && requeue } else { c with swapWanted := true, requeue := requeue }

/-- Crews that have been displaced, or that have lost a unit of their rectangle, enter the wait list again (R112, R86, Table 5.4). -/
def relistCrews (s : State) : State :=
  let back (c : Crew) : Crew :=
    if c.state = .swapped && c.requeue then { c with state := .wait, requeue := false, waitSince := s.devtime } else c
  { s with crews := s.crews.map fun e => (e.1, back e.2) }

/-- The next placement of the wait list, or of its class-0 crews alone: its rectangle is reserved; or the crews that are in its way are
to be swapped out first (R112). -/
def reserveNext (s : State) (only0 : Bool) : Option State :=
  match choose s ((waitList s).filter fun e => !only0 || e.2.cls = 0) with
  | some (.place n r k) =>
    some ((s.modCrew n fun c => { c with state := .resv, prow := r, pcol := k }).modHub fun h => { h with placing := some n })
  | some (.displace r k h w cls) =>
    some { s with crews := s.crews.map fun e =>
      if e.2.state.holds && cls < e.2.cls && 0 < e.2.shared r k h w then (e.1, e.2.evict true) else e }
  | none => none

/-- PLACEMENT_RESERVE: the distributor's next step before a commit. A class-0 newcomer aborts an uncommitted placement of another
class (R111); a reserved crew's slots begin to be written; else the next crew's rectangle is reserved. -/
def placementReserve (s : State) : Option State :=
  let s' := relistCrews s
  match s.hub.placing.bind fun m => (s.crew? m).map fun c => (m, c) with
  | some (m, c) =>
    match if c.cls ≠ 0 then reserveNext (abortPlacement s' m) true else none with
    | some t => some t
    | none => if c.state = .resv then some (s'.modCrew m fun c => { c with state := .load }) else none
  | none =>
    match reserveNext (s'.modHub fun h => { h with placing := none }) false with
    | some t => some t
    | none => if s'.crews = s.crews then none else some s'

def execPlacementReserve (s : State) : Out := event s (placementReserve s)

/-- WAIT_LIST_STARVATION: from the moment at which the earliest crew of a class has waited 10 ms, `choose` passes no crew of
that class or of lower priority over it; the moment changes nothing else. (DEDUCED, log entry 81.) -/
def waitListStarvation (_cls : Nat) (s : State) : Option State := some s

def execWaitListStarvation (cls : Nat) (s : State) : Out := event s (waitListStarvation cls s)

/-! ## First starts (R106, R110, R466) -/

/-- Put a thread context into the closet of a core. -/
def seatCloset (s : State) (core : Nat) (t : Thread) : State :=
  let e := chooseFree s core
  let s := spillCloset s core e
  let (now, s) := s.fresh
  { s with closet := Tbl.ins s.closet (core * 24 + e) ⟨t, now⟩ }
where
  /-- A free entry, or the least recently used one. -/
  chooseFree (s : State) (core : Nat) : Nat :=
    match (span 0 24).find? fun e => (s.closetAt core e).isNone with
    | some e => e
    | none =>
      let used (e : Nat) : Nat := match s.closetAt core e with | some x => x.used | none => 0
      (span 0 24).foldl (fun b e => if used e < used b then e else b) 0

/-- Put a movement context on its core: in slot 7, or in the closet beside another crew's (R108). -/
def seatMover (s : State) (core : Nat) (t : Thread) : State :=
  let x := s.thread core 7
  if x.ref.crew = 0 || (s.crew? x.ref.crew).isNone then s.setThread core 7 t else seatCloset s core t

/-- Change the entries of the logical-to-physical table for a crew (R107). -/
def mapCrew (s : State) (c : Crew) : State :=
  s.modCtx c.ctx fun x => { x with l2p := (span 0 c.n).foldl (fun t i =>
    if c.logical i = c.phys i then Tbl.del t (c.logical i) else Tbl.ins t (c.logical i) (c.phys i)) x.l2p }

/-- A crew that comes to its rectangle where a vat of it is halted for its context is halted there (R98, R114). -/
def haltPlaced (s : State) (n : Nat) : State :=
  match s.crew? n with
  | none => s
  | some c =>
    let halted (core : Nat) : Bool := (s.vat (vatOf core)).halted.contains c.ctx
    if !((span 0 c.n).any fun i => halted (c.phys i)) then s
    else
      let stop (core : Nat) (t : Thread) : Thread := if t.ref.crew = n && halted core then { t with halted := true, steps := 0 } else t
      let s := if c.state = .halted then s else s.modCrew n fun c => { c with state := .halted, back := c.state }
      { s with
        threads := s.threads.map fun e => (e.1, stop (e.1 / 8) e.2)
        closet := s.closet.map fun e => (e.1, { e.2 with th := stop (e.1 / 24) e.2.th }) }

/-- PLACEMENT_COMMIT of a crew that has never run: its rectangle, presses, scratchpads and threads are set, and the SCRIMG copy
begins. A saved crew is committed by CREW_RESTORE. -/
def placementCommit (s : State) : Option State :=
  match s.hub.placing with
  | none => none
  | some n =>
    match s.crew? n with
    | none => none
    | some c =>
      if c.state ≠ .load || c.saved.isSome then none
      else
        let args := match s.graph? c.graph with | some g => g.args | none => []
        let cores := (span 0 c.n).map fun i => (i, ⟨0xFFFF, 0, slotsFor s n c.t (c.phys i)⟩)
        let c := { c with
          state := .init, started := true, lrow := c.prow, lcol := c.pcol, expected := c.t * c.n, cores := cores
          bars := Vector.replicate 8 ⟨false, c.t * c.n, false⟩ }
        let s := { s with crews := Tbl.ins s.crews n c, hub := { s.hub with placing := none } }
        let s := mapCrew (s.clearPresses c) c
        some (haltPlaced ((span 0 c.n).foldl (fun s i =>
          let core := c.phys i
          let s := s.clear (spmPA core 0) 262144
          let s := ((freeSlots s n core).zip (span 0 7)).foldl (fun s x =>
            s.setThread core x.1 (startThread s n c args i x.2 (x.2 < c.t))) s
          seatMover s core (startThread s n c args i 7 true)) s) n)

def execPlacementCommit (s : State) : Out := event s (placementCommit s)

/-! ## Gang pre-emption (R125, R128, R244) -/

/-- Every result that is computed lands; those of PRDT wait in their press (R125, step 1). -/
def Thread.settleAll (t : Thread) : Thread :=
  { (t.pend.filter fun p => !p.awaits).foldl Thread.land { t with pend := t.pend.filter fun p => p.awaits } with line := none }

/-- The numbers of presses that a thread keeps, from physical to the crew's own, or back. -/
def Thread.mapPress (t : Thread) (f : Nat → Nat) : Thread :=
  { t with
    joined := t.joined.map fun j => { j with press := f j.press }
    park := t.park.map fun p =>
      if p.why = .press && 2 ^ 50 ≤ p.key && p.key < 2 ^ 51 then
        { p with key := 2 ^ 50 + f ((p.key - 2 ^ 50) / 256) * 256 + (p.key - 2 ^ 50) % 256 }
      else p }

/-- A press of a crew as a number of the crew, and back. -/
def Crew.pressNo (c : Crew) (p : Nat) : Nat := (c.indexOf (p / 2)).getD 0 * 2 + p % 2

/-- Every pact of a press that streams is at a suspension point and suspends there. -/
def Press.suspendAll (p : Press) : Press :=
  { p with queue := p.queue.map fun e =>
      if e.op.isPact && (e.state = .stream || (e.op = .pdgr && e.state = .deliver)) then
        { e with state := .susp, causes := { e.causes with gang := true } }
      else e }

/-- A press has nothing that must end first: no delivery and no command under way (R244). The member of a gang that has landed has ended
its own delivery. -/
def Press.canSpill (p : Press) : Bool :=
  p.queue.all fun e => if e.op.isPact then e.state ≠ .deliver || e.landed || e.op = .pdgr else e.state ≠ .stream && e.state ≠ .deliver

/-- A crew can be spilled now: its presses are at suspension points and its write streams have landed. -/
def canSpill (s : State) (n : Nat) (c : Crew) : Bool :=
  (c.pressList.all fun k => (s.press (c.physPress k)).canSpill) &&
  ((s.threads.map (·.2) ++ s.closet.map fun e => e.2.th).all fun t =>
    t.ref.crew ≠ n || t.streams.toList.all fun b => !b.isWrite || b.stopped || b.buf.isEmpty)

/-- Deliver the curds in flight of a crew, where there is room. -/
def admitCurds (s : State) (n : Nat) (c : Crew) : State :=
  (span 0 c.n).foldl (fun s i => (span 0 7).foldl (fun s p =>
    if (s.thread (c.phys i) p).ref.crew = n then (curdAdmit (c.phys i) p s).getD s else s) s) s

/-- Join what a full closet has spilled with what is saved now. -/
def CrewSave.join (old : Option CrewSave) (v : CrewSave) : CrewSave :=
  match old with
  | some o => { v with threads := o.threads.foldl (fun t e => Tbl.ins t e.1 e.2) v.threads }
  | none => v

/-- A streaming pact that PABT has named is cancelled at the suspension point where the crew stops it (Table 18.4). -/
def cancelAborted (s : State) (c : Crew) : State :=
  (c.pressList.map c.physPress).foldl (fun s p =>
    ((s.press p).queue.filter fun e => e.abort && e.state = .stream).foldl (fun s e =>
      match cancelPact s p e with | .ok t => t | .held _ => s) s) s

/-- Stop and save a crew, and write its save block; `spm` saves its scratchpads too. -/
def saveCrew (s : State) (n : Nat) (state : CrewState) (spm : Bool) : Option State :=
  match s.crew? n with
  | none => none
  | some c =>
    if !canSpill s n c then none
    else
      let s := admitCurds (cancelAborted s c) n c
      let quiet (t : Thread) : Thread := if t.ref.crew = n then t.settleAll.mapPress c.pressNo else t
      let stop (e : Nat × Press) : Nat × Press :=
        if (c.pressList.map c.physPress).contains e.1 then (e.1, e.2.suspendAll) else e
      let s := { s with
        threads := s.threads.map fun e => (e.1, quiet e.2)
        closet := s.closet.map fun e => (e.1, { e.2 with th := quiet e.2.th })
        presses := s.presses.map stop }
      let old := c.saved.map fun v => { v with threads := v.threads.map fun e => (e.1, quiet e.2) }
      let v := CrewSave.join old (captureCrew s n c spm)
      let v := { v with copies := v.copies.map CopyCmd.saved }
      let stay (h : Hold) : Bool := !s.savesHold n c spm h
      let c := { c.become state with saved := some v }
      let without (e : Nat × Vat) : Option (Nat × Vat) :=
        let x := { e.2 with copies := e.2.copies.filter fun k => k.issuer.crew ≠ n }
        if x = State.vat0 then none else some (e.1, x)
      let s := { s with holds := s.holds.filter stay, vats := s.vats.filterMap without }
      let s := (s.clearPresses c).dropThreads n
      let s := { s with crews := Tbl.ins s.crews n c }
      some (writeSave s n c v (saveBlockPA s c))

/-- A crew whose rectangle is released: one that was displaced, or lost a unit, is re-listed from there. -/
def Crew.leave (c : Crew) : Crew := { c with state := .swapped, swapWanted := false, shedMark := false, graceAt := none }

/-- GANG_PREEMPT: a running or parked crew that is to be swapped out is saved (R112, R54, R86). -/
def gangPreempt (n : Nat) (s : State) : Option State :=
  match s.crew? n with
  | some c => if c.swapWanted && (c.state = .run || c.state = .parked) then saveCrew s n .preempt false else none
  | none => none

/-- SWAP_OUT: the scratchpads of a pre-empted crew go to its save block, and its rectangle is released. -/
def swapOut (n : Nat) (s : State) : Option State :=
  match s.crew? n with
  | none => none
  | some c =>
    match c.saved with
    | none => none
    | some v =>
      if c.state ≠ .preempt || !c.swapWanted then none
      else
        let spm := (span 0 c.n).flatMap fun i => (s.cells (spmPA (c.phys i) 0) 262144).map fun x => (i * 262144 + x.1, x.2)
        let v := { v with
          spm := spm, withSpm := true
          holds := v.holds ++ (s.holds.filter (s.savesHold n c true)).filterMap s.seatHold }
        let stay (h : Hold) : Bool := !s.savesHold n c true h
        let c := { c.leave with saved := some v }
        let s := { s with crews := Tbl.ins s.crews n c, holds := s.holds.filter stay }
        some (writeSave s n c v (saveBlockPA s c))

def execGangPreempt (crew : Nat) (s : State) : Out := event s (gangPreempt crew s)
def execSwapOut (crew : Nat) (s : State) : Out := event s (swapOut crew s)

/-! ## Restoration (R126, R128) -/

/-- Put a thread context of a save back on a core of its crew: into slot 7 or its slot, or into the closet where a light thread has the
slot. -/
def seatThread (s : State) (n : Nat) (c : Crew) (both : Bool) (key : Nat) (t : Thread) : State :=
  let k := key % 2 ^ 16
  let core := c.phys (k / 8)
  if k % 8 = 7 then seatMover s core t
  else if both && key < 2 ^ 16 then seatCloset s core t
  else match (freeSlots s n core)[k % 8]? with
    | some p => s.setThread core p t
    | none => s

/-- Give holds on the scratchpads of crews that have no rectangle to their saves; with a crew that is gone they go (R128). -/
def keepAway (s : State) (l : List (Nat × Nat × Hold)) : State :=
  l.foldl (fun s x => s.modCrew x.1 fun c => { c with saved := c.saved.map fun v => { v with holds := v.holds ++ [x] } }) s

/-- Reload what a save holds into the rectangle that the crew has; none where a hold cannot be registered, or a copy engine has
no place, now. The crew then is in `state`. A hold on the scratchpad of a crew without a rectangle waits with that crew. -/
def restoreCrew (s : State) (n : Nat) (state : CrewState) : Option State :=
  match s.crew? n with
  | none => none
  | some c =>
    match c.saved with
    | none => none
    | some v =>
      let c1 := { c.become state with saved := none, started := true }
      let seat := ({ s with crews := Tbl.ins s.crews n c1 }).unseatHold
      let holds := v.holds.filterMap seat
      let clash := holds.any fun h => (holdConflict s h.owner h.write h.lo h.len).isSome
      let full := v.copies.any fun k => 32 ≤ (s.vat (vatOf (c.phys k.issuer.lcore))).copies.length
      if clash || full || !holdsFit s holds then none
      else
        let cores := (span 0 c.n).map fun i =>
          let x := Tbl.get ⟨0xFFFF, 0, []⟩ v.cores i
          (i, { x with slots := slotsFor s n c.t (c.phys i) })
        let c := { c1 with cores := cores }
        let s := mapCrew (keepAway ({ s with crews := Tbl.ins s.crews n c }.addHolds holds) (v.holds.filter fun x => (seat x).isNone)) c
        let s := if v.withSpm then
            (span 0 c.n).foldl (fun s i => (s.clear (spmPA (c.phys i) 0) 262144).putCells (spmPA (c.phys i) 0)
              (v.spm.filterMap fun x => if x.1 / 262144 = i then some (x.1 % 262144, x.2) else none)) s
          else s
        let s := v.presses.foldl (fun s p => { s with presses := Tbl.put State.press0 s.presses (c.physPress p.1) p.2 }) s
        let s := v.threads.foldl (fun s e =>
          seatThread s n c ((Tbl.find v.threads (2 ^ 16 + e.1 % 2 ^ 16)).isSome) e.1 (e.2.mapPress c.physPress)) s
        let s := v.copies.foldl (fun s k => s.modVat (vatOf (c.phys k.issuer.lcore)) fun x => { x with copies := x.copies ++ [k] }) s
        some (haltPlaced (v.curds.foldl (fun s k => s.modCore (c.phys k.1) fun x => { x with runq := x.runq ++ [k.2] }) s) n)

/-- A pre-empted crew that keeps its rectangle may run again: its class is admitted, no seal and no supply loss is under way, and
no unit of the rectangle is retired (R86, R140). -/
def mayRestore (s : State) (n : Nat) (c : Crew) : Bool :=
  !c.swapWanted && !s.shedClass c.cls && !s.sealPending c.ctx && !s.mgmt.slStarted && eligible s n c (fun _ => false) c.prow c.pcol

/-- The crew of a save runs again, and the barriers that were held pass. -/
def resumeCrew (s : State) (n : Nat) : Option State := (restoreCrew s n .run).map fun s => freeHeldBars s n

/-- CREW_RESTORE: a crew whose placement is being written commits, or a pre-empted crew is restored in place. -/
def crewRestore (n : Nat) (s : State) : Option State :=
  match s.crew? n with
  | none => none
  | some c =>
    if c.state = .load && s.hub.placing = some n then
      (resumeCrew s n).map fun s => s.modHub fun h => { h with placing := none }
    else if c.state = .preempt && mayRestore s n c then resumeCrew s n
    else none

def execCrewRestore (crew : Nat) (s : State) : Out := event s (crewRestore crew s)

/-! ## The end of INIT (R110, R138) -/

/-- End a graph at a failing address (R87, R110). -/
def endGraphAt (s : State) (gid status : Nat) (addr : Nat) : State :=
  match s.graph? gid with
  | none => s
  | some g =>
    let s := g.crews.foldl freeCrew s
    let s := { s with graphs := Tbl.del s.graphs gid }
    linkGraphs (complete s g.q g.cmd g.seq 2 status 0 addr g.cpl g.irq) g.ctx

/-- Read a range as the U-level threads of a context: the bytes, or the first failing address. -/
def readRange (s : State) (ctx : Nat) (va : Nat) (n : Nat) : List Byte ⊕ Nat :=
  let rec go (va n : Nat) (out : List Byte) : Nat → List Byte ⊕ Nat
    | 0 => .inl out
    | k + 1 =>
      if n = 0 then .inl out
      else
        let m := min n (64 - va % 64)
        match (translate s 0 ctx true false (word va) .read).2 with
        | .ok x =>
          if (targetCheck s ctx hubWs x.pa x.lvl .read).isSome || s.poisoned hubWs x.pa m then .inr va
          else go (va + m) (n - m) (out ++ bytesOf (s.read hubWs x.pa m) m) k
        | _ => .inr va
  go va n [] (n / 64 + 2)

/-- SCRIMG_COPY_DONE: the image is at offset 0 of every scratchpad, and the crew runs, or is pre-empted at once where its class
is shed. -/
def scrimgCopyDone (n : Nat) (s : State) : Option State :=
  match s.crew? n with
  | none => none
  | some c =>
    if c.real ≠ .init then none
    else
      let img := match s.graph? c.graph with | some g => g.scrimg.getD c.task (0, 0) | none => (0, 0)
      match readRange s c.ctx img.1 img.2 with
      | .inr va => some (endGraphAt s c.graph 0x0A va)
      | .inl bs =>
        let s := (span 0 c.n).foldl (fun s i => s.setBytes (spmPA (c.phys i) 0) bs) s
        if s.shedClass c.cls then saveCrew s n .preempt false
        else some (s.modCrew n fun c => c.become .run)

def execScrimgCopyDone (crew : Nat) (s : State) : Out := event s (scrimgCopyDone crew s)

/-! ## Idle swaps (R121) -/

/-- A queue has nothing to give to the threads of its consumer: no item, and no token that one of them has not had. -/
def GQueue.drained (q : GQueue) (workers : List Thread) : Bool :=
  q.items.isEmpty && (!q.eos || workers.all fun t => q.eosTo.contains t.tokenName)

/-- Every worker of the crew waits in WFW or has exited, its movement contexts wait on empty mailboxes or have exited, its input queues are empty with no token to give, and its agents have
no work. Threads that a full closet has spilled count as well. -/
def crewIdle (s : State) (n : Nat) (c : Crew) : Bool :=
  let spilled := match c.saved with | some v => v.threads.map (·.2) | none => []
  let mine := (s.threads.map (·.2) ++ (s.closet.map fun e => e.2.th) ++ spilled).filter fun t => t.ref.crew = n && t.occ
  (mine.all fun t => if t.ref.lslot = 7 then t.mailIdle else (match t.park with | some p => p.why = .wfw | none => false)) &&
  (mine.all fun t => t.outBuf.isNone) &&
  (s.cores.all fun e => e.2.runq.all fun k => k.crew ≠ n) &&
  (s.vats.all fun e => e.2.copies.all fun k => k.issuer.crew ≠ n) &&
  (s.presses.all fun e => (e.2.queue.all fun q => q.lead.crew ≠ n) && e.2.halves.all fun h => h.issuer.crew ≠ n) &&
  (match s.graph? c.graph with
    | some g => g.queues.all fun q => q.consumer ≠ c.task || q.drained (mine.filter fun t => t.ref.lslot < 7)
    | none => true)

/-- IDLE_SWAP: an idle crew is swapped out while another waits for a place. -/
def idleSwap (n : Nat) (s : State) : Option State :=
  match s.crew? n with
  | none => none
  | some c =>
    if c.state = .run && crewIdle s n c && !(waitList s).isEmpty then
      (saveCrew (s.modCrew n fun c => { c with swapWanted := true, requeue := false }) n .preempt false).bind fun s =>
        (swapOut n s).map fun s => s.modCrew n fun c => { c with idle := true }
    else none

def execIdleSwap (crew : Nat) (s : State) : Out := event s (idleSwap crew s)

/-! ## Relocation (R129 to R131) -/

/-- RELOCATION_MARK: a core is above its limit 1 ms after the first drop of its cap, and an idle rectangle exists. -/
def relocationMark (core : Nat) (s : State) : Option State :=
  match (s.core core).hotSince with
  | none => none
  | some since =>
    if s.devtime < since + 1000000 || (s.core core).temp ≤ 4 * fld s.power.therm 0 8 then none
    else
      match (s.crewsOn core).find? fun e => e.2.state = .run && !e.2.relocMark && (coolestRect s e.1 e.2).isSome with
      | some (n, _) => some (s.modCrew n fun c => { c with relocMark := true })
      | none => none

/-- Write back and invalidate the lines homed at cores through HOM = 1 (R130, step 3): which lines those are is not kept, so
that every line of those slices goes. -/
def flushSlices (s : State) (cores : List Nat) : State :=
  let s := s.l2.foldl (fun s e => if cores.contains (e.1 / 256) then e.2.foldl (fun s l => s.writeBack l (e.1 / 256)) s else s) s
  { s with
    l2 := s.l2.filter fun e => !cores.contains (e.1 / 256)
    l1 := s.l1.filter fun e => !cores.contains (e.1 / 256) }

/-- RELOCATION of a parked crew: spilled with its scratchpads, moved, mapped and restored; then the barrier releases, unless its
class is shed. Where the idle rectangle has been taken in the meantime, nothing happens: the barrier releases in place (R129). -/
def relocation (n : Nat) (s : State) : Option State :=
  match s.crew? n with
  | none => none
  | some c =>
    if c.state ≠ .parked || !c.relocMark || s.sealPending c.ctx then none
    else match coolestRect s n c with
      | none =>
        let s := s.modCrew n fun c => { c with relocMark := false }
        some (if s.shedClass c.cls then s else freeHeldBars (s.modCrew n fun c => c.become .run) n)
      | some (r, k) =>
        (saveCrew s n .reloc true).bind fun s =>
          let s := flushSlices s ((span 0 c.n).map c.phys)
          let s := s.modCrew n fun c => { c with prow := r, pcol := k, relocMark := false }
          if s.shedClass c.cls then restoreCrew s n .parked else resumeCrew s n

def execRelocationMark (core : Nat) (s : State) : Out := event s (relocationMark core s)
def execRelocation (crew : Nat) (s : State) : Out := event s (relocation crew s)

/-! ## Shedding and restoration of classes (R138 to R140) -/

/-- One crew of a class that becomes shed: what it is behind a halt decides, and the grace of a halted crew starts when it resumes
(R138). The grace that GRACE gives at the mark stands: a later write of GRACE does not time it anew (R133; DESIGN CHOICE, log entry 130). -/
def shedCrew (s : State) (n : Nat) : State :=
  match s.crew? n with
  | none => s
  | some c =>
    let grace := s.devtime + fld s.power.drpctl 0 11 * 1000
    match c.real with
    | .run => s.modCrew n fun c => { c with shedMark := true, graceAt := if c.state = .halted then none else some grace }
    | .resv | .load => abortPlacement s n
    | .parked => s.modCrew n fun c => { c with relocMark := false }
    | _ => s

/-- One crew of a class that is restored: a parked crew passes its barrier, a pre-empted one is restored in place, and a mark is
dropped. A parked crew with a seal or relocation at the barrier stays for it. -/
def unshedCrew (s : State) (n : Nat) : State :=
  match s.crew? n with
  | none => s
  | some c =>
    let s := s.modCrew n fun c => { c with shedMark := false, graceAt := none }
    match c.real with
    | .parked =>
      if c.relocMark || s.sealPending c.ctx then s
      else freeHeldBars (s.modCrew n fun c => c.become .run) n
    | .preempt => if mayRestore s n c then (resumeCrew s n).getD s else s
    | _ => s

/-- The effective ceiling takes a new value: the classes above it are shed, or those up to it restored (R137). -/
def setCeiling (s : State) (k : Nat) : State :=
  let old := s.power.eceil
  let s := s.modPower fun p => { p with eceil := k }
  let between (lo hi : Nat) : List Nat :=
    (s.crews.filter fun (e : Nat × Crew) => decide (lo < e.2.cls ∧ e.2.cls ≤ hi)).map fun e => e.1
  if k < old then (between k old).foldl shedCrew s else (between old k).foldl unshedCrew s

/-- SHED_GRACE_EXPIRY: the crew has not parked in time and is gang-pre-empted. -/
def shedGraceExpiry (n : Nat) (s : State) : Option State :=
  match s.crew? n with
  | none => none
  | some c =>
    match c.graceAt with
    | none => none
    | some at_ =>
      if c.state = .run && c.shedMark && at_ ≤ s.devtime then
        (saveCrew s n .preempt false).map fun s => s.modCrew n fun c => { c with shedMark := false, graceAt := none }
      else none

def execShedGraceExpiry (crew : Nat) (s : State) : Out := event s (shedGraceExpiry crew s)

end Sys2Proof.Machine
end

