-- ==== Sys2Proof/Machine/Power.lean ====
section
/-! DEFINITION. Following the power shelf: telemetry frames, the droop evaluation, ceilings, energy refill, sensors, thermal
limits, operating points and sleep (R25 to R30, R77, R133 to R146), and the passing of time. -/

namespace Sys2Proof.Machine

/-! ## Telemetry frames (R26 to R30) -/

/-- CRC-16/CCITT-FALSE of bytes. -/
def crc16 (l : List Nat) : Nat :=
  l.foldl (fun c b => (List.range 8).foldl (fun c _ => if 0x8000 ≤ c then (c * 2 ^^^ 0x1021) % 2 ^ 16 else c * 2) (c ^^^ b * 256))
    0xFFFF

/-- Byte i of a frame, in order of arrival: bits 8i + 7 : 8i. -/
def frameByte (f : BitVec 128) (i : Nat) : Nat := fld f (8 * i) 8

/-- A counter of PSTPST. -/
def sat255 (n : Nat) : Nat := min 255 n

/-- The supply-loss sequence starts, unless it has (R33): by SLW_N or by a frame's flag. -/
def startSupplyLoss (s : State) (byFrame : Bool) : State :=
  if s.mgmt.slStarted then s
  else (s.modMgmt fun m => { m with slStarted := true }).blackbox 0x07 0 (b2n byFrame)

/-! ## The evaluation (R134 to R137) -/

/-- The level of one breakpoint table: `le` compares a threshold with the input, `gt` two thresholds. -/
def levelFrom (tbl : Vector Word 8) (le : Nat → Bool) (gt : Nat → Nat → Bool) : Nat :=
  let l := tbl.toList.filter fun e => bit e 31
  if l.isEmpty then 7
  else
    let best := l.foldl (fun b e => if le (fld e 0 16) && (match b with | some x => gt (fld e 0 16) (fld x 0 16) | none => true)
      then some e else b) (none : Option Word)
    match best with | some e => fld e 16 3 | none => 0

/-- The raw level of the last accepted frame (R134). -/
def rawLevel (p : Power) : Nat :=
  let f := levelFrom p.fbpEff (fun t => sint t 16 ≤ p.lastFdev.toInt) fun a b => sint b 16 < sint a 16
  let v := levelFrom p.vbpEff (fun t => t ≤ p.lastVbus.toNat) fun a b => b < a
  let lv := min f v
  if p.batt then min lv (fld p.drpctlEff 18 3) else lv

/-- The written values of the registers take effect (R133). -/
def Power.latch (p : Power) : Power :=
  { p with drpctlEff := p.drpctl, fbpEff := p.fbp, vbpEff := p.vbp, lvlEff := p.lvl, grid := p.grid && !p.gridClear, gridClear := false }

/-- R135, up to CEIL. -/
def Power.evaluate (p : Power) (raw : Nat) (skip : Bool) : Power :=
  let p : Power := if skip then { p with rise := 0, low := 7 } else p
  let p : Power :=
    if raw < p.level then { p with level := raw, rise := 0 }
    else if raw = p.level then { p with rise := 0 }
    else
      let low := min p.low raw
      if p.rise + 1 = 3 then { p with level := low, rise := 0, low := low } else { p with rise := p.rise + 1, low := low }
  let p := if p.rise = 0 then { p with low := 7 } else p
  { p with raw := raw, ceil := fld (vget p.lvlEff p.level 0) 0 3 }

/-- ECEIL follows CEIL at the end of an evaluation (R137). -/
def moveCeiling (s : State) : State :=
  let p := s.power
  if p.ceil < p.eceil then setCeiling (s.modPower fun p => { p with stepAt := none }) p.ceil
  else if p.eceil < p.ceil then
    match p.stepAt with
    | some _ => s
    | none =>
      let s := setCeiling s (p.eceil + 1)
      s.modPower fun p => { p with stepAt := if p.eceil < p.ceil then some (s.devtime + 1000000) else none }
  else s.modPower fun p => { p with stepAt := none }

/-- One evaluation. -/
def evaluateWith (s : State) (raw : Power → Nat) (skip : Bool) : State :=
  let old := s.power.level
  let s := s.modPower fun p => let p := p.latch; p.evaluate (raw p) skip
  let s := if s.power.level ≠ old then s.blackbox 0x0A 0 s.power.level else s
  moveCeiling s

/-- DROOP_EVALUATION: of a loss, or of an accepted frame. -/
def droopEvaluation (s : State) : Option State :=
  if s.power.dueLost then
    some (evaluateWith (s.modPower fun p => { p with dueLost := false }) (fun p => min p.level (fld p.drpctlEff 15 3)) false)
  else match s.power.due with
    | some skip =>
      some (evaluateWith (s.modPower fun p => { p with due := none })
        (fun p => if p.lost then min (rawLevel p) (fld p.drpctlEff 15 3) else rawLevel p) skip)
    | none => none

def execDroopEvaluation (s : State) : Out := event s (droopEvaluation s)

/-- ECEIL_STEP: 1 ms after the last step. -/
def eceilStep (s : State) : Option State :=
  match s.power.stepAt with
  | some t =>
    if t ≤ s.devtime && s.power.eceil < s.power.ceil then
      let s := setCeiling s (s.power.eceil + 1)
      some (s.modPower fun p => { p with stepAt := if p.eceil < p.ceil then some (t + 1000000) else none })
    else none
  | none => none

def execEceilStep (s : State) : Out := event s (eceilStep s)

/-- PSTP_FRAME: a frame after an idle line of `idle` bit times; `clean` says that its 16 bytes arrived without a framing error
or a gap. A frame whose evaluation is still due is evaluated before the next one counts. (DEDUCED, log entry 69.) A frame with FLAGS bit 2 drops
a clear of GRID that still waits for its evaluation (DESIGN CHOICE, log entry 131). -/
def pstpFrame (f : BitVec 128) (idle : Nat) (clean : Bool) (s : State) : Option State :=
  let s := if s.power.due.isSome || s.power.dueLost then (droopEvaluation s).getD s else s
  let p := s.power
  let seq := frameByte f 1
  if idle < 20 || frameByte f 0 ≠ 0xA5 || !clean then some (s.modPower fun p => { p with framerr := sat255 (p.framerr + 1) })
  else if crc16 ((span 0 14).map (frameByte f)) ≠ frameByte f 14 * 256 + frameByte f 15 then
    some (s.modPower fun p => { p with crcerr := sat255 (p.crcerr + 1) })
  else if p.lastSeq = some seq then some s
  else
    let skipped := match p.lastSeq with | some l => (seq + 511 - l) % 256 | none => 0
    let s := if p.lost then (s.modPower fun p => { p with lost := false }).blackbox 0x0F 0 1 else s
    let flags := frameByte f 6
    let s := s.modPower fun p => { p with
      missed := sat255 (p.missed + skipped)
      lastSeq := some seq
      lastFrame := s.devtime
      lastFdev := BitVec.ofNat 16 (frameByte f 2 * 256 + frameByte f 3)
      lastVbus := BitVec.ofNat 16 (frameByte f 4 * 256 + frameByte f 5)
      batt := flags.testBit 1
      grid := p.grid || flags.testBit 2
      gridClear := p.gridClear && !flags.testBit 2
      due := some (skipped ≠ 0) }
    some (if flags.testBit 0 then startSupplyLoss s true else s)

def execPstpFrame (bytes : BitVec 128) (idle : Nat) (clean : Bool) (s : State) : Out := event s (pstpFrame bytes idle clean s)

/-- TELEMETRY_LOST: 1 ms without an accepted frame. -/
def telemetryLost (s : State) : Option State :=
  if !s.power.lost && s.power.lastFrame + 1000000 ≤ s.devtime then
    some ((s.modPower fun p => { p with lost := true, dueLost := true }).blackbox 0x0F 0 0)
  else none

/-- The host reaches the device: the link has trained, and not for the mailbox alone (R32, R80). -/
def State.hostLink (s : State) : Bool := s.hub.linkUp && !s.hub.mailboxOnly

/-- PSTPST_READ: the host reads the word, and its counters clear; the host reads nothing before its link is up (R32). -/
def pstpstRead (s : State) : Option State :=
  if s.hostLink then some (s.modPower fun p => { p with missed := 0, crcerr := 0, framerr := 0 }) else none

def execTelemetryLost (s : State) : Out := event s (telemetryLost s)
def execPstpstRead (s : State) : Out := event s (pstpstRead s)

/-! ## The passing of time (R139, R143, R161, R237) -/

/-- The pact on which a thread waits, or its half, is at a press of which a structure that it uses is under a fence (R85, R237). -/
def pactFenced (s : State) (j : Joined) : Bool :=
  let q := s.press j.press
  (match q.halves.find? fun h => h.id = j.pact && h.far = j.far with | some h => pressFenced s j.press (h.entry .half) | none => false) ||
    q.queue.any fun e => e.id = j.pact && e.op.isPact && pressFenced s j.press e

/-- A thread waits on a fence: its register file's, or that of a structure which the access that it is parked on, or the pact that it waits
for, uses; that access, or the fetch of its line, could be made if no structure were fenced. Its timeouts and its refill stop (R85).
(DEDUCED, log entry 67.) -/
def State.fenceWait (s : State) (core slot : Nat) (t : Thread) : Bool :=
  let stays (s : State) (p : Park) : Bool :=
    let s := s.at core slot
    if p.resume.isEmpty then (match (enterLine s core s.myCtx t.user t.entry t.pc).2 with | .wait => true | _ => false)
    else match ((retryParked s p).thread core slot).park with | some q => q.why = .memory | none => false
  !s.mgmt.fences.isEmpty && (s.slotFenced core slot || match t.park with
    | some p => (p.why = .memory && (p.next.isNone || !p.resume.isEmpty) && stays s p && !stays (s.modMgmt fun m => { m with fences := [] }) p) ||
        (match waitedPact s t with | some j => pactFenced s j | none => false)
    | none => false)

/-- The crew is parked by shedding, whether or not a debug halt shows before it (R139). -/
def State.shedParked (s : State) (n : Nat) : Bool :=
  match s.crew? n with | some c => c.real = .parked && s.shedClass c.cls | none => false

/-- Refill a budget over a number of boundaries. -/
def Thread.refill (t : Thread) (scale k : Nat) : Thread :=
  { t with csr := { t.csr with
    ebud := word (min (fld t.csr.ecap 0 40) (fld t.csr.ebud 0 40 + k * (fld t.csr.eref 0 24 * scale / 100))) } }

/-- The time of a thread in a slot: its park's timer counts while it waits on a send or a pact, and it is not halted, fenced or parked by
shedding (R98); a saved context is in no slot (R124). -/
def clockThread (s : State) (dt k scale : Nat) (e : Nat × Thread) : Nat × Thread :=
  let t := e.2
  let core := e.1 / 8
  let slot := e.1 % 8
  if t.ref.crew = 0 then e
  else
    let still := t.halted || s.fenceWait core slot t || s.shedParked t.ref.crew
    let t := if still || k = 0 then t else t.refill scale k
    let waits := t.sndWait.isSome || (match waitedPact s t with | some j => !halfMatched s j | none => false)
    (e.1, if t.occ && !still && waits then { t with timer := t.timer + dt } else t)

/-- Time passes. Every µs boundary refills the budgets of the threads in slots and closets; parked sends and pacts count.
(DESIGN CHOICE, log entry 46.) -/
def passTime (s : State) (dt : Nat) : State :=
  let now := s.devtime + dt
  let k := now / 1000 - s.devtime / 1000
  let scale := fld (vget s.power.lvlEff s.power.level 0) 8 8
  let fill (e : Nat × ClosetEntry) : Nat × ClosetEntry :=
    let t := e.2.th
    let core := e.1 / 24
    let fenced := s.mgmt.fences.contains (3 * 2 ^ 32 + core * 32 + 8 + e.1 % 24) || (t.park.isSome && !s.mgmt.fences.isEmpty &&
      ((s.modMgmt fun m => { m with fences := m.fences.filter fun f => f / 2 ^ 32 ≠ 3 }).setThread core 0 t).fenceWait core 0 t)
    if k = 0 || t.halted || fenced || s.shedParked t.ref.crew then e else (e.1, { e.2 with th := t.refill scale k })
  if dt = 0 then s
  else { s with devtime := now, threads := s.threads.map (clockThread s dt k scale), closet := s.closet.map fill }

/-- ENERGY_REFILL: time reaches the next µs boundary, at which the budgets are refilled. -/
def energyRefill (s : State) : Option State := some (passTime s (1000 - s.devtime % 1000))

/-- WS_REFRESH_WINDOW: time reaches the next window of 500 ns; the group that refreshes follows from DEVTIME (R192). -/
def wsRefreshWindow (s : State) : Option State := some (passTime s (500 - s.devtime % 500))

def execEnergyRefill (s : State) : Out := event s (energyRefill s)
def execWsRefreshWindow (s : State) : Out := event s (wsRefreshWindow s)

/-! ## Sensors and thermal limits (R77, R34, R146) -/

/-- Sensor kinds in the order of Table 4.1, which gives them no codes (DESIGN CHOICE, log entry 18): 0 core, 1 quad voltage,
2 quad current, 3 DRAM layer, 4 weight layer, 5 package input. -/
def sensorCount (kind : Nat) : Nat := [4096, 1024, 1024, 32, 4, 1].getD kind 0

/-- A temperature reading as a natural number of its unit; below zero it is 0. -/
def tempOf (v : BitVec 16) : Nat := v.toInt.toNat

def clim (s : State) : Nat := fld s.power.therm 0 8
def dlim (s : State) : Nat := fld s.power.therm 8 8

/-- The four cores of a quad. -/
def quadCores (q : Nat) : List Nat :=
  rectCores (q / 32 * 2) (q % 32 * 2) 2 2

/-- Every core of a quad reads at or below CLIM − 5 °C. -/
def quadCool (s : State) (q : Nat) : Bool := (quadCores q).all fun c => (s.core c).temp ≤ 4 * (clim s - 5)

/-- A core's reading. -/
def sampleCore (s : State) (core : Nat) (v : Nat) : State :=
  let hot := decide (4 * clim s < v)
  let s := s.modCore core fun c => { c with
    temp := v, hot := if hot then c.hot + 1 else 0, hotSince := if hot then c.hotSince else none }
  let q := quadOf core
  s.modPower fun p => { p with
    coolSince := if quadCool s q then (if (Tbl.find p.coolSince q).isSome then p.coolSince else Tbl.ins p.coolSince q s.devtime)
      else Tbl.del p.coolSince q }

/-- A core or DRAM-layer reading of 115 °C or more (R34). -/
def tripsAt (kind v : Nat) : Bool := (kind = 0 && 4 * 115 ≤ v) || (kind = 3 && 2 * 115 ≤ v)

/-- SENSOR_SAMPLE. -/
def sensorSample (kind idx : Nat) (v : BitVec 16) (s : State) : Option State :=
  if sensorCount kind ≤ idx then none
  else
    let s := s.modMgmt fun m => { m with
      sensors := Tbl.ins m.sensors (kind * 65536 + idx) v
      tripDue := if m.tripDue.isNone && tripsAt kind (tempOf v) then some (kind, idx) else m.tripDue }
    if kind = 0 then some (sampleCore s idx (tempOf v))
    else if kind = 3 then
      let cool (t : Option Nat) : Option Nat := if 2 * (dlim s - 5) < tempOf v then none else some (t.getD s.devtime)
      some (s.modPower fun p => { p with throttled := Tbl.modify p.throttled idx cool })
    else some s

/-- The points of a quad's clock, and the next below and above. -/
def pointDown (m : Nat) : Nat := if m = 800 then 600 else if m = 600 then 400 else 200
def pointUp (m : Nat) : Nat := if m = 200 then 400 else if m = 400 then 600 else 800

def State.cap (s : State) (q : Nat) : Nat := (Tbl.find s.power.caps q).getD 800

/-- THERMAL_CAP_DROP: ten samples in a row above CLIM. -/
def thermalCapDrop (core : Nat) (s : State) : Option State :=
  if (s.core core).hot < 10 then none
  else
    let s := s.modCore core fun c => { c with hot := 0, hotSince := some (c.hotSince.getD s.devtime) }
    some (s.modPower fun p => { p with caps := Tbl.put 800 p.caps (quadOf core) (pointDown (s.cap (quadOf core))) })

/-- THERMAL_CAP_RISE: 1 ms at or below CLIM − 5 °C. -/
def thermalCapRise (quad : Nat) (s : State) : Option State :=
  match Tbl.find s.power.coolSince quad with
  | some t =>
    if t + 1000000 ≤ s.devtime && s.cap quad < 800 then
      some (s.modPower fun p => { p with
        caps := Tbl.put 800 p.caps quad (pointUp (s.cap quad)), coolSince := Tbl.ins p.coolSince quad s.devtime })
    else none
  | none => none

/-- The latest reading of a DRAM layer. -/
def layerTemp (s : State) (layer : Nat) : Nat := tempOf ((Tbl.find s.mgmt.sensors (3 * 65536 + layer)).getD 0)

/-- DRAM_THROTTLE: a layer reads above DLIM. -/
def dramThrottle (layer : Nat) (s : State) : Option State :=
  if layer < 32 && 2 * dlim s < layerTemp s layer && (Tbl.find s.power.throttled layer).isNone then
    some (s.modPower fun p => { p with throttled := Tbl.ins p.throttled layer none })
  else none

/-- DRAM_THROTTLE_LIFT: 1 ms at or below DLIM − 5 °C. -/
def dramThrottleLift (layer : Nat) (s : State) : Option State :=
  match Tbl.find s.power.throttled layer with
  | some (some t) =>
    if t + 1000000 ≤ s.devtime && layerTemp s layer ≤ 2 * (dlim s - 5) then
      some (s.modPower fun p => { p with throttled := Tbl.del p.throttled layer })
    else none
  | _ => none

/-- THERMTRIP: a core or DRAM-layer sensor has reached 115 °C, whatever it has read since; every clock but the management's stops until a
cold reset. -/
def thermtrip (kind idx : Nat) (s : State) : Option State :=
  if !s.mgmt.thermtrip && s.mgmt.tripDue = some (kind, idx) then
    some ((s.modMgmt fun m => { m with thermtrip := true, stopped := true, tripDue := none }).blackbox 0x09 0 idx)
  else none

def execSensorSample (kind idx : Nat) (val : BitVec 16) (s : State) : Out := event s (sensorSample kind idx val s)
def execThermalCapDrop (core : Nat) (s : State) : Out := event s (thermalCapDrop core s)
def execThermalCapRise (quad : Nat) (s : State) : Out := event s (thermalCapRise quad s)
def execDramThrottle (layer : Nat) (s : State) : Out := event s (dramThrottle layer s)
def execDramThrottleLift (layer : Nat) (s : State) : Out := event s (dramThrottleLift layer s)
def execThermtrip (kind idx : Nat) (s : State) : Out := event s (thermtrip kind idx s)

/-! ## Operating points and sleep (R144, R145) -/

/-- A press streams or delivers; a single-end command does neither, but for a PRDL (R234). -/
def Press.busy (p : Press) : Bool := p.queue.any fun e => (e.op.isPact && e.state = .stream) || e.state = .deliver

/-- The presses at a core's ports. -/
def portPresses (core : Nat) : List Nat := (span 0 4).filterMap fun k => (pressOf core k).map (·.1)

/-- A slot's thread is not parked, halted, frozen or held back by its crew, or has something to take at its boundary. -/
def slotLive (s : State) (core slot : Nat) : Bool :=
  let t := s.thread core slot
  t.occ && !t.frozen && !(t.halted && t.steps = 0) && (match s.crew? t.ref.crew with | some c => c.issues | none => false) &&
    (t.trapDue || t.divertible || t.park.isNone)

/-- A slot is ready (R147): live, not fenced, and not skipping turns. -/
def slotReady (s : State) (core slot : Nat) : Bool :=
  slotLive s core slot && !s.slotFenced core slot && (s.thread core slot).skip = 0

/-- A slot is ready, or its parked instruction may be tried again. -/
def slotStirs (s : State) (core slot : Nat) : Bool :=
  slotLive s core slot ||
    (let t := s.thread core slot
     t.occ && match t.park with | some p => p.next.isNone || (!p.held && !p.resume.isEmpty) | none => false)

/-- A core may sleep: every slot is vacant or parked on something other than a memory access or a result; no curd waits; no press at its
ports is busy. The fetch of a thread whose crew does not issue is in flight no longer (R139). -/
def mayDoze (s : State) (core : Nat) : Bool :=
  ((span 0 8).all fun k =>
    let t := s.thread core k
    !slotLive s core k && (!t.occ || (t.pend.isEmpty && match t.park with
      | some p => p.why ≠ .memory || (p.resume.isEmpty && !(match s.crew? t.ref.crew with | some c => c.issues | none => false))
      | none => true))) &&
  (s.core core).runq.isEmpty && ((portPresses core).all fun p => !(s.press p).busy)

/-- OPERATING_POINT_CHANGE: the highest request of the quad's cores, under its thermal cap. -/
def operatingPointChange (quad : Nat) (s : State) : Option State :=
  let wants := (quadCores quad).any fun c =>
    ((span 0 8).any fun k => slotReady s c k) || ((portPresses c).any fun p => (s.press p).busy)
  let point := min (if wants then 800 else 200) (s.cap quad)
  if quad < 1024 then some (s.modPower fun p => { p with points := Tbl.put 200 p.points quad point }) else none

/-- CORE_SLEEP, at the depth of SLEEPD, or at depth 1 beside halted slots; depth 0 has no effect. -/
def coreSleep (core : Nat) (s : State) : Option State :=
  if core < 4096 && !(s.core core).asleep && s.sleepDepth core ≠ 0 && mayDoze s core then
    some (s.modCore core fun c => { c with asleep := true })
  else none

/-- The clock of a quad, in MHz. -/
def State.point (s : State) (quad : Nat) : Nat := (Tbl.find s.power.points quad).getD 200

/-- The wake latency of a core in ns (Table 6.12): 4 cycles of its quad's clock at depth 1. -/
def wakeNs (s : State) (core : Nat) : Nat :=
  let d := s.sleepDepth core
  if d = 3 then 20000 else if d = 2 then 2000 else ceilDiv 4000 (s.point (quadOf core))

/-- CORE_WAKE: a slot is ready, or may be, or a curd has come; at depth 2 or 3 an access of another agent wakes the core as well, and waits
for its latency (R145; DEDUCED, log entry 104). -/
def coreWake (core : Nat) (s : State) : Option State :=
  let c := s.core core
  if c.asleep && (((span 0 8).any fun k => slotStirs s core k) || !c.runq.isEmpty || 2 ≤ s.sleepDepth core) then
    some (s.modCore core fun c => { c with asleep := false, wakeAt := s.devtime + wakeNs s core })
  else none

def execOperatingPointChange (quad : Nat) (s : State) : Out := event s (operatingPointChange quad s)
def execCoreSleep (core : Nat) (s : State) : Out := event s (coreSleep core s)
def execCoreWake (core : Nat) (s : State) : Out := event s (coreWake core s)

end Sys2Proof.Machine
end

