-- ==== Sys2Proof/Machine/Queue.lean ====
section
/-! DEFINITION. Host queues: kicks, the reading and checking of commands, arbitration, completion records, and the packets that
need no engine: NOP, SIGNAL, WAITV, QFENCE (R40 to R53, R60). -/

namespace Sys2Proof.Machine

/-! ## Rings (R40, R42, R43) -/

/-- Stop codes (Table 2.10) and statuses (Table 2.16). -/
def STALEPKT : Nat := 1
def BADTYPE : Nat := 2
def BADLEN : Nat := 3
def RESV : Nat := 4
def PRIVPKT : Nat := 5
def BADKICK : Nat := 6
def RINGFLT : Nat := 7
def CTXGONE : Nat := 8
def WAITTMO : Nat := 9
def BADARG : Nat := 10
def FAULT : Nat := 1
def WSSTATE : Nat := 2
def TIMEOUT : Nat := 4
def ABORTED : Nat := 5
def LOST : Nat := 6
def NOPERM : Nat := 7
def TRUNC : Nat := 8
def NOTFOUND : Nat := 9
def GRAPHERR : Nat := 10
def EXISTS : Nat := 11
def BUSY : Nat := 12
def OVERLAP : Nat := 13

/-- A ring of n bytes at a base lies wholly in device DRAM or wholly in host memory (R40). -/
def ringPlaced (base n : Nat) : Bool :=
  base + n ≤ 0x3000000000 || (hostBit ≤ base && base + n ≤ 2 ^ 48)

/-- RINGCFG and CPLCFG may be taken: SZ in range, rings placed, reserved bits clear (R40, R49). -/
def ringOk (cfg : Word) : Bool := 6 ≤ fld cfg 0 5 && fld cfg 0 5 ≤ 16 && ringPlaced (ringBase cfg) (64 * ringSz cfg)
def cplOk (cfg : Word) : Bool := 4 ≤ fld cfg 0 5 && fld cfg 0 5 ≤ 16 && ringPlaced (ringBase cfg) (32 * ringSz cfg)
def ringResv (cfg : Word) : Bool := fld cfg 48 4 = 0 && fld cfg 5 7 = 0
def cplResv (cfg : Word) : Bool := fld cfg 48 16 = 0 && fld cfg 5 7 = 0

/-- PA of the packet with a count. -/
def packetPA (q : Queue) (n : Nat) : Nat := ringBase q.ringcfg + 64 * (n % ringSz q.ringcfg)

/-- The command processor begins commands: firmware is ready, and no supply loss is under way (R95). -/
def State.cpRuns (s : State) : Bool := s.hub.ready && !s.mgmt.slStarted && !s.mgmt.stopped

/-- The queue may read its next command: it runs, a kicked packet is at HEAD, everything that it has read has begun, and its completion
ring has room (R44, R46, R60). -/
def Queue.hasNext (q : Queue) : Bool :=
  q.state = .run && bit q.ringcfg 63 && q.head ≠ q.tail && (q.cmds.all fun c => c.begun) && cplRoom q && q.backlog.isEmpty

/-- LEN of a header, 0 read as 65,536. -/
def hdrLen (h : Nat) : Nat := if bits h 32 16 = 0 then 65536 else bits h 32 16

/-- The header word at HEAD. -/
def headerOf (s : State) (q : Queue) : Nat := s.read 0 (packetPA q q.head.toNat) 8

/-- Reading the packets of a command meets an error (R40). -/
def packetsBad (s : State) (qu : Queue) (n : Nat) : Bool :=
  (!s.poison.isEmpty || !s.hub.linkUp) && (span 0 n).any fun i => s.ringBad (packetPA qu (qu.head.toNat + i)) 64

/-- The stop code of the checks of the header (R44, step 2). -/
def headerStop (q : Nat) (qu : Queue) (h : Nat) : Option Nat :=
  let typ := bits h 0 8
  if typ = 0 || 13 < typ then some BADTYPE
  else if (typ = 8 || typ = 10) && q ≠ 0 then some PRIVPKT
  else if ringSz qu.ringcfg < hdrLen h || (typ ≠ 1 && hdrLen h ≠ 1) then some BADLEN
  else if bits h 48 16 ≠ 0 || bits h 12 4 ≠ 0 || bits h 8 2 ≠ 0 then some RESV
  else none

/-- The queue has a command ready (R44): one that the kicks cover, or a header that stops it or is to be read again. A command that waits
for later kicks leaves the other queues their turns. -/
def State.cmdAt (s : State) (q : Nat) (qu : Queue) : Bool :=
  qu.hasNext && (packetsBad s qu 1 || bits (headerOf s qu) 16 16 ≠ qu.expSeq.toNat || (headerStop q qu (headerOf s qu)).isSome ||
    hdrLen (headerOf s qu) ≤ (qu.tail - qu.head).toNat)

/-- A field of a packet: n bytes from byte b. -/
def pkt (body : BitVec 512) (b n : Nat) : Nat := fld body (8 * b) (8 * n)

/-! ## Addresses of packets (R48) -/

/-- What the address of a packet comes to. -/
inductive PktAddr where
  | ok (pa : Nat) (pte : BitVec 64)
  | fault
  | wait

/-- A weight-store address of a packet, for the replica that the hub reaches (Table 8.7; log entry 95): a read of a sealed region, or a COPY's
write into an open one. -/
def hubWeights (s : State) (ctx o : Nat) (acc : Acc) (cp : Bool) : Bool :=
  if acc = .read then (wsReadCheck s ctx hubWs o 0).isNone
  else cp && match regionAt s ctx hubWs o with | some r => !r.sealed | none => false

/-- What the hub may reach of the physical map (Table 8.2) at a translated or physical address. -/
def hubReach (s : State) (ctx pa : Nat) (pte : BitVec 64) (acc : Acc) (cp : Bool) : PktAddr :=
  match kindOf pa with
  | .ws o => if hubWeights s ctx o acc cp then .ok pa pte else .fault
  | .ctr _ => if acc = .read then .ok pa pte else .fault
  | .none => .fault
  | _ => .ok pa pte

/-- Of the windows a packet names crew scratchpad space alone (R48). -/
def ownWindow (va : Nat) : Bool := va >>> 32 = 0xFFFFFFFF && 0x40000000 ≤ va % 2 ^ 32

/-- Translate and check an address of a packet: physical on queue 0, where COPY alone (`cp`) reaches scratchpads (Table 8.2); elsewhere as a
U-level access of the queue's context. -/
def packetAddr (s : State) (q ctx va : Nat) (acc : Acc) (cp : Bool) : PktAddr :=
  if q = 0 then
    match kindOf va with
    | .spm _ _ => if cp then .ok va 0 else .fault
    | _ => hubReach s ctx va 0 acc cp
  else if ownWindow va then .fault
  else match (translate s 0 ctx true false (word va) acc).2 with
    | .flt _ _ => .fault
    | .wait => .wait
    | .ok x => hubReach s ctx x.pa x.pte acc cp

/-! ## Arbitration (R47) -/

/-- The queues of a class that satisfy p, in the order of visits: after the one visited last. -/
def inVisitOrder (s : State) (cls : Nat) (p : Nat → Queue → Bool) : List Nat :=
  let l := (s.hub.queues.filter fun e => e.2.cls = cls && p e.1 e.2).map (·.1)
  match Tbl.find s.hub.lastVisit cls with
  | none => l
  | some k => (l.filter fun q => k < q) ++ l.filter fun q => q ≤ k

/-- The ready queues of a class in the order of visits. -/
def visitOrder (s : State) (cls : Nat) : List Nat := inVisitOrder s cls s.cmdAt

/-- A command that has been read and that nothing makes wait: it is the first of its queue that has not begun, R46 and the completion ring
let it begin (R60), no asserted SLW_N keeps a LAUNCH back (R33), and the addresses that it names at its beginning can be reached. -/
def canBegin (s : State) (q : Nat) (qu : Queue) : Option Cmd :=
  if !s.cpRuns || !cplRoom qu || !qu.backlog.isEmpty then none
  else match qu.state with
  | .run | .wait => (qu.cmds.find? fun c => !c.begun).bind fun c =>
      if qu.mustWait c || (c.typ = 2 && s.hub.slw) || ((c.typ = 2 || c.typ = 6) &&
        match packetAddr s q c.ctx (pkt c.body (if c.typ = 2 then 8 else 24) 8) .read false with | .wait => true | _ => false) then none
      else some c
  | _ => none

/-- A more urgent class than one has a command to read or to begin. -/
def outranked (s : State) (cls : Nat) : Bool :=
  s.hub.queues.any fun e => e.2.cls < cls && ((canBegin s e.1 e.2).isSome || s.cmdAt e.1 e.2)

/-- The queue whose command, read before, begins next in its class: nothing more urgent is ready, and of the commands of the class that
can begin it is the first in the order of visits. A command is charged to its queue's deficit as it is read; one that has had to wait
begins, once it can, before the class reads on (DESIGN CHOICE, log entry 134). -/
def beginsNext (s : State) (q : Nat) : Bool :=
  !outranked s (s.queue q).cls && (inVisitOrder s (s.queue q).cls fun k x => (canBegin s k x).isSome).head? = some q

/-- LEN of the command at a queue's head; a header that only stops the queue, or is to be read again, costs nothing. -/
def lenAt (s : State) (q : Nat) : Nat :=
  let x := s.queue q
  let h := headerOf s x
  if packetsBad s x 1 || bits h 16 16 ≠ x.expSeq.toNat || (headerStop q x h).isSome then 0 else hdrLen h

/-- Visits that a queue needs before its deficit covers its next command. -/
def visitsFor (s : State) (q : Nat) : Nat :=
  let x := s.queue q
  let w := max 1 x.weight
  max 1 ((lenAt s q - x.deficit + w - 1) / w)

/-- The queue that begins its next command, with the deficits of the visits made on the way. A queue that waits, or has no kicked
command, loses its deficit; one that cannot begin for another reason keeps it. -/
def pickInClass (s : State) (cls : Nat) : Option (Nat × State) :=
  let order := visitOrder s cls
  let stay := match Tbl.find s.hub.lastVisit cls with
    | some k => if order.contains k && lenAt s k ≤ (s.queue k).deficit then some k else none
    | none => none
  match stay, order with
  | some k, _ => some (k, s)
  | none, [] => none
  | none, q0 :: rest =>
    let best := rest.foldl (fun b q => if visitsFor s q < visitsFor s b then q else b) q0
    let r := visitsFor s best
    let at_ := order.findIdx (· = best)
    let s := { s with hub := { s.hub with
      lastVisit := Tbl.ins s.hub.lastVisit cls best
      queues := s.hub.queues.map fun e =>
        if e.2.cls ≠ cls then e
        else if e.2.state = .wait || e.2.head = e.2.tail then (e.1, { e.2 with deficit := 0 })
        else if !order.contains e.1 then e
        else (e.1, { e.2 with deficit := e.2.deficit + e.2.weight * (if order.findIdx (· = e.1) ≤ at_ then r else r - 1) }) } }
    some (best, s)

/-- Strict priority between classes; a class reads on when none of its commands that have been read, or of a more urgent class, can
begin. -/
def arbitrate (s : State) : Option (Nat × State) :=
  (span 0 8).findSome? fun cls =>
    if s.hub.queues.any fun e => e.2.cls ≤ cls && (canBegin s e.1 e.2).isSome then none else pickInClass s cls

/-! ## Checks of a command (R44, R48, R49) -/

/-- The bytes that a type's body assigns, as ranges (Tables 2.13, 2.14). Of a CTXCTL subcommand outside Table 2.14 the spec does not say
which bytes are assigned; here bytes 16–63 are, so that it stops with BADARG alone (DESIGN CHOICE, log entry 102). -/
def assigned (typ : Nat) (body : BitVec 512) : List (Nat × Nat) :=
  match typ with
  | 2 => [(8, 56)]
  | 3 => [(8, 24)]
  | 4 => [(8, 1), (16, 16)]
  | 5 => [(8, 25), (36, 4)]
  | 6 => [(8, 2), (16, 24)]
  | 7 => [(8, 3)]
  | 8 => (8, 1) :: match pkt body 8 1 with
    | 1 => [(16, 4), (24, 21), (48, 4), (56, 8)]
    | 2 => [(16, 2)]
    | 3 => [(16, 6), (24, 16)]
    | 4 => [(16, 2), (20, 7)]
    | 5 => [(16, 3), (20, 6)]
    | 6 => [(16, 2)]
    | _ => [(16, 48)]
  | 10 => [(8, 12)]
  | 11 => [(8, 5)]
  | 12 => [(8, 1), (16, 12)]
  | 13 => [(8, 5)]
  | _ => []

/-- The reserved bytes of a packet are 0, and so are the reserved bits of assigned bytes. -/
def bodyResv (typ : Nat) (body : BitVec 512) : Bool :=
  ((span 8 56).all fun i => pkt body i 1 = 0 || (assigned typ body).any fun r => r.1 ≤ i && i < r.1 + r.2) &&
  (typ ≠ 8 || match pkt body 8 1 with
    | 1 => pkt body 44 1 < 2
    | 4 => pkt body 26 1 < 2
    | 5 => pkt body 18 1 < 16
    | _ => true)

/-- The body fields are in their ranges (R49): false is BADARG. -/
def bodyArgs (typ : Nat) (body : BitVec 512) : Bool :=
  match typ with
  | 3 => 1 ≤ pkt body 24 8 && pkt body 24 8 < 2 ^ 40
  | 4 => pkt body 8 1 ≤ 2 && pkt body 16 8 % (if pkt body 8 1 = 2 then 16 else 8) = 0
  | 5 => pkt body 8 8 % 8 = 0 && pkt body 32 1 ≤ 3
  | 6 => 1 ≤ pkt body 32 8 && pkt body 32 8 ≤ 2 ^ 32
  | 7 => pkt body 10 1 ≤ 1
  | 8 => match pkt body 8 1 with
    | 1 => pkt body 16 2 < 4096
    | 2 => true
    | 3 => 1 ≤ pkt body 16 2 && pkt body 20 1 ≤ 7 && 1 ≤ pkt body 21 1 &&
        ringOk (word (pkt body 24 8)) && ringResv (word (pkt body 24 8)) &&
        cplOk (word (pkt body 32 8)) && cplResv (word (pkt body 32 8))
    | 4 => true
    | 5 => pkt body 16 2 ≤ 1023 && pkt body 18 1 ≠ 0
    | 6 => true
    | _ => false
  | 10 => pkt body 8 8 % 64 = 0
  | 11 => pkt body 12 1 ≤ 1
  | 12 => pkt body 8 1 ≤ 2 && (pkt body 8 1 ≠ 0 || (4096 ≤ pkt body 24 4 && pkt body 24 4 % 64 = 0))
  | 13 => pkt body 12 1 ≤ 1 && (pkt body 12 1 = 1 || pkt body 8 4 = 0)
  | _ => true

/-- The rest of a NOP of several packets is reserved (R48). -/
def nopTailOk (s : State) (qu : Queue) (n : Nat) : Bool :=
  (span 1 (n - 1)).all fun i => s.read 0 (packetPA qu (qu.head.toNat + i)) 64 = 0

/-- COMMAND_FETCH: the queue that arbitration picks reads and checks its next command; HEAD and EXPSEQ advance, and the command
is ready to begin, or waits to (R46). -/
def commandFetch (q : Nat) (s : State) : Option State :=
  if !s.cpRuns then none
  else match arbitrate s with
  | none => none
  | some (k, s) =>
    if k ≠ q then none
    else
      let qu := s.queue q
      if packetsBad s qu 1 then some (stopQueue s q RINGFLT)
      else
        let h := headerOf s qu
        let len := hdrLen h
        if bits h 16 16 ≠ qu.expSeq.toNat then
          some (s.modQueue q fun x => { x with state := .wait, rereads := 1, rereadAt := s.devtime })
        else match headerStop q qu h with
        | some code => some (stopQueue s q code)
        | none =>
          if (qu.tail - qu.head).toNat < len then none
          else if packetsBad s qu len then some (stopQueue s q RINGFLT)
          else
            let body := BitVec.ofNat 512 (s.read 0 (packetPA qu qu.head.toNat) 64)
            let typ := bits h 0 8
            if !bodyResv typ body || (typ = 1 && !nopTailOk s qu len) then some (stopQueue s q RESV)
            else if !bodyArgs typ body then some (stopQueue s q BADARG)
            else
              let (id, s) := s.fresh
              let c : Cmd := ⟨id, qu.ctx, qu.expSeq.toNat, typ, len, h.testBit 10, h.testBit 11, body, false, s.devtime, 0, []⟩
              some (refreshQueue (s.modQueue q fun x => { x with
                head := x.head + BitVec.ofNat 32 len, expSeq := x.expSeq + 1, deficit := x.deficit - len
                cmds := x.cmds ++ [c] }) q)

/-- HEADER_REREAD, 1 µs after the last read: after 64 mismatches the queue stops with STALEPKT. -/
def headerReread (q : Nat) (s : State) : Option State :=
  let qu := s.queue q
  if qu.state ≠ .wait || qu.rereads = 0 || !s.cpRuns || s.devtime < qu.rereadAt + 1000 then none
  else if packetsBad s qu 1 then some (stopQueue s q RINGFLT)
  else if bits (headerOf s qu) 16 16 = qu.expSeq.toNat then
    some (refreshQueue (s.modQueue q fun x => { x with rereads := 0 }) q)
  else if qu.rereads ≥ 64 then some (stopQueue s q STALEPKT)
  else some (s.modQueue q fun x => { x with rereads := x.rereads + 1, rereadAt := s.devtime })

/-- KICK (R42). -/
def kick (q : Nat) (v : BitVec 32) (s : State) : Option State :=
  let qu := s.queue q
  if !s.hostLink then none
  else match qu.state with
  | .off | .stop => some s
  | _ =>
    if (v - qu.tail).toNat ≤ ringSz qu.ringcfg && (v - qu.head).toNat ≤ ringSz qu.ringcfg then
      some (s.modQueue q fun x => { x with tail := v })
    else some (stopQueue s q BADKICK)

/-- CPLHEAD_WRITE. -/
def cplheadWrite (q : Nat) (v : BitVec 32) (s : State) : Option State :=
  if s.hostLink then some (s.modQueue q fun x => { x with cplHead := v }) else none

/-- COMPLETION_RECORD_WRITE: the oldest record that waits, once there is room (R60). -/
def completionRecordWrite (q : Nat) (s : State) : Option State :=
  if (s.queue q).backlog.isEmpty || !cplRoom (s.queue q) then none else some (flushBacklog s q 1)

def execCommandFetch (q : Nat) (s : State) : Out := event s (commandFetch q s)
def execHeaderReread (q : Nat) (s : State) : Out := event s (headerReread q s)
def execKick (q : Nat) (val : BitVec 32) (s : State) : Out := event s (kick q val s)
def execCplheadWrite (q : Nat) (val : BitVec 32) (s : State) : Out := event s (cplheadWrite q val s)
def execCompletionRecordWrite (q : Nat) (s : State) : Out := event s (completionRecordWrite q s)

/-! ## Commands that begin (R46) -/

/-- The command of a type that its queue may begin now: it can, and it is its turn (R46, R47). -/
def nextCmd (s : State) (q typ : Nat) : Option Cmd :=
  if beginsNext s q then (canBegin s q (s.queue q)).bind fun c => if c.typ = typ then some c else none else none

/-- Go through the commands of a type that have begun and that an event means: the first one on which it does something. -/
def onBegun (s : State) (q typ : Nat) (p : Cmd → Bool) (f : Cmd → Option State) : Option State :=
  ((s.queue q).cmds.filter fun c => c.begun && c.typ = typ && p c).findSome? f

/-- The same, and then the one that may begin. -/
def onCmd (s : State) (q typ : Nat) (p : Cmd → Bool) (f : Cmd → Option State) : Option State :=
  match onBegun s q typ p f with
  | some t => some t
  | none => match nextCmd s q typ with
    | some c => if p c then f c else none
    | none => none

/-- Change a command that has been read, by its number. -/
def modCmd (s : State) (q id : Nat) (f : Cmd → Cmd) : State :=
  refreshQueue (s.modQueue q fun x => { x with cmds := x.cmds.map fun y => if y.id = id then f y else y }) q

/-- The command begins and does not complete yet. -/
def beginCmd (s : State) (q : Nat) (c : Cmd) : State :=
  modCmd s q c.id fun y => if y.begun then y else { y with begun := true, since := s.devtime }

/-- It waits: it has begun. -/
def waitCmd (s : State) (q : Nat) (c : Cmd) : Option State := if c.begun then none else some (beginCmd s q c)

/-- It waits for a write: a log without room asks for a seal. -/
def waitWrite (s : State) (q : Nat) (c : Cmd) : Option State :=
  if s.logFull c.ctx then some (beginCmd (s.wantSeal c.ctx) q c) else waitCmd s q c

/-- NOP_PACKET (R48). -/
def nopPacket (q : Nat) (s : State) : Option State := (nextCmd s q 1).map fun c => completeCmd s q c 0 0 0

def execNopPacket (q : Nat) (s : State) : Out := event s (nopPacket q s)

/-! ## Faults of packets -/

/-- FAULT of a command at an address. -/
def faultCmd (s : State) (q : Nat) (c : Cmd) (va : Nat) : State := completeCmd s q c FAULT 0 va

/-! ## Accesses of the hub (R48, R52, R53) -/

/-- The hub reads n bytes inside one line, at its home slice; a line that it reads in parts counts once (R459). -/
def hubRead (s : State) (ctx pa n : Nat) (pte : BitVec 64) (counts : Bool) : State × List Byte :=
  (if isCached pa && counts then s.engineRead hubDie (home s ctx pa pte) pa (evictFirst pte) else s, bytesOf (s.read hubWs pa n) n)

/-- The hub writes bytes inside one line, at its home slice; none while the write must wait. -/
def hubWrite (s : State) (ctx pa : Nat) (pte : BitVec 64) (bs : List Byte) : Option State :=
  if fenced s ctx hubWs pa pte then none
  else
    let s := if isCached pa then s.touchL2 (home s ctx pa pte) pa true (evictFirst pte) else s
    storeLine s ctx hubWs pa pte bs

/-- One 8-byte store of a command in the global order: none while it must wait on a hold, a fence, a seal or a rollback. -/
def cmdStore (s : State) (ctx pa : Nat) (pte : BitVec 64) (v : Nat) : Option State :=
  if (holdHit s pa 8 .write).isSome then none else hubWrite s ctx pa pte (bytesOf v 8)

def cmdReady (s : State) (ctx pa : Nat) (pte : BitVec 64) (acc : Acc) : Bool :=
  (holdHit s pa 8 acc).isNone && !fenced s ctx hubWs pa pte && !s.lineHeld ctx pa && !s.hubRefresh pa 8 &&
    !(s.poisoned hubWs pa 8 && s.ckpts ctx)

/-! ## SIGNAL (R53) -/

/-- A SIGNAL of an operation. -/
def signalOp (op : Nat) (c : Cmd) : Bool := pkt c.body 8 1 = op

/-- SIGNAL_STORE. -/
def signalStore (q : Nat) (s : State) : Option State :=
  onCmd s q 4 (signalOp 0) fun c =>
    let va := pkt c.body 16 8
    match packetAddr s q c.ctx va .write false with
    | .fault => some (faultCmd s q c va)
    | .wait => waitCmd s q c
    | .ok pa pte => match cmdStore s c.ctx pa pte (pkt c.body 24 8) with
      | some s => some (completeCmd s q c 0 0 0)
      | none => waitWrite s q c

/-- SIGNAL_ATOMIC_ADD, performed at the home slice. Uncorrectable data in a context without checkpointing ends it with FAULT, which the
spec does not say (DESIGN CHOICE, log entry 103). -/
def signalAtomicAdd (q : Nat) (s : State) : Option State :=
  onCmd s q 4 (signalOp 1) fun c =>
    let va := pkt c.body 16 8
    match packetAddr s q c.ctx va .write false with
    | .fault => some (faultCmd s q c va)
    | .wait => waitCmd s q c
    | .ok pa pte =>
      if !cmdReady s c.ctx pa pte .write then waitCmd s q c
      else if s.poisoned hubWs pa 8 then some (faultCmd s q c va)
      else match cmdStore s c.ctx pa pte ((s.read hubWs pa 8 + pkt c.body 24 8) % 2 ^ 64) with
        | some s => some (completeCmd s q c 0 0 0)
        | none => waitWrite s q c

/-- SIGNAL_ARRIVE: FAULT for an address that is no barrier of the context, or a refused update (R211, R214); a barrier whose crew has no
rectangle makes it wait, in the order in which updates were held (R216). On queue 0, whose packets reach no scratchpad, no address is a
barrier. Reserved bits that are not zero end it with FAULT, as an arrival that is refused does: the spec gives that case only for a thread
and for engines (DESIGN CHOICE, log entry 124). -/
def signalArrive (q : Nat) (s : State) : Option State :=
  onCmd s q 4 (signalOp 2) fun c =>
    let va := pkt c.body 16 8
    let ctx := c.ctx
    let src := BarSrc.signal q c.id
    let held (n : Nat) : Option State := if s.barHeld.contains (n, src) then waitCmd s q c else some (beginCmd (s.holdBar n src) q c)
    if q = 0 || va >>> 32 ≠ 0xFFFFFFFF || ownWindow va then some (faultCmd s q c va)
    else match barPA s 0 ctx (word va), windowCrew s ctx (word va) with
    | none, _ => some (faultCmd s q c va)
    | some (.inr _), n => held (n.getD 0)
    | some (.inl pa), n =>
      if tbReserved (s.read hubWs pa 16) ≠ 0 then some (faultCmd s q c va)
      else if (holdHit s pa 16 .write).isSome || fenced s ctx hubWs pa 0 then waitCmd s q c
      else if !barTurn s (n.getD 0) src then held (n.getD 0)
      else match barUpdate s ctx pa true 0 with
        | .ok t => some (completeCmd (traceTb s ctx pa true none (t.madeBar src)) q c 0 0 0)
        | .error _ => some (faultCmd (s.madeBar src) q c va)

def execSignalStore (q : Nat) (s : State) : Out := event s (signalStore q s)
def execSignalAtomicAdd (q : Nat) (s : State) : Out := event s (signalAtomicAdd q s)
def execSignalArrive (q : Nat) (s : State) : Out := event s (signalArrive q s)

/-! ## WAITV (R53) -/

/-- The condition of a WAITV on a value. -/
def waitvHolds (body : BitVec 512) (x : Nat) : Bool :=
  let v := pkt body 16 8
  let m := x &&& pkt body 24 8
  match pkt body 32 1 with
  | 0 => m = v
  | 1 => m ≠ v
  | 2 => v ≤ m
  | _ => m < v

/-- One evaluation, a load in the global order: the command completes, or waits. A host address is polled every µs. Uncorrectable data in a
context without checkpointing ends it with FAULT (DESIGN CHOICE, log entry 103). -/
def evalWaitv (s : State) (q : Nat) (c : Cmd) : Option State :=
  let va := pkt c.body 8 8
  match packetAddr s q c.ctx va .read false with
  | .fault => some (faultCmd s q c va)
  | .wait => waitCmd s q c
  | .ok pa pte =>
    if kindOf pa = .host && c.begun && s.devtime < c.polled + 1000 then none
    else if !cmdReady s c.ctx pa pte .read then waitCmd s q c
    else if s.poisoned hubWs pa 8 then some (faultCmd s q c va)
    else
      let (s, bs) := hubRead s c.ctx pa 8 pte true
      if waitvHolds c.body (ofBytes bs) then some (completeCmd s q c 0 0 0)
      else some (modCmd (beginCmd s q c) q c.id fun y => { y with polled := s.devtime })

/-- WAITV. -/
def waitv (q : Nat) (s : State) : Option State := (nextCmd s q 5).bind fun c => evalWaitv s q c

/-- WAITV_REEVALUATE. -/
def waitvReevaluate (q : Nat) (s : State) : Option State := onBegun s q 5 (fun _ => true) (evalWaitv s q)

/-- WAITV_TIMEOUT: a TIMEOUT record, and the queue stops; EN = 0 that waited for the packet is taken after that. -/
def waitvTimeout (q : Nat) (s : State) : Option State :=
  onBegun s q 5 (fun c => 0 < pkt c.body 36 4 && c.since + pkt c.body 36 4 * 1000 ≤ s.devtime) fun c =>
    some (stopQueue (finish s q c.id c.seq c.typ TIMEOUT 0 0 c.cpl c.irq) q WAITTMO)

def execWaitv (q : Nat) (s : State) : Out := event s (waitv q s)
def execWaitvReevaluate (q : Nat) (s : State) : Out := event s (waitvReevaluate q s)
def execWaitvTimeout (q : Nat) (s : State) : Out := event s (waitvTimeout q s)

/-! ## QFENCE (R50) -/

/-- QFENCE. (DEDUCED, log entry 88.) -/
def qfence (q : Nat) (s : State) : Option State :=
  onCmd s q 13 (fun _ => true) fun c =>
    if pkt c.body 12 1 = 0 then some (completeCmd s q c 0 0 0)
    else
      let q2 := pkt c.body 8 2
      let s2 := pkt c.body 10 2
      let x := s.queue q2
      let passed := decide ((x.expSeq.toNat + 2 * 65536 - s2 - 1) % 65536 < 32768)
      let before := if q2 = q then x.cmds.takeWhile fun y => y.id ≠ c.id else x.cmds
      if x.ctx ≠ c.ctx || x.state = .off || (x.state = .stop && !passed) then some (completeCmd s q c NOTFOUND 0 0)
      else if passed && before.all fun y => 32768 ≤ (s2 + 65536 - y.seq) % 65536 then some (completeCmd s q c 0 0 0)
      else waitCmd s q c

def execQfence (q : Nat) (s : State) : Out := event s (qfence q s)

end Sys2Proof.Machine
end

