-- ==== Sys2Proof/Machine/ProfileRun.lean ====
section
/-! DEFINITION. Profiling: the accounting of rotation slots, the spills, and the PROFILE packets (R100, R101). -/

namespace Sys2Proof.Machine

/-! ## Classes and reasons (R101, Table 4.13) -/

/-- The three not-ready classes and the issued one, in the order of the rotation record. -/
inductive SlotClass where
  | issued
  | memory
  | message
  | vacant
deriving DecidableEq, Repr

def SlotClass.code : SlotClass → Nat
  | .issued => 0 | .memory => 1 | .message => 2 | .vacant => 3

/-- Class and reason code of a park (DEDUCED, log entry 19: EXIT, WFW, migration (R167) and the system instructions have no code of their own,
and a register that waits for no asynchronous result counts as a message). -/
def parkClass (t : Thread) : ParkWhy → SlotClass × Nat
  | .reg => (if t.pend.isEmpty then .message else .memory, 2)
  | .memory | .system | .migrate => (.memory, 1)
  | .message | .wfw | .exit => (.message, 3)
  | .barrier | .tbar | .event => (.message, 4)
  | .pact | .pressQueue | .press => (.message, 5)
  | .budget => (.message, 6)

/-- The class of a slot's turn in this cycle, and its reason. A turn that is skipped under a wait count is in no class of R101: it counts as
not ready on memory, with the register reason, and a slot whose register file is fenced as one that waits on memory (DESIGN CHOICE, log
entry 105). -/
def slotClass (s : State) (core slot : Nat) : SlotClass × Nat :=
  let t := s.thread core slot
  if !t.occ then (.vacant, 0)
  else if slotReady s core slot then (.issued, 0)
  else if slotLive s core slot then (if s.slotFenced core slot then (.memory, 1) else (.memory, 2))
  else
    let runs := !t.frozen && !t.halted && (match s.crew? t.ref.crew with | some c => c.issues | none => false)
    match t.park with
    | some p => if runs then parkClass t p.why else (.message, 7)
    | none => (.message, 7)

/-! ## Tables -/

def sat48 (n : Nat) : Nat := min (2 ^ 48 - 1) n

/-- Add 1 to a rotation count or a histogram bin. -/
def profCount (s : State) (key : Nat) : State :=
  s.modHub fun h => { h with prof := Tbl.upd 0 h.prof key fun n => sat48 (n + 1) }

/-- Write a PC entry to the ring of its context. -/
def spillPc (s : State) (core : Nat) (e : PcEntry) : State :=
  profPut s e.ctx (bytesOf 0x10 1 ++ bytesOf e.reason 1 ++ bytesOf core 2 ++ bytesOf e.ctx 2 ++ bytesOf 0 2 ++
    bytesOf e.line.toNat 8 ++ bytesOf e.count 6 ++ bytesOf 0 10)

/-- Count a line and reason in a core's PC table; another key is spilled first. -/
def countPc (s : State) (core : Nat) (line : Word) (reason ctx : Nat) : State :=
  let k := core * 256 + Config.pcHash line.toNat reason % 256
  let put (s : State) (e : PcEntry) : State := s.modHub fun h => { h with pcs := Tbl.ins h.pcs k e }
  match Tbl.find s.hub.pcs k with
  | none => put s ⟨line, reason, ctx, 1⟩
  | some e =>
    if e.line = line && e.reason = reason && e.ctx = ctx then put s { e with count := sat48 (e.count + 1) }
    else put (spillPc s core e) ⟨line, reason, ctx, 1⟩

/-- The cores that hold a crew of a context that is profiled (or of the one context). -/
def profCores (s : State) (p : Nat → Bool) : List Nat :=
  ((s.crews.filter fun e => e.2.state.holds && p e.2.ctx).flatMap fun e => (span 0 e.2.n).map e.2.phys).eraseDups

/-- One cycle of a core. -/
def accountCore (s : State) (core : Nat) : State :=
  let s := (span 0 8).foldl (fun s k =>
    let (c, reason) := slotClass s core k
    let s := profCount s (core * 64 + k * 4 + c.code)
    let t := s.thread core k
    let ctx := s.ctxOf t.ref.crew
    if c ≠ .vacant && s.profiled ctx then countPc s core (lineOf t.pc) reason ctx else s) s
  profCount s (core * 64 + 32 + ((span 0 8).filter fun k => slotReady s core k).length)

/-- PROFILE_ACCOUNT: one CCLK cycle. -/
def profileAccount (s : State) : Option State := some ((profCores s s.profiled).foldl accountCore s)

def execProfileAccount (s : State) : Out := event s (profileAccount s)

/-! ## Spills -/

/-- Write a core's rotation counts and histogram to a context's ring, and clear them. -/
def spillCore (ctx : Nat) (s : State) (core : Nat) : State :=
  let n (i : Nat) : List Byte := bytesOf (Tbl.get 0 s.hub.prof (core * 64 + i)) 6
  let s' := (span 0 8).foldl (fun s k =>
    profPut s ctx (bytesOf 0x11 1 ++ bytesOf k 1 ++ bytesOf core 2 ++ bytesOf 0 4 ++ (span 0 4).flatMap fun i => n (k * 4 + i))) s
  let s' := profPut s' ctx (bytesOf 0x12 1 ++ bytesOf 0 1 ++ bytesOf core 2 ++ bytesOf 0 4 ++
    ((span 0 9).flatMap fun i => n (32 + i)) ++ bytesOf 0 2)
  s'.modHub fun h => { h with prof := h.prof.filter fun e => e.1 / 64 ≠ core }

/-- Spill all tables and counters to a context's ring (R101): its PC entries, and the rotation counts and histograms of every core that has
counted and is not in use by another context that is profiled. What has been spilled starts again at 0 (DEDUCED, log entry 19). -/
def profSpill (s : State) (ctx : Nat) : State :=
  match s.ctx? ctx with
  | none => s
  | some c =>
    if c.profSize = 0 then s
    else
      let mine := s.hub.pcs.filter fun e => e.2.ctx = ctx
      let s := s.modHub fun h => { h with pcs := h.pcs.filter fun e => e.2.ctx ≠ ctx }
      let s := mine.foldl (fun s e => spillPc s (e.1 / 256) e.2) s
      let own := profCores s fun k => k = ctx
      let others := profCores s fun k => k ≠ ctx && s.profiled k
      let counted := (s.hub.prof.map fun e => e.1 / 64).eraseDups.filter fun k => own.contains k || !others.contains k
      (own ++ counted.filter fun k => !own.contains k).foldl (spillCore ctx) s

/-! ## PROFILE packets (R54, R100) -/

/-- A PROFILE of an operation. -/
def profOp (op : Nat) (c : Cmd) : Bool := pkt c.body 8 1 = op

/-- PROFILE_START: an earlier ring is spilled to, and the new ring has its header. (DEDUCED, log entry 78.) -/
def profileStart (q : Nat) (s : State) : Option State :=
  onCmd s q 12 (profOp 0) fun c =>
    let va := pkt c.body 16 8
    let ctx := c.ctx
    match packetAddr s q ctx va .write false with
    | .fault => some (faultCmd s q c va)
    | .wait => waitCmd s q c
    | .ok _ _ =>
      let s := if s.profiled ctx then profSpill s ctx else s
      let ring := if q = 0 then 2 ^ 64 + va else va
      let s := s.modCtx ctx fun x => { x with
        profOn := true, profRing := ring, profSize := pkt c.body 24 4, profUnits := 0, profDropped := 0 }
      let s := (ringPut s ctx ring (bytesOf 0x46505253 8 ++ bytesOf 0 16 ++ bytesOf s.devtime 8 ++ bytesOf 0 32)).getD s
      some (completeCmd s q c 0 0 0)

/-- PROFILE_STOP: profiling that is not running is no live target (R54). -/
def profileStop (q : Nat) (s : State) : Option State :=
  onCmd s q 12 (profOp 1) fun c =>
    let ctx := c.ctx
    if s.profiled ctx then some (completeCmd (s.modCtx ctx fun x => { x with profOn := false }) q c 0 0 0)
    else some (completeCmd s q c NOTFOUND 0 0)

/-- PROFILE_SPILL: the same. -/
def profileSpill (q : Nat) (s : State) : Option State :=
  onCmd s q 12 (profOp 2) fun c =>
    let ctx := c.ctx
    some (if s.profiled ctx then completeCmd (profSpill s ctx) q c 0 0 0 else completeCmd s q c NOTFOUND 0 0)

def execProfileStart (q : Nat) (s : State) : Out := event s (profileStart q s)
def execProfileStop (q : Nat) (s : State) : Out := event s (profileStop q s)
def execProfileSpill (q : Nat) (s : State) : Out := event s (profileSpill q s)

end Sys2Proof.Machine
end

