-- ==== Sys2Proof/Machine/Graphs.lean ====
section
/-! DEFINITION. LAUNCH and its descriptor, the allocation of a graph's range, retirement, and PREEMPT (R51, R54, R75, R90, R105,
R120, R122). -/

namespace Sys2Proof.Machine

/-! ## The descriptor (Table 3.7) -/

/-- A field of n bytes from byte o of a list. -/
def field (l : List Byte) (o n : Nat) : Nat := ofBytes ((l.drop o).take n)

/-- A task entry. -/
structure TaskDesc where
  h : Nat
  w : Nat
  t : Nat
  light : Bool
  entry : Nat
  mentry : Nat
  img : Nat
  imgLen : Nat
deriving DecidableEq, Repr

/-- A queue entry. -/
structure QueueDesc where
  producer : Nat
  consumer : Nat
  cap : Nat
  len : Nat
deriving DecidableEq, Repr

/-- The header's task and queue counts, where the header is well formed; reserved bytes are 0. (DEDUCED, log entry 70.) -/
def parseHeader (l : List Byte) : Option (Nat × Nat) :=
  let nt := field l 6 2
  let nq := field l 8 2
  if field l 0 4 = 0x44475253 && field l 4 2 = 1 && 1 ≤ nt && nt ≤ 4096 && nq ≤ 4096 && field l 10 54 = 0 then some (nt, nq) else none

def parseTask (l : List Byte) : Option TaskDesc :=
  let h := field l 0 2
  let w := field l 2 2
  let t := field l 4 1
  if 1 ≤ h && h ≤ 64 && 1 ≤ w && w ≤ 64 && 1 ≤ t && t ≤ 7 && field l 5 1 ≤ 1 && field l 6 2 = 0 && field l 32 4 ≤ 262144 &&
      field l 36 28 = 0 then
    some ⟨h, w, t, field l 5 1 = 1, field l 8 8, field l 16 8, field l 24 8, field l 32 4⟩
  else none

def parseQueue (nt : Nat) (l : List Byte) : Option QueueDesc :=
  let p := field l 0 2
  let c := field l 2 2
  if (p < nt || p = 0xFFFF) && (c < nt || c = 0xFFFF) && 1 ≤ field l 4 2 && 1 ≤ field l 6 1 && field l 6 1 ≤ 8 && field l 7 9 = 0 then
    some ⟨p, c, field l 4 2, field l 6 1⟩
  else none

/-- Read bytes at a packet's address: physical on queue 0. -/
def readPacket (s : State) (q ctx va n : Nat) : List Byte ⊕ Nat :=
  if q = 0 then
    match packetAddr s 0 ctx va .read false, packetAddr s 0 ctx (va + n - 1) .read false with
    | .ok _ _, .ok _ _ => if s.poisoned hubWs va n then .inr va else .inl (bytesOf (s.read hubWs va n) n)
    | .ok _ _, _ => .inr (va + n - 1)
    | _, _ => .inr va
  else readRange s ctx va n

/-- The tasks and queues of a descriptor, or the AUX of a failure: a failing address, or 0 for a malformed descriptor. -/
def parseDesc (s : State) (q ctx va : Nat) : (List TaskDesc × List QueueDesc) ⊕ Nat :=
  match readPacket s q ctx va 64 with
  | .inr a => .inr a
  | .inl hd =>
    match parseHeader hd with
    | none => .inr 0
    | some (nt, nq) =>
      match readPacket s q ctx (va + 64) (64 * nt + 16 * nq) with
      | .inr a => .inr a
      | .inl l =>
        let ts := (span 0 nt).map fun i => parseTask ((l.drop (64 * i)).take 64)
        let qs := (span 0 nq).map fun i => parseQueue nt ((l.drop (64 * nt + 16 * i)).take 16)
        if ts.all Option.isSome && qs.all Option.isSome then .inl (ts.filterMap id, qs.filterMap id) else .inr 0

/-- The first address of a range that a U-level read of the context may not make. -/
def rangeBad (s : State) (ctx va n : Nat) : Option Nat :=
  let rec go (va n : Nat) : Nat → Option Nat
    | 0 => none
    | k + 1 =>
      if n = 0 then none
      else match (translate s 0 ctx true false (word va) .read).2 with
        | .ok _ => go (va + min n (4096 - va % 4096)) (n - min n (4096 - va % 4096)) k
        | _ => some va
  go va n (n / 4096 + 2)

/-- A code address that the context's U-level threads may not execute at, or that is none (R283). R75 says that a descriptor which still
holds an index fails, and the code address is all that tells one from a resolved descriptor: an index of the form of a code address
passes where the low pages may be executed (DESIGN CHOICE, log entry 129). -/
def codeBad (s : State) (ctx va : Nat) : Option Nat :=
  if (tgtForm (word va)).isSome then some va
  else match (translate s 0 ctx true false (word va) .exec).2 with
    | .ok _ => none
    | _ => some va

/-- The failing address of a task entry. -/
def taskBad (s : State) (ctx : Nat) (t : TaskDesc) : Option Nat :=
  match codeBad s ctx t.entry with
  | some a => some a
  | none =>
    match if t.mentry = 0 then none else codeBad s ctx t.mentry with
    | some a => some a
    | none => if t.imgLen = 0 then none else rangeBad s ctx t.img t.imgLen

/-! ## The graph's range (R90, Table 4.17) -/

/-- The lowest free offset of 64 bytes from 0x2000 at which n bytes fit below a limit. -/
def firstFit (used : List (Nat × Nat)) (n lim : Nat) : Option Nat :=
  let fits (o : Nat) : Bool := o + n ≤ lim && used.all fun u => o + n ≤ u.1 || u.1 + u.2 ≤ o
  let cands := (0x2000 :: used.map fun u => ceilDiv (u.1 + u.2) 64 * 64).filter fits
  match cands with
  | [] => none
  | a :: r => some (r.foldl min a)

/-- A crew as LAUNCH enters it into the wait list. -/
def newCrew (s : State) (gid cls ctx task : Nat) (t : TaskDesc) (saveOff : Nat) : Crew where
  graph := gid
  task := task
  cls := cls
  ctx := ctx
  state := .wait
  back := .wait
  h := t.h
  w := t.w
  t := t.t
  light := t.light
  entry := word t.entry
  mentry := word t.mentry
  lrow := 0
  lcol := 0
  prow := 0
  pcol := 0
  started := false
  bars := Vector.replicate 8 ⟨false, 0, false⟩
  expected := 0
  shedMark := false
  graceAt := none
  relocMark := false
  waitSince := s.devtime
  swapWanted := false
  requeue := false
  idle := false
  saveOff := saveOff
  saved := none
  cores := []

/-- Bytes of a task's save block. -/
def TaskDesc.saveBytes (t : TaskDesc) : Nat := 64 + 286720 * (t.h * t.w) + 67584 * (t.h * (t.w - 1) + (t.h - 1) * t.w)

/-- Offsets of consecutive parts from a first offset. -/
def offsets (o : Nat) : List Nat → List Nat
  | [] => []
  | n :: r => o :: offsets (o + n) r

/-- The bytes of a graph record (Table 4.17), with no successor yet. -/
def Graph.record (g : Graph) : List Byte :=
  bytesOf g.q 2 ++ bytesOf g.seq 2 ++ bytesOf g.crews.length 2 ++ bytesOf g.queues.length 2 ++ bytesOf 0 8 ++ bytesOf g.off 8 ++
    bytesOf g.bytes 8 ++ bytesOf g.snapOff 8 ++ bytesOf (if g.queues.isEmpty then 0 else g.qOff) 8 ++ bytesOf g.qSnapOff 8 ++ bytesOf 0 8

/-! ## LAUNCH (R105) -/

/-- The queues of a new graph with their headers; a queue of the host has its one item and its token (R120). -/
def initQueues (s : State) (gid : Nat) (args : List Word) : State :=
  match s.graph? gid with
  | none => s
  | some g => (span 0 g.queues.length).foldl (fun s i =>
      let s := writeQHeader s gid i
      match g.queues[i]? with
      | some x =>
        if x.producer = 0xFFFF then
          gqEos (gqPush s gid i ((span 0 x.len).map fun k => args.getD k 0)) gid i
        else s
      | none => s) s

/-- Steps 2 to 4 for a descriptor that has passed; none where the range does not fit. The BTEXT digest, which attestation reports
for the last LAUNCH, is in no field that the device reads: it is a free value (DESIGN CHOICE, log entry 6). -/
def startGraph (s : State) (q : Nat) (c : Cmd) (ts : List TaskDesc) (qs : List QueueDesc) : Option State :=
  let ctx := c.ctx
  match s.ctx? ctx with
  | none => none
  | some x =>
    let sizes := ts.map TaskDesc.saveBytes
    let saves := sizes.foldl (· + ·) 0
    let qsizes := qs.map fun d => 64 * (1 + d.cap)
    let qbytes := qsizes.foldl (· + ·) 0
    let k := if x.ckpt then 2 else 1
    let total := k * saves + k * qbytes + 64
    let used := s.graphs.filterMap fun g => if g.2.ctx = ctx then some (g.2.off, g.2.bytes) else none
    match firstFit used total (x.saveSize / 2) with
    | none => none
    | some off =>
      let gid := s.hub.nextGraph
      let n0 := s.hub.nextCrew
      let args := (span 0 6).map fun i => word (pkt c.body (16 + 8 * i) 8)
      let qOff := off + k * saves
      let g : Graph :=
        { q := q, cmd := c.id, seq := c.seq, ctx := ctx, cpl := c.cpl, irq := c.irq, args := args
          crews := span n0 ts.length
          queues := (qs.zip (offsets qOff qsizes)).map fun d => ⟨d.1.producer, d.1.consumer, d.1.len, d.1.cap, d.2, [], 0, 0, false, []⟩
          start := s.devtime, err := false, lastQ := [], lastTo := [], off := off, bytes := total
          snapOff := if x.ckpt then off + saves else 0
          qOff := qOff
          qSnapOff := if x.ckpt then qOff + qbytes else 0
          recOff := off + total - 64
          scrimg := ts.map fun t => (t.img, t.imgLen) }
      let s := s.modHub fun h => { h with nextGraph := gid + 1, nextCrew := n0 + ts.length }
      let (w0, s) := s.free
      let (w1, s) := s.free
      let s := s.modCtx ctx fun x => { x with digest := w0.setWidth 256 ||| (w1.setWidth 256 <<< 64) }
      let s := { s with graphs := Tbl.ins s.graphs gid g }
      let cls := (s.queue q).cls
      let s := (ts.zip (offsets off sizes)).zip (span 0 ts.length) |>.foldl (fun s e =>
        { s with crews := Tbl.ins s.crews (n0 + e.2) (newCrew s gid cls ctx e.2 e.1.1 e.1.2) }) s
      let s := initQueues s gid args
      some (linkGraphs (s.setBytes (x.save + g.recOff) g.record) ctx)

/-- LAUNCH: FAULT where a step fails, with nothing placed; it waits to begin while SLW_N is asserted (R33, R51). -/
def launch (q : Nat) (s : State) : Option State :=
  match nextCmd s q 2 with
  | none => none
  | some c =>
    let va := pkt c.body 8 8
    match packetAddr s q c.ctx va .read false with
    | .fault => some (faultCmd s q c va)
    | .wait => none
    | .ok _ _ =>
      match parseDesc s q c.ctx va with
      | .inr a => some (faultCmd s q c a)
      | .inl (ts, qs) =>
        match ts.findSome? (taskBad s c.ctx) with
        | some a => some (faultCmd s q c a)
        | none => match startGraph (beginCmd s q c) q c ts qs with
          | some s => some s
          | none => some (faultCmd s q c 0)

def execLaunch (q : Nat) (s : State) : Out := event s (launch q s)

/-! ## Retirement (R122) -/

/-- The thread contexts of a crew, wherever they are. -/
def State.crewThreads (s : State) (n : Nat) : List Thread :=
  let saved := match s.crew? n with
    | some c => match c.saved with | some v => v.threads.map (·.2) | none => []
    | none => []
  ((s.threads.map (·.2)) ++ (s.closet.map fun e => e.2.th)).filter (fun t => t.ref.crew = n) ++ saved

/-- A thread has still to receive the token of one of its queues: such a queue is not empty for it (DEDUCED, log entry 20). -/
def Graph.owes (g : Graph) (task : Nat) (t : Thread) : Bool :=
  g.queues.any fun x => x.consumer = task && x.eos && !x.eosTo.contains t.tokenName

/-- The worker waits in WFW with nothing to come. -/
def Thread.wfwIdle (t : Thread) : Bool :=
  t.outBuf.isNone && match t.park with | some p => p.why = .wfw | none => false

/-- Every thread of a crew is at its end. -/
def crewDone (s : State) (g : Graph) (n : Nat) : Bool :=
  match s.crew? n with
  | none => false
  | some c =>
    let l := (s.crewThreads n).filter fun t => t.occ
    let workers := l.filter fun t => t.ref.lslot ≠ 7
    c.started && workers.length = c.expected && (workers.all fun t => t.wfwIdle && !g.owes c.task t) &&
      (l.all fun t => t.ref.lslot ≠ 7 || t.mailIdle) &&
      (s.crewThreads n).all fun t => t.outBuf.isNone

/-- No agent of a crew has work in flight, and no hold of it remains. -/
def crewQuiet (s : State) (n : Nat) : Bool :=
  let own := s.ownersOf n
  (s.holds.all fun h => h.owner = 0 || !own.contains h.owner) &&
  (s.vats.all fun e => e.2.copies.all fun k => k.issuer.crew ≠ n) &&
  (s.cores.all fun e => e.2.runq.all fun k => k.crew ≠ n) &&
  (s.presses.all fun e => (e.2.queue.all fun x => x.lead.crew ≠ n) && e.2.halves.all fun h => h.issuer.crew ≠ n) &&
  match s.crew? n with
  | some c => match c.saved with
    | some v => v.copies.isEmpty && v.curds.isEmpty && (v.holds.all fun h => !own.contains h.2.2.owner) &&
        v.presses.all fun p => p.2.queue.isEmpty && p.2.halves.isEmpty
    | none => true
  | none => true

/-- Every condition of R122 holds. -/
def mayRetire (s : State) (g : Graph) : Bool :=
  !g.crews.isEmpty && (g.queues.all fun x => (x.consumer ≠ 0xFFFF || x.eos) && x.items.isEmpty) &&
    g.crews.all fun n => crewDone s g n && crewQuiet s n

/-- GRAPH_RETIRE. -/
def graphRetire (gid : Nat) (s : State) : Option State :=
  match s.graph? gid with
  | none => none
  | some g =>
    if mayRetire s g then
      some (endGraph (profSpill s g.ctx) gid (if g.err then GRAPHERR else 0) (s.devtime - g.start))
    else none

def execGraphRetire (gid : Nat) (s : State) : Out := event s (graphRetire gid s)

/-! ## PREEMPT (R54) -/

/-- A PREEMPT of an operation. -/
def preemptOp (op : Nat) (c : Cmd) : Bool := pkt c.body 12 1 = op

/-- The live graph that a PREEMPT of a queue names, in the queue's context. -/
def preemptTarget (s : State) (c : Cmd) : Option Graph :=
  (s.graphs.find? fun g => g.2.q = pkt c.body 8 2 && g.2.seq = pkt c.body 10 2 && g.2.ctx = c.ctx).map (·.2)

/-- Bring one crew towards SWAPPED. A crew that was swapped while idle is not listed again by an item (DEDUCED, log entry 21). -/
def preemptCrew (s : State) (n : Nat) : State :=
  match s.crew? n with
  | none => s
  | some c =>
    if c.state.holds then s.modCrew n fun c => c.evict false
    else
      let s := if c.state = .resv || c.state = .load then abortPlacement s n else s
      s.modCrew n fun c => { c with state := .swapped, idle := false, requeue := false }

/-- Every crew of a graph is SWAPPED. -/
def allSwapped (s : State) (g : Graph) : Bool :=
  g.crews.all fun n => match s.crew? n with | some c => c.state = .swapped | none => true

/-- PREEMPT_SWAP_OUT: it begins, and it completes when the last crew is SWAPPED. -/
def preemptSwapOut (q : Nat) (s : State) : Option State :=
  onCmd s q 11 (preemptOp 0) fun c =>
    match preemptTarget s c with
    | none => some (completeCmd s q c NOTFOUND 0 0)
    | some g =>
      if c.begun then (if allSwapped s g then some (completeCmd s q c 0 0 0) else none)
      else
        let s := g.crews.foldl preemptCrew s
        if allSwapped s g then some (completeCmd s q c 0 0 0) else some (beginCmd s q c)

/-- PREEMPT_RESTORE. -/
def preemptRestore (q : Nat) (s : State) : Option State :=
  onCmd s q 11 (preemptOp 1) fun c =>
    match preemptTarget s c with
    | none => some (completeCmd s q c NOTFOUND 0 0)
    | some g =>
      let relist (s : State) (n : Nat) : State := s.modCrew n fun c =>
        if c.state = .swapped then { c with state := .wait, idle := false, waitSince := s.devtime } else c
      some (completeCmd (g.crews.foldl relist s) q c 0 0 0)

def execPreemptSwapOut (q : Nat) (s : State) : Out := event s (preemptSwapOut q s)
def execPreemptRestore (q : Nat) (s : State) : Out := event s (preemptRestore q s)

end Sys2Proof.Machine
end

