-- ==== Sys2Proof/Machine/HubEng.lean ====
section
/-! DEFINITION. The hub copy engine and the weight packets: COPY, WSLOAD and WSSEAL (R52, R57 to R59, R203). -/

namespace Sys2Proof.Machine

/-! ## Access of the hub (R48) -/

/-- Translate a range for a COPY, piece by piece: pieces of pages, then the address that fails, or a wait. -/
def hubPieces (s : State) (q ctx : Nat) (acc : Acc) (va left : Nat) (out : List (Nat × Nat × Nat × BitVec 64)) :
    Nat → List (Nat × Nat × Nat × BitVec 64) × PktAddr
  | 0 => (out, .ok 0 0)
  | n + 1 =>
    if left = 0 then (out, .ok 0 0)
    else
      let k := min left (4096 - va % 4096)
      match packetAddr s q ctx va acc true with
      | .ok pa pte => hubPieces s q ctx acc ((va + k) % 2 ^ 64) (left - k) (out ++ [(va, pa, k, pte)]) n
      | x => (out, x)

/-- Pieces of n bytes at most. -/
def cutPieces (l : List (Nat × Nat × Nat × BitVec 64)) (n : Nat) : List (Nat × Nat × Nat × BitVec 64) :=
  match l with
  | [] => []
  | (va, pa, k, e) :: r => if n = 0 then [] else if n ≤ k then [(va, pa, n, e)] else (va, pa, k, e) :: cutPieces r (n - k)

/-- Bytes of pieces. -/
def piecesLen (l : List (Nat × Nat × Nat × BitVec 64)) : Nat := l.foldl (fun a p => a + p.2.2.1) 0

/-! ## COPY (R52) -/

/-- The owner number of the holds of a COPY. -/
def hubOwner (id : Nat) : Nat := 2 ^ 40 + id

/-- The holds of a COPY, for as many bytes as both ranges translate, the translations that it latches, and the first failing address; none
while a crew that an address names is not placed. -/
structure CopyPlan where
  holds : List Hold
  pages : List (Nat × Nat × BitVec 64)
  len : Nat
  bad : Option Nat

def copyPlan (s : State) (q : Nat) (c : Cmd) : Option CopyPlan :=
  let src := pkt c.body 8 8
  let dst := pkt c.body 16 8
  let n := pkt c.body 24 8
  let (ps, rs) := hubPieces s q c.ctx .read src n [] (n / 4096 + 2)
  let (pd, rd) := hubPieces s q c.ctx .write dst n [] (n / 4096 + 2)
  let waits (r : PktAddr) : Bool := match r with | .wait => true | _ => false
  let fails (r : PktAddr) : Bool := match r with | .fault => true | _ => false
  if waits rs || waits rd then none
  else
    let m := min (piecesLen ps) (piecesLen pd)
    let o := hubOwner c.id
    let bad := if fails rs && piecesLen ps ≤ piecesLen pd then some (src + piecesLen ps)
      else if fails rd then some (dst + piecesLen pd) else none
    some ⟨holdsOf 2 o c.ctx false (joinPieces (cutPieces ps m)) ++ holdsOf 2 o c.ctx true (joinPieces (cutPieces pd m)),
      if q = 0 then [] else latchPages (ps ++ pd), m, bad⟩

/-- COPY: the holds are registered, or the command waits on conflicting ones and on full tables. A copy whose own ranges meet, or
that needs more entries than a table accepts, ends with FAULT (DEDUCED, log entry 22). -/
def copy (q : Nat) (s : State) : Option State :=
  onCmd s q 3 (fun c => s.hub.copies.all fun h => h.id ≠ c.id) fun c =>
    match copyPlan s q c with
    | none => waitCmd s q c
    | some p =>
      match p.bad, p.len with
      | some a, 0 => some (faultCmd s q c a)
      | _, _ =>
        match register s p.holds with
        | .param => some (faultCmd s q c 0)
        | .rhld _ _ | .wait => waitCmd s q c
        | .ok s =>
          some (beginCmd (s.modHub fun h => { h with
            copies := h.copies ++
              [⟨q, c.id, c.ctx, p.pages, false, pkt c.body 8 8, pkt c.body 16 8, pkt c.body 24 8, 0, true, p.bad.map fun a => (p.len, a)⟩] }) q c)

/-- What moving a copy on comes to. -/
inductive HubMove where
  | done (s : State)
  | fault (s : State) (landed addr : Nat)
  | wait (s : State) (landed : Nat)

/-- An address of a command in progress: the translation that it has latched, or a new one once a TLBI has completed, which must name the
same physical address (R180). -/
def HubCopy.xlate (s : State) (x : HubCopy) (va : Nat) (acc : Acc) : PktAddr :=
  if x.q = 0 || ownWindow va then packetAddr s x.q x.ctx va acc true
  else match engineXlate s 0 x.ctx true x.pages x.retrans (word va) acc with
    | .flt _ _ => .fault
    | .wait => .wait
    | .ok y => hubReach s x.ctx y.pa y.pte acc true

/-- A page that did not translate at issue ends a command there, whatever it translates to by then (R52, R180). -/
def HubCopy.badAt (x : HubCopy) (done : Nat) : Option Nat :=
  match x.bad with | some (n, a) => if n ≤ done then some a else none | none => none

/-- Move the bytes from offset `done`, one line of the destination or source at a time. Uncorrectable data of a context without
checkpointing ends the copy with FAULT, DETAIL the bytes landed and AUX its address, which the spec does not say (DESIGN CHOICE, log
entry 103). -/
def hubMove (s : State) (x : HubCopy) (done : Nat) : Nat → HubMove
  | 0 => .done s
  | n + 1 =>
    if x.bytes ≤ done then .done s
    else match x.badAt done with
    | some a => .fault s done a
    | none =>
      let sa := x.src + done
      let da := x.dst + done
      let k := min (min (64 - sa % 64) (64 - da % 64)) (x.bytes - done)
      match x.xlate s sa .read, x.xlate s da .write with
      | .fault, _ => .fault s done sa
      | .ok _ _, .fault => .fault s done da
      | .ok ps es, .ok pd ed =>
        if s.poisoned hubWs ps k then (if s.ckpts x.ctx then .wait s done else .fault s done sa)
        else if fenced s x.ctx hubWs ps es || s.hubRefresh ps k then .wait s done
        else
          let (s1, bs) := hubRead s x.ctx ps k es (done = 0 || sa % 64 = 0)
          match hubWrite s1 x.ctx pd ed bs with
          | some s => hubMove s x (done + k) n
          | none => .wait s done
      | _, _ => .wait s done

/-- The command of a hub copy, or of a load. -/
def hubCmd (s : State) (x : HubCopy) : Option Cmd := (s.queue x.q).cmds.find? fun c => c.id = x.id

/-- End a hub copy: its holds are released, and then its command completes. -/
def endHubCopy (s : State) (i : Nat) (x : HubCopy) (status landed aux : Nat) : State :=
  let s := (s.modHub fun h => { h with copies := h.copies.eraseIdx i }).dropHolds (hubOwner x.id) fun _ => true
  match hubCmd s x with
  | some c => completeCmd s x.q c status landed aux
  | none => s

/-- HUB_COPY_DONE: the rest of copy i lands, as far as nothing stops it. -/
def hubCopyDone (i : Nat) (s : State) : Option State :=
  match s.hub.copies[i]? with
  | none => none
  | some x =>
    match hubMove s x x.done (x.bytes / 32 + 4) with
    | .done s => some (endHubCopy s i x 0 x.bytes 0)
    | .fault s landed a => some (endHubCopy s i x FAULT landed a)
    | .wait s landed =>
      if landed = x.done && !s.logFull x.ctx then none
      else
        let s := if s.logFull x.ctx then s.wantSeal x.ctx else s
        some (s.modHub fun h => { h with copies := setNth h.copies i { x with done := landed } })

def execCopy (q : Nat) (s : State) : Out := event s (copy q s)
def execHubCopyDone (i : Nat) (s : State) : Out := event s (hubCopyDone i s)

/-! ## WSLOAD (R58) -/

/-- A registered region. -/
def State.region? (s : State) (r : Nat) : Option Region := Tbl.find s.hub.regions r

def State.modRegion (s : State) (r : Nat) (f : Region → Region) : State :=
  s.modHub fun h => { h with regions := Tbl.modify h.regions r f }

/-- WSLOAD: WSSTATE unless the region is open, the context's own (any on queue 0), and holds the range. It latches the translations of
its source (R180). -/
def wsload (q : Nat) (s : State) : Option State :=
  match nextCmd s q 6 with
  | none => none
  | some c =>
    let r := pkt c.body 8 2
    let va := pkt c.body 24 8
    let n := pkt c.body 32 8
    match s.region? r with
    | none => some (completeCmd s q c WSSTATE 0 0)
    | some g =>
      if g.sealed || (q ≠ 0 && g.ctx ≠ c.ctx) || g.size < pkt c.body 16 8 + n then some (completeCmd s q c WSSTATE 0 0)
      else match packetAddr s q c.ctx va .read false with
        | .fault => some (faultCmd s q c va)
        | .wait => none
        | .ok _ _ =>
          let (ps, last) := hubPieces s q c.ctx .read va n [] (n / 4096 + 2)
          let pages := if q = 0 then [] else latchPages ps
          let bad := match last with | .fault => some (piecesLen ps, va + piecesLen ps) | _ => none
          let s := s.modHub fun h => { h with loads := h.loads ++ [⟨q, c.id, c.ctx, pages, false, va, r, n, 0, true, bad⟩] }
          some (beginCmd (s.modRegion r fun g => { g with busy := g.busy + 1 }) q c)

/-- Write bytes at an offset of every die of a mask; a granule that is written whole is sound again. -/
def putWeights (s : State) (dies : BitVec 4) (off : Nat) (bs : List Byte) : State :=
  ((span 0 4).filter fun d => bit dies d).foldl (fun s d =>
    let s := { s with ws := (bs.zip (span off bs.length)).foldl (fun w e => Tbl.put 0 w (d * 2 ^ 32 + e.2) e.1) s.ws }
    if off % 64 = 0 && bs.length = 64 then
      { s with wsPoison := s.wsPoison.filter (· ≠ d * 2 ^ 26 + off / 64) }
    else s) s

/-- Load the bytes from offset `done`, one line of the source at a time; scratchpads are not reached from queue 0 (Table 8.2). -/
def loadWeights (s : State) (x : HubCopy) (off : Nat) (dies : BitVec 4) (done : Nat) : Nat → HubMove
  | 0 => .done s
  | n + 1 =>
    if x.bytes ≤ done then .done s
    else match x.badAt done with
    | some a => .fault s done a
    | none =>
      let a := x.src + done
      let o := off + done
      let k := min (min (64 - a % 64) (64 - o % 64)) (x.bytes - done)
      match if x.q = 0 then packetAddr s 0 x.ctx a .read false else x.xlate s a .read with
      | .fault => .fault s done a
      | .wait => .wait s done
      | .ok pa pte =>
        if s.poisoned hubWs pa k then (if s.ckpts x.ctx then .wait s done else .fault s done a)
        else if fenced s x.ctx hubWs pa pte || s.hubRefresh pa k then .wait s done
        else
          let (s, bs) := hubRead s x.ctx pa k pte (done = 0 || a % 64 = 0)
          loadWeights (putWeights s dies o bs) x off dies (done + k) n

/-- WSLOAD_DONE: the WSLOAD of queue i ends; a load that must wait starts again from its first byte, and one whose region has been sealed
meanwhile writes nothing (DEDUCED, log entry 23). A load lands whole in one event, so that of
overlapping loads of different queues one wins on every sector, where the spec leaves the order of each sector open (DESIGN CHOICE, log
entry 106). -/
def wsloadDone (i : Nat) (s : State) : Option State :=
  match s.hub.loads.find? fun x => x.q = i with
  | none => none
  | some x =>
    match hubCmd s x with
    | none => none
    | some c =>
      let gone (s : State) : State := s.modHub fun h => { h with loads := h.loads.filter fun y => y.id ≠ x.id }
      match s.region? x.dst with
      | none => some (completeCmd (gone s) i c WSSTATE 0 0)
      | some g =>
        let finish (s : State) (status landed aux : Nat) : State :=
          completeCmd (gone (s.modRegion x.dst fun g => { g with busy := g.busy - 1 })) i c status landed aux
        if g.sealed then some (finish s WSSTATE 0 0)
        else match loadWeights s x (g.off + pkt c.body 16 8) g.dies 0 (x.bytes / 32 + 4) with
        | .done s => some (finish s 0 x.bytes 0)
        | .fault s landed a => some (finish s FAULT landed a)
        | .wait _ _ => none

def execWsload (q : Nat) (s : State) : Out := event s (wsload q s)
def execWsloadDone (i : Nat) (s : State) : Out := event s (wsloadDone i s)

/-! ## WSSEAL (R59) -/

/-- A WSSEAL of an operation. -/
def sealOp (op : Nat) (c : Cmd) : Bool := pkt c.body 10 1 = op

/-- WSSEAL_SEAL: it waits for the loads of the region that were under way when it began (DEDUCED, log entry 23); the seal of a sealed region
completes at once. -/
def wssealSeal (q : Nat) (s : State) : Option State :=
  onCmd s q 7 (sealOp 0) fun c =>
    let r := pkt c.body 8 2
    match s.region? r with
    | none => some (completeCmd s q c NOTFOUND 0 0)
    | some g =>
      if g.sealed then some (completeCmd s q c 0 0 0) else
      let now := (s.hub.loads.filter fun x => x.dst = r).map (·.id)
      let before := if c.begun then now.filter c.waits.contains else now
      if before.isEmpty then some (completeCmd (s.modRegion r fun g => { g with sealed := true }) q c 0 0 0)
      else if c.begun then none
      else some (modCmd (beginCmd s q c) q c.id fun y => { y with waits := before })

/-- WSSEAL_REOPEN: every fetch of an engine is one event of this model, so that none is under way. -/
def wssealReopen (q : Nat) (s : State) : Option State :=
  onCmd s q 7 (sealOp 1) fun c =>
    match s.region? (pkt c.body 8 2) with
    | none => some (completeCmd s q c NOTFOUND 0 0)
    | some _ => some (completeCmd (s.modRegion (pkt c.body 8 2) fun g => { g with sealed := false }) q c 0 0 0)

def execWssealSeal (q : Nat) (s : State) : Out := event s (wssealSeal q s)
def execWssealReopen (q : Nat) (s : State) : Out := event s (wssealReopen q s)

end Sys2Proof.Machine
end

