-- ==== Sys2Proof/Machine/CtxCtl.lean ====
section
/-! DEFINITION. CTXCTL on queue 0: contexts, the binding of queues, and the registration of weight regions (R55 to R59, R90, R94,
R96). -/

namespace Sys2Proof.Machine

/-- The CTXCTL command of a subcommand that may run now. -/
def ctxCmd (s : State) (sub : Nat) : Option Cmd :=
  match nextCmd s 0 8 with | some c => if pkt c.body 8 1 = sub then some c else none | none => none

/-- Run a subcommand: its status, and the state where it is OK. -/
def ctxctl (sub : Nat) (f : State → BitVec 512 → Nat ⊕ State) (s : State) : Option State :=
  (ctxCmd s sub).map fun c => match f s c.body with
    | .inl status => completeCmd s 0 c status 0 0
    | .inr s => completeCmd s 0 c 0 0 0

/-! ## CREATE (R55, R56, R90) -/

/-- The fields of a new context. -/
def newCtx (s : State) (asid root save size : Nat) (ckpt : Bool) (period : Nat) (tvec : Word) : Ctx where
  asid := asid
  root := root
  save := save
  saveSize := size
  ckpt := ckpt
  period := if ckpt then (if period = 0 then 10000 else period) else 0
  tvec := tvec &&& vecMask
  l2p := []
  interval := if ckpt then 1 else 0
  sealed := 0
  lastSeal := s.devtime
  sealWanted := false
  sealQ := []
  undo := []
  outs := []
  snap := none
  profOn := false
  profRing := 0
  profSize := 0
  profUnits := 0
  profDropped := 0
  faults := 0
  digest := 0

/-- Bytes 24–47 of the context header: marker, open interval, time of the last seal. -/
def State.writeMarks (s : State) (c : Ctx) : State :=
  (((s.write (c.save + 16) 1 (b2n c.ckpt + 2 * b2n (c.sealed ≠ 0))).write (c.save + 24) 8 c.sealed).write (c.save + 32) 8 c.interval).write
    (c.save + 40) 8 c.lastSeal

/-- Enter a context, with its header (Table 4.16) and an empty fault ring. -/
def addCtx (s : State) (n : Nat) (c : Ctx) : State :=
  let s := { s with ctxs := Tbl.ins s.ctxs n c }
  let s := s.clear c.save 8192
  let s := s.setBytes c.save (bytesOf 0x48435253 4 ++ bytesOf n 2 ++ bytesOf c.asid 2 ++ bytesOf c.saveSize 8)
  (s.writeMarks c).writeEnds c

/-- The page-table root and the save area can be used: the root lies in device DRAM, and so does the save area, whose size R90
bounds (DEDUCED, log entry 24 for the save area's place). -/
def placesOk (root save size : Nat) : Bool :=
  root % 4096 = 0 && root + 4096 ≤ 0x3000000000 && size % 4096 = 0 && 16384 ≤ size && save + size ≤ 0x3000000000

def createCtx (s : State) (b : BitVec 512) : Nat ⊕ State :=
  let n := pkt b 16 2
  let root := pkt b 24 8
  let save := pkt b 32 8
  let size := pkt b 40 4
  if n = 0 then .inl NOPERM
  else if (s.ctx? n).isSome then .inl EXISTS
  else if !placesOk root save size then .inl FAULT
  else .inr (addCtx s n (newCtx s (pkt b 18 2) root save size (pkt b 44 1 = 1) (pkt b 48 4) (word (pkt b 56 8))))

/-! ## DESTROY (R56) -/

/-- The outputs that a context holds back are done with: records are written, the rest is discarded (DEDUCED, log entry 25). From here on
its records are held no more. -/
def closeOutputs (s : State) (n : Nat) : State :=
  match s.ctx? n with
  | none => s
  | some c =>
    let s := s.modCtx n fun c => { c with ckpt := false, outs := [], undo := [] }
    c.outs.reverse.foldl (fun s o => match o with | .record q r irq _ _ => putRecord s q r irq | _ => s) s

/-- A COPY or WSLOAD of a context is under way, or a load into a region of it. -/
def hubBusy (s : State) (n : Nat) : Bool :=
  s.hub.copies.any (fun x => x.ctx = n) ||
    s.hub.loads.any fun x => x.ctx = n || match s.region? x.dst with | some g => g.ctx = n | none => false

/-- What a queue has begun for a context runs to completion (R45), and ends as its number is freed where it waits for what will never come: a
COPY, SIGNAL or WAITV with FAULT at the address that translates no more, a CKPT with ABORTED (DESIGN CHOICE, log entry 107). -/
def endCmds (n : Nat) (s : State) (q : Nat) : State :=
  ((s.queue q).cmds.filter fun c => c.ctx = n && c.begun).foldl (fun s c =>
    if c.typ = 3 || c.typ = 5 then faultCmd s q c (pkt c.body 8 8)
    else if c.typ = 4 then faultCmd s q c (pkt c.body 16 8)
    else if c.typ = 9 then completeCmd s q c ABORTED 0 0
    else s) s

/-- Steps 1 and 2 of a DESTROY: every bound queue stops, one that is OFF among them, and every graph is aborted. -/
def closeCtx (s : State) (n : Nat) : State :=
  let s := closeOutputs s n
  let qs := (s.hub.queues.filter fun e => e.1 ≠ 0 && e.2.ctx = n && !(e.2.state = .stop && e.2.code = CTXGONE)).map (·.1)
  let s := qs.foldl (fun s q => stopQueue s q CTXGONE) s
  let gs := (s.graphs.filter fun g => g.2.ctx = n).map (·.1)
  gs.foldl (fun s g => endGraph s g ABORTED 0) s

/-- Steps 3 to 5: the regions, the TLBs and the holds, and the number is free. -/
def freeCtx (s : State) (n : Nat) : State :=
  match s.ctx? n with
  | none => s
  | some c =>
    let s := (s.hub.queues.map (·.1)).foldl (endCmds n) s
    let s := { s with holds := s.holds.filter fun h => h.ctx ≠ n }
    let s := s.modHub fun h => { h with
      regions := h.regions.filter fun r => r.2.ctx ≠ n
      remotes := h.remotes.filter fun r => r.ctx ≠ n
      pcs := h.pcs.filter fun e => e.2.ctx ≠ n }
    let s := (flushTlb s c.asid none).modMgmt fun m => { m with lostCtx := m.lostCtx.filter (· ≠ n) }
    { s with ctxs := Tbl.del s.ctxs n }

/-! ## QSET and QRESET (R45, R56) -/

/-- A queue that is enabled after a reset: its graphs that the supply loss left swapped wait for a place, and those of a lost context, which
have no crews any more, end with LOST (R96). -/
def resumeQueue (s : State) (q : Nat) : State :=
  let gs := s.graphs.filter fun g => g.2.q = q
  gs.foldl (fun s g =>
    if g.2.crews.isEmpty then endGraph s g.1 LOST 0
    else g.2.crews.foldl (fun s n => s.modCrew n fun c =>
      if c.state = .swapped && c.requeue then { c with state := .wait, requeue := false, waitSince := s.devtime } else c) s) s

/-- QSET. Records that still wait for room stay in the backlog, and go into the completion ring of the new binding, which the rule does not
say (DESIGN CHOICE, log entry 128). -/
def qsetQueue (s : State) (b : BitVec 512) : Nat ⊕ State :=
  let q := pkt b 16 2
  let n := pkt b 18 2
  if (s.queue q).state ≠ .off then .inl BUSY
  else if (s.ctx? n).isNone then .inl NOTFOUND
  else
    let bound := s.modQueue q fun x => { x with
      ringcfg := setFld (word (pkt b 24 8)) 63 1 1, cplcfg := word (pkt b 32 8), ctx := n, cls := pkt b 20 1, weight := pkt b 21 1
      state := .run, code := 0, head := 0, tail := 0, cplHead := 0, cplTail := 0, expSeq := 0, ringNext := none, rereads := 0, deficit := 0
      cmds := x.cmds.filter fun c => c.begun }
    .inr (resumeQueue bound q)

/-- QRESET. A queue that is enabled while its context is gone runs, bound to the number of a context that is not there: what its commands
translate ends in FAULT, which the rule does not say (DESIGN CHOICE, log entry 127). -/
def qresetQueue (s : State) (b : BitVec 512) : Nat ⊕ State :=
  let q := pkt b 16 2
  let x := s.queue q
  let n := BitVec.ofNat 32 (pkt b 20 4)
  let on := decide (pkt b 26 1 = 1)
  if q = 0 then .inl NOPERM
  else if x.ringcfg = 0 then .inl NOTFOUND
  else if x.state = .run || x.state = .wait then .inl BUSY
  else
    let s := s.modQueue q fun x => { x with
      ringcfg := setFld x.ringcfg 63 1 (b2n on), state := if on then .run else .off, code := 0, head := n, tail := n
      expSeq := BitVec.ofNat 16 (pkt b 24 2), ringNext := none, rereads := 0, deficit := 0, cmds := x.cmds.filter fun c => c.begun }
    .inr (refreshQueue (if on then resumeQueue s q else s) q)

/-! ## WSREG and WSFREE (R57, R59) -/

/-- Two regions meet on a die. -/
def Region.meets (a b : Region) : Bool := a.dies &&& b.dies ≠ 0 && a.off < b.off + b.size && b.off < a.off + a.size

def wsregRegion (s : State) (b : BitVec 512) : Nat ⊕ State :=
  let r := pkt b 16 2
  let size := (if pkt b 22 2 = 0 then 65536 else pkt b 22 2) * 65536
  let g : Region := ⟨pkt b 24 2, BitVec.ofNat 4 (pkt b 18 1), pkt b 20 2 * 65536, size, false, 0⟩
  if (s.region? r).isSome then .inl EXISTS
  else if (s.ctx? g.ctx).isNone then .inl NOTFOUND
  else if 2 ^ 32 < g.off + g.size || s.hub.regions.any fun e => e.2.meets g then .inl OVERLAP
  else .inr (s.modHub fun h => { h with regions := Tbl.ins h.regions r g })

def wsfreeRegion (s : State) (b : BitVec 512) : Nat ⊕ State :=
  let r := pkt b 16 2
  match s.region? r with
  | none => .inl NOTFOUND
  | some g => if g.sealed || g.busy ≠ 0 then .inl BUSY else .inr (s.modHub fun h => { h with regions := Tbl.del h.regions r })

/-! ## The subcommands -/

def create (s : State) : Option State := ctxctl 1 createCtx s
/-- DESTROY (R56): it waits, between its second step and its third, until the context's copies and loads are over; what a QSET, QRESET or
LAUNCH has bound to the context meanwhile is closed as well. -/
def destroy (s : State) : Option State :=
  onCmd s 0 8 (fun c => pkt c.body 8 1 = 2) fun c =>
    let n := pkt c.body 16 2
    if n = 0 then some (completeCmd s 0 c NOPERM 0 0)
    else if (s.ctx? n).isNone then some (completeCmd s 0 c NOTFOUND 0 0)
    else
      let t := closeCtx s n
      if !hubBusy t n then some (completeCmd (freeCtx t n) 0 c 0 0 0)
      else if c.begun then none
      else some (beginCmd t 0 c)

def qset (s : State) : Option State := ctxctl 3 qsetQueue s
def qreset (s : State) : Option State := ctxctl 4 qresetQueue s
def wsreg (s : State) : Option State := ctxctl 5 wsregRegion s
def wsfree (s : State) : Option State := ctxctl 6 wsfreeRegion s

def execCreate (s : State) : Out := event s (create s)
def execDestroy (s : State) : Out := event s (destroy s)
def execQset (s : State) : Out := event s (qset s)
def execQreset (s : State) : Out := event s (qreset s)
def execWsreg (s : State) : Out := event s (wsreg s)
def execWsfree (s : State) : Out := event s (wsfree s)

end Sys2Proof.Machine
end

