-- ==== Sys2Proof/Machine/Ckpt.lean ====
section
/-! DEFINITION. Checkpoints and unrecoverable faults: the seal of an interval, rollback, CKPT packets (R87 to R94). -/

namespace Sys2Proof.Machine

/-! ## What a seal takes of a crew (R92, steps 1 and 2) -/

/-- The crew's image for the snapshot, with its scratchpads, and the holds of its own agents, which `own` names: those on its scratchpads, and
the others. (DEDUCED, log entry 71.) -/
def sealImage (s : State) (c : Crew) (own : List Nat) (others : List (Nat × Nat × Hold)) : Crew :=
  let add (v : CrewSave) : CrewSave :=
    let v := if v.withSpm || !c.state.holds then v
      else { v with
        withSpm := true
        spm := (span 0 c.n).flatMap fun i => (s.cells (spmPA (c.phys i) 0) 262144).map fun x => (i * 262144 + x.1, x.2) }
    { v with holds := (v.holds.filter fun h => own.contains h.2.2.owner) ++ others }
  { c with saved := c.saved.map add }

/-- The holds of a crew's agents that a save with its scratchpads leaves in the tables: by the crew that they are on, or by address. -/
def otherHolds (s : State) (n : Nat) (c : Crew) (own : List Nat) : List (Nat × Nat × Hold) :=
  (s.holds.filter fun h => h.owner ≠ 0 && own.contains h.owner && !s.savesHold n c true h).map fun h => (s.seatHold h).getD (0, 0, h)

/-- Gang-park a crew, take its image, and put it back; a crew that is parked in its save block is taken as it is. None while a
press or a write stream has something to end. -/
def sealCrew (s : State) (n : Nat) : Option (State × Crew) :=
  match s.crew? n with
  | none => none
  | some c =>
    let own := s.ownersOf n
    let others := otherHolds s n c own
    if c.real.holds && c.real ≠ .preempt then
      (saveCrew s n c.real true).bind fun s1 =>
        (restoreCrew s1 n c.real).map fun s2 =>
          (s2, sealImage s1 (match s1.crew? n with | some x => x | none => c) own others)
    else some (s, sealImage s c own others)

/-- The images of a context's crews. -/
def sealCrews (s : State) : List Nat → Option (State × List (Nat × Crew))
  | [] => some (s, [])
  | n :: r => (sealCrew s n).bind fun x => (sealCrews x.1 r).map fun y => (y.1, (n, x.2) :: y.2)

/-- PA of a crew's snapshot block. -/
def snapBlockPA (s : State) (c : Crew) : Nat :=
  match s.ctx? c.ctx, s.graph? c.graph with
  | some x, some g => x.save + g.snapOff + (c.saveOff - g.off)
  | _, _ => 0

/-- Write a crew's snapshot block. -/
def writeSnap (s : State) (e : Nat × Crew) : State :=
  match e.2.saved with
  | some v => writeSave s e.1 e.2 v (snapBlockPA s e.2)
  | none => s

/-- Bytes of a graph's queue storage. -/
def Graph.qBytes (g : Graph) : Nat := g.queues.foldl (fun a x => a + 64 * (1 + x.cap)) 0

/-- Write back the lines of logged pages that are dirty (step 3): those that the undo log names. -/
def writeBackLines (s : State) (lines : List Nat) : State :=
  (lines.filter s.dirty.contains).foldl (fun s l =>
    let slice := (s.l2.find? fun e => e.2.contains l).map fun e => e.1 / 256
    let s := match slice with | some c => s.countDram (l * 64) c | none => s
    { s with dirty := s.dirty.filter (· ≠ l) }) s

/-! ## The seal (R92) -/

/-- Release a held output: a write, or a unit of a copy. -/
def releaseWrite (s : State) : HeldOut → State
  | .host pa bs => (s.setBytes pa bs).unpoison pa bs.length
  | .remote v id j => releaseUnit s v id j
  | .record _ _ _ _ _ => s
  | .silent _ _ => s

/-- Release a held record; one that found no room in the output buffer goes into that of the new interval (R89). -/
def releaseRecord (s : State) : HeldOut → State
  | .record q r irq cmd late => if late then s.record q r irq cmd else putRecord s q r irq
  | _ => s

/-- A crew that its barrier parked for the seal goes on, unless its class is shed or it is to be relocated (R406, R131). -/
def unparkCrew (s : State) (n : Nat) : State :=
  match s.crew? n with
  | some c =>
    if c.real = .parked && !c.relocMark && !s.shedClass c.cls then freeHeldBars (s.modCrew n fun c => c.become .run) n else s
  | none => s

/-- The CKPT command of a context that a queue waits with. -/
def ckptDone (ctx k : Nat) (s : State) (q : Nat) : State :=
  match (s.queue q).cmds.find? fun c => c.begun && c.typ = 9 && c.ctx = ctx with
  | some c => completeCmd s q c 0 k 0
  | none => s

/-- The header of a context after a change of its interval. -/
def State.writeHeader (s : State) (ctx : Nat) : State :=
  match s.ctx? ctx with | some c => (s.writeMarks c).writeEnds c | none => s

/-- INTERVAL_SEAL. -/
def intervalSeal (ctx : Nat) (s : State) : Option State :=
  match s.ctx? ctx with
  | none => none
  | some c =>
    if !c.ckpt || !c.sealWanted || s.mgmt.slStarted then none
    else
      let ns := (s.crews.filter fun e => e.2.ctx = ctx).map (·.1)
      match sealCrews s ns with
      | none => none
      | some (s, imgs) =>
        let s := imgs.foldl writeSnap s
        let gs := s.graphs.filter fun g => g.2.ctx = ctx
        let s := gs.foldl (fun s g => s.copyRange (c.save + g.2.qOff) (c.save + g.2.qSnapOff) g.2.qBytes) s
        let s := writeBackLines s (c.undo.map (·.1))
        let k := c.interval
        let s := s.modCtx ctx fun x => { x with
          sealed := k, interval := k + 1, lastSeal := s.devtime, sealWanted := false, sealQ := [], undo := []
          snap := some ⟨k, imgs, gs⟩ }
        let s := s.modMgmt fun m => { m with markers := Tbl.ins m.markers ctx k }
        let s := c.sealQ.foldl (ckptDone ctx k) s
        let outs := (match s.ctx? ctx with | some x => x.outs | none => []).reverse
        let s := s.modCtx ctx fun x => { x with outs := [] }
        let s := outs.foldl releaseRecord (outs.foldl releaseWrite s)
        some (ns.foldl unparkCrew (s.writeHeader ctx))

def execIntervalSeal (ctx : Nat) (s : State) : Out := event s (intervalSeal ctx s)

/-- CHECKPOINT_PERIOD. -/
def checkpointPeriod (ctx : Nat) (s : State) : Option State :=
  match s.ctx? ctx with
  | some c => if c.ckpt && !c.sealWanted && c.lastSeal + c.period * 1000 ≤ s.devtime then some (s.wantSeal ctx) else none
  | none => none

def execCheckpointPeriod (ctx : Nat) (s : State) : Out := event s (checkpointPeriod ctx s)

/-- CKPT_PACKET: it asks for the seal and waits for it; a context without checkpointing has no interval, and it completes at once
(DEDUCED, log entry 26). -/
def ckptPacket (q : Nat) (s : State) : Option State :=
  match nextCmd s q 9 with
  | none => none
  | some c =>
    let ctx := c.ctx
    if !s.ckpts ctx then some (completeCmd s q c 0 0 0)
    else some (beginCmd (s.modCtx ctx fun x => { x with sealWanted := true, sealQ := x.sealQ ++ [q] }) q c)

def execCkptPacket (q : Nat) (s : State) : Out := event s (ckptPacket q s)

/-! ## Rollback (R93, R94, R210) -/

/-- Stop what the context's commands have begun: copies and loads begin again, and so do launches whose graph is not live again
(DEDUCED, log entry 27). -/
def restartCmds (s : State) (ctx : Nat) (gs : List (Nat × Graph)) : State :=
  let mine := s.hub.copies.filter fun x => x.ctx = ctx
  let own := mine.map fun x => hubOwner x.id
  let loads := s.hub.loads.filter fun x => x.ctx = ctx
  let s := { s with holds := s.holds.filter fun h => !own.contains h.owner && !(h.agent = 8 && h.ctx = ctx) }
  let s := loads.foldl (fun s x => s.modRegion x.dst fun g => { g with busy := g.busy - 1 }) s
  let s := s.modHub fun h => { h with
    copies := h.copies.filter fun x => x.ctx ≠ ctx, loads := h.loads.filter fun x => x.ctx ≠ ctx
    remotes := h.remotes.filter fun r => r.ctx ≠ ctx }
  let live (c : Cmd) : Bool := gs.any fun g => g.2.cmd = c.id
  (s.hub.queues.map (·.1)).foldl (fun s q =>
    let s := s.modQueue q fun x => { x with cmds := x.cmds.map fun c =>
      if c.ctx = ctx && c.begun && (c.typ = 3 || c.typ = 6 || (c.typ = 2 && !live c)) then { c with begun := false } else c }
    refreshQueue s q) s

/-- A command whose record is discarded, or that has completed without one, is to complete again (R94): it stands among its queue's commands in
their order, and begins again; a LAUNCH whose graph is live again has begun. -/
def completeAgain (gs : List (Nat × Graph)) (s : State) (o : HeldOut) : State :=
  let back (q : Nat) (c : Cmd) : State :=
    let c := { c with begun := c.typ = 2 && gs.any fun g => g.2.cmd = c.id }
    refreshQueue (s.modQueue q fun x => { x with cmds := sortBy (fun a b => a.id < b.id) (c :: x.cmds.filter fun y => y.id ≠ c.id) }) q
  match o with
  | .record q _ _ (some c) _ => back q c
  | .silent q c => back q c
  | _ => s

/-- Bring one crew of a snapshot back, still saved: at the place that it holds now, or at that of the snapshot, where it may stand there;
else it is displaced, and listed again (Table 5.4). -/
def reloadCrew (old : List (Nat × Crew)) (s : State) (e : Nat × Crew) : State :=
  let n := e.1
  let c := e.2
  if !c.state.holds then
    { s with crews := Tbl.ins s.crews n (if c.state = .swapped then c else { c with state := .wait }) }
  else
    let c := match Tbl.find old n with
      | some x => if x.state.holds then { c with prow := x.prow, pcol := x.pcol } else c
      | none => c
    let s1 := { s with crews := Tbl.ins s.crews n { c with state := .preempt } }
    if eligible s1 n c (fun _ => false) c.prow c.pcol then s1
    else { s with crews := Tbl.ins s.crews n { c with state := .swapped, back := .wait, requeue := true, waitSince := s.devtime } }

/-- A saved crew's holds that stand while it is saved are registered, before any crew resumes (R128, R210): all but those of its copies on
scratchpads, and those on scratchpads that are saved. -/
def rehold (s : State) (e : Nat × Crew) : State :=
  match s.crew? e.1 with
  | none => s
  | some c =>
    match c.saved with
    | none => s
    | some v =>
      let copied (o : Nat) : Bool := v.copies.any fun k => o = k.id || o = destOwner k.id
      let stays (x : Nat × Nat × Hold) : Bool :=
        (x.1 ≠ 0 && (copied x.2.2.owner || (x.1 = e.1 && !c.state.holds))) || (s.unseatHold x).isNone
      let hs := (v.holds.filter fun x => !stays x).filterMap s.unseatHold
      if !holdsFit s hs || hs.any fun h => (holdConflict s h.owner h.write h.lo h.len).isSome then s
      else (s.modCrew e.1 fun c => { c with saved := some { v with holds := v.holds.filter stays } }).addHolds hs

/-- A reloaded crew goes on from its save, where it may. -/
def resumeReloaded (s : State) (e : Nat × Crew) : State :=
  match s.crew? e.1 with
  | some c =>
    if c.state ≠ .preempt || s.shedClass c.cls || e.2.real = .preempt then s else (restoreCrew s e.1 e.2.real).getD s
  | none => s

/-- Bring one graph of a snapshot back, with the storage of its queues and its record. -/
def reloadGraph (save : Nat) (s : State) (e : Nat × Graph) : State :=
  let g := e.2
  let s := { s with graphs := Tbl.ins s.graphs e.1 g }
  let s := s.copyRange (save + g.qSnapOff) (save + g.qOff) g.qBytes
  let s := s.setBytes (save + g.recOff) g.record
  let known := (s.queue g.q).cmds.any fun c => c.id = g.cmd
  if known then s
  else refreshQueue (s.modQueue g.q fun x => { x with cmds := ⟨g.cmd, g.ctx, g.seq, 2, 1, g.cpl, g.irq, 0, true, g.start, 0, []⟩ :: x.cmds }) g.q

/-- The rollback of a context; `load` brings a crew of the snapshot back, given the crews that were there before, and `go` lets it go on. -/
def rollbackWith (load : List (Nat × Crew) → State → Nat × Crew → State) (go : State → Nat × Crew → State) (s : State) (ctx : Nat) : State :=
  match s.ctx? ctx with
  | none => s
  | some c =>
    let old := s.crews.filter fun e => e.2.ctx = ctx
    let gs := match c.snap with | some x => x.graphs | none => []
    let live := s.graphs.filter fun g => g.2.ctx = ctx
    let s := (old.map (·.1)).foldl freeCrew s
    let s := restartCmds s ctx (match c.snap with | some _ => gs | none => live)
    let s := s.modCtx ctx fun x => { x with outs := [], undo := [], sealWanted := !x.sealQ.isEmpty }
    let s := c.outs.foldl (completeAgain (match c.snap with | some _ => gs | none => [])) s
    let s := c.undo.foldl (fun s u => (s.setBytes (u.1 * 64) (bytesOf u.2.toNat 64)).unpoison (u.1 * 64) 64) s
    let s := s.blackbox 0x06 ctx (match c.snap with | some x => x.interval | none => 0xFFFFFFFF)
    let s := match c.snap with
      | some x =>
        let s := { s with graphs := s.graphs.filter fun g => g.2.ctx ≠ ctx }
        let s := x.graphs.foldl (reloadGraph c.save) s
        x.crews.foldl go (x.crews.foldl rehold (x.crews.foldl (load old) s))
      | none => live.foldl (fun (s : State) (g : Nat × Graph) => endGraph s g.1 LOST 0) s
    linkGraphs (s.writeHeader ctx) ctx

/-- The rollback of a context: its crews resume at their places. -/
def rollbackCtx (s : State) (ctx : Nat) : State := rollbackWith reloadCrew resumeReloaded s ctx

/-- ROLLBACK of a context with checkpointing, by the management processor. -/
def rollback (ctx : Nat) (s : State) : Option State := if s.ckpts ctx then some (rollbackCtx s ctx) else none

def execRollback (ctx : Nat) (s : State) : Out := event s (rollback ctx s)

/-! ## Unrecoverable faults (R87) -/

/-- UNRECOVERABLE_FAULT: data that a thread of a crew consumed (`byThread`), or live state of the crew that is lost. -/
def unrecoverableFault (n core slot : Nat) (byThread : Bool) (addr : Word) (s : State) : Option State :=
  match s.crew? n with
  | none => none
  | some c =>
    if s.ckpts c.ctx then some (rollbackCtx s c.ctx)
    else if byThread then
      let t := s.thread core slot
      if t.occ && t.ref.crew = n && !t.frozen then
        some (takeTrap s core slot UNCORR addr 0 (match t.park with | some p => p.addr | none => t.pc) false false)
      else none
    else some (endGraphAt s c.graph GRAPHERR addr.toNat)

def execUnrecoverableFault (crew core slot : Nat) (byThread : Bool) (addr : BitVec 64) (s : State) : Out :=
  event s (unrecoverableFault crew core slot byThread addr s)

end Sys2Proof.Machine
end

