-- ==== Sys2Proof/Machine/Resync.lean ====
section
/-! DEFINITION. RESYNC: the summary of the package that queue 0 writes (R61, R123, Tables 2.17 and 2.18). -/

namespace Sys2Proof.Machine

/-! ## Words that the host reads -/

/-- PSTPST (Table 1.7). -/
def pstpst (p : Power) : Nat := b2n p.lost * 2 ^ 31 + p.missed * 2 ^ 16 + p.crcerr * 2 ^ 8 + p.framerr

/-- The mask of shed classes: those above ECEIL. -/
def shedMask (p : Power) : Nat := ((span 0 8).filter fun c => p.eceil < c).foldl (fun a c => a + 2 ^ c) 0

/-- QSTAT.STATE (Table 2.8). -/
def QState.code : QState → Nat
  | .off => 0 | .run => 1 | .wait => 2 | .stop => 3

/-! ## Entries (Table 2.18) -/

/-- Bytes with zeros up to a size. -/
def pad (n : Nat) (l : List Byte) : List Byte := l ++ List.replicate (n - l.length) 0

def queueEntry (e : Nat × Queue) : List Byte :=
  let q := e.2
  let waiting := (q.cplTail - q.cplHead).toNat
  bytesOf e.1 2 ++ bytesOf (q.state.code + 128 * b2n (waiting = ringSz q.cplcfg)) 1 ++ bytesOf (if q.state = .stop then q.code else 0) 1 ++
    bytesOf q.ctx 2 ++ bytesOf q.cls 1 ++ bytesOf q.weight 1 ++ bytesOf q.head.toNat 4 ++ bytesOf q.expSeq.toNat 2 ++
    bytesOf waiting 2

/-- The state of a graph, tested in the order of R123. -/
def graphState (s : State) (g : Graph) : Nat :=
  let cs := g.crews.filterMap s.crew?
  let held := cs.filter fun c => c.state ≠ .wait && c.state ≠ .swapped
  if held.isEmpty then 1
  else if held.all fun c => (c.state = .parked || c.state = .preempt) && s.shedClass c.cls then 2
  else if cs.any fun c => match c.state with
      | .resv | .load | .init | .run | .parked | .reloc | .halted => true
      | _ => false then 0
  else 3

def graphEntry (s : State) (g : Graph) : List Byte :=
  pad 32 (bytesOf g.q 2 ++ bytesOf g.seq 2 ++ bytesOf g.ctx 2 ++ bytesOf (graphState s g) 1 ++ bytesOf g.crews.length 2 ++
    bytesOf g.start 8)

def crewEntry (e : Nat × Crew) : List Byte :=
  let c := e.2
  pad 32 (bytesOf e.1 4 ++ bytesOf c.ctx 2 ++ bytesOf c.cls 1 ++ bytesOf c.state.code 1 ++ bytesOf c.lrow 1 ++ bytesOf c.lcol 1 ++
    bytesOf c.h 1 ++ bytesOf c.w 1 ++ bytesOf c.t 1 ++ bytesOf c.prow 1 ++ bytesOf c.pcol 1)

/-- The flags of a context and the codes of the retired kinds are not given: free values (DEDUCED, log entry 28). -/
def ctxEntry (s : State) (e : Nat × Ctx) : List Byte :=
  let c := e.2
  pad 16 (bytesOf e.1 2 ++ bytesOf c.asid 2 ++ bytesOf (Config.contextFlags c.ckpt (s.mgmt.lostCtx.contains e.1)).toNat 1 ++
    bytesOf c.sealed 4 ++ bytesOf (s.graphs.filter fun g => g.2.ctx = e.1).length 2)

def retiredEntry (e : Nat × Nat × Nat) : List Byte := pad 16 (bytesOf (Config.retiredKind e.1).toNat 1 ++ bytesOf e.2.1 4 ++ bytesOf e.2.2 8)

/-- Quads at an operating point. -/
def quadsAt (p : Power) (m : Nat) : Nat :=
  let n := (p.points.filter fun e => e.2 = m).length
  if m = 200 then n + (1024 - p.points.length) else n

def powerEntry (s : State) : List Byte :=
  let p := s.power
  pad 32 (bytesOf p.level 1 ++ bytesOf p.eceil 1 ++ bytesOf (shedMask p) 1 ++ bytesOf p.lastFdev.toNat 2 ++ bytesOf p.lastVbus.toNat 2 ++
    bytesOf (pstpst p) 4 ++ [800, 600, 400, 200].flatMap fun m => bytesOf (quadsAt p m) 2)

/-- The bytes that FWSTAGE has written to a bank of a component (0–3). -/
def State.staged (s : State) (comp : Nat) (bank : Bool) : List (Nat × Byte) :=
  let k := (comp * 2 + b2n bank) * 2 ^ 32
  s.mgmt.flash.filterMap fun e => if k ≤ e.1 && e.1 < k + 2 ^ 32 then some (e.1 - k, e.2) else none

/-- A component's active bank. -/
def State.activeBank (s : State) (comp : Nat) : Bool := vget s.mgmt.bank comp false

/-- A field of the configuration record in a bank: n bytes from an offset (Table 4.7). -/
def State.configField (s : State) (bank : Bool) (off n : Nat) : Nat :=
  ofBytes ((span ((6 + b2n bank) * 2 ^ 32 + off) n).map fun k => (Tbl.find s.mgmt.flash k).getD (Config.flashInit k))

/-- The security version of the image in a bank: of the configuration record its SVN. -/
def State.svnIn (s : State) (comp : Nat) (bank : Bool) : Nat :=
  if comp = 3 then s.configField bank 4 4 else Config.imageSvn comp bank (s.staged comp bank)

/-- The machine with the images that run, as a boot verified them: FWSTAGE may have overwritten the bank that they came from (R81). -/
def State.asRun (s : State) : State := s.modMgmt fun m => { m with flash := m.running }

/-- Digest and version of a component's active image, as it runs. The spec says of section 8 only 'version': it is the image's security version (DESIGN
CHOICE, log entry 108). -/
def State.imageDigest (s : State) (comp : Nat) : BitVec 256 :=
  Config.imageDigest comp (s.activeBank comp) (s.asRun.staged comp (s.activeBank comp))
def State.imageVersion (s : State) (comp : Nat) : Nat :=
  s.asRun.svnIn comp (s.activeBank comp)

def firmwareEntry (s : State) (comp : Nat) : List Byte :=
  pad 32 (bytesOf (comp + 1) 2 ++ bytesOf (s.imageVersion comp) 4 ++ bytesOf (s.imageDigest comp).toNat 16)

/-- The sections, 1 to 8. -/
def resyncSections (s : State) : List (Nat × List (List Byte)) :=
  [(1, (s.hub.queues.filter fun e => e.2.state ≠ .off).map queueEntry),
   (2, s.graphs.map fun g => graphEntry s g.2),
   (3, s.crews.map crewEntry),
   (4, s.ctxs.map (ctxEntry s)),
   (5, s.mgmt.retired.map retiredEntry),
   (6, s.mgmt.blackbox.map fun r => bytesOf r.toNat 16),
   (7, [powerEntry s]),
   (8, (span 0 4).map (firmwareEntry s))]

/-- A section's bytes. -/
def sectionBytes (typ : Nat) (l : List (List Byte)) : List Byte :=
  let body := l.flatten
  bytesOf typ 2 ++ bytesOf l.length 2 ++ bytesOf (8 + body.length) 4 ++ body

/-- The sections as far as they fit into `room` bytes: the last one may stop after a whole entry. -/
def fitSections (room : Nat) : List (Nat × List (List Byte)) → List (List Byte)
  | [] => []
  | (t, l) :: rest =>
    let full := sectionBytes t l
    if full.length ≤ room then full :: fitSections (room - full.length) rest
    else if room < 8 then []
    else [sectionBytes t (l.take ((room - 8) / (match l with | e :: _ => e.length | [] => 1)))]

/-- RESYNC. (DEDUCED, log entry 77.) -/
def resync (s : State) : Option State :=
  match nextCmd s 0 10 with
  | none => none
  | some c =>
    let buf := pkt c.body 8 8
    let size := pkt c.body 16 4
    let all := resyncSections s
    let need := 64 + (all.flatMap fun x => sectionBytes x.1 x.2).length
    let ok (pa : Nat) : Bool := match packetAddr s 0 c.ctx pa .write false with | .ok _ _ => true | _ => false
    if !ok buf then some (faultCmd s 0 c buf)
    else if size ≠ 0 && !ok (buf + min size need - 1) then some (faultCmd s 0 c (buf + min size need - 1))
    else if size < 64 then some (completeCmd s 0 c TRUNC need 0)
    else
      let secs := fitSections (size - 64) all
      let body := secs.flatten
      let flags := b2n s.hub.onemod + 2 * b2n s.hub.slw + 4 * b2n s.power.lost
      let header := pad 64 (bytesOf 0x59535253 4 ++ bytesOf 1 2 ++ bytesOf secs.length 2 ++ bytesOf (64 + body.length) 4 ++
        bytesOf (fld s.hub.pkgid 0 20) 4 ++ bytesOf s.devtime 8 ++ bytesOf s.devtime 8 ++ bytesOf flags 1)
      some (completeCmd (s.setBytes buf (header ++ body)) 0 c (if size < need then TRUNC else 0) need 0)

def execResync (s : State) : Out := event s (resync s)

end Sys2Proof.Machine
end

