-- ==== Sys2Proof/Machine/Mgmt.lean ====
section
/-! DEFINITION. The management subsystem: resets and boot, the host link, supply loss, errors and retirement, and the mailbox with
its firmware, sensor, attestation and debug commands (R18, R31 to R34, R76 to R86, R95 to R99). -/

namespace Sys2Proof.Machine

/-! ## Supply loss (R33, R95) -/

/-- SLW_ASSERT and SLW_RELEASE. -/
def slwAssert (s : State) : Option State := some (startSupplyLoss (s.modHub fun h => { h with slw := true }) false)
def slwRelease (s : State) : Option State := if s.hub.slw then some (s.modHub fun h => { h with slw := false }) else none

def execSlwAssert (s : State) : Out := event s (slwAssert s)
def execSlwRelease (s : State) : Out := event s (slwRelease s)

/-- Gang-park and save one crew with its scratchpads and its other holds; the image of a crew that is still in INIT is copied first, so that
it leaves INIT as Table 5.4 has it (DEDUCED, log entry 29). -/
def parkForLoss (s : State) (n : Nat) : Option State :=
  let s : State := match s.crew? n with
    | some c => if c.real = CrewState.init then (scrimgCopyDone n s).getD s else s
    | none => s
  match s.crew? n with
  | none => some s
  | some c =>
    let back (s : State) (c : Crew) : State := { s with crews := Tbl.ins s.crews n c }
    let own := s.ownersOf n
    let others := otherHolds s n c own
    match c.real with
    | .resv | .load => some (abortPlacement s n)
    | .wait | .swapped => some s
    | .preempt => some (back s (sealImage s c own others))
    | _ =>
      (saveCrew s n .preempt true).map fun s => match s.crew? n with
        | some x => back s (sealImage s x own others)
        | none => s

/-- Park every crew; none while one has something to end. -/
def parkAll (s : State) : List Nat → Option State
  | [] => some s
  | n :: r => (parkForLoss s n).bind fun s => parkAll s r

/-- Write back every dirty line. -/
def writeBackAll (s : State) : State := { (writeBackLines s s.dirty) with dirty := [] }

/-- Microseconds since the newest record of a kind. -/
def sinceKind (s : State) (kind : Nat) : Nat :=
  match s.mgmt.blackbox.find? fun r => fld r 72 8 = kind with
  | some r => s.devtime / 1000 - fld r 80 48
  | none => 0

/-- SUPPLY_LOSS_SEQUENCE: its four steps (Table 4.10). -/
def supplyLossSequence (s : State) : Option State :=
  if !s.mgmt.slStarted || s.mgmt.stopped then none
  else (parkAll s (s.crews.map (·.1))).map fun s =>
    let s := writeBackAll s
    let s := s.modMgmt fun m => { m with stopped := true, slMarker := some (s.ctxs.map (·.1)) }
    s.blackbox 0x08 0 (sinceKind s 0x07)

def execSupplyLossSequence (s : State) : Out := event s (supplyLossSequence s)

/-! ## Resets (R31 to R34, R96) -/

/-- A cell of the scratchpads. -/
def spmCell (e : Host.Cell) : Bool := match kindOf e.1 with | .spm _ _ => true | _ => false

/-- A crew of a context that is re-created: swapped, until its queue is enabled; one that a snapshot has in INIT starts again. -/
def Crew.asleep (c : Crew) : Crew :=
  { c with
    state := .swapped, back := .wait, requeue := true, swapWanted := false, idle := false, shedMark := false, graceAt := none
    relocMark := false, started := c.started && c.real ≠ .init, saved := if c.real = .init then none else c.saved }

/-- A context that is re-created from the marker: its interval ends there, and a new one goes on from it (R96). -/
def remarkCtx (s : State) (n : Nat) : State :=
  match s.ctx? n with
  | none => s
  | some c =>
    let s := { s with crews := s.crews.map fun e => if e.2.ctx = n then (e.1, e.2.asleep) else e }
    if !c.ckpt then s
    else
      let imgs := s.crews.filter fun e => e.2.ctx = n
      let gs := s.graphs.filter fun g => g.2.ctx = n
      (s.modCtx n fun x => { x with
        sealed := x.interval, interval := x.interval + 1, lastSeal := 0, undo := [], sealWanted := false, sealQ := []
        snap := some ⟨x.interval, imgs, gs⟩ }).writeHeader n

/-- A context without a sealed marker: rolled back to its last sealed interval, or lost with its crews. -/
def loseCtx (s : State) (n : Nat) : State :=
  match s.ctx? n with
  | none => s
  | some c =>
    if c.ckpt && c.snap.isSome then
      rollbackWith (fun _ s e => { s with crews := Tbl.ins s.crews e.1 e.2.asleep }) (fun s _ => s) s n
    else
      let s := ((s.crews.filter fun e => e.2.ctx = n).map (·.1)).foldl freeCrew s
      let bare (g : Nat × Graph) : Nat × Graph := if g.2.ctx = n then (g.1, { g.2 with crews := [] }) else g
      let s := { s with graphs := s.graphs.map bare }
      (s.modMgmt fun m => { m with lostCtx := if m.lostCtx.contains n then m.lostCtx else m.lostCtx ++ [n] }).blackbox 0x06 n 0xFFFFFFFF

/-- Context 0 is not carried over: firmware creates it. -/
def dropCtx0 (s : State) : State :=
  let s := ((s.crews.filter fun e => e.2.ctx = 0).map (·.1)).foldl freeCrew s
  { s with ctxs := Tbl.del s.ctxs 0, graphs := s.graphs.filter fun g => g.2.ctx ≠ 0 }

/-- The contexts as the management processor re-creates them from what survives (R96). -/
def recreate (s : State) : State :=
  let s := dropCtx0 s
  let ns := s.ctxs.map (·.1)
  match s.mgmt.slMarker with
  | some l => ns.foldl (fun s n => if l.contains n then remarkCtx s n else loseCtx s n) s
  | none => ns.foldl loseCtx s

/-- A queue after a reset: OFF, with its configuration and the launches that are still live; queue 0 is as new. -/
def Queue.afterReset (x : Queue) : Queue :=
  { x with
    ringcfg := setFld x.ringcfg 63 1 0, state := .off, code := 0, rereads := 0, deficit := 0
    cmds := x.cmds.filter fun c => c.begun && c.typ = 2 }

/-- What every reset leaves: memory, the weight stores with their regions, the contexts and queues that are re-created, and the
non-volatile store; all else is as right after the cold reset. -/
def resetCommon (s0 : State) : State :=
  let s := recreate { s0 with holds := [] }
  let s := s.crews.foldl rehold s
  { State.reset with
    holds := s.holds
    mem := s.mem.filter fun e => !spmCell e
    ws := s.ws
    poison := s.poison.filter fun g => match kindOf (g * 64) with | .spm _ _ => false | _ => true
    wsPoison := s.wsPoison
    crews := s.crews
    graphs := s.graphs
    ctxs := s.ctxs
    hub := { State.hub0 with
      queues := (s.hub.queues.filter fun e => e.1 ≠ 0).map fun e => (e.1, e.2.afterReset)
      regions := s.hub.regions.map fun e => (e.1, { e.2 with busy := 0 })
      slw := s.hub.slw
      nextCrew := s.hub.nextCrew
      nextGraph := s.hub.nextGraph
      nextId := s.hub.nextId
      hostReads := s.hub.hostReads
      msix := s.hub.msix
      cxlErrs := s.hub.cxlErrs }
    mgmt := { State.mgmt0 with
      blackbox := s.mgmt.blackbox
      svn := s.mgmt.svn
      leaf := s.mgmt.leaf
      markers := s.mgmt.markers
      bank := s.mgmt.bank
      staged := s.mgmt.staged
      flash := s.mgmt.flash
      lostCtx := s.mgmt.lostCtx
      tripDue := s.mgmt.tripDue }
    agenda := s0.agenda
    rotor := s0.rotor
    freeCtr := s.freeCtr }

/-- COLD_RESET: DEVTIME and the black box start again, the latter with what the reset does to contexts, and the images that are marked become the active ones and are verified again (R78,
R81). (DEDUCED, log entry 72.) -/
def coldReset (s : State) : Option State :=
  if !s.mgmt.pwrgd then none
  else
    let s := resetCommon { (s.modMgmt fun m => { m with blackbox := [] }) with devtime := 0 }
    some (s.modMgmt fun m => { m with
      tripDue := none, bank := Vector.ofFn fun i : Fin 4 => vget m.bank i.val false ^^ vget m.staged i.val false
      staged := Vector.replicate 4 false })

/-- WARM_RESET: the black box, DEVTIME, the counters, a locked PKGID, the retired units and the running firmware stay (R21, R31, R61, R81,
R197); THERMTRIP_N is released by a cold reset only (R34). -/
def warmReset (s : State) : Option State :=
  let n := resetCommon s
  some { n with
    devtime := s.devtime, counters := s.counters
    cores := s.cores.filterMap fun e => if e.2.retired then some (e.1, { State.core0 with retired := true }) else none
    hub := { n.hub with pkgid := if bit s.hub.pkgid 31 then s.hub.pkgid else 0 }
    mgmt := { n.mgmt with
      verified := s.mgmt.verified, running := s.mgmt.running, retired := s.mgmt.retired, retiredPress := s.mgmt.retiredPress, rows := s.mgmt.rows
      thermtrip := s.mgmt.thermtrip, stopped := s.mgmt.thermtrip } }

def execColdReset (s : State) : Out := event s (coldReset s)
def execWarmReset (s : State) : Out := event s (warmReset s)

/-- VSTBY_FAILURE: the black box is lost, and so is a sealed supply-loss state with the memory that is in self-refresh (R76, R96).
(DEDUCED, log entry 73.) -/
def vstbyFailure (s : State) : Option State :=
  let s := s.modMgmt fun m => { m with blackbox := [] }
  if !s.mgmt.stopped then some s
  else
    let s := s.modMgmt fun m => { m with slMarker := none }
    some { s with
      mem := s.mem.filter fun e => decide (0x3000000000 ≤ e.1)
      ws := [], poison := [], wsPoison := []
      ctxs := s.ctxs.map fun e => (e.1, { e.2 with snap := none, undo := [], outs := [] }) }

def execVstbyFailure (s : State) : Out := event s (vstbyFailure s)

/-! ## Boot (R80 to R83, R55) -/

/-- A secret of the device, for a use: none before the root is there (R83). -/
def State.secret (s : State) (use : Nat) : Option (BitVec 256) :=
  s.mgmt.root.map fun r => Config.shake256 (bytesOf r.toNat 32 ++ Config.label use)

/-- The configuration record in a bank is one of this package (R82). -/
def State.configOk (s : State) (bank : Bool) : Bool :=
  s.configField bank 0 4 = 0x47464353 &&
    match s.secret 0 with | some k => s.configField bank 8 16 = (Config.pufSerial k).toNat | none => false

/-- A component's image in a bank passes. -/
def State.bankOk (s : State) (comp : Nat) (bank : Bool) : Bool :=
  Config.imageOk comp bank (s.staged comp bank) && vget s.mgmt.svn comp 0 ≤ s.svnIn comp bank && (comp ≠ 3 || s.configOk bank)

/-- The bank that boots: the active one, or the other one. -/
def State.bootBank (s : State) (comp : Nat) : Option Bool :=
  let a := s.activeBank comp
  if s.bankOk comp a then some a else if s.bankOk comp !a then some !a else none

/-- The factory-retired units of the configuration record: kind, as in RESYNC section 5, and index. -/
def State.factoryRetired (s : State) (bank : Bool) : List (Nat × Nat) :=
  (span 0 (s.configField bank 32 4)).filterMap fun i =>
    ((span 0 6).find? fun k => (Config.retiredKind k).toNat = s.configField bank (36 + 8 * i) 1).map fun k =>
      (k, s.configField bank (37 + 8 * i) 4)

/-- The configuration record takes effect, with the factory-retired units (Table 4.7); after a warm reset these are listed already. -/
def loadConfig (s : State) : State :=
  let b := s.activeBank 3
  let run := s.asRun
  let ret := (run.factoryRetired b).filter fun e => s.mgmt.retired.all fun r => r.1 ≠ e.1 || r.2.1 ≠ e.2
  let s := s.modMgmt fun m => { m with
    dbgen := run.configField b 26 1 % 2 = 1, portmode := BitVec.ofNat 16 (run.configField b 24 2)
    serial := BitVec.ofNat 128 (run.configField b 8 16)
    retired := m.retired ++ ret.map fun e => (e.1, e.2, 0)
    retiredPress := m.retiredPress ++ (ret.filter fun e => e.1 = 3).map (·.2) }
  let core (e : Nat × Nat) : List Nat := if e.1 = 0 then [e.2] else if e.1 = 1 || e.1 = 2 then [e.2 / 8] else []
  (ret.flatMap core).foldl (fun s c => s.modCore c fun x => { x with retired := true }) s

/-- Firmware creates context 0, with ASID 0, from the header of the supervisor runtime image. The spec does not say whether it checkpoints: it
does not (R55; DESIGN CHOICE, log entry 110). -/
def createCtx0 (s : State) : State :=
  let b := s.activeBank 2
  let st := s.asRun.staged 2 b
  addCtx s 0 (newCtx s 0 (Config.context0Root b st) (Config.context0Save b st) (Config.context0SaveSize b st) false 0 (Config.context0Tvec b st))

/-- SECURE_BOOT: the root is reconstructed, and the images are verified, which after a warm reset run on unverified (R81). A bank that boots in
place of the active one becomes the active one (DESIGN CHOICE, log entry 111). -/
def secureBoot (pufOk : Bool) (s : State) : Option State :=
  if s.hub.ready || s.hub.fwerr || s.mgmt.stopped then none
  else
    let s := s.modMgmt fun m => { m with root := if pufOk then some (Config.pufRoot Config.helperData) else none }
    let banks := (span 0 4).map fun k => if s.mgmt.verified then some (s.activeBank k) else s.bootBank k
    if pufOk && banks.all Option.isSome then
      let s := s.modMgmt fun m => { m with
        running := if m.verified then m.running else m.flash
        bank := Vector.ofFn fun i : Fin 4 => (banks.getD i.val none).getD false, verified := true, keyReady := false }
      some ((createCtx0 (loadConfig s)).modHub fun h => { h with ready := true })
    else some (s.modHub fun h => { h with fwerr := true })

def execSecureBoot (pufOk : Bool) (s : State) : Out := event s (secureBoot pufOk s)

/-- HOST_LINK_TRAIN: on both modules, or on one. -/
def hostLinkTrain (m0 m1 : Bool) (s : State) : Option State :=
  if s.hub.linkUp || s.mgmt.stopped || !(s.hub.ready || s.hub.fwerr) || !(m0 || m1) then none
  else
    let s := s.modHub fun h => { h with linkUp := true, mailboxOnly := h.fwerr, onemod := !(m0 && m1) }
    some (if m0 && m1 then s else s.blackbox 0x0C 0 (b2n m0))

/-- HOST_LINK_MODULE_FAIL. The spec does not say what a link that runs on one module does when that one fails: the event then changes
nothing, and the link stays up (R18; DESIGN CHOICE, log entry 112). -/
def hostLinkModuleFail (md : Nat) (s : State) : Option State :=
  if s.hub.linkUp && !s.hub.onemod && md < 2 then some ((s.modHub fun h => { h with onemod := true }).blackbox 0x0C 0 md) else none

def execHostLinkTrain (m0 m1 : Bool) (s : State) : Out := event s (hostLinkTrain m0 m1 s)
def execHostLinkModuleFail (md : Nat) (s : State) : Out := event s (hostLinkModuleFail md s)

/-- KEY_TREE_STATE_LOAD (R84). -/
def keyTreeStateLoad (s : State) : Option State :=
  if s.hub.ready && !s.mgmt.keyReady then some (s.modMgmt fun m => { m with keyReady := true }) else none

def execKeyTreeStateLoad (s : State) : Out := event s (keyTreeStateLoad s)

/-! ## Errors, self-test and retirement (R85, R86)

Units of Table 4.6: banks are core × 8 + bank; a register file is core × 32 + slot and a closet entry core × 32 + 8 + entry; an
accumulator slot is press × 4 + slot; rows are named by the granule of the error, its address over 64 (of a weight store: die × 2^26
+ offset over 64). -/

/-- The unit exists. (DEDUCED, log entry 74.) -/
def unitOk (code unit : Nat) : Bool :=
  match code with
  | 1 | 2 => unit < 32768
  | 3 => unit < 131072
  | 4 => (pressOf (unit / 2) (unit % 2)).isSome && unit < 8192
  | 5 => (pressOf (unit / 8) (unit / 4 % 2)).isSome && unit < 32768
  | 6 => unit < 0x3000000000 / 64
  | 7 => unit < 2 ^ 28
  | 8 => unit < 16
  | _ => false

/-- The fence of a unit: rows as 4 KiB of memory and 64 KiB of a weight store. -/
def fenceKey (code unit : Nat) : Nat :=
  code * 2 ^ 32 + (if code = 6 then unit / 64 else if code = 7 then unit / 1024 else unit)

/-- The mark of a test during which an error has come. -/
def failKey (code unit : Nat) : Nat := fenceKey code unit + 16 * 2 ^ 32

/-- UNIT of a black-box record about a unit of a structure: the core, the press, the port, or the row's address bits (Table 4.2). -/
def boxUnit (code unit : Nat) : Nat :=
  match code with
  | 1 | 2 => unit / 8
  | 3 => unit / 32
  | 5 => unit / 4
  | _ => unit

/-- The granule that an uncorrected error has in memory: the rule names the structure alone, so that which granule of a scratchpad bank it is,
or which line that an L2 bank holds, is a free value (DESIGN CHOICE, log entry 117). A register, a closet entry, a press array and an
accumulator hold no granule: who consumes their data takes UNRECOVERABLE_FAULT. -/
def errorGranule (s : State) (code unit : Nat) : Option Nat × State :=
  let (w, s) := s.free
  match code with
  | 1 => (some (spmPA (unit / 8) (w.toNat % 1024 * 256 + unit % 8 * 32) / 64), s)
  | 2 =>
    let l := (s.l2.filter fun e => e.1 / 256 = unit / 8).flatMap fun e => e.2.filter fun k => k % 8 = unit % 8
    (if l.isEmpty then none else l[w.toNat % l.length]?, s)
  | 6 => (some unit, s)
  | _ => (none, s)

/-- Add a number to a list that holds it once. -/
def addOnce (l : List Nat) (n : Nat) : List Nat := if l.contains n then l else n :: l

/-- STRUCTURE_ERROR: the structure is fenced and its test starts; an uncorrected error of memory leaves its granule poisoned. A port
that retrains is down meanwhile. -/
def structureError (code unit : Nat) (corrected : Bool) (ctx : Nat) (s : State) : Option State :=
  if !unitOk code unit || s.mgmt.stopped then none
  else
    let s := s.blackbox (if corrected then 0x01 else 0x02) (boxUnit code unit) (code + (if corrected then 0 else ctx % 4096 * 2 ^ 16))
    let s := if corrected then s
      else if code = 7 then { s with wsPoison := addOnce s.wsPoison unit }
      else match errorGranule s code unit with
        | (some g, s) => { s with poison := addOnce s.poison g }
        | (none, s) => s
    let key := fenceKey code unit
    if s.mgmt.fences.contains key then some (s.modMgmt fun m => { m with fences := addOnce m.fences (failKey code unit) })
    else
      let s := s.modMgmt fun m => { m with fences := key :: m.fences }
      some (if code = 8 && bit s.hub.portsUp unit then portDown s unit else s)

/-- Crews whose rectangle holds a retired core or press leave it, and wait for another one; one whose rectangle is reserved leaves it when it
runs there. -/
def evictWhere (s : State) (p : Crew → Bool) : State :=
  { s with crews := s.crews.map fun e => if (e.2.state.holds || e.2.reserves) && p e.2 then (e.1, e.2.evict true) else e }

/-- Enter a retired unit, by its kind in RESYNC section 5 (0 core, 1 scratchpad bank, 2 L2 bank, 3 press, 4 row, 5 port). -/
def noteRetired (s : State) (kind idx : Nat) : State :=
  s.modMgmt fun m => { m with retired := m.retired ++ [(kind, idx, s.devtime)] }

/-- The crews that lose live state with a unit (R87): those with a pact in progress in a press, and those with a thread in the closet of a core
whose register files fail, or in the slot that fails (DEDUCED, log entry 74). -/
def losers (s : State) (code unit : Nat) : List Nat :=
  let inPress (p : Nat) : List Nat := ((s.press p).queue.filter fun e =>
    e.op.isPact && (e.state = .stream || e.state = .susp || e.state = .deliver || e.state = .dfault)).flatMap fun e =>
      [e.lead.crew, e.other.crew]
  match code with
  | 3 =>
    let t := s.thread (unit / 32) (unit % 32)
    ((span 0 24).filterMap fun e => (s.closetAt (unit / 32) e).map fun x => x.th.ref.crew) ++
      if unit % 32 < 8 && t.occ then [t.ref.crew] else []
  | 4 => inPress unit
  | 5 => inPress (unit / 4)
  | _ => []

/-- Loss of a crew's live state: its context is rolled back, or its graph ends with GRAPHERR. -/
def loseState (s : State) (l : List Nat) : State :=
  let crews := ((l.filter (· ≠ 0)).eraseDups.filterMap s.crew?)
  let back := ((crews.map (·.ctx)).filter s.ckpts).eraseDups
  let s := back.foldl rollbackCtx s
  ((crews.filter fun c => !back.contains c.ctx).map (·.graph)).eraseDups.foldl (fun s g => endGraphAt s g GRAPHERR 0) s

/-- A row that fails is remapped to a spare row of its bank, or retired without one when these have run out (R86). -/
def remapRow (s : State) (code unit : Nat) : State :=
  let key := fenceKey code unit
  let bank := Config.rowBank code (key % 2 ^ 32)
  let used := (s.mgmt.rows.filter fun e => e.2 = 1 && e.1 / 2 ^ 32 = code && Config.rowBank code (e.1 % 2 ^ 32) = bank).length
  s.modMgmt fun m => { m with rows := Tbl.ins m.rows key (if used < Config.spareRows then 1 else 2) }

/-- What retires with a unit: live state that is lost with it is lost at once. -/
def retireUnit (s : State) (code unit : Nat) : State :=
  let lost := losers s code unit
  let core (s : State) (c : Nat) : State :=
    let s := flushSlices s [c]
    evictWhere (s.modCore c fun x => { x with retired := true }) fun x => (x.indexOf c).isSome
  let press (s : State) (p : Nat) : State :=
    evictWhere (s.modMgmt fun m => { m with retiredPress := m.retiredPress ++ [p] }) fun x => (x.pressList.map x.physPress).contains p
  let s := match code with
    | 1 => core (noteRetired s 1 unit) (unit / 8)
    | 2 => core (noteRetired s 2 unit) (unit / 8)
    | 3 => core (noteRetired s 0 (unit / 32)) (unit / 32)
    | 4 => press (noteRetired s 3 unit) unit
    | 5 => press (noteRetired s 3 (unit / 4)) (unit / 4)
    | 6 | 7 => remapRow (noteRetired s 4 unit) code unit
    | 8 => noteRetired s 5 unit
    | _ => s
  loseState s lost

/-- SELF_TEST_DONE. A port that has retrained comes up again, once PKGID is locked (R21). -/
def selfTestDone (code unit : Nat) (pass : Bool) (s : State) : Option State :=
  let key := fenceKey code unit
  if !unitOk code unit || !s.mgmt.fences.contains key then none
  else
    let pass := pass && !s.mgmt.fences.contains (failKey code unit)
    let s := s.modMgmt fun m => { m with fences := m.fences.filter fun f => f ≠ key && f ≠ failKey code unit }
    if pass then
      let s := if code = 8 && bit s.hub.pkgid 31 && !s.portOut unit then portUp s unit else s
      some (s.blackbox 0x03 (boxUnit code unit) code)
    else some (retireUnit (s.blackbox 0x04 (boxUnit code unit) code) code unit)

def execStructureError (code unit : Nat) (corrected : Bool) (ctx : Nat) (s : State) : Out :=
  event s (structureError code unit corrected ctx s)
def execSelfTestDone (code unit : Nat) (pass : Bool) (s : State) : Out := event s (selfTestDone code unit pass s)

/-! ## The mailbox (R79, Tables 4.4 and 4.5) -/

/-- STATUS codes. -/
def MBOK : Nat := 0
def MBBADARG : Nat := 1
def MBVERIFY : Nat := 2
def MBPERM : Nat := 3
def MBUNAVAIL : Nat := 4

def State.mbBusy (s : State) : Bool := bit s.mgmt.mbstat 63
def State.mbArg (s : State) (i : Nat) : Nat := (vget s.mgmt.mbarg i 0).toNat

/-- Carry out the mailbox command of a code, once: its STATUS and the state. (DEDUCED, log entry 75.) -/
def mailbox (code : Nat) (f : State → Nat × State) (s : State) : Option State :=
  if s.mbBusy && s.mgmt.mbdone.isNone && fld s.mgmt.mbcmd 0 16 = code then
    let (st, s) := f s
    some (s.modMgmt fun m => { m with mbdone := some st })
  else none

/-- Write bytes into the data window, and read them. -/
def State.putWindow (s : State) (off : Nat) (bs : List Byte) : State :=
  s.modMgmt fun m => { m with window := (bs.zip (span off bs.length)).foldl (fun w e => Tbl.put 0 w e.2 e.1) m.window }
def State.getWindow (s : State) (off n : Nat) : List Byte := (span off n).map fun i => Tbl.get 0 s.mgmt.window i

/-- The codes of Table 4.5. -/
def mailboxCodes : List Nat := [0x1, 0x2, 0x3, 0x4, 0x5, 0x10, 0x11, 0x12, 0x13, 0x14, 0x15]

/-- MAILBOX_DONE: BUSY clears, DONE and STATUS are set, and the vector is signalled where IRQ asked for it; a code that names no
command is a bad argument. -/
def mailboxDone (s : State) : Option State :=
  let known := mailboxCodes.contains (fld s.mgmt.mbcmd 0 16)
  match s.mbBusy, (match s.mgmt.mbdone with | some st => some st | none => if known then none else some MBBADARG) with
  | true, some st =>
    let s := s.modMgmt fun m => { m with mbstat := word (2 ^ 62 + st), mbdone := none }
    some (if bit s.mgmt.mbcmd 62 then s.signal (fld s.mgmt.mbcmd 48 11) else s)
  | _, _ => none

def execMailboxDone (s : State) : Out := event s (mailboxDone s)

/-- The newest records of the black box after the first ones, as BBREAD returns them: at most 3,840. -/
def State.boxBytes (s : State) (first count : Nat) : Option (List Byte) :=
  if 3840 < count then none
  else some (((s.mgmt.blackbox.drop first).take count).flatMap fun r => bytesOf r.toNat 16)

/-- The latest readings of a kind of point, as SENSRD returns them; a point that has never been sampled reads 0 (DESIGN CHOICE, log entry 18).
The spec does not say what a count of 0 does: it is a bad argument (DESIGN CHOICE, log entry 113). -/
def State.sensorBytes (s : State) (kind first count : Nat) : Option (List Byte) :=
  if sensorCount kind < first + count || count = 0 then none
  else some ((span first count).flatMap fun i => bytesOf ((Tbl.find s.mgmt.sensors (kind * 65536 + i)).getD 0).toNat 2)

/-- What the SMBus target offers the board's management controller: these two reads and nothing else (R76, R77, R79). They change nothing. -/
inductive SmbusCmd where
  | sensrd (kind first count : Nat)
  | bbread (first count : Nat)
deriving DecidableEq, Repr

def State.smbusRead (s : State) : SmbusCmd → Option (List Byte)
  | .sensrd k i n => s.sensorBytes k i n
  | .bbread i n => s.boxBytes i n

/-- The answer of a mailbox command that returns bytes in the window. -/
def answer (s : State) (r : Option (List Byte)) : Nat × State := match r with | some bs => (MBOK, s.putWindow 0 bs) | none => (MBBADARG, s)

/-- BBREAD (R78) and SENSRD (R77). -/
def bbread (s : State) : Option State := mailbox 0x2 (fun s => answer s (s.boxBytes (s.mbArg 0) (s.mbArg 1))) s
def sensrd (s : State) : Option State := mailbox 0x5 (fun s => answer s (s.sensorBytes (s.mbArg 0) (s.mbArg 1) (s.mbArg 2))) s

def execBbread (s : State) : Out := event s (bbread s)
def execSensrd (s : State) : Out := event s (sensrd s)

/-! ### Firmware (R81) -/

/-- The bank of a component that is marked active for the next cold reset; the other one is inactive. -/
def State.markedBank (s : State) (comp : Nat) : Bool := s.activeBank comp ^^ vget s.mgmt.staged comp false

/-- FWSTAGE. -/
def fwstage (s : State) : Option State :=
  mailbox 0x3 (fun s =>
    let c := s.mbArg 0
    let off := s.mbArg 1
    let n := s.mbArg 2
    if c = 0 || 4 < c || 61440 < n || 2 ^ 32 < off + n then (MBBADARG, s)
    else
      let base := ((c - 1) * 2 + b2n !(s.markedBank (c - 1))) * 2 ^ 32 + off
      let s := s.modMgmt fun m => { m with
        flash := ((s.getWindow 0 n).zip (span base n)).foldl (fun w e => Tbl.ins w e.2 e.1) m.flash }
      (MBOK, s.blackbox 0x0B 0 c)) s

/-- FWACTIVATE. -/
def fwactivate (s : State) : Option State :=
  mailbox 0x4 (fun s =>
    let c := s.mbArg 0
    if c = 0 || 4 < c then (MBBADARG, s)
    else
      let k := c - 1
      let b := !(s.markedBank k)
      if !s.bankOk k b then (MBVERIFY, s)
      else
        let s := s.modMgmt fun m => { m with
          staged := m.staged.setIfInBounds k !(vget m.staged k false)
          svn := m.svn.setIfInBounds k (max (vget m.svn k 0) (s.svnIn k b)) }
        (MBOK, s.blackbox 0x0B 0 c)) s

def execFwstage (s : State) : Out := event s (fwstage s)
def execFwactivate (s : State) : Out := event s (fwactivate s)

/-! ### Attestation (R84, Table 4.8) -/

/-- DEVID (Table 2.3). -/
def devId : Nat := 0x9404 * 2 ^ 16 + 2 ^ 8 + Config.devStep.toNat

/-- Bytes 0–235 of a report. -/
def reportBytes (s : State) (ctx : Nat) : List Byte :=
  let dev := devId
  let pkg := if bit s.hub.pkgid 31 then fld s.hub.pkgid 0 20 else 0xFFFFFFFF
  let d := match s.ctx? ctx with
    | some c => if ctx = 0xFFFF then 0 else
      (Config.shake256 (bytesOf c.root 8 ++ bytesOf c.asid 2 ++ bytesOf c.digest.toNat 16)).toNat
    | none => 0
  bytesOf 0x54415253 4 ++ bytesOf 5841 4 ++ s.getWindow 0 32 ++ bytesOf dev 4 ++ bytesOf pkg 4 ++ bytesOf s.mgmt.serial.toNat 16 ++
    ((span 0 4).flatMap fun k => bytesOf (s.imageDigest k).toNat 32) ++ bytesOf ctx 4 ++ bytesOf d 32 ++ bytesOf s.mgmt.leaf 8

/-- ATTEST; `writeOk` says that the counter's write is confirmed. The spec gives no STATUS for a context that does not exist: it is a bad argument
(DESIGN CHOICE, log entry 114). -/
def attest (writeOk : Bool) (s : State) : Option State :=
  mailbox 0x1 (fun s =>
    let ctx := s.mbArg 0
    if ctx ≠ 0xFFFF && (s.ctx? ctx).isNone then (MBBADARG, s)
    else if !s.mgmt.keyReady || 2 ^ 40 ≤ s.mgmt.leaf || !writeOk then (MBUNAVAIL, s)
    else
      let r := reportBytes s ctx
      let sig := (Config.xmssMtSign ((s.secret 1).getD 0) s.mgmt.leaf r).take 5605
      (MBOK, (s.modMgmt fun m => { m with leaf := m.leaf + 1 }).putWindow 0 (r ++ sig))) s

def execAttest (writeOk : Bool) (s : State) : Out := event s (attest writeOk s)

/-! ### Debug (R98, R99) -/

/-- A DBG command: only where the configuration record allows it. -/
def debug (code : Nat) (f : State → Nat × State) (s : State) : Option State :=
  mailbox code (fun s => if s.mgmt.dbgen then f s else (MBPERM, s)) s

/-- A DBG command on a core whose register files are at retention voltage waits for the wake latency (R145). -/
def debugCore (code : Nat) (f : State → Nat × State) (s : State) : Option State :=
  if s.mgmt.dbgen && s.retained (s.mbArg 1) 2 then none else debug code f s

/-- Vat v is named in the mask of MBARG1 to MBARG4. -/
def State.mbVat (s : State) (v : Nat) : Bool := (s.mbArg (1 + v / 64)).testBit (v % 64)

/-- The vats in which a context is halted, as a mask. -/
def haltedMask (s : State) (ctx : Nat) : Nat := ((s.vats.filter fun e => e.2.halted.contains ctx).map fun e => 2 ^ e.1).sum

/-- DBGHALT. -/
def dbghalt (s : State) : Option State :=
  debug 0x10 (fun s =>
    let ctx := s.mbArg 0
    if (s.ctx? ctx).isNone then (MBBADARG, s)
    else
      let s := ((span 0 256).filter s.mbVat).foldl (fun s v => haltGroup s ctx v) s
      (MBOK, s.putWindow 0 (bytesOf (haltedMask s ctx) 32))) s

/-- The threads in the slots and closets of a vat that meet a condition. -/
def State.vatThreads (s : State) (v : Nat) (p : Thread → Bool) : List Thread :=
  (s.threads.filterMap fun e => if vatOf (e.1 / 8) = v && p e.2 then some e.2 else none) ++
    s.closet.filterMap fun e => if vatOf (e.1 / 24) = v && p e.2.th then some e.2.th else none

def Thread.resume (t : Thread) : Thread := { t with halted := false, haltOwn := false, steps := 0 }

/-- Resume the far ends of a context's pacts with a vat: a thread whose own vat is halted for the context, and one that HALT has halted,
stay (R98, R455). -/
def resumeFar (s : State) (ctx v : Nat) : State :=
  (pactThreads s ctx v).foldl (fun s r =>
    if (s.vat (vatOf (s.homeOf r).1)).halted.contains ctx then s
    else s.modRef r fun t => if t.haltOwn then t else t.resume) s

/-- Resume a context's threads in a vat, those that HALT has halted among them (R455), and those at the far ends of its pacts.
DBGCTL.HALTED stays while another context's thread in the vat is halted. -/
def resumeVat (ctx : Nat) (s : State) (v : Nat) : State :=
  let mine (t : Thread) : Bool := s.ctxOf t.ref.crew = ctx
  if !(s.vat v).halted.contains ctx && (s.vatThreads v fun t => mine t && t.halted).isEmpty then s
  else
    let whole := (s.vat v).halted.contains ctx
    let s := s.modVat v fun x => { x with halted := x.halted.filter (· ≠ ctx) }
    let s : State := if whole then resumeFar s ctx v else s
    let s : State := { s with
      threads := s.threads.map fun e => if vatOf (e.1 / 8) = v && mine e.2 then (e.1, e.2.resume) else e
      closet := s.closet.map fun e => if vatOf (e.1 / 24) = v && mine e.2.th then (e.1, { e.2 with th := e.2.th.resume }) else e }
    let left := !(s.vat v).halted.isEmpty || !(s.vatThreads v fun t => t.occ && t.halted).isEmpty
    let s := s.modVat v fun x => { x with dbgctl := setFld x.dbgctl 0 1 (b2n left) }
    let grace := s.devtime + fld s.power.drpctl 0 11 * 1000
    let free (c : Crew) : Bool := (span 0 c.n).all fun i => !(s.vat (vatOf (c.phys i))).halted.contains ctx
    let back (e : Nat × Crew) : Nat × Crew :=
      if e.2.ctx = ctx && e.2.state = .halted && free e.2 then
        (e.1, { e.2 with state := e.2.back, graceAt := if e.2.shedMark then some grace else none })
      else e
    { s with crews := s.crews.map back }.blackbox 0x0E v (2 ^ 31 + v)

/-- DBGRESUME. -/
def dbgresume (s : State) : Option State :=
  debug 0x11 (fun s =>
    let ctx := s.mbArg 0
    if (s.ctx? ctx).isNone then (MBBADARG, s) else (MBOK, ((span 0 256).filter s.mbVat).foldl (resumeVat ctx) s)) s

/-- The thread that MBARG0 to MBARG2 name: a context, a physical core and slot. -/
def State.mbThread (s : State) : Option Thread :=
  let t := s.thread (s.mbArg 1) (s.mbArg 2)
  if s.mbArg 1 < 4096 && s.mbArg 2 < 8 && t.occ && s.ctxOf t.ref.crew = s.mbArg 0 then some t else none

/-- DBGSTEP. -/
def dbgstep (s : State) : Option State :=
  debugCore 0x12 (fun s =>
    match s.mbThread with
    | some t =>
      if !t.halted || s.mbArg 3 = 0 || 65535 < s.mbArg 3 then (MBBADARG, s)
      else (MBOK, s.modThread (s.mbArg 1) (s.mbArg 2) fun t => { t with steps := s.mbArg 3 })
    | none => (MBBADARG, s)) s

/-- The value of a selector of Table 4.11, as bytes. Of a stream or queue register it is the binding, in the layout of Table 7.6, since naming the
register would pop (DEDUCED, log entry 30). -/
def selectRead (s : State) (t : Thread) (sel : Nat) : Option (List Byte) :=
  if sel < 24 then some (bytesOf (t.getG sel).toNat 8)
  else if sel < 28 then some (vget t.streams (sel - 24) StreamBind.none).bytes
  else if sel < 32 then some (bytesOf (vget t.queues (sel - 28) 0).toNat 8)
  else if 0x100 ≤ sel && sel < 0x110 then some (bytesOf (vget t.v (sel - 0x100) 0).toNat 64)
  else if 0x200 ≤ sel && sel < 0x208 then some (bytesOf (t.getM (sel - 0x200)).toNat 8)
  else if sel = 0x300 then some (bytesOf t.predWord.toNat 8)
  else if 0x400 ≤ sel && sel < 0x500 then
    (if csrAssigned (BitVec.ofNat 12 (sel - 0x400)) then some (bytesOf (csrRead s (sel - 0x400)).toNat 8) else none)
  else if sel = 0x800 then some (bytesOf t.pc.toNat 8)
  else none

/-- The thread with a selected register written; reserved bits of a stream's descriptor stay zero (R8). -/
def selectWrite (s : State) (core slot sel : Nat) : Option State :=
  let w := word (ofBytes (s.getWindow 0 8))
  let mod (f : Thread → Thread) : Option State := some (s.modThread core slot f)
  if sel < 24 then mod fun t => t.writeReg (t.destG (BitVec.ofNat 5 sel) w)
  else if sel < 28 then
    let v := ofBytes (s.getWindow 0 48)
    mod fun t => { t with streams := t.streams.setIfInBounds (sel - 24) { vget t.streams (sel - 24) StreamBind.none with
      desc := RecKind.stream.reserved.foldl (fun d r => setFld d r.1 r.2 0) (BitVec.ofNat 320 v), count := bits v 320 32, bound := v.testBit 352, stopped := v.testBit 353 } }
  else if sel < 32 then mod fun t => { t with queues := t.queues.setIfInBounds (sel - 28) w }
  else if 0x100 ≤ sel && sel < 0x110 then
    mod fun t => t.writeReg (.v (BitVec.ofNat 4 (sel - 0x100)) (BitVec.ofNat 512 (ofBytes (s.getWindow 0 64))))
  else if 0x200 ≤ sel && sel < 0x208 then mod fun t => t.writeReg (.m (BitVec.ofNat 3 (sel - 0x200)) (w.setWidth 16))
  else if sel = 0x300 then mod fun t => { t with pred := w.setWidth 16 ||| 1 }
  else if 0x400 ≤ sel && sel < 0x500 && csrAssigned (BitVec.ofNat 12 (sel - 0x400)) then
    some { (csrWrite { s with curCore := core, curSlot := slot } (sel - 0x400) w) with curCore := s.curCore, curSlot := s.curSlot }
  else if sel = 0x800 then mod fun t => { t with pc := w, line := none, entry := false, park := if t.atBoundary then none else t.park }
  else none

/-- DBGREAD. -/
def dbgread (s : State) : Option State :=
  debugCore 0x13 (fun s =>
    match s.mbThread with
    | some t =>
      (match selectRead { s with curCore := s.mbArg 1, curSlot := s.mbArg 2 } t (s.mbArg 3) with
        | some bs => (MBOK, s.putWindow 0 bs)
        | none => (MBBADARG, s))
    | none => (MBBADARG, s)) s

/-- DBGWRITE. -/
def dbgwrite (s : State) : Option State :=
  debugCore 0x14 (fun s =>
    match s.mbThread with
    | some _ => (match selectWrite s (s.mbArg 1) (s.mbArg 2) (s.mbArg 3) with
        | some s => (MBOK, s)
        | none => (MBBADARG, s))
    | none => (MBBADARG, s)) s

/-- DBGCFG: DBGCTL's writable fields, and the watch range from MBARG5 and MBARG6. -/
def dbgcfg (s : State) : Option State :=
  debug 0x15 (fun s =>
    let v := s.mbArg 0
    if 256 ≤ v then (MBBADARG, s)
    else (MBOK, s.modVat v fun x => { x with
      dbgctl := (vget s.mgmt.mbarg 1 0 &&& 0xFFFFFFFFFFFFFE00) ||| (x.dbgctl &&& 1)
      watchLo := vget s.mgmt.mbarg 5 0, watchHi := vget s.mgmt.mbarg 6 0 })) s

def execDbghalt (s : State) : Out := event s (dbghalt s)
def execDbgresume (s : State) : Out := event s (dbgresume s)
def execDbgstep (s : State) : Out := event s (dbgstep s)
def execDbgread (s : State) : Out := event s (dbgread s)
def execDbgwrite (s : State) : Out := event s (dbgwrite s)
def execDbgcfg (s : State) : Out := event s (dbgcfg s)

end Sys2Proof.Machine
end

