-- ==== Sys2Proof/Machine/Bar0.lean ====
section
/-! DEFINITION. What the host writes to the device's registers, and its accesses to device memory (R20 to R23, R38 to R41, R79, R187,
R209, R218, Tables 6.1 to 6.5). -/

namespace Sys2Proof.Machine

/-! ## Registers without a behaviour of their own (R38) -/

/-- Keep the writable bits of a value. -/
def clampTo (lo hi n : Nat) : Nat := max lo (min hi n)

/-- A write into the power registers (Table 6.1). -/
def writePower (p : Power) (off : Nat) (v : Word) : Power :=
  if off = 0x100 then
    { p with drpctl := word (min 2000 (fld v 0 11) + fld v 15 6 * 2 ^ 15) }
  else if off = 0x108 then { p with gridClear := p.gridClear || bit v 31 }
  else if 0x110 ≤ off && off < 0x150 then { p with fbp := p.fbp.setIfInBounds ((off - 0x110) / 8) (v &&& 0x8007FFFF) }
  else if 0x150 ≤ off && off < 0x190 then { p with vbp := p.vbp.setIfInBounds ((off - 0x150) / 8) (v &&& 0x8007FFFF) }
  else if 0x190 ≤ off && off < 0x1D0 then { p with lvl := p.lvl.setIfInBounds ((off - 0x190) / 8) (v &&& 0xFF07) }
  else if off = 0x1D0 then { p with therm := word (clampTo 60 110 (fld v 0 8) + clampTo 60 105 (fld v 8 8) * 2 ^ 8) }
  else p

/-- A write into HGRP0–HGRP31: five dwords each, of which the last holds CMASK alone (Table 8.6). -/
def writeHgrp (h : Hub) (off : Nat) (v : Word) : Hub :=
  let k := (off - 0x400) / 0x40
  let i := (off - 0x400) % 0x40 / 8
  if 4 < i then h
  else
    let old := Tbl.get 0 h.hgrp k
    let n := if i = 4 then setFld old 256 16 (fld v 0 16) else setFld old (64 * i) 64 v.toNat
    { h with hgrp := Tbl.put 0 h.hgrp k n }

/-- A write into the mailbox (Table 4.4): MBCMD with GO starts a command; while BUSY is set, a write to MBCMD is ignored. -/
def writeMailbox (m : Mgmt) (off : Nat) (v : Word) : Mgmt :=
  if off = 0 then
    if bit m.mbstat 63 then m
    else
      let m := { m with mbcmd := v &&& 0xC7FF00000000FFFF }
      if bit v 63 then { m with mbstat := word (2 ^ 63), mbdone := none } else m
  else if 0x40 ≤ off && off < 0x80 then { m with mbarg := m.mbarg.setIfInBounds ((off - 0x40) / 8) v }
  else if 0x1000 ≤ off && off < 0x10000 then
    { m with window := ((bytesOf v.toNat 8).zip (span (off - 0x1000) 8)).foldl (fun w e => Tbl.put 0 w e.2 e.1) m.window }
  else m

/-- Where BAR2 starts in the offsets of BAR0_REGISTER_WRITE, after the 512 MiB of BAR0; its MSI-X table has 2,048 entries of 16 bytes, and the
pending-bit array follows it (R37; PRESUMED, log entry 96). -/
def bar2 : Nat := 0x20000000
def msixPba : Nat := 0x8000

/-- A write of 8 bytes into the MSI-X table. A vector that is pending is signalled when its mask is cleared (PRESUMED, log entry 96). -/
def writeMsix (s : State) (off : Nat) (v : Word) : State :=
  if msixPba ≤ off then s
  else
    let vec := off / 16
    let e := setFld (Tbl.get msixReset s.hub.msixTab vec) (off % 16 * 8) 64 v.toNat
    let s := s.modHub fun h => { h with msixTab := Tbl.put msixReset h.msixTab vec e }
    if s.hub.msixPend.contains vec && !s.hub.masked vec then
      (s.modHub fun h => { h with msixPend := h.msixPend.filter (· ≠ vec) }).signal vec
    else s

/-- BAR0_REGISTER_WRITE: 8 bytes at an aligned offset, or the low 4 bytes for a route table entry; an offset of 512 MiB and more lies in BAR2.
Offsets that name no such register ignore the write. The link must have trained; one that has trained for the mailbox alone carries no other
write (R32, R80; DEDUCED, log entry 89). -/
def bar0RegisterWrite (off : Nat) (v : Word) (s : State) : Option State :=
  if !s.hub.linkUp || (s.hub.mailboxOnly && !(0x20000 ≤ off && off < 0x30000)) then none
  else if 0x10000 ≤ off && off < 0x11000 then
    if off % 4 = 0 then
      some (s.modHub fun h => { h with grt := Tbl.put 0 h.grt ((off - 0x10000) / 4) (v.setWidth 32 &&& 0x1FFFF) })
    else some s
  else if off % 8 ≠ 0 then some s
  else if 0x20000 ≤ off && off < 0x30000 then some (s.modMgmt fun m => writeMailbox m (off - 0x20000) v)
  else if bar2 ≤ off then some (writeMsix s (off - bar2) v)
  else if 0x400 ≤ off && off < 0xC00 then some (s.modHub fun h => writeHgrp h off v)
  else some (s.modPower fun p => writePower p off v)

def execBar0RegisterWrite (off : Nat) (val : BitVec 64) (s : State) : Out := event s (bar0RegisterWrite off val s)

/-! ## Queue 0 and PKGID (R21, R40) -/

/-- Writable bits of RINGCFG and CPLCFG. -/
def ringMask : Word := 0xFFF0FFFFFFFFF01F
def cplMask : Word := 0x0000FFFFFFFFF01F

/-- Q0RING_WRITE: EN takes queue 0 to RUN with its counts at 0, where both rings are in order; a write that clears EN takes effect when the
packet in execution has finished, at once where queue 0 has stopped. -/
def q0ringWrite (v : Word) (s : State) : Option State :=
  let x := s.queue 0
  let v := v &&& ringMask
  if !s.hub.ready || !s.hostLink then none
  else if bit x.ringcfg 63 then
    if bit v 63 then none
    else if x.state = .stop then
      some (s.modQueue 0 fun x => x.takeRing v)
    else some (refreshQueue (s.modQueue 0 fun x => { x with ringNext := some v }) 0)
  else if x.state ≠ .off then none
  else if bit v 63 && ringOk v && cplOk x.cplcfg then
    some (s.modQueue 0 fun x => { x with
      ringcfg := v, ringNext := none, state := .run, code := 0, head := 0, tail := 0, cplHead := 0, cplTail := 0, expSeq := 0, rereads := 0
      deficit := 0, cmds := x.cmds.filter fun c => c.begun })
  else some (s.modQueue 0 fun x => { x with ringcfg := setFld v 63 1 0 })

/-- Q0CPL_WRITE, while EN is 0. -/
def q0cplWrite (v : Word) (s : State) : Option State :=
  if bit (s.queue 0).ringcfg 63 || !s.hostLink then none else some (s.modQueue 0 fun x => { x with cplcfg := v &&& cplMask })

/-- PKGID_WRITE, until LOCK is set. -/
def pkgidWrite (v : BitVec 32) (s : State) : Option State :=
  if bit s.hub.pkgid 31 || !s.hostLink then none else some (s.modHub fun h => { h with pkgid := v &&& 0x800FFFFF })

def execQ0ringWrite (val : BitVec 64) (s : State) : Out := event s (q0ringWrite val s)
def execQ0cplWrite (val : BitVec 64) (s : State) : Out := event s (q0cplWrite val s)
def execPkgidWrite (val : BitVec 32) (s : State) : Out := event s (pkgidWrite val s)

/-! ## Host accesses to device memory (R88, R209, R218) -/

/-- Die offset of a canonical DRAM address (R188). -/
def dieOffset (pa : Nat) : Nat := pa / 2 ^ 14 * 4096 + pa % 4096

/-- A leaf maps a DRAM address. (DEDUCED, log entry 76.) -/
def leafMaps (e : BitVec 64) (lvl pa : Nat) : Bool :=
  let base := fld e 12 36 * 4096
  let size := leafSize e lvl
  if fld e 6 2 = 1 then fld e 8 2 = dieOfPA pa && base ≤ dieOffset pa && dieOffset pa < base + size
  else base ≤ pa && pa < base + size

/-- A page with L = 1, under a table at a level, maps an address: its entry. -/
def loggedIn (s : State) (t pa : Nat) : Nat → Option (BitVec 64)
  | 0 => none
  | n + 1 => (span 0 512).findSome? fun i =>
    let e : BitVec 64 := BitVec.ofNat 64 (s.read 0 (t + 8 * i) 8)
    if !bit e 0 then none
    else if !bit e 4 then (if n = 0 then none else loggedIn s (fld e 12 36 * 4096) pa n)
    else if bit e 61 && (leafBad e n).isNone && leafMaps e n pa then some e
    else none

/-- Log a host write for every context with checkpointing that maps the line in a logged page (R88); none while a log has no room,
with the context that must seal. -/
def logHost (s : State) (pa : Nat) : List (Nat × Ctx) → State ⊕ Nat
  | [] => .inl s
  | (n, c) :: r =>
    if !c.ckpt then logHost s pa r
    else match loggedIn s c.root pa 4 with
      | none => logHost s pa r
      | some e => match logLine s n pa e with
        | some s => logHost s pa r
        | none => .inr n

/-- The bytes of a write, under its mask. -/
def maskedWrite (s : State) (pa : Nat) (data : BitVec 512) (mask : BitVec 64) : State :=
  (span 0 64).foldl (fun s i => if bit mask i then s.setByte (pa + i) (BitVec.ofNat 8 (fld data (8 * i) 8)) else s) s

/-- A host access is at the head of nothing: it waits on a hold or on a fence. -/
def hostWaits (s : State) (write : Bool) (pa : Nat) : Bool :=
  (holdHit s pa 64 (if write then .write else .read)).isSome || fenced s 0 0 pa 0

/-- An access of the host is performed at the line's home: where the line is resident (R185, R218). -/
def hostPerform (s : State) (write : Bool) (line : Nat) (data : BitVec 512) (mask : BitVec 64) : State :=
  let pa := line * 64
  if write then
    let s := maskedWrite s pa data mask
    (if mask = BitVec.allOnes 64 then s.unpoison pa 64 else s).touchResident pa true
  else
    let r := (line, BitVec.ofNat 512 (s.read 0 pa 64), s.poisoned 0 pa 64)
    (s.touchResident pa false).modHub fun h => { h with hostReads := r :: h.hostReads }

/-- What an access of the host to device DRAM comes to now: it is performed, or waits on a hold, a fence or a log without room. -/
def hostTry (s : State) (write : Bool) (line : Nat) (data : BitVec 512) (mask : BitVec 64) : State ⊕ State :=
  if hostWaits s write (line * 64) then .inr s
  else if write then
    match logHost s (line * 64) s.ctxs with
    | .inr n => .inr (if s.logFull n then s.wantSeal n else s)
    | .inl s => .inl (hostPerform s write line data mask)
  else .inl (hostPerform s write line data mask)

/-- HOST_MEM_ACCESS: a read or write of a line of device DRAM over CXL.mem, performed at its home slice. Accesses are performed in their order
(R218): while one waits, a later one waits behind it; the event with the content of the first one tries that one again. The host's own
accesses to its memory, which are no CXL.mem accesses, are performed at once (DESIGN CHOICE, log entry 115). -/
def hostMemAccess (write : Bool) (line : Nat) (data : BitVec 512) (mask : BitVec 64) (s : State) : Option State :=
  let same (a : HostAcc) : Bool := a.write = write && a.line = line && (!write || (a.data = data && a.mask = mask))
  let enter (s : State) : State := s.modHub fun h => { h with hostAccs := h.hostAccs ++ [⟨write, line, data, mask, s.devtime⟩] }
  if s.mgmt.stopped || !s.hostLink then none
  else match kindOf (line * 64), s.hub.hostAccs with
  | .host, _ => some (hostPerform s write line data mask)
  | .dram, [] => (match hostTry s write line data mask with
    | .inl s => some s
    | .inr s => some (enter s))
  | .dram, a :: _ =>
    if !same a then some (enter s)
    else (match hostTry s write line data mask with
      | .inl s => some (s.modHub fun h => { h with hostAccs := h.hostAccs.drop 1 })
      | .inr t => if t = s then none else some t)
  | _, _ => none

/-- HOST_HOLD_TIMEOUT: after 100 µs on a hold, a read returns poison and a write is discarded and reported. -/
def hostHoldTimeout (i : Nat) (s : State) : Option State :=
  match s.hub.hostAccs[i]? with
  | none => none
  | some a =>
    let held := (holdHit s (a.line * 64) 64 (if a.write then .write else .read)).isSome
    if !held || s.devtime ≤ a.since + 100000 then none
    else some (s.modHub fun h =>
      let h := { h with hostAccs := h.hostAccs.eraseIdx i }
      if a.write then { h with cxlErrs := h.cxlErrs + 1 } else { h with hostReads := (a.line, 0, true) :: h.hostReads })

def execHostMemAccess (write : Bool) (line : Nat) (data : BitVec 512) (mask : BitVec 64) (s : State) : Out :=
  event s (hostMemAccess write line data mask s)
def execHostHoldTimeout (i : Nat) (s : State) : Out := event s (hostHoldTimeout i s)

/-! ## What a read of BAR0 answers (R38, R41) -/

/-- DEVSTAT (Table 2.4). -/
def Hub.devstat (h : Hub) : Nat := b2n h.ready * 2 ^ 31 + b2n h.fwerr * 2 ^ 30 + b2n h.onemod * 2 ^ 29 + b2n h.slw * 2 ^ 28

/-- DRPSTAT (Table 6.5). -/
def Power.drpstat (p : Power) : Nat :=
  b2n p.grid * 2 ^ 31 + b2n p.batt * 2 ^ 30 + shedMask p * 2 ^ 16 + p.rise * 2 ^ 14 + p.raw * 2 ^ 11 + p.level * 2 ^ 8 + p.ceil * 2 ^ 3 +
    p.eceil

/-- A register of the device block (Tables 2.2, 6.1, R187). -/
def readDevice (s : State) (off : Nat) : Word :=
  let p := s.power
  if off = 0x000 then word devId
  else if off = 0x008 then word s.hub.devstat
  else if off = 0x010 then word s.devtime
  else if off = 0x020 then (s.queue 0).ringcfg
  else if off = 0x028 then (s.queue 0).cplcfg
  else if off = 0x100 then p.drpctl
  else if off = 0x108 then word p.drpstat
  else if 0x110 ≤ off && off < 0x150 then vget p.fbp ((off - 0x110) / 8) 0
  else if 0x150 ≤ off && off < 0x190 then vget p.vbp ((off - 0x150) / 8) 0
  else if 0x190 ≤ off && off < 0x1D0 then vget p.lvl ((off - 0x190) / 8) 0
  else if off = 0x1D0 then p.therm
  else if 0x400 ≤ off && off < 0xC00 then
    word (fld (Tbl.get (0 : BitVec 320) s.hub.hgrp ((off - 0x400) / 0x40)) (64 * ((off - 0x400) % 0x40 / 8)) 64)
  else 0

/-- A register of a queue's control page (Table 2.7); KICK is written only. -/
def readQueuePage (q : Queue) (off : Nat) : Word :=
  if off = 0x004 then q.cplHead.setWidth 64
  else if off = 0x008 then q.head.setWidth 64
  else if off = 0x00C then q.tail.setWidth 64
  else if off = 0x010 then word (q.state.code * 2 ^ 30 + (if q.state = .stop then q.code else 0) * 2 ^ 16 + q.expSeq.toNat)
  else if off = 0x014 then q.cplTail.setWidth 64
  else 0

/-- A register of the mailbox, or 8 bytes of its window (Table 4.4). -/
def readMailbox (s : State) (off : Nat) : Word :=
  if off = 0 then s.mgmt.mbcmd
  else if off = 8 then s.mgmt.mbstat
  else if 0x40 ≤ off && off < 0x80 then vget s.mgmt.mbarg ((off - 0x40) / 8) 0
  else if 0x1000 ≤ off && off < 0x10000 then word (ofBytes (s.getWindow (off - 0x1000) 8))
  else 0

/-- The register at an aligned offset of BAR0 (Table 2.1): an offset that names none reads 0. A read of PSTPST clears its counters as
well, which is a row of the table (PSTPST_READ); no other read changes anything. A power register reads as written, whether or not the
evaluator uses the value yet (DEDUCED, log entry 91). -/
def State.bar0Read (s : State) (off : Nat) : Word :=
  if off < 0x10000 then readDevice s off
  else if off < 0x11000 then (Tbl.get 0 s.hub.grt ((off - 0x10000) / 4)).setWidth 64
  else if off = 0x11000 then s.hub.pkgid.setWidth 64
  else if off = 0x11008 then word (pstpst s.power)
  else if 0x20000 ≤ off && off < 0x30000 then readMailbox s (off - 0x20000)
  else if 0x10000000 ≤ off && off < 0x20000000 then readQueuePage (s.queue ((off - 0x10000000) / 0x1000)) (off % 0x1000)
  else 0

/-- BAR2: the MSI-X table, whose entries read as written, and the pending bits, 64 to a dword (R37; PRESUMED, log entry 96). -/
def State.bar2Read (s : State) (off : Nat) : Word :=
  if off < msixPba then word (fld (Tbl.get msixReset s.hub.msixTab (off / 16)) (off % 16 * 8) 64)
  else if off < msixPba + 256 then
    word (((span 0 64).filter fun i => s.hub.msixPend.contains ((off - msixPba) * 8 + i)).foldl (fun a i => a + 2 ^ i) 0)
  else 0

/-! ## The CXL.io function (R19, R37) -/

/-- A byte of the low register of a 64-bit memory BAR of 2^lg bytes (R37): the address bits below its size are zero, and its flags
say memory, 64-bit and, but where `any` leaves that bit open, non-prefetchable; what the host has assigned is free. That the registers lie from offset
0x10 on, BAR2 at 0x18, and how the flags are coded, is PCI's layout (PRESUMED, log entry 135). -/
def barByte (off base lg : Nat) (any : Bool) : Byte :=
  let open_ : Nat := (span base 4).foldl (fun n o => n + (Config.configSpace o).toNat * 256 ^ (o - base)) 0
  let v := open_ / 2 ^ lg * 2 ^ lg + (if any then open_ / 8 % 2 * 8 else 0) + 4
  BitVec.ofNat 8 (v / 256 ^ (off - base))

/-- A byte of configuration space: the vendor ID, the device ID, the class code and the two BARs, where PCI has them (PRESUMED, log entry
135), and what the spec does not give (DESIGN CHOICE, log entry 109). Nothing of it changes. -/
def configRead (off : Nat) : Byte :=
  let at_ (base n : Nat) : Byte := BitVec.ofNat 8 (n / 256 ^ (off - base))
  if off < 2 then at_ 0 Config.vendorId.toNat
  else if off < 4 then at_ 2 0x9404
  else if 9 ≤ off && off < 12 then at_ 9 0x120000
  else if 0x10 ≤ off && off < 0x14 then barByte off 0x10 29 false
  else if 0x18 ≤ off && off < 0x1C then barByte off 0x18 16 true
  else Config.configSpace off

/-- CXL 3.1 options, and those of Table 1.3, which alone the device supports and advertises. -/
inductive CxlOption where
  | flit256
  | flit256LowLatency
  | flit68
  | io
  | cache
  | memHdmDb
  | ideContainment
  | ideSkid
  | directAttach
  | switching
  | multiLogicalDevice
  | portBasedRouting
deriving DecidableEq, Repr

def CxlOption.supported : CxlOption → Bool
  | .flit256 | .io | .cache | .memHdmDb | .ideContainment | .directAttach => true
  | .flit256LowLatency | .flit68 | .ideSkid | .switching | .multiLogicalDevice | .portBasedRouting => false

end Sys2Proof.Machine
end

