-- ==== Sys2Proof/Machine/Dispatch.lean ====
section
/-! DEFINITION. One arm per instruction and event of the opcode table: each is its meaning, called directly. -/

namespace Sys2Proof.Machine

/-- The meaning of an instruction in a state. -/
def exec (i : Instr) (s : State) : Host.Outcome State Fault Refusal :=
  match i with
  | .coldReset => Sys2Proof.Machine.execColdReset s
  | .warmReset => Sys2Proof.Machine.execWarmReset s
  | .secureBoot pufOk => Sys2Proof.Machine.execSecureBoot pufOk s
  | .hostLinkTrain m0 m1 => Sys2Proof.Machine.execHostLinkTrain m0 m1 s
  | .hostLinkModuleFail md => Sys2Proof.Machine.execHostLinkModuleFail md s
  | .scaleOutPortFail port => Sys2Proof.Machine.execScaleOutPortFail port s
  | .scaleOutPortUp port => Sys2Proof.Machine.execScaleOutPortUp port s
  | .remoteRouteTimeout vat idx => Sys2Proof.Machine.execRemoteRouteTimeout vat idx s
  | .slwAssert => Sys2Proof.Machine.execSlwAssert s
  | .supplyLossSequence => Sys2Proof.Machine.execSupplyLossSequence s
  | .thermtrip kind idx => Sys2Proof.Machine.execThermtrip kind idx s
  | .pstpFrame bytes idle clean => Sys2Proof.Machine.execPstpFrame bytes idle clean s
  | .telemetryLost => Sys2Proof.Machine.execTelemetryLost s
  | .droopEvaluation => Sys2Proof.Machine.execDroopEvaluation s
  | .eceilStep => Sys2Proof.Machine.execEceilStep s
  | .shedGraceExpiry crew => Sys2Proof.Machine.execShedGraceExpiry crew s
  | .sensorSample kind idx val => Sys2Proof.Machine.execSensorSample kind idx val s
  | .thermalCapDrop core => Sys2Proof.Machine.execThermalCapDrop core s
  | .thermalCapRise quad => Sys2Proof.Machine.execThermalCapRise quad s
  | .dramThrottle layer => Sys2Proof.Machine.execDramThrottle layer s
  | .dramThrottleLift layer => Sys2Proof.Machine.execDramThrottleLift layer s
  | .relocationMark core => Sys2Proof.Machine.execRelocationMark core s
  | .relocation crew => Sys2Proof.Machine.execRelocation crew s
  | .operatingPointChange quad => Sys2Proof.Machine.execOperatingPointChange quad s
  | .coreSleep core => Sys2Proof.Machine.execCoreSleep core s
  | .coreWake core => Sys2Proof.Machine.execCoreWake core s
  | .energyRefill => Sys2Proof.Machine.execEnergyRefill s
  | .wsRefreshWindow => Sys2Proof.Machine.execWsRefreshWindow s
  | .structureError code unit corrected ctx => Sys2Proof.Machine.execStructureError code unit corrected ctx s
  | .selfTestDone code unit pass => Sys2Proof.Machine.execSelfTestDone code unit pass s
  | .unrecoverableFault crew core slot byThread addr => Sys2Proof.Machine.execUnrecoverableFault crew core slot byThread addr s
  | .checkpointPeriod ctx => Sys2Proof.Machine.execCheckpointPeriod ctx s
  | .intervalSeal ctx => Sys2Proof.Machine.execIntervalSeal ctx s
  | .rollback ctx => Sys2Proof.Machine.execRollback ctx s
  | .bar0RegisterWrite off val => Sys2Proof.Machine.execBar0RegisterWrite off val s
  | .q0ringWrite val => Sys2Proof.Machine.execQ0ringWrite val s
  | .q0cplWrite val => Sys2Proof.Machine.execQ0cplWrite val s
  | .pkgidWrite val => Sys2Proof.Machine.execPkgidWrite val s
  | .pstpstRead => Sys2Proof.Machine.execPstpstRead s
  | .kick q val => Sys2Proof.Machine.execKick q val s
  | .cplheadWrite q val => Sys2Proof.Machine.execCplheadWrite q val s
  | .commandFetch q => Sys2Proof.Machine.execCommandFetch q s
  | .headerReread q => Sys2Proof.Machine.execHeaderReread q s
  | .completionRecordWrite q => Sys2Proof.Machine.execCompletionRecordWrite q s
  | .nopPacket q => Sys2Proof.Machine.execNopPacket q s
  | .launch q => Sys2Proof.Machine.execLaunch q s
  | .copy q => Sys2Proof.Machine.execCopy q s
  | .hubCopyDone id => Sys2Proof.Machine.execHubCopyDone id s
  | .signalStore q => Sys2Proof.Machine.execSignalStore q s
  | .signalAtomicAdd q => Sys2Proof.Machine.execSignalAtomicAdd q s
  | .signalArrive q => Sys2Proof.Machine.execSignalArrive q s
  | .waitv q => Sys2Proof.Machine.execWaitv q s
  | .waitvReevaluate q => Sys2Proof.Machine.execWaitvReevaluate q s
  | .waitvTimeout q => Sys2Proof.Machine.execWaitvTimeout q s
  | .wsload q => Sys2Proof.Machine.execWsload q s
  | .wssealSeal q => Sys2Proof.Machine.execWssealSeal q s
  | .wssealReopen q => Sys2Proof.Machine.execWssealReopen q s
  | .create => Sys2Proof.Machine.execCreate s
  | .destroy => Sys2Proof.Machine.execDestroy s
  | .qset => Sys2Proof.Machine.execQset s
  | .qreset => Sys2Proof.Machine.execQreset s
  | .wsreg => Sys2Proof.Machine.execWsreg s
  | .wsfree => Sys2Proof.Machine.execWsfree s
  | .ckptPacket q => Sys2Proof.Machine.execCkptPacket q s
  | .resync => Sys2Proof.Machine.execResync s
  | .preemptSwapOut q => Sys2Proof.Machine.execPreemptSwapOut q s
  | .preemptRestore q => Sys2Proof.Machine.execPreemptRestore q s
  | .profileStart q => Sys2Proof.Machine.execProfileStart q s
  | .profileStop q => Sys2Proof.Machine.execProfileStop q s
  | .profileSpill q => Sys2Proof.Machine.execProfileSpill q s
  | .profileAccount => Sys2Proof.Machine.execProfileAccount s
  | .qfence q => Sys2Proof.Machine.execQfence q s
  | .attest writeOk => Sys2Proof.Machine.execAttest writeOk s
  | .bbread => Sys2Proof.Machine.execBbread s
  | .fwstage => Sys2Proof.Machine.execFwstage s
  | .fwactivate => Sys2Proof.Machine.execFwactivate s
  | .sensrd => Sys2Proof.Machine.execSensrd s
  | .dbghalt => Sys2Proof.Machine.execDbghalt s
  | .dbgresume => Sys2Proof.Machine.execDbgresume s
  | .dbgstep => Sys2Proof.Machine.execDbgstep s
  | .dbgread => Sys2Proof.Machine.execDbgread s
  | .dbgwrite => Sys2Proof.Machine.execDbgwrite s
  | .dbgcfg => Sys2Proof.Machine.execDbgcfg s
  | .mailboxDone => Sys2Proof.Machine.execMailboxDone s
  | .breakpointHalt core slot => Sys2Proof.Machine.execBreakpointHalt core slot s
  | .hostMemAccess write line data mask => Sys2Proof.Machine.execHostMemAccess write line data mask s
  | .hostHoldTimeout id => Sys2Proof.Machine.execHostHoldTimeout id s
  | .placementReserve => Sys2Proof.Machine.execPlacementReserve s
  | .placementCommit => Sys2Proof.Machine.execPlacementCommit s
  | .scrimgCopyDone crew => Sys2Proof.Machine.execScrimgCopyDone crew s
  | .waitListStarvation cls => Sys2Proof.Machine.execWaitListStarvation cls s
  | .gangPreempt crew => Sys2Proof.Machine.execGangPreempt crew s
  | .swapOut crew => Sys2Proof.Machine.execSwapOut crew s
  | .crewRestore crew => Sys2Proof.Machine.execCrewRestore crew s
  | .idleSwap crew => Sys2Proof.Machine.execIdleSwap crew s
  | .itemDispense gid task => Sys2Proof.Machine.execItemDispense gid task s
  | .eosDispense gid q core slot => Sys2Proof.Machine.execEosDispense gid q core slot s
  | .graphRetire gid => Sys2Proof.Machine.execGraphRetire gid s
  | .asyncTrapEntry core slot => Sys2Proof.Machine.execAsyncTrapEntry core slot s
  | .notifyEntry core slot => Sys2Proof.Machine.execNotifyEntry core slot s
  | .asyncResultLand core slot j => Sys2Proof.Machine.execAsyncResultLand core slot j s
  | .accessPerformed core slot => Sys2Proof.Machine.execAccessPerformed core slot s
  | .sendDelivery core slot => Sys2Proof.Machine.execSendDelivery core slot s
  | .putrLand core slot => Sys2Proof.Machine.execPutrLand core slot s
  | .sendTimeout core slot => Sys2Proof.Machine.execSendTimeout core slot s
  | .curdAdmit core slot => Sys2Proof.Machine.execCurdAdmit core slot s
  | .curdResume core => Sys2Proof.Machine.execCurdResume core s
  | .closetSwap core => Sys2Proof.Machine.execClosetSwap core s
  | .movementSwap core => Sys2Proof.Machine.execMovementSwap core s
  | .pactForm press tag => Sys2Proof.Machine.execPactForm press tag s
  | .pactTimeout core slot => Sys2Proof.Machine.execPactTimeout core slot s
  | .pressEntryStart press j => Sys2Proof.Machine.execPressEntryStart press j s
  | .pactStreamEnd press => Sys2Proof.Machine.execPactStreamEnd press s
  | .pactDeliveryDone press j => Sys2Proof.Machine.execPactDeliveryDone press j s
  | .pactSuspend press koff => Sys2Proof.Machine.execPactSuspend press koff s
  | .pactResume press => Sys2Proof.Machine.execPactResume press s
  | .operandFault press koff own scale addr => Sys2Proof.Machine.execOperandFault press koff own scale addr s
  | .deliveryFault press j landed addr => Sys2Proof.Machine.execDeliveryFault press j landed addr s
  | .copySectorLand vat idx sector => Sys2Proof.Machine.execCopySectorLand vat idx sector s
  | .copyFailure vat idx sector rmt => Sys2Proof.Machine.execCopyFailure vat idx sector rmt s
  | .cpymAccept core => Sys2Proof.Machine.execCpymAccept core s
  | .remoteWriteArrive xfer kind ctx asid va n data last => Sys2Proof.Machine.execRemoteWriteArrive xfer kind ctx asid va n data last s
  | .streamElementFetch core slot sr => Sys2Proof.Machine.execStreamElementFetch core slot sr s
  | .streamElementLand core slot sr ok => Sys2Proof.Machine.execStreamElementLand core slot sr ok s
  | .tlbiComplete core slot => Sys2Proof.Machine.execTlbiComplete core slot s
  | .ill => Sys2Proof.Machine.execIll s
  | .nop h => Sys2Proof.Machine.execNop h s
  | .add h d a b => Sys2Proof.Machine.execAdd h d a b s
  | .sub h d a b => Sys2Proof.Machine.execSub h d a b s
  | .mul h d a b => Sys2Proof.Machine.execMul h d a b s
  | .mulh h d a b => Sys2Proof.Machine.execMulh h d a b s
  | .mulhu h d a b => Sys2Proof.Machine.execMulhu h d a b s
  | .div h d a b => Sys2Proof.Machine.execDiv h d a b s
  | .divu h d a b => Sys2Proof.Machine.execDivu h d a b s
  | .rem h d a b => Sys2Proof.Machine.execRem h d a b s
  | .remu h d a b => Sys2Proof.Machine.execRemu h d a b s
  | .and h d a b => Sys2Proof.Machine.execAnd h d a b s
  | .or h d a b => Sys2Proof.Machine.execOr h d a b s
  | .xor h d a b => Sys2Proof.Machine.execXor h d a b s
  | .andn h d a b => Sys2Proof.Machine.execAndn h d a b s
  | .shl h d a b => Sys2Proof.Machine.execShl h d a b s
  | .shr h d a b => Sys2Proof.Machine.execShr h d a b s
  | .sar h d a b => Sys2Proof.Machine.execSar h d a b s
  | .rotr h d a b => Sys2Proof.Machine.execRotr h d a b s
  | .clz h d a => Sys2Proof.Machine.execClz h d a s
  | .ctz h d a => Sys2Proof.Machine.execCtz h d a s
  | .popc h d a => Sys2Proof.Machine.execPopc h d a s
  | .min h d a b => Sys2Proof.Machine.execMin h d a b s
  | .max h d a b => Sys2Proof.Machine.execMax h d a b s
  | .minu h d a b => Sys2Proof.Machine.execMinu h d a b s
  | .maxu h d a b => Sys2Proof.Machine.execMaxu h d a b s
  | .mov h d a => Sys2Proof.Machine.execMov h d a s
  | .bswap h d a => Sys2Proof.Machine.execBswap h d a s
  | .addi h d a imm => Sys2Proof.Machine.execAddi h d a imm s
  | .muli h d a imm => Sys2Proof.Machine.execMuli h d a imm s
  | .andi h d a imm => Sys2Proof.Machine.execAndi h d a imm s
  | .ori h d a imm => Sys2Proof.Machine.execOri h d a imm s
  | .xori h d a imm => Sys2Proof.Machine.execXori h d a imm s
  | .shli h d a n => Sys2Proof.Machine.execShli h d a n s
  | .shri h d a n => Sys2Proof.Machine.execShri h d a n s
  | .sari h d a n => Sys2Proof.Machine.execSari h d a n s
  | .movi h d imm => Sys2Proof.Machine.execMovi h d imm s
  | .movhi h d a imm => Sys2Proof.Machine.execMovhi h d a imm s
  | .extr h d a pos len sx => Sys2Proof.Machine.execExtr h d a pos len sx s
  | .insr h d a b pos len => Sys2Proof.Machine.execInsr h d a b pos len s
  | .sel h d a b p => Sys2Proof.Machine.execSel h d a b p s
  | .lea h d a b sc imm => Sys2Proof.Machine.execLea h d a b sc imm s
  | .cmp h pd a b cond => Sys2Proof.Machine.execCmp h pd a b cond s
  | .cmpi h pd a cond imm => Sys2Proof.Machine.execCmpi h pd a cond imm s
  | .plog h pd pa pb tab => Sys2Proof.Machine.execPlog h pd pa pb tab s
  | .pget h d => Sys2Proof.Machine.execPget h d s
  | .pset h a => Sys2Proof.Machine.execPset h a s
  | .nchild h d a b => Sys2Proof.Machine.execNchild h d a b s
  | .nparent h d a => Sys2Proof.Machine.execNparent h d a s
  | .nlevel h d a => Sys2Proof.Machine.execNlevel h d a s
  | .nlvlbase h d a => Sys2Proof.Machine.execNlvlbase h d a s
  | .nleaf h d a b => Sys2Proof.Machine.execNleaf h d a b s
  | .fadd h d a b ty rm => Sys2Proof.Machine.execFadd h d a b ty rm s
  | .fsub h d a b ty rm => Sys2Proof.Machine.execFsub h d a b ty rm s
  | .fmul h d a b ty rm => Sys2Proof.Machine.execFmul h d a b ty rm s
  | .ffma h d a b c ty rm => Sys2Proof.Machine.execFfma h d a b c ty rm s
  | .fdiv h d a b ty rm => Sys2Proof.Machine.execFdiv h d a b ty rm s
  | .fsqrt h d a ty rm => Sys2Proof.Machine.execFsqrt h d a ty rm s
  | .fmin h d a b ty => Sys2Proof.Machine.execFmin h d a b ty s
  | .fmax h d a b ty => Sys2Proof.Machine.execFmax h d a b ty s
  | .fcmp h pd a b ty cond => Sys2Proof.Machine.execFcmp h pd a b ty cond s
  | .fcvt h d a st dt rm => Sys2Proof.Machine.execFcvt h d a st dt rm s
  | .fclass h d a ty => Sys2Proof.Machine.execFclass h d a ty s
  | .fsgn h d a b ty => Sys2Proof.Machine.execFsgn h d a b ty s
  | .fsgnn h d a b ty => Sys2Proof.Machine.execFsgnn h d a b ty s
  | .fsgnx h d a b ty => Sys2Proof.Machine.execFsgnx h d a b ty s
  | .fmovi h d ty imm => Sys2Proof.Machine.execFmovi h d ty imm s
  | .br h tgt => Sys2Proof.Machine.execBr h tgt s
  | .brl h d tgt => Sys2Proof.Machine.execBrl h d tgt s
  | .jmp h a => Sys2Proof.Machine.execJmp h a s
  | .jmpl h d a => Sys2Proof.Machine.execJmpl h d a s
  | .loop h d tgt => Sys2Proof.Machine.execLoop h d tgt s
  | .wfw h => Sys2Proof.Machine.execWfw h s
  | .yield h => Sys2Proof.Machine.execYield h s
  | .exit h => Sys2Proof.Machine.execExit h s
  | .ld h d a b sz sx sc imm => Sys2Proof.Machine.execLd h d a b sz sx sc imm s
  | .st h d a b sz sc imm => Sys2Proof.Machine.execSt h d a b sz sc imm s
  | .ldx h d a b sc imm => Sys2Proof.Machine.execLdx h d a b sc imm s
  | .stx h d a b sc imm => Sys2Proof.Machine.execStx h d a b sc imm s
  | .ldv h vd a b sz mk sc imm => Sys2Proof.Machine.execLdv h vd a b sz mk sc imm s
  | .stv h vd a b sz mk sc imm => Sys2Proof.Machine.execStv h vd a b sz mk sc imm s
  | .gath h vd a vb sz sx mk sc imm => Sys2Proof.Machine.execGath h vd a vb sz sx mk sc imm s
  | .scat h vd a vb sz mk sc imm => Sys2Proof.Machine.execScat h vd a vb sz mk sc imm s
  | .aadd h d a b sz sx imm => Sys2Proof.Machine.execAadd h d a b sz sx imm s
  | .aand h d a b sz sx imm => Sys2Proof.Machine.execAand h d a b sz sx imm s
  | .aor h d a b sz sx imm => Sys2Proof.Machine.execAor h d a b sz sx imm s
  | .axor h d a b sz sx imm => Sys2Proof.Machine.execAxor h d a b sz sx imm s
  | .amin h d a b sz sx imm => Sys2Proof.Machine.execAmin h d a b sz sx imm s
  | .amax h d a b sz sx imm => Sys2Proof.Machine.execAmax h d a b sz sx imm s
  | .axch h d a b sz sx imm => Sys2Proof.Machine.execAxch h d a b sz sx imm s
  | .acas h d a b c sz sx imm => Sys2Proof.Machine.execAcas h d a b c sz sx imm s
  | .afadd h d a b sz rm imm => Sys2Proof.Machine.execAfadd h d a b sz rm imm s
  | .ldw h d a b sz sx sc imm => Sys2Proof.Machine.execLdw h d a b sz sx sc imm s
  | .ldvw h vd a b sz mk sc imm => Sys2Proof.Machine.execLdvw h vd a b sz mk sc imm s
  | .sbind h d blk => Sys2Proof.Machine.execSbind h d blk s
  | .sdrain h a => Sys2Proof.Machine.execSdrain h a s
  | .sstat h d a => Sys2Proof.Machine.execSstat h d a s
  | .qbind h d a imm => Sys2Proof.Machine.execQbind h d a imm s
  | .qstat h d a => Sys2Proof.Machine.execQstat h d a s
  | .empty h d => Sys2Proof.Machine.execEmpty h d s
  | .isfull h pd a => Sys2Proof.Machine.execIsfull h pd a s
  | .putr h a b rg => Sys2Proof.Machine.execPutr h a b rg s
  | .migr h a => Sys2Proof.Machine.execMigr h a s
  | .tmodeLight h => Sys2Proof.Machine.execTmodeLight h s
  | .tmodeHeavy h => Sys2Proof.Machine.execTmodeHeavy h s
  | .bar h n => Sys2Proof.Machine.execBar h n s
  | .bara h n => Sys2Proof.Machine.execBara h n s
  | .barw h n => Sys2Proof.Machine.execBarw h n s
  | .sev h a e => Sys2Proof.Machine.execSev h a e s
  | .wev h e => Sys2Proof.Machine.execWev h e s
  | .bfree h e => Sys2Proof.Machine.execBfree h e s
  | .dqpush h d a b imm => Sys2Proof.Machine.execDqpush h d a b imm s
  | .dqpop h d a b imm => Sys2Proof.Machine.execDqpop h d a b imm s
  | .dqspl h d a b imm => Sys2Proof.Machine.execDqspl h d a b imm s
  | .dqstl h d a b imm => Sys2Proof.Machine.execDqstl h d a b imm s
  | .item h a => Sys2Proof.Machine.execItem h a s
  | .itemEos h a => Sys2Proof.Machine.execItemEos h a s
  | .vadd h vd va vb ty mk rnd => Sys2Proof.Machine.execVadd h vd va vb ty mk rnd s
  | .vsub h vd va vb ty mk rnd => Sys2Proof.Machine.execVsub h vd va vb ty mk rnd s
  | .vmul h vd va vb ty mk rnd => Sys2Proof.Machine.execVmul h vd va vb ty mk rnd s
  | .vdiv h vd va vb ty mk rnd => Sys2Proof.Machine.execVdiv h vd va vb ty mk rnd s
  | .vfma h vd va vb vc ty mk rnd => Sys2Proof.Machine.execVfma h vd va vb vc ty mk rnd s
  | .vfnma h vd va vb vc ty mk rnd => Sys2Proof.Machine.execVfnma h vd va vb vc ty mk rnd s
  | .vmin h vd va vb ty mk => Sys2Proof.Machine.execVmin h vd va vb ty mk s
  | .vmax h vd va vb ty mk => Sys2Proof.Machine.execVmax h vd va vb ty mk s
  | .vabs h vd va ty mk => Sys2Proof.Machine.execVabs h vd va ty mk s
  | .vneg h vd va ty mk => Sys2Proof.Machine.execVneg h vd va ty mk s
  | .vand h vd va vb ty mk => Sys2Proof.Machine.execVand h vd va vb ty mk s
  | .vor h vd va vb ty mk => Sys2Proof.Machine.execVor h vd va vb ty mk s
  | .vxor h vd va vb ty mk => Sys2Proof.Machine.execVxor h vd va vb ty mk s
  | .vshl h vd va vb ty mk => Sys2Proof.Machine.execVshl h vd va vb ty mk s
  | .vshr h vd va vb ty mk => Sys2Proof.Machine.execVshr h vd va vb ty mk s
  | .vsar h vd va vb ty mk => Sys2Proof.Machine.execVsar h vd va vb ty mk s
  | .vsqrt h vd va ty mk rnd => Sys2Proof.Machine.execVsqrt h vd va ty mk rnd s
  | .vrsq h vd va ty mk rnd => Sys2Proof.Machine.execVrsq h vd va ty mk rnd s
  | .vrcp h vd va ty mk rnd => Sys2Proof.Machine.execVrcp h vd va ty mk rnd s
  | .vexp2 h vd va ty mk rnd => Sys2Proof.Machine.execVexp2 h vd va ty mk rnd s
  | .vlog2 h vd va ty mk rnd => Sys2Proof.Machine.execVlog2 h vd va ty mk rnd s
  | .vcmp h md va vb ty mk cond => Sys2Proof.Machine.execVcmp h md va vb ty mk cond s
  | .vcvt h vd va st ty mk rnd => Sys2Proof.Machine.execVcvt h vd va st ty mk rnd s
  | .vdot h vd va vb vc ty mk rnd => Sys2Proof.Machine.execVdot h vd va vb vc ty mk rnd s
  | .vmov h vd va ty mk => Sys2Proof.Machine.execVmov h vd va ty mk s
  | .vsel h vd va vb ty mk => Sys2Proof.Machine.execVsel h vd va vb ty mk s
  | .vbcast h vd a ty mk => Sys2Proof.Machine.execVbcast h vd a ty mk s
  | .vfill h vd ty mk imm => Sys2Proof.Machine.execVfill h vd ty mk imm s
  | .vext h d va lane ty => Sys2Proof.Machine.execVext h d va lane ty s
  | .vins h vd a lane ty => Sys2Proof.Machine.execVins h vd a lane ty s
  | .viota h vd ty mk => Sys2Proof.Machine.execViota h vd ty mk s
  | .vcmprs h vd va ty mk => Sys2Proof.Machine.execVcmprs h vd va ty mk s
  | .vexpnd h vd va ty mk => Sys2Proof.Machine.execVexpnd h vd va ty mk s
  | .vshuf h vd va vb ty mk => Sys2Proof.Machine.execVshuf h vd va vb ty mk s
  | .vlut h vd va vb ty mk => Sys2Proof.Machine.execVlut h vd va vb ty mk s
  | .vred h d va fn ty mk rnd => Sys2Proof.Machine.execVred h d va fn ty mk rnd s
  | .vscan h vd va fn ty mk rnd => Sys2Proof.Machine.execVscan h vd va fn ty mk rnd s
  | .vsort h vd va vb vc desc ty mk => Sys2Proof.Machine.execVsort h vd va vb vc desc ty mk s
  | .vmerge h vd va vb vc desc ty mk => Sys2Proof.Machine.execVmerge h vd va vb vc desc ty mk s
  | .vpackq h vd va vb bq4 mk => Sys2Proof.Machine.execVpackq h vd va vb bq4 mk s
  | .vunpkq h vd va bq4 hi mk => Sys2Proof.Machine.execVunpkq h vd va bq4 hi mk s
  | .mlog h md ma mb tab => Sys2Proof.Machine.execMlog h md ma mb tab s
  | .mpopc h d ma => Sys2Proof.Machine.execMpopc h d ma s
  | .mget h d ma => Sys2Proof.Machine.execMget h d ma s
  | .mset h md a => Sys2Proof.Machine.execMset h md a s
  | .pmm h port tag blk => Sys2Proof.Machine.execPmm h port tag blk s
  | .pdsc h port tag blk => Sys2Proof.Machine.execPdsc h port tag blk s
  | .pdgr h port tag blk => Sys2Proof.Machine.execPdgr h port tag blk s
  | .pwait h port tag => Sys2Proof.Machine.execPwait h port tag s
  | .pqry h d port tag => Sys2Proof.Machine.execPqry h d port tag s
  | .pclr h port slot f64 => Sys2Proof.Machine.execPclr h port slot f64 s
  | .pscl h a port slot f64 => Sys2Proof.Machine.execPscl h a port slot f64 s
  | .plds h a port slot f64 => Sys2Proof.Machine.execPlds h a port slot f64 s
  | .psts h a port slot f64 => Sys2Proof.Machine.execPsts h a port slot f64 s
  | .prdl h a b port tag => Sys2Proof.Machine.execPrdl h a b port tag s
  | .pabt h port tag => Sys2Proof.Machine.execPabt h port tag s
  | .prdt h d port pt => Sys2Proof.Machine.execPrdt h d port pt s
  | .pwrt h a port pt => Sys2Proof.Machine.execPwrt h a port pt s
  | .pord h => Sys2Proof.Machine.execPord h s
  | .cpy h blk => Sys2Proof.Machine.execCpy h blk s
  | .remoteAtomicAdd h blk => Sys2Proof.Machine.execRemoteAtomicAdd h blk s
  | .cpym h k blk => Sys2Proof.Machine.execCpym h k blk s
  | .gathr h blk => Sys2Proof.Machine.execGathr h blk s
  | .cpyst h d a => Sys2Proof.Machine.execCpyst h d a s
  | .tbinit h a b => Sys2Proof.Machine.execTbinit h a b s
  | .tbarv h a => Sys2Proof.Machine.execTbarv h a s
  | .tbarx h a b => Sys2Proof.Machine.execTbarx h a b s
  | .tbexp h a b => Sys2Proof.Machine.execTbexp h a b s
  | .tbwait h a b => Sys2Proof.Machine.execTbwait h a b s
  | .tbtry h pd a b => Sys2Proof.Machine.execTbtry h pd a b s
  | .csrr h d n => Sys2Proof.Machine.execCsrr h d n s
  | .csrw h a n => Sys2Proof.Machine.execCsrw h a n s
  | .csrscSet h d a n => Sys2Proof.Machine.execCsrscSet h d a n s
  | .csrscClr h d a n => Sys2Proof.Machine.execCsrscClr h d a n s
  | .trap h n => Sys2Proof.Machine.execTrap h n s
  | .sysc h n => Sys2Proof.Machine.execSysc h n s
  | .rft h => Sys2Proof.Machine.execRft h s
  | .nret h => Sys2Proof.Machine.execNret h s
  | .feat h d n => Sys2Proof.Machine.execFeat h d n s
  | .tlbi h a => Sys2Proof.Machine.execTlbi h a s
  | .tlbiOne h a b => Sys2Proof.Machine.execTlbiOne h a b s
  | .trc h a tag => Sys2Proof.Machine.execTrc h a tag s
  | .lutld h a => Sys2Proof.Machine.execLutld h a s
  | .ctxsw h a b => Sys2Proof.Machine.execCtxsw h a b s
  | .ckpt h => Sys2Proof.Machine.execCkpt h s
  | .halt h => Sys2Proof.Machine.execHalt h s
  | .fenceo h => Sys2Proof.Machine.execFenceo h s
  | .slwRelease => Sys2Proof.Machine.execSlwRelease s
  | .wsloadDone j => Sys2Proof.Machine.execWsloadDone j s
  | .remoteHoldWaitTimeout xfer => Sys2Proof.Machine.execRemoteHoldWaitTimeout xfer s
  | .writeAcknowledge core slot n => Sys2Proof.Machine.execWriteAcknowledge core slot n s
  | .keyTreeStateLoad => Sys2Proof.Machine.execKeyTreeStateLoad s
  | .vstbyFailure => Sys2Proof.Machine.execVstbyFailure s
  | .slotCommandDone press j => Sys2Proof.Machine.execSlotCommandDone press j s

end Sys2Proof.Machine
end

