-- ==== Sys2Proof/Machine/Sequence.lean ====
section
/-! DEFINITION. What moves next: the agenda, the rotation of the slots, and what still runs when the clocks have stopped (R34, R76,
R147, R148). Step calls it. -/

namespace Sys2Proof.Machine

/-- Steps of the management subsystem and of the pins, which go on while every other clock has stopped (R34, R76, R79, R95). -/
def runsStopped : Instr → Bool
  | .coldReset | .warmReset | .vstbyFailure | .slwAssert | .slwRelease | .sensorSample _ _ _ | .thermtrip _ _ | .bbread | .sensrd
  | .attest _ | .fwstage | .fwactivate | .keyTreeStateLoad | .mailboxDone => true
  | _ => false

/-- A step of an agent or an input: every row of the table but the instructions that a thread issues. -/
def isEvent (i : Instr) : Bool := (bodyOf i).isNone

/-- The agenda's entry may be carried out now; an instruction of a thread comes by its thread's turn only. -/
def mayRun (s : State) (i : Instr) : Bool := isEvent i && (!s.mgmt.stopped || runsStopped i)

/-- Time passes; DEVTIME goes on while the clocks have stopped. (DESIGN CHOICE, log entry 82.) -/
def elapse (s : State) (dt : Nat) : State := if s.mgmt.stopped then { s with devtime := s.devtime + dt } else passTime s dt

/-- What a step comes to: an instruction or event that exec carries out, or the state after whatever else happened. -/
inductive Move where
  | run (i : Instr) (s : State)
  | did (s : State)

/-- The turn of a slot. -/
def turnMove (s : State) (core slot : Nat) : Move :=
  if s.mgmt.stopped then .did s
  else match turnOf s core slot with
    | .one i s => .run i s
    | .did s => .did s

/-- The next entry of the agenda. -/
def agendaMove (s : State) : Act → Move
  | .turn dt core slot => turnMove (elapse s dt) core slot
  | .part _ => .did s
  | .ev dt i => if mayRun s i then .run i (elapse s dt) else .did (elapse s dt)
  | .hit core slot => .did ((breakpointHalt core slot s).getD s)

/-- One rotation of 8 turns at 800 MHz takes 10 ns; every slot of every core has one turn in it. -/
def rotorMove (s : State) : Move :=
  let k := s.rotor % 32768
  let s := { s with rotor := (k + 1) % 32768 }
  turnMove (if k = 0 then elapse s 10 else s) (k / 8) (k % 8)

/-- What the next step is. (DESIGN CHOICE, log entry 43.) -/
def nextMove (s : State) : Move :=
  match s.agenda with
  | a :: r => agendaMove { s with agenda := r } a
  | [] => rotorMove s

/-! ## An instruction where the next step fetches it -/

/-- The line that holds an instruction of a table row in slot 0: its first 96 bits are the slot, the next 384 its block. -/
def tableLine (nbits w : Nat) : LineImg :=
  let v := w % 2 ^ nbits
  let slot : Slot := BitVec.ofNat 96 v
  buildLine slot (BitVec.ofNat 384 (v / 2 ^ 96)) (Fields.unpack slot).x

/-- Where that line lies: a virtual and a physical address, and the page entry (V, W, X, U, leaf). -/
def benchVA : Nat := 0x10000
def benchPA : Nat := 0x100000
def benchPte : BitVec 64 := 0x10001F

/-- A crew of one core and one worker thread, in RUN at (0, 0), of graph 0 and context 1. -/
def benchCrew (s : State) : Crew :=
  { newCrew s 0 0 1 0 ⟨1, 1, 1, false, benchVA, 0, 0, 0⟩ 0x2000 with
    state := .run, started := true, expected := 1, cores := [(0, ⟨0xFFFF, 0, [0]⟩)]
    bars := Vector.replicate 8 ⟨false, 1, false⟩ }

/-- Its thread, in S mode, about to issue from the line. -/
def benchThread : Thread :=
  { State.thread0 with ref := ⟨1, 0, 0⟩, occ := true, pc := word benchVA, csr := { State.csrs0 with tstat := 1 } }

/-- The state in which the next step is the turn of a thread whose next instruction is the given one: a context, a crew and a thread
as a LAUNCH and its placement make them, and the line in memory with its translation. -/
def benchState (s : State) (nbits w : Nat) : State :=
  let s := s.setBytes benchPA (bytesOf (tableLine nbits w).toNat 64)
  let s := { s with
    ctxs := Tbl.ins s.ctxs 1 (newCtx s 1 0x200000 0x300000 16384 false 0 0)
    crews := Tbl.ins s.crews 1 (benchCrew s)
    agenda := [.turn 0 0 0] }
  let s := s.setThread 0 0 benchThread
  let s := s.modCore 0 fun c => { c with asleep := false, wakeAt := 0, tlb := [⟨1, benchVA, 4096, 0, benchPte⟩] }
  s.modMgmt fun m => { m with stopped := false, fences := [] }

end Sys2Proof.Machine
end

