-- ==== Sys2Proof/Machine/Step.lean ====
section
/-! DEFINITION. One step of the machine, and the placing of an instruction where the next step fetches it. -/

namespace Sys2Proof.Machine

/-- ONE STEP: the next entry of the agenda, or the next slot's turn; an instruction that the turn issues by itself, and every event,
is carried out by exec. -/
def step (s : State) : Host.Outcome State Fault Refusal :=
  match nextMove s with
  | .run i s => exec i s
  | .did s => .next s

/-- The state in which step fetches and runs the instruction of a table row next. (DESIGN CHOICE, log entry 31.) -/
def State.withFetchWord (s : State) (nbits w : Nat) : State := benchState s nbits w

end Sys2Proof.Machine
end

