-- ==== Sys2Proof/Safety.lean ====
section
/-! DEFINITION. What a safe run is, and the terms in which claims speak of the machine: when an instruction issues and how its
thread goes on, what it changes, and the values that the rules give. -/

namespace Sys2Proof.Machine

/-! ## Runs -/

/-- The canonical form of memory: addresses rise strictly, and no entry holds 0, which an unlisted byte reads as. -/
def Memory.wf (m : List Host.Cell) : Bool := Tbl.wf 0 m

/-- The next step of a state answers a next state: it neither faults nor refuses. -/
def Safe (s : State) : Prop := ∃ t, step s = .next t

/-- Every step of a run of n steps answers a next state. -/
def SafeFor (s : State) : Nat → Prop
  | 0 => True
  | n + 1 => ∃ t, step s = .next t ∧ SafeFor t n

/-- The clocks have stopped under THERMTRIP_N (R34), and no cold reset is among what comes next. -/
def Tripped (s : State) : Prop :=
  s.mgmt.stopped = true ∧ s.mgmt.thermtrip = true ∧ ∀ a ∈ s.agenda, ∀ dt, a ≠ .ev dt .coldReset

/-! ## Issue (R300) -/

/-- The thread whose turn it is passes every check of R300 at the instruction, with its guard true: `o` is what the instruction has
read, and `s1` the state after the pops and the debit. -/
def Issues (i : Instr) (s : State) (o : Ops) (s1 : State) : Prop := ∃ b, bodyOf i = some b ∧ b.accept s = .ok (some (o, s1))

/-- The instruction's effect has been made in `s2`: the thread goes on at the next instruction, and skips W turns (R152, R290). -/
def after (i : Instr) (s s2 : State) : State :=
  match bodyOf i with
  | some b => setSkip (goOn s2 (nextPC s.me.pc 1 b.blk) none) b.h.w.toNat
  | none => s2

/-- The instruction is made in `s2`, and its thread waits before it goes on at the next one (R150). -/
def afterHold (i : Instr) (s s2 : State) (why : ParkWhy) (key : Nat) : State :=
  match bodyOf i with
  | some b => setSkip (parkMe s2 why key [] (some (nextPC s.me.pc 1 b.blk))) b.h.w.toNat
  | none => s2

/-- The instruction has been debited and waits with what it has read (R150). -/
def afterWait (i : Instr) (o : Ops) (s s2 : State) (why : ParkWhy) (key : Nat) : State :=
  match bodyOf i with
  | some b => parkMe s2 why key [(i, o)] (some (nextPC s.me.pc 1 b.blk))
  | none => s2

/-- The instruction traps after its issue: TPC is its own address. -/
def afterTrap (s s2 : State) (cause : Nat) (addr aux : Word) : State :=
  takeTrap s2 s.curCore s.curSlot cause addr aux s.me.pc false false

/-- The thread jumps from `s2` to an address, whose line it has when `img` holds it, and skips W turns. -/
def afterJump (i : Instr) (s2 : State) (pc : Word) (img : Option LineImg) : State :=
  match bodyOf i with
  | some b => setSkip (goOn s2 pc img) b.h.w.toNat
  | none => s2

/-- The branch `i` is taken to `target` (R286, R287): BADTGT is a trap of the branch, and any other failure of the target's line is
met again at the target, whose entry is checked; a line that cannot be fetched yet makes the branch wait with nothing written. `f` is what
the branch writes when it is taken. -/
def Branches (i : Instr) (o : Ops) (s s1 : State) (target : Word) (f : State → State) : Prop :=
  match enterLine s1 s1.curCore s1.myCtx s1.me.user true target with
  | (s2, .ok img) => exec i s = .next (afterJump i (f s2) target (some img))
  | (s2, .trap c a x) => exec i s = .next (if c = BADTGT then afterTrap s s2 c a x else afterJump i ((f s2).modMe Thread.atEntry) target none)
  | (s2, .wait) => exec i s = .next (afterWait i o s s2 .memory 0)

/-! ## Commands of the host queues (R46) -/

/-- No command of a type has begun on a queue and is still in progress. -/
def noneBegun (s : State) (q typ : Nat) : Bool := (s.queue q).cmds.all fun c => !(c.begun && c.typ = typ)

/-- The one command of a type that has begun on a queue and is still in progress. -/
def onlyBegun (s : State) (q typ : Nat) : Option Cmd :=
  match (s.queue q).cmds.filter fun c => c.begun && c.typ = typ with
  | [c] => some c
  | _ => none

/-! ## Presses and copies -/

/-- A pact that is active on its press goes on to a stopping point: the state there, and its entry. -/
def Reaches (s : State) (press i : Nat) (e : PressEntry) (k : Nat) (u : State) (y : PressEntry) : Prop :=
  stopPoint e k = true ∧
  ((e.state = .stream ∧ ∃ q fl, advance s press e k = .ok q fl ∧ y = { e with kdone := max e.kdone k, flags := fl, delays := [] } ∧
      u = (pressWalks s press y).modPress press fun _ => q.setEntry i y) ∨
    (e.state = .deliver ∧ ∃ u1 e1, gradTo s press e (k - 1) = some (u1, e1, true) ∧ y = { e1 with kdone := k } ∧
      u = u1.modPress press fun p => p.setEntry i y))

/-- A barrier update is made, and not held (R216). -/
def BarRes.made : BarRes → Bool
  | .ok _ => true
  | .held _ => false

/-- A copy command can stop now: where its status record goes is at hand, and so is its barrier (R216, R434). -/
def canStop (s : State) (g : Eng) (status cause : Nat) (va : Word) (aux : Nat) : Bool :=
  match putStatus s g g.cmd status cause va aux with
  | some u => (errorCopy (u.dropCopyHolds g.cmd.id) g (g.cmd.sectors - g.cmd.counted)).made
  | none => false

/-- The same where a unit has landed in `s`, for its count and, with the last unit, the status record (R430, R435). -/
def canCount (s : State) (g : Eng) (j : Nat) (fl : BitVec 5) : Bool :=
  let c := g.cmd.land j fl
  let n := b2n (c.sectorDone j && !c.again.contains (c.sectorOf j))
  let c := { c with counted := c.counted + n }
  match if c.next = c.units then (putStatus s g c 0 0 0 0).map fun s => s.dropCopyHolds c.id else some s with
  | some u => n = 0 || (countCopy u g j).made
  | none => false

/-! ## What is left unchanged -/

/-- Everything but thread contexts in slots is as before, and so is every other slot's context. -/
def OnlyMine (s t : State) : Prop :=
  t = { s with threads := t.threads } ∧ ∀ c k, c * 8 + k ≠ s.curCore * 8 + s.curSlot → t.thread c k = s.thread c k

/-- Every byte of memory reads as before (of counter space, which counts accesses, nothing is said). -/
def SameBytes (s t : State) : Prop := t.mem = s.mem ∧ t.ws = s.ws

/-- The registers of a thread, with y0 to y3 and the predicates. -/
structure Registers where
  g : Vector Word 23
  v : Vector Vec 16
  m : Vector Mask 8
  pred : BitVec 16
  y : Vector Word 4
deriving DecidableEq, Repr

def Thread.registers (t : Thread) : Registers := ⟨t.g, t.v, t.m, t.pred, t.y⟩

/-! ## The values of the integer instructions (R329 to R337) -/

/-- Leading zeros, trailing zeros and ones of a word. -/
def leadingZeros (a : Word) : Nat := if a = 0 then 64 else 63 - Nat.log2 a.toNat
def trailingZeros (a : Word) : Nat := ((List.range 64).find? fun i => a.getLsbD i).getD 64
def onesIn (a : Word) : Nat := ((List.range 64).filter fun i => a.getLsbD i).length

/-- A field of a word moved down to bit 0, from bit `lo` up, `n` bits of it. -/
def fieldOf (a : Word) (lo n : Nat) : Nat := a.toNat / 2 ^ lo % 2 ^ n

/-- Latency in turns (none: asynchronous), destination and result of an integer instruction with a general destination, from what
it has read. -/
def intValue (i : Instr) (o : Ops) : Option (Option Nat × BitVec 5 × Word) :=
  match i with
  | .add _ d _ _ => some (some 1, d, o.a + o.b)
  | .sub _ d _ _ => some (some 1, d, o.a - o.b)
  | .mul _ d _ _ => some (some 2, d, o.a * o.b)
  | .mulh _ d _ _ => some (some 2, d, BitVec.ofInt 64 (o.a.toInt * o.b.toInt / 2 ^ 64))
  | .mulhu _ d _ _ => some (some 2, d, BitVec.ofNat 64 (o.a.toNat * o.b.toNat / 2 ^ 64))
  | .div _ d _ _ => some (none, d, if o.b = 0 then -1 else o.a.sdiv o.b)
  | .divu _ d _ _ => some (none, d, if o.b = 0 then -1 else o.a.udiv o.b)
  | .rem _ d _ _ => some (none, d, if o.b = 0 then o.a else o.a.srem o.b)
  | .remu _ d _ _ => some (none, d, if o.b = 0 then o.a else o.a.umod o.b)
  | .and _ d _ _ => some (some 1, d, o.a &&& o.b)
  | .or _ d _ _ => some (some 1, d, o.a ||| o.b)
  | .xor _ d _ _ => some (some 1, d, o.a ^^^ o.b)
  | .andn _ d _ _ => some (some 1, d, o.a &&& ~~~o.b)
  | .shl _ d _ _ => some (some 1, d, o.a <<< (o.b.toNat % 64))
  | .shr _ d _ _ => some (some 1, d, o.a >>> (o.b.toNat % 64))
  | .sar _ d _ _ => some (some 1, d, o.a.sshiftRight (o.b.toNat % 64))
  | .rotr _ d _ _ => some (some 1, d, o.a.rotateRight (o.b.toNat % 64))
  | .clz _ d _ => some (some 1, d, BitVec.ofNat 64 (leadingZeros o.a))
  | .ctz _ d _ => some (some 1, d, BitVec.ofNat 64 (trailingZeros o.a))
  | .popc _ d _ => some (some 1, d, BitVec.ofNat 64 (onesIn o.a))
  | .min _ d _ _ => some (some 1, d, if o.a.toInt ≤ o.b.toInt then o.a else o.b)
  | .max _ d _ _ => some (some 1, d, if o.a.toInt ≤ o.b.toInt then o.b else o.a)
  | .minu _ d _ _ => some (some 1, d, if o.a.toNat ≤ o.b.toNat then o.a else o.b)
  | .maxu _ d _ _ => some (some 1, d, if o.a.toNat ≤ o.b.toNat then o.b else o.a)
  | .mov _ d _ => some (some 1, d, o.a)
  | .bswap _ d _ => some (some 1, d, BitVec.ofNat 64 (ofBytes (bytesOf o.a.toNat 8).reverse))
  | .addi _ d _ imm => some (some 1, d, o.a + imm.signExtend 64)
  | .muli _ d _ imm => some (some 2, d, o.a * imm.signExtend 64)
  | .andi _ d _ imm => some (some 1, d, o.a &&& imm.signExtend 64)
  | .ori _ d _ imm => some (some 1, d, o.a ||| imm.signExtend 64)
  | .xori _ d _ imm => some (some 1, d, o.a ^^^ imm.signExtend 64)
  | .shli _ d _ n => some (some 1, d, o.a <<< n.toNat)
  | .shri _ d _ n => some (some 1, d, o.a >>> n.toNat)
  | .sari _ d _ n => some (some 1, d, o.a.sshiftRight n.toNat)
  | .movi _ d imm => some (some 1, d, imm.signExtend 64)
  | .movhi _ d _ imm => some (some 1, d, (o.a &&& 0x0000FFFFFFFFFFFF) ||| (imm.setWidth 64 <<< 48))
  | .extr _ d _ pos len sx =>
    let n := len.toNat + 1
    let v := fieldOf o.a pos.toNat n
    some (some 1, d, if sx then BitVec.ofInt 64 (if v < 2 ^ (n - 1) then (v : Int) else v - 2 ^ n) else BitVec.ofNat 64 v)
  | .insr _ d _ _ pos len =>
    let mask : Word := BitVec.ofNat 64 (2 ^ (len.toNat + 1) - 1)
    some (some 1, d, (o.a &&& ~~~(mask <<< pos.toNat)) ||| ((o.b &&& mask) <<< pos.toNat))
  | .lea _ d _ _ sc imm => some (some 1, d, o.a + (o.b <<< sc.toNat) + imm.signExtend 64)
  | .sel _ d _ _ _ => some (some 1, d, if o.pa then o.a else o.b)
  | .pget _ d => some (some 1, d, o.pw.setWidth 64)
  | .nchild _ d _ _ => some (some 1, d, BitVec.ofNat 64 (2 * o.a.toNat + 1 + o.b.toNat % 2))
  | .nparent _ d _ => some (some 1, d, if o.a = 0 then -1 else BitVec.ofNat 64 ((o.a.toNat - 1) / 2))
  | .nlevel _ d _ => some (some 1, d, BitVec.ofNat 64 (Nat.log2 (o.a.toNat + 1)))
  | .nlvlbase _ d _ => some (some 1, d, if o.a.toNat < 64 then BitVec.ofNat 64 (2 ^ o.a.toNat - 1) else -1)
  | .nleaf _ d _ _ => some (some 1, d, o.a - (if o.b.toNat < 64 then BitVec.ofNat 64 (2 ^ o.b.toNat - 1) else -1))
  | _ => none

/-! ## The values of the other instructions that compute -/

/-- Latency, destination, value and flags of a floating-point instruction with a general destination (R338 to R344). -/
def floatValue (i : Instr) (o : Ops) : Option (Option Nat × BitVec 5 × Word × BitVec 5) :=
  let res (lat : Option Nat) (d : BitVec 5) (r : Res) := some (lat, d, word r.1, r.2)
  let cut (ty : BitVec 3) (x : Word) : Nat := x.toNat % 2 ^ (fmtOf ty.toNat).width
  match i with
  | .fadd _ d _ _ ty rm => res (some 2) d (addF (fmtOf ty.toNat) (fmode rm o) o.a.toNat o.b.toNat)
  | .fsub _ d _ _ ty rm => res (some 2) d (subF (fmtOf ty.toNat) (fmode rm o) o.a.toNat o.b.toNat)
  | .fmul _ d _ _ ty rm => res (some 2) d (mulF (fmtOf ty.toNat) (fmode rm o) o.a.toNat o.b.toNat)
  | .ffma _ d _ _ _ ty rm => res (some 2) d (fmaF (fmtOf ty.toNat) (fmode rm o) false o.a.toNat o.b.toNat o.c.toNat)
  | .fdiv _ d _ _ ty rm => res none d (divF (fmtOf ty.toNat) (fmode rm o) o.a.toNat o.b.toNat)
  | .fsqrt _ d _ ty rm => res none d (sqrtF (fmtOf ty.toNat) (fmode rm o) o.a.toNat)
  | .fmin _ d _ _ ty => res (some 2) d (minmaxF (fmtOf ty.toNat) false (cut ty o.a) (cut ty o.b))
  | .fmax _ d _ _ ty => res (some 2) d (minmaxF (fmtOf ty.toNat) true (cut ty o.a) (cut ty o.b))
  | .fcvt _ d _ st dt rm =>
    let r := convF st.toNat dt.toNat (fmode rm o) o.a.toNat
    some (some 2, d, if dt = 5 then sext r.1 32 else word r.1, r.2)
  | .fclass _ d _ ty => some (some 2, d, word (classF (fmtOf ty.toNat) o.a.toNat), 0)
  | .fsgn _ d _ _ ty => res (some 2) d (signF (fmtOf ty.toNat) 0 (cut ty o.a) (cut ty o.b))
  | .fsgnn _ d _ _ ty => res (some 2) d (signF (fmtOf ty.toNat) 1 (cut ty o.a) (cut ty o.b))
  | .fsgnx _ d _ _ ty => res (some 2) d (signF (fmtOf ty.toNat) 2 (cut ty o.a) (cut ty o.b))
  | .fmovi _ d ty imm => some (some 2, d, if ty = 0 then imm.setWidth 64 <<< 16 else imm.setWidth 64, 0)
  | .vext _ d _ k ty =>
    let x := lane o.va (tyW ty) k.toNat
    some (some 2, d, if tyInt ty then sext x (tyW ty) else word x, 0)
  | .vred _ d _ fn ty _ rnd =>
    let r := redFinish ty fn.toNat (redNode ty fn.toNat (fmode rnd o) o.ma o.va 0 (tyLog ty))
    some (none, d, if tyInt ty then sext r.1 (tyW ty) else word r.1, r.2)
  | .mpopc _ d _ => some (some 1, d, word ((List.range 16).filter fun j => o.ma.getLsbD j).length, 0)
  | .mget _ d _ => some (some 1, d, o.ma.setWidth 64, 0)
  | _ => none

/-- An asynchronous result that is a floating-point one: a read of FCSR waits for it (R443). -/
def fpResult (i : Instr) : Bool :=
  match i with
  | .fdiv .. | .fsqrt .. | .vsqrt .. | .vrsq .. | .vrcp .. | .vexp2 .. | .vlog2 .. => true
  | .vadd _ _ _ _ ty _ _ | .vsub _ _ _ _ ty _ _ | .vmul _ _ _ _ ty _ _ => ty = 0
  | .vfma _ _ _ _ _ ty _ _ | .vfnma _ _ _ _ _ ty _ _ => ty = 0
  | .vdiv _ _ _ _ ty _ _ => !tyInt ty
  | .vred _ _ _ _ ty _ _ | .vscan _ _ _ _ ty _ _ => !tyInt ty
  | .vcvt _ _ _ st ty _ _ => st = 0 || ty = 0
  | .vdot _ _ _ _ _ ty _ _ => ty = 1
  | _ => false

/-- Lanes stand in an order: no one comes strictly before the one that it follows, and of equal ones the lower comes first (R373, R374). -/
def InOrder (before : Nat → Nat → Bool) (l : List Nat) : Prop :=
  ∀ k x y, l[k]? = some x → l[k + 1]? = some y → before y x = false ∧ (before x y = false → x < y)

/-- Lanes are the merge of two runs, of those below a number and of the others (R375): each run keeps its lanes rising, and a lane of the
lower run is taken while the next of the upper one does not come strictly before it. -/
def Merged (before : Nat → Nat → Bool) (half : Nat) (l : List Nat) : Prop :=
  (l.filter fun x => x < half).Pairwise (· < ·) ∧ (l.filter fun x => half ≤ x).Pairwise (· < ·) ∧
  ∀ k x y, l[k]? = some x → ((l.drop (k + 1)).find? fun z => decide (z < half) != decide (x < half)) = some y →
    if x < half then before y x = false else before x y = true

/-- The conditions of Table 15.3 on two words: eq, ne, signed lt, le, gt, ge, unsigned lo, ls, hi, hs. -/
def condition (c : Nat) (a b : Word) : Bool :=
  match c with
  | 0 => a = b
  | 1 => a ≠ b
  | 2 => a.toInt < b.toInt
  | 3 => a.toInt ≤ b.toInt
  | 4 => b.toInt < a.toInt
  | 5 => b.toInt ≤ a.toInt
  | 6 => a.toNat < b.toNat
  | 7 => a.toNat ≤ b.toNat
  | 8 => b.toNat < a.toNat
  | 9 => b.toNat ≤ a.toNat
  | _ => false

/-- Latency, destination, value and flags of an instruction with a predicate destination (R335, R336, R340). -/
def predValue (i : Instr) (o : Ops) : Option (Nat × BitVec 4 × Bool × BitVec 5) :=
  match i with
  | .cmp _ pd _ _ cond => some (1, pd, condition cond.toNat o.a o.b, 0)
  | .cmpi _ pd _ cond imm => some (1, pd, condition cond.toNat o.a (imm.signExtend 64), 0)
  | .plog _ pd _ _ tab => some (1, pd, tab.getLsbD ((if o.pa then 2 else 0) + (if o.pb then 1 else 0)), 0)
  | .fcmp _ pd _ _ ty cond =>
    let r := fcmpF (fmtOf ty.toNat) cond.toNat o.a.toNat o.b.toNat
    some (2, pd, r.1, r.2)
  | _ => none

/-- Latency, destination, lane width and the value of each active lane of an instruction that works lane by lane (R359 to R378). -/
def laneValue (i : Instr) (o : Ops) : Option (Option Nat × BitVec 4 × Nat × (Nat → Res)) :=
  let a (ty : BitVec 3) (k : Nat) : Nat := lane o.va (tyW ty) k
  let b (ty : BitVec 3) (k : Nat) : Nat := lane o.vb (tyW ty) k
  let c (ty : BitVec 3) (k : Nat) : Nat := lane o.vc (tyW ty) k
  let arith (vd : BitVec 4) (ty : BitVec 3) (f : Nat → Res) := some (if ty = 0 then none else some 2, vd, tyW ty, f)
  let plain (vd : BitVec 4) (ty : BitVec 3) (f : Nat → Nat) := some (some 2, vd, tyW ty, fun k => ((f k, 0) : Res))
  match i with
  | .vadd _ vd _ _ ty _ rnd => arith vd ty fun k => laneArith ty rnd addF (fun x y => x + y) o (a ty k) (b ty k)
  | .vsub _ vd _ _ ty _ rnd => arith vd ty fun k => laneArith ty rnd subF (fun x y => x - y) o (a ty k) (b ty k)
  | .vmul _ vd _ _ ty _ rnd => arith vd ty fun k => laneArith ty rnd mulF (fun x y => x * y) o (a ty k) (b ty k)
  | .vdiv _ vd _ _ ty _ rnd =>
    some (none, vd, tyW ty, fun k => laneArith ty rnd divF (fun x y => if y = 0 then -1 else Int.tdiv x y) o (a ty k) (b ty k))
  | .vfma _ vd _ _ _ ty _ rnd => arith vd ty fun k => laneFma ty rnd false o (a ty k) (b ty k) (c ty k)
  | .vfnma _ vd _ _ _ ty _ rnd => arith vd ty fun k => laneFma ty rnd true o (a ty k) (b ty k) (c ty k)
  | .vmin _ vd _ _ ty _ => some (some 2, vd, tyW ty, fun k => laneMinMax ty false (a ty k) (b ty k))
  | .vmax _ vd _ _ ty _ => some (some 2, vd, tyW ty, fun k => laneMinMax ty true (a ty k) (b ty k))
  | .vabs _ vd _ ty _ => some (some 2, vd, tyW ty, fun k =>
    if tyInt ty then (ucut (sint (a ty k) (tyW ty)).natAbs (tyW ty), 0) else signF (tyF ty) 0 (a ty k) 0)
  | .vneg _ vd _ ty _ => some (some 2, vd, tyW ty, fun k =>
    if tyInt ty then (ucut (-sint (a ty k) (tyW ty)) (tyW ty), 0) else signF (tyF ty) 1 (a ty k) (a ty k))
  | .vand _ vd _ _ ty _ => plain vd ty fun k => a ty k &&& b ty k
  | .vor _ vd _ _ ty _ => plain vd ty fun k => a ty k ||| b ty k
  | .vxor _ vd _ _ ty _ => plain vd ty fun k => a ty k ^^^ b ty k
  | .vshl _ vd _ _ ty _ => plain vd ty fun k => a ty k * 2 ^ (b ty k % tyW ty)
  | .vshr _ vd _ _ ty _ => plain vd ty fun k => a ty k / 2 ^ (b ty k % tyW ty)
  | .vsar _ vd _ _ ty _ => plain vd ty fun k => ucut (Int.fdiv (sint (a ty k) (tyW ty)) (2 ^ (b ty k % tyW ty) : Nat)) (tyW ty)
  | .vsqrt _ vd _ ty _ rnd => some (none, vd, tyW ty, fun k => sqrtF (tyF ty) (fmode rnd o) (a ty k))
  | .vrsq _ vd _ ty _ rnd => some (none, vd, tyW ty, fun k => rsqrtF (tyF ty) (fmode rnd o) (a ty k))
  | .vrcp _ vd _ ty _ rnd => some (none, vd, tyW ty, fun k => rcpF (tyF ty) (fmode rnd o) (a ty k))
  | .vexp2 _ vd _ ty _ rnd => some (none, vd, tyW ty, fun k => exp2F (tyF ty) (fmode rnd o) (a ty k))
  | .vlog2 _ vd _ ty _ rnd => some (none, vd, tyW ty, fun k => log2F (tyF ty) (fmode rnd o) (a ty k))
  | .vcvt _ vd _ st ty _ rnd => some (if st = 0 || ty = 0 then none else some 2, vd, tyW ty, fun k =>
    if k < min (tyN st) (tyN ty) then convF st.toNat ty.toNat (fmode rnd o) (lane o.va (tyW st) k) else (0, 0))
  | .vdot _ vd _ _ _ ty _ rnd => some (if ty = 1 then none else some 2, vd, 2 * tyW ty, fun k => laneDot ty rnd o k)
  | .vmov _ vd _ ty _ => plain vd ty fun k => a ty k
  | .vbcast _ vd _ ty _ => plain vd ty fun _ => o.a.toNat % 2 ^ tyW ty
  | .vfill _ vd ty _ imm => plain vd ty fun _ => fillValue ty imm
  | .viota _ vd ty _ => plain vd ty fun k => activeBelow (tyW ty) o.ma k
  | .vexpnd _ vd _ ty _ => plain vd ty fun k => lane o.va (tyW ty) (activeBelow (tyW ty) o.ma k)
  | .vshuf _ vd _ _ ty _ => plain vd ty fun k => lane o.va (tyW ty) (b ty k % tyN ty)
  | .vlut _ vd _ _ ty _ => plain vd ty fun k => lane o.va (tyW ty) (lane o.vb 4 k % tyN ty)
  | .vscan _ vd _ fn ty _ rnd => some (none, vd, tyW ty, fun k =>
    redFinish ty fn.toNat (scanLane ty fn.toNat (fmode rnd o) o.ma o.va k 0 (none, 0) (tyLog ty + 1)))
  | .vunpkq _ vd _ bq4 hi _ => some (some 2, vd, 32, fun k => (bqLane bq4 o.va (16 * b2n hi + k), 0))
  | _ => none

end Sys2Proof.Machine
end

