-- ==== Sys2Proof/Certificates/Slice0/Obligations.lean ====
section
/-! DEFINITION. The statements about the machine that the provers prove. -/

open Sys2Proof Sys2Proof.Machine

/-! ## Issue, and instructions that compute -/

/-- What an instruction has read when it issues (R149, R153, R300): where its general sources are registers, every source is the
register's value before the turn, the debit is what the rule gives and the budget covers it, and nothing else has changed. -/
def Obligations.IssueReadsSources : Prop :=
  ∀ (i : Instr) (b : Body) (s s1 : State) (o : Ops), bodyOf i = some b → Issues i s o s1 →
    (∀ x ∈ b.srcs, ∀ r, Src.spec x = some r → r.toNat < 24) →
    (∀ r, Src.a r ∈ b.srcs → o.a = s.me.getG r.toNat) ∧ (∀ r, Src.b r ∈ b.srcs → o.b = s.me.getG r.toNat) ∧
    (∀ r, Src.c r ∈ b.srcs → o.c = s.me.getG r.toNat) ∧ (∀ r, Src.d r ∈ b.srcs → o.d = s.me.getG r.toNat) ∧
    (∀ r, Src.va r ∈ b.srcs → o.va = vget s.me.v r.toNat 0) ∧ (∀ r, Src.vb r ∈ b.srcs → o.vb = vget s.me.v r.toNat 0) ∧
    (∀ r, Src.vc r ∈ b.srcs → o.vc = vget s.me.v r.toNat 0) ∧ (∀ r, Src.vd r ∈ b.srcs → o.vd = vget s.me.v r.toNat 0) ∧
    (∀ r, Src.ma r ∈ b.srcs → o.ma = s.me.getM r.toNat) ∧ (∀ r, Src.mb r ∈ b.srcs → o.mb = s.me.getM r.toNat) ∧
    (∀ r, Src.pa r ∈ b.srcs → o.pa = s.me.getP r.toNat) ∧ (∀ r, Src.pb r ∈ b.srcs → o.pb = s.me.getP r.toNat) ∧
    (Src.preds ∈ b.srcs → o.pw = s.me.predWord) ∧ o.nxt = nextPC s.me.pc 1 b.blk ∧
    ∃ n, n = fld s.me.csr.ecost (16 * b.h.e.toNat) 16 * b.units o s ∧ n ≤ fld s.me.csr.ebud 0 40 ∧ n ≤ fld s.me.csr.ecap 0 40 ∧
      s1 = s.modMe fun t => { t with csr := { t.csr with ebud := t.csr.ebud - word n }, carry := none }

/-- The integer instructions (R329 to R334, R336, R337): each gives its destination the value of the rule, with the latency of the
rule; where the destination is a stream or queue register that takes no word now, the instruction waits with its operands. -/
def Obligations.IntegerResults : Prop :=
  ∀ (i : Instr) (s s1 : State) (o : Ops) (lat : Option Nat) (d : BitVec 5) (v : Word),
    intValue i o = some (lat, d, v) → Issues i s o s1 →
    (giveWait s1 d = none → exec i s = .next (after i s (giveG s1 lat d v 0))) ∧
    (∀ why key, giveWait s1 d = some (why, key) → exec i s = .next (afterWait i o s s1 why key))

/-- The scalar floating-point instructions, and the vector and mask instructions with a general destination (R338 to R344, R367,
R371, R379): value and flags go to the destination together. -/
def Obligations.FloatResults : Prop :=
  ∀ (i : Instr) (s s1 : State) (o : Ops) (lat : Option Nat) (d : BitVec 5) (v : Word) (fl : BitVec 5),
    floatValue i o = some (lat, d, v, fl) → Issues i s o s1 →
    (giveWait s1 d = none → exec i s = .next (after i s (giveG s1 lat d v fl (fpResult i)))) ∧
    (∀ why key, giveWait s1 d = some (why, key) → exec i s = .next (afterWait i o s s1 why key))

/-- The instructions with a predicate destination (R335, R336, R340, R401), and PSET (R336). ISFULL gives the full bit that its register
has before the turn. -/
def Obligations.PredicateResults : Prop :=
  (∀ (i : Instr) (s s1 : State) (o : Ops) (lat : Nat) (pd : BitVec 4) (v : Bool) (fl : BitVec 5),
    predValue i o = some (lat, pd, v, fl) → Issues i s o s1 →
    exec i s = .next (after i s (s1.modMe fun t => t.result (some lat) [.p pd v] fl))) ∧
  (∀ (h : Hdr) (pd : BitVec 4) (a : BitVec 5) (s s1 : State) (o : Ops), Issues (.isfull h pd a) s o s1 →
    exec (.isfull h pd a) s = .next (after (.isfull h pd a) s (s1.modMe fun t => t.result (some 1) [.p pd
      (if s.me.notify && 10 ≤ a.toNat && a.toNat ≤ 13 then s.me.yfull.getLsbD (a.toNat - 10) else s.me.full.getLsbD a.toNat)] 0))) ∧
  (∀ (h : Hdr) (a : BitVec 5) (s s1 : State) (o : Ops), Issues (.pset h a) s o s1 →
    ∃ t, exec (.pset h a) s = .next t ∧ OnlyMine s1 t ∧
      (∀ n, 1 ≤ n → n < 16 → t.me.getP n = o.a.getLsbD n) ∧ t.me.getP 0 = true ∧ t.me.g = s1.me.g)

/-- What giving a result to a general register does (R152, R153, R155, R156): the register takes it at once and is full when the latency is
1, and otherwise becomes empty until the result is written; z takes nothing. Flags are OR-ed into FCSR when the result is written. A
result that is due is written, its register is full, and its flags are set (R252). -/
def Obligations.ResultGoesToRegister : Prop :=
  (∀ (s : State) (lat : Option Nat) (r : BitVec 5) (v : Word) (fl : BitVec 5) (fp : Bool), r.toNat < 24 →
      OnlyMine s (giveG s lat r v fl fp) ∧
      (lat = some 1 →
        (r.toNat = 23 → (giveG s lat r v fl fp).me.registers = s.me.registers) ∧
        (r.toNat < 23 → (giveG s lat r v fl fp).me.getG r.toNat = v ∧ (giveG s lat r v fl fp).me.fullG r.toNat = true) ∧
        (∀ k, k ≠ r.toNat → (giveG s lat r v fl fp).me.getG k = s.me.getG k ∧
          (giveG s lat r v fl fp).me.isFull k = s.me.isFull k) ∧
        (giveG s lat r v fl fp).me.csr.fcsr = s.me.csr.fcsr ||| fl.setWidth 64) ∧
      (lat ≠ some 1 →
        (giveG s lat r v fl fp).me.registers = s.me.registers ∧ (giveG s lat r v fl fp).me.csr = s.me.csr ∧
        (r.toNat < 23 → (giveG s lat r v fl fp).me.fullG r.toNat = false) ∧
        (giveG s lat r v fl fp).me.pend = s.me.pend ++ [⟨lat, [s.me.destG r v], fl, false, fp⟩])) ∧
  (∀ (t : Thread) (r : BitVec 5) (v : Word) (fl : BitVec 5) (lat : Option Nat) (fp : Bool), r.toNat < 23 →
      (t.land ⟨lat, [.g r v], fl, false, fp⟩).getG r.toNat = (if t.isY r.toNat then t.getG r.toNat else v) ∧
      (t.land ⟨lat, [.g r v], fl, false, fp⟩).isFull r.toNat = true ∧
      (t.land ⟨lat, [.g r v], fl, false, fp⟩).csr.fcsr = t.csr.fcsr ||| fl.setWidth 64 ∧
      (∀ k, k ≠ r.toNat → (t.land ⟨lat, [.g r v], fl, false, fp⟩).getG k = t.getG k))

/-- How the thread goes on (R152, R290): at the next slot, or at slot 0 of the next line after slot 4 and after an instruction with
a parameter block, with W turns to skip; nothing else changes. An instruction whose guard is false does only that (R292). -/
def Obligations.GoesOn : Prop :=
  (∀ (i : Instr) (b : Body) (s s2 : State), bodyOf i = some b →
      OnlyMine s2 (after i s s2) ∧
      (after i s s2).me.pc =
        (if b.blk ∨ s.me.pc.toNat % 8 + 1 ≥ 5 then (s.me.pc &&& 0xFFFFFFFFFFFFFFC0#64) + 64 else s.me.pc + 1) ∧
      (after i s s2).me.skip = b.h.w.toNat ∧ (after i s s2).me.park = none ∧
      (after i s s2).me.registers = s2.me.registers ∧ (after i s s2).me.full = s2.me.full ∧ (after i s s2).me.csr = s2.me.csr ∧
      (after i s s2).me.pend = s2.me.pend) ∧
  (∀ (i : Instr) (b : Body) (s : State), bodyOf i = some b → b.early s = none → s.me.pStop b.h.g = none →
      (s.me.getP b.h.g.toNat = b.h.n) → exec i s = .next (after i s s))

/-- What stops an issue (R143, R149, R153). The debit comes after every other check: more than ECAP traps with EBIG at the instruction,
with the debit in TAUX; more than the balance parks for budget; neither reads, pops or writes anything. An instruction whose first
source register is empty parks, and neither its sources nor its destination change (the check of CSB aside, which R154 states). -/
def Obligations.IssueStops : Prop :=
  (∀ (i : Instr) (b : Body) (s s' : State) (o : Ops), bodyOf i = some b → b.early s = none → s.me.pStop b.h.g = none →
      s.me.getP b.h.g.toNat ≠ b.h.n → b.gather s = .ok (o, s') →
      let d := fld s.me.csr.ecost (16 * b.h.e.toNat) 16 * b.units o s
      (d > fld s.me.csr.ecap 0 40 →
        exec i s = .next (takeTrap s s.curCore s.curSlot 0x12 0 (word d) s.me.pc false false)) ∧
      (d ≤ fld s.me.csr.ecap 0 40 → fld s.me.csr.ebud 0 40 < d →
        ∃ t, exec i s = .next t ∧ (t.me.park.map fun p => p.why) = some .budget ∧ t.me.pc = s.me.pc ∧
          t.me.registers = s.me.registers ∧ t.me.full = s.me.full ∧ t.me.csr = s.me.csr ∧ t.mem = s.mem)) ∧
  (∀ (i : Instr) (b : Body) (s : State) (r : BitVec 5), bodyOf i = some b → b.early s = none → s.me.pStop b.h.g = none →
      s.me.getP b.h.g.toNat ≠ b.h.n → b.srcs.head? = some (.a r) → r.toNat < 23 → s.me.isY r.toNat = false →
      s.me.isFull r.toNat = false → s.me.csr.tstat.getLsbD 3 = false →
      ∃ t, exec i s = .next t ∧ (t.me.park.map fun p => p.why) = some .reg ∧ t.me.pc = s.me.pc ∧ t.me.registers = s.me.registers ∧
        t.me.full = s.me.full ∧ t.mem = s.mem)

/-! ## Vector and mask instructions -/

/-- The instructions that work lane by lane (R353 to R378): each active lane takes the value of the rule, every inactive lane keeps
what D held, and the flags are the OR over the active lanes. -/
def Obligations.VectorLanes : Prop :=
  ∀ (i : Instr) (s s1 : State) (o : Ops) (lat : Option Nat) (vd : BitVec 4) (w : Nat) (f : Nat → Res),
    laneValue i o = some (lat, vd, w, f) → Issues i s o s1 →
    ∃ x : Vec,
      exec i s = .next (after i s (s1.modMe fun t => t.result lat [.v vd x]
        (((span 0 (512 / w)).filter (laneOn w o.ma)).foldl (fun a k => a ||| (f k).2) 0) (fpResult i))) ∧
      ∀ k, k < 512 / w → lane x w k = if laneOn w o.ma k then (f k).1 % 2 ^ w else lane o.vd w k

/-- The instructions that write the whole of D (R366 to R368, R373 to R377): VSEL takes B's lane where the mask is clear, VINS replaces
one lane, VCMPRS packs the active lanes to the bottom and clears the rest, VPACKQ makes a block; VSORT and VMERGE move keys and values
together, by one order of the source lanes that names each lane once, the active lanes before the inactive ones: VSORT's active keys come
in order, equal ones by their lanes, and VMERGE merges the two runs. -/
def Obligations.VectorWhole : Prop :=
  (∀ (h : Hdr) (vd va vb : BitVec 4) (ty mk : BitVec 3) (s s1 : State) (o : Ops), Issues (.vsel h vd va vb ty mk) s o s1 →
    ∃ x fl, exec (.vsel h vd va vb ty mk) s =
        .next (after (.vsel h vd va vb ty mk) s (s1.modMe fun t => t.result (some 2) [.v vd x] fl)) ∧
      ∀ k, k < tyN ty → lane x (tyW ty) k = if laneOn (tyW ty) o.ma k then lane o.va (tyW ty) k else lane o.vb (tyW ty) k) ∧
  (∀ (h : Hdr) (vd : BitVec 4) (a k : BitVec 5) (ty : BitVec 3) (s s1 : State) (o : Ops), Issues (.vins h vd a k ty) s o s1 →
    k.toNat < tyN ty →
    ∃ x, exec (.vins h vd a k ty) s =
        .next (after (.vins h vd a k ty) s (s1.modMe fun t => t.result (some 2) [.v vd x] 0)) ∧
      ∀ j, j < tyN ty → lane x (tyW ty) j = if j = k.toNat then o.a.toNat % 2 ^ tyW ty else lane o.vd (tyW ty) j) ∧
  (∀ (h : Hdr) (vd va : BitVec 4) (ty mk : BitVec 3) (s s1 : State) (o : Ops), Issues (.vcmprs h vd va ty mk) s o s1 →
    ∃ x, exec (.vcmprs h vd va ty mk) s =
        .next (after (.vcmprs h vd va ty mk) s (s1.modMe fun t => t.result (some 2) [.v vd x] 0)) ∧
      ∀ j, j < tyN ty → lane x (tyW ty) j =
        (((List.range (tyN ty)).filter fun k => laneOn (tyW ty) o.ma k).map fun k => lane o.va (tyW ty) k).getD j 0) ∧
  (∀ (h : Hdr) (vd va vb : BitVec 4) (bq4 : Bool) (mk : BitVec 3) (s s1 : State) (o : Ops), Issues (.vpackq h vd va vb bq4 mk) s o s1 →
    ∃ e0 e1 codes fl, exec (.vpackq h vd va vb bq4 mk) s = .next (after (.vpackq h vd va vb bq4 mk) s
        (s1.modMe fun t => t.result (some 2) [.v vd (bqRegister bq4 e0 e1 codes)] fl)) ∧
      (bqFmt bq4).encode ((List.range 32).map fun n =>
        if o.ma.getLsbD (n % 16) then some (if n < 16 then lane o.va 32 n else lane o.vb 32 (n - 16)) else none) = (e0, e1, codes, fl)) ∧
  (∀ (i : Instr) (h : Hdr) (vd va vb vc : BitVec 4) (desc : Bool) (ty mk : BitVec 3) (s s1 : State) (o : Ops),
      i = .vsort h vd va vb vc desc ty mk ∨ i = .vmerge h vd va vb vc desc ty mk → Issues i s o s1 →
      ∃ (l : List Nat) (x y : Vec),
        exec i s = .next (after i s (s1.modMe fun t => t.result none [.v vd x, .v vc y] 0)) ∧
        l.Perm (span 0 (tyN ty)) ∧
        (∀ k, k < tyN ty → lane x (tyW ty) k = lane o.va (tyW ty) (l.getD k 0) ∧ lane y (tyW ty) k = lane o.vb (tyW ty) (l.getD k 0)) ∧
        (∀ k, k < tyN ty → (laneOn (tyW ty) o.ma (l.getD k 0) = true ↔ k < activeCount (tyW ty) o.ma)) ∧
        (l.drop (activeCount (tyW ty) o.ma)).Pairwise (· < ·) ∧
        let before (x y : Nat) : Bool := keyOrder ty desc (lane o.va (tyW ty) x) (lane o.va (tyW ty) y)
        (i = .vsort h vd va vb vc desc ty mk → InOrder before (l.take (activeCount (tyW ty) o.ma))) ∧
        (i = .vmerge h vd va vb vc desc ty mk → Merged before (tyN ty / 2) (l.take (activeCount (tyW ty) o.ma))))

/-- The instructions that write a mask (R363, R379): VCMP's bit is the condition of its lane, or of both lanes of its pair for 16-bit
lanes, and 0 where the mask is clear; MLOG looks each bit up; MSET takes the low 16 bits. -/
def Obligations.MaskResults : Prop :=
  (∀ (h : Hdr) (md : BitVec 3) (va vb : BitVec 4) (ty mk : BitVec 3) (cond : BitVec 4) (s s1 : State) (o : Ops),
    Issues (.vcmp h md va vb ty mk cond) s o s1 →
    ∃ x fl, exec (.vcmp h md va vb ty mk cond) s =
        .next (after (.vcmp h md va vb ty mk cond) s (s1.modMe fun t => t.result (some 2) [.m md x] fl)) ∧
      ∀ j, j < 16 →
        let holds (k : Nat) : Bool := k < tyN ty && laneOn (tyW ty) o.ma k &&
          (laneCmp ty cond.toNat (lane o.va (tyW ty) k) (lane o.vb (tyW ty) k)).1
        x.getLsbD j = if tyW ty = 16 then holds (2 * j) && holds (2 * j + 1) else holds j) ∧
  (∀ (h : Hdr) (md ma mb : BitVec 3) (tab : BitVec 4) (s s1 : State) (o : Ops), Issues (.mlog h md ma mb tab) s o s1 →
    ∃ x, exec (.mlog h md ma mb tab) s = .next (after (.mlog h md ma mb tab) s (s1.modMe fun t => t.result (some 1) [.m md x] 0)) ∧
      ∀ j, j < 16 → x.getLsbD j = tab.getLsbD ((if o.ma.getLsbD j then 2 else 0) + if o.mb.getLsbD j then 1 else 0)) ∧
  (∀ (h : Hdr) (md : BitVec 3) (a : BitVec 5) (s s1 : State) (o : Ops), Issues (.mset h md a) s o s1 →
    exec (.mset h md a) s = .next (after (.mset h md a) s (s1.modMe fun t => t.result (some 1) [.m md (o.a.setWidth 16)] 0)))

/-! ## Control -/

/-- The branches and jumps (R286, R294, R345, R346, R348, R446): where each goes, and what the taken branch writes; NRET
leaves notify mode at the address in y0. A branch whose target line cannot be fetched yet waits with nothing written. A checked entry that
succeeds is at a slot below 5 whose TGT bit is set, in a line whose word has even parity. -/
def Obligations.BranchesGo : Prop :=
  (∀ (h : Hdr) (tgt : BitVec 48) (s s1 : State) (o : Ops), Issues (.br h tgt) s o s1 →
    Branches (.br h tgt) o s s1 ((s1.me.pc &&& 0xFFFFFFFFFFFFFFC0#64) + (BitVec.ofInt 64 (64 * (tgt.extractLsb' 3 45).toInt)) +
      (tgt.extractLsb' 0 3).setWidth 64) fun s2 => s2) ∧
  (∀ (h : Hdr) (d : BitVec 5) (tgt : BitVec 48) (s s1 : State) (o : Ops), Issues (.brl h d tgt) s o s1 →
    Branches (.brl h d tgt) o s s1 (brTarget s1.me.pc tgt) fun s2 => giveG s2 (some 1) d (nextPC s.me.pc 1 false) 0) ∧
  (∀ (h : Hdr) (a : BitVec 5) (s s1 : State) (o : Ops), Issues (.jmp h a) s o s1 →
    Branches (.jmp h a) o s s1 o.a fun s2 => s2) ∧
  (∀ (h : Hdr) (d a : BitVec 5) (s s1 : State) (o : Ops), Issues (.jmpl h d a) s o s1 →
    Branches (.jmpl h d a) o s s1 o.a fun s2 => giveG s2 (some 1) d (nextPC s.me.pc 1 false) 0) ∧
  (∀ (h : Hdr) (d : BitVec 5) (tgt : BitVec 48) (s s1 : State) (o : Ops), Issues (.loop h d tgt) s o s1 →
    (o.d ≠ 1 → Branches (.loop h d tgt) o s s1 (brTarget s1.me.pc tgt) fun s2 => giveG s2 (some 1) d (o.d - 1) 0) ∧
    (o.d = 1 → exec (.loop h d tgt) s = .next (after (.loop h d tgt) s (giveG s1 (some 1) d 0 0)))) ∧
  (∀ (h : Hdr) (s s1 : State) (o : Ops), Issues (.nret h) s o s1 →
    Branches (.nret h) o s s1 (vget s1.me.y 0 0) fun s2 => s2.modMe fun t => { t with notify := false }) ∧
  (∀ (s s2 : State) (core ctx : Nat) (user : Bool) (pc : Word) (img : LineImg),
      enterLine s core ctx user true pc = (s2, .ok img) → slotOf pc < 5 ∧ lineTgt img (slotOf pc) = true ∧ wordParityOk img = true)

/-- NOP and YIELD have no effect on any state but the thread's going on (R329, R350); TMODE's forms have none where the thread is
already what they ask for (R404). -/
def Obligations.NoEffect : Prop :=
  (∀ (h : Hdr) (s s1 : State) (o : Ops), Issues (.nop h) s o s1 → exec (.nop h) s = .next (after (.nop h) s s1)) ∧
  (∀ (h : Hdr) (s s1 : State) (o : Ops), Issues (.yield h) s o s1 → exec (.yield h) s = .next (after (.yield h) s s1)) ∧
  (∀ (h : Hdr) (s s1 : State) (o : Ops), Issues (.tmodeLight h) s o s1 → s1.me.light = true →
    exec (.tmodeLight h) s = .next (after (.tmodeLight h) s s1)) ∧
  (∀ (h : Hdr) (s s1 : State) (o : Ops), Issues (.tmodeHeavy h) s o s1 → s1.me.light = false →
    exec (.tmodeHeavy h) s = .next (after (.tmodeHeavy h) s s1))

/-- WFW parks until an item or a token comes (R349). EXIT waits while a result is outstanding, the outbound buffer is full or a
pact is open (R351); with nothing outstanding and every stream drained its slot is vacant, and a worker's exit counts at its crew's
barriers (R407). -/
def Obligations.WfwAndExit : Prop :=
  (∀ (h : Hdr) (s s1 : State) (o : Ops), Issues (.wfw h) s o s1 → exec (.wfw h) s = .next (afterHold (.wfw h) s s1 .wfw 0)) ∧
  (∀ (h : Hdr) (s s1 : State) (o : Ops), Issues (.exit h) s o s1 →
    (s1.me.pend ≠ [] ∨ s1.me.outBuf.isSome ∨ s1.me.pactsOpen s1 = true →
      ∃ key, exec (.exit h) s = .next (afterWait (.exit h) o s s1 .exit key)) ∧
    (∀ s2, s1.me.pend = [] → s1.me.outBuf = none → s1.me.pactsOpen s1 = false → drainAll s1 [24, 25, 26, 27] = .ok s2 →
      ∃ s3, s3.me.occ = false ∧ s3.me.exited = true ∧ s3.me.registers = s2.me.registers ∧ OnlyMine s2 s3 ∧
        exec (.exit h) s = .next (if s3.curSlot = 7 then s3 else exitBars s3 s2.me.ref.crew s2.me)))

/-! ## Loads, stores and atomics -/

/-- LD and LDX (R380, R382, R384, R385): an address that is not a multiple of the size traps MISALIGN; an access that the checks of R380
pass gives the bytes at its address, extended as SX says, and changes no byte of memory; their faults and waits are those of the
access. A stream or queue destination that takes no word then makes the thread wait with the access performed and its value kept. LDX's
registers are empty while it waits, and as they were where it traps. -/
def Obligations.LoadsRead : Prop :=
  (∀ (h : Hdr) (d a b : BitVec 5) (sz : BitVec 2) (sx : Bool) (sc : BitVec 3) (imm : BitVec 48) (s s1 : State) (o : Ops),
    Issues (.ld h d a b sz sx sc imm) s o s1 →
    let va := o.a + (o.b <<< sc.toNat) + imm.signExtend 64
    let n := 2 ^ sz.toNat
    (va.toNat % n ≠ 0 → exec (.ld h d a b sz sx sc imm) s = .next (afterTrap s s1 5 va 0)) ∧
    (∀ s2 x, va.toNat % n = 0 → threadAccess s1 va n .read true = (s2, .ok x) →
      let v : Word := if sx then sext (s2.read (dieOf s1.curCore) x.pa n) (8 * n) else word (s2.read (dieOf s1.curCore) x.pa n)
      SameBytes s1 s2 ∧
      (giveWait s2 d = none →
        exec (.ld h d a b sz sx sc imm) s = .next (after (.ld h d a b sz sx sc imm) s (giveG s2 (some 1) d v 0))) ∧
      (∀ why key, giveWait s2 d = some (why, key) → exec (.ld h d a b sz sx sc imm) s = .next (afterWait (.ld h d a b sz sx sc imm) o s
        (s2.modMe fun t => { t with carry := some (v, 0) }) why key))) ∧
    (∀ s2 c x, va.toNat % n = 0 → threadAccess s1 va n .read true = (s2, .trap c x) →
      exec (.ld h d a b sz sx sc imm) s = .next (afterTrap s s2 c va (word x))) ∧
    (∀ s2, va.toNat % n = 0 → threadAccess s1 va n .read true = (s2, .wait) →
      exec (.ld h d a b sz sx sc imm) s = .next (afterWait (.ld h d a b sz sx sc imm) o s s2 .memory 0))) ∧
  (∀ (h : Hdr) (d a b : BitVec 5) (sc : BitVec 3) (imm : BitVec 48) (s s1 s2 : State) (o : Ops),
    Issues (.ldx h d a b sc imm) s o s1 →
    (o.a + (o.b <<< sc.toNat) + imm.signExtend 64).toNat % 16 = 0 →
    (∀ x, threadAccess s1 (o.a + (o.b <<< sc.toNat) + imm.signExtend 64) 16 .read true = (s2, .ok x) →
      SameBytes s1 s2 ∧
      exec (.ldx h d a b sc imm) s = .next (after (.ldx h d a b sc imm) s (s2.modMe fun t =>
        t.result (some 1) [t.destG d (word (s2.read (dieOf s1.curCore) x.pa 16)),
          t.destG (d + 1) (word (s2.read (dieOf s1.curCore) x.pa 16 / 2 ^ 64))] 0))) ∧
    (threadAccess s1 (o.a + (o.b <<< sc.toNat) + imm.signExtend 64) 16 .read true = (s2, .wait) →
      exec (.ldx h d a b sc imm) s = .next (afterWait (.ldx h d a b sc imm) o s
        (s2.modMe fun t => (t.setFullNow d.toNat false).setFullNow (d.toNat + 1) false) .memory 0)) ∧
    (∀ c x, threadAccess s1 (o.a + (o.b <<< sc.toNat) + imm.signExtend 64) 16 .read true = (s2, .trap c x) →
      exec (.ldx h d a b sc imm) s = .next (afterTrap s
        (s2.modMe fun t => (t.setFullNow d.toNat (s.me.fullG d.toNat)).setFullNow (d.toNat + 1) (s.me.fullG (d.toNat + 1)))
        c (o.a + (o.b <<< sc.toNat) + imm.signExtend 64) (word x))))

/-- LDV, LDW and LDVW (R386, R391): a vector load takes the active lanes of the 64-byte block at its address, and is not performed
without an active lane; a weight load reads a weight store of the thread's die once no refresh window of its bank group delays it (R192), and traps PAGEF with
code 3 elsewhere. -/
def Obligations.VectorAndWeightLoads : Prop :=
  (∀ (h : Hdr) (vd : BitVec 4) (a b : BitVec 5) (sz : BitVec 2) (mk sc : BitVec 3) (imm : BitVec 48) (s s1 : State) (o : Ops),
    Issues (.ldv h vd a b sz mk sc imm) s o s1 →
    let va := o.a + (o.b <<< sc.toNat) + imm.signExtend 64
    (activeCount (8 * 2 ^ sz.toNat) o.ma = 0 →
      exec (.ldv h vd a b sz mk sc imm) s = .next (after (.ldv h vd a b sz mk sc imm) s
        (s1.modMe fun t => t.result (some 1) [.v vd o.vd] 0))) ∧
    (∀ s2 x, activeCount (8 * 2 ^ sz.toNat) o.ma ≠ 0 → va.toNat % 64 = 0 → threadAccess s1 va 64 .read true = (s2, .ok x) →
      SameBytes s1 s2 ∧ ∃ v : Vec,
      exec (.ldv h vd a b sz mk sc imm) s = .next (after (.ldv h vd a b sz mk sc imm) s
        (s2.modMe fun t => t.result (some 1) [.v vd v] 0)) ∧
      ∀ k, k < 512 / (8 * 2 ^ sz.toNat) → lane v (8 * 2 ^ sz.toNat) k =
        if laneOn (8 * 2 ^ sz.toNat) o.ma k then s2.read (dieOf s1.curCore) (x.pa + k * 2 ^ sz.toNat) (2 ^ sz.toNat)
        else lane o.vd (8 * 2 ^ sz.toNat) k)) ∧
  (∀ (h : Hdr) (d a b : BitVec 5) (sz : BitVec 2) (sx : Bool) (sc : BitVec 3) (imm : BitVec 48) (s s1 : State) (o : Ops),
    Issues (.ldw h d a b sz sx sc imm) s o s1 →
    let va := o.a + (o.b <<< sc.toNat) + imm.signExtend 64
    let n := 2 ^ sz.toNat
    ∀ s2 x, va.toNat % n = 0 → translate s1 s1.curCore s1.myCtx s1.me.user true va .read = (s2, .ok x) →
      (∀ off, kindOf x.pa = .ws off → wsReadCheck s2 s2.myCtx (dieOf s2.curCore) off x.lvl = none →
        fenced s2 s2.myCtx (dieOf s2.curCore) x.pa x.pte = false → s2.poisoned (dieOf s2.curCore) x.pa n = false →
        (s2.wsDelay s2.curCore s2.meReader x.pa n = none → giveWait s2 d = none →
          exec (.ldw h d a b sz sx sc imm) s = .next (after (.ldw h d a b sz sx sc imm) s (giveG s2 (some 1) d
            (if sx then sext (s2.read (dieOf s2.curCore) x.pa n) (8 * n) else word (s2.read (dieOf s2.curCore) x.pa n)) 0))) ∧
        (∀ s3, s2.wsDelay s2.curCore s2.meReader x.pa n = some s3 →
          exec (.ldw h d a b sz sx sc imm) s = .next (afterWait (.ldw h d a b sz sx sc imm) o s s3 .memory 0))) ∧
      ((∀ off, kindOf x.pa ≠ .ws off) → exec (.ldw h d a b sz sx sc imm) s = .next (afterTrap s s2 6 va (word (xaux 3 x.lvl))))) ∧
  (∀ (h : Hdr) (vd : BitVec 4) (a b : BitVec 5) (sz : BitVec 2) (mk sc : BitVec 3) (imm : BitVec 48) (s s1 : State) (o : Ops),
    Issues (.ldvw h vd a b sz mk sc imm) s o s1 → activeCount (8 * 2 ^ sz.toNat) o.ma = 0 →
    exec (.ldvw h vd a b sz mk sc imm) s = .next (after (.ldvw h vd a b sz mk sc imm) s
      (s1.modMe fun t => t.result (some 1) [.v vd o.vd] 0))) ∧
  (∀ (h : Hdr) (vd : BitVec 4) (a b : BitVec 5) (sz : BitVec 2) (mk sc : BitVec 3) (imm : BitVec 48) (s s1 s2 : State) (o : Ops)
    (x : Xl) (off : Nat), Issues (.ldvw h vd a b sz mk sc imm) s o s1 →
    activeCount (8 * 2 ^ sz.toNat) o.ma ≠ 0 → (o.a + (o.b <<< sc.toNat) + imm.signExtend 64).toNat % 64 = 0 →
    translate s1 s1.curCore s1.myCtx s1.me.user true (o.a + (o.b <<< sc.toNat) + imm.signExtend 64) .read = (s2, .ok x) →
    kindOf x.pa = .ws off → wsReadCheck s2 s2.myCtx (dieOf s2.curCore) off x.lvl = none →
    fenced s2 s2.myCtx (dieOf s2.curCore) x.pa x.pte = false → s2.poisoned (dieOf s2.curCore) x.pa 64 = false →
    s2.wsDelay s2.curCore s2.meReader x.pa 64 = none →
    ∃ v : Vec, exec (.ldvw h vd a b sz mk sc imm) s = .next (after (.ldvw h vd a b sz mk sc imm) s
        (s2.modMe fun t => t.result (some 1) [.v vd v] 0)) ∧
      ∀ k, k < 512 / (8 * 2 ^ sz.toNat) → lane v (8 * 2 ^ sz.toNat) k =
        if laneOn (8 * 2 ^ sz.toNat) o.ma k then s2.read (dieOf s2.curCore) (x.pa + k * 2 ^ sz.toNat) (2 ^ sz.toNat)
        else lane o.vd (8 * 2 ^ sz.toNat) k)

/-- ST and STX (R380, R384, R385): the bytes stored are those of the source, least significant first, at the address of the
form; every other byte of memory reads as before, and the registers stay. The context's log, where it checkpoints, is written
beside them (R88), so the bytes of its save area are left out then. -/
def Obligations.StoresWrite : Prop :=
  ∀ (i : Instr) (s s1 s2 : State) (o : Ops) (va : Word) (bs : List Byte) (x : Xl),
    ((∃ h d a b sz sc imm, i = .st h d a b sz sc imm ∧ va = o.a + (o.b <<< sc.toNat) + imm.signExtend 64 ∧
        bs = bytesOf o.d.toNat (2 ^ sz.toNat)) ∨
      (∃ h d a b sc imm, i = .stx h d a b sc imm ∧ va = o.a + (o.b <<< sc.toNat) + imm.signExtend 64 ∧
        bs = bytesOf o.d.toNat 8 ++ bytesOf o.c.toNat 8)) →
    Issues i s o s1 → va.toNat % bs.length = 0 → threadAccess s1 va bs.length .write true = (s2, .ok x) →
    (∀ s3, storeLine s2 s1.myCtx (dieOf s1.curCore) x.pa x.pte bs = some s3 →
      exec i s = .next (after i s (ackOut s3 x.pa)) ∧
      (s1.ckpts s1.myCtx = false → (kindOf x.pa = .dram ∨ kindOf x.pa = .host ∨ ∃ c k, kindOf x.pa = .spm c k) →
        ∀ p, Tbl.get 0 (after i s (ackOut s3 x.pa)).mem p =
          if x.pa ≤ p ∧ p < x.pa + bs.length then bs.getD (p - x.pa) 0 else Tbl.get 0 s1.mem p) ∧
      (after i s (ackOut s3 x.pa)).me.registers = s1.me.registers) ∧
    (storeLine s2 s1.myCtx (dieOf s1.curCore) x.pa x.pte bs = none →
      exec i s = .next (afterWait i o s (s2.wantSeal s1.myCtx) .memory 0))

/-- STV and SCAT (R386, R387): without an active lane nothing is stored; STV stores the bytes of its active lanes, those of lane i at i times
the lane's size, as one block where every lane is active. Every other byte of memory reads as before, the log of a context that checkpoints
left out (R88). SCAT stores its active lanes in rising order, each at its own address, as many in one try as can be performed: the thread waits
with the others left (R198), and goes on once every one is stored. -/
def Obligations.VectorStores : Prop :=
  (∀ (h : Hdr) (vd : BitVec 4) (a b : BitVec 5) (sz : BitVec 2) (mk sc : BitVec 3) (imm : BitVec 48) (s s1 : State) (o : Ops),
    Issues (.stv h vd a b sz mk sc imm) s o s1 →
    (activeCount (8 * 2 ^ sz.toNat) o.ma = 0 →
      exec (.stv h vd a b sz mk sc imm) s = .next (after (.stv h vd a b sz mk sc imm) s s1)) ∧
    (∀ s2 s3 x, activeCount (8 * 2 ^ sz.toNat) o.ma ≠ 0 →
      (o.a + (o.b <<< sc.toNat) + imm.signExtend 64).toNat % 64 = 0 →
      threadAccess s1 (o.a + (o.b <<< sc.toNat) + imm.signExtend 64) 64 .write true = (s2, .ok x) →
      (if activeCount (8 * 2 ^ sz.toNat) o.ma = 512 / (8 * 2 ^ sz.toNat) then
          storeLine s2 s2.myCtx (dieOf s2.curCore) x.pa x.pte (bytesOf o.vd.toNat 64)
        else putLanes s2 x (8 * 2 ^ sz.toNat) o.vd (activeLanes (8 * 2 ^ sz.toNat) o.ma)) = some s3 →
      exec (.stv h vd a b sz mk sc imm) s = .next (after (.stv h vd a b sz mk sc imm) s (ackOut s3 x.pa)) ∧
      (s1.ckpts s1.myCtx = false → (kindOf x.pa = .dram ∨ kindOf x.pa = .host ∨ ∃ c k, kindOf x.pa = .spm c k) →
        ∀ p, Tbl.get 0 (after (.stv h vd a b sz mk sc imm) s (ackOut s3 x.pa)).mem p =
          if x.pa ≤ p ∧ p < x.pa + 64 ∧ laneOn (8 * 2 ^ sz.toNat) o.ma ((p - x.pa) / 2 ^ sz.toNat) then
            BitVec.ofNat 8 (o.vd.toNat / 256 ^ (p - x.pa))
          else Tbl.get 0 s1.mem p)) ∧
    (∀ s2 x, activeCount (8 * 2 ^ sz.toNat) o.ma ≠ 0 →
      (o.a + (o.b <<< sc.toNat) + imm.signExtend 64).toNat % 64 = 0 →
      threadAccess s1 (o.a + (o.b <<< sc.toNat) + imm.signExtend 64) 64 .write true = (s2, .ok x) →
      (if activeCount (8 * 2 ^ sz.toNat) o.ma = 512 / (8 * 2 ^ sz.toNat) then
          storeLine s2 s2.myCtx (dieOf s2.curCore) x.pa x.pte (bytesOf o.vd.toNat 64)
        else putLanes s2 x (8 * 2 ^ sz.toNat) o.vd (activeLanes (8 * 2 ^ sz.toNat) o.ma)) = none →
      exec (.stv h vd a b sz mk sc imm) s =
        .next (afterWait (.stv h vd a b sz mk sc imm) o s (s2.wantSeal s2.myCtx) .memory 0))) ∧
  (∀ (h : Hdr) (vd : BitVec 4) (a : BitVec 5) (vb : BitVec 4) (sz : BitVec 2) (mk sc : BitVec 3) (imm : BitVec 48) (s s1 : State)
    (o : Ops), Issues (.scat h vd a vb sz mk sc imm) s o s1 →
    (∀ s2 v, laneRun (scatLane o (8 * 2 ^ sz.toNat) sc imm) (activeLanes (8 * 2 ^ sz.toNat) o.ma) 0 s1 = .inl (s2, v) →
      exec (.scat h vd a vb sz mk sc imm) s = .next (after (.scat h vd a vb sz mk sc imm) s s2)) ∧
    (∀ s2 why key, laneRun (scatLane o (8 * 2 ^ sz.toNat) sc imm) (activeLanes (8 * 2 ^ sz.toNat) o.ma) 0 s1 = .inr (.wait s2 why key) →
      exec (.scat h vd a vb sz mk sc imm) s = .next (afterWait (.scat h vd a vb sz mk sc imm) o s s2 why key)) ∧
    (activeLanes (8 * 2 ^ sz.toNat) o.ma = [] → (∀ n r, s1.agenda ≠ .part n :: r) →
      exec (.scat h vd a vb sz mk sc imm) s = .next (after (.scat h vd a vb sz mk sc imm) s
        (s1.modMe fun t => { t with lanes := none }))) ∧
    (∀ k s2 s3 x, activeLanes (8 * 2 ^ sz.toNat) o.ma = [k] → s1.me.lanes = none → (∀ n r, s1.agenda ≠ .part n :: r) →
      let va := o.a + (word (lane o.vb (8 * 2 ^ sz.toNat) k) <<< sc.toNat) + imm.signExtend 64
      va.toNat % 2 ^ sz.toNat = 0 → threadAccess s1 va (2 ^ sz.toNat) .write true = (s2, .ok x) →
      storeLine s2 s2.myCtx (dieOf s2.curCore) x.pa x.pte (bytesOf (lane o.vd (8 * 2 ^ sz.toNat) k) (2 ^ sz.toNat)) = some s3 →
      exec (.scat h vd a vb sz mk sc imm) s = .next (after (.scat h vd a vb sz mk sc imm) s
        ((ackOut s3 x.pa).modMe fun t => { t with lanes := none })) ∧
      (s1.ckpts s1.myCtx = false → (kindOf x.pa = .dram ∨ kindOf x.pa = .host ∨ ∃ c k, kindOf x.pa = .spm c k) →
        ∀ p, Tbl.get 0 (ackOut s3 x.pa).mem p = if x.pa ≤ p ∧ p < x.pa + 2 ^ sz.toNat then
          BitVec.ofNat 8 (lane o.vd (8 * 2 ^ sz.toNat) k / 256 ^ (p - x.pa)) else Tbl.get 0 s1.mem p)))

/-- GATH (R387): each active lane is loaded from its own address, in rising order, and the inactive lanes keep what D held; a lane that
traps leaves D as it was, with its number in TAUX bits 20:16. As many lanes are performed in one try as can be; the thread waits with
the others left (R198). -/
def Obligations.GatherReads : Prop :=
  ∀ (h : Hdr) (vd : BitVec 4) (a : BitVec 5) (vb : BitVec 4) (sz : BitVec 2) (sx : Bool) (mk sc : BitVec 3) (imm : BitVec 48)
    (s s1 : State) (o : Ops), Issues (.gath h vd a vb sz sx mk sc imm) s o s1 →
    let w := 8 * 2 ^ sz.toNat
    (∀ s2 v, laneRun (gathLane o w sx sc imm) (activeLanes w o.ma) o.vd s1 = .inl (s2, v) →
      SameBytes s1 s2 ∧
      exec (.gath h vd a vb sz sx mk sc imm) s = .next (after (.gath h vd a vb sz sx mk sc imm) s
        (s2.modMe fun t => t.result (some 1) [.v vd v] 0)) ∧
      (s1.me.lanes = none → ∀ k, k < 512 / w → laneOn w o.ma k = false → lane v w k = lane o.vd w k)) ∧
    (∀ s2 why key, laneRun (gathLane o w sx sc imm) (activeLanes w o.ma) o.vd s1 = .inr (.wait s2 why key) →
      SameBytes s1 s2 ∧ exec (.gath h vd a vb sz sx mk sc imm) s = .next (afterWait (.gath h vd a vb sz sx mk sc imm) o s s2 why key)) ∧
    (∀ k s2 x va, activeLanes w o.ma = [k] → s1.me.lanes = none → (∀ n r, s1.agenda ≠ .part n :: r) →
      va = gatherVA o w sx sc imm k → va.toNat % (w / 8) = 0 → threadAccess s1 va (w / 8) .read true = (s2, .ok x) →
      ∃ (v : Vec) (s3 : State), SameBytes s2 s3 ∧ exec (.gath h vd a vb sz sx mk sc imm) s =
          .next (after (.gath h vd a vb sz sx mk sc imm) s (s3.modMe fun t => t.result (some 1) [.v vd v] 0)) ∧
        ∀ j, j < 512 / w → lane v w j = if j = k then s2.read (dieOf s2.curCore) x.pa (w / 8) else lane o.vd w j) ∧
    (∀ k r s2 c x va, activeLanes w o.ma = k :: r → s1.me.lanes = none → (∀ n r, s1.agenda ≠ .part n :: r) →
      va = gatherVA o w sx sc imm k → va.toNat % (w / 8) = 0 → threadAccess s1 va (w / 8) .read true = (s2, .trap c x) →
      exec (.gath h vd a vb sz sx mk sc imm) s = .next (afterTrap s s2 c va (word (x + k * 65536))))

/-- The atomics (R388 to R390): the old value returns, and the new one is stored: the operation's for the integer atomics, C where the
old value equals B for ACAS, and the rounded sum, whose flags are raised, for AFADD. -/
def Obligations.AtomicsUpdate : Prop :=
  (∀ (i : Instr) (h : Hdr) (d a b : BitVec 5) (sz : BitVec 2) (sx : Bool) (imm : BitVec 48) (f : Nat → Nat → Nat)
      (s s1 s2 s3 : State) (o : Ops) (x : Xl),
      let n := 2 ^ sz.toNat
      let m := 2 ^ (8 * n)
      (i = .aadd h d a b sz sx imm ∧ f = (fun v y => (v + y) % m)) ∨ (i = .aand h d a b sz sx imm ∧ f = fun v y => v &&& y) ∨
        (i = .aor h d a b sz sx imm ∧ f = fun v y => v ||| y) ∨ (i = .axor h d a b sz sx imm ∧ f = fun v y => v ^^^ y) ∨
        (i = .axch h d a b sz sx imm ∧ f = fun _ y => y) ∨
        (i = .amin h d a b sz sx imm ∧ f = fun v y => if (if sx then decide (sint v (8 * n) ≤ sint y (8 * n)) else decide (v ≤ y)) then v else y) ∨
        (i = .amax h d a b sz sx imm ∧ f = fun v y => if (if sx then decide (sint v (8 * n) ≤ sint y (8 * n)) else decide (v ≤ y)) then y else v) →
      Issues i s o s1 → (o.a + imm.signExtend 64).toNat % n = 0 →
      threadAccess s1 (o.a + imm.signExtend 64) n .write false = (s2, .ok x) →
      let v := s2.read (dieOf s2.curCore) x.pa n
      storeLine s2 s2.myCtx (dieOf s2.curCore) x.pa x.pte (bytesOf (f v (o.b.toNat % m)) n) = some s3 →
      giveWait (ackOut s3 x.pa) d = none →
      exec i s = .next (after i s (giveG (ackOut s3 x.pa) (some 1) d (if sx then sext v (8 * n) else word v) 0))) ∧
  (∀ (h : Hdr) (d a b c : BitVec 5) (sz : BitVec 2) (sx : Bool) (imm : BitVec 48) (s s1 s2 s3 : State) (o : Ops) (x : Xl),
    let n := 2 ^ sz.toNat
    Issues (.acas h d a b c sz sx imm) s o s1 → (o.a + imm.signExtend 64).toNat % n = 0 →
    threadAccess s1 (o.a + imm.signExtend 64) n .write false = (s2, .ok x) →
    let v := s2.read (dieOf s2.curCore) x.pa n
    storeLine s2 s2.myCtx (dieOf s2.curCore) x.pa x.pte
      (bytesOf (if v = o.b.toNat % 2 ^ (8 * n) then o.c.toNat else v) n) = some s3 → giveWait (ackOut s3 x.pa) d = none →
    exec (.acas h d a b c sz sx imm) s = .next (after (.acas h d a b c sz sx imm) s
      (giveG (ackOut s3 x.pa) (some 1) d (if sx then sext v (8 * n) else word v) 0))) ∧
  (∀ (h : Hdr) (d a b : BitVec 5) (sz : BitVec 2) (rm : BitVec 3) (imm : BitVec 48) (s s1 s2 s3 : State) (o : Ops) (x : Xl),
    let n := 2 ^ sz.toNat
    let fm := fmtOf (if sz = 3 then 0 else 1)
    Issues (.afadd h d a b sz rm imm) s o s1 → (o.a + imm.signExtend 64).toNat % n = 0 →
    threadAccess s1 (o.a + imm.signExtend 64) n .write false = (s2, .ok x) →
    let v := s2.read (dieOf s2.curCore) x.pa n
    let r := addF fm (fmode rm o) v (o.b.toNat % 2 ^ fm.width)
    storeLine s2 s2.myCtx (dieOf s2.curCore) x.pa x.pte (bytesOf r.1 n) = some s3 → giveWait (ackOut s3 x.pa) d = none →
    exec (.afadd h d a b sz rm imm) s = .next (after (.afadd h d a b sz rm imm) s
      (giveG (ackOut s3 x.pa) (some 1) d (word v) r.2)))

/-! ## Streams, queue registers and readiness -/

/-- SDRAIN and SBIND (R394, R396): both drain the register first, and wait or trap as the drain does. SBIND then binds the register to its
record with nothing popped, holding the ranges of the record; a record that breaks R394's field rules traps PARAM, an unaligned one
MISALIGN at its base, and nothing is bound. That the PARAM trap has TAUX 0 and comes after the debit and the drain is the model's choice
(log entries 37 and 36). -/
def Obligations.StreamsBindAndDrain : Prop :=
  (∀ (h : Hdr) (a : BitVec 5) (s s1 : State) (o : Ops), Issues (.sdrain h a) s o s1 →
    (∀ s2, drainStream s1 a.toNat = .ok s2 → exec (.sdrain h a) s = .next (after (.sdrain h a) s s2)) ∧
    (∀ s2, drainStream s1 a.toNat = .wait s2 → exec (.sdrain h a) s = .next (afterWait (.sdrain h a) o s s2 .memory 0)) ∧
    (∀ s2 f, drainStream s1 a.toNat = .stopped s2 f →
      exec (.sdrain h a) s = .next (afterTrap s s2 f.cause.toNat f.addr f.aux))) ∧
  (∀ (h : Hdr) (d : BitVec 5) (blk : BitVec 384) (s s1 s2 : State) (o : Ops), Issues (.sbind h d blk) s o s1 →
    drainStream s1 d.toNat = .ok s2 →
    (sdFieldsOk s2 o.rcd = false → exec (.sbind h d blk) s = .next (afterTrap s s2 0x19 0 0)) ∧
    (sdFieldsOk s2 o.rcd = true → sdAligned o.rcd = false →
      exec (.sbind h d blk) s = .next (afterTrap s s2 5 (word ((sint (o.rcd.toNat % 2 ^ 48) 48) % 2 ^ 64).toNat) 0)) ∧
    (∀ l ix s3, sdFieldsOk s2 o.rcd = true → sdAligned o.rcd = true → sdPieces s2 o.rcd = (.ok l, .ok ix) →
      ((l ++ ix).all fun p => holdable p.2.1) = true →
      register s2.fresh.2 (holdsOf (if bit o.rcd 52 then 7 else 6) s2.fresh.1 s2.myCtx (bit o.rcd 52) (joinPieces l) ++
        holdsOf 6 s2.fresh.1 s2.myCtx false (joinPieces ix)) = .ok s3 →
      exec (.sbind h d blk) s = .next (after (.sbind h d blk) s
        (s3.modStream d.toNat fun _ =>
          ⟨o.rcd, 0, true, false, [], none, s2.fresh.1, latchPages (l ++ ix), false, s3.me.user⟩))))

/-- The words that SSTAT, QSTAT, PQRY, CPYST, FEAT and CSRR give (R397, R399, R421, R437, R443, R449). QBIND (R398): the queue register
takes the binding of its endpoint kind; the path kind first makes its access to TB. EMPTY (R400) sets a register empty, y0 to y3 by
their own full bits, and every other register stays as it was. -/
def Obligations.StatusWordsAndQbind : Prop :=
  (∀ (i : Instr) (h : Hdr) (d : BitVec 5) (v : Word) (s s1 : State) (o : Ops),
      ((∃ a, i = .sstat h d a ∧ v =
          (let b := s1.stream a.toNat
          if b.bound = false ∧ b.stopped = false then 0
          else word (b.total - b.count + (if b.bound then 2 ^ 33 else 0) + (if b.isWrite then 2 ^ 34 else 0) +
            (if b.stopped then 2 ^ 35 else 0)))) ∨
        (∃ a, i = .qstat h d a ∧ v = qstatWord s1 a.toNat) ∨
        (∃ port tag p far own, i = .pqry h d port tag ∧ myPress s1 port = some (p, far, own) ∧ v = pqryWord (s1.press p) far tag) ∨
        (∃ a, i = .cpyst h d a ∧ v = cpystWord s1 o.a) ∨
        (∃ n, i = .feat h d n ∧ v = if n = 0 then 0x201 else if n = 1 then 0xFFF else 0) ∨
        (∃ n, i = .csrr h d n ∧ v = csrRead s1 n.toNat)) →
      Issues i s o s1 →
      (giveWait s1 d = none → exec i s = .next (after i s (giveG s1 (some 1) d v 0))) ∧
      (∀ why key, giveWait s1 d = some (why, key) → exec i s = .next (afterWait i o s s1 why key))) ∧
  (∀ (h : Hdr) (d a : BitVec 5) (imm : BitVec 48) (s s1 : State) (o : Ops), Issues (.qbind h d a imm) s o s1 →
    (imm.toNat % 16 ≠ 5 → exec (.qbind h d a imm) s =
      .next (after (.qbind h d a imm) s (s1.setQ d.toNat (qbindWord imm o.a s1)))) ∧
    (∀ s2 x, imm.toNat % 16 = 5 → threadAccess s1 (ownVA (16 * fld imm 6 14)) 16 .read true = (s2, .ok x) →
      exec (.qbind h d a imm) s = .next (after (.qbind h d a imm) s (s2.setQ d.toNat (qbindWord imm o.a s2))))) ∧
  (∀ (h : Hdr) (d : BitVec 5) (s s1 : State) (o : Ops), Issues (.empty h d) s o s1 → d.toNat < 23 →
    ∃ t, exec (.empty h d) s = .next t ∧ OnlyMine s1 t ∧ t.me.registers = s1.me.registers ∧
      t.me.fullG d.toNat = false ∧ (∀ k, k ≠ d.toNat → t.me.isFull k = s1.me.isFull k) ∧
      ∀ k, k < 4 → d.toNat ≠ 10 + k → t.me.yfull.getLsbD k = s1.me.yfull.getLsbD k)

/-- PUTR, MIGR and TMODE (R168, R402 to R404): a register put leaves for its target, or waits for the outbound buffer; MIGR to a core
outside the crew traps MIGDOM, and to another core of the crew leaves once no result is outstanding; a change of mode zeroes and
fills what the light mode does not keep: R404 says so of tmode.heavy, and of tmode.light that it discards it, which leaves zeroes and
full registers by the model's choice (log entry 122). -/
def Obligations.PutrMigrTmode : Prop :=
  (∀ (h : Hdr) (a b rg : BitVec 5) (s s1 : State) (o : Ops), Issues (.putr h a b rg) s o s1 →
    (s1.me.outBuf = none → exec (.putr h a b rg) s = .next (after (.putr h a b rg) s
      (sendWord s1 ⟨o.a.setWidth 12, (o.a >>> 12).setWidth 3, some rg, o.b⟩))) ∧
    (s1.me.outBuf ≠ none → ∃ key, exec (.putr h a b rg) s = .next (afterWait (.putr h a b rg) o s s1 .message key))) ∧
  (∀ (h : Hdr) (a : BitVec 5) (s s1 : State) (o : Ops) (c : Crew), Issues (.migr h a) s o s1 → s1.myCrew = some c →
    (c.lindexOf (o.a.toNat % 4096) = none →
      exec (.migr h a) s = .next (afterTrap s s1 0x0A 0 (word (o.a.toNat % 4096)))) ∧
    (∀ k, c.lindexOf (o.a.toNat % 4096) = some k → k = s1.me.ref.lcore →
      exec (.migr h a) s = .next (after (.migr h a) s s1)) ∧
    (∀ k, c.lindexOf (o.a.toNat % 4096) = some k → k ≠ s1.me.ref.lcore → s1.me.pend = [] →
      exec (.migr h a) s = .next (parkMe s1 .migrate (k + 1) [] (some (nextPC s.me.pc 1 false))))) ∧
  (∀ (h : Hdr) (s s1 : State) (o : Ops), Issues (.tmodeLight h) s o s1 → s1.me.light = false →
    ∃ t, exec (.tmodeLight h) s = .next t ∧ OnlyMine s1 t ∧ t.me.light = true ∧ t.me.v = Vector.replicate 16 0 ∧
      (∀ k, k < 10 → t.me.g[k]? = s1.me.g[k]?) ∧ (∀ k, 10 ≤ k → k < 23 → t.me.g[k]? = some 0) ∧
      (∀ k, 10 ≤ k → k < 47 → t.me.isFull k = true)) ∧
  (∀ (h : Hdr) (s s1 : State) (o : Ops), Issues (.tmodeHeavy h) s o s1 → s1.me.light = true →
    ∃ t, exec (.tmodeHeavy h) s = .next t ∧ OnlyMine s1 t ∧ t.me.light = false ∧ t.me.v = Vector.replicate 16 0 ∧
      (∀ k, k < 10 → t.me.g[k]? = s1.me.g[k]?) ∧ (∀ k, 10 ≤ k → k < 23 → t.me.g[k]? = some 0) ∧
      (∀ k, 10 ≤ k → k < 47 → t.me.isFull k = true))

/-! ## Barriers, events, deques and items -/

/-- BAR, BARA and BARW (R235, R406): an arrival is made, and the thread parks at the barrier until the phase it arrived in has completed
and its completion is not held; BARW without an outstanding arrival does nothing. Passing clears the outstanding arrival and empties
LPR; the last arrival of a phase advances it and reloads the arrivals. -/
def Obligations.HardwareBarriers : Prop :=
  (∀ (h : Hdr) (n : BitVec 3) (s s1 : State) (o : Ops), Issues (.bar h n) s o s1 →
    (mustWait (arrive s1 n) n = true → exec (.bar h n) s = .next (afterHold (.bar h n) s (arrive s1 n) .barrier (n.toNat + 1))) ∧
    (mustWait (arrive s1 n) n = false → exec (.bar h n) s =
      .next (after (.bar h n) s ((arrive s1 n).modMe fun t => t.passBar n.toNat)))) ∧
  (∀ (h : Hdr) (n : BitVec 3) (s s1 : State) (o : Ops), Issues (.bara h n) s o s1 →
    exec (.bara h n) s = .next (after (.bara h n) s (arrive s1 n))) ∧
  (∀ (h : Hdr) (n : BitVec 3) (s s1 : State) (o : Ops), Issues (.barw h n) s o s1 →
    (s1.me.csr.tstat.getLsbD (16 + n.toNat) = false → exec (.barw h n) s = .next (after (.barw h n) s s1)) ∧
    (s1.me.csr.tstat.getLsbD (16 + n.toNat) = true → mustWait s1 n = true →
      exec (.barw h n) s = .next (afterHold (.barw h n) s s1 .barrier (n.toNat + 1))) ∧
    (s1.me.csr.tstat.getLsbD (16 + n.toNat) = true → mustWait s1 n = false →
      exec (.barw h n) s = .next (after (.barw h n) s (s1.modMe fun t => t.passBar n.toNat)))) ∧
  (∀ (t : Thread) (n : BitVec 3), (t.passBar n.toNat).csr.tstat.getLsbD (16 + n.toNat) = false ∧
    (t.passBar n.toNat).csr.lpr.getLsbD 63 = true ∧ (t.passBar n.toNat).registers = t.registers) ∧
  (∀ (s : State) (n b : Nat) (c : Crew), b < 8 → s.crew? n = some c → (c.bar b).ap = 1 → c.shedMark = false →
    c.relocMark = false → s.sealPending c.ctx = false →
    ∃ c', (lowerBar s n b).crew? n = some c' ∧ (c'.bar b).phase = !(c.bar b).phase ∧ (c'.bar b).ap = c.expected) ∧
  (∀ (s : State) (n b : Nat) (c : Crew), b < 8 → s.crew? n = some c → 1 < (c.bar b).ap →
    ∃ c', (lowerBar s n b).crew? n = some c' ∧ (c'.bar b).phase = (c.bar b).phase ∧ (c'.bar b).ap = (c.bar b).ap - 1)

/-- SEV, WEV and BFREE (R408, R409): an event flag of the target thread is set; a set flag of the own thread is taken and cleared, and
a clear one parks it; the buffer flag of the own core is set. ITEM (R412): the words of g0 upward enter the queue, once it has room and no earlier push
waits; after the end-of-stream token the queue takes nothing more, and its pushers trap. R118 states the TAUX of that trap for an ITEM that
is already parked; that one which issues after the token has the same is the model's choice (log entry 37). -/
def Obligations.EventsBuffersAndItems : Prop :=
  (∀ (h : Hdr) (a : BitVec 5) (e : BitVec 4) (s s1 : State) (o : Ops), Issues (.sev h a e) s o s1 →
    (targetHeld s1 o.a = false → exec (.sev h a e) s = .next (after (.sev h a e) s
      (setEvent s1 s1.myCtx (o.a.toNat % 4096) (o.a.toNat / 4096 % 8) e.toNat))) ∧
    (targetHeld s1 o.a = true → exec (.sev h a e) s = .next (afterWait (.sev h a e) o s s1 .message 0))) ∧
  (∀ (h : Hdr) (e : BitVec 4) (s s1 : State) (o : Ops), Issues (.wev h e) s o s1 →
    (s1.me.csr.tstat.getLsbD (32 + e.toNat) = true → ∃ t, exec (.wev h e) s = .next t ∧ OnlyMine s1 t ∧
      t.me.csr.tstat.getLsbD (32 + e.toNat) = false ∧ t.me.registers = s1.me.registers) ∧
    (s1.me.csr.tstat.getLsbD (32 + e.toNat) = false → exec (.wev h e) s = .next (afterWait (.wev h e) o s s1 .event 0))) ∧
  (∀ (h : Hdr) (e : BitVec 4) (s s1 : State) (o : Ops), Issues (.bfree h e) s o s1 →
    ∃ t, exec (.bfree h e) s = .next t ∧ t.mem = s1.mem ∧ t.me.registers = s1.me.registers ∧
      ∀ c, s1.crew? s1.me.ref.crew = some c → (t.crewCore s1.me.ref.crew s1.me.ref.lcore).bf.getLsbD e.toNat = true) ∧
  (∀ (h : Hdr) (a : BitVec 5) (s s1 : State) (o : Ops) (q : GQueue), Issues (.item h a) s o s1 →
    s1.gqueue? s1.myGraph o.a.toNat = some q →
    (q.eos = false → s1.gqFull s1.myGraph o.a.toNat = false → someoneFirst s1 (keyItem s1.myGraph o.a.toNat) = false →
      exec (.item h a) s = .next (after (.item h a) s (gqPush s1 s1.myGraph o.a.toNat o.item))) ∧
    (q.eos = false → s1.gqFull s1.myGraph o.a.toNat = true →
      exec (.item h a) s = .next (afterWait (.item h a) o s s1 .message (keyItem s1.myGraph o.a.toNat)))) ∧
  (∀ (h : Hdr) (a : BitVec 5) (s s1 : State) (o : Ops), Issues (.itemEos h a) s o s1 →
    exec (.itemEos h a) s = .next (after (.itemEos h a) s (gqEos s1 s1.myGraph o.a.toNat))) ∧
  (∀ (i : Instr) (h : Hdr) (a : BitVec 5) (b : Body) (s s' : State) (o : Ops) (q : GQueue), i = .item h a ∨ i = .itemEos h a →
    bodyOf i = some b → b.early s = none → s.me.pStop h.g = none → s.me.getP h.g.toNat ≠ h.n → b.readOps s = .ok (o, s') →
    o.a.toNat < 65536 → gqMine s s.myGraph o.a.toNat = true → s.gqueue? s.myGraph o.a.toNat = some q → q.eos = true →
    exec i s = .next (takeTrap s s.curCore s.curSlot 0x19 0 (word o.a.toNat) s.me.pc false false))

/-- The range deques (R410, R411), as one indivisible access at the deque's bank: a header that breaks R410's rules, or an array that
does, traps PARAM; otherwise the operation's result goes to D, and its header and entries to memory. A push of an empty range does
nothing and answers 1, a push onto a full deque answers 0, and a pop, steal or split of an empty one answers 0. An entry array that is no
multiple of 8 traps MISALIGN at the first entry touched. The TAUX of PARAM, 0, is the model's choice (log entry 37). -/
def Obligations.DequesOperate : Prop :=
  (∀ (i : Instr) (h : Hdr) (d a b : BitVec 5) (imm : BitVec 48) (f : Deque → (Nat → Nat) → Nat → DqOp) (s s1 s2 : State) (o : Ops)
      (x : Xl) (core off : Nat),
      (i = .dqpush h d a b imm ∧ f = dqPush) ∨ (i = .dqpop h d a b imm ∧ f = dqPop) ∨ (i = .dqspl h d a b imm ∧ f = dqSplit) ∨
        (i = .dqstl h d a b imm ∧ f = dqSteal) →
      Issues i s o s1 → (o.a + imm.signExtend 64).toNat % 64 = 0 →
      threadAccess s1 (o.a + imm.signExtend 64) 64 .write false = (s2, .ok x) → kindOf x.pa = .spm core off →
      let q := readDeque s2 x.pa
      (q.ok = false → exec i s = .next (afterTrap s s2 0x19 0 0)) ∧
      (∀ arr, q.ok = true → dequeArray s2 q x.pa = some arr → s2.holds = [] →
        let r := f q (fun k => s2.read 0 (q.entry arr k) 8) o.b.toNat
        let u := (r.wr.foldl (fun u w => u.write (q.entry arr w.1) 8 w.2) s2).write (x.pa + 16) 8 (r.head + r.tail * 2 ^ 32)
        (q.ent.toNat % 8 = 0 → giveWait u d = none → exec i s = .next (after i s (giveG u (some 1) d (word r.d) 0))) ∧
        (∀ k l, q.ent.toNat % 8 ≠ 0 → r.rd ++ r.wr.map (·.1) = k :: l →
          exec i s = .next (afterTrap s s2 5 (q.ent + word (8 * (k % q.cap))) 0)))) ∧
  (∀ (q : Deque) (e : Nat → Nat) (b : Nat),
      (b % 2 ^ 32 ≥ b / 2 ^ 32 % 2 ^ 32 → dqPush q e b = ⟨1, q.head, q.tail, [], []⟩) ∧
      (b % 2 ^ 32 < b / 2 ^ 32 % 2 ^ 32 → q.n = q.cap → dqPush q e b = ⟨0, q.head, q.tail, [], []⟩) ∧
      (b % 2 ^ 32 < b / 2 ^ 32 % 2 ^ 32 → q.n ≠ q.cap → dqPush q e b = ⟨1, q.head, (q.tail + 1) % 2 ^ 32, [(q.tail, b)], []⟩) ∧
      (q.n = 0 → dqPop q e b = ⟨0, q.head, q.tail, [], []⟩ ∧ dqSteal q e b = ⟨0, q.head, q.tail, [], []⟩ ∧
        dqSplit q e b = ⟨0, q.head, q.tail, [], []⟩) ∧
      (q.n ≠ 0 → b % 2 ^ 32 = 0 →
        dqPop q e b = ⟨e ((q.tail + 2 ^ 32 - 1) % 2 ^ 32), q.head, (q.tail + 2 ^ 32 - 1) % 2 ^ 32, [],
          [(q.tail + 2 ^ 32 - 1) % 2 ^ 32]⟩ ∧
        dqSteal q e b = ⟨e q.head, (q.head + 1) % 2 ^ 32, q.tail, [], [q.head]⟩))

/-! ## Presses, copies and transaction barriers -/

/-- PMM, PDSC and PDGR (R417, R225): the half joins the press's rendezvous table with its record, TAG and end, and its thread parks on
the pact; a full table makes it wait, and an end of a pact that its own operand fault has suspended resumes it: that end's fault is no
cause of the suspension any more, whatever opcode the instruction has. The factor of a half is 0 where its record scales nothing (R462). -/
def Obligations.PactsJoin : Prop :=
  ∀ (i : Instr) (h : Hdr) (op : PressOp) (port : BitVec 2) (tag : BitVec 8) (blk : BitVec 384) (s s1 : State) (o : Ops)
    (p : Nat) (far : Bool) (own : Nat),
    (i = .pmm h port tag blk ∧ op = .pmm) ∨ (i = .pdsc h port tag blk ∧ op = .pdsc) ∨ (i = .pdgr h port tag blk ∧ op = .pdgr) →
    Issues i s o s1 → myPress s1 port = some (p, far, own) →
    (suspended (s1.press p) far tag o.rcd = none → tableFull (s1.press p) tag = false → dupHalf (s1.press p) far tag = false →
      ∃ t id, exec i s = .next (afterHold i s t .pact id) ∧ t.mem = s1.mem ∧ t.me.registers = s1.me.registers ∧
        (t.press p).halves = (s1.press p).halves ++ [⟨op, o.rcd, far, tag, s1.me.ref, scaleFactor op o.rcd o.a, id⟩] ∧
        (t.press p).queue = (s1.press p).queue) ∧
    (suspended (s1.press p) far tag o.rcd = none → tableFull (s1.press p) tag = true → dupHalf (s1.press p) far tag = false →
      exec i s = .next (afterWait i o s s1 .pressQueue 0)) ∧
    (∀ e, suspended (s1.press p) far tag o.rcd = some e →
      ∃ t, exec i s = .next (afterHold i s t .pact e.id) ∧ t.mem = s1.mem ∧ (t.press p).halves = (s1.press p).halves ∧
        (t.press p).queue = (s1.press p).queue.map fun x => if x.id ≠ e.id then x else { x with causes :=
          if far = x.leadFar then { x.causes with faultA := false } else { x.causes with faultB := false } })

/-- PWAIT, PABT and PORD (R420, R422, R427): PWAIT goes on when no pact or delivery with the tag that the thread joined is live; PABT acts
by the state of the newest pact with the tag (Table 18.4): a half leaves the table and its issuer traps with PTIMEO, a queued or suspended
pact is cancelled at once (every entry of its gang that does not deliver leaves its queue), one that streams is marked for its next
suspension point while the issuer waits, and no other pact, or none, is touched; PORD sets LPR.NONE alone. -/
def Obligations.PressWaits : Prop :=
  (∀ (h : Hdr) (port : BitVec 2) (tag : BitVec 8) (s s1 : State) (o : Ops) (p : Nat) (far : Bool) (own : Nat),
    Issues (.pwait h port tag) s o s1 → myPress s1 port = some (p, far, own) →
    ((∀ j ∈ s1.me.joined, j.press = p → j.tag = tag → pactLive s1 j.pact = false) →
      exec (.pwait h port tag) s = .next (after (.pwait h port tag) s s1)) ∧
    ((∃ j ∈ s1.me.joined, j.press = p ∧ j.tag = tag ∧ pactLive s1 j.pact = true) →
      ∃ key, exec (.pwait h port tag) s = .next (afterWait (.pwait h port tag) o s s1 .press key))) ∧
  (∀ (h : Hdr) (port : BitVec 2) (tag : BitVec 8) (s s1 : State) (o : Ops) (p : Nat) (far : Bool) (own : Nat),
    Issues (.pabt h port tag) s o s1 → myPress s1 port = some (p, far, own) → newestPact (s1.press p) far tag = none →
    exec (.pabt h port tag) s = .next (after (.pabt h port tag) s s1)) ∧
  (∀ (h : Hdr) (port : BitVec 2) (tag : BitVec 8) (s s1 : State) (o : Ops) (p : Nat) (far : Bool) (own : Nat) (e : PressEntry),
    Issues (.pabt h port tag) s o s1 → myPress s1 port = some (p, far, own) → newestPact (s1.press p) far tag = some e →
    let i : Instr := .pabt h port tag
    (∀ g, e.state = .half → (s1.press p).halves.find? (fun x => decide (x.far = far) && decide (x.tag = tag)) = some g →
      (∀ t, cancelHalf s1 p g 0x0E (word (tag.toNat + portOfEnd p far * 256 + 2048)) = .ok t → exec i s = .next (after i s t)) ∧
      (∀ core k, bit g.rcd 0 = true → s1.locate g.issuer = some (.slot core k) → bit (s1.thread core k).csr.tnest 0 = false →
        let w := (s1.thread core k).unjoin g.id
        ∃ t, exec i s = .next (after i s t) ∧ (t.press p).halves = (s1.press p).halves.filter (fun x => !(x.id = g.id && x.far = far)) ∧
          (t.press p).queue = (s1.press p).queue ∧ t.mem = s1.mem ∧
          t.thread core k = w.enterTrap 0x0E 0 (word (tag.toNat + portOfEnd p far * 256 + 2048))
            (match w.park with | some x => x.addr | none => w.pc) false false)) ∧
    (∀ t, e.state = .queued ∨ e.state = .susp → cancelPact s1 p e = .ok t → exec i s = .next (after i s t)) ∧
    (e.state = .queued ∨ e.state = .susp → e.delivers = false → ∃ t, exec i s = .next (after i s t) ∧
      (∀ q, ∀ x ∈ (t.press q).queue, x.op.isPact = true → x.gang = e.gang → x.state = .deliver)) ∧
    (e.state = .stream → ∃ t, exec i s = .next (afterHold i s t .press e.id) ∧ t.mem = s1.mem ∧
      (∀ q, (t.press q).queue = (s1.press q).queue.map fun x =>
        if x.gang = e.gang ∧ x.op.isPact = true then { x with abort := true } else x)) ∧
    (e.state = .deliver ∨ e.state = .dfault ∨ e.state = .done ∨ e.state = .cancel → exec i s = .next (after i s s1))) ∧
  (∀ (h : Hdr) (s s1 : State) (o : Ops), Issues (.pord h) s o s1 →
    ∃ t, exec (.pord h) s = .next t ∧ OnlyMine s1 t ∧ t.me.csr.lpr.getLsbD 63 = true ∧
      (∀ k, k ≠ 63 → t.me.csr.lpr.getLsbD k = s1.me.csr.lpr.getLsbD k) ∧ t.me.registers = s1.me.registers ∧
      t.me.csr.tstat = s1.me.csr.tstat)

/-- The single-end commands (R234, R423 to R426): PCLR, PSCL, PRDT, PWRT, PLDS and PSTS enter the press's queue as its last entry, with
their operand, and wait while four entries stand in it; PRDT's destination is empty until the command executes; PLDS and PSTS hold
their image and park on the command. PRDL (R425), of a PMM, a PDSC or a PDGR: the faulted pact's record, with its new destination (a PDGR
keeps its own) and its new barrier, enters the queue as a delivery of its own, under a write hold on the new ranges: the agent's code is
5 for a PDGR, and 4 for the others. -/
def Obligations.PressCommands : Prop :=
  (∀ (i : Instr) (h : Hdr) (op : PressOp) (arg : Word) (port : BitVec 2) (s s1 : State) (o : Ops) (p : Nat) (far : Bool) (own : Nat),
    (∃ slot f64, i = .pclr h port slot f64 ∧ op = .pclr ∧ arg = 0) ∨ (∃ a slot f64, i = .pscl h a port slot f64 ∧ op = .pscl ∧ arg = o.a) ∨
      (∃ a pt, i = .pwrt h a port pt ∧ op = .pwrt ∧ arg = o.a) ∨ (∃ d pt, i = .prdt h d port pt ∧ op = .prdt ∧ arg = 0) →
    Issues i s o s1 → myPress s1 port = some (p, far, own) →
    ((s1.press p).queue.length < 4 → ∃ t e, exec i s = .next (after i s t) ∧
      (t.press p).queue = (s1.press p).queue ++ [e] ∧ e.op = op ∧ e.leadFar = far ∧ e.lead = s1.me.ref ∧ e.opA = arg ∧
      t.mem = s1.mem ∧ (∀ d pt, i = .prdt h d port pt → d.toNat < 23 → t.me.fullG d.toNat = false)) ∧
    (4 ≤ (s1.press p).queue.length → ∃ u, exec i s = .next (afterWait i o s u .pressQueue 0) ∧ u.press p = s1.press p ∧
      u.mem = s1.mem)) ∧
  (∀ (i : Instr) (h : Hdr) (op : PressOp) (a : BitVec 5) (port slot : BitVec 2) (f64 : Bool) (s s1 : State) (o : Ops) (p : Nat)
    (far : Bool) (own : Nat) (s2 : State),
    (i = .plds h a port slot f64 ∧ op = .plds) ∨ (i = .psts h a port slot f64 ∧ op = .psts) →
    Issues i s o s1 → myPress s1 port = some (p, far, own) → (s1.press p).queue.length < 4 →
    register s1.fresh.2 [⟨if op = .plds then 3 else 4, s1.fresh.1, decide (op = .psts),
      spmPA s1.curCore (o.a.toNat % 262144), if f64 then 32768 else 16384, s1.myCtx⟩] = .ok s2 → (s2.press p).queue.length < 4 →
    ∃ t e, exec i s = .next (afterHold i s t .press e.id) ∧ (t.press p).queue = (s2.press p).queue ++ [e] ∧ e.op = op ∧
      e.opA = o.a ∧ t.mem = s2.mem) ∧
  (∀ (h : Hdr) (a b : BitVec 5) (port : BitVec 2) (tag : BitVec 8) (s s1 : State) (o : Ops) (p : Nat) (far : Bool) (own : Nat)
      (e : PressEntry), Issues (.prdl h a b port tag) s o s1 → myPress s1 port = some (p, far, own) →
      faultedPact (s1.press p) far tag = some e → e.op.isPact = true → o.a = sext o.a.toNat 48 → (s1.press p).queue.length < 4 →
      let r := setFld (if e.op = .pmm then setFld e.recA 192 48 o.a.toNat else if e.op = .pdsc then setFld e.recA 92 48 o.a.toNat
        else e.recA) 256 26 (tbField s1 o.b)
      ∀ l s2, rangesPieces s1 s1.curCore s1.myCtx s1.me.user .write
          (redeliverRanges e.op r) = .ok l →
        register s1.fresh.2 (holdsOf (if e.op = .pdgr then 5 else 4) s1.fresh.1 s1.myCtx true (joinPieces l)) = .ok s2 → (s2.press p).queue.length < 4 →
        ∃ t c, exec (.prdl h a b port tag) s = .next (after (.prdl h a b port tag) s t) ∧
          (t.press p).queue = (s2.press p).queue ++ [c] ∧ c.op = .prdl ∧ c.tag = tag ∧ c.recA = r ∧ c.opA = o.a ∧ c.id = e.id ∧ c.gang = s1.fresh.1 ∧ t.mem = s2.mem)

/-- CPY, its remote atomic add, CPYM and GATHR (R193, R194, R429 to R433): a command whose ranges translate and whose holds are taken enters
the vat's engine as its last command, with its record, its issuer, the route that the table gives then (R22; that every transfer starts at the
acceptance is the model's choice, log entry 93) and nothing landed; a range that does not translate traps with its
fault; 32 commands in progress make it wait. -/
def Obligations.CopiesEnter : Prop :=
  ∀ (i : Instr) (h : Hdr) (k : Nat) (b : BitVec 4) (blk : BitVec 384) (s s1 : State) (o : Ops),
    (i = .cpy h blk ∧ k = 0 ∧ b = 0) ∨ (i = .remoteAtomicAdd h blk ∧ k = 0 ∧ b = 0) ∨ (i = .cpym h b blk ∧ k = 1) ∨
      (i = .gathr h blk ∧ k = 2 ∧ b = 0) →
    Issues i s o s1 →
    let c := copyRec o.rcd
    let v := vatOf s1.curCore
    (∀ cause va x, copyXl s1 (copyRanges k c) = .flt cause va x → exec i s = .next (afterTrap s s1 cause va (word x))) ∧
    (∀ l, copyXl s1 (copyRanges k c) = .ok l →
      (32 ≤ (s1.vat v).copies.length → exec i s = .next (afterWait i o s s1 .memory 0)) ∧
      (∀ s2, (s1.vat v).copies.length < 32 → (k = 1 → buffersFree s1 b c = true) →
        register s1.fresh.2 (copyHolds s1 k s1.fresh.1 c l) = .ok s2 → s1.profiled s1.myCtx = false →
        ∃ t cmd, exec i s = .next (after i s t) ∧ (t.vat v).copies = (s2.vat v).copies ++ [cmd] ∧ cmd.kind = k ∧ cmd.rcd = o.rcd ∧
          cmd.issuer = s1.me.ref ∧ cmd.next = 0 ∧ cmd.landed = [] ∧ cmd.route = routeOf s1 c ∧ t.mem = s2.mem) ∧
      (k = 1 → (s1.vat v).copies.length < 32 → buffersFree s1 b c = false →
        exec i s = .next (afterWait i o s s1 .message 0)))

/-- The transaction-barrier instructions (R211, R212, R438 to R441): TBINIT stores a barrier of phase 0; TBARV, TBARX and TBEXP make one
BarUpdate (TBEXP of 0 none), trap PARAM with its code where it is refused, and all four are held in their order while the barrier's crew
has no rectangle or updates held before them have still to be made (R216); an update is traced in a profiled context (R102). That a refused
TBARV, TBARX or TBEXP traps with the code in TAUX after its debit is the model's choice (log entry 61); TBWAIT waits while the phase stands, and TBTRY only asks. BarUpdate (R212),
field by field of the barrier: an arrival on AP = 0 and a sector count above 2^31 − 1 are refused and change nothing; otherwise AP falls
by the arrival and SP moves by the sectors, and when both reach 0 the phase advances and AP reloads from AE. -/
def Obligations.BarrierInstructions : Prop :=
  (∀ (i : Instr) (s s1 s2 : State) (o : Ops) (x : Xl) (core off : Nat), Issues i s o s1 → o.a.toNat % 16 = 0 →
      kindOf x.pa = .spm core off →
      let b := s2.read 0 x.pa 16
      (∀ h ra rb, i = .tbinit h ra rb → heldHere s1 o.a = none → threadAccess s1 o.a 16 .write true = (s2, .ok x) →
        exec i s = .next (after i s ((s2.write x.pa 16 (tbInit o.b.toNat)).madeBar (.thread s2.me.ref)))) ∧
      (threadAccess s1 o.a 16 .write false = (s2, .ok x) → bits b 85 43 = 0 →
        (∀ arr n, (∃ h ra, i = .tbarv h ra ∧ arr = true ∧ n = 0) ∨ (∃ h ra rb, i = .tbarx h ra rb ∧ arr = true ∧ n = o.b.toNat) ∨
            (∃ h ra rb, i = .tbexp h ra rb ∧ arr = false ∧ n = o.b.toNat ∧ n ≠ 0) →
          heldHere s1 o.a = none →
          (∀ t, barUpdate s2 s2.myCtx x.pa arr n = .ok t →
            let w := traceTb s2 s2.myCtx x.pa arr (some (s2.curCore, s2.curSlot)) t
            exec i s = .next (after i s (w.madeBar (.thread w.me.ref)))) ∧
          (∀ code, barUpdate s2 s2.myCtx x.pa arr n = .error code →
            exec i s = .next (afterTrap s (s2.madeBar (.thread s2.me.ref)) 0x19 0 (word code)))) ∧
        (∀ h ra rb, i = .tbexp h ra rb → o.b = 0 → heldHere s1 o.a = none →
          exec i s = .next (after i s (s2.madeBar (.thread s2.me.ref)))) ∧
        (∀ h ra rb, i = .tbwait h ra rb →
          (bits b 0 4 ≠ o.b.toNat → exec i s = .next (after i s s2)) ∧
          (bits b 0 4 = o.b.toNat → exec i s = .next (afterWait i o s s2 .tbar 0))) ∧
        (∀ h pd ra rb, i = .tbtry h pd ra rb → exec i s =
          .next (after i s (s2.modMe fun t => t.result (some 1) [.p pd (decide (bits b 0 4 ≠ o.b.toNat))] 0))))) ∧
  (∀ (i : Instr) (s s1 : State) (o : Ops) (n : Nat), ((∃ h a b, i = .tbinit h a b) ∨ (∃ h a, i = .tbarv h a) ∨
        (∃ h a b, i = .tbarx h a b) ∨ ∃ h a b, i = .tbexp h a b) →
      Issues i s o s1 → heldHere s1 o.a = some n →
      exec i s = .next (afterWait i o s (s1.holdBar n (.thread s1.me.ref)) .memory barKey)) ∧
  (∀ (s : State) (ctx core off pa : Nat) (arr : Bool) (sec : Int), kindOf pa = .spm core off → pa % 16 = 0 →
      let b := s.read 0 pa 16
      let ap := bits b 4 16
      let sp := sint (bits b 36 32) 32
      (arr = true → ap = 0 → barUpdate s ctx pa arr sec = .error 1) ∧
      ((arr = true → ap ≠ 0) → 0 < sec → 2147483647 < sp + sec → barUpdate s ctx pa arr sec = .error 2) ∧
      ((arr = true → ap ≠ 0) → sp + sec ≤ 2147483647 → -2147483648 ≤ sp + sec →
        ∃ t, barUpdate s ctx pa arr sec = .ok t ∧
          let b' := t.read 0 pa 16
          (ap - (if arr then 1 else 0) = 0 ∧ sp + sec = 0 →
            bits b' 0 4 = (bits b 0 4 + 1) % 16 ∧ bits b' 4 16 = bits b 20 16 ∧ bits b' 36 32 = 0) ∧
          (¬ (ap - (if arr then 1 else 0) = 0 ∧ sp + sec = 0) →
            bits b' 0 4 = bits b 0 4 ∧ bits b' 4 16 = ap - (if arr then 1 else 0) ∧ sint (bits b' 36 32) 32 = sp + sec) ∧
          bits b' 20 16 = bits b 20 16 ∧ bits b' 68 16 = bits b 68 16 ∧ bits b' 84 1 = bits b 84 1))

/-! ## Control registers, traps and system instructions -/

/-- CSRW and CSRSC (R442, R443): the CSR takes the value under the field access of its map, every other CSR reads as before (but the
balance, which a lower cap cuts), and CSRSC gives D the old value. -/
def Obligations.CsrWrites : Prop :=
  ∀ (i : Instr) (h : Hdr) (a : BitVec 5) (n : BitVec 12) (s s1 : State) (o : Ops) (v : Word) (give : State → State),
    (i = .csrw h a n ∧ v = o.a ∧ give = fun t => t) ∨
      (∃ d, i = .csrscSet h d a n ∧ v = csrRead s1 n.toNat ||| o.a ∧ giveWait s1 d = none ∧
        give = fun t => giveG t (some 1) d (csrRead s1 n.toNat) 0) ∨
      (∃ d, i = .csrscClr h d a n ∧ v = csrRead s1 n.toNat &&& ~~~o.a ∧ giveWait s1 d = none ∧
        give = fun t => giveG t (some 1) d (csrRead s1 n.toNat) 0) →
    Issues i s o s1 →
    let c := s1.me.csr
    let m : Word := if c.tstat.getLsbD 0 then 0x2A else 0x28
    ∃ t, exec i s = .next (after i s (give t)) ∧ t.mem = s1.mem ∧ t.me.registers = s1.me.registers ∧ t.me.full = s1.me.full ∧
      (∀ k, k ≠ n.toNat → (n = 0x00D → k ≠ 0x00B) → csrRead t k = csrRead s1 k) ∧
      csrRead t n.toNat =
        (if n = 0x000 then (c.tstat &&& ~~~m) ||| (v &&& m)
        else if n = 0x002 then v &&& 0x1FF
        else if n = 0x005 then v &&& 1
        else if n = 0x006 ∨ n = 0x007 ∨ n = 0x008 then v &&& 0xFFFFFFFFFFFFFFC7
        else if n = 0x009 then v &&& 0x6DFFFFA
        else if n = 0x00A then v &&& 0x7F
        else if n = 0x00B then word (min (v.toNat % 2 ^ 40) (c.ecap.toNat % 2 ^ 40))
        else if n = 0x00C then v &&& 0xFFFFFF
        else if n = 0x00D then v &&& 0xFFFFFFFFFF
        else if n = 0x010 ∨ n = 0x011 then v &&& 0xFFFFF
        else if n = 0x100 then v &&& 3
        else v) ∧
      (n = 0x00D → csrRead t 0x00B = word (min (c.ebud.toNat % 2 ^ 40) (v.toNat % 2 ^ 40)))

/-- An ILL opcode traps with ILLOP, reason 0, at its own address (R301, R302). What U may not do (R142, R145, R305, R442): the S-only opcodes and the CSRs that U may not reach, or not write, trap with PRIV before
anything is read; a write to a CSR that no level may write traps with ILLOP, reason 2. -/
def Obligations.IllegalAndPrivileged : Prop :=
  (∀ s : State, exec .ill s = .next (takeTrap s s.curCore s.curSlot 1 s.me.pc 0 s.me.pc false false)) ∧
  (∀ (i : Instr) (h : Hdr) (a b : BitVec 5) (s : State),
    i = .tlbi h a ∨ i = .tlbiOne h a b ∨ i = .ctxsw h a b ∨ i = .halt h → s.me.csr.tstat.getLsbD 0 = false →
    exec i s = .next (takeTrap s s.curCore s.curSlot 2 0 0 s.me.pc false false)) ∧
  (∀ (h : Hdr) (d : BitVec 5) (n : BitVec 12) (s : State), n = 0x006 ∨ n = 0x102 ∨ n = 0x104 → s.me.csr.tstat.getLsbD 0 = false →
    exec (.csrr h d n) s = .next (takeTrap s s.curCore s.curSlot 2 0 (n.setWidth 64) s.me.pc false false)) ∧
  (∀ (i : Instr) (h : Hdr) (d a : BitVec 5) (n : BitVec 12) (s : State),
    i = .csrw h a n ∨ i = .csrscSet h d a n ∨ i = .csrscClr h d a n →
    (n = 0x006 ∨ n = 0x102 ∨ n = 0x104 ∨ n = 0x00B ∨ n = 0x00C ∨ n = 0x00D ∨ n = 0x00E ∨ n = 0x100 →
      s.me.csr.tstat.getLsbD 0 = false →
      exec i s = .next (takeTrap s s.curCore s.curSlot 2 0 (n.setWidth 64) s.me.pc false false)) ∧
    (n = 0x00F ∨ n = 0x101 ∨ n = 0x103 ∨ (n = 0x102 ∨ n = 0x104) ∧ s.me.csr.tstat.getLsbD 0 = true →
      exec i s = .next (takeTrap s s.curCore s.curSlot 1 s.me.pc 2 s.me.pc false false)))

/-- Taking a trap (R171): TPC, TCAUSE, TADDR and TAUX are written, PPRV takes PRV and TNEST is set; a cause that TDLG delegates keeps a
U-level thread at U and goes to UVEC, every other one raises it to S and goes to TVEC; a light thread becomes heavy (R168), and
nothing else changes. A trap with TNEST set (R97, R87): the freeze is recorded in the black box as event 0x05 of the slot's core, and the
graph ends. -/
def Obligations.TrapEntry : Prop :=
  (∀ (s : State) (core slot cause : Nat) (addr aux tpc : Word) (pm async : Bool),
      let t := s.thread core slot
      t.csr.tnest.getLsbD 0 = false →
      ∃ u, (takeTrap s core slot cause addr aux tpc pm async).thread core slot = u ∧
        u.csr.tpc = tpc ∧ u.csr.tcause = word (cause + if async then 256 else 0) ∧ u.csr.taddr = addr ∧ u.csr.taux = aux ∧
        u.csr.tnest.getLsbD 0 = true ∧ u.csr.tstat.getLsbD 1 = t.csr.tstat.getLsbD 0 ∧ u.csr.tstat.getLsbD 4 = pm ∧
        ((t.csr.tdlg &&& 0x6DFFFFA).getLsbD cause = true → t.csr.tstat.getLsbD 0 = false →
          u.pc = t.csr.uvec ∧ u.csr.tstat.getLsbD 0 = false) ∧
        ((t.csr.tdlg &&& 0x6DFFFFA).getLsbD cause = false ∨ t.csr.tstat.getLsbD 0 = true →
          u.pc = t.csr.tvec ∧ u.csr.tstat.getLsbD 0 = true) ∧
        (∀ k, k ≠ 0 → k ≠ 1 → k ≠ 4 → u.csr.tstat.getLsbD k = t.csr.tstat.getLsbD k) ∧
        u.entry = true ∧ u.park = none ∧ u.light = false ∧ u.notify = t.notify ∧ u.occ = t.occ ∧
        (t.light = false → u.registers = t.registers ∧ u.full = t.full) ∧
        (t.light = true → (∀ k, k < 10 → u.g[k]? = t.g[k]?) ∧ (∀ k, 10 ≤ k → k < 23 → u.g[k]? = some 0 ∧ u.isFull k = true)) ∧
        (takeTrap s core slot cause addr aux tpc pm async).mem = s.mem ∧
        ∀ c k, c * 8 + k ≠ core * 8 + slot → (takeTrap s core slot cause addr aux tpc pm async).thread c k = s.thread c k) ∧
  (∀ (s : State) (core slot cause : Nat) (addr aux tpc : Word) (pm async : Bool) (c : Ctx) (cr : Crew),
      let t := s.thread core slot
      t.csr.tnest.getLsbD 0 = true → s.crew? t.ref.crew = some cr → s.ctx? cr.ctx = some c →
      let u := takeTrap s core slot cause addr aux tpc pm async
      u.graph? cr.graph = none ∧ ∃ r, u.mgmt.blackbox.head? = some r ∧ fld r 72 8 = 5 ∧ fld r 32 32 = core % 2 ^ 32)

/-- TRAP and SYSC (R444): each debits one unit, and then traps with TADDR 0, the value in TAUX and TPC at the next instruction; the
debit comes first, so a budget stall or EBIG does too; SYSC enters at TVEC at S whatever TDLG says. -/
def Obligations.TrapAndSysc : Prop :=
  (∀ (i : Instr) (h : Hdr) (n : BitVec 12) (cause : Nat) (s s1 : State) (o : Ops),
    (i = .trap h n ∧ cause = 0x14) ∨ (i = .sysc h n ∧ cause = 0x15) → Issues i s o s1 →
    exec i s = .next (takeTrap s1 s.curCore s.curSlot cause 0 (n.setWidth 64) (nextPC s.me.pc 1 false) false false) ∧
    s1 = s.modMe (fun t => { t with csr := { t.csr with ebud := t.csr.ebud - word (fld s.me.csr.ecost (16 * h.e.toNat) 16) }, carry := none })) ∧
  (∀ (i : Instr) (h : Hdr) (n : BitVec 12) (s : State), i = .trap h n ∨ i = .sysc h n →
    s.me.pStop h.g = none → s.me.getP h.g.toNat ≠ h.n →
    let c := fld s.me.csr.ecost (16 * h.e.toNat) 16
    (c > fld s.me.csr.ecap 0 40 →
      exec i s = .next (takeTrap s s.curCore s.curSlot 0x12 0 (word c) s.me.pc false false)) ∧
    (c ≤ fld s.me.csr.ecap 0 40 → fld s.me.csr.ebud 0 40 < c →
      ∃ t, exec i s = .next t ∧ (t.me.park.map fun p => p.why) = some .budget ∧ t.me.pc = s.me.pc)) ∧
  (∀ (h : Hdr) (n : BitVec 12) (s s1 : State) (o : Ops), Issues (.sysc h n) s o s1 → s.me.csr.tnest.getLsbD 0 = false →
    ∃ t, exec (.sysc h n) s = .next t ∧ t.me.pc = s.me.csr.tvec ∧ t.me.csr.tstat.getLsbD 0 = true ∧
      t.me.csr.tpc = nextPC s.me.pc 1 false ∧ t.me.csr.tcause = 0x15 ∧ t.me.csr.taddr = 0 ∧ t.me.csr.taux = n.setWidth 64)

/-- RFT (R445): at U with PPRV at S it traps with PRIV; otherwise the privilege comes from PPRV, NEST and PM are cleared, and the thread
goes on at TPC without a target check; notify mode and the mode of the thread stay as they are, and nothing else changes. That the refusal at U is a trap at issue, before the debit, is the model's choice (log entry
60). -/
def Obligations.RftReturns : Prop :=
  (∀ (h : Hdr) (s : State), s.me.light = false → s.me.pStop h.g = none → s.me.getP h.g.toNat ≠ h.n →
    s.me.csr.tstat.getLsbD 0 = false → s.me.csr.tstat.getLsbD 1 = true →
    exec (.rft h) s = .next (takeTrap s s.curCore s.curSlot 2 0 0 s.me.pc false false)) ∧
  (∀ (h : Hdr) (s s1 : State) (o : Ops), Issues (.rft h) s o s1 →
    ∃ t, exec (.rft h) s = .next t ∧ OnlyMine s1 t ∧ t.me.pc = s1.me.csr.tpc ∧
      t.me.csr.tstat.getLsbD 0 = s1.me.csr.tstat.getLsbD 1 ∧ t.me.csr.tstat.getLsbD 4 = false ∧
      (∀ k, k ≠ 0 → k ≠ 4 → t.me.csr.tstat.getLsbD k = s1.me.csr.tstat.getLsbD k) ∧ t.me.csr.tnest.getLsbD 0 = false ∧
      t.me.registers = s1.me.registers ∧ t.me.full = s1.me.full ∧ t.me.notify = s1.me.notify ∧ t.me.light = s1.me.light ∧
      t.me.entry = false)

/-- TRC, LUTLD, TLBI and its single-address form (R179, R450 to R452): TRC appends its record to the profile ring and touches no thread;
LUTLD loads the crew's T4 table of the core from 16 bytes of the own scratchpad; a TLBI waits, and when it completes no TLB holds
a translation that it names, every translation of another ASID stays, and what the engines have in flight, or a seal's snapshot keeps,
translates again (R180). -/
def Obligations.TablesAndTranslations : Prop :=
  (∀ (h : Hdr) (a : BitVec 5) (tag : BitVec 16) (s s1 : State) (o : Ops), Issues (.trc h a tag) s o s1 →
    ∃ t, exec (.trc h a tag) s = .next (after (.trc h a tag) s t) ∧
      t = trace s1 s1.myCtx 7 tag.toNat (o.a.toNat % 2 ^ 32) s1.curCore s1.curSlot ∧ t.threads = s1.threads ∧
      (s1.profiled s1.myCtx = false → t = s1)) ∧
  (∀ (h : Hdr) (a : BitVec 5) (s s1 s2 : State) (o : Ops) (x : Xl), Issues (.lutld h a) s o s1 →
    threadAccess s1 o.a 16 .read true = (s2, .ok x) →
    ∃ t, exec (.lutld h a) s = .next (after (.lutld h a) s t) ∧ t.mem = s1.mem ∧ t.threads = s2.threads ∧
      ∀ c, s2.crew? s2.me.ref.crew = some c →
        (t.crewCore s2.me.ref.crew s2.me.ref.lcore).t4 = BitVec.ofNat 128 (s2.read (dieOf s2.curCore) x.pa 16)) ∧
  (∀ (i : Instr) (h : Hdr) (a b : BitVec 5) (s s1 : State) (o : Ops) (hit : TlbEntry → Bool),
    (i = .tlbi h a ∧ hit = fun (e : TlbEntry) => decide (e.asid = o.a.toNat)) ∨
      (i = .tlbiOne h a b ∧ hit = fun (e : TlbEntry) => e.asid = o.a.toNat && e.va ≤ o.b.toNat && o.b.toNat < e.va + e.size) →
    Issues i s o s1 →
    (s1.waited = false → exec i s = .next (afterWait i o s s1 .system 0)) ∧
    (s1.waited = true → ∃ t, exec i s = .next (after i s t) ∧ t.mem = s1.mem ∧
      (∀ c k, (t.thread c k).registers = (s1.thread c k).registers ∧ (t.thread c k).full = (s1.thread c k).full ∧
        (t.thread c k).csr = (s1.thread c k).csr ∧ (t.thread c k).pc = (s1.thread c k).pc) ∧
      (∀ v ∈ t.vats, ∀ x ∈ v.2.copies, x.retrans = true) ∧ (∀ p ∈ t.presses, ∀ x ∈ p.2.queue, x.retrans = true) ∧
      (∀ x ∈ t.hub.copies, x.retrans = true) ∧ (∀ c ∈ t.ctxs, ∀ p, c.2.snap = some p → ∀ e ∈ p.crews, ∀ v, e.2.saved = some v →
        ∀ x ∈ v.copies, x.retrans = true) ∧
      (∀ c ∈ t.cores, ∀ e ∈ c.2.tlb, hit e = false) ∧ (∀ v ∈ t.vats, ∀ e ∈ v.2.tlb, hit e = false) ∧
      (∀ c ∈ s1.cores, ∀ e ∈ c.2.tlb, hit e = false → ∃ d ∈ t.cores, d.1 = c.1 ∧ e ∈ d.2.tlb) ∧
      (∀ v ∈ s1.vats, ∀ e ∈ v.2.tlb, hit e = false → ∃ d ∈ t.vats, d.1 = v.1 ∧ e ∈ d.2.tlb)))

/-- CTXSW, CKPT, HALT and FENCEO (R453 to R456): CTXSW exchanges the slot and the named closet entry, once the slot's results are
written and neither place is fenced or unpowered, and traps where the named entry has come to hold another slot's context; CKPT waits for the seal of the interval that was open, and does nothing in a context without checkpointing; HALT halts the
thread, sets its vat's HALTED and writes event 0x0E where debug is enabled, and otherwise does nothing; FENCEO waits for the seal and then for the acknowledgements. -/
def Obligations.SwapsAndFences : Prop :=
  (∀ (h : Hdr) (a b : BitVec 5) (s s1 : State) (o : Ops), Issues (.ctxsw h a b) s o s1 →
    let k := o.a.toNat
    let e := o.b.toNat % 32
    let cur := s1.thread s1.curCore k
    (ctxswOk o s1 = false → exec (.ctxsw h a b) s = .next (afterTrap s s1 0x0B 0 0)) ∧
    (ctxswOk o s1 = true → (cur.occ = true ∧ cur.pend ≠ []) ∨ swapWaits s1 s1.curCore k (ctxswEntry o s1) = true →
      exec (.ctxsw h a b) s = .next (afterWait (.ctxsw h a b) o s s1 .system 0)) ∧
    (ctxswOk o s1 = true → o.b.getLsbD 63 = false → swapWaits s1 s1.curCore k e = false → (cur.occ = false ∨ cur.pend = []) →
      ∃ t, exec (.ctxsw h a b) s = .next (after (.ctxsw h a b) s t) ∧ t.mem = s1.mem ∧
        (∀ x, s1.closetAt s1.curCore e = some x → t.thread s1.curCore k = { x.th with line := none }) ∧
        (s1.closetAt s1.curCore e = none → cur.occ = true → t.thread s1.curCore k = cur.vacate) ∧
        (s1.closetAt s1.curCore e = none → cur.occ = false → t.thread s1.curCore k = cur) ∧
        (cur.occ = true → (t.closetAt s1.curCore e).map (·.th) = some { cur with line := none }) ∧
        (cur.occ = false → t.closetAt s1.curCore e = none) ∧
        ∀ c j, c * 8 + j ≠ s1.curCore * 8 + k → t.thread c j = s1.thread c j)) ∧
  (∀ (h : Hdr) (s s1 : State) (o : Ops), Issues (.ckpt h) s o s1 →
    (unsealed o s1 = true → exec (.ckpt h) s = .next (afterWait (.ckpt h) o s (s1.wantSeal s1.myCtx) .system 0)) ∧
    (s1.ckpts s1.myCtx = false → exec (.ckpt h) s = .next (after (.ckpt h) s s1))) ∧
  (∀ (h : Hdr) (s s1 : State) (o : Ops), Issues (.halt h) s o s1 →
    (s1.mgmt.dbgen = false → exec (.halt h) s = .next (after (.halt h) s s1)) ∧
    (s1.mgmt.dbgen = true → ∃ t, exec (.halt h) s = .next (after (.halt h) s t) ∧ t.mem = s1.mem ∧ t.me.halted = true ∧
      t.me.registers = s1.me.registers ∧ t.me.full = s1.me.full ∧ t.me.csr = s1.me.csr ∧
      (t.vat (vatOf s1.curCore)).dbgctl.getLsbD 0 = true ∧
      (∃ r, t.mgmt.blackbox.head? = some r ∧ fld r 72 8 = 0x0E ∧ fld r 32 32 = vatOf s1.curCore % 2 ^ 32) ∧
      ∀ c k, c * 8 + k ≠ s1.curCore * 8 + s1.curSlot → t.thread c k = s1.thread c k)) ∧
  (∀ (h : Hdr) (s s1 : State) (o : Ops), Issues (.fenceo h) s o s1 →
    (unsealed o s1 = true → exec (.fenceo h) s = .next (afterWait (.fenceo h) o s (s1.wantSeal s1.myCtx) .system 0)) ∧
    (unsealed o s1 = false → s1.me.unacked ≠ 0 ∨ copiesOut s1 s1.me.ref = true →
      exec (.fenceo h) s = .next (afterWait (.fenceo h) o s s1 .system 0)) ∧
    (unsealed o s1 = false → s1.me.unacked = 0 → copiesOut s1 s1.me.ref = false →
      exec (.fenceo h) s = .next (after (.fenceo h) s s1)))

/-! ## The machine as a whole -/

/-- A step runs the decoded instruction: where a slot's turn comes, the clocks run, the slot's thread has its turn with nothing due before
the next instruction, its code is its own (not the default movement routine, R164), and the line at its PC (the one it holds, or the one that memory holds) decodes to a single instruction there,
which is no second member of a pair (but an EXIT may be, log entry 121), the step is exec of that instruction on the state at the turn; one whose checks pass first uses up a step of a debug halt, and arms the
breakpoint. -/
def Obligations.StepRunsDecoded : Prop :=
  ∀ (s u v : State) (dt core slot : Nat) (r : List Act) (img : LineImg) (i : Instr) (b : Body),
    s.agenda = .turn dt core slot :: r → s.mgmt.stopped = false →
    let w : State := { elapse { s with agenda := r } dt with curCore := core, curSlot := slot }
    w.me.occ = true → u = w.modMe Thread.tick → u.hasTurn = true → u.me.skip = 0 → u.me.trapDue = false →
    u.me.divertible = false → u.me.park = none → u.inMover = false →
    (u.me.line = some (lineOf u.me.pc, img) ∧ u.me.entry = false ∧ v = u) ∨
      (u.me.line = none ∧ ∃ u2, enterLine u core u.myCtx u.me.user u.me.entry u.me.pc = (u2, .ok img) ∧
        v = u2.modMe fun t => { t with line := some (lineOf t.pc, img), entry := false }) →
    linePair img (slotOf v.me.pc) = false →
    badSlots img (if linePL img then [0, 1, 2, 3, 4] else [slotOf v.me.pc]) = 0 →
    xBitOk img (slotOf v.me.pc) = true → lateMember img (slotOf v.me.pc) = false ∨ isExit i = true →
    decodeSlot img (slotOf v.me.pc) = .ok i → bodyOf i = some b →
    step s = exec i (match b.accept v with | .ok _ => beginTurn v v.me.pc 1 | .error _ => v)

/-- Words written out from the spec's encodings decode to the instructions they stand for (R291 to R304, Tables 13.4 to 13.16 and the
encoding tables of the instruction files). -/
def Obligations.DecodeWords : Prop :=
  decodeTableWord 96 0x010000000000000000000000 = some (.nop Hdr.zero) ∧
  decodeTableWord 96 0x020003088000000000000000 = some (.add Hdr.zero 3 1 2) ∧
  decodeTableWord 96 0x230001000000000000000005 = some (.movi Hdr.zero 1 5) ∧
  decodeTableWord 96 0x2A0003100002FFFFFFFFFFFB = some (.cmpi Hdr.zero 3 2 2 0xFFFFFFFFFFFB) ∧
  decodeTableWord 96 0x330003004411000000000000 = some (.ffma Hdr.zero 3 0 1 2 1 2) ∧
  decodeTableWord 96 0x470000000000000000000000 = some (.exit Hdr.zero) ∧
  decodeTableWord 96 0x50000110C016000000000010 = some (.ld Hdr.zero 1 2 3 2 true 2 16) ∧
  decodeTableWord 96 0x60000429800A000000000008 = some (.afadd Hdr.zero 4 5 6 2 1 8) ∧
  decodeTableWord 96 0x9F0001088001000000000002 = some (.vcmp Hdr.zero 1 1 2 1 0 2) ∧
  decodeTableWord 96 0xAD0001180009000000000000 = some (.vred Hdr.zero 1 3 0 1 1 0) ∧
  decodeTableWord 480 0xC00020000000000000000003 = some (.pmm Hdr.zero 0 3 0) ∧
  decodeTableWord 96 0xC30000000000000000000005 = some (.pwait Hdr.zero 0 5) ∧
  decodeTableWord 96 0xC5000000001B000000000000 = some (.pclr Hdr.zero 3 2 true) ∧
  decodeTableWord 96 0xD60000088000000000000000 = some (.tbarx Hdr.zero 1 2) ∧
  decodeTableWord 96 0xE00004000000000000000004 = some (.csrr Hdr.zero 4 4) ∧
  decodeTableWord 96 0xE20005100000000000000009 = some (.csrscSet Hdr.zero 5 2 9) ∧
  decodeTableWord 96 0xE30000000000000000000005 = some (.trap Hdr.zero 5) ∧
  decodeTableWord 96 0x000000000000000000000000 = none ∧ decodeTableWord 96 0x010001000000000000000000 = none

/-- Decoding the words of a well-formed instruction gives it back, whatever its operands (R291 to R304). -/
def Obligations.EncodeDecode : Prop :=
  ∀ (i : Instr) (sl : Slot) (blk : Block), encode i = some (sl, blk) → i.WellFormed → decode sl blk = .ok i

/-- The opcodes that take a parameter block and the X bit (R303): a slot's X bit is right exactly when it is 1 for one of the seven opcodes
in slot 0 of a line with PL = 1, or 0 for every other opcode anywhere else; a slot whose X bit is not right holds no instruction, and
its ILLOP reason is 5. -/
def Obligations.ParameterBlocks : Prop :=
  ∀ (l : LineImg) (a : Word) (k : Nat),
    let f := Fields.unpack (lineSlot l k)
    let takes := f.op = 0xC0 ∨ f.op = 0xC1 ∨ f.op = 0xC2 ∨ f.op = 0xD0 ∨ f.op = 0xD1 ∨ f.op = 0xD2 ∨ f.op = 0x70
    (xBitOk l k = true ↔ (takes ∧ f.x = true ∧ k = 0 ∧ linePL l = true) ∨ (¬takes ∧ f.x = false ∧ ¬(k = 0 ∧ linePL l = true))) ∧
    (xBitOk l k = false → memberOf l a k = .error 5)

/-- The registers with fixed values (R156): z reads 0, p0 reads 1 and m0 reads 0xFFFF and is always full, and writes to them are
discarded; y0 to y3 exist per slot, and outside a notify handler specifiers 10 to 13 name h0 to h3, and no general specifier reaches y0
to y3. -/
def Obligations.ConstantRegisters : Prop :=
  (∀ t : Thread, t.getG 23 = 0 ∧ t.getP 0 = true ∧ t.predWord.getLsbD 0 = true ∧ t.getM 0 = 0xFFFF ∧ t.mStop 0 = none ∧
    t.gStop 23 = none ∧ t.pStop 0 = none) ∧
  (∀ (t : Thread) (v : Word) (m : Mask) (p : Bool),
    t.writeReg (.g 23 v) = t ∧ t.writeReg (.m 0 m) = t ∧ t.writeReg (.p 0 p) = t) ∧
  (∀ (t : Thread) (r : BitVec 5) (v : Word), t.notify = false → r.toNat < 23 →
    t.getG r.toNat = vget t.g r.toNat 0 ∧ t.destG r v = .g r v ∧ (t.writeReg (t.destG r v)).y = t.y) ∧
  (∀ (s : State) (c k c' k' : Nat) (t : Thread), c * 8 + k ≠ c' * 8 + k' → ((s.setThread c k t).thread c' k').y = (s.thread c' k').y)

/-- Every step of every state answers a next state: no instruction and no event of the machine faults, and none is refused. -/
def Obligations.EveryStepAnswers : Prop := ∀ s : State, Safe s

/-- What a thermal trip stops stays stopped until a cold reset (R34): every step of a state in which the clocks have stopped under
THERMTRIP_N, and whose outside does not bring a cold reset, leads to such a state, and DEVTIME does not go back. -/
def Obligations.OnlyColdResetRestarts : Prop :=
  ∀ s t : State, Tripped s → step s = .next t → Tripped t ∧ s.devtime ≤ t.devtime

/-- Every step keeps memory in its canonical form: addresses rise strictly, and no listed byte is what an unlisted address reads as, so that
equal memories are equal data (the model's own form; what an unlisted byte reads as is its choice, log entry 1). -/
def Obligations.MemoryStaysCanonical : Prop :=
  ∀ s t : State, Memory.wf s.mem = true → step s = .next t → Memory.wf t.mem = true

/-- The state right after the cold reset (R32, R78, Tables 1.4 to 1.7, 2.4 to 2.8, 4.11, 6.2 to 6.13, 10.4, 10.5 and 19.2 to 19.8): no
context, no crew and no thread; the registers that the spec gives a reset value hold it, and memory lists nothing. What the general,
vector, mask and predicate registers and TVEC, UVEC and NVEC hold in a slot without a thread is the model's choice (log entry 4). -/
def Obligations.ResetState : Prop :=
  Memory.wf State.reset.mem = true ∧ State.reset.mem = [] ∧ State.reset.ctxs = [] ∧ State.reset.crews = [] ∧
  State.reset.devtime = 0 ∧ State.reset.hub.ready = false ∧ State.reset.hub.pkgid = 0 ∧ State.reset.mgmt.blackbox = [] ∧
  State.reset.power.drpctl = 0xF80C8 ∧ State.reset.power.level = 7 ∧ State.reset.power.ceil = 7 ∧ State.reset.power.eceil = 7 ∧
  State.reset.power.lost = true ∧ State.reset.power.therm = 0x5F69 ∧
  (∀ c k, let t := State.reset.thread c k
    t.occ = false ∧ t.csr.tstat = 0 ∧ t.csr.tnest = 0 ∧ t.csr.tdlg = 0 ∧ t.csr.fcsr = 0 ∧ t.csr.eref = 0 ∧ t.csr.ecost = 0 ∧
    t.csr.ecap = 0xFFFFFFFFFF ∧ t.csr.lpr = 0x8000000000000000 ∧ t.csr.sndtmo = 100 ∧ t.csr.pactmo = 1000 ∧
    t.g = Vector.replicate 23 0 ∧ t.csr.tvec = 0) ∧
  (∀ v, (State.reset.vat v).dbgctl = 0 ∧ (State.reset.vat v).copies = []) ∧
  (∀ q, (State.reset.queue q).state = .off ∧ (State.reset.queue q).ringcfg = 0)

/-! ## The steps of the other agents, and the inputs from outside -/

/-- Following the power shelf (R26 to R30, R133 to R139, R143): a frame that breaks R27's rules counts as FRAMERR, one whose CRC differs as
CRCERR, a repeated sequence number changes nothing, and any other frame is accepted and makes an evaluation due; 1 ms without one is
a loss; an evaluation takes a lower level at once, and CEIL from LVL at the level; ECEIL follows CEIL down at once and up by one step a
millisecond; the counters clear when the host reads PSTPST, which it does once its link is up (R32). Every µs boundary refills the budgets, up to ECAP. That a
repeated sequence number with a wrong CRC counts as CRCERR is the model's choice (log entry 69). -/
def Obligations.PowerFollows : Prop :=
  (∀ (f : BitVec 128) (idle : Nat) (clean : Bool) (s : State), s.power.due = none → s.power.dueLost = false →
    let broken := idle < 20 ∨ f.toNat % 256 ≠ 0xA5 ∨ clean = false
    let crcOk := crc16 ((List.range 14).map fun i => f.toNat / 2 ^ (8 * i) % 256) = f.toNat / 2 ^ 112 % 256 * 256 + f.toNat / 2 ^ 120
    let seq := f.toNat / 2 ^ 8 % 256
    let flags := f.toNat / 2 ^ 48 % 256
    (broken → exec (.pstpFrame f idle clean) s = .next (s.modPower fun p => { p with framerr := min 255 (p.framerr + 1) })) ∧
    (¬broken → ¬crcOk → exec (.pstpFrame f idle clean) s = .next (s.modPower fun p => { p with crcerr := min 255 (p.crcerr + 1) })) ∧
    (¬broken → crcOk → s.power.lastSeq = some seq → exec (.pstpFrame f idle clean) s = .next s) ∧
    (¬broken → crcOk → s.power.lastSeq ≠ some seq →
      ∃ t, exec (.pstpFrame f idle clean) s = .next t ∧ t.power.lastSeq = some seq ∧ t.power.lastFrame = s.devtime ∧
        t.power.lost = false ∧ t.power.due.isSome ∧ t.power.batt = flags.testBit 1 ∧
        t.power.lastFdev.toNat = f.toNat / 2 ^ 16 % 256 * 256 + f.toNat / 2 ^ 24 % 256 ∧
        t.power.lastVbus.toNat = f.toNat / 2 ^ 32 % 256 * 256 + f.toNat / 2 ^ 40 % 256 ∧
        t.power.missed = min 255 (s.power.missed + match s.power.lastSeq with | some l => (seq + 511 - l) % 256 | none => 0) ∧
        t.mgmt.slStarted = (s.mgmt.slStarted || flags.testBit 0))) ∧
  (∀ s : State, s.power.lost = false → s.power.lastFrame + 1000000 ≤ s.devtime →
    ∃ t r, exec .telemetryLost s = .next t ∧ t.power.lost = true ∧ t.power.dueLost = true ∧ t.mgmt.blackbox.head? = some r ∧
      fld r 72 8 = 0x0F) ∧
  (∀ (s : State) (skip : Bool), s.power.dueLost = false → s.power.due = some skip →
    ∃ t, exec .droopEvaluation s = .next t ∧ t.power.due = none ∧
      (t.power.raw < s.power.level → t.power.level = t.power.raw) ∧ (t.power.raw = s.power.level → t.power.level = s.power.level) ∧
      (s.power.level < t.power.raw → skip = false → s.power.rise < 2 → t.power.level = s.power.level) ∧
      t.power.ceil = fld (vget s.power.lvl t.power.level 0) 0 3 ∧ (t.power.ceil < s.power.eceil → t.power.eceil = t.power.ceil)) ∧
  (∀ (s : State) (a : Nat), s.power.stepAt = some a → a ≤ s.devtime → s.power.eceil < s.power.ceil →
    ∃ t, exec .eceilStep s = .next t ∧ t.power.eceil = s.power.eceil + 1 ∧
      t.power.stepAt = if s.power.eceil + 1 < s.power.ceil then some (a + 1000000) else none) ∧
  (∀ s : State, exec .pstpstRead s = .next (if s.hostLink then s.modPower fun p => { p with missed := 0, crcerr := 0, framerr := 0 }
    else s)) ∧
  (∀ s : State, ∃ t, exec .energyRefill s = .next t ∧ t.devtime = (s.devtime / 1000 + 1) * 1000 ∧ t.mem = s.mem ∧
    ∀ core slot, slot < 8 →
      let th := s.thread core slot
      th.ref.crew ≠ 0 → th.halted = false → s.fenceWait core slot th = false → s.shedParked th.ref.crew = false →
      (t.thread core slot).csr.ebud = word (min (fld th.csr.ecap 0 40)
        (fld th.csr.ebud 0 40 + fld th.csr.eref 0 24 * fld (vget s.power.lvlEff s.power.level 0) 8 8 / 100))) ∧
  (∀ s : State, ∃ t, exec .wsRefreshWindow s = .next t ∧ t.devtime = (s.devtime / 500 + 1) * 500 ∧ t.mem = s.mem)

/-- Sensors, thermal limits, operating points and sleep (R34, R77, R144 to R146): a sample is the point's reading, and one of 115 °C of a core
or a DRAM layer makes a trip due, whatever is read after it; ten hot samples of a core lower its quad's cap by one point, and 1 ms cool
raises it; a DRAM layer above DLIM is throttled until 1 ms after the first sample from which it has been cool; the trip stops every
clock but the management's; a quad's point is the highest that is wanted, under its cap; a core with nothing to do sleeps at the depth of
SLEEPD, or at depth 1 beside halted slots, and wakes after the latency of its depth. The numbers of the sensor kinds (log entry
18) and the wake of a core at depth 2 or 3 for another agent's access (log entry 104) are the model's choices. -/
def Obligations.ThermalAndSleep : Prop :=
  (∀ (kind idx : Nat) (v : BitVec 16) (s : State), idx < [4096, 1024, 1024, 32, 4, 1].getD kind 0 →
    ∃ t, exec (.sensorSample kind idx v) s = .next t ∧ t.threads = s.threads ∧ t.mem = s.mem ∧
      Tbl.find t.mgmt.sensors (kind * 65536 + idx) = some v ∧
      (s.mgmt.tripDue = none → kind = 0 ∧ 460 ≤ v.toInt ∨ kind = 3 ∧ 230 ≤ v.toInt → t.mgmt.tripDue = some (kind, idx)) ∧
      (∀ x, s.mgmt.tripDue = some x → t.mgmt.tripDue = some x) ∧
      (kind = 0 → (t.core idx).temp = v.toInt.toNat ∧
        (t.core idx).hot = if 4 * (s.power.therm.toNat % 256) < v.toInt.toNat then (s.core idx).hot + 1 else 0) ∧
      (∀ x, kind = 3 → Tbl.find s.power.throttled idx = some x → Tbl.find t.power.throttled idx =
        some (if 2 * (s.power.therm.toNat / 256 % 256 - 5) < v.toInt.toNat then none else some (x.getD s.devtime)))) ∧
  (∀ (core : Nat) (s : State), 10 ≤ (s.core core).hot →
    ∃ t, exec (.thermalCapDrop core) s = .next t ∧ (t.core core).hot = 0 ∧ t.cap (quadOf core) = pointDown (s.cap (quadOf core)) ∧
      t.threads = s.threads ∧ t.mem = s.mem) ∧
  (∀ (quad since : Nat) (s : State), Tbl.find s.power.coolSince quad = some since → since + 1000000 ≤ s.devtime → s.cap quad < 800 →
    ∃ t, exec (.thermalCapRise quad) s = .next t ∧ t.cap quad = pointUp (s.cap quad) ∧ t.threads = s.threads ∧ t.mem = s.mem) ∧
  (∀ (layer : Nat) (v : BitVec 16) (s : State), layer < 32 → Tbl.find s.mgmt.sensors (3 * 65536 + layer) = some v →
    2 * (s.power.therm.toNat / 256 % 256) < v.toInt.toNat → Tbl.find s.power.throttled layer = none →
      exec (.dramThrottle layer) s =
        .next (s.modPower fun p => { p with throttled := Tbl.ins p.throttled layer none })) ∧
  (∀ (layer since : Nat) (v : BitVec 16) (s : State), Tbl.find s.mgmt.sensors (3 * 65536 + layer) = some v →
    Tbl.find s.power.throttled layer = some (some since) → since + 1000000 ≤ s.devtime →
    v.toInt.toNat ≤ 2 * (s.power.therm.toNat / 256 % 256 - 5) →
      exec (.dramThrottleLift layer) s = .next (s.modPower fun p => { p with throttled := Tbl.del p.throttled layer })) ∧
  (∀ (kind idx : Nat) (s : State), s.mgmt.tripDue = some (kind, idx) → s.mgmt.thermtrip = false →
    ∃ t r, exec (.thermtrip kind idx) s = .next t ∧ t.mgmt.stopped = true ∧ t.mgmt.thermtrip = true ∧
      t.mgmt.blackbox.head? = some r ∧ fld r 72 8 = 9 ∧ t.threads = s.threads ∧ t.mem = s.mem) ∧
  (∀ (quad : Nat) (s : State), quad < 1024 →
    ∃ t, exec (.operatingPointChange quad) s = .next t ∧ t.threads = s.threads ∧ t.mem = s.mem ∧ t.point quad =
      min (if (quadCores quad).any (fun c => ((List.range 8).any fun k => slotReady s c k) ||
        (portPresses c).any fun p => (s.press p).busy) then 800 else 200) (s.cap quad)) ∧
  (∀ (core : Nat) (s : State), core < 4096 → (s.core core).asleep = false → mayDoze s core = true →
    ((s.core core).sleepd.toNat % 4 ≠ 0 ∨ ∃ k, k < 8 ∧ (s.thread core k).occ = true ∧ (s.thread core k).halted = true) →
    ∃ t, exec (.coreSleep core) s = .next t ∧ (t.core core).asleep = true ∧ t.threads = s.threads ∧ t.mem = s.mem) ∧
  (∀ (core : Nat) (s : State), (s.core core).asleep = true →
    (∃ k, k < 8 ∧ slotStirs s core k = true) ∨ (s.core core).runq ≠ [] ∨ 2 ≤ s.sleepDepth core →
    ∃ t, exec (.coreWake core) s = .next t ∧ (t.core core).asleep = false ∧ t.threads = s.threads ∧ t.mem = s.mem ∧
      (t.core core).wakeAt = s.devtime + (if s.sleepDepth core = 3 then 20000 else if s.sleepDepth core = 2 then 2000
        else ceilDiv 4000 (s.point (quadOf core))))

/-- Resets, boot, pins and errors (R18, R31 to R34, R55, R76, R80 to R86, R95): what a cold and a warm reset leave; secure boot makes the
device ready, or reports FWERR; the link trains and a port comes up or fails; supply loss writes everything back and stops the clocks;
a failing structure is fenced, and comes back or is retired by its test. What survives a reset (log entry 72), that a failure of VSTBY loses
DRAM only while the clocks have stopped (log entry 73), and the unit numbers of a structure error (log entry 74) are the model's choices.
A context that a cold reset loses has its event in the new black box (R78, R96), and a warm reset runs on the images that run (R81). -/
def Obligations.ResetsAndPins : Prop :=
  (∀ s : State, s.mgmt.pwrgd = true → ∃ t, exec .coldReset s = .next t ∧ t.devtime = 0 ∧ t.threads = [] ∧ t.closet = [] ∧
    (s.ctxs = [] → s.crews = [] → t.mgmt.blackbox = []) ∧ t.mgmt.stopped = false ∧ t.mgmt.thermtrip = false ∧ t.hub.ready = false ∧
    (∀ n c, n ≠ 0 → s.ctxs = [(n, c)] → s.crews = [] → s.mgmt.slMarker = none → c.ckpt = false →
      ∃ r, t.mgmt.blackbox = [r] ∧ fld r 72 8 = 6 ∧ fld r 32 32 = n % 2 ^ 32) ∧ t.hub.pkgid = 0 ∧
    t.power = State.power0 ∧ (∀ k, k < 4 → vget t.mgmt.bank k false = (vget s.mgmt.bank k false ^^ vget s.mgmt.staged k false)) ∧
    (s.ctxs = [] → s.crews = [] → ∀ a, (∀ k off, kindOf a ≠ .spm k off) → Tbl.get 0 t.mem a = Tbl.get 0 s.mem a)) ∧
  (∀ s : State, ∃ t, exec .warmReset s = .next t ∧ t.devtime = s.devtime ∧ t.threads = [] ∧ t.mgmt.thermtrip = s.mgmt.thermtrip ∧
    t.mgmt.stopped = s.mgmt.thermtrip ∧ t.hub.ready = false ∧ t.power = State.power0 ∧
    (s.hub.pkgid.getLsbD 31 = true → t.hub.pkgid = s.hub.pkgid) ∧ (s.ctxs = [] → s.crews = [] → t.mgmt.blackbox = s.mgmt.blackbox)) ∧
  (∀ s : State, ∃ t, exec .vstbyFailure s = .next t ∧ t.mgmt.blackbox = [] ∧ t.mgmt.stopped = s.mgmt.stopped ∧
    (s.mgmt.stopped = false → t = s.modMgmt fun m => { m with blackbox := [] }) ∧
    (s.mgmt.stopped = true → t.mgmt.slMarker = none ∧ ∀ a, a < 0x3000000000 → Tbl.get 0 t.mem a = 0)) ∧
  (∀ s : State, ∃ t, exec .slwAssert s = .next t ∧ t.hub.slw = true ∧ t.mgmt.slStarted = true ∧
    (s.mgmt.slStarted = false → ∃ r, t.mgmt.blackbox.head? = some r ∧ fld r 72 8 = 7)) ∧
  (∀ s : State, s.hub.slw = true → exec .slwRelease s = .next (s.modHub fun h => { h with slw := false })) ∧
  (∀ s : State, s.mgmt.slStarted = true → s.mgmt.stopped = false → s.crews = [] →
    ∃ t r, exec .supplyLossSequence s = .next t ∧ t.mgmt.stopped = true ∧ t.dirty = [] ∧
      t.mgmt.slMarker = some (s.ctxs.map (·.1)) ∧ t.mgmt.blackbox.head? = some r ∧ fld r 72 8 = 8) ∧
  (∀ (s : State), s.hub.ready = false → s.hub.fwerr = false → s.mgmt.stopped = false →
    let r := s.modMgmt fun m => { m with root := some (Config.pufRoot Config.helperData) }
    (s.mgmt.verified = true ∨ (∀ k, k < 4 → (r.bootBank k).isSome) → ∃ t, exec (.secureBoot true) s = .next t ∧ t.hub.ready = true ∧
      t.hub.fwerr = false ∧ t.mgmt.root = some (Config.pufRoot Config.helperData) ∧
      (s.mgmt.verified = true → ∀ k, k < 4 → t.activeBank k = s.activeBank k) ∧
      t.mgmt.running = (if s.mgmt.verified then s.mgmt.running else s.mgmt.flash) ∧
      ∃ c, t.ctx? 0 = some c ∧ c.asid = 0 ∧ c.root = Config.context0Root (t.activeBank 2) (t.asRun.staged 2 (t.activeBank 2))) ∧
    (s.mgmt.verified = false → (∃ k, k < 4 ∧ r.bootBank k = none) →
      exec (.secureBoot true) s = .next (r.modHub fun h => { h with fwerr := true })) ∧
    exec (.secureBoot false) s =
      .next ((s.modMgmt fun m => { m with root := none }).modHub fun h => { h with fwerr := true })) ∧
  (∀ s : State, s.hub.ready = true → s.mgmt.keyReady = false →
    exec .keyTreeStateLoad s = .next (s.modMgmt fun m => { m with keyReady := true })) ∧
  (∀ (m0 m1 : Bool) (s : State), s.hub.linkUp = false → s.mgmt.stopped = false → s.hub.ready = true ∨ s.hub.fwerr = true →
    m0 = true ∨ m1 = true → ∃ t, exec (.hostLinkTrain m0 m1) s = .next t ∧ t.hub.linkUp = true ∧ t.hub.mailboxOnly = s.hub.fwerr ∧
      t.hub.onemod = !(m0 && m1)) ∧
  (∀ (md : Nat) (s : State), s.hub.linkUp = true → s.hub.onemod = false → md < 2 →
    ∃ t r, exec (.hostLinkModuleFail md) s = .next t ∧ t.hub.onemod = true ∧ t.mgmt.blackbox.head? = some r ∧ fld r 72 8 = 0x0C) ∧
  (∀ (port : Nat) (s : State), port < 16 →
    (s.hub.pkgid.getLsbD 31 = true → s.hub.portsUp.getLsbD port = false → s.portOut port = false →
      ∃ t r, exec (.scaleOutPortUp port) s = .next t ∧ t.hub.portsUp.getLsbD port = true ∧ t.mgmt.blackbox.head? = some r ∧
        fld r 72 8 = 0x0D) ∧
    (s.hub.portsUp.getLsbD port = true →
      ∃ t r, exec (.scaleOutPortFail port) s = .next t ∧ t.hub.portsUp.getLsbD port = false ∧ t.mgmt.blackbox.head? = some r ∧
        fld r 72 8 = 0x0D)) ∧
  (∀ (code unit : Nat) (corrected : Bool) (ctx : Nat) (s : State), unitOk code unit = true → s.mgmt.stopped = false →
    s.mgmt.fences.contains (fenceKey code unit) = false →
    ∃ t r, exec (.structureError code unit corrected ctx) s = .next t ∧ t.mgmt.fences = fenceKey code unit :: s.mgmt.fences ∧
      (if code = 8 ∧ s.hub.portsUp.getLsbD unit then t.mgmt.blackbox[1]? else t.mgmt.blackbox[0]?) = some r ∧
      fld r 72 8 = (if corrected then 1 else 2) ∧
      fld r 32 32 = (match code with | 1 | 2 => unit / 8 | 3 => unit / 32 | 5 => unit / 4 | _ => unit) ∧ t.mem = s.mem ∧
      (code = 6 → corrected = false → t.poison.contains unit = true) ∧ (code = 7 → corrected = false → t.wsPoison.contains unit = true) ∧
      (code = 8 → t.hub.portsUp.getLsbD unit = false)) ∧
  (∀ (code unit : Nat) (pass : Bool) (s : State), unitOk code unit = true → s.mgmt.fences.contains (fenceKey code unit) = true →
    s.mgmt.fences.contains (failKey code unit) = false →
    ∃ t, exec (.selfTestDone code unit pass) s = .next t ∧ t.mgmt.fences.contains (fenceKey code unit) = false ∧
      (pass = true → t.cores = s.cores ∧ ∃ r, t.mgmt.blackbox.head? = some r ∧ fld r 72 8 = 3) ∧
      (pass = false → (code = 1 ∨ code = 2 → (t.core (unit / 8)).retired = true) ∧
        (code = 3 → (t.core (unit / 32)).retired = true) ∧ (code = 4 → unit ∈ t.mgmt.retiredPress)))

/-- The mailbox (R77 to R79, R81, R84, R98, R99): the command that MBCMD names is carried out once, with its status; MAILBOX_DONE clears
BUSY, sets DONE and gives the status. A debug command without DBGEN ends PERM and changes nothing else. The numbers of the sensor kinds
are the model's choice (log entry 18). -/
def Obligations.MailboxCommands : Prop :=
  (∀ (s : State) (st : Nat), s.mgmt.mbstat.getLsbD 63 = true → s.mgmt.mbdone = some st →
    ∃ t, exec .mailboxDone s = .next t ∧ t.mgmt.mbstat = word (2 ^ 62 + st) ∧ t.mgmt.mbdone = none ∧
      (s.mgmt.mbcmd.getLsbD 62 = true → s.hub.masked (fld s.mgmt.mbcmd 48 11) = false → t.hub.msix = fld s.mgmt.mbcmd 48 11 :: s.hub.msix)) ∧
  (∀ s : State, s.mgmt.mbstat.getLsbD 63 = true → s.mgmt.mbdone = none →
    let arg := s.mbArg
    (fld s.mgmt.mbcmd 0 16 = 0x1 → ∀ ok : Bool, arg 0 = 0xFFFF ∨ (s.ctx? (arg 0)).isSome →
      ∃ t, exec (.attest ok) s = .next t ∧
        (ok = true → s.mgmt.keyReady = true → s.mgmt.leaf < 2 ^ 40 → t.mgmt.mbdone = some 0 ∧ t.mgmt.leaf = s.mgmt.leaf + 1) ∧
        (ok = false → t.mgmt.mbdone = some 4 ∧ t.mgmt.leaf = s.mgmt.leaf)) ∧
    (fld s.mgmt.mbcmd 0 16 = 0x2 → ∀ r, arg 1 = 1 → s.mgmt.blackbox[arg 0]? = some r →
      ∃ t, exec .bbread s = .next t ∧ t.mgmt.mbdone = some 0 ∧ t.getWindow 0 16 = bytesOf r.toNat 16 ∧
        t.mgmt.blackbox = s.mgmt.blackbox) ∧
    (fld s.mgmt.mbcmd 0 16 = 0x3 → 1 ≤ arg 0 → arg 0 ≤ 4 → arg 2 ≤ 61440 → arg 1 + arg 2 ≤ 2 ^ 32 →
      ∃ t r, exec .fwstage s = .next t ∧ t.mgmt.mbdone = some 0 ∧ t.mgmt.blackbox.head? = some r ∧ fld r 72 8 = 0x0B ∧
        ∀ i, i < arg 2 → Tbl.find t.mgmt.flash
          (((arg 0 - 1) * 2 + b2n !(s.markedBank (arg 0 - 1))) * 2 ^ 32 + arg 1 + i) = some (Tbl.get 0 s.mgmt.window i)) ∧
    (fld s.mgmt.mbcmd 0 16 = 0x4 → 1 ≤ arg 0 → arg 0 ≤ 4 →
      let k := arg 0 - 1
      let b := !(s.markedBank k)
      (s.bankOk k b = true → ∃ t, exec .fwactivate s = .next t ∧ t.mgmt.mbdone = some 0 ∧
        vget t.mgmt.staged k false = !(vget s.mgmt.staged k false) ∧ vget t.mgmt.svn k 0 = s.svnIn k b ∧
        vget s.mgmt.svn k 0 ≤ vget t.mgmt.svn k 0) ∧
      (s.bankOk k b = false → exec .fwactivate s = .next (s.modMgmt fun m => { m with mbdone := some 2 }))) ∧
    (fld s.mgmt.mbcmd 0 16 = 0x5 → ∀ v, arg 2 = 1 → arg 1 < [4096, 1024, 1024, 32, 4, 1].getD (arg 0) 0 →
      Tbl.find s.mgmt.sensors (arg 0 * 65536 + arg 1) = some v →
      ∃ t, exec .sensrd s = .next t ∧ t.mgmt.mbdone = some 0 ∧ t.getWindow 0 2 = bytesOf v.toNat 2) ∧
    (s.mgmt.dbgen = false → ∀ i c, (i = .dbghalt ∧ c = 0x10) ∨ (i = .dbgresume ∧ c = 0x11) ∨ (i = .dbgstep ∧ c = 0x12) ∨
        (i = .dbgread ∧ c = 0x13) ∨ (i = .dbgwrite ∧ c = 0x14) ∨ (i = .dbgcfg ∧ c = 0x15) → fld s.mgmt.mbcmd 0 16 = c →
      exec i s = .next (s.modMgmt fun m => { m with mbdone := some 3 })) ∧
    (s.mgmt.dbgen = true →
      (fld s.mgmt.mbcmd 0 16 = 0x10 → (s.ctx? (arg 0)).isSome → ∃ t, exec .dbghalt s = .next t ∧ t.mgmt.mbdone = some 0 ∧
        t.mem = s.mem ∧ ∀ v, v < 256 → s.mbVat v = true → (t.vat v).halted.contains (arg 0) = true) ∧
      (fld s.mgmt.mbcmd 0 16 = 0x11 → (s.ctx? (arg 0)).isSome → ∃ t, exec .dbgresume s = .next t ∧ t.mgmt.mbdone = some 0 ∧
        t.mem = s.mem ∧ ∀ v, v < 256 → s.mbVat v = true → (t.vat v).halted.contains (arg 0) = false) ∧
      ∀ th, s.mbThread = some th →
        s.retained (arg 1) 2 = false →
        (fld s.mgmt.mbcmd 0 16 = 0x12 → th.halted = true → 1 ≤ arg 3 → arg 3 ≤ 65535 →
          ∃ t, exec .dbgstep s = .next t ∧ t.mgmt.mbdone = some 0 ∧ (t.thread (arg 1) (arg 2)).steps = arg 3) ∧
        (fld s.mgmt.mbcmd 0 16 = 0x13 → arg 3 < 24 →
          ∃ t, exec .dbgread s = .next t ∧ t.mgmt.mbdone = some 0 ∧ t.getWindow 0 8 = bytesOf (th.getG (arg 3)).toNat 8 ∧
            t.threads = s.threads) ∧
        (fld s.mgmt.mbcmd 0 16 = 0x14 → arg 3 < 23 →
          ∃ t, exec .dbgwrite s = .next t ∧ t.mgmt.mbdone = some 0 ∧
            (t.thread (arg 1) (arg 2)).getG (arg 3) = word (ofBytes (s.getWindow 0 8)))) ∧
    (s.mgmt.dbgen = true → fld s.mgmt.mbcmd 0 16 = 0x15 → arg 0 < 256 →
      ∃ t, exec .dbgcfg s = .next t ∧ t.mgmt.mbdone = some 0 ∧ (t.vat (arg 0)).watchLo = vget s.mgmt.mbarg 5 0 ∧
        (t.vat (arg 0)).watchHi = vget s.mgmt.mbarg 6 0 ∧ (t.vat (arg 0)).dbgctl.getLsbD 0 = (s.vat (arg 0)).dbgctl.getLsbD 0 ∧
        ∀ k, 9 ≤ k → k < 64 → (t.vat (arg 0)).dbgctl.getLsbD k = (vget s.mgmt.mbarg 1 0).getLsbD k)) ∧
  (∀ (core slot : Nat) (s : State), s.mgmt.dbgen = true → (s.thread core slot).ref.crew ≠ 0 →
    (s.vat (vatOf core)).dbgctl.getLsbD 18 = true ∨ (s.vat (vatOf core)).dbgctl.getLsbD 9 = true →
    ∃ t, exec (.breakpointHalt core slot) s = .next t ∧ (t.vat (vatOf core)).dbgctl.getLsbD 0 = true ∧
      (t.vat (vatOf core)).halted.contains (s.ctxOf (s.thread core slot).ref.crew) = true ∧ t.mem = s.mem)

/-- What the host does to the device (R20, R21, R38 to R46, R60, R79, R209, R218): register writes, queue 0's rings and PKGID, kicks, the
reading and checking of commands, and its accesses to device DRAM. An EN = 0 that waits takes effect when the packet in execution has
finished or queue 0 stops; which begun commands count as in execution (log entry 126), and a read that times out, which answers zeros,
poisoned (log entry 76), are the model's choices. -/
def Obligations.HostAccess : Prop :=
  (∀ (k : Nat) (v : Word) (s : State), k < 8 → s.hostLink = true → ∃ t, exec (.bar0RegisterWrite (0x190 + 8 * k) v) s = .next t ∧
    vget t.power.lvl k 0 = v &&& 0xFF07 ∧ t.mem = s.mem ∧ t.mgmt = s.mgmt ∧ t.hub = s.hub) ∧
  (∀ (k : Nat) (v : Word) (s : State), k < 1024 → s.hostLink = true → ∃ t, exec (.bar0RegisterWrite (0x10000 + 4 * k) v) s = .next t ∧
    Tbl.get 0 t.hub.grt k = v.setWidth 32 &&& 0x1FFFF ∧ t.mem = s.mem ∧ t.power = s.power) ∧
  (∀ (k : Nat) (v : Word) (s : State), k < 8 → s.hub.linkUp = true → ∃ t, exec (.bar0RegisterWrite (0x20040 + 8 * k) v) s = .next t ∧
    vget t.mgmt.mbarg k 0 = v ∧ t.mem = s.mem) ∧
  (∀ (v : Word) (s : State), s.hub.linkUp = true → s.mgmt.mbstat.getLsbD 63 = false → v.getLsbD 63 = true →
    ∃ t, exec (.bar0RegisterWrite 0x20000 v) s = .next t ∧ t.mgmt.mbstat = 0x8000000000000000 ∧ t.mgmt.mbdone = none ∧
      fld t.mgmt.mbcmd 0 16 = fld v 0 16) ∧
  (∀ (v : Word) (s : State), s.hub.ready = true → s.hostLink = true → (s.queue 0).ringcfg.getLsbD 63 = false →
    (s.queue 0).state = .off →
    v.getLsbD 63 = true → ringOk (v &&& 0xFFF0FFFFFFFFF01F) = true → cplOk (s.queue 0).cplcfg = true →
    ∃ t, exec (.q0ringWrite v) s = .next t ∧ (t.queue 0).state = .run ∧ (t.queue 0).head = 0 ∧ (t.queue 0).tail = 0 ∧
      (t.queue 0).cplHead = 0 ∧ (t.queue 0).cplTail = 0 ∧ (t.queue 0).expSeq = 0 ∧
      (t.queue 0).ringcfg = v &&& 0xFFF0FFFFFFFFF01F) ∧
  (∀ (v : Word) (s : State), s.hub.ready = true → s.hostLink = true → (s.queue 0).ringcfg.getLsbD 63 = true →
    (s.queue 0).state = .run ∨ (s.queue 0).state = .wait → v.getLsbD 63 = false →
    ∃ t, exec (.q0ringWrite v) s = .next t ∧ t.mem = s.mem ∧
      ((s.queue 0).executing = true → (t.queue 0).ringcfg = (s.queue 0).ringcfg ∧
        (t.queue 0).ringNext = some (v &&& 0xFFF0FFFFFFFFF01F) ∧ (t.queue 0).state ≠ .off) ∧
      ((s.queue 0).executing = false → (t.queue 0).ringcfg = v &&& 0xFFF0FFFFFFFFF01F ∧ (t.queue 0).state = .off)) ∧
  (∀ (v : Word) (s : State), s.hub.ready = true → s.hostLink = true → (s.queue 0).ringcfg.getLsbD 63 = true → (s.queue 0).state = .stop →
    v.getLsbD 63 = false → ∃ t, exec (.q0ringWrite v) s = .next t ∧ (t.queue 0).ringcfg = v &&& 0xFFF0FFFFFFFFF01F ∧
      (t.queue 0).state = .off ∧ t.mem = s.mem) ∧
  (∀ (v : Word) (s : State), s.hostLink = true → (s.queue 0).ringcfg.getLsbD 63 = false →
    ∃ t, exec (.q0cplWrite v) s = .next t ∧ (t.queue 0).cplcfg = v &&& 0x0000FFFFFFFFF01F) ∧
  (∀ (v : BitVec 32) (s : State), s.hub.pkgid.getLsbD 31 = false → s.hostLink = true →
    exec (.pkgidWrite v) s = .next (s.modHub fun h => { h with pkgid := v &&& 0x800FFFFF })) ∧
  (∀ (q : Nat) (v : BitVec 32) (s : State), s.hostLink = true → (s.queue q).state = .run ∨ (s.queue q).state = .wait →
    let n := 2 ^ ((s.queue q).ringcfg.toNat % 32)
    ((v - (s.queue q).tail).toNat ≤ n → (v - (s.queue q).head).toNat ≤ n →
      exec (.kick q v) s = .next (s.modQueue q fun x => { x with tail := v })) ∧
    (n < (v - (s.queue q).tail).toNat ∨ n < (v - (s.queue q).head).toNat →
      ∃ t, exec (.kick q v) s = .next t ∧ (t.queue q).tail = (s.queue q).tail ∧
        ((s.queue q).ringNext = none → (t.queue q).state = .stop ∧ (t.queue q).code = 6) ∧
        (∀ w, (s.queue q).ringNext = some w → (t.queue q).state = .off ∧ (t.queue q).ringcfg = w))) ∧
  (∀ (q : Nat) (v : BitVec 32) (s : State), s.hostLink = true →
    exec (.cplheadWrite q v) s = .next (s.modQueue q fun x => { x with cplHead := v })) ∧
  (∀ (q : Nat) (r : BitVec 256) (irq : Bool) (rest : List (BitVec 256 × Bool)) (s : State), (s.queue q).backlog = (r, irq) :: rest →
    cplRoom (s.queue q) = true → s.ringBad (cplSlot (s.queue q) 0) 32 = false →
    ∃ t, exec (.completionRecordWrite q) s = .next t ∧ (t.queue q).backlog = rest ∧
      (t.queue q).cplTail = (s.queue q).cplTail + 1) ∧
  (∀ (q : Nat) (s s2 : State), s.cpRuns = true → arbitrate s = some (q, s2) →
    (∀ n, packetsBad s2 (s2.queue q) n = false) →
    let qu := s2.queue q
    let h := headerOf s2 qu
    let len := if h / 2 ^ 32 % 2 ^ 16 = 0 then 65536 else h / 2 ^ 32 % 2 ^ 16
    let body := BitVec.ofNat 512 (s2.read 0 (packetPA qu qu.head.toNat) 64)
    (h / 2 ^ 16 % 2 ^ 16 ≠ qu.expSeq.toNat →
      exec (.commandFetch q) s = .next (s2.modQueue q fun x => { x with
        state := .wait, rereads := 1, rereadAt := s2.devtime })) ∧
    (h / 2 ^ 16 % 2 ^ 16 = qu.expSeq.toNat →
      (∀ code, headerStop q qu h = some code → exec (.commandFetch q) s = .next (stopQueue s2 q code)) ∧
      (headerStop q qu h = none → len ≤ (qu.tail - qu.head).toNat → h % 256 ≠ 1 → bodyResv (h % 256) body = true →
        (bodyArgs (h % 256) body = false → exec (.commandFetch q) s = .next (stopQueue s2 q 10)) ∧
        (bodyArgs (h % 256) body = true →
          ∃ t, exec (.commandFetch q) s = .next t ∧ (t.queue q).head = qu.head + BitVec.ofNat 32 len ∧
            (t.queue q).expSeq = qu.expSeq + 1 ∧
            (t.queue q).cmds = qu.cmds ++
              [⟨s2.fresh.1, qu.ctx, qu.expSeq.toNat, h % 256, len, h.testBit 10, h.testBit 11, body, false, s2.devtime, 0, []⟩])))) ∧
  (∀ (q : Nat) (s : State), s.cpRuns = true → (s.queue q).state = .wait → 0 < (s.queue q).rereads →
    (s.queue q).rereadAt + 1000 ≤ s.devtime → packetsBad s (s.queue q) 1 = false →
    (headerOf s (s.queue q) / 2 ^ 16 % 2 ^ 16 = (s.queue q).expSeq.toNat →
      ∃ t, exec (.headerReread q) s = .next t ∧ (t.queue q).rereads = 0) ∧
    (headerOf s (s.queue q) / 2 ^ 16 % 2 ^ 16 ≠ (s.queue q).expSeq.toNat →
      ((s.queue q).rereads < 64 →
        exec (.headerReread q) s = .next (s.modQueue q fun x => { x with
          rereads := x.rereads + 1, rereadAt := s.devtime })) ∧
      (64 ≤ (s.queue q).rereads → exec (.headerReread q) s = .next (stopQueue s q 1)))) ∧
  (∀ (line : Nat) (data : BitVec 512) (mask : BitVec 64) (s : State), line * 64 < 0x3000000000 → s.mgmt.stopped = false →
      s.hostLink = true → s.ctxs = [] → s.hub.hostAccs = [] →
    (hostWaits s true (line * 64) = false → ∃ t, exec (.hostMemAccess true line data mask) s = .next t ∧
      (∀ i, i < 64 → Tbl.get 0 t.mem (line * 64 + i) =
        if mask.getLsbD i then data.extractLsb' (8 * i) 8 else Tbl.get 0 s.mem (line * 64 + i)) ∧
      ∀ a, a < line * 64 ∨ line * 64 + 64 ≤ a → Tbl.get 0 t.mem a = Tbl.get 0 s.mem a) ∧
    (hostWaits s false (line * 64) = false → ∃ t, exec (.hostMemAccess false line data mask) s = .next t ∧ t.mem = s.mem ∧
      t.hub.hostReads = (line, BitVec.ofNat 512 (s.read 0 (line * 64) 64), s.poisoned 0 (line * 64) 64) :: s.hub.hostReads)) ∧
  (∀ (i : Nat) (a : HostAcc) (s : State), s.hub.hostAccs[i]? = some a → s.devtime > a.since + 100000 →
    (holdHit s (a.line * 64) 64 (if a.write then .write else .read)).isSome →
    ∃ t, exec (.hostHoldTimeout i) s = .next t ∧ t.mem = s.mem ∧ t.hub.hostAccs = s.hub.hostAccs.eraseIdx i ∧
      (a.write = true → t.hub.cxlErrs = s.hub.cxlErrs + 1) ∧
      (a.write = false → t.hub.hostReads = (a.line, 0, true) :: s.hub.hostReads))

/-- The packets of the host queues (R46, R48, R50 to R53, R57 to R60, R105): each that may begin has its effect and completes, or begins and
waits. Completing takes the command from its queue, and its record, where there is one, goes to the completion ring with the ring's vector
of that moment. A seal that waits for the loads that were under way when it began is the model's choice (log entry 23). -/
def Obligations.QueuePackets : Prop :=
  (∀ (s : State) (q : Nat) (c : Cmd) (st d a : Nat), let t := completeCmd s q c st d a
    ((s.queue q).ringNext = none → (t.queue q).cmds = (s.queue q).cmds.filter (fun x => x.id ≠ c.id)) ∧ t.threads = s.threads ∧
    t.crews = s.crews ∧
    (c.cpl = false → st = 0 → t.mem = s.mem ∧ t.hub.msix = s.hub.msix) ∧
    (c.cpl = true ∨ st ≠ 0 → q = 0 ∨ s.ckpts c.ctx = false → (s.queue q).cmds.find? (fun x => x.id = c.id) = some c →
      cplRoom (s.queue q) = true → (s.queue q).backlog = [] →
      s.ringBad (cplSlot (s.queue q) 0) 32 = false →
      (t.queue q).cplTail = (s.queue q).cplTail + 1 ∧
      (s.hub.masked (ringVec (s.queue q).ringcfg) = false →
        t.hub.msix = if c.irq then ringVec (s.queue q).ringcfg :: s.hub.msix else s.hub.msix))) ∧
  (∀ (q : Nat) (s : State) (c : Cmd), nextCmd s q 1 = some c → exec (.nopPacket q) s = .next (completeCmd s q c 0 0 0)) ∧
  (∀ (q op : Nat) (s s2 : State) (c : Cmd) (pa : Nat) (pte : BitVec 64), noneBegun s q 4 = true → nextCmd s q 4 = some c →
      pkt c.body 8 1 = op →
    (op = 0 ∨ op = 1 → packetAddr s q c.ctx (pkt c.body 16 8) .write false = .fault →
      exec (if op = 0 then .signalStore q else .signalAtomicAdd q) s = .next (faultCmd s q c (pkt c.body 16 8))) ∧
    (op = 0 → packetAddr s q c.ctx (pkt c.body 16 8) .write false = .ok pa pte → cmdStore s c.ctx pa pte (pkt c.body 24 8) = some s2 →
      exec (.signalStore q) s = .next (completeCmd s2 q c 0 0 0)) ∧
    (op = 1 → packetAddr s q c.ctx (pkt c.body 16 8) .write false = .ok pa pte → cmdReady s c.ctx pa pte .write = true →
      s.poisoned hubWs pa 8 = false →
      cmdStore s c.ctx pa pte ((s.read hubWs pa 8 + pkt c.body 24 8) % 2 ^ 64) = some s2 →
      exec (.signalAtomicAdd q) s = .next (completeCmd s2 q c 0 0 0)) ∧
    (op = 2 → q ≠ 0 → pkt c.body 16 8 >>> 32 = 0xFFFFFFFF → pkt c.body 16 8 % 2 ^ 32 < 0x40000000 →
      barPA s 0 c.ctx (word (pkt c.body 16 8)) = some (.inl pa) → tbReserved (s.read hubWs pa 16) = 0 →
      holdHit s pa 16 .write = none → fenced s c.ctx hubWs pa 0 = false →
      barTurn s ((windowCrew s c.ctx (word (pkt c.body 16 8))).getD 0) (.signal q c.id) = true →
      barUpdate s c.ctx pa true 0 = .ok s2 →
      exec (.signalArrive q) s =
        .next (completeCmd (traceTb s c.ctx pa true none (s2.madeBar (.signal q c.id))) q c 0 0 0))) ∧
  (∀ (q : Nat) (s : State) (c : Cmd) (pa : Nat) (pte : BitVec 64), packetAddr s q c.ctx (pkt c.body 8 8) .read false = .ok pa pte →
    cmdReady s c.ctx pa pte .read = true → s.poisoned hubWs pa 8 = false →
    let m := s.read hubWs pa 8 &&& pkt c.body 24 8
    let v := pkt c.body 16 8
    let cond := pkt c.body 32 1
    let holds := (cond = 0 ∧ m = v) ∨ (cond = 1 ∧ m ≠ v) ∨ (cond = 2 ∧ v ≤ m) ∨ (cond = 3 ∧ m < v)
    let s1 := (hubRead s c.ctx pa 8 pte true).1
    (nextCmd s q 5 = some c →
      (holds → exec (.waitv q) s = .next (completeCmd s1 q c 0 0 0)) ∧
      (cond ≤ 3 → ¬holds →
        exec (.waitv q) s = .next (modCmd (beginCmd s1 q c) q c.id fun y => { y with polled := s1.devtime }))) ∧
    (onlyBegun s q 5 = some c → kindOf pa ≠ .host ∨ c.polled + 1000 ≤ s.devtime → holds →
      exec (.waitvReevaluate q) s = .next (completeCmd s1 q c 0 0 0))) ∧
  (∀ (q : Nat) (s : State) (c : Cmd), onlyBegun s q 5 = some c → pkt c.body 36 4 ≠ 0 → c.since + pkt c.body 36 4 * 1000 ≤ s.devtime →
    let w := finish s q c.id c.seq c.typ 4 0 0 c.cpl c.irq
    exec (.waitvTimeout q) s = .next (stopQueue w q 9) ∧ (∀ x ∈ (w.queue q).cmds, x.id ≠ c.id) ∧
      ((s.queue q).ringNext = none → ((stopQueue w q 9).queue q).state = .stop ∧ ((stopQueue w q 9).queue q).code = 9) ∧
      (∀ v, (s.queue q).ringNext = some v → ((stopQueue w q 9).queue q).state = .off ∧ ((stopQueue w q 9).queue q).ringcfg = v)) ∧
  (∀ (q : Nat) (s : State) (c : Cmd), noneBegun s q 13 = true → nextCmd s q 13 = some c →
    let x := s.queue (pkt c.body 8 2)
    (pkt c.body 12 1 = 0 → exec (.qfence q) s = .next (completeCmd s q c 0 0 0)) ∧
    (pkt c.body 12 1 ≠ 0 → x.ctx ≠ c.ctx → exec (.qfence q) s = .next (completeCmd s q c 9 0 0)) ∧
    (pkt c.body 12 1 ≠ 0 → x.ctx = c.ctx → x.state = .run → pkt c.body 8 2 ≠ q → x.cmds = [] →
      x.expSeq.toNat = (pkt c.body 10 2 + 1) % 65536 → exec (.qfence q) s = .next (completeCmd s q c 0 0 0))) ∧
  (∀ (q : Nat) (s : State) (c : Cmd) (pa : Nat) (pte : BitVec 64), s.hub.slw = false → nextCmd s q 2 = some c →
    packetAddr s q c.ctx (pkt c.body 8 8) .read false = .ok pa pte →
    (∀ a, parseDesc s q c.ctx (pkt c.body 8 8) = .inr a → exec (.launch q) s = .next (faultCmd s q c a)) ∧
    (∀ ts qs s2, parseDesc s q c.ctx (pkt c.body 8 8) = .inl (ts, qs) → ts.findSome? (taskBad s c.ctx) = none →
      startGraph (beginCmd s q c) q c ts qs = some s2 → exec (.launch q) s = .next s2 ∧
      ∃ g, s2.graph? s.hub.nextGraph = some g ∧ g.q = q ∧ g.cmd = c.id ∧ g.seq = c.seq ∧ g.ctx = c.ctx ∧ g.crews.length = ts.length ∧
        ∀ n ∈ g.crews, ∃ cr, s2.crew? n = some cr ∧ cr.graph = s.hub.nextGraph ∧ cr.ctx = c.ctx)) ∧
  (∀ (q : Nat) (s s2 : State) (c : Cmd) (p : CopyPlan), noneBegun s q 3 = true → nextCmd s q 3 = some c →
      (∀ h ∈ s.hub.copies, h.id ≠ c.id) → copyPlan s q c = some p →
    (∀ a, p.bad = some a → p.len = 0 → exec (.copy q) s = .next (faultCmd s q c a)) ∧
    (p.bad = none ∨ p.len ≠ 0 → register s p.holds = .ok s2 → ∃ t, exec (.copy q) s = .next t ∧ t.mem = s2.mem ∧
      t.hub.copies = s2.hub.copies ++
        [⟨q, c.id, c.ctx, p.pages, false, pkt c.body 8 8, pkt c.body 16 8, pkt c.body 24 8, 0, true,
          p.bad.map fun a => (p.len, a)⟩])) ∧
  (∀ (i : Nat) (x : HubCopy) (s s2 : State), s.hub.copies[i]? = some x →
    (hubMove s x x.done (x.bytes / 32 + 4) = .done s2 → exec (.hubCopyDone i) s = .next (endHubCopy s2 i x 0 x.bytes 0)) ∧
    (∀ n a, hubMove s x x.done (x.bytes / 32 + 4) = .fault s2 n a →
      exec (.hubCopyDone i) s = .next (endHubCopy s2 i x 1 n a))) ∧
  (∀ (q : Nat) (s : State) (c : Cmd) (g : Region), nextCmd s q 6 = some c → s.region? (pkt c.body 8 2) = some g →
    (g.sealed = true → exec (.wsload q) s = .next (completeCmd s q c 2 0 0)) ∧
    (∀ pa pte, g.sealed = false → q = 0 ∨ g.ctx = c.ctx → pkt c.body 16 8 + pkt c.body 32 8 ≤ g.size →
      packetAddr s q c.ctx (pkt c.body 24 8) .read false = .ok pa pte →
      let n := pkt c.body 32 8
      let l := hubPieces s q c.ctx .read (pkt c.body 24 8) n [] (n / 4096 + 2)
      ∃ t, exec (.wsload q) s = .next t ∧ t.region? (pkt c.body 8 2) = some { g with busy := g.busy + 1 } ∧ t.mem = s.mem ∧
        t.hub.loads = s.hub.loads ++
          [⟨q, c.id, c.ctx, if q = 0 then [] else latchPages l.1, false, pkt c.body 24 8, pkt c.body 8 2, n, 0, true,
            match l.2 with | .fault => some (piecesLen l.1, pkt c.body 24 8 + piecesLen l.1) | _ => none⟩])) ∧
  (∀ (i : Nat) (x : HubCopy) (s s2 : State) (c : Cmd) (g : Region), s.hub.loads.find? (fun y => y.q = i) = some x →
    hubCmd s x = some c → s.region? x.dst = some g → g.sealed = false →
    loadWeights s x (g.off + pkt c.body 16 8) g.dies 0 (x.bytes / 32 + 4) = .done s2 →
    exec (.wsloadDone i) s = .next (completeCmd ((s2.modRegion x.dst fun g => { g with busy := g.busy - 1 }).modHub fun h =>
      { h with loads := h.loads.filter fun y => y.id ≠ x.id }) i c 0 x.bytes 0)) ∧
  (∀ (q : Nat) (s : State) (c : Cmd) (g : Region), noneBegun s q 7 = true → nextCmd s q 7 = some c →
      s.region? (pkt c.body 8 2) = some g →
    (pkt c.body 10 1 = 0 → g.sealed = true → exec (.wssealSeal q) s = .next (completeCmd s q c 0 0 0)) ∧
    (pkt c.body 10 1 = 0 → (∀ x ∈ s.hub.loads, x.dst ≠ pkt c.body 8 2) → ∃ t, exec (.wssealSeal q) s = .next t ∧
      t.region? (pkt c.body 8 2) = some { g with sealed := true }) ∧
    (pkt c.body 10 1 = 1 → ∃ t, exec (.wssealReopen q) s = .next t ∧
      t.region? (pkt c.body 8 2) = some { g with sealed := false }))

/-- Contexts, checkpoints, pre-emption and profiling (R54 to R59, R61, R87 to R94, R100, R101): the CTXCTL subcommands on queue 0, the seal of
an interval and the rollback to it, PREEMPT, RESYNC and PROFILE. That a CKPT packet completes at once in a context without checkpointing is
the model's choice (log entry 26). -/
def Obligations.ContextsAndIntervals : Prop :=
  (∀ (s : State) (c : Cmd),
    (ctxCmd s 1 = some c → pkt c.body 16 2 ≠ 0 → s.ctx? (pkt c.body 16 2) = none →
      placesOk (pkt c.body 24 8) (pkt c.body 32 8) (pkt c.body 40 4) = true →
      ∃ t x, exec .create s = .next t ∧ t.ctx? (pkt c.body 16 2) = some x ∧ x.root = pkt c.body 24 8 ∧ x.asid = pkt c.body 18 2 ∧
        x.save = pkt c.body 32 8 ∧ x.saveSize = pkt c.body 40 4 ∧ x.tvec = word (pkt c.body 56 8) &&& vecMask ∧
        x.ckpt = decide (pkt c.body 44 1 = 1)) ∧
    (ctxCmd s 1 = some c → pkt c.body 16 2 ≠ 0 → (s.ctx? (pkt c.body 16 2)).isSome → exec .create s = .next (completeCmd s 0 c 11 0 0)) ∧
    (ctxCmd s 2 = some c → noneBegun s 0 8 = true → pkt c.body 16 2 ≠ 0 → (s.ctx? (pkt c.body 16 2)).isSome →
      hubBusy (closeCtx s (pkt c.body 16 2)) (pkt c.body 16 2) = false →
      ∃ t, exec .destroy s = .next t ∧ t.ctx? (pkt c.body 16 2) = none) ∧
    (ctxCmd s 3 = some c → pkt c.body 16 2 ≠ 0 → (s.queue (pkt c.body 16 2)).state = .off → (s.ctx? (pkt c.body 18 2)).isSome →
      (∀ g ∈ s.graphs, g.2.q ≠ pkt c.body 16 2) →
      ∃ t, exec .qset s = .next t ∧ let x := t.queue (pkt c.body 16 2)
        x.state = .run ∧ x.ctx = pkt c.body 18 2 ∧ x.cls = pkt c.body 20 1 ∧ x.weight = pkt c.body 21 1 ∧ x.head = 0 ∧ x.tail = 0 ∧
        x.expSeq = 0 ∧ x.ringcfg.getLsbD 63 = true) ∧
    (ctxCmd s 4 = some c → pkt c.body 16 2 ≠ 0 → (s.queue (pkt c.body 16 2)).ringcfg ≠ 0 →
      (s.queue (pkt c.body 16 2)).state = .off ∨ (s.queue (pkt c.body 16 2)).state = .stop →
      ∃ t, exec .qreset s = .next t ∧ (t.queue (pkt c.body 16 2)).head = BitVec.ofNat 32 (pkt c.body 20 4) ∧
        (t.queue (pkt c.body 16 2)).tail = BitVec.ofNat 32 (pkt c.body 20 4) ∧
        (t.queue (pkt c.body 16 2)).expSeq = BitVec.ofNat 16 (pkt c.body 24 2)) ∧
    (ctxCmd s 5 = some c → s.region? (pkt c.body 16 2) = none → (s.ctx? (pkt c.body 24 2)).isSome →
      let size := (if pkt c.body 22 2 = 0 then 65536 else pkt c.body 22 2) * 65536
      let g : Region := ⟨pkt c.body 24 2, BitVec.ofNat 4 (pkt c.body 18 1), pkt c.body 20 2 * 65536, size, false, 0⟩
      g.off + size ≤ 2 ^ 32 → (∀ e ∈ s.hub.regions, e.2.meets g = false) →
      ∃ t, exec .wsreg s = .next t ∧ t.region? (pkt c.body 16 2) = some g) ∧
    (ctxCmd s 6 = some c → ∀ g, s.region? (pkt c.body 16 2) = some g →
      (g.sealed = true ∨ g.busy ≠ 0 → exec .wsfree s = .next (completeCmd s 0 c 12 0 0)) ∧
      (g.sealed = false → g.busy = 0 → ∃ t, exec .wsfree s = .next t ∧ t.region? (pkt c.body 16 2) = none))) ∧
  (∀ (q : Nat) (s : State) (c : Cmd), nextCmd s q 9 = some c →
    (s.ckpts c.ctx = false → exec (.ckptPacket q) s = .next (completeCmd s q c 0 0 0)) ∧
    (s.ckpts c.ctx = true → ∃ t x, exec (.ckptPacket q) s = .next t ∧ t.ctx? c.ctx = some x ∧
      x.sealWanted = true ∧ q ∈ x.sealQ)) ∧
  (∀ (s : State) (c : Cmd), nextCmd s 0 10 = some c → 64 ≤ pkt c.body 16 4 → pkt c.body 8 8 + 2 ^ 32 ≤ 0x3000000000 →
    ∃ l need, exec .resync s = .next (completeCmd (s.setBytes (pkt c.body 8 8) l) 0 c (if pkt c.body 16 4 < need then 8 else 0) need 0) ∧
      l.length ≤ pkt c.body 16 4 ∧ l.take 4 = bytesOf 0x59535253 4) ∧
  (∀ (n : Nat) (s : State) (c : Ctx), s.ctx? n = some c → c.ckpt = true →
    (c.sealWanted = false → c.lastSeal + c.period * 1000 ≤ s.devtime →
      ∃ t x, exec (.checkpointPeriod n) s = .next t ∧ t.ctx? n = some x ∧ x.sealWanted = true) ∧
    (c.sealWanted = true → s.mgmt.slStarted = false → (∀ e ∈ s.crews, e.2.ctx ≠ n) → c.outs = [] →
      ∃ t x, exec (.intervalSeal n) s = .next t ∧ t.ctx? n = some x ∧ x.sealed = c.interval ∧ x.interval = c.interval + 1 ∧
        x.lastSeal = s.devtime ∧ x.undo = [] ∧ Tbl.find t.mgmt.markers n = some c.interval ∧
        (c.sealQ = [] → x.sealWanted = false ∧ x.outs = [])) ∧
    (∃ t x r, exec (.rollback n) s = .next t ∧ t.ctx? n = some x ∧ x.undo = [] ∧ t.mgmt.blackbox.head? = some r ∧ fld r 72 8 = 6 ∧
      fld r 32 32 = n % 2 ^ 32)) ∧
  (∀ (n core slot : Nat) (byThread : Bool) (addr : Word) (s : State) (c : Crew), s.crew? n = some c →
    (s.ckpts c.ctx = true → exec (.unrecoverableFault n core slot byThread addr) s = .next (rollbackCtx s c.ctx)) ∧
    (s.ckpts c.ctx = false → byThread = true → (s.thread core slot).occ = true → (s.thread core slot).ref.crew = n →
      (s.thread core slot).frozen = false → (s.thread core slot).park = none →
      exec (.unrecoverableFault n core slot byThread addr) s =
        .next (takeTrap s core slot UNCORR addr 0 (s.thread core slot).pc false false)) ∧
    (s.ckpts c.ctx = false → byThread = false →
      ∃ t, exec (.unrecoverableFault n core slot byThread addr) s = .next t ∧ t.graph? c.graph = none)) ∧
  (∀ (q : Nat) (s : State) (c : Cmd), noneBegun s q 11 = true → nextCmd s q 11 = some c →
    (pkt c.body 12 1 = 0 → preemptTarget s c = none → exec (.preemptSwapOut q) s = .next (completeCmd s q c 9 0 0)) ∧
    (∀ g, pkt c.body 12 1 = 0 → preemptTarget s c = some g →
      (∀ n ∈ g.crews, ∃ cr, s.crew? n = some cr ∧ cr.state = .wait) →
      ∃ t, exec (.preemptSwapOut q) s = .next t ∧ ∀ n ∈ g.crews, ∃ cr, t.crew? n = some cr ∧ cr.state = .swapped) ∧
    (∀ g, pkt c.body 12 1 = 1 → preemptTarget s c = some g → (∀ n ∈ g.crews, ∃ cr, s.crew? n = some cr ∧ cr.state = .swapped) →
      ∃ t, exec (.preemptRestore q) s = .next t ∧ ∀ n ∈ g.crews, ∃ cr, t.crew? n = some cr ∧ cr.state = .wait)) ∧
  (∀ (q : Nat) (s : State) (c : Cmd) (x : Ctx), noneBegun s q 12 = true → nextCmd s q 12 = some c → s.ctx? c.ctx = some x →
    (∀ pa pte, pkt c.body 8 1 = 0 → packetAddr s q c.ctx (pkt c.body 16 8) .write false = .ok pa pte → x.profOn = false →
      ∃ t y, exec (.profileStart q) s = .next t ∧ t.ctx? c.ctx = some y ∧ y.profOn = true ∧ y.profSize = pkt c.body 24 4) ∧
    (pkt c.body 8 1 = 1 → x.profOn = true →
      ∃ t y, exec (.profileStop q) s = .next t ∧ t.ctx? c.ctx = some y ∧ y.profOn = false) ∧
    (pkt c.body 8 1 = 1 → x.profOn = false → exec (.profileStop q) s = .next (completeCmd s q c 9 0 0)) ∧
    (pkt c.body 8 1 = 2 → x.profOn = true → x.profSize ≠ 0 →
      ∃ t, exec (.profileSpill q) s = .next t ∧ ∀ e ∈ t.hub.pcs, e.2.ctx ≠ c.ctx) ∧
    (pkt c.body 8 1 = 2 → x.profOn = false → exec (.profileSpill q) s = .next (completeCmd s q c 9 0 0))) ∧
  (∀ (core k : Nat) (s : State), profCores s s.profiled = [core] → k < 8 →
    ∃ t, exec .profileAccount s = .next t ∧
      Tbl.get 0 t.hub.prof (core * 64 + k * 4 + (slotClass s core k).1.code) =
        min (2 ^ 48 - 1) (Tbl.get 0 s.hub.prof (core * 64 + k * 4 + (slotClass s core k).1.code) + 1))

/-! ## What happens of itself: crews, threads, presses and copies -/

/-- The crew distributor (R106 to R114, R121, R124 to R131, R138, R139): a waiting crew of a class that is not shed takes the first eligible
rectangle, which is reserved for it (RESV) until its slots are written (LOAD), or the crews of lower priority in its way are marked to be
swapped out; a committed crew enters INIT, and RUN once its image is copied; pre-emption saves it, a swap releases its rectangle, a restoration lets it run again, in its new rectangle after a relocation, or in its own
where the idle rectangle has been taken.
That the 10 ms of the wait list pass over no starving crew is said of `choose`; that the moment itself changes nothing is the model's choice
(log entry 81). Of a crew that its context's debug halt does not keep from running: no vat is halted
for it. -/
def Obligations.CrewsMove : Prop :=
  (∀ (s : State), s.hub.placing = none → (∀ e ∈ s.crews, e.2.state = .swapped → e.2.requeue = false) →
    (∀ n r k, choose s (waitList s) = some (.place n r k) →
      (∃ c, (n, c) ∈ s.crews ∧ c.state = .wait ∧ s.shedClass c.cls = false ∧ eligible s n c (fun _ => false) r k = true) ∧
      exec .placementReserve s = .next ((s.modCrew n fun c => { c with state := .resv, prow := r, pcol := k }).modHub
        fun h => { h with placing := some n })) ∧
    (∀ r k h w cls, choose s (waitList s) = some (.displace r k h w cls) → ∃ t, exec .placementReserve s = .next t ∧ t.mem = s.mem ∧
      t.crews.length = s.crews.length ∧ ∀ e ∈ s.crews, if e.2.state.holds ∧ cls < e.2.cls ∧ 0 < e.2.shared r k h w
        then (e.1, e.2.evict true) ∈ t.crews else e ∈ t.crews)) ∧
  (∀ (s : State) (n : Nat) (c : Crew), s.hub.placing = some n → s.crew? n = some c → c.state = .resv → c.cls = 0 →
    (∀ e ∈ s.crews, e.2.state = .swapped → e.2.requeue = false) →
    exec .placementReserve s = .next (s.modCrew n fun c => { c with state := .load })) ∧
  (∀ (cls : Nat) (s : State), exec (.waitListStarvation cls) s = .next s ∧
    ∀ n c rest, findRect s n c (fun _ => false) = none → findRect s n c (fun x => c.cls < x.cls) = none →
      choose s ((n, c) :: rest) = if c.waitSince + 10000000 ≤ s.devtime then none else choose s rest) ∧
  (∀ (s : State) (n : Nat) (c : Crew), s.hub.placing = some n → s.crew? n = some c → c.state = .load → c.saved = none →
    (∀ v, c.ctx ∉ (s.vat v).halted) →
    ∃ t x, exec .placementCommit s = .next t ∧ t.hub.placing = none ∧ t.crew? n = some x ∧ x.state = .init ∧ x.started = true ∧
      x.prow = c.prow ∧ x.pcol = c.pcol ∧ x.lrow = c.prow ∧ x.lcol = c.pcol ∧ x.expected = c.t * c.n ∧
      x.bars = Vector.replicate 8 ⟨false, c.t * c.n, false⟩) ∧
  (∀ (s : State) (n : Nat) (c : Crew) (args : List Word) (i k : Nat) (occ : Bool), let t := startThread s n c args i k occ
    t.ref = ⟨n, i, k⟩ ∧ t.occ = occ ∧ t.entry = true ∧ t.user = true ∧
    t.pc = (if k = 7 then (if c.mentry = 0 then Config.defaultMovement else c.mentry) else c.entry) ∧
    t.light = (decide (k ≠ 7) && c.light) ∧ (∀ j, j < 6 → t.getG j = args.getD j 0) ∧
    t.getG 6 = word (i % c.w + i / c.w * 2 ^ 8 + k * 2 ^ 16 + c.task * 2 ^ 32) ∧ t.getG 7 = word (c.w + c.h * 2 ^ 8 + c.t * 2 ^ 16) ∧ t.getG 21 = 0xFFFFFFFF80040000) ∧
  (∀ (n : Nat) (s : State) (c : Crew) (g : Graph), s.crew? n = some c → c.state = .init → s.graph? c.graph = some g →
    let img := g.scrimg.getD c.task (0, 0)
    (∀ va, readRange s c.ctx img.1 img.2 = .inr va → exec (.scrimgCopyDone n) s = .next (endGraphAt s c.graph 0x0A va)) ∧
    (∀ bs, readRange s c.ctx img.1 img.2 = .inl bs → s.shedClass c.cls = false →
      ∃ t, exec (.scrimgCopyDone n) s = .next t ∧ t.crew? n = some { c with state := .run } ∧ t.threads = s.threads)) ∧
  (∀ (n : Nat) (s : State) (c : Crew), s.crew? n = some c → canSpill s n c = true →
    (c.swapWanted = true → c.state = .run ∨ c.state = .parked → ∃ t x, exec (.gangPreempt n) s = .next t ∧ t.crew? n = some x ∧
      x.state = .preempt ∧ x.saved.isSome ∧ (∀ e ∈ t.threads, e.2.ref.crew ≠ n) ∧ ∀ e ∈ t.closet, e.2.th.ref.crew ≠ n) ∧
    (c.state = .run → crewIdle s n c = true → waitList s ≠ [] → ∃ t x, exec (.idleSwap n) s = .next t ∧ t.crew? n = some x ∧
      x.state = .swapped ∧ x.idle = true ∧ x.saved.isSome) ∧
    (∀ a, c.state = .run → c.shedMark = true → c.graceAt = some a → a ≤ s.devtime →
      ∃ t x, exec (.shedGraceExpiry n) s = .next t ∧ t.crew? n = some x ∧ x.state = .preempt ∧ x.shedMark = false ∧
        x.graceAt = none)) ∧
  (∀ (n : Nat) (s : State) (c : Crew) (v : CrewSave), s.crew? n = some c → c.saved = some v → c.state = .preempt →
    c.swapWanted = true → ∃ t x y, exec (.swapOut n) s = .next t ∧ t.crew? n = some x ∧ x.saved = some y ∧ y.withSpm = true ∧
      y.threads = v.threads ∧ x.swapWanted = false ∧ x.state = .swapped ∧ x.requeue = c.requeue) ∧
  (∀ (n : Nat) (s u : State) (c : Crew), s.crew? n = some c → resumeCrew s n = some u →
    (c.state ≠ .halted → (∀ v, c.ctx ∉ (s.vat v).halted) → ∃ x, u.crew? n = some x ∧ x.state = .run) ∧
    (c.state = .load → s.hub.placing = some n →
      exec (.crewRestore n) s = .next (u.modHub fun h => { h with placing := none })) ∧
    (c.state = .preempt → mayRestore s n c = true → exec (.crewRestore n) s = .next u)) ∧
  (∀ (core n since : Nat) (s : State) (c : Crew), (s.core core).hotSince = some since → since + 1000000 ≤ s.devtime →
    4 * fld s.power.therm 0 8 < (s.core core).temp →
    (s.crewsOn core).find? (fun e => decide (e.2.state = .run) && !e.2.relocMark && (coolestRect s e.1 e.2).isSome) = some (n, c) →
    exec (.relocationMark core) s = .next (s.modCrew n fun c => { c with relocMark := true })) ∧
  (∀ (n r k : Nat) (s u w : State) (c : Crew), s.crew? n = some c → c.state = .parked → c.relocMark = true →
    (∀ v, c.ctx ∉ (s.vat v).halted) → s.sealPending c.ctx = false → coolestRect s n c = some (r, k) →
    saveCrew s n .reloc true = some u →
    let v := (flushSlices u ((span 0 c.n).map c.phys)).modCrew n fun c => { c with prow := r, pcol := k, relocMark := false }
    (if v.shedClass c.cls then restoreCrew v n .parked else resumeCrew v n) = some w →
    exec (.relocation n) s = .next w ∧ ∃ x, w.crew? n = some x ∧ x.prow = r ∧ x.pcol = k ∧ x.lrow = c.lrow ∧ x.lcol = c.lcol ∧
      x.relocMark = false ∧ x.state = if v.shedClass c.cls then .parked else .run) ∧
  (∀ (n : Nat) (s : State) (c : Crew), s.crew? n = some c → c.state = .parked → c.relocMark = true → s.sealPending c.ctx = false →
    coolestRect s n c = none → ∃ t x, exec (.relocation n) s = .next t ∧ t.crew? n = some x ∧ x.relocMark = false ∧
      x.prow = c.prow ∧ x.pcol = c.pcol ∧ x.state = if s.shedClass c.cls then .parked else .run)

/-- Items, tokens and the end of a graph (R115 to R119, R122): the oldest item of the next queue goes to the next waiting thread; after the
last item each consumer's thread receives the token once; a graph that may retire is removed with its crews, and its LAUNCH completes. -/
def Obligations.ItemsAndRetirement : Prop :=
  (∀ (gid task n q k core p : Nat) (s : State) (g : Graph) (c : Crew) (x : GQueue), s.graph? gid = some g →
    itemCrew s g task = some (n, c) →
    nextAfter id (Tbl.find g.lastQ task) ((span 0 g.queues.length).filter fun q => match g.queues[q]? with
      | some x => decide (x.consumer = task) && !x.items.isEmpty | none => false) = some q →
    nextAfter (·.1) (Tbl.find g.lastTo task) ((workerSlots s n c).filter fun x => (s.thread x.2.1 x.2.2).wantsItem) =
      some (k, core, p) →
    s.gqueue? gid q = some x →
    ∃ t, exec (.itemDispense gid task) s = .next t ∧
      t.thread core p = (s.thread core p).giveItem (x.items.headD []) (word (q + x.len * 2 ^ 16)) 0 ∧
      t.gqueue? gid q = some { x with items := x.items.drop 1, dispensed := x.dispensed + 1 }) ∧
  (∀ (gid q core slot n : Nat) (s : State) (g : Graph) (c : Crew) (x : GQueue), s.graph? gid = some g → s.gqueue? gid q = some x →
    itemCrew s g x.consumer = some (n, c) → x.eos = true → x.items = [] → (s.thread core slot).ref.crew = n →
    (s.thread core slot).ref.lslot < 7 → (s.thread core slot).wantsItem = true → (s.thread core slot).tokenName ∉ x.eosTo →
    ∃ t, exec (.eosDispense gid q core slot) s = .next t ∧
      t.thread core slot = (s.thread core slot).giveItem [] (word q) 1 ∧
      t.gqueue? gid q = some { x with eosTo := (s.thread core slot).tokenName :: x.eosTo } ∧ t.mem = s.mem) ∧
  (∀ (t : Thread) (ws : List Word) (a b : Word), let u := t.giveItem ws a b
    (∀ k, k < 8 → u.getG k = ws.getD k 0) ∧ u.getG 8 = a ∧ u.getG 9 = b ∧
    (∀ k, k < 10 → u.full.getLsbD k = true)) ∧
  (∀ (gid : Nat) (s : State) (g : Graph), s.graph? gid = some g → mayRetire s g = true →
    ∃ t, exec (.graphRetire gid) s = .next t ∧ t.graph? gid = none ∧ (∀ n ∈ g.crews, t.crew? n = none) ∧
      t = endGraph (profSpill s g.ctx) gid (if g.err then 0x0A else 0) (s.devtime - g.start))

/-- What threads meet between their instructions (R150 to R154, R160 to R169, R172, R173, R179, R194, R219, R447): at a boundary
the oldest asynchronous trap is taken, and else the oldest notify; results land; a parked thread tries its effect again, and goes on
where it is made; buffered words reach their targets, wherever their sender is held, or their thread times out. A trap at the boundary of
an EXIT that waits has the EXIT's own address in TPC (R351). -/
def Obligations.ThreadsGoOn : Prop :=
  (∀ (core slot : Nat) (s : State) (a : AsyncTrap) (l : List AsyncTrap), let u := s.at core slot
    u.hasTurn = true → u.me.skip = 0 → u.me.atraps = a :: l →
    u.me.csr.tnest.getLsbD 0 = false → u.me.atBoundary = true →
    exec (.asyncTrapEntry core slot) s = .next (takeTrap (u.modMe Thread.popTrap) core slot a.cause.toNat a.addr a.aux
      u.me.boundaryPC false true)) ∧
  (∀ (core slot : Nat) (s : State) (n : Notify) (l : List Notify), let u := s.at core slot
    u.hasTurn = true → u.me.skip = 0 → u.me.nq = n :: l → u.me.divertible = true →
    ∃ t, exec (.notifyEntry core slot) s = .next t ∧ t.me.notify = true ∧ t.me.nq = l ∧ t.me.pc = u.me.csr.nvec ∧
      t.me.entry = true ∧ t.me.y = #v[(match u.me.park with | some p => p.addr | none => u.me.pc), n.addr, word (n.phase.toNat + 16 * b2n n.err), 0] ∧ t.me.g = u.me.g ∧
      t.me.csr = u.me.csr ∧ t.mem = s.mem) ∧
  (∀ (core slot i : Nat) (s : State) (p : Pending), let t := s.thread core slot
    t.pend[i]? = some p → p.left = none → p.awaits = false → t.frozen = false →
    exec (.asyncResultLand core slot i) s =
      .next (s.setThread core slot ({ t with pend := t.pend.eraseIdx i }.land p))) ∧
  (∀ (core slot : Nat) (s : State) (p : Park) (i : Instr) (o : Ops) (b : Body), let u := s.at core slot
    s.retryable core slot = some p → p.resume = [(i, o)] → bodyOf i = some b →
    let w := b.h.w.toNat
    let next := settle u [(i, o)] w (p.next.getD u.me.pc) (b.eff o u)
    (p.why = .memory ∨ p.why = .message ∨ p.why = .tbar → exec (.accessPerformed core slot) s = .next next) ∧
    ((∃ h k, i = .tlbi h k) ∨ (∃ h a k, i = .tlbiOne h a k) → exec (.tlbiComplete core slot) s = .next next) ∧
    ((∃ h a d, i = .cpym h a d) → slot = 7 → exec (.cpymAccept core) s = .next next) ∧
    ((∃ h x y, i = .ctxsw h x y) → slot < 8 → (∀ j q, j < slot → s.retryable core j = some q →
      ∀ r ∈ q.resume, ∀ h x y, r.1 ≠ .ctxsw h x y) → exec (.closetSwap core) s = .next next) ∧
    (∀ v, b.eff o u = .done v → next.me.park = none ∧ next.me.pc = p.next.getD u.me.pc ∧ next.me.skip = w ∧ next.mem = v.mem)) ∧
  (∀ (core slot : Nat) (l : Loc) (s : State) (o : OutWord) (r : TRef) (c : Crew) (x : Thread), s.place core slot = some l →
    let t := s.atLoc l
    t.outBuf = some o → s.target (s.ctxOf t.ref.crew) o.core.toNat o.slot.toNat = some r → s.crew? r.crew = some c →
    c.accepts = true → s.ref? r = some x → x.occ = true → x.exited = false →
    (o.reg = none → x.inq.length < 16 → exec (.sendDelivery core slot) s =
      .next ((s.modRef r fun t => { t with inq := t.inq ++ [o.word] }).modLoc l fun t => { t with outBuf := none })) ∧
    (∀ k, o.reg = some k → (x.light = true → k.toNat < 10) → x.isFull k.toNat = false → x.awaits (.g k 0) = false →
      x.parkWrites k = false → s.retained (c.phys r.lcore) 2 = false → exec (.putrLand core slot) s =
        .next ((s.modRef r fun t => t.writeReg (.g k o.word)).modLoc l fun t => { t with outBuf := none })) ∧
    (∀ k, o.reg = some k → x.light = true → 10 ≤ k.toNat → exec (.putrLand core slot) s =
      .next ((s.modRef t.ref fun x => x.postTrap 0x19 0 (word (o.core.toNat + o.slot.toNat * 2 ^ 12 + k.toNat * 2 ^ 15))).modLoc
        l fun t => { t with outBuf := none }))) ∧
  (∀ (core slot : Nat) (s : State) (p : Park), let t := s.thread core slot
    let tmo := fld (t.tmoNow s.devtime).1 0 20
    t.occ = true → t.park = some p → tmo ≠ 0 → tmo * 1000 ≤ t.timer →
    (p.why = .message → p.key ≠ 0 → p.key ≠ keyMail → exec (.sendTimeout core slot) s =
      .next (takeTrap s core slot 0x11 0 (word (sndtoAux p.key)) p.addr false false)) ∧
    (∀ o, p.why = .exit → t.outBuf = some o → (∀ a ∈ t.atraps ++ t.atrapsHeld, a.cause.toNat ≠ 0x11) →
      exec (.sendTimeout core slot) s = .next (exitTrap s core slot 0x11 0
        (word (sndtoAux (keySend o.core.toNat o.slot.toNat)))))) ∧
  (∀ (core slot n : Nat) (s : State), n ≠ 0 → n ≤ (s.thread core slot).unacked →
    (∀ c, s.ctx? (s.ctxOf (s.thread core slot).ref.crew) = some c → ∀ q b, HeldOut.host q b ∉ c.outs) →
    exec (.writeAcknowledge core slot n) s = .next (s.modThread core slot fun t => { t with unacked := t.unacked - n }))

/-- Curds, closets and streams (R108, R158, R165 to R169, R393, R395, R453): a travelling curd enters its home core's queue and leaves its slot
vacant; the first curd of the highest class resumes in a vacant slot of its crew; a movement context with a full mailbox takes slot 7
from an idle one; a stream's element is fetched, or lands, or stops its stream, which a write that is parked on its full buffer is told of. -/
def Obligations.CurdsAndStreams : Prop :=
  (∀ (core slot : Nat) (s : State) (p : Park) (c : Crew), let t := s.thread core slot
    let k := packCurd s t c (p.next.getD t.pc)
    let home := c.phys (p.key - 1)
    t.occ = true → t.park = some p → p.why = .migrate → p.key ≠ 0 → p.resume = [] → s.crew? t.ref.crew = some c →
    c.state.holds = true → ((s.core home).runq.filter fun x => x.cls = k.cls).length < 64 →
    ∃ u, exec (.curdAdmit core slot) s = .next u ∧ (u.core home).runq = (s.core home).runq ++ [k] ∧ (u.thread core slot).occ = false ∧
      (u.thread core slot).g = t.g ∧ u.mem = s.mem) ∧
  (∀ (core : Nat) (s : State) (k : Curd) (l : List Nat), nextCurd s core = some (k, l) →
    (∀ x ∈ (s.core core).runq, x.crew = k.crew → k.cls ≤ x.cls ∨ 8 ≤ x.cls) ∧
    ∃ p ∈ l, ∃ t, exec (.curdResume core) s = .next t ∧ t.thread core p = s.takeCurd core (s.thread core p) k ∧
      (t.core core).runq = (s.core core).runq.erase k ∧ t.mem = s.mem) ∧
  (∀ (t : Thread) (k : Curd), t.notify = false → let u := t.takeCurd k
    u.occ = true ∧ u.light = true ∧ u.pc = k.pc ∧ u.pred = k.pred ∧ u.park = none ∧ u.skip = 0 ∧ u.ref = t.ref ∧ u.user = !k.prv ∧
    (∀ i, i < 10 → u.getG i = vget k.g i 0) ∧ (∀ i, i < 10 → u.full.getLsbD i = k.full.getLsbD i)) ∧
  (∀ (core e : Nat) (s : State), let t := s.thread core 7
    t.occ = false ∨ (t.pend = [] ∧ t.mailParked = true) → mailWaits s core = some e → swapWaits s core 7 e = false → ∃ x u, s.closetAt core e = some x ∧ exec (.movementSwap core) s = .next u ∧
      u = swapCloset s core 7 e ∧ u.thread core 7 = { x.th with line := none } ∧
      ((u.closetAt core e).map (·.th) = if t.occ then some { t with line := none } else none)) ∧
  (∀ (core slot sr : Nat) (s : State), let u := s.at core slot
    let r := 24 + sr % 4
    let b := u.stream r
    let put (v : State) (e : StreamElem) : State := v.modStream r fun b => { b with buf := b.buf ++ [e] }
    u.me.occ = true → b.bound = true → b.isWrite = false → b.count + b.buf.length < b.total → b.buf.length < 16 →
    (∀ e, b.buf.getLast? = some e → e.cause = 0) →
    (∀ va c a, streamPlace u b (b.count + b.buf.length) = .flt va c a →
      exec (.streamElementFetch core slot sr) s = .next (put u ⟨va, BitVec.ofNat 8 c, word a⟩)) ∧
    (∀ u1 va, streamPlace u b (b.count + b.buf.length) = .ok u1 va →
      let counts := newElemLine b.desc (b.count + b.buf.length) va
      (∀ c a, streamRead u1 b va (sdBytes b.desc) counts = .flt c a →
        exec (.streamElementFetch core slot sr) s = .next (put u1 ⟨va, BitVec.ofNat 8 c, word a⟩)) ∧
      (∀ u2 v, streamRead u1 b va (sdBytes b.desc) counts = .ok u2 v → exec (.streamElementFetch core slot sr) s =
        .next (put u2 ⟨if b.desc.getLsbD 51 then sext v (8 * sdBytes b.desc) else word v, 0, 0⟩)))) ∧
  (∀ (core slot sr : Nat) (s u1 u2 : State) (va : Word) (e : StreamElem) (l : List StreamElem), let u := s.at core slot
    let r := 24 + sr % 4
    let b := u.stream r
    b.buf = e :: l → u.me.occ = true → b.bound = true → b.isWrite = true → b.stopped = false →
    streamPlace u b (b.count - b.buf.length) = .ok u1 va →
    (engineStore u1 (b.reader u) va.toNat (bytesOf e.val.toNat (sdBytes b.desc)) = some u2 →
      exec (.streamElementLand core slot sr true) s = .next (u2.modStream r fun b => { b with buf := l })) ∧
    (∀ c a, writeFault u1 b va = some (c, a) → b.tben = false → u.me.csr.tnest.getLsbD 0 = false → ∃ t, exec (.streamElementLand core slot sr false) s = .next t ∧
      (t.stream r).stopped = true ∧ (t.stream r).buf = [] ∧ (t.stream r).stop = some ⟨BitVec.ofNat 8 c, va, word a⟩ ∧
      (∀ h ∈ t.holds, h.owner ≠ b.hold) ∧ ∀ p, u.me.park = some p → p.key = keyStream r →
        t.me.csr.tcause = word (c % 256) ∧ t.me.csr.taddr = va ∧ t.me.csr.tpc = p.addr))

/-- Pacts (R225, R226, R230 to R234, R237, R239 to R244, R269, R278, R281): two halves of one tag form a pact where their operations, fields
and roles agree, and its holds are free; else both trap. An entry begins when its turn comes; a pact streams to its end, delivers or is
done, suspends at a stopping point while a cause holds, and goes on when none is left, and once its first refetch succeeds where a thread
has re-issued it (R241); a thread that waits PACTMO gives it up. -/
def Obligations.PactsRun : Prop :=
  (∀ (press : Nat) (tag : BitVec 8) (s : State) (a b : Half), bothHalves (s.press press) tag = some (a, b) →
    (a.op ≠ b.op ∨ agreeOf a.op a.rcd ≠ agreeOf a.op b.rcd →
      exec (.pactForm press tag) s = .next (mismatch (mismatch s press a 0) press b 0)) ∧
    (a.op = b.op → agreeOf a.op a.rcd = agreeOf a.op b.rcd → a.rcd.getLsbD 0 = b.rcd.getLsbD 0 →
      exec (.pactForm press tag) s = .next (mismatch (mismatch s press a 1) press b 1)) ∧
    (∀ x, a.op = b.op → agreeOf a.op a.rcd = agreeOf a.op b.rcd → pairOf press a b = some x → a.inGang = false →
      let rank := pactRank a.op a.rcd (crewPress s a.issuer.crew press)
      let s0 := s.dropHolds x.lead.id fun _ => true
      (∀ lead c va aux, pairHolds s x x.lead.id x.lead.id = .error (.trap lead c va aux) →
        exec (.pactForm press tag) s = .next (failPairs s [x] press lead c va aux)) ∧
      (∀ h pg, pairHolds s x x.lead.id x.lead.id = .ok (h, pg) →
        (∀ aux l y, register s0 (h.map (·.hold)) = .rhld aux l → h.find? (fun y => decide (y.hold = l)) = some y →
          exec (.pactForm press tag) s = .next (failPairs s0 [x] press y.lead 8 y.va aux)) ∧
        (∀ s1, register s0 (h.map (·.hold)) = .ok s1 → (s.press press).queue.length < 4 →
          exec (.pactForm press tag) s = .next (formPair s1 x x.lead.id rank pg)))) ∧
    (∀ x, a.op = b.op → agreeOf a.op a.rcd = agreeOf a.op b.rcd → pairOf press a b = some x → a.inGang = true →
      let all := gangHalves s a
      let full : Prop := 2 * ((shapeOf a.rcd).gr * (shapeOf a.rcd).gc) ≤ all.length
      (¬full → exec (.pactForm press tag) s = .next s) ∧
      (full → gangPairs s a = none → exec (.pactForm press tag) s = .next (all.foldl (fun s y => mismatch s y.1 y.2 3) s)) ∧
      (∀ ps t, full → gangPairs s a = some ps → formPairs s ps (pactRank a.op a.rcd (crewPress s a.issuer.crew press)) = some t →
        exec (.pactForm press tag) s = .next t))) ∧
  (∀ (s : State) (x : Pair) (gang rank : Nat) (pg : List (Nat × Nat × BitVec 64)), let t := formPair s x gang rank pg
    (t.press x.press).queue = (s.press x.press).queue ++ [pairEntry s x gang pg] ∧
    (t.press x.press).halves = (s.press x.press).halves.filter (fun h => h.tag ≠ x.lead.tag) ∧ t.mem = s.mem ∧
    (pairEntry s x gang pg).state = .queued ∧ (pairEntry s x gang pg).recA = x.lead.rcd ∧
    (pairEntry s x gang pg).recB = x.other.rcd ∧ (pairEntry s x gang pg).tag = x.lead.tag) ∧
  (∀ (press i : Nat) (s : State) (e : PressEntry), let p := s.press press
    p.queue[i]? = some e → e.state = .queued → (∀ x ∈ p.queue.take i, x.state ≠ .queued ∧ x.names &&& e.names = 0) →
    ((e.op = .pmm ∨ e.op = .pdsc ∨ e.op = .pdgr) → pressCauses s press e = false → (∀ x ∈ p.queue.take i, holdsArray x = false) →
      ∃ t x, exec (.pressEntryStart press i) s = .next t ∧ (t.press press).queue[i]? = some x ∧ x.id = e.id ∧ x.state = .stream ∧
        (e.op ≠ .pmm → (t.press press).slots = p.slots)) ∧
    (e.op = .prdl → pressHeld s press e = false →
      ∃ t x, exec (.pressEntryStart press i) s = .next t ∧ (t.press press).queue[i]? = some x ∧ x.state = .deliver) ∧
    (e.op.isPact = false → e.op ≠ .prdl → pressHeld s press e = false → exec (.pressEntryStart press i) s =
      .next (s.modPress press fun q => q.setEntry i { e with state := .stream }))) ∧
  (∀ (press i : Nat) (s : State) (e : PressEntry), streaming (s.press press) = some (i, e) → e.abort = false →
      gangCauses s e = false → gangFault s e = false →
    (∀ q fl, advance s press e e.total = .ok q fl →
      let y := { e with kdone := max e.kdone e.total, flags := fl, delays := [] }
      (y.delivers = false →
        exec (.pactStreamEnd press) s =
          .next (finishPact ((pressWalks s press y).modPress press fun _ => q.setEntry i y) press y)) ∧
      (y.delivers = true → ∃ t, exec (.pactStreamEnd press) s = .next t ∧
        t.press press = q.setEntry i { y with state := .deliver } ∧ t.mem = s.mem ∧
        (e.op ≠ .pdgr → ∀ h ∈ t.holds, h.owner = e.id → h.write = true))) ∧
    (∀ q fl k l, advance s press e e.total = .delay q fl k l →
      let old := if k = e.kdone then e.delays else []
      (l.1, l.2, s.devtime / 500) ∉ old → exec (.pactStreamEnd press) s = .next ((s.modPress press fun _ => q.setEntry i { e with
        kdone := k, flags := fl, delays := old ++ [(l.1, l.2, s.devtime / 500)] }).bump (0x100 * e.core press l.1 + 0x30) 1))) ∧
  (∀ (press koff i : Nat) (s u : State) (e y : PressEntry) (l : List (Nat × PressEntry)), active (s.press press) = (i, e) :: l →
    e.abort = true ∨ gangCauses s e = true ∨ gangFault s e = true → Reaches s press i e koff u y →
    (y.abort = false → ∃ t z, exec (.pactSuspend press koff) s = .next t ∧ t.press press = (u.press press).setEntry i z ∧
      z.state = .susp ∧ z.kdone = y.kdone ∧ z.id = y.id ∧ z.causes.preempt = (u.away y.lead || u.away y.other)) ∧
    (∀ v, y.abort = true → cancelPact u press y = .ok v → exec (.pactSuspend press koff) s = .next v)) ∧
  (∀ (press i : Nat) (s : State) (e : PressEntry) (l : List (Nat × PressEntry)), suspendedEntries (s.press press) = (i, e) :: l →
    gangCauses s e = false → gangFault s e = false → (reissued s press e = true → refetchOk s press e = true) →
    ∃ t, exec (.pactResume press) s = .next t ∧ t.press press = (s.press press).setEntry i { e with
      state := if e.op = .pdgr ∧ 1 ≤ e.kdone then .deliver else .stream, causes := ⟨false, false, false, false⟩ }) ∧
  (∀ (core slot : Nat) (s : State) (j : Joined), let t := s.thread core slot
    let tmo := fld (t.tmoNow s.devtime).2 0 20
    waitedPact s t = some j → tmo ≠ 0 → tmo * 1000 ≤ t.timer →
    (∀ h u, (s.press j.press).halves.find? (fun h => decide (h.id = j.pact) && decide (h.far = j.far)) = some h →
      halfMatched s j = false → cancelHalf s j.press h 0x0E (word (tagAux j.press j.far j.tag)) = .ok u →
      exec (.pactTimeout core slot) s = .next u) ∧
    (∀ e u p, (s.press j.press).halves.find? (fun h => decide (h.id = j.pact) && decide (h.far = j.far)) = none →
      (s.press j.press).queue.find? (fun e => decide (e.id = j.pact) && e.op.isPact && decide (e.state = .susp)) = some e →
      cancelPact s j.press e = .ok u → (u.thread core slot).park = some p →
      exec (.pactTimeout core slot) s = .next (
        if p.why = .exit then exitTrap u core slot 0x0E 0 (word (tagAux j.press j.far j.tag + 1024))
        else takeTrap u core slot 0x0E 0 (word (tagAux j.press j.far j.tag + 1024)) p.addr false false)))

/-- What a press tells and finishes (R232, R233, R240 to R242, R279, R280, R423 to R426): an operand that cannot be read suspends its pact, and
the end that owns it is posted PFLT; a delivery writes its granules and counts each at its barrier, or stops in DFAULT with PDLV at the
granule, or the gradient's add, that fails; a
command of one end has its effect on the press, its thread and its scratchpad. -/
def Obligations.PressesTellAndFinish : Prop :=
  (∀ (press koff i : Nat) (own scale : Bool) (addr : Word) (s u : State) (e y : PressEntry) (l : List (Nat × PressEntry)),
    active (s.press press) = (i, e) :: l → e.abort = false → Reaches s press i e koff u y →
    readsAt u press y koff own scale addr.toNat = true → readFails u (y.reader u press !own) (y.weight own) addr.toNat = true →
    exec (.operandFault press koff own scale addr) s = .next ((u.modPress press fun p => p.setEntry i { y with
      state := .susp, causes := if own then { y.causes with faultB := true } else { y.causes with faultA := true } }).modRef
        (if own then y.other else y.lead) fun t => t.postTrap 0x0F addr (pfltAux press y koff own scale))) ∧
  (∀ (press i : Nat) (own scale : Bool) (addr : Word) (s : State) (e : PressEntry) (r : TRef) (l : List (Nat × PressEntry)),
    active (s.press press) = [] → suspendedEntries (s.press press) = (i, e) :: l → reissuer s press e own = some r →
    gangFault s e = false → readsAt s press e e.kdone own scale addr.toNat = true →
    readFails s (e.reader s press !own) (e.weight own) addr.toNat = true →
    exec (.operandFault press e.kdone own scale addr) s = .next (trapRef (s.modPress press fun p => p.setEntry i { e with
      state := .susp, causes := if own then { e.causes with faultB := true } else { e.causes with faultA := true } }) r 0x0F addr
        (pfltAux press e e.kdone own scale))) ∧
  (∀ (press i : Nat) (s u v : State) (e : PressEntry), (s.press press).queue[i]? = some e → e.op = .pmm ∨ e.op = .pdsc →
    e.state = .deliver → e.landed = false → e.doomed = none → pressHalted s press (s.ctxOf e.lead.crew) = false →
    let w := deliveryWrites (s.press press) e
    let n := (e.granules.filter fun g => !(othersGranules s press e).contains g).length
    let x := { e with gran := e.gran + n, flags := e.flags ||| w.2 }
    engineStores s (e.reader s press true) w.1 = some u →
    countN (if (gangOthers s press e).isEmpty then u.dropHolds e.gang fun h => h.write else u)
      (e.core press true) (s.ctxOf e.lead.crew) e.tb (.press e.id) n = .ok v →
    exec (.pactDeliveryDone press i) s = .next (if (gangOthers v press x).isEmpty then endGang (finishPact v press x) x.gang
      else v.modPress press fun p => p.setEntry i { x with landed := true })) ∧
  (∀ (press i : Nat) (s u v : State) (e x : PressEntry), (s.press press).queue[i]? = some e → e.op = .pdgr → e.state = .deliver →
    e.landed = false → e.doomed = none → pressHalted s press (s.ctxOf e.lead.crew) = false → gangCauses s e = false →
    gangFault s e = false → gradTo s press e (descOf e.recA).depth = some (u, x, true) →
    countAt (u.dropHolds e.gang fun _ => true) (e.core press true) (s.ctxOf e.lead.crew) e.tb (.press e.id) = .ok v →
    exec (.pactDeliveryDone press i) s = .next (finishPact v press { x with kdone := 1 + (descOf e.recA).depth })) ∧
  (∀ (s : State) (press : Nat) (e : PressEntry), let t := finishPact s press e
    (∀ x ∈ (t.press press).queue, x.id ≠ e.id) ∧ (∀ h ∈ t.holds, h.owner = e.id → h.write = true) ∧
    (∀ far, ∃ x, (far, x) ∈ (t.press press).past ∧ x.id = e.id ∧ x.state = .done)) ∧
  (∀ (press i landed : Nat) (addr : Word) (s : State) (e : PressEntry), (s.press press).queue[i]? = some e → e.op.isPact = true →
    e.state = .deliver → e.landed = false → pressHalted s press (s.ctxOf e.lead.crew) = false →
    (∀ a, e.doomed = some a → exec (.deliveryFault press i landed addr) s = .next (enterDfault s press e true a)) ∧
    (∀ u x t, e.op = .pdgr → e.doomed = none →
      let levels := addedLevels (s.press press) (descOf e.recA) (e.gran + landed) (descOf e.recA).depth
      gradTo s press e (levels + 1) (some landed) = some (u, x, true) → x.gran = e.gran + landed →
      nextAdd (s.press press) x = some addr.toNat → storeFails u (e.reader s press true) addr.toNat = true →
      errorAt ((enterDfault u press x false addr).dropHolds x.gang fun _ => true) (e.core press true) (s.ctxOf e.lead.crew) x.tb 1
        (.press e.id) = .ok t →
      exec (.deliveryFault press i landed addr) s = .next t) ∧
    (∀ u v t, e.op ≠ .pdgr → e.doomed = none →
      let rd := e.reader s press true
      let w := deliveryWrites (s.press press) e
      let gs := granulesOf w.1
      let n := ((gs.take landed).filter fun g => !(othersGranules s press e).contains g).length
      let x := { e with gran := e.gran + n, flags := e.flags ||| w.2 }
      gs[landed]? = some (addr.toNat / 64) → storeFails s rd addr.toNat = true →
      engineStores s rd (w.1.filter fun w => (gs.take landed).contains (w.1 / 64)) = some u →
      countN u rd.core rd.ctx e.tb (.press e.id) n = .ok v →
      let c := v.modPress press fun p => p.setEntry i x
      errorAt (failGang (enterDfault c press x false addr) x.gang addr) rd.core rd.ctx x.tb (uncounted c x) (.press e.id) = .ok t →
      exec (.deliveryFault press i landed addr) s = .next t)) ∧
  (∀ (s : State) (press : Nat) (e : PressEntry) (other : Bool) (addr : Word), let t := enterDfault s press e other addr
    (∀ x ∈ (t.press press).queue, x.id ≠ e.id) ∧ (∀ h ∈ t.holds, h.owner = e.id → h.write = true) ∧
    (s.profiled (s.ctxOf e.lead.crew) = false → t.mem = s.mem) ∧
    (∀ far, ∃ x, (far, x) ∈ (t.press press).past ∧ x.id = e.id ∧ x.state = .dfault)) ∧
  (∀ (press i : Nat) (s : State) (e : PressEntry), (s.press press).queue[i]? = some e → e.state = .stream →
    pressHeld s press e = false →
    let core := e.core press true
    let words := imageBytes e.f64 / 4
    let pa := spmPA core (e.opA.toNat % 262144)
    (e.op = .pclr → ∃ t, exec (.slotCommandDone press i) s = .next t ∧ (∀ w, w < words → slotWord (t.press press) e.slot w = 0) ∧
      t.mem = s.mem) ∧
    (e.op = .pscl → ∃ t, exec (.slotCommandDone press i) s = .next t ∧
      (t.press press).slots = (scaleSlot (s.press press) e.slot e.f64 e.opA).1.slots ∧ t.mem = s.mem) ∧
    (e.op = .plds → s.retained core 3 = false → s.poisoned 0 pa (4 * words) = false → ∃ t, exec (.slotCommandDone press i) s = .next t ∧
      (∀ w, w < words → slotWord (t.press press) e.slot w = s.read 0 (pa + 4 * w) 4) ∧ t.mem = s.mem) ∧
    (e.op = .psts → s.retained core 3 = false → ∃ t, exec (.slotCommandDone press i) s = .next t ∧
      (∀ a, a < pa ∨ pa + 4 * words ≤ a → Tbl.get 0 t.mem a = Tbl.get 0 s.mem a) ∧ (t.press press).slots = (s.press press).slots ∧
      ∀ w k, w < words → k < 4 → Tbl.get 0 t.mem (pa + 4 * w + k) = BitVec.ofNat 8 (slotWord (s.press press) e.slot w / 256 ^ k)) ∧
    (e.op = .plds → s.retained core 3 = false → s.poisoned 0 pa (4 * words) = true → s.ckpts (s.ctxOf e.lead.crew) = false →
      ∃ t, exec (.slotCommandDone press i) s = .next t ∧ ∀ x ∈ (t.press press).queue, x.id = e.id → x.op.isPact = true) ∧
    (∀ u, e.op = .prdt → giveAwaited s e.lead e.opB.toNat (vget (s.press press).pt e.pt 0) = some u →
      ∃ t, exec (.slotCommandDone press i) s = .next t ∧ t.mem = u.mem ∧ (∀ x ∈ (t.press press).queue, x.id = e.id → x.op.isPact = true)) ∧
    (e.op = .pwrt → ∃ t, exec (.slotCommandDone press i) s = .next t ∧
      (t.press press).pt = (s.press press).pt.setIfInBounds e.pt e.opA ∧ t.mem = s.mem))

/-- Copies and other packages (R18 to R24, R91, R193 to R196, R207, R219, R220, R430 to R436): a unit that lands writes its bytes and is
counted; the last one ends the command, with its status and its holds released before it is counted; a failure, or 10 ms without a port,
ends the command; an incoming transfer registers its hold and writes, adds or reads, or waits for a hold for at most 10 ms. A sector that a save made land
again is counted once (R436). That an incoming transfer meets the weight store of the hub's die is the model's choice (log entries 95
and 125). -/
def Obligations.CopiesRun : Prop :=
  (∀ (vat idx j : Nat) (s : State) (g : Eng), movable s vat idx = some g → j < g.cmd.units → g.cmd.has j = false →
    let now := g.cmd.sent.contains j
    let ended (t : State) : Prop := (∀ x ∈ (t.vat vat).copies, x.id ≠ g.cmd.id) ∧ ∀ h ∈ t.holds, h.owner ≠ g.cmd.id
    (∀ u bs fl, landUnit s g j now = (.ok u bs, fl) → canCount u g j fl = true →
      let c := g.cmd.land j fl
      ∃ t, exec (.copySectorLand vat idx j) s = .next t ∧ (c.next = g.cmd.units → ended t) ∧
        (c.next ≠ g.cmd.units → ∀ x ∈ (t.vat vat).copies, x.id = g.cmd.id →
          x = { c with counted := c.counted + b2n (c.sectorDone j && !c.again.contains (c.sectorOf j)) })) ∧
    (∀ u, (landUnit s g j now).1 = .delay u → exec (.copySectorLand vat idx j) s = .next u) ∧
    (∀ pa bs x, (landUnit s g j now).1 = .held pa bs → s.ctx? g.ctx = some x → unitHeld s g j = false → logRoom x 80 = true →
      ∃ t y, exec (.copySectorLand vat idx j) s = .next t ∧ t.ctx? g.ctx = some y ∧
        y.outs = .remote g.vat g.cmd.id j :: x.outs ∧ t.threads = s.threads) ∧
    (∀ c va aux, (landUnit s g j now).1 = .flt c va aux → canStop s g 1 c va (if c = 6 ∨ c = 7 then aux else 0) = true →
      ∃ t, exec (.copyFailure vat idx j false) s = .next t ∧ ended t) ∧
    (∀ va, (landUnit s g j now).1 = .rmt va → canStop s g 2 0x1A va 0 = true →
      ∃ t, exec (.copyFailure vat idx j true) s = .next t ∧ ended t) ∧
    ((landUnit s g j now).1 = .conflict →
      (g.cmd.route.heldAt = none → ∃ t, exec (.copySectorLand vat idx j) s = .next t ∧ t.mem = s.mem ∧
        ∀ x ∈ (t.vat vat).copies, x.id = g.cmd.id → x.route.heldAt = some s.devtime) ∧
      (∀ a, g.cmd.route.heldAt = some a → a + 10000000 ≤ s.devtime → canStop s g 2 0x1A (g.remoteVA s j) 0 = true →
        ∃ t, exec (.copyFailure vat idx j true) s = .next t ∧ ended t))) ∧
  (∀ (s u : State) (g : Eng) (j : Nat) (bs : List Byte), g.cmd.kind ≠ CPYMK → g.cmd.kind ≠ GATHRK → g.rcd.rem = false →
    let part := g.cmd.part j
    engReadSpan s g g.rcd.src.toNat (g.rcd.src + word part.1).toNat part.2 none = .ok u bs →
    (landUnit s g j false).1 = engWrite u g (g.rcd.dst + word part.1).toNat bs false) ∧
  (∀ (vat idx : Nat) (s : State) (g : Eng), movable s vat idx = some g → g.rcd.rem = true → g.cmd.route.own = false →
    g.cmd.route.pmask ≠ 0 → (∀ p, p < 16 → g.cmd.route.pmask.testBit p = true → s.portLive p = false) →
    (∀ p, g.cmd.route.port = some p → s.portLive p = false) → g.cmd.route.since + 10000000 ≤ s.devtime →
    canStop s g 2 0x1A (g.remoteVA s g.cmd.next) 0 = true →
    ∃ t, exec (.remoteRouteTimeout vat idx) s = .next t ∧ (∀ x ∈ (t.vat vat).copies, x.id ≠ g.cmd.id) ∧
      ∀ h ∈ t.holds, h.owner ≠ g.cmd.id) ∧
  (∀ (xfer kind ctx asid n : Nat) (va : Word) (p : RemotePacket) (last : Bool) (s : State) (c : Ctx),
    s.ctx? ctx = some c → c.asid = asid → s.linked = true → remoteForm kind va n p.base p.len = true →
    (∀ l, kind = 0 → remotePieces s ctx hubWs p.user p.base p.len true = .ok l →
      (∀ r ∈ s.hub.remotes, r.xfer ≠ xfer) →
      let hs := destHolds (xferOwner xfer) ctx l
      (∀ u bs, (∀ h ∈ hs, holdConflict s h.owner true h.lo h.len = none) → holdsFit s hs = true →
        remoteWrite (s.addHolds hs) ctx hubWs p.user va (some (xferOwner xfer))
          (fun _ _ => bytesOf (p.data.toNat % 2 ^ (8 * n)) n) = .ok u bs →
        ∃ t, exec (.remoteWriteArrive xfer kind ctx asid va n p last) s = .next t ∧ t.mem = u.mem ∧
          (last = true → (∀ h ∈ t.holds, h.owner ≠ xferOwner xfer) ∧ ∀ r ∈ t.hub.remotes, r.xfer ≠ xfer) ∧
          (last = false → (∀ h ∈ hs, h ∈ t.holds) ∧ ⟨xfer, 0, ctx, joinPieces l, false, s.devtime⟩ ∈ t.hub.remotes)) ∧
      ((∃ h ∈ hs, (holdConflict s h.owner true h.lo h.len).isSome) →
        ∃ t, exec (.remoteWriteArrive xfer kind ctx asid va n p last) s = .next t ∧ t.mem = s.mem ∧
          ⟨xfer, 0, ctx, joinPieces l, true, s.devtime⟩ ∈ t.hub.remotes)) ∧
    (∀ e l u bs, 1 ≤ kind → kind ≤ 3 → remotePieces s ctx hubWs p.user va n false = .ok (e :: l) →
      let hs := destHolds (xferOwner xfer) ctx (e :: l)
      (∀ h ∈ hs, holdConflict s h.owner true h.lo h.len = none) → holdsFit s hs = true →
      remoteWrite s ctx hubWs p.user va none (fun _ _ =>
        bytesOf (atomicSum (kind - 1) (s.read 0 e.2.1 n) (p.data.toNat % 2 ^ (8 * n))).1 n) = .ok u bs →
      ∃ t, exec (.remoteWriteArrive xfer kind ctx asid va n p last) s = .next t ∧ t.mem = u.mem ∧ t.holds = u.holds) ∧
    (∀ x, kind = 4 → remoteXlate s ctx p.user va .read = .ok x → copyCheck s ctx hubWs x.pa x.lvl false = none →
      s.poisoned hubWs x.pa n = false → fenced s ctx hubWs x.pa x.pte = false → s.hubRefresh x.pa n = false →
      ∃ t, exec (.remoteWriteArrive xfer kind ctx asid va n p last) s = .next t ∧ t.mem = s.mem ∧
        t.hub.remoteReads = (xfer, bytesOf (s.read hubWs x.pa n) n) :: s.hub.remoteReads)) ∧
  (∀ (xfer : Nat) (s : State) (r : RemoteIn), s.hub.remotes.find? (fun r => decide (r.xfer = xfer) && r.waiting) = some r →
    r.since + 10000000 ≤ s.devtime → (∃ p ∈ r.pieces, (holdConflict s (xferOwner xfer) true p.1 p.2).isSome) →
    ∃ t, exec (.remoteHoldWaitTimeout xfer) s = .next t ∧ (∀ x ∈ t.hub.remotes, x.xfer ≠ xfer) ∧ t.holds = s.holds ∧ t.mem = s.mem)
end

