-- ==== Sys2Proof/Laws/Tbl.lean ====
section
/-! SUPPORT. Laws of tables: what a read after a write gives, and that every operation keeps the canonical form. -/

namespace Sys2Proof.Machine.Tbl

variable {α : Type}

theorem find_ins (t : List (Nat × α)) (k j : Nat) (v : α) : find (ins t k v) j = if j = k then some v else find t j := by
  induction t with
  | nil => simp [ins, find]
  | cons e r ih =>
    obtain ⟨k', v'⟩ := e
    by_cases h : k = k'
    · subst h; by_cases hj : j = k <;> simp [ins, find, hj]
    · by_cases hlt : k < k'
      · by_cases hj : j = k <;> simp [ins, find, h, hlt, hj]
      · by_cases hj : j = k'
        · have : j ≠ k := fun e => h (e ▸ hj)
          simp only [ins, if_neg h, if_neg hlt, find, if_pos hj, if_neg this]
        · simp only [ins, if_neg h, if_neg hlt, find, if_neg hj]; exact ih

theorem find_del (t : List (Nat × α)) (k j : Nat) : find (del t k) j = if j = k then none else find t j := by
  induction t with
  | nil => simp [del, find]
  | cons e r ih =>
    obtain ⟨k', v'⟩ := e
    simp only [del] at ih ⊢
    by_cases h : k' = k
    · rw [List.filter_cons_of_neg (by simp [h]), ih, find]
      by_cases hj : j = k
      · simp [hj]
      · have hk : j ≠ k' := fun e => hj (e.trans h)
        simp [hj, hk]
    · rw [List.filter_cons_of_pos (by simp [h]), find, find, ih]
      by_cases hj : j = k'
      · simp [hj, h]
      · simp [hj]

/-- A read of the key written gives the value, whatever the table. -/
@[simp] theorem get_put_same [DecidableEq α] (d : α) (t : List (Nat × α)) (k : Nat) (v : α) : get d (put d t k v) k = v := by
  unfold get put
  split <;> simp_all [find_ins, find_del]

/-- A read of another key gives what it gave before. -/
theorem get_put_other [DecidableEq α] (d : α) (t : List (Nat × α)) {k j : Nat} (v : α) (h : j ≠ k) :
    get d (put d t k v) j = get d t j := by
  unfold get put
  split <;> simp [find_ins, find_del, h]

theorem get_put [DecidableEq α] (d : α) (t : List (Nat × α)) (k j : Nat) (v : α) :
    get d (put d t k v) j = if j = k then v else get d t j := by
  split
  · next h => rw [h, get_put_same]
  · next h => exact get_put_other d t v h

theorem get_upd [DecidableEq α] (d : α) (t : List (Nat × α)) (k j : Nat) (f : α → α) :
    get d (upd d t k f) j = if j = k then f (get d t k) else get d t j := by rw [upd, get_put]

theorem find_modify (t : List (Nat × α)) (k j : Nat) (f : α → α) :
    find (modify t k f) j = if j = k then (find t j).map f else find t j := by
  induction t with
  | nil => simp [modify, find]
  | cons e r ih =>
    obtain ⟨k', v'⟩ := e
    by_cases h : k = k'
    · subst h; by_cases hj : j = k <;> simp [modify, find, hj]
    · by_cases hj : j = k'
      · have : j ≠ k := fun e => h (e ▸ hj)
        simp only [modify, if_neg h, find, if_pos hj, if_neg this]
      · simp only [modify, if_neg h, find, if_neg hj]; exact ih

/-! ## The canonical form -/

theorem sortedFrom_mono {lo lo' : Nat} {t : List (Nat × α)} (h : sortedFrom lo t = true) (hl : lo' ≤ lo) :
    sortedFrom lo' t = true := by
  cases t with
  | nil => rfl
  | cons e r =>
    simp only [sortedFrom, Bool.and_eq_true, decide_eq_true_eq] at h ⊢
    exact ⟨by omega, h.2⟩

theorem sortedFrom_ins (t : List (Nat × α)) (lo k : Nat) (v : α) (h : sortedFrom lo t = true) (hk : lo ≤ k) :
    sortedFrom lo (ins t k v) = true := by
  induction t generalizing lo with
  | nil => simp [ins, sortedFrom, hk]
  | cons e r ih =>
    obtain ⟨k', v'⟩ := e
    simp only [sortedFrom, Bool.and_eq_true, decide_eq_true_eq] at h
    by_cases hkk : k = k'
    · subst hkk; simp [ins, sortedFrom, h.1, h.2]
    · by_cases hlt : k < k'
      · simp only [ins, if_neg hkk, if_pos hlt, sortedFrom, Bool.and_eq_true, decide_eq_true_eq]
        exact ⟨hk, by omega, h.2⟩
      · simp only [ins, if_neg hkk, if_neg hlt, sortedFrom, Bool.and_eq_true, decide_eq_true_eq]
        exact ⟨h.1, ih _ h.2 (by omega)⟩

theorem sortedFrom_filter (t : List (Nat × α)) (lo : Nat) (p : Nat × α → Bool) (h : sortedFrom lo t = true) :
    sortedFrom lo (t.filter p) = true := by
  induction t generalizing lo with
  | nil => rfl
  | cons e r ih =>
    obtain ⟨k', v'⟩ := e
    simp only [sortedFrom, Bool.and_eq_true, decide_eq_true_eq] at h
    by_cases hp : p (k', v') = true
    · simp only [List.filter_cons_of_pos hp, sortedFrom, Bool.and_eq_true, decide_eq_true_eq]
      exact ⟨h.1, ih _ h.2⟩
    · rw [List.filter_cons_of_neg hp]
      exact sortedFrom_mono (ih _ h.2) (by omega)

theorem mem_ins {t : List (Nat × α)} {k : Nat} {v : α} {e : Nat × α} (h : e ∈ ins t k v) : e = (k, v) ∨ e ∈ t := by
  induction t with
  | nil => simpa [ins] using h
  | cons x r ih =>
    obtain ⟨k', v'⟩ := x
    simp only [ins] at h
    split at h
    · rcases List.mem_cons.mp h with h | h
      · exact .inl h
      · exact .inr (.tail _ h)
    · split at h
      · rcases List.mem_cons.mp h with h | h
        · exact .inl h
        · exact .inr h
      · rcases List.mem_cons.mp h with h | h
        · exact .inr (h ▸ .head _)
        · rcases ih h with h | h
          · exact .inl h
          · exact .inr (.tail _ h)

/-- Dropping entries keeps the canonical form. -/
theorem wf_filter [DecidableEq α] {d : α} {t : List (Nat × α)} (p : Nat × α → Bool) (h : wf d t = true) :
    wf d (t.filter p) = true := by
  simp only [wf, Bool.and_eq_true, List.all_eq_true] at h ⊢
  exact ⟨sortedFrom_filter t 0 p h.1, fun e he => h.2 e (List.mem_of_mem_filter he)⟩

/-- Writing a key keeps the canonical form. -/
theorem wf_put [DecidableEq α] {d : α} {t : List (Nat × α)} (k : Nat) (v : α) (h : wf d t = true) : wf d (put d t k v) = true := by
  unfold put
  split
  · exact wf_filter _ h
  · next hv =>
    simp only [wf, Bool.and_eq_true, List.all_eq_true, decide_eq_true_eq] at h ⊢
    refine ⟨sortedFrom_ins t 0 k v h.1 (Nat.zero_le _), fun e he => ?_⟩
    rcases mem_ins he with rfl | he
    · exact hv
    · exact h.2 e he

theorem find_none_of_sortedFrom {lo k : Nat} {t : List (Nat × α)} (h : sortedFrom lo t = true) (hk : k < lo) : find t k = none := by
  induction t generalizing lo with
  | nil => rfl
  | cons e r ih =>
    obtain ⟨k', v'⟩ := e
    simp only [sortedFrom, Bool.and_eq_true, decide_eq_true_eq] at h
    rw [find, if_neg (by omega)]
    exact ih h.2 (by omega)

theorem find_of_mem {lo : Nat} {t : List (Nat × α)} (h : sortedFrom lo t = true) {e : Nat × α} (he : e ∈ t) :
    find t e.1 = some e.2 := by
  induction t generalizing lo with
  | nil => cases he
  | cons x r ih =>
    obtain ⟨k', v'⟩ := x
    simp only [sortedFrom, Bool.and_eq_true, decide_eq_true_eq] at h
    rcases List.mem_cons.mp he with rfl | he
    · simp [find]
    · have hf := ih h.2 he
      rw [find, if_neg, hf]
      rintro rfl
      rw [find_none_of_sortedFrom h.2 (Nat.lt_succ_self _)] at hf
      cases hf

theorem ext_of_get [DecidableEq α] {d : α} {t u : List (Nat × α)} {lo : Nat} (ht : sortedFrom lo t = true) (hu : sortedFrom lo u = true)
    (hd : ∀ e ∈ t, e.2 ≠ d) (hd' : ∀ e ∈ u, e.2 ≠ d) (h : ∀ k, get d t k = get d u k) : t = u := by
  induction t generalizing u lo with
  | nil =>
    cases u with
    | nil => rfl
    | cons e r =>
      have := h e.1
      rw [show get d [] e.1 = d from rfl, get, find_of_mem hu (.head _)] at this
      exact absurd this.symm (hd' e (.head _))
  | cons e r ih =>
    cases u with
    | nil =>
      have := h e.1
      rw [show get d [] e.1 = d from rfl, get, find_of_mem ht (.head _)] at this
      exact absurd this (hd e (.head _))
    | cons f q =>
      have h1 := h e.1
      have h2 := h f.1
      rw [get, find_of_mem ht (.head _)] at h1
      have h2 : get d (e :: r) f.1 = f.2 := by rw [h2, get, find_of_mem hu (.head _)]; rfl
      obtain ⟨a, x⟩ := e
      obtain ⟨b, y⟩ := f
      have ht' := ht
      have hu' := hu
      simp only [sortedFrom, Bool.and_eq_true, decide_eq_true_eq] at ht hu
      have hab : a = b := by
        rcases Nat.lt_trichotomy a b with hlt | he | hlt
        · rw [get, find, if_neg (by simp; omega), find_none_of_sortedFrom hu.2 (by simp; omega)] at h1
          exact absurd h1 (hd _ (.head _))
        · exact he
        · rw [get, find, if_neg (by simp; omega), find_none_of_sortedFrom ht.2 (by simp; omega)] at h2
          exact absurd h2.symm (hd' _ (.head _))
      subst hab
      have hxy : x = y := by simpa [get, find] using h1
      subst hxy
      congr 1
      refine ih ht.2 hu.2 (fun e he => hd e (.tail _ he)) (fun e he => hd' e (.tail _ he)) fun k => ?_
      by_cases hk : k = a
      · subst hk
        rw [get, get, find_none_of_sortedFrom ht.2 (Nat.lt_succ_self _), find_none_of_sortedFrom hu.2 (Nat.lt_succ_self _)]
      · have := h k
        simpa [get, find, hk] using this

/-- Tables in canonical form that read alike are equal data. -/
theorem eq_of_get [DecidableEq α] {d : α} {t u : List (Nat × α)} (ht : wf d t = true) (hu : wf d u = true)
    (h : ∀ k, get d t k = get d u k) : t = u := by
  simp only [wf, Bool.and_eq_true, List.all_eq_true, decide_eq_true_eq] at ht hu
  exact ext_of_get ht.1 hu.1 ht.2 hu.2 h

end Sys2Proof.Machine.Tbl
end

