-- ==== Sys2Proof/Laws/State.lean ====
section
/-! SUPPORT. What each update of a state does to each field: the field written, and every other one as it was. -/

namespace Sys2Proof.Machine

@[simp] theorem setThread_devtime (s : State) (c k : Nat) (t : Thread) : (s.setThread c k t).devtime = s.devtime := rfl
@[simp] theorem setThread_mem (s : State) (c k : Nat) (t : Thread) : (s.setThread c k t).mem = s.mem := rfl
@[simp] theorem setThread_ws (s : State) (c k : Nat) (t : Thread) : (s.setThread c k t).ws = s.ws := rfl
@[simp] theorem setThread_poison (s : State) (c k : Nat) (t : Thread) : (s.setThread c k t).poison = s.poison := rfl
@[simp] theorem setThread_wsPoison (s : State) (c k : Nat) (t : Thread) : (s.setThread c k t).wsPoison = s.wsPoison := rfl
@[simp] theorem setThread_threads (s : State) (c k : Nat) (t : Thread) : (s.setThread c k t).threads = Tbl.put State.thread0 s.threads (c * 8 + k) t := rfl
@[simp] theorem setThread_closet (s : State) (c k : Nat) (t : Thread) : (s.setThread c k t).closet = s.closet := rfl
@[simp] theorem setThread_cores (s : State) (c k : Nat) (t : Thread) : (s.setThread c k t).cores = s.cores := rfl
@[simp] theorem setThread_vats (s : State) (c k : Nat) (t : Thread) : (s.setThread c k t).vats = s.vats := rfl
@[simp] theorem setThread_presses (s : State) (c k : Nat) (t : Thread) : (s.setThread c k t).presses = s.presses := rfl
@[simp] theorem setThread_l1 (s : State) (c k : Nat) (t : Thread) : (s.setThread c k t).l1 = s.l1 := rfl
@[simp] theorem setThread_l2 (s : State) (c k : Nat) (t : Thread) : (s.setThread c k t).l2 = s.l2 := rfl
@[simp] theorem setThread_dirty (s : State) (c k : Nat) (t : Thread) : (s.setThread c k t).dirty = s.dirty := rfl
@[simp] theorem setThread_mcReads (s : State) (c k : Nat) (t : Thread) : (s.setThread c k t).mcReads = s.mcReads := rfl
@[simp] theorem setThread_wsWaits (s : State) (c k : Nat) (t : Thread) : (s.setThread c k t).wsWaits = s.wsWaits := rfl
@[simp] theorem setThread_barHeld (s : State) (c k : Nat) (t : Thread) : (s.setThread c k t).barHeld = s.barHeld := rfl
@[simp] theorem setThread_counters (s : State) (c k : Nat) (t : Thread) : (s.setThread c k t).counters = s.counters := rfl
@[simp] theorem setThread_holds (s : State) (c k : Nat) (t : Thread) : (s.setThread c k t).holds = s.holds := rfl
@[simp] theorem setThread_crews (s : State) (c k : Nat) (t : Thread) : (s.setThread c k t).crews = s.crews := rfl
@[simp] theorem setThread_graphs (s : State) (c k : Nat) (t : Thread) : (s.setThread c k t).graphs = s.graphs := rfl
@[simp] theorem setThread_ctxs (s : State) (c k : Nat) (t : Thread) : (s.setThread c k t).ctxs = s.ctxs := rfl
@[simp] theorem setThread_hub (s : State) (c k : Nat) (t : Thread) : (s.setThread c k t).hub = s.hub := rfl
@[simp] theorem setThread_power (s : State) (c k : Nat) (t : Thread) : (s.setThread c k t).power = s.power := rfl
@[simp] theorem setThread_mgmt (s : State) (c k : Nat) (t : Thread) : (s.setThread c k t).mgmt = s.mgmt := rfl
@[simp] theorem setThread_curCore (s : State) (c k : Nat) (t : Thread) : (s.setThread c k t).curCore = s.curCore := rfl
@[simp] theorem setThread_curSlot (s : State) (c k : Nat) (t : Thread) : (s.setThread c k t).curSlot = s.curSlot := rfl
@[simp] theorem setThread_agenda (s : State) (c k : Nat) (t : Thread) : (s.setThread c k t).agenda = s.agenda := rfl
@[simp] theorem setThread_rotor (s : State) (c k : Nat) (t : Thread) : (s.setThread c k t).rotor = s.rotor := rfl
@[simp] theorem setThread_freeCtr (s : State) (c k : Nat) (t : Thread) : (s.setThread c k t).freeCtr = s.freeCtr := rfl

@[simp] theorem modThread_devtime (s : State) (c k : Nat) (f : Thread → Thread) : (s.modThread c k f).devtime = s.devtime := rfl
@[simp] theorem modThread_mem (s : State) (c k : Nat) (f : Thread → Thread) : (s.modThread c k f).mem = s.mem := rfl
@[simp] theorem modThread_ws (s : State) (c k : Nat) (f : Thread → Thread) : (s.modThread c k f).ws = s.ws := rfl
@[simp] theorem modThread_poison (s : State) (c k : Nat) (f : Thread → Thread) : (s.modThread c k f).poison = s.poison := rfl
@[simp] theorem modThread_wsPoison (s : State) (c k : Nat) (f : Thread → Thread) : (s.modThread c k f).wsPoison = s.wsPoison := rfl
@[simp] theorem modThread_threads (s : State) (c k : Nat) (f : Thread → Thread) : (s.modThread c k f).threads = Tbl.put State.thread0 s.threads (c * 8 + k) (f (s.thread c k)) := rfl
@[simp] theorem modThread_closet (s : State) (c k : Nat) (f : Thread → Thread) : (s.modThread c k f).closet = s.closet := rfl
@[simp] theorem modThread_cores (s : State) (c k : Nat) (f : Thread → Thread) : (s.modThread c k f).cores = s.cores := rfl
@[simp] theorem modThread_vats (s : State) (c k : Nat) (f : Thread → Thread) : (s.modThread c k f).vats = s.vats := rfl
@[simp] theorem modThread_presses (s : State) (c k : Nat) (f : Thread → Thread) : (s.modThread c k f).presses = s.presses := rfl
@[simp] theorem modThread_l1 (s : State) (c k : Nat) (f : Thread → Thread) : (s.modThread c k f).l1 = s.l1 := rfl
@[simp] theorem modThread_l2 (s : State) (c k : Nat) (f : Thread → Thread) : (s.modThread c k f).l2 = s.l2 := rfl
@[simp] theorem modThread_dirty (s : State) (c k : Nat) (f : Thread → Thread) : (s.modThread c k f).dirty = s.dirty := rfl
@[simp] theorem modThread_mcReads (s : State) (c k : Nat) (f : Thread → Thread) : (s.modThread c k f).mcReads = s.mcReads := rfl
@[simp] theorem modThread_wsWaits (s : State) (c k : Nat) (f : Thread → Thread) : (s.modThread c k f).wsWaits = s.wsWaits := rfl
@[simp] theorem modThread_barHeld (s : State) (c k : Nat) (f : Thread → Thread) : (s.modThread c k f).barHeld = s.barHeld := rfl
@[simp] theorem modThread_counters (s : State) (c k : Nat) (f : Thread → Thread) : (s.modThread c k f).counters = s.counters := rfl
@[simp] theorem modThread_holds (s : State) (c k : Nat) (f : Thread → Thread) : (s.modThread c k f).holds = s.holds := rfl
@[simp] theorem modThread_crews (s : State) (c k : Nat) (f : Thread → Thread) : (s.modThread c k f).crews = s.crews := rfl
@[simp] theorem modThread_graphs (s : State) (c k : Nat) (f : Thread → Thread) : (s.modThread c k f).graphs = s.graphs := rfl
@[simp] theorem modThread_ctxs (s : State) (c k : Nat) (f : Thread → Thread) : (s.modThread c k f).ctxs = s.ctxs := rfl
@[simp] theorem modThread_hub (s : State) (c k : Nat) (f : Thread → Thread) : (s.modThread c k f).hub = s.hub := rfl
@[simp] theorem modThread_power (s : State) (c k : Nat) (f : Thread → Thread) : (s.modThread c k f).power = s.power := rfl
@[simp] theorem modThread_mgmt (s : State) (c k : Nat) (f : Thread → Thread) : (s.modThread c k f).mgmt = s.mgmt := rfl
@[simp] theorem modThread_curCore (s : State) (c k : Nat) (f : Thread → Thread) : (s.modThread c k f).curCore = s.curCore := rfl
@[simp] theorem modThread_curSlot (s : State) (c k : Nat) (f : Thread → Thread) : (s.modThread c k f).curSlot = s.curSlot := rfl
@[simp] theorem modThread_agenda (s : State) (c k : Nat) (f : Thread → Thread) : (s.modThread c k f).agenda = s.agenda := rfl
@[simp] theorem modThread_rotor (s : State) (c k : Nat) (f : Thread → Thread) : (s.modThread c k f).rotor = s.rotor := rfl
@[simp] theorem modThread_freeCtr (s : State) (c k : Nat) (f : Thread → Thread) : (s.modThread c k f).freeCtr = s.freeCtr := rfl

@[simp] theorem setMe_devtime (s : State) (t : Thread) : (s.setMe t).devtime = s.devtime := rfl
@[simp] theorem setMe_mem (s : State) (t : Thread) : (s.setMe t).mem = s.mem := rfl
@[simp] theorem setMe_ws (s : State) (t : Thread) : (s.setMe t).ws = s.ws := rfl
@[simp] theorem setMe_poison (s : State) (t : Thread) : (s.setMe t).poison = s.poison := rfl
@[simp] theorem setMe_wsPoison (s : State) (t : Thread) : (s.setMe t).wsPoison = s.wsPoison := rfl
@[simp] theorem setMe_threads (s : State) (t : Thread) : (s.setMe t).threads = Tbl.put State.thread0 s.threads (s.curCore * 8 + s.curSlot) t := rfl
@[simp] theorem setMe_closet (s : State) (t : Thread) : (s.setMe t).closet = s.closet := rfl
@[simp] theorem setMe_cores (s : State) (t : Thread) : (s.setMe t).cores = s.cores := rfl
@[simp] theorem setMe_vats (s : State) (t : Thread) : (s.setMe t).vats = s.vats := rfl
@[simp] theorem setMe_presses (s : State) (t : Thread) : (s.setMe t).presses = s.presses := rfl
@[simp] theorem setMe_l1 (s : State) (t : Thread) : (s.setMe t).l1 = s.l1 := rfl
@[simp] theorem setMe_l2 (s : State) (t : Thread) : (s.setMe t).l2 = s.l2 := rfl
@[simp] theorem setMe_dirty (s : State) (t : Thread) : (s.setMe t).dirty = s.dirty := rfl
@[simp] theorem setMe_mcReads (s : State) (t : Thread) : (s.setMe t).mcReads = s.mcReads := rfl
@[simp] theorem setMe_wsWaits (s : State) (t : Thread) : (s.setMe t).wsWaits = s.wsWaits := rfl
@[simp] theorem setMe_barHeld (s : State) (t : Thread) : (s.setMe t).barHeld = s.barHeld := rfl
@[simp] theorem setMe_counters (s : State) (t : Thread) : (s.setMe t).counters = s.counters := rfl
@[simp] theorem setMe_holds (s : State) (t : Thread) : (s.setMe t).holds = s.holds := rfl
@[simp] theorem setMe_crews (s : State) (t : Thread) : (s.setMe t).crews = s.crews := rfl
@[simp] theorem setMe_graphs (s : State) (t : Thread) : (s.setMe t).graphs = s.graphs := rfl
@[simp] theorem setMe_ctxs (s : State) (t : Thread) : (s.setMe t).ctxs = s.ctxs := rfl
@[simp] theorem setMe_hub (s : State) (t : Thread) : (s.setMe t).hub = s.hub := rfl
@[simp] theorem setMe_power (s : State) (t : Thread) : (s.setMe t).power = s.power := rfl
@[simp] theorem setMe_mgmt (s : State) (t : Thread) : (s.setMe t).mgmt = s.mgmt := rfl
@[simp] theorem setMe_curCore (s : State) (t : Thread) : (s.setMe t).curCore = s.curCore := rfl
@[simp] theorem setMe_curSlot (s : State) (t : Thread) : (s.setMe t).curSlot = s.curSlot := rfl
@[simp] theorem setMe_agenda (s : State) (t : Thread) : (s.setMe t).agenda = s.agenda := rfl
@[simp] theorem setMe_rotor (s : State) (t : Thread) : (s.setMe t).rotor = s.rotor := rfl
@[simp] theorem setMe_freeCtr (s : State) (t : Thread) : (s.setMe t).freeCtr = s.freeCtr := rfl

@[simp] theorem modMe_devtime (s : State) (f : Thread → Thread) : (s.modMe f).devtime = s.devtime := rfl
@[simp] theorem modMe_mem (s : State) (f : Thread → Thread) : (s.modMe f).mem = s.mem := rfl
@[simp] theorem modMe_ws (s : State) (f : Thread → Thread) : (s.modMe f).ws = s.ws := rfl
@[simp] theorem modMe_poison (s : State) (f : Thread → Thread) : (s.modMe f).poison = s.poison := rfl
@[simp] theorem modMe_wsPoison (s : State) (f : Thread → Thread) : (s.modMe f).wsPoison = s.wsPoison := rfl
@[simp] theorem modMe_threads (s : State) (f : Thread → Thread) : (s.modMe f).threads = Tbl.put State.thread0 s.threads (s.curCore * 8 + s.curSlot) (f s.me) := rfl
@[simp] theorem modMe_closet (s : State) (f : Thread → Thread) : (s.modMe f).closet = s.closet := rfl
@[simp] theorem modMe_cores (s : State) (f : Thread → Thread) : (s.modMe f).cores = s.cores := rfl
@[simp] theorem modMe_vats (s : State) (f : Thread → Thread) : (s.modMe f).vats = s.vats := rfl
@[simp] theorem modMe_presses (s : State) (f : Thread → Thread) : (s.modMe f).presses = s.presses := rfl
@[simp] theorem modMe_l1 (s : State) (f : Thread → Thread) : (s.modMe f).l1 = s.l1 := rfl
@[simp] theorem modMe_l2 (s : State) (f : Thread → Thread) : (s.modMe f).l2 = s.l2 := rfl
@[simp] theorem modMe_dirty (s : State) (f : Thread → Thread) : (s.modMe f).dirty = s.dirty := rfl
@[simp] theorem modMe_mcReads (s : State) (f : Thread → Thread) : (s.modMe f).mcReads = s.mcReads := rfl
@[simp] theorem modMe_wsWaits (s : State) (f : Thread → Thread) : (s.modMe f).wsWaits = s.wsWaits := rfl
@[simp] theorem modMe_barHeld (s : State) (f : Thread → Thread) : (s.modMe f).barHeld = s.barHeld := rfl
@[simp] theorem modMe_counters (s : State) (f : Thread → Thread) : (s.modMe f).counters = s.counters := rfl
@[simp] theorem modMe_holds (s : State) (f : Thread → Thread) : (s.modMe f).holds = s.holds := rfl
@[simp] theorem modMe_crews (s : State) (f : Thread → Thread) : (s.modMe f).crews = s.crews := rfl
@[simp] theorem modMe_graphs (s : State) (f : Thread → Thread) : (s.modMe f).graphs = s.graphs := rfl
@[simp] theorem modMe_ctxs (s : State) (f : Thread → Thread) : (s.modMe f).ctxs = s.ctxs := rfl
@[simp] theorem modMe_hub (s : State) (f : Thread → Thread) : (s.modMe f).hub = s.hub := rfl
@[simp] theorem modMe_power (s : State) (f : Thread → Thread) : (s.modMe f).power = s.power := rfl
@[simp] theorem modMe_mgmt (s : State) (f : Thread → Thread) : (s.modMe f).mgmt = s.mgmt := rfl
@[simp] theorem modMe_curCore (s : State) (f : Thread → Thread) : (s.modMe f).curCore = s.curCore := rfl
@[simp] theorem modMe_curSlot (s : State) (f : Thread → Thread) : (s.modMe f).curSlot = s.curSlot := rfl
@[simp] theorem modMe_agenda (s : State) (f : Thread → Thread) : (s.modMe f).agenda = s.agenda := rfl
@[simp] theorem modMe_rotor (s : State) (f : Thread → Thread) : (s.modMe f).rotor = s.rotor := rfl
@[simp] theorem modMe_freeCtr (s : State) (f : Thread → Thread) : (s.modMe f).freeCtr = s.freeCtr := rfl

@[simp] theorem modCore_devtime (s : State) (c : Nat) (f : Core → Core) : (s.modCore c f).devtime = s.devtime := rfl
@[simp] theorem modCore_mem (s : State) (c : Nat) (f : Core → Core) : (s.modCore c f).mem = s.mem := rfl
@[simp] theorem modCore_ws (s : State) (c : Nat) (f : Core → Core) : (s.modCore c f).ws = s.ws := rfl
@[simp] theorem modCore_poison (s : State) (c : Nat) (f : Core → Core) : (s.modCore c f).poison = s.poison := rfl
@[simp] theorem modCore_wsPoison (s : State) (c : Nat) (f : Core → Core) : (s.modCore c f).wsPoison = s.wsPoison := rfl
@[simp] theorem modCore_threads (s : State) (c : Nat) (f : Core → Core) : (s.modCore c f).threads = s.threads := rfl
@[simp] theorem modCore_closet (s : State) (c : Nat) (f : Core → Core) : (s.modCore c f).closet = s.closet := rfl
@[simp] theorem modCore_cores (s : State) (c : Nat) (f : Core → Core) : (s.modCore c f).cores = Tbl.upd State.core0 s.cores c f := rfl
@[simp] theorem modCore_vats (s : State) (c : Nat) (f : Core → Core) : (s.modCore c f).vats = s.vats := rfl
@[simp] theorem modCore_presses (s : State) (c : Nat) (f : Core → Core) : (s.modCore c f).presses = s.presses := rfl
@[simp] theorem modCore_l1 (s : State) (c : Nat) (f : Core → Core) : (s.modCore c f).l1 = s.l1 := rfl
@[simp] theorem modCore_l2 (s : State) (c : Nat) (f : Core → Core) : (s.modCore c f).l2 = s.l2 := rfl
@[simp] theorem modCore_dirty (s : State) (c : Nat) (f : Core → Core) : (s.modCore c f).dirty = s.dirty := rfl
@[simp] theorem modCore_mcReads (s : State) (c : Nat) (f : Core → Core) : (s.modCore c f).mcReads = s.mcReads := rfl
@[simp] theorem modCore_wsWaits (s : State) (c : Nat) (f : Core → Core) : (s.modCore c f).wsWaits = s.wsWaits := rfl
@[simp] theorem modCore_barHeld (s : State) (c : Nat) (f : Core → Core) : (s.modCore c f).barHeld = s.barHeld := rfl
@[simp] theorem modCore_counters (s : State) (c : Nat) (f : Core → Core) : (s.modCore c f).counters = s.counters := rfl
@[simp] theorem modCore_holds (s : State) (c : Nat) (f : Core → Core) : (s.modCore c f).holds = s.holds := rfl
@[simp] theorem modCore_crews (s : State) (c : Nat) (f : Core → Core) : (s.modCore c f).crews = s.crews := rfl
@[simp] theorem modCore_graphs (s : State) (c : Nat) (f : Core → Core) : (s.modCore c f).graphs = s.graphs := rfl
@[simp] theorem modCore_ctxs (s : State) (c : Nat) (f : Core → Core) : (s.modCore c f).ctxs = s.ctxs := rfl
@[simp] theorem modCore_hub (s : State) (c : Nat) (f : Core → Core) : (s.modCore c f).hub = s.hub := rfl
@[simp] theorem modCore_power (s : State) (c : Nat) (f : Core → Core) : (s.modCore c f).power = s.power := rfl
@[simp] theorem modCore_mgmt (s : State) (c : Nat) (f : Core → Core) : (s.modCore c f).mgmt = s.mgmt := rfl
@[simp] theorem modCore_curCore (s : State) (c : Nat) (f : Core → Core) : (s.modCore c f).curCore = s.curCore := rfl
@[simp] theorem modCore_curSlot (s : State) (c : Nat) (f : Core → Core) : (s.modCore c f).curSlot = s.curSlot := rfl
@[simp] theorem modCore_agenda (s : State) (c : Nat) (f : Core → Core) : (s.modCore c f).agenda = s.agenda := rfl
@[simp] theorem modCore_rotor (s : State) (c : Nat) (f : Core → Core) : (s.modCore c f).rotor = s.rotor := rfl
@[simp] theorem modCore_freeCtr (s : State) (c : Nat) (f : Core → Core) : (s.modCore c f).freeCtr = s.freeCtr := rfl

@[simp] theorem modVat_devtime (s : State) (v : Nat) (f : Vat → Vat) : (s.modVat v f).devtime = s.devtime := rfl
@[simp] theorem modVat_mem (s : State) (v : Nat) (f : Vat → Vat) : (s.modVat v f).mem = s.mem := rfl
@[simp] theorem modVat_ws (s : State) (v : Nat) (f : Vat → Vat) : (s.modVat v f).ws = s.ws := rfl
@[simp] theorem modVat_poison (s : State) (v : Nat) (f : Vat → Vat) : (s.modVat v f).poison = s.poison := rfl
@[simp] theorem modVat_wsPoison (s : State) (v : Nat) (f : Vat → Vat) : (s.modVat v f).wsPoison = s.wsPoison := rfl
@[simp] theorem modVat_threads (s : State) (v : Nat) (f : Vat → Vat) : (s.modVat v f).threads = s.threads := rfl
@[simp] theorem modVat_closet (s : State) (v : Nat) (f : Vat → Vat) : (s.modVat v f).closet = s.closet := rfl
@[simp] theorem modVat_cores (s : State) (v : Nat) (f : Vat → Vat) : (s.modVat v f).cores = s.cores := rfl
@[simp] theorem modVat_vats (s : State) (v : Nat) (f : Vat → Vat) : (s.modVat v f).vats = Tbl.upd State.vat0 s.vats v f := rfl
@[simp] theorem modVat_presses (s : State) (v : Nat) (f : Vat → Vat) : (s.modVat v f).presses = s.presses := rfl
@[simp] theorem modVat_l1 (s : State) (v : Nat) (f : Vat → Vat) : (s.modVat v f).l1 = s.l1 := rfl
@[simp] theorem modVat_l2 (s : State) (v : Nat) (f : Vat → Vat) : (s.modVat v f).l2 = s.l2 := rfl
@[simp] theorem modVat_dirty (s : State) (v : Nat) (f : Vat → Vat) : (s.modVat v f).dirty = s.dirty := rfl
@[simp] theorem modVat_mcReads (s : State) (v : Nat) (f : Vat → Vat) : (s.modVat v f).mcReads = s.mcReads := rfl
@[simp] theorem modVat_wsWaits (s : State) (v : Nat) (f : Vat → Vat) : (s.modVat v f).wsWaits = s.wsWaits := rfl
@[simp] theorem modVat_barHeld (s : State) (v : Nat) (f : Vat → Vat) : (s.modVat v f).barHeld = s.barHeld := rfl
@[simp] theorem modVat_counters (s : State) (v : Nat) (f : Vat → Vat) : (s.modVat v f).counters = s.counters := rfl
@[simp] theorem modVat_holds (s : State) (v : Nat) (f : Vat → Vat) : (s.modVat v f).holds = s.holds := rfl
@[simp] theorem modVat_crews (s : State) (v : Nat) (f : Vat → Vat) : (s.modVat v f).crews = s.crews := rfl
@[simp] theorem modVat_graphs (s : State) (v : Nat) (f : Vat → Vat) : (s.modVat v f).graphs = s.graphs := rfl
@[simp] theorem modVat_ctxs (s : State) (v : Nat) (f : Vat → Vat) : (s.modVat v f).ctxs = s.ctxs := rfl
@[simp] theorem modVat_hub (s : State) (v : Nat) (f : Vat → Vat) : (s.modVat v f).hub = s.hub := rfl
@[simp] theorem modVat_power (s : State) (v : Nat) (f : Vat → Vat) : (s.modVat v f).power = s.power := rfl
@[simp] theorem modVat_mgmt (s : State) (v : Nat) (f : Vat → Vat) : (s.modVat v f).mgmt = s.mgmt := rfl
@[simp] theorem modVat_curCore (s : State) (v : Nat) (f : Vat → Vat) : (s.modVat v f).curCore = s.curCore := rfl
@[simp] theorem modVat_curSlot (s : State) (v : Nat) (f : Vat → Vat) : (s.modVat v f).curSlot = s.curSlot := rfl
@[simp] theorem modVat_agenda (s : State) (v : Nat) (f : Vat → Vat) : (s.modVat v f).agenda = s.agenda := rfl
@[simp] theorem modVat_rotor (s : State) (v : Nat) (f : Vat → Vat) : (s.modVat v f).rotor = s.rotor := rfl
@[simp] theorem modVat_freeCtr (s : State) (v : Nat) (f : Vat → Vat) : (s.modVat v f).freeCtr = s.freeCtr := rfl

@[simp] theorem modPress_devtime (s : State) (p : Nat) (f : Press → Press) : (s.modPress p f).devtime = s.devtime := rfl
@[simp] theorem modPress_mem (s : State) (p : Nat) (f : Press → Press) : (s.modPress p f).mem = s.mem := rfl
@[simp] theorem modPress_ws (s : State) (p : Nat) (f : Press → Press) : (s.modPress p f).ws = s.ws := rfl
@[simp] theorem modPress_poison (s : State) (p : Nat) (f : Press → Press) : (s.modPress p f).poison = s.poison := rfl
@[simp] theorem modPress_wsPoison (s : State) (p : Nat) (f : Press → Press) : (s.modPress p f).wsPoison = s.wsPoison := rfl
@[simp] theorem modPress_threads (s : State) (p : Nat) (f : Press → Press) : (s.modPress p f).threads = s.threads := rfl
@[simp] theorem modPress_closet (s : State) (p : Nat) (f : Press → Press) : (s.modPress p f).closet = s.closet := rfl
@[simp] theorem modPress_cores (s : State) (p : Nat) (f : Press → Press) : (s.modPress p f).cores = s.cores := rfl
@[simp] theorem modPress_vats (s : State) (p : Nat) (f : Press → Press) : (s.modPress p f).vats = s.vats := rfl
@[simp] theorem modPress_presses (s : State) (p : Nat) (f : Press → Press) : (s.modPress p f).presses = Tbl.upd State.press0 s.presses p f := rfl
@[simp] theorem modPress_l1 (s : State) (p : Nat) (f : Press → Press) : (s.modPress p f).l1 = s.l1 := rfl
@[simp] theorem modPress_l2 (s : State) (p : Nat) (f : Press → Press) : (s.modPress p f).l2 = s.l2 := rfl
@[simp] theorem modPress_dirty (s : State) (p : Nat) (f : Press → Press) : (s.modPress p f).dirty = s.dirty := rfl
@[simp] theorem modPress_mcReads (s : State) (p : Nat) (f : Press → Press) : (s.modPress p f).mcReads = s.mcReads := rfl
@[simp] theorem modPress_wsWaits (s : State) (p : Nat) (f : Press → Press) : (s.modPress p f).wsWaits = s.wsWaits := rfl
@[simp] theorem modPress_barHeld (s : State) (p : Nat) (f : Press → Press) : (s.modPress p f).barHeld = s.barHeld := rfl
@[simp] theorem modPress_counters (s : State) (p : Nat) (f : Press → Press) : (s.modPress p f).counters = s.counters := rfl
@[simp] theorem modPress_holds (s : State) (p : Nat) (f : Press → Press) : (s.modPress p f).holds = s.holds := rfl
@[simp] theorem modPress_crews (s : State) (p : Nat) (f : Press → Press) : (s.modPress p f).crews = s.crews := rfl
@[simp] theorem modPress_graphs (s : State) (p : Nat) (f : Press → Press) : (s.modPress p f).graphs = s.graphs := rfl
@[simp] theorem modPress_ctxs (s : State) (p : Nat) (f : Press → Press) : (s.modPress p f).ctxs = s.ctxs := rfl
@[simp] theorem modPress_hub (s : State) (p : Nat) (f : Press → Press) : (s.modPress p f).hub = s.hub := rfl
@[simp] theorem modPress_power (s : State) (p : Nat) (f : Press → Press) : (s.modPress p f).power = s.power := rfl
@[simp] theorem modPress_mgmt (s : State) (p : Nat) (f : Press → Press) : (s.modPress p f).mgmt = s.mgmt := rfl
@[simp] theorem modPress_curCore (s : State) (p : Nat) (f : Press → Press) : (s.modPress p f).curCore = s.curCore := rfl
@[simp] theorem modPress_curSlot (s : State) (p : Nat) (f : Press → Press) : (s.modPress p f).curSlot = s.curSlot := rfl
@[simp] theorem modPress_agenda (s : State) (p : Nat) (f : Press → Press) : (s.modPress p f).agenda = s.agenda := rfl
@[simp] theorem modPress_rotor (s : State) (p : Nat) (f : Press → Press) : (s.modPress p f).rotor = s.rotor := rfl
@[simp] theorem modPress_freeCtr (s : State) (p : Nat) (f : Press → Press) : (s.modPress p f).freeCtr = s.freeCtr := rfl

@[simp] theorem modHub_devtime (s : State) (f : Hub → Hub) : (s.modHub f).devtime = s.devtime := rfl
@[simp] theorem modHub_mem (s : State) (f : Hub → Hub) : (s.modHub f).mem = s.mem := rfl
@[simp] theorem modHub_ws (s : State) (f : Hub → Hub) : (s.modHub f).ws = s.ws := rfl
@[simp] theorem modHub_poison (s : State) (f : Hub → Hub) : (s.modHub f).poison = s.poison := rfl
@[simp] theorem modHub_wsPoison (s : State) (f : Hub → Hub) : (s.modHub f).wsPoison = s.wsPoison := rfl
@[simp] theorem modHub_threads (s : State) (f : Hub → Hub) : (s.modHub f).threads = s.threads := rfl
@[simp] theorem modHub_closet (s : State) (f : Hub → Hub) : (s.modHub f).closet = s.closet := rfl
@[simp] theorem modHub_cores (s : State) (f : Hub → Hub) : (s.modHub f).cores = s.cores := rfl
@[simp] theorem modHub_vats (s : State) (f : Hub → Hub) : (s.modHub f).vats = s.vats := rfl
@[simp] theorem modHub_presses (s : State) (f : Hub → Hub) : (s.modHub f).presses = s.presses := rfl
@[simp] theorem modHub_l1 (s : State) (f : Hub → Hub) : (s.modHub f).l1 = s.l1 := rfl
@[simp] theorem modHub_l2 (s : State) (f : Hub → Hub) : (s.modHub f).l2 = s.l2 := rfl
@[simp] theorem modHub_dirty (s : State) (f : Hub → Hub) : (s.modHub f).dirty = s.dirty := rfl
@[simp] theorem modHub_mcReads (s : State) (f : Hub → Hub) : (s.modHub f).mcReads = s.mcReads := rfl
@[simp] theorem modHub_wsWaits (s : State) (f : Hub → Hub) : (s.modHub f).wsWaits = s.wsWaits := rfl
@[simp] theorem modHub_barHeld (s : State) (f : Hub → Hub) : (s.modHub f).barHeld = s.barHeld := rfl
@[simp] theorem modHub_counters (s : State) (f : Hub → Hub) : (s.modHub f).counters = s.counters := rfl
@[simp] theorem modHub_holds (s : State) (f : Hub → Hub) : (s.modHub f).holds = s.holds := rfl
@[simp] theorem modHub_crews (s : State) (f : Hub → Hub) : (s.modHub f).crews = s.crews := rfl
@[simp] theorem modHub_graphs (s : State) (f : Hub → Hub) : (s.modHub f).graphs = s.graphs := rfl
@[simp] theorem modHub_ctxs (s : State) (f : Hub → Hub) : (s.modHub f).ctxs = s.ctxs := rfl
@[simp] theorem modHub_hub (s : State) (f : Hub → Hub) : (s.modHub f).hub = f s.hub := rfl
@[simp] theorem modHub_power (s : State) (f : Hub → Hub) : (s.modHub f).power = s.power := rfl
@[simp] theorem modHub_mgmt (s : State) (f : Hub → Hub) : (s.modHub f).mgmt = s.mgmt := rfl
@[simp] theorem modHub_curCore (s : State) (f : Hub → Hub) : (s.modHub f).curCore = s.curCore := rfl
@[simp] theorem modHub_curSlot (s : State) (f : Hub → Hub) : (s.modHub f).curSlot = s.curSlot := rfl
@[simp] theorem modHub_agenda (s : State) (f : Hub → Hub) : (s.modHub f).agenda = s.agenda := rfl
@[simp] theorem modHub_rotor (s : State) (f : Hub → Hub) : (s.modHub f).rotor = s.rotor := rfl
@[simp] theorem modHub_freeCtr (s : State) (f : Hub → Hub) : (s.modHub f).freeCtr = s.freeCtr := rfl

@[simp] theorem modQueue_devtime (s : State) (q : Nat) (f : Queue → Queue) : (s.modQueue q f).devtime = s.devtime := rfl
@[simp] theorem modQueue_mem (s : State) (q : Nat) (f : Queue → Queue) : (s.modQueue q f).mem = s.mem := rfl
@[simp] theorem modQueue_ws (s : State) (q : Nat) (f : Queue → Queue) : (s.modQueue q f).ws = s.ws := rfl
@[simp] theorem modQueue_poison (s : State) (q : Nat) (f : Queue → Queue) : (s.modQueue q f).poison = s.poison := rfl
@[simp] theorem modQueue_wsPoison (s : State) (q : Nat) (f : Queue → Queue) : (s.modQueue q f).wsPoison = s.wsPoison := rfl
@[simp] theorem modQueue_threads (s : State) (q : Nat) (f : Queue → Queue) : (s.modQueue q f).threads = s.threads := rfl
@[simp] theorem modQueue_closet (s : State) (q : Nat) (f : Queue → Queue) : (s.modQueue q f).closet = s.closet := rfl
@[simp] theorem modQueue_cores (s : State) (q : Nat) (f : Queue → Queue) : (s.modQueue q f).cores = s.cores := rfl
@[simp] theorem modQueue_vats (s : State) (q : Nat) (f : Queue → Queue) : (s.modQueue q f).vats = s.vats := rfl
@[simp] theorem modQueue_presses (s : State) (q : Nat) (f : Queue → Queue) : (s.modQueue q f).presses = s.presses := rfl
@[simp] theorem modQueue_l1 (s : State) (q : Nat) (f : Queue → Queue) : (s.modQueue q f).l1 = s.l1 := rfl
@[simp] theorem modQueue_l2 (s : State) (q : Nat) (f : Queue → Queue) : (s.modQueue q f).l2 = s.l2 := rfl
@[simp] theorem modQueue_dirty (s : State) (q : Nat) (f : Queue → Queue) : (s.modQueue q f).dirty = s.dirty := rfl
@[simp] theorem modQueue_mcReads (s : State) (q : Nat) (f : Queue → Queue) : (s.modQueue q f).mcReads = s.mcReads := rfl
@[simp] theorem modQueue_wsWaits (s : State) (q : Nat) (f : Queue → Queue) : (s.modQueue q f).wsWaits = s.wsWaits := rfl
@[simp] theorem modQueue_barHeld (s : State) (q : Nat) (f : Queue → Queue) : (s.modQueue q f).barHeld = s.barHeld := rfl
@[simp] theorem modQueue_counters (s : State) (q : Nat) (f : Queue → Queue) : (s.modQueue q f).counters = s.counters := rfl
@[simp] theorem modQueue_holds (s : State) (q : Nat) (f : Queue → Queue) : (s.modQueue q f).holds = s.holds := rfl
@[simp] theorem modQueue_crews (s : State) (q : Nat) (f : Queue → Queue) : (s.modQueue q f).crews = s.crews := rfl
@[simp] theorem modQueue_graphs (s : State) (q : Nat) (f : Queue → Queue) : (s.modQueue q f).graphs = s.graphs := rfl
@[simp] theorem modQueue_ctxs (s : State) (q : Nat) (f : Queue → Queue) : (s.modQueue q f).ctxs = s.ctxs := rfl
@[simp] theorem modQueue_hub (s : State) (q : Nat) (f : Queue → Queue) : (s.modQueue q f).hub = { s.hub with queues := Tbl.upd State.queue0 s.hub.queues q f } := rfl
@[simp] theorem modQueue_power (s : State) (q : Nat) (f : Queue → Queue) : (s.modQueue q f).power = s.power := rfl
@[simp] theorem modQueue_mgmt (s : State) (q : Nat) (f : Queue → Queue) : (s.modQueue q f).mgmt = s.mgmt := rfl
@[simp] theorem modQueue_curCore (s : State) (q : Nat) (f : Queue → Queue) : (s.modQueue q f).curCore = s.curCore := rfl
@[simp] theorem modQueue_curSlot (s : State) (q : Nat) (f : Queue → Queue) : (s.modQueue q f).curSlot = s.curSlot := rfl
@[simp] theorem modQueue_agenda (s : State) (q : Nat) (f : Queue → Queue) : (s.modQueue q f).agenda = s.agenda := rfl
@[simp] theorem modQueue_rotor (s : State) (q : Nat) (f : Queue → Queue) : (s.modQueue q f).rotor = s.rotor := rfl
@[simp] theorem modQueue_freeCtr (s : State) (q : Nat) (f : Queue → Queue) : (s.modQueue q f).freeCtr = s.freeCtr := rfl

@[simp] theorem modPower_devtime (s : State) (f : Power → Power) : (s.modPower f).devtime = s.devtime := rfl
@[simp] theorem modPower_mem (s : State) (f : Power → Power) : (s.modPower f).mem = s.mem := rfl
@[simp] theorem modPower_ws (s : State) (f : Power → Power) : (s.modPower f).ws = s.ws := rfl
@[simp] theorem modPower_poison (s : State) (f : Power → Power) : (s.modPower f).poison = s.poison := rfl
@[simp] theorem modPower_wsPoison (s : State) (f : Power → Power) : (s.modPower f).wsPoison = s.wsPoison := rfl
@[simp] theorem modPower_threads (s : State) (f : Power → Power) : (s.modPower f).threads = s.threads := rfl
@[simp] theorem modPower_closet (s : State) (f : Power → Power) : (s.modPower f).closet = s.closet := rfl
@[simp] theorem modPower_cores (s : State) (f : Power → Power) : (s.modPower f).cores = s.cores := rfl
@[simp] theorem modPower_vats (s : State) (f : Power → Power) : (s.modPower f).vats = s.vats := rfl
@[simp] theorem modPower_presses (s : State) (f : Power → Power) : (s.modPower f).presses = s.presses := rfl
@[simp] theorem modPower_l1 (s : State) (f : Power → Power) : (s.modPower f).l1 = s.l1 := rfl
@[simp] theorem modPower_l2 (s : State) (f : Power → Power) : (s.modPower f).l2 = s.l2 := rfl
@[simp] theorem modPower_dirty (s : State) (f : Power → Power) : (s.modPower f).dirty = s.dirty := rfl
@[simp] theorem modPower_mcReads (s : State) (f : Power → Power) : (s.modPower f).mcReads = s.mcReads := rfl
@[simp] theorem modPower_wsWaits (s : State) (f : Power → Power) : (s.modPower f).wsWaits = s.wsWaits := rfl
@[simp] theorem modPower_barHeld (s : State) (f : Power → Power) : (s.modPower f).barHeld = s.barHeld := rfl
@[simp] theorem modPower_counters (s : State) (f : Power → Power) : (s.modPower f).counters = s.counters := rfl
@[simp] theorem modPower_holds (s : State) (f : Power → Power) : (s.modPower f).holds = s.holds := rfl
@[simp] theorem modPower_crews (s : State) (f : Power → Power) : (s.modPower f).crews = s.crews := rfl
@[simp] theorem modPower_graphs (s : State) (f : Power → Power) : (s.modPower f).graphs = s.graphs := rfl
@[simp] theorem modPower_ctxs (s : State) (f : Power → Power) : (s.modPower f).ctxs = s.ctxs := rfl
@[simp] theorem modPower_hub (s : State) (f : Power → Power) : (s.modPower f).hub = s.hub := rfl
@[simp] theorem modPower_power (s : State) (f : Power → Power) : (s.modPower f).power = f s.power := rfl
@[simp] theorem modPower_mgmt (s : State) (f : Power → Power) : (s.modPower f).mgmt = s.mgmt := rfl
@[simp] theorem modPower_curCore (s : State) (f : Power → Power) : (s.modPower f).curCore = s.curCore := rfl
@[simp] theorem modPower_curSlot (s : State) (f : Power → Power) : (s.modPower f).curSlot = s.curSlot := rfl
@[simp] theorem modPower_agenda (s : State) (f : Power → Power) : (s.modPower f).agenda = s.agenda := rfl
@[simp] theorem modPower_rotor (s : State) (f : Power → Power) : (s.modPower f).rotor = s.rotor := rfl
@[simp] theorem modPower_freeCtr (s : State) (f : Power → Power) : (s.modPower f).freeCtr = s.freeCtr := rfl

@[simp] theorem modMgmt_devtime (s : State) (f : Mgmt → Mgmt) : (s.modMgmt f).devtime = s.devtime := rfl
@[simp] theorem modMgmt_mem (s : State) (f : Mgmt → Mgmt) : (s.modMgmt f).mem = s.mem := rfl
@[simp] theorem modMgmt_ws (s : State) (f : Mgmt → Mgmt) : (s.modMgmt f).ws = s.ws := rfl
@[simp] theorem modMgmt_poison (s : State) (f : Mgmt → Mgmt) : (s.modMgmt f).poison = s.poison := rfl
@[simp] theorem modMgmt_wsPoison (s : State) (f : Mgmt → Mgmt) : (s.modMgmt f).wsPoison = s.wsPoison := rfl
@[simp] theorem modMgmt_threads (s : State) (f : Mgmt → Mgmt) : (s.modMgmt f).threads = s.threads := rfl
@[simp] theorem modMgmt_closet (s : State) (f : Mgmt → Mgmt) : (s.modMgmt f).closet = s.closet := rfl
@[simp] theorem modMgmt_cores (s : State) (f : Mgmt → Mgmt) : (s.modMgmt f).cores = s.cores := rfl
@[simp] theorem modMgmt_vats (s : State) (f : Mgmt → Mgmt) : (s.modMgmt f).vats = s.vats := rfl
@[simp] theorem modMgmt_presses (s : State) (f : Mgmt → Mgmt) : (s.modMgmt f).presses = s.presses := rfl
@[simp] theorem modMgmt_l1 (s : State) (f : Mgmt → Mgmt) : (s.modMgmt f).l1 = s.l1 := rfl
@[simp] theorem modMgmt_l2 (s : State) (f : Mgmt → Mgmt) : (s.modMgmt f).l2 = s.l2 := rfl
@[simp] theorem modMgmt_dirty (s : State) (f : Mgmt → Mgmt) : (s.modMgmt f).dirty = s.dirty := rfl
@[simp] theorem modMgmt_mcReads (s : State) (f : Mgmt → Mgmt) : (s.modMgmt f).mcReads = s.mcReads := rfl
@[simp] theorem modMgmt_wsWaits (s : State) (f : Mgmt → Mgmt) : (s.modMgmt f).wsWaits = s.wsWaits := rfl
@[simp] theorem modMgmt_barHeld (s : State) (f : Mgmt → Mgmt) : (s.modMgmt f).barHeld = s.barHeld := rfl
@[simp] theorem modMgmt_counters (s : State) (f : Mgmt → Mgmt) : (s.modMgmt f).counters = s.counters := rfl
@[simp] theorem modMgmt_holds (s : State) (f : Mgmt → Mgmt) : (s.modMgmt f).holds = s.holds := rfl
@[simp] theorem modMgmt_crews (s : State) (f : Mgmt → Mgmt) : (s.modMgmt f).crews = s.crews := rfl
@[simp] theorem modMgmt_graphs (s : State) (f : Mgmt → Mgmt) : (s.modMgmt f).graphs = s.graphs := rfl
@[simp] theorem modMgmt_ctxs (s : State) (f : Mgmt → Mgmt) : (s.modMgmt f).ctxs = s.ctxs := rfl
@[simp] theorem modMgmt_hub (s : State) (f : Mgmt → Mgmt) : (s.modMgmt f).hub = s.hub := rfl
@[simp] theorem modMgmt_power (s : State) (f : Mgmt → Mgmt) : (s.modMgmt f).power = s.power := rfl
@[simp] theorem modMgmt_mgmt (s : State) (f : Mgmt → Mgmt) : (s.modMgmt f).mgmt = f s.mgmt := rfl
@[simp] theorem modMgmt_curCore (s : State) (f : Mgmt → Mgmt) : (s.modMgmt f).curCore = s.curCore := rfl
@[simp] theorem modMgmt_curSlot (s : State) (f : Mgmt → Mgmt) : (s.modMgmt f).curSlot = s.curSlot := rfl
@[simp] theorem modMgmt_agenda (s : State) (f : Mgmt → Mgmt) : (s.modMgmt f).agenda = s.agenda := rfl
@[simp] theorem modMgmt_rotor (s : State) (f : Mgmt → Mgmt) : (s.modMgmt f).rotor = s.rotor := rfl
@[simp] theorem modMgmt_freeCtr (s : State) (f : Mgmt → Mgmt) : (s.modMgmt f).freeCtr = s.freeCtr := rfl

@[simp] theorem modCrew_devtime (s : State) (n : Nat) (f : Crew → Crew) : (s.modCrew n f).devtime = s.devtime := rfl
@[simp] theorem modCrew_mem (s : State) (n : Nat) (f : Crew → Crew) : (s.modCrew n f).mem = s.mem := rfl
@[simp] theorem modCrew_ws (s : State) (n : Nat) (f : Crew → Crew) : (s.modCrew n f).ws = s.ws := rfl
@[simp] theorem modCrew_poison (s : State) (n : Nat) (f : Crew → Crew) : (s.modCrew n f).poison = s.poison := rfl
@[simp] theorem modCrew_wsPoison (s : State) (n : Nat) (f : Crew → Crew) : (s.modCrew n f).wsPoison = s.wsPoison := rfl
@[simp] theorem modCrew_threads (s : State) (n : Nat) (f : Crew → Crew) : (s.modCrew n f).threads = s.threads := rfl
@[simp] theorem modCrew_closet (s : State) (n : Nat) (f : Crew → Crew) : (s.modCrew n f).closet = s.closet := rfl
@[simp] theorem modCrew_cores (s : State) (n : Nat) (f : Crew → Crew) : (s.modCrew n f).cores = s.cores := rfl
@[simp] theorem modCrew_vats (s : State) (n : Nat) (f : Crew → Crew) : (s.modCrew n f).vats = s.vats := rfl
@[simp] theorem modCrew_presses (s : State) (n : Nat) (f : Crew → Crew) : (s.modCrew n f).presses = s.presses := rfl
@[simp] theorem modCrew_l1 (s : State) (n : Nat) (f : Crew → Crew) : (s.modCrew n f).l1 = s.l1 := rfl
@[simp] theorem modCrew_l2 (s : State) (n : Nat) (f : Crew → Crew) : (s.modCrew n f).l2 = s.l2 := rfl
@[simp] theorem modCrew_dirty (s : State) (n : Nat) (f : Crew → Crew) : (s.modCrew n f).dirty = s.dirty := rfl
@[simp] theorem modCrew_mcReads (s : State) (n : Nat) (f : Crew → Crew) : (s.modCrew n f).mcReads = s.mcReads := rfl
@[simp] theorem modCrew_wsWaits (s : State) (n : Nat) (f : Crew → Crew) : (s.modCrew n f).wsWaits = s.wsWaits := rfl
@[simp] theorem modCrew_barHeld (s : State) (n : Nat) (f : Crew → Crew) : (s.modCrew n f).barHeld = s.barHeld := rfl
@[simp] theorem modCrew_counters (s : State) (n : Nat) (f : Crew → Crew) : (s.modCrew n f).counters = s.counters := rfl
@[simp] theorem modCrew_holds (s : State) (n : Nat) (f : Crew → Crew) : (s.modCrew n f).holds = s.holds := rfl
@[simp] theorem modCrew_crews (s : State) (n : Nat) (f : Crew → Crew) : (s.modCrew n f).crews = Tbl.modify s.crews n f := rfl
@[simp] theorem modCrew_graphs (s : State) (n : Nat) (f : Crew → Crew) : (s.modCrew n f).graphs = s.graphs := rfl
@[simp] theorem modCrew_ctxs (s : State) (n : Nat) (f : Crew → Crew) : (s.modCrew n f).ctxs = s.ctxs := rfl
@[simp] theorem modCrew_hub (s : State) (n : Nat) (f : Crew → Crew) : (s.modCrew n f).hub = s.hub := rfl
@[simp] theorem modCrew_power (s : State) (n : Nat) (f : Crew → Crew) : (s.modCrew n f).power = s.power := rfl
@[simp] theorem modCrew_mgmt (s : State) (n : Nat) (f : Crew → Crew) : (s.modCrew n f).mgmt = s.mgmt := rfl
@[simp] theorem modCrew_curCore (s : State) (n : Nat) (f : Crew → Crew) : (s.modCrew n f).curCore = s.curCore := rfl
@[simp] theorem modCrew_curSlot (s : State) (n : Nat) (f : Crew → Crew) : (s.modCrew n f).curSlot = s.curSlot := rfl
@[simp] theorem modCrew_agenda (s : State) (n : Nat) (f : Crew → Crew) : (s.modCrew n f).agenda = s.agenda := rfl
@[simp] theorem modCrew_rotor (s : State) (n : Nat) (f : Crew → Crew) : (s.modCrew n f).rotor = s.rotor := rfl
@[simp] theorem modCrew_freeCtr (s : State) (n : Nat) (f : Crew → Crew) : (s.modCrew n f).freeCtr = s.freeCtr := rfl

@[simp] theorem modGraph_devtime (s : State) (n : Nat) (f : Graph → Graph) : (s.modGraph n f).devtime = s.devtime := rfl
@[simp] theorem modGraph_mem (s : State) (n : Nat) (f : Graph → Graph) : (s.modGraph n f).mem = s.mem := rfl
@[simp] theorem modGraph_ws (s : State) (n : Nat) (f : Graph → Graph) : (s.modGraph n f).ws = s.ws := rfl
@[simp] theorem modGraph_poison (s : State) (n : Nat) (f : Graph → Graph) : (s.modGraph n f).poison = s.poison := rfl
@[simp] theorem modGraph_wsPoison (s : State) (n : Nat) (f : Graph → Graph) : (s.modGraph n f).wsPoison = s.wsPoison := rfl
@[simp] theorem modGraph_threads (s : State) (n : Nat) (f : Graph → Graph) : (s.modGraph n f).threads = s.threads := rfl
@[simp] theorem modGraph_closet (s : State) (n : Nat) (f : Graph → Graph) : (s.modGraph n f).closet = s.closet := rfl
@[simp] theorem modGraph_cores (s : State) (n : Nat) (f : Graph → Graph) : (s.modGraph n f).cores = s.cores := rfl
@[simp] theorem modGraph_vats (s : State) (n : Nat) (f : Graph → Graph) : (s.modGraph n f).vats = s.vats := rfl
@[simp] theorem modGraph_presses (s : State) (n : Nat) (f : Graph → Graph) : (s.modGraph n f).presses = s.presses := rfl
@[simp] theorem modGraph_l1 (s : State) (n : Nat) (f : Graph → Graph) : (s.modGraph n f).l1 = s.l1 := rfl
@[simp] theorem modGraph_l2 (s : State) (n : Nat) (f : Graph → Graph) : (s.modGraph n f).l2 = s.l2 := rfl
@[simp] theorem modGraph_dirty (s : State) (n : Nat) (f : Graph → Graph) : (s.modGraph n f).dirty = s.dirty := rfl
@[simp] theorem modGraph_mcReads (s : State) (n : Nat) (f : Graph → Graph) : (s.modGraph n f).mcReads = s.mcReads := rfl
@[simp] theorem modGraph_wsWaits (s : State) (n : Nat) (f : Graph → Graph) : (s.modGraph n f).wsWaits = s.wsWaits := rfl
@[simp] theorem modGraph_barHeld (s : State) (n : Nat) (f : Graph → Graph) : (s.modGraph n f).barHeld = s.barHeld := rfl
@[simp] theorem modGraph_counters (s : State) (n : Nat) (f : Graph → Graph) : (s.modGraph n f).counters = s.counters := rfl
@[simp] theorem modGraph_holds (s : State) (n : Nat) (f : Graph → Graph) : (s.modGraph n f).holds = s.holds := rfl
@[simp] theorem modGraph_crews (s : State) (n : Nat) (f : Graph → Graph) : (s.modGraph n f).crews = s.crews := rfl
@[simp] theorem modGraph_graphs (s : State) (n : Nat) (f : Graph → Graph) : (s.modGraph n f).graphs = Tbl.modify s.graphs n f := rfl
@[simp] theorem modGraph_ctxs (s : State) (n : Nat) (f : Graph → Graph) : (s.modGraph n f).ctxs = s.ctxs := rfl
@[simp] theorem modGraph_hub (s : State) (n : Nat) (f : Graph → Graph) : (s.modGraph n f).hub = s.hub := rfl
@[simp] theorem modGraph_power (s : State) (n : Nat) (f : Graph → Graph) : (s.modGraph n f).power = s.power := rfl
@[simp] theorem modGraph_mgmt (s : State) (n : Nat) (f : Graph → Graph) : (s.modGraph n f).mgmt = s.mgmt := rfl
@[simp] theorem modGraph_curCore (s : State) (n : Nat) (f : Graph → Graph) : (s.modGraph n f).curCore = s.curCore := rfl
@[simp] theorem modGraph_curSlot (s : State) (n : Nat) (f : Graph → Graph) : (s.modGraph n f).curSlot = s.curSlot := rfl
@[simp] theorem modGraph_agenda (s : State) (n : Nat) (f : Graph → Graph) : (s.modGraph n f).agenda = s.agenda := rfl
@[simp] theorem modGraph_rotor (s : State) (n : Nat) (f : Graph → Graph) : (s.modGraph n f).rotor = s.rotor := rfl
@[simp] theorem modGraph_freeCtr (s : State) (n : Nat) (f : Graph → Graph) : (s.modGraph n f).freeCtr = s.freeCtr := rfl

@[simp] theorem modCtx_devtime (s : State) (n : Nat) (f : Ctx → Ctx) : (s.modCtx n f).devtime = s.devtime := rfl
@[simp] theorem modCtx_mem (s : State) (n : Nat) (f : Ctx → Ctx) : (s.modCtx n f).mem = s.mem := rfl
@[simp] theorem modCtx_ws (s : State) (n : Nat) (f : Ctx → Ctx) : (s.modCtx n f).ws = s.ws := rfl
@[simp] theorem modCtx_poison (s : State) (n : Nat) (f : Ctx → Ctx) : (s.modCtx n f).poison = s.poison := rfl
@[simp] theorem modCtx_wsPoison (s : State) (n : Nat) (f : Ctx → Ctx) : (s.modCtx n f).wsPoison = s.wsPoison := rfl
@[simp] theorem modCtx_threads (s : State) (n : Nat) (f : Ctx → Ctx) : (s.modCtx n f).threads = s.threads := rfl
@[simp] theorem modCtx_closet (s : State) (n : Nat) (f : Ctx → Ctx) : (s.modCtx n f).closet = s.closet := rfl
@[simp] theorem modCtx_cores (s : State) (n : Nat) (f : Ctx → Ctx) : (s.modCtx n f).cores = s.cores := rfl
@[simp] theorem modCtx_vats (s : State) (n : Nat) (f : Ctx → Ctx) : (s.modCtx n f).vats = s.vats := rfl
@[simp] theorem modCtx_presses (s : State) (n : Nat) (f : Ctx → Ctx) : (s.modCtx n f).presses = s.presses := rfl
@[simp] theorem modCtx_l1 (s : State) (n : Nat) (f : Ctx → Ctx) : (s.modCtx n f).l1 = s.l1 := rfl
@[simp] theorem modCtx_l2 (s : State) (n : Nat) (f : Ctx → Ctx) : (s.modCtx n f).l2 = s.l2 := rfl
@[simp] theorem modCtx_dirty (s : State) (n : Nat) (f : Ctx → Ctx) : (s.modCtx n f).dirty = s.dirty := rfl
@[simp] theorem modCtx_mcReads (s : State) (n : Nat) (f : Ctx → Ctx) : (s.modCtx n f).mcReads = s.mcReads := rfl
@[simp] theorem modCtx_wsWaits (s : State) (n : Nat) (f : Ctx → Ctx) : (s.modCtx n f).wsWaits = s.wsWaits := rfl
@[simp] theorem modCtx_barHeld (s : State) (n : Nat) (f : Ctx → Ctx) : (s.modCtx n f).barHeld = s.barHeld := rfl
@[simp] theorem modCtx_counters (s : State) (n : Nat) (f : Ctx → Ctx) : (s.modCtx n f).counters = s.counters := rfl
@[simp] theorem modCtx_holds (s : State) (n : Nat) (f : Ctx → Ctx) : (s.modCtx n f).holds = s.holds := rfl
@[simp] theorem modCtx_crews (s : State) (n : Nat) (f : Ctx → Ctx) : (s.modCtx n f).crews = s.crews := rfl
@[simp] theorem modCtx_graphs (s : State) (n : Nat) (f : Ctx → Ctx) : (s.modCtx n f).graphs = s.graphs := rfl
@[simp] theorem modCtx_ctxs (s : State) (n : Nat) (f : Ctx → Ctx) : (s.modCtx n f).ctxs = Tbl.modify s.ctxs n f := rfl
@[simp] theorem modCtx_hub (s : State) (n : Nat) (f : Ctx → Ctx) : (s.modCtx n f).hub = s.hub := rfl
@[simp] theorem modCtx_power (s : State) (n : Nat) (f : Ctx → Ctx) : (s.modCtx n f).power = s.power := rfl
@[simp] theorem modCtx_mgmt (s : State) (n : Nat) (f : Ctx → Ctx) : (s.modCtx n f).mgmt = s.mgmt := rfl
@[simp] theorem modCtx_curCore (s : State) (n : Nat) (f : Ctx → Ctx) : (s.modCtx n f).curCore = s.curCore := rfl
@[simp] theorem modCtx_curSlot (s : State) (n : Nat) (f : Ctx → Ctx) : (s.modCtx n f).curSlot = s.curSlot := rfl
@[simp] theorem modCtx_agenda (s : State) (n : Nat) (f : Ctx → Ctx) : (s.modCtx n f).agenda = s.agenda := rfl
@[simp] theorem modCtx_rotor (s : State) (n : Nat) (f : Ctx → Ctx) : (s.modCtx n f).rotor = s.rotor := rfl
@[simp] theorem modCtx_freeCtr (s : State) (n : Nat) (f : Ctx → Ctx) : (s.modCtx n f).freeCtr = s.freeCtr := rfl

@[simp] theorem bump_devtime (s : State) (off n : Nat) : (s.bump off n).devtime = s.devtime := rfl
@[simp] theorem bump_mem (s : State) (off n : Nat) : (s.bump off n).mem = s.mem := rfl
@[simp] theorem bump_ws (s : State) (off n : Nat) : (s.bump off n).ws = s.ws := rfl
@[simp] theorem bump_poison (s : State) (off n : Nat) : (s.bump off n).poison = s.poison := rfl
@[simp] theorem bump_wsPoison (s : State) (off n : Nat) : (s.bump off n).wsPoison = s.wsPoison := rfl
@[simp] theorem bump_threads (s : State) (off n : Nat) : (s.bump off n).threads = s.threads := rfl
@[simp] theorem bump_closet (s : State) (off n : Nat) : (s.bump off n).closet = s.closet := rfl
@[simp] theorem bump_cores (s : State) (off n : Nat) : (s.bump off n).cores = s.cores := rfl
@[simp] theorem bump_vats (s : State) (off n : Nat) : (s.bump off n).vats = s.vats := rfl
@[simp] theorem bump_presses (s : State) (off n : Nat) : (s.bump off n).presses = s.presses := rfl
@[simp] theorem bump_l1 (s : State) (off n : Nat) : (s.bump off n).l1 = s.l1 := rfl
@[simp] theorem bump_l2 (s : State) (off n : Nat) : (s.bump off n).l2 = s.l2 := rfl
@[simp] theorem bump_dirty (s : State) (off n : Nat) : (s.bump off n).dirty = s.dirty := rfl
@[simp] theorem bump_mcReads (s : State) (off n : Nat) : (s.bump off n).mcReads = s.mcReads := rfl
@[simp] theorem bump_wsWaits (s : State) (off n : Nat) : (s.bump off n).wsWaits = s.wsWaits := rfl
@[simp] theorem bump_barHeld (s : State) (off n : Nat) : (s.bump off n).barHeld = s.barHeld := rfl
@[simp] theorem bump_counters (s : State) (off n : Nat) : (s.bump off n).counters = Tbl.upd 0 s.counters off fun w => w + word n := rfl
@[simp] theorem bump_holds (s : State) (off n : Nat) : (s.bump off n).holds = s.holds := rfl
@[simp] theorem bump_crews (s : State) (off n : Nat) : (s.bump off n).crews = s.crews := rfl
@[simp] theorem bump_graphs (s : State) (off n : Nat) : (s.bump off n).graphs = s.graphs := rfl
@[simp] theorem bump_ctxs (s : State) (off n : Nat) : (s.bump off n).ctxs = s.ctxs := rfl
@[simp] theorem bump_hub (s : State) (off n : Nat) : (s.bump off n).hub = s.hub := rfl
@[simp] theorem bump_power (s : State) (off n : Nat) : (s.bump off n).power = s.power := rfl
@[simp] theorem bump_mgmt (s : State) (off n : Nat) : (s.bump off n).mgmt = s.mgmt := rfl
@[simp] theorem bump_curCore (s : State) (off n : Nat) : (s.bump off n).curCore = s.curCore := rfl
@[simp] theorem bump_curSlot (s : State) (off n : Nat) : (s.bump off n).curSlot = s.curSlot := rfl
@[simp] theorem bump_agenda (s : State) (off n : Nat) : (s.bump off n).agenda = s.agenda := rfl
@[simp] theorem bump_rotor (s : State) (off n : Nat) : (s.bump off n).rotor = s.rotor := rfl
@[simp] theorem bump_freeCtr (s : State) (off n : Nat) : (s.bump off n).freeCtr = s.freeCtr := rfl

@[simp] theorem setByte_devtime (s : State) (pa : Nat) (b : Byte) : (s.setByte pa b).devtime = s.devtime := rfl
@[simp] theorem setByte_mem (s : State) (pa : Nat) (b : Byte) : (s.setByte pa b).mem = Tbl.put 0 s.mem pa b := rfl
@[simp] theorem setByte_ws (s : State) (pa : Nat) (b : Byte) : (s.setByte pa b).ws = s.ws := rfl
@[simp] theorem setByte_poison (s : State) (pa : Nat) (b : Byte) : (s.setByte pa b).poison = s.poison := rfl
@[simp] theorem setByte_wsPoison (s : State) (pa : Nat) (b : Byte) : (s.setByte pa b).wsPoison = s.wsPoison := rfl
@[simp] theorem setByte_threads (s : State) (pa : Nat) (b : Byte) : (s.setByte pa b).threads = s.threads := rfl
@[simp] theorem setByte_closet (s : State) (pa : Nat) (b : Byte) : (s.setByte pa b).closet = s.closet := rfl
@[simp] theorem setByte_cores (s : State) (pa : Nat) (b : Byte) : (s.setByte pa b).cores = s.cores := rfl
@[simp] theorem setByte_vats (s : State) (pa : Nat) (b : Byte) : (s.setByte pa b).vats = s.vats := rfl
@[simp] theorem setByte_presses (s : State) (pa : Nat) (b : Byte) : (s.setByte pa b).presses = s.presses := rfl
@[simp] theorem setByte_l1 (s : State) (pa : Nat) (b : Byte) : (s.setByte pa b).l1 = s.l1 := rfl
@[simp] theorem setByte_l2 (s : State) (pa : Nat) (b : Byte) : (s.setByte pa b).l2 = s.l2 := rfl
@[simp] theorem setByte_dirty (s : State) (pa : Nat) (b : Byte) : (s.setByte pa b).dirty = s.dirty := rfl
@[simp] theorem setByte_mcReads (s : State) (pa : Nat) (b : Byte) : (s.setByte pa b).mcReads = s.mcReads := rfl
@[simp] theorem setByte_wsWaits (s : State) (pa : Nat) (b : Byte) : (s.setByte pa b).wsWaits = s.wsWaits := rfl
@[simp] theorem setByte_barHeld (s : State) (pa : Nat) (b : Byte) : (s.setByte pa b).barHeld = s.barHeld := rfl
@[simp] theorem setByte_counters (s : State) (pa : Nat) (b : Byte) : (s.setByte pa b).counters = s.counters := rfl
@[simp] theorem setByte_holds (s : State) (pa : Nat) (b : Byte) : (s.setByte pa b).holds = s.holds := rfl
@[simp] theorem setByte_crews (s : State) (pa : Nat) (b : Byte) : (s.setByte pa b).crews = s.crews := rfl
@[simp] theorem setByte_graphs (s : State) (pa : Nat) (b : Byte) : (s.setByte pa b).graphs = s.graphs := rfl
@[simp] theorem setByte_ctxs (s : State) (pa : Nat) (b : Byte) : (s.setByte pa b).ctxs = s.ctxs := rfl
@[simp] theorem setByte_hub (s : State) (pa : Nat) (b : Byte) : (s.setByte pa b).hub = s.hub := rfl
@[simp] theorem setByte_power (s : State) (pa : Nat) (b : Byte) : (s.setByte pa b).power = s.power := rfl
@[simp] theorem setByte_mgmt (s : State) (pa : Nat) (b : Byte) : (s.setByte pa b).mgmt = s.mgmt := rfl
@[simp] theorem setByte_curCore (s : State) (pa : Nat) (b : Byte) : (s.setByte pa b).curCore = s.curCore := rfl
@[simp] theorem setByte_curSlot (s : State) (pa : Nat) (b : Byte) : (s.setByte pa b).curSlot = s.curSlot := rfl
@[simp] theorem setByte_agenda (s : State) (pa : Nat) (b : Byte) : (s.setByte pa b).agenda = s.agenda := rfl
@[simp] theorem setByte_rotor (s : State) (pa : Nat) (b : Byte) : (s.setByte pa b).rotor = s.rotor := rfl
@[simp] theorem setByte_freeCtr (s : State) (pa : Nat) (b : Byte) : (s.setByte pa b).freeCtr = s.freeCtr := rfl

@[simp] theorem setWs_devtime (s : State) (die off : Nat) (b : Byte) : (s.setWs die off b).devtime = s.devtime := rfl
@[simp] theorem setWs_mem (s : State) (die off : Nat) (b : Byte) : (s.setWs die off b).mem = s.mem := rfl
@[simp] theorem setWs_ws (s : State) (die off : Nat) (b : Byte) : (s.setWs die off b).ws = Tbl.put 0 s.ws (die * 2 ^ 32 + off) b := rfl
@[simp] theorem setWs_poison (s : State) (die off : Nat) (b : Byte) : (s.setWs die off b).poison = s.poison := rfl
@[simp] theorem setWs_wsPoison (s : State) (die off : Nat) (b : Byte) : (s.setWs die off b).wsPoison = s.wsPoison := rfl
@[simp] theorem setWs_threads (s : State) (die off : Nat) (b : Byte) : (s.setWs die off b).threads = s.threads := rfl
@[simp] theorem setWs_closet (s : State) (die off : Nat) (b : Byte) : (s.setWs die off b).closet = s.closet := rfl
@[simp] theorem setWs_cores (s : State) (die off : Nat) (b : Byte) : (s.setWs die off b).cores = s.cores := rfl
@[simp] theorem setWs_vats (s : State) (die off : Nat) (b : Byte) : (s.setWs die off b).vats = s.vats := rfl
@[simp] theorem setWs_presses (s : State) (die off : Nat) (b : Byte) : (s.setWs die off b).presses = s.presses := rfl
@[simp] theorem setWs_l1 (s : State) (die off : Nat) (b : Byte) : (s.setWs die off b).l1 = s.l1 := rfl
@[simp] theorem setWs_l2 (s : State) (die off : Nat) (b : Byte) : (s.setWs die off b).l2 = s.l2 := rfl
@[simp] theorem setWs_dirty (s : State) (die off : Nat) (b : Byte) : (s.setWs die off b).dirty = s.dirty := rfl
@[simp] theorem setWs_mcReads (s : State) (die off : Nat) (b : Byte) : (s.setWs die off b).mcReads = s.mcReads := rfl
@[simp] theorem setWs_wsWaits (s : State) (die off : Nat) (b : Byte) : (s.setWs die off b).wsWaits = s.wsWaits := rfl
@[simp] theorem setWs_barHeld (s : State) (die off : Nat) (b : Byte) : (s.setWs die off b).barHeld = s.barHeld := rfl
@[simp] theorem setWs_counters (s : State) (die off : Nat) (b : Byte) : (s.setWs die off b).counters = s.counters := rfl
@[simp] theorem setWs_holds (s : State) (die off : Nat) (b : Byte) : (s.setWs die off b).holds = s.holds := rfl
@[simp] theorem setWs_crews (s : State) (die off : Nat) (b : Byte) : (s.setWs die off b).crews = s.crews := rfl
@[simp] theorem setWs_graphs (s : State) (die off : Nat) (b : Byte) : (s.setWs die off b).graphs = s.graphs := rfl
@[simp] theorem setWs_ctxs (s : State) (die off : Nat) (b : Byte) : (s.setWs die off b).ctxs = s.ctxs := rfl
@[simp] theorem setWs_hub (s : State) (die off : Nat) (b : Byte) : (s.setWs die off b).hub = s.hub := rfl
@[simp] theorem setWs_power (s : State) (die off : Nat) (b : Byte) : (s.setWs die off b).power = s.power := rfl
@[simp] theorem setWs_mgmt (s : State) (die off : Nat) (b : Byte) : (s.setWs die off b).mgmt = s.mgmt := rfl
@[simp] theorem setWs_curCore (s : State) (die off : Nat) (b : Byte) : (s.setWs die off b).curCore = s.curCore := rfl
@[simp] theorem setWs_curSlot (s : State) (die off : Nat) (b : Byte) : (s.setWs die off b).curSlot = s.curSlot := rfl
@[simp] theorem setWs_agenda (s : State) (die off : Nat) (b : Byte) : (s.setWs die off b).agenda = s.agenda := rfl
@[simp] theorem setWs_rotor (s : State) (die off : Nat) (b : Byte) : (s.setWs die off b).rotor = s.rotor := rfl
@[simp] theorem setWs_freeCtr (s : State) (die off : Nat) (b : Byte) : (s.setWs die off b).freeCtr = s.freeCtr := rfl

/-! ## Reads after writes -/

@[simp] theorem thread_setThread_same (s : State) (c k : Nat) (t : Thread) : (s.setThread c k t).thread c k = t := by
  simp [State.thread]

theorem thread_setThread (s : State) (c k c' k' : Nat) (t : Thread) :
    (s.setThread c k t).thread c' k' = if c' * 8 + k' = c * 8 + k then t else s.thread c' k' := by
  simp [State.thread, Tbl.get_put]

@[simp] theorem me_setMe (s : State) (t : Thread) : (s.setMe t).me = t := by simp [State.me, State.thread]

@[simp] theorem me_modMe (s : State) (f : Thread → Thread) : (s.modMe f).me = f s.me := by simp [State.me, State.thread]

/-- Another slot's thread is not touched by a change of the issuing one. -/
theorem thread_modMe_other (s : State) (f : Thread → Thread) {c k : Nat} (h : c * 8 + k ≠ s.curCore * 8 + s.curSlot) :
    (s.modMe f).thread c k = s.thread c k := by
  simp [State.thread, Tbl.get_put_other _ _ _ h]

@[simp] theorem core_modCore_same (s : State) (c : Nat) (f : Core → Core) : (s.modCore c f).core c = f (s.core c) := by
  simp [State.core, Tbl.get_upd]

@[simp] theorem vat_modVat_same (s : State) (v : Nat) (f : Vat → Vat) : (s.modVat v f).vat v = f (s.vat v) := by
  simp [State.vat, Tbl.get_upd]

@[simp] theorem press_modPress_same (s : State) (p : Nat) (f : Press → Press) : (s.modPress p f).press p = f (s.press p) := by
  simp [State.press, Tbl.get_upd]

@[simp] theorem queue_modQueue_same (s : State) (q : Nat) (f : Queue → Queue) : (s.modQueue q f).queue q = f (s.queue q) := by
  simp [State.queue, Tbl.get_upd]

@[simp] theorem crew?_modCrew_same (s : State) (n : Nat) (f : Crew → Crew) : (s.modCrew n f).crew? n = (s.crew? n).map f := by
  simp [State.crew?, Tbl.find_modify]

@[simp] theorem ctx?_modCtx_same (s : State) (n : Nat) (f : Ctx → Ctx) : (s.modCtx n f).ctx? n = (s.ctx? n).map f := by
  simp [State.ctx?, Tbl.find_modify]

@[simp] theorem graph?_modGraph_same (s : State) (n : Nat) (f : Graph → Graph) :
    (s.modGraph n f).graph? n = (s.graph? n).map f := by
  simp [State.graph?, Tbl.find_modify]

end Sys2Proof.Machine
end

