-- ==== Sys2Proof/Laws/Issue.lean ====
section
/-! SUPPORT. Laws of the issue: what exec does with a thread instruction, and how an effect's answer becomes the next state. -/

namespace Sys2Proof.Machine

/-- Every instruction that a thread issues is carried out by `issue` with its own body. -/
theorem exec_of_body {i : Instr} {b : Body} (h : bodyOf i = some b) (s : State) : exec i s = .next (issue i b s) := by
  cases i <;> first | (cases h; rfl) | (simp [bodyOf] at h)

/-- An issued instruction makes its effect, and the answer is settled. -/
theorem issue_of_accept {i : Instr} {b : Body} {s s1 : State} {o : Ops} (h : b.accept s = .ok (some (o, s1))) :
    issue i b s = settle s [(i, o)] b.h.w.toNat (nextPC s.me.pc 1 b.blk) (b.eff o s1) := by
  simp only [issue, h]

theorem exec_of_issues {i : Instr} {b : Body} {s s1 : State} {o : Ops} (hi : Issues i s o s1) (hb : bodyOf i = some b) :
    exec i s = .next (settle s [(i, o)] b.h.w.toNat (nextPC s.me.pc 1 b.blk) (b.eff o s1)) := by
  obtain ⟨b', hb', ha⟩ := hi
  obtain rfl : b' = b := by rw [hb'] at hb; exact Option.some.inj hb
  rw [exec_of_body hb', issue_of_accept ha]

/-- The effect is done: the thread goes on. -/
theorem exec_done {i : Instr} {b : Body} {s s1 s2 : State} {o : Ops} (hi : Issues i s o s1) (hb : bodyOf i = some b)
    (he : b.eff o s1 = .done s2) : exec i s = .next (after i s s2) := by
  rw [exec_of_issues hi hb, he]; simp only [settle, after, hb]

/-- The effect is a jump. -/
theorem exec_jump {i : Instr} {b : Body} {s s1 s2 : State} {o : Ops} {pc : Word} {img : Option LineImg} (hi : Issues i s o s1)
    (hb : bodyOf i = some b) (he : b.eff o s1 = .jump s2 pc img) : exec i s = .next (afterJump i s2 pc img) := by
  rw [exec_of_issues hi hb, he]; simp only [settle, afterJump, hb]

/-- The effect is made and the thread waits for its end. -/
theorem exec_hold {i : Instr} {b : Body} {s s1 s2 : State} {o : Ops} {why : ParkWhy} {key : Nat} (hi : Issues i s o s1)
    (hb : bodyOf i = some b) (he : b.eff o s1 = .hold s2 why key) : exec i s = .next (afterHold i s s2 why key) := by
  rw [exec_of_issues hi hb, he]; simp only [settle, afterHold, hb]

/-- The effect waits. -/
theorem exec_wait {i : Instr} {b : Body} {s s1 s2 : State} {o : Ops} {why : ParkWhy} {key : Nat} (hi : Issues i s o s1)
    (hb : bodyOf i = some b) (he : b.eff o s1 = .wait s2 why key) : exec i s = .next (afterWait i o s s2 why key) := by
  rw [exec_of_issues hi hb, he]; simp only [settle, afterWait, hb]

/-- The effect traps. -/
theorem exec_trap {i : Instr} {b : Body} {s s1 s2 : State} {o : Ops} {cause : Nat} {addr aux : Word} (hi : Issues i s o s1)
    (hb : bodyOf i = some b) (he : b.eff o s1 = .trap s2 cause addr aux) : exec i s = .next (afterTrap s s2 cause addr aux) := by
  rw [exec_of_issues hi hb, he]; simp only [settle, afterTrap]

/-! ## Going on and parking -/

/-- A thread that goes on changes itself only. -/
theorem goOn_only (s : State) (pc : Word) (img : Option LineImg) (w : Nat) : OnlyMine s (setSkip (goOn s pc img) w) :=
  ⟨rfl, fun c k h => by
    simp only [setSkip, goOn]
    rw [thread_modMe_other, thread_modMe_other _ _ h]
    exact h⟩

/-- What parking leaves as it was. -/
theorem parkMe_keeps (s : State) (why : ParkWhy) (key : Nat) (resume : List (Instr × Ops)) (next : Option Word) :
    ((parkMe s why key resume next).me.park.map fun p => p.why) = some why ∧ (parkMe s why key resume next).me.pc = s.me.pc ∧
    (parkMe s why key resume next).me.registers = s.me.registers ∧ (parkMe s why key resume next).me.full = s.me.full ∧
    (parkMe s why key resume next).me.csr = s.me.csr ∧ (parkMe s why key resume next).mem = s.mem := by
  unfold parkMe State.fresh
  dsimp only
  split <;> simp [me_setMe, Thread.registers]
  split <;> rfl

/-! ## Effects that give a general result -/

theorem effG_none {s : State} {lat : Option Nat} {r : BitVec 5} {f : Ops → Word × BitVec 5} {o : Ops} (h : giveWait s r = none) :
    effG lat r f o s = .done (giveG s lat r (f o).1 (f o).2) := by simp [effG, h]

theorem effG_some {s : State} {lat : Option Nat} {r : BitVec 5} {f : Ops → Word × BitVec 5} {o : Ops} {why : ParkWhy} {key : Nat}
    (h : giveWait s r = some (why, key)) : effG lat r f o s = .wait s why key := by simp [effG, h]

/-- An instruction whose effect is to give one general result gives it, or waits until its destination takes a word. -/
theorem exec_effG {i : Instr} {b : Body} {s s1 : State} {o : Ops} {lat : Option Nat} {d : BitVec 5} {v : Word} {fl : BitVec 5}
    {g : Ops → Word × BitVec 5} (hb : bodyOf i = some b) (hi : Issues i s o s1) (he : b.eff = effG lat d g) (hv : g o = (v, fl)) :
    (giveWait s1 d = none → exec i s = .next (after i s (giveG s1 lat d v fl))) ∧
    (∀ why key, giveWait s1 d = some (why, key) → exec i s = .next (afterWait i o s s1 why key)) :=
  ⟨fun h => exec_done hi hb (by rw [he, effG_none h, hv]), fun _ _ h => exec_wait hi hb (by rw [he, effG_some h])⟩

end Sys2Proof.Machine
end

