-- ==== Sys2Proof/Laws/Lanes.lean ====
section
/-! SUPPORT. Laws of lanes: a register built from lanes holds each of them. -/

namespace Sys2Proof.Machine

theorem span_length (lo n : Nat) : (span lo n).length = n := by
  induction n generalizing lo with
  | zero => rfl
  | succ n ih => simp [span, ih]

theorem span_getElem? (lo n k : Nat) : (span lo n)[k]? = if k < n then some (lo + k) else none := by
  induction n generalizing lo k with
  | zero => simp [span]
  | succ n ih =>
    cases k with
    | zero => simp [span]
    | succ k => simp only [span, List.getElem?_cons_succ, ih, Nat.add_lt_add_iff_right]; split <;> simp <;> omega

theorem mem_span {lo n x : Nat} : x ∈ span lo n ↔ lo ≤ x ∧ x < lo + n := by
  induction n generalizing lo with
  | zero => simp only [span, List.not_mem_nil, false_iff]; omega
  | succ n ih => simp only [span, List.mem_cons, ih]; omega

/-- The number whose base-2^w digits are the lanes. -/
def lanesNat (w : Nat) (l : List Nat) : Nat := l.foldr (fun x acc => x % 2 ^ w + 2 ^ w * acc) 0

theorem lanesNat_lt (w : Nat) (l : List Nat) : lanesNat w l < 2 ^ (w * l.length) := by
  induction l with
  | nil => simp [lanesNat]
  | cons x r ih =>
    have hx := Nat.mod_lt x (Nat.two_pow_pos w)
    have hs : 2 ^ (w * (x :: r).length) = 2 ^ w * 2 ^ (w * r.length) := by
      rw [← Nat.pow_add, List.length_cons, Nat.mul_succ, Nat.add_comm]
    rw [hs]
    calc lanesNat w (x :: r) = x % 2 ^ w + 2 ^ w * lanesNat w r := rfl
      _ < 2 ^ w + 2 ^ w * lanesNat w r := by omega
      _ = 2 ^ w * (lanesNat w r + 1) := by ring
      _ ≤ 2 ^ w * 2 ^ (w * r.length) := Nat.mul_le_mul_left _ ih

theorem lanesNat_lane (w k : Nat) (l : List Nat) : lanesNat w l / 2 ^ (w * k) % 2 ^ w = (l.getD k 0) % 2 ^ w := by
  induction l generalizing k with
  | nil => simp [lanesNat]
  | cons x r ih =>
    have e : lanesNat w (x :: r) = x % 2 ^ w + 2 ^ w * lanesNat w r := rfl
    cases k with
    | zero => rw [e]; simp [Nat.add_mul_mod_self_left]
    | succ k =>
      have h1 : 2 ^ (w * (k + 1)) = 2 ^ w * 2 ^ (w * k) := by rw [← Nat.pow_add, Nat.mul_succ, Nat.add_comm]
      have h2 : (x % 2 ^ w + 2 ^ w * lanesNat w r) / 2 ^ w = lanesNat w r := by
        rw [Nat.add_mul_div_left _ _ (Nat.two_pow_pos w), Nat.div_eq_of_lt (Nat.mod_lt _ (Nat.two_pow_pos w)), Nat.zero_add]
      rw [e, h1, ← Nat.div_div_eq_div_mul, h2, ih]
      simp

/-- Lane k of a register built from a list of lanes that fits. -/
theorem lane_ofLanes {n w : Nat} {l : List Nat} (hl : w * l.length ≤ n) (k : Nat) :
    lane (ofLanes n w l) w k = (l.getD k 0) % 2 ^ w := by
  have h : lanesNat w l < 2 ^ n := Nat.lt_of_lt_of_le (lanesNat_lt w l) (Nat.pow_le_pow_right (by decide) hl)
  rw [lane, bits, ofLanes, BitVec.toNat_ofNat, Nat.shiftRight_eq_div_pow]
  change (lanesNat w l % 2 ^ n) / _ % _ = _
  rw [Nat.mod_eq_of_lt h, lanesNat_lane]

theorem lane_lt {n : Nat} (v : BitVec n) (w k : Nat) : lane v w k < 2 ^ w := Nat.mod_lt _ (Nat.two_pow_pos w)

theorem mul_div_lanes (w : Nat) : w * (512 / w) ≤ 512 := Nat.mul_div_le 512 w

/-- The lanes of a masked operation: active lanes computed, the others kept. -/
theorem mapLanes_lane (w : Nat) (m : Mask) (old : Vec) (f : Nat → Res) {k : Nat} (hk : k < 512 / w) :
    lane (mapLanes w m old f).1 w k = if laneOn w m k then (f k).1 % 2 ^ w else lane old w k := by
  unfold mapLanes packLanes
  rw [lane_ofLanes (by simp only [List.length_map, span_length]; exact mul_div_lanes w)]
  rw [List.getD_eq_getElem?_getD, List.getElem?_map, List.getElem?_map, span_getElem?, if_pos hk]
  simp only [Option.map_some, Option.getD_some, Nat.zero_add]
  split
  · rfl
  · exact Nat.mod_eq_of_lt (lane_lt _ _ _)

/-- The flags of a masked operation are the OR over the active lanes. -/
theorem mapLanes_flags (w : Nat) (m : Mask) (old : Vec) (f : Nat → Res) :
    (mapLanes w m old f).2 = (activeLanes w m).foldl (fun a k => a ||| (f k).2) 0 := by
  suffices h : ∀ (l : List Nat) (a : BitVec 5),
      (l.map fun i => if laneOn w m i then f i else ((lane old w i, 0) : Res)).foldl (fun a x => a ||| x.2) a =
        (l.filter (laneOn w m)).foldl (fun a k => a ||| (f k).2) a from h _ _
  intro l a
  induction l generalizing a with
  | nil => rfl
  | cons k r ih =>
    by_cases h : laneOn w m k = true
    · simp only [List.map_cons, List.foldl_cons, h, if_true, List.filter_cons_of_pos]
      exact ih _
    · have h' : laneOn w m k = false := by simpa using h
      simp only [List.map_cons, List.foldl_cons, h', Bool.false_eq_true, if_false, List.filter_cons]
      rw [show a ||| (0 : BitVec 5) = a by simp]
      exact ih a

/-- An instruction whose effect is a masked operation lane by lane. -/
theorem exec_mapLanes {i : Instr} {b : Body} {s s1 : State} {o : Ops} {fp : Bool} {lat : Option Nat} {vd : BitVec 4} {w : Nat}
    {g : Ops → Nat → Res} {f : Nat → Res} (hb : bodyOf i = some b) (hi : Issues i s o s1)
    (he : b.eff = effV fp lat vd fun o => mapLanes w o.ma o.vd (g o)) (hf : ∀ k, g o k = f k) :
    ∃ x : Vec,
      exec i s = .next (after i s (s1.modMe fun t => t.result lat [.v vd x]
        (((span 0 (512 / w)).filter (laneOn w o.ma)).foldl (fun a k => a ||| (f k).2) 0) fp)) ∧
      ∀ k, k < 512 / w → lane x w k = if laneOn w o.ma k then (f k).1 % 2 ^ w else lane o.vd w k := by
  obtain rfl : g o = f := funext hf
  refine ⟨(mapLanes w o.ma o.vd (g o)).1, ?_, fun k hk => mapLanes_lane _ _ _ _ hk⟩
  refine exec_done hi hb ?_
  rw [he, effV, ← activeLanes, ← mapLanes_flags w o.ma o.vd]

end Sys2Proof.Machine
end

