-- ==== Sys2Proof/Laws/Memory.lean ====
section
/-! SUPPORT. Laws of memory: what reads after writes give, that every operation on memory keeps its canonical form, and that an
access moves no byte but those it stores. -/

namespace Sys2Proof.Machine

/-! ## Reading back -/

theorem getMem_setByte (s : State) (pa a : Nat) (b : Byte) :
    Tbl.get 0 (s.setByte pa b).mem a = if a = pa then b else Tbl.get 0 s.mem a := by
  rw [setByte_mem, Tbl.get_put]

/-- A byte after a write of bytes from an address up. -/
theorem getMem_setBytes (s : State) (pa a : Nat) (bs : List Byte) :
    Tbl.get 0 (s.setBytes pa bs).mem a = if pa ≤ a ∧ a < pa + bs.length then bs.getD (a - pa) 0 else Tbl.get 0 s.mem a := by
  induction bs generalizing s pa with
  | nil => rw [State.setBytes, if_neg (by simp)]
  | cons b r ih =>
    rw [State.setBytes, ih, getMem_setByte]
    by_cases h : pa = a
    · subst h; simp
    · by_cases hr : pa + 1 ≤ a ∧ a < pa + 1 + r.length
      · obtain ⟨k, rfl⟩ : ∃ k, a = pa + 1 + k := ⟨a - (pa + 1), by omega⟩
        rw [if_pos hr, if_pos (by simp only [List.length_cons]; omega)]
        rw [show pa + 1 + k - (pa + 1) = k by omega, show pa + 1 + k - pa = k + 1 by omega, List.getD_cons_succ]
      · rw [if_neg hr, if_neg (fun e => h e.symm), if_neg (by simp only [List.length_cons]; omega)]

/-- A write of bytes changes memory only. -/
theorem setBytes_eq (s : State) (pa : Nat) (bs : List Byte) : s.setBytes pa bs = { s with mem := (s.setBytes pa bs).mem } := by
  induction bs generalizing s pa with
  | nil => rfl
  | cons b r ih => rw [State.setBytes, ih]; rfl

@[simp] theorem setBytes_ws (s : State) (pa : Nat) (bs : List Byte) : (s.setBytes pa bs).ws = s.ws := by rw [setBytes_eq]
@[simp] theorem setBytes_threads (s : State) (pa : Nat) (bs : List Byte) : (s.setBytes pa bs).threads = s.threads := by
  rw [setBytes_eq]
@[simp] theorem setBytes_curCore (s : State) (pa : Nat) (bs : List Byte) : (s.setBytes pa bs).curCore = s.curCore := by
  rw [setBytes_eq]
@[simp] theorem setBytes_curSlot (s : State) (pa : Nat) (bs : List Byte) : (s.setBytes pa bs).curSlot = s.curSlot := by
  rw [setBytes_eq]
@[simp] theorem me_setBytes (s : State) (pa : Nat) (bs : List Byte) : (s.setBytes pa bs).me = s.me := by
  simp [State.me, State.thread]

/-! ## The canonical form -/

theorem wf_setByte {s : State} (h : Memory.wf s.mem = true) (pa : Nat) (b : Byte) : Memory.wf (s.setByte pa b).mem = true :=
  Tbl.wf_put pa b h

theorem wf_setBytes {s : State} (h : Memory.wf s.mem = true) (pa : Nat) (bs : List Byte) :
    Memory.wf (s.setBytes pa bs).mem = true := by
  induction bs generalizing s pa with
  | nil => exact h
  | cons b r ih => exact ih (wf_setByte h pa b) (pa + 1)

theorem wf_write {s : State} (h : Memory.wf s.mem = true) (pa n v : Nat) : Memory.wf (s.write pa n v).mem = true :=
  wf_setBytes h pa _

theorem wf_clear {s : State} (h : Memory.wf s.mem = true) (pa n : Nat) : Memory.wf (s.clear pa n).mem = true :=
  Tbl.wf_filter _ h

theorem reset_wf : Memory.wf State.reset.mem = true := rfl

/-! ## What an access leaves unchanged -/

@[simp] theorem countDram_mem (s : State) (pa slice : Nat) : (s.countDram pa slice).mem = s.mem := by
  unfold State.countDram; split <;> rfl
@[simp] theorem countDram_ws (s : State) (pa slice : Nat) : (s.countDram pa slice).ws = s.ws := by
  unfold State.countDram; split <;> rfl
@[simp] theorem countDram_threads (s : State) (pa slice : Nat) : (s.countDram pa slice).threads = s.threads := by
  unfold State.countDram; split <;> rfl

/-- What a use of the caches changes: their tags and the counters. -/
def CacheOnly (s t : State) : Prop :=
  ∃ l a b c, t = { s with l1 := l, l2 := a, dirty := b, counters := c }

theorem CacheOnly.refl (s : State) : CacheOnly s s := ⟨_, _, _, _, rfl⟩

theorem CacheOnly.trans {s t u : State} (h : CacheOnly s t) (g : CacheOnly t u) : CacheOnly s u := by
  obtain ⟨_, _, _, _, rfl⟩ := h
  obtain ⟨_, _, _, _, rfl⟩ := g
  exact ⟨_, _, _, _, rfl⟩

theorem bump_cache (s : State) (off n : Nat) : CacheOnly s (s.bump off n) := ⟨_, _, _, _, rfl⟩

theorem countDram_cache (s : State) (pa slice : Nat) : CacheOnly s (s.countDram pa slice) := by
  unfold State.countDram
  split
  · exact bump_cache _ _ _
  · exact .refl _

theorem writeBack_cache (s : State) (line slice : Nat) : CacheOnly s (s.writeBack line slice) := by
  unfold State.writeBack
  split
  · exact (countDram_cache s _ _).trans ⟨_, _, _, _, rfl⟩
  · exact .refl _

theorem recall_cache (s : State) (slice pa : Nat) : CacheOnly s (s.recall slice pa) := by
  unfold State.recall
  split
  · exact .refl _
  · dsimp only
    split
    · exact .refl _
    · exact (writeBack_cache s _ _).trans ⟨_, _, _, _, rfl⟩

/-- A use of a home slice changes the caches and the counters only. -/
theorem touchL2_cache (s : State) (slice pa : Nat) (wr ef : Bool) (keep : Option Nat := none) :
    CacheOnly s (s.touchL2 slice pa wr ef keep) := by
  have key : ∀ (u : State) (hit : Bool) (out : Option Nat) (set : List Nat), CacheOnly u
      (let v := { u with l2 := Tbl.put [] u.l2 (slice * 256 + pa / 64 % 256) set }
       let v := if hit then v else v.countDram pa slice
       let v := match out with | some x => v.writeBack x slice | none => v
       if wr && !v.dirty.contains (pa / 64) then { v with dirty := pa / 64 :: v.dirty } else v) := by
    intro u hit out set
    have h1 : CacheOnly u { u with l2 := Tbl.put [] u.l2 (slice * 256 + pa / 64 % 256) set } := ⟨_, _, _, _, rfl⟩
    have h2 : ∀ v, CacheOnly v (if hit then v else v.countDram pa slice) := fun v => by
      split
      · exact .refl _
      · exact countDram_cache _ _ _
    have h3 : ∀ v, CacheOnly v (match out with | some x => v.writeBack x slice | none => v) := fun v => by
      split
      · exact writeBack_cache _ _ _
      · exact .refl _
    have h4 : ∀ v : State, CacheOnly v (if wr && !v.dirty.contains (pa / 64) then { v with dirty := pa / 64 :: v.dirty } else v) :=
      fun v => by
        split
        · exact ⟨_, _, _, _, rfl⟩
        · exact .refl _
    exact ((h1.trans (h2 _)).trans (h3 _)).trans (h4 _)
  have h0 : CacheOnly s (if wr then s.endLeases keep pa else s) := by
    split
    · exact ⟨_, _, _, _, rfl⟩
    · exact .refl _
  unfold State.touchL2
  exact (h0.trans (recall_cache _ slice pa)).trans (key _ _ _ _)

theorem merge_cache (s : State) (slice pa : Nat) : CacheOnly s (s.merge slice pa) := by
  unfold State.merge
  dsimp only
  split
  · exact bump_cache _ _ _
  · exact .refl _

theorem engineRead_cache (s : State) (die slice pa : Nat) (ef : Bool) : CacheOnly s (s.engineRead die slice pa ef) :=
  ((bump_cache _ _ _).trans (merge_cache _ _ _)).trans (touchL2_cache _ _ _ _ _)

theorem threadRead_cache (s : State) (core slice pa : Nat) (fetch ef : Bool) : CacheOnly s (s.threadRead core slice pa fetch ef) := by
  unfold State.threadRead
  dsimp only
  have h : CacheOnly s { s with l1 := Tbl.put [] s.l1 (core * 256 + pa / 64 % 256) (lruTouch 4 (pa / 64) ef
      (Tbl.get [] s.l1 (core * 256 + pa / 64 % 256))).2.1 } := ⟨_, _, _, _, rfl⟩
  repeat' split
  · exact h
  · exact (h.trans (merge_cache _ _ _)).trans (touchL2_cache _ _ _ _ _)
  · exact h.trans (engineRead_cache _ _ _ _ _)

/-- Counting the reads of a walk changes the counters only. -/
theorem countWalk_eq (s : State) (ctx va : Nat) : ∃ c, s.countWalk ctx va = { s with counters := c } := by
  have hm : ∀ (u : State) k a, ∃ c, u.merge k a = { u with counters := c } := fun u k a => by
    unfold State.merge
    dsimp only
    split <;> exact ⟨_, rfl⟩
  have hl : ∀ (l : List Nat) (u : State), ∃ c,
      l.foldl (fun s a => match s.residentAt a with | some k => s.merge k a | none => s) u = { u with counters := c } := by
    intro l
    induction l with
    | nil => exact fun u => ⟨_, rfl⟩
    | cons a r ih =>
      intro u
      rw [List.foldl_cons]
      split
      · next k _ =>
        obtain ⟨c, h⟩ := hm u k a
        rw [h]
        obtain ⟨d, g⟩ := ih { u with counters := c }
        exact ⟨d, g⟩
      · exact ih u
  unfold State.countWalk
  split
  · exact ⟨_, rfl⟩
  · split
    · exact hl _ _
    · exact ⟨_, rfl⟩

theorem tlbLookup_eq (s : State) (core ctx va : Nat) :
    ∃ a b c, (tlbLookup s core ctx va).1 = { s with cores := a, vats := b, counters := c } := by
  unfold tlbLookup
  dsimp only
  obtain ⟨c, h⟩ := countWalk_eq (s.bump (0x100 * core + 0x28) 1) ctx va
  rw [h]
  repeat' split
  all_goals exact ⟨_, _, _, rfl⟩

theorem translate_eq (s : State) (core ctx : Nat) (user tlb : Bool) (va : Word) (acc : Acc) :
    ∃ a b c, (translate s core ctx user tlb va acc).1 = { s with cores := a, vats := b, counters := c } := by
  unfold translate
  dsimp only
  split
  · exact ⟨_, _, _, rfl⟩
  · split
    · split <;> exact ⟨_, _, _, rfl⟩
    · cases tlb
      · simp only [Bool.false_eq_true, if_false]
        obtain ⟨c, h⟩ := countWalk_eq s ctx va.toNat
        rw [h]
        split <;> exact ⟨_, _, _, rfl⟩
      · simp only [if_true]
        split <;> exact tlbLookup_eq s core ctx va.toNat

/-- What a checked access changes: translation buffers, caches, counters, and the agenda where a watch range is hit. -/
structure AccessOnly (s t : State) : Prop where
  mem : t.mem = s.mem
  ws : t.ws = s.ws
  threads : t.threads = s.threads
  ctxs : t.ctxs = s.ctxs
  crews : t.crews = s.crews
  holds : t.holds = s.holds
  poison : t.poison = s.poison
  curCore : t.curCore = s.curCore
  curSlot : t.curSlot = s.curSlot

theorem AccessOnly.refl (s : State) : AccessOnly s s := ⟨rfl, rfl, rfl, rfl, rfl, rfl, rfl, rfl, rfl⟩

theorem AccessOnly.trans {s t u : State} (h : AccessOnly s t) (g : AccessOnly t u) : AccessOnly s u :=
  ⟨g.1.trans h.1, g.2.trans h.2, g.3.trans h.3, g.4.trans h.4, g.5.trans h.5, g.6.trans h.6, g.7.trans h.7, g.8.trans h.8, g.9.trans h.9⟩

theorem translate_only (s : State) (core ctx : Nat) (user tlb : Bool) (va : Word) (acc : Acc) :
    AccessOnly s (translate s core ctx user tlb va acc).1 := by
  obtain ⟨a, b, c, h⟩ := translate_eq s core ctx user tlb va acc
  rw [h]; exact ⟨rfl, rfl, rfl, rfl, rfl, rfl, rfl, rfl, rfl⟩

theorem CacheOnly.only {s t : State} (h : CacheOnly s t) : AccessOnly s t := by
  obtain ⟨_, _, _, _, rfl⟩ := h
  exact ⟨rfl, rfl, rfl, rfl, rfl, rfl, rfl, rfl, rfl⟩

theorem touchL2_only (s : State) (slice pa : Nat) (wr ef : Bool) (keep : Option Nat := none) :
    AccessOnly s (s.touchL2 slice pa wr ef keep) := (touchL2_cache s slice pa wr ef keep).only

theorem threadRead_only (s : State) (core slice pa : Nat) (fetch ef : Bool) :
    AccessOnly s (s.threadRead core slice pa fetch ef) := (threadRead_cache s core slice pa fetch ef).only

theorem wsDelay_only {s t : State} {core who pa n : Nat} (h : s.wsDelay core who pa n = some t) : AccessOnly s t := by
  unfold State.wsDelay at h
  split at h
  · split at h
    · cases h
    · dsimp only at h
      obtain rfl := Option.some.inj h
      split <;> exact ⟨rfl, rfl, rfl, rfl, rfl, rfl, rfl, rfl, rfl⟩
  · cases h

theorem watch_only (s : State) (va : Word) (n : Nat) : AccessOnly s (s.watch va n) := by
  unfold State.watch
  dsimp only
  split <;> exact ⟨rfl, rfl, rfl, rfl, rfl, rfl, rfl, rfl, rfl⟩

/-- A checked access moves no byte, no register and no hold. -/
theorem threadAccess_only (s : State) (va : Word) (n : Nat) (acc : Acc) (count : Bool) :
    AccessOnly s (threadAccess s va n acc count).1 := by
  have ht := translate_only s s.curCore s.myCtx (!bit s.me.csr.tstat 0) true va acc
  unfold threadAccess
  dsimp only
  repeat' split
  all_goals first
    | exact ht
    | exact ht.trans (wsDelay_only (by assumption))
    | exact ht.trans (watch_only _ _ _)
    | exact (ht.trans (watch_only _ _ _)).trans (threadRead_only _ _ _ _ _ _)
    | exact (ht.trans (watch_only _ _ _)).trans (touchL2_only _ _ _ _ _ _)

end Sys2Proof.Machine
end

