-- ==== Sys2Proof/Laws/Operands.lean ====
section
/-! SUPPORT. Laws of operands: what reading sources can change, and when an instruction is stopped. -/

namespace Sys2Proof.Machine

/-- What reading the sources of an instruction leaves unchanged: pops take words off the thread's own streams and queues, and the
last pop of a stream releases its holds. -/
structure ReadsOnly (s t : State) : Prop where
  csr : t.me.csr = s.me.csr
  registers : t.me.registers = s.me.registers
  full : t.me.full = s.me.full
  pc : t.me.pc = s.me.pc
  pend : t.me.pend = s.me.pend
  notify : t.me.notify = s.me.notify
  mem : t.mem = s.mem
  ws : t.ws = s.ws
  ctxs : t.ctxs = s.ctxs
  hub : t.hub = s.hub
  curCore : t.curCore = s.curCore
  curSlot : t.curSlot = s.curSlot
  other : ∀ c k, c * 8 + k ≠ s.curCore * 8 + s.curSlot → t.thread c k = s.thread c k

theorem ReadsOnly.refl (s : State) : ReadsOnly s s := by constructor <;> intros <;> rfl

theorem ReadsOnly.trans {s t u : State} (h : ReadsOnly s t) (g : ReadsOnly t u) : ReadsOnly s u where
  csr := g.csr.trans h.csr
  registers := g.registers.trans h.registers
  full := g.full.trans h.full
  pc := g.pc.trans h.pc
  pend := g.pend.trans h.pend
  notify := g.notify.trans h.notify
  mem := g.mem.trans h.mem
  ws := g.ws.trans h.ws
  ctxs := g.ctxs.trans h.ctxs
  hub := g.hub.trans h.hub
  curCore := g.curCore.trans h.curCore
  curSlot := g.curSlot.trans h.curSlot
  other := fun c k e => (g.other c k (by rw [h.curCore, h.curSlot]; exact e)).trans (h.other c k e)

/-- A change of the issuing thread that keeps what a read keeps. -/
theorem readsOnly_modMe (s : State) (f : Thread → Thread) (h1 : (f s.me).csr = s.me.csr)
    (h2 : (f s.me).registers = s.me.registers) (h3 : (f s.me).full = s.me.full) (h4 : (f s.me).pc = s.me.pc)
    (h5 : (f s.me).pend = s.me.pend) (h6 : (f s.me).notify = s.me.notify) : ReadsOnly s (s.modMe f) where
  csr := by rw [me_modMe, h1]
  registers := by rw [me_modMe, h2]
  full := by rw [me_modMe, h3]
  pc := by rw [me_modMe, h4]
  pend := by rw [me_modMe, h5]
  notify := by rw [me_modMe, h6]
  mem := rfl
  ws := rfl
  ctxs := rfl
  hub := rfl
  curCore := rfl
  curSlot := rfl
  other := fun _ _ e => thread_modMe_other s f e

theorem readsOnly_dropHolds (s : State) (n : Nat) (p : Hold → Bool) : ReadsOnly s (s.dropHolds n p) := by
  constructor <;> intros <;> rfl

theorem readsOnly_modStream (s : State) (r : Nat) (f : StreamBind → StreamBind) : ReadsOnly s (s.modStream r f) :=
  readsOnly_modMe s _ rfl rfl rfl rfl rfl rfl

theorem readsOnly_setQ (s : State) (r : Nat) (w : Word) : ReadsOnly s (s.setQ r w) :=
  readsOnly_modMe s _ rfl rfl rfl rfl rfl rfl

/-- What a pop changes. -/
theorem popVal_only (s : State) (r : Nat) : ReadsOnly s (popVal s r).2 := by
  unfold popVal
  dsimp only
  split
  · split
    · exact .refl s
    · dsimp only
      split
      · exact (readsOnly_modStream s r _).trans (readsOnly_dropHolds _ _ _)
      · exact readsOnly_modStream s r _
  · split
    · exact readsOnly_modMe s (fun t => { t with inq := t.inq.drop 1, inHead := t.inHead + 1 }) rfl rfl rfl rfl rfl rfl
    · exact readsOnly_modMe s (fun t => { t with mboxFull := setFld t.mboxFull _ 1 0 }) rfl rfl rfl rfl rfl rfl
    · exact (readsOnly_modMe s (fun t => { t with mboxFull := setFld t.mboxFull _ 1 0, mboxLast := BitVec.ofNat 2 _ })
        rfl rfl rfl rfl rfl rfl).trans (readsOnly_setQ _ _ _)
    · split
      · exact readsOnly_setQ _ _ _
      · split <;> exact readsOnly_setQ _ _ _
    · exact .refl s

theorem readG_only {s s' : State} {r : BitVec 5} {w : Word} (h : readG s r = .ok (w, s')) : ReadsOnly s s' := by
  unfold readG at h
  split at h
  · split at h
    · cases h
    · have h := Except.ok.inj h
      have := popVal_only s r.toNat
      rw [h] at this
      exact this
  · cases h; exact .refl s

theorem src_read_only {o o' : Ops} {s s' : State} {x : Src} (h : x.read o s = .ok (o', s')) : ReadsOnly s s' := by
  cases x <;> simp only [Src.read] at h
  case a r => cases hr : readG s r <;> rw [hr] at h <;> cases h; exact readG_only hr
  case b r => cases hr : readG s r <;> rw [hr] at h <;> cases h; exact readG_only hr
  case c r => cases hr : readG s r <;> rw [hr] at h <;> cases h; exact readG_only hr
  case d r => cases hr : readG s r <;> rw [hr] at h <;> cases h; exact readG_only hr
  case blk k b => split at h <;> cases h; exact .refl s
  all_goals cases h; exact .refl s

theorem readAll_only {l : List Src} {o o' : Ops} {s s' : State} (h : readAll o s l = .ok (o', s')) : ReadsOnly s s' := by
  induction l generalizing o s with
  | nil => cases h; exact .refl _
  | cons x r ih =>
    rw [readAll] at h
    split at h
    · cases h
    · next hx => exact (src_read_only hx).trans (ih h)

theorem readOps_only {b : Body} {o : Ops} {s s' : State} (h : b.readOps s = .ok (o, s')) : ReadsOnly s s' := by
  unfold Body.readOps at h
  split at h
  · cases h
  · split at h
    · cases h
    · split at h
      · cases h
      · next hr => cases h; exact readAll_only hr

theorem gather_only {b : Body} {o : Ops} {s s' : State} (h : b.gather s = .ok (o, s')) : ReadsOnly s s' := by
  unfold Body.gather at h
  split at h
  · cases h
  · next hr =>
    split at h
    · cases h
    · cases h; exact readOps_only hr

end Sys2Proof.Machine
end

