-- ==== Sys2Proof/Laws/PerInstr.lean ====
section
/-! SUPPORT. The round trip of every instruction through its words: one lemma per constructor. -/

namespace Sys2Proof.Laws.RoundTrip

/-- Decoding the words of a well-formed instruction gives the instruction back. -/
def Statement (i : Instr) : Prop := ∀ sl blk, encode i = some (sl, blk) → i.WellFormed → decode sl blk = .ok i

/-! ## Fields of a word put together from parts -/

theorem append_high {n m lo w : Nat} (x : BitVec n) (y : BitVec m) (h : m ≤ lo) :
    (x ++ y).extractLsb' lo w = x.extractLsb' (lo - m) w := by
  apply BitVec.eq_of_getLsbD_eq
  intro k hk
  simp only [BitVec.getLsbD_extractLsb', BitVec.getLsbD_append]
  rw [if_neg (by omega), show lo + k - m = lo - m + k by omega]

theorem append_low {n m lo w : Nat} (x : BitVec n) (y : BitVec m) (h : lo + w ≤ m) :
    (x ++ y).extractLsb' lo w = y.extractLsb' lo w := by
  apply BitVec.eq_of_getLsbD_eq
  intro k hk
  simp only [BitVec.getLsbD_extractLsb', BitVec.getLsbD_append]
  rw [if_pos (by omega)]

theorem whole {n : Nat} (x : BitVec n) : x.extractLsb' 0 n = x := by ext k hk; simp

theorem cast_extract {n m lo w : Nat} (x : BitVec n) (h : n = m) : (x.cast h).extractLsb' lo w = x.extractLsb' lo w := by
  subst h; rfl

theorem append_bit {n m lo : Nat} (x : BitVec n) (y : BitVec m) (h : m ≤ lo) : (x ++ y).getLsbD lo = x.getLsbD (lo - m) := by
  rw [BitVec.getLsbD_append, if_neg (by omega)]

theorem append_bit_low {n m lo : Nat} (x : BitVec n) (y : BitVec m) (h : lo < m) : (x ++ y).getLsbD lo = y.getLsbD lo := by
  rw [BitVec.getLsbD_append, if_pos h]

theorem cast_bit {n m lo : Nat} (x : BitVec n) (h : n = m) : (x.cast h).getLsbD lo = x.getLsbD lo := by subst h; rfl

/-- Unpacking gives back the fields that were packed. -/
theorem unpack_pack (f : Fields) : Fields.unpack f.pack = f := by
  obtain ⟨op, g, n, w, e, x, d, a, b, c, ff, imm⟩ := f
  simp (disch := decide) only [Fields.unpack, Fields.pack, cast_extract, cast_bit, append_high, append_low, append_bit,
    append_bit_low, Nat.reduceSub, whole]
  simp

theorem field_or {n lo w : Nat} (a b : BitVec n) : (a ||| b).extractLsb' lo w = a.extractLsb' lo w ||| b.extractLsb' lo w := by
  ext k hk; simp

theorem field_at {n s w : Nat} (x : BitVec w) (h : s + w ≤ n) : ((x.setWidth n) <<< s).extractLsb' s w = x := by
  ext k hk; simp [show s + k < n by omega, show k < n by omega, hk]

theorem field_low {n w : Nat} (x : BitVec w) (h : w ≤ n) : (x.setWidth n).extractLsb' 0 w = x := by
  ext k hk; simp [show k < n by omega, hk]

theorem field_below {n m s w lo : Nat} (x : BitVec w) (h : lo + m ≤ s) : ((x.setWidth n) <<< s).extractLsb' lo m = 0 := by
  ext k hk; simp; omega

theorem field_above {n m s w lo : Nat} (x : BitVec w) (h : s + w ≤ lo) : ((x.setWidth n) <<< s).extractLsb' lo m = 0 := by
  ext k hk; simp; intros; exact BitVec.getLsbD_of_ge _ _ (by omega)

theorem field_past {n m w lo : Nat} (x : BitVec w) (h : w ≤ lo) : (x.setWidth n).extractLsb' lo m = 0 := by
  ext k hk; simp; intros; exact BitVec.getLsbD_of_ge _ _ (by omega)

theorem or_none {n : Nat} (x : BitVec n) : x ||| 0 = x := BitVec.or_zero

theorem none_or {n : Nat} (x : BitVec n) : 0 ||| x = x := BitVec.zero_or

theorem bit_at {n s : Nat} (b : Bool) (h : s < n) : ((BitVec.ofBool b).setWidth n <<< s).getLsbD s = b := by simp [h]

theorem bit_below {n w s lo : Nat} (x : BitVec w) (h : lo < s) : ((x.setWidth n) <<< s).getLsbD lo = false := by simp [h]

theorem bit_above {n w s lo : Nat} (x : BitVec w) (h : s + w ≤ lo) : ((x.setWidth n) <<< s).getLsbD lo = false := by
  simp; intros; exact BitVec.getLsbD_of_ge _ _ (by omega)

theorem bit_past {n w lo : Nat} (x : BitVec w) (h : w ≤ lo) : (x.setWidth n).getLsbD lo = false := by
  simp; intros; exact BitVec.getLsbD_of_ge _ _ h

theorem narrow {n m : Nat} (x : BitVec n) (h : n ≤ m) : (x.setWidth m).setWidth n = x := by simp [h]

/-! ## What the lemmas below rest on -/

theorem of_none {i : Instr} (h : encF i = none) : Statement i := by
  intro sl blk e
  simp [encode, h] at e

/-- TYPE 1 is what the rows of VPACKQ and VUNPKQ admit. -/
theorem typeOne_ok {f : Fields} {i : Instr} (h : f.f.extractLsb' 0 3 = 1) : typeOne f i = .ok i := if_pos h

theorem of_fields {i : Instr} (f : Fields) (e : encF i = some f) (hx : f.x = takesBlock f.op)
    (hc : fieldReason i = none → candidate f (blockOf i) = .ok i) : Statement i := by
  intro sl blk he hw
  simp only [encode, e, Option.map_some, Option.some.injEq, Prod.mk.injEq] at he
  obtain ⟨rfl, rfl⟩ := he
  have hw' : fieldReason i = none := hw
  simp only [decode, unpack_pack, hx, if_true, decodeFields, hc hw', e, hw']

/-- The three functions of FSGN's opcode. -/
def fsgnOf (h : Hdr) (d a b : BitVec 5) (ty : BitVec 3) (r : Nat) (n : Nat) : Except Nat Instr :=
  match n with
  | 0 => .ok (.fsgn h d a b ty)
  | 1 => .ok (.fsgnn h d a b ty)
  | 2 => .ok (.fsgnx h d a b ty)
  | _ => .error r

theorem candidate_fsgn (h : Hdr) (d a b : BitVec 5) (ff : BitVec 9) :
    ∃ r, candidate (mkFields 0x3B h false d a b 0 ff 0) 0 = fsgnOf h d a b (ff.extractLsb' 0 3) r (ff.toNat / 8 % 8) := ⟨_, rfl⟩

/-! ## One lemma per constructor -/
theorem ill : Statement .ill := of_none rfl
theorem nop (h : Hdr) : Statement (.nop h) := of_fields _ rfl rfl fun _ => rfl
theorem add (h : Hdr) (d a b : BitVec 5) : Statement (.add h d a b) := of_fields _ rfl rfl fun _ => rfl
theorem sub (h : Hdr) (d a b : BitVec 5) : Statement (.sub h d a b) := of_fields _ rfl rfl fun _ => rfl
theorem mul (h : Hdr) (d a b : BitVec 5) : Statement (.mul h d a b) := of_fields _ rfl rfl fun _ => rfl
theorem mulh (h : Hdr) (d a b : BitVec 5) : Statement (.mulh h d a b) := of_fields _ rfl rfl fun _ => rfl
theorem mulhu (h : Hdr) (d a b : BitVec 5) : Statement (.mulhu h d a b) := of_fields _ rfl rfl fun _ => rfl
theorem div (h : Hdr) (d a b : BitVec 5) : Statement (.div h d a b) := of_fields _ rfl rfl fun _ => rfl
theorem divu (h : Hdr) (d a b : BitVec 5) : Statement (.divu h d a b) := of_fields _ rfl rfl fun _ => rfl
theorem rem (h : Hdr) (d a b : BitVec 5) : Statement (.rem h d a b) := of_fields _ rfl rfl fun _ => rfl
theorem remu (h : Hdr) (d a b : BitVec 5) : Statement (.remu h d a b) := of_fields _ rfl rfl fun _ => rfl
theorem and (h : Hdr) (d a b : BitVec 5) : Statement (.and h d a b) := of_fields _ rfl rfl fun _ => rfl
theorem or (h : Hdr) (d a b : BitVec 5) : Statement (.or h d a b) := of_fields _ rfl rfl fun _ => rfl
theorem xor (h : Hdr) (d a b : BitVec 5) : Statement (.xor h d a b) := of_fields _ rfl rfl fun _ => rfl
theorem andn (h : Hdr) (d a b : BitVec 5) : Statement (.andn h d a b) := of_fields _ rfl rfl fun _ => rfl
theorem shl (h : Hdr) (d a b : BitVec 5) : Statement (.shl h d a b) := of_fields _ rfl rfl fun _ => rfl
theorem shr (h : Hdr) (d a b : BitVec 5) : Statement (.shr h d a b) := of_fields _ rfl rfl fun _ => rfl
theorem sar (h : Hdr) (d a b : BitVec 5) : Statement (.sar h d a b) := of_fields _ rfl rfl fun _ => rfl
theorem rotr (h : Hdr) (d a b : BitVec 5) : Statement (.rotr h d a b) := of_fields _ rfl rfl fun _ => rfl
theorem clz (h : Hdr) (d a : BitVec 5) : Statement (.clz h d a) := of_fields _ rfl rfl fun _ => rfl
theorem ctz (h : Hdr) (d a : BitVec 5) : Statement (.ctz h d a) := of_fields _ rfl rfl fun _ => rfl
theorem popc (h : Hdr) (d a : BitVec 5) : Statement (.popc h d a) := of_fields _ rfl rfl fun _ => rfl
theorem min (h : Hdr) (d a b : BitVec 5) : Statement (.min h d a b) := of_fields _ rfl rfl fun _ => rfl
theorem max (h : Hdr) (d a b : BitVec 5) : Statement (.max h d a b) := of_fields _ rfl rfl fun _ => rfl
theorem minu (h : Hdr) (d a b : BitVec 5) : Statement (.minu h d a b) := of_fields _ rfl rfl fun _ => rfl
theorem maxu (h : Hdr) (d a b : BitVec 5) : Statement (.maxu h d a b) := of_fields _ rfl rfl fun _ => rfl
theorem mov (h : Hdr) (d a : BitVec 5) : Statement (.mov h d a) := of_fields _ rfl rfl fun _ => rfl
theorem bswap (h : Hdr) (d a : BitVec 5) : Statement (.bswap h d a) := of_fields _ rfl rfl fun _ => rfl
theorem addi (h : Hdr) (d a : BitVec 5) (imm : BitVec 48) : Statement (.addi h d a imm) := of_fields _ rfl rfl fun _ => rfl
theorem muli (h : Hdr) (d a : BitVec 5) (imm : BitVec 48) : Statement (.muli h d a imm) := of_fields _ rfl rfl fun _ => rfl
theorem andi (h : Hdr) (d a : BitVec 5) (imm : BitVec 48) : Statement (.andi h d a imm) := of_fields _ rfl rfl fun _ => rfl
theorem ori (h : Hdr) (d a : BitVec 5) (imm : BitVec 48) : Statement (.ori h d a imm) := of_fields _ rfl rfl fun _ => rfl
theorem xori (h : Hdr) (d a : BitVec 5) (imm : BitVec 48) : Statement (.xori h d a imm) := of_fields _ rfl rfl fun _ => rfl
theorem shli (h : Hdr) (d a : BitVec 5) (n : BitVec 6) : Statement (.shli h d a n) := by
  refine of_fields _ rfl rfl fun _ => ?_
  show Except.ok _ = Except.ok _
  simp (disch := decide) only [blockOf, mkFields, Fields.hdr, bit9, bit48, field_or, field_at, field_low, field_below, field_above, field_past, narrow, or_none, none_or,
    bit_at, bit_below, bit_above, bit_past, BitVec.getLsbD_or, Bool.or_false, Bool.false_or]
theorem shri (h : Hdr) (d a : BitVec 5) (n : BitVec 6) : Statement (.shri h d a n) := by
  refine of_fields _ rfl rfl fun _ => ?_
  show Except.ok _ = Except.ok _
  simp (disch := decide) only [blockOf, mkFields, Fields.hdr, bit9, bit48, field_or, field_at, field_low, field_below, field_above, field_past, narrow, or_none, none_or,
    bit_at, bit_below, bit_above, bit_past, BitVec.getLsbD_or, Bool.or_false, Bool.false_or]
theorem sari (h : Hdr) (d a : BitVec 5) (n : BitVec 6) : Statement (.sari h d a n) := by
  refine of_fields _ rfl rfl fun _ => ?_
  show Except.ok _ = Except.ok _
  simp (disch := decide) only [blockOf, mkFields, Fields.hdr, bit9, bit48, field_or, field_at, field_low, field_below, field_above, field_past, narrow, or_none, none_or,
    bit_at, bit_below, bit_above, bit_past, BitVec.getLsbD_or, Bool.or_false, Bool.false_or]
theorem movi (h : Hdr) (d : BitVec 5) (imm : BitVec 48) : Statement (.movi h d imm) := of_fields _ rfl rfl fun _ => rfl
theorem movhi (h : Hdr) (d a : BitVec 5) (imm : BitVec 16) : Statement (.movhi h d a imm) := by
  refine of_fields _ rfl rfl fun _ => ?_
  show Except.ok _ = Except.ok _
  simp (disch := decide) only [blockOf, mkFields, Fields.hdr, bit9, bit48, field_or, field_at, field_low, field_below, field_above, field_past, narrow, or_none, none_or,
    bit_at, bit_below, bit_above, bit_past, BitVec.getLsbD_or, Bool.or_false, Bool.false_or]
theorem extr (h : Hdr) (d a : BitVec 5) (pos len : BitVec 6) (sx : Bool) : Statement (.extr h d a pos len sx) := by
  refine of_fields _ rfl rfl fun _ => ?_
  show Except.ok _ = Except.ok _
  simp (disch := decide) only [blockOf, mkFields, Fields.hdr, bit9, bit48, field_or, field_at, field_low, field_below, field_above, field_past, narrow, or_none, none_or,
    bit_at, bit_below, bit_above, bit_past, BitVec.getLsbD_or, Bool.or_false, Bool.false_or]
theorem insr (h : Hdr) (d a b : BitVec 5) (pos len : BitVec 6) : Statement (.insr h d a b pos len) := by
  refine of_fields _ rfl rfl fun _ => ?_
  show Except.ok _ = Except.ok _
  simp (disch := decide) only [blockOf, mkFields, Fields.hdr, bit9, bit48, field_or, field_at, field_low, field_below, field_above, field_past, narrow, or_none, none_or,
    bit_at, bit_below, bit_above, bit_past, BitVec.getLsbD_or, Bool.or_false, Bool.false_or]
theorem sel (h : Hdr) (d a b : BitVec 5) (p : BitVec 4) : Statement (.sel h d a b p) := by
  refine of_fields _ rfl rfl fun _ => ?_
  show Except.ok _ = Except.ok _
  simp (disch := decide) only [blockOf, mkFields, Fields.hdr, bit9, bit48, field_or, field_at, field_low, field_below, field_above, field_past, narrow, or_none, none_or,
    bit_at, bit_below, bit_above, bit_past, BitVec.getLsbD_or, Bool.or_false, Bool.false_or]
theorem lea (h : Hdr) (d a b : BitVec 5) (sc : BitVec 3) (imm : BitVec 48) : Statement (.lea h d a b sc imm) := by
  refine of_fields _ rfl rfl fun _ => ?_
  show Except.ok _ = Except.ok _
  simp (disch := decide) only [blockOf, mkFields, Fields.hdr, bit9, bit48, field_or, field_at, field_low, field_below, field_above, field_past, narrow, or_none, none_or,
    bit_at, bit_below, bit_above, bit_past, BitVec.getLsbD_or, Bool.or_false, Bool.false_or]
theorem cmp (h : Hdr) (pd : BitVec 4) (a b : BitVec 5) (cond : BitVec 4) : Statement (.cmp h pd a b cond) := by
  refine of_fields _ rfl rfl fun _ => ?_
  show Except.ok _ = Except.ok _
  simp (disch := decide) only [blockOf, mkFields, Fields.hdr, bit9, bit48, field_or, field_at, field_low, field_below, field_above, field_past, narrow, or_none, none_or,
    bit_at, bit_below, bit_above, bit_past, BitVec.getLsbD_or, Bool.or_false, Bool.false_or]
theorem cmpi (h : Hdr) (pd : BitVec 4) (a : BitVec 5) (cond : BitVec 4) (imm : BitVec 48) : Statement (.cmpi h pd a cond imm) := by
  refine of_fields _ rfl rfl fun _ => ?_
  show Except.ok _ = Except.ok _
  simp (disch := decide) only [blockOf, mkFields, Fields.hdr, bit9, bit48, field_or, field_at, field_low, field_below, field_above, field_past, narrow, or_none, none_or,
    bit_at, bit_below, bit_above, bit_past, BitVec.getLsbD_or, Bool.or_false, Bool.false_or]
theorem plog (h : Hdr) (pd pa pb tab : BitVec 4) : Statement (.plog h pd pa pb tab) := by
  refine of_fields _ rfl rfl fun _ => ?_
  show Except.ok _ = Except.ok _
  simp (disch := decide) only [blockOf, mkFields, Fields.hdr, bit9, bit48, field_or, field_at, field_low, field_below, field_above, field_past, narrow, or_none, none_or,
    bit_at, bit_below, bit_above, bit_past, BitVec.getLsbD_or, Bool.or_false, Bool.false_or]
theorem pget (h : Hdr) (d : BitVec 5) : Statement (.pget h d) := of_fields _ rfl rfl fun _ => rfl
theorem pset (h : Hdr) (a : BitVec 5) : Statement (.pset h a) := of_fields _ rfl rfl fun _ => rfl
theorem nchild (h : Hdr) (d a b : BitVec 5) : Statement (.nchild h d a b) := of_fields _ rfl rfl fun _ => rfl
theorem nparent (h : Hdr) (d a : BitVec 5) : Statement (.nparent h d a) := of_fields _ rfl rfl fun _ => rfl
theorem nlevel (h : Hdr) (d a : BitVec 5) : Statement (.nlevel h d a) := of_fields _ rfl rfl fun _ => rfl
theorem nlvlbase (h : Hdr) (d a : BitVec 5) : Statement (.nlvlbase h d a) := of_fields _ rfl rfl fun _ => rfl
theorem nleaf (h : Hdr) (d a b : BitVec 5) : Statement (.nleaf h d a b) := of_fields _ rfl rfl fun _ => rfl
theorem fadd (h : Hdr) (d a b : BitVec 5) (ty rm : BitVec 3) : Statement (.fadd h d a b ty rm) := by
  refine of_fields _ rfl rfl fun _ => ?_
  show Except.ok _ = Except.ok _
  simp (disch := decide) only [blockOf, mkFields, Fields.hdr, bit9, bit48, field_or, field_at, field_low, field_below, field_above, field_past, narrow, or_none, none_or,
    bit_at, bit_below, bit_above, bit_past, BitVec.getLsbD_or, Bool.or_false, Bool.false_or]
theorem fsub (h : Hdr) (d a b : BitVec 5) (ty rm : BitVec 3) : Statement (.fsub h d a b ty rm) := by
  refine of_fields _ rfl rfl fun _ => ?_
  show Except.ok _ = Except.ok _
  simp (disch := decide) only [blockOf, mkFields, Fields.hdr, bit9, bit48, field_or, field_at, field_low, field_below, field_above, field_past, narrow, or_none, none_or,
    bit_at, bit_below, bit_above, bit_past, BitVec.getLsbD_or, Bool.or_false, Bool.false_or]
theorem fmul (h : Hdr) (d a b : BitVec 5) (ty rm : BitVec 3) : Statement (.fmul h d a b ty rm) := by
  refine of_fields _ rfl rfl fun _ => ?_
  show Except.ok _ = Except.ok _
  simp (disch := decide) only [blockOf, mkFields, Fields.hdr, bit9, bit48, field_or, field_at, field_low, field_below, field_above, field_past, narrow, or_none, none_or,
    bit_at, bit_below, bit_above, bit_past, BitVec.getLsbD_or, Bool.or_false, Bool.false_or]
theorem ffma (h : Hdr) (d a b c : BitVec 5) (ty rm : BitVec 3) : Statement (.ffma h d a b c ty rm) := by
  refine of_fields _ rfl rfl fun _ => ?_
  show Except.ok _ = Except.ok _
  simp (disch := decide) only [blockOf, mkFields, Fields.hdr, bit9, bit48, field_or, field_at, field_low, field_below, field_above, field_past, narrow, or_none, none_or,
    bit_at, bit_below, bit_above, bit_past, BitVec.getLsbD_or, Bool.or_false, Bool.false_or]
theorem fdiv (h : Hdr) (d a b : BitVec 5) (ty rm : BitVec 3) : Statement (.fdiv h d a b ty rm) := by
  refine of_fields _ rfl rfl fun _ => ?_
  show Except.ok _ = Except.ok _
  simp (disch := decide) only [blockOf, mkFields, Fields.hdr, bit9, bit48, field_or, field_at, field_low, field_below, field_above, field_past, narrow, or_none, none_or,
    bit_at, bit_below, bit_above, bit_past, BitVec.getLsbD_or, Bool.or_false, Bool.false_or]
theorem fsqrt (h : Hdr) (d a : BitVec 5) (ty rm : BitVec 3) : Statement (.fsqrt h d a ty rm) := by
  refine of_fields _ rfl rfl fun _ => ?_
  show Except.ok _ = Except.ok _
  simp (disch := decide) only [blockOf, mkFields, Fields.hdr, bit9, bit48, field_or, field_at, field_low, field_below, field_above, field_past, narrow, or_none, none_or,
    bit_at, bit_below, bit_above, bit_past, BitVec.getLsbD_or, Bool.or_false, Bool.false_or]
theorem fmin (h : Hdr) (d a b : BitVec 5) (ty : BitVec 3) : Statement (.fmin h d a b ty) := by
  refine of_fields _ rfl rfl fun _ => ?_
  show Except.ok _ = Except.ok _
  simp (disch := decide) only [blockOf, mkFields, Fields.hdr, bit9, bit48, field_or, field_at, field_low, field_below, field_above, field_past, narrow, or_none, none_or,
    bit_at, bit_below, bit_above, bit_past, BitVec.getLsbD_or, Bool.or_false, Bool.false_or]
theorem fmax (h : Hdr) (d a b : BitVec 5) (ty : BitVec 3) : Statement (.fmax h d a b ty) := by
  refine of_fields _ rfl rfl fun _ => ?_
  show Except.ok _ = Except.ok _
  simp (disch := decide) only [blockOf, mkFields, Fields.hdr, bit9, bit48, field_or, field_at, field_low, field_below, field_above, field_past, narrow, or_none, none_or,
    bit_at, bit_below, bit_above, bit_past, BitVec.getLsbD_or, Bool.or_false, Bool.false_or]
theorem fcmp (h : Hdr) (pd : BitVec 4) (a b : BitVec 5) (ty : BitVec 3) (cond : BitVec 4) : Statement (.fcmp h pd a b ty cond) := by
  refine of_fields _ rfl rfl fun _ => ?_
  show Except.ok _ = Except.ok _
  simp (disch := decide) only [blockOf, mkFields, Fields.hdr, bit9, bit48, field_or, field_at, field_low, field_below, field_above, field_past, narrow, or_none, none_or,
    bit_at, bit_below, bit_above, bit_past, BitVec.getLsbD_or, Bool.or_false, Bool.false_or]
theorem fcvt (h : Hdr) (d a : BitVec 5) (st dt rm : BitVec 3) : Statement (.fcvt h d a st dt rm) := by
  refine of_fields _ rfl rfl fun _ => ?_
  show Except.ok _ = Except.ok _
  simp (disch := decide) only [blockOf, mkFields, Fields.hdr, bit9, bit48, field_or, field_at, field_low, field_below, field_above, field_past, narrow, or_none, none_or,
    bit_at, bit_below, bit_above, bit_past, BitVec.getLsbD_or, Bool.or_false, Bool.false_or]
theorem fclass (h : Hdr) (d a : BitVec 5) (ty : BitVec 3) : Statement (.fclass h d a ty) := by
  refine of_fields _ rfl rfl fun _ => ?_
  show Except.ok _ = Except.ok _
  simp (disch := decide) only [blockOf, mkFields, Fields.hdr, bit9, bit48, field_or, field_at, field_low, field_below, field_above, field_past, narrow, or_none, none_or,
    bit_at, bit_below, bit_above, bit_past, BitVec.getLsbD_or, Bool.or_false, Bool.false_or]
theorem fsgn (h : Hdr) (d a b : BitVec 5) (ty : BitVec 3) : Statement (.fsgn h d a b ty) := by
  refine of_fields _ rfl rfl fun _ => ?_
  have hk : ∀ t : BitVec 3, (t.setWidth 9).toNat / 8 % 8 = 0 ∧ BitVec.extractLsb' 0 3 (t.setWidth 9) = t := by decide
  obtain ⟨r, e⟩ := candidate_fsgn h d a b (ty.setWidth 9)
  exact e.trans (by rw [(hk ty).1, (hk ty).2]; rfl)
theorem fsgnn (h : Hdr) (d a b : BitVec 5) (ty : BitVec 3) : Statement (.fsgnn h d a b ty) := by
  refine of_fields _ rfl rfl fun _ => ?_
  have hk : ∀ t : BitVec 3, (t.setWidth 9 ||| 0x008).toNat / 8 % 8 = 1 ∧ BitVec.extractLsb' 0 3 (t.setWidth 9 ||| 0x008) = t := by decide
  obtain ⟨r, e⟩ := candidate_fsgn h d a b (ty.setWidth 9 ||| 0x008)
  exact e.trans (by rw [(hk ty).1, (hk ty).2]; rfl)
theorem fsgnx (h : Hdr) (d a b : BitVec 5) (ty : BitVec 3) : Statement (.fsgnx h d a b ty) := by
  refine of_fields _ rfl rfl fun _ => ?_
  have hk : ∀ t : BitVec 3, (t.setWidth 9 ||| 0x010).toNat / 8 % 8 = 2 ∧ BitVec.extractLsb' 0 3 (t.setWidth 9 ||| 0x010) = t := by decide
  obtain ⟨r, e⟩ := candidate_fsgn h d a b (ty.setWidth 9 ||| 0x010)
  exact e.trans (by rw [(hk ty).1, (hk ty).2]; rfl)
theorem fmovi (h : Hdr) (d : BitVec 5) (ty : BitVec 3) (imm : BitVec 48) : Statement (.fmovi h d ty imm) := by
  refine of_fields _ rfl rfl fun _ => ?_
  show Except.ok _ = Except.ok _
  simp (disch := decide) only [blockOf, mkFields, Fields.hdr, bit9, bit48, field_or, field_at, field_low, field_below, field_above, field_past, narrow, or_none, none_or,
    bit_at, bit_below, bit_above, bit_past, BitVec.getLsbD_or, Bool.or_false, Bool.false_or]
theorem br (h : Hdr) (tgt : BitVec 48) : Statement (.br h tgt) := of_fields _ rfl rfl fun _ => rfl
theorem brl (h : Hdr) (d : BitVec 5) (tgt : BitVec 48) : Statement (.brl h d tgt) := of_fields _ rfl rfl fun _ => rfl
theorem jmp (h : Hdr) (a : BitVec 5) : Statement (.jmp h a) := of_fields _ rfl rfl fun _ => rfl
theorem jmpl (h : Hdr) (d a : BitVec 5) : Statement (.jmpl h d a) := of_fields _ rfl rfl fun _ => rfl
theorem loop (h : Hdr) (d : BitVec 5) (tgt : BitVec 48) : Statement (.loop h d tgt) := of_fields _ rfl rfl fun _ => rfl
theorem wfw (h : Hdr) : Statement (.wfw h) := of_fields _ rfl rfl fun _ => rfl
theorem yield (h : Hdr) : Statement (.yield h) := of_fields _ rfl rfl fun _ => rfl
theorem exit (h : Hdr) : Statement (.exit h) := of_fields _ rfl rfl fun _ => rfl
theorem ld (h : Hdr) (d a b : BitVec 5) (sz : BitVec 2) (sx : Bool) (sc : BitVec 3) (imm : BitVec 48) : Statement (.ld h d a b sz sx sc imm) := by
  refine of_fields _ rfl rfl fun _ => ?_
  show Except.ok _ = Except.ok _
  simp (disch := decide) only [blockOf, mkFields, Fields.hdr, bit9, bit48, field_or, field_at, field_low, field_below, field_above, field_past, narrow, or_none, none_or,
    bit_at, bit_below, bit_above, bit_past, BitVec.getLsbD_or, Bool.or_false, Bool.false_or]
theorem st (h : Hdr) (d a b : BitVec 5) (sz : BitVec 2) (sc : BitVec 3) (imm : BitVec 48) : Statement (.st h d a b sz sc imm) := by
  refine of_fields _ rfl rfl fun _ => ?_
  show Except.ok _ = Except.ok _
  simp (disch := decide) only [blockOf, mkFields, Fields.hdr, bit9, bit48, field_or, field_at, field_low, field_below, field_above, field_past, narrow, or_none, none_or,
    bit_at, bit_below, bit_above, bit_past, BitVec.getLsbD_or, Bool.or_false, Bool.false_or]
theorem ldx (h : Hdr) (d a b : BitVec 5) (sc : BitVec 3) (imm : BitVec 48) : Statement (.ldx h d a b sc imm) := by
  refine of_fields _ rfl rfl fun _ => ?_
  show Except.ok _ = Except.ok _
  simp (disch := decide) only [blockOf, mkFields, Fields.hdr, bit9, bit48, field_or, field_at, field_low, field_below, field_above, field_past, narrow, or_none, none_or,
    bit_at, bit_below, bit_above, bit_past, BitVec.getLsbD_or, Bool.or_false, Bool.false_or]
theorem stx (h : Hdr) (d a b : BitVec 5) (sc : BitVec 3) (imm : BitVec 48) : Statement (.stx h d a b sc imm) := by
  refine of_fields _ rfl rfl fun _ => ?_
  show Except.ok _ = Except.ok _
  simp (disch := decide) only [blockOf, mkFields, Fields.hdr, bit9, bit48, field_or, field_at, field_low, field_below, field_above, field_past, narrow, or_none, none_or,
    bit_at, bit_below, bit_above, bit_past, BitVec.getLsbD_or, Bool.or_false, Bool.false_or]
theorem ldv (h : Hdr) (vd : BitVec 4) (a b : BitVec 5) (sz : BitVec 2) (mk sc : BitVec 3) (imm : BitVec 48) : Statement (.ldv h vd a b sz mk sc imm) := by
  refine of_fields _ rfl rfl fun _ => ?_
  show Except.ok _ = Except.ok _
  simp (disch := decide) only [blockOf, mkFields, Fields.hdr, bit9, bit48, field_or, field_at, field_low, field_below, field_above, field_past, narrow, or_none, none_or,
    bit_at, bit_below, bit_above, bit_past, BitVec.getLsbD_or, Bool.or_false, Bool.false_or]
theorem stv (h : Hdr) (vd : BitVec 4) (a b : BitVec 5) (sz : BitVec 2) (mk sc : BitVec 3) (imm : BitVec 48) : Statement (.stv h vd a b sz mk sc imm) := by
  refine of_fields _ rfl rfl fun _ => ?_
  show Except.ok _ = Except.ok _
  simp (disch := decide) only [blockOf, mkFields, Fields.hdr, bit9, bit48, field_or, field_at, field_low, field_below, field_above, field_past, narrow, or_none, none_or,
    bit_at, bit_below, bit_above, bit_past, BitVec.getLsbD_or, Bool.or_false, Bool.false_or]
theorem gath (h : Hdr) (vd : BitVec 4) (a : BitVec 5) (vb : BitVec 4) (sz : BitVec 2) (sx : Bool) (mk sc : BitVec 3) (imm : BitVec 48) : Statement (.gath h vd a vb sz sx mk sc imm) := by
  refine of_fields _ rfl rfl fun _ => ?_
  show Except.ok _ = Except.ok _
  simp (disch := decide) only [blockOf, mkFields, Fields.hdr, bit9, bit48, field_or, field_at, field_low, field_below, field_above, field_past, narrow, or_none, none_or,
    bit_at, bit_below, bit_above, bit_past, BitVec.getLsbD_or, Bool.or_false, Bool.false_or]
theorem scat (h : Hdr) (vd : BitVec 4) (a : BitVec 5) (vb : BitVec 4) (sz : BitVec 2) (mk sc : BitVec 3) (imm : BitVec 48) : Statement (.scat h vd a vb sz mk sc imm) := by
  refine of_fields _ rfl rfl fun _ => ?_
  show Except.ok _ = Except.ok _
  simp (disch := decide) only [blockOf, mkFields, Fields.hdr, bit9, bit48, field_or, field_at, field_low, field_below, field_above, field_past, narrow, or_none, none_or,
    bit_at, bit_below, bit_above, bit_past, BitVec.getLsbD_or, Bool.or_false, Bool.false_or]
theorem aadd (h : Hdr) (d a b : BitVec 5) (sz : BitVec 2) (sx : Bool) (imm : BitVec 48) : Statement (.aadd h d a b sz sx imm) := by
  refine of_fields _ rfl rfl fun _ => ?_
  show Except.ok _ = Except.ok _
  simp (disch := decide) only [blockOf, mkFields, Fields.hdr, bit9, bit48, field_or, field_at, field_low, field_below, field_above, field_past, narrow, or_none, none_or,
    bit_at, bit_below, bit_above, bit_past, BitVec.getLsbD_or, Bool.or_false, Bool.false_or]
theorem aand (h : Hdr) (d a b : BitVec 5) (sz : BitVec 2) (sx : Bool) (imm : BitVec 48) : Statement (.aand h d a b sz sx imm) := by
  refine of_fields _ rfl rfl fun _ => ?_
  show Except.ok _ = Except.ok _
  simp (disch := decide) only [blockOf, mkFields, Fields.hdr, bit9, bit48, field_or, field_at, field_low, field_below, field_above, field_past, narrow, or_none, none_or,
    bit_at, bit_below, bit_above, bit_past, BitVec.getLsbD_or, Bool.or_false, Bool.false_or]
theorem aor (h : Hdr) (d a b : BitVec 5) (sz : BitVec 2) (sx : Bool) (imm : BitVec 48) : Statement (.aor h d a b sz sx imm) := by
  refine of_fields _ rfl rfl fun _ => ?_
  show Except.ok _ = Except.ok _
  simp (disch := decide) only [blockOf, mkFields, Fields.hdr, bit9, bit48, field_or, field_at, field_low, field_below, field_above, field_past, narrow, or_none, none_or,
    bit_at, bit_below, bit_above, bit_past, BitVec.getLsbD_or, Bool.or_false, Bool.false_or]
theorem axor (h : Hdr) (d a b : BitVec 5) (sz : BitVec 2) (sx : Bool) (imm : BitVec 48) : Statement (.axor h d a b sz sx imm) := by
  refine of_fields _ rfl rfl fun _ => ?_
  show Except.ok _ = Except.ok _
  simp (disch := decide) only [blockOf, mkFields, Fields.hdr, bit9, bit48, field_or, field_at, field_low, field_below, field_above, field_past, narrow, or_none, none_or,
    bit_at, bit_below, bit_above, bit_past, BitVec.getLsbD_or, Bool.or_false, Bool.false_or]
theorem amin (h : Hdr) (d a b : BitVec 5) (sz : BitVec 2) (sx : Bool) (imm : BitVec 48) : Statement (.amin h d a b sz sx imm) := by
  refine of_fields _ rfl rfl fun _ => ?_
  show Except.ok _ = Except.ok _
  simp (disch := decide) only [blockOf, mkFields, Fields.hdr, bit9, bit48, field_or, field_at, field_low, field_below, field_above, field_past, narrow, or_none, none_or,
    bit_at, bit_below, bit_above, bit_past, BitVec.getLsbD_or, Bool.or_false, Bool.false_or]
theorem amax (h : Hdr) (d a b : BitVec 5) (sz : BitVec 2) (sx : Bool) (imm : BitVec 48) : Statement (.amax h d a b sz sx imm) := by
  refine of_fields _ rfl rfl fun _ => ?_
  show Except.ok _ = Except.ok _
  simp (disch := decide) only [blockOf, mkFields, Fields.hdr, bit9, bit48, field_or, field_at, field_low, field_below, field_above, field_past, narrow, or_none, none_or,
    bit_at, bit_below, bit_above, bit_past, BitVec.getLsbD_or, Bool.or_false, Bool.false_or]
theorem axch (h : Hdr) (d a b : BitVec 5) (sz : BitVec 2) (sx : Bool) (imm : BitVec 48) : Statement (.axch h d a b sz sx imm) := by
  refine of_fields _ rfl rfl fun _ => ?_
  show Except.ok _ = Except.ok _
  simp (disch := decide) only [blockOf, mkFields, Fields.hdr, bit9, bit48, field_or, field_at, field_low, field_below, field_above, field_past, narrow, or_none, none_or,
    bit_at, bit_below, bit_above, bit_past, BitVec.getLsbD_or, Bool.or_false, Bool.false_or]
theorem acas (h : Hdr) (d a b c : BitVec 5) (sz : BitVec 2) (sx : Bool) (imm : BitVec 48) : Statement (.acas h d a b c sz sx imm) := by
  refine of_fields _ rfl rfl fun _ => ?_
  show Except.ok _ = Except.ok _
  simp (disch := decide) only [blockOf, mkFields, Fields.hdr, bit9, bit48, field_or, field_at, field_low, field_below, field_above, field_past, narrow, or_none, none_or,
    bit_at, bit_below, bit_above, bit_past, BitVec.getLsbD_or, Bool.or_false, Bool.false_or]
theorem afadd (h : Hdr) (d a b : BitVec 5) (sz : BitVec 2) (rm : BitVec 3) (imm : BitVec 48) : Statement (.afadd h d a b sz rm imm) := by
  refine of_fields _ rfl rfl fun _ => ?_
  show Except.ok _ = Except.ok _
  simp (disch := decide) only [blockOf, mkFields, Fields.hdr, bit9, bit48, field_or, field_at, field_low, field_below, field_above, field_past, narrow, or_none, none_or,
    bit_at, bit_below, bit_above, bit_past, BitVec.getLsbD_or, Bool.or_false, Bool.false_or]
theorem ldw (h : Hdr) (d a b : BitVec 5) (sz : BitVec 2) (sx : Bool) (sc : BitVec 3) (imm : BitVec 48) : Statement (.ldw h d a b sz sx sc imm) := by
  refine of_fields _ rfl rfl fun _ => ?_
  show Except.ok _ = Except.ok _
  simp (disch := decide) only [blockOf, mkFields, Fields.hdr, bit9, bit48, field_or, field_at, field_low, field_below, field_above, field_past, narrow, or_none, none_or,
    bit_at, bit_below, bit_above, bit_past, BitVec.getLsbD_or, Bool.or_false, Bool.false_or]
theorem ldvw (h : Hdr) (vd : BitVec 4) (a b : BitVec 5) (sz : BitVec 2) (mk sc : BitVec 3) (imm : BitVec 48) : Statement (.ldvw h vd a b sz mk sc imm) := by
  refine of_fields _ rfl rfl fun _ => ?_
  show Except.ok _ = Except.ok _
  simp (disch := decide) only [blockOf, mkFields, Fields.hdr, bit9, bit48, field_or, field_at, field_low, field_below, field_above, field_past, narrow, or_none, none_or,
    bit_at, bit_below, bit_above, bit_past, BitVec.getLsbD_or, Bool.or_false, Bool.false_or]
theorem sbind (h : Hdr) (d : BitVec 5) (blk : BitVec 384) : Statement (.sbind h d blk) := of_fields _ rfl rfl fun _ => rfl
theorem sdrain (h : Hdr) (a : BitVec 5) : Statement (.sdrain h a) := of_fields _ rfl rfl fun _ => rfl
theorem sstat (h : Hdr) (d a : BitVec 5) : Statement (.sstat h d a) := of_fields _ rfl rfl fun _ => rfl
theorem qbind (h : Hdr) (d a : BitVec 5) (imm : BitVec 48) : Statement (.qbind h d a imm) := of_fields _ rfl rfl fun _ => rfl
theorem qstat (h : Hdr) (d a : BitVec 5) : Statement (.qstat h d a) := of_fields _ rfl rfl fun _ => rfl
theorem empty (h : Hdr) (d : BitVec 5) : Statement (.empty h d) := of_fields _ rfl rfl fun _ => rfl
theorem isfull (h : Hdr) (pd : BitVec 4) (a : BitVec 5) : Statement (.isfull h pd a) := by
  refine of_fields _ rfl rfl fun _ => ?_
  show Except.ok _ = Except.ok _
  simp (disch := decide) only [blockOf, mkFields, Fields.hdr, bit9, bit48, field_or, field_at, field_low, field_below, field_above, field_past, narrow, or_none, none_or,
    bit_at, bit_below, bit_above, bit_past, BitVec.getLsbD_or, Bool.or_false, Bool.false_or]
theorem putr (h : Hdr) (a b rg : BitVec 5) : Statement (.putr h a b rg) := by
  refine of_fields _ rfl rfl fun _ => ?_
  show Except.ok _ = Except.ok _
  simp (disch := decide) only [blockOf, mkFields, Fields.hdr, bit9, bit48, field_or, field_at, field_low, field_below, field_above, field_past, narrow, or_none, none_or,
    bit_at, bit_below, bit_above, bit_past, BitVec.getLsbD_or, Bool.or_false, Bool.false_or]
theorem migr (h : Hdr) (a : BitVec 5) : Statement (.migr h a) := of_fields _ rfl rfl fun _ => rfl
theorem tmodeLight (h : Hdr) : Statement (.tmodeLight h) := by
  refine of_fields _ rfl rfl fun _ => ?_
  have hk : ∀ ff : BitVec 9, candidate (mkFields 0x79 h false 0 0 0 0 ff 0) 0 =
      if ff.getLsbD 0 then .ok (Instr.tmodeLight h) else .ok (Instr.tmodeHeavy h) := fun _ => rfl
  refine (hk 1).trans ?_
  rw [if_pos (by decide)]
theorem tmodeHeavy (h : Hdr) : Statement (.tmodeHeavy h) := by
  refine of_fields _ rfl rfl fun _ => ?_
  have hk : ∀ ff : BitVec 9, candidate (mkFields 0x79 h false 0 0 0 0 ff 0) 0 =
      if ff.getLsbD 0 then .ok (Instr.tmodeLight h) else .ok (Instr.tmodeHeavy h) := fun _ => rfl
  refine (hk 0).trans ?_
  rw [if_neg (by decide)]
theorem bar (h : Hdr) (n : BitVec 3) : Statement (.bar h n) := by
  refine of_fields _ rfl rfl fun _ => ?_
  show Except.ok _ = Except.ok _
  simp (disch := decide) only [blockOf, mkFields, Fields.hdr, bit9, bit48, field_or, field_at, field_low, field_below, field_above, field_past, narrow, or_none, none_or,
    bit_at, bit_below, bit_above, bit_past, BitVec.getLsbD_or, Bool.or_false, Bool.false_or]
theorem bara (h : Hdr) (n : BitVec 3) : Statement (.bara h n) := by
  refine of_fields _ rfl rfl fun _ => ?_
  show Except.ok _ = Except.ok _
  simp (disch := decide) only [blockOf, mkFields, Fields.hdr, bit9, bit48, field_or, field_at, field_low, field_below, field_above, field_past, narrow, or_none, none_or,
    bit_at, bit_below, bit_above, bit_past, BitVec.getLsbD_or, Bool.or_false, Bool.false_or]
theorem barw (h : Hdr) (n : BitVec 3) : Statement (.barw h n) := by
  refine of_fields _ rfl rfl fun _ => ?_
  show Except.ok _ = Except.ok _
  simp (disch := decide) only [blockOf, mkFields, Fields.hdr, bit9, bit48, field_or, field_at, field_low, field_below, field_above, field_past, narrow, or_none, none_or,
    bit_at, bit_below, bit_above, bit_past, BitVec.getLsbD_or, Bool.or_false, Bool.false_or]
theorem sev (h : Hdr) (a : BitVec 5) (e : BitVec 4) : Statement (.sev h a e) := by
  refine of_fields _ rfl rfl fun _ => ?_
  show Except.ok _ = Except.ok _
  simp (disch := decide) only [blockOf, mkFields, Fields.hdr, bit9, bit48, field_or, field_at, field_low, field_below, field_above, field_past, narrow, or_none, none_or,
    bit_at, bit_below, bit_above, bit_past, BitVec.getLsbD_or, Bool.or_false, Bool.false_or]
theorem wev (h : Hdr) (e : BitVec 4) : Statement (.wev h e) := by
  refine of_fields _ rfl rfl fun _ => ?_
  show Except.ok _ = Except.ok _
  simp (disch := decide) only [blockOf, mkFields, Fields.hdr, bit9, bit48, field_or, field_at, field_low, field_below, field_above, field_past, narrow, or_none, none_or,
    bit_at, bit_below, bit_above, bit_past, BitVec.getLsbD_or, Bool.or_false, Bool.false_or]
theorem bfree (h : Hdr) (e : BitVec 4) : Statement (.bfree h e) := by
  refine of_fields _ rfl rfl fun _ => ?_
  show Except.ok _ = Except.ok _
  simp (disch := decide) only [blockOf, mkFields, Fields.hdr, bit9, bit48, field_or, field_at, field_low, field_below, field_above, field_past, narrow, or_none, none_or,
    bit_at, bit_below, bit_above, bit_past, BitVec.getLsbD_or, Bool.or_false, Bool.false_or]
theorem dqpush (h : Hdr) (d a b : BitVec 5) (imm : BitVec 48) : Statement (.dqpush h d a b imm) := of_fields _ rfl rfl fun _ => rfl
theorem dqpop (h : Hdr) (d a b : BitVec 5) (imm : BitVec 48) : Statement (.dqpop h d a b imm) := of_fields _ rfl rfl fun _ => rfl
theorem dqspl (h : Hdr) (d a b : BitVec 5) (imm : BitVec 48) : Statement (.dqspl h d a b imm) := of_fields _ rfl rfl fun _ => rfl
theorem dqstl (h : Hdr) (d a b : BitVec 5) (imm : BitVec 48) : Statement (.dqstl h d a b imm) := of_fields _ rfl rfl fun _ => rfl
theorem item (h : Hdr) (a : BitVec 5) : Statement (.item h a) := by
  refine of_fields _ rfl rfl fun _ => ?_
  have hk : ∀ ff : BitVec 9, candidate (mkFields 0x8A h false 0 a 0 0 ff 0) 0 =
      if ff.getLsbD 0 then .ok (Instr.itemEos h a) else .ok (Instr.item h a) := fun _ => rfl
  refine (hk 0).trans ?_
  rw [if_neg (by decide)]
theorem itemEos (h : Hdr) (a : BitVec 5) : Statement (.itemEos h a) := by
  refine of_fields _ rfl rfl fun _ => ?_
  have hk : ∀ ff : BitVec 9, candidate (mkFields 0x8A h false 0 a 0 0 ff 0) 0 =
      if ff.getLsbD 0 then .ok (Instr.itemEos h a) else .ok (Instr.item h a) := fun _ => rfl
  refine (hk 1).trans ?_
  rw [if_pos (by decide)]
theorem vadd (h : Hdr) (vd va vb : BitVec 4) (ty mk rnd : BitVec 3) : Statement (.vadd h vd va vb ty mk rnd) := by
  refine of_fields _ rfl rfl fun _ => ?_
  show Except.ok _ = Except.ok _
  simp (disch := decide) only [blockOf, mkFields, Fields.hdr, bit9, bit48, field_or, field_at, field_low, field_below, field_above, field_past, narrow, or_none, none_or,
    bit_at, bit_below, bit_above, bit_past, BitVec.getLsbD_or, Bool.or_false, Bool.false_or]
theorem vsub (h : Hdr) (vd va vb : BitVec 4) (ty mk rnd : BitVec 3) : Statement (.vsub h vd va vb ty mk rnd) := by
  refine of_fields _ rfl rfl fun _ => ?_
  show Except.ok _ = Except.ok _
  simp (disch := decide) only [blockOf, mkFields, Fields.hdr, bit9, bit48, field_or, field_at, field_low, field_below, field_above, field_past, narrow, or_none, none_or,
    bit_at, bit_below, bit_above, bit_past, BitVec.getLsbD_or, Bool.or_false, Bool.false_or]
theorem vmul (h : Hdr) (vd va vb : BitVec 4) (ty mk rnd : BitVec 3) : Statement (.vmul h vd va vb ty mk rnd) := by
  refine of_fields _ rfl rfl fun _ => ?_
  show Except.ok _ = Except.ok _
  simp (disch := decide) only [blockOf, mkFields, Fields.hdr, bit9, bit48, field_or, field_at, field_low, field_below, field_above, field_past, narrow, or_none, none_or,
    bit_at, bit_below, bit_above, bit_past, BitVec.getLsbD_or, Bool.or_false, Bool.false_or]
theorem vdiv (h : Hdr) (vd va vb : BitVec 4) (ty mk rnd : BitVec 3) : Statement (.vdiv h vd va vb ty mk rnd) := by
  refine of_fields _ rfl rfl fun _ => ?_
  show Except.ok _ = Except.ok _
  simp (disch := decide) only [blockOf, mkFields, Fields.hdr, bit9, bit48, field_or, field_at, field_low, field_below, field_above, field_past, narrow, or_none, none_or,
    bit_at, bit_below, bit_above, bit_past, BitVec.getLsbD_or, Bool.or_false, Bool.false_or]
theorem vfma (h : Hdr) (vd va vb vc : BitVec 4) (ty mk rnd : BitVec 3) : Statement (.vfma h vd va vb vc ty mk rnd) := by
  refine of_fields _ rfl rfl fun _ => ?_
  show Except.ok _ = Except.ok _
  simp (disch := decide) only [blockOf, mkFields, Fields.hdr, bit9, bit48, field_or, field_at, field_low, field_below, field_above, field_past, narrow, or_none, none_or,
    bit_at, bit_below, bit_above, bit_past, BitVec.getLsbD_or, Bool.or_false, Bool.false_or]
theorem vfnma (h : Hdr) (vd va vb vc : BitVec 4) (ty mk rnd : BitVec 3) : Statement (.vfnma h vd va vb vc ty mk rnd) := by
  refine of_fields _ rfl rfl fun _ => ?_
  show Except.ok _ = Except.ok _
  simp (disch := decide) only [blockOf, mkFields, Fields.hdr, bit9, bit48, field_or, field_at, field_low, field_below, field_above, field_past, narrow, or_none, none_or,
    bit_at, bit_below, bit_above, bit_past, BitVec.getLsbD_or, Bool.or_false, Bool.false_or]
theorem vmin (h : Hdr) (vd va vb : BitVec 4) (ty mk : BitVec 3) : Statement (.vmin h vd va vb ty mk) := by
  refine of_fields _ rfl rfl fun _ => ?_
  show Except.ok _ = Except.ok _
  simp (disch := decide) only [blockOf, mkFields, Fields.hdr, bit9, bit48, field_or, field_at, field_low, field_below, field_above, field_past, narrow, or_none, none_or,
    bit_at, bit_below, bit_above, bit_past, BitVec.getLsbD_or, Bool.or_false, Bool.false_or]
theorem vmax (h : Hdr) (vd va vb : BitVec 4) (ty mk : BitVec 3) : Statement (.vmax h vd va vb ty mk) := by
  refine of_fields _ rfl rfl fun _ => ?_
  show Except.ok _ = Except.ok _
  simp (disch := decide) only [blockOf, mkFields, Fields.hdr, bit9, bit48, field_or, field_at, field_low, field_below, field_above, field_past, narrow, or_none, none_or,
    bit_at, bit_below, bit_above, bit_past, BitVec.getLsbD_or, Bool.or_false, Bool.false_or]
theorem vabs (h : Hdr) (vd va : BitVec 4) (ty mk : BitVec 3) : Statement (.vabs h vd va ty mk) := by
  refine of_fields _ rfl rfl fun _ => ?_
  show Except.ok _ = Except.ok _
  simp (disch := decide) only [blockOf, mkFields, Fields.hdr, bit9, bit48, field_or, field_at, field_low, field_below, field_above, field_past, narrow, or_none, none_or,
    bit_at, bit_below, bit_above, bit_past, BitVec.getLsbD_or, Bool.or_false, Bool.false_or]
theorem vneg (h : Hdr) (vd va : BitVec 4) (ty mk : BitVec 3) : Statement (.vneg h vd va ty mk) := by
  refine of_fields _ rfl rfl fun _ => ?_
  show Except.ok _ = Except.ok _
  simp (disch := decide) only [blockOf, mkFields, Fields.hdr, bit9, bit48, field_or, field_at, field_low, field_below, field_above, field_past, narrow, or_none, none_or,
    bit_at, bit_below, bit_above, bit_past, BitVec.getLsbD_or, Bool.or_false, Bool.false_or]
theorem vand (h : Hdr) (vd va vb : BitVec 4) (ty mk : BitVec 3) : Statement (.vand h vd va vb ty mk) := by
  refine of_fields _ rfl rfl fun _ => ?_
  show Except.ok _ = Except.ok _
  simp (disch := decide) only [blockOf, mkFields, Fields.hdr, bit9, bit48, field_or, field_at, field_low, field_below, field_above, field_past, narrow, or_none, none_or,
    bit_at, bit_below, bit_above, bit_past, BitVec.getLsbD_or, Bool.or_false, Bool.false_or]
theorem vor (h : Hdr) (vd va vb : BitVec 4) (ty mk : BitVec 3) : Statement (.vor h vd va vb ty mk) := by
  refine of_fields _ rfl rfl fun _ => ?_
  show Except.ok _ = Except.ok _
  simp (disch := decide) only [blockOf, mkFields, Fields.hdr, bit9, bit48, field_or, field_at, field_low, field_below, field_above, field_past, narrow, or_none, none_or,
    bit_at, bit_below, bit_above, bit_past, BitVec.getLsbD_or, Bool.or_false, Bool.false_or]
theorem vxor (h : Hdr) (vd va vb : BitVec 4) (ty mk : BitVec 3) : Statement (.vxor h vd va vb ty mk) := by
  refine of_fields _ rfl rfl fun _ => ?_
  show Except.ok _ = Except.ok _
  simp (disch := decide) only [blockOf, mkFields, Fields.hdr, bit9, bit48, field_or, field_at, field_low, field_below, field_above, field_past, narrow, or_none, none_or,
    bit_at, bit_below, bit_above, bit_past, BitVec.getLsbD_or, Bool.or_false, Bool.false_or]
theorem vshl (h : Hdr) (vd va vb : BitVec 4) (ty mk : BitVec 3) : Statement (.vshl h vd va vb ty mk) := by
  refine of_fields _ rfl rfl fun _ => ?_
  show Except.ok _ = Except.ok _
  simp (disch := decide) only [blockOf, mkFields, Fields.hdr, bit9, bit48, field_or, field_at, field_low, field_below, field_above, field_past, narrow, or_none, none_or,
    bit_at, bit_below, bit_above, bit_past, BitVec.getLsbD_or, Bool.or_false, Bool.false_or]
theorem vshr (h : Hdr) (vd va vb : BitVec 4) (ty mk : BitVec 3) : Statement (.vshr h vd va vb ty mk) := by
  refine of_fields _ rfl rfl fun _ => ?_
  show Except.ok _ = Except.ok _
  simp (disch := decide) only [blockOf, mkFields, Fields.hdr, bit9, bit48, field_or, field_at, field_low, field_below, field_above, field_past, narrow, or_none, none_or,
    bit_at, bit_below, bit_above, bit_past, BitVec.getLsbD_or, Bool.or_false, Bool.false_or]
theorem vsar (h : Hdr) (vd va vb : BitVec 4) (ty mk : BitVec 3) : Statement (.vsar h vd va vb ty mk) := by
  refine of_fields _ rfl rfl fun _ => ?_
  show Except.ok _ = Except.ok _
  simp (disch := decide) only [blockOf, mkFields, Fields.hdr, bit9, bit48, field_or, field_at, field_low, field_below, field_above, field_past, narrow, or_none, none_or,
    bit_at, bit_below, bit_above, bit_past, BitVec.getLsbD_or, Bool.or_false, Bool.false_or]
theorem vsqrt (h : Hdr) (vd va : BitVec 4) (ty mk rnd : BitVec 3) : Statement (.vsqrt h vd va ty mk rnd) := by
  refine of_fields _ rfl rfl fun _ => ?_
  show Except.ok _ = Except.ok _
  simp (disch := decide) only [blockOf, mkFields, Fields.hdr, bit9, bit48, field_or, field_at, field_low, field_below, field_above, field_past, narrow, or_none, none_or,
    bit_at, bit_below, bit_above, bit_past, BitVec.getLsbD_or, Bool.or_false, Bool.false_or]
theorem vrsq (h : Hdr) (vd va : BitVec 4) (ty mk rnd : BitVec 3) : Statement (.vrsq h vd va ty mk rnd) := by
  refine of_fields _ rfl rfl fun _ => ?_
  show Except.ok _ = Except.ok _
  simp (disch := decide) only [blockOf, mkFields, Fields.hdr, bit9, bit48, field_or, field_at, field_low, field_below, field_above, field_past, narrow, or_none, none_or,
    bit_at, bit_below, bit_above, bit_past, BitVec.getLsbD_or, Bool.or_false, Bool.false_or]
theorem vrcp (h : Hdr) (vd va : BitVec 4) (ty mk rnd : BitVec 3) : Statement (.vrcp h vd va ty mk rnd) := by
  refine of_fields _ rfl rfl fun _ => ?_
  show Except.ok _ = Except.ok _
  simp (disch := decide) only [blockOf, mkFields, Fields.hdr, bit9, bit48, field_or, field_at, field_low, field_below, field_above, field_past, narrow, or_none, none_or,
    bit_at, bit_below, bit_above, bit_past, BitVec.getLsbD_or, Bool.or_false, Bool.false_or]
theorem vexp2 (h : Hdr) (vd va : BitVec 4) (ty mk rnd : BitVec 3) : Statement (.vexp2 h vd va ty mk rnd) := by
  refine of_fields _ rfl rfl fun _ => ?_
  show Except.ok _ = Except.ok _
  simp (disch := decide) only [blockOf, mkFields, Fields.hdr, bit9, bit48, field_or, field_at, field_low, field_below, field_above, field_past, narrow, or_none, none_or,
    bit_at, bit_below, bit_above, bit_past, BitVec.getLsbD_or, Bool.or_false, Bool.false_or]
theorem vlog2 (h : Hdr) (vd va : BitVec 4) (ty mk rnd : BitVec 3) : Statement (.vlog2 h vd va ty mk rnd) := by
  refine of_fields _ rfl rfl fun _ => ?_
  show Except.ok _ = Except.ok _
  simp (disch := decide) only [blockOf, mkFields, Fields.hdr, bit9, bit48, field_or, field_at, field_low, field_below, field_above, field_past, narrow, or_none, none_or,
    bit_at, bit_below, bit_above, bit_past, BitVec.getLsbD_or, Bool.or_false, Bool.false_or]
theorem vcmp (h : Hdr) (md : BitVec 3) (va vb : BitVec 4) (ty mk : BitVec 3) (cond : BitVec 4) : Statement (.vcmp h md va vb ty mk cond) := by
  refine of_fields _ rfl rfl fun _ => ?_
  show Except.ok _ = Except.ok _
  simp (disch := decide) only [blockOf, mkFields, Fields.hdr, bit9, bit48, field_or, field_at, field_low, field_below, field_above, field_past, narrow, or_none, none_or,
    bit_at, bit_below, bit_above, bit_past, BitVec.getLsbD_or, Bool.or_false, Bool.false_or]
theorem vcvt (h : Hdr) (vd va : BitVec 4) (st ty mk rnd : BitVec 3) : Statement (.vcvt h vd va st ty mk rnd) := by
  refine of_fields _ rfl rfl fun _ => ?_
  show Except.ok _ = Except.ok _
  simp (disch := decide) only [blockOf, mkFields, Fields.hdr, bit9, bit48, field_or, field_at, field_low, field_below, field_above, field_past, narrow, or_none, none_or,
    bit_at, bit_below, bit_above, bit_past, BitVec.getLsbD_or, Bool.or_false, Bool.false_or]
theorem vdot (h : Hdr) (vd va vb vc : BitVec 4) (ty mk rnd : BitVec 3) : Statement (.vdot h vd va vb vc ty mk rnd) := by
  refine of_fields _ rfl rfl fun _ => ?_
  show Except.ok _ = Except.ok _
  simp (disch := decide) only [blockOf, mkFields, Fields.hdr, bit9, bit48, field_or, field_at, field_low, field_below, field_above, field_past, narrow, or_none, none_or,
    bit_at, bit_below, bit_above, bit_past, BitVec.getLsbD_or, Bool.or_false, Bool.false_or]
theorem vmov (h : Hdr) (vd va : BitVec 4) (ty mk : BitVec 3) : Statement (.vmov h vd va ty mk) := by
  refine of_fields _ rfl rfl fun _ => ?_
  show Except.ok _ = Except.ok _
  simp (disch := decide) only [blockOf, mkFields, Fields.hdr, bit9, bit48, field_or, field_at, field_low, field_below, field_above, field_past, narrow, or_none, none_or,
    bit_at, bit_below, bit_above, bit_past, BitVec.getLsbD_or, Bool.or_false, Bool.false_or]
theorem vsel (h : Hdr) (vd va vb : BitVec 4) (ty mk : BitVec 3) : Statement (.vsel h vd va vb ty mk) := by
  refine of_fields _ rfl rfl fun _ => ?_
  show Except.ok _ = Except.ok _
  simp (disch := decide) only [blockOf, mkFields, Fields.hdr, bit9, bit48, field_or, field_at, field_low, field_below, field_above, field_past, narrow, or_none, none_or,
    bit_at, bit_below, bit_above, bit_past, BitVec.getLsbD_or, Bool.or_false, Bool.false_or]
theorem vbcast (h : Hdr) (vd : BitVec 4) (a : BitVec 5) (ty mk : BitVec 3) : Statement (.vbcast h vd a ty mk) := by
  refine of_fields _ rfl rfl fun _ => ?_
  show Except.ok _ = Except.ok _
  simp (disch := decide) only [blockOf, mkFields, Fields.hdr, bit9, bit48, field_or, field_at, field_low, field_below, field_above, field_past, narrow, or_none, none_or,
    bit_at, bit_below, bit_above, bit_past, BitVec.getLsbD_or, Bool.or_false, Bool.false_or]
theorem vfill (h : Hdr) (vd : BitVec 4) (ty mk : BitVec 3) (imm : BitVec 48) : Statement (.vfill h vd ty mk imm) := by
  refine of_fields _ rfl rfl fun _ => ?_
  show Except.ok _ = Except.ok _
  simp (disch := decide) only [blockOf, mkFields, Fields.hdr, bit9, bit48, field_or, field_at, field_low, field_below, field_above, field_past, narrow, or_none, none_or,
    bit_at, bit_below, bit_above, bit_past, BitVec.getLsbD_or, Bool.or_false, Bool.false_or]
theorem vext (h : Hdr) (d : BitVec 5) (va : BitVec 4) (lane : BitVec 5) (ty : BitVec 3) : Statement (.vext h d va lane ty) := by
  refine of_fields _ rfl rfl fun _ => ?_
  show Except.ok _ = Except.ok _
  simp (disch := decide) only [blockOf, mkFields, Fields.hdr, bit9, bit48, field_or, field_at, field_low, field_below, field_above, field_past, narrow, or_none, none_or,
    bit_at, bit_below, bit_above, bit_past, BitVec.getLsbD_or, Bool.or_false, Bool.false_or]
theorem vins (h : Hdr) (vd : BitVec 4) (a lane : BitVec 5) (ty : BitVec 3) : Statement (.vins h vd a lane ty) := by
  refine of_fields _ rfl rfl fun _ => ?_
  show Except.ok _ = Except.ok _
  simp (disch := decide) only [blockOf, mkFields, Fields.hdr, bit9, bit48, field_or, field_at, field_low, field_below, field_above, field_past, narrow, or_none, none_or,
    bit_at, bit_below, bit_above, bit_past, BitVec.getLsbD_or, Bool.or_false, Bool.false_or]
theorem viota (h : Hdr) (vd : BitVec 4) (ty mk : BitVec 3) : Statement (.viota h vd ty mk) := by
  refine of_fields _ rfl rfl fun _ => ?_
  show Except.ok _ = Except.ok _
  simp (disch := decide) only [blockOf, mkFields, Fields.hdr, bit9, bit48, field_or, field_at, field_low, field_below, field_above, field_past, narrow, or_none, none_or,
    bit_at, bit_below, bit_above, bit_past, BitVec.getLsbD_or, Bool.or_false, Bool.false_or]
theorem vcmprs (h : Hdr) (vd va : BitVec 4) (ty mk : BitVec 3) : Statement (.vcmprs h vd va ty mk) := by
  refine of_fields _ rfl rfl fun _ => ?_
  show Except.ok _ = Except.ok _
  simp (disch := decide) only [blockOf, mkFields, Fields.hdr, bit9, bit48, field_or, field_at, field_low, field_below, field_above, field_past, narrow, or_none, none_or,
    bit_at, bit_below, bit_above, bit_past, BitVec.getLsbD_or, Bool.or_false, Bool.false_or]
theorem vexpnd (h : Hdr) (vd va : BitVec 4) (ty mk : BitVec 3) : Statement (.vexpnd h vd va ty mk) := by
  refine of_fields _ rfl rfl fun _ => ?_
  show Except.ok _ = Except.ok _
  simp (disch := decide) only [blockOf, mkFields, Fields.hdr, bit9, bit48, field_or, field_at, field_low, field_below, field_above, field_past, narrow, or_none, none_or,
    bit_at, bit_below, bit_above, bit_past, BitVec.getLsbD_or, Bool.or_false, Bool.false_or]
theorem vshuf (h : Hdr) (vd va vb : BitVec 4) (ty mk : BitVec 3) : Statement (.vshuf h vd va vb ty mk) := by
  refine of_fields _ rfl rfl fun _ => ?_
  show Except.ok _ = Except.ok _
  simp (disch := decide) only [blockOf, mkFields, Fields.hdr, bit9, bit48, field_or, field_at, field_low, field_below, field_above, field_past, narrow, or_none, none_or,
    bit_at, bit_below, bit_above, bit_past, BitVec.getLsbD_or, Bool.or_false, Bool.false_or]
theorem vlut (h : Hdr) (vd va vb : BitVec 4) (ty mk : BitVec 3) : Statement (.vlut h vd va vb ty mk) := by
  refine of_fields _ rfl rfl fun _ => ?_
  show Except.ok _ = Except.ok _
  simp (disch := decide) only [blockOf, mkFields, Fields.hdr, bit9, bit48, field_or, field_at, field_low, field_below, field_above, field_past, narrow, or_none, none_or,
    bit_at, bit_below, bit_above, bit_past, BitVec.getLsbD_or, Bool.or_false, Bool.false_or]
theorem vred (h : Hdr) (d : BitVec 5) (va : BitVec 4) (fn ty mk rnd : BitVec 3) : Statement (.vred h d va fn ty mk rnd) := by
  refine of_fields _ rfl rfl fun _ => ?_
  show Except.ok _ = Except.ok _
  simp (disch := decide) only [blockOf, mkFields, Fields.hdr, bit9, bit48, field_or, field_at, field_low, field_below, field_above, field_past, narrow, or_none, none_or,
    bit_at, bit_below, bit_above, bit_past, BitVec.getLsbD_or, Bool.or_false, Bool.false_or]
theorem vscan (h : Hdr) (vd va : BitVec 4) (fn ty mk rnd : BitVec 3) : Statement (.vscan h vd va fn ty mk rnd) := by
  refine of_fields _ rfl rfl fun _ => ?_
  show Except.ok _ = Except.ok _
  simp (disch := decide) only [blockOf, mkFields, Fields.hdr, bit9, bit48, field_or, field_at, field_low, field_below, field_above, field_past, narrow, or_none, none_or,
    bit_at, bit_below, bit_above, bit_past, BitVec.getLsbD_or, Bool.or_false, Bool.false_or]
theorem vsort (h : Hdr) (vd va vb vc : BitVec 4) (desc : Bool) (ty mk : BitVec 3) : Statement (.vsort h vd va vb vc desc ty mk) := by
  refine of_fields _ rfl rfl fun _ => ?_
  show Except.ok _ = Except.ok _
  simp (disch := decide) only [blockOf, mkFields, Fields.hdr, bit9, bit48, field_or, field_at, field_low, field_below, field_above, field_past, narrow, or_none, none_or,
    bit_at, bit_below, bit_above, bit_past, BitVec.getLsbD_or, Bool.or_false, Bool.false_or]
theorem vmerge (h : Hdr) (vd va vb vc : BitVec 4) (desc : Bool) (ty mk : BitVec 3) : Statement (.vmerge h vd va vb vc desc ty mk) := by
  refine of_fields _ rfl rfl fun _ => ?_
  show Except.ok _ = Except.ok _
  simp (disch := decide) only [blockOf, mkFields, Fields.hdr, bit9, bit48, field_or, field_at, field_low, field_below, field_above, field_past, narrow, or_none, none_or,
    bit_at, bit_below, bit_above, bit_past, BitVec.getLsbD_or, Bool.or_false, Bool.false_or]
theorem vpackq (h : Hdr) (vd va vb : BitVec 4) (bq4 : Bool) (mk : BitVec 3) : Statement (.vpackq h vd va vb bq4 mk) := by
  refine of_fields _ rfl rfl fun _ => ?_
  refine (typeOne_ok ?_).trans ?_
  · simp (disch := decide) only [mkFields, field_or, field_below]; rfl
  show Except.ok _ = Except.ok _
  simp (disch := decide) only [blockOf, mkFields, Fields.hdr, bit9, bit48, field_or, field_at, field_low, field_below, field_above, field_past, narrow, or_none, none_or,
    bit_at, bit_below, bit_above, bit_past, BitVec.getLsbD_or, Bool.or_false, Bool.false_or]
  simp
theorem vunpkq (h : Hdr) (vd va : BitVec 4) (bq4 hi : Bool) (mk : BitVec 3) : Statement (.vunpkq h vd va bq4 hi mk) := by
  refine of_fields _ rfl rfl fun _ => ?_
  refine (typeOne_ok ?_).trans ?_
  · simp (disch := decide) only [mkFields, field_or, field_below]; rfl
  show Except.ok _ = Except.ok _
  simp (disch := decide) only [blockOf, mkFields, Fields.hdr, bit9, bit48, field_or, field_at, field_low, field_below, field_above, field_past, narrow, or_none, none_or,
    bit_at, bit_below, bit_above, bit_past, BitVec.getLsbD_or, Bool.or_false, Bool.false_or]
  simp
theorem mlog (h : Hdr) (md ma mb : BitVec 3) (tab : BitVec 4) : Statement (.mlog h md ma mb tab) := by
  refine of_fields _ rfl rfl fun _ => ?_
  show Except.ok _ = Except.ok _
  simp (disch := decide) only [blockOf, mkFields, Fields.hdr, bit9, bit48, field_or, field_at, field_low, field_below, field_above, field_past, narrow, or_none, none_or,
    bit_at, bit_below, bit_above, bit_past, BitVec.getLsbD_or, Bool.or_false, Bool.false_or]
theorem mpopc (h : Hdr) (d : BitVec 5) (ma : BitVec 3) : Statement (.mpopc h d ma) := by
  refine of_fields _ rfl rfl fun _ => ?_
  show Except.ok _ = Except.ok _
  simp (disch := decide) only [blockOf, mkFields, Fields.hdr, bit9, bit48, field_or, field_at, field_low, field_below, field_above, field_past, narrow, or_none, none_or,
    bit_at, bit_below, bit_above, bit_past, BitVec.getLsbD_or, Bool.or_false, Bool.false_or]
theorem mget (h : Hdr) (d : BitVec 5) (ma : BitVec 3) : Statement (.mget h d ma) := by
  refine of_fields _ rfl rfl fun _ => ?_
  show Except.ok _ = Except.ok _
  simp (disch := decide) only [blockOf, mkFields, Fields.hdr, bit9, bit48, field_or, field_at, field_low, field_below, field_above, field_past, narrow, or_none, none_or,
    bit_at, bit_below, bit_above, bit_past, BitVec.getLsbD_or, Bool.or_false, Bool.false_or]
theorem mset (h : Hdr) (md : BitVec 3) (a : BitVec 5) : Statement (.mset h md a) := by
  refine of_fields _ rfl rfl fun _ => ?_
  show Except.ok _ = Except.ok _
  simp (disch := decide) only [blockOf, mkFields, Fields.hdr, bit9, bit48, field_or, field_at, field_low, field_below, field_above, field_past, narrow, or_none, none_or,
    bit_at, bit_below, bit_above, bit_past, BitVec.getLsbD_or, Bool.or_false, Bool.false_or]
theorem pmm (h : Hdr) (port : BitVec 2) (tag : BitVec 8) (blk : BitVec 384) : Statement (.pmm h port tag blk) := by
  refine of_fields _ rfl rfl fun _ => ?_
  show Except.ok _ = Except.ok _
  simp (disch := decide) only [blockOf, mkFields, Fields.hdr, bit9, bit48, field_or, field_at, field_low, field_below, field_above, field_past, narrow, or_none, none_or,
    bit_at, bit_below, bit_above, bit_past, BitVec.getLsbD_or, Bool.or_false, Bool.false_or]
theorem pdsc (h : Hdr) (port : BitVec 2) (tag : BitVec 8) (blk : BitVec 384) : Statement (.pdsc h port tag blk) := by
  refine of_fields _ rfl rfl fun _ => ?_
  show Except.ok _ = Except.ok _
  simp (disch := decide) only [blockOf, mkFields, Fields.hdr, bit9, bit48, field_or, field_at, field_low, field_below, field_above, field_past, narrow, or_none, none_or,
    bit_at, bit_below, bit_above, bit_past, BitVec.getLsbD_or, Bool.or_false, Bool.false_or]
theorem pdgr (h : Hdr) (port : BitVec 2) (tag : BitVec 8) (blk : BitVec 384) : Statement (.pdgr h port tag blk) := by
  refine of_fields _ rfl rfl fun _ => ?_
  show Except.ok _ = Except.ok _
  simp (disch := decide) only [blockOf, mkFields, Fields.hdr, bit9, bit48, field_or, field_at, field_low, field_below, field_above, field_past, narrow, or_none, none_or,
    bit_at, bit_below, bit_above, bit_past, BitVec.getLsbD_or, Bool.or_false, Bool.false_or]
theorem pwait (h : Hdr) (port : BitVec 2) (tag : BitVec 8) : Statement (.pwait h port tag) := by
  refine of_fields _ rfl rfl fun _ => ?_
  show Except.ok _ = Except.ok _
  simp (disch := decide) only [blockOf, mkFields, Fields.hdr, bit9, bit48, field_or, field_at, field_low, field_below, field_above, field_past, narrow, or_none, none_or,
    bit_at, bit_below, bit_above, bit_past, BitVec.getLsbD_or, Bool.or_false, Bool.false_or]
theorem pqry (h : Hdr) (d : BitVec 5) (port : BitVec 2) (tag : BitVec 8) : Statement (.pqry h d port tag) := by
  refine of_fields _ rfl rfl fun _ => ?_
  show Except.ok _ = Except.ok _
  simp (disch := decide) only [blockOf, mkFields, Fields.hdr, bit9, bit48, field_or, field_at, field_low, field_below, field_above, field_past, narrow, or_none, none_or,
    bit_at, bit_below, bit_above, bit_past, BitVec.getLsbD_or, Bool.or_false, Bool.false_or]
theorem pclr (h : Hdr) (port slot : BitVec 2) (f64 : Bool) : Statement (.pclr h port slot f64) := by
  refine of_fields _ rfl rfl fun _ => ?_
  show Except.ok _ = Except.ok _
  simp (disch := decide) only [blockOf, mkFields, Fields.hdr, bit9, bit48, field_or, field_at, field_low, field_below, field_above, field_past, narrow, or_none, none_or,
    bit_at, bit_below, bit_above, bit_past, BitVec.getLsbD_or, Bool.or_false, Bool.false_or]
theorem pscl (h : Hdr) (a : BitVec 5) (port slot : BitVec 2) (f64 : Bool) : Statement (.pscl h a port slot f64) := by
  refine of_fields _ rfl rfl fun _ => ?_
  show Except.ok _ = Except.ok _
  simp (disch := decide) only [blockOf, mkFields, Fields.hdr, bit9, bit48, field_or, field_at, field_low, field_below, field_above, field_past, narrow, or_none, none_or,
    bit_at, bit_below, bit_above, bit_past, BitVec.getLsbD_or, Bool.or_false, Bool.false_or]
theorem plds (h : Hdr) (a : BitVec 5) (port slot : BitVec 2) (f64 : Bool) : Statement (.plds h a port slot f64) := by
  refine of_fields _ rfl rfl fun _ => ?_
  show Except.ok _ = Except.ok _
  simp (disch := decide) only [blockOf, mkFields, Fields.hdr, bit9, bit48, field_or, field_at, field_low, field_below, field_above, field_past, narrow, or_none, none_or,
    bit_at, bit_below, bit_above, bit_past, BitVec.getLsbD_or, Bool.or_false, Bool.false_or]
theorem psts (h : Hdr) (a : BitVec 5) (port slot : BitVec 2) (f64 : Bool) : Statement (.psts h a port slot f64) := by
  refine of_fields _ rfl rfl fun _ => ?_
  show Except.ok _ = Except.ok _
  simp (disch := decide) only [blockOf, mkFields, Fields.hdr, bit9, bit48, field_or, field_at, field_low, field_below, field_above, field_past, narrow, or_none, none_or,
    bit_at, bit_below, bit_above, bit_past, BitVec.getLsbD_or, Bool.or_false, Bool.false_or]
theorem prdl (h : Hdr) (a b : BitVec 5) (port : BitVec 2) (tag : BitVec 8) : Statement (.prdl h a b port tag) := by
  refine of_fields _ rfl rfl fun _ => ?_
  show Except.ok _ = Except.ok _
  simp (disch := decide) only [blockOf, mkFields, Fields.hdr, bit9, bit48, field_or, field_at, field_low, field_below, field_above, field_past, narrow, or_none, none_or,
    bit_at, bit_below, bit_above, bit_past, BitVec.getLsbD_or, Bool.or_false, Bool.false_or]
theorem pabt (h : Hdr) (port : BitVec 2) (tag : BitVec 8) : Statement (.pabt h port tag) := by
  refine of_fields _ rfl rfl fun _ => ?_
  show Except.ok _ = Except.ok _
  simp (disch := decide) only [blockOf, mkFields, Fields.hdr, bit9, bit48, field_or, field_at, field_low, field_below, field_above, field_past, narrow, or_none, none_or,
    bit_at, bit_below, bit_above, bit_past, BitVec.getLsbD_or, Bool.or_false, Bool.false_or]
theorem prdt (h : Hdr) (d : BitVec 5) (port : BitVec 2) (pt : BitVec 4) : Statement (.prdt h d port pt) := by
  refine of_fields _ rfl rfl fun _ => ?_
  show Except.ok _ = Except.ok _
  simp (disch := decide) only [blockOf, mkFields, Fields.hdr, bit9, bit48, field_or, field_at, field_low, field_below, field_above, field_past, narrow, or_none, none_or,
    bit_at, bit_below, bit_above, bit_past, BitVec.getLsbD_or, Bool.or_false, Bool.false_or]
theorem pwrt (h : Hdr) (a : BitVec 5) (port : BitVec 2) (pt : BitVec 4) : Statement (.pwrt h a port pt) := by
  refine of_fields _ rfl rfl fun _ => ?_
  show Except.ok _ = Except.ok _
  simp (disch := decide) only [blockOf, mkFields, Fields.hdr, bit9, bit48, field_or, field_at, field_low, field_below, field_above, field_past, narrow, or_none, none_or,
    bit_at, bit_below, bit_above, bit_past, BitVec.getLsbD_or, Bool.or_false, Bool.false_or]
theorem pord (h : Hdr) : Statement (.pord h) := of_fields _ rfl rfl fun _ => rfl
theorem cpy (h : Hdr) (blk : BitVec 384) : Statement (.cpy h blk) := by
  refine of_fields _ rfl rfl fun w => ?_
  have hk : ckCopyKind false blk = none := w
  show (if BitVec.extractLsb' 181 2 blk = 1 then Except.ok (Instr.remoteAtomicAdd h blk) else Except.ok (Instr.cpy h blk)) = _
  by_cases hb : BitVec.extractLsb' 181 2 blk = 1 <;> simp_all [ckCopyKind, firstReason]
theorem remoteAtomicAdd (h : Hdr) (blk : BitVec 384) : Statement (.remoteAtomicAdd h blk) := by
  refine of_fields _ rfl rfl fun w => ?_
  have hk : ckCopyKind true blk = none := w
  show (if BitVec.extractLsb' 181 2 blk = 1 then Except.ok (Instr.remoteAtomicAdd h blk) else Except.ok (Instr.cpy h blk)) = _
  by_cases hb : BitVec.extractLsb' 181 2 blk = 1 <;> simp_all [ckCopyKind, firstReason]
theorem cpym (h : Hdr) (k : BitVec 4) (blk : BitVec 384) : Statement (.cpym h k blk) := by
  refine of_fields _ rfl rfl fun _ => ?_
  show Except.ok _ = Except.ok _
  simp (disch := decide) only [blockOf, mkFields, Fields.hdr, bit9, bit48, field_or, field_at, field_low, field_below, field_above, field_past, narrow, or_none, none_or,
    bit_at, bit_below, bit_above, bit_past, BitVec.getLsbD_or, Bool.or_false, Bool.false_or]
theorem gathr (h : Hdr) (blk : BitVec 384) : Statement (.gathr h blk) := of_fields _ rfl rfl fun _ => rfl
theorem cpyst (h : Hdr) (d a : BitVec 5) : Statement (.cpyst h d a) := of_fields _ rfl rfl fun _ => rfl
theorem tbinit (h : Hdr) (a b : BitVec 5) : Statement (.tbinit h a b) := of_fields _ rfl rfl fun _ => rfl
theorem tbarv (h : Hdr) (a : BitVec 5) : Statement (.tbarv h a) := of_fields _ rfl rfl fun _ => rfl
theorem tbarx (h : Hdr) (a b : BitVec 5) : Statement (.tbarx h a b) := of_fields _ rfl rfl fun _ => rfl
theorem tbexp (h : Hdr) (a b : BitVec 5) : Statement (.tbexp h a b) := of_fields _ rfl rfl fun _ => rfl
theorem tbwait (h : Hdr) (a b : BitVec 5) : Statement (.tbwait h a b) := of_fields _ rfl rfl fun _ => rfl
theorem tbtry (h : Hdr) (pd : BitVec 4) (a b : BitVec 5) : Statement (.tbtry h pd a b) := by
  refine of_fields _ rfl rfl fun _ => ?_
  show Except.ok _ = Except.ok _
  simp (disch := decide) only [blockOf, mkFields, Fields.hdr, bit9, bit48, field_or, field_at, field_low, field_below, field_above, field_past, narrow, or_none, none_or,
    bit_at, bit_below, bit_above, bit_past, BitVec.getLsbD_or, Bool.or_false, Bool.false_or]
theorem csrr (h : Hdr) (d : BitVec 5) (n : BitVec 12) : Statement (.csrr h d n) := by
  refine of_fields _ rfl rfl fun _ => ?_
  show Except.ok _ = Except.ok _
  simp (disch := decide) only [blockOf, mkFields, Fields.hdr, bit9, bit48, field_or, field_at, field_low, field_below, field_above, field_past, narrow, or_none, none_or,
    bit_at, bit_below, bit_above, bit_past, BitVec.getLsbD_or, Bool.or_false, Bool.false_or]
theorem csrw (h : Hdr) (a : BitVec 5) (n : BitVec 12) : Statement (.csrw h a n) := by
  refine of_fields _ rfl rfl fun _ => ?_
  show Except.ok _ = Except.ok _
  simp (disch := decide) only [blockOf, mkFields, Fields.hdr, bit9, bit48, field_or, field_at, field_low, field_below, field_above, field_past, narrow, or_none, none_or,
    bit_at, bit_below, bit_above, bit_past, BitVec.getLsbD_or, Bool.or_false, Bool.false_or]
theorem csrscSet (h : Hdr) (d a : BitVec 5) (n : BitVec 12) : Statement (.csrscSet h d a n) := by
  refine of_fields _ rfl rfl fun _ => ?_
  have hk : ∀ ff : BitVec 9, candidate (mkFields 0xE2 h false d a 0 0 ff (n.setWidth 48)) 0 =
      if ff.getLsbD 0 then .ok (Instr.csrscClr h d a (BitVec.extractLsb' 0 12 (n.setWidth 48))) else .ok (Instr.csrscSet h d a (BitVec.extractLsb' 0 12 (n.setWidth 48))) := fun _ => rfl
  refine (hk 0).trans ?_
  rw [if_neg (by decide)]
  simp (disch := decide) only [field_low]
theorem csrscClr (h : Hdr) (d a : BitVec 5) (n : BitVec 12) : Statement (.csrscClr h d a n) := by
  refine of_fields _ rfl rfl fun _ => ?_
  have hk : ∀ ff : BitVec 9, candidate (mkFields 0xE2 h false d a 0 0 ff (n.setWidth 48)) 0 =
      if ff.getLsbD 0 then .ok (Instr.csrscClr h d a (BitVec.extractLsb' 0 12 (n.setWidth 48))) else .ok (Instr.csrscSet h d a (BitVec.extractLsb' 0 12 (n.setWidth 48))) := fun _ => rfl
  refine (hk 1).trans ?_
  rw [if_pos (by decide)]
  simp (disch := decide) only [field_low]
theorem trap (h : Hdr) (n : BitVec 12) : Statement (.trap h n) := by
  refine of_fields _ rfl rfl fun _ => ?_
  show Except.ok _ = Except.ok _
  simp (disch := decide) only [blockOf, mkFields, Fields.hdr, bit9, bit48, field_or, field_at, field_low, field_below, field_above, field_past, narrow, or_none, none_or,
    bit_at, bit_below, bit_above, bit_past, BitVec.getLsbD_or, Bool.or_false, Bool.false_or]
theorem sysc (h : Hdr) (n : BitVec 12) : Statement (.sysc h n) := by
  refine of_fields _ rfl rfl fun _ => ?_
  show Except.ok _ = Except.ok _
  simp (disch := decide) only [blockOf, mkFields, Fields.hdr, bit9, bit48, field_or, field_at, field_low, field_below, field_above, field_past, narrow, or_none, none_or,
    bit_at, bit_below, bit_above, bit_past, BitVec.getLsbD_or, Bool.or_false, Bool.false_or]
theorem rft (h : Hdr) : Statement (.rft h) := of_fields _ rfl rfl fun _ => rfl
theorem nret (h : Hdr) : Statement (.nret h) := of_fields _ rfl rfl fun _ => rfl
theorem feat (h : Hdr) (d : BitVec 5) (n : BitVec 8) : Statement (.feat h d n) := by
  refine of_fields _ rfl rfl fun _ => ?_
  show Except.ok _ = Except.ok _
  simp (disch := decide) only [blockOf, mkFields, Fields.hdr, bit9, bit48, field_or, field_at, field_low, field_below, field_above, field_past, narrow, or_none, none_or,
    bit_at, bit_below, bit_above, bit_past, BitVec.getLsbD_or, Bool.or_false, Bool.false_or]
theorem tlbi (h : Hdr) (a : BitVec 5) : Statement (.tlbi h a) := by
  refine of_fields _ rfl rfl fun _ => ?_
  have hk : ∀ ff : BitVec 9, candidate (mkFields 0xE8 h false 0 a 0 0 ff 0) 0 =
      if ff.getLsbD 0 then .ok (Instr.tlbiOne h a 0) else .ok (Instr.tlbi h a) := fun _ => rfl
  refine (hk 0).trans ?_
  rw [if_neg (by decide)]
theorem tlbiOne (h : Hdr) (a b : BitVec 5) : Statement (.tlbiOne h a b) := by
  refine of_fields _ rfl rfl fun _ => ?_
  have hk : ∀ ff : BitVec 9, candidate (mkFields 0xE8 h false 0 a b 0 ff 0) 0 =
      if ff.getLsbD 0 then .ok (Instr.tlbiOne h a b) else .ok (Instr.tlbi h a) := fun _ => rfl
  refine (hk 1).trans ?_
  rw [if_pos (by decide)]
theorem trc (h : Hdr) (a : BitVec 5) (tag : BitVec 16) : Statement (.trc h a tag) := by
  refine of_fields _ rfl rfl fun _ => ?_
  show Except.ok _ = Except.ok _
  simp (disch := decide) only [blockOf, mkFields, Fields.hdr, bit9, bit48, field_or, field_at, field_low, field_below, field_above, field_past, narrow, or_none, none_or,
    bit_at, bit_below, bit_above, bit_past, BitVec.getLsbD_or, Bool.or_false, Bool.false_or]
theorem lutld (h : Hdr) (a : BitVec 5) : Statement (.lutld h a) := of_fields _ rfl rfl fun _ => rfl
theorem ctxsw (h : Hdr) (a b : BitVec 5) : Statement (.ctxsw h a b) := of_fields _ rfl rfl fun _ => rfl
theorem ckpt (h : Hdr) : Statement (.ckpt h) := of_fields _ rfl rfl fun _ => rfl
theorem halt (h : Hdr) : Statement (.halt h) := of_fields _ rfl rfl fun _ => rfl
theorem fenceo (h : Hdr) : Statement (.fenceo h) := of_fields _ rfl rfl fun _ => rfl
theorem coldReset : Statement .coldReset := of_none rfl
theorem warmReset : Statement .warmReset := of_none rfl
theorem secureBoot (pufOk : Bool) : Statement (.secureBoot pufOk) := of_none rfl
theorem hostLinkTrain (m0 m1 : Bool) : Statement (.hostLinkTrain m0 m1) := of_none rfl
theorem hostLinkModuleFail (md : Nat) : Statement (.hostLinkModuleFail md) := of_none rfl
theorem scaleOutPortFail (port : Nat) : Statement (.scaleOutPortFail port) := of_none rfl
theorem scaleOutPortUp (port : Nat) : Statement (.scaleOutPortUp port) := of_none rfl
theorem remoteRouteTimeout (vat idx : Nat) : Statement (.remoteRouteTimeout vat idx) := of_none rfl
theorem slwAssert : Statement .slwAssert := of_none rfl
theorem supplyLossSequence : Statement .supplyLossSequence := of_none rfl
theorem thermtrip (kind idx : Nat) : Statement (.thermtrip kind idx) := of_none rfl
theorem pstpFrame (bytes : BitVec 128) (idle : Nat) (clean : Bool) : Statement (.pstpFrame bytes idle clean) := of_none rfl
theorem telemetryLost : Statement .telemetryLost := of_none rfl
theorem droopEvaluation : Statement .droopEvaluation := of_none rfl
theorem eceilStep : Statement .eceilStep := of_none rfl
theorem shedGraceExpiry (crew : Nat) : Statement (.shedGraceExpiry crew) := of_none rfl
theorem sensorSample (kind idx : Nat) (val : BitVec 16) : Statement (.sensorSample kind idx val) := of_none rfl
theorem thermalCapDrop (core : Nat) : Statement (.thermalCapDrop core) := of_none rfl
theorem thermalCapRise (quad : Nat) : Statement (.thermalCapRise quad) := of_none rfl
theorem dramThrottle (layer : Nat) : Statement (.dramThrottle layer) := of_none rfl
theorem dramThrottleLift (layer : Nat) : Statement (.dramThrottleLift layer) := of_none rfl
theorem relocationMark (core : Nat) : Statement (.relocationMark core) := of_none rfl
theorem relocation (crew : Nat) : Statement (.relocation crew) := of_none rfl
theorem operatingPointChange (quad : Nat) : Statement (.operatingPointChange quad) := of_none rfl
theorem coreSleep (core : Nat) : Statement (.coreSleep core) := of_none rfl
theorem coreWake (core : Nat) : Statement (.coreWake core) := of_none rfl
theorem energyRefill : Statement .energyRefill := of_none rfl
theorem wsRefreshWindow : Statement .wsRefreshWindow := of_none rfl
theorem structureError (code unit : Nat) (corrected : Bool) (ctx : Nat) : Statement (.structureError code unit corrected ctx) := of_none rfl
theorem selfTestDone (code unit : Nat) (pass : Bool) : Statement (.selfTestDone code unit pass) := of_none rfl
theorem unrecoverableFault (crew core slot : Nat) (byThread : Bool) (addr : BitVec 64) : Statement (.unrecoverableFault crew core slot byThread addr) := of_none rfl
theorem checkpointPeriod (ctx : Nat) : Statement (.checkpointPeriod ctx) := of_none rfl
theorem intervalSeal (ctx : Nat) : Statement (.intervalSeal ctx) := of_none rfl
theorem rollback (ctx : Nat) : Statement (.rollback ctx) := of_none rfl
theorem bar0RegisterWrite (off : Nat) (val : BitVec 64) : Statement (.bar0RegisterWrite off val) := of_none rfl
theorem q0ringWrite (val : BitVec 64) : Statement (.q0ringWrite val) := of_none rfl
theorem q0cplWrite (val : BitVec 64) : Statement (.q0cplWrite val) := of_none rfl
theorem pkgidWrite (val : BitVec 32) : Statement (.pkgidWrite val) := of_none rfl
theorem pstpstRead : Statement .pstpstRead := of_none rfl
theorem kick (q : Nat) (val : BitVec 32) : Statement (.kick q val) := of_none rfl
theorem cplheadWrite (q : Nat) (val : BitVec 32) : Statement (.cplheadWrite q val) := of_none rfl
theorem commandFetch (q : Nat) : Statement (.commandFetch q) := of_none rfl
theorem headerReread (q : Nat) : Statement (.headerReread q) := of_none rfl
theorem completionRecordWrite (q : Nat) : Statement (.completionRecordWrite q) := of_none rfl
theorem nopPacket (q : Nat) : Statement (.nopPacket q) := of_none rfl
theorem launch (q : Nat) : Statement (.launch q) := of_none rfl
theorem copy (q : Nat) : Statement (.copy q) := of_none rfl
theorem hubCopyDone (id : Nat) : Statement (.hubCopyDone id) := of_none rfl
theorem signalStore (q : Nat) : Statement (.signalStore q) := of_none rfl
theorem signalAtomicAdd (q : Nat) : Statement (.signalAtomicAdd q) := of_none rfl
theorem signalArrive (q : Nat) : Statement (.signalArrive q) := of_none rfl
theorem waitv (q : Nat) : Statement (.waitv q) := of_none rfl
theorem waitvReevaluate (q : Nat) : Statement (.waitvReevaluate q) := of_none rfl
theorem waitvTimeout (q : Nat) : Statement (.waitvTimeout q) := of_none rfl
theorem wsload (q : Nat) : Statement (.wsload q) := of_none rfl
theorem wssealSeal (q : Nat) : Statement (.wssealSeal q) := of_none rfl
theorem wssealReopen (q : Nat) : Statement (.wssealReopen q) := of_none rfl
theorem create : Statement .create := of_none rfl
theorem destroy : Statement .destroy := of_none rfl
theorem qset : Statement .qset := of_none rfl
theorem qreset : Statement .qreset := of_none rfl
theorem wsreg : Statement .wsreg := of_none rfl
theorem wsfree : Statement .wsfree := of_none rfl
theorem ckptPacket (q : Nat) : Statement (.ckptPacket q) := of_none rfl
theorem resync : Statement .resync := of_none rfl
theorem preemptSwapOut (q : Nat) : Statement (.preemptSwapOut q) := of_none rfl
theorem preemptRestore (q : Nat) : Statement (.preemptRestore q) := of_none rfl
theorem profileStart (q : Nat) : Statement (.profileStart q) := of_none rfl
theorem profileStop (q : Nat) : Statement (.profileStop q) := of_none rfl
theorem profileSpill (q : Nat) : Statement (.profileSpill q) := of_none rfl
theorem profileAccount : Statement .profileAccount := of_none rfl
theorem qfence (q : Nat) : Statement (.qfence q) := of_none rfl
theorem attest (writeOk : Bool) : Statement (.attest writeOk) := of_none rfl
theorem bbread : Statement .bbread := of_none rfl
theorem fwstage : Statement .fwstage := of_none rfl
theorem fwactivate : Statement .fwactivate := of_none rfl
theorem sensrd : Statement .sensrd := of_none rfl
theorem dbghalt : Statement .dbghalt := of_none rfl
theorem dbgresume : Statement .dbgresume := of_none rfl
theorem dbgstep : Statement .dbgstep := of_none rfl
theorem dbgread : Statement .dbgread := of_none rfl
theorem dbgwrite : Statement .dbgwrite := of_none rfl
theorem dbgcfg : Statement .dbgcfg := of_none rfl
theorem mailboxDone : Statement .mailboxDone := of_none rfl
theorem breakpointHalt (core slot : Nat) : Statement (.breakpointHalt core slot) := of_none rfl
theorem hostMemAccess (write : Bool) (line : Nat) (data : BitVec 512) (mask : BitVec 64) : Statement (.hostMemAccess write line data mask) := of_none rfl
theorem hostHoldTimeout (id : Nat) : Statement (.hostHoldTimeout id) := of_none rfl
theorem placementReserve : Statement .placementReserve := of_none rfl
theorem placementCommit : Statement .placementCommit := of_none rfl
theorem scrimgCopyDone (crew : Nat) : Statement (.scrimgCopyDone crew) := of_none rfl
theorem waitListStarvation (cls : Nat) : Statement (.waitListStarvation cls) := of_none rfl
theorem gangPreempt (crew : Nat) : Statement (.gangPreempt crew) := of_none rfl
theorem swapOut (crew : Nat) : Statement (.swapOut crew) := of_none rfl
theorem crewRestore (crew : Nat) : Statement (.crewRestore crew) := of_none rfl
theorem idleSwap (crew : Nat) : Statement (.idleSwap crew) := of_none rfl
theorem itemDispense (gid task : Nat) : Statement (.itemDispense gid task) := of_none rfl
theorem eosDispense (gid q core slot : Nat) : Statement (.eosDispense gid q core slot) := of_none rfl
theorem graphRetire (gid : Nat) : Statement (.graphRetire gid) := of_none rfl
theorem asyncTrapEntry (core slot : Nat) : Statement (.asyncTrapEntry core slot) := of_none rfl
theorem notifyEntry (core slot : Nat) : Statement (.notifyEntry core slot) := of_none rfl
theorem asyncResultLand (core slot i : Nat) : Statement (.asyncResultLand core slot i) := of_none rfl
theorem accessPerformed (core slot : Nat) : Statement (.accessPerformed core slot) := of_none rfl
theorem sendDelivery (core slot : Nat) : Statement (.sendDelivery core slot) := of_none rfl
theorem putrLand (core slot : Nat) : Statement (.putrLand core slot) := of_none rfl
theorem sendTimeout (core slot : Nat) : Statement (.sendTimeout core slot) := of_none rfl
theorem curdAdmit (core slot : Nat) : Statement (.curdAdmit core slot) := of_none rfl
theorem curdResume (core : Nat) : Statement (.curdResume core) := of_none rfl
theorem closetSwap (core : Nat) : Statement (.closetSwap core) := of_none rfl
theorem movementSwap (core : Nat) : Statement (.movementSwap core) := of_none rfl
theorem pactForm (press : Nat) (tag : BitVec 8) : Statement (.pactForm press tag) := of_none rfl
theorem pactTimeout (core slot : Nat) : Statement (.pactTimeout core slot) := of_none rfl
theorem pressEntryStart (press i : Nat) : Statement (.pressEntryStart press i) := of_none rfl
theorem pactStreamEnd (press : Nat) : Statement (.pactStreamEnd press) := of_none rfl
theorem pactDeliveryDone (press i : Nat) : Statement (.pactDeliveryDone press i) := of_none rfl
theorem pactSuspend (press koff : Nat) : Statement (.pactSuspend press koff) := of_none rfl
theorem pactResume (press : Nat) : Statement (.pactResume press) := of_none rfl
theorem operandFault (press koff : Nat) (own scale : Bool) (addr : BitVec 64) : Statement (.operandFault press koff own scale addr) := of_none rfl
theorem deliveryFault (press i landed : Nat) (addr : BitVec 64) : Statement (.deliveryFault press i landed addr) := of_none rfl
theorem copySectorLand (vat idx sector : Nat) : Statement (.copySectorLand vat idx sector) := of_none rfl
theorem copyFailure (vat idx sector : Nat) (rmt : Bool) : Statement (.copyFailure vat idx sector rmt) := of_none rfl
theorem cpymAccept (core : Nat) : Statement (.cpymAccept core) := of_none rfl
theorem remoteWriteArrive (xfer kind ctx asid : Nat) (va : BitVec 64) (n : Nat) (data : RemotePacket) (last : Bool) :
    Statement (.remoteWriteArrive xfer kind ctx asid va n data last) := of_none rfl
theorem streamElementFetch (core slot sr : Nat) : Statement (.streamElementFetch core slot sr) := of_none rfl
theorem streamElementLand (core slot sr : Nat) (ok : Bool) : Statement (.streamElementLand core slot sr ok) := of_none rfl
theorem tlbiComplete (core slot : Nat) : Statement (.tlbiComplete core slot) := of_none rfl
theorem slwRelease : Statement .slwRelease := of_none rfl
theorem wsloadDone (i : Nat) : Statement (.wsloadDone i) := of_none rfl
theorem remoteHoldWaitTimeout (xfer : Nat) : Statement (.remoteHoldWaitTimeout xfer) := of_none rfl
theorem writeAcknowledge (core slot n : Nat) : Statement (.writeAcknowledge core slot n) := of_none rfl
theorem keyTreeStateLoad : Statement .keyTreeStateLoad := of_none rfl
theorem vstbyFailure : Statement .vstbyFailure := of_none rfl
theorem slotCommandDone (press i : Nat) : Statement (.slotCommandDone press i) := of_none rfl

end Sys2Proof.Laws.RoundTrip
end

