-- ==== Sys2Proof/Laws/Profile.lean ====
section
/-! SUPPORT. Laws of the profile ring: a record changes memory and the context's counts only, and keeps memory's canonical form. -/

namespace Sys2Proof.Machine

theorem ringPut_eq {s t : State} {ctx a : Nat} {bs : List Byte} (h : ringPut s ctx a bs = some t) :
    t = { s with mem := t.mem } ∧ (Memory.wf s.mem = true → Memory.wf t.mem = true) := by
  induction bs generalizing s a with
  | nil => cases h; exact ⟨rfl, id⟩
  | cons b r ih =>
    rw [ringPut] at h
    split at h
    · obtain ⟨h1, h2⟩ := ih h
      exact ⟨by rw [h1]; rfl, fun hw => h2 (wf_setByte hw _ _)⟩
    · cases h

theorem ringPut_getD (s : State) (ctx a : Nat) (bs : List Byte) :
    (ringPut s ctx a bs).getD s = { s with mem := ((ringPut s ctx a bs).getD s).mem } ∧
    (Memory.wf s.mem = true → Memory.wf ((ringPut s ctx a bs).getD s).mem = true) := by
  cases h : ringPut s ctx a bs with
  | none => exact ⟨rfl, id⟩
  | some u => exact ringPut_eq h

/-- What a record of the ring changes. -/
theorem profPut_eq (s : State) (ctx : Nat) (bs : List Byte) :
    profPut s ctx bs = { s with mem := (profPut s ctx bs).mem, ctxs := (profPut s ctx bs).ctxs } ∧
    (Memory.wf s.mem = true → Memory.wf (profPut s ctx bs).mem = true) := by
  unfold profPut
  dsimp only
  split
  · exact ⟨rfl, id⟩
  · split
    · exact ⟨rfl, id⟩
    · split
      · next t ht =>
        obtain ⟨u, hu, hv⟩ := Option.bind_eq_some_iff.mp ht
        obtain ⟨h1, h2⟩ := ringPut_eq hu
        obtain ⟨h3, h4⟩ := ringPut_eq hv
        refine ⟨?_, fun hw => h4 (h2 hw)⟩
        rw [State.modCtx, h3, h1]
      · obtain ⟨h1, h2⟩ := ringPut_getD s ctx _ _
        refine ⟨?_, h2⟩
        rw [State.modCtx, h1]

theorem trace_eq (s : State) (ctx kind tag arg core slot : Nat) :
    trace s ctx kind tag arg core slot =
      { s with mem := (trace s ctx kind tag arg core slot).mem, ctxs := (trace s ctx kind tag arg core slot).ctxs } ∧
    (Memory.wf s.mem = true → Memory.wf (trace s ctx kind tag arg core slot).mem = true) := by
  unfold trace profWrite
  split
  · exact profPut_eq _ _ _
  · exact ⟨rfl, id⟩

/-- A trace record of a barrier: memory, the context's counts and the free values' counter. -/
theorem traceBar_eq (s : State) (kind ap : Nat) :
    traceBar s kind ap = { s with
      mem := (traceBar s kind ap).mem, ctxs := (traceBar s kind ap).ctxs, freeCtr := (traceBar s kind ap).freeCtr } := by
  unfold traceBar traceMe
  split
  · split
    · dsimp only [State.free]
      rw [(trace_eq _ _ _ _ _ _ _).1]
    · rfl
  · rfl

end Sys2Proof.Machine
end

