-- ==== Sys2Proof/Laws/Scalar.lean ====
section
/-! SUPPORT. The integer results of the model are those of the rules: products, quotients, counts, fields. -/

namespace Sys2Proof.Machine

theorem word_ucut (x : Int) : word (ucut x 64) = BitVec.ofInt 64 x := by
  apply BitVec.eq_of_toNat_eq
  have h0 : (0:Int) ≤ x % (2 ^ 64 : Nat) := Int.emod_nonneg _ (by norm_num)
  have h1 : x % (2 ^ 64 : Nat) < 2 ^ 64 := by have := Int.emod_lt_of_pos x (show (0:Int) < (2^64:Nat) by norm_num); simpa using this
  simp only [word, ucut, BitVec.toNat_ofNat, BitVec.toNat_ofInt]
  norm_num at *
  omega

theorem mulHigh_eq (a b : Word) : mulHigh a b = BitVec.ofInt 64 (a.toInt * b.toInt / 2 ^ 64) := by
  rw [← word_ucut]
  unfold mulHigh ucut word
  generalize a.toInt * b.toInt = x
  apply BitVec.eq_of_toNat_eq
  simp only [BitVec.toNat_ofNat]
  norm_num
  omega

theorem divS_eq (a b : Word) : divS a b = if b = 0 then -1 else a.sdiv b := by
  unfold divS
  split
  · rfl
  · rw [word_ucut, ← BitVec.ofInt_toInt (x := a.sdiv b), BitVec.toInt_sdiv]
    apply BitVec.eq_of_toInt_eq
    rw [BitVec.toInt_ofInt, BitVec.toInt_ofInt, Int.bmod_bmod]

theorem remS_eq (a b : Word) : remS a b = if b = 0 then a else a.srem b := by
  unfold remS
  split
  · rfl
  · rw [word_ucut, ← BitVec.ofInt_toInt (x := a.srem b), BitVec.toInt_srem]

theorem divU_eq (a b : Word) : divU a b = if b = 0 then -1 else a.udiv b := by
  unfold divU; split
  · rfl
  · apply BitVec.eq_of_toNat_eq
    have := Nat.div_le_self a.toNat b.toNat
    simp only [word, BitVec.toNat_ofNat, BitVec.udiv_eq, BitVec.toNat_udiv]; exact Nat.mod_eq_of_lt (by have := a.isLt; omega)
theorem remU_eq (a b : Word) : remU a b = if b = 0 then a else a.umod b := by
  unfold remU; split
  · rfl
  · apply BitVec.eq_of_toNat_eq
    have := Nat.mod_le a.toNat b.toNat
    simp only [word, BitVec.toNat_ofNat, BitVec.umod_eq, BitVec.toNat_umod]; exact Nat.mod_eq_of_lt (by have := a.isLt; omega)
theorem clz64_eq (a : Word) : clz64 a = BitVec.ofNat 64 (leadingZeros a) := by
  unfold clz64 leadingZeros bitLen word
  by_cases h : a = 0
  · subst h; rfl
  · have : a.toNat ≠ 0 := fun e => h (BitVec.eq_of_toNat_eq (by simpa using e))
    simp only [h, this, if_false]
    congr 1; omega

theorem trailZeros_eq (v n : Nat) : trailZeros v n = ((List.range n).find? fun i => v.testBit i).getD n := by
  induction n generalizing v with
  | zero => rfl
  | succ n ih =>
    rw [trailZeros, List.range_succ_eq_map, List.find?_cons]
    by_cases h : v.testBit 0
    · simp [h]
    · have hb : v.testBit 0 = false := by simpa using h
      have hf : (List.map Nat.succ (List.range n)).find? (fun i => v.testBit i) =
          ((List.range n).find? fun i => (v / 2).testBit i).map Nat.succ := by
        rw [List.find?_map]; congr 1; congr 1; funext i; simp [Nat.testBit_succ]
      rw [if_neg h, ih, hb, hf]
      cases (List.range n).find? fun i => (v / 2).testBit i <;> simp [Nat.add_comm]

theorem ctz64_eq (a : Word) : ctz64 a = BitVec.ofNat 64 (trailingZeros a) := by
  unfold ctz64 trailingZeros word
  by_cases h : a = 0
  · subst h; rfl
  · rw [if_neg h, trailZeros_eq]; rfl

theorem popCount_eq (v n : Nat) : popCount v n = ((List.range n).filter fun i => v.testBit i).length := by
  induction n with
  | zero => rfl
  | succ n ih =>
    rw [popCount, List.range_succ, List.filter_append, List.length_append, ih]
    by_cases h : v.testBit n <;> simp [b2n, h, Nat.add_comm]

theorem popc_eq (a : Word) : word (popCount a.toNat 64) = BitVec.ofNat 64 (onesIn a) := by
  rw [popCount_eq]; rfl


theorem ofNat_mod_two_pow (b : Word) (n : Nat) (hn : n ≤ 64) :
    BitVec.ofNat 64 (b.toNat % 2 ^ n) = b &&& BitVec.ofNat 64 (2 ^ n - 1) := by
  apply BitVec.eq_of_toNat_eq
  have h1 : 2 ^ n ≤ 2 ^ 64 := Nat.pow_le_pow_right (by decide) hn
  have h2 : 0 < 2 ^ n := Nat.two_pow_pos n
  have h3 := Nat.mod_lt b.toNat h2
  have h4 : b.toNat % 2 ^ n < 2 ^ 64 := by omega
  have h5 : 2 ^ n - 1 < 2 ^ 64 := by omega
  rw [BitVec.toNat_and, BitVec.toNat_ofNat, BitVec.toNat_ofNat, Nat.mod_eq_of_lt h4, Nat.mod_eq_of_lt h5,
    Nat.and_two_pow_sub_one_eq_mod]

theorem insert_eq (a b : Word) (pos : Nat) (len : BitVec 6) :
    insert a b pos len.toNat = (a &&& ~~~(BitVec.ofNat 64 (2 ^ (len.toNat + 1) - 1) <<< pos)) |||
      ((b &&& BitVec.ofNat 64 (2 ^ (len.toNat + 1) - 1)) <<< pos) := by
  rw [insert, setFld, ofNat_mod_two_pow b _ (by have := len.isLt; omega)]

theorem movhi_eq (a : Word) (imm : BitVec 16) : setFld a 48 16 imm.toNat = (a &&& 0x0000FFFFFFFFFFFF) ||| (imm.setWidth 64 <<< 48) := by
  unfold setFld
  have h1 : ~~~(BitVec.ofNat 64 (2 ^ 16 - 1) <<< 48) = 0x0000FFFFFFFFFFFF#64 := by decide
  have h2 : BitVec.ofNat 64 (imm.toNat % 2 ^ 16) = imm.setWidth 64 := by
    apply BitVec.eq_of_toNat_eq; have := imm.isLt; simp; omega
  simp only [h1, h2]; rfl

theorem testBit_top {x n : Nat} (hx : x < 2 ^ (n + 1)) : x.testBit n = decide (2 ^ n ≤ x) := by
  rw [Nat.testBit_eq_decide_div_mod_eq]
  have : x / 2 ^ n < 2 := by rw [Nat.div_lt_iff_lt_mul (Nat.two_pow_pos n)]; rw [Nat.pow_succ] at hx; omega
  have h2 : 2 ^ n ≤ x ↔ 1 ≤ x / 2 ^ n := by rw [Nat.le_div_iff_mul_le (Nat.two_pow_pos n)]; omega
  simp only [h2]
  generalize x / 2 ^ n = q at *
  congr 1; apply propext; omega

/-- Sign extension of n bits as an integer. -/
theorem sext_eq (v n : Nat) (h0 : 0 < n) (hn : n ≤ 64) (hv : v < 2 ^ n) :
    sext v n = BitVec.ofInt 64 (if v < 2 ^ (n - 1) then (v : Int) else v - 2 ^ n) := by
  obtain ⟨k, rfl⟩ : ∃ k, n = k + 1 := ⟨n - 1, by omega⟩
  unfold sext
  have ht := testBit_top hv
  have hk : 2 ^ (k + 1) ≤ 2 ^ 64 := Nat.pow_le_pow_right (by decide) hn
  simp only [Nat.add_sub_cancel, Nat.mod_eq_of_lt hv, ht]
  have hc : ((2:Int) ^ (k + 1)) = ((2 ^ (k+1) : Nat) : Int) := by push_cast; rfl
  rw [hc]
  have hcast (m : Nat) : word m = BitVec.ofInt 64 (m : Int) := by
    apply BitVec.eq_of_toNat_eq; simp [word, BitVec.toNat_ofInt]
  have hP : k + 1 ≥ 64 → 2 ^ (k + 1) = 2 ^ 64 := fun h => by rw [show k + 1 = 64 by omega]
  generalize 2 ^ (k + 1) = P at *
  generalize 2 ^ k = Q at *
  split
  · next h64 =>
    rw [hP h64]
    split
    · exact hcast v
    · rw [hcast]
      apply BitVec.eq_of_toNat_eq
      simp only [BitVec.toNat_ofInt]
      norm_num
  · by_cases h : v < Q
    · simp [h, hcast]
    · have h' : Q ≤ v := by omega
      simp only [h', h, decide_true, if_true, if_false]
      apply BitVec.eq_of_toNat_eq
      simp only [word, BitVec.toNat_ofNat, BitVec.toNat_ofInt]
      norm_num
      omega

theorem extract_eq (a : Word) (pos len : BitVec 6) (sx : Bool) :
    extract a pos.toNat len.toNat sx =
      (if sx then BitVec.ofInt 64 (if fieldOf a pos.toNat (len.toNat + 1) < 2 ^ len.toNat then
        (fieldOf a pos.toNat (len.toNat + 1) : Int) else fieldOf a pos.toNat (len.toNat + 1) - 2 ^ (len.toNat + 1))
      else BitVec.ofNat 64 (fieldOf a pos.toNat (len.toNat + 1))) := by
  have hb : bits a.toNat pos.toNat (len.toNat + 1) = fieldOf a pos.toNat (len.toNat + 1) := by
    rw [bits, fieldOf, Nat.shiftRight_eq_div_pow]
  have hlt : fieldOf a pos.toNat (len.toNat + 1) < 2 ^ (len.toNat + 1) := Nat.mod_lt _ (Nat.two_pow_pos _)
  unfold extract
  simp only [hb]
  cases sx
  · rfl
  · simp only [if_true]
    exact sext_eq _ _ (Nat.succ_pos _) (by have := len.isLt; omega) hlt

theorem nodeChild_eq (n dir : Word) : nodeChild n dir = BitVec.ofNat 64 (2 * n.toNat + 1 + dir.toNat % 2) := by
  apply BitVec.eq_of_toNat_eq
  simp [nodeChild, word, fld, bits]

theorem nodeParent_eq (n : Word) : nodeParent n = if n = 0 then -1 else BitVec.ofNat 64 ((n.toNat - 1) / 2) := by
  unfold nodeParent
  split
  · rfl
  · next h =>
    have h0 : n.toNat ≠ 0 := fun e => h (BitVec.eq_of_toNat_eq (by simpa using e))
    apply BitVec.eq_of_toNat_eq
    have := n.isLt
    rw [BitVec.toNat_ushiftRight, BitVec.toNat_sub, BitVec.toNat_ofNat]
    simp [Nat.shiftRight_eq_div_pow]
    omega

end Sys2Proof.Machine
end

