-- ==== Sys2Proof/Laws/Walks.lean ====
section
/-! SUPPORT. The walks that engines make on their own (R180, R195) change counters alone, and the place of an update among those
that are held changes nothing else (R216). -/

namespace Sys2Proof.Machine

/-- Two states differ in their counters at most. -/
def CountersOnly (s t : State) : Prop := ∃ c, t = { s with counters := c }

theorem CountersOnly.refl (s : State) : CountersOnly s s := ⟨_, rfl⟩

theorem CountersOnly.trans {s t u : State} (h : CountersOnly s t) (g : CountersOnly t u) : CountersOnly s u := by
  obtain ⟨_, rfl⟩ := h
  obtain ⟨_, rfl⟩ := g
  exact ⟨_, rfl⟩

theorem foldl_counters {α : Type} (f : State → α → State) (h : ∀ s x, CountersOnly s (f s x)) (l : List α) (s : State) :
    CountersOnly s (l.foldl f s) := by
  induction l generalizing s with
  | nil => exact .refl s
  | cons x r ih => exact (h s x).trans (ih _)

theorem foldSpan_counters (f : State → Nat → State) (h : ∀ s k, CountersOnly s (f s k)) (n lo : Nat) (s : State) :
    CountersOnly s (foldSpan f s lo n) := by
  induction n generalizing lo s with
  | zero => exact .refl s
  | succ n ih => exact (h s lo).trans (ih _ _)

theorem walked_counters (s : State) (ctx : Nat) (pages : List (Nat × Nat × BitVec 64)) (again : Bool) (va : Word) :
    CountersOnly s (s.walked ctx pages again va) := by
  unfold State.walked
  split
  · exact .refl s
  · exact countWalk_eq _ _ _

/-- What a pact's operands walk on the way of the pact changes counters alone. -/
theorem pressWalks_counters (s : State) (press : Nat) (e : PressEntry) : CountersOnly s (pressWalks s press e) :=
  foldl_counters _ (fun s _ => foldl_counters _ (fun s _ => foldSpan_counters _ (fun _ _ => walked_counters _ _ _ _ _) _ _ _) _ s) _ s

@[simp] theorem holdBar_threads (s : State) (crew : Nat) (src : BarSrc) : (s.holdBar crew src).threads = s.threads := by
  unfold State.holdBar; split <;> rfl
@[simp] theorem holdBar_mem (s : State) (crew : Nat) (src : BarSrc) : (s.holdBar crew src).mem = s.mem := by
  unfold State.holdBar; split <;> rfl
@[simp] theorem madeBar_threads (s : State) (src : BarSrc) : (s.madeBar src).threads = s.threads := by
  unfold State.madeBar; split <;> rfl
@[simp] theorem madeBar_mem (s : State) (src : BarSrc) : (s.madeBar src).mem = s.mem := by
  unfold State.madeBar; split <;> rfl

/-- Where the context is not profiled, an update of a transaction barrier leaves no record. -/
theorem traceTb_eq {s0 s : State} {ctx pa : Nat} {arr : Bool} {who : Option (Nat × Nat)} (h : s.profiled ctx = false) :
    traceTb s0 ctx pa arr who s = s := by
  simp [traceTb, h]

end Sys2Proof.Machine
end

