-- ==== Sys2Proof/Tests/Slice0.lean ====
section
/-! SUPPORT. Tests: words of the encoding tables, ill-formed terms, the first step of a run, and states that meet the hypotheses
of the statements. -/

namespace Sys2Proof.Tests

set_option Elab.async false

open Sys2Proof.Machine

/-! ## Words written out from the tables of R291 to R304 -/

theorem test_decode_integer :
    decodeTableWord 96 0x040003088000000000000000 = some (.sub Hdr.zero 3 1 2) ∧
    decodeTableWord 96 0x2500030800000000000011C5 = some (.extr Hdr.zero 3 1 5 7 true) ∧
    decodeTableWord 96 0x2B0003088006000000000000 = some (.plog Hdr.zero 3 1 2 6) ∧
    decodeTableWord 96 0x2E0003088004000000000000 = some (.nleaf Hdr.zero 3 1 2) ∧
    decodeTableWord 96 0x035E83080000FFFFFFFFFFFF = some (.addi ⟨5, true, 6, 2⟩ 3 1 0xFFFFFFFFFFFF) := by decide +kernel

theorem test_decode_float :
    decodeTableWord 96 0x390003080151000000000000 = some (.fcvt Hdr.zero 3 1 5 1 2) ∧
    decodeTableWord 96 0x3C000300000100003F800000 = some (.fmovi Hdr.zero 3 1 0x3F800000) ∧
    decodeTableWord 96 0x3B0003088011000000000000 = some (.fsgnx Hdr.zero 3 1 2 1) := by decide +kernel

theorem test_decode_control :
    decodeTableWord 96 0x440007000000FFFFFFFFFFFA = some (.loop Hdr.zero 7 0xFFFFFFFFFFFA) ∧
    decodeTableWord 96 0x420000480000000000000000 = some (.jmp Hdr.zero 9) ∧
    decodeTableWord 96 0x460000000000000000000000 = some (.yield Hdr.zero) := by decide +kernel

theorem test_decode_memory :
    decodeTableWord 96 0x53000A088018000000000010 = some (.stx Hdr.zero 10 1 2 3 16) ∧
    decodeTableWord 96 0x56000408815E000000000008 = some (.gath Hdr.zero 4 1 2 2 true 5 3 8) ∧
    decodeTableWord 96 0x5F0004298E06000000000008 = some (.acas Hdr.zero 4 5 6 7 2 true 8) ∧
    decodeTableWord 96 0x61000115C001000000000000 = some (.ldw Hdr.zero 1 2 23 1 false 0 0) := by decide +kernel

theorem test_decode_registers :
    decodeTableWord 96 0x73001C180000000000000002 = some (.qbind Hdr.zero 28 3 2) ∧
    decodeTableWord 96 0x770000088009000000000000 = some (.putr Hdr.zero 1 2 9) ∧
    decodeTableWord 96 0x790000000001000000000000 = some (.tmodeLight Hdr.zero) ∧
    decodeTableWord 96 0x83000008000B000000000000 = some (.sev Hdr.zero 1 11) ∧
    decodeTableWord 96 0x880003088000000000000040 = some (.dqspl Hdr.zero 3 1 2 64) ∧
    decodeTableWord 96 0x8A0000080001000000000000 = some (.itemEos Hdr.zero 1) ∧
    decodeTableWord 96 0x820000000006000000000000 = some (.barw Hdr.zero 6) := by decide +kernel

theorem test_decode_vector :
    decodeTableWord 96 0x93000110C8A9000000000000 = some (.vfma Hdr.zero 1 2 3 4 1 5 2) ∧
    decodeTableWord 96 0xA1000110005A000000000005 = some (.vcvt Hdr.zero 1 2 5 2 3 1) ∧
    decodeTableWord 96 0xB3000110C815000000000001 = some (.vsort Hdr.zero 1 2 3 4 true 5 2) ∧
    decodeTableWord 96 0xB10001100019000000000003 = some (.vunpkq Hdr.zero 1 2 true true 3) ∧
    decodeTableWord 96 0xBC0003480000000000000000 = some (.mset Hdr.zero 3 9) := by decide +kernel

theorem test_decode_press :
    decodeTableWord 96 0xC900000880030000000000AB = some (.prdl Hdr.zero 1 2 3 0xAB) ∧
    decodeTableWord 96 0xCB0005000091000000000000 = some (.prdt Hdr.zero 5 1 9) ∧
    decodeTableWord 96 0xC80000180019000000000000 = some (.psts Hdr.zero 3 1 2 true) ∧
    decodeTableWord 96 0xCD0000000000000000000000 = some (.pord Hdr.zero) := by decide +kernel

theorem test_decode_copy :
    decodeTableWord 96 0xD90003088000000000000000 = some (.tbtry Hdr.zero 3 1 2) ∧
    decodeTableWord 96 0xD30004280000000000000000 = some (.cpyst Hdr.zero 4 5) := by decide +kernel

theorem test_decode_system :
    decodeTableWord 96 0xE10000200000000000000009 = some (.csrw Hdr.zero 4 9) ∧
    decodeTableWord 96 0xE9000020000000000000BEEF = some (.trc Hdr.zero 4 0xBEEF) ∧
    decodeTableWord 96 0xE80000088001000000000000 = some (.tlbiOne Hdr.zero 1 2) ∧
    decodeTableWord 96 0xEB0000088000000000000000 = some (.ctxsw Hdr.zero 1 2) := by decide +kernel

/-- The block is the slots 1 to 4 of the line (R298). -/
theorem test_decode_blocks :
    decodeTableWord 480 (0x7 * 2 ^ 96 + 0x70003A000000000000000000) = some (.sbind Hdr.zero 26 7) ∧
    decodeTableWord 480 (0x9 * 2 ^ 96 + 0xD10020000005000000000000) = some (.cpym Hdr.zero 5 9) ∧
    decodeTableWord 480 (0x2000000000000000000000000000000000000000000000 * 2 ^ 96 + 0xD00020000000000000000000) = some (.remoteAtomicAdd Hdr.zero (1 <<< 181)) ∧
    decodeTableWord 480 (0x4000000000000000000000000000000000000000000000 * 2 ^ 96 + 0xD00020000000000000000000) = some (.cpy Hdr.zero (2 <<< 181)) ∧
    decodeTableWord 480 (0x3000000000000000000000000000000000000000000000000000000000000000000000000000 * 2 ^ 96 + 0xC20020000002000000000007) = some (.pdgr Hdr.zero 2 7 (3 <<< 300)) := by decide +kernel

/-- Unassigned opcodes, a used X bit, a stray field and a reserved code hold no instruction (R302 to R304). -/
theorem test_decode_reserved :
    (∀ op ∈ [0x3D, 0x48, 0x63, 0x7A, 0x8B, 0xBD, 0xCE, 0xDA, 0xEF, 0xF0, 0xFF], decodeTableWord 96 (op * 2 ^ 88) = none) ∧
    decodeTableWord 96 0x020003088200000000000000 = none ∧ decodeTableWord 96 0x300003088004000000000000 = none ∧
    decodeTableWord 96 0x300003088028000000000000 = none ∧ decodeTableWord 96 0x020023088000000000000000 = none := by decide +kernel

/-! ## Ill-formed instructions: one for each check, beside a well-formed one -/

/-- The checks of formats A, I, P and B (R293 to R297). -/
theorem test_wf_scalar :
    (Instr.add Hdr.zero 3 1 2).wellFormed = true ∧ (Instr.ill).wellFormed = false ∧
    (Instr.extr Hdr.zero 3 1 60 10 false).wellFormed = false ∧ (Instr.insr Hdr.zero 3 1 2 60 3).wellFormed = true ∧
    (Instr.insr Hdr.zero 3 1 2 60 4).wellFormed = false ∧ (Instr.cmp Hdr.zero 3 1 2 10).wellFormed = false ∧
    (Instr.cmpi Hdr.zero 3 1 10 0).wellFormed = false ∧ (Instr.fadd Hdr.zero 3 1 2 4 0).wellFormed = false ∧
    (Instr.fadd Hdr.zero 3 1 2 1 5).wellFormed = false ∧ (Instr.fmin Hdr.zero 3 1 2 4).wellFormed = false ∧
    (Instr.fcmp Hdr.zero 3 1 2 1 6).wellFormed = false ∧ (Instr.fcvt Hdr.zero 3 1 4 5 0).wellFormed = false ∧
    (Instr.fcvt Hdr.zero 3 1 1 1 0).wellFormed = false ∧ (Instr.fmovi Hdr.zero 3 1 0x7F800001).wellFormed = false ∧
    (Instr.fmovi Hdr.zero 3 2 0x10000).wellFormed = false ∧ (Instr.br Hdr.zero 5).wellFormed = false := by decide +kernel

/-- The checks of formats M, V, X and S (R293 to R297, R398, R428, R442). -/
theorem test_wf_rest :
    (Instr.ld Hdr.zero 1 2 3 3 true 0 0).wellFormed = false ∧ (Instr.ldx Hdr.zero 9 2 3 0 0).wellFormed = false ∧
    (Instr.ldv Hdr.zero 1 2 3 0 0 0 0).wellFormed = false ∧ (Instr.aadd Hdr.zero 1 2 3 1 false 0).wellFormed = false ∧
    (Instr.amin Hdr.zero 1 2 3 3 true 0).wellFormed = true ∧ (Instr.aadd Hdr.zero 1 2 3 3 true 0).wellFormed = false ∧
    (Instr.sbind Hdr.zero 23 0).wellFormed = false ∧ (Instr.sdrain Hdr.zero 28).wellFormed = false ∧
    (Instr.qbind Hdr.zero 28 0 7).wellFormed = false ∧ (Instr.qbind Hdr.zero 27 0 1).wellFormed = false ∧
    (Instr.qbind Hdr.zero 28 1 1).wellFormed = false ∧ (Instr.qstat Hdr.zero 1 24).wellFormed = false ∧
    (Instr.empty Hdr.zero 23).wellFormed = false ∧ (Instr.isfull Hdr.zero 1 23).wellFormed = false ∧
    (Instr.vadd Hdr.zero 1 2 3 7 0 0).wellFormed = false ∧ (Instr.vadd Hdr.zero 1 2 3 4 0 1).wellFormed = false ∧
    (Instr.vand Hdr.zero 1 2 3 1 0).wellFormed = false ∧ (Instr.vsqrt Hdr.zero 1 2 4 0 0).wellFormed = false ∧
    (Instr.vcmp Hdr.zero 1 2 3 1 0 6).wellFormed = false ∧ (Instr.vred Hdr.zero 1 2 3 1 0 0).wellFormed = false ∧
    (Instr.vred Hdr.zero 1 2 6 5 0 0).wellFormed = false ∧ (Instr.vext Hdr.zero 1 2 8 0).wellFormed = false ∧
    (Instr.vsort Hdr.zero 1 2 3 1 false 5 0).wellFormed = false ∧ (Instr.vfill Hdr.zero 1 6 0 0x10000).wellFormed = false ∧
    (Instr.pclr Hdr.zero 0 1 true).wellFormed = false ∧ (Instr.csrr Hdr.zero 1 0x012).wellFormed = false ∧
    (Instr.csrw Hdr.zero 1 0x101).wellFormed = false ∧ (Instr.cpy Hdr.zero (1 <<< 181)).wellFormed = false ∧
    (Instr.remoteAtomicAdd Hdr.zero 0).wellFormed = false := by decide +kernel

/-! ## States that meet the hypotheses of the statements

`base` is a crew of one core with a worker thread in S mode, its turn come; `duo` is one of two cores with a press between them. A test
that a list of facts holds of what an instruction reads (`o`) and of the state after its checks (`s1`) is a witness of `Issues` with
those facts. -/

def base : State := { benchState State.reset 96 0x010000000000000000000000 with agenda := [], hub := { State.reset.hub with nextCrew := 2 } }

def duo : State :=
  let c := { benchCrew State.reset with
    w := 2, expected := 2, cores := [(0, ⟨0xFFFF, 0, [0]⟩), (1, ⟨0xFFFF, 0, [0]⟩)], bars := Vector.replicate 8 ⟨false, 2, false⟩ }
  { base with crews := [(1, c)] }.setThread 1 0 { benchThread with ref := ⟨1, 1, 0⟩ }

/-- The base state with its thread's registers g1 to g4 set. -/
def withG (s : State) (l : List (Nat × Word)) : State :=
  s.modMe fun t => l.foldl (fun t e => { t with g := t.g.setIfInBounds e.1 e.2 }) t

/-- The instruction issues, and the facts hold of what it has read and of the state after its checks. -/
def meets (i : Instr) (s : State) (f : Ops → State → Bool) : Bool :=
  match bodyOf i with
  | some b => match b.accept s with | .ok (some (o, s1)) => f o s1 | _ => false
  | none => false

theorem issues_of_meets {i : Instr} {s : State} {f : Ops → State → Bool} (h : meets i s f = true) :
    ∃ o s1, Issues i s o s1 ∧ f o s1 = true := by
  unfold meets at h
  split at h
  · next b hb =>
    split at h
    · next o s1 ha => exact ⟨o, s1, ⟨b, hb, ha⟩, h⟩
    · cases h
  · cases h

def H : Hdr := Hdr.zero

/-! ### Computing -/

/-- A thread that steps into a full queue register: its buffer holds a word. -/
def full28 : State := base.modMe fun t =>
  { t with queues := t.queues.setIfInBounds 0 2, outBuf := some ⟨0, 1, none, 5⟩ }

theorem witness_IntegerResults :
    (∀ i ∈ [Instr.add H 3 1 2, .mul H 3 1 2, .div H 3 1 2, .clz H 3 1, .addi H 3 1 5, .extr H 3 1 5 7 true, .sel H 3 1 2 1, .lea H 3 1 2 3 8,
        .pget H 3, .nchild H 3 1 2, .nleaf H 3 1 2, .add H 23 1 2],
      meets i base fun o s1 => (match intValue i o with | some (_, d, _) => decide (giveWait s1 d = none) | none => false) = true) ∧
    meets (.add H 28 1 2) full28 (fun o s1 => (intValue (.add H 28 1 2) o).isSome && (giveWait s1 28).isSome) = true := by
  decide +kernel

theorem witness_FloatResults :
    (∀ i ∈ [Instr.fadd H 3 1 2 1 0, .fcvt H 3 1 5 1 0, .fmovi H 3 1 0, .vext H 3 1 0 0, .vred H 3 1 0 1 0 0, .mpopc H 3 1],
      meets i base fun o s1 => (match floatValue i o with | some (_, d, _) => decide (giveWait s1 d = none) | none => false) = true) ∧
    meets (.fadd H 28 1 2 1 0) full28 (fun o s1 => (floatValue (.fadd H 28 1 2 1 0) o).isSome && (giveWait s1 28).isSome) = true := by
  decide +kernel

theorem witness_PredicateResults :
    (∀ i ∈ [Instr.cmp H 3 1 2 2, .cmpi H 3 1 2 5, .plog H 3 1 2 6, .fcmp H 3 1 2 1 2, .cmp H 0 1 2 2],
      meets i base fun o _ => (predValue i o).isSome) ∧ meets (.isfull H 3 1) base (fun _ _ => true) = true ∧ meets (.pset H 1) base (fun _ _ => true) = true := by decide +kernel

theorem witness_IssueReadsSources : meets (.add H 3 1 2) (withG base [(1, 7), (2, 8)]) (fun o _ => o.a == 7 && o.b == 8) = true := by
  decide +kernel

theorem witness_GoesOn : (bodyOf (.add ⟨0, true, 0, 0⟩ 3 1 2)).map (fun b => (b.early base, base.me.pStop b.h.g, base.me.getP 0)) =
    some (none, none, true) := by decide +kernel

def costly (cap bud : Word) : State := base.modMe fun t => { t with csr := { t.csr with ecost := 5, ecap := cap, ebud := bud } }

def empty1 : State := base.modMe fun t => { t with full := t.full &&& ~~~2#47 }

theorem witness_IssueStops :
    (∀ s ∈ [costly 4 9, costly 5 4], (bodyOf (.add H 3 1 2)).map (fun b => (b.early s, s.me.pStop b.h.g,
      match b.gather s with | .ok (o, _) => fld s.me.csr.ecost 0 16 * b.units o s | .error _ => 0)) = some (none, none, 5)) ∧
    (bodyOf (.add H 3 1 2)).map (fun b => (b.early empty1, b.srcs.head?, empty1.me.isFull 1)) = some (none, some (.a 1), false) := by
  decide +kernel

/-! ### Vectors and masks -/

theorem witness_VectorLanes :
    ∀ i ∈ [Instr.vadd H 1 2 3 1 0 0, .vfma H 1 2 3 4 1 0 0, .vmin H 1 2 3 5 0, .vand H 1 2 3 4 0, .vsqrt H 1 2 1 0 0, .vcvt H 1 2 5 1 0 0,
        .vdot H 1 2 3 4 5 0 0, .vmov H 1 2 1 0, .vbcast H 1 2 1 0, .vfill H 1 5 0 7, .viota H 1 5 0, .vexpnd H 1 2 5 0, .vshuf H 1 2 3 5 0,
        .vlut H 1 2 3 5 0, .vscan H 1 2 0 5 0 0, .vunpkq H 1 2 false false 0],
      meets i base (fun o _ => (laneValue i o).isSome) = true := by decide +kernel

theorem witness_VectorWhole :
    ∀ i ∈ [Instr.vsel H 1 2 3 1 0, .vins H 1 2 7 4, .vcmprs H 1 2 5 0, .vpackq H 1 2 3 false 0, .vsort H 1 2 3 4 true 5 0,
        .vmerge H 1 2 3 4 false 5 0], meets i base (fun _ _ => true) = true := by decide +kernel

theorem witness_MaskResults :
    ∀ i ∈ [Instr.vcmp H 1 2 3 1 0 2, .mlog H 1 2 3 6, .mset H 1 2], meets i base (fun _ _ => true) = true := by decide +kernel

/-! ### Control -/

/-- The thread of `base` with a line of code at 0x10040 too; slots 0 of both lines may be entered. -/
def code2 : State := base.setBytes (benchPA + 64) (bytesOf (tableLine 96 0x010000000000000000000000).toNat 64)

def entered (s : State) (pc : Word) : Bool := match enterLine s s.curCore s.myCtx s.me.user true pc with | (_, .ok _) => true | _ => false

theorem witness_BranchesGo :
    (∀ i ∈ [Instr.br H 8, .brl H 3 8, .jmp H 1, .jmpl H 3 1, .loop H 3 8], meets i (withG code2 [(1, 0x10040), (3, 2)]) fun _ s1 =>
      entered s1 0x10040 && !entered s1 0x10041) ∧
    meets (.loop H 3 8) (withG code2 [(3, 1)]) (fun o _ => o.d == 1) = true ∧
    meets (.nret H) (code2.modMe fun t => { t with notify := true, y := #v[0x10040, 0, 0, 0] })
      (fun _ s1 => entered s1 (vget s1.me.y 0 0)) = true := by decide +kernel

theorem witness_NoEffect :
    (∀ i ∈ [Instr.nop H, .yield H, .tmodeHeavy H], meets i base (fun _ s1 => !s1.me.light) = true) ∧
    meets (.tmodeLight H) (base.modMe fun t => { t with light := true }) (fun _ s1 => s1.me.light) = true := by decide +kernel

theorem witness_WfwAndExit :
    (∀ i ∈ [Instr.wfw H, .exit H], meets i base (fun _ s1 => s1.me.pend.isEmpty && s1.me.outBuf.isNone && !s1.me.pactsOpen s1 &&
      (match drainAll s1 [24, 25, 26, 27] with | .ok _ => true | _ => false)) = true) ∧
    meets (.exit H) full28 (fun _ s1 => s1.me.outBuf.isSome) = true := by decide +kernel

/-! ### Memory: g1 names the own scratchpad, g4 a page of device DRAM, g5 one of the weight store, g6 no page -/

def mem : State :=
  let s := withG base [(1, 0xFFFFFFFF80000100), (2, 8), (4, 0x20000), (5, 0x30000), (6, 0x40000)]
  let s := s.modCore 0 fun c => { c with tlb := ⟨1, 0x20000, 4096, 0, 0x20001F⟩ :: ⟨1, 0x30000, 4096, 0, 0x400000001F⟩ :: c.tlb }
  s.modHub fun h => { h with regions := [(5, ⟨1, 1, 0, 4096, true, 0⟩)] }

/-- The access of a thread succeeds; traps; waits. -/
def accOk (s : State) (va : Word) (n : Nat) (a : Acc) (c : Bool) : Bool := match threadAccess s va n a c with | (_, .ok _) => true | _ => false
def accTrap (s : State) (va : Word) (n : Nat) (a : Acc) (c : Bool) : Bool := match threadAccess s va n a c with | (_, .trap _ _) => true | _ => false
def accWait (s : State) (va : Word) (n : Nat) (a : Acc) (c : Bool) : Bool := match threadAccess s va n a c with | (_, .wait) => true | _ => false

/-- A hold of another agent on the scratchpad bytes that g1 names. -/
def memHeld : State := { mem with holds := [⟨3, 77, true, spmPA 0 0x100, 64, 1⟩] }

theorem witness_LoadsRead :
    meets (.ld H 3 1 23 3 false 0 0) mem (fun _ s1 => decide (giveWait s1 3 = none) && accOk s1 0xFFFFFFFF80000100 8 .read true) = true ∧
    meets (.ld H 3 1 23 3 false 0 1) mem (fun o _ => (o.a + 1).toNat % 8 != 0) = true ∧
    meets (.ld H 3 6 23 0 true 0 0) mem (fun o s1 => accTrap s1 o.a 1 .read true) = true ∧
    meets (.ld H 3 1 23 3 false 0 0) memHeld (fun o s1 => accTrap s1 o.a 8 .read true || accWait s1 o.a 8 .read true) = true ∧
    meets (.ldx H 10 4 23 0 16) mem (fun o s1 => accOk s1 (o.a + 16) 16 .read true) = true := by decide +kernel

theorem witness_VectorAndWeightLoads :
    meets (.ldv H 1 1 23 2 0 0 0) mem (fun o s1 => activeCount 32 o.ma != 0 && o.a.toNat % 64 == 0 && accOk s1 o.a 64 .read true) = true ∧
    meets (.ldv H 1 1 23 2 1 0 0) mem (fun o _ => activeCount 32 o.ma == 0) = true ∧
    (∀ i ∈ [Instr.ldw H 3 5 23 3 false 0 0, .ldvw H 1 5 23 2 0 0 0], ∀ now ∈ [0, 500], meets i { mem with devtime := now } (fun o s1 =>
      match translate s1 s1.curCore s1.myCtx s1.me.user true o.a .read with
      | (s2, .ok x) => (match kindOf x.pa with
        | .ws off => (wsReadCheck s2 s2.myCtx (dieOf s2.curCore) off x.lvl).isNone && !fenced s2 s2.myCtx (dieOf s2.curCore) x.pa x.pte &&
            !s2.poisoned (dieOf s2.curCore) x.pa 64 && (s2.wsDelay s2.curCore s2.meReader x.pa 64).isSome == (now == 0) && decide (giveWait s2 3 = none)
        | _ => false)
      | _ => false) = true) ∧
    meets (.ldvw H 1 5 23 2 0 0 0) mem (fun o _ => activeCount 32 o.ma != 0 && o.a.toNat % 64 == 0) = true ∧
    meets (.ldvw H 1 5 23 2 1 0 0) mem (fun o _ => activeCount 32 o.ma == 0) = true ∧
    meets (.ldw H 3 4 23 3 false 0 0) mem (fun o s1 =>
      match (translate s1 s1.curCore s1.myCtx s1.me.user true o.a .read).2 with
      | .ok x => decide (kindOf x.pa = .dram)
      | _ => false) = true := by decide +kernel

/-- The bytes of a store or atomic of the thread can be stored; or wait for a seal. -/
def stores (s : State) (va : Word) (n : Nat) : Bool := match threadAccess s va n .write false with
  | (s2, .ok x) => (storeLine s2 s2.myCtx (dieOf s2.curCore) x.pa x.pte (bytesOf 5 n)).isSome | _ => false

/-- A context that checkpoints and whose save area has no room for the log. -/
def noRoom : State :=
  let s := mem.modCore 0 fun c => { c with tlb := c.tlb.map fun e => if e.va == 0x20000 then { e with pte := e.pte ||| 1 <<< 61 } else e }
  { s with ctxs := [(1, newCtx State.reset 1 0x200000 0x300000 0 true 0 0)] }

theorem witness_StoresWrite :
    (∀ i ∈ [Instr.st H 3 1 23 3 0 0, .stx H 10 1 23 0 0, .st H 3 4 23 2 0 4], meets i mem (fun o s1 =>
      stores s1 o.a 8 && !s1.ckpts s1.myCtx) = true) ∧
    meets (.st H 3 4 23 3 0 0) noRoom (fun o s1 => match threadAccess s1 o.a 8 .write true with
      | (s2, .ok x) => (storeLine s2 s1.myCtx (dieOf s1.curCore) x.pa x.pte (bytesOf 5 8)).isNone | _ => false) = true := by decide +kernel

/-- A scatter of the thread goes through its lanes; or waits after as many as the head of the agenda gives it. -/
def scats (o : Ops) (s1 : State) : Bool :=
  match laneRun (scatLane o 32 0 0) (activeLanes 32 o.ma) 0 s1 with | .inl _ => true | _ => false
def scatWaits (o : Ops) (s1 : State) : Bool :=
  match laneRun (scatLane o 32 0 0) (activeLanes 32 o.ma) 0 s1 with | .inr (.wait _ _ _) => true | _ => false
def gaths (o : Ops) (s1 : State) : Bool :=
  match laneRun (gathLane o 32 false 0 0) (activeLanes 32 o.ma) o.vd s1 with | .inl _ => true | _ => false
def gathWaits (o : Ops) (s1 : State) : Bool :=
  match laneRun (gathLane o 32 false 0 0) (activeLanes 32 o.ma) o.vd s1 with | .inr (.wait _ _ _) => true | _ => false

/-- The thread's mask register m1 has lane 3 alone, and it has not begun a gather or scatter. -/
def lane3 (l : List Act) : State := { mem with agenda := l }.modMe fun t => { t with m := t.m.setIfInBounds 1 8 }
def fresh3 (s1 : State) : Bool := s1.me.lanes.isNone && match s1.agenda with | .part _ :: _ => false | _ => true

theorem witness_VectorStores :
    meets (.stv H 1 1 23 2 0 0 0) mem (fun o s1 => activeCount 32 o.ma == 16 && o.a.toNat % 64 == 0 && stores s1 o.a 64) = true ∧
    meets (.stv H 1 1 23 2 1 0 0) mem (fun o _ => activeCount 32 o.ma == 0) = true ∧
    meets (.scat H 1 1 2 2 1 0 0) mem (fun o s1 => (activeLanes 32 o.ma).isEmpty && fresh3 s1) = true ∧
    meets (.scat H 1 1 2 2 0 0 0) mem scats = true ∧ meets (.scat H 1 1 2 2 1 0 0) (lane3 [.part 0]) scatWaits = true ∧
    meets (.scat H 1 1 2 2 1 0 0) (lane3 [])
      (fun o s1 => activeLanes 32 o.ma == [3] && fresh3 s1 && stores s1 (o.a + word (lane o.vb 32 3)) 4) = true := by decide +kernel

theorem witness_GatherReads :
    meets (.gath H 1 1 2 2 false 0 0 0) mem gaths = true ∧ meets (.gath H 1 1 2 2 false 1 0 0) (lane3 [.part 0]) gathWaits = true ∧
    meets (.gath H 1 1 2 2 false 1 0 0) (lane3 []) (fun o s1 => activeLanes 32 o.ma == [3] && fresh3 s1 &&
      (gatherVA o 32 false 0 0 3).toNat % 4 == 0 && accOk s1 (gatherVA o 32 false 0 0 3) 4 .read true) = true ∧
    meets (.gath H 1 6 2 2 false 0 0 0) mem (fun o s1 => (activeLanes 32 o.ma).head? == some 0 && fresh3 s1 &&
      accTrap s1 (gatherVA o 32 false 0 0 0) 4 .read true) = true := by decide +kernel

theorem witness_AtomicsUpdate :
    ∀ i ∈ [Instr.aadd H 3 1 2 3 false 0, .aand H 3 1 2 3 false 0, .aor H 3 1 2 3 false 0, .axor H 3 1 2 3 false 0, .axch H 3 1 2 3 false 0,
        .amin H 3 1 2 3 true 0, .amax H 3 1 2 3 false 0, .acas H 3 1 2 3 3 false 0, .afadd H 3 1 2 3 0 0],
      meets i mem (fun o s1 => decide (giveWait s1 3 = none) && stores s1 o.a 8) = true := by decide +kernel

/-! ### Streams, queue registers and readiness -/

/-- A stream record: elements of 8 bytes from an address of the own scratchpad, `n` of them. -/
def sdRec (base n : Nat) : BitVec 384 :=
  BitVec.ofNat 384 (0xFFFF80000000 + base + 3 * 2 ^ 48 + n * 2 ^ 64 + 2 ^ 96 + 8 * 2 ^ 176)

/-- `base` with s0 bound to a write stream whose element is in flight, or stopped. -/
def streaming24 (stop : Option AsyncTrap) : State := base.modStream 24 fun _ =>
  ⟨(sdRec 0x100 4).setWidth 320 ||| (1 <<< 52), 1, stop.isNone, stop.isSome, [⟨5, 0, 0⟩], stop, 9, [], false, false⟩

def drains (s : State) : Nat := match drainStream s 24 with | .ok _ => 0 | .wait _ => 1 | .stopped _ _ => 2

def binds (o : Ops) (s1 : State) : Bool := match drainStream s1 24 with
  | .ok s2 => (match sdPieces s2 o.rcd with
    | (.ok l, .ok ix) => ((l ++ ix).all fun p => holdable p.2.1) &&
      (match register s2.fresh.2 (holdsOf (if bit o.rcd 52 then 7 else 6) s2.fresh.1 s2.myCtx (bit o.rcd 52) (joinPieces l) ++
        holdsOf 6 s2.fresh.1 s2.myCtx false (joinPieces ix)) with | .ok _ => true | _ => false)
    | _ => false)
  | _ => false

theorem witness_StreamsBindAndDrain :
    meets (.sdrain H 24) base (fun _ s1 => drains s1 == 0) = true ∧
    meets (.sdrain H 24) (streaming24 none) (fun _ s1 => drains s1 == 1) = true ∧
    meets (.sdrain H 24) (streaming24 (some ⟨7, 0, 0⟩)) (fun _ s1 => drains s1 == 2) = true ∧
    meets (.sbind H 24 (sdRec 0x100 0)) base (fun o s1 => drains s1 == 0 && !sdFieldsOk s1 o.rcd) = true ∧
    meets (.sbind H 24 (sdRec 0x104 4)) base (fun o s1 => sdFieldsOk s1 o.rcd && !sdAligned o.rcd) = true ∧
    meets (.sbind H 24 (sdRec 0x100 4)) base (fun o s1 => sdFieldsOk s1 o.rcd && sdAligned o.rcd && binds o s1) = true := by
  decide +kernel

theorem witness_StatusWordsAndQbind :
    (∀ i ∈ [Instr.sstat H 3 24, .qstat H 3 28, .cpyst H 3 1, .feat H 3 0, .csrr H 3 0], meets i base (fun _ s1 => decide (giveWait s1 3 = none)) = true) ∧
    meets (.pqry H 3 0 5) duo (fun _ s1 => (myPress s1 0).isSome) = true ∧
    meets (.feat H 28 0) full28 (fun _ s1 => (giveWait s1 28).isSome) = true ∧
    meets (.qbind H 28 1 2) base (fun _ _ => true) = true ∧
    meets (.qbind H 28 1 5) mem (fun _ s1 => accOk s1 (ownVA 0) 16 .read true) = true ∧
    meets (.empty H 3) base (fun _ _ => true) = true := by decide +kernel

theorem witness_PutrMigrTmode :
    meets (.putr H 1 2 3) base (fun _ s1 => s1.me.outBuf.isNone) = true ∧ meets (.putr H 1 2 3) full28 (fun _ s1 => s1.me.outBuf.isSome) = true ∧
    ([((7 : Word), none), (0, some 0), (1, some 1)].all fun c => meets (.migr H 1) (withG (duo.modMe fun t => { t with light := true }) [(1, c.1)])
      fun o s1 => (s1.myCrew.map fun w => w.lindexOf (o.a.toNat % 4096)) == some c.2 && s1.me.pend.isEmpty && s1.me.ref.lcore == 0) = true ∧
    meets (.tmodeLight H) base (fun _ s1 => !s1.me.light) = true ∧
    meets (.tmodeHeavy H) (base.modMe fun t => { t with light := true }) (fun _ s1 => s1.me.light) = true := by decide +kernel

/-! ### Barriers, events, deques and items -/

/-- The own barrier's arrival is outstanding, its phase 0 or, once it has completed, 1. -/
def arrived (ph : Bool) : State :=
  (duo.modCrew 1 fun c => { c with bars := c.bars.setIfInBounds 0 ⟨ph, 2, false⟩ }).modMe fun t => t.setTstat 16 1 1

theorem witness_HardwareBarriers :
    meets (.bar H 0) duo (fun _ s1 => mustWait (arrive s1 0) 0) = true ∧ meets (.bar H 0) base (fun _ s1 => !mustWait (arrive s1 0) 0) = true ∧
    meets (.bara H 0) duo (fun _ _ => true) = true ∧
    meets (.barw H 0) duo (fun _ s1 => !s1.me.csr.tstat.getLsbD 16) = true ∧
    meets (.barw H 0) (arrived false) (fun _ s1 => s1.me.csr.tstat.getLsbD 16 && mustWait s1 0) = true ∧
    meets (.barw H 0) (arrived true) (fun _ s1 => s1.me.csr.tstat.getLsbD 16 && !mustWait s1 0) = true ∧
    (base.crew? 1).any (fun c => (c.bar 0).ap == 1 && !c.shedMark && !c.relocMark && !base.sealPending c.ctx) = true ∧
    (duo.crew? 1).any (fun c => (c.bar 7).ap == 2) = true := by decide +kernel

/-- `base` with graph 0 of its crew, which has some queues. -/
def graphWith (qs : List GQueue) : State := { base with graphs := [(0, {
  q := 1, cmd := 1, seq := 0, ctx := 1, cpl := false, irq := false, args := [], crews := [1], queues := qs, start := 0, err := false, lastQ := []
  lastTo := [], off := 0, bytes := 0, snapOff := 0, qOff := 0, qSnapOff := 0, recOff := 0, scrimg := [] })] }

/-- A queue of one word an item and room for one, that the crew's task feeds; `n` items are in it. -/
def fed (n : Nat) (eos : Bool) : State := graphWith [⟨0, 0xFFFE, 1, 1, 0, List.replicate n [7], n, 0, eos, []⟩]

theorem witness_EventsBuffersAndItems :
    meets (.sev H 1 2) base (fun o s1 => !targetHeld s1 o.a) = true ∧
    meets (.sev H 1 2) (base.modCrew 1 fun c => { c with state := .reloc }) (fun o s1 => targetHeld s1 o.a) = true ∧
    ([(0 : Word), 0x400000000].all fun w => meets (.wev H 2) (base.modMe fun t => { t with csr := { t.csr with tstat := 1 ||| w } })
      fun _ s1 => s1.me.csr.tstat.getLsbD 34 == (w != 0)) = true ∧
    meets (.bfree H 2) base (fun _ s1 => (s1.crew? s1.me.ref.crew).isSome) = true ∧
    ([0, 1].all fun n => meets (.item H 1) (fed n false) fun o s1 => (s1.gqueue? s1.myGraph o.a.toNat).any (fun q => !q.eos) &&
      s1.gqFull s1.myGraph o.a.toNat == (n == 1) && !someoneFirst s1 (keyItem s1.myGraph o.a.toNat)) = true ∧
    meets (.itemEos H 1) (fed 0 false) (fun _ _ => true) = true ∧
    (bodyOf (.item H 1)).any (fun b => (b.early (fed 0 true)).isNone && match b.readOps (fed 0 true) with
      | .ok (o, _) => gqMine (fed 0 true) 0 o.a.toNat && ((fed 0 true).gqueue? 0 o.a.toNat).any (·.eos) | _ => false) = true := by decide +kernel

/-- A deque header in the own scratchpad at 0x100, with room for `cap` entries at 0x200. -/
def dqAt (cap : Nat) : State := mem.setBytes (spmPA 0 0x100) (bytesOf (0xFFFFFFFF80000200 + cap * 2 ^ 64) 64)

theorem witness_DequesOperate :
    ([Instr.dqpush H 3 1 2 0, .dqpop H 3 1 2 0, .dqspl H 3 1 2 0, .dqstl H 3 1 2 0].all fun i => [0, 4].all fun cap =>
      meets i (dqAt cap) fun o s1 => decide (giveWait s1 3 = none) && match threadAccess s1 o.a 64 .write false with
        | (s2, .ok x) => (match kindOf x.pa with | .spm _ _ => true | _ => false) && s2.holds.isEmpty &&
          (let q := readDeque s2 x.pa; q.ok == (cap == 4) && (!q.ok || (dequeArray s2 q x.pa).isSome))
        | _ => false) = true := by decide +kernel

/-! ### Presses, copies and transaction barriers -/

/-- Records of the two ends of one multiply of 16 × 16 × 64 elements. -/
def pmmLead : BitVec 384 := BitVec.ofNat 384 (2^6 + 2^10 + 2*2^16 + 2*2^20 + 2^24 + 2^32 + 2^40 + 2^42 + 2^64 + 2*2^84 + 2^86)
def pmmOther : BitVec 384 := BitVec.ofNat 384 (1 + 2*2^16 + 2*2^20 + 2^24 + 2^32 + 2^40 + 2^42 + 2^64 + 2*2^84 + 2*2^86)

/-- `duo` whose press holds halves or entries; the thread has joined the pacts of the entries. -/
def withHalves (n : Nat) (far : Bool) : State := duo.modPress 0 fun p => { p with
  halves := (List.range n).map fun k => ⟨.pmm, 0, far, BitVec.ofNat 8 (k + 1), ⟨1, 1, 0⟩, 0, 100 + k⟩ }

def entryOf (op : PressOp) (st : PactState) (id : Nat) : PressEntry where
  id := id
  op := op
  recA := pmmLead.setWidth 320
  recB := pmmOther.setWidth 320
  leadFar := false
  tag := 0
  state := st
  lead := ⟨1, 0, 0⟩
  other := ⟨1, 1, 0⟩
  opA := 0
  opB := 0
  slot := 0
  f64 := false
  pt := 0
  kdone := 0
  gran := 0
  flags := 0
  causes := ⟨false, false, false, false⟩
  gang := id
  insn := 0
  addrs := []
  t4a := 0
  t4b := 0
  pdlv := ⟨1, 0, 0⟩
  pages := []
  retrans := false
  abort := false
  userA := false
  userB := false
  delays := []
  landed := false
  doomed := none
  redo := false

def queued (l : List PressEntry) : State :=
  (duo.modPress 0 fun p => { p with queue := l }).modMe fun t => { t with joined := l.map fun e => ⟨0, false, e.tag, e.id⟩ }

def at0 (s1 : State) (f : Nat → Bool → Bool) : Bool := match myPress s1 0 with | some (p, far, _) => f p far | none => false

def gaveUp : PressEntry := { entryOf .pmm .susp 7 with causes := ⟨true, false, false, false⟩ }

/-- `duo` with a descent in DFAULT, whose lead is the thread; g1 and g2 name its new destination and barrier. -/
def redelivers : State :=
  (withG duo [(1, 0xFFFFFFFF80001000), (2, 0xFFFFFFFF00000000)]).modPress 0 fun p => { p with past := [(false, { entryOf .pdsc .dfault 7 with recA := 0x100000004 })] }

theorem witness_PactsJoin :
    meets (.pmm H 0 0 pmmLead) duo (fun o s1 => at0 s1 fun p far =>
      (suspended (s1.press p) far 0 o.rcd).isNone && !tableFull (s1.press p) 0 && !dupHalf (s1.press p) far 0) = true ∧
    meets (.pmm H 0 0 pmmLead) (withHalves 16 true) (fun o s1 => at0 s1 fun p far =>
      (suspended (s1.press p) far 0 o.rcd).isNone && tableFull (s1.press p) 0 && !dupHalf (s1.press p) far 0) = true ∧
    meets (.pmm H 0 0 pmmLead) (queued [gaveUp]) (fun o s1 => at0 s1 fun p far => (suspended (s1.press p) far 0 o.rcd).isSome) = true := by
  decide +kernel

theorem witness_PressWaits :
    meets (.pwait H 0 0) duo (fun _ s1 => s1.me.joined.isEmpty && at0 s1 fun _ _ => true) = true ∧
    meets (.pwait H 0 0) (queued [entryOf .pmm .stream 7]) (fun _ s1 => at0 s1 fun p _ =>
      s1.me.joined.any fun j => decide (j.press = p) && j.tag == 0 && pactLive s1 j.pact) = true ∧
    meets (.pabt H 0 0) duo (fun _ s1 => at0 s1 fun p far => (newestPact (s1.press p) far 0).isNone) = true ∧
    meets (.pord H) base (fun _ _ => true) = true := by decide +kernel

theorem witness_PressCommands :
    ([[], [1, 2, 3, 4]].all fun l => [Instr.pclr H 0 1 false, .pscl H 1 0 1 true, .pwrt H 1 0 2, .prdt H 3 0 2].all fun i =>
      meets i (queued (l.map (entryOf .pclr .queued))) fun _ s1 => at0 s1 fun p _ => (s1.press p).queue.length == l.length) = true ∧
    ([Instr.plds H 1 0 1 false, .psts H 1 0 1 true].all fun i => meets i (withG duo [(1, 0xFFFFFFFF80000000)]) fun o s1 =>
      match register s1.fresh.2 [⟨3, s1.fresh.1, true, spmPA s1.curCore (o.a.toNat % 262144), 32768, s1.myCtx⟩] with
      | .ok s2 => at0 s2 fun p _ => (s2.press p).queue.isEmpty
      | _ => false) = true ∧
    meets (.prdl H 1 2 0 0) redelivers (fun o s1 => at0 s1 fun p far => match faultedPact (s1.press p) far 0 with
      | some e => decide (o.a = sext o.a.toNat 48) &&
        (match rangesPieces s1 s1.curCore s1.myCtx s1.me.user .write
            (redeliverRanges .pdsc (setFld (setFld e.recA 92 48 o.a.toNat) 256 26 (tbField s1 o.b))) with
          | .ok l => (s1.press p).queue.isEmpty &&
            (match register s1.fresh.2 (holdsOf 4 s1.fresh.1 s1.myCtx true (joinPieces l)) with | .ok s2 => (s2.press p).queue.isEmpty | _ => false)
          | _ => false)
      | none => false) = true := by decide +kernel

/-- A movement thread in slot 7 beside the thread of `mem`, whose vat has `n` copies in progress. -/
def mover (n : Nat) : State :=
  let s := mem.setThread 0 7 { mem.me with ref := ⟨1, 0, 7⟩ }
  ({ s with curSlot := 7 }.modVat 0 fun v => { v with copies := (List.range n).map fun k =>
    ⟨100 + k, 0, 0, 0, ⟨1, 0, 7⟩, 0, [], 0, [], 0, [], false, false, [], ⟨false, 0, none, none, 0, none⟩, false⟩ }).modCrew 1 fun c => { c with t := 1 }

/-- A copy of 64 bytes from an address to 0x800 of the own scratchpad. -/
def cpRec (src more : Nat) : BitVec 384 := BitVec.ofNat 384 (src + 0xFFFF80000800 * 2 ^ 48 + 64 * 2 ^ 96 + more)

def enters (k b : Nat) (o : Ops) (s1 : State) : Bool :=
  let c := copyRec o.rcd
  match copyXl s1 (copyRanges k c) with
  | .ok l => (k != 1 || buffersFree s1 (BitVec.ofNat 4 b) c) &&
    (match register s1.fresh.2 (copyHolds s1 k s1.fresh.1 c l) with | .ok _ => !s1.profiled s1.myCtx | _ => false)
  | _ => false

theorem witness_CopiesEnter :
    meets (.cpy H (cpRec 0xFFFF80000100 0)) (mover 0) (fun o s1 => enters 0 0 o s1) = true ∧
    meets (.remoteAtomicAdd H (cpRec 0xFFFF80000100 (2 ^ 180 + 2 ^ 181 + 2 ^ 183))) (mover 0) (fun o s1 => enters 0 0 o s1) = true ∧
    meets (.cpym H 2 (cpRec 0xFFFF80000100 (2 ^ 240))) (mover 0) (fun o s1 => enters 1 2 o s1) = true ∧
    meets (.cpym H 2 (cpRec 0xFFFF80000100 (2 ^ 240))) ((mover 0).modCrewCore 1 0 fun x => { x with bf := 0 }) (fun o s1 =>
      !buffersFree s1 2 (copyRec o.rcd)) = true ∧
    meets (.gathr H (BitVec.ofNat 384 (0x20000 + 0xFFFF80000800 * 2 ^ 48 + 2 * 2 ^ 96 + 2 ^ 185 + 0xFFFF80000100 * 2 ^ 192))) (mover 0)
      (fun o s1 => enters 2 0 o s1) = true ∧
    meets (.cpy H (cpRec 0xFFFF80000100 0)) (mover 32) (fun o s1 => enters 0 0 o s1 && (s1.vat 0).copies.length == 32) = true ∧
    meets (.cpy H (cpRec 0x40000 0)) (mover 0) (fun o s1 => match copyXl s1 (copyRanges 0 (copyRec o.rcd)) with
      | .flt _ _ _ => true | _ => false) = true := by decide +kernel

/-- A barrier of one arrival and a zero count at 0x100 of the own scratchpad; g3 names it. -/
def tbAt (b : Nat) : State := withG (mem.setBytes (spmPA 0 0x100) (bytesOf b 16)) [(3, 0xFFFFFFFF00000100), (2, 0)]

/-- A command that was the first to have an update of crew 1's barriers held. -/
def signalFirst : State :=
  { (tbAt 1).modQueue 1 fun q => { q with cmds := [⟨9, 1, 0, 0x11, 1, false, false, 0, true, 0, 0, []⟩] } with barHeld := [(1, .signal 1 9)] }

theorem witness_BarrierInstructions :
    ([Instr.tbarv H 3, .tbarx H 3 4, .tbexp H 3 4].all fun i => meets i signalFirst fun o s1 => heldHere s1 o.a == some 1) = true ∧
    ([Instr.tbinit H 3 2, .tbarv H 3, .tbarx H 3 4, .tbexp H 3 4, .tbwait H 3 2, .tbtry H 1 3 2].all fun i => [0, 1].all fun b =>
      meets i (tbAt (b + (b + 1) * 0x100010 % 0x200020)) fun o s1 => o.a.toNat % 16 == 0 && (match threadAccess s1 o.a 16 .write false with
        | (s2, .ok x) => (match kindOf x.pa with | .spm _ _ => true | _ => false) && bits (s2.read 0 x.pa 16) 85 43 == 0 && (heldHere s1 o.a).isNone &&
          (match i with
            | .tbarv _ _ => (match barUpdate s2 s2.myCtx x.pa true 0 with | .ok _ => b == 0 | .error _ => b == 1)
            | .tbwait _ _ _ | .tbtry _ _ _ _ => (bits (s2.read 0 x.pa 16) 0 4 == o.b.toNat) == (b == 0)
            | _ => true)
        | _ => false)) = true := by decide +kernel

/-! ### Control registers, traps and the system instructions -/

/-- The thread of `base` in U mode, with its trap registers set. -/
def userMode : State := base.modMe fun t => { t with csr := { t.csr with tstat := 0, tvec := 0x8000, uvec := 0x9000 } }

theorem witness_CsrWrites :
    ([0x000, 0x002, 0x005, 0x009, 0x00B, 0x00D, 0x100].all fun n => [Instr.csrw H 1 n, .csrscSet H 3 1 n, .csrscClr H 3 1 n].all fun i =>
      meets i base fun _ s1 => decide (giveWait s1 3 = none)) = true := by decide +kernel

theorem witness_IllegalAndPrivileged :
    userMode.me.csr.tstat.getLsbD 0 = false ∧ base.me.csr.tstat.getLsbD 0 = true := by decide +kernel

/-- The thread of `base` in a trap handler, of a crew whose graph exists. -/
def nested : State := (fed 0 false).modMe fun t => { t with csr := { t.csr with tnest := 1 } }

theorem witness_TrapEntry :
    userMode.me.csr.tnest.getLsbD 0 = false ∧ (userMode.modMe fun t => { t with csr := { t.csr with tdlg := 2 } }).me.csr.tdlg.getLsbD 1 = true ∧
    nested.me.csr.tnest.getLsbD 0 = true ∧ (nested.crew? nested.me.ref.crew).isSome = true ∧ (nested.ctx? 1).isSome = true := by decide +kernel

theorem witness_TrapAndSysc :
    ([Instr.trap H 5, .sysc H 5].all fun i => meets i userMode fun _ s1 => !s1.me.csr.tnest.getLsbD 0) = true ∧
    fld (costly 4 9).me.csr.ecost 0 16 > fld (costly 4 9).me.csr.ecap 0 40 ∧
    fld (costly 5 4).me.csr.ecost 0 16 ≤ fld (costly 5 4).me.csr.ecap 0 40 ∧ fld (costly 5 4).me.csr.ebud 0 40 < 5 := by decide +kernel

theorem witness_RftReturns :
    meets (.rft H) nested (fun _ s1 => s1.me.csr.tnest == 1) = true ∧
    (let s := userMode.modMe fun t => { t with csr := { t.csr with tstat := 2 } }
     s.me.light = false ∧ s.me.pStop 0 = none ∧ s.me.getP 0 = true ∧ s.me.csr.tstat.getLsbD 0 = false ∧ s.me.csr.tstat.getLsbD 1 = true) := by
  decide +kernel

/-- The thread of `base` waits in a system instruction. -/
def inSystem : State := base.modMe fun t => { t with park := some ⟨.system, t.pc, [(.tlbi H 1, Ops.zero)], some 8, 0, 0, false⟩ }

theorem witness_TablesAndTranslations :
    meets (.trc H 1 7) base (fun _ s1 => !s1.profiled s1.myCtx) = true ∧
    meets (.lutld H 1) mem (fun o s1 => accOk s1 o.a 16 .read true && (s1.crew? 1).isSome) = true ∧
    ([Instr.tlbi H 1, .tlbiOne H 1 2].all fun i => meets i base (fun _ s1 => !s1.waited) && meets i inSystem fun _ s1 => s1.waited) = true := by
  decide +kernel

/-- The context of `base` checkpoints. -/
def checked : State := { base with ctxs := [(1, newCtx State.reset 1 0x200000 0x300000 0x10000 true 0 0)] }

theorem witness_SwapsAndFences :
    meets (.ctxsw H 1 2) (withG base [(1, 1)]) (fun o s1 => o.a.toNat < 8 && (s1.thread s1.curCore o.a.toNat).pend.isEmpty && !o.b.getLsbD 63) = true ∧
    meets (.ctxsw H 1 2) (base.setThread 0 1 { benchThread with ref := ⟨1, 0, 1⟩, pend := [⟨none, [], 0, false, false⟩] } |> fun s => withG s [(1, 1)])
      (fun o s1 => (s1.thread s1.curCore o.a.toNat).occ && !(s1.thread s1.curCore o.a.toNat).pend.isEmpty) = true ∧
    meets (.ckpt H) checked (fun o s1 => unsealed o s1) = true ∧ meets (.ckpt H) base (fun _ s1 => !s1.ckpts s1.myCtx) = true ∧
    meets (.halt H) base (fun _ _ => true) = true ∧
    meets (.fenceo H) checked (fun o s1 => unsealed o s1) = true ∧
    meets (.fenceo H) (base.modMe fun t => { t with unacked := 1 }) (fun o s1 => !unsealed o s1 && s1.me.unacked != 0) = true ∧
    meets (.fenceo H) base (fun o s1 => !unsealed o s1 && s1.me.unacked == 0 && !copiesOut s1 s1.me.ref) = true := by decide +kernel

/-! ### The machine as a whole -/

/-- The first step after the reset of an instruction placed where the next one is fetched: `addi g3, g1, 5`. -/
def firstStep : Option (Word × Word) := match step (State.reset.withFetchWord 96 0x030003080000000000000005) with
  | .next t => some (t.me.pc, t.me.getG 3)
  | _ => none

theorem test_first_step_runs_it : firstStep = some (0x10001, 5) := by decide +kernel

/-- The decoded line of the turn of `test_first_step_runs_it` meets what `StepRunsDecoded` asks. -/
theorem witness_StepRunsDecoded :
    (let s := State.reset.withFetchWord 96 0x030003080000000000000005
     let u := ({ s with agenda := [] }.modMe Thread.tick)
     s.agenda = [.turn 0 0 0] ∧ s.mgmt.stopped = false ∧ u.me.occ = true ∧ u.hasTurn = true ∧ u.me.skip = 0 ∧ u.me.trapDue = false ∧
       u.me.divertible = false ∧ u.me.park = none ∧ u.inMover = false ∧ u.me.line = none ∧
       (match enterLine u u.curCore u.myCtx u.me.user u.me.entry u.me.pc with
         | (_, .ok img) => !linePair img 0 && badSlots img [0] == 0 && xBitOk img 0 && decodeSlot img 0 == .ok (.addi H 3 1 5)
         | _ => false) = true) := by decide +kernel

theorem witness_EncodeDecode : Instr.WellFormed (.add H 3 1 2) ∧ (encode (.add H 3 1 2)).isSome = true :=
  ⟨(Instr.wellFormed_iff _).1 (by decide +kernel), by decide +kernel⟩

theorem witness_ConstantRegisters : base.me.notify = false := by decide +kernel

theorem witness_OnlyColdResetRestarts : Tripped { base with mgmt := { base.mgmt with stopped := true, thermtrip := true } } :=
  ⟨rfl, rfl, fun a h => by cases h⟩

theorem witness_MemoryStaysCanonical : Memory.wf State.reset.mem = true := by decide +kernel

/-! ### The other agents and the inputs -/

/-- A frame of R26 of a sequence number and flags, with its CRC. -/
def frame (seq flags : Nat) : BitVec 128 :=
  let v := 0xA5 + seq * 2 ^ 8 + flags * 2 ^ 48
  let c := crc16 ((List.range 14).map fun i => v / 2 ^ (8 * i) % 256)
  BitVec.ofNat 128 (v + c / 256 * 2 ^ 112 + c % 256 * 2 ^ 120)

def timed (n : Nat) : State := { base with devtime := n }

theorem witness_PowerFollows :
    base.power.due = none ∧ base.power.dueLost = false ∧ base.power.lastSeq = none ∧
    crc16 ((List.range 14).map fun i => (frame 5 0).toNat / 2 ^ (8 * i) % 256) =
      (frame 5 0).toNat / 2 ^ 112 % 256 * 256 + (frame 5 0).toNat / 2 ^ 120 ∧
    crc16 ((List.range 14).map fun i => (frame 5 0 + 2 ^ 112).toNat / 2 ^ (8 * i) % 256) ≠
      (frame 5 0 + 2 ^ 112).toNat / 2 ^ 112 % 256 * 256 + (frame 5 0 + 2 ^ 112).toNat / 2 ^ 120 ∧
    (frame 5 0 + 2 ^ 112).toNat % 256 = 0xA5 ∧ (timed 1000000).power.lastFrame + 1000000 ≤ (timed 1000000).devtime ∧
    (base.modPower fun p => { p with due := some true }).power.dueLost = false := by decide +kernel

def sensed (kind idx : Nat) (v : BitVec 16) : State := (timed 2000000).modMgmt fun m => { m with sensors := [(kind * 65536 + idx, v)] }

def hot0 : State := base.modCore 0 fun c => { c with hot := 10 }

theorem witness_ThermalAndSleep :
    10 ≤ (hot0.core 0).hot ∧
    (let s := (timed 2000000).modPower fun p => { p with coolSince := [(0, 1000000)], caps := [(0, 600)] }
     Tbl.find s.power.coolSince 0 = some 1000000 ∧ s.cap 0 < 800) ∧
    (let s := sensed 3 0 220
     Tbl.find s.mgmt.sensors (3 * 65536) = some 220 ∧ 2 * (s.power.therm.toNat / 256 % 256) < 220 ∧ Tbl.find s.power.throttled 0 = none) ∧
    (let s := (sensed 3 0 100).modPower fun p => { p with throttled := [(0, some 1000000)] }
     Tbl.find s.power.throttled 0 = some (some 1000000) ∧ 100 ≤ 2 * (s.power.therm.toNat / 256 % 256 - 5)) ∧
    (let s := (timed 0).modMgmt fun m => { m with tripDue := some (0, 7) }
     s.mgmt.tripDue = some (0, 7) ∧ s.mgmt.thermtrip = false) ∧ base.mgmt.tripDue = none ∧
    (let s := State.reset.modCore 0 fun c => { c with asleep := false, sleepd := 2 }
     (s.core 0).asleep = false ∧ (s.core 0).sleepd.toNat % 4 ≠ 0 ∧ mayDoze s 0 = true) ∧
    (let s := base.modMe fun t => { t with halted := true }
     (s.core 0).asleep = false ∧ mayDoze s 0 = true ∧ (s.thread 0 0).occ = true ∧ (s.thread 0 0).halted = true) ∧
    (let s := base.modCore 0 fun c => { c with asleep := true }
     (s.core 0).asleep = true ∧ slotStirs s 0 0 = true) ∧
    (let s := State.reset.modCore 0 fun c => { c with asleep := true, sleepd := 3 }
     (s.core 0).asleep = true ∧ s.sleepDepth 0 = 3) := by decide +kernel

def booted : State := State.reset.modHub fun h => { h with ready := true, linkUp := true, pkgid := 0x80000001, portsUp := 2 }

/-- A device whose configuration records have a wrong magic number in both banks. -/
def unbootable : State := State.reset.modMgmt fun m => { m with
  flash := (span (6 * 2 ^ 32) 4 ++ span (7 * 2 ^ 32) 4).map fun k => (k, 0), root := some (Config.pufRoot Config.helperData) }

theorem unbootable_config (b : Bool) : unbootable.bankOk 3 b = false := by
  have h : unbootable.configField b 0 4 = 0 := by cases b <;> decide +kernel
  simp [State.bankOk, State.configOk, h]

theorem witness_BootFails : unbootable.bootBank 3 = none := by simp [State.bootBank, unbootable_config]

theorem witness_ResetsAndPins :
    State.reset.mgmt.pwrgd = true ∧ State.reset.ctxs = [] ∧ State.reset.crews = [] ∧ booted.hub.pkgid.getLsbD 31 = true ∧
    (State.reset.modMgmt fun m => { m with stopped := true }).mgmt.stopped = true ∧
    (State.reset.modHub fun h => { h with slw := true }).hub.slw = true ∧
    (State.reset.modMgmt fun m => { m with slStarted := true }).mgmt.stopped = false ∧
    State.reset.hub.ready = false ∧ State.reset.hub.fwerr = false ∧ booted.mgmt.keyReady = false ∧
    (booted.modHub fun h => { h with linkUp := false }).hub.ready = true ∧ booted.hub.onemod = false ∧
    booted.hub.portsUp.getLsbD 0 = false ∧ booted.portOut 0 = false ∧ (State.reset.modMgmt fun m => { m with verified := true }).mgmt.verified = true ∧ booted.hub.portsUp.getLsbD 1 = true ∧
    unitOk 1 8 = true ∧ unitOk 6 8 = true ∧ booted.mgmt.fences.contains (fenceKey 1 8) = false ∧
    (let s := booted.modMgmt fun m => { m with fences := [fenceKey 3 32] }
     s.mgmt.verified = false ∧ unitOk 3 32 = true ∧ s.mgmt.fences.contains (fenceKey 3 32) = true ∧ s.mgmt.fences.contains (failKey 3 32) = false) := by
  decide +kernel

/-- `base` with a mailbox command and its arguments, debug on or off. -/
def mailed (cmd : Word) (a0 a1 a2 a3 : Word) (dbg : Bool) : State := base.modMgmt fun m => { m with
  mbcmd := cmd ||| 0x8000000000000000, mbstat := 0x8000000000000000, mbarg := #v[a0, a1, a2, a3, 0, 0, 0, 0], mbdone := none, dbgen := dbg
  blackbox := [5], sensors := [(7, 9)] }

theorem witness_MailboxCommands :
    (let s := (mailed 1 1 0 0 0 false).modMgmt fun m => { m with mbdone := some 0 }
     s.mgmt.mbstat.getLsbD 63 = true ∧ s.mgmt.mbdone = some 0) ∧
    (let s := (mailed 0x4000000000000001 1 0 0 0 false).modHub fun h => { h with msixTab := [(0, 1)] }
     s.mgmt.mbcmd.getLsbD 62 = true ∧ s.hub.masked (fld s.mgmt.mbcmd 48 11) = false) ∧
    (let s := mailed 1 0xFFFF 0 0 0 false
     fld s.mgmt.mbcmd 0 16 = 1 ∧ s.mbArg 0 = 0xFFFF) ∧
    (let s := mailed 2 0 1 0 0 false
     fld s.mgmt.mbcmd 0 16 = 2 ∧ s.mbArg 1 = 1 ∧ s.mgmt.blackbox[s.mbArg 0]? = some 5) ∧
    (let s := mailed 3 1 0 4 0 false
     fld s.mgmt.mbcmd 0 16 = 3 ∧ s.mbArg 0 = 1 ∧ s.mbArg 2 ≤ 61440) ∧
    fld (mailed 4 1 0 0 0 false).mgmt.mbcmd 0 16 = 4 ∧
    (let s := mailed 5 0 7 1 0 false
     fld s.mgmt.mbcmd 0 16 = 5 ∧ s.mbArg 2 = 1 ∧ Tbl.find s.mgmt.sensors (s.mbArg 0 * 65536 + s.mbArg 1) = some 9) ∧
    (mailed 0x10 1 0 0 0 false).mgmt.dbgen = false ∧
    (let s := mailed 0x10 1 0 0 0 true
     s.mgmt.dbgen = true ∧ (s.ctx? (s.mbArg 0)).isSome = true) ∧
    (let s := (mailed 0x12 1 0 0 1 true).modMe fun t => { t with halted := true }
     (s.mbThread).any (fun t => t.halted) = true ∧ s.retained (s.mbArg 1) 2 = false ∧ s.mbArg 3 = 1) ∧
    (let s := (mailed 0x15 1 0 0 1 true).modVat 0 fun v => { v with dbgctl := 0x200 }
     s.mbArg 0 < 256 ∧ (s.thread 0 0).ref.crew ≠ 0 ∧ (s.vat (vatOf 0)).dbgctl.getLsbD 9 = true) := by decide +kernel

/-! ### Queues and contexts

`cmdQ q typ l` has one command of a type read on queue q of context q, with the fields l (byte, bytes, value); context 1 maps the pages
0x10000 and 0x20000. -/

def bodyWith (l : List (Nat × Nat × Nat)) : BitVec 512 := l.foldl (fun b x => setFld b (8 * x.1) (8 * x.2.1) x.2.2) 0

def cmdWith (typ : Nat) (l : List (Nat × Nat × Nat)) (begun : Bool) : Cmd := ⟨9, 1, 3, typ, 1, true, true, bodyWith l, begun, 0, 0, []⟩

def cmdQ (q typ : Nat) (l : List (Nat × Nat × Nat)) (begun : Bool) : State :=
  let s := [(0x700000, 0x701001), (0x701000, 0x702001), (0x702000, 0x703001), (0x703080, 0x10001F), (0x703100, 0x20001F)].foldl
    (fun (s : State) x => s.setBytes x.1 (bytesOf x.2 8)) mem
  let s := { s with ctxs := [(1, newCtx State.reset 1 0x700000 0x300000 0x100000 false 0 0)] }
  ({ s with devtime := 5000000 }.modHub fun h => { h with ready := true, linkUp := true, msixTab := [(0, 1)] }).modQueue q fun x =>
    { x with state := .run, ctx := q, ringcfg := 0x8000000000000006, cplcfg := 0x1000004, cmds := [cmdWith typ l begun] }

def addrOk (s : State) (q va : Nat) (a : Acc) : Bool := match packetAddr s q 1 va a false with
  | .ok pa pte => cmdReady s 1 pa pte a && !s.poisoned hubWs pa 8 && (a != .write || (cmdStore s 1 pa pte 5).isSome) | _ => false

/-- The one command of queue q, not begun or begun. -/
def next (s : State) (q typ : Nat) : Bool := (nextCmd s q typ).isSome && noneBegun s q typ
def only (s : State) (q typ : Nat) : Bool := (onlyBegun s q typ).isSome

/-- Registers that the host reads after reset: DEVSTAT, DRPSTAT (Table 6.5), LVL3, PSTPST, QSTAT of queue 5 and an unassigned offset. -/
theorem test_bar0Read_reset : State.reset.bar0Read 0x8 = 0 ∧ State.reset.bar0Read 0x108 = 0x3F3F ∧ State.reset.bar0Read 0x1A8 = 0x6407 ∧
    State.reset.bar0Read 0x11008 = 0x80000000 ∧ State.reset.bar0Read 0x10005010 = 0 ∧ State.reset.bar0Read 0x18 = 0 := by decide +kernel

theorem witness_HostAccess :
    (let s := cmdQ 0 1 [] false
     s.hub.ready = true ∧ s.hostLink = true ∧ (s.queue 0).ringcfg.getLsbD 63 = true ∧ (s.queue 0).state = .run ∧ (s.queue 0).executing = true ∧
       ((s.modQueue 0 fun x => { x with cmds := [] }).queue 0).executing = false ∧ cplRoom (s.queue 0) = true ∧ s.ringBad (cplSlot (s.queue 0) 0) 32 = false ∧ ringOk (0x8000000000000006 &&& 0xFFF0FFFFFFFFF01F) = true ∧
       cplOk 0x1000004 = true) ∧
    State.reset.mgmt.mbstat.getLsbD 63 = false ∧ (State.reset.queue 0).ringcfg.getLsbD 63 = false ∧ State.reset.hub.pkgid.getLsbD 31 = false ∧
    (let s := (cmdQ 0 1 [] false).modQueue 0 fun x => { x with cmds := [], tail := 1, backlog := [] }
     s.cpRuns = true ∧ (arbitrate s).any (fun x => x.1 == 0 && headerOf x.2 (x.2.queue 0) == 0 && x.2.poison.isEmpty && x.2.hub.linkUp) = true) ∧
    (let s := ((cmdQ 0 1 [] false).modQueue 0 fun x => { x with cmds := [], tail := 1 }).setBytes 0 [3, 0, 0, 0, 1, 0, 0, 0]
     let qu := s.queue 0
     headerOf s qu / 2 ^ 16 % 2 ^ 16 = qu.expSeq.toNat ∧ headerStop 0 qu (headerOf s qu) = none ∧ bodyResv 3 0 = true ∧ bodyArgs 3 0 = false) ∧
    (let s := (cmdQ 0 1 [] false).modQueue 0 fun x => { x with state := .wait, rereads := 64, expSeq := 5 }
     s.cpRuns = true ∧ (s.queue 0).rereadAt + 1000 ≤ s.devtime ∧ packetsBad s (s.queue 0) 1 = false ∧ headerOf s (s.queue 0) / 2 ^ 16 % 2 ^ 16 ≠ (s.queue 0).expSeq.toNat ∧ 64 ≤ (s.queue 0).rereads) ∧
    hostWaits State.reset true 64 = false ∧ hostWaits State.reset false 64 = false ∧ State.reset.ctxs = [] ∧ State.reset.hub.hostAccs = [] ∧ booted.hostLink = true ∧
    (let s := { State.reset with devtime := 200000, holds := [⟨0, 5, true, 64, 64, 1⟩] }.modHub fun h => { h with hostAccs := [⟨true, 1, 0, 0, 0⟩] }
     (holdHit s 64 64 .write).isSome = true ∧ s.hub.hostAccs[0]? = some ⟨true, 1, 0, 0, 0⟩) := by decide +kernel

/-- A LAUNCH of a descriptor of one task at 0x20000, whose entry is 0x10000. -/
def launching : State :=
  let s := cmdQ 1 2 [(8, 8, 0x20000)] false
  let d := 0x44475253 + 2 ^ 32 + 2 ^ 48 + 2 ^ 512 * (1 + 2 ^ 16 + 2 ^ 32 + 0x10000 * 2 ^ 64)
  s.setBytes 0x200000 (bytesOf d 128)

theorem witness_QueuePackets :
    (let s := cmdQ 1 1 [] false
     nextCmd s 1 1 = some (cmdWith 1 [] false) ∧ s.ckpts 1 = false ∧ (s.queue 1).ringNext = none ∧ cplRoom (s.queue 1) = true ∧
       s.ringBad (cplSlot (s.queue 1) 0) 32 = false ∧ s.hub.masked (ringVec (s.queue 1).ringcfg) = false) ∧
    ([0, 1].all fun op => next (cmdQ 1 4 [(8, 1, op), (16, 8, 0x20000)] false) 1 4 && addrOk (cmdQ 1 4 [] false) 1 0x20000 .write) = true ∧
    (match packetAddr (cmdQ 1 4 [] false) 1 1 0x40000 .write false with | .fault => true | _ => false) = true ∧
    (let s := (cmdQ 1 4 [(8, 1, 2), (16, 8, 0xFFFFFFFF00000100)] false).setBytes (spmPA 0 0x100) [0x10, 0, 0x10]
     next s 1 4 = true ∧ barTurn s ((windowCrew s 1 0xFFFFFFFF00000100).getD 0) (.signal 1 9) = true ∧ (match barPA s 0 1 0xFFFFFFFF00000100 with
       | some (.inl pa) => tbReserved (s.read hubWs pa 16) == 0 && !fenced s 1 hubWs pa 0 && (holdHit s pa 16 .write).isNone && (match barUpdate s 1 pa true 0 with | .ok _ => true | _ => false)
       | _ => false) = true) ∧
    ([false, true].all fun b => addrOk (cmdQ 1 5 [(8, 8, 0x20000)] b) 1 0x20000 .read && (if b then only (cmdQ 1 5 [] b) 1 5 else next (cmdQ 1 5 [] b) 1 5)) = true ∧
    onlyBegun (cmdQ 1 5 [(36, 4, 7)] true) 1 5 = some (cmdWith 5 [(36, 4, 7)] true) ∧ only (cmdQ 1 5 [(36, 4, 7)] true) 1 5 = true ∧
    next (cmdQ 1 13 [] false) 1 13 = true ∧
    (let s := cmdQ 1 13 [(12, 1, 1), (8, 2, 0)] false
     next s 1 13 = true ∧ (s.queue 0).ctx ≠ 1) ∧
    (let s := (cmdQ 1 13 [(12, 1, 1), (8, 2, 2), (10, 2, 6)] false).modQueue 2 fun x => { x with state := .run, ctx := 1, expSeq := 7 }
     next s 1 13 = true ∧ (s.queue 2).ctx = 1 ∧ (s.queue 2).state = .run ∧ (s.queue 2).cmds = [] ∧ (s.queue 2).expSeq.toNat = (6 + 1) % 65536) ∧
    launching.hub.slw = false ∧
    (match parseDesc launching 1 1 0x20000 with
      | .inl (ts, qs) => ts.findSome? (taskBad launching 1) == none &&
        (match nextCmd launching 1 2 with | some c => (startGraph (beginCmd launching 1 c) 1 c ts qs).isSome | none => false)
      | .inr _ => false) = true ∧
    (match parseDesc (cmdQ 1 2 [(8, 8, 0x20000)] false) 1 1 0x20000 with | .inr _ => true | _ => false) = true ∧
    (let s := cmdQ 0 3 [(8, 8, 0x1000), (16, 8, 0x2000), (24, 8, 64)] false
     (match nextCmd s 0 3 with
       | some c => noneBegun s 0 3 && s.hub.copies.isEmpty && (match copyPlan s 0 c with
         | some p => p.bad.isNone && (match register s p.holds with | .ok _ => true | _ => false) | _ => false)
       | none => false) = true) ∧
    (let s := cmdQ 0 3 [(8, 8, 0x6000000000), (16, 8, 0x2000), (24, 8, 64)] false
     (match nextCmd s 0 3 with
       | some c => (match copyPlan s 0 c with | some p => p.bad == some 0x6000000000 && p.len == 0 | _ => false)
       | none => false) = true) ∧
    (match hubMove (cmdQ 0 3 [] false) ⟨0, 9, 1, [], false, 0x1000, 0x2000, 64, 0, true, none⟩ 0 6 with | .done _ => true | _ => false) = true ∧
    (match hubMove (cmdQ 0 3 [] false) ⟨0, 9, 1, [], false, 0x6000000000, 0x2000, 64, 0, true, none⟩ 0 6 with | .fault _ 0 _ => true | _ => false) = true ∧
    ((cmdQ 0 6 [(8, 2, 5)] false).region? 5).any (fun g => g.sealed) = true ∧
    (let s := (cmdQ 0 6 [(8, 2, 5), (24, 8, 0x1000), (32, 8, 64)] false).modRegion 5 fun g => { g with sealed := false }
     (nextCmd s 0 6).isSome ∧ (s.region? 5).any (fun g => !g.sealed && 64 ≤ g.size) = true ∧ addrOk s 0 0x1000 .read = true ∧
     (match loadWeights s ⟨0, 9, 0, [], false, 0x1000, 5, 64, 0, true, none⟩ 0 1 0 6 with | .done _ => true | _ => false) = true) ∧
    (let s := ((cmdQ 0 6 [(8, 2, 5)] true).modRegion 5 fun g => { g with sealed := false }).modHub fun h => { h with loads := [⟨0, 9, 1, [], false, 0x1000, 5, 64, 0, true, none⟩] }
     (s.hub.loads.find? fun y => y.q = 0).any (fun x => (hubCmd s x).isSome && (s.region? x.dst).any fun g => !g.sealed) = true) ∧
    (let s := cmdQ 0 7 [(8, 2, 5)] false
     next s 0 7 = true ∧ (s.region? 5).isSome ∧ s.hub.loads = []) ∧ next (cmdQ 0 7 [(8, 2, 5), (10, 1, 1)] false) 0 7 = true := by
  decide +kernel

theorem witness_ContextsAndIntervals :
    (ctxCmd (cmdQ 0 8 [(8, 1, 1), (16, 2, 7), (24, 8, 0x400000), (32, 8, 0x500000), (40, 4, 16384)] false) 1).isSome = true ∧
    placesOk 0x400000 0x500000 16384 = true ∧
    ([2, 3, 4, 5, 6].all fun sub => (ctxCmd (cmdQ 0 8 [(8, 1, sub)] false) sub).isSome) = true ∧
    noneBegun (cmdQ 0 8 [] false) 0 8 = true ∧ hubBusy (closeCtx (cmdQ 0 8 [] false) 1) 1 = false ∧ ((cmdQ 0 8 [] false).queue 7).state = .off ∧
    ((cmdQ 0 8 [] false).ctx? 1).isSome = true ∧ ((cmdQ 0 8 [] false).ctx? 7).isSome = false ∧
    (nextCmd (cmdQ 1 9 [] false) 1 9).isSome = true ∧ (cmdQ 1 9 [] false).ckpts 1 = false ∧ checked.ckpts 1 = true ∧
    (nextCmd (cmdQ 0 10 [(8, 8, 0x40000), (16, 4, 4096)] false) 0 10).isSome = true ∧
    (let s := { checked with devtime := 10000000, crews := [] }
     (s.ctx? 1).any (fun c => c.ckpt && !c.sealWanted && c.lastSeal + c.period * 1000 ≤ s.devtime && c.outs.isEmpty) = true) ∧
    (base.crew? 1).isSome = true ∧ (base.thread 0 0).park = none ∧
    (let s := cmdQ 1 11 [(8, 2, 1), (10, 2, 9)] false
     next s 1 11 = true ∧ (nextCmd s 1 11).all (fun c => (preemptTarget s c).isNone) = true) ∧
    ([(0, CrewState.wait), (1, .swapped)].all fun x =>
      let s := { cmdQ 1 11 [(8, 2, 1), (12, 1, x.1)] false with
        graphs := (fed 0 false).graphs, crews := [(1, { benchCrew State.reset with state := x.2 })] }
      match nextCmd s 1 11 with | some c => (preemptTarget s c).any (fun g => g.crews == [1]) | none => false) = true ∧
    ([0, 1, 2].all fun op => [false, true].all fun on =>
      let s := (cmdQ 1 12 [(8, 1, op), (16, 8, 0x20000), (24, 4, 4096)] false).modCtx 1 fun x => { x with profOn := on, profSize := 4096 }
      next s 1 12 && (s.ctx? 1).any fun x => x.profOn == on && x.profSize != 0) = true ∧
    (let s := { base with ctxs := [(1, { newCtx State.reset 1 0x200000 0x300000 16384 false 0 0 with profOn := true })] }
     profCores s s.profiled = [0]) := by decide +kernel

/-! ### Crews, threads and streams -/

/-- The crew of `base` (of graph 0 with one queue that the crew also consumes) in a state; its thread may be parked. -/
def crewIn (st : CrewState) (f : Crew → Crew) (p : Option Park) : State :=
  ((graphWith [⟨0xFFFF, 0, 1, 1, 0, [[7]], 1, 0, false, []⟩]).modCrew 1 fun c => f { c with state := st }).modMe fun t => { t with park := p }

def parked (why : ParkWhy) (key : Nat) (resume : List (Instr × Ops)) : Option Park := some ⟨why, 0x10000, resume, if resume.isEmpty then none else some 0x10001, key, 0, false⟩

def atWfw : Option Park := some ⟨.wfw, 0x10000, [], some 0x10001, 0, 0, false⟩

/-- The crew saved by a gang pre-emption. -/
def preempted : State := match saveCrew (crewIn .run id none) 1 .preempt false with | some s => s | none => base

/-- A crew of class 0 that waits for the whole grid, which one of class 3 stands in. -/
def twoClasses : State :=
  let s := base.modCrew 1 fun c => { c with cls := 3 }
  { s with crews := s.crews ++ [(2, { benchCrew State.reset with state := .wait, started := true, cls := 0, h := 64, w := 64, t := 7 })] }

theorem witness_CrewsMove :
    (let s := { crewIn .wait id none with threads := [] }
     s.hub.placing = none ∧ (match choose s (waitList s) with | some (.place n r k) => n == 1 && r == 0 && k == 0 | _ => false) = true) ∧
    (match choose twoClasses (waitList twoClasses) with | some (.displace _ _ _ _ _) => true | _ => false) = true ∧
    (let s := { crewIn .resv (fun c => { c with cls := 0 }) none with threads := [] }.modHub fun h => { h with placing := some 1 }
     s.hub.placing = some 1 ∧ (s.crew? 1).any (fun c => c.state == .resv && c.cls == 0) = true) ∧
    (let s := { crewIn .load id none with threads := [] }.modHub fun h => { h with placing := some 1 }
     (s.crew? 1).any (fun c => c.state == .load && c.saved.isNone) = true ∧ s.vats = []) ∧
    (let s := crewIn .init id none
     (s.crew? 1).any (fun c => c.state == .init && !s.shedClass c.cls && (s.graph? c.graph).isSome) = true ∧
     (match readRange s 1 0 0 with | .inl _ => true | _ => false) = true) ∧
    (let s := crewIn .run (fun c => { c with swapWanted := true, shedMark := true, graceAt := some 0 }) none
     (s.crew? 1).any (fun c => canSpill s 1 c) = true) ∧
    (let s := { crewIn .run id atWfw with graphs := [] }
     (s.crew? 1).any (fun c => crewIdle s 1 c) = true) ∧
    (let s := { twoClasses with graphs := [] }.modMe fun t => { t with park := atWfw }
     (s.crew? 1).any (fun c => crewIdle s 1 c && canSpill s 1 c) = true ∧ waitList s ≠ []) ∧
    ((preempted.modCrew 1 fun c => { c with swapWanted := true }).crew? 1).any (fun c => c.state == .preempt && c.saved.isSome && c.swapWanted) = true ∧
    (preempted.crew? 1).any (fun c => c.state == .preempt && c.saved.isSome && mayRestore preempted 1 c) = true ∧
    (resumeCrew preempted 1).isSome = true := by decide +kernel

/-- The crew's core has been hot for 2 ms. -/
def hotCore : State := { base with devtime := 2000000 }.modCore 0 fun c => { c with hotSince := some 0, temp := 500 }

theorem witness_CrewsLeaveHotCores :
    ((hotCore.core 0).hotSince == some 0 && 4 * fld hotCore.power.therm 0 8 < (hotCore.core 0).temp &&
      ((hotCore.crewsOn 0).find? fun e => decide (e.2.state = .run) && (coolestRect hotCore e.1 e.2).isSome).isSome) = true ∧
    (let s := hotCore.modCrew 1 fun c => { c with state := .parked, relocMark := true }
     s.vats.isEmpty && (match s.crew? 1 with
       | some c => !s.sealPending c.ctx && (match coolestRect s 1 c, saveCrew s 1 .reloc true with
         | some (r, k), some u =>
           let v := (flushSlices u ((span 0 c.n).map c.phys)).modCrew 1 fun c => { c with prow := r, pcol := k, relocMark := false }
           !v.shedClass c.cls && (resumeCrew v 1).isSome
         | _, _ => false)
       | none => false)) = true := by decide +kernel

theorem witness_ItemsAndRetirement :
    (let s := crewIn .run id atWfw
     (s.graph? 0).any (fun g => (itemCrew s g 0).any (fun c => c.1 == 1)) = true ∧ s.me.wantsItem = true ∧
       (s.gqueue? 0 0).any (fun x => x.items == [[7]]) = true) ∧
    (let s := { crewIn .run id atWfw with graphs := (graphWith [⟨0xFFFF, 0, 1, 1, 0, [], 1, 1, true, []⟩]).graphs }
     (s.gqueue? 0 0).any (fun x => x.eos && x.items.isEmpty && !x.eosTo.contains s.me.tokenName) = true ∧ s.me.wantsItem = true) ∧
    (let s := { graphWith [] with threads := [] }.modCrew 1 fun c => { c with expected := 0 }
     (s.graph? 0).any (fun g => mayRetire s g) = true) := by decide +kernel

/-- The thread of `base` with pending traps, notifies, results and buffered words. -/
def busy (f : Thread → Thread) : State := { duo.modMe f with devtime := 200000 }

def loadWaits : Instr × Ops := (.ld H 3 1 23 3 false 0 0, { Ops.zero with a := 0xFFFFFFFF80000100 })

theorem witness_ThreadsGoOn :
    (let s := busy fun t => { t with atraps := [⟨0x0F, 0, 0⟩] }
     (s.at 0 0).hasTurn = true ∧ (s.at 0 0).me.skip = 0 ∧ (s.at 0 0).me.csr.tnest.getLsbD 0 = false ∧ (s.at 0 0).me.atBoundary = true) ∧
    (busy fun t => { t with nq := [⟨0x100, 1, false⟩] }).me.divertible = true ∧
    (let s := busy fun t => { t with pend := [⟨none, [], 0, false, false⟩] }
     s.me.pend[0]? = some ⟨none, [], 0, false, false⟩ ∧ s.me.frozen = false) ∧
    (let s := busy fun t => { t with park := parked .memory 0 [loadWaits] }
     s.retryable 0 0 = parked .memory 0 [loadWaits] ∧ (bodyOf loadWaits.1).isSome = true) ∧
    ([none, some 3].all fun k =>
      let s := (busy fun t => { t with outBuf := some ⟨1, 0, k, 5⟩ }).setThread 1 0 { benchThread with ref := ⟨1, 1, 0⟩, full := ~~~(8 : BitVec 47) }
      (match s.target 1 1 0 with | some r => (s.ref? r).any (fun x => x.occ && !x.exited && x.inq.isEmpty && !x.isFull 3 && !x.awaits (.g 3 0) && !x.parkWrites 3 && !s.retained 1 2) | none => false)
        && (s.crew? 1).any (fun c => c.accepts)) = true ∧
    (let s := busy fun t => { t with park := parked .message 5 [], timer := 200000 }
     fld s.me.csr.sndtmo 0 20 ≠ 0 ∧ fld s.me.csr.sndtmo 0 20 * 1000 ≤ s.me.timer) ∧
    (let s := busy fun t => { t with park := parked .exit 0 [], outBuf := some ⟨1, 0, none, 5⟩, timer := 200000 }
     s.me.atraps ++ s.me.atrapsHeld = []) ∧
    (busy fun t => { t with unacked := 2 }).me.unacked = 2 ∧ (busy id).ctx? 1 ≠ none := by decide +kernel

def curd0 : Curd := ⟨Vector.replicate 10 0, 0x3FF, 0x10000, 1, 1, 0, true, 0, 0, 0, 0, 1, 0, []⟩

theorem witness_CurdsAndStreams :
    (let s := duo.modMe fun t => { t with light := true, park := some ⟨.migrate, 0x10000, [], some 0x10001, 2, 0, false⟩ }
     (s.crew? 1).any (fun c => c.state.holds && c.phys 1 == 1) = true ∧ (s.core 1).runq = []) ∧
    (let s := (duo.modCore 1 fun c => { c with runq := [curd0] }).setThread 1 0 { benchThread with ref := ⟨1, 1, 0⟩, occ := false }
     (nextCurd s 1).isSome = true) ∧
    (let s := { base with closet := [(0, ⟨{ benchThread with ref := ⟨1, 0, 7⟩, mboxFull := 1 }, 0⟩)] }
     (s.thread 0 7).occ = false ∧ s.retained 0 2 = false ∧ (mailWaits s 0).isSome = true) ∧
    (let s := base.modStream 24 fun _ => ⟨(sdRec 0x100 4).setWidth 320, 0, true, false, [], none, 9, [], false, false⟩
     (s.stream 24).bound = true ∧ (s.stream 24).isWrite = false ∧ 0 < (s.stream 24).total ∧
       (match streamPlace s (s.stream 24) 0 with
         | .ok u va => (match streamRead u (s.stream 24) va 8 (newElemLine (s.stream 24).desc 0 va) with | .ok _ _ => true | _ => false) | _ => false) = true) ∧
    (let s := base.modStream 24 fun _ => ⟨(sdRec 0x80000000 4).setWidth 320, 0, true, false, [], none, 9, [], false, false⟩
     (match streamPlace s (s.stream 24) 0 with
       | .ok u va => (match streamRead u (s.stream 24) va 8 (newElemLine (s.stream 24).desc 0 va) with | .flt _ _ => true | _ => false) | _ => false) = true) ∧
    (let b := (streaming24 none).stream 24
     b.isWrite = true ∧ b.bound = true ∧ b.stopped = false ∧
       (match streamPlace (streaming24 none) b 0 with
         | .ok u va => (engineStore u (b.reader (streaming24 none)) va.toNat (bytesOf 5 8)).isSome | _ => false) = true) := by decide +kernel

/-! ### Presses and copies that run -/

/-- The two halves of the multiply, the second with a record of its own. -/
def both (other : BitVec 384) : State := duo.modPress 0 fun p => { p with
  halves := [⟨.pmm, pmmLead.setWidth 320, false, 0, ⟨1, 0, 0⟩, 0, 7⟩, ⟨.pmm, other.setWidth 320, true, 0, ⟨1, 1, 0⟩, 0, 8⟩] }

/-- One entry on the press of `duo`. -/
def withEntry (e : PressEntry) : State := duo.modPress 0 fun p => { p with queue := [e] }

def pmmIn (st : PactState) : PressEntry := entryOf .pmm st 7

/-- Its lead's operand is in memory that is not mapped. -/
def unread (st : PactState) : PressEntry := { pmmIn st with recA := setFld (setFld (pmmLead.setWidth 320) 84 4 0) 128 48 0x40000 }

/-- A delivery to unmapped memory, or to the lead's scratchpad. -/
def delivering (va : Nat) : PressEntry := { pmmIn .deliver with recA := setFld (pmmLead.setWidth 320) 192 48 va }

/-- An entry whose B operand is a sealed weight region's, in whose bank group a refresh window is open; a state with it. -/
def weightsIn (st : PactState) : PressEntry := { pmmIn st with recB := setFld (setFld (pmmOther.setWidth 320) 84 4 3) 128 48 0x10000 }

def withWeights (e : PressEntry) : State :=
  let s := [(0x700000, 0x701001), (0x701000, 0x702001), (0x702000, 0x703001), (0x703080, 0x400000001F)].foldl
    (fun (s : State) x => s.setBytes x.1 (bytesOf x.2 8)) (withEntry e)
  { s with ctxs := [(1, newCtx State.reset 1 0x700000 0x300000 0x100000 false 0 0)] }.modHub fun h => { h with regions := [(5, ⟨1, 15, 0, 2 ^ 20, true, 0⟩)] }

theorem witness_PactsRun :
    (match bothHalves ((both (pmmOther ||| 0x2000000)).press 0) 0 with
      | some (a, b) => agreeOf a.op a.rcd != agreeOf b.op b.rcd | none => false) = true ∧
    (match bothHalves ((both pmmLead).press 0) 0 with
      | some (a, b) => agreeOf a.op a.rcd == agreeOf b.op b.rcd && a.rcd.getLsbD 0 == b.rcd.getLsbD 0 | none => false) = true ∧
    (match bothHalves ((both pmmOther).press 0) 0 with
      | some (a, b) => agreeOf a.op a.rcd == agreeOf b.op b.rcd && !a.inGang && (match pairOf 0 a b with
        | some x => (match pairHolds (both pmmOther) x x.lead.id x.lead.id with
          | .ok (h, _) => (match register ((both pmmOther).dropHolds x.lead.id fun _ => true) (h.map (·.hold)) with | .ok _ => true | _ => false)
          | _ => false)
        | none => false)
      | none => false) = true ∧
    pressCauses (withEntry (pmmIn .queued)) 0 (pmmIn .queued) = false ∧
    ([PressOp.pclr, .prdl].all fun op => !pressHeld (withEntry (entryOf op .queued 7)) 0 (entryOf op .queued 7)) = true ∧
    ([0, 2].all fun dlv => let e := { pmmIn .stream with recA := pmmLead.setWidth 320 ||| BitVec.ofNat 320 dlv }
      (match streaming ((withEntry e).press 0) with
        | some (_, e) => !e.abort && !gangCauses (withEntry e) e && !gangFault (withEntry e) e && e.delivers == (dlv == 2) &&
          (match advance (withEntry e) 0 e e.total with | .ok _ _ => true | _ => false)
        | none => false)) = true ∧
    (let e := { pmmIn .stream with abort := true }
     (match active ((withEntry e).press 0) with
       | (_, e) :: _ => stopPoint e 0 && e.state == .stream && (match advance (withEntry e) 0 e 0 with
         | .ok q fl => (cancelPact ((withEntry e).modPress 0 fun _ => q) 0 { e with flags := fl }).made | _ => false)
       | _ => false) = true) ∧
    (let e := pmmIn .stream
     let s := (withEntry e).modCrew 1 fun c => { c with state := .parked }
     (match active (s.press 0) with
       | (_, e) :: _ => gangCauses s e && stopPoint e 0 && (match advance s 0 e 0 with | .ok _ _ => true | _ => false)
       | _ => false) = true) ∧
    (let s := withEntry (pmmIn .susp)
     (match suspendedEntries (s.press 0) with | (_, e) :: _ => !gangCauses s e && !gangFault s e && refetchOk s 0 e | _ => false) = true) ∧
    (let e := { weightsIn .stream with delays := [] }
     (match advance (withWeights e) 0 e e.total with | .delay _ _ _ _ => true | _ => false) = true) ∧
    (let s := (both pmmOther).modMe fun t => { t with park := parked .pact 7 [], timer := 1000000, joined := [⟨0, false, 0, 7⟩] }
     (waitedPact s s.me).isSome = true ∧ fld s.me.csr.pactmo 0 20 ≠ 0 ∧ fld s.me.csr.pactmo 0 20 * 1000 ≤ s.me.timer) ∧
    (let s := { (both pmmOther).modPress 0 (fun p => { p with halves := p.halves.take 1 }) with holds := [] }
     halfMatched s ⟨0, false, 0, 7⟩ = false) := by decide +kernel

theorem witness_PressesTellAndFinish :
    (let s := withEntry (unread .stream)
     (match active (s.press 0) with
       | (_, e) :: _ => stopPoint e 0 && !e.abort && (match advance s 0 e 0 with
         | .ok _ _ => readsAt s 0 e 0 false false 0x40000 && readFails s (e.reader s 0 true) (e.weight false) 0x40000
         | _ => false)
       | _ => false) = true) ∧
    (let s := (withEntry (unread .susp)).modMe fun t => { t with park := some ⟨.pact, 0x10000, [], some 0x10001, 7, 0, false⟩ }
     (active (s.press 0)).isEmpty = true ∧ (reissuer s 0 (unread .susp) false).isSome = true ∧ gangFault s (unread .susp) = false ∧
       readsAt s 0 (unread .susp) 0 false false 0x40000 = true ∧ readFails s ((unread .susp).reader s 0 true) false 0x40000 = true) ∧
    (let e := delivering 0xFFFF80001000
     let s := withEntry e
     pressHalted s 0 1 = false ∧
       (match engineStores s (e.reader s 0 true) (deliveryWrites (s.press 0) e).1 with
         | some u => (countN (u.dropHolds e.gang fun h => h.write) (e.core 0 true) 1 e.tb (.press 7) e.granules.length).made
         | none => false) = true) ∧
    (let e := delivering 0x40000
     let s := withEntry e
     (granulesOf (deliveryWrites (s.press 0) e).1)[0]? = some (0x40000 / 64) ∧ storeFails s (e.reader s 0 true) 0x40000 = true ∧
       (errorAt (failGang (enterDfault s 0 e false 0x40000) 7 0x40000) (e.core 0 true) 1 e.tb (uncounted s e) (.press 7)).made = true) ∧
    ([PressOp.pclr, .pscl, .plds, .psts, .prdt, .pwrt].all fun op => ((withEntry (entryOf op .stream 7)).press 0).queue[0]? == some (entryOf op .stream 7)) = true ∧
    (withEntry (entryOf .plds .stream 7)).poisoned 0 (spmPA 0 0) 16384 = false ∧
    ({ withEntry (entryOf .plds .stream 7) with poison := [spmPA 0 0 / 64] }).poisoned 0 (spmPA 0 0) 16384 = true ∧
    (giveAwaited (withEntry (entryOf .prdt .stream 7)) ⟨1, 0, 0⟩ 3 5).isSome = true := by decide +kernel

/-- A movement thread's copy that has been accepted. -/
def copying (rcd : BitVec 384) (mask : Nat) (heldAt : Option Nat) : State := (mover 0).modVat 0 fun v => { v with copies := [⟨7, 0, rcd.setWidth 320, 0, ⟨1, 0, 7⟩, 0, [], 0, [], 0, [], false, false, [], ⟨false, mask, none, none, 0, heldAt⟩, false⟩] }

/-- Context 1 with its two pages, and a port of the package up. -/
def linkedQ : State := (cmdQ 1 1 [] false).modHub fun h => { h with pkgid := 0x80000001, portsUp := 2 }

theorem witness_CopiesRun :
    (let s := copying (cpRec 0xFFFF80000100 0) 0 none
     (match movable s 0 0 with
       | some g => 0 < g.cmd.units && !g.cmd.has 0 && (match landUnit s g 0 false with
         | (.ok u _, fl) => canCount u g 0 fl | _ => false)
       | none => false) = true) ∧
    (let s := copying (cpRec 0x40000 0) 0 none
     (match movable s 0 0 with
       | some g => (match (landUnit s g 0 false).1 with | .flt c va _ => canStop s g 1 c va 0 | _ => false)
       | none => false) = true) ∧
    (let s := copying (cpRec 0xFFFF80000100 (9 * 2 ^ 160 + 2 ^ 180)) 0 none
     (match movable s 0 0 with
       | some g => g.rcd.rem && (match (landUnit s g 0 false).1 with | .rmt va => canStop s g 2 0x1A va 0 | _ => false)
       | none => false) = true) ∧
    (let s := { copying (cpRec 0xFFFF80000100 (9 * 2 ^ 160 + 2 ^ 180)) 2 none with devtime := 10000000 }
     (match movable s 0 0 with
       | some g => g.rcd.rem && !g.cmd.route.own && g.cmd.route.pmask == 2 && !s.portLive 1 && g.cmd.route.port.isNone &&
         g.cmd.route.since + 10000000 ≤ s.devtime && canStop s g 2 0x1A (g.remoteVA s g.cmd.next) 0
       | none => false) = true) ∧
    (let s := linkedQ
     (match remotePieces s 1 hubWs false 0x20000 64 true with
       | .ok l => let hs := destHolds (xferOwner 5) 1 l
         s.linked && remoteForm 0 0x20000 64 0x20000 64 && (hs.all fun h => (holdConflict s h.owner true h.lo h.len).isNone) && holdsFit s hs &&
           (match remoteWrite (s.addHolds hs) 1 hubWs false 0x20000 (some (xferOwner 5)) (fun _ _ => bytesOf 5 64) with | .ok _ _ => true | _ => false)
       | _ => false) = true) ∧
    (let s := { linkedQ with holds := [⟨0, 9, true, 0x200000, 64, 1⟩] }
     (match remotePieces s 1 hubWs false 0x20000 64 true with
       | .ok l => (destHolds (xferOwner 5) 1 l).any fun h => (holdConflict s h.owner true h.lo h.len).isSome
       | _ => false) = true) ∧
    (let s := linkedQ
     (match remotePieces s 1 hubWs false 0x20000 8 false with
       | .ok (e :: _) => remoteForm 1 0x20000 8 0 0 &&
         (match remoteWrite s 1 hubWs false 0x20000 none (fun _ _ => bytesOf (atomicSum 0 (s.read 0 e.2.1 8) 5).1 8) with | .ok _ _ => true | _ => false)
       | _ => false) = true) ∧
    (let s := linkedQ
     (match remoteXlate s 1 false 0x20000 .read with
       | .ok x => remoteForm 4 0x20000 8 0 0 && (copyCheck s 1 hubWs x.pa x.lvl false).isNone && !s.poisoned hubWs x.pa 8 && !fenced s 1 hubWs x.pa x.pte &&
         !s.hubRefresh x.pa 8
       | _ => false) = true) ∧
    (let s := { linkedQ with devtime := 10000000, holds := [⟨0, 9, true, 0x200000, 64, 1⟩] }.modHub fun h => { h with
       remotes := [⟨5, 0, 1, [(0x200000, 64)], true, 0⟩] }
     (s.hub.remotes.find? fun r => decide (r.xfer = 5) && r.waiting).isSome = true ∧
       (holdConflict s (xferOwner 5) true 0x200000 64).isSome = true) := by decide +kernel

/-! ### Further clauses -/

/-- `mem` whose thread steps into a full queue register. -/
def memFull : State := mem.modMe fun t => { t with queues := t.queues.setIfInBounds 0 2, outBuf := some ⟨0, 1, none, 5⟩ }

/-- STV of some lanes, with room for its log and without; loads whose destination takes no word, that trap and that wait. -/
theorem witness_AccessesWaitAndTrap :
    meets (.stv H 1 1 23 2 1 0 0) (lane3 []) (fun o s1 => activeCount 32 o.ma == 1 && match threadAccess s1 o.a 64 .write true with
      | (s2, .ok x) => (putLanes s2 x 32 o.vd (activeLanes 32 o.ma)).isSome && !s1.ckpts s1.myCtx | _ => false) = true ∧
    meets (.stv H 1 4 23 2 0 0 0) noRoom (fun o s1 => activeCount 32 o.ma == 16 && match threadAccess s1 o.a 64 .write true with
      | (s2, .ok x) => (storeLine s2 s2.myCtx (dieOf s2.curCore) x.pa x.pte (bytesOf o.vd.toNat 64)).isNone | _ => false) = true ∧
    meets (.ld H 28 1 23 3 false 0 0) memFull (fun o s1 => (giveWait s1 28).isSome && accOk s1 o.a 8 .read true) = true ∧
    meets (.ldx H 10 6 23 0 0) mem (fun o s1 => accTrap s1 o.a 16 .read true) = true ∧
    meets (.ldx H 10 1 23 0 0) memHeld (fun o s1 => accTrap s1 o.a 16 .read true || accWait s1 o.a 16 .read true) = true ∧
    (let s := mem.setBytes (spmPA 0 0x100) (bytesOf (0xFFFFFFFF80000204 + 4 * 2 ^ 64 + 2 ^ 160) 64)
     meets (.dqpop H 3 1 2 0) s fun o s1 => match threadAccess s1 o.a 64 .write false with
       | (s2, .ok x) => let q := readDeque s2 x.pa
         q.ok && (dequeArray s2 q x.pa).isSome && q.ent.toNat % 8 != 0 && (dqPop q (fun _ => 5) o.b.toNat).rd == [0]
       | _ => false) = true := by decide +kernel

/-- PABT meets a half, a pact that waits, one that is suspended, one that streams and one that delivers. -/
theorem witness_PactsCancel :
    (let s := duo.modPress 0 fun p => { p with halves := [⟨.pmm, pmmOther.setWidth 320, false, 0, ⟨1, 0, 0⟩, 0, 7⟩] }
     meets (.pabt H 0 0) s fun _ s1 => at0 s1 fun p far => match newestPact (s1.press p) far 0, (s1.press p).halves with
       | some e, [g] => e.state == .half && bit g.rcd 0 && decide (s1.locate g.issuer = some (.slot 0 0)) && !bit s1.me.csr.tnest 0 &&
         (cancelHalf s1 p g 0x0E 0).made
       | _, _ => false) = true ∧
    ([PactState.queued, .susp, .stream, .deliver].all fun st => meets (.pabt H 0 0) (queued [entryOf .pmm st 7]) fun _ s1 => at0 s1 fun p far =>
      match newestPact (s1.press p) far 0 with | some e => e.state == st && !e.delivers && (cancelPact s1 p e).made | none => false) = true := by
  decide +kernel

/-- `duo` with a multiply or a gradient pact of it in DFAULT. -/
def redelivers2 (op : PressOp) (rcd : Nat) : State :=
  (withG duo [(1, if op = .pdgr then 0 else 0xFFFFFFFF80001000), (2, 0xFFFFFFFF00000000)]).modPress 0 fun p =>
    { p with past := [(false, { entryOf op .dfault 7 with recA := BitVec.ofNat 320 rcd })] }

theorem witness_PrdlOfEachOperation :
    [(PressOp.pmm, pmmLead.toNat + 2), (.pdgr, 4 + 0xFFFF80000000 * 2 ^ 140 + 64 * 2 ^ 188 + 2 ^ 298)].all (fun x => meets (.prdl H 1 2 0 0) (redelivers2 x.1 x.2)
      fun o s1 => at0 s1 fun p far => match faultedPact (s1.press p) far 0 with
        | some e => decide (o.a = sext o.a.toNat 48) && e.op.isPact &&
          (match rangesPieces s1 s1.curCore s1.myCtx s1.me.user .write (redeliverRanges e.op
              (setFld (if e.op = .pmm then setFld e.recA 192 48 o.a.toNat else e.recA) 256 26 (tbField s1 o.b))) with
            | .ok l => (match register s1.fresh.2 (holdsOf (if e.op = .pdgr then 5 else 4) s1.fresh.1 s1.myCtx true (joinPieces l)) with
              | .ok s2 => (s2.press p).queue.isEmpty | _ => false)
            | _ => false)
        | none => false) = true := by decide +kernel

/-- Held updates, an expectation of none, swaps that wait or are refused, a debug halt, a slot that is no second member. -/
theorem witness_HeldAndRefused :
    meets (.tbinit H 3 2) signalFirst (fun o s1 => heldHere s1 o.a == some 1) = true ∧
    meets (.tbexp H 3 2) (tbAt 0) (fun o s1 => o.b == 0 && (heldHere s1 o.a).isNone && accOk s1 o.a 16 .write false) = true ∧
    meets (.ctxsw H 1 2) ((withG base [(1, 1)]).modMgmt fun m => { m with fences := [fenceKey 3 1] }) (fun o s1 => ctxswOk o s1 &&
      swapWaits s1 s1.curCore 1 (ctxswEntry o s1)) = true ∧
    meets (.ctxsw H 1 2) (withG base [(1, 1)]) (fun o s1 => ctxswOk o s1 && !swapWaits s1 s1.curCore 1 0) = true ∧
    (let s := withG { base with closet := [(0, ⟨{ benchThread with ref := ⟨1, 0, 3⟩ }, 0⟩)] } [(1, 1)]
     meets (.ctxsw H 1 2) s (fun o s1 => !ctxswOk o s1) || (bodyOf (.ctxsw H 1 2)).any (fun b => match b.accept s with | .error _ => true | _ => false)) = true ∧
    meets (.halt H) (base.modMgmt fun m => { m with dbgen := true }) (fun _ s1 => s1.mgmt.dbgen) = true ∧
    lateMember ((tableLine 96 0x010000000000000000000000)) 0 = false := by decide +kernel

/-- Queue 0 with an EN = 0 that waits; its kick may be too far, and its WAITV too long. -/
def offWaits (s : State) : State := s.modQueue 0 fun x => { x with ringNext := some 0x6 }

theorem witness_QueueZeroTurnsOff :
    (let s := cmdQ 0 1 [] false
     s.hostLink = true ∧ (s.queue 0).state = .run ∧ (s.queue 0).ringNext = none ∧ 2 ^ 6 < (100 - (s.queue 0).tail : BitVec 32).toNat) ∧
    ((offWaits (cmdQ 0 1 [] false)).queue 0).ringNext = some 0x6 ∧
    (let s := (cmdQ 0 1 [] false).modQueue 0 fun x => { x with state := .stop }
     s.hub.ready = true ∧ s.hostLink = true ∧ (s.queue 0).ringcfg.getLsbD 63 = true ∧ (s.queue 0).state = .stop) ∧
    only (offWaits (cmdQ 0 5 [(36, 4, 7)] true)) 0 5 = true ∧
    (let s := cmdQ 0 3 [(8, 8, 0x2FFFFFF000), (16, 8, 0x2000), (24, 8, 8192)] false
     (match nextCmd s 0 3 with
       | some c => (match copyPlan s 0 c with
         | some p => p.bad.isSome && p.len == 4096 && (match register s p.holds with | .ok _ => true | _ => false)
         | _ => false)
       | none => false) = true) ∧
    next (cmdQ 0 7 [(8, 2, 5)] false) 0 7 = true ∧ ((cmdQ 0 7 [(8, 2, 5)] false).region? 5).any (·.sealed) = true := by decide +kernel

/-- A crew that is marked to relocate while no rectangle is idle. -/
theorem witness_NoIdleRectangle :
    (let s := { base with crews := base.crews ++ [(2, { benchCrew State.reset with state := .run, h := 64, w := 64, t := 7 })] }.modCrew 1
       fun c => { c with state := .parked, relocMark := true }
     (s.crew? 1).any (fun c => c.state == .parked && c.relocMark && !s.sealPending c.ctx && (coolestRect s 1 c).isNone) = true) ∧
    (hotCore.crewsOn 0).find? (fun e => decide (e.2.state = .run) && !e.2.relocMark && (coolestRect hotCore e.1 e.2).isSome) ≠ none := by
  decide +kernel

/-- Words that leave a closet, a register put that its light target refuses, time-outs at EXIT, a write stream whose element fails under a
parked write. -/
theorem witness_WordsAndStops :
    (let s := { duo with closet := [(0, ⟨{ benchThread with ref := ⟨1, 0, 3⟩, outBuf := some ⟨1, 0, some 12, 5⟩ }, 0⟩)] }.setThread 1 0
       { benchThread with ref := ⟨1, 1, 0⟩, light := true }
     (match s.place 0 8 with
       | some l => let t := s.atLoc l
         t.outBuf == some ⟨1, 0, some 12, 5⟩ && (match s.target (s.ctxOf t.ref.crew) 1 0 with
           | some r => (s.ref? r).any (fun x => x.occ && !x.exited && x.light) && (s.crew? r.crew).any (·.accepts) | none => false)
       | none => false) = true) ∧
    (let s := busy fun t => { t with park := parked .exit 0 [], outBuf := some ⟨1, 0, none, 5⟩, timer := 200000 }
     fld (s.me.tmoNow s.devtime).1 0 20 ≠ 0 ∧ fld (s.me.tmoNow s.devtime).1 0 20 * 1000 ≤ s.me.timer) ∧
    (let s := (base.modStream 24 fun _ =>
       ⟨(sdRec 0x80000000 4).setWidth 320 ||| (1 <<< 52), 1, true, false, [⟨5, 0, 0⟩], none, 9, [], false, false⟩).modMe fun t =>
         { t with park := some ⟨.message, 0x10000, [], some 0x10001, keyStream 24, 0, false⟩ }
     (let b := s.stream 24
      b.isWrite && b.bound && !b.stopped && !b.tben && !s.me.csr.tnest.getLsbD 0 && (match streamPlace s b (b.count - b.buf.length) with
       | .ok u va => (writeFault u b va).isSome | _ => false)) = true) ∧
    (let s := (withEntry (unread .susp)).modMe fun t => { t with park := some ⟨.pact, 0x10000, [], some 0x10001, 7, 0, false⟩ }
     reissued s 0 (unread .susp) = true) ∧ reissued (withEntry (pmmIn .susp)) 0 (pmmIn .susp) = false := by decide +kernel

end Sys2Proof.Tests
end

