-- ==== Sys2Proof/Proofs/ThermalTrip.lean ====
section
/-! SUPPORT. Only a cold reset restarts what a thermal trip has stopped (R34): what the steps of the management subsystem keep. -/

namespace Sys2Proof.Machine

/-- What the steps of the management subsystem keep: the clocks as they are, the agenda and DEVTIME. -/
structure ClocksKept (s t : State) : Prop where
  stopped : t.mgmt.stopped = s.mgmt.stopped
  thermtrip : t.mgmt.thermtrip = s.mgmt.thermtrip
  agenda : t.agenda = s.agenda
  devtime : t.devtime = s.devtime

namespace ClocksKept

theorem refl (s : State) : ClocksKept s s := ⟨rfl, rfl, rfl, rfl⟩

theorem trans {s t u : State} (h : ClocksKept s t) (g : ClocksKept t u) : ClocksKept s u :=
  ⟨g.stopped.trans h.stopped, g.thermtrip.trans h.thermtrip, g.agenda.trans h.agenda, g.devtime.trans h.devtime⟩

theorem foldl {α : Type} {f : State → α → State} (h : ∀ s x, ClocksKept s (f s x)) (l : List α) (s : State) :
    ClocksKept s (l.foldl f s) := by
  induction l generalizing s with
  | nil => exact refl s
  | cons x r ih => exact (h s x).trans (ih _)

/-- An event keeps what each of its answers keeps. -/
theorem event {s t : State} {o : Option State} (h : ∀ u, o = some u → ClocksKept s u) (ht : event s o = .next t) :
    ClocksKept s t := by
  cases ht
  cases o with
  | none => exact refl s
  | some u => exact h u rfl

end ClocksKept

/-! ## The shared operations keep the clocks -/

theorem modHub_clocks (s : State) (f : Hub → Hub) : ClocksKept s (s.modHub f) := ⟨rfl, rfl, rfl, rfl⟩

theorem modMgmt_clocks {s : State} {f : Mgmt → Mgmt} (hs : (f s.mgmt).stopped = s.mgmt.stopped)
    (ht : (f s.mgmt).thermtrip = s.mgmt.thermtrip) : ClocksKept s (s.modMgmt f) := ⟨hs, ht, rfl, rfl⟩

theorem modLoc_clocks (s : State) (l : Loc) (f : Thread → Thread) : ClocksKept s (s.modLoc l f) := by
  cases l <;> exact ⟨rfl, rfl, rfl, rfl⟩

theorem modRef_clocks (s : State) (r : TRef) (f : Thread → Thread) : ClocksKept s (s.modRef r f) := by
  unfold State.modRef
  split
  · exact modLoc_clocks _ _ _
  · exact .refl s

theorem haltVat_clocks (s : State) (ctx v : Nat) : ClocksKept s (haltVat s ctx v) := by
  have h := ClocksKept.foldl (fun s r => modRef_clocks s r fun t => { t with halted := true }) (pactThreads s ctx v) s
  unfold haltVat
  generalize (pactThreads s ctx v).foldl _ s = u at h ⊢
  exact h.trans ⟨rfl, rfl, rfl, rfl⟩

theorem haltGroup_clocks (s : State) (ctx v : Nat) : ClocksKept s (haltGroup s ctx v) := by
  unfold haltGroup
  dsimp only
  split
  · exact haltVat_clocks s ctx v
  · refine (haltVat_clocks s ctx v).trans (ClocksKept.foldl ?_ _ _)
    exact fun s e => haltVat_clocks s ctx e.1

theorem breakpointHalt_clocks (core slot : Nat) (s : State) : ClocksKept s ((breakpointHalt core slot s).getD s) := by
  unfold breakpointHalt
  dsimp only
  split
  · exact haltGroup_clocks _ _ _
  · exact .refl s

theorem startSupplyLoss_clocks (s : State) (byFrame : Bool) : ClocksKept s (startSupplyLoss s byFrame) := by
  unfold startSupplyLoss
  split
  · exact .refl s
  · exact ⟨rfl, rfl, rfl, rfl⟩

/-- A mailbox command keeps the clocks when what it carries out does. -/
theorem mailbox_clocks {code : Nat} {f : State → Nat × State} {s t : State} (hf : ClocksKept s (f s).2)
    (h : mailbox code f s = some t) : ClocksKept s t := by
  unfold mailbox at h
  split at h
  · cases h; exact hf.trans ⟨rfl, rfl, rfl, rfl⟩
  · cases h

theorem putWindow_clocks (s : State) (off : Nat) (bs : List Byte) : ClocksKept s (s.putWindow off bs) := ⟨rfl, rfl, rfl, rfl⟩

theorem answer_clocks (s : State) (r : Option (List Byte)) : ClocksKept s (answer s r).2 := by
  cases r
  · exact .refl s
  · exact putWindow_clocks s _ _

/-! ## The steps that go on while the clocks have stopped -/

theorem warmReset_clocks {s t : State} (ht : s.mgmt.thermtrip = true) (hs : s.mgmt.stopped = true) (h : warmReset s = some t) :
    ClocksKept s t := by
  cases h
  exact ⟨ht.trans hs.symm, rfl, rfl, rfl⟩

theorem vstbyFailure_clocks {s t : State} (h : vstbyFailure s = some t) : ClocksKept s t := by
  unfold vstbyFailure at h
  dsimp only at h
  split at h <;> cases h <;> exact ⟨rfl, rfl, rfl, rfl⟩

theorem slwAssert_clocks {s t : State} (h : slwAssert s = some t) : ClocksKept s t := by
  cases h
  exact (modHub_clocks s _).trans (startSupplyLoss_clocks _ false)

theorem slwRelease_clocks {s t : State} (h : slwRelease s = some t) : ClocksKept s t := by
  unfold slwRelease at h
  split at h
  · cases h; exact ⟨rfl, rfl, rfl, rfl⟩
  · cases h

theorem sensorSample_clocks {kind idx : Nat} {v : BitVec 16} {s t : State} (h : sensorSample kind idx v s = some t) :
    ClocksKept s t := by
  unfold sensorSample at h
  dsimp only at h
  split at h
  · cases h
  · split at h
    · cases h; exact ⟨rfl, rfl, rfl, rfl⟩
    · split at h <;> cases h <;> exact ⟨rfl, rfl, rfl, rfl⟩

theorem thermtrip_clocks {kind idx : Nat} {s t : State} (ht : s.mgmt.thermtrip = true) (h : thermtrip kind idx s = some t) :
    ClocksKept s t := by
  simp [thermtrip, ht] at h

theorem attest_clocks {writeOk : Bool} {s t : State} (h : attest writeOk s = some t) : ClocksKept s t := by
  refine mailbox_clocks ?_ h
  dsimp only
  split
  · exact .refl s
  · split
    · exact .refl s
    · exact (modMgmt_clocks rfl rfl).trans (putWindow_clocks _ _ _)

theorem fwstage_clocks {s t : State} (h : fwstage s = some t) : ClocksKept s t := by
  refine mailbox_clocks ?_ h
  dsimp only
  split
  · exact .refl s
  · exact ⟨rfl, rfl, rfl, rfl⟩

theorem fwactivate_clocks {s t : State} (h : fwactivate s = some t) : ClocksKept s t := by
  refine mailbox_clocks ?_ h
  dsimp only
  split
  · exact .refl s
  · split
    · exact .refl s
    · exact ⟨rfl, rfl, rfl, rfl⟩

theorem keyTreeStateLoad_clocks {s t : State} (h : keyTreeStateLoad s = some t) : ClocksKept s t := by
  unfold keyTreeStateLoad at h
  split at h
  · cases h; exact ⟨rfl, rfl, rfl, rfl⟩
  · cases h

theorem mailboxDone_clocks {s t : State} (h : mailboxDone s = some t) : ClocksKept s t := by
  unfold mailboxDone at h
  dsimp only at h
  split at h
  · cases h
    split <;> exact ⟨rfl, rfl, rfl, rfl⟩
  · cases h

/-- Of the steps that go on while the clocks have stopped, a cold reset alone starts them again (R34). -/
theorem exec_runsStopped_clocks {i : Instr} {s t : State} (hi : runsStopped i = true) (hc : i ≠ .coldReset)
    (ht : s.mgmt.thermtrip = true) (hs : s.mgmt.stopped = true) (h : exec i s = .next t) : ClocksKept s t := by
  unfold runsStopped at hi
  split at hi
  case h_1 => exact absurd rfl hc
  case h_2 => exact .event (fun u => warmReset_clocks ht hs) h
  case h_3 => exact .event (fun u => vstbyFailure_clocks) h
  case h_4 => exact .event (fun u => slwAssert_clocks) h
  case h_5 => exact .event (fun u => slwRelease_clocks) h
  case h_6 => exact .event (fun u => sensorSample_clocks) h
  case h_7 => exact .event (fun u => thermtrip_clocks ht) h
  case h_8 => exact .event (fun u => mailbox_clocks (answer_clocks _ _)) h
  case h_9 => exact .event (fun u => mailbox_clocks (answer_clocks _ _)) h
  case h_10 => exact .event (fun u => attest_clocks) h
  case h_11 => exact .event (fun u => fwstage_clocks) h
  case h_12 => exact .event (fun u => fwactivate_clocks) h
  case h_13 => exact .event (fun u => keyTreeStateLoad_clocks) h
  case h_14 => exact .event (fun u => mailboxDone_clocks) h
  case h_15 => cases hi

/-! ## A machine that has tripped stays so -/

theorem tripped_of_clocks {s t : State} (hs : Tripped s) (h : ClocksKept s t) : Tripped t := by
  obtain ⟨h1, h2, h3⟩ := hs
  exact ⟨h.stopped.trans h1, h.thermtrip.trans h2, h.agenda ▸ h3⟩

/-- While the clocks have stopped, time moves DEVTIME alone. -/
theorem elapse_of_stopped {s : State} (h : s.mgmt.stopped = true) (dt : Nat) : elapse s dt = { s with devtime := s.devtime + dt } := by
  simp [elapse, h]

theorem turnMove_of_stopped {s : State} (h : s.mgmt.stopped = true) (core slot : Nat) : turnMove s core slot = .did s := by
  simp [turnMove, h]

/-- What a move comes to. -/
def Move.out : Move → Out
  | .run i s => exec i s
  | .did s => .next s

theorem step_eq (s : State) : step s = (nextMove s).out := by
  unfold step Move.out; rfl

theorem agendaMove_tripped {s t : State} {a : Act} (hs : Tripped s) (ha : ∀ dt, a ≠ .ev dt .coldReset)
    (h : (agendaMove s a).out = .next t) : Tripped t ∧ s.devtime ≤ t.devtime := by
  have hstop := hs.1
  cases a with
  | turn dt core slot =>
    rw [agendaMove, elapse_of_stopped hstop, turnMove_of_stopped (by exact hstop)] at h
    cases h
    exact ⟨hs, Nat.le_add_right _ _⟩
  | part n => cases h; exact ⟨hs, Nat.le_refl _⟩
  | ev dt i =>
    rw [agendaMove, elapse_of_stopped hstop] at h
    split at h
    · next hm =>
      have hr : runsStopped i = true := by
        simp only [mayRun, hstop, Bool.not_true, Bool.false_or, Bool.and_eq_true] at hm
        exact hm.2
      have hi : i ≠ .coldReset := fun e => ha dt (e ▸ rfl)
      have hk := exec_runsStopped_clocks (s := { s with devtime := s.devtime + dt }) hr hi hs.2.1 hstop h
      exact ⟨tripped_of_clocks (s := { s with devtime := s.devtime + dt }) hs hk, hk.devtime ▸ Nat.le_add_right _ _⟩
    · cases h
      exact ⟨hs, Nat.le_add_right _ _⟩
  | hit core slot =>
    cases h
    have hk := breakpointHalt_clocks core slot s
    exact ⟨tripped_of_clocks hs hk, hk.devtime.ge⟩

theorem rotorMove_tripped {s t : State} (hs : Tripped s) (h : (rotorMove s).out = .next t) :
    Tripped t ∧ s.devtime ≤ t.devtime := by
  unfold rotorMove at h
  dsimp only at h
  rw [elapse_of_stopped (by exact hs.1)] at h
  split at h
  · rw [turnMove_of_stopped (by exact hs.1)] at h
    cases h; exact ⟨hs, Nat.le_add_right _ _⟩
  · rw [turnMove_of_stopped (by exact hs.1)] at h
    cases h; exact ⟨hs, Nat.le_refl _⟩

/-- Settles O44: the moves of a tripped machine are the management's, of which all but the cold reset keep the clocks stopped. -/
theorem onlyColdResetRestarts : Obligations.OnlyColdResetRestarts := by
  intro s t hs h
  rw [step_eq] at h
  unfold nextMove at h
  split at h
  · next a r ha =>
    obtain ⟨h1, h2, h3⟩ := hs
    have hr : Tripped { s with agenda := r } := ⟨h1, h2, fun b hb => h3 b (ha ▸ .tail _ hb)⟩
    exact agendaMove_tripped (s := { s with agenda := r }) hr (h3 a (ha ▸ .head _)) h
  · exact rotorMove_tripped hs h

end Sys2Proof.Machine
end

