-- ==== Sys2Proof/Proofs/ResetState.lean ====
section
/-! SUPPORT. The state right after the cold reset (O46): every table is empty, so that what is read is the value of a missing key. -/

namespace Sys2Proof.Machine

theorem reset_thread (c k : Nat) : State.reset.thread c k = State.thread0 := rfl
theorem reset_vat (v : Nat) : State.reset.vat v = State.vat0 := rfl
theorem reset_queue (q : Nat) : State.reset.queue q = State.queue0 := rfl

/-- Settles O46, field by field. -/
theorem resetState : Obligations.ResetState := by
  refine ⟨reset_wf, rfl, rfl, rfl, rfl, rfl, rfl, rfl, rfl, rfl, rfl, rfl, rfl, rfl, fun c k => ?_, fun v => ?_, fun q => ?_⟩
  · rw [reset_thread]
    exact ⟨rfl, rfl, rfl, rfl, rfl, rfl, rfl, rfl, rfl, rfl, rfl, rfl, rfl⟩
  · rw [reset_vat]
    exact ⟨rfl, rfl⟩
  · rw [reset_queue]
    exact ⟨rfl, rfl⟩

end Sys2Proof.Machine
end

