-- ==== Sys2Proof/Proofs/Units.lean ====
section
/-! SUPPORT. What the ends, saves, restorations and rollbacks of crews leave alone: time, the power registers, the management subsystem but for
its black box and its list of lost contexts, and the cores that are retired. -/

namespace Sys2Proof.Machine

/-- An event that can happen makes of the state what it answers. -/
theorem event_some {s t : State} {o : Option State} (h : o = some t) : event s o = .next t := by rw [h]; rfl

/-- Two states differ in memory at most. -/
def MemOnly (s t : State) : Prop := ∃ m, t = { s with mem := m }

theorem MemOnly.refl (s : State) : MemOnly s s := ⟨_, rfl⟩

theorem MemOnly.trans {s t u : State} (h : MemOnly s t) (g : MemOnly t u) : MemOnly s u := by
  obtain ⟨_, rfl⟩ := h
  obtain ⟨_, rfl⟩ := g
  exact ⟨_, rfl⟩

theorem setBytes_memOnly (s : State) (pa : Nat) (bs : List Byte) : MemOnly s (s.setBytes pa bs) := ⟨_, setBytes_eq s pa bs⟩

theorem write_memOnly (s : State) (pa n v : Nat) : MemOnly s (s.write pa n v) := setBytes_memOnly _ _ _

/-- Time, power and management are as before, but for black-box records and lost contexts, and what was retired stays so. -/
structure UnitsKept (s t : State) : Prop where
  devtime : t.devtime = s.devtime
  power : t.power = s.power
  mgmt : t.mgmt = { s.mgmt with blackbox := t.mgmt.blackbox, lostCtx := t.mgmt.lostCtx }
  retired : ∀ c, (s.core c).retired = true → (t.core c).retired = true

namespace UnitsKept

theorem refl (s : State) : UnitsKept s s := ⟨rfl, rfl, rfl, fun _ h => h⟩

theorem trans {s t u : State} (h : UnitsKept s t) (g : UnitsKept t u) : UnitsKept s u :=
  ⟨g.devtime.trans h.devtime, g.power.trans h.power, by rw [g.mgmt, h.mgmt], fun c hc => g.retired c (h.retired c hc)⟩

/-- A change of other fields. -/
theorem of_eq {s t : State} (hd : t.devtime = s.devtime) (hp : t.power = s.power) (hm : t.mgmt = s.mgmt) (hc : t.cores = s.cores) :
    UnitsKept s t :=
  ⟨hd, hp, by rw [hm], fun c h => by rw [State.core, hc]; exact h⟩

theorem foldl {α : Type} {f : State → α → State} (h : ∀ s x, UnitsKept s (f s x)) (l : List α) (s : State) :
    UnitsKept s (l.foldl f s) := by
  induction l generalizing s with
  | nil => exact refl s
  | cons x r ih => exact (h s x).trans (ih _)

theorem foldSpan {f : State → Nat → State} (h : ∀ s k, UnitsKept s (f s k)) (n lo : Nat) (s : State) :
    UnitsKept s (foldSpan f s lo n) := by
  induction n generalizing lo s with
  | zero => exact refl s
  | succ n ih => exact (h s lo).trans (ih _ _)

/-- An attempt that may come to nothing. -/
theorem getD {s : State} {o : Option State} (h : ∀ t, o = some t → UnitsKept s t) : UnitsKept s (o.getD s) := by
  cases o with
  | none => exact refl s
  | some t => exact h t rfl

end UnitsKept

/-! ## Memory and single fields -/

theorem setBytes_units (s : State) (pa : Nat) (bs : List Byte) : UnitsKept s (s.setBytes pa bs) := by
  rw [setBytes_eq]; exact .of_eq rfl rfl rfl rfl

theorem write_units (s : State) (pa n v : Nat) : UnitsKept s (s.write pa n v) := setBytes_units _ _ _

theorem clear_units (s : State) (pa n : Nat) : UnitsKept s (s.clear pa n) := .of_eq rfl rfl rfl rfl

theorem putCells_units (s : State) (pa : Nat) (l : List Host.Cell) : UnitsKept s (s.putCells pa l) := by
  unfold State.putCells
  refine .foldl (fun s c => ?_) l s
  exact .of_eq rfl rfl rfl rfl

theorem copyRange_units (s : State) (src dst n : Nat) : UnitsKept s (s.copyRange src dst n) :=
  (clear_units s dst n).trans (putCells_units _ _ _)

theorem unpoison_units (s : State) (pa n : Nat) : UnitsKept s (s.unpoison pa n) := by
  unfold State.unpoison; split <;> exact .of_eq rfl rfl rfl rfl

theorem crews_units (s : State) (x : List (Nat × Crew)) : UnitsKept s { s with crews := x } := .of_eq rfl rfl rfl rfl
theorem graphs_units (s : State) (x : List (Nat × Graph)) : UnitsKept s { s with graphs := x } := .of_eq rfl rfl rfl rfl
theorem ctxs_units (s : State) (x : List (Nat × Ctx)) : UnitsKept s { s with ctxs := x } := .of_eq rfl rfl rfl rfl
theorem holds_units (s : State) (x : List Hold) : UnitsKept s { s with holds := x } := .of_eq rfl rfl rfl rfl
theorem presses_units (s : State) (x : List (Nat × Press)) : UnitsKept s { s with presses := x } := .of_eq rfl rfl rfl rfl
theorem closet_units (s : State) (x : List (Nat × ClosetEntry)) : UnitsKept s { s with closet := x } := .of_eq rfl rfl rfl rfl
theorem modHub_units (s : State) (f : Hub → Hub) : UnitsKept s (s.modHub f) := .of_eq rfl rfl rfl rfl
theorem modQueue_units (s : State) (q : Nat) (f : Queue → Queue) : UnitsKept s (s.modQueue q f) := .of_eq rfl rfl rfl rfl
theorem modCrew_units (s : State) (n : Nat) (f : Crew → Crew) : UnitsKept s (s.modCrew n f) := .of_eq rfl rfl rfl rfl
theorem modCtx_units (s : State) (n : Nat) (f : Ctx → Ctx) : UnitsKept s (s.modCtx n f) := .of_eq rfl rfl rfl rfl
theorem modVat_units (s : State) (v : Nat) (f : Vat → Vat) : UnitsKept s (s.modVat v f) := .of_eq rfl rfl rfl rfl
theorem setThread_units (s : State) (c k : Nat) (t : Thread) : UnitsKept s (s.setThread c k t) := .of_eq rfl rfl rfl rfl
theorem addHolds_units (s : State) (l : List Hold) : UnitsKept s (s.addHolds l) := .of_eq rfl rfl rfl rfl

theorem blackbox_units (s : State) (kind unit detail : Nat) : UnitsKept s (s.blackbox kind unit detail) :=
  ⟨rfl, rfl, rfl, fun _ h => h⟩

theorem signal_units (s : State) (vec : Nat) : UnitsKept s (s.signal vec) := modHub_units _ _

theorem CacheOnly.units {s t : State} (h : CacheOnly s t) : UnitsKept s t := by
  obtain ⟨_, _, _, _, rfl⟩ := h
  exact .of_eq rfl rfl rfl rfl

/-- A change of cores that keeps what is retired. -/
theorem modCore_units (s : State) (c : Nat) (f : Core → Core) (h : (s.core c).retired = true → (f (s.core c)).retired = true) :
    UnitsKept s (s.modCore c f) := by
  refine ⟨rfl, rfl, rfl, fun k hk => ?_⟩
  simp only [State.core, modCore_cores, Tbl.get_upd] at hk h ⊢
  split
  · next e => subst e; exact h hk
  · exact hk

/-! ## Records and queues -/

theorem putRecord_units (s : State) (q : Nat) (r : BitVec 256) (irq : Bool) : UnitsKept s (putRecord s q r irq) := by
  unfold putRecord
  dsimp only
  split
  · split
    · exact modQueue_units _ _ _
    · split
      · exact ((write_units _ _ _ _).trans (modQueue_units _ _ _)).trans (signal_units _ _)
      · exact (write_units _ _ _ _).trans (modQueue_units _ _ _)
  · exact modQueue_units _ _ _

theorem writeEnds_units (s : State) (c : Ctx) : UnitsKept s (s.writeEnds c) := (write_units _ _ _ _).trans (write_units _ _ _ _)

theorem writeMarks_units (s : State) (c : Ctx) : UnitsKept s (s.writeMarks c) :=
  (((write_units _ _ _ _).trans (write_units _ _ _ _)).trans (write_units _ _ _ _)).trans (write_units _ _ _ _)

theorem writeHeader_units (s : State) (ctx : Nat) : UnitsKept s (s.writeHeader ctx) := by
  unfold State.writeHeader
  split
  · exact (writeMarks_units _ _).trans (writeEnds_units _ _)
  · exact .refl s

theorem putEntry_units (s : State) (c : Ctx) (pa : Nat) (bs : List Byte) : UnitsKept s (s.putEntry c pa bs) :=
  (((write_units _ _ _ _).trans (write_units _ _ _ _)).trans (setBytes_units _ _ _)).trans (writeEnds_units _ _)

theorem holdRecord_units (s : State) (ctx q : Nat) (r : BitVec 256) (irq : Bool) (cmd : Option Cmd) :
    UnitsKept s (holdRecord s ctx q r irq cmd) := by
  unfold holdRecord
  split
  · exact .refl s
  · next c _ =>
    split
    · exact (ctxs_units s _).trans (putEntry_units _ _ _ _)
    · exact ctxs_units s _

theorem record_units (s : State) (q : Nat) (r : BitVec 256) (irq : Bool) (cmd : Option Cmd) : UnitsKept s (s.record q r irq cmd) := by
  unfold State.record
  dsimp only
  have h : ∀ ctx, UnitsKept s (if q ≠ 0 && s.ckpts ctx then holdRecord s ctx q r irq cmd else putRecord s q r irq) := by
    intro ctx
    split
    · exact holdRecord_units _ _ _ _ _ _
    · exact putRecord_units _ _ _ _
  exact h _

theorem refreshQueue_units (s : State) (q : Nat) : UnitsKept s (refreshQueue s q) := modQueue_units _ _ _

theorem keepSilent_units (s : State) (q : Nat) (cmd : Option Cmd) : UnitsKept s (keepSilent s q cmd) := by
  unfold keepSilent
  split
  · split
    · exact modCtx_units _ _ _
    · exact .refl s
  · exact .refl s

theorem finish_units (s : State) (q id seq typ status detail aux : Nat) (cpl irq : Bool) :
    UnitsKept s (finish s q id seq typ status detail aux cpl irq) := by
  unfold finish
  dsimp only
  split
  · exact (modQueue_units _ _ _).trans (record_units _ _ _ _ _)
  · exact (modQueue_units _ _ _).trans (keepSilent_units _ _ _)

theorem complete_units (s : State) (q id seq typ status detail aux : Nat) (cpl irq : Bool) :
    UnitsKept s (complete s q id seq typ status detail aux cpl irq) :=
  (finish_units _ _ _ _ _ _ _ _ _ _).trans (refreshQueue_units _ _)

/-! ## Crews and graphs end -/

theorem clearPresses_units (s : State) (c : Crew) : UnitsKept s (s.clearPresses c) := by
  unfold State.clearPresses
  exact .foldl (fun _ _ => presses_units _ _) _ s

theorem dropAgents_units (s : State) (n : Nat) : UnitsKept s (s.dropAgents n) := .of_eq rfl rfl rfl rfl

/-- Of a table of which a map keeps the keys and some entries go, an entry that does not go is found as before. -/
theorem Tbl.find_filterMap {α : Type} {t : List (Nat × α)} {g : Nat × α → Option (Nat × α)} {k : Nat} {v w : α}
    (hg : ∀ e x, g e = some x → x.1 = e.1) (hf : Tbl.find t k = some v) (hv : g (k, v) = some (k, w)) :
    Tbl.find (t.filterMap g) k = some w := by
  induction t with
  | nil => cases hf
  | cons e r ih =>
    obtain ⟨j, u⟩ := e
    simp only [Tbl.find] at hf
    split at hf
    · next hj =>
      subst hj
      cases hf
      rw [List.filterMap_cons, hv]
      simp [Tbl.find]
    · next hj =>
      rw [List.filterMap_cons]
      split
      · exact ih hf
      · next x hx => rw [Tbl.find, if_neg (by rw [hg _ _ hx]; exact hj)]; exact ih hf

/-- A retired core is listed. -/
theorem find_of_retired {s : State} {c : Nat} (h : (s.core c).retired = true) :
    ∃ v, Tbl.find s.cores c = some v ∧ v.retired = true := by
  unfold State.core Tbl.get at h
  cases hf : Tbl.find s.cores c with
  | none => rw [hf] at h; cases h
  | some v => rw [hf] at h; exact ⟨v, rfl, h⟩

theorem dropThreads_units (s : State) (n : Nat) : UnitsKept s (s.dropThreads n) := by
  refine ⟨rfl, rfl, rfl, fun c hc => ?_⟩
  obtain ⟨v, hf, hv⟩ := find_of_retired hc
  have hne : { v with runq := v.runq.filter fun k => decide (k.crew ≠ n) } ≠ State.core0 := fun e => by
    have := congrArg Core.retired e
    simp [hv, State.core0] at this
  have := Tbl.find_filterMap (g := fun e =>
    let c := { e.2 with runq := e.2.runq.filter fun k => decide (k.crew ≠ n) }
    if c = State.core0 then none else some (e.1, c)) (w := { v with runq := v.runq.filter fun k => decide (k.crew ≠ n) })
    (fun e x h => by
      dsimp only at h
      split at h
      · cases h
      · cases h; rfl) hf (if_neg hne)
  unfold State.core Tbl.get State.dropThreads
  dsimp only at this ⊢
  rw [this]
  exact hv

theorem freeCrew_units (s : State) (n : Nat) : UnitsKept s (freeCrew s n) := by
  unfold freeCrew
  split
  · exact .refl s
  · next c _ =>
    have h : UnitsKept s (if c.state.holds then (s.dropAgents n).clearPresses c else s.dropAgents n) := by
      split
      · exact (dropAgents_units s n).trans (clearPresses_units _ _)
      · exact dropAgents_units s n
    exact (h.trans (dropThreads_units _ n)).trans (.of_eq rfl rfl rfl rfl)

theorem linkGraphs_units (s : State) (ctx : Nat) : UnitsKept s (linkGraphs s ctx) := by
  unfold linkGraphs
  split
  · exact .refl s
  · exact (write_units _ _ _ _).trans (.foldl (fun _ _ => write_units _ _ _ _) _ _)

/-- The end of a graph, with the AUX of its record. -/
theorem endCrews_units (s : State) (l : List Nat) (gid : Nat) : UnitsKept s { l.foldl freeCrew s with graphs := Tbl.del (l.foldl freeCrew s).graphs gid } :=
  (UnitsKept.foldl freeCrew_units l s).trans (graphs_units _ _)

theorem endGraph_units (s : State) (gid status detail : Nat) : UnitsKept s (endGraph s gid status detail) := by
  unfold endGraph
  split
  · exact .refl s
  · exact ((endCrews_units _ _ _).trans (complete_units _ _ _ _ _ _ _ _ _ _)).trans (linkGraphs_units _ _)

theorem endGraphAt_units (s : State) (gid status addr : Nat) : UnitsKept s (endGraphAt s gid status addr) := by
  unfold endGraphAt
  split
  · exact .refl s
  · exact ((endCrews_units _ _ _).trans (complete_units _ _ _ _ _ _ _ _ _ _)).trans (linkGraphs_units _ _)

/-! ## Crews are placed and restored -/

theorem releaseBar_units (s : State) (n b : Nat) : UnitsKept s (releaseBar s n b) := .of_eq rfl rfl rfl rfl

theorem freeHeldBars_units (s : State) (n : Nat) : UnitsKept s (freeHeldBars s n) := by
  refine UnitsKept.foldSpan (fun s b => ?_) 8 0 s
  split
  · split
    · exact (crews_units s _).trans (releaseBar_units _ _ _)
    · exact .refl s
  · exact .refl s

theorem abortPlacement_units (s : State) (n : Nat) : UnitsKept s (abortPlacement s n) := by
  unfold abortPlacement
  exact (modCrew_units _ _ _).trans (modHub_units _ _)

theorem spillCloset_units (s : State) (core e : Nat) : UnitsKept s (spillCloset s core e) := by
  unfold spillCloset
  split
  · exact .refl s
  · dsimp only
    split
    · exact closet_units s _
    · exact ((closet_units s _).trans (modCrew_units _ _ _)).trans (setBytes_units _ _ _)

theorem seatCloset_units (s : State) (core : Nat) (t : Thread) : UnitsKept s (seatCloset s core t) :=
  (spillCloset_units s core (seatCloset.chooseFree s core)).trans (.of_eq rfl rfl rfl rfl)

theorem seatMover_units (s : State) (core : Nat) (t : Thread) : UnitsKept s (seatMover s core t) := by
  unfold seatMover
  dsimp only
  split
  · exact setThread_units _ _ _ _
  · exact seatCloset_units _ _ _

theorem seatThread_units (s : State) (n : Nat) (c : Crew) (both : Bool) (key : Nat) (t : Thread) :
    UnitsKept s (seatThread s n c both key t) := by
  unfold seatThread
  dsimp only
  split
  · exact seatMover_units _ _ _
  · split
    · exact seatCloset_units _ _ _
    · split
      · exact setThread_units _ _ _ _
      · exact .refl s

theorem keepAway_units (s : State) (l : List (Nat × Nat × Hold)) : UnitsKept s (keepAway s l) :=
  .foldl (fun _ _ => modCrew_units _ _ _) l s

theorem mapCrew_units (s : State) (c : Crew) : UnitsKept s (mapCrew s c) := modCtx_units _ _ _

theorem haltPlaced_units (s : State) (n : Nat) : UnitsKept s (haltPlaced s n) := by
  unfold haltPlaced
  split
  · exact .refl s
  · dsimp only
    split
    · exact .refl s
    · split <;> exact .of_eq rfl rfl rfl rfl

theorem restoreCrew_units {s t : State} {n : Nat} {state : CrewState} (h : restoreCrew s n state = some t) : UnitsKept s t := by
  unfold restoreCrew at h
  split at h
  · cases h
  · split at h
    · cases h
    · next c _ v _ =>
      dsimp only at h
      split at h
      · cases h
      · cases h
        refine UnitsKept.trans ?_ (haltPlaced_units _ _)
        refine UnitsKept.trans ?_ (.foldl (fun s k => modCore_units _ _ _ fun h => h) _ _)
        refine UnitsKept.trans ?_ (.foldl (fun s k => modVat_units _ _ _) _ _)
        refine UnitsKept.trans ?_ (.foldl (fun s e => seatThread_units _ _ _ _ _ _) _ _)
        refine UnitsKept.trans ?_ (.foldl (fun s p => presses_units _ _) _ _)
        have hk : ∀ (cs : List (Nat × Crew)) (hs : List Hold) (l : List (Nat × Nat × Hold)) (c : Crew),
            UnitsKept s (mapCrew (keepAway (State.addHolds { s with crews := cs } hs) l) c) := fun cs hs l c =>
          (((crews_units s cs).trans (addHolds_units _ hs)).trans (keepAway_units _ l)).trans (mapCrew_units _ c)
        split
        · exact (hk _ _ _ _).trans (.foldl (fun s i => (clear_units _ _ _).trans (putCells_units _ _ _)) _ _)
        · exact hk _ _ _ _

theorem resumeCrew_units {s t : State} {n : Nat} (h : resumeCrew s n = some t) : UnitsKept s t := by
  obtain ⟨u, hu, rfl⟩ := Option.map_eq_some_iff.mp h
  exact (restoreCrew_units hu).trans (freeHeldBars_units _ _)

theorem shedCrew_units (s : State) (n : Nat) : UnitsKept s (shedCrew s n) := by
  unfold shedCrew
  split
  · exact .refl s
  · dsimp only
    split
    · exact modCrew_units _ _ _
    · exact abortPlacement_units _ _
    · exact abortPlacement_units _ _
    · exact modCrew_units _ _ _
    · exact .refl s

theorem unshedCrew_units (s : State) (n : Nat) : UnitsKept s (unshedCrew s n) := by
  unfold unshedCrew
  split
  · exact .refl s
  · dsimp only
    refine (modCrew_units s n fun c => { c with shedMark := false, graceAt := none }).trans ?_
    split
    · split
      · exact .refl _
      · exact (modCrew_units _ _ _).trans (freeHeldBars_units _ _)
    · split
      · exact .getD fun t => resumeCrew_units
      · exact .refl _
    · exact .refl _

/-! ## Rollback and loss -/

theorem restartCmds_units (s : State) (ctx : Nat) (gs : List (Nat × Graph)) : UnitsKept s (restartCmds s ctx gs) := by
  unfold restartCmds
  dsimp only
  refine UnitsKept.trans ?_ (.foldl (fun s q => (modQueue_units _ _ _).trans (refreshQueue_units _ _)) _ _)
  refine UnitsKept.trans ?_ (modHub_units _ _)
  refine UnitsKept.trans ?_ (.foldl (fun s x => modHub_units _ _) _ _)
  exact .of_eq rfl rfl rfl rfl

theorem completeAgain_units (gs : List (Nat × Graph)) (s : State) (o : HeldOut) : UnitsKept s (completeAgain gs s o) := by
  unfold completeAgain
  dsimp only
  split
  · exact (modQueue_units _ _ _).trans (refreshQueue_units _ _)
  · exact (modQueue_units _ _ _).trans (refreshQueue_units _ _)
  · exact .refl s

theorem reloadGraph_units (save : Nat) (s : State) (e : Nat × Graph) : UnitsKept s (reloadGraph save s e) := by
  unfold reloadGraph
  dsimp only
  have h : ∀ gs, UnitsKept s ((State.copyRange { s with graphs := gs } (save + e.2.qSnapOff) (save + e.2.qOff) e.2.qBytes).setBytes
      (save + e.2.recOff) e.2.record) := fun gs =>
    ((graphs_units s gs).trans (copyRange_units _ _ _ _)).trans (setBytes_units _ _ _)
  split
  · exact h _
  · exact ((h _).trans (modQueue_units _ _ _)).trans (refreshQueue_units _ _)

theorem rehold_units (s : State) (e : Nat × Crew) : UnitsKept s (rehold s e) := by
  unfold rehold
  split
  · exact .refl s
  · split
    · exact .refl s
    · dsimp only
      split
      · exact .refl s
      · exact (modCrew_units _ _ _).trans (addHolds_units _ _)

theorem reloadCrew_units (old : List (Nat × Crew)) (s : State) (e : Nat × Crew) : UnitsKept s (reloadCrew old s e) := by
  unfold reloadCrew
  refine iteInduction (motive := UnitsKept s) (fun _ => crews_units s _) fun _ => ?_
  exact iteInduction (motive := UnitsKept s) (fun _ => crews_units s _) fun _ => crews_units s _

theorem resumeReloaded_units (s : State) (e : Nat × Crew) : UnitsKept s (resumeReloaded s e) := by
  unfold resumeReloaded
  split
  · split
    · exact .refl s
    · exact .getD fun t => restoreCrew_units
  · exact .refl s

/-- A rollback leaves these alone when the way in which its crews come back and go on does. -/
theorem rollbackWith_units {load : List (Nat × Crew) → State → Nat × Crew → State} {go : State → Nat × Crew → State}
    (hl : ∀ old s e, UnitsKept s (load old s e)) (hg : ∀ s e, UnitsKept s (go s e)) (s : State) (ctx : Nat) :
    UnitsKept s (rollbackWith load go s ctx) := by
  unfold rollbackWith
  split
  · exact .refl s
  · dsimp only
    refine UnitsKept.trans ?_ ((writeHeader_units _ _).trans (linkGraphs_units _ _))
    have hb : ∀ l gs outs gs' undo d, UnitsKept s (State.blackbox (List.foldl (fun s (u : Nat × BitVec 512) =>
        (s.setBytes (u.1 * 64) (bytesOf u.2.toNat 64)).unpoison (u.1 * 64) 64)
        (List.foldl (completeAgain gs') ((restartCmds (List.foldl freeCrew s l) ctx gs).modCtx ctx fun x =>
          { x with outs := [], undo := [], sealWanted := !x.sealQ.isEmpty }) outs) undo) 0x06 ctx d) := by
      intro l gs outs gs' undo d
      refine UnitsKept.trans ?_ (blackbox_units _ _ _ _)
      refine UnitsKept.trans ?_ (.foldl (fun s u => (setBytes_units _ _ _).trans (unpoison_units _ _ _)) _ _)
      refine UnitsKept.trans ?_ (.foldl (completeAgain_units _) _ _)
      exact ((UnitsKept.foldl freeCrew_units l s).trans (restartCmds_units _ _ _)).trans (modCtx_units _ _ _)
    split
    · refine UnitsKept.trans ?_ (.foldl hg _ _)
      refine UnitsKept.trans ?_ (.foldl rehold_units _ _)
      refine UnitsKept.trans ?_ (.foldl (hl _) _ _)
      refine UnitsKept.trans ?_ (.foldl (reloadGraph_units _) _ _)
      refine UnitsKept.trans ?_ (graphs_units _ _)
      exact hb _ _ _ _ _ _
    · refine UnitsKept.trans ?_ (.foldl (fun s g => endGraph_units _ _ _ _) _ _)
      exact hb _ _ _ _ _ _

theorem rollbackCtx_units (s : State) (ctx : Nat) : UnitsKept s (rollbackCtx s ctx) :=
  rollbackWith_units reloadCrew_units resumeReloaded_units s ctx

/-! ## Black-box records -/

/-- The newest record of the black box is the one that has been made, with its kind and unit (Table 4.2). -/
theorem blackbox_head (s : State) (kind unit detail : Nat) :
    ∃ r, (s.blackbox kind unit detail).mgmt.blackbox = (r :: s.mgmt.blackbox).take 4096 ∧ fld r 72 8 = kind % 256 ∧
      fld r 32 32 = unit % 2 ^ 32 := by
  refine ⟨_, rfl, ?_, ?_⟩
  · simp only [fld, bits, BitVec.toNat_ofNat, Nat.shiftRight_eq_div_pow]
    omega
  · simp only [fld, bits, BitVec.toNat_ofNat, Nat.shiftRight_eq_div_pow]
    omega

theorem blackbox_kind (s : State) (kind unit detail : Nat) :
    ∃ r, (s.blackbox kind unit detail).mgmt.blackbox.head? = some r ∧ fld r 72 8 = kind % 256 := by
  obtain ⟨r, hr, hk, _⟩ := blackbox_head s kind unit detail
  exact ⟨r, by rw [hr]; rfl, hk⟩

end Sys2Proof.Machine
end

