-- ==== Sys2Proof/Proofs/Power.lean ====
section
/-! SUPPORT. Following the power shelf (O47): what frames, evaluations, ceilings and the passing of time do (R26 to R30, R133 to R143). -/

namespace Sys2Proof.Machine

/-! ## Telemetry frames (R26 to R30) -/

theorem span_eq_range' (lo n : Nat) : span lo n = List.range' lo n := by
  induction n generalizing lo with
  | zero => rfl
  | succ n ih => rw [span, ih, List.range'_succ]

theorem span_zero_eq_range (n : Nat) : span 0 n = List.range n := by rw [span_eq_range', List.range_eq_range']

theorem frameByte_eq (f : BitVec 128) (i : Nat) : frameByte f i = f.toNat / 2 ^ (8 * i) % 256 := by
  simp [frameByte, fld, bits, Nat.shiftRight_eq_div_pow]

theorem frameByte_zero (f : BitVec 128) : frameByte f 0 = f.toNat % 256 := by rw [frameByte_eq, Nat.mul_zero, Nat.pow_zero, Nat.div_one]

theorem frameByte_last (f : BitVec 128) : frameByte f 15 = f.toNat / 2 ^ 120 := by
  have h := f.isLt
  rw [frameByte_eq]
  omega

/-- The first 14 bytes, which the CRC is of. -/
theorem frameBytes_eq (f : BitVec 128) : (span 0 14).map (frameByte f) = (List.range 14).map fun i => f.toNat / 2 ^ (8 * i) % 256 := by
  rw [span_zero_eq_range, funext (frameByte_eq f)]

@[simp] theorem startSupplyLoss_power (s : State) (b : Bool) : (startSupplyLoss s b).power = s.power := by
  unfold startSupplyLoss; split <;> rfl

@[simp] theorem startSupplyLoss_slStarted (s : State) (b : Bool) : (startSupplyLoss s b).mgmt.slStarted = true := by
  unfold startSupplyLoss
  split
  · assumption
  · rfl

section
variable {f : BitVec 128} {idle : Nat} {clean : Bool} {s : State}

/-- A frame that breaks the rules of R27: its idle line is too short, its first byte is not 0xA5, or its bytes did not arrive cleanly. -/
theorem pstpFrame_broken (hd : s.power.due = none) (hl : s.power.dueLost = false)
    (hb : idle < 20 ∨ frameByte f 0 ≠ 0xA5 ∨ clean = false) :
    pstpFrame f idle clean s = some (s.modPower fun p => { p with framerr := min 255 (p.framerr + 1) }) := by
  unfold pstpFrame
  simp only [hd, hl, Option.isSome_none, Bool.or_false, Bool.false_eq_true, if_false]
  rw [if_pos (by simpa [or_assoc] using hb)]
  rfl

/-- A frame that keeps the rules is past the first test. -/
theorem pstpFrame_sound (hb : ¬(idle < 20 ∨ frameByte f 0 ≠ 0xA5 ∨ clean = false)) :
    (idle < 20 || frameByte f 0 ≠ 0xA5 || !clean) = false := by simpa [or_assoc, and_assoc] using hb

theorem pstpFrame_crc (hd : s.power.due = none) (hl : s.power.dueLost = false)
    (hb : ¬(idle < 20 ∨ frameByte f 0 ≠ 0xA5 ∨ clean = false))
    (hc : crc16 ((span 0 14).map (frameByte f)) ≠ frameByte f 14 * 256 + frameByte f 15) :
    pstpFrame f idle clean s = some (s.modPower fun p => { p with crcerr := min 255 (p.crcerr + 1) }) := by
  unfold pstpFrame
  simp only [hd, hl, Option.isSome_none, Bool.or_false, Bool.false_eq_true, if_false]
  rw [if_neg (by rw [pstpFrame_sound hb]; exact Bool.false_ne_true), if_pos hc]
  rfl

theorem pstpFrame_repeated (hd : s.power.due = none) (hl : s.power.dueLost = false)
    (hb : ¬(idle < 20 ∨ frameByte f 0 ≠ 0xA5 ∨ clean = false))
    (hc : crc16 ((span 0 14).map (frameByte f)) = frameByte f 14 * 256 + frameByte f 15)
    (hs : s.power.lastSeq = some (frameByte f 1)) : pstpFrame f idle clean s = some s := by
  unfold pstpFrame
  simp only [hd, hl, Option.isSome_none, Bool.or_false, Bool.false_eq_true, if_false]
  rw [if_neg (by rw [pstpFrame_sound hb]; exact Bool.false_ne_true), if_neg (not_not_intro hc), if_pos hs]

/-- The end of a loss, with an accepted frame, is told to the black box. -/
theorem telemetryBack (s : State) :
    ∃ u, (if s.power.lost then (s.modPower fun p => { p with lost := false }).blackbox 0x0F 0 1 else s) = u ∧
      u.power = { s.power with lost := false } ∧ u.devtime = s.devtime ∧ u.mgmt.slStarted = s.mgmt.slStarted := by
  refine ⟨_, rfl, ?_⟩
  split
  · exact ⟨rfl, rfl, rfl⟩
  · next h =>
    refine ⟨?_, rfl, rfl⟩
    rw [← Bool.not_eq_true _ |>.mp h]

theorem pstpFrame_accepted (hd : s.power.due = none) (hl : s.power.dueLost = false)
    (hb : ¬(idle < 20 ∨ frameByte f 0 ≠ 0xA5 ∨ clean = false))
    (hc : crc16 ((span 0 14).map (frameByte f)) = frameByte f 14 * 256 + frameByte f 15)
    (hs : s.power.lastSeq ≠ some (frameByte f 1)) :
    ∃ t, pstpFrame f idle clean s = some t ∧ t.power.lastSeq = some (frameByte f 1) ∧ t.power.lastFrame = s.devtime ∧
      t.power.lost = false ∧ t.power.due.isSome ∧ t.power.batt = (frameByte f 6).testBit 1 ∧
      t.power.lastFdev = BitVec.ofNat 16 (frameByte f 2 * 256 + frameByte f 3) ∧
      t.power.lastVbus = BitVec.ofNat 16 (frameByte f 4 * 256 + frameByte f 5) ∧
      t.power.missed = min 255 (s.power.missed + match s.power.lastSeq with | some l => (frameByte f 1 + 511 - l) % 256 | none => 0) ∧
      t.mgmt.slStarted = (s.mgmt.slStarted || (frameByte f 6).testBit 0) := by
  obtain ⟨u, hu, hp, ht, hm⟩ := telemetryBack s
  unfold pstpFrame
  simp only [hd, hl, Option.isSome_none, Bool.or_false, Bool.false_eq_true, if_false]
  rw [if_neg (by rw [pstpFrame_sound hb]; exact Bool.false_ne_true), if_neg (not_not_intro hc), if_neg hs, hu]
  refine ⟨_, rfl, ?_⟩
  split
  · next h => simp [hp, ht, h, sat255] <;> rfl
  · next h => simp [hp, ht, hm, h, sat255] <;> rfl

end

/-- Two bytes as a 16-bit reading. -/
theorem toNat_ofNat_bytes (f : BitVec 128) (i j : Nat) :
    (BitVec.ofNat 16 (frameByte f i * 256 + frameByte f j)).toNat = frameByte f i * 256 + frameByte f j := by
  have hi := Nat.mod_lt (f.toNat / 2 ^ (8 * i)) (show 256 > 0 by decide)
  have hj := Nat.mod_lt (f.toNat / 2 ^ (8 * j)) (show 256 > 0 by decide)
  rw [BitVec.toNat_ofNat, frameByte_eq, frameByte_eq, Nat.mod_eq_of_lt (by omega)]

/-! ## Losses and evaluations (R134 to R137) -/

theorem telemetryLost_eq {s : State} (hl : s.power.lost = false) (hd : s.power.lastFrame + 1000000 ≤ s.devtime) :
    telemetryLost s = some ((s.modPower fun p => { p with lost := true, dueLost := true }).blackbox 0x0F 0 0) := by
  simp [telemetryLost, hl, hd]

/-- What an evaluation leaves of the power registers, with CEIL from LVL at the level that it finds. -/
theorem evaluate_eq (p : Power) (raw : Nat) (skip : Bool) :
    p.evaluate raw skip = { p with
      rise := (p.evaluate raw skip).rise, low := (p.evaluate raw skip).low, level := (p.evaluate raw skip).level, raw := raw
      ceil := fld (vget p.lvlEff (p.evaluate raw skip).level 0) 0 3 } := by
  unfold Power.evaluate
  dsimp only
  split_ifs <;> rfl

/-- A lower level is taken at once. -/
theorem evaluate_level_of_lt {p : Power} {raw : Nat} (skip : Bool) (h : raw < p.level) : (p.evaluate raw skip).level = raw := by
  unfold Power.evaluate
  cases skip <;> simp [h]

theorem evaluate_level_of_eq {p : Power} {raw : Nat} (skip : Bool) (h : raw = p.level) : (p.evaluate raw skip).level = p.level := by
  unfold Power.evaluate
  cases skip <;> simp [h]

/-- A higher level is taken at the third evaluation in a row that finds one. -/
theorem evaluate_level_of_gt {p : Power} {raw : Nat} (h : p.level < raw) (hr : p.rise < 2) : (p.evaluate raw false).level = p.level := by
  have h1 : ¬raw < p.level := by omega
  have h2 : ¬raw = p.level := by omega
  have h3 : ¬p.rise + 1 = 3 := by omega
  unfold Power.evaluate
  simp [h1, h2, h3]

theorem setCeiling_power (s : State) (k : Nat) : (setCeiling s k).power = { s.power with eceil := k } := by
  unfold setCeiling
  dsimp only
  split
  · exact (UnitsKept.foldl shedCrew_units _ _).power
  · exact (UnitsKept.foldl unshedCrew_units _ _).power

/-- The move of ECEIL at the end of an evaluation changes it and its next step alone, and takes it down to CEIL at once (R137). -/
theorem moveCeiling_power (s : State) :
    (moveCeiling s).power = { s.power with eceil := (moveCeiling s).power.eceil, stepAt := (moveCeiling s).power.stepAt } ∧
    (s.power.ceil < s.power.eceil → (moveCeiling s).power.eceil = s.power.ceil) := by
  unfold moveCeiling
  dsimp only
  split
  · simp [setCeiling_power]
  · next h =>
    refine ⟨?_, fun hc => absurd hc h⟩
    split
    · split
      · rfl
      · simp [setCeiling_power]
    · rfl

theorem evaluateWith_power (s : State) (raw : Power → Nat) (skip : Bool) :
    let p := s.power.latch.evaluate (raw s.power.latch) skip
    (evaluateWith s raw skip).power =
      { p with eceil := (evaluateWith s raw skip).power.eceil, stepAt := (evaluateWith s raw skip).power.stepAt } ∧
    (p.ceil < p.eceil → (evaluateWith s raw skip).power.eceil = p.ceil) := by
  intro p
  unfold evaluateWith
  dsimp only
  split
  · exact moveCeiling_power _
  · exact moveCeiling_power _

theorem droopEvaluation_frame {s : State} {skip : Bool} (hl : s.power.dueLost = false) (hd : s.power.due = some skip) :
    ∃ raw : Power → Nat, droopEvaluation s = some (evaluateWith (s.modPower fun p => { p with due := none }) raw skip) :=
  ⟨fun p => if p.lost then min (rawLevel p) (fld p.drpctlEff 15 3) else rawLevel p, by simp [droopEvaluation, hl, hd]⟩

theorem eceilStep_eq {s : State} {a : Nat} (hs : s.power.stepAt = some a) (ha : a ≤ s.devtime) (hc : s.power.eceil < s.power.ceil) :
    eceilStep s = some ((setCeiling s (s.power.eceil + 1)).modPower fun p =>
      { p with stepAt := if p.eceil < p.ceil then some (a + 1000000) else none }) := by
  simp [eceilStep, hs, ha, hc]

/-! ## The passing of time (R139, R143) -/

/-- A map that keeps the keys of a table maps what is found. -/
theorem Tbl.find_map {α β : Type} {g : Nat × α → Nat × β} (hg : ∀ e, (g e).1 = e.1) (t : List (Nat × α)) (k : Nat) :
    Tbl.find (t.map g) k = (Tbl.find t k).map fun v => (g (k, v)).2 := by
  induction t with
  | nil => rfl
  | cons e r ih =>
    obtain ⟨j, v⟩ := e
    have hj := hg (j, v)
    simp only [List.map_cons, Tbl.find]
    rw [hj]
    split
    · next h => subst h; rfl
    · exact ih

theorem clockThread_key (s : State) (dt k scale : Nat) (e : Nat × Thread) : (clockThread s dt k scale e).1 = e.1 := by
  unfold clockThread
  dsimp only
  split <;> rfl

theorem passTime_eq (s : State) {dt : Nat} (h : dt ≠ 0) :
    (passTime s dt).devtime = s.devtime + dt ∧ (passTime s dt).mem = s.mem ∧
    (passTime s dt).threads = s.threads.map (clockThread s dt ((s.devtime + dt) / 1000 - s.devtime / 1000)
      (fld (vget s.power.lvlEff s.power.level 0) 8 8)) := by
  unfold passTime
  dsimp only
  rw [if_neg h]
  exact ⟨rfl, rfl, rfl⟩

/-- The slot of a crew's thread is listed. -/
theorem find_of_crew {s : State} {core slot : Nat} (h : (s.thread core slot).ref.crew ≠ 0) :
    Tbl.find s.threads (core * 8 + slot) = some (s.thread core slot) := by
  unfold State.thread Tbl.get at h ⊢
  cases hf : Tbl.find s.threads (core * 8 + slot) with
  | none => rw [hf] at h; exact absurd rfl h
  | some t => rfl

/-- A thread that is neither halted, fenced nor parked by shedding has its budget refilled (R143). -/
theorem clockThread_ebud {s : State} {core slot dt k scale : Nat} (hs : slot < 8) (hk : k ≠ 0)
    (hc : (s.thread core slot).ref.crew ≠ 0) (hh : (s.thread core slot).halted = false)
    (hf : s.fenceWait core slot (s.thread core slot) = false) (hp : s.shedParked (s.thread core slot).ref.crew = false) :
    (clockThread s dt k scale (core * 8 + slot, s.thread core slot)).2.csr = ((s.thread core slot).refill scale k).csr := by
  have h1 : (core * 8 + slot) / 8 = core := by omega
  have h2 : (core * 8 + slot) % 8 = slot := by omega
  unfold clockThread
  simp only [h1, h2, hc, hh, hf, hp, hk, if_false, Bool.or_self, decide_false, Bool.false_eq_true]
  exact (apply_ite Thread.csr _ _ _).trans (ite_self _)

theorem refill_thread {s : State} {core slot dt : Nat} (hs : slot < 8) (hd : dt ≠ 0) (hk : (s.devtime + dt) / 1000 - s.devtime / 1000 = 1)
    (hc : (s.thread core slot).ref.crew ≠ 0) (hh : (s.thread core slot).halted = false)
    (hf : s.fenceWait core slot (s.thread core slot) = false) (hp : s.shedParked (s.thread core slot).ref.crew = false) :
    ((passTime s dt).thread core slot).csr =
      ((s.thread core slot).refill (fld (vget s.power.lvlEff s.power.level 0) 8 8) 1).csr := by
  obtain ⟨_, _, ht⟩ := passTime_eq s hd
  rw [State.thread, Tbl.get, ht, Tbl.find_map (clockThread_key _ _ _ _), find_of_crew hc, hk]
  exact clockThread_ebud hs Nat.one_ne_zero hc hh hf hp

/-! ## The statement -/

theorem pstpFrame_follows (f : BitVec 128) (idle : Nat) (clean : Bool) (s : State) (hd : s.power.due = none) (hl : s.power.dueLost = false) :
    let broken := idle < 20 ∨ f.toNat % 256 ≠ 0xA5 ∨ clean = false
    let crcOk := crc16 ((List.range 14).map fun i => f.toNat / 2 ^ (8 * i) % 256) = f.toNat / 2 ^ 112 % 256 * 256 + f.toNat / 2 ^ 120
    let seq := f.toNat / 2 ^ 8 % 256
    let flags := f.toNat / 2 ^ 48 % 256
    (broken → exec (.pstpFrame f idle clean) s = .next (s.modPower fun p => { p with framerr := min 255 (p.framerr + 1) })) ∧
    (¬broken → ¬crcOk → exec (.pstpFrame f idle clean) s = .next (s.modPower fun p => { p with crcerr := min 255 (p.crcerr + 1) })) ∧
    (¬broken → crcOk → s.power.lastSeq = some seq → exec (.pstpFrame f idle clean) s = .next s) ∧
    (¬broken → crcOk → s.power.lastSeq ≠ some seq →
      ∃ t, exec (.pstpFrame f idle clean) s = .next t ∧ t.power.lastSeq = some seq ∧ t.power.lastFrame = s.devtime ∧
        t.power.lost = false ∧ t.power.due.isSome ∧ t.power.batt = flags.testBit 1 ∧
        t.power.lastFdev.toNat = f.toNat / 2 ^ 16 % 256 * 256 + f.toNat / 2 ^ 24 % 256 ∧
        t.power.lastVbus.toNat = f.toNat / 2 ^ 32 % 256 * 256 + f.toNat / 2 ^ 40 % 256 ∧
        t.power.missed = min 255 (s.power.missed + match s.power.lastSeq with | some l => (seq + 511 - l) % 256 | none => 0) ∧
        t.mgmt.slStarted = (s.mgmt.slStarted || flags.testBit 0)) := by
  have e (i : Nat) := frameByte_eq f i
  have e1 : f.toNat / 2 ^ 8 % 256 = frameByte f 1 := (e 1).symm
  have e2 : f.toNat / 2 ^ 16 % 256 = frameByte f 2 := (e 2).symm
  have e3 : f.toNat / 2 ^ 24 % 256 = frameByte f 3 := (e 3).symm
  have e4 : f.toNat / 2 ^ 32 % 256 = frameByte f 4 := (e 4).symm
  have e5 : f.toNat / 2 ^ 40 % 256 = frameByte f 5 := (e 5).symm
  have e6 : f.toNat / 2 ^ 48 % 256 = frameByte f 6 := (e 6).symm
  have e14 : f.toNat / 2 ^ 112 % 256 = frameByte f 14 := (e 14).symm
  rw [e1, e2, e3, e4, e5, e6, e14, ← frameByte_last, ← frameBytes_eq, ← frameByte_zero]
  refine ⟨fun hb => event_some (pstpFrame_broken hd hl hb), fun hb hc => event_some (pstpFrame_crc hd hl hb hc),
    fun hb hc hs => event_some (pstpFrame_repeated hd hl hb hc hs), fun hb hc hs => ?_⟩
  obtain ⟨t, ht, h1, h2, h3, h4, h5, h6, h7, h8, h9⟩ := pstpFrame_accepted hd hl hb hc hs
  exact ⟨t, event_some ht, h1, h2, h3, h4, h5, by rw [h6, toNat_ofNat_bytes], by rw [h7, toNat_ofNat_bytes], h8, h9⟩

theorem droopEvaluation_follows (s : State) (skip : Bool) (hl : s.power.dueLost = false) (hd : s.power.due = some skip) :
    ∃ t, exec .droopEvaluation s = .next t ∧ t.power.due = none ∧
      (t.power.raw < s.power.level → t.power.level = t.power.raw) ∧ (t.power.raw = s.power.level → t.power.level = s.power.level) ∧
      (s.power.level < t.power.raw → skip = false → s.power.rise < 2 → t.power.level = s.power.level) ∧
      t.power.ceil = fld (vget s.power.lvl t.power.level 0) 0 3 ∧ (t.power.ceil < s.power.eceil → t.power.eceil = t.power.ceil) := by
  obtain ⟨f, hf⟩ := droopEvaluation_frame hl hd
  refine ⟨_, event_some hf, ?_⟩
  obtain ⟨hp, hc⟩ := evaluateWith_power (s.modPower fun p => { p with due := none }) f skip
  generalize (evaluateWith _ _ _).power = q at hp hc ⊢
  generalize f _ = raw at hp hc
  rw [evaluate_eq] at hp hc
  rw [hp] at hc ⊢
  exact ⟨rfl, fun h => evaluate_level_of_lt skip h, fun h => evaluate_level_of_eq skip h,
    fun h hs hr => by subst hs; exact evaluate_level_of_gt h hr, rfl, hc⟩

theorem eceilStep_follows (s : State) (a : Nat) (hs : s.power.stepAt = some a) (ha : a ≤ s.devtime) (hc : s.power.eceil < s.power.ceil) :
    ∃ t, exec .eceilStep s = .next t ∧ t.power.eceil = s.power.eceil + 1 ∧
      t.power.stepAt = if s.power.eceil + 1 < s.power.ceil then some (a + 1000000) else none := by
  refine ⟨_, event_some (eceilStep_eq hs ha hc), ?_⟩
  simp [setCeiling_power]

theorem energyRefill_follows (s : State) : ∃ t, exec .energyRefill s = .next t ∧ t.devtime = (s.devtime / 1000 + 1) * 1000 ∧ t.mem = s.mem ∧
    ∀ core slot, slot < 8 →
      let th := s.thread core slot
      th.ref.crew ≠ 0 → th.halted = false → s.fenceWait core slot th = false → s.shedParked th.ref.crew = false →
      (t.thread core slot).csr.ebud = word (min (fld th.csr.ecap 0 40)
        (fld th.csr.ebud 0 40 + fld th.csr.eref 0 24 * fld (vget s.power.lvlEff s.power.level 0) 8 8 / 100)) := by
  have hd : 1000 - s.devtime % 1000 ≠ 0 := by omega
  obtain ⟨ht, hm, _⟩ := passTime_eq s hd
  refine ⟨passTime s (1000 - s.devtime % 1000), rfl, by rw [ht]; omega, hm, ?_⟩
  intro core slot hs th hc hh hf hp
  rw [refill_thread hs hd (by omega) hc hh hf hp, Thread.refill, Nat.one_mul]

theorem wsRefreshWindow_follows (s : State) : ∃ t, exec .wsRefreshWindow s = .next t ∧ t.devtime = (s.devtime / 500 + 1) * 500 ∧
    t.mem = s.mem := by
  obtain ⟨ht, hm, _⟩ := passTime_eq s (dt := 500 - s.devtime % 500) (by omega)
  exact ⟨passTime s (500 - s.devtime % 500), rfl, by rw [ht]; omega, hm⟩

/-- Settles O47, a clause at a time. -/
theorem powerFollows : Obligations.PowerFollows := by
  refine ⟨pstpFrame_follows, fun s hl hd => ?_, droopEvaluation_follows, eceilStep_follows, fun s => ?_, energyRefill_follows,
    wsRefreshWindow_follows⟩
  · obtain ⟨r, hr, hk⟩ := blackbox_kind (s.modPower fun p => { p with lost := true, dueLost := true }) 0x0F 0 0
    exact ⟨_, r, event_some (telemetryLost_eq hl hd), rfl, rfl, hr, hk⟩
  · show event s (pstpstRead s) = _
    unfold pstpstRead event
    split <;> rfl

end Sys2Proof.Machine
end

