-- ==== Sys2Proof/Proofs/Thermal.lean ====
section
/-! SUPPORT. Sensors, thermal limits, operating points and sleep (O48; R34, R77, R144 to R146). -/

namespace Sys2Proof.Machine

theorem fld_low {w : Nat} (v : BitVec w) (n : Nat) : fld v 0 n = v.toNat % 2 ^ n := rfl

theorem fld_eq {w : Nat} (v : BitVec w) (lo n : Nat) : fld v lo n = v.toNat / 2 ^ lo % 2 ^ n := by
  rw [fld, bits, Nat.shiftRight_eq_div_pow]

theorem clim_eq (s : State) : clim s = s.power.therm.toNat % 256 := fld_low _ _

theorem dlim_eq (s : State) : dlim s = s.power.therm.toNat / 256 % 256 := fld_eq _ _ _

/-! ## Samples (R34, R77, R146) -/

/-- The reading is kept, and makes a trip due where none is due and it is of 115 °C. -/
def State.noteSample (s : State) (kind idx : Nat) (v : BitVec 16) : State :=
  s.modMgmt fun m => { m with
    sensors := Tbl.ins m.sensors (kind * 65536 + idx) v
    tripDue := if m.tripDue.isNone && tripsAt kind (tempOf v) then some (kind, idx) else m.tripDue }

/-- A layer that is throttled counts as cool from the first sample at or below DLIM − 5 °C. -/
def State.coolLayer (s : State) (layer : Nat) (v : BitVec 16) : State :=
  s.modPower fun p => { p with throttled := Tbl.modify p.throttled layer fun x =>
    if 2 * (dlim s - 5) < tempOf v then none else some (x.getD s.devtime) }

theorem sensorSample_eq {kind idx : Nat} (v : BitVec 16) (s : State) (h : idx < sensorCount kind) :
    sensorSample kind idx v s = some (if kind = 0 then sampleCore (s.noteSample kind idx v) idx (tempOf v)
      else if kind = 3 then (s.noteSample kind idx v).coolLayer idx v else s.noteSample kind idx v) := by
  unfold sensorSample
  rw [if_neg (by omega)]
  dsimp only
  split
  · rfl
  · split <;> rfl

/-- What follows a reading leaves the sensors, the trip, threads and memory alone. -/
theorem sensorSample_mgmt {kind idx : Nat} {v : BitVec 16} {s t : State} (h : idx < sensorCount kind)
    (ht : sensorSample kind idx v s = some t) :
    t.mgmt = (s.noteSample kind idx v).mgmt ∧ t.threads = s.threads ∧ t.mem = s.mem := by
  rw [sensorSample_eq v s h] at ht
  cases ht
  split
  · exact ⟨rfl, rfl, rfl⟩
  · split <;> exact ⟨rfl, rfl, rfl⟩

theorem noteSample_trips {kind idx : Nat} {v : BitVec 16} {s : State} (hn : s.mgmt.tripDue = none)
    (hk : kind = 0 ∧ 460 ≤ v.toInt ∨ kind = 3 ∧ 230 ≤ v.toInt) : (s.noteSample kind idx v).mgmt.tripDue = some (kind, idx) := by
  have ht : tripsAt kind (tempOf v) = true := by
    unfold tripsAt tempOf
    rcases hk with ⟨rfl, hv⟩ | ⟨rfl, hv⟩
    · simpa using (by omega : 460 ≤ v.toInt.toNat)
    · simpa using (by omega : 230 ≤ v.toInt.toNat)
  simp [State.noteSample, hn, ht]

theorem noteSample_keeps_trip {kind idx : Nat} {v : BitVec 16} {s : State} {x : Nat × Nat} (h : s.mgmt.tripDue = some x) :
    (s.noteSample kind idx v).mgmt.tripDue = some x := by
  simp [State.noteSample, h]

theorem sampleCore_core (s : State) (core v : Nat) :
    ((sampleCore s core v).core core).temp = v ∧
    ((sampleCore s core v).core core).hot = if 4 * clim s < v then (s.core core).hot + 1 else 0 := by
  have h := core_modCore_same s core fun c => { c with
    temp := v, hot := if decide (4 * clim s < v) then c.hot + 1 else 0
    hotSince := if decide (4 * clim s < v) then c.hotSince else none }
  exact ⟨congrArg Core.temp h, (congrArg Core.hot h).trans (by simp)⟩

theorem sensorSample_follows (kind idx : Nat) (v : BitVec 16) (s : State) (h : idx < [4096, 1024, 1024, 32, 4, 1].getD kind 0) :
    ∃ t, exec (.sensorSample kind idx v) s = .next t ∧ t.threads = s.threads ∧ t.mem = s.mem ∧
      Tbl.find t.mgmt.sensors (kind * 65536 + idx) = some v ∧
      (s.mgmt.tripDue = none → kind = 0 ∧ 460 ≤ v.toInt ∨ kind = 3 ∧ 230 ≤ v.toInt → t.mgmt.tripDue = some (kind, idx)) ∧
      (∀ x, s.mgmt.tripDue = some x → t.mgmt.tripDue = some x) ∧
      (kind = 0 → (t.core idx).temp = v.toInt.toNat ∧
        (t.core idx).hot = if 4 * (s.power.therm.toNat % 256) < v.toInt.toNat then (s.core idx).hot + 1 else 0) ∧
      (∀ x, kind = 3 → Tbl.find s.power.throttled idx = some x → Tbl.find t.power.throttled idx =
        some (if 2 * (s.power.therm.toNat / 256 % 256 - 5) < v.toInt.toNat then none else some (x.getD s.devtime))) := by
  have he := sensorSample_eq v s h
  obtain ⟨hm, hth, hmem⟩ := sensorSample_mgmt h he
  refine ⟨_, event_some he, hth, hmem, ?_, ?_, ?_, ?_, ?_⟩
  · rw [hm]; exact (Tbl.find_ins _ _ _ _).trans (if_pos rfl)
  · rw [hm]; exact noteSample_trips
  · rw [hm]; exact fun x => noteSample_keeps_trip
  · rintro rfl
    rw [if_pos rfl, ← clim_eq]
    exact sampleCore_core (s.noteSample 0 idx v) idx (tempOf v)
  · rintro x rfl hx
    rw [if_neg (by decide), if_pos rfl, ← dlim_eq]
    refine (Tbl.find_modify _ _ _ _).trans ?_
    rw [if_pos rfl]
    exact congrArg (Option.map _) hx

/-! ## Thermal limits (R146) -/

theorem thermalCapDrop_eq {core : Nat} {s : State} (h : 10 ≤ (s.core core).hot) :
    thermalCapDrop core s = some ((s.modCore core fun c => { c with hot := 0, hotSince := some (c.hotSince.getD s.devtime) }).modPower
      fun p => { p with caps := Tbl.put 800 p.caps (quadOf core) (pointDown (s.cap (quadOf core))) }) := by
  unfold thermalCapDrop
  rw [if_neg (by omega)]
  rfl

theorem thermalCapDrop_follows (core : Nat) (s : State) (h : 10 ≤ (s.core core).hot) :
    ∃ t, exec (.thermalCapDrop core) s = .next t ∧ (t.core core).hot = 0 ∧ t.cap (quadOf core) = pointDown (s.cap (quadOf core)) ∧
      t.threads = s.threads ∧ t.mem = s.mem :=
  have hc := core_modCore_same s core fun c => { c with hot := 0, hotSince := some (c.hotSince.getD s.devtime) }
  ⟨_, event_some (thermalCapDrop_eq h), congrArg Core.hot hc, Tbl.get_put_same 800 s.power.caps _ _, rfl, rfl⟩

theorem thermalCapRise_eq {quad since : Nat} {s : State} (hc : Tbl.find s.power.coolSince quad = some since)
    (ht : since + 1000000 ≤ s.devtime) (hq : s.cap quad < 800) :
    thermalCapRise quad s = some (s.modPower fun p => { p with
      caps := Tbl.put 800 p.caps quad (pointUp (s.cap quad)), coolSince := Tbl.ins p.coolSince quad s.devtime }) := by
  simp [thermalCapRise, hc, ht, hq]

theorem dramThrottle_eq {layer : Nat} {v : BitVec 16} {s : State} (hl : layer < 32)
    (hv : Tbl.find s.mgmt.sensors (3 * 65536 + layer) = some v) (hh : 2 * dlim s < tempOf v)
    (hn : Tbl.find s.power.throttled layer = none) :
    dramThrottle layer s = some (s.modPower fun p => { p with throttled := Tbl.ins p.throttled layer none }) := by
  have ht : layerTemp s layer = tempOf v := by rw [layerTemp, hv]; rfl
  simp [dramThrottle, hl, ht, hh, hn]

theorem dramThrottleLift_eq {layer since : Nat} {v : BitVec 16} {s : State}
    (hv : Tbl.find s.mgmt.sensors (3 * 65536 + layer) = some v) (hs : Tbl.find s.power.throttled layer = some (some since))
    (hd : since + 1000000 ≤ s.devtime) (hc : tempOf v ≤ 2 * (dlim s - 5)) :
    dramThrottleLift layer s = some (s.modPower fun p => { p with throttled := Tbl.del p.throttled layer }) := by
  have ht : layerTemp s layer = tempOf v := by rw [layerTemp, hv]; rfl
  simp [dramThrottleLift, hs, ht, hd, hc]

theorem thermtrip_eq {kind idx : Nat} {s : State} (hd : s.mgmt.tripDue = some (kind, idx)) (ht : s.mgmt.thermtrip = false) :
    thermtrip kind idx s =
      some ((s.modMgmt fun m => { m with thermtrip := true, stopped := true, tripDue := none }).blackbox 0x09 0 idx) := by
  simp [thermtrip, hd, ht]

theorem thermtrip_follows (kind idx : Nat) (s : State) (hd : s.mgmt.tripDue = some (kind, idx)) (ht : s.mgmt.thermtrip = false) :
    ∃ t r, exec (.thermtrip kind idx) s = .next t ∧ t.mgmt.stopped = true ∧ t.mgmt.thermtrip = true ∧
      t.mgmt.blackbox.head? = some r ∧ fld r 72 8 = 9 ∧ t.threads = s.threads ∧ t.mem = s.mem := by
  obtain ⟨r, hr, hk⟩ := blackbox_kind (s.modMgmt fun m => { m with thermtrip := true, stopped := true, tripDue := none }) 0x09 0 idx
  exact ⟨_, r, event_some (thermtrip_eq hd ht), rfl, rfl, hr, hk, rfl, rfl⟩

/-! ## Operating points and sleep (R144, R145) -/

theorem operatingPointChange_follows (quad : Nat) (s : State) (h : quad < 1024) :
    ∃ t, exec (.operatingPointChange quad) s = .next t ∧ t.threads = s.threads ∧ t.mem = s.mem ∧ t.point quad =
      min (if (quadCores quad).any (fun c => ((List.range 8).any fun k => slotReady s c k) ||
        (portPresses c).any fun p => (s.press p).busy) then 800 else 200) (s.cap quad) := by
  rw [← span_zero_eq_range]
  exact ⟨_, event_some (if_pos h), rfl, rfl, Tbl.get_put_same 200 s.power.points quad _⟩

/-- A core has a depth to sleep at: that of SLEEPD, or 1 beside halted slots. -/
theorem sleepDepth_ne_zero {s : State} {core : Nat}
    (h : (s.core core).sleepd.toNat % 4 ≠ 0 ∨ ∃ k, k < 8 ∧ (s.thread core k).occ = true ∧ (s.thread core k).halted = true) :
    s.sleepDepth core ≠ 0 := by
  unfold State.sleepDepth
  split
  · exact Nat.one_ne_zero
  · next hn =>
    rcases h with h | ⟨k, hk, ho, hh⟩
    · exact h
    · exact absurd (List.any_eq_true.mpr ⟨k, List.mem_range.mpr hk, by rw [ho, hh]; rfl⟩) hn

theorem coreSleep_eq {core : Nat} {s : State} (hc : core < 4096) (ha : (s.core core).asleep = false) (hd : s.sleepDepth core ≠ 0)
    (hm : mayDoze s core = true) : coreSleep core s = some (s.modCore core fun c => { c with asleep := true }) := by
  simp [coreSleep, hc, ha, hd, hm]

theorem coreWake_eq {core : Nat} {s : State} (ha : (s.core core).asleep = true)
    (h : (∃ k, k < 8 ∧ slotStirs s core k = true) ∨ (s.core core).runq ≠ [] ∨ 2 ≤ s.sleepDepth core) :
    coreWake core s = some (s.modCore core fun c => { c with asleep := false, wakeAt := s.devtime + wakeNs s core }) := by
  have hw : ((span 0 8).any (fun k => slotStirs s core k) || !(s.core core).runq.isEmpty || decide (2 ≤ s.sleepDepth core)) = true := by
    rcases h with ⟨k, hk, hs⟩ | h | h
    · have : (span 0 8).any (fun k => slotStirs s core k) = true :=
        List.any_eq_true.mpr ⟨k, mem_span.mpr ⟨Nat.zero_le _, by omega⟩, hs⟩
      rw [this]; rfl
    · simp [h]
    · simp [h]
  unfold coreWake
  dsimp only
  rw [ha, Bool.true_and, if_pos hw]

/-- Settles O48, a clause at a time. -/
theorem thermalAndSleep : Obligations.ThermalAndSleep := by
  refine ⟨sensorSample_follows, thermalCapDrop_follows, fun quad since s hc ht hq => ?_, fun layer v s hl hv hh hn => ?_,
    fun layer since v s hv hs hd hc => ?_, thermtrip_follows, operatingPointChange_follows, fun core s hc ha hm hd => ?_,
    fun core s ha h => ?_⟩
  · exact ⟨_, event_some (thermalCapRise_eq hc ht hq), Tbl.get_put_same 800 s.power.caps quad _, rfl, rfl⟩
  · rw [← dlim_eq] at hh
    exact event_some (dramThrottle_eq hl hv hh hn)
  · rw [← dlim_eq] at hc
    exact event_some (dramThrottleLift_eq hv hs hd hc)
  · exact ⟨_, event_some (coreSleep_eq hc ha (sleepDepth_ne_zero hd) hm), congrArg Core.asleep (core_modCore_same s core _), rfl, rfl⟩
  · have hw := core_modCore_same s core fun c => { c with asleep := false, wakeAt := s.devtime + wakeNs s core }
    exact ⟨_, event_some (coreWake_eq ha h), congrArg Core.asleep hw, rfl, rfl, congrArg Core.wakeAt hw⟩

end Sys2Proof.Machine
end

