-- ==== Sys2Proof/Proofs/Resets.lean ====
section
/-! SUPPORT. Resets, boot, pins and structure errors (O49; R18, R31 to R34, R55, R76, R80 to R86, R95). -/

namespace Sys2Proof.Machine

/-! ## What a reset carries over (R96) -/

theorem remarkCtx_units (s : State) (n : Nat) : UnitsKept s (remarkCtx s n) := by
  unfold remarkCtx
  split
  · exact .refl s
  · dsimp only
    split
    · exact crews_units s _
    · exact ((crews_units s _).trans (modCtx_units _ _ _)).trans (writeHeader_units _ _)

theorem loseCtx_units (s : State) (n : Nat) : UnitsKept s (loseCtx s n) := by
  unfold loseCtx
  split
  · exact .refl s
  · split
    · exact rollbackWith_units (fun _ s e => crews_units s _) (fun s _ => .refl s) s n
    · dsimp only
      refine UnitsKept.trans ?_ (blackbox_units _ _ _ _)
      exact ((UnitsKept.foldl freeCrew_units _ s).trans (graphs_units _ _)).trans ⟨rfl, rfl, rfl, fun _ h => h⟩

theorem dropCtx0_units (s : State) : UnitsKept s (dropCtx0 s) :=
  (UnitsKept.foldl freeCrew_units ((s.crews.filter fun e => e.2.ctx = 0).map (·.1)) s).trans (.of_eq rfl rfl rfl rfl)

theorem recreate_units (s : State) : UnitsKept s (recreate s) := by
  unfold recreate
  dsimp only
  refine (dropCtx0_units s).trans ?_
  split
  · refine .foldl (fun s n => ?_) _ _
    split
    · exact remarkCtx_units s n
    · exact loseCtx_units s n
  · exact .foldl loseCtx_units _ _

/-- The state as the management processor finds it after a reset: contexts re-created, and the holds of saved crews registered. -/
def reborn (s : State) : State := (recreate { s with holds := [] }).crews.foldl rehold (recreate { s with holds := [] })

theorem reborn_units (s : State) : UnitsKept s (reborn s) :=
  ((holds_units s []).trans (recreate_units _)).trans (.foldl rehold_units _ _)

theorem resetCommon_mgmt (s : State) : (resetCommon s).mgmt = { State.mgmt0 with
    blackbox := (reborn s).mgmt.blackbox, svn := (reborn s).mgmt.svn, leaf := (reborn s).mgmt.leaf, markers := (reborn s).mgmt.markers
    bank := (reborn s).mgmt.bank, staged := (reborn s).mgmt.staged, flash := (reborn s).mgmt.flash, lostCtx := (reborn s).mgmt.lostCtx
    tripDue := (reborn s).mgmt.tripDue } := rfl

theorem resetCommon_mem (s : State) : (resetCommon s).mem = (reborn s).mem.filter fun e => !spmCell e := rfl

/-- Without contexts and crews there is nothing to carry over but memory. -/
theorem reborn_bare {s : State} (hx : s.ctxs = []) (hc : s.crews = []) :
    (reborn s).mgmt = s.mgmt ∧ (reborn s).mem = s.mem := by
  have hd : dropCtx0 { s with holds := [] } = { s with holds := [], graphs := s.graphs.filter fun g => g.2.ctx ≠ 0 } := by
    simp [dropCtx0, hx, hc, Tbl.del]
  have hr : recreate { s with holds := [] } = { s with holds := [], graphs := s.graphs.filter fun g => g.2.ctx ≠ 0 } := by
    unfold recreate
    rw [hd]
    simp only [hx, List.map_nil]
    split <;> rfl
  have hb : reborn s = { s with holds := [], graphs := s.graphs.filter fun g => g.2.ctx ≠ 0 } := by
    unfold reborn
    rw [hr]
    show s.crews.foldl rehold _ = _
    rw [hc]
    rfl
  rw [hb]
  exact ⟨rfl, rfl⟩

/-- A context that does not checkpoint and has no crew is lost, and the black box told (R78, R96). -/
theorem reborn_lost {s : State} {n : Nat} {c : Ctx} (hn : n ≠ 0) (hx : s.ctxs = [(n, c)]) (hc : s.crews = [])
    (hm : s.mgmt.slMarker = none) (hk : c.ckpt = false) :
    ∃ u : State, u.mgmt.blackbox = s.mgmt.blackbox ∧ (reborn s).mgmt = (u.blackbox 0x06 n 0xFFFFFFFF).mgmt := by
  have hd : dropCtx0 { s with holds := [] } = { s with holds := [], graphs := s.graphs.filter fun g => g.2.ctx ≠ 0 } := by
    simp [dropCtx0, hx, hc, Tbl.del, hn]
  have hf : Tbl.find s.ctxs n = some c := by simp [hx, Tbl.find]
  have hr : recreate { s with holds := [] } = loseCtx { s with holds := [], graphs := s.graphs.filter fun g => g.2.ctx ≠ 0 } n := by
    unfold recreate
    rw [hd]
    simp only [hx, hm, List.map_cons, List.map_nil, List.foldl_cons, List.foldl_nil]
  have hl : ∃ u : State, u.mgmt.blackbox = s.mgmt.blackbox ∧ u.crews = [] ∧
      loseCtx { s with holds := [], graphs := s.graphs.filter fun g => g.2.ctx ≠ 0 } n = u.blackbox 0x06 n 0xFFFFFFFF := by
    unfold loseCtx State.ctx?
    simp only [hf, hk, hc, Bool.false_and, Bool.false_eq_true, if_false, List.filter_nil, List.map_nil, List.foldl_nil]
    refine ⟨_, ?_, ?_, rfl⟩ <;> rfl
  obtain ⟨u, hb, hu, hl⟩ := hl
  refine ⟨u, hb, ?_⟩
  have hcr : (u.blackbox 0x06 n 0xFFFFFFFF).crews = [] := hu
  unfold reborn
  rw [hr, hl, hcr]
  rfl

/-! ## Resets (R31 to R34) -/

/-- What the cold reset itself forgets before contexts are re-created: the black box and DEVTIME. -/
def State.wiped (s : State) : State := { (s.modMgmt fun m => { m with blackbox := [] }) with devtime := 0 }

theorem coldReset_eq {s : State} (h : s.mgmt.pwrgd = true) :
    coldReset s = some ((resetCommon s.wiped).modMgmt fun m => { m with
      tripDue := none, bank := Vector.ofFn fun i : Fin 4 => vget m.bank i.val false ^^ vget m.staged i.val false
      staged := Vector.replicate 4 false }) := by
  simp [coldReset, h, State.wiped]

theorem vget_ofFn {α : Type} {n k : Nat} (f : Fin n → α) (d : α) (h : k < n) : vget (Vector.ofFn f) k d = f ⟨k, h⟩ := by
  simp [vget, h]

/-- Dropping other entries leaves what a key reads. -/
theorem Tbl.find_filter_keep {α : Type} (t : List (Nat × α)) {p : Nat × α → Bool} {k : Nat} (h : ∀ v, p (k, v) = true) :
    Tbl.find (t.filter p) k = Tbl.find t k := by
  induction t with
  | nil => rfl
  | cons e r ih =>
    obtain ⟨j, v⟩ := e
    rw [List.filter_cons]
    split
    · simp only [Tbl.find, ih]
    · next hp =>
      have hj : k ≠ j := fun e => hp (by rw [← e]; exact h v)
      rw [ih, Tbl.find, if_neg hj]

/-- Nothing is found of a key that a filter drops. -/
theorem Tbl.find_filter_drop {α : Type} (t : List (Nat × α)) {p : Nat × α → Bool} {k : Nat} (h : ∀ v, p (k, v) = false) :
    Tbl.find (t.filter p) k = none := by
  induction t with
  | nil => rfl
  | cons e r ih =>
    obtain ⟨j, v⟩ := e
    rw [List.filter_cons]
    split
    · next hp =>
      have hj : k ≠ j := fun e => by rw [← e, h v] at hp; cases hp
      rw [Tbl.find, if_neg hj, ih]
    · exact ih

theorem spmCell_false {a : Nat} (h : ∀ k off, kindOf a ≠ .spm k off) (v : Byte) : spmCell (a, v) = false := by
  unfold spmCell
  split
  · next hk => exact absurd hk (h _ _)
  · rfl

theorem coldReset_follows (s : State) (h : s.mgmt.pwrgd = true) :
    ∃ t, exec .coldReset s = .next t ∧ t.devtime = 0 ∧ t.threads = [] ∧ t.closet = [] ∧
    (s.ctxs = [] → s.crews = [] → t.mgmt.blackbox = []) ∧ t.mgmt.stopped = false ∧ t.mgmt.thermtrip = false ∧ t.hub.ready = false ∧
    (∀ n c, n ≠ 0 → s.ctxs = [(n, c)] → s.crews = [] → s.mgmt.slMarker = none → c.ckpt = false →
      ∃ r, t.mgmt.blackbox = [r] ∧ fld r 72 8 = 6 ∧ fld r 32 32 = n % 2 ^ 32) ∧ t.hub.pkgid = 0 ∧
    t.power = State.power0 ∧ (∀ k, k < 4 → vget t.mgmt.bank k false = (vget s.mgmt.bank k false ^^ vget s.mgmt.staged k false)) ∧
    (s.ctxs = [] → s.crews = [] → ∀ a, (∀ k off, kindOf a ≠ .spm k off) → Tbl.get 0 t.mem a = Tbl.get 0 s.mem a) := by
  refine ⟨_, event_some (coldReset_eq h), rfl, rfl, rfl, fun hx hc => ?_, rfl, rfl, rfl, fun n c hn hx hc hm hk => ?_, rfl, rfl,
    fun k hk => ?_, fun hx hc a ha => ?_⟩
  · exact congrArg Mgmt.blackbox (reborn_bare (s := s.wiped) hx hc).1
  · obtain ⟨u, hb, hu⟩ := reborn_lost (s := s.wiped) hn hx hc hm hk
    obtain ⟨r, hr, h1, h2⟩ := blackbox_head u 0x06 n 0xFFFFFFFF
    refine ⟨r, ?_, h1, h2⟩
    rw [hb] at hr
    exact (congrArg Mgmt.blackbox hu).trans hr
  · have hm := (reborn_units s.wiped).mgmt
    refine (vget_ofFn _ _ hk).trans ?_
    rw [resetCommon_mgmt, hm]
    rfl
  · have hmem := (reborn_bare (s := s.wiped) hx hc).2
    rw [modMgmt_mem, resetCommon_mem, hmem, Tbl.get, Tbl.find_filter_keep _ fun v => by rw [spmCell_false ha]; rfl]
    rfl

theorem warmReset_follows (s : State) : ∃ t, exec .warmReset s = .next t ∧ t.devtime = s.devtime ∧ t.threads = [] ∧
    t.mgmt.thermtrip = s.mgmt.thermtrip ∧ t.mgmt.stopped = s.mgmt.thermtrip ∧ t.hub.ready = false ∧ t.power = State.power0 ∧
    (s.hub.pkgid.getLsbD 31 = true → t.hub.pkgid = s.hub.pkgid) ∧
    (s.ctxs = [] → s.crews = [] → t.mgmt.blackbox = s.mgmt.blackbox) := by
  refine ⟨_, event_some rfl, rfl, rfl, rfl, rfl, rfl, rfl, fun h => ?_, fun hx hc => ?_⟩
  · exact if_pos h
  · show (reborn s).mgmt.blackbox = _
    rw [(reborn_bare hx hc).1]

theorem vstbyFailure_follows (s : State) : ∃ t, exec .vstbyFailure s = .next t ∧ t.mgmt.blackbox = [] ∧ t.mgmt.stopped = s.mgmt.stopped ∧
    (s.mgmt.stopped = false → t = s.modMgmt fun m => { m with blackbox := [] }) ∧
    (s.mgmt.stopped = true → t.mgmt.slMarker = none ∧ ∀ a, a < 0x3000000000 → Tbl.get 0 t.mem a = 0) := by
  cases h : s.mgmt.stopped with
  | false =>
    have he : vstbyFailure s = some (s.modMgmt fun m => { m with blackbox := [] }) := by simp [vstbyFailure, h]
    exact ⟨_, event_some he, rfl, h, fun _ => rfl, fun e => nomatch e⟩
  | true =>
    refine ⟨_, event_some (if_neg (by simp [h])), rfl, h, fun e => (nomatch e),
      fun _ => ⟨rfl, fun a ha => ?_⟩⟩
    dsimp only [modMgmt_mem]
    rw [Tbl.get, Tbl.find_filter_drop]
    · rfl
    · exact fun v => decide_eq_false (by simpa using ha)

/-! ## Supply loss (R33, R95) -/

theorem startSupplyLoss_new {s : State} (h : s.mgmt.slStarted = false) (b : Bool) :
    startSupplyLoss s b = (s.modMgmt fun m => { m with slStarted := true }).blackbox 0x07 0 (b2n b) := by
  simp [startSupplyLoss, h]

@[simp] theorem startSupplyLoss_hub (s : State) (b : Bool) : (startSupplyLoss s b).hub = s.hub := by
  unfold startSupplyLoss; split <;> rfl

theorem slwAssert_follows (s : State) : ∃ t, exec .slwAssert s = .next t ∧ t.hub.slw = true ∧ t.mgmt.slStarted = true ∧
    (s.mgmt.slStarted = false → ∃ r, t.mgmt.blackbox.head? = some r ∧ fld r 72 8 = 7) := by
  refine ⟨_, event_some rfl, by simp, by simp, fun h => ?_⟩
  rw [startSupplyLoss_new (by exact h)]
  exact blackbox_kind _ 0x07 0 _

theorem writeBackAll_ctxs (s : State) : (writeBackAll s).ctxs = s.ctxs := by
  have h : CacheOnly s (writeBackLines s s.dirty) := by
    unfold writeBackLines
    generalize s.dirty.filter _ = l
    induction l generalizing s with
    | nil => exact .refl s
    | cons x r ih =>
      refine CacheOnly.trans ?_ (ih _)
      dsimp only
      split
      · exact (countDram_cache s _ _).trans ⟨_, _, _, _, rfl⟩
      · exact ⟨_, _, _, _, rfl⟩
  obtain ⟨_, _, _, _, h⟩ := h
  unfold writeBackAll
  rw [h]

theorem supplyLossSequence_follows (s : State) (hs : s.mgmt.slStarted = true) (hst : s.mgmt.stopped = false) (hc : s.crews = []) :
    ∃ t r, exec .supplyLossSequence s = .next t ∧ t.mgmt.stopped = true ∧ t.dirty = [] ∧
      t.mgmt.slMarker = some (s.ctxs.map (·.1)) ∧ t.mgmt.blackbox.head? = some r ∧ fld r 72 8 = 8 := by
  have he : supplyLossSequence s =
      some (((writeBackAll s).modMgmt fun m => { m with stopped := true, slMarker := some ((writeBackAll s).ctxs.map (·.1)) }).blackbox 0x08 0
        (sinceKind ((writeBackAll s).modMgmt fun m =>
          { m with stopped := true, slMarker := some ((writeBackAll s).ctxs.map (·.1)) }) 0x07)) := by
    simp [supplyLossSequence, hs, hst, hc, parkAll]
  obtain ⟨r, hr, hk⟩ := blackbox_kind ((writeBackAll s).modMgmt fun m =>
    { m with stopped := true, slMarker := some ((writeBackAll s).ctxs.map (·.1)) }) 0x08 0 (sinceKind ((writeBackAll s).modMgmt fun m =>
    { m with stopped := true, slMarker := some ((writeBackAll s).ctxs.map (·.1)) }) 0x07)
  exact ⟨_, r, event_some he, rfl, rfl, congrArg (fun l : List (Nat × Ctx) => some (l.map Prod.fst)) (writeBackAll_ctxs s), hr, hk⟩

/-! ## Boot (R55, R80 to R83) -/

/-- The state in which the root is there, or is not. -/
def State.rooted (s : State) (root : Option (BitVec 256)) : State := s.modMgmt fun m => { m with root := root }

/-- What boots of each component: the active bank after a warm reset, else the one whose image passes. -/
def State.bootBanks (s : State) : List (Option Bool) :=
  (span 0 4).map fun k => if s.mgmt.verified then some (s.activeBank k) else s.bootBank k

/-- The boot with the banks that it has found. -/
def State.booted (s : State) : State := s.modMgmt fun m => { m with
  running := if m.verified then m.running else m.flash
  bank := Vector.ofFn fun i : Fin 4 => (s.bootBanks.getD i.val none).getD false, verified := true, keyReady := false }

section
variable {s : State}

theorem secureBoot_fails (hr : s.hub.ready = false) (hf : s.hub.fwerr = false) (hs : s.mgmt.stopped = false) :
    secureBoot false s = some ((s.rooted none).modHub fun h => { h with fwerr := true }) := by
  simp [secureBoot, hr, hf, hs, State.rooted]

theorem secureBoot_true (hr : s.hub.ready = false) (hf : s.hub.fwerr = false) (hs : s.mgmt.stopped = false) :
    secureBoot true s =
      if (s.rooted (some (Config.pufRoot Config.helperData))).bootBanks.all Option.isSome then
        some ((createCtx0 (loadConfig (s.rooted (some (Config.pufRoot Config.helperData))).booted)).modHub fun h => { h with ready := true })
      else some ((s.rooted (some (Config.pufRoot Config.helperData))).modHub fun h => { h with fwerr := true }) := by
  simp [secureBoot, hr, hf, hs, State.rooted, State.bootBanks, State.booted]

end

theorem bootBanks_all (s : State) : s.bootBanks.all Option.isSome = true ↔ s.mgmt.verified = true ∨ ∀ k, k < 4 → (s.bootBank k).isSome := by
  unfold State.bootBanks
  rw [List.all_map, List.all_eq_true]
  cases h : s.mgmt.verified
  · simp only [Function.comp, Bool.false_eq_true, if_false, mem_span, false_or]
    exact ⟨fun g k hk => g k ⟨Nat.zero_le _, by omega⟩, fun g k hk => g k (by omega)⟩
  · simp

/-- A boot after a warm reset leaves the active banks as they are. -/
theorem booted_activeBank {s : State} (h : s.mgmt.verified = true) {k : Nat} (hk : k < 4) : s.booted.activeBank k = s.activeBank k := by
  unfold State.activeBank State.booted State.bootBanks
  rw [modMgmt_mgmt]
  dsimp only
  rw [vget_ofFn _ _ hk, List.getD_eq_getElem?_getD, List.getElem?_map, span_getElem?, if_pos hk, h]
  simp [State.activeBank]

theorem setCoresRetired_eq (l : List Nat) (s : State) :
    ∃ x, l.foldl (fun s c => s.modCore c fun x => { x with retired := true }) s = { s with cores := x } := by
  induction l generalizing s with
  | nil => exact ⟨_, rfl⟩
  | cons c r ih =>
    obtain ⟨x, hx⟩ := ih (s.modCore c fun x => { x with retired := true })
    exact ⟨x, hx⟩

/-- The configuration record changes its own fields and what is retired. -/
theorem loadConfig_eq (s : State) : ∃ d p n r q x, loadConfig s =
    { s with cores := x, mgmt := { s.mgmt with dbgen := d, portmode := p, serial := n, retired := r, retiredPress := q } } := by
  unfold loadConfig
  dsimp only
  obtain ⟨x, hx⟩ := setCoresRetired_eq _ (s.modMgmt _)
  exact ⟨_, _, _, _, _, x, hx⟩

/-- A context is entered under its number, and its header written. -/
theorem addCtx_eq (s : State) (n : Nat) (c : Ctx) : MemOnly { s with ctxs := Tbl.ins s.ctxs n c } (addCtx s n c) := by
  unfold addCtx State.writeMarks State.writeEnds
  dsimp only
  refine MemOnly.trans ?_ (write_memOnly _ _ _ _)
  refine MemOnly.trans ?_ (write_memOnly _ _ _ _)
  refine MemOnly.trans ?_ (write_memOnly _ _ _ _)
  refine MemOnly.trans ?_ (write_memOnly _ _ _ _)
  refine MemOnly.trans ?_ (write_memOnly _ _ _ _)
  refine MemOnly.trans ?_ (write_memOnly _ _ _ _)
  exact MemOnly.trans ⟨_, rfl⟩ (setBytes_memOnly _ _ _)

/-- Context 0 is the one that the header of the supervisor runtime image gives (R55). -/
theorem createCtx0_eq (u : State) : ∃ m c, createCtx0 u = { u with ctxs := Tbl.ins u.ctxs 0 c, mem := m } ∧ c.asid = 0 ∧
    c.root = Config.context0Root (u.activeBank 2) (u.asRun.staged 2 (u.activeBank 2)) := by
  unfold createCtx0
  dsimp only
  obtain ⟨m, hm⟩ := addCtx_eq u 0 (newCtx u 0 (Config.context0Root (u.activeBank 2) (u.asRun.staged 2 (u.activeBank 2)))
    (Config.context0Save (u.activeBank 2) (u.asRun.staged 2 (u.activeBank 2)))
    (Config.context0SaveSize (u.activeBank 2) (u.asRun.staged 2 (u.activeBank 2))) false 0
    (Config.context0Tvec (u.activeBank 2) (u.asRun.staged 2 (u.activeBank 2))))
  exact ⟨m, _, hm, rfl, rfl⟩

theorem activeBank_congr {s t : State} (h : t.mgmt = s.mgmt) (k : Nat) : t.activeBank k = s.activeBank k := by
  rw [State.activeBank, State.activeBank, h]

theorem runs_congr {s t : State} (h : t.mgmt = s.mgmt) (k : Nat) (b : Bool) : t.asRun.staged k b = s.asRun.staged k b := by
  simp only [State.staged, State.asRun, modMgmt_mgmt, h]

/-- What a boot leaves: the banks that it has found, and context 0. -/
theorem boot_eq (r : State) : ∃ t : State, createCtx0 (loadConfig r.booted) = t ∧ t.hub = r.hub ∧ t.mgmt.root = r.mgmt.root ∧
    t.mgmt.bank = r.booted.mgmt.bank ∧ t.mgmt.running = r.booted.mgmt.running ∧
    ∃ c, t.ctx? 0 = some c ∧ c.asid = 0 ∧ c.root = Config.context0Root (t.activeBank 2) (t.asRun.staged 2 (t.activeBank 2)) := by
  obtain ⟨d, p, n, q, e, x, hl⟩ := loadConfig_eq r.booted
  obtain ⟨m, c, hc, ha, hr⟩ := createCtx0_eq (loadConfig r.booted)
  have hm : (createCtx0 (loadConfig r.booted)).mgmt = (loadConfig r.booted).mgmt := by rw [hc]
  have hx : (createCtx0 (loadConfig r.booted)).ctx? 0 = some c := by
    rw [hc]
    simp only [State.ctx?, Tbl.find_ins, if_true]
  refine ⟨_, rfl, ?_, ?_, ?_, ?_, c, hx, ha, ?_⟩
  · rw [hc, hl]; rfl
  · rw [hm, hl]; rfl
  · rw [hm, hl]
  · rw [hm, hl]
  · rw [hr, activeBank_congr hm, runs_congr hm]

theorem secureBoot_follows (s : State) (hr : s.hub.ready = false) (hf : s.hub.fwerr = false) (hs : s.mgmt.stopped = false) :
    let r := s.modMgmt fun m => { m with root := some (Config.pufRoot Config.helperData) }
    (s.mgmt.verified = true ∨ (∀ k, k < 4 → (r.bootBank k).isSome) → ∃ t, exec (.secureBoot true) s = .next t ∧ t.hub.ready = true ∧
      t.hub.fwerr = false ∧ t.mgmt.root = some (Config.pufRoot Config.helperData) ∧
      (s.mgmt.verified = true → ∀ k, k < 4 → t.activeBank k = s.activeBank k) ∧
      t.mgmt.running = (if s.mgmt.verified then s.mgmt.running else s.mgmt.flash) ∧
      ∃ c, t.ctx? 0 = some c ∧ c.asid = 0 ∧ c.root = Config.context0Root (t.activeBank 2) (t.asRun.staged 2 (t.activeBank 2))) ∧
    (s.mgmt.verified = false → (∃ k, k < 4 ∧ r.bootBank k = none) →
      exec (.secureBoot true) s = .next (r.modHub fun h => { h with fwerr := true })) ∧
    exec (.secureBoot false) s =
      .next ((s.modMgmt fun m => { m with root := none }).modHub fun h => { h with fwerr := true }) := by
  intro r
  have hb := bootBanks_all r
  refine ⟨fun h => ?_, fun hv hk => ?_, event_some (secureBoot_fails hr hf hs)⟩
  · have he := (secureBoot_true hr hf hs).trans (if_pos (hb.mpr h))
    obtain ⟨t, ht, hhub, hroot, hbank, hrun, hctx⟩ := boot_eq r
    change _ = some (State.modHub (createCtx0 (loadConfig r.booted)) _) at he
    rw [ht] at he
    refine ⟨_, event_some he, rfl, ?_, hroot, fun hv k hk => ?_, hrun, hctx⟩
    · rw [modHub_hub, hhub]; exact hf
    · exact (congrArg (fun b => vget b k false) hbank).trans (booted_activeBank (s := r) hv hk)
  · have hn : ¬r.bootBanks.all Option.isSome = true := fun hall => by
      obtain ⟨k, hk, hn⟩ := hk
      rcases hb.mp hall with h | h
      · exact absurd (hv.symm.trans h) Bool.false_ne_true
      · have := h k hk; rw [hn] at this; cases this
    exact event_some ((secureBoot_true hr hf hs).trans (if_neg hn))

end Sys2Proof.Machine
end

