-- ==== Sys2Proof/Proofs/Errors.lean ====
section
/-! SUPPORT. The host link, ports, structure errors and their tests (O49; R18, R20, R32, R85 to R87), and the settlement of O49. -/

namespace Sys2Proof.Machine

/-! ## Links and ports (R18, R20, R32) -/

theorem hostLinkTrain_follows (m0 m1 : Bool) (s : State) (hl : s.hub.linkUp = false) (hs : s.mgmt.stopped = false)
    (hr : s.hub.ready = true ∨ s.hub.fwerr = true) (hm : m0 = true ∨ m1 = true) :
    ∃ t, exec (.hostLinkTrain m0 m1) s = .next t ∧ t.hub.linkUp = true ∧ t.hub.mailboxOnly = s.hub.fwerr ∧
      t.hub.onemod = !(m0 && m1) := by
  have h1 : (s.hub.ready || s.hub.fwerr) = true := by simpa using hr
  have h2 : (m0 || m1) = true := by simpa using hm
  refine ⟨_, event_some (if_neg (by rw [hl, hs, h1, h2]; decide)), ?_⟩
  split <;> exact ⟨rfl, rfl, rfl⟩

theorem hostLinkModuleFail_follows (md : Nat) (s : State) (hl : s.hub.linkUp = true) (ho : s.hub.onemod = false) (hm : md < 2) :
    ∃ t r, exec (.hostLinkModuleFail md) s = .next t ∧ t.hub.onemod = true ∧ t.mgmt.blackbox.head? = some r ∧ fld r 72 8 = 0x0C := by
  obtain ⟨r, hr, hk⟩ := blackbox_kind (s.modHub fun h => { h with onemod := true }) 0x0C 0 md
  exact ⟨_, r, event_some (if_pos (by simp [hl, ho, hm])), rfl, hr, hk⟩

/-- A field of one bit reads as it has been written. -/
theorem getLsbD_setFld_bit {w : Nat} (v : BitVec w) {i : Nat} (h : i < w) (x : Nat) : (setFld v i 1 x).getLsbD i = decide (x % 2 = 1) := by
  have hx : (BitVec.ofNat w (x % 2 ^ 1)).getLsbD 0 = decide (x % 2 = 1) := by
    rw [BitVec.getLsbD_ofNat, Nat.pow_one, Nat.testBit_zero, Nat.mod_mod]
    simp [show 0 < w by omega]
  have hm : (BitVec.ofNat w (2 ^ 1 - 1)).getLsbD 0 = true := by
    rw [BitVec.getLsbD_ofNat]
    simp [show 0 < w by omega]
  simp only [setFld, BitVec.getLsbD_or, BitVec.getLsbD_and, BitVec.getLsbD_not, BitVec.getLsbD_shiftLeft, h, Nat.sub_self, hx, hm,
    Nat.lt_irrefl, decide_true, decide_false, Bool.not_false, Bool.true_and, Bool.not_true, Bool.and_false, Bool.false_or]

theorem portUp_follows (s : State) {port : Nat} (h : port < 16) :
    (portUp s port).hub.portsUp.getLsbD port = true ∧
    ∃ r, (portUp s port).mgmt.blackbox.head? = some r ∧ fld r 72 8 = 0x0D :=
  ⟨getLsbD_setFld_bit s.hub.portsUp h 1, blackbox_kind _ 0x0D port 1⟩

/-- A port that goes down reroutes the copies on it, and leaves its record as the newest. -/
theorem portDown_follows (s : State) {port : Nat} (h : port < 16) :
    (portDown s port).hub.portsUp.getLsbD port = false ∧ (portDown s port).mem = s.mem ∧ (portDown s port).poison = s.poison ∧
    (portDown s port).wsPoison = s.wsPoison ∧
    ∃ r, (portDown s port).mgmt = { s.mgmt with blackbox := (r :: s.mgmt.blackbox).take 4096 } ∧ fld r 72 8 = 0x0D := by
  obtain ⟨r, hr, hk, _⟩ := blackbox_head (s.modHub fun h => { h with portsUp := setFld h.portsUp port 1 0 }) 0x0D port 0
  refine ⟨getLsbD_setFld_bit s.hub.portsUp h 0, rfl, rfl, rfl, r, ?_, hk⟩
  rw [modHub_mgmt] at hr
  rw [← hr]
  rfl

/-! ## Structure errors (R85) -/

/-- Poison and the record of an error that is met, before its structure is fenced. -/
def State.erred (s : State) (code unit : Nat) (corrected : Bool) (ctx : Nat) : State :=
  let s := s.blackbox (if corrected then 0x01 else 0x02) (boxUnit code unit) (code + (if corrected then 0 else ctx % 4096 * 2 ^ 16))
  if corrected then s
  else if code = 7 then { s with wsPoison := addOnce s.wsPoison unit }
  else match errorGranule s code unit with
    | (some g, s) => { s with poison := addOnce s.poison g }
    | (none, s) => s

theorem structureError_new {code unit : Nat} (corrected : Bool) (ctx : Nat) {s : State} (hu : unitOk code unit = true)
    (hs : s.mgmt.stopped = false) (hf : (s.erred code unit corrected ctx).mgmt.fences.contains (fenceKey code unit) = false) :
    let e := (s.erred code unit corrected ctx).modMgmt fun m => { m with fences := fenceKey code unit :: m.fences }
    structureError code unit corrected ctx s = some (if code = 8 && bit e.hub.portsUp unit then portDown e unit else e) := by
  unfold structureError
  rw [if_neg (by simp [hu, hs])]
  exact if_neg fun h => Bool.false_ne_true (hf.symm.trans h)

theorem mem_addOnce (l : List Nat) (n : Nat) : (addOnce l n).contains n = true := by
  unfold addOnce
  split
  · assumption
  · simp

/-- The granule that an error makes uncorrectable costs a free value at most. -/
theorem errorGranule_eq (s : State) (code unit : Nat) : (errorGranule s code unit).2 = { s with freeCtr := s.freeCtr + 1 } := by
  unfold errorGranule State.free
  dsimp only
  split <;> rfl

/-- An error is told to the black box; it touches poison besides, and neither memory nor ports. -/
theorem erred_eq (s : State) (code unit : Nat) (corrected : Bool) (ctx : Nat) :
    (s.erred code unit corrected ctx).mem = s.mem ∧ (s.erred code unit corrected ctx).hub = s.hub ∧
    (s.erred code unit corrected ctx).mgmt =
      (s.blackbox (if corrected then 0x01 else 0x02) (boxUnit code unit) (code + (if corrected then 0 else ctx % 4096 * 2 ^ 16))).mgmt := by
  unfold State.erred
  dsimp only
  split
  · exact ⟨rfl, rfl, rfl⟩
  · split
    · exact ⟨rfl, rfl, rfl⟩
    · split
      · next g u hg =>
        have hu := errorGranule_eq _ code unit |>.symm.trans (congrArg Prod.snd hg)
        subst hu
        exact ⟨rfl, rfl, rfl⟩
      · next u hg =>
        have hu := errorGranule_eq _ code unit |>.symm.trans (congrArg Prod.snd hg)
        subst hu
        exact ⟨rfl, rfl, rfl⟩

theorem erred_poison (s : State) (unit ctx : Nat) : (s.erred 6 unit false ctx).poison.contains unit = true := mem_addOnce _ _

theorem erred_wsPoison (s : State) (unit ctx : Nat) : (s.erred 7 unit false ctx).wsPoison.contains unit = true := mem_addOnce _ _

/-- The unit of a record fits its field. -/
theorem boxUnit_lt {code unit : Nat} (h : unitOk code unit = true) : boxUnit code unit < 2 ^ 32 := by
  have hle : boxUnit code unit ≤ unit := by
    unfold boxUnit
    split <;> omega
  have hlt : unit < 2 ^ 32 := by
    unfold unitOk at h
    split at h <;> simp only [Bool.and_eq_true, decide_eq_true_eq, Bool.false_eq_true] at h <;> omega
  exact hle.trans_lt hlt

theorem structureError_follows (code unit : Nat) (corrected : Bool) (ctx : Nat) (s : State) (hu : unitOk code unit = true)
    (hs : s.mgmt.stopped = false) (hf : s.mgmt.fences.contains (fenceKey code unit) = false) :
    ∃ t r, exec (.structureError code unit corrected ctx) s = .next t ∧ t.mgmt.fences = fenceKey code unit :: s.mgmt.fences ∧
      (if code = 8 ∧ s.hub.portsUp.getLsbD unit then t.mgmt.blackbox[1]? else t.mgmt.blackbox[0]?) = some r ∧
      fld r 72 8 = (if corrected then 1 else 2) ∧
      fld r 32 32 = (match code with | 1 | 2 => unit / 8 | 3 => unit / 32 | 5 => unit / 4 | _ => unit) ∧ t.mem = s.mem ∧
      (code = 6 → corrected = false → t.poison.contains unit = true) ∧ (code = 7 → corrected = false → t.wsPoison.contains unit = true) ∧
      (code = 8 → t.hub.portsUp.getLsbD unit = false) := by
  obtain ⟨hmem, hhub, hmg⟩ := erred_eq s code unit corrected ctx
  obtain ⟨r, hr, hk, hb⟩ := blackbox_head s (if corrected then 0x01 else 0x02) (boxUnit code unit)
    (code + (if corrected then 0 else ctx % 4096 * 2 ^ 16))
  have hfe : (s.erred code unit corrected ctx).mgmt.fences = s.mgmt.fences := by rw [hmg]; rfl
  have hbox : (s.erred code unit corrected ctx).mgmt.blackbox = (r :: s.mgmt.blackbox).take 4096 := by rw [hmg, hr]
  have h6 : code = 6 → corrected = false → (s.erred code unit corrected ctx).poison.contains unit = true := by
    rintro rfl rfl; exact erred_poison s unit ctx
  have h7 : code = 7 → corrected = false → (s.erred code unit corrected ctx).wsPoison.contains unit = true := by
    rintro rfl rfl; exact erred_wsPoison s unit ctx
  have h72 : fld r 72 8 = if corrected then 1 else 2 := by rw [hk]; cases corrected <;> rfl
  have h32 : fld r 32 32 = boxUnit code unit := by rw [hb, Nat.mod_eq_of_lt (boxUnit_lt hu)]
  have he := structureError_new corrected ctx hu hs (by rw [hfe]; exact hf)
  generalize s.erred code unit corrected ctx = u at hmem hhub hfe hbox h6 h7 he
  refine ⟨_, r, event_some he, ?_⟩
  rw [modMgmt_hub, hhub]
  by_cases hd : code = 8 ∧ s.hub.portsUp.getLsbD unit = true
  · obtain ⟨rfl, hup⟩ := hd
    have h16 : unit < 16 := by simpa [unitOk] using hu
    obtain ⟨hp, hm, _, _, x, hx, _⟩ := portDown_follows (u.modMgmt fun m => { m with fences := fenceKey 8 unit :: m.fences }) h16
    rw [if_pos (by rw [bit, hup]; rfl), if_pos ⟨rfl, hup⟩, hx]
    refine ⟨congrArg _ hfe, ?_, h72, h32, hm.trans hmem, fun e => (nomatch e), fun e => (nomatch e), fun _ => hp⟩
    simp [hbox]
  · have hn : ¬(decide (code = 8) && bit s.hub.portsUp unit) = true := by simpa [bit] using hd
    rw [if_neg hn, if_neg hd]
    refine ⟨congrArg _ hfe, ?_, h72, h32, hmem, h6, h7, fun e => ?_⟩
    · simp [hbox]
    · rw [modMgmt_hub, hhub]
      exact Bool.not_eq_true _ |>.mp fun hup => hd ⟨e, hup⟩

/-! ## The end of a test (R86) -/

/-- A test is over: its structure is under a fence no more. -/
def State.unfenced (s : State) (code unit : Nat) : State :=
  s.modMgmt fun m => { m with fences := m.fences.filter fun f => f ≠ fenceKey code unit && f ≠ failKey code unit }

theorem unfenced_fences (s : State) (code unit : Nat) : (s.unfenced code unit).mgmt.fences.contains (fenceKey code unit) = false := by
  simp [State.unfenced]

section
variable {code unit : Nat} {s : State}

theorem selfTestDone_pass (hu : unitOk code unit = true) (hk : s.mgmt.fences.contains (fenceKey code unit) = true)
    (hn : s.mgmt.fences.contains (failKey code unit) = false) :
    selfTestDone code unit true s =
      some ((if code = 8 && bit (s.unfenced code unit).hub.pkgid 31 && !(s.unfenced code unit).portOut unit then
          portUp (s.unfenced code unit) unit else s.unfenced code unit).blackbox 0x03 (boxUnit code unit) code) := by
  unfold selfTestDone
  rw [if_neg (by rw [hu, hk]; decide)]
  exact if_pos (by rw [hn]; rfl)

theorem selfTestDone_fail (hu : unitOk code unit = true) (hk : s.mgmt.fences.contains (fenceKey code unit) = true) :
    selfTestDone code unit false s =
      some (retireUnit ((s.unfenced code unit).blackbox 0x04 (boxUnit code unit) code) code unit) := by
  unfold selfTestDone
  rw [if_neg (by rw [hu, hk]; decide)]
  exact if_neg Bool.false_ne_true

end

theorem flushSlices_units (s : State) (cores : List Nat) : UnitsKept s (flushSlices s cores) := by
  unfold flushSlices
  dsimp only
  refine UnitsKept.trans (UnitsKept.foldl (f := fun s (e : Nat × List Nat) =>
    if cores.contains (e.1 / 256) then e.2.foldl (fun s l => s.writeBack l (e.1 / 256)) s else s) (fun s e => ?_) s.l2 s)
    (.of_eq rfl rfl rfl rfl)
  split
  · exact .foldl (fun s l => (writeBack_cache s _ _).units) _ _
  · exact .refl s

theorem evictWhere_units (s : State) (p : Crew → Bool) : UnitsKept s (evictWhere s p) := crews_units s _

theorem loseState_units (s : State) (l : List Nat) : UnitsKept s (loseState s l) := by
  unfold loseState
  dsimp only
  exact (UnitsKept.foldl rollbackCtx_units _ s).trans (.foldl (fun s g => endGraphAt_units s g _ _) _ _)

/-- A core retires: its slices are flushed, and crews leave it. -/
def State.retireCore (s : State) (c : Nat) : State :=
  evictWhere ((flushSlices s [c]).modCore c fun x => { x with retired := true }) fun x => (x.indexOf c).isSome

/-- A press retires, and crews leave it. -/
def State.retirePress (s : State) (p : Nat) : State :=
  evictWhere (s.modMgmt fun m => { m with retiredPress := m.retiredPress ++ [p] }) fun x => (x.pressList.map x.physPress).contains p

/-- What retires itself, before what is lost with it. -/
def State.retireSelf (s : State) (code unit : Nat) : State :=
  match code with
  | 1 => (noteRetired s 1 unit).retireCore (unit / 8)
  | 2 => (noteRetired s 2 unit).retireCore (unit / 8)
  | 3 => (noteRetired s 0 (unit / 32)).retireCore (unit / 32)
  | 4 => (noteRetired s 3 unit).retirePress unit
  | 5 => (noteRetired s 3 (unit / 4)).retirePress (unit / 4)
  | 6 | 7 => remapRow (noteRetired s 4 unit) code unit
  | 8 => noteRetired s 5 unit
  | _ => s

theorem retireUnit_eq (s : State) (code unit : Nat) : retireUnit s code unit = loseState (s.retireSelf code unit) (losers s code unit) := rfl

theorem retireCore_units (s : State) (c : Nat) : UnitsKept s (s.retireCore c) :=
  ((flushSlices_units s [c]).trans (modCore_units _ _ _ fun _ => rfl)).trans (evictWhere_units _ _)

theorem retireCore_retired (s : State) (c : Nat) : ((s.retireCore c).core c).retired = true :=
  congrArg Core.retired (core_modCore_same (flushSlices s [c]) c fun x => { x with retired := true })

/-- What retires leaves the fences as they are. -/
theorem retireSelf_fences (s : State) (code unit : Nat) : (s.retireSelf code unit).mgmt.fences = s.mgmt.fences := by
  have hc (k i c : Nat) : ((noteRetired s k i).retireCore c).mgmt.fences = s.mgmt.fences := by
    rw [(retireCore_units _ _).mgmt]; rfl
  unfold State.retireSelf
  split
  · exact hc _ _ _
  · exact hc _ _ _
  · exact hc _ _ _
  all_goals rfl

theorem retireUnit_follows (s : State) (code unit : Nat) :
    (retireUnit s code unit).mgmt.fences = s.mgmt.fences ∧
    (code = 1 ∨ code = 2 → ((retireUnit s code unit).core (unit / 8)).retired = true) ∧
    (code = 3 → ((retireUnit s code unit).core (unit / 32)).retired = true) ∧
    (code = 4 → unit ∈ (retireUnit s code unit).mgmt.retiredPress) := by
  rw [retireUnit_eq]
  have h := loseState_units (s.retireSelf code unit) (losers s code unit)
  refine ⟨by rw [h.mgmt]; exact retireSelf_fences s code unit, ?_, ?_, ?_⟩
  · rintro (rfl | rfl) <;> exact h.retired _ (retireCore_retired _ _)
  · rintro rfl; exact h.retired _ (retireCore_retired _ _)
  · rintro rfl
    rw [h.mgmt]
    exact List.mem_append_right _ (.head _)

theorem selfTestDone_follows (code unit : Nat) (pass : Bool) (s : State) (hu : unitOk code unit = true)
    (hk : s.mgmt.fences.contains (fenceKey code unit) = true) (hn : s.mgmt.fences.contains (failKey code unit) = false) :
    ∃ t, exec (.selfTestDone code unit pass) s = .next t ∧ t.mgmt.fences.contains (fenceKey code unit) = false ∧
      (pass = true → t.cores = s.cores ∧ ∃ r, t.mgmt.blackbox.head? = some r ∧ fld r 72 8 = 3) ∧
      (pass = false → (code = 1 ∨ code = 2 → (t.core (unit / 8)).retired = true) ∧
        (code = 3 → (t.core (unit / 32)).retired = true) ∧ (code = 4 → unit ∈ t.mgmt.retiredPress)) := by
  cases pass with
  | true =>
    refine ⟨_, event_some (selfTestDone_pass hu hk hn), ?_, fun _ => ⟨?_, blackbox_kind _ 0x03 _ _⟩, fun e => (nomatch e)⟩
    · split <;> exact unfenced_fences s code unit
    · split <;> rfl
  | false =>
    obtain ⟨hf, h12, h3, h4⟩ := retireUnit_follows ((s.unfenced code unit).blackbox 0x04 (boxUnit code unit) code) code unit
    refine ⟨_, event_some (selfTestDone_fail hu hk), ?_, fun e => (nomatch e), fun _ => ⟨h12, h3, h4⟩⟩
    rw [hf]
    exact unfenced_fences s code unit

/-- Settles O49, a clause at a time. -/
theorem resetsAndPins : Obligations.ResetsAndPins := by
  refine ⟨coldReset_follows, warmReset_follows, vstbyFailure_follows, slwAssert_follows, fun s h => event_some (if_pos h),
    supplyLossSequence_follows, secureBoot_follows, fun s hr hk => event_some (if_pos (by rw [hr, hk]; rfl)), hostLinkTrain_follows,
    hostLinkModuleFail_follows, fun port s hp => ⟨fun h1 h2 h3 => ?_, fun h => ?_⟩, structureError_follows, selfTestDone_follows⟩
  · obtain ⟨hu, r, hr, hk⟩ := portUp_follows s hp
    exact ⟨_, r, event_some (if_pos (by unfold bit; rw [h1, h2, h3, decide_eq_true hp]; rfl)), hu, hr, hk⟩
  · obtain ⟨hd, _, _, _, r, hr, hk⟩ := portDown_follows s hp
    exact ⟨_, r, event_some (if_pos (by unfold bit; rw [h, decide_eq_true hp]; rfl)), hd, by rw [hr]; rfl, hk⟩

end Sys2Proof.Machine
end

