-- ==== Sys2Proof/Proofs/HostQueues.lean ====
section
/-! SUPPORT. Where a queue table lists a queue twice, arbitration looks at one entry and the command processor at the other (R44, R47). -/

namespace Sys2Proof.Machine

/-- A state outside the canonical form: the queue table lists queue 1 twice. Its first entry, which every read of queue 1 finds, has stopped
and is about to take a RINGCFG that clears EN; its second, which arbitration finds ready, runs. Memory holds the header of a LAUNCH of one
packet, at which the rings of both entries begin. -/
def queueListedTwice : State :=
  { State.reset with
    mem := [(0, 2), (4, 1)]
    hub := { State.reset.hub with
      ready := true
      linkUp := true
      queues := [(1, { State.queue0 with state := .stop, ringNext := some 0, tail := 1 }),
                 (1, { State.queue0 with state := .run, ringcfg := 0x8000000000000000, tail := 1 })] } }

/-- What the clause about COMMAND_FETCH asks of an arbitrated state, as something that runs: the first command of queue 1 is a LAUNCH that
passes every check. -/
def fetchable (x : Nat × State) : Bool :=
  let qu := x.2.queue 1
  let h := headerOf x.2 qu
  let body := BitVec.ofNat 512 (x.2.read 0 (packetPA qu qu.head.toNat) 64)
  x.1 = 1 && x.2.poison.isEmpty && x.2.hub.linkUp && h / 2 ^ 16 % 2 ^ 16 = qu.expSeq.toNat && (headerStop 1 qu h).isNone &&
    (if h / 2 ^ 32 % 2 ^ 16 = 0 then 65536 else h / 2 ^ 32 % 2 ^ 16) ≤ (qu.tail - qu.head).toNat && h % 256 ≠ 1 &&
    bodyResv (h % 256) body && bodyArgs (h % 256) body

/-- Nothing of memory is poisoned and the link is up: no packet is bad to read. -/
theorem packetsBad_clean {s : State} (hp : s.poison.isEmpty = true) (hl : s.hub.linkUp = true) (qu : Queue) (n : Nat) :
    packetsBad s qu n = false := by
  unfold packetsBad; rw [hp, hl]; rfl

/-- The command is read from the second entry's turn, and the first entry, which takes its new RINGCFG, drops it. -/
theorem commandFetch_dropsCommand {t : State} (h : exec (.commandFetch 1) queueListedTwice = .next t) : (t.queue 1).cmds = [] := by
  have hd : (match exec (.commandFetch 1) queueListedTwice with | .next t => (t.queue 1).cmds.isEmpty | _ => true) = true := by
    decide +kernel
  rw [h] at hd
  exact List.isEmpty_iff.mp hd

/-- Refutes O51 in its clause about COMMAND_FETCH, which is stated for every state, the ones whose queue table lists a queue twice included:
in `queueListedTwice` a command that passes every check is read and is not in the queue's list afterwards. -/
theorem not_hostAccess : ¬ Obligations.HostAccess := by
  unfold Obligations.HostAccess
  rintro ⟨-, -, -, -, -, -, -, -, -, -, -, -, hfetch, -⟩
  have hall : ((arbitrate queueListedTwice).any fetchable) = true := by decide +kernel
  obtain ⟨⟨q, s2⟩, ha, hx⟩ := Option.any_eq_true _ _ |>.mp hall
  simp only [fetchable, Bool.and_eq_true, decide_eq_true_eq, Option.isNone_iff_eq_none] at hx
  obtain ⟨⟨⟨⟨⟨⟨⟨⟨rfl, hp⟩, hl⟩, hseq⟩, hstop⟩, hlen⟩, htyp⟩, hresv⟩, hargs⟩ := hx
  obtain ⟨-, hok⟩ := hfetch 1 queueListedTwice s2 (by decide +kernel) ha fun n => packetsBad_clean hp hl _ n
  obtain ⟨-, hread⟩ := hok hseq
  obtain ⟨-, hgood⟩ := hread hstop hlen htyp hresv
  obtain ⟨t, ht, -, -, hcmds⟩ := hgood hargs
  rw [commandFetch_dropsCommand ht] at hcmds
  exact absurd hcmds.symm (List.append_ne_nil_of_right_ne_nil _ (List.cons_ne_nil _ _))

end Sys2Proof.Machine
end

