-- ==== Sys2Proof/Proofs/CopyFrames.lean ====
section
/-! SUPPORT. What copies and transfers do on their way leaves the holds, the vats and the hub as they are: updates of transaction barriers
with their notifications and trace records, and the writes of an agent of another package (R102, R173, R212, R220). -/

namespace Sys2Proof.Machine

/-- The holds, the vats and the hub are as before. -/
structure BooksKept (s t : State) : Prop where
  holds : t.holds = s.holds
  vats : t.vats = s.vats
  hub : t.hub = s.hub

namespace BooksKept

theorem refl (s : State) : BooksKept s s := ⟨rfl, rfl, rfl⟩

theorem trans {s t u : State} (h : BooksKept s t) (g : BooksKept t u) : BooksKept s u :=
  ⟨g.holds.trans h.holds, g.vats.trans h.vats, g.hub.trans h.hub⟩

theorem foldl {α : Type} {f : State → α → State} (h : ∀ s x, BooksKept s (f s x)) (l : List α) (s : State) :
    BooksKept s (l.foldl f s) := by
  induction l generalizing s with
  | nil => exact refl s
  | cons x r ih => exact (h s x).trans (ih _)

end BooksKept

theorem MemOnly.books {s t : State} (h : MemOnly s t) : BooksKept s t := by
  obtain ⟨_, rfl⟩ := h
  exact ⟨rfl, rfl, rfl⟩

theorem CountersOnly.books {s t : State} (h : CountersOnly s t) : BooksKept s t := by
  obtain ⟨_, rfl⟩ := h
  exact ⟨rfl, rfl, rfl⟩

theorem CacheOnly.books {s t : State} (h : CacheOnly s t) : BooksKept s t := by
  obtain ⟨_, _, _, _, rfl⟩ := h
  exact ⟨rfl, rfl, rfl⟩

/-! ## Barrier updates (R212, R213) -/

theorem modRef_books (s : State) (r : TRef) (f : Thread → Thread) : BooksKept s (s.modRef r f) := by
  unfold State.modRef
  split
  · next l _ => cases l <;> exact ⟨rfl, rfl, rfl⟩
  · exact .refl s

theorem postNotify_books (s : State) (ctx core slot : Nat) (n : Notify) : BooksKept s (postNotify s ctx core slot n) := by
  unfold postNotify
  split
  · exact .refl s
  · split
    · exact .refl s
    · split
      · exact .refl s
      · exact modRef_books _ _ _

theorem tbComplete_books (s : State) (ctx pa b : Nat) : BooksKept s (tbComplete s ctx pa b) := by
  unfold tbComplete
  dsimp only
  split
  · exact (write_memOnly _ _ _ _).books.trans (postNotify_books _ _ _ _ _)
  · exact (write_memOnly _ _ _ _).books

theorem barUpdate_books {s t : State} {ctx pa : Nat} {arr : Bool} {sec : Int} (h : barUpdate s ctx pa arr sec = .ok t) :
    BooksKept s t := by
  unfold barUpdate at h
  dsimp only at h
  split at h
  · cases h
  · split at h
    · cases h
    · rw [← apply_ite Except.ok, Except.ok.injEq] at h
      exact h ▸ iteInduction (motive := BooksKept s) (fun _ => tbComplete_books _ _ _ _) fun _ => (write_memOnly _ _ _ _).books

theorem countSector_books (s : State) (ctx pa : Nat) : BooksKept s (countSector s ctx pa) := by
  unfold countSector
  split
  · next h => exact barUpdate_books h
  · exact .refl s

theorem barError_books (s : State) (ctx pa unlanded : Nat) : BooksKept s (barError s ctx pa unlanded) := tbComplete_books _ _ _ _

/-! ## Trace records (R102) -/

theorem trace_books (s : State) (ctx kind tag arg core slot : Nat) : BooksKept s (trace s ctx kind tag arg core slot) := by
  rw [(trace_eq s ctx kind tag arg core slot).1]
  exact ⟨rfl, rfl, rfl⟩

theorem traceCopy_books (s : State) (kind : Nat) (c : CopyCmd) (landed : Nat) : BooksKept s (traceCopy s kind c landed) :=
  trace_books _ _ _ _ _ _ _

theorem traceTb_books (s0 : State) (ctx pa : Nat) (arr : Bool) (who : Option (Nat × Nat)) (s : State) :
    BooksKept s (traceTb s0 ctx pa arr who s) := by
  have hfree : BooksKept s s.free.2 := ⟨rfl, rfl, rfl⟩
  unfold traceTb
  refine iteInduction (motive := BooksKept s) (fun _ => ?_) fun _ => .refl s
  dsimp only
  have harr (core slot tag arg : Nat) :
      BooksKept s (if arr then trace s.free.2 ctx 5 tag arg core slot else s.free.2) := by
    split
    · exact hfree.trans (trace_books _ _ _ _ _ _ _)
    · exact hfree
  exact iteInduction (motive := BooksKept s) (fun _ => harr _ _ _ _) fun _ => (harr _ _ _ _).trans (trace_books _ _ _ _ _ _ _)

theorem madeBar_books (s : State) (src : BarSrc) : BooksKept s (s.madeBar src) := by
  unfold State.madeBar
  split <;> exact ⟨rfl, rfl, rfl⟩

/-- An update at a barrier's address, made. -/
theorem updateAt_books {s t : State} {core ctx : Nat} {va : Word} {src : BarSrc} {f : Nat → State} (hf : ∀ pa, BooksKept s (f pa))
    (h : updateAt s core ctx va src f = .ok t) : BooksKept s t := by
  unfold updateAt at h
  split at h
  · next pa _ =>
    split at h
    · split at h <;> cases h
      exact ((hf pa).trans (madeBar_books _ _)).trans (traceTb_books _ _ _ _ _ _)
    · cases h
      exact (hf pa).trans (traceTb_books _ _ _ _ _ _)
  · cases h
  · cases h
    exact .refl _

theorem atReceivers_books {s t : State} {g : Eng} {f : State → Nat → State} (hf : ∀ s pa, BooksKept s (f s pa))
    (h : atReceivers s g f = .ok t) : BooksKept s t := by
  unfold atReceivers at h
  dsimp only at h
  split at h <;> cases h
  exact .foldl (fun s pa => (hf s pa).trans (traceTb_books _ _ _ _ _ _)) _ _

theorem countCopy_books {s t : State} {g : Eng} {unit : Nat} (h : countCopy s g unit = .ok t) : BooksKept s t := by
  unfold countCopy at h
  dsimp only at h
  split at h
  · exact atReceivers_books (fun s pa => countSector_books s _ pa) h
  · exact updateAt_books (fun pa => countSector_books s _ pa) h

theorem errorCopy_books {s t : State} {g : Eng} {left : Nat} (h : errorCopy s g left = .ok t) : BooksKept s t := by
  unfold errorCopy at h
  dsimp only at h
  split at h
  · exact atReceivers_books (fun s pa => barError_books s _ pa _) h
  · exact updateAt_books (fun pa => barError_books s _ pa _) h

/-! ## Writes by agents of other packages (R88 to R91, R220) -/

theorem writeEnds_memOnly (s : State) (c : Ctx) : MemOnly s (s.writeEnds c) := (write_memOnly _ _ _ _).trans (write_memOnly _ _ _ _)

theorem putEntry_memOnly (s : State) (c : Ctx) (pa : Nat) (bs : List Byte) : MemOnly s (s.putEntry c pa bs) :=
  (((write_memOnly _ _ _ _).trans (write_memOnly _ _ _ _)).trans (setBytes_memOnly _ _ _)).trans (writeEnds_memOnly _ c)

theorem unpoison_books (s : State) (pa n : Nat) : BooksKept s (s.unpoison pa n) := by
  unfold State.unpoison
  split <;> exact ⟨rfl, rfl, rfl⟩

theorem ctxs_books (s : State) (x : List (Nat × Ctx)) : BooksKept s { s with ctxs := x } := ⟨rfl, rfl, rfl⟩

theorem holdOut_books {s t : State} {ctx pa : Nat} {bs : List Byte} (h : holdOut s ctx pa bs = some t) : BooksKept s t := by
  unfold holdOut at h
  split at h
  · cases h
  · split at h <;> cases h
    exact (ctxs_books s _).trans (putEntry_memOnly _ _ _ _).books

theorem logLine_books {s t : State} {ctx pa : Nat} {pte : BitVec 64} (h : logLine s ctx pa pte = some t) : BooksKept s t := by
  unfold logLine at h
  split at h
  · cases h; exact .refl s
  · split at h
    · split at h <;> cases h
      exact (ctxs_books s _).trans (((write_memOnly _ _ _ _).trans (write_memOnly _ _ _ _)).trans
        (writeEnds_memOnly _ _)).books
    · cases h; exact .refl s

theorem storeLine_books {s t : State} {ctx die pa : Nat} {pte : BitVec 64} {bs : List Byte} (h : storeLine s ctx die pa pte bs = some t) :
    BooksKept s t := by
  have hset (u : State) : BooksKept u ((u.setBytes pa bs).unpoison pa bs.length) :=
    (setBytes_memOnly _ _ _).books.trans (unpoison_books _ _ _)
  unfold storeLine at h
  split at h
  · cases h; exact ⟨rfl, rfl, rfl⟩
  · split at h
    · exact holdOut_books h
    · cases h; exact hset s
  · obtain ⟨u, hu, rfl⟩ := Option.map_eq_some_iff.mp h
    exact (logLine_books hu).trans (hset u)
  · cases h; exact hset s

theorem remoteWrite_books {s t : State} {ctx die : Nat} {user : Bool} {va : Word} {owner : Option Nat} {f : State → Nat → List Byte}
    {bs : List Byte} (h : remoteWrite s ctx die user va owner f = .ok t bs) : BooksKept s t := by
  have htouch (u : State) (slice pa : Nat) (ef : Bool) :
      BooksKept u (if isCached pa then u.touchL2 slice pa true ef else u) := by
    split
    · exact (touchL2_cache _ _ _ _ _).books
    · exact .refl u
  unfold remoteWrite at h
  split at h
  · cases h
  · cases h
  · obtain ⟨-, h⟩ | ⟨-, h⟩ := ite_eq_iff.mp h
    · cases h
    · obtain ⟨-, h⟩ | ⟨-, h⟩ := ite_eq_iff.mp h
      · cases h
      · dsimp only at h
        split at h <;> cases h
        next hs _ => exact ((walked_counters _ _ _ _ _).books.trans (htouch _ _ _ _)).trans (storeLine_books hs)

end Sys2Proof.Machine
end

