-- ==== Sys2Proof/Proofs/Copies.lean ====
section
/-! SUPPORT. Copies run: a unit that lands is counted, a command ends with its holds released, and transfers of other packages
hold, write, add, read and wait (R193 to R196, R207, R220, R430 to R436). -/

namespace Sys2Proof.Machine

theorem BarRes.ok_of_made {r : BarRes} (h : r.made = true) : ∃ t, r = .ok t := by
  cases r with
  | ok t => exact ⟨t, rfl⟩
  | held n => cases h

/-! ## The end of a command (R208, R434, R435) -/

/-- The command of an engine is gone from its vat, and so are its holds. -/
def Ended (g : Eng) (t : State) : Prop :=
  (∀ x ∈ (t.vat g.vat).copies, x.id ≠ g.cmd.id) ∧ ∀ h ∈ t.holds, h.owner ≠ g.cmd.id

theorem dropHolds_owner (s : State) (id : Nat) : ∀ h ∈ (s.dropHolds id fun _ => true).holds, h.owner ≠ id := by
  intro h hm e
  simpa [e] using (List.mem_filter.mp hm).2

theorem dropCopyHolds_owner (s : State) (id : Nat) : ∀ h ∈ (s.dropCopyHolds id).holds, h.owner ≠ id := fun h hm =>
  dropHolds_owner s id h (List.mem_filter.mp hm).1

theorem dropCopy_copies (s : State) (vat : Nat) (c : CopyCmd) : ∀ x ∈ ((dropCopy s vat c).vat vat).copies, x.id ≠ c.id := by
  intro x hx
  rw [dropCopy, vat_modVat_same] at hx
  simpa using (List.mem_filter.mp hx).2

theorem setCopy_copies (s : State) (vat : Nat) (c : CopyCmd) : ∀ x ∈ ((setCopy s vat c).vat vat).copies, x.id = c.id → x = c := by
  intro x hx e
  rw [setCopy, vat_modVat_same] at hx
  obtain ⟨y, _, rfl⟩ := List.mem_map.mp hx
  by_cases hy : y.id = c.id
  · exact if_pos hy
  · rw [if_neg hy] at e
    exact absurd e hy

/-- A command that is taken away, after its holds, has ended. -/
theorem ended_of_dropCopy {s : State} {g : Eng} {c : CopyCmd} (hc : c.id = g.cmd.id) (hs : ∀ h ∈ s.holds, h.owner ≠ g.cmd.id)
    (kind landed : Nat) : Ended g (traceCopy (dropCopy s g.vat c) kind c landed) := by
  have hk := traceCopy_books (dropCopy s g.vat c) kind c landed
  constructor
  · rw [State.vat, hk.vats, ← hc]
    exact dropCopy_copies s g.vat c
  · rw [hk.holds]
    exact hs

theorem stopCopy_ends {s : State} {g : Eng} {status cause aux : Nat} {va : Word} (h : canStop s g status cause va aux = true) :
    ∃ t, stopCopy s g status cause va aux = some t ∧ Ended g t := by
  unfold canStop at h
  split at h
  · next u hu =>
    obtain ⟨w, hw⟩ := BarRes.ok_of_made h
    refine ⟨_, ?_, ended_of_dropCopy (s := w) rfl ?_ 2 g.cmd.landedBytes⟩
    · unfold stopCopy
      dsimp only
      rw [hu, Option.bind_some, hw]
      rfl
    · rw [(errorCopy_books hw).holds]
      exact dropCopyHolds_owner u g.cmd.id
  · cases h

/-! ## A unit that lands (R430, R435) -/

/-- The command after unit j has landed and been counted. -/
def CopyCmd.counting (c : CopyCmd) (j : Nat) (fl : BitVec 5) : CopyCmd :=
  let c := c.land j fl
  { c with counted := c.counted + b2n (c.sectorDone j && !c.again.contains (c.sectorOf j)) }

/-- A sector that is counted where it can be, or that is none to count, goes on to what follows. -/
theorem counts_on {w : State} {g : Eng} {j n : Nat} (h : (decide (n = 0) || (countCopy w g j).made) = true) :
    ∃ w', BooksKept w w' ∧ ∀ s0 src k, (if n = 0 then some (k w) else (countCopy w g j).orHold s0 src k) = some (k w') := by
  by_cases hn : n = 0
  · exact ⟨w, .refl w, fun _ _ _ => if_pos hn⟩
  · obtain ⟨w', hw⟩ := BarRes.ok_of_made (r := countCopy w g j) (by simpa [hn] using h)
    exact ⟨w', countCopy_books hw, fun _ _ _ => by rw [if_neg hn, hw]; rfl⟩

section
variable {u : State} {g : Eng} {j : Nat} {fl : BitVec 5}

/-- What unit j's landing counts. -/
def CopyCmd.news (c : CopyCmd) (j : Nat) : Nat := b2n (c.sectorDone j && !c.again.contains (c.sectorOf j))

theorem canCount_last (h : canCount u g j fl = true) (hl : (g.cmd.land j fl).next = g.cmd.units) :
    ∃ v, putStatus u g (g.cmd.counting j fl) 0 0 0 0 = some v ∧
      (decide ((g.cmd.land j fl).news j = 0) || (countCopy (v.dropCopyHolds g.cmd.id) g j).made) = true := by
  unfold canCount at h
  dsimp only at h
  split at h
  · next w hw =>
    obtain ⟨v, hv, rfl⟩ := Option.map_eq_some_iff.mp ((if_pos hl).symm.trans hw)
    exact ⟨v, hv, h⟩
  · cases h

theorem canCount_more (h : canCount u g j fl = true) (hl : (g.cmd.land j fl).next ≠ g.cmd.units) :
    (decide ((g.cmd.land j fl).news j = 0) || (countCopy u g j).made) = true := by
  unfold canCount at h
  dsimp only at h
  split at h
  · next w hw =>
    obtain rfl := Option.some.inj ((if_neg hl).symm.trans hw)
    exact h
  · cases h

theorem afterLanding_counts (s : State) (h : canCount u g j fl = true) :
    ∃ t, afterLanding s u g j fl = some t ∧ ((g.cmd.land j fl).next = g.cmd.units → Ended g t) ∧
      ((g.cmd.land j fl).next ≠ g.cmd.units → ∀ x ∈ (t.vat g.vat).copies, x.id = g.cmd.id → x = g.cmd.counting j fl) := by
  by_cases hl : (g.cmd.land j fl).next = g.cmd.units
  · obtain ⟨v, hv, hc⟩ := canCount_last h hl
    obtain ⟨w, hb, hk⟩ := counts_on hc
    refine ⟨_, (if_pos hl).trans ((congrArg (Option.bind · _) hv).trans (hk _ _ _)), fun _ => ended_of_dropCopy rfl ?_ 2 _,
      fun hn => absurd hl hn⟩
    rw [hb.holds]
    exact dropCopyHolds_owner v g.cmd.id
  · obtain ⟨w, -, hk⟩ := counts_on (canCount_more h hl)
    exact ⟨_, (if_neg hl).trans (hk _ _ _), fun e => absurd e hl, fun _ => setCopy_copies w g.vat (g.cmd.counting j fl)⟩

end

/-! ## The unit that an event moves -/

theorem movable_eq {s : State} {vat idx : Nat} {g : Eng} (h : movable s vat idx = some g) : g.vat = vat ∧ ∃ c : CopyCmd, g.cmd = c.onPort s := by
  unfold movable at h
  split at h
  · cases h
  · next c _ =>
    split at h
    · next g' hg =>
      split at h <;> cases h
      obtain ⟨x, _, rfl⟩ := Option.map_eq_some_iff.mp hg
      exact ⟨rfl, c, rfl⟩
    · cases h

section
variable {vat idx j : Nat} {s : State} {g : Eng} (hm : movable s vat idx = some g) (hj : j < g.cmd.units) (hh : g.cmd.has j = false)
include hj hh

theorem not_landed : ¬(decide (g.cmd.units ≤ j) || g.cmd.has j) = true := by
  simp [hj, hh]

include hm

theorem copySectorLand_ok {u : State} {bs : List Byte} {fl : BitVec 5} (h : landUnit s g j (g.cmd.sent.contains j) = (.ok u bs, fl)) :
    copySectorLand vat idx j s = afterLanding s u g j fl := by
  rw [copySectorLand, hm]
  exact (if_neg (not_landed hj hh)).trans (by rw [h])

theorem copySectorLand_held {pa : Option Nat} {bs : List Byte} {fl : BitVec 5}
    (h : landUnit s g j (g.cmd.sent.contains j) = (.held pa bs, fl)) : copySectorLand vat idx j s = holdUnit s g j pa bs := by
  rw [copySectorLand, hm]
  exact (if_neg (not_landed hj hh)).trans (by rw [h])

theorem copySectorLand_delay {u : State} {fl : BitVec 5} (h : landUnit s g j (g.cmd.sent.contains j) = (.delay u, fl)) :
    copySectorLand vat idx j s = some u := by
  rw [copySectorLand, hm]
  exact (if_neg (not_landed hj hh)).trans (by rw [h])

theorem copySectorLand_conflict {fl : BitVec 5} (h : landUnit s g j (g.cmd.sent.contains j) = (.conflict, fl))
    (ha : g.cmd.route.heldAt = none) :
    copySectorLand vat idx j s = some (setCopy s vat { g.cmd with route := { g.cmd.route with heldAt := some s.devtime } }) := by
  rw [copySectorLand, hm]
  exact (if_neg (not_landed hj hh)).trans (by rw [h]; exact if_neg (by rw [ha]; decide))

theorem copyFailure_flt {c aux : Nat} {va : Word} (h : (landUnit s g j (g.cmd.sent.contains j)).1 = .flt c va aux) :
    copyFailure vat idx j false s = stopCopy s g 1 c va (if c = 6 ∨ c = 7 then aux else 0) := by
  have hc : (c = PAGEF || c = PROT) = true ↔ c = 6 ∨ c = 7 := by rw [Bool.or_eq_true, decide_eq_true_eq, decide_eq_true_eq]; rfl
  rw [copyFailure, hm]
  refine (if_neg (not_landed hj hh)).trans ?_
  rw [h]
  exact (if_neg Bool.false_ne_true).trans (congrArg _ (if_congr hc rfl rfl))

theorem copyFailure_rmt {va : Word} (h : (landUnit s g j (g.cmd.sent.contains j)).1 = .rmt va) :
    copyFailure vat idx j true s = stopCopy s g 2 0x1A va 0 := by
  rw [copyFailure, hm]
  exact (if_neg (not_landed hj hh)).trans (by rw [h]; rfl)

theorem copyFailure_conflict {a : Nat} (h : (landUnit s g j (g.cmd.sent.contains j)).1 = .conflict) (ha : g.cmd.route.heldAt = some a)
    (ht : a + 10000000 ≤ s.devtime) : copyFailure vat idx j true s = stopCopy s g 2 0x1A (g.remoteVA s j) 0 := by
  rw [copyFailure, hm]
  refine (if_neg (not_landed hj hh)).trans ?_
  rw [h, ha]
  exact if_pos (by rw [decide_eq_true ht]; rfl)

end

/-- What stops a command ends it. -/
theorem event_ends {s : State} {g : Eng} {o : Option State} {status cause aux : Nat} {va : Word}
    (h : o = stopCopy s g status cause va aux) (hs : canStop s g status cause va aux = true) : ∃ t, event s o = .next t ∧ Ended g t := by
  obtain ⟨t, ht, he⟩ := stopCopy_ends hs
  exact ⟨t, event_some (h.trans ht), he⟩

theorem MemOnly.ctx?_eq {s t : State} (h : MemOnly s t) (n : Nat) : t.ctx? n = s.ctx? n := by
  obtain ⟨_, rfl⟩ := h
  rfl

theorem MemOnly.threads_eq {s t : State} (h : MemOnly s t) : t.threads = s.threads := by
  obtain ⟨_, rfl⟩ := h
  rfl

theorem ctx?_ins (s : State) (n : Nat) (c : Ctx) : ({ s with ctxs := Tbl.ins s.ctxs n c } : State).ctx? n = some c :=
  (Tbl.find_ins _ _ _ _).trans (if_pos rfl)

/-- A unit that is held back is an output of its context, and its bytes are in the context's save area alone (R91). -/
theorem holdUnit_follows {s : State} {g : Eng} {j : Nat} (pa : Option Nat) (bs : List Byte) {x : Ctx} (hx : s.ctx? g.ctx = some x)
    (hh : unitHeld s g j = false) (hr : logRoom x 80 = true) :
    ∃ t y, holdUnit s g j pa bs = some t ∧ t.ctx? g.ctx = some y ∧ y.outs = .remote g.vat g.cmd.id j :: x.outs ∧ t.threads = s.threads := by
  unfold holdUnit
  rw [hx]
  dsimp only
  rw [if_neg (by rw [hh]; decide), if_pos hr]
  cases pa <;> exact ⟨_, { x with outs := .remote g.vat g.cmd.id j :: x.outs }, rfl,
    ((putEntry_memOnly _ _ _ _).ctx?_eq _).trans (ctx?_ins s _ _), rfl, (putEntry_memOnly _ _ _ _).threads_eq⟩

/-! ## Routes (R23, R24) -/

/-- A path that waits for a port, or goes out on one that is up. -/
def WaitsOrOut (s : State) (x : Path) : Prop := x = .wait ∨ ∃ p, x = .out p ∧ s.portLive p = true

theorem path_waitsOrOut (s : State) {c : CopyCmd} (ho : c.route.own = false) (hp : c.route.pmask ≠ 0) : WaitsOrOut s (c.path s) := by
  unfold CopyCmd.path
  dsimp only
  rw [if_neg (by rw [ho]; decide), if_neg hp]
  refine iteInduction (motive := WaitsOrOut s) (fun hl => ?_) fun _ => ?_
  · split at hl
    · next p h => exact .inr ⟨p, by rw [h]; rfl, hl⟩
    · cases hl
  · split
    · split
      · next p h => exact .inr ⟨p, rfl, List.find?_some h⟩
      · exact .inl rfl
    · refine iteInduction (motive := WaitsOrOut s) (fun _ => .inl rfl) fun he => .inr ⟨_, rfl, ?_⟩
      have hlive : ∀ p ∈ (span 0 16).filter fun p => c.route.pmask.testBit p && s.portLive p, s.portLive p = true := fun p hp =>
        (Bool.and_eq_true _ _ |>.mp (List.mem_filter.mp hp).2).2
      generalize (span 0 16).filter (fun p => c.route.pmask.testBit p && s.portLive p) = cand at he hlive ⊢
      have hlen : 0 < cand.length := List.length_pos_iff.mpr (by simpa using he)
      rw [List.getD_eq_getElem _ _ (Nat.mod_lt _ hlen)]
      exact hlive _ (List.getElem_mem _)

/-- Once its port is looked up, a command whose port is not up waits for one. -/
theorem path_onPort {s : State} {c : CopyCmd} (ho : (c.onPort s).route.own = false) (hm : (c.onPort s).route.pmask ≠ 0)
    (hp : ∀ p, (c.onPort s).route.port = some p → s.portLive p = false) : (c.onPort s).path s = .wait := by
  have hr : (c.onPort s).route.own = c.route.own ∧ (c.onPort s).route.pmask = c.route.pmask := by
    unfold CopyCmd.onPort
    split <;> exact ⟨rfl, rfl⟩
  rw [hr.1] at ho
  rw [hr.2] at hm
  obtain h | ⟨p, h, hl⟩ := path_waitsOrOut s ho hm
  · have he : c.onPort s = c := by unfold CopyCmd.onPort; rw [h]
    rw [he, h]
  · have he : (c.onPort s).route.port = some p := by unfold CopyCmd.onPort; rw [h]
    rw [hp p he] at hl
    cases hl

theorem remoteRouteTimeout_stops {vat idx : Nat} {s : State} {g : Eng} (hm : movable s vat idx = some g) (hr : g.rcd.rem = true)
    (hp : g.cmd.path s = .wait) (ht : g.cmd.route.since + 10000000 ≤ s.devtime) :
    remoteRouteTimeout vat idx s = stopCopy s g 2 0x1A (g.remoteVA s g.cmd.next) 0 := by
  unfold remoteRouteTimeout
  rw [hm]
  exact if_pos (by simp [hr, hp, ht])

/-! ## Incoming transfers (R196, R207, R220) -/

theorem takeDest_conflict {s : State} {hs : List Hold} (h : ∃ x ∈ hs, (holdConflict s x.owner true x.lo x.len).isSome)
    (k : State → Landing) : takeDest s hs k = .conflict := if_pos (List.any_eq_true.mpr h)

theorem takeDest_free {s : State} {hs : List Hold} (h : ∀ x ∈ hs, holdConflict s x.owner true x.lo x.len = none)
    (hf : holdsFit s hs = true) (k : State → Landing) : takeDest s hs k = k (s.addHolds hs) := by
  unfold takeDest
  rw [if_neg, if_pos hf]
  rw [List.any_eq_true]
  rintro ⟨x, hx, hc⟩
  rw [h x hx] at hc
  cases hc

theorem waitRemote_new {s : State} {e : RemoteIn} (h : ∀ r ∈ s.hub.remotes, r.xfer ≠ e.xfer) :
    waitRemote s e = some (s.modHub fun h => { h with remotes := h.remotes.filter (fun r => r.xfer ≠ e.xfer) ++ [e] }) := by
  refine if_neg ?_
  rw [List.any_eq_true]
  rintro ⟨r, hr, he⟩
  simp [h r hr] at he

section
variable {xfer kind ctx asid n : Nat} {va : Word} {p : RemotePacket} {last : Bool} {s : State} {c : Ctx}

/-- A packet that arrives, of a context that is there under its ASID, is carried out by its kind. -/
theorem remoteWriteArrive_eq (hc : s.ctx? ctx = some c) (ha : c.asid = asid) (hl : s.linked = true)
    (hf : remoteForm kind va n p.base p.len = true) : remoteWriteArrive xfer kind ctx asid va n p last s =
      if kind = 0 then remoteSector xfer ctx p.user va n p.data p.base p.len last s
      else if kind = 4 then remoteReadIn xfer ctx p.user va n s else remoteAdd xfer kind ctx p.user va n p.data s := by
  unfold remoteWriteArrive
  rw [if_neg (by rw [hl, hf]; decide), hc]
  exact if_neg (not_not_intro ha)

theorem not_held (hn : ∀ r ∈ s.hub.remotes, r.xfer ≠ xfer) :
    (s.hub.remotes.any fun r => decide (r.xfer = xfer) && !r.waiting) = false := by
  rw [List.any_eq_false]
  intro r hr
  simp [hn r hr]

theorem remoteSector_lands (hn : ∀ r ∈ s.hub.remotes, r.xfer ≠ xfer) {l : List (Nat × Nat × Nat × BitVec 64)}
    (hp : remotePieces s ctx hubWs p.user p.base p.len true = .ok l)
    (hfree : ∀ h ∈ destHolds (xferOwner xfer) ctx l, holdConflict s h.owner true h.lo h.len = none)
    (hfit : holdsFit s (destHolds (xferOwner xfer) ctx l) = true) {u : State} {bs : List Byte}
    (hw : remoteWrite (s.addHolds (destHolds (xferOwner xfer) ctx l)) ctx hubWs p.user va (some (xferOwner xfer))
      (fun _ _ => bytesOf (p.data.toNat % 2 ^ (8 * n)) n) = .ok u bs) :
    ∃ t, remoteSector xfer ctx p.user va n p.data p.base p.len last s = some t ∧ t.mem = u.mem ∧
      (last = true → (∀ h ∈ t.holds, h.owner ≠ xferOwner xfer) ∧ ∀ r ∈ t.hub.remotes, r.xfer ≠ xfer) ∧
      (last = false → (∀ h ∈ destHolds (xferOwner xfer) ctx l, h ∈ t.holds) ∧
        ⟨xfer, 0, ctx, joinPieces l, false, s.devtime⟩ ∈ t.hub.remotes) := by
  unfold remoteSector
  dsimp only
  rw [hp]
  dsimp only
  rw [not_held hn, if_neg Bool.false_ne_true, takeDest_free hfree hfit, hw]
  have hk := remoteWrite_books hw
  cases last with
  | true =>
    refine ⟨_, rfl, rfl, fun _ => ⟨dropHolds_owner _ _, fun r hr => ?_⟩, fun e => (nomatch e)⟩
    simpa using (List.mem_filter.mp hr).2
  | false =>
    refine ⟨_, rfl, rfl, fun e => (nomatch e), fun _ => ⟨fun h hh => ?_, List.mem_append_right _ (.head _)⟩⟩
    exact (congrArg (h ∈ ·) hk.holds).mpr (List.mem_append_right _ hh)

theorem remoteSector_waits (hn : ∀ r ∈ s.hub.remotes, r.xfer ≠ xfer) {l : List (Nat × Nat × Nat × BitVec 64)}
    (hp : remotePieces s ctx hubWs p.user p.base p.len true = .ok l)
    (hc : ∃ h ∈ destHolds (xferOwner xfer) ctx l, (holdConflict s h.owner true h.lo h.len).isSome) :
    ∃ t, remoteSector xfer ctx p.user va n p.data p.base p.len last s = some t ∧ t.mem = s.mem ∧
      ⟨xfer, 0, ctx, joinPieces l, true, s.devtime⟩ ∈ t.hub.remotes := by
  unfold remoteSector
  dsimp only
  rw [hp]
  dsimp only
  rw [not_held hn, if_neg Bool.false_ne_true, takeDest_conflict hc]
  exact ⟨_, waitRemote_new hn, rfl, List.mem_append_right _ (.head _)⟩

theorem remoteAdd_lands {e : Nat × Nat × Nat × BitVec 64} {l : List (Nat × Nat × Nat × BitVec 64)}
    (hp : remotePieces s ctx hubWs p.user va n false = .ok (e :: l))
    (hfree : ∀ h ∈ destHolds (xferOwner xfer) ctx (e :: l), holdConflict s h.owner true h.lo h.len = none)
    (hfit : holdsFit s (destHolds (xferOwner xfer) ctx (e :: l)) = true) {u : State} {bs : List Byte}
    (hw : remoteWrite s ctx hubWs p.user va none
      (fun _ _ => bytesOf (atomicSum (kind - 1) (s.read 0 e.2.1 n) (p.data.toNat % 2 ^ (8 * n))).1 n) = .ok u bs) :
    ∃ t, remoteAdd xfer kind ctx p.user va n p.data s = some t ∧ t.mem = u.mem ∧ t.holds = u.holds := by
  unfold remoteAdd
  rw [hp]
  dsimp only
  rw [takeDest_free hfree hfit, hw]
  exact ⟨_, rfl, rfl, rfl⟩

theorem remoteReadIn_answers {x : Xl} (hx : remoteXlate s ctx p.user va .read = .ok x) (hc : copyCheck s ctx hubWs x.pa x.lvl false = none)
    (hp : s.poisoned hubWs x.pa n = false) (hf : fenced s ctx hubWs x.pa x.pte = false) (hr : s.hubRefresh x.pa n = false) :
    ∃ t, remoteReadIn xfer ctx p.user va n s = some t ∧ t.mem = s.mem ∧
      t.hub.remoteReads = (xfer, bytesOf (s.read hubWs x.pa n) n) :: s.hub.remoteReads := by
  have hk : CacheOnly s (if isCached x.pa then s.engineRead hubDie (home s ctx x.pa x.pte) x.pa (evictFirst x.pte) else s) := by
    split
    · exact engineRead_cache _ _ _ _ _
    · exact .refl s
  unfold remoteReadIn
  rw [hx]
  dsimp only
  rw [hc, hp, hf, hr, if_neg (by decide)]
  refine ⟨_, rfl, hk.only.mem, congrArg (fun h : Hub => _ :: h.remoteReads) hk.books.hub⟩

end

theorem remoteHoldWaitTimeout_ends {xfer : Nat} {s : State} {r : RemoteIn}
    (hr : s.hub.remotes.find? (fun r => decide (r.xfer = xfer) && r.waiting) = some r) (ht : r.since + 10000000 ≤ s.devtime)
    (hc : ∃ p ∈ r.pieces, (holdConflict s (xferOwner xfer) true p.1 p.2).isSome) :
    ∃ t, exec (.remoteHoldWaitTimeout xfer) s = .next t ∧ (∀ x ∈ t.hub.remotes, x.xfer ≠ xfer) ∧ t.holds = s.holds ∧ t.mem = s.mem := by
  refine ⟨s.modHub fun h => { h with remotes := h.remotes.filter fun x => x.xfer ≠ xfer }, event_some ?_, ?_, rfl, rfl⟩
  · unfold remoteHoldWaitTimeout
    rw [hr]
    have hany : (r.pieces.any fun p => (holdConflict s (xferOwner xfer) true p.1 p.2).isSome) = true := List.any_eq_true.mpr hc
    exact if_neg (by rw [hany, decide_eq_false ht.not_gt]; decide)
  · intro x hx
    simpa using (List.mem_filter.mp hx).2

/-! ## The statement -/

/-- What a copy within the package reads goes to its destination. -/
theorem landUnit_local {s u : State} {g : Eng} {j : Nat} {bs : List Byte} (hc : g.cmd.kind ≠ CPYMK) (hg : g.cmd.kind ≠ GATHRK)
    (hr : g.rcd.rem = false)
    (h : engReadSpan s g g.rcd.src.toNat (g.rcd.src + word (g.cmd.part j).1).toNat (g.cmd.part j).2 none = .ok u bs) :
    (landUnit s g j false).1 = engWrite u g (g.rcd.dst + word (g.cmd.part j).1).toNat bs false := by
  unfold landUnit
  dsimp only
  rw [if_neg hc, if_neg hg, h]
  dsimp only
  rw [if_pos (by rw [hr]; rfl)]

/-- Settles O60, a clause at a time. -/
theorem copiesRun : Obligations.CopiesRun := by
  refine ⟨fun vat idx j s g hm hj hh => ?_, fun s u g j bs hc hg hr h => landUnit_local hc hg hr h,
    fun vat idx s g hm hr ho hmask _ hp ht hs => ?_, fun xfer kind ctx asid n va p last s c hc ha hl hf => ?_,
    fun xfer s r hr ht hc => remoteHoldWaitTimeout_ends hr ht hc⟩
  · obtain ⟨rfl, -⟩ := movable_eq hm
    refine ⟨fun u bs fl h hc => ?_, fun u h => ?_, fun pa bs x h hx hu hr => ?_, fun c va aux h hs => ?_, fun va h hs => ?_,
      fun h => ⟨fun ha => ?_, fun a ha ht hs => ?_⟩⟩
    · obtain ⟨t, ht, hl, hn⟩ := afterLanding_counts s hc
      exact ⟨t, event_some ((copySectorLand_ok hm hj hh h).trans ht), hl, hn⟩
    · exact event_some (copySectorLand_delay hm hj hh (Prod.ext (y := (_, _)) h rfl))
    · obtain ⟨t, y, ht, hy, ho, hth⟩ := holdUnit_follows pa bs hx hu hr
      exact ⟨t, y, event_some ((copySectorLand_held hm hj hh (Prod.ext (y := (_, _)) h rfl)).trans ht), hy, ho, hth⟩
    · exact event_ends (copyFailure_flt hm hj hh h) hs
    · exact event_ends (copyFailure_rmt hm hj hh h) hs
    · refine ⟨_, event_some (copySectorLand_conflict hm hj hh (Prod.ext (y := (_, _)) h rfl) ha), rfl, fun x hx e => ?_⟩
      rw [setCopy_copies _ _ _ x hx e]
    · exact event_ends (copyFailure_conflict hm hj hh h ha ht) hs
  · obtain ⟨rfl, c, hcmd⟩ := movable_eq hm
    rw [hcmd] at ho hmask hp
    have hpath := path_onPort ho hmask hp
    rw [← hcmd] at hpath
    exact event_ends (remoteRouteTimeout_stops hm hr hpath ht) hs
  · have hin := remoteWriteArrive_eq (xfer := xfer) (last := last) hc ha hl hf
    refine ⟨fun l hk hp hn => ⟨fun u bs hfree hfit hw => ?_, fun hcf => ?_⟩, fun e l u bs h1 h3 hp hfree hfit hw => ?_,
      fun x hk hx hcc hpo hfe hre => ?_⟩
    · obtain ⟨t, ht, hrest⟩ := remoteSector_lands (last := last) hn hp hfree hfit hw
      exact ⟨t, event_some ((hin.trans (if_pos hk)).trans ht), hrest⟩
    · obtain ⟨t, ht, hrest⟩ := remoteSector_waits (va := va) (n := n) (last := last) hn hp hcf
      exact ⟨t, event_some ((hin.trans (if_pos hk)).trans ht), hrest⟩
    · obtain ⟨t, ht, hrest⟩ := remoteAdd_lands hp hfree hfit hw
      exact ⟨t, event_some ((hin.trans ((if_neg (by omega)).trans (if_neg (by omega)))).trans ht), hrest⟩
    · obtain ⟨t, ht, hrest⟩ := remoteReadIn_answers (xfer := xfer) hx hcc hpo hfe hre
      exact ⟨t, event_some ((hin.trans ((if_neg (by omega)).trans (if_pos hk))).trans ht), hrest⟩

end Sys2Proof.Machine
end

