-- ==== Sys2Proof/Proofs/LaunchEndsItself.lean ====
section
/-! SUPPORT. A LAUNCH closes its host queues while threads may wait on the graph's number (R105, R118, R120), and the refutation of O52. -/

namespace Sys2Proof.Machine

/-- The LAUNCH of the descriptor at 0x3000, read by queue 0 and not begun. -/
def staleLaunch : Cmd := ⟨1, 0, 0, 2, 1, false, false, 0x3000 <<< 64, false, 0, 0, []⟩

/-- A saved thread of crew 1, in its trap handler, whose item push waits on queue 0 of graph 1. -/
def stalePusher : Thread :=
  { State.thread0 with
    ref := ⟨1, 0, 0⟩
    occ := true
    csr := { State.csrs0 with tnest := 1 }
    park := some ⟨.message, 0x10000, [], none, keyItem 1 0, 0, false⟩ }

/-- A state that no run reaches: crew 1 is of graph 1 before any graph has that number, and `stalePusher` waits on it. Context 0 maps its
first GiB by the tables at 0x1000; at 0x3000 lies a well-formed descriptor of one task and of one queue of the host; queue 0 has read
`staleLaunch`. -/
def stalePush : State :=
  { State.reset with
    mem := [(0x1000, 0x01), (0x1001, 0x20), (0x2000, 0x1F),
      (0x3000, 0x53), (0x3001, 0x52), (0x3002, 0x47), (0x3003, 0x44), (0x3004, 1), (0x3006, 1), (0x3008, 1),
      (0x3040, 1), (0x3042, 1), (0x3044, 1), (0x304A, 1),
      (0x3080, 0xFF), (0x3081, 0xFF), (0x3084, 1), (0x3086, 1)]
    ctxs := [(0, newCtx State.reset 0 0x1000 0x400000 0x100000 false 0 0)]
    crews := [(1, { newCrew State.reset 1 0 0 0 ⟨1, 1, 7, false, 0x10000, 0, 0, 0⟩ 0 with
      state := .swapped, saved := some ⟨[(0, stalePusher)], [], [], [], [], [], false, []⟩ })]
    hub := { State.reset.hub with
      ready := true
      nextCrew := 2
      queues := [(0, { State.queue0 with state := .run, cmds := [staleLaunch] })] } }

/-- The LAUNCH passes every check and starts its graph, and that graph is not there afterwards: the token of its host queue traps the
waiting push, a double trap, which ends graph 1. -/
def startsNothing (s : State) (c : Cmd) : Bool :=
  (match packetAddr s 0 c.ctx (pkt c.body 8 8) .read false with | .ok _ _ => true | _ => false) &&
  match parseDesc s 0 c.ctx (pkt c.body 8 8) with
  | .inl (ts, qs) =>
    (ts.findSome? (taskBad s c.ctx)).isNone && (startGraph (beginCmd s 0 c) 0 c ts qs).any fun t => (t.graph? s.hub.nextGraph).isNone
  | .inr _ => false

theorem startsNothing_iff {s : State} {c : Cmd} : startsNothing s c = true ↔
    (∃ pa pte, packetAddr s 0 c.ctx (pkt c.body 8 8) .read false = .ok pa pte) ∧
    ∃ ts qs t, parseDesc s 0 c.ctx (pkt c.body 8 8) = .inl (ts, qs) ∧ ts.findSome? (taskBad s c.ctx) = none ∧
      startGraph (beginCmd s 0 c) 0 c ts qs = some t ∧ t.graph? s.hub.nextGraph = none := by
  unfold startsNothing
  rw [Bool.and_eq_true]
  refine and_congr ?_ ?_
  · cases packetAddr s 0 c.ctx (pkt c.body 8 8) .read false <;> simp
  · rcases parseDesc s 0 c.ctx (pkt c.body 8 8) with ⟨ts, qs⟩ | a <;> simp [Option.any_eq_true]

theorem nextCmd_stalePush : nextCmd stalePush 0 2 = some staleLaunch := by decide +kernel

theorem startsNothing_stalePush : startsNothing stalePush staleLaunch = true := by decide +kernel

/-- Refutes O52 in its clause about LAUNCH, which is stated for every state, the ones in which a thread waits on a graph that is still to come
included: from `stalePush` the LAUNCH passes every check, and the graph that it starts ends with it. -/
theorem not_queuePackets : ¬ Obligations.QueuePackets := by
  unfold Obligations.QueuePackets
  rintro ⟨-, -, -, -, -, -, hlaunch, -⟩
  obtain ⟨⟨pa, pte, ha⟩, ts, qs, t, hp, hb, hs, hg⟩ := startsNothing_iff.mp startsNothing_stalePush
  obtain ⟨-, hok⟩ := hlaunch 0 stalePush staleLaunch pa pte rfl nextCmd_stalePush ha
  obtain ⟨-, g, hfound, -⟩ := hok ts qs t hp hb hs
  rw [hg] at hfound
  cases hfound

end Sys2Proof.Machine
end

