-- ==== Sys2Proof/Proofs/Completions.lean ====
section
/-! SUPPORT. What it changes when a command of a queue begins or completes (R45, R46, R60, R91, R94): the queues, memory, the held outputs
of contexts and the vectors signalled, and nothing else. -/

namespace Sys2Proof.Machine

/-! ## Commands that begin -/

theorem canBegin_begun {s : State} {q : Nat} {x : Queue} {c : Cmd} (h : canBegin s q x = some c) : c.begun = false := by
  have hfind {g : Cmd → Bool} (hx : ((x.cmds.find? fun y => !y.begun).bind fun y => if g y then none else some y) = some c) :
      c.begun = false := by
    obtain ⟨y, hy, hc⟩ := Option.bind_eq_some_iff.mp hx
    split at hc <;> cases hc
    simpa using List.find?_some hy
  unfold canBegin at h
  split at h
  · cases h
  · split at h
    · exact hfind h
    · exact hfind h
    · cases h

/-- The command that may begin has not begun. -/
theorem nextCmd_begun {s : State} {q typ : Nat} {c : Cmd} (h : nextCmd s q typ = some c) : c.begun = false := by
  unfold nextCmd at h
  split at h
  · obtain ⟨x, hx, hc⟩ := Option.bind_eq_some_iff.mp h
    split at hc <;> cases hc
    exact canBegin_begun hx
  · cases h

/-- With none begun, an event of a type is about the command that may begin. -/
theorem onCmd_next {s : State} {q typ : Nat} {p : Cmd → Bool} {c : Cmd} (hb : noneBegun s q typ = true) (hn : nextCmd s q typ = some c)
    (hp : p c = true) (f : Cmd → Option State) : onCmd s q typ p f = f c := by
  have hnil : (s.queue q).cmds.filter (fun c => c.begun && c.typ = typ && p c) = [] := by
    rw [List.filter_eq_nil_iff]
    intro x hx hc
    have := List.all_eq_true.mp hb x hx
    simp_all
  unfold onCmd onBegun
  rw [hnil, hn]
  exact if_pos hp

theorem ctxCmd_next {s : State} {sub : Nat} {c : Cmd} (h : ctxCmd s sub = some c) : nextCmd s 0 8 = some c ∧ pkt c.body 8 1 = sub := by
  unfold ctxCmd at h
  split at h
  · next x hx => split at h <;> cases h; exact ⟨hx, ‹_›⟩
  · cases h

/-! ## Queues -/

/-- Where a queue reads: HEAD, TAIL and EXPSEQ. -/
def Queue.place (q : Queue) : BitVec 32 × BitVec 32 × BitVec 16 := (q.head, q.tail, q.expSeq)

theorem queue_modQueue (s : State) (q k : Nat) (f : Queue → Queue) :
    (s.modQueue q f).queue k = if k = q then f (s.queue q) else s.queue k := Tbl.get_upd _ _ _ _ _

theorem place_modQueue {f : Queue → Queue} (hf : ∀ x, (f x).place = x.place) (s : State) (q k : Nat) :
    ((s.modQueue q f).queue k).place = (s.queue k).place := by
  rw [queue_modQueue]
  split
  · next h => rw [h, hf]
  · rfl

/-- A queue's STATE is brought up to date without moving its place. -/
theorem refreshQueue_place (s : State) (q k : Nat) : ((refreshQueue s q).queue k).place = (s.queue k).place := by
  refine place_modQueue (fun x => ?_) s q k
  split
  · split
    · split <;> rfl
    · rfl
  · split
    · split <;> rfl
    · rfl
  · split <;> rfl
  · rfl

theorem refreshQueue_other (s : State) {q k : Nat} (h : k ≠ q) : (refreshQueue s q).queue k = s.queue k := by
  rw [refreshQueue, queue_modQueue, if_neg h]

/-! ## Contexts -/

/-- A context but for its held outputs and its wish for a seal. -/
def Ctx.bare (c : Ctx) : Ctx := { c with outs := [], sealWanted := false }

/-- A held output is a write that a seal releases into memory or to another package, and not a record. -/
def HeldOut.isWrite : HeldOut → Bool
  | .host _ _ | .remote _ _ _ => true
  | .record _ _ _ _ _ | .silent _ _ => false

/-- A context has held records back, and may want a seal for them. -/
structure Ctx.Files (c x : Ctx) : Prop where
  bare : x.bare = c.bare
  outs : ∀ o ∈ x.outs, o ∈ c.outs ∨ o.isWrite = false

theorem Ctx.Files.refl (c : Ctx) : c.Files c := ⟨rfl, fun _ h => .inl h⟩

theorem Ctx.Files.trans {c x y : Ctx} (h : c.Files x) (g : x.Files y) : c.Files y :=
  ⟨g.bare.trans h.bare, fun o ho => (g.outs o ho).elim (h.outs o) .inr⟩

theorem Ctx.Files.cons (c : Ctx) {o : HeldOut} (h : o.isWrite = false) (w : Bool) :
    c.Files { c with outs := o :: c.outs, sealWanted := w } :=
  ⟨rfl, fun _ hx => (List.mem_cons.mp hx).elim (fun e => .inr (e ▸ h)) .inl⟩

theorem ctx?_modCtx (s : State) (n k : Nat) (f : Ctx → Ctx) :
    (s.modCtx n f).ctx? k = if k = n then (s.ctx? n).map f else s.ctx? k := by
  refine (Tbl.find_modify _ _ _ _).trans ?_
  split
  · next h => rw [h]; rfl
  · rfl

/-! ## What completing changes -/

/-- Records have been filed: in memory, in queues, among the held outputs of contexts, with their vectors. -/
structure Filed (s t : State) : Prop where
  rest : t = { s with mem := t.mem, ctxs := t.ctxs, hub := t.hub }
  hub : t.hub = { s.hub with queues := t.hub.queues, msix := t.hub.msix, msixPend := t.hub.msixPend }
  ctx : ∀ n, Option.Rel Ctx.Files (s.ctx? n) (t.ctx? n)
  place : ∀ q, (t.queue q).place = (s.queue q).place

theorem files_refl : ∀ o : Option Ctx, Option.Rel Ctx.Files o o
  | none => .none
  | some c => .some (.refl c)

theorem files_trans : ∀ {a b c : Option Ctx}, Option.Rel Ctx.Files a b → Option.Rel Ctx.Files b c → Option.Rel Ctx.Files a c
  | _, _, _, .none, .none => .none
  | _, _, _, .some h, .some g => .some (h.trans g)

namespace Filed

theorem refl (s : State) : Filed s s := ⟨rfl, rfl, fun _ => files_refl _, fun _ => rfl⟩

theorem trans {s t u : State} (h : Filed s t) (g : Filed t u) : Filed s u :=
  ⟨by rw [g.rest, h.rest], by rw [g.hub, h.hub], fun n => files_trans (h.ctx n) (g.ctx n), fun q => (g.place q).trans (h.place q)⟩

theorem foldl {α : Type} {f : State → α → State} (h : ∀ s x, Filed s (f s x)) (l : List α) (s : State) : Filed s (l.foldl f s) := by
  induction l generalizing s with
  | nil => exact refl s
  | cons x r ih => exact (h s x).trans (ih _)

theorem ctx_some {s t : State} (h : Filed s t) {n : Nat} {c : Ctx} (hc : s.ctx? n = some c) : ∃ x, t.ctx? n = some x ∧ c.Files x := by
  have := h.ctx n
  rw [hc] at this
  generalize ht : t.ctx? n = o at this
  cases this with
  | some hf => exact ⟨_, rfl, hf⟩

theorem ctx_none {s t : State} (h : Filed s t) {n : Nat} (hc : s.ctx? n = none) : t.ctx? n = none := by
  have := h.ctx n
  rw [hc] at this
  generalize t.ctx? n = o at this
  cases this
  rfl

theorem region {s t : State} (h : Filed s t) (r : Nat) : t.region? r = s.region? r := by
  rw [State.region?, h.hub]
  rfl

theorem mgmt {s t : State} (h : Filed s t) : t.mgmt = s.mgmt := by rw [h.rest]
theorem crew {s t : State} (h : Filed s t) (n : Nat) : t.crew? n = s.crew? n := by rw [h.rest]; rfl
theorem graph {s t : State} (h : Filed s t) (n : Nat) : t.graph? n = s.graph? n := by rw [h.rest]; rfl

end Filed

theorem MemOnly.filed {s t : State} (h : MemOnly s t) : Filed s t := by
  obtain ⟨_, rfl⟩ := h
  exact ⟨rfl, rfl, fun _ => files_refl _, fun _ => rfl⟩

theorem modQueue_filed (s : State) (q : Nat) {f : Queue → Queue} (hf : ∀ x, (f x).place = x.place) : Filed s (s.modQueue q f) :=
  ⟨rfl, rfl, fun _ => files_refl _, place_modQueue hf s q⟩

theorem refreshQueue_filed (s : State) (q : Nat) : Filed s (refreshQueue s q) :=
  ⟨rfl, rfl, fun _ => files_refl _, refreshQueue_place s q⟩

theorem signal_hub (s : State) (vec : Nat) :
    (s.signal vec).hub = { s.hub with msix := (s.signal vec).hub.msix, msixPend := (s.signal vec).hub.msixPend } := by
  unfold State.signal
  rw [modHub_hub]
  dsimp only
  split <;> rfl

theorem signal_queue (s : State) (vec k : Nat) : (s.signal vec).queue k = s.queue k := by
  rw [State.queue, signal_hub]
  rfl

theorem signal_filed (s : State) (vec : Nat) : Filed s (s.signal vec) :=
  ⟨rfl, by rw [signal_hub], fun _ => files_refl _, fun q => by rw [signal_queue]⟩

theorem ins_filed {s : State} {n : Nat} {c x : Ctx} (hc : s.ctx? n = some c) (h : c.Files x) :
    Filed s { s with ctxs := Tbl.ins s.ctxs n x } := by
  refine ⟨rfl, rfl, fun k => ?_, fun _ => rfl⟩
  rw [State.ctx?, State.ctx?, Tbl.find_ins]
  split
  · next e => rw [e, ← State.ctx?, hc]; exact .some h
  · exact files_refl _

theorem modCtx_filed (s : State) (n : Nat) {f : Ctx → Ctx} (h : ∀ c : Ctx, c.Files (f c)) : Filed s (s.modCtx n f) := by
  refine ⟨rfl, rfl, fun k => ?_, fun _ => rfl⟩
  rw [ctx?_modCtx]
  split
  · next e =>
    subst e
    cases s.ctx? k with
    | none => exact .none
    | some c => exact .some (h c)
  · exact files_refl _

theorem putRecord_filed (s : State) (q : Nat) (r : BitVec 256) (irq : Bool) : Filed s (putRecord s q r irq) := by
  have hput (u : State) : Filed u ((u.write (cplSlot (u.queue q) 0) 32 (withPhase (u.queue q) 0 r)).modQueue q fun x =>
      { x with cplTail := x.cplTail + 1 }) :=
    (write_memOnly _ _ _ _).filed.trans (modQueue_filed _ _ fun _ => rfl)
  unfold putRecord
  dsimp only
  split
  · split
    · exact modQueue_filed s q fun x => by split <;> rfl
    · split
      · exact (hput s).trans (signal_filed _ _)
      · exact hput s
  · exact modQueue_filed s q fun _ => rfl

theorem holdRecord_filed (s : State) (ctx q : Nat) (r : BitVec 256) (irq : Bool) (cmd : Option Cmd) :
    Filed s (holdRecord s ctx q r irq cmd) := by
  unfold holdRecord
  split
  · exact .refl s
  · next c hc =>
    split
    · exact (ins_filed hc (.cons c rfl c.sealWanted)).trans (putEntry_memOnly _ _ _ _).filed
    · exact ins_filed hc (.cons c rfl true)

theorem record_filed (s : State) (q : Nat) (r : BitVec 256) (irq : Bool) (cmd : Option Cmd) : Filed s (s.record q r irq cmd) :=
  iteInduction (motive := Filed s) (fun _ => holdRecord_filed _ _ _ _ _ _) fun _ => putRecord_filed _ _ _ _

theorem keepSilent_filed (s : State) (q : Nat) (cmd : Option Cmd) : Filed s (keepSilent s q cmd) := by
  unfold keepSilent
  split
  · split
    · exact modCtx_filed s _ fun c => Ctx.Files.cons c rfl c.sealWanted
    · exact .refl s
  · exact .refl s

theorem finish_filed (s : State) (q id seq typ status detail aux : Nat) (cpl irq : Bool) :
    Filed s (finish s q id seq typ status detail aux cpl irq) := by
  have hdrop : Filed s (s.modQueue q fun x => { x with cmds := x.cmds.filter fun c => c.id ≠ id }) := modQueue_filed s q fun _ => rfl
  unfold finish
  dsimp only
  split
  · exact hdrop.trans (record_filed _ _ _ _ _)
  · exact hdrop.trans (keepSilent_filed _ _ _)

theorem complete_filed (s : State) (q id seq typ status detail aux : Nat) (cpl irq : Bool) :
    Filed s (complete s q id seq typ status detail aux cpl irq) :=
  (finish_filed _ _ _ _ _ _ _ _ _ _).trans (refreshQueue_filed _ _)

theorem completeCmd_filed (s : State) (q : Nat) (c : Cmd) (status detail aux : Nat) : Filed s (completeCmd s q c status detail aux) :=
  complete_filed _ _ _ _ _ _ _ _ _ _

/-! ## Queue 0 (R60): its records are never held back -/

theorem putRecord_other (s : State) {q k : Nat} (r : BitVec 256) (irq : Bool) (h : k ≠ q) : (putRecord s q r irq).queue k = s.queue k := by
  have hmod (u : State) (f : Queue → Queue) : (u.modQueue q f).queue k = u.queue k := by rw [queue_modQueue, if_neg h]
  have hwrite (pa n v : Nat) : (s.write pa n v).queue k = s.queue k := by obtain ⟨_, hm⟩ := write_memOnly s pa n v; rw [hm]; rfl
  unfold putRecord
  dsimp only
  split
  · split
    · exact hmod _ _
    · split
      · rw [signal_queue, hmod, hwrite]
      · rw [hmod, hwrite]
  · exact hmod _ _

theorem completeCmd_queue0_other (s : State) (c : Cmd) (status detail aux : Nat) {k : Nat} (h : k ≠ 0) :
    (completeCmd s 0 c status detail aux).queue k = s.queue k := by
  have hfin : (finish s 0 c.id c.seq c.typ status detail aux c.cpl c.irq).queue k = s.queue k := by
    have hdrop : (s.modQueue 0 fun x => { x with cmds := x.cmds.filter fun y => y.id ≠ c.id }).queue k = s.queue k := by
      rw [queue_modQueue, if_neg h]
    unfold finish
    dsimp only
    split
    · exact (putRecord_other _ _ _ h).trans hdrop
    · unfold keepSilent
      split <;> exact hdrop
  exact (refreshQueue_other _ h).trans hfin

end Sys2Proof.Machine
end

