-- ==== Sys2Proof/Proofs/IntervalSeal.lean ====
section
/-! SUPPORT. Checkpoints (O53; R87 to R94): the seal of an interval, and the rollback to it. -/

namespace Sys2Proof.Machine

/-! ## The seal (R92) -/

theorem foldl_memOnly {α : Type} {f : State → α → State} (h : ∀ s x, MemOnly s (f s x)) (l : List α) (s : State) :
    MemOnly s (l.foldl f s) := by
  induction l generalizing s with
  | nil => exact .refl s
  | cons x r ih => exact (h s x).trans (ih _)

theorem copyRange_memOnly (s : State) (src dst n : Nat) : MemOnly s (s.copyRange src dst n) :=
  MemOnly.trans (t := s.clear dst n) ⟨_, rfl⟩ (foldl_memOnly (fun _ _ => ⟨_, rfl⟩) _ _)

theorem linkGraphs_memOnly (s : State) (ctx : Nat) : MemOnly s (linkGraphs s ctx) := by
  unfold linkGraphs
  split
  · exact .refl s
  · exact (write_memOnly _ _ _ _).trans (foldl_memOnly (fun _ _ => write_memOnly _ _ _ _) _ _)

theorem writeMarks_memOnly (s : State) (c : Ctx) : MemOnly s (s.writeMarks c) :=
  (((write_memOnly _ _ _ _).trans (write_memOnly _ _ _ _)).trans (write_memOnly _ _ _ _)).trans (write_memOnly _ _ _ _)

theorem writeHeader_memOnly (s : State) (ctx : Nat) : MemOnly s (s.writeHeader ctx) := by
  unfold State.writeHeader
  split
  · exact (writeMarks_memOnly _ _).trans (writeEnds_memOnly _ _)
  · exact .refl s

theorem writeBackLines_cache (s : State) (l : List Nat) : CacheOnly s (writeBackLines s l) := by
  unfold writeBackLines
  generalize l.filter _ = r
  induction r generalizing s with
  | nil => exact .refl s
  | cons x r ih =>
    refine CacheOnly.trans ?_ (ih _)
    dsimp only
    split
    · exact (countDram_cache s _ _).trans ⟨_, _, _, _, rfl⟩
    · exact ⟨_, _, _, _, rfl⟩

/-- The graphs of a context. -/
def State.graphsOf (s : State) (n : Nat) : List (Nat × Graph) := s.graphs.filter fun g => g.2.ctx = n

/-- Step 3 of a seal: the snapshots of queue storage, and the lines that the undo log names written back. -/
def State.flushed (s : State) (n : Nat) (c : Ctx) : State :=
  writeBackLines ((s.graphsOf n).foldl (fun s g => s.copyRange (c.save + g.2.qOff) (c.save + g.2.qSnapOff) g.2.qBytes) s)
    (c.undo.map (·.1))

/-- A context whose interval seals at a moment, with what its snapshot keeps of its graphs; its crews are none. -/
def Ctx.sealedAt (c : Ctx) (now : Nat) (gs : List (Nat × Graph)) : Ctx :=
  { c with
    sealed := c.interval, interval := c.interval + 1, lastSeal := now, sealWanted := false, sealQ := [], undo := []
    snap := some ⟨c.interval, [], gs⟩ }

/-- Step 4 of a seal of a context without crews: its interval is sealed, and the marker with it. -/
def State.marked (s : State) (n : Nat) (c : Ctx) : State :=
  ((s.flushed n c).modCtx n fun x => { x with
    sealed := c.interval, interval := c.interval + 1, lastSeal := (s.flushed n c).devtime, sealWanted := false, sealQ := [], undo := []
    snap := some ⟨c.interval, [], s.graphsOf n⟩ }).modMgmt fun m => { m with markers := Tbl.ins m.markers n c.interval }

/-- The held outputs of a context, oldest first. -/
def State.heldOuts (s : State) (n : Nat) : List HeldOut := (match s.ctx? n with | some x => x.outs | none => []).reverse

/-- The last step of a seal: the held outputs of the context are released. -/
def State.released (s : State) (n : Nat) : State :=
  (s.heldOuts n).foldl releaseRecord ((s.heldOuts n).foldl releaseWrite (s.modCtx n fun x => { x with outs := [] }))

theorem intervalSeal_eq {s : State} {n : Nat} {c : Ctx} (hc : s.ctx? n = some c) (hk : c.ckpt = true) (hw : c.sealWanted = true)
    (hl : s.mgmt.slStarted = false) (hn : ∀ e ∈ s.crews, e.2.ctx ≠ n) :
    intervalSeal n s = some (((c.sealQ.foldl (ckptDone n c.interval) (s.marked n c)).released n).writeHeader n) := by
  have hnone : s.crews.filter (fun e => e.2.ctx = n) = [] := by simpa using fun a b h => hn (a, b) h
  unfold intervalSeal
  rw [hc, hnone]
  exact if_neg (by rw [hk, hw, hl]; decide)

/-- What a seal writes back leaves contexts, time and management alone. -/
theorem flushed_eq (s : State) (n : Nat) (c : Ctx) :
    (s.flushed n c).ctxs = s.ctxs ∧ (s.flushed n c).devtime = s.devtime ∧ (s.flushed n c).mgmt = s.mgmt := by
  have hm : MemOnly s ((s.graphsOf n).foldl (fun s g => s.copyRange (c.save + g.2.qOff) (c.save + g.2.qSnapOff) g.2.qBytes) s) :=
    foldl_memOnly (fun _ _ => copyRange_memOnly _ _ _ _) _ _
  obtain ⟨_, hm⟩ := hm
  unfold State.flushed
  rw [hm]
  obtain ⟨_, _, _, _, hw⟩ := writeBackLines_cache { s with mem := _ } (c.undo.map (·.1))
  rw [hw]
  exact ⟨rfl, rfl, rfl⟩

theorem marked_ctx {s : State} {n : Nat} {c : Ctx} (hc : s.ctx? n = some c) :
    (s.marked n c).ctx? n = some (c.sealedAt s.devtime (s.graphsOf n)) := by
  obtain ⟨hx, hd, -⟩ := flushed_eq s n c
  have hf : (s.flushed n c).ctx? n = some c := by rw [State.ctx?, hx]; exact hc
  refine (ctx?_modCtx_same _ n _).trans ?_
  rw [hf, hd]
  rfl

theorem marked_marker (s : State) (n : Nat) (c : Ctx) : Tbl.find (s.marked n c).mgmt.markers n = some c.interval :=
  (Tbl.find_ins _ _ _ _).trans (if_pos rfl)

theorem ckptDone_filed (s : State) (n k q : Nat) : Filed s (ckptDone n k s q) := by
  unfold ckptDone
  split
  · exact completeCmd_filed _ _ _ _ _ _
  · exact .refl s

theorem releaseRecord_filed (s : State) (o : HeldOut) : Filed s (releaseRecord s o) := by
  unfold releaseRecord
  split
  · split
    · exact record_filed _ _ _ _ _
    · exact putRecord_filed _ _ _ _
  · exact .refl s

theorem releaseWrite_record {o : HeldOut} (h : o.isWrite = false) (s : State) : releaseWrite s o = s := by
  cases o with
  | host | remote => cases h
  | record | silent => rfl

theorem foldl_releaseWrite_records {l : List HeldOut} (h : ∀ o ∈ l, o.isWrite = false) (s : State) : l.foldl releaseWrite s = s := by
  induction l generalizing s with
  | nil => rfl
  | cons o r ih =>
    rw [List.foldl_cons, releaseWrite_record (h o (.head _)), ih fun x hx => h x (.tail _ hx)]

theorem heldOuts_of_ctx {s : State} {n : Nat} {c : Ctx} (hc : s.ctx? n = some c) : s.heldOuts n = c.outs.reverse := by
  unfold State.heldOuts; rw [hc]

/-- Where a context holds records back alone, their release files them. -/
theorem released_filed {s : State} {n : Nat} {c : Ctx} (hc : s.ctx? n = some c) (ho : ∀ o ∈ c.outs, o.isWrite = false) :
    Filed (s.modCtx n fun x => { x with outs := [] }) (s.released n) := by
  unfold State.released
  rw [foldl_releaseWrite_records fun o h => ho o (by simpa [heldOuts_of_ctx hc] using h)]
  exact .foldl releaseRecord_filed _ _

theorem intervalSeal_follows {s : State} {n : Nat} {c : Ctx} (hc : s.ctx? n = some c) (hk : c.ckpt = true) (hw : c.sealWanted = true)
    (hl : s.mgmt.slStarted = false) (hn : ∀ e ∈ s.crews, e.2.ctx ≠ n) (ho : c.outs = []) :
    ∃ t x, exec (.intervalSeal n) s = .next t ∧ t.ctx? n = some x ∧ x.sealed = c.interval ∧ x.interval = c.interval + 1 ∧
      x.lastSeal = s.devtime ∧ x.undo = [] ∧ Tbl.find t.mgmt.markers n = some c.interval ∧
      (c.sealQ = [] → x.sealWanted = false ∧ x.outs = []) := by
  have hdone : Filed (s.marked n c) (c.sealQ.foldl (ckptDone n c.interval) (s.marked n c)) := .foldl (fun s q => ckptDone_filed s n _ q) _ _
  obtain ⟨y, hy, hfy⟩ := hdone.ctx_some (marked_ctx hc)
  have hrec : ∀ o ∈ y.outs, o.isWrite = false := fun o h => (hfy.outs o h).elim (fun e => by simp [Ctx.sealedAt, ho] at e) id
  have hrel := released_filed hy hrec
  obtain ⟨x, hx, hfx⟩ := hrel.ctx_some (c := { y with outs := [] }) (by rw [ctx?_modCtx_same, hy]; rfl)
  have hhead := writeHeader_memOnly ((c.sealQ.foldl (ckptDone n c.interval) (s.marked n c)).released n) n
  have hb : x.bare = (c.sealedAt s.devtime (s.graphsOf n)).bare := hfx.bare.trans hfy.bare
  refine ⟨_, x, event_some (intervalSeal_eq hc hk hw hl hn), (hhead.ctx?_eq n).trans hx, congrArg Ctx.sealed hb, congrArg Ctx.interval hb,
    congrArg Ctx.lastSeal hb, congrArg Ctx.undo hb, ?_, fun hq => ?_⟩
  · rw [hhead.filed.mgmt, hrel.mgmt, modCtx_mgmt, hdone.mgmt]
    exact marked_marker s n c
  · rw [hq] at hy hx
    obtain rfl : c.sealedAt s.devtime (s.graphsOf n) = y := Option.some.inj ((marked_ctx hc).symm.trans hy)
    unfold State.released at hx
    rw [heldOuts_of_ctx hy, show (c.sealedAt s.devtime (s.graphsOf n)).outs = [] from ho] at hx
    have hx : ((s.marked n c).modCtx n fun x => { x with outs := [] }).ctx? n = some x := hx
    rw [ctx?_modCtx_same, marked_ctx hc] at hx
    cases hx
    exact ⟨rfl, rfl⟩

theorem checkpointPeriod_follows {s : State} {n : Nat} {c : Ctx} (hc : s.ctx? n = some c) (hk : c.ckpt = true) (hw : c.sealWanted = false)
    (hd : c.lastSeal + c.period * 1000 ≤ s.devtime) :
    ∃ t x, exec (.checkpointPeriod n) s = .next t ∧ t.ctx? n = some x ∧ x.sealWanted = true := by
  have he : checkpointPeriod n s = some (s.wantSeal n) := by
    unfold checkpointPeriod
    rw [hc]
    exact if_pos (by rw [hk, hw, decide_eq_true hd]; rfl)
  exact ⟨_, _, event_some he, by rw [State.wantSeal, ctx?_modCtx_same, hc]; rfl, rfl⟩

end Sys2Proof.Machine
end

