-- ==== Sys2Proof/Proofs/Rollback.lean ====
section
/-! SUPPORT. Rollback and unrecoverable faults (O53; R87, R93, R94): what brings a context's crews, graphs and commands back leaves the
management subsystem and every undo log as they are, and no queue reads elsewhere. -/

namespace Sys2Proof.Machine

/-- The management subsystem, the undo logs of contexts, and the places at which queues read are as before. -/
structure LogKept (s t : State) : Prop where
  mgmt : t.mgmt = s.mgmt
  undo : ∀ n, (t.ctx? n).map Ctx.undo = (s.ctx? n).map Ctx.undo
  place : ∀ q, (t.queue q).place = (s.queue q).place

namespace LogKept

theorem refl (s : State) : LogKept s s := ⟨rfl, fun _ => rfl, fun _ => rfl⟩

theorem trans {s t u : State} (h : LogKept s t) (g : LogKept t u) : LogKept s u :=
  ⟨g.mgmt.trans h.mgmt, fun n => (g.undo n).trans (h.undo n), fun q => (g.place q).trans (h.place q)⟩

/-- A change of other fields. -/
theorem of_eq {s t : State} (hm : t.mgmt = s.mgmt) (hc : t.ctxs = s.ctxs) (hq : t.hub.queues = s.hub.queues) : LogKept s t :=
  ⟨hm, fun n => by rw [State.ctx?, hc]; rfl, fun q => by rw [State.queue, hq]; rfl⟩

theorem foldl {α : Type} {f : State → α → State} (h : ∀ s x, LogKept s (f s x)) (l : List α) (s : State) : LogKept s (l.foldl f s) := by
  induction l generalizing s with
  | nil => exact refl s
  | cons x r ih => exact (h s x).trans (ih _)

end LogKept

theorem Filed.logKept {s t : State} (h : Filed s t) : LogKept s t := by
  refine ⟨h.mgmt, fun n => ?_, h.place⟩
  have hn := h.ctx n
  generalize s.ctx? n = a at hn
  generalize t.ctx? n = b at hn
  cases hn with
  | none => rfl
  | some hf =>
    have hu := congrArg Ctx.undo hf.bare
    exact congrArg some hu

theorem MemOnly.logKept {s t : State} (h : MemOnly s t) : LogKept s t := h.filed.logKept

/-- The commands of a queue are changed, and its STATE brought up to date. -/
theorem requeue_logKept (s : State) (q : Nat) (f : Queue → Queue) (hf : ∀ x, (f x).place = x.place) :
    LogKept s (refreshQueue (s.modQueue q f) q) :=
  ((modQueue_filed s q hf).trans (refreshQueue_filed _ q)).logKept

/-! ## Crews and graphs end -/

theorem clearPresses_logKept (s : State) (c : Crew) : LogKept s (s.clearPresses c) :=
  .foldl (fun _ _ => by exact .of_eq rfl rfl rfl) _ s

theorem freeCrew_logKept (s : State) (n : Nat) : LogKept s (freeCrew s n) := by
  have hdrop : LogKept s (s.dropAgents n) := .of_eq rfl rfl rfl
  unfold freeCrew
  split
  · exact .refl s
  · next c _ =>
    have h : LogKept s (if c.state.holds then (s.dropAgents n).clearPresses c else s.dropAgents n) :=
      iteInduction (motive := LogKept s) (fun _ => hdrop.trans (clearPresses_logKept _ c)) fun _ => hdrop
    exact h.trans (.of_eq rfl rfl rfl)

theorem endGraph_logKept (s : State) (gid status detail : Nat) : LogKept s (endGraph s gid status detail) := by
  unfold endGraph
  split
  · exact .refl s
  · next g _ =>
    have hcrews : LogKept s { g.crews.foldl freeCrew s with graphs := Tbl.del (g.crews.foldl freeCrew s).graphs gid } :=
      (LogKept.foldl freeCrew_logKept g.crews s).trans (.of_eq rfl rfl rfl)
    exact (hcrews.trans (complete_filed _ _ _ _ _ _ _ _ _ _).logKept).trans (linkGraphs_memOnly _ _).logKept

/-! ## Crews are restored (R126, R128) -/

theorem spillCloset_logKept (s : State) (core e : Nat) : LogKept s (spillCloset s core e) := by
  unfold spillCloset
  split
  · exact .refl s
  · next x _ =>
    have hout : LogKept s { s with closet := Tbl.del s.closet (core * 24 + e) } := .of_eq rfl rfl rfl
    dsimp only
    split
    · exact hout
    · next c _ =>
      have hcrew : LogKept { s with closet := Tbl.del s.closet (core * 24 + e) }
        (({ s with closet := Tbl.del s.closet (core * 24 + e) } : State).modCrew x.th.ref.crew fun y => { y with
          saved := some { c.saved.getD ⟨[], [], [], [], [], [], false, []⟩ with
            threads := Tbl.ins (c.saved.getD ⟨[], [], [], [], [], [], false, []⟩).threads (x.th.ref.lcore * 8 + x.th.ref.lslot) x.th } }) :=
        .of_eq rfl rfl rfl
      exact (hout.trans hcrew).trans (setBytes_memOnly _ _ _).logKept

theorem seatCloset_logKept (s : State) (core : Nat) (t : Thread) : LogKept s (seatCloset s core t) :=
  (spillCloset_logKept s core (seatCloset.chooseFree s core)).trans (.of_eq rfl rfl rfl)

theorem seatMover_logKept (s : State) (core : Nat) (t : Thread) : LogKept s (seatMover s core t) :=
  iteInduction (motive := LogKept s) (fun _ => .of_eq rfl rfl rfl) fun _ => seatCloset_logKept _ _ _

theorem seatThread_logKept (s : State) (n : Nat) (c : Crew) (both : Bool) (key : Nat) (t : Thread) :
    LogKept s (seatThread s n c both key t) := by
  refine iteInduction (motive := LogKept s) (fun _ => seatMover_logKept _ _ _) fun _ => ?_
  refine iteInduction (motive := LogKept s) (fun _ => seatCloset_logKept _ _ _) fun _ => ?_
  split
  · exact .of_eq rfl rfl rfl
  · exact .refl s

theorem mapCrew_logKept (s : State) (c : Crew) : LogKept s (mapCrew s c) := by
  refine ⟨rfl, fun n => ?_, fun _ => rfl⟩
  unfold mapCrew
  rw [ctx?_modCtx]
  split
  · next h => rw [h, Option.map_map]; rfl
  · rfl

theorem haltPlaced_logKept (s : State) (n : Nat) : LogKept s (haltPlaced s n) := by
  unfold haltPlaced
  split
  · exact .refl s
  · refine iteInduction (motive := LogKept s) (fun _ => .refl s) fun _ => ?_
    dsimp only
    split <;> exact .of_eq rfl rfl rfl

theorem putCells_memOnly (s : State) (pa : Nat) (l : List Host.Cell) : MemOnly s (s.putCells pa l) := foldl_memOnly (fun _ _ => ⟨_, rfl⟩) _ _

theorem addHolds_logKept (s : State) (l : List Hold) : LogKept s (s.addHolds l) := .of_eq rfl rfl rfl

theorem keepAway_logKept (s : State) (l : List (Nat × Nat × Hold)) : LogKept s (keepAway s l) :=
  .foldl (fun _ _ => by exact .of_eq rfl rfl rfl) l s

theorem restoreCrew_logKept {s t : State} {n : Nat} {state : CrewState} (h : restoreCrew s n state = some t) : LogKept s t := by
  have hseat (u : State) (hs : List Hold) (l : List (Nat × Nat × Hold)) (c : Crew) (hm : LogKept s u) :
      LogKept s (mapCrew (keepAway (u.addHolds hs) l) c) :=
    ((hm.trans (addHolds_logKept u hs)).trans (keepAway_logKept _ l)).trans (mapCrew_logKept _ c)
  unfold restoreCrew at h
  split at h
  · cases h
  · split at h
    · cases h
    · dsimp only at h
      split at h
      · cases h
      · cases h
        refine LogKept.trans ?_ (haltPlaced_logKept _ _)
        refine LogKept.trans ?_ (.foldl (fun _ _ => by exact .of_eq rfl rfl rfl) _ _)
        refine LogKept.trans ?_ (.foldl (fun _ _ => by exact .of_eq rfl rfl rfl) _ _)
        refine LogKept.trans ?_ (.foldl (fun _ _ => seatThread_logKept _ _ _ _ _ _) _ _)
        refine LogKept.trans ?_ (.foldl (fun _ _ => by exact .of_eq rfl rfl rfl) _ _)
        split
        · refine LogKept.trans ?_ (.foldl (fun s i => ?_) _ _)
          · refine hseat _ _ _ _ ?_
            exact .of_eq rfl rfl rfl
          · exact (MemOnly.trans (t := s.clear _ _) ⟨_, rfl⟩ (putCells_memOnly _ _ _)).logKept
        · refine hseat _ _ _ _ ?_
          exact .of_eq rfl rfl rfl

/-! ## What a rollback brings back (R93, R94) -/

theorem loadsLeave_logKept (l : List HubCopy) (s : State) :
    LogKept s (l.foldl (fun s x => s.modRegion x.dst fun g => { g with busy := g.busy - 1 }) s) :=
  .foldl (fun _ _ => by exact .of_eq rfl rfl rfl) l s

theorem modHub_logKept (s : State) (f : Hub → Hub) (hf : ∀ h, (f h).queues = h.queues) : LogKept s (s.modHub f) :=
  .of_eq rfl rfl (hf _)

theorem restartCmds_logKept (s : State) (ctx : Nat) (gs : List (Nat × Graph)) : LogKept s (restartCmds s ctx gs) := by
  unfold restartCmds
  dsimp only
  refine LogKept.trans ?_ (.foldl (fun s q => by exact requeue_logKept s q _ fun _ => by rfl) _ _)
  refine LogKept.trans ?_ (modHub_logKept _ _ fun _ => by rfl)
  refine LogKept.trans ?_ (loadsLeave_logKept _ _)
  exact .of_eq rfl rfl rfl

theorem completeAgain_logKept (gs : List (Nat × Graph)) (s : State) (o : HeldOut) : LogKept s (completeAgain gs s o) := by
  unfold completeAgain
  dsimp only
  split
  · exact requeue_logKept s _ _ fun _ => by rfl
  · exact requeue_logKept s _ _ fun _ => by rfl
  · exact .refl s

theorem reloadGraph_logKept (save : Nat) (s : State) (e : Nat × Graph) : LogKept s (reloadGraph save s e) := by
  have hmem (u : State) (hu : LogKept s u) (a b c d : Nat) (l : List (BitVec 8)) : LogKept s ((u.copyRange a b c).setBytes d l) :=
    (hu.trans (copyRange_memOnly _ _ _ _).logKept).trans (setBytes_memOnly _ _ _).logKept
  unfold reloadGraph
  dsimp only
  have hput : LogKept s { s with graphs := Tbl.ins s.graphs e.1 e.2 } := .of_eq rfl rfl rfl
  split
  · exact hmem _ hput _ _ _ _ _
  · refine LogKept.trans ?_ (requeue_logKept _ _ _ fun _ => by rfl)
    exact hmem _ hput _ _ _ _ _

theorem reloadCrew_logKept (old : List (Nat × Crew)) (s : State) (e : Nat × Crew) : LogKept s (reloadCrew old s e) :=
  iteInduction (motive := LogKept s) (fun _ => .of_eq rfl rfl rfl) fun _ =>
    iteInduction (motive := LogKept s) (fun _ => .of_eq rfl rfl rfl) fun _ => .of_eq rfl rfl rfl

theorem rehold_logKept (s : State) (e : Nat × Crew) : LogKept s (rehold s e) := by
  unfold rehold
  split
  · exact .refl s
  · split
    · exact .refl s
    · exact iteInduction (motive := LogKept s) (fun _ => .refl s) fun _ => .of_eq rfl rfl rfl

theorem resumeReloaded_logKept (s : State) (e : Nat × Crew) : LogKept s (resumeReloaded s e) := by
  unfold resumeReloaded
  split
  · split
    · exact .refl s
    · cases h : restoreCrew s e.1 e.2.real with
      | none => exact .refl s
      | some t => exact restoreCrew_logKept h
  · exact .refl s

theorem unpoison_logKept (s : State) (pa n : Nat) : LogKept s (s.unpoison pa n) := by
  unfold State.unpoison
  split <;> exact .of_eq rfl rfl rfl

/-! ## The rollback -/

/-- A context has been rolled back: its undo log is empty, and the newest record of the black box tells of it (R78). -/
def RolledBack (n : Nat) (t : State) : Prop :=
  (t.ctx? n).map Ctx.undo = some [] ∧ ∃ r, t.mgmt.blackbox.head? = some r ∧ fld r 72 8 = 6 ∧ fld r 32 32 = n % 2 ^ 32

theorem RolledBack.kept {n : Nat} {s t : State} (h : RolledBack n s) (k : LogKept s t) : RolledBack n t := by
  obtain ⟨hu, r, hr, hf⟩ := h
  exact ⟨(k.undo n).trans hu, r, by rw [k.mgmt]; exact hr, hf⟩

/-- The moment of a rollback at which the black box is told: crews and commands have stopped, the log has been undone. -/
theorem blackbox_rolledBack {s u v : State} {n d : Nat} {c : Ctx} {f : Ctx → Ctx} (hc : s.ctx? n = some c) (hu : LogKept s u)
    (hf : ∀ x, (f x).undo = []) (hv : LogKept (u.modCtx n f) v) : RolledBack n (v.blackbox 0x06 n d) := by
  obtain ⟨r, hr, hk, hn⟩ := blackbox_head v 0x06 n d
  refine ⟨?_, r, by rw [hr]; rfl, hk, hn⟩
  have hx : (u.ctx? n).map Ctx.undo = some c.undo := by rw [hu.undo, hc]; rfl
  obtain ⟨x, hx, -⟩ := Option.map_eq_some_iff.mp hx
  refine (hv.undo n).trans ?_
  rw [ctx?_modCtx_same, hx]
  exact congrArg some (hf x)

theorem rollbackCtx_rolledBack {s : State} {n : Nat} {c : Ctx} (hc : s.ctx? n = some c) : RolledBack n (rollbackCtx s n) := by
  have hbox (l : List Nat) (gs gs' : List (Nat × Graph)) (d : Nat) : RolledBack n (State.blackbox (List.foldl
      (fun s (u : Nat × BitVec 512) => (s.setBytes (u.1 * 64) (bytesOf u.2.toNat 64)).unpoison (u.1 * 64) 64)
      (List.foldl (completeAgain gs') ((restartCmds (List.foldl freeCrew s l) n gs).modCtx n fun x =>
        { x with outs := [], undo := [], sealWanted := !x.sealQ.isEmpty }) c.outs) c.undo) 0x06 n d) := by
    have hstop : LogKept s (restartCmds (l.foldl freeCrew s) n gs) :=
      (LogKept.foldl freeCrew_logKept l s).trans (restartCmds_logKept _ _ _)
    refine blackbox_rolledBack (f := fun x => { x with outs := [], undo := [], sealWanted := !x.sealQ.isEmpty }) hc hstop
      (fun _ => rfl) ?_
    refine LogKept.trans ?_ (.foldl (fun s u => (setBytes_memOnly s _ _).logKept.trans (unpoison_logKept _ _ _)) _ _)
    exact .foldl (completeAgain_logKept gs') _ _
  unfold rollbackCtx rollbackWith
  rw [hc]
  dsimp only
  refine RolledBack.kept ?_ ((writeHeader_memOnly _ _).logKept.trans (linkGraphs_memOnly _ _).logKept)
  split
  · refine RolledBack.kept ?_ (.foldl resumeReloaded_logKept _ _)
    refine RolledBack.kept ?_ (.foldl rehold_logKept _ _)
    refine RolledBack.kept ?_ (.foldl (reloadCrew_logKept _) _ _)
    refine RolledBack.kept ?_ (.foldl (reloadGraph_logKept _) _ _)
    exact (hbox _ _ _ _).kept (.of_eq rfl rfl rfl)
  · exact (hbox _ _ _ _).kept (.foldl (fun s g => by exact endGraph_logKept s g.1 _ _) _ _)

theorem rollback_follows {s : State} {n : Nat} {c : Ctx} (hc : s.ctx? n = some c) (hk : c.ckpt = true) :
    ∃ t x r, exec (.rollback n) s = .next t ∧ t.ctx? n = some x ∧ x.undo = [] ∧ t.mgmt.blackbox.head? = some r ∧ fld r 72 8 = 6 ∧
      fld r 32 32 = n % 2 ^ 32 := by
  obtain ⟨hu, r, hr, h6, hn⟩ := rollbackCtx_rolledBack hc
  obtain ⟨x, hx, hux⟩ := Option.map_eq_some_iff.mp hu
  exact ⟨_, x, r, event_some (if_pos (by rw [State.ckpts, hc]; exact hk)), hx, hux, hr, h6, hn⟩

/-! ## Unrecoverable faults (R87) -/

theorem endGraphAt_gone (s : State) (gid status addr : Nat) : (endGraphAt s gid status addr).graph? gid = none := by
  unfold endGraphAt
  split
  · assumption
  · next g _ =>
    rw [(linkGraphs_memOnly _ _).filed.graph, (complete_filed _ _ _ _ _ _ _ _ _ _).graph]
    exact (Tbl.find_del _ _ _).trans (if_pos rfl)

theorem unrecoverableFault_follows {n : Nat} (core slot : Nat) (byThread : Bool) (addr : Word) {s : State} {c : Crew}
    (hc : s.crew? n = some c) :
    (s.ckpts c.ctx = true → exec (.unrecoverableFault n core slot byThread addr) s = .next (rollbackCtx s c.ctx)) ∧
    (s.ckpts c.ctx = false → byThread = true → (s.thread core slot).occ = true → (s.thread core slot).ref.crew = n →
      (s.thread core slot).frozen = false → (s.thread core slot).park = none →
      exec (.unrecoverableFault n core slot byThread addr) s =
        .next (takeTrap s core slot UNCORR addr 0 (s.thread core slot).pc false false)) ∧
    (s.ckpts c.ctx = false → byThread = false →
      ∃ t, exec (.unrecoverableFault n core slot byThread addr) s = .next t ∧ t.graph? c.graph = none) := by
  refine ⟨fun hk => event_some ?_, fun hk hb ho hr hf hp => event_some ?_,
    fun hk hb => ⟨_, event_some ?_, endGraphAt_gone s c.graph GRAPHERR addr.toNat⟩⟩
  all_goals unfold unrecoverableFault; rw [hc]; dsimp only
  · rw [if_pos hk]
  · rw [if_neg (by rw [hk]; decide), if_pos hb, hp]
    exact if_pos (by rw [ho, hr, hf]; simp)
  · rw [if_neg (by rw [hk]; decide), if_neg (by rw [hb]; decide)]

end Sys2Proof.Machine
end

