-- ==== Sys2Proof/Proofs/ContextPackets.lean ====
section
/-! SUPPORT. CTXCTL and CKPT packets (O53; R54 to R59, R88): what each subcommand leaves as it completes. -/

namespace Sys2Proof.Machine

/-! ## A subcommand runs -/

theorem ctxctl_ok {sub : Nat} {f : State → BitVec 512 → Nat ⊕ State} {s u : State} {c : Cmd} (h : ctxCmd s sub = some c)
    (hf : f s c.body = .inr u) : ctxctl sub f s = some (completeCmd u 0 c 0 0 0) := by
  rw [ctxctl, h, Option.map_some, hf]

theorem ctxctl_refused {sub : Nat} {f : State → BitVec 512 → Nat ⊕ State} {s : State} {c : Cmd} {status : Nat}
    (h : ctxCmd s sub = some c) (hf : f s c.body = .inl status) : ctxctl sub f s = some (completeCmd s 0 c status 0 0) := by
  rw [ctxctl, h, Option.map_some, hf]

/-! ## CREATE and DESTROY (R55, R56) -/

theorem addCtx_memOnly (s : State) (n : Nat) (c : Ctx) : MemOnly { s with ctxs := Tbl.ins s.ctxs n c } (addCtx s n c) :=
  ((MemOnly.trans (t := State.clear _ _ _) ⟨_, rfl⟩ (setBytes_memOnly _ _ _)).trans (writeMarks_memOnly _ c)).trans (writeEnds_memOnly _ c)

theorem addCtx_ctx? (s : State) (n : Nat) (c : Ctx) : (addCtx s n c).ctx? n = some c :=
  ((addCtx_memOnly s n c).ctx?_eq n).trans ((Tbl.find_ins _ _ _ _).trans (if_pos rfl))

/-- The context that a CREATE packet names. -/
def createdCtx (s : State) (b : BitVec 512) : Ctx :=
  newCtx s (pkt b 18 2) (pkt b 24 8) (pkt b 32 8) (pkt b 40 4) (pkt b 44 1 = 1) (pkt b 48 4) (word (pkt b 56 8))

theorem createCtx_ok {s : State} {b : BitVec 512} (h0 : pkt b 16 2 ≠ 0) (hn : s.ctx? (pkt b 16 2) = none)
    (hp : placesOk (pkt b 24 8) (pkt b 32 8) (pkt b 40 4) = true) :
    createCtx s b = .inr (addCtx s (pkt b 16 2) (createdCtx s b)) := by
  unfold createCtx
  dsimp only
  rw [if_neg h0, hn, if_neg (by decide), hp]
  rfl

theorem create_follows {s : State} {c : Cmd} (h : ctxCmd s 1 = some c) (h0 : pkt c.body 16 2 ≠ 0) (hn : s.ctx? (pkt c.body 16 2) = none)
    (hp : placesOk (pkt c.body 24 8) (pkt c.body 32 8) (pkt c.body 40 4) = true) :
    ∃ t x, exec .create s = .next t ∧ t.ctx? (pkt c.body 16 2) = some x ∧ x.root = pkt c.body 24 8 ∧ x.asid = pkt c.body 18 2 ∧
      x.save = pkt c.body 32 8 ∧ x.saveSize = pkt c.body 40 4 ∧ x.tvec = word (pkt c.body 56 8) &&& vecMask ∧
      x.ckpt = decide (pkt c.body 44 1 = 1) := by
  obtain ⟨x, hx, hf⟩ := (completeCmd_filed _ 0 c 0 0 0).ctx_some (addCtx_ctx? s (pkt c.body 16 2) (createdCtx s c.body))
  have hb := hf.bare
  exact ⟨_, x, event_some (ctxctl_ok h (createCtx_ok h0 hn hp)), hx, congrArg Ctx.root hb, congrArg Ctx.asid hb, congrArg Ctx.save hb,
    congrArg Ctx.saveSize hb, congrArg Ctx.tvec hb, congrArg Ctx.ckpt hb⟩

theorem create_exists {s : State} {c : Cmd} (h : ctxCmd s 1 = some c) (h0 : pkt c.body 16 2 ≠ 0)
    (hn : (s.ctx? (pkt c.body 16 2)).isSome) : exec .create s = .next (completeCmd s 0 c 11 0 0) := by
  refine event_some (ctxctl_refused h ?_)
  unfold createCtx
  dsimp only
  rw [if_neg h0, if_pos hn]
  rfl

theorem freeCtx_ctx? (s : State) (n : Nat) : (freeCtx s n).ctx? n = none := by
  unfold freeCtx
  split
  · assumption
  · exact (Tbl.find_del _ _ _).trans (if_pos rfl)

theorem destroy_follows {s : State} {c : Cmd} (h : ctxCmd s 2 = some c) (hb : noneBegun s 0 8 = true) (h0 : pkt c.body 16 2 ≠ 0)
    (hn : (s.ctx? (pkt c.body 16 2)).isSome) (hf : hubBusy (closeCtx s (pkt c.body 16 2)) (pkt c.body 16 2) = false) :
    ∃ t, exec .destroy s = .next t ∧ t.ctx? (pkt c.body 16 2) = none := by
  obtain ⟨hc, hsub⟩ := ctxCmd_next h
  have hd : destroy s = some (completeCmd (freeCtx (closeCtx s (pkt c.body 16 2)) (pkt c.body 16 2)) 0 c 0 0 0) := by
    refine (onCmd_next hb hc (decide_eq_true hsub) _).trans ?_
    dsimp only
    rw [if_neg h0, if_neg (by simpa using Option.isSome_iff_ne_none.mp hn), hf]
    rfl
  exact ⟨_, event_some hd, (completeCmd_filed _ 0 c 0 0 0).ctx_none (freeCtx_ctx? _ _)⟩

/-! ## QSET and QRESET (R56) -/

theorem resumeQueue_none {s : State} {q : Nat} (h : ∀ g ∈ s.graphs, g.2.q ≠ q) : resumeQueue s q = s := by
  have hnil : s.graphs.filter (fun g => decide (g.2.q = q)) = [] := by simpa using fun a b hg => h (a, b) hg
  rw [resumeQueue, hnil]
  rfl

theorem resumeQueue_logKept (s : State) (q : Nat) : LogKept s (resumeQueue s q) := by
  refine .foldl (fun u g => ?_) _ s
  exact iteInduction (motive := LogKept u) (fun _ => endGraph_logKept u g.1 _ _) fun _ => .foldl (fun _ _ => by exact .of_eq rfl rfl rfl) _ u

/-- The binding that a QSET packet gives a queue. -/
def Queue.bound (b : BitVec 512) (x : Queue) : Queue :=
  { x with
    ringcfg := setFld (word (pkt b 24 8)) 63 1 1, cplcfg := word (pkt b 32 8), ctx := pkt b 18 2, cls := pkt b 20 1, weight := pkt b 21 1
    state := .run, code := 0, head := 0, tail := 0, cplHead := 0, cplTail := 0, expSeq := 0, ringNext := none, rereads := 0, deficit := 0
    cmds := x.cmds.filter fun c => c.begun }

theorem qsetQueue_ok {s : State} {b : BitVec 512} (hs : (s.queue (pkt b 16 2)).state = .off) (hn : (s.ctx? (pkt b 18 2)).isSome)
    (hg : ∀ g ∈ s.graphs, g.2.q ≠ pkt b 16 2) : qsetQueue s b = .inr (s.modQueue (pkt b 16 2) (Queue.bound b)) := by
  unfold qsetQueue
  dsimp only
  rw [if_neg (by rw [hs]; decide), if_neg (by simpa using Option.isSome_iff_ne_none.mp hn)]
  exact congrArg Sum.inr (resumeQueue_none (s := s.modQueue (pkt b 16 2) (Queue.bound b)) hg)

theorem qset_follows {s : State} {c : Cmd} (h : ctxCmd s 3 = some c) (h0 : pkt c.body 16 2 ≠ 0)
    (hs : (s.queue (pkt c.body 16 2)).state = .off) (hn : (s.ctx? (pkt c.body 18 2)).isSome)
    (hg : ∀ g ∈ s.graphs, g.2.q ≠ pkt c.body 16 2) :
    ∃ t, exec .qset s = .next t ∧ t.queue (pkt c.body 16 2) = (s.queue (pkt c.body 16 2)).bound c.body := by
  refine ⟨_, event_some (ctxctl_ok h (qsetQueue_ok hs hn hg)), ?_⟩
  rw [completeCmd_queue0_other _ _ _ _ _ h0, queue_modQueue, if_pos rfl]

theorem bound_enabled (b : BitVec 512) (x : Queue) : (x.bound b).ringcfg.getLsbD 63 = true :=
  (getLsbD_setFld_bit _ (by decide) 1).trans (by decide)

/-- A queue after a QRESET packet. -/
def Queue.resetBy (b : BitVec 512) (x : Queue) : Queue :=
  { x with
    ringcfg := setFld x.ringcfg 63 1 (b2n (decide (pkt b 26 1 = 1))), state := if decide (pkt b 26 1 = 1) then .run else .off, code := 0
    head := BitVec.ofNat 32 (pkt b 20 4), tail := BitVec.ofNat 32 (pkt b 20 4), expSeq := BitVec.ofNat 16 (pkt b 24 2)
    ringNext := none, rereads := 0, deficit := 0, cmds := x.cmds.filter fun c => c.begun }

theorem qresetQueue_ok {s : State} {b : BitVec 512} (h0 : pkt b 16 2 ≠ 0) (hr : (s.queue (pkt b 16 2)).ringcfg ≠ 0)
    (hs : (s.queue (pkt b 16 2)).state = .off ∨ (s.queue (pkt b 16 2)).state = .stop) :
    ∃ u, qresetQueue s b = .inr u ∧ LogKept (s.modQueue (pkt b 16 2) (Queue.resetBy b)) u := by
  have hidle : ¬(decide ((s.queue (pkt b 16 2)).state = .run) || decide ((s.queue (pkt b 16 2)).state = .wait)) = true := by
    rcases hs with hs | hs <;> rw [hs] <;> decide
  unfold qresetQueue
  dsimp only
  rw [if_neg h0, if_neg hr, if_neg hidle]
  refine ⟨_, rfl, LogKept.trans ?_ (refreshQueue_filed _ _).logKept⟩
  exact iteInduction (motive := LogKept (s.modQueue (pkt b 16 2) (Queue.resetBy b))) (fun _ => resumeQueue_logKept _ _) fun _ => .refl _

theorem qreset_follows {s : State} {c : Cmd} (h : ctxCmd s 4 = some c) (h0 : pkt c.body 16 2 ≠ 0)
    (hr : (s.queue (pkt c.body 16 2)).ringcfg ≠ 0)
    (hs : (s.queue (pkt c.body 16 2)).state = .off ∨ (s.queue (pkt c.body 16 2)).state = .stop) :
    ∃ t, exec .qreset s = .next t ∧ (t.queue (pkt c.body 16 2)).head = BitVec.ofNat 32 (pkt c.body 20 4) ∧
      (t.queue (pkt c.body 16 2)).tail = BitVec.ofNat 32 (pkt c.body 20 4) ∧
      (t.queue (pkt c.body 16 2)).expSeq = BitVec.ofNat 16 (pkt c.body 24 2) := by
  obtain ⟨u, hu, hk⟩ := qresetQueue_ok h0 hr hs
  have hp := (hk.trans (completeCmd_filed u 0 c 0 0 0).logKept).place (pkt c.body 16 2)
  rw [queue_modQueue, if_pos rfl] at hp
  exact ⟨_, event_some (ctxctl_ok h hu), congrArg (·.1) hp, congrArg (·.2.1) hp, congrArg (·.2.2) hp⟩

/-! ## WSREG and WSFREE (R57, R59) -/

/-- The region that a WSREG packet names. -/
def wsregOf (b : BitVec 512) : Region :=
  ⟨pkt b 24 2, BitVec.ofNat 4 (pkt b 18 1), pkt b 20 2 * 65536, (if pkt b 22 2 = 0 then 65536 else pkt b 22 2) * 65536, false, 0⟩

theorem wsregRegion_ok {s : State} {b : BitVec 512} (hr : s.region? (pkt b 16 2) = none) (hn : (s.ctx? (pkt b 24 2)).isSome)
    (hsz : (wsregOf b).off + (wsregOf b).size ≤ 2 ^ 32) (hm : ∀ e ∈ s.hub.regions, e.2.meets (wsregOf b) = false) :
    wsregRegion s b = .inr (s.modHub fun h => { h with regions := Tbl.ins h.regions (pkt b 16 2) (wsregOf b) }) := by
  have hapart : s.hub.regions.any (fun e => e.2.meets (wsregOf b)) = false := by
    rw [List.any_eq_false]; exact fun e he => by rw [hm e he]; decide
  have hfits : ¬(decide (2 ^ 32 < (wsregOf b).off + (wsregOf b).size) || s.hub.regions.any fun e => e.2.meets (wsregOf b)) = true := by
    rw [hapart, decide_eq_false (Nat.not_lt.mpr hsz)]; decide
  unfold wsregRegion
  dsimp only
  rw [hr, if_neg (by decide), if_neg (by simpa using Option.isSome_iff_ne_none.mp hn)]
  exact if_neg hfits

theorem wsreg_follows {s : State} {c : Cmd} (h : ctxCmd s 5 = some c) (hr : s.region? (pkt c.body 16 2) = none)
    (hn : (s.ctx? (pkt c.body 24 2)).isSome) (hsz : (wsregOf c.body).off + (wsregOf c.body).size ≤ 2 ^ 32)
    (hm : ∀ e ∈ s.hub.regions, e.2.meets (wsregOf c.body) = false) :
    ∃ t, exec .wsreg s = .next t ∧ t.region? (pkt c.body 16 2) = some (wsregOf c.body) := by
  refine ⟨_, event_some (ctxctl_ok h (wsregRegion_ok hr hn hsz hm)), ?_⟩
  rw [(completeCmd_filed _ 0 c 0 0 0).region]
  exact (Tbl.find_ins _ _ _ _).trans (if_pos rfl)

theorem wsfree_busy {s : State} {c : Cmd} (h : ctxCmd s 6 = some c) {g : Region} (hr : s.region? (pkt c.body 16 2) = some g)
    (hg : g.sealed = true ∨ g.busy ≠ 0) : exec .wsfree s = .next (completeCmd s 0 c 12 0 0) := by
  refine event_some (ctxctl_refused h ?_)
  unfold wsfreeRegion
  dsimp only
  rw [hr]
  exact if_pos (by simpa using hg)

theorem wsfree_follows {s : State} {c : Cmd} (h : ctxCmd s 6 = some c) {g : Region} (hr : s.region? (pkt c.body 16 2) = some g)
    (hg : g.sealed = false) (hb : g.busy = 0) : ∃ t, exec .wsfree s = .next t ∧ t.region? (pkt c.body 16 2) = none := by
  have hfree : wsfreeRegion s c.body = .inr (s.modHub fun h => { h with regions := Tbl.del h.regions (pkt c.body 16 2) }) := by
    unfold wsfreeRegion
    dsimp only
    rw [hr]
    exact if_neg (by rw [hg, hb]; decide)
  refine ⟨_, event_some (ctxctl_ok h hfree), ?_⟩
  rw [(completeCmd_filed _ 0 c 0 0 0).region]
  exact (Tbl.find_del _ _ _).trans (if_pos rfl)

/-! ## CKPT packets (R88, R92) -/

theorem ckptPacket_unchecked {q : Nat} {s : State} {c : Cmd} (h : nextCmd s q 9 = some c) (hk : s.ckpts c.ctx = false) :
    exec (.ckptPacket q) s = .next (completeCmd s q c 0 0 0) := by
  refine event_some ?_
  unfold ckptPacket
  rw [h]
  exact if_pos (by rw [hk]; rfl)

theorem ckptPacket_follows {q : Nat} {s : State} {c : Cmd} (h : nextCmd s q 9 = some c) (hk : s.ckpts c.ctx = true) :
    ∃ t x, exec (.ckptPacket q) s = .next t ∧ t.ctx? c.ctx = some x ∧ x.sealWanted = true ∧ q ∈ x.sealQ := by
  have hd : ckptPacket q s =
      some (beginCmd (s.modCtx c.ctx fun x => { x with sealWanted := true, sealQ := x.sealQ ++ [q] }) q c) := by
    unfold ckptPacket
    rw [h]
    exact if_neg (by rw [hk]; decide)
  obtain ⟨x, hx⟩ : ∃ x, s.ctx? c.ctx = some x := by
    unfold State.ckpts at hk
    split at hk
    · exact ⟨_, ‹_›⟩
    · cases hk
  refine ⟨_, { x with sealWanted := true, sealQ := x.sealQ ++ [q] }, event_some hd, ?_, rfl, by simp⟩
  exact (ctx?_modCtx_same s c.ctx _).trans (by rw [hx]; rfl)

end Sys2Proof.Machine
end

