-- ==== Sys2Proof/Proofs/PreemptAndProfile.lean ====
section
/-! SUPPORT. PREEMPT and PROFILE (O53; R54, R61, R100, R101): crews of a graph that leave the wait list and enter it again, and what profiling
counts. -/

namespace Sys2Proof.Machine

/-! ## PREEMPT (R54) -/

theorem crew?_modCrew (s : State) (n k : Nat) (f : Crew → Crew) :
    (s.modCrew n f).crew? k = if k = n then (s.crew? n).map f else s.crew? k := by
  refine (Tbl.find_modify _ _ _ _).trans ?_
  split
  · next h => rw [h]; rfl
  · rfl

/-- A crew is in a state. -/
def State.CrewIn (s : State) (n : Nat) (st : CrewState) : Prop := ∃ c, s.crew? n = some c ∧ c.state = st

/-- A crew is in WAIT or SWAPPED: it has no rectangle, and none is reserved for it. -/
def State.Unplaced (s : State) (n : Nat) : Prop := s.CrewIn n .wait ∨ s.CrewIn n .swapped

/-- Each crew of a list is brought into one of the two states without a rectangle; a number that stands twice is there already. -/
theorem foldl_unplaced {f : State → Nat → State} {st : CrewState} (hst : st = .wait ∨ st = .swapped)
    (hf : ∀ s n, s.Unplaced n → (f s n).CrewIn n st ∧ ∀ k, k ≠ n → (f s n).crew? k = s.crew? k) (l : List Nat) (s : State)
    (hl : ∀ n ∈ l, s.Unplaced n) (k : Nat) (hk : s.CrewIn k st ∨ k ∈ l) : (l.foldl f s).CrewIn k st := by
  induction l generalizing s with
  | nil => exact hk.resolve_right List.not_mem_nil
  | cons n r ih =>
    obtain ⟨hn, ho⟩ := hf s n (hl n (.head _))
    refine ih _ (fun m hm => ?_) ?_
    · by_cases h : m = n
      · rcases hst with rfl | rfl
        · exact .inl (h ▸ hn)
        · exact .inr (h ▸ hn)
      · have := hl m (.tail _ hm)
        unfold State.Unplaced State.CrewIn at this ⊢
        rwa [ho m h]
    · by_cases h : k = n
      · exact .inl (h ▸ hn)
      · refine hk.imp (fun hs => ?_) fun hm => (List.mem_cons.mp hm).resolve_left h
        unfold State.CrewIn at hs ⊢
        rwa [ho k h]

theorem modCrew_crewIn {s : State} {n : Nat} {st : CrewState} {f : Crew → Crew} (h : s.Unplaced n)
    (hf : ∀ c, c.state = .wait ∨ c.state = .swapped → (f c).state = st) :
    (s.modCrew n f).CrewIn n st ∧ ∀ k, k ≠ n → (s.modCrew n f).crew? k = s.crew? k := by
  refine ⟨?_, fun k hk => by rw [crew?_modCrew, if_neg hk]⟩
  obtain ⟨c, hc, hs⟩ : ∃ c, s.crew? n = some c ∧ (c.state = .wait ∨ c.state = .swapped) :=
    h.elim (fun ⟨c, hc, hs⟩ => ⟨c, hc, .inl hs⟩) fun ⟨c, hc, hs⟩ => ⟨c, hc, .inr hs⟩
  exact ⟨f c, by rw [crew?_modCrew, if_pos rfl, hc]; rfl, hf c hs⟩

theorem preemptCrew_unplaced {s : State} {n : Nat} (h : s.Unplaced n) :
    (preemptCrew s n).CrewIn n .swapped ∧ ∀ k, k ≠ n → (preemptCrew s n).crew? k = s.crew? k := by
  have he : preemptCrew s n = s.modCrew n fun c => { c with state := .swapped, idle := false, requeue := false } := by
    unfold preemptCrew
    rcases h with ⟨c, hc, hs⟩ | ⟨c, hc, hs⟩
    all_goals
      rw [hc]
      dsimp only
      rw [hs]
      rfl
  rw [he]
  exact modCrew_crewIn h fun _ _ => rfl

/-- A crew that is SWAPPED waits for a place again. -/
def waitAgain (s : State) (n : Nat) : State :=
  s.modCrew n fun c => if c.state = .swapped then { c with state := .wait, idle := false, waitSince := s.devtime } else c

theorem waitAgain_unplaced {s : State} {n : Nat} (h : s.Unplaced n) :
    (waitAgain s n).CrewIn n .wait ∧ ∀ k, k ≠ n → (waitAgain s n).crew? k = s.crew? k := by
  refine modCrew_crewIn h fun c hc => ?_
  split
  · rfl
  · next hs => exact hc.resolve_right hs

theorem Filed.crewIn {s t : State} (h : Filed s t) {n : Nat} {st : CrewState} (hs : s.CrewIn n st) : t.CrewIn n st := by
  unfold State.CrewIn at hs ⊢
  rwa [h.crew]

section
variable {q : Nat} {s : State} {c : Cmd} {g : Graph}

theorem preemptSwapOut_notFound (hb : noneBegun s q 11 = true) (hn : nextCmd s q 11 = some c) (ho : pkt c.body 12 1 = 0)
    (hg : preemptTarget s c = none) : exec (.preemptSwapOut q) s = .next (completeCmd s q c 9 0 0) := by
  refine event_some ((onCmd_next hb hn (decide_eq_true ho) _).trans ?_)
  dsimp only
  rw [hg]
  rfl

theorem preemptSwapOut_follows (hb : noneBegun s q 11 = true) (hn : nextCmd s q 11 = some c) (ho : pkt c.body 12 1 = 0)
    (hg : preemptTarget s c = some g) (hw : ∀ n ∈ g.crews, s.CrewIn n .wait) :
    ∃ t, exec (.preemptSwapOut q) s = .next t ∧ ∀ n ∈ g.crews, t.CrewIn n .swapped := by
  have hout : ∀ n ∈ g.crews, (g.crews.foldl preemptCrew s).CrewIn n .swapped := fun n hc =>
    foldl_unplaced (.inr rfl) (fun _ _ => preemptCrew_unplaced) _ s (fun m hm => .inl (hw m hm)) n (.inr hc)
  have hall : allSwapped (g.crews.foldl preemptCrew s) g = true := by
    refine List.all_eq_true.mpr fun n hc => ?_
    obtain ⟨x, hx, hs⟩ := hout n hc
    rw [hx]
    exact decide_eq_true hs
  have hd : preemptSwapOut q s = some (completeCmd (g.crews.foldl preemptCrew s) q c 0 0 0) := by
    refine (onCmd_next hb hn (decide_eq_true ho) _).trans ?_
    dsimp only
    rw [hg]
    dsimp only
    rw [if_neg (by rw [nextCmd_begun hn]; decide), if_pos hall]
  exact ⟨_, event_some hd, fun n hc => (completeCmd_filed _ _ _ _ _ _).crewIn (hout n hc)⟩

theorem preemptRestore_follows (hb : noneBegun s q 11 = true) (hn : nextCmd s q 11 = some c) (ho : pkt c.body 12 1 = 1)
    (hg : preemptTarget s c = some g) (hw : ∀ n ∈ g.crews, s.CrewIn n .swapped) :
    ∃ t, exec (.preemptRestore q) s = .next t ∧ ∀ n ∈ g.crews, t.CrewIn n .wait := by
  have hd : preemptRestore q s = some (completeCmd (g.crews.foldl waitAgain s) q c 0 0 0) := by
    refine (onCmd_next hb hn (decide_eq_true ho) _).trans ?_
    dsimp only
    rw [hg]
    rfl
  refine ⟨_, event_some hd, fun n hc => (completeCmd_filed _ _ _ _ _ _).crewIn ?_⟩
  exact foldl_unplaced (.inl rfl) (fun _ _ => waitAgain_unplaced) _ s (fun m hm => .inr (hw m hm)) n (.inr hc)

end

/-! ## PROFILE (R61, R100) -/

theorem spillPc_hub (s : State) (core : Nat) (e : PcEntry) : (spillPc s core e).hub = s.hub := by
  unfold spillPc
  rw [(profPut_eq _ _ _).1]

theorem foldl_hub_of_step {α : Type} {f : State → α → State} (h : ∀ s x, (f s x).hub = s.hub) (l : List α) (s : State) :
    (l.foldl f s).hub = s.hub := by
  induction l generalizing s with
  | nil => rfl
  | cons x r ih => exact (ih _).trans (h s x)

theorem spillCore_pcs (ctx : Nat) (s : State) (core : Nat) : (spillCore ctx s core).hub.pcs = s.hub.pcs := by
  unfold spillCore
  rw [modHub_hub]
  dsimp only
  rw [(profPut_eq _ _ _).1]
  dsimp only
  rw [foldl_hub_of_step fun s k => by rw [(profPut_eq _ _ _).1]]

theorem foldl_spillCore_pcs (ctx : Nat) (l : List Nat) (s : State) : (l.foldl (spillCore ctx) s).hub.pcs = s.hub.pcs := by
  induction l generalizing s with
  | nil => rfl
  | cons x r ih => exact (ih _).trans (spillCore_pcs ctx s x)

/-- After a spill no PC entry of the context is left. -/
theorem profSpill_pcs {s : State} {ctx : Nat} {c : Ctx} (hc : s.ctx? ctx = some c) (hz : c.profSize ≠ 0) :
    (profSpill s ctx).hub.pcs = s.hub.pcs.filter fun e => e.2.ctx ≠ ctx := by
  unfold profSpill
  rw [hc]
  dsimp only
  rw [if_neg hz, foldl_spillCore_pcs, foldl_hub_of_step fun s e => spillPc_hub s _ _]
  rfl

theorem Filed.pcs {s t : State} (h : Filed s t) : t.hub.pcs = s.hub.pcs := by rw [h.hub]

theorem ringPut_memOnly (s : State) (ctx a : Nat) (bs : List Byte) : MemOnly s ((ringPut s ctx a bs).getD s) := ⟨_, (ringPut_getD s ctx a bs).1⟩

theorem profiled_eq {s : State} {ctx : Nat} {x : Ctx} (h : s.ctx? ctx = some x) : s.profiled ctx = x.profOn := by
  rw [State.profiled, h]

/-- A context whose profiling starts, with a ring. -/
def Ctx.profStarted (x : Ctx) (ring size : Nat) : Ctx :=
  { x with profOn := true, profRing := ring, profSize := size, profUnits := 0, profDropped := 0 }

/-- The ring that a PROFILE packet names: device physical on queue 0. -/
def profRingOf (q : Nat) (b : BitVec 512) : Nat := if q = 0 then 2 ^ 64 + pkt b 16 8 else pkt b 16 8

/-- Profiling starts for a context that is not profiled, and the new ring has its header. -/
def State.profStarted (s : State) (q : Nat) (c : Cmd) : State :=
  let u := s.modCtx c.ctx fun x => x.profStarted (profRingOf q c.body) (pkt c.body 24 4)
  (ringPut u c.ctx (profRingOf q c.body) (bytesOf 0x46505253 8 ++ bytesOf 0 16 ++ bytesOf u.devtime 8 ++ bytesOf 0 32)).getD u

theorem profStarted_ctx? {s : State} (q : Nat) {c : Cmd} {x : Ctx} (h : s.ctx? c.ctx = some x) :
    (s.profStarted q c).ctx? c.ctx = some (x.profStarted (profRingOf q c.body) (pkt c.body 24 4)) := by
  refine ((ringPut_memOnly _ _ _ _).ctx?_eq c.ctx).trans ?_
  rw [ctx?_modCtx_same, h]
  rfl

section
variable {q : Nat} {s : State} {c : Cmd} {x : Ctx} (hb : noneBegun s q 12 = true) (hn : nextCmd s q 12 = some c)
  (hx : s.ctx? c.ctx = some x)
include hb hn hx

theorem profileStart_follows {pa : Nat} {pte : BitVec 64} (ho : pkt c.body 8 1 = 0)
    (ha : packetAddr s q c.ctx (pkt c.body 16 8) .write false = .ok pa pte) (hf : x.profOn = false) :
    ∃ t y, exec (.profileStart q) s = .next t ∧ t.ctx? c.ctx = some y ∧ y.profOn = true ∧ y.profSize = pkt c.body 24 4 := by
  have hd : profileStart q s = some (completeCmd (s.profStarted q c) q c 0 0 0) := by
    refine (onCmd_next hb hn (decide_eq_true ho) _).trans ?_
    dsimp only
    rw [ha]
    dsimp only
    rw [if_neg (by rw [profiled_eq hx, hf]; decide)]
    rfl
  obtain ⟨y, hy, hfiles⟩ := (completeCmd_filed (s.profStarted q c) q c 0 0 0).ctx_some (profStarted_ctx? q hx)
  have hbare := hfiles.bare
  exact ⟨_, y, event_some hd, hy, congrArg Ctx.profOn hbare, congrArg Ctx.profSize hbare⟩

theorem profileStop_follows (ho : pkt c.body 8 1 = 1) (hp : x.profOn = true) :
    ∃ t y, exec (.profileStop q) s = .next t ∧ t.ctx? c.ctx = some y ∧ y.profOn = false := by
  have hd : profileStop q s = some (completeCmd (s.modCtx c.ctx fun x => { x with profOn := false }) q c 0 0 0) :=
    (onCmd_next hb hn (decide_eq_true ho) _).trans (if_pos ((profiled_eq hx).trans hp))
  obtain ⟨y, hy, hf⟩ := (completeCmd_filed (s.modCtx c.ctx fun x => { x with profOn := false }) q c 0 0 0).ctx_some
    (n := c.ctx) (c := { x with profOn := false }) (by rw [ctx?_modCtx_same, hx]; rfl)
  have hbare := hf.bare
  exact ⟨_, y, event_some hd, hy, congrArg Ctx.profOn hbare⟩

theorem profileStop_notFound (ho : pkt c.body 8 1 = 1) (hp : x.profOn = false) :
    exec (.profileStop q) s = .next (completeCmd s q c 9 0 0) :=
  event_some ((onCmd_next hb hn (decide_eq_true ho) _).trans (if_neg (by rw [profiled_eq hx, hp]; decide)))

theorem profileSpill_follows (ho : pkt c.body 8 1 = 2) (hp : x.profOn = true) (hz : x.profSize ≠ 0) :
    ∃ t, exec (.profileSpill q) s = .next t ∧ ∀ e ∈ t.hub.pcs, e.2.ctx ≠ c.ctx := by
  have hd : profileSpill q s = some (completeCmd (profSpill s c.ctx) q c 0 0 0) :=
    (onCmd_next hb hn (decide_eq_true ho) _).trans (congrArg some (if_pos ((profiled_eq hx).trans hp)))
  refine ⟨_, event_some hd, fun e he => ?_⟩
  rw [(completeCmd_filed _ _ _ _ _ _).pcs, profSpill_pcs hx hz] at he
  simpa using (List.mem_filter.mp he).2

theorem profileSpill_notFound (ho : pkt c.body 8 1 = 2) (hp : x.profOn = false) :
    exec (.profileSpill q) s = .next (completeCmd s q c 9 0 0) :=
  event_some ((onCmd_next hb hn (decide_eq_true ho) _).trans (congrArg some (if_neg (by rw [profiled_eq hx, hp]; decide))))

end

/-! ## The accounting of a cycle (R101) -/

/-- Two states differ in memory, contexts and the PC tables at most. -/
def PcOnly (s t : State) : Prop := t = { s with mem := t.mem, ctxs := t.ctxs, hub := { s.hub with pcs := t.hub.pcs } }

theorem countPc_pcOnly (s : State) (core : Nat) (line : Word) (reason ctx : Nat) : PcOnly s (countPc s core line reason ctx) := by
  unfold countPc
  dsimp only
  split
  · exact rfl
  · split
    · exact rfl
    · unfold spillPc
      rw [(profPut_eq _ _ _).1]
      exact rfl

/-- One slot's turn in a cycle of a core. -/
def countTurn (core : Nat) (s : State) (k : Nat) : State :=
  let (c, reason) := slotClass s core k
  let s := profCount s (core * 64 + k * 4 + c.code)
  let t := s.thread core k
  let ctx := s.ctxOf t.ref.crew
  if c ≠ .vacant && s.profiled ctx then countPc s core (lineOf t.pc) reason ctx else s

/-- The rotation count that a slot's turn adds to. -/
def turnKey (s : State) (core k : Nat) : Nat := core * 64 + k * 4 + (slotClass s core k).1.code

theorem accountCore_eq (s : State) (core : Nat) : accountCore s core =
    profCount ((span 0 8).foldl (countTurn core) s)
      (core * 64 + 32 + ((span 0 8).filter fun k => slotReady ((span 0 8).foldl (countTurn core) s) core k).length) := rfl

theorem countTurn_pcOnly (core : Nat) (s : State) (k : Nat) : PcOnly (profCount s (turnKey s core k)) (countTurn core s k) :=
  iteInduction (motive := PcOnly (profCount s (turnKey s core k))) (fun _ => countPc_pcOnly _ _ _ _ _) fun _ => rfl

theorem profCount_get (s : State) (key j : Nat) :
    Tbl.get 0 (profCount s key).hub.prof j = if j = key then sat48 (Tbl.get 0 s.hub.prof key + 1) else Tbl.get 0 s.hub.prof j :=
  Tbl.get_upd 0 s.hub.prof key j fun n => sat48 (n + 1)

theorem countTurn_get (core : Nat) (s : State) (k j : Nat) : Tbl.get 0 (countTurn core s k).hub.prof j =
    if j = turnKey s core k then sat48 (Tbl.get 0 s.hub.prof j + 1) else Tbl.get 0 s.hub.prof j := by
  rw [countTurn_pcOnly core s k]
  refine (profCount_get s _ j).trans ?_
  split
  · next h => rw [h]
  · rfl

theorem turnKey_countTurn (core : Nat) (s : State) (k j : Nat) : turnKey (countTurn core s k) core j = turnKey s core j := by
  rw [countTurn_pcOnly core s k]
  rfl

theorem turnKey_lt (s : State) (core k : Nat) : turnKey s core k < core * 64 + k * 4 + 4 := by
  unfold turnKey
  cases (slotClass s core k).1 <;> simp [SlotClass.code]

theorem turnKey_ne (s : State) (core : Nat) {j k : Nat} (h : j ≠ k) : turnKey s core j ≠ turnKey s core k := by
  have hj := turnKey_lt s core j
  have hk := turnKey_lt s core k
  unfold turnKey at hj hk ⊢
  omega

/-- Each slot of a list that names none twice counts its turn once. -/
theorem foldl_countTurn_get (core : Nat) {l : List Nat} (hl : l.Nodup) (s : State) (k : Nat) :
    Tbl.get 0 (l.foldl (countTurn core) s).hub.prof (turnKey s core k) =
      if k ∈ l then sat48 (Tbl.get 0 s.hub.prof (turnKey s core k) + 1) else Tbl.get 0 s.hub.prof (turnKey s core k) := by
  induction l generalizing s with
  | nil => rfl
  | cons n r ih =>
    obtain ⟨hn, hr⟩ := List.nodup_cons.mp hl
    have hrest := ih hr (countTurn core s n)
    rw [turnKey_countTurn] at hrest
    rw [List.foldl_cons, hrest, countTurn_get]
    by_cases h : k = n
    · subst h; simp [hn]
    · simp [turnKey_ne s core h, h]

theorem profileAccount_follows {core k : Nat} {s : State} (hp : profCores s s.profiled = [core]) (hk : k < 8) :
    ∃ t, exec .profileAccount s = .next t ∧ Tbl.get 0 t.hub.prof (turnKey s core k) =
      min (2 ^ 48 - 1) (Tbl.get 0 s.hub.prof (turnKey s core k) + 1) := by
  refine ⟨accountCore s core, event_some ?_, ?_⟩
  · rw [profileAccount, hp]
    rfl
  · have hlt := turnKey_lt s core k
    rw [accountCore_eq, profCount_get, if_neg (by omega), foldl_countTurn_get core (by decide), if_pos (mem_span.mpr (by omega))]
    rfl

end Sys2Proof.Machine
end

