-- ==== Sys2Proof/Proofs/Resync.lean ====
section
/-! SUPPORT. RESYNC (O53; R61): the image of the machine that it writes fits its buffer. -/

namespace Sys2Proof.Machine

/-! ## Entries and sections (Table 2.18) -/

theorem bytesOf_length (v n : Nat) : (bytesOf v n).length = n := by
  induction n generalizing v with
  | zero => rfl
  | succ n ih => rw [bytesOf, List.length_cons, ih]

theorem pad_length {n : Nat} {l : List Byte} (h : l.length ≤ n) : (pad n l).length = n := by
  rw [pad, List.length_append, List.length_replicate]
  omega

/-- The entries of a section are all of one size. -/
def Uniform (l : List (List Byte)) : Prop := ∃ n, ∀ e ∈ l, e.length = n

theorem Uniform.map {α : Type} {f : α → List Byte} {n : Nat} (h : ∀ x, (f x).length = n) (l : List α) : Uniform (l.map f) :=
  ⟨n, fun e he => by obtain ⟨x, -, rfl⟩ := List.mem_map.mp he; exact h x⟩

theorem flatten_length_uniform {l : List (List Byte)} {n : Nat} (h : ∀ e ∈ l, e.length = n) : l.flatten.length = l.length * n := by
  induction l with
  | nil => simp
  | cons e r ih =>
    rw [List.flatten_cons, List.length_append, h e (.head _), ih fun x hx => h x (.tail _ hx), List.length_cons, Nat.succ_mul, Nat.add_comm]

theorem sectionBytes_length (typ : Nat) (l : List (List Byte)) : (sectionBytes typ l).length = 8 + l.flatten.length := by
  simp only [sectionBytes, List.length_append, bytesOf_length]

/-- A section that is cut to entries for which there is room fits. -/
theorem cutSection_length (typ : Nat) {l : List (List Byte)} (h : Uniform l) {room k : Nat} (hr : 8 ≤ room)
    (hk : ∀ e ∈ l, k * e.length ≤ room - 8) : (sectionBytes typ (l.take k)).length ≤ room := by
  obtain ⟨n, hn⟩ := h
  rw [sectionBytes_length, flatten_length_uniform (n := n) fun x hx => hn x (List.mem_of_mem_take hx)]
  cases l with
  | nil => simpa using hr
  | cons e r =>
    have hfit : ((e :: r).take k).length * n ≤ room - 8 := by
      rw [List.length_take]
      exact (Nat.mul_le_mul_right n (Nat.min_le_left _ _)).trans (hn e (.head _) ▸ hk e (.head _))
    omega

theorem fitSections_length {l : List (Nat × List (List Byte))} (h : ∀ x ∈ l, Uniform x.2) (room : Nat) :
    (fitSections room l).flatten.length ≤ room := by
  induction l generalizing room with
  | nil => exact Nat.zero_le _
  | cons x r ih =>
    have hrest := ih fun y hy => h y (.tail _ hy)
    obtain ⟨typ, l⟩ := x
    unfold fitSections
    dsimp only
    split
    · next hfull =>
      rw [List.flatten_cons, List.length_append]
      have := hrest (room - (sectionBytes typ l).length)
      omega
    · split
      · exact Nat.zero_le _
      · next hroom =>
        rw [List.flatten_singleton]
        refine cutSection_length typ (h _ (.head _)) (Nat.not_lt.mp hroom) fun e he => ?_
        obtain ⟨n, hn⟩ := h _ (.head _)
        cases l with
        | nil => cases he
        | cons a r =>
          rw [(hn e he).trans (hn a (.head _)).symm]
          exact Nat.div_mul_le_self _ _

theorem resyncSections_uniform (s : State) : ∀ x ∈ resyncSections s, Uniform x.2 := by
  intro x hx
  simp only [resyncSections, List.mem_cons, List.not_mem_nil, or_false] at hx
  rcases hx with rfl | rfl | rfl | rfl | rfl | rfl | rfl | rfl
  · exact .map (n := 16) (fun e => by simp [queueEntry, bytesOf_length]) _
  · exact .map (fun g => pad_length (by simp [bytesOf_length])) _
  · exact .map (fun e => pad_length (by simp [bytesOf_length])) _
  · exact .map (fun e => pad_length (by simp [bytesOf_length])) _
  · exact .map (fun e => pad_length (by simp [bytesOf_length])) _
  · exact .map (fun r => bytesOf_length _ _) _
  · exact ⟨_, fun e he => by rw [List.mem_singleton.mp he]⟩
  · exact .map (fun k => pad_length (by simp [bytesOf_length])) _

/-! ## The packet -/

/-- Queue 0 reaches device DRAM. -/
theorem packetAddr_dram (s : State) (ctx : Nat) {va : Nat} (acc : Acc) (cp : Bool) (h : va < 0x3000000000) :
    packetAddr s 0 ctx va acc cp = .ok va 0 := by
  have hk : kindOf va = .dram := if_pos h
  rw [packetAddr, if_pos rfl, hk]
  dsimp only
  rw [hubReach, hk]

theorem fld_lt {w : Nat} (v : BitVec w) (lo n : Nat) : fld v lo n < 2 ^ n := Nat.mod_lt _ (Nat.two_pow_pos n)

/-- The bytes that a whole image takes. -/
def resyncNeed (s : State) : Nat := 64 + ((resyncSections s).flatMap fun x => sectionBytes x.1 x.2).length

/-- The header of an image with the sections given (Table 2.17). -/
def resyncHeader (s : State) (secs : List (List Byte)) : List Byte :=
  pad 64 (bytesOf 0x59535253 4 ++ bytesOf 1 2 ++ bytesOf secs.length 2 ++ bytesOf (64 + secs.flatten.length) 4 ++
    bytesOf (fld s.hub.pkgid 0 20) 4 ++ bytesOf s.devtime 8 ++ bytesOf s.devtime 8 ++
    bytesOf (b2n s.hub.onemod + 2 * b2n s.hub.slw + 4 * b2n s.power.lost) 1)

theorem resyncHeader_length (s : State) (secs : List (List Byte)) : (resyncHeader s secs).length = 64 :=
  pad_length (by simp [bytesOf_length])

theorem resyncHeader_take (s : State) (secs : List (List Byte)) : (resyncHeader s secs).take 4 = bytesOf 0x59535253 4 := by
  rw [resyncHeader, pad]
  simp only [List.append_assoc]
  exact List.take_left' (bytesOf_length _ 4)

/-- The image that fits a buffer. -/
def resyncImage (s : State) (size : Nat) : List Byte :=
  resyncHeader s (fitSections (size - 64) (resyncSections s)) ++ (fitSections (size - 64) (resyncSections s)).flatten

theorem resyncImage_length (s : State) {size : Nat} (h : 64 ≤ size) : (resyncImage s size).length ≤ size := by
  have hfit := fitSections_length (resyncSections_uniform s) (size - 64)
  rw [resyncImage, List.length_append, resyncHeader_length]
  omega

theorem resyncImage_take (s : State) (size : Nat) : (resyncImage s size).take 4 = bytesOf 0x59535253 4 := by
  rw [resyncImage, List.take_append_of_le_length (by rw [resyncHeader_length]; decide), resyncHeader_take]

theorem resync_eq {s : State} {c : Cmd} (h : nextCmd s 0 10 = some c) (hsz : 64 ≤ pkt c.body 16 4)
    (hb : pkt c.body 8 8 + 2 ^ 32 ≤ 0x3000000000) :
    resync s = some (completeCmd (s.setBytes (pkt c.body 8 8) (resyncImage s (pkt c.body 16 4))) 0 c
      (if pkt c.body 16 4 < resyncNeed s then TRUNC else 0) (resyncNeed s) 0) := by
  have hlt : pkt c.body 16 4 < 2 ^ 32 := fld_lt _ _ _
  have hend : pkt c.body 8 8 + min (pkt c.body 16 4) (resyncNeed s) - 1 < 0x3000000000 := by omega
  have hfirst := packetAddr_dram s c.ctx (va := pkt c.body 8 8) .write false (by omega)
  have hlast := packetAddr_dram s c.ctx .write false hend
  unfold resyncNeed at hlast
  unfold resync
  rw [h]
  dsimp only
  simp only [hfirst, hlast, Bool.not_true, Bool.and_false, Bool.false_eq_true, if_false, if_neg (Nat.not_lt.mpr hsz)]
  rfl

theorem resync_follows {s : State} {c : Cmd} (h : nextCmd s 0 10 = some c) (hsz : 64 ≤ pkt c.body 16 4)
    (hb : pkt c.body 8 8 + 2 ^ 32 ≤ 0x3000000000) :
    ∃ l need, exec .resync s = .next (completeCmd (s.setBytes (pkt c.body 8 8) l) 0 c (if pkt c.body 16 4 < need then 8 else 0) need 0) ∧
      l.length ≤ pkt c.body 16 4 ∧ l.take 4 = bytesOf 0x59535253 4 :=
  ⟨_, _, event_some (resync_eq h hsz hb), resyncImage_length s hsz, resyncImage_take s _⟩

end Sys2Proof.Machine
end

