-- ==== Sys2Proof/Proofs/ContextsAndIntervals.lean ====
section
/-! SUPPORT. O53 from the lemmas about its events (R54 to R61, R87 to R94, R100, R101). -/

namespace Sys2Proof.Machine

/-- Settles O53: each event as its own lemma says; an interval is that of a context, a place that of a queue, and what completing files in
memory and among held outputs touches none of them. -/
theorem contextsAndIntervals : Obligations.ContextsAndIntervals := by
  refine ⟨fun s c => ⟨create_follows, create_exists, destroy_follows, fun h h0 hs hn hg => ?_, qreset_follows, wsreg_follows, fun h g hr =>
    ⟨wsfree_busy h hr, wsfree_follows h hr⟩⟩, fun q s c h => ⟨ckptPacket_unchecked h, ckptPacket_follows h⟩, fun s c => resync_follows,
    fun n s c hc hk => ⟨checkpointPeriod_follows hc hk, intervalSeal_follows hc hk, rollback_follows hc hk⟩,
    fun n core slot byThread addr s c => unrecoverableFault_follows core slot byThread addr,
    fun q s c hb hn => ⟨preemptSwapOut_notFound hb hn, fun g => preemptSwapOut_follows hb hn, fun g => preemptRestore_follows hb hn⟩,
    fun q s c x hb hn hx => ⟨fun pa pte => profileStart_follows hb hn hx, profileStop_follows hb hn hx, profileStop_notFound hb hn hx,
      profileSpill_follows hb hn hx, profileSpill_notFound hb hn hx⟩,
    fun core k s => profileAccount_follows⟩
  obtain ⟨t, ht, hq⟩ := qset_follows h h0 hs hn hg
  refine ⟨t, ht, ?_⟩
  rw [hq]
  exact ⟨rfl, rfl, rfl, rfl, rfl, rfl, rfl, bound_enabled _ _⟩

end Sys2Proof.Machine
end

