-- ==== Sys2Proof/Proofs/DebugHalts.lean ====
section
/-! SUPPORT. What halting and resuming the threads of a context does to the vats (O50; R98): memory stays as it is. -/

namespace Sys2Proof.Machine

/-! ## Steps taken over a list -/

/-- What each step of a fold leaves alone, the fold leaves alone. -/
theorem foldl_keeps {α σ β : Type} (g : σ → β) {f : σ → α → σ} (h : ∀ s x, g (f s x) = g s) (l : List α) (s : σ) :
    g (l.foldl f s) = g s := by
  induction l generalizing s with
  | nil => rfl
  | cons x r ih => exact (ih _).trans (h s x)

/-- A fold brings about what the step of one element brings about and no step undoes. -/
theorem foldl_establishes {α σ : Type} {f : σ → α → σ} {P : σ → Prop} {x : α} (keep : ∀ s y, P s → P (f s y)) (set : ∀ s, P (f s x))
    {l : List α} (hx : x ∈ l) (s : σ) : P (l.foldl f s) := by
  obtain ⟨a, b, rfl⟩ := List.append_of_mem hx
  rw [List.foldl_append, List.foldl_cons]
  exact List.foldlRecOn b f (set _) fun u hu y _ => keep u y hu

/-! ## Thread contexts wherever they are held -/

theorem modRef_mem (s : State) (r : TRef) (f : Thread → Thread) : (s.modRef r f).mem = s.mem := by
  unfold State.modRef
  split
  · next l _ => cases l <;> rfl
  · rfl

theorem modRef_vats (s : State) (r : TRef) (f : Thread → Thread) : (s.modRef r f).vats = s.vats := by
  unfold State.modRef
  split
  · next l _ => cases l <;> rfl
  · rfl

theorem vat_upd (s : State) (k v : Nat) (f : Vat → Vat) :
    Tbl.get State.vat0 (Tbl.upd State.vat0 s.vats v f) k = if k = v then f (s.vat k) else s.vat k := by
  rw [Tbl.get_upd]
  split
  · next h => rw [h, State.vat]
  · rfl

/-! ## Halts -/

/-- A vat with a context halted in it: DBGCTL.HALTED is set. -/
def Vat.haltCtx (x : Vat) (ctx : Nat) : Vat :=
  { x with dbgctl := x.dbgctl ||| 1, halted := if x.halted.contains ctx then x.halted else ctx :: x.halted }

/-- The context is halted in the vat, and DBGCTL.HALTED says that something is. -/
def HaltedIn (ctx v : Nat) (s : State) : Prop := (s.vat v).halted.contains ctx = true ∧ (s.vat v).dbgctl.getLsbD 0 = true

theorem haltVat_mem (s : State) (ctx v : Nat) : (haltVat s ctx v).mem = s.mem :=
  foldl_keeps State.mem (fun s r => modRef_mem s r _) (pactThreads s ctx v) s

theorem haltVat_vats (s : State) (ctx v : Nat) : (haltVat s ctx v).vats = Tbl.upd State.vat0 s.vats v (·.haltCtx ctx) := by
  rw [← foldl_keeps State.vats (fun s r => modRef_vats s r fun t => { t with halted := true }) (pactThreads s ctx v) s]
  rfl

theorem vat_haltVat (s : State) (ctx v k : Nat) : (haltVat s ctx v).vat k = if k = v then (s.vat k).haltCtx ctx else s.vat k := by
  rw [State.vat, haltVat_vats]
  exact vat_upd s k v _

theorem haltVat_halts (s : State) (ctx v : Nat) : HaltedIn ctx v (haltVat s ctx v) := by
  rw [HaltedIn, vat_haltVat, if_pos rfl]
  refine ⟨?_, by simp [Vat.haltCtx]⟩
  rw [Vat.haltCtx]
  split
  · assumption
  · simp

theorem HaltedIn.haltVat {ctx k : Nat} {s : State} (h : HaltedIn ctx k s) (v : Nat) : HaltedIn ctx k (haltVat s ctx v) := by
  by_cases hk : k = v
  · exact hk ▸ haltVat_halts s ctx v
  · rwa [HaltedIn, vat_haltVat, if_neg hk]

theorem haltGroup_mem (s : State) (ctx v : Nat) : (haltGroup s ctx v).mem = s.mem := by
  unfold haltGroup
  dsimp only
  split
  · exact haltVat_mem s ctx v
  · exact (foldl_keeps State.mem (fun s (e : Nat × Vat) => haltVat_mem s ctx e.1) _ _).trans (haltVat_mem s ctx v)

/-- What holds once the vat itself is halted, and stays when more are, holds of its cross-trigger group. -/
theorem haltGroup_induction {P : State → Prop} {s : State} {ctx v : Nat} (set : P (haltVat s ctx v))
    (keep : ∀ u k, P u → P (haltVat u ctx k)) : P (haltGroup s ctx v) := by
  unfold haltGroup
  dsimp only
  split
  · exact set
  · exact List.foldlRecOn _ _ set fun u hu e _ => keep u e.1 hu

theorem haltGroup_halts (s : State) (ctx v : Nat) : HaltedIn ctx v (haltGroup s ctx v) :=
  haltGroup_induction (haltVat_halts s ctx v) fun _ k h => h.haltVat k

theorem HaltedIn.haltGroup {ctx k : Nat} {s : State} (h : HaltedIn ctx k s) (v : Nat) : HaltedIn ctx k (haltGroup s ctx v) :=
  haltGroup_induction (h.haltVat v) fun _ k h => h.haltVat k

/-! ## Resumptions -/

theorem resumeFar_mem (s : State) (ctx v : Nat) : (resumeFar s ctx v).mem = s.mem :=
  foldl_keeps State.mem (fun s r => by split; exacts [rfl, modRef_mem s r _]) _ s

theorem resumeFar_vats (s : State) (ctx v : Nat) : (resumeFar s ctx v).vats = s.vats :=
  foldl_keeps State.vats (fun s r => by split; exacts [rfl, modRef_vats s r _]) _ s

theorem resumeVat_mem (ctx : Nat) (s : State) (v : Nat) : (resumeVat ctx s v).mem = s.mem := by
  unfold resumeVat
  dsimp only
  split
  · rfl
  · show (State.mem (if _ then _ else _)) = _
    split
    · exact resumeFar_mem _ ctx v
    · rfl

/-- What resuming a context in a vat does to the vats: where there is something to resume, the context is taken off the vat's list, and
DBGCTL.HALTED follows. -/
theorem resumeVat_vats (ctx : Nat) (s : State) (v : Nat) : resumeVat ctx s v = s ∧ (s.vat v).halted.contains ctx = false ∨
    ∃ t n, (resumeVat ctx s v).vats = Tbl.upd State.vat0 t v (fun x => { x with dbgctl := setFld x.dbgctl 0 1 n }) ∧
      t = Tbl.upd State.vat0 s.vats v fun x => { x with halted := x.halted.filter (· ≠ ctx) } := by
  unfold resumeVat
  dsimp only
  split
  · next h =>
    simp only [Bool.and_eq_true, Bool.not_eq_true'] at h
    exact .inl ⟨rfl, h.1⟩
  · refine .inr ⟨_, _, rfl, ?_⟩
    split
    · exact resumeFar_vats _ ctx v
    · rfl

/-- Resuming a context in a vat takes it off the vat's list, and off no other one. -/
theorem resumeVat_halted (ctx : Nat) (s : State) (v k : Nat) :
    ((resumeVat ctx s v).vat k).halted = if k = v then (s.vat k).halted.filter (· ≠ ctx) else (s.vat k).halted := by
  rcases resumeVat_vats ctx s v with ⟨he, hn⟩ | ⟨_, n, hv, rfl⟩
  · rw [he]
    split
    · next hk =>
      refine (List.filter_eq_self.mpr fun x hx => decide_eq_true ?_).symm
      rintro rfl
      rw [hk] at hx
      simp [hx] at hn
    · rfl
  · rw [State.vat, hv, Tbl.get_upd, vat_upd, vat_upd]
    by_cases hk : k = v
    · simp only [hk, if_true]
    · simp only [hk, if_false]

theorem resumeVat_resumes (ctx : Nat) (s : State) (v : Nat) : ((resumeVat ctx s v).vat v).halted.contains ctx = false := by
  simp [resumeVat_halted]

/-- A context that is not halted in a vat is not halted there by a resumption. -/
theorem resumeVat_keeps {ctx k : Nat} {s : State} (h : (s.vat k).halted.contains ctx = false) (v : Nat) :
    ((resumeVat ctx s v).vat k).halted.contains ctx = false := by
  rw [resumeVat_halted]
  split
  · simp
  · exact h

end Sys2Proof.Machine
end

