-- ==== Sys2Proof/Proofs/Mailbox.lean ====
section
/-! SUPPORT. The mailbox (O50; R77 to R79, R81, R84): its data window, the carrying out of a command, and the commands but for debug. -/

namespace Sys2Proof.Machine

/-! ## Bytes written one after the other -/

/-- What is read after bytes have been written from a place up, where a single write says what it leaves to be read. -/
theorem read_foldl_write {σ β : Type} {wr : σ → Nat → Byte → σ} {rd : σ → Nat → β} {g : Byte → β}
    (h : ∀ w k b j, rd (wr w k b) j = if j = k then g b else rd w j) (bs : List Byte) (off : Nat) (w : σ) (j : Nat) :
    rd ((bs.zip (span off bs.length)).foldl (fun w e => wr w e.2 e.1) w) j =
      if off ≤ j ∧ j < off + bs.length then g (bs.getD (j - off) 0) else rd w j := by
  induction bs generalizing off w with
  | nil => rw [if_neg (by simp)]; rfl
  | cons b r ih =>
    rw [List.length_cons, span, List.zip_cons_cons, List.foldl_cons, ih, h]
    by_cases hj : j = off
    · rw [if_neg (by omega), if_pos hj, if_pos (by omega), hj, Nat.sub_self, List.getD_cons_zero]
    · by_cases hr : off + 1 ≤ j ∧ j < off + 1 + r.length
      · rw [if_pos hr, if_pos (by omega), show j - off = j - (off + 1) + 1 by omega, List.getD_cons_succ]
      · rw [if_neg hr, if_neg hj, if_neg (by omega)]

theorem getWindow_length (s : State) (off n : Nat) : (s.getWindow off n).length = n := by
  rw [State.getWindow, List.length_map, span_length]

theorem getWindow_getElem? (s : State) (off n i : Nat) :
    (s.getWindow off n)[i]? = if i < n then some (Tbl.get 0 s.mgmt.window (off + i)) else none := by
  rw [State.getWindow, List.getElem?_map, span_getElem?]
  split
  · rfl
  · rfl

/-- The data window holds the bytes that have been put into it. -/
theorem getWindow_putWindow (s : State) (off : Nat) {bs : List Byte} {n : Nat} (hn : bs.length = n) :
    (s.putWindow off bs).getWindow off n = bs := by
  subst hn
  refine List.ext_getElem? fun i => ?_
  rw [getWindow_getElem?]
  split
  · next hi =>
    rw [State.putWindow, modMgmt_mgmt, read_foldl_write (rd := Tbl.get 0) (g := id) fun w k b j => Tbl.get_put 0 w k j b]
    rw [if_pos (by omega), Nat.add_sub_cancel_left]
    simp [hi]
  · next hi => rw [List.getElem?_eq_none (by omega)]

/-! ## Carrying out a command -/

/-- The command has been carried out, with its STATUS. -/
def State.mbFinish (s : State) (st : Nat) : State := s.modMgmt fun m => { m with mbdone := some st }

section
variable {s : State} {code : Nat} {f : State → Nat × State} {st : Nat} {t : State} (hb : s.mgmt.mbstat.getLsbD 63 = true)
  (hn : s.mgmt.mbdone = none) (hc : fld s.mgmt.mbcmd 0 16 = code)
include hb hn hc

/-- The command that MBCMD names is carried out while the mailbox is busy, once. -/
theorem mailbox_eq (hf : f s = (st, t)) : mailbox code f s = some (t.mbFinish st) := by
  simp [mailbox, State.mbBusy, State.mbFinish, bit, hb, hn, hc, hf]

theorem debug_eq (hd : s.mgmt.dbgen = true) (hf : f s = (st, t)) : debug code f s = some (t.mbFinish st) :=
  mailbox_eq hb hn hc ((if_pos hd).trans hf)

theorem debug_perm (hd : s.mgmt.dbgen = false) : debug code f s = some (s.mbFinish 3) :=
  mailbox_eq hb hn hc (if_neg (by simp [hd]))

theorem debugCore_eq (hd : s.mgmt.dbgen = true) (hr : s.retained (s.mbArg 1) 2 = false) (hf : f s = (st, t)) :
    debugCore code f s = some (t.mbFinish st) :=
  (if_neg (by simp [hr])).trans (debug_eq hb hn hc hd hf)

theorem debugCore_perm (hd : s.mgmt.dbgen = false) : debugCore code f s = some (s.mbFinish 3) :=
  (if_neg (by simp [hd])).trans (debug_perm hb hn hc hd)

end

/-! ## The end of a command (R79) -/

theorem mailboxDone_eq {s : State} {st : Nat} (hb : s.mgmt.mbstat.getLsbD 63 = true) (hd : s.mgmt.mbdone = some st) :
    mailboxDone s = some (let u := s.modMgmt fun m => { m with mbstat := word (2 ^ 62 + st), mbdone := none }
      if bit s.mgmt.mbcmd 62 then u.signal (fld s.mgmt.mbcmd 48 11) else u) := by
  unfold mailboxDone
  rw [show s.mbBusy = true from hb, hd]
  rfl

theorem signal_msix {s : State} {vec : Nat} (h : s.hub.masked vec = false) : (s.signal vec).hub.msix = vec :: s.hub.msix := by
  simp [State.signal, h]

theorem mailboxDone_follows (s : State) (st : Nat) (hb : s.mgmt.mbstat.getLsbD 63 = true) (hd : s.mgmt.mbdone = some st) :
    ∃ t, exec .mailboxDone s = .next t ∧ t.mgmt.mbstat = word (2 ^ 62 + st) ∧ t.mgmt.mbdone = none ∧
      (s.mgmt.mbcmd.getLsbD 62 = true → s.hub.masked (fld s.mgmt.mbcmd 48 11) = false →
        t.hub.msix = fld s.mgmt.mbcmd 48 11 :: s.hub.msix) := by
  refine ⟨_, event_some (mailboxDone_eq hb hd), ?_⟩
  dsimp only
  split
  · exact ⟨rfl, rfl, fun _ hm => signal_msix hm⟩
  · next hi => exact ⟨rfl, rfl, fun h => absurd h hi⟩

/-! ## Firmware banks (R81) -/

/-- The first place of the flash that FWSTAGE writes: in the bank that is not marked active, at the offset of MBARG1. -/
def State.stageBase (s : State) : Nat := ((s.mbArg 0 - 1) * 2 + b2n !(s.markedBank (s.mbArg 0 - 1))) * 2 ^ 32 + s.mbArg 1

/-- The window's bytes in the flash, as FWSTAGE writes them. -/
def State.staging (s : State) : State :=
  s.modMgmt fun m => { m with
    flash := ((s.getWindow 0 (s.mbArg 2)).zip (span s.stageBase (s.mbArg 2))).foldl (fun w e => Tbl.ins w e.2 e.1) m.flash }

theorem staging_flash (s : State) (i : Nat) (hi : i < s.mbArg 2) :
    Tbl.find s.staging.mgmt.flash (s.stageBase + i) = some (Tbl.get 0 s.mgmt.window i) := by
  have h := read_foldl_write (fun w k b j => Tbl.find_ins w k j b) (s.getWindow 0 (s.mbArg 2)) s.stageBase s.mgmt.flash (s.stageBase + i)
  rw [getWindow_length, if_pos (by omega), Nat.add_sub_cancel_left, List.getD_eq_getElem?_getD, getWindow_getElem?, if_pos hi,
    Nat.zero_add] at h
  exact h

/-- An image that passes is not older than the version counter of its component. -/
theorem bankOk_svn {s : State} {k : Nat} {b : Bool} (h : s.bankOk k b = true) : vget s.mgmt.svn k 0 ≤ s.svnIn k b := by
  simp only [State.bankOk, Bool.and_eq_true, decide_eq_true_eq] at h
  obtain ⟨⟨_, hv⟩, _⟩ := h
  exact hv

theorem vget_setIfInBounds {α : Type} {n k : Nat} (v : Vector α n) (h : k < n) (x d : α) : vget (v.setIfInBounds k x) k d = x := by
  simp [vget, h]

section
variable {s : State} (hb : s.mgmt.mbstat.getLsbD 63 = true) (hn : s.mgmt.mbdone = none)
include hb hn

/-! ## Attestation (R84) -/

theorem attest_follows (hc : fld s.mgmt.mbcmd 0 16 = 0x1) (ok : Bool) (hx : s.mbArg 0 = 0xFFFF ∨ (s.ctx? (s.mbArg 0)).isSome) :
    ∃ t, exec (.attest ok) s = .next t ∧
      (ok = true → s.mgmt.keyReady = true → s.mgmt.leaf < 2 ^ 40 → t.mgmt.mbdone = some 0 ∧ t.mgmt.leaf = s.mgmt.leaf + 1) ∧
      (ok = false → t.mgmt.mbdone = some 4 ∧ t.mgmt.leaf = s.mgmt.leaf) := by
  have hx : ¬(decide (s.mbArg 0 ≠ 0xFFFF) && (s.ctx? (s.mbArg 0)).isNone) = true := by
    rcases hx with h | h
    · simp [h]
    · simp [Option.isNone_eq_false_iff.mpr h]
  by_cases hk : (!s.mgmt.keyReady || decide (2 ^ 40 ≤ s.mgmt.leaf) || !ok) = true
  · refine ⟨_, event_some (mailbox_eq hb hn hc ((if_neg hx).trans (if_pos hk))), fun h1 h2 h3 => ?_, fun _ => ⟨rfl, rfl⟩⟩
    simp [h1, h2] at hk
    omega
  · refine ⟨_, event_some (mailbox_eq hb hn hc ((if_neg hx).trans (if_neg hk))), fun _ _ _ => ⟨rfl, rfl⟩, fun h => ?_⟩
    simp [h] at hk

/-! ## The black box and the sensors (R77, R78) -/

theorem bbread_follows (hc : fld s.mgmt.mbcmd 0 16 = 0x2) (r : BitVec 128) (h1 : s.mbArg 1 = 1)
    (hr : s.mgmt.blackbox[s.mbArg 0]? = some r) :
    ∃ t, exec .bbread s = .next t ∧ t.mgmt.mbdone = some 0 ∧ t.getWindow 0 16 = bytesOf r.toNat 16 ∧
      t.mgmt.blackbox = s.mgmt.blackbox := by
  have hx : s.boxBytes (s.mbArg 0) (s.mbArg 1) = some (bytesOf r.toNat 16) := by
    rw [h1, State.boxBytes, if_neg (by decide), List.take_one, List.head?_drop, hr]
    simp
  exact ⟨_, event_some (mailbox_eq hb hn hc (congrArg (answer s) hx)), rfl, getWindow_putWindow s 0 (bytesOf_length _ _), rfl⟩

theorem sensrd_follows (hc : fld s.mgmt.mbcmd 0 16 = 0x5) (v : BitVec 16) (h2 : s.mbArg 2 = 1)
    (h1 : s.mbArg 1 < [4096, 1024, 1024, 32, 4, 1].getD (s.mbArg 0) 0)
    (hv : Tbl.find s.mgmt.sensors (s.mbArg 0 * 65536 + s.mbArg 1) = some v) :
    ∃ t, exec .sensrd s = .next t ∧ t.mgmt.mbdone = some 0 ∧ t.getWindow 0 2 = bytesOf v.toNat 2 := by
  have hx : s.sensorBytes (s.mbArg 0) (s.mbArg 1) (s.mbArg 2) = some (bytesOf v.toNat 2) := by
    have hl : ¬(decide (sensorCount (s.mbArg 0) < s.mbArg 1 + 1) || decide (1 = 0)) = true := by
      rw [← sensorCount] at h1
      simpa using h1
    rw [h2, State.sensorBytes, if_neg hl]
    simp [span, hv]
  exact ⟨_, event_some (mailbox_eq hb hn hc (congrArg (answer s) hx)), rfl, getWindow_putWindow s 0 (bytesOf_length _ _)⟩

/-! ## Firmware (R81) -/

theorem fwstage_follows (hc : fld s.mgmt.mbcmd 0 16 = 0x3) (h1 : 1 ≤ s.mbArg 0) (h4 : s.mbArg 0 ≤ 4) (h2 : s.mbArg 2 ≤ 61440)
    (hs : s.mbArg 1 + s.mbArg 2 ≤ 2 ^ 32) :
    ∃ t r, exec .fwstage s = .next t ∧ t.mgmt.mbdone = some 0 ∧ t.mgmt.blackbox.head? = some r ∧ fld r 72 8 = 0x0B ∧
      ∀ i, i < s.mbArg 2 → Tbl.find t.mgmt.flash
        (((s.mbArg 0 - 1) * 2 + b2n !(s.markedBank (s.mbArg 0 - 1))) * 2 ^ 32 + s.mbArg 1 + i) = some (Tbl.get 0 s.mgmt.window i) := by
  have hx : ¬(decide (s.mbArg 0 = 0) || decide (4 < s.mbArg 0) || decide (61440 < s.mbArg 2) ||
      decide (2 ^ 32 < s.mbArg 1 + s.mbArg 2)) = true := by
    simp only [Bool.or_eq_true, decide_eq_true_eq]
    omega
  obtain ⟨r, hr, hk⟩ := blackbox_kind s.staging 0x0B 0 (s.mbArg 0)
  exact ⟨_, r, event_some (mailbox_eq hb hn hc (t := s.staging.blackbox 0x0B 0 (s.mbArg 0)) (if_neg hx)), rfl, hr, hk, staging_flash s⟩

theorem fwactivate_follows (hc : fld s.mgmt.mbcmd 0 16 = 0x4) (h1 : 1 ≤ s.mbArg 0) (h4 : s.mbArg 0 ≤ 4) :
    let k := s.mbArg 0 - 1
    let b := !(s.markedBank k)
    (s.bankOk k b = true → ∃ t, exec .fwactivate s = .next t ∧ t.mgmt.mbdone = some 0 ∧
      vget t.mgmt.staged k false = !(vget s.mgmt.staged k false) ∧ vget t.mgmt.svn k 0 = s.svnIn k b ∧
      vget s.mgmt.svn k 0 ≤ vget t.mgmt.svn k 0) ∧
    (s.bankOk k b = false → exec .fwactivate s = .next (s.modMgmt fun m => { m with mbdone := some 2 })) := by
  intro k b
  have hx : ¬(decide (s.mbArg 0 = 0) || decide (4 < s.mbArg 0)) = true := by
    simp only [Bool.or_eq_true, decide_eq_true_eq]
    omega
  have hk : k < 4 := by omega
  refine ⟨fun h => ?_, fun h => event_some (mailbox_eq hb hn hc ((if_neg hx).trans (if_pos (congrArg not h))))⟩
  have hs : vget (s.mgmt.svn.setIfInBounds k (max (vget s.mgmt.svn k 0) (s.svnIn k b))) k 0 = s.svnIn k b :=
    (vget_setIfInBounds _ hk _ _).trans (Nat.max_eq_right (bankOk_svn h))
  exact ⟨_, event_some (mailbox_eq hb hn hc ((if_neg hx).trans (if_neg (ne_true_of_eq_false (congrArg not h))))), rfl,
    vget_setIfInBounds _ hk _ _, hs, (bankOk_svn h).trans hs.ge⟩

end

end Sys2Proof.Machine
end

