-- ==== Sys2Proof/Proofs/DebugCommands.lean ====
section
/-! SUPPORT. The debug commands and the halt at a breakpoint (O50; R98, R99), and the settlement of O50. -/

namespace Sys2Proof.Machine

/-! ## The vats that a command names -/

theorem mem_mbVats {s : State} {v : Nat} (hv : v < 256) (hm : s.mbVat v = true) : v ∈ (span 0 256).filter s.mbVat :=
  List.mem_filter.mpr ⟨mem_span.mpr ⟨Nat.zero_le v, by omega⟩, hm⟩

/-! ## Registers by selector (Table 4.11) -/

theorem selectRead_g (s : State) (t : Thread) {k : Nat} (h : k < 24) : selectRead s t k = some (bytesOf (t.getG k).toNat 8) := if_pos h

theorem selectWrite_g (s : State) (core slot : Nat) {k : Nat} (h : k < 24) : selectWrite s core slot k =
    some (s.modThread core slot fun t => t.writeReg (t.destG (BitVec.ofNat 5 k) (word (ofBytes (s.getWindow 0 8))))) := if_pos h

theorem isY_bounds {t : Thread} {k : Nat} (h : t.isY k = true) : 10 ≤ k ∧ k ≤ 13 := by
  simp only [Thread.isY, Bool.and_eq_true, decide_eq_true_eq] at h
  obtain ⟨⟨_, h10⟩, h13⟩ := h
  exact ⟨h10, h13⟩

theorem getG_writeReg_y (t : Thread) {k : Nat} (h : t.isY k = true) (w : Word) :
    (t.writeReg (.y (BitVec.ofNat 2 (k - 10)) w)).getG k = w := by
  obtain ⟨h1, h2⟩ := isY_bounds h
  have hr : (BitVec.ofNat 2 (k - 10)).toNat = k - 10 := by rw [BitVec.toNat_ofNat]; omega
  rw [Thread.writeReg, hr, Thread.getG, if_neg (by omega), if_pos (by exact h)]
  exact vget_setIfInBounds _ (by omega) _ _

theorem getG_writeReg_g (t : Thread) {k : Nat} (h : k < 23) (hy : t.isY k = false) (w : Word) :
    (t.writeReg (.g (BitVec.ofNat 5 k) w)).getG k = w := by
  have hr : (BitVec.ofNat 5 k).toNat = k := by rw [BitVec.toNat_ofNat]; omega
  rw [Thread.writeReg, hr, if_neg (by omega), Thread.getG, if_neg (by omega), if_neg (by exact ne_true_of_eq_false hy)]
  exact vget_setIfInBounds _ h _ _

/-- A general register other than z reads as it has been written, y0 to y3 inside a notify handler. -/
theorem getG_writeReg_destG (t : Thread) {k : Nat} (h : k < 23) (w : Word) :
    (t.writeReg (t.destG (BitVec.ofNat 5 k) w)).getG k = w := by
  have hr : (BitVec.ofNat 5 k).toNat = k := by rw [BitVec.toNat_ofNat]; omega
  rw [Thread.destG, hr]
  cases hy : t.isY k
  · exact getG_writeReg_g t h hy w
  · exact getG_writeReg_y t hy w

/-- DBGCTL's writable fields are bits 63 to 9, and HALTED is not one of them (Table 4.11). -/
theorem dbgctl_write (x y : Word) : ((x &&& 0xFFFFFFFFFFFFFE00) ||| (y &&& 1)).getLsbD 0 = y.getLsbD 0 ∧
    ∀ k, 9 ≤ k → k < 64 → ((x &&& 0xFFFFFFFFFFFFFE00) ||| (y &&& 1)).getLsbD k = x.getLsbD k := by
  refine ⟨by simp, fun k h9 h64 => ?_⟩
  have hm : (0xFFFFFFFFFFFFFE00 : Word) = BitVec.allOnes 64 <<< 9 := rfl
  have h1 : (y &&& 1).getLsbD k = false := by simp [show k ≠ 0 by omega]
  rw [BitVec.getLsbD_or, h1, Bool.or_false, BitVec.getLsbD_and, hm, BitVec.getLsbD_shiftLeft, BitVec.getLsbD_allOnes]
  simp [h64, show ¬k < 9 by omega, show k - 9 < 64 by omega]

/-! ## The commands -/

section
variable {s : State} (hb : s.mgmt.mbstat.getLsbD 63 = true) (hn : s.mgmt.mbdone = none)
include hb hn

theorem debug_refused (hd : s.mgmt.dbgen = false) (i : Instr) (c : Nat) (hi : (i = .dbghalt ∧ c = 0x10) ∨ (i = .dbgresume ∧ c = 0x11) ∨
      (i = .dbgstep ∧ c = 0x12) ∨ (i = .dbgread ∧ c = 0x13) ∨ (i = .dbgwrite ∧ c = 0x14) ∨ (i = .dbgcfg ∧ c = 0x15))
    (hc : fld s.mgmt.mbcmd 0 16 = c) : exec i s = .next (s.modMgmt fun m => { m with mbdone := some 3 }) := by
  rcases hi with ⟨rfl, rfl⟩ | ⟨rfl, rfl⟩ | ⟨rfl, rfl⟩ | ⟨rfl, rfl⟩ | ⟨rfl, rfl⟩ | ⟨rfl, rfl⟩
  · exact event_some (debug_perm hb hn hc hd)
  · exact event_some (debug_perm hb hn hc hd)
  · exact event_some (debugCore_perm hb hn hc hd)
  · exact event_some (debugCore_perm hb hn hc hd)
  · exact event_some (debugCore_perm hb hn hc hd)
  · exact event_some (debug_perm hb hn hc hd)

variable (hd : s.mgmt.dbgen = true)
include hd

theorem dbghalt_follows (hc : fld s.mgmt.mbcmd 0 16 = 0x10) (hx : (s.ctx? (s.mbArg 0)).isSome) :
    ∃ t, exec .dbghalt s = .next t ∧ t.mgmt.mbdone = some 0 ∧ t.mem = s.mem ∧
      ∀ v, v < 256 → s.mbVat v = true → (t.vat v).halted.contains (s.mbArg 0) = true := by
  refine ⟨_, event_some (debug_eq hb hn hc hd (if_neg (by simp [Option.isNone_eq_false_iff.mpr hx]))), rfl,
    foldl_keeps State.mem (fun s v => haltGroup_mem s _ v) _ s, fun v hv hm => ?_⟩
  exact (foldl_establishes (P := HaltedIn (s.mbArg 0) v) (fun u k h => h.haltGroup k) (fun u => haltGroup_halts u _ v)
    (mem_mbVats hv hm) s).1

theorem dbgresume_follows (hc : fld s.mgmt.mbcmd 0 16 = 0x11) (hx : (s.ctx? (s.mbArg 0)).isSome) :
    ∃ t, exec .dbgresume s = .next t ∧ t.mgmt.mbdone = some 0 ∧ t.mem = s.mem ∧
      ∀ v, v < 256 → s.mbVat v = true → (t.vat v).halted.contains (s.mbArg 0) = false := by
  refine ⟨_, event_some (debug_eq hb hn hc hd (if_neg (by simp [Option.isNone_eq_false_iff.mpr hx]))), rfl,
    foldl_keeps State.mem (resumeVat_mem _) _ s, fun v hv hm => ?_⟩
  exact foldl_establishes (P := fun u => (u.vat v).halted.contains (s.mbArg 0) = false) (fun u k h => resumeVat_keeps h k)
    (fun u => resumeVat_resumes _ u v) (mem_mbVats hv hm) s

theorem dbgcfg_follows (hc : fld s.mgmt.mbcmd 0 16 = 0x15) (h0 : s.mbArg 0 < 256) :
    ∃ t, exec .dbgcfg s = .next t ∧ t.mgmt.mbdone = some 0 ∧ (t.vat (s.mbArg 0)).watchLo = vget s.mgmt.mbarg 5 0 ∧
      (t.vat (s.mbArg 0)).watchHi = vget s.mgmt.mbarg 6 0 ∧
      (t.vat (s.mbArg 0)).dbgctl.getLsbD 0 = (s.vat (s.mbArg 0)).dbgctl.getLsbD 0 ∧
      ∀ k, 9 ≤ k → k < 64 → (t.vat (s.mbArg 0)).dbgctl.getLsbD k = (vget s.mgmt.mbarg 1 0).getLsbD k := by
  have hv := vat_modVat_same s (s.mbArg 0) fun x => { x with
    dbgctl := (vget s.mgmt.mbarg 1 0 &&& 0xFFFFFFFFFFFFFE00) ||| (x.dbgctl &&& 1)
    watchLo := vget s.mgmt.mbarg 5 0, watchHi := vget s.mgmt.mbarg 6 0 }
  have hw := congrArg Vat.dbgctl hv
  obtain ⟨hz, hk⟩ := dbgctl_write (vget s.mgmt.mbarg 1 0) (s.vat (s.mbArg 0)).dbgctl
  refine ⟨_, event_some (debug_eq hb hn hc hd (if_neg (by omega))), rfl, congrArg Vat.watchLo hv, congrArg Vat.watchHi hv,
    (congrArg (·.getLsbD 0) hw).trans hz, fun k h9 h64 => (congrArg (·.getLsbD k) hw).trans (hk k h9 h64)⟩

variable {th : Thread} (hth : s.mbThread = some th) (hr : s.retained (s.mbArg 1) 2 = false)
include hth hr

theorem dbgstep_follows (hc : fld s.mgmt.mbcmd 0 16 = 0x12) (hh : th.halted = true) (h1 : 1 ≤ s.mbArg 3) (h2 : s.mbArg 3 ≤ 65535) :
    ∃ t, exec .dbgstep s = .next t ∧ t.mgmt.mbdone = some 0 ∧ (t.thread (s.mbArg 1) (s.mbArg 2)).steps = s.mbArg 3 := by
  have hx : ¬(!th.halted || decide (s.mbArg 3 = 0) || decide (65535 < s.mbArg 3)) = true := by
    simp only [hh, Bool.not_true, Bool.false_or, Bool.or_eq_true, decide_eq_true_eq]
    omega
  refine ⟨_, event_some (debugCore_eq hb hn hc hd hr (st := 0)
    (t := s.modThread (s.mbArg 1) (s.mbArg 2) fun t => { t with steps := s.mbArg 3 }) ?_), rfl, ?_⟩
  · rw [hth]
    exact if_neg hx
  · exact congrArg Thread.steps (thread_setThread_same _ _ _ _)

theorem dbgread_follows (hc : fld s.mgmt.mbcmd 0 16 = 0x13) (h3 : s.mbArg 3 < 24) :
    ∃ t, exec .dbgread s = .next t ∧ t.mgmt.mbdone = some 0 ∧ t.getWindow 0 8 = bytesOf (th.getG (s.mbArg 3)).toNat 8 ∧
      t.threads = s.threads := by
  refine ⟨_, event_some (debugCore_eq hb hn hc hd hr (st := 0) (t := s.putWindow 0 (bytesOf (th.getG (s.mbArg 3)).toNat 8)) ?_), rfl,
    getWindow_putWindow s 0 (bytesOf_length _ _), rfl⟩
  rw [hth]
  dsimp only
  rw [selectRead_g _ _ h3]
  rfl

theorem dbgwrite_follows (hc : fld s.mgmt.mbcmd 0 16 = 0x14) (h3 : s.mbArg 3 < 23) :
    ∃ t, exec .dbgwrite s = .next t ∧ t.mgmt.mbdone = some 0 ∧
      (t.thread (s.mbArg 1) (s.mbArg 2)).getG (s.mbArg 3) = word (ofBytes (s.getWindow 0 8)) := by
  refine ⟨_, event_some (debugCore_eq hb hn hc hd hr (st := 0) (t := s.modThread (s.mbArg 1) (s.mbArg 2) fun t =>
    t.writeReg (t.destG (BitVec.ofNat 5 (s.mbArg 3)) (word (ofBytes (s.getWindow 0 8))))) ?_), rfl, ?_⟩
  · rw [hth]
    dsimp only
    rw [selectWrite_g _ _ _ (by omega)]
    rfl
  · exact (congrArg (Thread.getG · _) (thread_setThread_same _ _ _ _)).trans (getG_writeReg_destG _ h3 _)

end

theorem breakpointHalt_follows (core slot : Nat) (s : State) (hd : s.mgmt.dbgen = true) (hc : (s.thread core slot).ref.crew ≠ 0)
    (hb : (s.vat (vatOf core)).dbgctl.getLsbD 18 = true ∨ (s.vat (vatOf core)).dbgctl.getLsbD 9 = true) :
    ∃ t, exec (.breakpointHalt core slot) s = .next t ∧ (t.vat (vatOf core)).dbgctl.getLsbD 0 = true ∧
      (t.vat (vatOf core)).halted.contains (s.ctxOf (s.thread core slot).ref.crew) = true ∧ t.mem = s.mem := by
  have hx : (s.mgmt.dbgen && decide ((s.thread core slot).ref.crew ≠ 0) &&
      (bit (s.vat (vatOf core)).dbgctl 18 || bit (s.vat (vatOf core)).dbgctl 9)) = true := by
    simpa [hd, hc, bit] using hb
  obtain ⟨hh, hg⟩ := haltGroup_halts s (s.ctxOf (s.thread core slot).ref.crew) (vatOf core)
  exact ⟨_, event_some (if_pos hx), hg, hh, haltGroup_mem s _ _⟩

/-- Settles O50, command by command. -/
theorem mailboxCommands : Obligations.MailboxCommands := by
  refine ⟨mailboxDone_follows, fun s hb hn => ⟨attest_follows hb hn, bbread_follows hb hn, fwstage_follows hb hn, fwactivate_follows hb hn,
    sensrd_follows hb hn, debug_refused hb hn, fun hd => ⟨dbghalt_follows hb hn hd, dbgresume_follows hb hn hd, fun th hth hr =>
      ⟨dbgstep_follows hb hn hd hth hr, dbgread_follows hb hn hd hth hr, dbgwrite_follows hb hn hd hth hr⟩⟩, dbgcfg_follows hb hn⟩,
    breakpointHalt_follows⟩

end Sys2Proof.Machine
end

