-- ==== Sys2Proof/Proofs/ItemsAndRetirement.lean ====
section
/-! SUPPORT. Items, end-of-stream tokens and the retirement of graphs (O55; R115 to R119, R122). -/

namespace Sys2Proof.Machine

/-! ## Graph queues -/

theorem setNth_eq_set {α : Type} (l : List α) (i : Nat) (x : α) : setNth l i x = l.set i x := by
  induction l generalizing i with
  | nil => rfl
  | cons a r ih =>
    cases i with
    | zero => rfl
    | succ i => exact congrArg (a :: ·) (ih i)

theorem gqueue?_eq_some {s : State} {gid q : Nat} {x : GQueue} :
    s.gqueue? gid q = some x ↔ ∃ g, s.graph? gid = some g ∧ g.queues[q]? = some x := by
  unfold State.gqueue?
  cases s.graph? gid <;> simp

theorem gqueue?_modGQueue_same {s : State} {gid q : Nat} {x : GQueue} (h : s.gqueue? gid q = some x) (f : GQueue → GQueue) :
    (s.modGQueue gid q f).gqueue? gid q = some (f x) := by
  obtain ⟨g, hg, hq⟩ := gqueue?_eq_some.mp h
  refine gqueue?_eq_some.mpr ⟨_, (graph?_modGraph_same _ _ _).trans (congrArg _ hg), ?_⟩
  dsimp only
  rw [hq]
  dsimp only
  rw [setNth_eq_set, List.getElem?_set_self (List.getElem?_eq_some_iff.mp hq).1]

/-- A change of a graph that leaves its queues alone. -/
theorem gqueue?_modGraph {s : State} {gid q : Nat} {x : GQueue} (h : s.gqueue? gid q = some x) {f : Graph → Graph}
    (hf : ∀ g, (f g).queues = g.queues) : (s.modGraph gid f).gqueue? gid q = some x := by
  obtain ⟨g, hg, hq⟩ := gqueue?_eq_some.mp h
  exact gqueue?_eq_some.mpr ⟨f g, (graph?_modGraph_same _ _ _).trans (congrArg _ hg), (hf g).symm ▸ hq⟩

theorem writeQHeader_memOnly (s : State) (gid q : Nat) : MemOnly s (writeQHeader s gid q) := by
  unfold writeQHeader
  split
  · exact setBytes_memOnly _ _ _
  · exact .refl s

theorem MemOnly.thread_eq {s t : State} (h : MemOnly s t) (core slot : Nat) : t.thread core slot = s.thread core slot := by
  rw [State.thread, h.threads_eq]; rfl

theorem MemOnly.gqueue?_eq {s t : State} (h : MemOnly s t) (gid q : Nat) : t.gqueue? gid q = s.gqueue? gid q := by
  obtain ⟨_, rfl⟩ := h; rfl

/-! ## What a thread receives (R116) -/

theorem giveItem_g (t : Thread) (ws : List Word) (a b : Word) : (t.giveItem ws a b).g = Vector.ofFn fun i : Fin 23 =>
    if i.val < 8 then ws.getD i.val 0 else if i.val = 8 then a else if i.val = 9 then b else vget t.g i.val 0 := by
  unfold Thread.giveItem Thread.release
  dsimp only
  split
  · split <;> rfl
  · rfl

theorem giveItem_full (t : Thread) (ws : List Word) (a b : Word) : (t.giveItem ws a b).full = t.full ||| 0x3FF#47 := by
  unfold Thread.giveItem Thread.release
  dsimp only
  split
  · split <;> rfl
  · rfl

/-- Specifiers below 10 are g0 to g9, in a notify handler too. -/
theorem getG_of_lt_ten (t : Thread) {k : Nat} (h : k < 10) : t.getG k = vget t.g k 0 := by
  rw [Thread.getG, if_neg (by omega), if_neg]
  simp only [Thread.isY, Bool.and_eq_true, decide_eq_true_eq]
  omega

theorem giveItem_getG (t : Thread) (ws : List Word) (a b : Word) {k : Nat} (h : k < 10) : (t.giveItem ws a b).getG k =
    if k < 8 then ws.getD k 0 else if k = 8 then a else if k = 9 then b else vget t.g k 0 := by
  rw [getG_of_lt_ten _ h, giveItem_g, vget_ofFn _ _ (by omega)]

theorem getLsbD_low_ten {k : Nat} (h : k < 10) : (0x3FF#47).getLsbD k = true := by
  revert h; revert k; decide

theorem giveItem_follows (t : Thread) (ws : List Word) (a b : Word) : let u := t.giveItem ws a b
    (∀ k, k < 8 → u.getG k = ws.getD k 0) ∧ u.getG 8 = a ∧ u.getG 9 = b ∧ (∀ k, k < 10 → u.full.getLsbD k = true) := by
  refine ⟨fun k hk => ?_, giveItem_getG _ _ _ _ (by decide), giveItem_getG _ _ _ _ (by decide), fun k hk => ?_⟩
  · rw [giveItem_getG _ _ _ _ (by omega), if_pos hk]
  · rw [giveItem_full, BitVec.getLsbD_or, getLsbD_low_ten hk, Bool.or_true]

/-! ## The dispensers (R116 to R119) -/

/-- ITEM_DISPENSE has given the oldest item of queue q to the thread of a slot, the k-th in the order of its task. -/
def State.itemGiven (s : State) (gid task q k core p : Nat) (x : GQueue) : State :=
  (writeQHeader ((s.modGQueue gid q fun x => { x with items := x.items.drop 1, dispensed := x.dispensed + 1 }).modGraph gid fun g =>
    { g with lastQ := Tbl.ins g.lastQ task q, lastTo := Tbl.ins g.lastTo task k }) gid q).modThread core p fun t =>
      t.giveItem (x.items.headD []) (word (q + x.len * 2 ^ 16)) 0

theorem itemGiven_thread (s : State) (gid task q k core p : Nat) (x : GQueue) : (s.itemGiven gid task q k core p x).thread core p =
    (s.thread core p).giveItem (x.items.headD []) (word (q + x.len * 2 ^ 16)) 0 :=
  (thread_setThread_same _ _ _ _).trans (congrArg (Thread.giveItem · _ _ _) ((writeQHeader_memOnly _ gid q).thread_eq core p))

theorem itemGiven_gqueue? {s : State} {gid q : Nat} {x : GQueue} (hx : s.gqueue? gid q = some x) (task k core p : Nat) :
    (s.itemGiven gid task q k core p x).gqueue? gid q = some { x with items := x.items.drop 1, dispensed := x.dispensed + 1 } :=
  ((writeQHeader_memOnly _ gid q).gqueue?_eq gid q).trans (gqueue?_modGraph (gqueue?_modGQueue_same hx _) fun _ => rfl)

theorem itemDispense_follows {gid task n q k core p : Nat} {s : State} {g : Graph} {c : Crew} {x : GQueue} (hg : s.graph? gid = some g)
    (hc : itemCrew s g task = some (n, c))
    (hq : nextAfter id (Tbl.find g.lastQ task) ((span 0 g.queues.length).filter fun q => match g.queues[q]? with
      | some x => decide (x.consumer = task) && !x.items.isEmpty | none => false) = some q)
    (ht : nextAfter (·.1) (Tbl.find g.lastTo task) ((workerSlots s n c).filter fun x => (s.thread x.2.1 x.2.2).wantsItem) =
      some (k, core, p))
    (hx : s.gqueue? gid q = some x) :
    ∃ t, exec (.itemDispense gid task) s = .next t ∧
      t.thread core p = (s.thread core p).giveItem (x.items.headD []) (word (q + x.len * 2 ^ 16)) 0 ∧
      t.gqueue? gid q = some { x with items := x.items.drop 1, dispensed := x.dispensed + 1 } := by
  have hgiven : itemDispense gid task s = some (s.itemGiven gid task q k core p x) := by
    unfold itemDispense
    rw [hg]
    dsimp only
    rw [hc]
    dsimp only
    split
    · next q' k' core' p' hq' ht' =>
      cases hq'.symm.trans hq
      cases ht'.symm.trans ht
      rw [hx]
      rfl
    · next hnone => exact (hnone q k core p hq ht).elim
  exact ⟨_, event_some hgiven, itemGiven_thread s gid task q k core p x, itemGiven_gqueue? hx task k core p⟩

theorem eosDispense_follows {gid q core slot n : Nat} {s : State} {g : Graph} {c : Crew} {x : GQueue} (hg : s.graph? gid = some g)
    (hx : s.gqueue? gid q = some x) (hc : itemCrew s g x.consumer = some (n, c)) (he : x.eos = true) (hi : x.items = [])
    (hn : (s.thread core slot).ref.crew = n) (hl : (s.thread core slot).ref.lslot < 7) (hw : (s.thread core slot).wantsItem = true)
    (ht : (s.thread core slot).tokenName ∉ x.eosTo) :
    ∃ t, exec (.eosDispense gid q core slot) s = .next t ∧
      t.thread core slot = (s.thread core slot).giveItem [] (word q) 1 ∧
      t.gqueue? gid q = some { x with eosTo := (s.thread core slot).tokenName :: x.eosTo } ∧ t.mem = s.mem := by
  have hgiven : eosDispense gid q core slot s =
      some ((s.modGQueue gid q fun x => { x with eosTo := (s.thread core slot).tokenName :: x.eosTo }).modThread core slot fun t =>
        t.giveItem [] (word q) 1) := by
    unfold eosDispense
    rw [hg, hx]
    dsimp only
    rw [hc]
    exact if_pos (by simp [he, hi, hn, hl, hw, ht])
  refine ⟨_, event_some hgiven, thread_setThread_same _ _ _ _, ?_, rfl⟩
  exact gqueue?_modGQueue_same hx fun x => { x with eosTo := (s.thread core slot).tokenName :: x.eosTo }

/-! ## The end of a graph (R122) -/

theorem freeCrew_gone (s : State) (n : Nat) : (freeCrew s n).crew? n = none := by
  unfold freeCrew
  split
  · assumption
  · exact (Tbl.find_del _ _ _).trans (if_pos rfl)

/-- Freeing a crew brings none back. -/
theorem freeCrew_keeps_gone {s : State} {k : Nat} (h : s.crew? k = none) (n : Nat) : (freeCrew s n).crew? k = none := by
  have hcrews (c : Crew) : ((s.dropAgents n).clearPresses c).crews = (s.dropAgents n).crews :=
    foldl_keeps State.crews (f := fun s k => { s with presses := Tbl.del s.presses (c.physPress k) }) (fun _ _ => rfl) c.pressList _
  have hagents : Tbl.find (s.dropAgents n).crews k = none := by
    unfold State.dropAgents
    dsimp only
    rw [Tbl.find_map fun e => by split <;> rfl]
    exact congrArg (Option.map _) h
  unfold freeCrew
  split
  · exact h
  · next c _ =>
    refine (Tbl.find_del _ _ _).trans ?_
    split
    · rfl
    · show Tbl.find (State.crews (if c.state.holds = true then (s.dropAgents n).clearPresses c else s.dropAgents n)) k = none
      split
      · rw [hcrews, hagents]
      · exact hagents

theorem freeCrews_gone {l : List Nat} {n : Nat} (h : n ∈ l) (s : State) : (l.foldl freeCrew s).crew? n = none :=
  foldl_establishes (P := fun u => u.crew? n = none) (fun _ k hk => freeCrew_keeps_gone hk k) (fun u => freeCrew_gone u n) h s

/-- The end of a graph removes it and its crews. -/
theorem endGraph_removes {s : State} {gid : Nat} {g : Graph} (h : s.graph? gid = some g) (status detail : Nat) :
    (endGraph s gid status detail).graph? gid = none ∧ ∀ n ∈ g.crews, (endGraph s gid status detail).crew? n = none := by
  have hfiled : Filed { g.crews.foldl freeCrew s with graphs := Tbl.del (g.crews.foldl freeCrew s).graphs gid }
      (endGraph s gid status detail) := by
    unfold endGraph
    rw [h]
    exact (complete_filed _ _ _ _ _ _ _ _ _ _).trans (linkGraphs_memOnly _ _).filed
  refine ⟨?_, fun n hn => ?_⟩
  · rw [hfiled.graph]
    exact (Tbl.find_del _ _ _).trans (if_pos rfl)
  · rw [hfiled.crew]
    exact freeCrews_gone hn s

theorem profPut_graphs (s : State) (ctx : Nat) (bs : List Byte) : (profPut s ctx bs).graphs = s.graphs := by rw [(profPut_eq _ _ _).1]

theorem spillCore_graphs (ctx : Nat) (s : State) (core : Nat) : (spillCore ctx s core).graphs = s.graphs := by
  unfold spillCore
  rw [modHub_graphs, profPut_graphs]
  exact foldl_keeps State.graphs (fun s _ => profPut_graphs s _ _) _ s

theorem profSpill_graphs (s : State) (ctx : Nat) : (profSpill s ctx).graphs = s.graphs := by
  unfold profSpill
  split
  · rfl
  · split
    · rfl
    · exact (foldl_keeps State.graphs (spillCore_graphs ctx) _ _).trans (foldl_keeps State.graphs (fun s _ => profPut_graphs s _ _) _ _)

theorem graphRetire_follows {gid : Nat} {s : State} {g : Graph} (hg : s.graph? gid = some g) (hr : mayRetire s g = true) :
    ∃ t, exec (.graphRetire gid) s = .next t ∧ t.graph? gid = none ∧ (∀ n ∈ g.crews, t.crew? n = none) ∧
      t = endGraph (profSpill s g.ctx) gid (if g.err then 0x0A else 0) (s.devtime - g.start) := by
  have hspill : (profSpill s g.ctx).graph? gid = some g := by rw [State.graph?, profSpill_graphs]; exact hg
  obtain ⟨hgone, hcrews⟩ := endGraph_removes hspill (if g.err then 0x0A else 0) (s.devtime - g.start)
  refine ⟨_, event_some ?_, hgone, hcrews, rfl⟩
  unfold graphRetire
  rw [hg]
  exact if_pos hr

/-- Settles O55, dispenser by dispenser, and then the end of the graph. -/
theorem itemsAndRetirement : Obligations.ItemsAndRetirement :=
  ⟨fun _ _ _ _ _ _ _ _ _ _ _ => itemDispense_follows, fun _ _ _ _ _ _ _ _ _ => eosDispense_follows, giveItem_follows,
    fun _ _ _ => graphRetire_follows⟩

end Sys2Proof.Machine
end

