-- ==== Sys2Proof/Proofs/RelocationHalts.lean ====
section
/-! SUPPORT. Where the vat table lists a vat twice, the save of a relocation uncovers the second entry (R98, R114, R130), and the refutation
of O54. -/

namespace Sys2Proof.Machine

/-- The parked crew of `vatListedTwice`: of context 1, on core 0, marked for relocation. -/
def markedCrew : Crew :=
  { newCrew State.reset 0 0 1 0 ⟨1, 1, 7, false, 0, 0, 0, 0⟩ 0 with state := .parked, started := true, relocMark := true }

/-- A state outside the canonical form: the vat table lists vat 0 twice. Its first entry, which every read of vat 0 finds, is that of a reset
vat; in its second context 1 is halted. -/
def vatListedTwice : State :=
  { State.reset with
    vats := [(0, State.vat0), (0, { State.vat0 with halted := [1] })]
    crews := [(1, markedCrew)] }

theorem vatListedTwice_halted (v : Nat) : (vatListedTwice.vat v).halted = [] := by
  by_cases hv : v = 0
  · subst hv; rfl
  · simp [State.vat, vatListedTwice, Tbl.get, Tbl.find, hv, State.vat0]

/-- A saved crew with its new rectangle, as RELOCATION goes on from it. -/
def State.movedTo (u : State) (n : Nat) (c : Crew) (r k : Nat) : State :=
  (flushSlices u ((span 0 c.n).map c.phys)).modCrew n fun c => { c with prow := r, pcol := k, relocMark := false }

/-- A save from which the crew of `vatListedTwice` goes on at core 1, its class not shed, and is halted there. -/
def goesOnHalted (u : State) : Bool :=
  let v := u.movedTo 1 markedCrew 0 1
  !v.shedClass markedCrew.cls && (resumeCrew v 1).any fun w => (w.crew? 1).any fun x => decide (x.state = .halted)

theorem goesOnHalted_iff {u : State} : goesOnHalted u = true ↔
    (u.movedTo 1 markedCrew 0 1).shedClass markedCrew.cls = false ∧
    ∃ w x, resumeCrew (u.movedTo 1 markedCrew 0 1) 1 = some w ∧ w.crew? 1 = some x ∧ x.state = .halted := by
  simp [goesOnHalted, Option.any_eq_true]

theorem coolestRect_vatListedTwice : coolestRect vatListedTwice 1 markedCrew = some (0, 1) := by decide +kernel

/-- The save drops the first entry of vat 0, which is no different from a missing one, and the second shows. -/
theorem saveCrew_vatListedTwice : (saveCrew vatListedTwice 1 .reloc true).any goesOnHalted = true := by decide +kernel

/-- Refutes O54 in its clause about RELOCATION, which is stated for every state, the ones whose vat table lists a vat twice included: in
`vatListedTwice` no vat is halted for the crew's context, and the crew is halted in its new rectangle and does not run. -/
theorem not_crewsMove : ¬ Obligations.CrewsMove := by
  unfold Obligations.CrewsMove
  rintro ⟨-, -, -, -, -, -, -, -, -, -, hreloc, -⟩
  obtain ⟨u, hu, hgo⟩ := (Option.any_eq_true _ _).mp saveCrew_vatListedTwice
  obtain ⟨hshed, w, x, hw, hx, hhalted⟩ := goesOnHalted_iff.mp hgo
  obtain ⟨-, y, hy, -, -, -, -, -, hstate⟩ := hreloc 1 0 1 vatListedTwice u w markedCrew rfl rfl rfl
    (fun v => by rw [vatListedTwice_halted]; exact List.not_mem_nil) rfl coolestRect_vatListedTwice hu
    ((if_neg (by rw [Bool.not_eq_true]; exact hshed)).trans hw)
  have hrun : y.state = .run := hstate.trans (if_neg (by rw [Bool.not_eq_true]; exact hshed))
  rw [hx] at hy
  cases hy
  rw [hhalted] at hrun
  cases hrun

end Sys2Proof.Machine
end

