-- ==== Sys2Proof/Proofs/CounterRoot.lean ====
section
/-! SUPPORT. Where a context's page-table root lies in counter space, a read that counts changes what the next walk finds (R177, R195, R459),
and the refutation of O57. -/

namespace Sys2Proof.Machine

/-- An indexed write stream of one element of one byte: BASE 0x1000, its index entry at 0, of one byte. The page of the index entry is
latched, as SBIND leaves it, that of the element is not; its one element is in flight. -/
def looseWrite : StreamBind :=
  ⟨0x1000 ||| 1 <<< 52 ||| 1 <<< 53 ||| 1 <<< 64 ||| 1 <<< 96, 1, true, false, [⟨0, 0, 0⟩], none, 1, [(0, 0, 0)], false, false⟩

/-- A state that no run reaches, since CREATE takes a root in device DRAM alone: the root of context 0 is counter 0, which counts the reads of
core 0's slice. As it stands it reads as a pointer to the table at 0x2000, which maps the first GiB; one more read makes it an entry that is
not valid. The thread of core 0, slot 0 has bound `looseWrite` to its first stream register. -/
def counterRoot : State :=
  { State.reset with
    mem := [(0x2000, 0x1F)]
    counters := [(0, 0x2001)]
    threads := [(0, { State.thread0 with occ := true, streams := (Vector.replicate 4 StreamBind.none).set 0 looseWrite })]
    ctxs := [(0, newCtx State.reset 0 0x7000000000 0x400000 0x100000 false 0 0)] }

/-- The element of `looseWrite` has its place, and after the read of its index entry a write there would fault. -/
def faultsLater (s : State) : Bool :=
  match streamPlace s looseWrite 0 with
  | .ok u va => (writeFault u looseWrite va).isSome
  | _ => false

theorem faultsLater_iff {s : State} : faultsLater s = true ↔
    ∃ u va c a, streamPlace s looseWrite 0 = .ok u va ∧ writeFault u looseWrite va = some (c, a) := by
  unfold faultsLater
  cases streamPlace s looseWrite 0 <;> simp [Option.isSome_iff_exists]

theorem looseWrite_isWrite : looseWrite.isWrite = true := by simp [StreamBind.isWrite, looseWrite, bit]

theorem looseWrite_tben : looseWrite.tben = false := by simp [StreamBind.tben, looseWrite, bit]

theorem faultsLater_counterRoot : faultsLater counterRoot = true := by decide +kernel

/-- Before that read it would not, so that no failure of the element can happen. -/
theorem streamElementLand_counterRoot : streamElementLand 0 0 0 false counterRoot = none := by decide +kernel

/-- Refutes O57 in its clause about the failure of a write stream's element, which is stated for every state, the ones whose page tables are
counters included: in `counterRoot` a write at the element's place would fault by the tables as the read of its index entry has left them,
and not by the tables as they are, so that the stream does not stop. -/
theorem not_curdsAndStreams : ¬ Obligations.CurdsAndStreams := by
  unfold Obligations.CurdsAndStreams
  rintro ⟨-, -, -, -, -, hland⟩
  obtain ⟨u, va, c, a, hplace, hfault⟩ := faultsLater_iff.mp faultsLater_counterRoot
  obtain ⟨-, hstops⟩ := hland 0 0 0 counterRoot u counterRoot va ⟨0, 0, 0⟩ [] rfl rfl rfl looseWrite_isWrite rfl hplace
  obtain ⟨t, ht, hstopped, -⟩ := hstops c a hfault looseWrite_tben rfl
  have hsame : exec (.streamElementLand 0 0 0 false) counterRoot = .next counterRoot :=
    congrArg (event counterRoot) streamElementLand_counterRoot
  rw [hsame] at ht
  cases ht
  cases hstopped

end Sys2Proof.Machine
end

