-- ==== Sys2Proof/Proofs/IssueStops.lean ====
section
/-! SUPPORT. How an issue is stopped at its operands and at its debit (R143, R149, R153), and O7. -/

namespace Sys2Proof.Machine

/-! ## The debit (R143) -/

/-- A debit above ECAP. -/
theorem debit_of_ecap_lt {s : State} {d : Nat} (h : fld s.me.csr.ecap 0 40 < d) : debit s d = .error (.trap 11 EBIG 0 (word d) none) :=
  if_pos h

/-- A debit that ECAP allows and the balance does not cover. -/
theorem debit_of_ebud_lt {s : State} {d : Nat} (hcap : d ≤ fld s.me.csr.ecap 0 40) (hbud : fld s.me.csr.ebud 0 40 < d) :
    debit s d = .error (.park .budget 0) :=
  (if_neg (Nat.not_lt.mpr hcap)).trans (if_pos hbud)

/-- The pops of the sources leave the limits of the debit as they were. -/
theorem debit_error_of_readsOnly {s s' : State} {d : Nat} {st : Stop} (hr : ReadsOnly s s') (h : debit s d = .error st) :
    debit s' d = .error st := by
  unfold debit at h ⊢
  rw [hr.csr]
  split
  · next hcap => rwa [if_pos hcap] at h
  · next hcap =>
    rw [if_neg hcap] at h
    split
    · next hbud => rwa [if_pos hbud] at h
    · next hbud => rw [if_neg hbud] at h; cases h

/-! ## An empty source (R153) -/

/-- Without CSB, a register that is not ready is waited for, whatever produces it. -/
theorem regStop_of_empty {t : Thread} (hcsb : t.csr.tstat.getLsbD 3 = false) (w : RegWrite) (spec : Nat) :
    t.regStop w false spec = some (.park .reg 0) := by
  rw [Thread.regStop, bit, hcsb]
  rfl

theorem gStop_of_empty {t : Thread} {r : Nat} (hr : r < 23) (hy : t.isY r = false) (hfull : t.isFull r = false)
    (hcsb : t.csr.tstat.getLsbD 3 = false) : t.gStop r = some (.park .reg 0) := by
  rw [Thread.gStop, if_neg (Nat.not_le.mpr hr), if_neg (by simp [hy]), hfull, regStop_of_empty hcsb]

/-- The first source decides: its stop comes before anything is read. -/
theorem gather_of_head_gate {b : Body} {s : State} {x : Src} {st : Stop} (hx : b.srcs.head? = some x) (hst : Src.gate s x = some st) :
    b.gather s = .error st := by
  obtain ⟨rest, hsrcs⟩ := List.head?_eq_some_iff.mp hx
  have hfirst : firstStop (Src.gate s) b.srcs = some st := by rw [hsrcs, firstStop, hst]
  have hread : b.readOps s = .error st := by rw [Body.readOps, hfirst]
  rw [Body.gather, hread]

theorem gather_of_empty_source {b : Body} {s : State} {r : BitVec 5} (hsrc : b.srcs.head? = some (.a r)) (hr : r.toNat < 23)
    (hy : s.me.isY r.toNat = false) (hfull : s.me.isFull r.toNat = false) (hcsb : s.me.csr.tstat.getLsbD 3 = false) :
    b.gather s = .error (.park .reg 0) :=
  gather_of_head_gate hsrc ((if_neg (by omega)).trans (gStop_of_empty hr hy hfull hcsb))

/-! ## The stop of an instruction that passes steps 4 to 7 with its guard true -/

/-- A stop acts on the state before any pop (R149, R300). -/
theorem exec_of_accept_error {i : Instr} {b : Body} {s : State} {st : Stop} (hb : bodyOf i = some b) (h : b.accept s = .error st) :
    exec i s = .next (stopMe s st false) := by
  rw [exec_of_body hb]
  simp only [issue, h]

section Stops

variable {i : Instr} {b : Body} {s s' : State} {o : Ops} {st : Stop}
variable (hb : bodyOf i = some b) (hearly : b.early s = none) (hguard : s.me.pStop b.h.g = none) (hon : s.me.getP b.h.g.toNat ≠ b.h.n)

include hb hearly hguard hon

theorem exec_of_gather_error (h : b.gather s = .error st) : exec i s = .next (stopMe s st false) := by
  refine exec_of_accept_error hb ?_
  simp [Body.accept, Body.guard, hearly, hguard, hon, h]

theorem exec_of_debit_error (hg : b.gather s = .ok (o, s')) (h : debit s (b.cost o s) = .error st) :
    exec i s = .next (stopMe s st false) := by
  refine exec_of_accept_error hb ?_
  simp [Body.accept, Body.guard, hearly, hguard, hon, hg, debit_error_of_readsOnly (gather_only hg) h]

end Stops

/-- Settles O7: the debit meets the same limits after the pops as before them, each stop acts on the state before the pops, and parking
keeps the thread's registers. -/
theorem issueStops : Obligations.IssueStops := by
  unfold Obligations.IssueStops
  refine ⟨?debit, ?source⟩
  case debit =>
    intro i b s s' o hb hearly hguard hon hg
    refine ⟨fun hcap => ?_, fun hcap hbud => ?_⟩
    · exact exec_of_debit_error hb hearly hguard hon hg (debit_of_ecap_lt hcap)
    · exact ⟨_, exec_of_debit_error hb hearly hguard hon hg (debit_of_ebud_lt hcap hbud), parkMe_keeps s .budget 0 [] none⟩
  case source =>
    intro i b s r hb hearly hguard hon hsrc hr hy hfull hcsb
    obtain ⟨hwhy, hpc, hregs, hfulls, -, hmem⟩ := parkMe_keeps s .reg 0 [] none
    exact ⟨_, exec_of_gather_error hb hearly hguard hon (gather_of_empty_source hsrc hr hy hfull hcsb), hwhy, hpc, hregs, hfulls, hmem⟩

end Sys2Proof.Machine
end

