-- ==== Sys2Proof/Proofs/Registers.lean ====
section
/-! SUPPORT. Registers, their full bits and results on their way to them (R152 to R156, R252): O42 and O5. -/

namespace Sys2Proof.Machine

/-! ## Single bits -/

/-- Replacing one bit leaves the others. -/
theorem getLsbD_setFld_bit_ne {w : Nat} (v : BitVec w) {i k : Nat} (h : k ≠ i) (x : Nat) :
    (setFld v i 1 x).getLsbD k = v.getLsbD k := by
  have hbit (n : Nat) (hn : n < 2) : (BitVec.ofNat w n <<< i).getLsbD k = false := by
    rw [BitVec.getLsbD_shiftLeft, BitVec.getLsbD_ofNat]
    rcases Nat.lt_or_ge k i with hlt | hge
    · simp [hlt]
    · have hhigh : n.testBit (k - i) = false :=
        Nat.testBit_lt_two_pow (Nat.lt_of_lt_of_le hn (Nat.le_self_pow (by omega) 2))
      simp [hhigh]
  have hkeep : (v &&& ~~~(BitVec.ofNat w (2 ^ 1 - 1) <<< i)).getLsbD k = v.getLsbD k := by
    rw [BitVec.getLsbD_and, BitVec.getLsbD_not, hbit _ (by decide)]
    rcases Nat.lt_or_ge k w with hlt | hge
    · simp [hlt]
    · simp [BitVec.getLsbD_of_ge v k hge]
  rw [setFld, BitVec.getLsbD_or, hkeep, hbit (x % 2 ^ 1) (Nat.mod_lt x (by decide)), Bool.or_false]

theorem vget_setIfInBounds_ne {α : Type} {n i k : Nat} (v : Vector α n) (h : k ≠ i) (x d : α) :
    vget (v.setIfInBounds i x) k d = vget v k d := by
  simp [vget, Ne.symm h]

/-! ## The registers with fixed values (R156) -/

theorem isY_of_ge {t : Thread} {k : Nat} (h : 14 ≤ k) : t.isY k = false := by
  refine Bool.eq_false_iff.mpr fun hy => ?_
  obtain ⟨_, h13⟩ := isY_bounds hy
  omega

theorem isY_of_outside {t : Thread} (h : t.notify = false) (k : Nat) : t.isY k = false := by simp [Thread.isY, h]

theorem getG_of_ge (t : Thread) {k : Nat} (h : 23 ≤ k) : t.getG k = 0 := if_pos h

theorem getG_outside {t : Thread} (h : t.notify = false) {k : Nat} (hk : k < 23) : t.getG k = vget t.g k 0 := by
  rw [Thread.getG, if_neg (by omega), isY_of_outside h]
  rfl

theorem destG_of_not_isY {t : Thread} {r : BitVec 5} (h : t.isY r.toNat = false) (v : Word) : t.destG r v = .g r v := by
  rw [Thread.destG, h]
  rfl

theorem destG_of_isY {t : Thread} {r : BitVec 5} (h : t.isY r.toNat = true) (v : Word) :
    t.destG r v = .y (BitVec.ofNat 2 (r.toNat - 10)) v := if_pos h

/-- A write to z is discarded. -/
theorem writeReg_z (t : Thread) {r : BitVec 5} (h : 23 ≤ r.toNat) (v : Word) : t.writeReg (.g r v) = t := if_pos h

/-- A write through a general specifier outside a handler is of a register of its own, and y0 to y3 stay. -/
theorem writeReg_g_y (t : Thread) (r : BitVec 5) (v : Word) : (t.writeReg (.g r v)).y = t.y := by
  unfold Thread.writeReg
  dsimp only
  split <;> rfl

theorem predWord_zero (t : Thread) : t.predWord.getLsbD 0 = true := by simp [Thread.predWord]

/-- Settles O42. -/
theorem constantRegisters : Obligations.ConstantRegisters := by
  unfold Obligations.ConstantRegisters
  refine ⟨?reads, ?discards, ?outside, ?perSlot⟩
  case reads => exact fun t => ⟨rfl, rfl, predWord_zero t, rfl, rfl, rfl, rfl⟩
  case discards => exact fun t v m p => ⟨rfl, rfl, rfl⟩
  case outside =>
    intro t r v hn hr
    have hdest : t.destG r v = .g r v := destG_of_not_isY (isY_of_outside hn _) v
    exact ⟨getG_outside hn hr, hdest, hdest ▸ writeReg_g_y t r v⟩
  case perSlot =>
    intro s c k c' k' t h
    rw [thread_setThread, if_neg (Ne.symm h)]

/-! ## A register is written, or becomes empty -/

/-- What a write of a register can change. -/
theorem writeReg_eq (t : Thread) (w : RegWrite) : ∃ g v m full pred y yfull,
    t.writeReg w = { t with g := g, v := v, m := m, full := full, pred := pred, y := y, yfull := yfull } := by
  cases w with
  | v r x | y r x => exact ⟨_, _, _, _, _, _, _, rfl⟩
  | g r x | m r x | p r x =>
    dsimp only [Thread.writeReg, Thread.setFull]
    split <;> exact ⟨_, _, _, _, _, _, _, rfl⟩

/-- What becoming empty can change. -/
theorem emptyReg_eq (t : Thread) (w : RegWrite) : ∃ full yfull, t.emptyReg w = { t with full := full, yfull := yfull } := by
  cases w with
  | v r x | y r x | p r x => exact ⟨_, _, rfl⟩
  | g r x | m r x =>
    dsimp only [Thread.emptyReg, Thread.setFull]
    split <;> exact ⟨_, _, rfl⟩

@[simp] theorem writeReg_csr (t : Thread) (w : RegWrite) : (t.writeReg w).csr = t.csr := by
  obtain ⟨_, _, _, _, _, _, _, h⟩ := writeReg_eq t w
  rw [h]

@[simp] theorem writeReg_isY (t : Thread) (w : RegWrite) (k : Nat) : (t.writeReg w).isY k = t.isY k := by
  obtain ⟨_, _, _, _, _, _, _, h⟩ := writeReg_eq t w
  rw [h]
  rfl

@[simp] theorem emptyReg_csr (t : Thread) (w : RegWrite) : (t.emptyReg w).csr = t.csr := by
  obtain ⟨_, _, h⟩ := emptyReg_eq t w
  rw [h]

@[simp] theorem emptyReg_registers (t : Thread) (w : RegWrite) : (t.emptyReg w).registers = t.registers := by
  obtain ⟨_, _, h⟩ := emptyReg_eq t w
  rw [h]
  rfl

@[simp] theorem emptyReg_pend (t : Thread) (w : RegWrite) : (t.emptyReg w).pend = t.pend := by
  obtain ⟨_, _, h⟩ := emptyReg_eq t w
  rw [h]

@[simp] theorem emptyReg_isY (t : Thread) (w : RegWrite) (k : Nat) : (t.emptyReg w).isY k = t.isY k := by
  obtain ⟨_, _, h⟩ := emptyReg_eq t w
  rw [h]
  rfl

/-! ## General registers, and their full bits -/

theorem isFull_setFull_same (t : Thread) {k : Nat} (h : k < 47) (b : Bool) : (t.setFull k b).isFull k = b := by
  refine (getLsbD_setFld_bit _ h _).trans ?_
  cases b <;> rfl

theorem isFull_setFull_ne (t : Thread) {k j : Nat} (h : j ≠ k) (b : Bool) : (t.setFull k b).isFull j = t.isFull j :=
  getLsbD_setFld_bit_ne _ h _

/-- A general specifier reads one register: what keeps y0 to y3 where it names them, and its g or h register where it does not,
keeps its value. -/
theorem getG_congr {t u : Thread} {k : Nat} (hy : u.isY k = t.isY k) (h : t.isY k = true → vget u.y (k - 10) 0 = vget t.y (k - 10) 0)
    (hg : t.isY k = false → vget u.g k 0 = vget t.g k 0) : u.getG k = t.getG k := by
  rw [Thread.getG, Thread.getG, hy]
  split
  · rfl
  · cases hk : t.isY k with
    | true => exact h hk
    | false => exact hg hk

theorem writeReg_g (t : Thread) {r : BitVec 5} (h : r.toNat < 23) (v : Word) :
    t.writeReg (.g r v) = { t with g := t.g.setIfInBounds r.toNat v }.setFull r.toNat true := if_neg (by omega)

theorem getG_writeReg_g_ne (t : Thread) (r : BitVec 5) (v : Word) {k : Nat} (h : k ≠ r.toNat) :
    (t.writeReg (.g r v)).getG k = t.getG k := by
  rcases Nat.lt_or_ge r.toNat 23 with hr | hr
  · rw [writeReg_g t hr]
    exact getG_congr rfl (fun _ => rfl) fun _ => vget_setIfInBounds_ne _ h _ _
  · rw [writeReg_z t hr]

theorem isFull_writeReg_g_ne (t : Thread) (r : BitVec 5) (v : Word) {k : Nat} (h : k ≠ r.toNat) :
    (t.writeReg (.g r v)).isFull k = t.isFull k := by
  rcases Nat.lt_or_ge r.toNat 23 with hr | hr
  · rw [writeReg_g t hr]
    exact isFull_setFull_ne _ h _
  · rw [writeReg_z t hr]

theorem isFull_writeReg_g (t : Thread) {r : BitVec 5} (h : r.toNat < 23) (v : Word) :
    (t.writeReg (.g r v)).isFull r.toNat = true := by
  rw [writeReg_g t h]
  exact isFull_setFull_same _ (by omega) _

theorem getG_writeReg_y_ne (t : Thread) (i : BitVec 2) (v : Word) {k : Nat} (h : k ≠ i.toNat + 10) :
    (t.writeReg (.y i v)).getG k = t.getG k := by
  refine getG_congr rfl (fun hy => ?_) fun _ => rfl
  obtain ⟨h10, _⟩ := isY_bounds hy
  exact vget_setIfInBounds_ne _ (by omega) _ _

/-- The number of y0 to y3 that a general specifier names. -/
theorem toNat_yIndex {t : Thread} {k : Nat} (h : t.isY k = true) : (BitVec.ofNat 2 (k - 10)).toNat = k - 10 := by
  obtain ⟨h10, h13⟩ := isY_bounds h
  exact Nat.mod_eq_of_lt (by omega)

/-! ## The destination of a general specifier as it stands (R156) -/

section Destination

variable (t : Thread) {r : BitVec 5} (v : Word)

theorem getG_writeReg_destG_same (h : r.toNat < 23) : (t.writeReg (t.destG r v)).getG r.toNat = v := by
  have hr : BitVec.ofNat 5 r.toNat = r := by simp
  simpa only [hr] using getG_writeReg_destG t h v

theorem getG_writeReg_destG_ne {k : Nat} (h : k ≠ r.toNat) : (t.writeReg (t.destG r v)).getG k = t.getG k := by
  cases hy : t.isY r.toNat with
  | true =>
    obtain ⟨h10, _⟩ := isY_bounds hy
    rw [destG_of_isY hy]
    exact getG_writeReg_y_ne t _ v (by rw [toNat_yIndex hy]; omega)
  | false => rw [destG_of_not_isY hy]; exact getG_writeReg_g_ne t r v h

theorem isFull_writeReg_destG_ne {k : Nat} (h : k ≠ r.toNat) : (t.writeReg (t.destG r v)).isFull k = t.isFull k := by
  cases hy : t.isY r.toNat with
  | true => rw [destG_of_isY hy]; rfl
  | false => rw [destG_of_not_isY hy]; exact isFull_writeReg_g_ne t r v h

theorem fullG_writeReg_destG (h : r.toNat < 23) : (t.writeReg (t.destG r v)).fullG r.toNat = true := by
  rw [Thread.fullG, writeReg_isY]
  cases hy : t.isY r.toNat with
  | true =>
    obtain ⟨h10, _⟩ := isY_bounds hy
    rw [destG_of_isY hy, Thread.writeReg, toNat_yIndex hy]
    exact (getLsbD_setFld_bit _ (by omega) _).trans rfl
  | false => rw [destG_of_not_isY hy]; exact isFull_writeReg_g t h v

theorem fullG_emptyReg_destG (h : r.toNat < 23) : (t.emptyReg (t.destG r v)).fullG r.toNat = false := by
  rw [Thread.fullG, emptyReg_isY]
  cases hy : t.isY r.toNat with
  | true =>
    obtain ⟨h10, _⟩ := isY_bounds hy
    rw [destG_of_isY hy, Thread.emptyReg, toNat_yIndex hy]
    exact (getLsbD_setFld_bit _ (by omega) _).trans rfl
  | false =>
    rw [destG_of_not_isY hy, Thread.emptyReg, if_neg (Nat.not_le.mpr h)]
    exact isFull_setFull_same t (by omega) false

/-- Nothing is written where the specifier is z. -/
theorem writeReg_destG_z (h : r.toNat = 23) : t.writeReg (t.destG r v) = t := by
  rw [destG_of_not_isY (isY_of_ge (by omega))]
  exact writeReg_z t (by omega) v

end Destination

/-! ## Giving a result (R152, R153) -/

/-- A change of the issuing thread changes nothing else. -/
theorem onlyMine_modMe (s : State) (f : Thread → Thread) : OnlyMine s (s.modMe f) := ⟨rfl, fun _ _ => thread_modMe_other s f⟩

theorem giveG_register (s : State) (lat : Option Nat) {r : BitVec 5} (h : r.toNat < 24) (v : Word) (fl : BitVec 5) (fp : Bool) :
    giveG s lat r v fl fp = s.modMe fun t => t.result lat [t.destG r v] fl fp := if_neg (by omega)

theorem giveG_at_once (s : State) {r : BitVec 5} (h : r.toNat < 24) (v : Word) (fl : BitVec 5) (fp : Bool) :
    (giveG s (some 1) r v fl fp).me = (s.me.writeReg (s.me.destG r v)).raise fl := by
  rw [giveG_register s _ h, me_modMe]
  rfl

theorem giveG_later (s : State) {lat : Option Nat} (hlat : lat ≠ some 1) {r : BitVec 5} (h : r.toNat < 24) (v : Word) (fl : BitVec 5)
    (fp : Bool) : (giveG s lat r v fl fp).me =
      { s.me.emptyReg (s.me.destG r v) with pend := s.me.pend ++ [⟨lat, [s.me.destG r v], fl, false, fp⟩] } := by
  rw [giveG_register s _ h, me_modMe, Thread.result, if_neg hlat]
  rfl

/-- A result that is due is written, with its flags. -/
theorem land_g (t : Thread) (r : BitVec 5) (v : Word) (fl : BitVec 5) (lat : Option Nat) (fp : Bool) :
    t.land ⟨lat, [.g r v], fl, false, fp⟩ = (t.writeReg (.g r v)).raise fl := rfl

theorem getG_writeReg_g_same (t : Thread) {r : BitVec 5} (h : r.toNat < 23) (v : Word) :
    (t.writeReg (.g r v)).getG r.toNat = if t.isY r.toNat then t.getG r.toNat else v := by
  cases hy : t.isY r.toNat with
  | true =>
    rw [writeReg_g t h]
    exact getG_congr rfl (fun _ => rfl) fun hn => absurd hy (ne_true_of_eq_false hn)
  | false =>
    have hr : BitVec.ofNat 5 r.toNat = r := by simp
    have hread := getG_writeReg_g t h hy v
    rwa [hr] at hread

/-- Settles O5: a result is a write of the destination as it stands, at once or when it is due. -/
theorem resultGoesToRegister : Obligations.ResultGoesToRegister := by
  unfold Obligations.ResultGoesToRegister
  refine ⟨?given, ?due⟩
  case given =>
    intro s lat r v fl fp hr
    refine ⟨giveG_register s lat hr v fl fp ▸ onlyMine_modMe s _, ?now, fun hlat => ?later⟩
    case now =>
      rintro rfl
      rw [giveG_at_once s hr]
      refine ⟨fun hz => ?_, fun h => ⟨?_, ?_⟩, fun k hk => ⟨?_, ?_⟩, ?_⟩
      · exact congrArg (fun u => (u.raise fl).registers) (writeReg_destG_z s.me v hz)
      · exact getG_writeReg_destG_same s.me v h
      · exact fullG_writeReg_destG s.me v h
      · exact getG_writeReg_destG_ne s.me v hk
      · exact isFull_writeReg_destG_ne s.me v hk
      · exact congrArg (fun c => c.fcsr ||| fl.setWidth 64) (writeReg_csr s.me _)
    case later =>
      rw [giveG_later s hlat hr]
      exact ⟨emptyReg_registers _ _, emptyReg_csr _ _, fullG_emptyReg_destG s.me v, rfl⟩
  case due =>
    intro t r v fl lat fp hr
    rw [land_g]
    refine ⟨getG_writeReg_g_same t hr v, isFull_writeReg_g t hr v, ?_, fun k hk => getG_writeReg_g_ne t r v hk⟩
    exact congrArg (fun c => c.fcsr ||| fl.setWidth 64) (writeReg_csr t _)

end Sys2Proof.Machine
end

