-- ==== Sys2Proof/Proofs/IssueReads.lean ====
section
/-! SUPPORT. What an instruction that issues has passed and read (R143, R149, R153, R300): O1. -/

namespace Sys2Proof.Machine

/-! ## An issue, step by step -/

/-- What an instruction that issues has read, by its operands, and the state after its debit. -/
theorem accept_some {b : Body} {s s1 : State} {o : Ops} (h : b.accept s = .ok (some (o, s1))) :
    ∃ r s', b.gather s = .ok (r, s') ∧ debit s' (b.cost r s) = .ok s1 ∧
      o = { r with nxt := nextPC s.me.pc 1 b.blk, own := s.me.pc } := by
  unfold Body.accept at h
  split at h
  · cases h
  split at h
  · cases h
  split at h
  · cases h
  split at h
  · cases h
  next r s' hg =>
  split at h
  · cases h
  next s2 hd => cases h; exact ⟨r, s', hg, hd, rfl⟩

theorem accept_of_issues {i : Instr} {b : Body} {s s1 : State} {o : Ops} (hi : Issues i s o s1) (hb : bodyOf i = some b) :
    b.accept s = .ok (some (o, s1)) := by
  obtain ⟨b', hb', ha⟩ := hi
  cases hb.symm.trans hb'
  exact ha

/-- The operands hold the address of the next instruction. -/
theorem nxt_of_issues {i : Instr} {b : Body} {s s1 : State} {o : Ops} (hi : Issues i s o s1) (hb : bodyOf i = some b) :
    o.nxt = nextPC s.me.pc 1 b.blk := by
  obtain ⟨r, s', -, -, rfl⟩ := accept_some (accept_of_issues hi hb)
  rfl

theorem gather_some {b : Body} {s s' : State} {r : Ops} (h : b.gather s = .ok (r, s')) :
    ∃ x, readAll Ops.zero s b.srcs = .ok (x, s') ∧ r = { b.fill (takeRm x s) s with gd := b.dsts.filterMap Dst.spec } := by
  unfold Body.gather at h
  split at h
  · cases h
  next hr =>
  split at h
  · cases h
  cases h
  unfold Body.readOps at hr
  split at hr
  · cases hr
  split at hr
  · cases hr
  split at hr
  · cases hr
  next x _ hx => cases hr; exact ⟨x, hx, rfl⟩

/-- A debit that is made is within ECAP and the balance, and takes the instruction's units off (R143). -/
theorem debit_ok {s s1 : State} {d : Nat} (h : debit s d = .ok s1) :
    d ≤ fld s.me.csr.ebud 0 40 ∧ d ≤ fld s.me.csr.ecap 0 40 ∧
      s1 = s.modMe fun t => { t with csr := { t.csr with ebud := t.csr.ebud - word d }, carry := none } := by
  unfold debit at h
  split at h
  · cases h
  next hcap =>
  split at h
  · cases h
  next hbud => cases h; exact ⟨Nat.not_lt.mp hbud, Nat.not_lt.mp hcap, rfl⟩

/-! ## Sources and their places among the operands -/

/-- The place of Ops that a source fills. A parameter block fills that of its record, and that of A with the register it names. -/
def Src.place : Src → Nat
  | .a _ | .blk _ _ => 0
  | .b _ => 1
  | .c _ => 2
  | .d _ => 3
  | .va _ => 4
  | .vb _ => 5
  | .vc _ => 6
  | .vd _ => 7
  | .ma _ => 8
  | .mb _ => 9
  | .pa _ => 10
  | .pb _ => 11
  | .preds => 12

/-- The operands hold what a source reads in a state; of a block nothing is said. -/
def Src.Got (o : Ops) (s : State) : Src → Prop
  | .a r => o.a = s.me.getG r.toNat
  | .b r => o.b = s.me.getG r.toNat
  | .c r => o.c = s.me.getG r.toNat
  | .d r => o.d = s.me.getG r.toNat
  | .va r => o.va = vget s.me.v r.toNat 0
  | .vb r => o.vb = vget s.me.v r.toNat 0
  | .vc r => o.vc = vget s.me.v r.toNat 0
  | .vd r => o.vd = vget s.me.v r.toNat 0
  | .ma r => o.ma = s.me.getM r.toNat
  | .mb r => o.mb = s.me.getM r.toNat
  | .pa r => o.pa = s.me.getP r.toNat
  | .pb r => o.pb = s.me.getP r.toNat
  | .preds => o.pw = s.me.predWord
  | .blk _ _ => True

/-- Two records of operands agree but for one place. -/
structure Ops.AgreeOff (n : Nat) (o p : Ops) : Prop where
  a : n ≠ 0 → p.a = o.a
  b : n ≠ 1 → p.b = o.b
  c : n ≠ 2 → p.c = o.c
  d : n ≠ 3 → p.d = o.d
  va : n ≠ 4 → p.va = o.va
  vb : n ≠ 5 → p.vb = o.vb
  vc : n ≠ 6 → p.vc = o.vc
  vd : n ≠ 7 → p.vd = o.vd
  ma : n ≠ 8 → p.ma = o.ma
  mb : n ≠ 9 → p.mb = o.mb
  pa : n ≠ 10 → p.pa = o.pa
  pb : n ≠ 11 → p.pb = o.pb
  pw : n ≠ 12 → p.pw = o.pw

theorem Src.got_of_agreeOff {n : Nat} {o p : Ops} {s : State} {x : Src} (h : Ops.AgreeOff n o p) (hx : n ≠ x.place) (hg : x.Got o s) :
    x.Got p s := by
  cases x with
  | a r => exact (h.a hx).trans hg
  | b r => exact (h.b hx).trans hg
  | c r => exact (h.c hx).trans hg
  | d r => exact (h.d hx).trans hg
  | va r => exact (h.va hx).trans hg
  | vb r => exact (h.vb hx).trans hg
  | vc r => exact (h.vc hx).trans hg
  | vd r => exact (h.vd hx).trans hg
  | ma r => exact (h.ma hx).trans hg
  | mb r => exact (h.mb hx).trans hg
  | pa r => exact (h.pa hx).trans hg
  | pb r => exact (h.pb hx).trans hg
  | preds => exact (h.pw hx).trans hg
  | blk k b => trivial

theorem readG_register {s : State} {r : BitVec 5} (h : r.toNat < 24) : readG s r = .ok (s.me.getG r.toNat, s) := if_neg (by omega)

/-- Reading a source that is no stream or queue register fills its place and changes nothing else. -/
theorem Src.read_register {o p : Ops} {s s' : State} {x : Src} (hr : ∀ r, x.spec = some r → r.toNat < 24)
    (h : x.read o s = .ok (p, s')) : s' = s ∧ x.Got p s ∧ Ops.AgreeOff x.place o p := by
  cases x with
  | a r | b r | c r | d r =>
    rw [Src.read, readG_register (hr r rfl)] at h
    cases h
    exact ⟨rfl, rfl, by constructor <;> simp [Src.place]⟩
  | va r | vb r | vc r | vd r | ma r | mb r | pa r | pb r | preds =>
    cases h
    exact ⟨rfl, rfl, by constructor <;> simp [Src.place]⟩
  | blk k b =>
    simp only [Src.read] at h
    split at h
    · cases h
      exact ⟨rfl, trivial, by constructor <;> simp [Src.place]⟩
    · cases h

/-- Reading a list of such sources, no two of one place, fills the place of each, and keeps those that the list leaves out. -/
theorem readAll_registers {l : List Src} {o p : Ops} {s s' : State} (hr : ∀ x ∈ l, ∀ r, Src.spec x = some r → r.toNat < 24)
    (hl : (l.map Src.place).Nodup) (h : readAll o s l = .ok (p, s')) :
    s' = s ∧ (∀ x ∈ l, x.Got p s) ∧ ∀ y : Src, y.place ∉ l.map Src.place → y.Got o s → y.Got p s := by
  induction l generalizing o with
  | nil => cases h; exact ⟨rfl, fun _ hx => absurd hx List.not_mem_nil, fun _ _ hy => hy⟩
  | cons x l ih =>
    obtain ⟨hx, hl⟩ := List.nodup_cons.mp hl
    rw [readAll] at h
    split at h
    · cases h
    next o1 s1 h1 =>
    obtain ⟨rfl, hgot, hoff⟩ := Src.read_register (hr x List.mem_cons_self) h1
    obtain ⟨hs, hall, hkeep⟩ := ih (fun y hy => hr y (List.mem_cons_of_mem x hy)) hl h
    refine ⟨hs, fun y hy => ?_, fun y hy hold => ?_⟩
    · rcases List.mem_cons.mp hy with rfl | hy
      · exact hkeep y hx hgot
      · exact hall y hy
    · obtain ⟨hne, hy⟩ := List.ne_and_not_mem_of_not_mem_cons hy
      exact hkeep y hy (Src.got_of_agreeOff hoff (Ne.symm hne) hold)

/-! ## Every body reads each place once -/

/-- An instruction has one source for each place, what it reads beyond its sources leaves their places alone, and its units do not depend on
where it stands. -/
structure Body.ReadsOnce (b : Body) : Prop where
  places : (b.srcs.map Src.place).Nodup
  fill : ∀ x ∈ b.srcs, ∀ o s t, x.Got o t → x.Got (b.fill o s) t
  units : ∀ o s nxt own, b.units { o with nxt := nxt, own := own } s = b.units o s

/-- The operands beside the places of the sources. -/
theorem Src.got_rest {o : Ops} {s : State} {x : Src} (item : List Word) (rm : BitVec 2) (gd : List (BitVec 5)) (nxt own : Word)
    (h : x.Got o s) : x.Got { o with item := item, rm := rm, gd := gd, nxt := nxt, own := own } s := by
  cases x <;> exact h

/-- A body that reads nothing beyond its sources. -/
theorem Body.ReadsOnce.of_plain {b : Body} (hf : b.fill = fun o _ => o) (hp : (b.srcs.map Src.place).Nodup)
    (hu : ∀ o s nxt own, b.units { o with nxt := nxt, own := own } s = b.units o s) : b.ReadsOnce :=
  ⟨hp, fun _ _ _ _ _ h => hf ▸ h, hu⟩

/-- A masked instruction reads its mask, its operands, and D where lanes of it may stay. -/
theorem nodup_maskedSrcs (mk : BitVec 3) {ops : List Src} (vd : BitVec 4) (keep : Bool)
    (h : (8 :: ops.map Src.place ++ [7]).Nodup) : ((maskedSrcs mk ops vd keep).map Src.place).Nodup := by
  refine h.sublist ?_
  rw [maskedSrcs, List.map_append]
  refine List.Sublist.append_left ?_ _
  split
  · exact List.Sublist.refl _
  · exact List.nil_sublist _

/-- The instructions that work lane by lane. -/
theorem readsOnce_vecLanes (h : Hdr) (vd : BitVec 4) (w : Nat) (mk : BitVec 3) (srcs : List Src) (lat : Option Nat) (f : Ops → Nat → Res)
    (fp : Bool) (hp : (8 :: srcs.map Src.place ++ [7]).Nodup) : (vecLanes h vd w mk srcs lat f fp).ReadsOnce :=
  .of_plain rfl (nodup_maskedSrcs mk vd true hp) fun _ _ _ _ => rfl

theorem readsOnce_ldx (h : Hdr) (d a b : BitVec 5) (sc : BitVec 3) (imm : BitVec 48) : (bodyLdx h d a b sc imm).ReadsOnce := by
  refine ⟨of_decide_eq_true rfl, fun x hx o s t hg => ?_, fun _ _ _ _ => rfl⟩
  rcases List.mem_pair.mp hx with rfl | rfl <;> exact hg

theorem readsOnce_isfull (h : Hdr) (pd : BitVec 4) (a : BitVec 5) : (bodyIsfull h pd a).ReadsOnce :=
  ⟨of_decide_eq_true rfl, fun _ hx => absurd hx List.not_mem_nil, fun _ _ _ _ => rfl⟩

theorem readsOnce_qbind (h : Hdr) (d a : BitVec 5) (imm : BitVec 48) : (bodyQbind h d a imm).ReadsOnce := by
  refine .of_plain rfl ?_ fun _ _ _ _ => rfl
  show (List.map Src.place (if qbindReadsA imm then [.a a] else [])).Nodup
  split <;> exact of_decide_eq_true rfl

theorem readsOnce_of_bodyOf {i : Instr} {b : Body} (h : bodyOf i = some b) : b.ReadsOnce := by
  cases i
  all_goals cases h
  case ldx => exact readsOnce_ldx ..
  case isfull => exact readsOnce_isfull ..
  case qbind => exact readsOnce_qbind ..
  case item | ckpt | fenceo =>
    exact ⟨of_decide_eq_true rfl, fun _ _ o _ _ hg => Src.got_rest _ o.rm o.gd o.nxt o.own hg, fun _ _ _ _ => rfl⟩
  case ldv | gath | ldvw =>
    exact .of_plain rfl (nodup_maskedSrcs _ _ _ (of_decide_eq_true rfl)) fun _ _ _ _ => rfl
  case vadd | vsub | vmul | vdiv | vfma | vfnma | vmin | vmax | vabs | vneg | vand | vor | vxor | vshl | vshr | vsar | vsqrt | vrsq | vrcp |
      vexp2 | vlog2 | vcvt | vdot | vmov | vbcast | vfill | viota | vexpnd | vshuf | vlut | vscan | vunpkq =>
    exact readsOnce_vecLanes _ _ _ _ _ _ _ _ (of_decide_eq_true rfl)
  all_goals exact .of_plain rfl (of_decide_eq_true rfl) fun _ _ _ _ => rfl

/-! ## What has been read -/

/-- An instruction that issues with registers for its general sources has read each of them before the turn, and is debited. -/
theorem issues_reads {i : Instr} {b : Body} {s s1 : State} {o : Ops} (hb : bodyOf i = some b) (hi : Issues i s o s1)
    (hr : ∀ x ∈ b.srcs, ∀ r, Src.spec x = some r → r.toNat < 24) :
    (∀ x ∈ b.srcs, x.Got o s) ∧ debit s (b.cost o s) = .ok s1 := by
  obtain ⟨hplaces, hfill, hunits⟩ := readsOnce_of_bodyOf hb
  obtain ⟨r, s', hg, hd, rfl⟩ := accept_some (accept_of_issues hi hb)
  obtain ⟨x, hall, rfl⟩ := gather_some hg
  obtain ⟨rfl, hgot, -⟩ := readAll_registers hr hplaces hall
  refine ⟨fun y hy => ?_, ?_⟩
  · exact Src.got_rest _ _ _ _ _ (hfill y hy _ _ _ (Src.got_rest _ _ _ _ _ (hgot y hy)))
  · rw [← hd, Body.cost, Body.cost]
    exact congrArg (fun n => debit _ (_ * n)) (hunits _ _ _ _)

/-- Settles O1. -/
theorem issueReadsSources : Obligations.IssueReadsSources := by
  unfold Obligations.IssueReadsSources
  intro i b s s1 o hb hi hr
  obtain ⟨hgot, hd⟩ := issues_reads hb hi hr
  obtain ⟨hbud, hcap, hs1⟩ := debit_ok hd
  exact ⟨fun r => hgot (.a r), fun r => hgot (.b r), fun r => hgot (.c r), fun r => hgot (.d r), fun r => hgot (.va r), fun r => hgot (.vb r),
    fun r => hgot (.vc r), fun r => hgot (.vd r), fun r => hgot (.ma r), fun r => hgot (.mb r), fun r => hgot (.pa r), fun r => hgot (.pb r),
    hgot .preds, nxt_of_issues hi hb, _, rfl, hbud, hcap, hs1⟩

end Sys2Proof.Machine
end

