-- ==== Sys2Proof/Proofs/GoingOn.lean ====
section
/-! SUPPORT. How a thread goes on after an instruction, and PUTR, MIGR and TMODE (R152, R168, R290, R292, R402 to R404): O6 and O22. -/

namespace Sys2Proof.Machine

/-! ## The next instruction (R152, R290) -/

theorem nextPC_one (pc : Word) (blk : Bool) :
    nextPC pc 1 blk = if blk ∨ pc.toNat % 8 + 1 ≥ 5 then (pc &&& 0xFFFFFFFFFFFFFFC0#64) + 64 else pc + 1 := by
  have hor : (blk || decide (slotOf pc + 1 ≥ 5)) = true ↔ blk = true ∨ pc.toNat % 8 + 1 ≥ 5 := by
    rw [Bool.or_eq_true, decide_eq_true_eq]
    rfl
  exact if_congr hor rfl rfl

/-- What a thread is that goes on at an address and skips `w` turns. -/
theorem me_goOn (s : State) (pc : Word) (img : Option LineImg) (w : Nat) : (setSkip (goOn s pc img) w).me =
    { s.me with
      pc := pc, entry := s.me.entry && img.isNone, park := none, timer := 0, skip := w
      line := match img with
        | some x => some (lineOf pc, x)
        | none => if lineOf pc = lineOf s.me.pc then s.me.line else none } := by
  simp only [setSkip, goOn, me_modMe] <;> rfl

theorem after_of_body {i : Instr} {b : Body} (h : bodyOf i = some b) (s s2 : State) :
    after i s s2 = setSkip (goOn s2 (nextPC s.me.pc 1 b.blk) none) b.h.w.toNat := by
  simp only [after, h]

/-- An instruction that passes steps 4 to 6 with its guard false has no effect (R292). -/
theorem exec_of_guard_false {i : Instr} {b : Body} {s : State} (hb : bodyOf i = some b) (hearly : b.early s = none)
    (hstop : s.me.pStop b.h.g = none) (hoff : s.me.getP b.h.g.toNat = b.h.n) : exec i s = .next (after i s s) := by
  have hpass : b.accept s = .ok none := by simp [Body.accept, Body.guard, hearly, hstop, hoff]
  rw [exec_of_body hb, after_of_body hb]
  simp only [issue, hpass]

/-- Settles O6. -/
theorem goesOn : Obligations.GoesOn := by
  unfold Obligations.GoesOn
  refine ⟨fun i b s s2 hb => ?_, fun i b s hb => exec_of_guard_false hb⟩
  rw [after_of_body hb]
  refine ⟨goOn_only _ _ _ _, ?_⟩
  rw [me_goOn]
  exact ⟨nextPC_one _ _, rfl, rfl, rfl, rfl, rfl, rfl⟩

/-! ## PUTR and MIGR (R402, R403) -/

theorem OnlyMine.trans {s t u : State} (h : OnlyMine s t) (g : OnlyMine t u) : OnlyMine s u := by
  obtain ⟨hst, hother⟩ := h
  obtain ⟨htu, hother'⟩ := g
  refine ⟨by rw [htu, hst], fun c k hne => (hother' c k ?_).trans (hother c k hne)⟩
  rw [hst]
  exact hne

theorem putr_follows {h : Hdr} {a b rg : BitVec 5} {s s1 : State} {o : Ops} (hi : Issues (.putr h a b rg) s o s1) :
    (s1.me.outBuf = none → exec (.putr h a b rg) s = .next (after (.putr h a b rg) s
      (sendWord s1 ⟨o.a.setWidth 12, (o.a >>> 12).setWidth 3, some rg, o.b⟩))) ∧
    (s1.me.outBuf ≠ none → ∃ key, exec (.putr h a b rg) s = .next (afterWait (.putr h a b rg) o s s1 .message key)) := by
  refine ⟨fun hfree => exec_done hi rfl ?_, fun hbusy => ⟨keySend (fld o.a 0 12) (fld o.a 12 3), exec_wait hi rfl ?_⟩⟩
  · have hcore : BitVec.ofNat 12 (fld o.a 0 12) = o.a.setWidth 12 := by
      apply BitVec.eq_of_toNat_eq
      simp [fld, bits]
    have hslot : BitVec.ofNat 3 (fld o.a 12 3) = (o.a >>> 12).setWidth 3 := by
      apply BitVec.eq_of_toNat_eq
      simp [fld, bits]
    show putrEff rg o s1 = _
    rw [putrEff, hfree, hcore, hslot]
    rfl
  · show putrEff rg o s1 = _
    rw [putrEff, if_pos (Option.isSome_iff_ne_none.mpr hbusy)]

theorem migr_follows {h : Hdr} {a : BitVec 5} {s s1 : State} {o : Ops} {c : Crew} (hi : Issues (.migr h a) s o s1)
    (hc : s1.myCrew = some c) :
    (c.lindexOf (o.a.toNat % 4096) = none →
      exec (.migr h a) s = .next (afterTrap s s1 0x0A 0 (word (o.a.toNat % 4096)))) ∧
    (∀ k, c.lindexOf (o.a.toNat % 4096) = some k → k = s1.me.ref.lcore →
      exec (.migr h a) s = .next (after (.migr h a) s s1)) ∧
    (∀ k, c.lindexOf (o.a.toNat % 4096) = some k → k ≠ s1.me.ref.lcore → s1.me.pend = [] →
      exec (.migr h a) s = .next (parkMe s1 .migrate (k + 1) [] (some (nextPC s.me.pc 1 false)))) := by
  have heff : migrEff o s1 = match c.lindexOf (o.a.toNat % 4096) with
      | none => .trap s1 0x0A 0 (word (o.a.toNat % 4096))
      | some i =>
        if i = s1.me.ref.lcore then .done s1
        else if s1.me.pend.isEmpty then .gone (parkMe s1 .migrate (i + 1) [] (some o.nxt)) else .wait s1 .migrate 0 := by
    rw [migrEff, hc]
    rfl
  refine ⟨fun hout => exec_trap hi rfl ?_, fun k hk hhome => exec_done hi rfl ?_, fun k hk haway hpend => ?_⟩
  · exact heff.trans (by rw [hout])
  · exact heff.trans (by rw [hk]; exact if_pos hhome)
  · have hgone : migrEff o s1 = .gone (parkMe s1 .migrate (k + 1) [] (some o.nxt)) := by
      rw [heff, hk, hpend]
      exact if_neg haway
    rw [exec_of_issues hi rfl]
    show Host.Outcome.next (settle s _ _ _ (migrEff o s1)) = _
    rw [hgone, nxt_of_issues hi rfl]
    rfl

/-! ## TMODE (R404) -/

theorem getElem?_ofFn_keepTen (g : Vector Word 23) (k : Nat) :
    (Vector.ofFn fun i : Fin 23 => if i.val < 10 then vget g i.val 0 else 0)[k]? =
      if k < 10 then g[k]? else if k < 23 then some 0 else none := by
  rw [Vector.getElem?_ofFn]
  split
  · next hk => by_cases h : k < 10 <;> simp [h, vget, hk]
  · next hk => simp [show ¬ k < 10 by omega]

/-- h0 to h12 are the registers that a light thread has not. -/
theorem makeHeavy_g (t : Thread) (k : Nat) :
    t.makeHeavy.g[k]? = if k < 10 then t.g[k]? else if k < 23 then some 0 else none := getElem?_ofFn_keepTen t.g k

theorem dropHeavy_isFull (t : Thread) (light : Bool) {k : Nat} (h10 : 10 ≤ k) (h47 : k < 47) : (t.dropHeavy light).isFull k = true := by
  have hmask : ∀ j, j < 47 → 10 ≤ j → (0x7FFFFFFFFC00#47).getLsbD j = true := by decide
  rw [Thread.isFull, Thread.dropHeavy, BitVec.getLsbD_or, hmask k h47 h10, Bool.or_true]

/-- A thread has changed its mode: what the light mode does not keep is zero and full. -/
theorem dropHeavy_follows {i : Instr} {b : Body} (hb : bodyOf i = some b) (s s1 : State) (light : Bool) :
    let t := after i s (s1.modMe fun t => t.dropHeavy light)
    OnlyMine s1 t ∧ t.me.light = light ∧ t.me.v = Vector.replicate 16 0 ∧ (∀ k, k < 10 → t.me.g[k]? = s1.me.g[k]?) ∧
      (∀ k, 10 ≤ k → k < 23 → t.me.g[k]? = some 0) ∧ (∀ k, 10 ≤ k → k < 47 → t.me.isFull k = true) := by
  intro t
  have ht : t = setSkip (goOn (s1.modMe fun t => t.dropHeavy light) (nextPC s.me.pc 1 b.blk) none) b.h.w.toNat := after_of_body hb _ _
  have hfull : t.me.full = (s1.me.dropHeavy light).full := by rw [ht, me_goOn, me_modMe]
  refine ⟨ht ▸ (onlyMine_modMe s1 _).trans (goOn_only _ _ _ _), ?_⟩
  have hme : t.me.light = light ∧ t.me.v = Vector.replicate 16 0 ∧ t.me.g = s1.me.makeHeavy.g := by
    rw [ht, me_goOn, me_modMe]
    exact ⟨rfl, rfl, rfl⟩
  obtain ⟨hlight, hv, hgs⟩ := hme
  refine ⟨hlight, hv, fun k hk => ?_, fun k h10 h23 => ?_, fun k h10 h47 => ?_⟩
  · rw [hgs, makeHeavy_g, if_pos hk]
  · rw [hgs, makeHeavy_g, if_neg (by omega), if_pos h23]
  · rw [Thread.isFull, hfull]
    exact dropHeavy_isFull s1.me light h10 h47

/-- Settles O22. -/
theorem putrMigrTmode : Obligations.PutrMigrTmode := by
  unfold Obligations.PutrMigrTmode
  refine ⟨fun h a b rg s s1 o => putr_follows, fun h a s s1 o c => migr_follows, ?light, ?heavy⟩
  case light =>
    intro h s s1 o hi hmode
    exact ⟨_, exec_done hi rfl (if_neg (ne_true_of_eq_false hmode)), dropHeavy_follows rfl s s1 true⟩
  case heavy =>
    intro h s s1 o hi hmode
    exact ⟨_, exec_done hi rfl (if_pos hmode), dropHeavy_follows rfl s s1 false⟩

end Sys2Proof.Machine
end

