-- ==== Sys2Proof/Proofs/TrapEntry.lean ====
section
/-! SUPPORT. Taking a trap, and the freeze of a double trap (R87, R97, R168, R171): O33. -/

namespace Sys2Proof.Machine

/-! ## The entry (R171) -/

/-- Marking a graph changes graphs only. -/
theorem markUncorr_eq (s : State) (crew cause : Nat) : ∃ g, markUncorr s crew cause = { s with graphs := g } := by
  unfold markUncorr
  split <;> exact ⟨_, rfl⟩

/-- A trap that meets TNEST clear. -/
theorem takeTrap_eq {s : State} {core slot : Nat} (h : (s.thread core slot).csr.tnest.getLsbD 0 = false) (cause : Nat)
    (addr aux tpc : Word) (pm async : Bool) : ∃ g, takeTrap s core slot cause addr aux tpc pm async =
      { s.setThread core slot ((s.thread core slot).enterTrap cause addr aux tpc pm async) with graphs := g } := by
  obtain ⟨g, hg⟩ := markUncorr_eq s (s.thread core slot).ref.crew cause
  refine ⟨g, ?_⟩
  rw [takeTrap, bit, h, if_neg Bool.false_ne_true, hg]
  rfl

theorem takeTrap_thread {s : State} {core slot : Nat} (h : (s.thread core slot).csr.tnest.getLsbD 0 = false) (cause : Nat)
    (addr aux tpc : Word) (pm async : Bool) (c k : Nat) : (takeTrap s core slot cause addr aux tpc pm async).thread c k =
      if c * 8 + k = core * 8 + slot then (s.thread core slot).enterTrap cause addr aux tpc pm async else s.thread c k := by
  obtain ⟨g, hg⟩ := takeTrap_eq h cause addr aux tpc pm async
  rw [hg]
  exact thread_setThread _ _ _ _ _ _

theorem takeTrap_mem {s : State} {core slot : Nat} (h : (s.thread core slot).csr.tnest.getLsbD 0 = false) (cause : Nat)
    (addr aux tpc : Word) (pm async : Bool) : (takeTrap s core slot cause addr aux tpc pm async).mem = s.mem := by
  obtain ⟨g, hg⟩ := takeTrap_eq h cause addr aux tpc pm async
  rw [hg]
  rfl

section Entry

variable (t : Thread) (cause : Nat) (addr aux tpc : Word) (pm async : Bool)

/-- TDLG delegates the cause of a thread at U. -/
def Thread.delegates (t : Thread) (cause : Nat) : Bool := (t.csr.tdlg &&& 0x6DFFFFA).getLsbD cause && !t.csr.tstat.getLsbD 0

/-- TSTAT after a trap's entry: PPRV takes PRV, PM names the member, and PRV is cleared where the cause is delegated. -/
def Thread.trapTstat (t : Thread) (cause : Nat) (pm : Bool) : Word :=
  setFld (setFld (setFld t.csr.tstat 1 1 (b2n (t.csr.tstat.getLsbD 0))) 4 1 (b2n pm)) 0 1 (if t.delegates cause then 0 else 1)

theorem enterTrap_eq : t.enterTrap cause addr aux tpc pm async = { (if t.light then t.makeHeavy else t) with
    csr := { t.csr with
      tpc := tpc, tcause := word (cause + b2n async * 256), taddr := addr, taux := aux, tnest := t.csr.tnest ||| 1
      tstat := t.trapTstat cause pm }
    pc := if t.delegates cause then t.csr.uvec else t.csr.tvec
    entry := true, line := none, park := none, skip := 0, timer := 0, lanes := none, carry := none } := by
  cases hl : t.light <;> simp only [Thread.enterTrap, hl] <;> rfl

/-- A bit that has been set to a truth value. -/
theorem getLsbD_setFld_b2n {w : Nat} (v : BitVec w) {i : Nat} (h : i < w) (b : Bool) : (setFld v i 1 (b2n b)).getLsbD i = b := by
  rw [getLsbD_setFld_bit v h]
  cases b <;> rfl

theorem trapTstat_prv : (t.trapTstat cause pm).getLsbD 0 = !t.delegates cause := by
  rw [Thread.trapTstat, getLsbD_setFld_bit _ (by decide)]
  cases t.delegates cause <;> rfl

theorem trapTstat_pprv : (t.trapTstat cause pm).getLsbD 1 = t.csr.tstat.getLsbD 0 := by
  rw [Thread.trapTstat, getLsbD_setFld_bit_ne _ (by decide), getLsbD_setFld_bit_ne _ (by decide), getLsbD_setFld_b2n _ (by decide)]

theorem trapTstat_pm : (t.trapTstat cause pm).getLsbD 4 = pm := by
  rw [Thread.trapTstat, getLsbD_setFld_bit_ne _ (by decide), getLsbD_setFld_b2n _ (by decide)]

theorem trapTstat_other {k : Nat} (h0 : k ≠ 0) (h1 : k ≠ 1) (h4 : k ≠ 4) :
    (t.trapTstat cause pm).getLsbD k = t.csr.tstat.getLsbD k := by
  rw [Thread.trapTstat, getLsbD_setFld_bit_ne _ h0, getLsbD_setFld_bit_ne _ h4, getLsbD_setFld_bit_ne _ h1]

theorem delegates_iff : t.delegates cause = true ↔
    (t.csr.tdlg &&& 0x6DFFFFA).getLsbD cause = true ∧ t.csr.tstat.getLsbD 0 = false := by
  simp [Thread.delegates]

theorem not_delegates_iff : t.delegates cause = false ↔
    (t.csr.tdlg &&& 0x6DFFFFA).getLsbD cause = false ∨ t.csr.tstat.getLsbD 0 = true := by
  rw [Thread.delegates, Bool.and_eq_false_iff, Bool.not_eq_false']

theorem makeHeavy_isFull {k : Nat} (h10 : 10 ≤ k) (h23 : k < 23) : t.makeHeavy.full.getLsbD k = true := by
  have hmask : ∀ j, j < 23 → 10 ≤ j → (0x7FFC00#47).getLsbD j = true := by decide
  rw [Thread.makeHeavy, BitVec.getLsbD_or, hmask k h23 h10, Bool.or_true]

theorem enterTrap_csr : (t.enterTrap cause addr aux tpc pm async).csr = { t.csr with
    tpc := tpc, tcause := word (cause + b2n async * 256), taddr := addr, taux := aux, tnest := t.csr.tnest ||| 1
    tstat := t.trapTstat cause pm } := by
  rw [enterTrap_eq]

theorem enterTrap_tcause : (t.enterTrap cause addr aux tpc pm async).csr.tcause = word (cause + if async then 256 else 0) := by
  rw [enterTrap_csr]
  cases async <;> rfl

theorem enterTrap_tnest : (t.enterTrap cause addr aux tpc pm async).csr.tnest.getLsbD 0 = true := by
  rw [enterTrap_csr]
  dsimp only
  rw [BitVec.getLsbD_or, Bool.or_eq_true]
  exact Or.inr (by decide)

theorem enterTrap_tstat : (t.enterTrap cause addr aux tpc pm async).csr.tstat = t.trapTstat cause pm := by
  rw [enterTrap_csr]

/-- What the trap's entry saves. -/
theorem enterTrap_saves : (t.enterTrap cause addr aux tpc pm async).csr.tpc = tpc ∧
    (t.enterTrap cause addr aux tpc pm async).csr.taddr = addr ∧ (t.enterTrap cause addr aux tpc pm async).csr.taux = aux := by
  rw [enterTrap_csr]
  exact ⟨rfl, rfl, rfl⟩

/-- The thread is at the handler's entry, and no longer parked. -/
theorem enterTrap_entry : (t.enterTrap cause addr aux tpc pm async).entry = true ∧
    (t.enterTrap cause addr aux tpc pm async).park = none := by
  rw [enterTrap_eq]
  exact ⟨rfl, rfl⟩

/-- A delegated cause goes to UVEC at U. -/
theorem enterTrap_delegated (h : t.delegates cause = true) : (t.enterTrap cause addr aux tpc pm async).pc = t.csr.uvec ∧
    (t.enterTrap cause addr aux tpc pm async).csr.tstat.getLsbD 0 = false := by
  rw [enterTrap_tstat, trapTstat_prv, h, enterTrap_eq]
  exact ⟨if_pos h, rfl⟩

/-- Every other cause goes to TVEC at S. -/
theorem enterTrap_raised (h : t.delegates cause = false) : (t.enterTrap cause addr aux tpc pm async).pc = t.csr.tvec ∧
    (t.enterTrap cause addr aux tpc pm async).csr.tstat.getLsbD 0 = true := by
  rw [enterTrap_tstat, trapTstat_prv, h, enterTrap_eq]
  exact ⟨if_neg (ne_true_of_eq_false h), rfl⟩

theorem enterTrap_keeps : (t.enterTrap cause addr aux tpc pm async).notify = t.notify ∧
    (t.enterTrap cause addr aux tpc pm async).occ = t.occ := by
  have heavy : (if t.light then t.makeHeavy else t).notify = t.notify ∧ (if t.light then t.makeHeavy else t).occ = t.occ := by
    split
    · rw [Thread.makeHeavy]; exact ⟨rfl, rfl⟩
    · exact ⟨rfl, rfl⟩
  rw [enterTrap_eq]
  exact heavy

/-- The trap's entry leaves a heavy thread's registers. -/
theorem enterTrap_registers (h : t.light = false) : (t.enterTrap cause addr aux tpc pm async).registers = t.registers ∧
    (t.enterTrap cause addr aux tpc pm async).full = t.full := by
  rw [enterTrap_eq, if_neg (ne_true_of_eq_false h)]
  exact ⟨rfl, rfl⟩

theorem enterTrap_light : (t.enterTrap cause addr aux tpc pm async).light = false := by
  rw [enterTrap_eq]
  cases hl : t.light with
  | true => rfl
  | false => exact hl

/-- The registers of a light thread are those of a heavy one (R168). -/
theorem enterTrap_makeHeavy (h : t.light = true) : (t.enterTrap cause addr aux tpc pm async).g = t.makeHeavy.g ∧
    (t.enterTrap cause addr aux tpc pm async).full = t.makeHeavy.full := by
  rw [enterTrap_eq, if_pos h]
  exact ⟨rfl, rfl⟩

theorem enterTrap_heavy (h : t.light = true) :
    (∀ k, k < 10 → (t.enterTrap cause addr aux tpc pm async).g[k]? = t.g[k]?) ∧
    ∀ k, 10 ≤ k → k < 23 → (t.enterTrap cause addr aux tpc pm async).g[k]? = some 0 ∧
      (t.enterTrap cause addr aux tpc pm async).isFull k = true := by
  obtain ⟨hg, hfull⟩ := enterTrap_makeHeavy t cause addr aux tpc pm async h
  refine ⟨fun k hk => ?_, fun k h10 h23 => ⟨?_, ?_⟩⟩
  · rw [hg, makeHeavy_g, if_pos hk]
  · rw [hg, makeHeavy_g, if_neg (by omega), if_pos h23]
  · rw [Thread.isFull, hfull]
    exact makeHeavy_isFull t h10 h23

end Entry

/-! ## The freeze (R97) -/

theorem blackbox_newest (s : State) (kind unit detail : Nat) :
    ∃ r, (s.blackbox kind unit detail).mgmt.blackbox.head? = some r ∧ fld r 72 8 = kind % 256 ∧ fld r 32 32 = unit % 2 ^ 32 := by
  obtain ⟨r, hr, hkind, hunit⟩ := blackbox_head s kind unit detail
  exact ⟨r, by rw [hr]; rfl, hkind, hunit⟩

/-- The save block of a crew is in memory. -/
theorem writeSave_memOnly (s : State) (n : Nat) (c : Crew) (sv : CrewSave) (at_ : Nat) : MemOnly s (writeSave s n c sv at_) := by
  unfold writeSave
  dsimp only
  have header : MemOnly s (s.clear at_ c.saveBytes) := ⟨_, rfl⟩
  refine MemOnly.trans ?_ (foldl_memOnly (fun _ _ => (foldl_memOnly (fun _ _ => write_memOnly _ _ _ _) _ _).trans (setBytes_memOnly _ _ _)) _ _)
  refine MemOnly.trans ?_ (foldl_memOnly (fun _ _ => (setBytes_memOnly _ _ _).trans (setBytes_memOnly _ _ _)) _ _)
  refine MemOnly.trans ?_ (foldl_memOnly (fun _ _ => ⟨_, rfl⟩) _ _)
  exact (header.trans (setBytes_memOnly _ _ _)).trans (foldl_memOnly (fun _ _ => setBytes_memOnly _ _ _) _ _)

/-- The freeze ends the graph in a state whose black box has the event. -/
theorem freezeAt_endsGraph {s v : State} {l : Loc} {c : Ctx} {cr : Crew}
    (hv : (s.modLoc l fun _ => { s.atLoc l with frozen := true }) = v) (hcr : v.crew? (s.atLoc l).ref.crew = some cr)
    (hc : v.ctx? (v.ctxOf (s.atLoc l).ref.crew) = some c) (core slot cause : Nat) (addr aux : Word) :
    ∃ u, freezeAt s l core slot cause addr aux = endGraph u cr.graph 0x0A 0 ∧
      ∃ r, u.mgmt.blackbox.head? = some r ∧ fld r 72 8 = 5 ∧ fld r 32 32 = core % 2 ^ 32 := by
  rw [freezeAt]
  dsimp only
  rw [hv, hc, hcr]
  refine ⟨_, rfl, ?_⟩
  rw [(writeSave_memOnly _ _ _ _ _).filed.mgmt]
  exact blackbox_newest _ 0x05 core _

theorem freeze_endsGraph {s : State} {core slot : Nat} {c : Ctx} {cr : Crew}
    (hcr : s.crew? (s.thread core slot).ref.crew = some cr) (hc : s.ctx? cr.ctx = some c) (cause : Nat) (addr aux : Word) :
    ∃ u, freeze s core slot cause addr aux = endGraph u cr.graph 0x0A 0 ∧
      ∃ r, u.mgmt.blackbox.head? = some r ∧ fld r 72 8 = 5 ∧ fld r 32 32 = core % 2 ^ 32 := by
  have hctx : s.ctxOf (s.thread core slot).ref.crew = cr.ctx := by rw [State.ctxOf, hcr]
  refine freezeAt_endsGraph (c := c) (l := .slot core slot) rfl hcr ?_ core slot cause addr aux
  show s.ctx? (s.ctxOf (s.thread core slot).ref.crew) = some c
  rw [hctx, hc]

theorem endGraph_gone (s : State) (gid status detail : Nat) : (endGraph s gid status detail).graph? gid = none := by
  cases hg : s.graph? gid with
  | none => rw [endGraph, hg]; exact hg
  | some g => exact (endGraph_removes hg status detail).1

/-- Settles O33: a trap that meets TNEST clear through `enterTrap_eq`, a double one through `freezeAt_endsGraph`. -/
theorem trapEntry : Obligations.TrapEntry := by
  unfold Obligations.TrapEntry
  refine ⟨?entry, ?double⟩
  case entry =>
    intro s core slot cause addr aux tpc pm async t hn
    obtain ⟨hnotify, hocc⟩ := enterTrap_keeps t cause addr aux tpc pm async
    obtain ⟨htpc, htaddr, htaux⟩ := enterTrap_saves t cause addr aux tpc pm async
    obtain ⟨hentry, hpark⟩ := enterTrap_entry t cause addr aux tpc pm async
    have htstat := enterTrap_tstat t cause addr aux tpc pm async
    refine ⟨t.enterTrap cause addr aux tpc pm async, ?_, htpc, enterTrap_tcause .., htaddr, htaux, enterTrap_tnest .., ?_, ?_, fun hd hu => ?_,
      fun hr => ?_, fun k h0 h1 h4 => ?_, hentry, hpark, enterTrap_light .., hnotify, hocc, enterTrap_registers t cause addr aux tpc pm async,
      enterTrap_heavy t cause addr aux tpc pm async, takeTrap_mem hn .., fun c k hne => ?_⟩
    · rw [takeTrap_thread hn, if_pos rfl]
    · rw [htstat]; exact trapTstat_pprv t cause pm
    · rw [htstat]; exact trapTstat_pm t cause pm
    · exact enterTrap_delegated _ _ _ _ _ _ _ ((delegates_iff t cause).mpr ⟨hd, hu⟩)
    · exact enterTrap_raised _ _ _ _ _ _ _ ((not_delegates_iff t cause).mpr hr)
    · rw [htstat]; exact trapTstat_other t cause pm h0 h1 h4
    · rw [takeTrap_thread hn, if_neg hne]
  case double =>
    intro s core slot cause addr aux tpc pm async c cr t hn hcr hc u
    obtain ⟨v, hfreeze, r, hr, hkind, hcore⟩ := freeze_endsGraph hcr hc cause addr aux
    have hu : u = endGraph v cr.graph 0x0A 0 := (if_pos hn).trans hfreeze
    rw [hu]
    refine ⟨endGraph_gone _ _ _ _, r, ?_, hkind, hcore⟩
    rw [(endGraph_logKept _ _ _ _).mgmt, hr]

end Sys2Proof.Machine
end

