-- ==== Sys2Proof/Proofs/ThreadsGoOn.lean ====
section
/-! SUPPORT. What threads meet between their instructions (R150 to R154, R160 to R169, R172, R173, R179, R194, R219, R351, R447): O56. -/

namespace Sys2Proof.Machine

/-! ## Boundaries (R172, R447) -/

theorem trapDue_of_boundary {t : Thread} {a : AsyncTrap} {l : List AsyncTrap} (ha : t.atraps = a :: l)
    (hn : t.csr.tnest.getLsbD 0 = false) (hb : t.atBoundary = true) : t.trapDue = true := by
  rw [Thread.trapDue, ha, bit, hn, hb]
  rfl

theorem takeAsync_eq {s : State} {core slot : Nat} {a : AsyncTrap} {l : List AsyncTrap} (ha : (s.thread core slot).atraps = a :: l) :
    takeAsync s core slot = takeTrap (s.modThread core slot Thread.popTrap) core slot a.cause.toNat a.addr a.aux
      (s.thread core slot).boundaryPC false true := by
  rw [takeAsync, ha]
  rfl

theorem asyncTrapEntry_eq {s : State} {core slot : Nat} (hturn : (s.at core slot).hasTurn = true) (hskip : (s.at core slot).me.skip = 0)
    (hdue : (s.at core slot).me.trapDue = true) : asyncTrapEntry core slot s = some (takeAsync (s.at core slot) core slot) := by
  rw [asyncTrapEntry, hturn, hskip, hdue]
  rfl

theorem notifyEntry_eq {s : State} {core slot : Nat} (hturn : (s.at core slot).hasTurn = true) (hskip : (s.at core slot).me.skip = 0)
    (hdiv : (s.at core slot).me.divertible = true) : notifyEntry core slot s = some ((s.at core slot).modMe Thread.divert) := by
  rw [notifyEntry, hturn, hskip, hdiv]
  rfl

theorem divert_eq {t : Thread} {n : Notify} {l : List Notify} (h : t.nq = n :: l) :
    t.divert = t.enterNotify n (match t.park with | some p => p.addr | none => t.pc) := by
  rw [Thread.divert, h] <;> rfl

/-! ## Results in flight (R153) -/

theorem asyncResultLand_eq {s : State} {core slot i : Nat} {p : Pending} (hp : (s.thread core slot).pend[i]? = some p)
    (hleft : p.left = none) (hawaits : p.awaits = false) (hfrozen : (s.thread core slot).frozen = false) :
    asyncResultLand core slot i s = some (s.setThread core slot
      ({ s.thread core slot with pend := (s.thread core slot).pend.eraseIdx i }.land p)) := by
  rw [asyncResultLand, hp]
  exact if_pos (by rw [hleft, hawaits, hfrozen]; rfl)

/-! ## Parked threads that go on (R150, R160, R162, R169, R179, R194) -/

/-- The end of a turn in which nothing is held back. -/
theorem endTurn_of_not_held (s : State) (w : Nat) (e : Eff) (again : List (Instr × Ops)) (nxt : Word) :
    endTurn s w ⟨e, again, nxt, false⟩ = settle s again w nxt e := by
  cases e <;> rfl

/-- Another try of one instruction is its effect with what it has read. -/
theorem retryParked_single {p : Park} {i : Instr} {o : Ops} {b : Body} (hp : p.resume = [(i, o)]) (hb : bodyOf i = some b) (s : State) :
    retryParked s p = settle s [(i, o)] b.h.w.toNat (p.next.getD s.me.pc) (b.eff o s) := by
  have members : (p.resume.filterMap fun r => (bodyOf r.1).map fun b => ((⟨r.1, b, p.addr⟩ : Member), r.2)) = [(⟨i, b, p.addr⟩, o)] := by
    rw [hp, List.filterMap_cons_some (by rw [hb]; rfl), List.filterMap_nil]
  rw [retryParked, members]
  show endTurn s (max 0 b.h.w.toNat) ⟨b.eff o s, [(i, o)], p.next.getD s.me.pc, false⟩ = _
  rw [endTurn_of_not_held, Nat.zero_max]

theorem retryIf_some {ok : Park → Bool} {s : State} {core slot : Nat} {p : Park} (hr : s.retryable core slot = some p) (hok : ok p = true) :
    retryIf ok core slot s = some (retryParked (s.at core slot) p) := by
  rw [retryIf, hr]
  exact if_pos hok

theorem retryIf_none {ok : Park → Bool} {s : State} {core slot : Nat} (h : ∀ p, s.retryable core slot = some p → ok p = false) :
    retryIf ok core slot s = none := by
  rw [retryIf]
  cases hr : s.retryable core slot with
  | none => rfl
  | some p => exact if_neg (ne_true_of_eq_false (h p hr))

/-- The first number of a range at which a search succeeds. -/
theorem findSome?_span {α : Type} {f : Nat → Option α} {k : Nat} {v : α} (hv : f k = some v) (n lo : Nat) (hlo : lo ≤ k) (hk : k < lo + n)
    (hnone : ∀ j, lo ≤ j → j < k → f j = none) : (span lo n).findSome? f = some v := by
  induction n generalizing lo with
  | zero => omega
  | succ n ih =>
    rw [span]
    obtain rfl | hlt := Nat.eq_or_lt_of_le hlo
    · rw [List.findSome?_cons, hv]
    · rw [List.findSome?_cons, hnone lo (Nat.le_refl lo) hlt]
      exact ih (lo + 1) hlt (by omega) fun j hj => hnone j (by omega)

/-- A CTXSW that waits to be made. -/
def Park.waitsCtxsw (p : Park) : Bool := p.resume.any fun r => match r.1 with | .ctxsw _ _ _ => true | _ => false

theorem waitsCtxsw_eq_false {p : Park} (h : ∀ r ∈ p.resume, ∀ h x y, r.1 ≠ .ctxsw h x y) : p.waitsCtxsw = false := by
  rw [Park.waitsCtxsw, List.any_eq_false]
  intro r hr
  split
  · next h' x y heq => exact absurd heq (h r hr h' x y)
  · exact Bool.false_ne_true

/-- The CTXSW of the lowest slot goes on. -/
theorem closetSwap_first {s : State} {core slot : Nat} {p : Park} (hslot : slot < 8) (hr : s.retryable core slot = some p)
    (hp : p.waitsCtxsw = true) (hfirst : ∀ j q, j < slot → s.retryable core j = some q → q.waitsCtxsw = false) :
    closetSwap core s = some (retryParked (s.at core slot) p) :=
  findSome?_span (retryIf_some hr hp) 8 0 (Nat.zero_le slot) (by omega) fun j _ hj => retryIf_none fun q hq => hfirst j q hj hq

/-- Where the effect is made, the thread goes on with the turns of its instruction to skip. -/
theorem settle_done (s v : State) (members : List (Instr × Ops)) (w : Nat) (nxt : Word) :
    (settle s members w nxt (.done v)).me.park = none ∧ (settle s members w nxt (.done v)).me.pc = nxt ∧
      (settle s members w nxt (.done v)).me.skip = w ∧ (settle s members w nxt (.done v)).mem = v.mem := by
  have hme : (settle s members w nxt (.done v)).me = _ := me_goOn v nxt none w
  rw [hme]
  exact ⟨rfl, rfl, rfl, rfl⟩

/-! ## Buffered words (R160, R162) -/

theorem deliverOut_some {reg : Bool} {core slot : Nat} {s s' : State} {l : Loc} {o : OutWord} (hl : s.place core slot = some l)
    (ho : (s.atLoc l).outBuf = some o) (hreg : o.reg.isSome = reg) (hd : tryDeliver s (s.atLoc l).ref o = some s') :
    deliverOut reg core slot s = some (s'.modLoc l fun t => { t with outBuf := none }) := by
  rw [deliverOut, hl]
  dsimp only
  rw [ho]
  exact (if_pos hreg).trans (by rw [hd]; rfl)

section Delivery

variable {s : State} {o : OutWord} {from_ r : TRef} {c : Crew} {x : Thread}
  (ht : s.target (s.ctxOf from_.crew) o.core.toNat o.slot.toNat = some r) (hc : s.crew? r.crew = some c) (hx : s.ref? r = some x)
  (htakes : (!c.accepts || !x.occ || x.exited) = false)
include ht hc hx htakes

/-- A sent word enters the target's input queue. -/
theorem tryDeliver_sent (ho : o.reg = none) (hroom : x.inq.length < 16) :
    tryDeliver s from_ o = some (s.modRef r fun t => { t with inq := t.inq ++ [o.word] }) := by
  simp only [tryDeliver, ht, hc, hx, htakes, ho, if_pos hroom]
  rfl

/-- A register put fills the target's empty register. -/
theorem tryDeliver_put {k : BitVec 5} (ho : o.reg = some k) (hlight : (x.light && decide (10 ≤ k.toNat)) = false)
    (hfree : (x.isFull k.toNat || x.awaits (.g k 0) || x.parkWrites k || s.retained (c.phys r.lcore) 2) = false) :
    tryDeliver s from_ o = some (s.modRef r fun t => t.writeReg (.g k o.word)) := by
  simp only [tryDeliver, ht, hc, hx, htakes, ho, hlight, hfree]
  rfl

/-- A register put that the light target does not have is the sender's PARAM. -/
theorem tryDeliver_refused {k : BitVec 5} (ho : o.reg = some k) (hlight : x.light = true) (hk : 10 ≤ k.toNat) :
    tryDeliver s from_ o = some (s.modRef from_ fun y =>
      y.postTrap PARAM 0 (word (o.core.toNat + o.slot.toNat * 2 ^ 12 + k.toNat * 2 ^ 15))) := by
  simp only [tryDeliver, ht, hc, hx, htakes, ho, hlight, hk]
  rfl

end Delivery

/-! ## The send timeout (R161, R351) -/

theorem sndWait_of_message {t : Thread} {p : Park} (hp : t.park = some p) (hw : p.why = .message) (hk : p.key ≠ 0) (hm : p.key ≠ keyMail) :
    t.sndWait = some p := by
  simp [Thread.sndWait, hp, hw, hk, hm]

theorem sndWait_of_exit {t : Thread} {p : Park} {o : OutWord} (hp : t.park = some p) (hw : p.why = .exit) (ho : t.outBuf = some o) :
    t.sndWait = some p := by
  simp [Thread.sndWait, hp, hw, ho]

section Timeout

variable {s : State} {core slot : Nat} {p : Park} (hocc : (s.thread core slot).occ = true)
  (htmo : fld ((s.thread core slot).tmoNow s.devtime).1 0 20 ≠ 0)
  (htimer : fld ((s.thread core slot).tmoNow s.devtime).1 0 20 * 1000 ≤ (s.thread core slot).timer)
  (hwait : (s.thread core slot).sndWait = some p)
include hocc htmo htimer hwait

theorem sendTimeout_message (hw : p.why ≠ .exit) :
    sendTimeout core slot s = some (takeTrap s core slot SNDTO 0 (word (sndtoAux p.key)) p.addr false false) := by
  simp [sendTimeout, hwait, hocc, htmo, Nat.not_lt.mpr htimer, hw]

theorem sendTimeout_exit {o : OutWord} (hw : p.why = .exit) (ho : (s.thread core slot).outBuf = some o)
    (hnew : ∀ a ∈ (s.thread core slot).atraps ++ (s.thread core slot).atrapsHeld, a.cause.toNat ≠ SNDTO) :
    sendTimeout core slot s = some (exitTrap s core slot SNDTO 0 (word (sndtoAux (keySend o.core.toNat o.slot.toNat)))) := by
  have hany : (((s.thread core slot).atraps ++ (s.thread core slot).atrapsHeld).any fun a => decide (a.cause.toNat = SNDTO)) = false := by
    rw [List.any_eq_false]
    exact fun a ha => by simpa using hnew a ha
  simp only [sendTimeout, hwait, hocc, htmo, Nat.not_lt.mpr htimer, hw, hany, ho]
  rfl

end Timeout

/-! ## Acknowledgement (R219) -/

theorem writeAcknowledge_eq {s : State} {core slot n : Nat} (hn : n ≠ 0) (hle : n ≤ (s.thread core slot).unacked)
    (hheld : ∀ c, s.ctx? (s.ctxOf (s.thread core slot).ref.crew) = some c → ∀ q b, HeldOut.host q b ∉ c.outs) :
    writeAcknowledge core slot n s = some (s.modThread core slot fun t => { t with unacked := t.unacked - n }) := by
  rw [writeAcknowledge]
  refine if_neg (Bool.not_eq_true _ ▸ ?_)
  rw [Bool.or_eq_false_iff, Bool.or_eq_false_iff]
  refine ⟨⟨decide_eq_false hn, decide_eq_false (Nat.not_lt.mpr hle)⟩, ?_⟩
  cases hc : s.ctx? (s.ctxOf (s.thread core slot).ref.crew) with
  | none => rfl
  | some c =>
    refine List.any_eq_false.mpr fun o ho => ?_
    split
    · next q b => exact absurd ho (hheld c hc q b)
    · exact Bool.false_ne_true

/-- Settles O56, an event at a time; a parked thread's other try is the effect of its one instruction (`retryParked_single`). -/
theorem threadsGoOn : Obligations.ThreadsGoOn := by
  unfold Obligations.ThreadsGoOn
  refine ⟨?trap, ?notify, ?result, ?retry, ?deliver, ?timeout, ?acknowledge⟩
  case trap =>
    intro core slot s a l u hturn hskip ha hn hb
    refine event_some ((asyncTrapEntry_eq hturn hskip (trapDue_of_boundary ha hn hb)).trans (congrArg some ?_))
    exact takeAsync_eq ha
  case notify =>
    intro core slot s n l u hturn hskip hq hdiv
    have hme : (u.modMe Thread.divert).me = u.me.enterNotify n (match u.me.park with | some p => p.addr | none => u.me.pc) := by
      rw [me_modMe, divert_eq hq]
    refine ⟨u.modMe Thread.divert, event_some (notifyEntry_eq hturn hskip hdiv), ?_⟩
    rw [hme]
    exact ⟨rfl, by rw [Thread.enterNotify, hq]; rfl, rfl, rfl, rfl, rfl, rfl, rfl⟩
  case result =>
    intro core slot i s p t hp hleft hawaits hfrozen
    exact event_some (asyncResultLand_eq hp hleft hawaits hfrozen)
  case retry =>
    intro core slot s p i o b u hr hp hb w next
    have hnext : retryParked u p = next := retryParked_single hp hb u
    refine ⟨fun hw => ?_, fun hi => ?_, fun hi h7 => ?_, fun hi h8 hfirst => ?_, fun v hv => ?_⟩
    · rw [← hnext]
      refine event_some (retryIf_some hr ?_)
      rcases hw with hw | hw | hw <;> simp [hw]
    · rw [← hnext]
      refine event_some (retryIf_some hr ?_)
      rcases hi with ⟨h, k, rfl⟩ | ⟨h, a, k, rfl⟩ <;> simp [hp]
    · subst h7
      obtain ⟨h, a, d, rfl⟩ := hi
      rw [← hnext]
      exact event_some (retryIf_some hr (by simp [hp]))
    · obtain ⟨h, x, y, rfl⟩ := hi
      rw [← hnext]
      exact event_some (closetSwap_first h8 hr (by simp [Park.waitsCtxsw, hp]) fun j q hj hq => waitsCtxsw_eq_false (hfirst j q hj hq))
    · have hdone : next = settle u [(i, o)] w (p.next.getD u.me.pc) (.done v) := by rw [← hv]
      rw [hdone]
      exact settle_done u v _ w _
  case deliver =>
    intro core slot l s o r c x hl t ho ht hc haccepts hx hocc hexited
    have htakes : (!c.accepts || !x.occ || x.exited) = false := by rw [haccepts, hocc, hexited]; rfl
    refine ⟨fun hreg hroom => ?_, fun k hreg hlight hfull hawaits hparked hawake => ?_, fun k hreg hlight hk => ?_⟩
    · exact event_some (deliverOut_some hl ho (by rw [hreg]; rfl) (tryDeliver_sent ht hc hx htakes hreg hroom))
    · have hown : (x.light && decide (10 ≤ k.toNat)) = false := by
        cases hx : x.light with
        | true => simpa using hlight hx
        | false => rfl
      refine event_some (deliverOut_some hl ho (by rw [hreg]; rfl) (tryDeliver_put ht hc hx htakes hreg hown ?_))
      rw [hfull, hawaits, hparked, hawake]
      rfl
    · exact event_some (deliverOut_some hl ho (by rw [hreg]; rfl) (tryDeliver_refused ht hc hx htakes hreg hlight hk))
  case timeout =>
    intro core slot s p t tmo hocc hp htmo htimer
    refine ⟨fun hw hk hm => ?_, fun o hw ho hnew => ?_⟩
    · exact event_some (sendTimeout_message hocc htmo htimer (sndWait_of_message hp hw hk hm) (by rw [hw]; decide))
    · exact event_some (sendTimeout_exit hocc htmo htimer (sndWait_of_exit hp hw ho) hw ho hnew)
  case acknowledge =>
    intro core slot n s hn hle hheld
    exact event_some (writeAcknowledge_eq hn hle hheld)

end Sys2Proof.Machine
end

