-- ==== Sys2Proof/Proofs/StepRunsDecoded.lean ====
section
/-! SUPPORT. From the agenda's turn to the instruction that it issues (R152, R164, R288, R300): O38. -/

namespace Sys2Proof.Machine

/-! ## The instruction in a line (steps 2 and 3 of R300) -/

theorem memberOf_decoded {img : LineImg} {k : Nat} {i : Instr} {b : Body} (hx : xBitOk img k = true) (hd : decodeSlot img k = .ok i)
    (hb : bodyOf i = some b) (line : Word) : memberOf img line k = .ok ⟨i, b, line + word k⟩ := by
  simp only [memberOf, hx, hd, hb]
  rfl

/-- A line whose slot at the PC holds a single instruction issues that instruction. -/
theorem issueFrom_single {v : State} {img : LineImg} {i : Instr} {b : Body} (hpair : linePair img (slotOf v.me.pc) = false)
    (hparity : badSlots img (if linePL img then [0, 1, 2, 3, 4] else [slotOf v.me.pc]) = 0) (hx : xBitOk img (slotOf v.me.pc) = true)
    (hlate : lateMember img (slotOf v.me.pc) = false ∨ isExit i = true) (hd : decodeSlot img (slotOf v.me.pc) = .ok i)
    (hb : bodyOf i = some b) :
    issueFrom v img = .one i (match b.accept v with | .ok _ => beginTurn v v.me.pc 1 | .error _ => v) := by
  have hfirst : (lateMember img (slotOf v.me.pc) && !isExit i) = false := by
    rcases hlate with h | h <;> simp [h]
  rw [issueFrom]
  rw [hpair, if_neg Bool.false_ne_true, if_neg (not_not_intro hparity), memberOf_decoded hx hd hb]
  exact if_neg (ne_true_of_eq_false hfirst)

/-! ## The line of the turn (step 1 of R300) -/

/-- The thread issues from the line that it holds. -/
theorem fetchIssue_kept {u : State} {img : LineImg} (hline : u.me.line = some (lineOf u.me.pc, img)) (hentry : u.me.entry = false) :
    fetchIssue u = issueFrom u img := by
  simp [fetchIssue, hline, hentry]

/-- A thread without a line issues from the one that memory holds. -/
theorem fetchIssue_fetched {u v : State} {img : LineImg} (hline : u.me.line = none)
    (henter : enterLine u u.curCore u.myCtx u.me.user u.me.entry u.me.pc = (v, .ok img)) :
    fetchIssue u = issueFrom (v.modMe fun t => { t with line := some (lineOf t.pc, img), entry := false }) img := by
  simp only [fetchIssue, hline, henter]

/-! ## The turn -/

/-- A turn in which nothing is due before the next instruction. -/
theorem turnOf_next {s u : State} {core slot : Nat} (hocc : ({ s with curCore := core, curSlot := slot } : State).me.occ = true)
    (hu : u = ({ s with curCore := core, curSlot := slot } : State).modMe Thread.tick) (hturn : u.hasTurn = true) (hskip : u.me.skip = 0)
    (htrap : u.me.trapDue = false) (hdivert : u.me.divertible = false) (hpark : u.me.park = none) :
    turnOf s core slot = nextInstr u := by
  subst hu
  rw [turnOf]
  dsimp only
  rw [hocc, hturn, hskip, htrap, hdivert, hpark]
  rfl

theorem elapse_running {s : State} (h : s.mgmt.stopped = false) (dt : Nat) : (elapse s dt).mgmt.stopped = false := by
  rw [elapse, h, if_neg Bool.false_ne_true, passTime]
  dsimp only
  split <;> exact h

/-- The step that carries out a slot's turn. -/
theorem step_turn {s v : State} {dt core slot : Nat} {r : List Act} {i : Instr} (ha : s.agenda = .turn dt core slot :: r)
    (hrun : s.mgmt.stopped = false) (ht : turnOf (elapse { s with agenda := r } dt) core slot = .one i v) : step s = exec i v := by
  have hclocks : (elapse { s with agenda := r } dt).mgmt.stopped = false := elapse_running (s := { s with agenda := r }) hrun dt
  have hmove : nextMove s = .run i v := by
    rw [nextMove, ha]
    dsimp only [agendaMove]
    rw [turnMove, hclocks, if_neg Bool.false_ne_true, ht]
  rw [step_eq, hmove, Move.out]

/-- Settles O38: the turn comes to `issueFrom` of the thread's line, kept or fetched. -/
theorem stepRunsDecoded : Obligations.StepRunsDecoded := by
  unfold Obligations.StepRunsDecoded
  intro s u v dt core slot r img i b ha hrun w hocc hu hturn hskip htrap hdivert hpark hown hline hpair hparity hx hlate hd hb
  have hfetch : fetchIssue u = issueFrom v img := by
    rcases hline with ⟨hkept, hentry, rfl⟩ | ⟨hnone, u2, henter, rfl⟩
    · exact fetchIssue_kept hkept hentry
    · have hcore : u.curCore = core := by rw [hu]; rfl
      exact fetchIssue_fetched hnone (hcore.symm ▸ henter)
  refine step_turn ha hrun ?_
  calc turnOf (elapse { s with agenda := r } dt) core slot
      = nextInstr u := turnOf_next hocc hu hturn hskip htrap hdivert hpark
    _ = fetchIssue u := if_neg (ne_true_of_eq_false hown)
    _ = issueFrom v img := hfetch
    _ = .one i _ := issueFrom_single hpair hparity hx hlate hd hb

end Sys2Proof.Machine
end

