-- ==== Sys2Proof/Proofs/CopiesEnter.lean ====
section
/-! SUPPORT. Copy commands enter the vat's engine (R22, R193, R194, R429 to R433), and O29. -/

namespace Sys2Proof.Machine

/-! ## What the acceptance of a command leaves unchanged -/

/-- Memory, the vats, the contexts and the context of every crew are as before. -/
structure AcceptKept (s t : State) : Prop where
  mem : t.mem = s.mem
  vats : t.vats = s.vats
  ctxs : t.ctxs = s.ctxs
  ctxOf : ∀ n, t.ctxOf n = s.ctxOf n

namespace AcceptKept

theorem refl (s : State) : AcceptKept s s := ⟨rfl, rfl, rfl, fun _ => rfl⟩

theorem trans {s t u : State} (h : AcceptKept s t) (g : AcceptKept t u) : AcceptKept s u :=
  ⟨g.mem.trans h.mem, g.vats.trans h.vats, g.ctxs.trans h.ctxs, fun n => (g.ctxOf n).trans (h.ctxOf n)⟩

theorem vat {s t : State} (h : AcceptKept s t) (v : Nat) : t.vat v = s.vat v := by rw [State.vat, State.vat, h.vats]

theorem profiled {s t : State} (h : AcceptKept s t) (ctx : Nat) : t.profiled ctx = s.profiled ctx := by
  rw [State.profiled, State.profiled, State.ctx?, State.ctx?, h.ctxs]

end AcceptKept

/-- Holds that are registered stand in their table alone (R206). -/
theorem register_acceptKept {s t : State} {l : List Hold} (h : register s l = .ok t) : AcceptKept s t := by
  unfold register at h
  split at h
  · cases h
  · split at h
    · cases h
    · split at h <;> cases h
      exact ⟨rfl, rfl, rfl, fun _ => rfl⟩

/-- The context of a crew is no part of its cores' records. -/
theorem ctxOf_modCrewCore (s : State) (n lc : Nat) (f : CrewCore → CrewCore) (m : Nat) : (s.modCrewCore n lc f).ctxOf m = s.ctxOf m := by
  unfold State.ctxOf State.crew?
  rw [State.modCrewCore, modCrew_crews, Tbl.find_modify]
  by_cases h : m = n
  · rw [if_pos h]
    cases Tbl.find s.crews m <;> rfl
  · rw [if_neg h]

theorem modCrewCore_acceptKept (s : State) (n lc : Nat) (f : CrewCore → CrewCore) : AcceptKept s (s.modCrewCore n lc f) :=
  ⟨rfl, rfl, rfl, ctxOf_modCrewCore s n lc f⟩

/-- Taking the receivers' buffers writes BF of their crew's cores alone (R194). -/
theorem takeBuffers_acceptKept (s : State) (b : BitVec 4) (c : CopyRec) : AcceptKept s (takeBuffers s b c) := by
  have hfold (l : List Nat) (u : State) (hu : AcceptKept s u) : AcceptKept s (l.foldl (fun u lc =>
      u.modCrewCore u.me.ref.crew lc fun x => { x with bf := setFld x.bf b.toNat 1 0 }) u) := by
    induction l generalizing u with
    | nil => exact hu
    | cons lc l ih => exact ih _ (hu.trans (modCrewCore_acceptKept _ _ _ _))
  exact hfold _ s (.refl s)

/-! ## Trace records of a context that is not profiled (R102) -/

theorem trace_unprofiled {s : State} {ctx : Nat} (h : s.profiled ctx = false) (kind tag arg core slot : Nat) :
    trace s ctx kind tag arg core slot = s := by
  rw [trace, profWrite, h, if_neg Bool.false_ne_true]

theorem traceCopy_unprofiled {s : State} {c : CopyCmd} (h : s.profiled (s.ctxOf c.issuer.crew) = false) (kind landed : Nat) :
    traceCopy s kind c landed = s := trace_unprofiled h _ _ _ _ _

/-! ## The acceptance (R429) -/

/-- The command as the engine accepts it: nothing has landed, and its route is that of the moment (R22). -/
def acceptedCopy (k : Nat) (b : BitVec 4) (o : Ops) (s : State) (l : List (CopyRange × List (Nat × Nat × Nat × BitVec 64))) : CopyCmd :=
  ⟨s.fresh.1, k, o.rcd, b.toNat, s.me.ref, 0, [], 0, [], 0, latchPages (l.flatMap fun x => x.2), false, s.me.user, [],
    routeOf s (copyRec o.rcd), false⟩

/-- The receivers' buffers are taken by a CPYM alone. -/
def buffersTaken (k : Nat) (b : BitVec 4) (c : CopyRec) (s : State) : State := if k = CPYMK then takeBuffers s b c else s

theorem buffersTaken_acceptKept (k : Nat) (b : BitVec 4) (c : CopyRec) (s : State) : AcceptKept s (buffersTaken k b c s) := by
  unfold buffersTaken
  split
  · exact takeBuffers_acceptKept s b c
  · exact .refl s

section Effect
variable {k : Nat} {b : BitVec 4} {o : Ops} {s : State} {l : List (CopyRange × List (Nat × Nat × Nat × BitVec 64))}

theorem copyEff_fault {cause aux : Nat} {va : Word} (h : copyXl s (copyRanges k (copyRec o.rcd)) = .flt cause va aux) :
    copyEff k b o s = .trap s cause va (word aux) := by
  simp only [copyEff, h]

theorem copyEff_full (h : copyXl s (copyRanges k (copyRec o.rcd)) = .ok l) (hfull : 32 ≤ (s.vat (vatOf s.curCore)).copies.length) :
    copyEff k b o s = .wait s .memory 0 := by
  simp only [copyEff, h, if_pos hfull]

theorem copyEff_buffersBusy (h : copyXl s (copyRanges k (copyRec o.rcd)) = .ok l) (hroom : (s.vat (vatOf s.curCore)).copies.length < 32)
    (hk : k = CPYMK) (hbusy : buffersFree s b (copyRec o.rcd) = false) : copyEff k b o s = .wait s .message 0 := by
  subst hk
  simp only [copyEff, h, if_neg (Nat.not_le.mpr hroom), hbusy]
  rfl

/-- A command whose ranges translate, whose buffers are free and whose holds are taken enters its vat's engine. -/
theorem copyEff_accepted {s2 : State} (h : copyXl s (copyRanges k (copyRec o.rcd)) = .ok l)
    (hroom : (s.vat (vatOf s.curCore)).copies.length < 32) (hfree : k = CPYMK → buffersFree s b (copyRec o.rcd) = true)
    (hreg : register s.fresh.2 (copyHolds s k s.fresh.1 (copyRec o.rcd) l) = .ok s2) :
    copyEff k b o s = .done (traceCopy ((buffersTaken k b (copyRec o.rcd) s2).modVat (vatOf s.curCore) fun x =>
      { x with copies := x.copies ++ [acceptedCopy k b o s l] }) 1 (acceptedCopy k b o s l) 0) := by
  have hwait : ¬ (decide (k = CPYMK) && !buffersFree s b (copyRec o.rcd)) = true := by
    intro hc
    obtain ⟨hk, hbusy⟩ := Bool.and_eq_true_iff.mp hc
    rw [hfree (of_decide_eq_true hk)] at hbusy
    cases hbusy
  simp only [copyEff, h, if_neg (Nat.not_le.mpr hroom), if_neg hwait, hreg]
  rfl

end Effect

/-- The vat whose engine accepts a command, in a context that is not profiled. -/
theorem accepted_vat {s s2 : State} {k : Nat} {b : BitVec 4} {c : CopyRec} {cmd : CopyCmd} (v : Nat) (hcmd : cmd.issuer = s.me.ref)
    (hs : AcceptKept s s2) (hprof : s.profiled s.myCtx = false) :
    let t := traceCopy ((buffersTaken k b c s2).modVat v fun x => { x with copies := x.copies ++ [cmd] }) 1 cmd 0
    (t.vat v).copies = (s2.vat v).copies ++ [cmd] ∧ t.mem = s2.mem := by
  have hb : AcceptKept s2 (buffersTaken k b c s2) := buffersTaken_acceptKept k b c s2
  have hctx : ((buffersTaken k b c s2).modVat v fun x => { x with copies := x.copies ++ [cmd] }).ctxOf cmd.issuer.crew = s.myCtx := by
    rw [hcmd]
    exact (hs.trans hb).ctxOf _
  have hoff : ((buffersTaken k b c s2).modVat v fun x => { x with copies := x.copies ++ [cmd] }).profiled s.myCtx = false :=
    ((hs.trans hb).profiled s.myCtx).trans hprof
  intro t
  have ht : t = (buffersTaken k b c s2).modVat v fun x => { x with copies := x.copies ++ [cmd] } :=
    traceCopy_unprofiled (hctx.symm ▸ hoff) 1 0
  rw [ht]
  exact ⟨by rw [vat_modVat_same, hb.vat], hb.mem⟩

/-! ## The statement -/

/-- The four copy instructions have one body. -/
theorem bodyOf_copy {i : Instr} {h : Hdr} {k : Nat} {b : BitVec 4} {blk : BitVec 384}
    (hi : (i = .cpy h blk ∧ k = 0 ∧ b = 0) ∨ (i = .remoteAtomicAdd h blk ∧ k = 0 ∧ b = 0) ∨ (i = .cpym h b blk ∧ k = 1) ∨
      (i = .gathr h blk ∧ k = 2 ∧ b = 0)) : bodyOf i = some (copyBody h k b blk) := by
  obtain ⟨rfl, rfl, rfl⟩ | ⟨rfl, rfl, rfl⟩ | ⟨rfl, rfl⟩ | ⟨rfl, rfl, rfl⟩ := hi <;> rfl

/-- Settles O29: the answer is the one that `copyEff` gives in each of its cases. -/
theorem copiesEnter : Obligations.CopiesEnter := by
  unfold Obligations.CopiesEnter
  intro i h k b blk s s1 o hi hissues c v
  have hbody : bodyOf i = some (copyBody h k b blk) := bodyOf_copy hi
  refine ⟨fun cause va x hx => exec_trap hissues hbody (copyEff_fault hx), fun l hl => ⟨fun hfull => ?full, ?enters, ?busy⟩⟩
  case full => exact exec_wait hissues hbody (copyEff_full hl hfull)
  case enters =>
    intro s2 hroom hfree hreg hprof
    have hfresh : AcceptKept s1 s1.fresh.2 := ⟨rfl, rfl, rfl, fun _ => rfl⟩
    have hkept : AcceptKept s1 s2 := hfresh.trans (register_acceptKept hreg)
    obtain ⟨hcopies, hmem⟩ := accepted_vat (k := k) (b := b) (c := c) (cmd := acceptedCopy k b o s1 l) v rfl hkept hprof
    exact ⟨_, _, exec_done hissues hbody (copyEff_accepted hl hroom hfree hreg), hcopies, rfl, rfl, rfl, rfl, rfl, rfl, hmem⟩
  case busy => exact fun hk hroom hbusy => exec_wait hissues hbody (copyEff_buffersBusy hl hroom hk hbusy)

end Sys2Proof.Machine
end

