-- ==== Sys2Proof/Proofs/TablesAndTranslations.lean ====
section
/-! SUPPORT. Trace records, T4 tables and the invalidation of translations (R179, R180, R450 to R452), and O36. -/

namespace Sys2Proof.Machine

/-- An instruction that issues has passed its own check with what it has read (steps 9 and 10 of R300). -/
theorem chk_of_issues {i : Instr} {b : Body} {s s1 : State} {o : Ops} (hi : Issues i s o s1) (hb : bodyOf i = some b) :
    ∃ r, b.chk r s = none ∧ o = { r with nxt := nextPC s.me.pc 1 b.blk, own := s.me.pc } := by
  obtain ⟨r, s', hg, -, ho⟩ := accept_some (accept_of_issues hi hb)
  refine ⟨r, ?_, ho⟩
  unfold Body.gather at hg
  split at hg
  · cases hg
  split at hg
  · cases hg
  next hlate =>
  cases hg
  unfold Body.late at hlate
  split at hlate
  · cases hlate
  · exact hlate

theorem holds_of_check {p : Prop} [Decidable p] {st : Stop} (h : (if p then none else some st) = none) : p := by
  by_contra hp
  rw [if_neg hp] at h
  cases h

/-! ## TRC (R450) -/

@[simp] theorem trace_threads (s : State) (ctx kind tag arg core slot : Nat) : (trace s ctx kind tag arg core slot).threads = s.threads := by
  rw [(trace_eq s ctx kind tag arg core slot).1]

theorem bodyTrc_eff (h : Hdr) (a : BitVec 5) (tag : BitVec 16) (o : Ops) (s : State) :
    (bodyTrc h a tag).eff o s = .done (trace s s.myCtx 7 tag.toNat (o.a.toNat % 2 ^ 32) s.curCore s.curSlot) := rfl

/-! ## LUTLD (R451) -/

/-- An aligned access that is performed goes on with its translation. -/
theorem access_performed {s s2 : State} {va : Word} {n : Nat} {acc : Acc} {atomic : Bool} {k : State → Xl → Eff} {x : Xl}
    (ha : va.toNat % n = 0) (h : threadAccess s va n acc (!atomic) = (s2, .ok x)) : access s va n acc atomic k = k s2 x := by
  simp only [access, ha, h, ne_eq, not_true_eq_false, if_false]

/-- The T4 table of a crew's core after it is written. -/
theorem crewCore_modCrewCore_same {s : State} {n : Nat} {c : Crew} (h : s.crew? n = some c) (lc : Nat) (f : CrewCore → CrewCore) :
    (s.modCrewCore n lc f).crewCore n lc = f (s.crewCore n lc) := by
  simp [State.crewCore, State.modCrewCore, h, Tbl.get, Tbl.find_ins]

/-- The 16 bytes that LUTLD reads stand at a multiple of 16. -/
theorem lutld_aligned {h : Hdr} {a : BitVec 5} {s s1 : State} {o : Ops} (hi : Issues (.lutld h a) s o s1) : o.a.toNat % 16 = 0 := by
  obtain ⟨r, hchk, rfl⟩ := chk_of_issues hi rfl
  exact of_decide_eq_true (Bool.and_eq_true_iff.mp (holds_of_check hchk)).1

/-- The table of a crew's core with the bytes at an address of memory. -/
def loadT4 (s : State) (pa : Nat) : State :=
  s.modCrewCore s.me.ref.crew s.me.ref.lcore fun c => { c with t4 := BitVec.ofNat 128 (s.read (dieOf s.curCore) pa 16) }

theorem bodyLutld_eff {h : Hdr} {a : BitVec 5} {s s2 : State} {o : Ops} {x : Xl} (ha : o.a.toNat % 16 = 0)
    (hx : threadAccess s o.a 16 .read true = (s2, .ok x)) : (bodyLutld h a).eff o s = .done (loadT4 s2 x.pa) :=
  access_performed ha hx

theorem loadT4_t4 {s : State} {c : Crew} (h : s.crew? s.me.ref.crew = some c) (pa : Nat) :
    ((loadT4 s pa).crewCore s.me.ref.crew s.me.ref.lcore).t4 = BitVec.ofNat 128 (s.read (dieOf s.curCore) pa 16) := by
  rw [loadT4, crewCore_modCrewCore_same h]

/-! ## The translations that an invalidation removes (R179) -/

/-- An entry of a TLB that stays: it is of another ASID, or does not cover the address that is named. -/
def TlbEntry.stays (asid : Nat) (va : Option Word) (e : TlbEntry) : Bool :=
  e.asid ≠ asid || (match va with | some v => !(e.va ≤ v.toNat && v.toNat < e.va + e.size) | none => false)

theorem TlbEntry.stays_none (asid : Nat) (e : TlbEntry) : e.stays asid none = !decide (e.asid = asid) := by simp [stays]

theorem TlbEntry.stays_some (asid : Nat) (v : Word) (e : TlbEntry) :
    e.stays asid (some v) = !(decide (e.asid = asid) && decide (e.va ≤ v.toNat) && decide (v.toNat < e.va + e.size)) := by
  simp [stays, Bool.not_and, Bool.or_assoc]

/-- A core and a vat after an invalidation. -/
def Core.flushed (asid : Nat) (va : Option Word) (c : Core) : Core := { c with tlb := c.tlb.filter (TlbEntry.stays asid va) }
def Vat.flushed (asid : Nat) (va : Option Word) (v : Vat) : Vat :=
  { v with tlb := v.tlb.filter (TlbEntry.stays asid va), copies := v.copies.map CopyCmd.redo }

/-- The entries of a table, each changed, without those that have come to be as a missing one. -/
def sifted {α : Type} [DecidableEq α] (d : α) (f : α → α) (t : List (Nat × α)) : List (Nat × α) :=
  t.filterMap fun e => if f e.2 = d then none else some (e.1, f e.2)

section Sifted
variable {α : Type} [DecidableEq α] {d : α} {f : α → α} {t : List (Nat × α)}

theorem exists_of_mem_sifted {e : Nat × α} (h : e ∈ sifted d f t) : ∃ x, e.2 = f x := by
  obtain ⟨x, -, hx⟩ := List.mem_filterMap.mp h
  split at hx <;> cases hx
  exact ⟨x.2, rfl⟩

theorem mem_sifted {e : Nat × α} (he : e ∈ t) (hd : f e.2 ≠ d) : (e.1, f e.2) ∈ sifted d f t :=
  List.mem_filterMap.mpr ⟨e, he, if_neg hd⟩

/-! What holds translations holds those that pass `p` afterwards. -/

variable {tlb : α → List TlbEntry} {p : TlbEntry → Bool} (hf : ∀ x, tlb (f x) = (tlb x).filter p)
include hf

theorem tlb_of_mem_sifted : ∀ c ∈ sifted d f t, ∀ e ∈ tlb c.2, p e = true := by
  intro c hc e he
  obtain ⟨x, hx⟩ := exists_of_mem_sifted hc
  rw [hx, hf] at he
  exact (List.mem_filter.mp he).2

/-- Where a missing entry holds no translation, an entry that keeps one is still listed. -/
theorem mem_tlb_sifted (hd : tlb d = []) : ∀ c ∈ t, ∀ e ∈ tlb c.2, p e = true → ∃ x ∈ sifted d f t, x.1 = c.1 ∧ e ∈ tlb x.2 := by
  intro c hc e he hp
  have hmem : e ∈ tlb (f c.2) := hf c.2 ▸ List.mem_filter.mpr ⟨he, hp⟩
  refine ⟨(c.1, f c.2), mem_sifted hc fun hmissing => ?_, rfl, hmem⟩
  rw [hmissing, hd] at hmem
  cases hmem

end Sifted

/-- No stream of a thread after reset is bound. -/
theorem again_thread0 : State.thread0.again = State.thread0 := by
  simp [Thread.again, State.thread0, StreamBind.none]

section Flush
variable (s : State) (asid : Nat) (va : Option Word)

theorem flushTlb_cores : (flushTlb s asid va).cores = sifted State.core0 (Core.flushed asid va) s.cores := rfl
theorem flushTlb_vats : (flushTlb s asid va).vats = sifted State.vat0 (Vat.flushed asid va) s.vats := rfl
theorem flushTlb_threads : (flushTlb s asid va).threads = s.threads.map fun e => (e.1, e.2.again) := rfl
theorem flushTlb_presses : (flushTlb s asid va).presses = s.presses.map fun e => (e.1, e.2.again) := rfl
theorem flushTlb_ctxs : (flushTlb s asid va).ctxs = s.ctxs.map fun e => (e.1, e.2.again) := rfl

/-- A thread's streams translate again, and nothing else of it changes. -/
theorem thread_flushTlb (c k : Nat) : (flushTlb s asid va).thread c k = (s.thread c k).again := by
  rw [State.thread, flushTlb_threads, Tbl.get, Tbl.find_map (g := fun e : Nat × Thread => (e.1, e.2.again)) fun _ => rfl, State.thread, Tbl.get]
  cases Tbl.find s.threads (c * 8 + k) with
  | none => exact again_thread0.symm
  | some t => rfl

/-! ## What translates again (R180) -/

theorem CopyCmd.retrans_of_redo {l : List CopyCmd} : ∀ x ∈ l.map CopyCmd.redo, x.retrans = true := by
  intro x hx
  obtain ⟨y, -, rfl⟩ := List.mem_map.mp hx
  rfl

theorem vatCopies_again : ∀ v ∈ (flushTlb s asid va).vats, ∀ x ∈ v.2.copies, x.retrans = true := by
  intro v hv x hx
  obtain ⟨w, hw⟩ := exists_of_mem_sifted (flushTlb_vats s asid va ▸ hv)
  rw [hw] at hx
  exact CopyCmd.retrans_of_redo x hx

theorem pressQueues_again : ∀ p ∈ (flushTlb s asid va).presses, ∀ x ∈ p.2.queue, x.retrans = true := by
  intro p hp x hx
  obtain ⟨e, -, rfl⟩ := List.mem_map.mp (flushTlb_presses s asid va ▸ hp)
  obtain ⟨y, -, rfl⟩ := List.mem_map.mp hx
  rfl

theorem hubCopies_again : ∀ x ∈ (flushTlb s asid va).hub.copies, x.retrans = true := by
  intro x hx
  obtain ⟨y, -, rfl⟩ := List.mem_map.mp hx
  rfl

theorem snapCopies_again : ∀ c ∈ (flushTlb s asid va).ctxs, ∀ p, c.2.snap = some p → ∀ e ∈ p.crews, ∀ v, e.2.saved = some v →
    ∀ x ∈ v.copies, x.retrans = true := by
  intro c hc p hp e he v hv
  obtain ⟨c, -, rfl⟩ := List.mem_map.mp (flushTlb_ctxs s asid va ▸ hc)
  obtain ⟨q, -, rfl⟩ := Option.map_eq_some_iff.mp hp
  obtain ⟨x, -, rfl⟩ := List.mem_map.mp he
  obtain ⟨w, -, rfl⟩ := Option.map_eq_some_iff.mp hv
  exact CopyCmd.retrans_of_redo

/-! ## What the TLBs hold (R179) -/

theorem coreTlb_stays : ∀ c ∈ (flushTlb s asid va).cores, ∀ e ∈ c.2.tlb, e.stays asid va = true :=
  tlb_of_mem_sifted (f := Core.flushed asid va) (tlb := Core.tlb) fun _ => rfl

theorem vatTlb_stays : ∀ v ∈ (flushTlb s asid va).vats, ∀ e ∈ v.2.tlb, e.stays asid va = true :=
  tlb_of_mem_sifted (f := Vat.flushed asid va) (tlb := Vat.tlb) fun _ => rfl

theorem coreTlb_kept : ∀ c ∈ s.cores, ∀ e ∈ c.2.tlb, e.stays asid va = true →
    ∃ d ∈ (flushTlb s asid va).cores, d.1 = c.1 ∧ e ∈ d.2.tlb :=
  mem_tlb_sifted (f := Core.flushed asid va) (tlb := Core.tlb) (fun _ => rfl) rfl

theorem vatTlb_kept : ∀ v ∈ s.vats, ∀ e ∈ v.2.tlb, e.stays asid va = true →
    ∃ d ∈ (flushTlb s asid va).vats, d.1 = v.1 ∧ e ∈ d.2.tlb :=
  mem_tlb_sifted (f := Vat.flushed asid va) (tlb := Vat.tlb) (fun _ => rfl) rfl

end Flush

/-! ## TLBI (R452) -/

theorem tlbiEff_first {s : State} (h : s.waited = false) (va : Option Word) (o : Ops) : tlbiEff va o s = .wait s .system 0 := by
  rw [tlbiEff, h, if_neg Bool.false_ne_true]

/-- A TLBI that has waited completes; its ASID is the whole of its operand, which is below 65,536. -/
theorem tlbiEff_completes {s : State} {o : Ops} (h : s.waited = true) (ha : o.a.toNat < 65536) (va : Option Word) :
    tlbiEff va o s = .done (flushTlb s o.a.toNat va) := by
  rw [tlbiEff, h, if_pos rfl, fld_low, Nat.mod_eq_of_lt (by omega)]

/-- The two forms of TLBI are one instruction, with an address or without. `hit` tells the translations that are named. -/
theorem tlbi_form {i : Instr} {h : Hdr} {a b : BitVec 5} {s s1 : State} {o : Ops} {hit : TlbEntry → Bool}
    (hi : (i = .tlbi h a ∧ hit = fun (e : TlbEntry) => decide (e.asid = o.a.toNat)) ∨
      (i = .tlbiOne h a b ∧ hit = fun (e : TlbEntry) => e.asid = o.a.toNat && e.va ≤ o.b.toNat && o.b.toNat < e.va + e.size))
    (hissues : Issues i s o s1) :
    ∃ body va, bodyOf i = some body ∧ body.eff o s1 = tlbiEff va o s1 ∧ o.a.toNat < 65536 ∧ ∀ e, hit e = !e.stays o.a.toNat va := by
  rcases hi with ⟨rfl, rfl⟩ | ⟨rfl, rfl⟩
  · refine ⟨bodyTlbi h a, none, rfl, rfl, ?_, fun e => by rw [TlbEntry.stays_none, Bool.not_not]⟩
    obtain ⟨r, hchk, rfl⟩ := chk_of_issues hissues rfl
    exact holds_of_check hchk
  · refine ⟨bodyTlbiOne h a b, some o.b, rfl, rfl, ?_, fun e => by rw [TlbEntry.stays_some, Bool.not_not]⟩
    obtain ⟨r, hchk, rfl⟩ := chk_of_issues hissues rfl
    exact of_decide_eq_true (Bool.and_eq_true_iff.mp (holds_of_check hchk)).1

/-! ## The statement -/

/-- Settles O36: TRC and LUTLD by their effects, a TLBI by what `flushTlb` leaves in every table. -/
theorem tablesAndTranslations : Obligations.TablesAndTranslations := by
  unfold Obligations.TablesAndTranslations
  refine ⟨fun h a tag s s1 o hi => ?trc, fun h a s s1 s2 o x hi hx => ?lutld, fun i h a b s s1 o hit hform hi => ?tlbi⟩
  case trc =>
    exact ⟨_, exec_done hi rfl (bodyTrc_eff h a tag o s1), rfl, trace_threads _ _ _ _ _ _ _, fun hoff => trace_unprofiled hoff _ _ _ _ _⟩
  case lutld =>
    have hmem : s2.mem = s1.mem := by
      have h := (threadAccess_only s1 o.a 16 .read true).mem
      rwa [hx] at h
    exact ⟨_, exec_done hi rfl (bodyLutld_eff (lutld_aligned hi) hx), hmem, rfl, fun c hc => loadT4_t4 hc x.pa⟩
  case tlbi =>
    obtain ⟨body, va, hbody, heff, hasid, hhit⟩ := tlbi_form hform hi
    have hgone {e : TlbEntry} (h : e.stays o.a.toNat va = true) : hit e = false := by rw [hhit, h]; rfl
    have hkept {e : TlbEntry} (h : hit e = false) : e.stays o.a.toNat va = true := by simpa [hhit] using h
    refine ⟨fun hfirst => exec_wait hi hbody (heff.trans (tlbiEff_first hfirst va o)), fun hwaited =>
      ⟨flushTlb s1 o.a.toNat va, exec_done hi hbody (heff.trans (tlbiEff_completes hwaited hasid va)), rfl, fun c k => ?_,
        vatCopies_again _ _ _, pressQueues_again _ _ _, hubCopies_again _ _ _, snapCopies_again _ _ _,
        fun c hc e he => hgone (coreTlb_stays _ _ _ c hc e he), fun v hv e he => hgone (vatTlb_stays _ _ _ v hv e he),
        fun c hc e he h => coreTlb_kept _ _ _ c hc e he (hkept h), fun v hv e he h => vatTlb_kept _ _ _ v hv e he (hkept h)⟩⟩
    rw [thread_flushTlb]
    exact ⟨rfl, rfl, rfl, rfl⟩

end Sys2Proof.Machine
end

