-- ==== Sys2Proof/Proofs/BarrierInstructions.lean ====
section
/-! SUPPORT. Transaction barriers: the fields of a stored barrier, BarUpdate (R211, R212) and the instructions (R438 to R441), and O30. -/

namespace Sys2Proof.Machine

/-! ## A number that is written and read back -/

theorem bits_lt (v lo n : Nat) : bits v lo n < 2 ^ n := Nat.mod_lt _ (Nat.two_pow_pos n)

theorem b2n_lt (b : Bool) : b2n b < 2 := by cases b <;> decide

theorem bits_eq (v lo n : Nat) : bits v lo n = v / 2 ^ lo % 2 ^ n := by rw [bits, Nat.shiftRight_eq_div_pow]

/-- Bytes of memory, and not of a weight store or of the counters. -/
def InMemory (pa n : Nat) : Prop := ∀ k < n, ∀ s : State, ∀ die, s.byteAt die (pa + k) = Tbl.get 0 s.mem (pa + k)

theorem InMemory.head {pa n : Nat} (h : InMemory pa (n + 1)) (s : State) (die : Nat) : s.byteAt die pa = Tbl.get 0 s.mem pa :=
  h 0 (by omega) s die

theorem InMemory.tail {pa n : Nat} (h : InMemory pa (n + 1)) : InMemory (pa + 1) n := fun k hk s die => by
  rw [show pa + 1 + k = pa + (k + 1) by omega]
  exact h (k + 1) (by omega) s die

theorem read_of_mem {s t : State} (hmem : t.mem = s.mem) (die : Nat) {pa n : Nat} (h : InMemory pa n) :
    t.read die pa n = s.read die pa n := by
  induction n generalizing pa with
  | zero => rfl
  | succ n ih => rw [State.read, State.read, h.head, h.head, hmem, ih h.tail]

theorem read_write_same (s : State) (die v : Nat) {pa n : Nat} (h : InMemory pa n) : (s.write pa n v).read die pa n = v % 256 ^ n := by
  induction n generalizing s pa v with
  | zero => rw [State.read, Nat.pow_zero, Nat.mod_one]
  | succ n ih =>
    have hhead : Tbl.get 0 (s.write pa (n + 1) v).mem pa = BitVec.ofNat 8 v := by
      rw [State.write, getMem_setBytes, if_pos ⟨Nat.le_refl _, by rw [bytesOf_length]; omega⟩, Nat.sub_self]
      rfl
    have htail : (s.write pa (n + 1) v).read die (pa + 1) n = (v >>> 8) % 256 ^ n :=
      ih (s.setByte pa (BitVec.ofNat 8 v)) (v >>> 8) h.tail
    rw [State.read, h.head, hhead, htail, BitVec.toNat_ofNat, Nat.shiftRight_eq_div_pow, Nat.pow_succ' (n := n)]
    exact (Nat.mod_mul ..).symm

/-- The 16 bytes of a barrier lie in the scratchpads (R211). -/
theorem inMemory_of_spm {pa core off : Nat} (h : kindOf pa = .spm core off) (ha : pa % 16 = 0) : InMemory pa 16 := by
  have hrange : 0x5000000000 ≤ pa ∧ pa < 0x5040000000 := by
    simp only [kindOf, Bool.and_eq_true, decide_eq_true_eq] at h
    split at h
    · cases h
    split at h
    · cases h
    split at h
    · cases h
    split at h
    · next hspm => exact hspm
    · split at h <;> cases h
  intro k hk s die
  have hkind : kindOf (pa + k) = .spm ((pa + k - 0x5000000000) / 0x40000) ((pa + k) % 0x40000) := by
    have hhost : hostBit = 0x800000000000 := rfl
    simp only [kindOf, Bool.and_eq_true, decide_eq_true_eq]
    rw [if_neg, if_neg, if_neg, if_pos] <;> omega
  rw [State.byteAt, hkind]

/-! ## Signed fields -/

theorem ucut_lt (x : Int) (n : Nat) : ucut x n < 2 ^ n := by
  rw [ucut, Int.toNat_lt (Int.emod_nonneg x (by positivity))]
  exact Int.emod_lt_of_pos x (by positivity)

/-- A signed number of 32 bits is kept by its field. -/
theorem sint_ucut {x : Int} (hlo : -2147483648 ≤ x) (hhi : x ≤ 2147483647) : sint (ucut x 32) 32 = x := by
  have hlt : ucut x 32 < 2 ^ (31 + 1) := ucut_lt x 32
  have hval : (ucut x 32 : Int) = x % 4294967296 := Int.toNat_of_nonneg (Int.emod_nonneg x (by decide))
  simp only [sint, Nat.mod_eq_of_lt hlt, testBit_top hlt, decide_eq_true_eq]
  split <;> omega

/-! ## The fields of a barrier (Table 9.3) -/

/-- What the fields of a barrier hold: its phase, AP, AE, SP as it is stored, the fields of its notify, and ERR. -/
structure TbFields (b phase ap ae sp notify err : Nat) : Prop where
  phase : bits b 0 4 = phase
  ap : bits b 4 16 = ap
  ae : bits b 20 16 = ae
  sp : bits b 36 32 = sp
  notify : bits b 68 16 = notify
  err : bits b 84 1 = err

section Fields
variable (b phase ap : Nat) (sp : Int) (err : Bool)

/-- Each field that is stored is below its width. -/
theorem tbMake_bounds : tbAE b < 2 ^ 16 ∧ ucut sp 32 < 2 ^ 32 ∧ bits b 68 16 < 2 ^ 16 ∧ b2n err < 2 ∧ tbReserved b < 2 ^ 43 :=
  ⟨bits_lt .., ucut_lt .., bits_lt .., b2n_lt err, bits_lt ..⟩

theorem tbMake_lt : tbMake b phase ap sp err < 2 ^ 128 := by
  obtain ⟨hae, hsp, hnotify, herr, hres⟩ := tbMake_bounds b sp err
  unfold tbMake
  omega

theorem tbMake_fields :
    TbFields (tbMake b phase ap sp err) (phase % 16) (ap % 2 ^ 16) (tbAE b) (ucut sp 32) (bits b 68 16) (b2n err) := by
  obtain ⟨hae, hsp, hnotify, herr, hres⟩ := tbMake_bounds b sp err
  unfold tbMake
  generalize tbAE b = e, ucut sp 32 = c, bits b 68 16 = n, b2n err = x, tbReserved b = r at *
  constructor <;> rw [bits_eq] <;> omega

end Fields

theorem b2n_tbERR (b : Nat) : b2n (tbERR b) = bits b 84 1 := by
  rw [tbERR, Nat.testBit_eq_decide_div_mod_eq, bits_eq, Nat.pow_one]
  rcases Nat.mod_two_eq_zero_or_one (b / 2 ^ 84) with h | h <;> rw [h] <;> rfl

/-- What is written of a barrier reads back. -/
theorem read_tbMake {t s : State} {pa b phase ap : Nat} {sp : Int} {err : Bool} (hin : InMemory pa 16)
    (hmem : t.mem = (s.write pa 16 (tbMake b phase ap sp err)).mem) : t.read 0 pa 16 = tbMake b phase ap sp err := by
  rw [read_of_mem hmem 0 hin, read_write_same s 0 _ hin]
  exact Nat.mod_eq_of_lt (tbMake_lt ..)

/-! ## BarUpdate (R212) -/

/-- The barrier after an update whose count needs no saturation, before it completes a phase. -/
def tbCounted (b : Nat) (arr : Bool) (sec : Int) : Nat := tbMake b (tbPhase b) (tbAP b - b2n arr) (tbSP b + sec) (tbERR b)

/-- The barrier of the next phase, of which the arrivals are those expected. -/
def tbCompleted (b : Nat) : Nat := tbMake b (tbPhase b + 1) (tbAE b) (tbSP b) (tbERR b)

theorem postNotify_mem (s : State) (ctx core slot : Nat) (n : Notify) : (postNotify s ctx core slot n).mem = s.mem := by
  unfold postNotify
  split
  · rfl
  · split
    · rfl
    · split
      · rfl
      · exact modRef_mem _ _ _

theorem tbComplete_mem (s : State) (ctx pa b : Nat) : (tbComplete s ctx pa b).mem = (s.write pa 16 (tbCompleted b)).mem := by
  unfold tbComplete
  dsimp only
  split
  · exact postNotify_mem _ _ _ _ _
  · rfl

theorem tbAP_lt (b : Nat) : tbAP b < 2 ^ 16 := bits_lt b 4 16

theorem tbPhase_mod (b : Nat) : tbPhase b % 16 = tbPhase b := Nat.mod_eq_of_lt (bits_lt b 0 4)

theorem tbCounted_fields (b : Nat) (arr : Bool) (sec : Int) : TbFields (tbCounted b arr sec) (bits b 0 4) (tbAP b - b2n arr) (bits b 20 16)
    (ucut (tbSP b + sec) 32) (bits b 68 16) (bits b 84 1) := by
  have h := tbMake_fields b (tbPhase b) (tbAP b - b2n arr) (tbSP b + sec) (tbERR b)
  rwa [tbPhase_mod, Nat.mod_eq_of_lt (Nat.lt_of_le_of_lt (Nat.sub_le ..) (tbAP_lt b)), b2n_tbERR] at h

theorem tbCompleted_fields {b phase ap ae sp notify err : Nat} (h : TbFields b phase ap ae sp notify err) (hsp : sint sp 32 = 0) :
    TbFields (tbCompleted b) ((phase + 1) % 16) ae ae 0 notify err := by
  have hae : tbAE b = ae := h.ae
  have hnext : tbCompleted b = tbMake b (phase + 1) ae 0 (tbERR b) := by
    rw [tbCompleted, show tbPhase b = phase from h.phase, hae, tbSP, h.sp, hsp]
  have hlt : ae < 2 ^ 16 := h.ae ▸ bits_lt b 20 16
  have g := tbMake_fields b (phase + 1) ae 0 (tbERR b)
  rwa [← hnext, b2n_tbERR, h.err, h.notify, hae, Nat.mod_eq_of_lt hlt, show ucut 0 32 = 0 from rfl] at g

theorem read_tbCounted {s : State} {pa : Nat} (hin : InMemory pa 16) (b : Nat) (arr : Bool) (sec : Int) :
    (s.write pa 16 (tbCounted b arr sec)).read 0 pa 16 = tbCounted b arr sec := read_tbMake hin rfl

theorem read_tbComplete {s : State} {pa : Nat} (hin : InMemory pa 16) (ctx b : Nat) :
    (tbComplete s ctx pa b).read 0 pa 16 = tbCompleted b := read_tbMake hin (tbComplete_mem s ctx pa b)

section BarUpdate
variable {s : State} {pa : Nat} {arr : Bool} {sec : Int} (ctx : Nat)

theorem barUpdate_noArrival (harr : arr = true) (hap : tbAP (s.read 0 pa 16) = 0) : barUpdate s ctx pa arr sec = .error 1 := by
  simp only [barUpdate, Bool.and_eq_true, decide_eq_true_eq, if_pos (And.intro harr hap)]

theorem barUpdate_overflow (hap : arr = true → tbAP (s.read 0 pa 16) ≠ 0) (hsec : 0 < sec)
    (hsp : 2147483647 < tbSP (s.read 0 pa 16) + sec) : barUpdate s ctx pa arr sec = .error 2 := by
  have harr : ¬ (arr = true ∧ tbAP (s.read 0 pa 16) = 0) := fun h => hap h.1 h.2
  simp only [barUpdate, Bool.and_eq_true, decide_eq_true_eq, if_neg harr, if_pos (And.intro hsec hsp)]

theorem barUpdate_accepted (hap : arr = true → tbAP (s.read 0 pa 16) ≠ 0) (hhi : tbSP (s.read 0 pa 16) + sec ≤ 2147483647)
    (hlo : -2147483648 ≤ tbSP (s.read 0 pa 16) + sec) : barUpdate s ctx pa arr sec =
      .ok (if tbAP (s.read 0 pa 16) - b2n arr = 0 ∧ tbSP (s.read 0 pa 16) + sec = 0
        then tbComplete s ctx pa (tbCounted (s.read 0 pa 16) arr sec) else s.write pa 16 (tbCounted (s.read 0 pa 16) arr sec)) := by
  have harr : ¬ (arr = true ∧ tbAP (s.read 0 pa 16) = 0) := fun h => hap h.1 h.2
  have hlow : ¬ tbSP (s.read 0 pa 16) + sec < -2147483648 := by omega
  have hover : ¬ 2147483647 < tbSP (s.read 0 pa 16) + sec := by omega
  simp only [barUpdate, Bool.and_eq_true, decide_eq_true_eq, if_neg harr, hlow, hover, decide_false, Bool.false_eq_true, and_false,
    if_false, Bool.false_or, tbCounted]
  exact (apply_ite Except.ok ..).symm

end BarUpdate

/-! ## The access of a barrier instruction (R438) and its turn (R216) -/

theorem tbAccess_performed {s s2 : State} {va : Word} {init : Bool} {x : Xl} (k : State → Nat → Nat → Eff) (ha : va.toNat % 16 = 0)
    (hx : threadAccess s va 16 .write init = (s2, .ok x)) (hres : init = false → tbReserved (s2.read 0 x.pa 16) = 0) :
    tbAccess s va init k = k s2 x.pa (s2.read 0 x.pa 16) := by
  have hok : ¬ (!init && decide (tbReserved (s2.read 0 x.pa 16) ≠ 0)) = true := by
    rw [Bool.and_eq_true, Bool.not_eq_true', decide_eq_true_eq]
    exact fun hbad => hbad.2 (hres hbad.1)
  rw [tbAccess, access_performed ha (by rw [Bool.not_not]; exact hx)]
  exact if_neg hok

section Turn
variable {s : State} {va : Word} (eff : State → Eff)

theorem tbInTurn_held {n : Nat} (h : heldHere s va = some n) :
    tbInTurn va eff s = .wait (s.holdBar n (.thread s.me.ref)) .memory barKey := by
  rw [tbInTurn, h]

theorem tbInTurn_due (h : heldHere s va = none) : tbInTurn va eff s = (eff s).madeBar := by
  rw [tbInTurn, h]

end Turn

theorem not_idle {arr : Bool} {n : Nat} (h : arr = true ∨ n ≠ 0) : ¬ (!arr && decide (n = 0)) = true := by
  rw [Bool.and_eq_true, Bool.not_eq_true', decide_eq_true_eq]
  rintro ⟨harr, hn⟩
  exact h.elim (ne_true_of_eq_false harr) fun h => h hn

section Update
variable {s s2 : State} {va : Word} {x : Xl} (hturn : heldHere s va = none) (ha : va.toNat % 16 = 0)
  (hx : threadAccess s va 16 .write false = (s2, .ok x)) (hres : tbReserved (s2.read 0 x.pa 16) = 0)
include hturn ha hx hres

theorem tbUpdate_nothing : tbUpdate false 0 va s = .done (s2.madeBar (.thread s2.me.ref)) := by
  rw [tbUpdate, tbInTurn_due _ hturn, tbAccess_performed _ ha hx fun _ => hres]
  rfl

theorem tbUpdate_made {arr : Bool} {n : Nat} {t : State} (hn : arr = true ∨ n ≠ 0) (h : barUpdate s2 s2.myCtx x.pa arr n = .ok t) :
    let w := traceTb s2 s2.myCtx x.pa arr (some (s2.curCore, s2.curSlot)) t
    tbUpdate arr n va s = .done (w.madeBar (.thread w.me.ref)) := by
  simp only [tbUpdate, tbInTurn_due _ hturn, tbAccess_performed _ ha hx fun _ => hres, if_neg (not_idle hn), h]
  rfl

theorem tbUpdate_refused {arr : Bool} {n code : Nat} (hn : arr = true ∨ n ≠ 0)
    (h : barUpdate s2 s2.myCtx x.pa arr n = .error code) :
    tbUpdate arr n va s = .trap (s2.madeBar (.thread s2.me.ref)) PARAM 0 (word code) := by
  simp only [tbUpdate, tbInTurn_due _ hturn, tbAccess_performed _ ha hx fun _ => hres, if_neg (not_idle hn), h]
  rfl

end Update

/-! ## The instructions -/

/-- TBARV, TBARX and a TBEXP of more than 0 are one update, of an arrival or not and of a number of sectors. -/
theorem update_form {i : Instr} {o : Ops} {arr : Bool} {n : Nat}
    (hi : (∃ h ra, i = .tbarv h ra ∧ arr = true ∧ n = 0) ∨ (∃ h ra rb, i = .tbarx h ra rb ∧ arr = true ∧ n = o.b.toNat) ∨
      (∃ h ra rb, i = .tbexp h ra rb ∧ arr = false ∧ n = o.b.toNat ∧ n ≠ 0)) :
    (∃ body, bodyOf i = some body ∧ body.eff o = tbUpdate arr n o.a) ∧ (arr = true ∨ n ≠ 0) := by
  rcases hi with ⟨h, ra, rfl, rfl, rfl⟩ | ⟨h, ra, rb, rfl, rfl, rfl⟩ | ⟨h, ra, rb, rfl, rfl, rfl, hn⟩
  · exact ⟨⟨bodyTbarv h ra, rfl, rfl⟩, .inl rfl⟩
  · exact ⟨⟨bodyTbarx h ra rb, rfl, rfl⟩, .inl rfl⟩
  · exact ⟨⟨bodyTbexp h ra rb, rfl, rfl⟩, .inr hn⟩

/-- The four instructions that write a barrier do so in turn. -/
theorem writer_form {i : Instr} (o : Ops)
    (hi : (∃ h a b, i = .tbinit h a b) ∨ (∃ h a, i = .tbarv h a) ∨ (∃ h a b, i = .tbarx h a b) ∨ ∃ h a b, i = .tbexp h a b) :
    ∃ body eff, bodyOf i = some body ∧ body.eff o = tbInTurn o.a eff := by
  rcases hi with ⟨h, a, b, rfl⟩ | ⟨h, a, rfl⟩ | ⟨h, a, b, rfl⟩ | ⟨h, a, b, rfl⟩
  · exact ⟨bodyTbinit h a b, _, rfl, rfl⟩
  · exact ⟨bodyTbarv h a, _, rfl, rfl⟩
  · exact ⟨bodyTbarx h a b, _, rfl, rfl⟩
  · exact ⟨bodyTbexp h a b, _, rfl, rfl⟩

theorem bodyTbinit_eff (h : Hdr) (a b : BitVec 5) (o : Ops) : (bodyTbinit h a b).eff o =
    tbInTurn o.a fun s => tbAccess s o.a true fun s pa _ => .done (s.write pa 16 (tbInit o.b.toNat)) := rfl

theorem bodyTbexp_eff (h : Hdr) (a b : BitVec 5) (o : Ops) : (bodyTbexp h a b).eff o = tbUpdate false o.b.toNat o.a := rfl

theorem bodyTbwait_eff (h : Hdr) (a b : BitVec 5) (o : Ops) (s : State) : (bodyTbwait h a b).eff o s =
    tbAccess s o.a false fun s _ t => if tbPhase t = o.b.toNat then .wait s .tbar 0 else .done s := rfl

theorem bodyTbtry_eff (h : Hdr) (pd : BitVec 4) (a b : BitVec 5) (o : Ops) (s : State) : (bodyTbtry h pd a b).eff o s =
    tbAccess s o.a false fun s _ t => effP 1 pd (fun o => (tbPhase t ≠ o.b.toNat, 0)) o s := rfl

theorem bodyTbinit_made {h : Hdr} {a b : BitVec 5} {o : Ops} {s s2 : State} {x : Xl} (hturn : heldHere s o.a = none)
    (ha : o.a.toNat % 16 = 0) (hx : threadAccess s o.a 16 .write true = (s2, .ok x)) :
    (bodyTbinit h a b).eff o s = .done ((s2.write x.pa 16 (tbInit o.b.toNat)).madeBar
      (.thread (s2.write x.pa 16 (tbInit o.b.toNat)).me.ref)) := by
  rw [bodyTbinit_eff, tbInTurn_due _ hturn, tbAccess_performed _ ha hx fun h => nomatch h]
  rfl

/-! ## The statement -/

/-- Settles O30: an instruction's effect is its update in turn, and a barrier that is stored reads back field by field. -/
theorem barrierInstructions : Obligations.BarrierInstructions := by
  unfold Obligations.BarrierInstructions
  refine ⟨fun i s s1 s2 o x core off hi ha _ => ⟨fun h ra rb hii hturn hx => ?init, fun hx hres =>
      ⟨fun arr n hform hturn => ?update, fun h ra rb hii hb hturn => ?nothing, fun h ra rb hii => ?wait, fun h pd ra rb hii => ?ask⟩⟩,
    fun i s s1 o n hform hi hheld => ?held, fun s ctx core off pa arr sec hk ha => ?barUpdate⟩
  case init =>
    subst hii
    rw [exec_done hi rfl (bodyTbinit_made hturn ha hx), State.write, me_setBytes]
  case update =>
    obtain ⟨⟨body, hbody, heff⟩, hn⟩ := update_form hform
    exact ⟨fun t ht => exec_done hi hbody (by rw [heff]; exact tbUpdate_made hturn ha hx hres hn ht),
      fun code hcode => exec_trap hi hbody (by rw [heff]; exact tbUpdate_refused hturn ha hx hres hn hcode)⟩
  case nothing =>
    subst hii
    have heff : (bodyTbexp h ra rb).eff o s1 = tbUpdate false 0 o.a s1 := by rw [bodyTbexp_eff, hb]; rfl
    exact exec_done hi rfl (heff.trans (tbUpdate_nothing hturn ha hx hres))
  case wait =>
    subst hii
    have heff := (bodyTbwait_eff h ra rb o s1).trans (tbAccess_performed _ ha hx fun _ => hres)
    exact ⟨fun hne => exec_done hi rfl (heff.trans (if_neg hne)), fun heq => exec_wait hi rfl (heff.trans (if_pos heq))⟩
  case ask =>
    subst hii
    rw [exec_done hi rfl ((bodyTbtry_eff h pd ra rb o s1).trans (tbAccess_performed _ ha hx fun _ => hres)), tbPhase]
  case held =>
    obtain ⟨body, eff, hbody, heff⟩ := writer_form o hform
    exact exec_wait hi hbody (by rw [heff]; exact tbInTurn_held eff hheld)
  case barUpdate =>
    refine ⟨fun harr hap => barUpdate_noArrival ctx harr hap, fun hap hsec hsp => barUpdate_overflow ctx hap hsec hsp,
      fun hap hhi hlo => ⟨_, barUpdate_accepted ctx hap hhi hlo, ?_⟩⟩
    have hin := inMemory_of_spm hk ha
    have hfields := tbCounted_fields (s.read 0 pa 16) arr sec
    have hsp : sint (ucut (tbSP (s.read 0 pa 16) + sec) 32) 32 = _ := sint_ucut hlo hhi
    split
    · next hlast =>
      obtain ⟨hphase, hap, hae, hsp, hnotify, herr⟩ := tbCompleted_fields hfields (hsp.trans hlast.2)
      rw [read_tbComplete hin]
      exact ⟨fun _ => ⟨hphase, hap, hsp⟩, fun hmore => absurd hlast hmore, hae, hnotify, herr⟩
    · next hmore =>
      rw [← hfields.sp] at hsp
      rw [read_tbCounted hin]
      exact ⟨fun hlast => absurd hlast hmore, fun _ => ⟨hfields.phase, hfields.ap, hsp⟩, hfields.ae, hfields.notify, hfields.err⟩

end Sys2Proof.Machine
end

