-- ==== Sys2Proof/Proofs/PressFrames.lean ====
section
/-! SUPPORT. What the operations that presses share with the rest of the machine leave of the presses, of memory, of the holds and of the
crews: changes of thread contexts, releases of holds, and trace records. -/

namespace Sys2Proof.Machine

/-! ## Thread contexts wherever they are held -/

theorem modRef_presses (s : State) (r : TRef) (f : Thread → Thread) : (s.modRef r f).presses = s.presses := by
  unfold State.modRef
  split
  · next l _ => cases l <;> rfl
  · rfl

theorem modRef_holds (s : State) (r : TRef) (f : Thread → Thread) : (s.modRef r f).holds = s.holds := by
  unfold State.modRef
  split
  · next l _ => cases l <;> rfl
  · rfl

@[simp] theorem modRef_press (s : State) (r : TRef) (f : Thread → Thread) (p : Nat) : (s.modRef r f).press p = s.press p := by
  rw [State.press, modRef_presses, State.press]

@[simp] theorem release_press (s : State) (r : TRef) (p : Nat) : (s.release r).press p = s.press p := modRef_press s r _ p

theorem release_mem (s : State) (r : TRef) : (s.release r).mem = s.mem := modRef_mem s r _

/-- The crew with a change of every thread context in its save block. -/
def Crew.mapSaved (f : Thread → Thread) (c : Crew) : Crew :=
  { c with saved := c.saved.map fun v => { v with threads := v.threads.map fun x => (x.1, f x.2) } }

theorem mapThreads_crew? (s : State) (f : Thread → Thread) (n : Nat) : (s.mapThreads f).crew? n = (s.crew? n).map (Crew.mapSaved f) :=
  Tbl.find_map (g := fun e : Nat × Crew => (e.1, e.2.mapSaved f)) (fun _ => rfl) s.crews n

theorem mapThreads_ctxOf (s : State) (f : Thread → Thread) (n : Nat) : (s.mapThreads f).ctxOf n = s.ctxOf n := by
  rw [State.ctxOf, State.ctxOf, mapThreads_crew?]
  cases s.crew? n <;> rfl

@[simp] theorem releaseKey_press (s : State) (why : ParkWhy) (key p : Nat) : (releaseKey s why key).press p = s.press p := rfl
@[simp] theorem releaseKey_holds (s : State) (why : ParkWhy) (key : Nat) : (releaseKey s why key).holds = s.holds := rfl

/-! ## Holds -/

@[simp] theorem dropHolds_press (s : State) (owner : Nat) (f : Hold → Bool) (p : Nat) : (s.dropHolds owner f).press p = s.press p := rfl

/-- An owner whose holds of one kind have gone has the others alone. -/
theorem dropHolds_left {s : State} {owner : Nat} {p : Hold → Bool} {h : Hold} (hm : h ∈ (s.dropHolds owner p).holds)
    (ho : h.owner = owner) : p h = false := by
  have hkept := (List.mem_filter.mp hm).2
  simpa [ho] using hkept

theorem dropHolds_ctxOf (s : State) (owner : Nat) (p : Hold → Bool) (n : Nat) : (s.dropHolds owner p).ctxOf n = s.ctxOf n := by
  have hcrew : (s.dropHolds owner p).crew? n = (s.crew? n).map fun c => if c.saved.isSome then c.dropHolds owner p else c :=
    Tbl.find_map (g := fun e : Nat × Crew => (e.1, if e.2.saved.isSome then e.2.dropHolds owner p else e.2)) (fun _ => rfl) s.crews n
  rw [State.ctxOf, State.ctxOf, hcrew]
  cases s.crew? n with
  | none => rfl
  | some c =>
    show (if c.saved.isSome then c.dropHolds owner p else c).ctx = c.ctx
    split <;> rfl

/-! ## Presses and trace records -/

@[simp] theorem press_fresh (s : State) (p : Nat) : s.fresh.2.press p = s.press p := rfl

@[simp] theorem tracePress_press (s : State) (kind : Nat) (e : PressEntry) (p : Nat) : (tracePress s kind e).press p = s.press p := by
  rw [tracePress, State.press, (trace_eq _ _ _ _ _ _ _).1, State.press]

theorem tracePress_holds (s : State) (kind : Nat) (e : PressEntry) : (tracePress s kind e).holds = s.holds := by
  rw [tracePress, (trace_eq _ _ _ _ _ _ _).1]

/-- Where the lead's context is not profiled, an operation leaves no record. -/
theorem tracePress_unprofiled {s : State} {e : PressEntry} (h : s.profiled (s.ctxOf e.lead.crew) = false) (kind : Nat) :
    tracePress s kind e = s := trace_unprofiled h _ _ _ _ _

end Sys2Proof.Machine
end

