-- ==== Sys2Proof/Proofs/HardwareBarriers.lean ====
section
/-! SUPPORT. Crew hardware barriers: arriving, waiting and passing (R235, R405, R406), and O23. -/

namespace Sys2Proof.Machine

/-! ## Passing -/

theorem passBar_out (t : Thread) {b : Nat} (h : b < 8) : (t.passBar b).csr.tstat.getLsbD (16 + b) = false :=
  (getLsbD_setFld_bit _ (by omega) 0).trans rfl

theorem passBar_lpr (t : Thread) (b : Nat) : (t.passBar b).csr.lpr.getLsbD 63 = true :=
  (getLsbD_setFld_bit _ (by omega) 1).trans rfl

theorem passBar_registers (t : Thread) (b : Nat) : (t.passBar b).registers = t.registers := rfl

theorem pass_waits {s : State} {n : BitVec 3} (h : mustWait s n = true) : pass s n = .hold s .barrier (n.toNat + 1) := if_pos h

theorem pass_passes {s : State} {n : BitVec 3} (h : mustWait s n = false) : pass s n = .done (s.modMe fun t => t.passBar n.toNat) :=
  if_neg (ne_true_of_eq_false h)

/-- BARW passes its barrier where an arrival is outstanding, and does nothing else. -/
theorem bodyBarw_eff (h : Hdr) (n : BitVec 3) (o : Ops) (s : State) :
    (bodyBarw h n).eff o s = if s.me.csr.tstat.getLsbD (16 + n.toNat) then pass s n else .done s := rfl

/-! ## Arrivals at a crew's barrier -/

theorem bar_setBar (c : Crew) {b : Nat} (h : b < 8) (x : HwBar) : (c.setBar b x).bar b = x := by
  simp [Crew.setBar, Crew.bar, vget, h]

/-- Which crews there are is not the barriers' record's business. -/
theorem traceBar_crew? (s : State) (kind ap n : Nat) : (traceBar s kind ap).crew? n = s.crew? n := by
  rw [traceBar_eq]
  rfl

theorem releaseBar_crew? {s : State} {n : Nat} {c : Crew} (h : s.crew? n = some c) (m b : Nat) :
    ∃ f, (releaseBar s m b).crew? n = some (c.mapSaved f) := by
  obtain ⟨f, hf⟩ : ∃ f, releaseBar s m b = s.mapThreads f := by
    unfold releaseBar
    exact ⟨_, rfl⟩
  exact ⟨f, by rw [hf, mapThreads_crew?, h, Option.map_some]⟩

theorem crew?_ins (s : State) (n : Nat) (c : Crew) : ({ s with crews := Tbl.ins s.crews n c } : State).crew? n = some c :=
  (Tbl.find_ins s.crews n n c).trans (if_pos rfl)

/-- A phase that nothing holds back completes: it advances and its arrivals reload (R406). -/
theorem completeBar_follows {s : State} {n b : Nat} {c : Crew} (hb : b < 8) (hc : s.crew? n = some c) (hshed : c.shedMark = false)
    (hreloc : c.relocMark = false) (hseal : s.sealPending c.ctx = false) :
    ∃ c', (completeBar s n b).crew? n = some c' ∧ (c'.bar b).phase = !(c.bar b).phase ∧ (c'.bar b).ap = c.expected := by
  have hfree : (c.shedMark || mayRelocate s n c || s.sealPending c.ctx) = false := by simp [mayRelocate, hshed, hreloc, hseal]
  have hins : (traceBar { s with crews := Tbl.ins s.crews n (c.setBar b ⟨!(c.bar b).phase, c.expected, (c.bar b).held⟩) } 6
      c.expected).crew? n = some (c.setBar b ⟨!(c.bar b).phase, c.expected, (c.bar b).held⟩) :=
    (traceBar_crew? _ _ _ _).trans (crew?_ins s n _)
  obtain ⟨f, hf⟩ := releaseBar_crew? hins n b
  have hbar : ((c.setBar b ⟨!(c.bar b).phase, c.expected, (c.bar b).held⟩).mapSaved f).bar b =
      ⟨!(c.bar b).phase, c.expected, (c.bar b).held⟩ := bar_setBar c hb _
  refine ⟨_, ?_, congrArg HwBar.phase hbar, congrArg HwBar.ap hbar⟩
  simp only [completeBar, hc, hfree, Bool.false_or, if_neg Bool.false_ne_true]
  exact hf

/-- The last arrival of a phase advances it. -/
theorem lowerBar_last {s : State} {n b : Nat} {c : Crew} (hb : b < 8) (hc : s.crew? n = some c) (hap : (c.bar b).ap = 1)
    (hshed : c.shedMark = false) (hreloc : c.relocMark = false) (hseal : s.sealPending c.ctx = false) :
    ∃ c', (lowerBar s n b).crew? n = some c' ∧ (c'.bar b).phase = !(c.bar b).phase ∧ (c'.bar b).ap = c.expected := by
  have hset : (c.setBar b { c.bar b with ap := (c.bar b).ap - 1 }).bar b = { c.bar b with ap := (c.bar b).ap - 1 } := bar_setBar c hb _
  obtain ⟨c', hc', hphase, hreload⟩ := completeBar_follows (b := b) hb (crew?_ins s n (c.setBar b { c.bar b with ap := (c.bar b).ap - 1 }))
    hshed hreloc hseal
  refine ⟨c', ?_, by rw [hphase, hset], hreload⟩
  simp only [lowerBar, hc]
  rw [if_pos (by omega)]
  exact hc'

/-- An arrival that is not the last is counted. -/
theorem lowerBar_more {s : State} {n b : Nat} {c : Crew} (hb : b < 8) (hc : s.crew? n = some c) (hap : 1 < (c.bar b).ap) :
    ∃ c', (lowerBar s n b).crew? n = some c' ∧ (c'.bar b).phase = (c.bar b).phase ∧ (c'.bar b).ap = (c.bar b).ap - 1 := by
  have hset : (c.setBar b { c.bar b with ap := (c.bar b).ap - 1 }).bar b = { c.bar b with ap := (c.bar b).ap - 1 } := bar_setBar c hb _
  refine ⟨_, ?_, by rw [hset], by rw [hset]⟩
  simp only [lowerBar, hc]
  rw [if_neg (by omega)]
  exact crew?_ins s n _

/-- Settles O23: each instruction is its arrival, its pass or both, and the last arrival of a phase completes it. -/
theorem hardwareBarriers : Obligations.HardwareBarriers := by
  unfold Obligations.HardwareBarriers
  refine ⟨fun h n s s1 o hi => ⟨fun hw => ?barWaits, fun hw => ?barPasses⟩, fun h n s s1 o hi => ?bara,
    fun h n s s1 o hi => ⟨fun hout => ?barwIdle, fun hout hw => ?barwWaits, fun hout hw => ?barwPasses⟩,
    fun t n => ⟨passBar_out t n.isLt, passBar_lpr t _, passBar_registers t _⟩,
    fun s n b c hb hc hap hshed hreloc hseal => lowerBar_last hb hc hap hshed hreloc hseal,
    fun s n b c hb hc hap => lowerBar_more hb hc hap⟩
  case barWaits => exact exec_hold hi rfl (pass_waits hw)
  case barPasses => exact exec_done hi rfl (pass_passes hw)
  case bara => exact exec_done hi rfl rfl
  case barwIdle => exact exec_done hi rfl ((bodyBarw_eff h n o s1).trans (if_neg (ne_true_of_eq_false hout)))
  case barwWaits => exact exec_hold hi rfl (((bodyBarw_eff h n o s1).trans (if_pos hout)).trans (pass_waits hw))
  case barwPasses => exact exec_done hi rfl (((bodyBarw_eff h n o s1).trans (if_pos hout)).trans (pass_passes hw))

end Sys2Proof.Machine
end

