-- ==== Sys2Proof/Proofs/PressCommands.lean ====
section
/-! SUPPORT. The commands of one end enter a press's queue (R234, R423 to R426), and O28. -/

namespace Sys2Proof.Machine

/-! ## Entering the queue (R234) -/

/-- A press with one more entry at the end of its queue. -/
def State.enqueued (s : State) (p : Nat) (e : PressEntry) : State := s.modPress p fun q => { q with queue := q.queue ++ [e] }

theorem enqueued_queue (s : State) (p : Nat) (e : PressEntry) : ((s.enqueued p e).press p).queue = (s.press p).queue ++ [e] := by
  rw [State.enqueued, press_modPress_same]

theorem enqueue_full {s : State} {p : Nat} (h : 4 ≤ (s.press p).queue.length) (e : PressEntry) (k : State → Eff) :
    enqueue s p e k = .wait s .pressQueue 0 := if_pos h

theorem enqueue_room {s : State} {p : Nat} (h : (s.press p).queue.length < 4) (e : PressEntry) (k : State → Eff) :
    enqueue s p e k = k (s.enqueued p e) := if_neg (Nat.not_le.mpr h)

theorem pressBody_eff {s : State} {port : BitVec 2} {p own : Nat} {far : Bool} (hp : myPress s port = some (p, far, own)) (h : Hdr)
    (srcs : List Src) (dsts : List Dst) (eff : Nat → Bool → Ops → State → Eff) (o : Ops) :
    (pressBody h port srcs dsts eff).eff o s = eff p far o s := by
  show (match myPress s port with | some (p, far, _) => eff p far o s | none => .wait s .message 0) = _
  rw [hp]

theorem withUnits_eff (b : Body) (n : Nat) (o : Ops) (s : State) : (b.withUnits n).eff o s = b.eff o s := rfl

/-! ## PCLR, PSCL, PWRT and PRDT -/

/-- PRDT's destination is empty until the command executes (R426). -/
def awaitPt (d : BitVec 5) (s : State) : State :=
  if d.toNat < 24 then
    s.modMe fun t => { t.emptyReg (t.destG d 0) with pend := t.pend ++ [⟨none, [t.destG d 0], 0, true, false⟩] }
  else s

theorem awaitPt_press (d : BitVec 5) (s : State) (p : Nat) : (awaitPt d s).press p = s.press p := by
  unfold awaitPt
  split <;> rfl

theorem awaitPt_mem (d : BitVec 5) (s : State) : (awaitPt d s).mem = s.mem := by
  unfold awaitPt
  split <;> rfl

theorem awaitPt_empty {d : BitVec 5} (h : d.toNat < 23) (s : State) : (awaitPt d s).me.fullG d.toNat = false := by
  rw [awaitPt, if_pos (by omega), me_modMe]
  exact fullG_emptyReg_destG s.me 0 h

/-- What a command of one end does once it stands in the queue: it goes on, PRDT with its destination empty. -/
structure GoesOn (i : Instr) (g : State → State) : Prop where
  press : ∀ s p, (g s).press p = s.press p
  mem : ∀ s, (g s).mem = s.mem
  empties : ∀ h d port pt, i = .prdt h d port pt → d.toNat < 23 → ∀ s, (g s).me.fullG d.toNat = false

theorem goesOn_id {i : Instr} (h : ∀ h d port pt, i ≠ .prdt h d port pt) : GoesOn i id :=
  ⟨fun _ _ => rfl, fun _ => rfl, fun _ _ _ _ hi => absurd hi (h _ _ _ _)⟩

theorem goesOn_awaitPt (h : Hdr) (d : BitVec 5) (port : BitVec 2) (pt : BitVec 4) : GoesOn (.prdt h d port pt) (awaitPt d) :=
  ⟨fun s p => awaitPt_press d s p, awaitPt_mem d, fun _ _ _ _ hi hd s => by cases hi; exact awaitPt_empty hd s⟩

/-- The entry of a command of one end. -/
structure CommandEntry (e : PressEntry) (op : PressOp) (far : Bool) (issuer : TRef) (arg : Word) : Prop where
  op : e.op = op
  far : e.leadFar = far
  lead : e.lead = issuer
  arg : e.opA = arg

/-- PCLR, PSCL, PWRT and PRDT enter the queue and go on. -/
theorem command_eff {i : Instr} {h : Hdr} {op : PressOp} {arg : Word} {port : BitVec 2} {s : State} {o : Ops} {p own : Nat} {far : Bool}
    (hi : (∃ slot f64, i = .pclr h port slot f64 ∧ op = .pclr ∧ arg = 0) ∨
      (∃ a slot f64, i = .pscl h a port slot f64 ∧ op = .pscl ∧ arg = o.a) ∨
      (∃ a pt, i = .pwrt h a port pt ∧ op = .pwrt ∧ arg = o.a) ∨ (∃ d pt, i = .prdt h d port pt ∧ op = .prdt ∧ arg = 0))
    (hp : myPress s port = some (p, far, own)) :
    ∃ b e g, bodyOf i = some b ∧ b.eff o s = enqueue s.fresh.2 p e (fun u => .done (g u)) ∧ CommandEntry e op far s.me.ref arg ∧
      GoesOn i g := by
  obtain ⟨slot, f64, rfl, rfl, rfl⟩ | ⟨a, slot, f64, rfl, rfl, rfl⟩ | ⟨a, pt, rfl, rfl, rfl⟩ | ⟨d, pt, rfl, rfl, rfl⟩ := hi
  case inl =>
    exact ⟨bodyPclr h port slot f64, _, id, rfl, pressBody_eff hp .., ⟨rfl, rfl, rfl, rfl⟩, goesOn_id fun _ _ _ _ => nofun⟩
  case inr.inl =>
    exact ⟨bodyPscl h a port slot f64, _, id, rfl, (withUnits_eff ..).trans (pressBody_eff hp ..), ⟨rfl, rfl, rfl, rfl⟩,
      goesOn_id fun _ _ _ _ => nofun⟩
  case inr.inr.inl =>
    exact ⟨bodyPwrt h a port pt, _, id, rfl, pressBody_eff hp .., ⟨rfl, rfl, rfl, rfl⟩, goesOn_id fun _ _ _ _ => nofun⟩
  case inr.inr.inr =>
    have hgo : (fun u => if d.toNat < 24 then .done (u.modMe fun t =>
        { t.emptyReg (t.destG d 0) with pend := t.pend ++ [⟨none, [t.destG d 0], 0, true, false⟩] }) else .done u) =
        fun u => Eff.done (awaitPt d u) := funext fun u => (apply_ite Eff.done _ _ _).symm
    exact ⟨bodyPrdt h d port pt, _, awaitPt d, rfl, (pressBody_eff hp ..).trans (congrArg (enqueue _ _ _) hgo), ⟨rfl, rfl, rfl, rfl⟩,
      goesOn_awaitPt h d port pt⟩

/-! ## PLDS and PSTS (R424) -/

/-- The image's hold. -/
def imageHold (op : PressOp) (f64 : Bool) (a : Word) (s : State) : Hold :=
  ⟨if op = .plds then 3 else 4, s.fresh.1, decide (op = .psts), spmPA s.curCore (a.toNat % 262144), if f64 then 32768 else 16384, s.myCtx⟩

/-- PLDS and PSTS, their image held, enter the queue and wait for their end. -/
theorem image_eff {i : Instr} {h : Hdr} {op : PressOp} {a : BitVec 5} {port slot : BitVec 2} {f64 : Bool} {s s2 : State} {o : Ops}
    {p own : Nat} {far : Bool}
    (hp : myPress s port = some (p, far, own)) (hroom : (s.press p).queue.length < 4)
    (hreg : register s.fresh.2 [imageHold op f64 o.a s] = .ok s2) (hroom2 : (s2.press p).queue.length < 4) :
    ∃ e, (imageBody h op i a port slot f64).eff o s = .hold (s2.enqueued p e) .press e.id ∧ e.op = op ∧ e.opA = o.a := by
  refine ⟨{ mkCommand op s.fresh.1 far s2.me.ref o.a 0 (insnOf i) with slot := slot.toNat, f64 := f64 }, ?_, rfl, rfl⟩
  have heff := pressBody_eff hp h [.a a] [] (fun p far o s =>
    if 4 ≤ (s.press p).queue.length then .wait s .pressQueue 0
    else match register s.fresh.2 [imageHold op f64 o.a s] with
      | .rhld aux _ => .trap s RHLD o.a (word aux)
      | .ok u => enqueue u p { mkCommand op s.fresh.1 far u.me.ref o.a 0 (insnOf i) with slot := slot.toNat, f64 := f64 }
          fun u => .hold u .press s.fresh.1
      | _ => .wait s .memory 0) o
  rw [if_neg (Nat.not_le.mpr hroom), hreg] at heff
  exact heff.trans (enqueue_room hroom2 ..)

/-! ## PRDL (R425) -/

/-- The saved record of a faulted pact, with its new destination (a gradient pact keeps its own) and its new barrier. -/
def newRecord (e : PressEntry) (a : Word) (tb : Nat) : BitVec 320 :=
  setFld (if e.op = .pmm then setFld e.recA 192 48 a.toNat else if e.op = .pdsc then setFld e.recA 92 48 a.toNat else e.recA) 256 26 tb

/-- The delivery that PRDL orders, as it enters the queue. -/
def orderedDelivery (i : Instr) (e : PressEntry) (tag : BitVec 8) (far : Bool) (o : Ops) (r : BitVec 320) (gang : Nat)
    (l : List (Nat × Nat × Nat × BitVec 64)) (s : State) : PressEntry :=
  { mkCommand .prdl e.id far s.me.ref o.a o.b (insnOf i) with
    recA := r, recB := e.recB, tag := tag, slot := pactNames e.op r e.recB, pages := latchPages l, gang := gang
    userA := s.me.user
    pt := match e.op with | .pmm => 0 | .pdsc => 1 | _ => 2 }

/-- PRDL of a faulted pact whose new ranges translate and are held enters the queue as a delivery of its own. -/
theorem prdl_eff {h : Hdr} {a b : BitVec 5} {port : BitVec 2} {tag : BitVec 8} {s s2 : State} {o : Ops} {p : Nat} {far : Bool}
    {e : PressEntry} {l : List (Nat × Nat × Nat × BitVec 64)}
    (he : faultedPact (s.press p) far tag = some e) (ha : o.a = sext o.a.toNat 48)
    (hroom : (s.press p).queue.length < 4)
    (hl : rangesPieces s s.curCore s.myCtx s.me.user .write (redeliverRanges e.op (newRecord e o.a (tbField s o.b))) = .ok l)
    (hreg : register s.fresh.2 (holdsOf (if e.op = .pdgr then 5 else 4) s.fresh.1 s.myCtx true (joinPieces l)) = .ok s2)
    (hroom2 : (s2.press p).queue.length < 4) :
    prdlEff h a b port tag p far o s = .done ((joinPact s2 p far tag e.id).enqueued p
      (orderedDelivery (.prdl h a b port tag) e tag far o (newRecord e o.a (tbField s o.b)) s.fresh.1 l s2)) := by
  unfold prdlEff
  simp only [he]
  generalize hrec : setFld _ 256 26 (tbField s o.b) = r
  obtain rfl : r = newRecord e o.a (tbField s o.b) := by
    rw [← hrec]
    unfold newRecord
    generalize e.op = op
    cases op <;> rfl
  have hctx : s.fresh.2.myCtx = s.myCtx := rfl
  simp only [if_neg (not_not_intro ha), if_neg (Nat.not_le.mpr hroom), hl, hctx, hreg]
  exact enqueue_room (s := joinPact s2 p far tag e.id) hroom2 ..

/-! ## The statement -/

/-- Settles O28: every command of one end enters the queue through `enqueue`, with its own entry. -/
theorem pressCommands : Obligations.PressCommands := by
  unfold Obligations.PressCommands
  refine ⟨fun i h op arg port s s1 o p far own hform hi hp => ?command,
    fun i h op a port slot f64 s s1 o p far own s2 hform hi hp hroom hreg hroom2 => ?image,
    fun h a b port tag s s1 o p far own e hi hp he hop ha hroom => ?redeliver⟩
  case command =>
    obtain ⟨b, e, g, hb, heff, he, hg⟩ := command_eff hform hp
    refine ⟨fun hroom => ?_, fun hfull => ?_⟩
    · refine ⟨_, e, exec_done hi hb (heff.trans (enqueue_room (s := s1.fresh.2) hroom ..)), ?_, he.op, he.far, he.lead, he.arg, hg.mem _,
        fun d pt hprdt hd => hg.empties _ d _ pt hprdt hd _⟩
      rw [hg.press, enqueued_queue, press_fresh]
    · exact ⟨_, exec_wait hi hb (heff.trans (enqueue_full (s := s1.fresh.2) hfull ..)), rfl, rfl⟩
  case image =>
    have hbody : bodyOf i = some (imageBody h op i a port slot f64) := by
      obtain ⟨rfl, rfl⟩ | ⟨rfl, rfl⟩ := hform <;> rfl
    obtain ⟨e, heff, hop, harg⟩ := image_eff hp hroom hreg hroom2
    exact ⟨_, e, exec_hold hi hbody heff, enqueued_queue s2 p e, hop, harg, rfl⟩
  case redeliver =>
    intro r l s2 hl hreg hroom2
    have heff := prdl_eff (h := h) (a := a) (b := b) (port := port) he ha hroom hl hreg hroom2
    exact ⟨_, _, exec_done hi rfl ((pressBody_eff hp h [.a a, .b b] [] _ o).trans heff), enqueued_queue _ p _,
      rfl, rfl, rfl, rfl, rfl, rfl, rfl⟩

end Sys2Proof.Machine
end

