-- ==== Sys2Proof/Proofs/PressSteps.lean ====
section
/-! SUPPORT. What presses do with their slots and their queues: changes of slots alone, replaced entries, and pacts that go on to a stopping
point (R223, R234, R239, R278). -/

namespace Sys2Proof.Machine

/-! ## Slots (R223) -/

/-- What every step of a span keeps, the span keeps. -/
theorem foldSpan_keeps {σ : Type} {P : σ → Prop} {f : σ → Nat → σ} (h : ∀ s k, P s → P (f s k)) {s : σ} (hs : P s) (lo n : Nat) :
    P (foldSpan f s lo n) := by
  induction n generalizing s lo with
  | zero => exact hs
  | succ n ih => exact ih (h s lo hs) (lo + 1)

/-- A press with a change of its slots at most. -/
def SlotsOnly (p q : Press) : Prop := ∃ l, q = { p with slots := l }

namespace SlotsOnly

theorem refl (p : Press) : SlotsOnly p p := ⟨p.slots, rfl⟩

theorem trans {p q r : Press} (h : SlotsOnly p q) (g : SlotsOnly q r) : SlotsOnly p r := by
  obtain ⟨_, rfl⟩ := h
  obtain ⟨_, rfl⟩ := g
  exact ⟨_, rfl⟩

theorem queue {p q : Press} (h : SlotsOnly p q) : q.queue = p.queue := by
  obtain ⟨_, rfl⟩ := h
  rfl

theorem past {p q : Press} (h : SlotsOnly p q) : q.past = p.past := by
  obtain ⟨_, rfl⟩ := h
  rfl

end SlotsOnly

theorem setSlotWord_slotsOnly (p : Press) (slot i v : Nat) : SlotsOnly p (setSlotWord p slot i v) := ⟨_, rfl⟩

theorem slotPut_slotsOnly (p : Press) (slot : Nat) (pair : Bool) (i j v : Nat) : SlotsOnly p (slotPut p slot pair i j v) := by
  unfold slotPut
  dsimp only
  split
  · exact (setSlotWord_slotsOnly ..).trans (setSlotWord_slotsOnly ..)
  · exact setSlotWord_slotsOnly ..

theorem mapSlot_slotsOnly (p : Press) (slot : Nat) (pair : Bool) (m n : Nat) (f : Nat → Nat → Nat → Res) :
    SlotsOnly p (mapSlot p slot pair m n f).1 :=
  foldSpan_keeps (P := fun acc : Press × BitVec 5 => SlotsOnly p acc.1)
    (fun _ _ hacc => foldSpan_keeps (P := fun acc : Press × BitVec 5 => SlotsOnly p acc.1)
      (fun _ _ h => h.trans (slotPut_slotsOnly ..)) hacc 0 n) (.refl p) 0 m

theorem slotStart_slotsOnly (q : Press) (p : Shape) (factor : Word) : SlotsOnly q (slotStart q p factor).1 := by
  unfold slotStart
  dsimp only
  split
  · exact mapSlot_slotsOnly ..
  · split
    · exact mapSlot_slotsOnly ..
    · exact .refl q

theorem slotClear_slotsOnly (q : Press) (p : Shape) : SlotsOnly q (slotClear q p) := mapSlot_slotsOnly ..

/-! ## Entries of a queue -/

theorem setEntry_queue (p : Press) (i : Nat) (e : PressEntry) : (p.setEntry i e).queue = p.queue.set i e := setNth_eq_set ..

theorem setEntry_at {p : Press} {i : Nat} {x : PressEntry} (h : p.queue[i]? = some x) (e : PressEntry) :
    (p.setEntry i e).queue[i]? = some e := by
  rw [setEntry_queue]
  exact List.getElem?_set_self (List.getElem?_eq_some_iff.mp h).1

/-- The later of two replacements of an entry stands. -/
theorem setEntry_setEntry (p : Press) (i : Nat) (x y : PressEntry) : (p.setEntry i x).setEntry i y = p.setEntry i y := by
  simp only [Press.setEntry, setNth_eq_set, List.set_set]

/-! ## Answers of a barrier -/

theorem orHold_ok {r : BarRes} {t : State} (h : r = .ok t) (s : State) (src : BarSrc) (k : State → State) :
    r.orHold s src k = some (k t) := by
  rw [h]
  rfl

/-! ## Going on to a stopping point -/

/-- A pact that has come as far as step k. -/
def PressEntry.cameTo (e : PressEntry) (k : Nat) (fl : BitVec 5) : PressEntry :=
  { e with kdone := max e.kdone k, flags := fl, delays := [] }

theorem onward_ok {s : State} {press k : Nat} {e : PressEntry} {q : Press} {fl : BitVec 5} (h : advance s press e k = .ok q fl) (i : Nat)
    (next : State → PressEntry → Option State) : onward s press i e k next =
      next ((pressWalks s press (e.cameTo k fl)).modPress press fun _ => q.setEntry i (e.cameTo k fl)) (e.cameTo k fl) := by
  simp only [onward, h, PressEntry.cameTo]

/-- A delay that has not counted yet counts once, and holds the pact up. -/
theorem onward_delay {s : State} {press k k' : Nat} {e : PressEntry} {q : Press} {fl : BitVec 5} {l : Bool × Nat}
    (h : advance s press e k = .delay q fl k' l) (i : Nat) (next : State → PressEntry → Option State)
    (hnew : (l.1, l.2, s.devtime / 500) ∉ if k' = e.kdone then e.delays else []) : onward s press i e k next =
      some ((s.modPress press fun _ => q.setEntry i { e with kdone := k', flags := fl, delays := (if k' = e.kdone then e.delays else []) ++
        [(l.1, l.2, s.devtime / 500)] }).bump (0x100 * e.core press l.1 + 0x30) 1) := by
  simp only [onward, h, List.contains_iff_mem, if_neg hnew]

/-- A pact that reaches a stopping point meets there what happens to it. -/
theorem activeTo_of_reaches {s u : State} {press i k : Nat} {e y : PressEntry} (h : Reaches s press i e k u y)
    (next : State → PressEntry → Option State) : activeTo s press i e k next = next u y := by
  obtain ⟨hstop, ⟨hst, q, fl, hadv, rfl, rfl⟩ | ⟨hst, u1, e1, hgrad, rfl, rfl⟩⟩ := h
  case inl =>
    have hnot : ¬ e.state = .deliver := by rw [hst]; nofun
    simp only [activeTo, hstop, Bool.not_true, Bool.false_eq_true, if_false, if_neg hnot]
    exact onward_ok hadv i next
  case inr => simp only [activeTo, hstop, Bool.not_true, Bool.false_eq_true, if_false, if_pos hst, hgrad]

end Sys2Proof.Machine
end

