-- ==== Sys2Proof/Proofs/PactFormation.lean ====
section
/-! SUPPORT. Two halves of one tag form a pact, or trap (R225, R226). -/

namespace Sys2Proof.Machine

/-! ## Which way PACT_FORM goes -/

section Branches
variable {press : Nat} {tag : BitVec 8} {s : State} {a b : Half} {x : Pair}

/-- Halves of different operations, or whose agreeing fields differ, trap with reason 0. -/
theorem pactForm_differ (hb : bothHalves (s.press press) tag = some (a, b)) (h : a.op ≠ b.op ∨ agreeOf a.op a.rcd ≠ agreeOf a.op b.rcd) :
    pactForm press tag s = some (mismatch (mismatch s press a 0) press b 0) := by
  have hc : (decide (a.op ≠ b.op) || decide (agreeOf a.op a.rcd ≠ agreeOf a.op b.rcd)) = true := by simpa using h
  simp only [pactForm, hb, if_pos hc]

variable (hb : bothHalves (s.press press) tag = some (a, b)) (hop : a.op = b.op) (hag : agreeOf a.op a.rcd = agreeOf a.op b.rcd)
include hop hag

theorem agree_cond : ¬(decide (a.op ≠ b.op) || decide (agreeOf a.op a.rcd ≠ agreeOf a.op b.rcd)) = true := by
  simp only [Bool.or_eq_true, decide_eq_true_eq, not_or, not_not]
  exact ⟨hop, hag⟩

include hb

theorem pactForm_sameRole (h : pairOf press a b = none) :
    pactForm press tag s = some (mismatch (mismatch s press a 1) press b 1) := by
  simp only [pactForm, hb, if_neg (agree_cond hop hag), h]

variable (hx : pairOf press a b = some x)
include hx

theorem pactForm_alone (hg : a.inGang = false) :
    pactForm press tag s = formPairs s [x] (pactRank a.op a.rcd (crewPress s a.issuer.crew press)) := by
  simp only [pactForm, hb, if_neg (agree_cond hop hag), hx, hg]
  rfl

variable (hg : a.inGang = true)
include hg

/-- A gang waits for its last half. -/
theorem pactForm_waits (h : ¬ 2 * ((shapeOf a.rcd).gr * (shapeOf a.rcd).gc) ≤ (gangHalves s a).length) : pactForm press tag s = none := by
  simp only [pactForm, hb, if_neg (agree_cond hop hag), hx, hg, if_pos (Nat.lt_of_not_le h)]
  rfl

variable (hfull : 2 * ((shapeOf a.rcd).gr * (shapeOf a.rcd).gc) ≤ (gangHalves s a).length)
include hfull

theorem pactForm_badGang (h : gangPairs s a = none) :
    pactForm press tag s = some ((gangHalves s a).foldl (fun s y => mismatch s y.1 y.2 3) s) := by
  simp only [pactForm, hb, if_neg (agree_cond hop hag), hx, hg, if_neg (Nat.not_lt.mpr hfull), h]
  rfl

theorem pactForm_gang {ps : List Pair} (h : gangPairs s a = some ps) :
    pactForm press tag s = formPairs s ps (pactRank a.op a.rcd (crewPress s a.issuer.crew press)) := by
  simp only [pactForm, hb, if_neg (agree_cond hop hag), hx, hg, if_neg (Nat.not_lt.mpr hfull), h]
  rfl

end Branches

theorem pairOf_sameRole {press : Nat} {a b : Half} (h : a.rcd.getLsbD 0 = b.rcd.getLsbD 0) : pairOf press a b = none := if_pos h

theorem pairOf_press {press : Nat} {a b : Half} {x : Pair} (h : pairOf press a b = some x) : x.press = press := by
  unfold pairOf at h
  split at h
  · cases h
  · split at h <;> cases h <;> rfl

/-! ## A pact of one press (R226, steps 2 to 5) -/

section Single
variable {s : State} {x : Pair} {h : List OwnedHold} {pg : List (Nat × Nat × BitVec 64)}

theorem collectHolds_single (hh : pairHolds s x x.lead.id x.lead.id = .ok (h, pg)) :
    collectHolds s x.lead.id [x] = .ok (h.map (fun y => (x.press, y)), [(x, pg)]) := by
  simp only [collectHolds, hh, List.append_nil]

theorem map_owned_hold (p : Nat) (h : List OwnedHold) : (h.map fun y => (p, y)).map (fun z => z.2.hold) = h.map (·.hold) :=
  List.map_map ..

theorem formPairs_fault {lead : Bool} {c aux : Nat} {va : Word}
    (hh : pairHolds s x x.lead.id x.lead.id = .error (.trap lead c va aux)) (rank : Nat) :
    formPairs s [x] rank = some (failPairs s [x] x.press lead c va aux) := by
  simp only [formPairs, collectHolds, hh]

variable (hh : pairHolds s x x.lead.id x.lead.id = .ok (h, pg))
include hh

theorem formPairs_clash {aux : Nat} {l : Hold} {y : OwnedHold}
    (hreg : register (s.dropHolds x.lead.id fun _ => true) (h.map (·.hold)) = .rhld aux l)
    (hy : h.find? (fun y => decide (y.hold = l)) = some y) (rank : Nat) :
    formPairs s [x] rank = some (failPairs (s.dropHolds x.lead.id fun _ => true) [x] x.press y.lead 8 y.va aux) := by
  have hfind : (h.map fun y => (x.press, y)).find? (fun z => decide (z.2.hold = l)) = some (x.press, y) := by
    rw [List.find?_map]
    exact congrArg (Option.map _) hy
  simp only [formPairs, collectHolds_single hh, map_owned_hold, List.foldl_cons, List.foldl_nil, hreg, hfind]
  rfl

theorem formPairs_forms {s1 : State} (hreg : register (s.dropHolds x.lead.id fun _ => true) (h.map (·.hold)) = .ok s1)
    (hroom : (s.press x.press).queue.length < 4) (rank : Nat) : formPairs s [x] rank = some (formPair s1 x x.lead.id rank pg) := by
  have hnot : ¬ ([x].any fun x => decide (4 ≤ (s.press x.press).queue.length)) = true := by simpa using hroom
  simp only [formPairs, collectHolds_single hh, map_owned_hold, List.foldl_cons, List.foldl_nil, hreg, if_neg hnot]

end Single

/-! ## The entry (R226, step 5) -/

/-- A press whose pair has formed: its halves are gone, and its entry stands last. -/
theorem formPair_press (s : State) (x : Pair) (gang rank : Nat) (pg : List (Nat × Nat × BitVec 64)) :
    ((formPair s x gang rank pg).press x.press).queue = (s.press x.press).queue ++ [pairEntry s x gang pg] ∧
    ((formPair s x gang rank pg).press x.press).halves = (s.press x.press).halves.filter (fun h => h.tag ≠ x.lead.tag) := by
  simp only [formPair, release_press, modRef_press, press_modPress_same]
  split <;> exact ⟨rfl, rfl⟩

theorem formPair_mem (s : State) (x : Pair) (gang rank : Nat) (pg : List (Nat × Nat × BitVec 64)) :
    (formPair s x gang rank pg).mem = s.mem := by
  simp only [formPair, release_mem, modRef_mem, modPress_mem]

end Sys2Proof.Machine
end

