-- ==== Sys2Proof/Proofs/PactsRun.lean ====
section
/-! SUPPORT. Entries begin, stream to their end, suspend, go on and time out (R230 to R244, R269, R278, R281), and O58. -/

namespace Sys2Proof.Machine

/-! ## Entries begin (R234) -/

/-- An entry's turn has come: no entry before it is queued, or names a structure that it names. -/
structure EntryTurn (p : Press) (i : Nat) (e : PressEntry) : Prop where
  place : p.queue[i]? = some e
  queued : e.state = .queued
  first : ∀ x ∈ p.queue.take i, x.state ≠ .queued ∧ x.names &&& e.names = 0

theorem EntryTurn.due {p : Press} {i : Nat} {e : PressEntry} (h : EntryTurn p i e) {held : Bool} (hheld : held = false) :
    ¬(decide (e.state ≠ .queued) || (p.queue.take i).any (fun x => decide (x.state = .queued)) ||
      (p.queue.take i).any (fun x => decide (x.names &&& e.names ≠ 0)) || held) = true := by
  have hqueued : ((p.queue.take i).any fun x => decide (x.state = .queued)) = false :=
    List.any_eq_false.mpr fun x hx => by simpa using (h.first x hx).1
  have hnames : ((p.queue.take i).any fun x => decide (x.names &&& e.names ≠ 0)) = false :=
    List.any_eq_false.mpr fun x hx => by simpa using (h.first x hx).2
  rw [hqueued, hnames, hheld, decide_eq_false (not_not_intro h.queued)]
  nofun

/-- No entry has the cell array. -/
theorem arrayFree {l : List PressEntry} (h : ∀ x ∈ l, holdsArray x = false) : ¬ l.any holdsArray = true := by
  simpa using h

section Start
variable {press i : Nat} {s : State} {e : PressEntry} (h : EntryTurn (s.press press) i e)
include h

theorem start_pmm (hop : e.op = .pmm) (hc : pressCauses s press e = false)
    (hfree : ∀ x ∈ (s.press press).queue.take i, holdsArray x = false) :
    pressEntryStart press i s = some (tracePress (s.modPress press fun _ =>
      (slotStart (s.press press) (shapeOf e.recA) e.opA).1.setEntry i { e with
        state := .stream, flags := e.flags ||| (slotStart (s.press press) (shapeOf e.recA) e.opA).2 }) 3 e) := by
  have hheld : (if e.op.isPact = true then pressCauses s press e else pressHeld s press e) = false := by rw [hop]; exact hc
  simp only [pressEntryStart, h.place, if_neg (h.due hheld)]
  simp only [hop, if_neg (arrayFree hfree)]

theorem start_descent (hop : e.op = .pdsc ∨ e.op = .pdgr) (hc : pressCauses s press e = false)
    (hfree : ∀ x ∈ (s.press press).queue.take i, holdsArray x = false) :
    pressEntryStart press i s = some (tracePress (s.modPress press fun q => q.setEntry i { e with state := .stream }) 3 e) := by
  have hheld : (if e.op.isPact = true then pressCauses s press e else pressHeld s press e) = false := by
    rcases hop with hop | hop <;> (rw [hop]; exact hc)
  simp only [pressEntryStart, h.place, if_neg (h.due hheld)]
  rcases hop with hop | hop <;> simp only [hop, if_neg (arrayFree hfree)]

theorem start_prdl (hop : e.op = .prdl) (hc : pressHeld s press e = false) :
    pressEntryStart press i s = some (tracePress (s.modPress press fun q =>
      { q.setEntry i (redelivery (s.press press) e) with past := q.past.filter fun x => x.2.id ≠ e.id }) 3
        (redelivery (s.press press) e)) := by
  have hheld : (if e.op.isPact = true then pressCauses s press e else pressHeld s press e) = false := by rw [hop]; exact hc
  simp only [pressEntryStart, h.place, if_neg (h.due hheld)]
  simp only [hop]

theorem start_command (hop : e.op.isPact = false) (hprdl : e.op ≠ .prdl) (hc : pressHeld s press e = false) :
    pressEntryStart press i s = some (s.modPress press fun q => q.setEntry i { e with state := .stream }) := by
  have hheld : (if e.op.isPact = true then pressCauses s press e else pressHeld s press e) = false := by
    rw [hop, if_neg Bool.false_ne_true]
    exact hc
  simp only [pressEntryStart, h.place, if_neg (h.due hheld)]
  split
  case h_1 hpmm => rw [hpmm] at hop; cases hop
  case h_2 hpdsc => rw [hpdsc] at hop; cases hop
  case h_3 hpdgr => rw [hpdgr] at hop; cases hop
  case h_4 hp => exact absurd hp hprdl
  case h_5 => rfl

/-- A pact that begins streams; a PMM alone changes slots as it does. -/
theorem start_pact (hop : e.op = .pmm ∨ e.op = .pdsc ∨ e.op = .pdgr) (hc : pressCauses s press e = false)
    (hfree : ∀ x ∈ (s.press press).queue.take i, holdsArray x = false) :
    ∃ t x, pressEntryStart press i s = some t ∧ (t.press press).queue[i]? = some x ∧ x.id = e.id ∧ x.state = .stream ∧
      (e.op ≠ .pmm → (t.press press).slots = (s.press press).slots) := by
  rcases hop with hop | hop
  case inl =>
    refine ⟨_, { e with state := .stream, flags := e.flags ||| (slotStart (s.press press) (shapeOf e.recA) e.opA).2 },
      start_pmm h hop hc hfree, ?_, rfl, rfl, fun hne => absurd hop hne⟩
    rw [tracePress_press, press_modPress_same]
    exact setEntry_at (by rw [(slotStart_slotsOnly ..).queue]; exact h.place) _
  case inr =>
    refine ⟨_, { e with state := .stream }, start_descent h hop hc hfree, ?_, rfl, rfl, fun _ => ?_⟩
    · rw [tracePress_press, press_modPress_same]
      exact setEntry_at h.place _
    · rw [tracePress_press, press_modPress_same]
      rfl

theorem start_delivers (hop : e.op = .prdl) (hc : pressHeld s press e = false) :
    ∃ t x, pressEntryStart press i s = some t ∧ (t.press press).queue[i]? = some x ∧ x.state = .deliver := by
  refine ⟨_, redelivery (s.press press) e, start_prdl h hop hc, ?_, rfl⟩
  rw [tracePress_press, press_modPress_same]
  exact setEntry_at h.place _

end Start

/-! ## Streaming ends -/

section StreamEnd
variable {press i : Nat} {s : State} {e : PressEntry}

theorem pactStreamEnd_streams (hs : streaming (s.press press) = some (i, e)) (ha : e.abort = false) (hc : gangCauses s e = false)
    (hf : gangFault s e = false) :
    pactStreamEnd press s = onward s press i e e.total fun s e => some (streamEnd press i s e) := by
  simp only [pactStreamEnd, hs, ha, hc, hf, Bool.or_false, if_neg Bool.false_ne_true]

theorem streamEnd_done (h : e.delivers = false) : streamEnd press i s e = finishPact s press e := by
  rw [streamEnd, h]
  exact if_neg Bool.false_ne_true

theorem streamEnd_delivers (h : e.delivers = true) : streamEnd press i s e =
    releaseKey (if e.op = .pdgr then s.modPress press fun q => q.setEntry i { e with state := .deliver }
      else (s.modPress press fun q => q.setEntry i { e with state := .deliver }).dropHolds e.id fun h => !h.write) .press e.id := by
  rw [streamEnd, h]
  exact if_pos rfl

/-- A pact that delivers keeps its press but for its own state, and memory; but for a gradient pact, its operands are held no more. -/
theorem streamEnd_delivering (h : e.delivers = true) :
    (streamEnd press i s e).press press = (s.press press).setEntry i { e with state := .deliver } ∧
    (streamEnd press i s e).mem = s.mem ∧
    (e.op ≠ .pdgr → ∀ x ∈ (streamEnd press i s e).holds, x.owner = e.id → x.write = true) := by
  rw [streamEnd_delivers h]
  by_cases hop : e.op = .pdgr
  case pos =>
    rw [if_pos hop]
    exact ⟨by rw [releaseKey_press, press_modPress_same], rfl, fun hne => absurd hop hne⟩
  case neg =>
    rw [if_neg hop]
    refine ⟨by rw [releaseKey_press, dropHolds_press, press_modPress_same], rfl, fun _ x hx ho => ?_⟩
    simpa using dropHolds_left hx ho

theorem pressWalks_mem (s : State) (press : Nat) (e : PressEntry) : (pressWalks s press e).mem = s.mem := by
  obtain ⟨_, hc⟩ := pressWalks_counters s press e
  rw [hc]

end StreamEnd

/-! ## Suspension and going on (R239 to R241, R278) -/

theorem pactSuspend_head {press k i : Nat} {s u t : State} {e y : PressEntry} {l : List (Nat × PressEntry)}
    (hl : active (s.press press) = (i, e) :: l) (hcause : e.abort = true ∨ gangCauses s e = true ∨ gangFault s e = true)
    (hreach : Reaches s press i e k u y) (ht : suspendNow press i u y = some t) : pactSuspend press k s = some t := by
  have hc : (e.abort || gangCauses s e || gangFault s e) = true := by simpa [or_assoc] using hcause
  simp only [pactSuspend, hl, List.findSome?_cons, if_pos hc, activeTo_of_reaches hreach, ht]

theorem pactResume_head {press i : Nat} {s : State} {e : PressEntry} {l : List (Nat × PressEntry)}
    (hl : suspendedEntries (s.press press) = (i, e) :: l) (hc : gangCauses s e = false) (hf : gangFault s e = false)
    (hre : reissued s press e = true → refetchOk s press e = true) : pactResume press s = some (resumeNow press i s e) := by
  have hgo : (reissued s press e && !refetchOk s press e) = false := by
    cases hr : reissued s press e with
    | false => rfl
    | true => rw [hre hr]; rfl
  simp only [pactResume, hl, List.findSome?_cons, hc, hf, hgo, Bool.or_false, if_neg Bool.false_ne_true]

theorem resumeNow_press (press i : Nat) (s : State) (e : PressEntry) : (resumeNow press i s e).press press =
    (s.press press).setEntry i { e with
      state := if e.op = .pdgr ∧ 1 ≤ e.kdone then .deliver else .stream, causes := ⟨false, false, false, false⟩ } := by
  have hst : (if (decide (e.op = .pdgr) && decide (1 ≤ e.kdone)) = true then PactState.deliver else .stream) =
      if e.op = .pdgr ∧ 1 ≤ e.kdone then .deliver else .stream := by simp only [Bool.and_eq_true, decide_eq_true_eq]
  rw [← hst]
  simp only [resumeNow, releaseKey_press, press_modPress_same]

/-! ## The timeout (R237) -/

section Timeout
variable {core slot : Nat} {s : State} {j : Joined}
  (hpos : fld ((s.thread core slot).tmoNow s.devtime).2 0 20 ≠ 0)
  (hdue : fld ((s.thread core slot).tmoNow s.devtime).2 0 20 * 1000 ≤ (s.thread core slot).timer)
include hpos hdue

theorem timeout_cond : ¬(decide (fld ((s.thread core slot).tmoNow s.devtime).2 0 20 = 0) ||
    decide ((s.thread core slot).timer < fld ((s.thread core slot).tmoNow s.devtime).2 0 20 * 1000)) = true := by
  simpa using ⟨hpos, hdue⟩

variable (hj : waitedPact s (s.thread core slot) = some j)
include hj

/-- A half that waits for no one's arrival any more is cancelled. -/
theorem pactTimeout_half {h : Half} {u : State}
    (hh : (s.press j.press).halves.find? (fun h => decide (h.id = j.pact) && decide (h.far = j.far)) = some h)
    (hm : halfMatched s j = false) (hu : cancelHalf s j.press h 0x0E (word (tagAux j.press j.far j.tag)) = .ok u) :
    pactTimeout core slot s = some u := by
  simp only [pactTimeout, hj, if_neg (timeout_cond hpos hdue), hh, hm, if_neg Bool.false_ne_true]
  exact orHold_ok hu ..

/-- A suspended pact that a thread waits for is cancelled, and the thread traps. -/
theorem pactTimeout_susp {e : PressEntry} {u : State} {p : Park}
    (hh : (s.press j.press).halves.find? (fun h => decide (h.id = j.pact) && decide (h.far = j.far)) = none)
    (he : (s.press j.press).queue.find? (fun e => decide (e.id = j.pact) && e.op.isPact && decide (e.state = .susp)) = some e)
    (hu : cancelPact s j.press e = .ok u) (hp : (u.thread core slot).park = some p) :
    pactTimeout core slot s = some (
      if p.why = .exit then exitTrap u core slot 0x0E 0 (word (tagAux j.press j.far j.tag + 1024))
      else takeTrap u core slot 0x0E 0 (word (tagAux j.press j.far j.tag + 1024)) p.addr false false) := by
  simp only [pactTimeout, hj, if_neg (timeout_cond hpos hdue), hh, he, orHold_ok hu, hp]
  rfl

end Timeout

/-! ## The statement -/

/-- Settles O58: each event takes the branch that its hypotheses choose. -/
theorem pactsRun : Obligations.PactsRun := by
  unfold Obligations.PactsRun
  refine ⟨fun press tag s a b hb => ⟨fun h => ?differ, fun hop hag hrole => ?sameRole, fun x hop hag hx hg => ?alone,
      fun x hop hag hx hg => ?gang⟩,
    fun s x gang rank pg => ?forms, fun press i s e => ?starts, fun press i s e hs ha hc hf => ⟨?streamed, ?delayed⟩,
    fun press k i s u e y l hl hcause hreach => ⟨?suspended, ?aborted⟩, fun press i s e l hl hc hf hre => ?resumed,
    fun core slot s j => ?timeout⟩
  case differ => exact event_some (pactForm_differ hb h)
  case sameRole => exact event_some (pactForm_sameRole hb hop hag (pairOf_sameRole hrole))
  case alone =>
    have hform := pactForm_alone hb hop hag hx hg
    obtain rfl := pairOf_press hx
    refine ⟨fun lead c va aux hh => event_some (hform.trans (formPairs_fault hh _)),
      fun h pg hh => ⟨fun aux l y hreg hy => ?_, fun s1 hreg hroom => ?_⟩⟩
    · exact event_some (hform.trans (formPairs_clash hh hreg hy _))
    · exact event_some (hform.trans (formPairs_forms hh hreg hroom _))
  case gang =>
    refine ⟨fun hwait => ?_, fun hfull hbad => ?_, fun ps t hfull hps ht => ?_⟩
    · exact congrArg (event s) (pactForm_waits hb hop hag hx hg hwait)
    · exact event_some (pactForm_badGang hb hop hag hx hg hfull hbad)
    · exact event_some ((pactForm_gang hb hop hag hx hg hfull hps).trans ht)
  case forms =>
    obtain ⟨hqueue, hhalves⟩ := formPair_press s x gang rank pg
    exact ⟨hqueue, hhalves, formPair_mem s x gang rank pg, rfl, rfl, rfl, rfl⟩
  case starts =>
    intro p hplace hqueued hfirst
    have hturn : EntryTurn (s.press press) i e := ⟨hplace, hqueued, hfirst⟩
    refine ⟨fun hop hc hfree => ?_, fun hop hc => ?_, fun hop hprdl hc => event_some (start_command hturn hop hprdl hc)⟩
    · obtain ⟨t, x, ht, hx⟩ := start_pact hturn hop hc hfree
      exact ⟨t, x, event_some ht, hx⟩
    · obtain ⟨t, x, ht, hx⟩ := start_delivers hturn hop hc
      exact ⟨t, x, event_some ht, hx⟩
  case streamed =>
    intro q fl hadv y
    have hend := (pactStreamEnd_streams hs ha hc hf).trans (onward_ok hadv i _)
    refine ⟨fun hdone => event_some (hend.trans (congrArg some (streamEnd_done hdone))), fun hdel => ?_⟩
    obtain ⟨hpress, hmem, hholds⟩ := streamEnd_delivering (press := press) (i := i)
      (s := (pressWalks s press y).modPress press fun _ => q.setEntry i y) hdel
    refine ⟨_, event_some hend, ?_, hmem.trans (pressWalks_mem s press y), hholds⟩
    exact hpress.trans (by rw [press_modPress_same, setEntry_setEntry])
  case delayed =>
    intro q fl k l hadv old hnew
    exact event_some ((pactStreamEnd_streams hs ha hc hf).trans (onward_delay hadv i _ hnew))
  case suspended =>
    intro hy
    refine ⟨_, _, event_some (pactSuspend_head hl hcause hreach (if_neg (ne_true_of_eq_false hy))), press_modPress_same .., ?_⟩
    exact ⟨rfl, rfl, rfl, rfl⟩
  case aborted =>
    intro v hy hv
    exact event_some (pactSuspend_head hl hcause hreach ((if_pos hy).trans (orHold_ok hv ..)))
  case resumed => exact ⟨_, event_some (pactResume_head hl hc hf hre), resumeNow_press press i s e⟩
  case timeout =>
    intro t tmo hj hpos hdue
    exact ⟨fun h u hh hm hu => event_some (pactTimeout_half hpos hdue hj hh hm hu),
      fun e u p hh he hu hp => event_some (pactTimeout_susp hpos hdue hj hh he hu hp)⟩

end Sys2Proof.Machine
end

