-- ==== Sys2Proof/Proofs/PressFaults.lean ====
section
/-! SUPPORT. How a pact ends, and the faults and deliveries that a press tells of (R217, R232, R233, R238 to R242, R279, R280). -/

namespace Sys2Proof.Machine

/-! ## A pact leaves the queue (R237, R238) -/

/-- A pact in a final state: no entry of its queue has its number, and both ends keep its outcome. -/
structure Retired (p : Press) (e : PressEntry) (st : PactState) : Prop where
  gone : ∀ x ∈ p.queue, x.id ≠ e.id
  kept : ∀ far, ∃ x, (far, x) ∈ p.past ∧ x.id = e.id ∧ x.state = st

theorem retire_retired (p : Press) (e : PressEntry) (st : PactState) : Retired (p.retire e st) e st := by
  refine ⟨fun x hx => by simpa using (List.mem_filter.mp hx).2, fun far =>
    ⟨{ e with state := st, abort := false, redo := false, doomed := none }, ?_, rfl, rfl⟩⟩
  cases far with
  | true => exact List.mem_cons_self
  | false => exact List.mem_cons_of_mem _ (List.mem_filter.mpr ⟨List.mem_cons_self, rfl⟩)

theorem Retired.of_eq {p q : Press} {e : PressEntry} {st : PactState} (h : Retired p e st) (hq : q.queue = p.queue)
    (hp : q.past = p.past) : Retired q e st := ⟨by rw [hq]; exact h.gone, by rw [hp]; exact h.kept⟩

theorem endEntry_press (s : State) (press : Nat) (e : PressEntry) (st : PactState) :
    (endEntry s press e st).press press = (s.press press).retire e st := by
  rw [endEntry, tracePress_press, releaseKey_press, dropHolds_press, press_modPress_same]

/-- Of a pact that has ended, its delivery's hold is left at most. -/
theorem endEntry_holds {s : State} {press : Nat} {e : PressEntry} {st : PactState} {h : Hold} (hh : h ∈ (endEntry s press e st).holds)
    (ho : h.owner = e.id) : h.write = true := by
  rw [endEntry, tracePress_holds, releaseKey_holds] at hh
  simpa using dropHolds_left hh ho

theorem endEntry_mem {s : State} {e : PressEntry} (h : s.profiled (s.ctxOf e.lead.crew) = false) (press : Nat) (st : PactState) :
    (endEntry s press e st).mem = s.mem := by
  have hctx : (releaseKey ((s.modPress press fun p => p.retire e st).dropHolds e.id fun h => !h.write) .press e.id).ctxOf e.lead.crew =
      s.ctxOf e.lead.crew := (mapThreads_ctxOf ..).trans (dropHolds_ctxOf ..)
  rw [endEntry, tracePress_unprofiled (hctx ▸ h)]
  rfl

theorem finishPact_retired (s : State) (press : Nat) (e : PressEntry) : Retired ((finishPact s press e).press press) e .done := by
  have hend : Retired ((endEntry (s.modRef e.lead fun t => t.raise e.flags) press e .done).press press) e .done := by
    rw [endEntry_press]
    exact retire_retired ..
  rw [finishPact, press_modPress_same]
  split
  case h_1 =>
    split
    · exact hend
    · exact hend.of_eq (slotClear_slotsOnly ..).queue (slotClear_slotsOnly ..).past
  case h_2 =>
    split
    · exact hend
    · exact hend.of_eq rfl rfl
  case h_3 => exact hend.of_eq rfl rfl

theorem finishPact_holds {s : State} {press : Nat} {e : PressEntry} {h : Hold} (hh : h ∈ (finishPact s press e).holds)
    (ho : h.owner = e.id) : h.write = true := endEntry_holds (st := .done) hh ho

theorem enterDfault_retired (s : State) (press : Nat) (e : PressEntry) (other : Bool) (addr : Word) :
    Retired ((enterDfault s press e other addr).press press) e .dfault := by
  rw [enterDfault, tellPdlv, modRef_press, endEntry_press]
  exact retire_retired ..

theorem enterDfault_holds {s : State} {press : Nat} {e : PressEntry} {other : Bool} {addr : Word} {h : Hold}
    (hh : h ∈ (enterDfault s press e other addr).holds) (ho : h.owner = e.id) : h.write = true := by
  rw [enterDfault, tellPdlv, modRef_holds] at hh
  exact endEntry_holds hh ho

theorem enterDfault_mem {s : State} {e : PressEntry} (h : s.profiled (s.ctxOf e.lead.crew) = false) (press : Nat) (other : Bool)
    (addr : Word) : (enterDfault s press e other addr).mem = s.mem := by
  rw [enterDfault, tellPdlv, modRef_mem]
  exact endEntry_mem h press .dfault

/-! ## Operand faults (R240, R279) -/

/-- An end's operand cannot be read: the pact is suspended, with that end as the cause. -/
def PressEntry.faulted (e : PressEntry) (own : Bool) : PressEntry :=
  { e with state := .susp, causes := if own then { e.causes with faultB := true } else { e.causes with faultA := true } }

theorem failFetch_fails {s : State} {press k : Nat} {own scale : Bool} {addr : Word} {e : PressEntry}
    (hr : readsAt s press e k own scale addr.toNat = true)
    (hf : readFails s (e.reader s press !own) (e.weight own) addr.toNat = true) (i : Nat) :
    failFetch s press i k own scale addr e = some (s.modPress press fun p => p.setEntry i (e.faulted own)) := by
  simp only [failFetch, hr, hf, Bool.not_true, Bool.or_false, Bool.false_eq_true, if_false, PressEntry.faulted]

theorem operandFault_active {press k i : Nat} {own scale : Bool} {addr : Word} {s u : State} {e y : PressEntry}
    {l : List (Nat × PressEntry)} (hl : active (s.press press) = (i, e) :: l) (ha : e.abort = false) (hreach : Reaches s press i e k u y)
    (hr : readsAt u press y k own scale addr.toNat = true)
    (hf : readFails u (y.reader u press !own) (y.weight own) addr.toNat = true) :
    operandFault press k own scale addr s = some ((u.modPress press fun p => p.setEntry i (y.faulted own)).modRef
      (if own then y.other else y.lead) fun t => t.postTrap PFLT addr (pfltAux press y k own scale)) := by
  simp only [operandFault, hl, List.findSome?_cons, ha, Bool.false_eq_true, if_false, activeTo_of_reaches hreach, failFetch_fails hr hf,
    Option.map_some]

theorem operandFault_reissue {press i : Nat} {own scale : Bool} {addr : Word} {s : State} {e : PressEntry} {r : TRef}
    {l : List (Nat × PressEntry)} (hn : active (s.press press) = []) (hl : suspendedEntries (s.press press) = (i, e) :: l)
    (hre : reissuer s press e own = some r) (hg : gangFault s e = false) (hr : readsAt s press e e.kdone own scale addr.toNat = true)
    (hf : readFails s (e.reader s press !own) (e.weight own) addr.toNat = true) :
    operandFault press e.kdone own scale addr s = some (trapRef (s.modPress press fun p => p.setEntry i (e.faulted own)) r PFLT addr
      (pfltAux press e e.kdone own scale)) := by
  have hc : ¬(decide (e.kdone ≠ e.kdone) || gangFault s e) = true := by simp [hg]
  simp only [operandFault, hn, List.findSome?_nil, hl, List.findSome?_cons, hre, if_neg hc, failFetch_fails hr hf, Option.map_some]

/-! ## Deliveries (R232, R233, R277) -/

/-- A pact delivers: it has not landed, and no halt freezes its press (R98). -/
structure Delivering (s : State) (press i : Nat) (e : PressEntry) : Prop where
  place : (s.press press).queue[i]? = some e
  state : e.state = .deliver
  landing : e.landed = false
  runs : pressHalted s press (s.ctxOf e.lead.crew) = false

section Delivery
variable {press i : Nat} {s : State} {e : PressEntry} (h : Delivering s press i e)
include h

theorem Delivering.done_cond (hop : e.op.isPact = true) (hd : e.doomed = none) :
    ¬(!e.op.isPact || decide (e.state ≠ .deliver) || e.landed || e.doomed.isSome || pressHalted s press (s.ctxOf e.lead.crew)) = true := by
  simp [hop, h.state, h.landing, hd, h.runs]

theorem Delivering.fault_cond (hop : e.op.isPact = true) :
    ¬(!e.op.isPact || decide (e.state ≠ .deliver) || e.landed || pressHalted s press (s.ctxOf e.lead.crew)) = true := by
  simp [hop, h.state, h.landing, h.runs]

/-- A tile, or a block, lands: its granules are written, and counted. -/
theorem pactDeliveryDone_tile {u v : State} (hop : e.op = .pmm ∨ e.op = .pdsc) (hd : e.doomed = none)
    (hu : engineStores s (e.reader s press true) (deliveryWrites (s.press press) e).1 = some u)
    (hv : countN (if (gangOthers s press e).isEmpty then u.dropHolds e.gang fun h => h.write else u) (e.core press true)
      (s.ctxOf e.lead.crew) e.tb (.press e.id) (e.granules.filter fun g => !(othersGranules s press e).contains g).length = .ok v) :
    pactDeliveryDone press i s = some (landTile press i v { e with
      gran := e.gran + (e.granules.filter fun g => !(othersGranules s press e).contains g).length
      flags := e.flags ||| (deliveryWrites (s.press press) e).2 }) := by
  have hpact : e.op.isPact = true := by rcases hop with hop | hop <;> (rw [hop]; rfl)
  simp only [pactDeliveryDone, h.place, if_neg (h.done_cond hpact hd)]
  split
  case h_1 hpdgr => rw [hpdgr] at hop; simp at hop
  case h_2 =>
    rw [hu, Option.bind_some]
    exact orHold_ok hv ..

/-- A gradient's adds are all performed: it counts once, and is done. -/
theorem pactDeliveryDone_gradient {u v : State} {x : PressEntry} (hop : e.op = .pdgr) (hd : e.doomed = none)
    (hc : gangCauses s e = false) (hf : gangFault s e = false) (hg : gradTo s press e (descOf e.recA).depth = some (u, x, true))
    (hv : countAt (u.dropHolds e.gang fun _ => true) (e.core press true) (s.ctxOf e.lead.crew) e.tb (.press e.id) = .ok v) :
    pactDeliveryDone press i s = some (finishPact v press { x with kdone := 1 + (descOf e.recA).depth }) := by
  have hpact : e.op.isPact = true := by rw [hop]; rfl
  have hcause : ¬(gangCauses s e || gangFault s e) = true := by simp [hc, hf]
  simp only [pactDeliveryDone, h.place, if_neg (h.done_cond hpact hd)]
  split
  case h_1 =>
    rw [if_neg hcause, hg]
    exact orHold_ok hv ..
  case h_2 hno => exact absurd hop hno

/-! ## Delivery faults (R242, R280) -/

variable {landed : Nat} {addr : Word}

theorem deliveryFault_doomed {a : Word} (hop : e.op.isPact = true) (hd : e.doomed = some a) :
    deliveryFault press i landed addr s = some (enterDfault s press e true a) := by
  simp only [deliveryFault, h.place, if_neg (h.fault_cond hop), hd]

theorem deliveryFault_gradient {u t : State} {x : PressEntry} (hop : e.op = .pdgr) (hd : e.doomed = none)
    (hg : gradTo s press e (addedLevels (s.press press) (descOf e.recA) (e.gran + landed) (descOf e.recA).depth + 1) (some landed) =
      some (u, x, true))
    (hgran : x.gran = e.gran + landed) (hnext : nextAdd (s.press press) x = some addr.toNat)
    (hfail : storeFails u (e.reader s press true) addr.toNat = true)
    (ht : errorAt ((enterDfault u press x false addr).dropHolds x.gang fun _ => true) (e.core press true) (s.ctxOf e.lead.crew) x.tb 1
      (.press e.id) = .ok t) : deliveryFault press i landed addr s = some t := by
  have hpact : e.op.isPact = true := by rw [hop]; rfl
  have hmeets : ¬(decide (x.gran ≠ e.gran + landed) || decide (nextAdd (s.press press) x ≠ some addr.toNat) ||
      !storeFails u (e.reader s press true) addr.toNat) = true := by simp [hgran, hnext, hfail]
  simp only [deliveryFault, h.place, if_neg (h.fault_cond hpact), hd]
  split
  case h_1 =>
    rw [hg]
    exact (if_neg hmeets).trans (orHold_ok ht ..)
  case h_2 hno => exact absurd hop hno

theorem deliveryFault_tile {u v t : State} {n : Nat} {x : PressEntry} (hop : e.op.isPact = true) (hno : e.op ≠ .pdgr)
    (hd : e.doomed = none)
    (hn : n = (((granulesOf (deliveryWrites (s.press press) e).1).take landed).filter fun g =>
      !(othersGranules s press e).contains g).length)
    (hx : x = { e with gran := e.gran + n, flags := e.flags ||| (deliveryWrites (s.press press) e).2 })
    (hat : (granulesOf (deliveryWrites (s.press press) e).1)[landed]? = some (addr.toNat / 64))
    (hfail : storeFails s (e.reader s press true) addr.toNat = true)
    (hu : engineStores s (e.reader s press true) ((deliveryWrites (s.press press) e).1.filter fun w =>
      ((granulesOf (deliveryWrites (s.press press) e).1).take landed).contains (w.1 / 64)) = some u)
    (hv : countN u (e.reader s press true).core (e.reader s press true).ctx x.tb (.press e.id) n = .ok v)
    (ht : errorAt (failGang (enterDfault (v.modPress press fun p => p.setEntry i x) press x false addr) x.gang addr)
      (e.reader s press true).core (e.reader s press true).ctx x.tb (uncounted (v.modPress press fun p => p.setEntry i x) x)
      (.press e.id) = .ok t) : deliveryFault press i landed addr s = some t := by
  have hmeets : ¬(decide ((granulesOf (deliveryWrites (s.press press) e).1)[landed]? ≠ some (addr.toNat / 64)) ||
      !storeFails s (e.reader s press true) addr.toNat) = true := by simp [hat, hfail]
  subst hn hx
  rw [hd] at hv ht
  simp only [deliveryFault, h.place, if_neg (h.fault_cond hop), hd, if_neg hmeets, hu, Option.bind_some, hv]
  exact orHold_ok ht ..

end Delivery

end Sys2Proof.Machine
end

