-- ==== Sys2Proof/Proofs/SlotCommands.lean ====
section
/-! SUPPORT. The commands of one end have their effect and leave the queue (R423 to R426), and O59. -/

namespace Sys2Proof.Machine

/-! ## Words of a slot that is written in order (R424) -/

theorem slotWord_set_same (p : Press) (slot i v : Nat) : slotWord (setSlotWord p slot i v) slot i = v % 2 ^ 32 := by
  rw [slotWord, setSlotWord, Tbl.get_put, if_pos rfl, BitVec.toNat_ofNat]

theorem slotWord_set_other (p : Press) (slot v : Nat) {i j : Nat} (h : j ≠ i) :
    slotWord (setSlotWord p slot i v) slot j = slotWord p slot j := by
  rw [slotWord, setSlotWord, Tbl.get_put, if_neg (by omega), slotWord]

/-- The words lo, lo + 1, … of a slot, n of them, each set to its value. -/
def fillSlot (p : Press) (slot : Nat) (f : Nat → Nat) (lo n : Nat) : Press := foldSpan (fun p w => setSlotWord p slot w (f w)) p lo n

theorem fillSlot_word (p : Press) (slot : Nat) (f : Nat → Nat) (lo n w : Nat) :
    slotWord (fillSlot p slot f lo n) slot w = if lo ≤ w ∧ w < lo + n then f w % 2 ^ 32 else slotWord p slot w := by
  induction n generalizing p lo with
  | zero => exact (if_neg (by omega)).symm
  | succ n ih =>
    rw [fillSlot, foldSpan, ← fillSlot, ih]
    by_cases hw : w = lo
    · subst hw
      rw [if_neg (by omega), if_pos (by omega), slotWord_set_same]
    · rw [slotWord_set_other _ _ _ hw]
      exact if_congr (by omega) rfl rfl

theorem read_lt (s : State) (die pa n : Nat) : s.read die pa n < 256 ^ n := by
  induction n generalizing pa with
  | zero => exact Nat.one_pos
  | succ n ih =>
    have hrest := ih (pa + 1)
    have hbyte := (s.byteAt die pa).isLt
    rw [State.read, Nat.pow_succ']
    omega

/-! ## Memory to which an image is stored in order (R424) -/

theorem bytesOf_getD (v n : Nat) {k : Nat} (h : k < n) : (bytesOf v n).getD k 0 = BitVec.ofNat 8 (v / 256 ^ k) := by
  induction n generalizing v k with
  | zero => exact absurd h (Nat.not_lt_zero k)
  | succ n ih =>
    cases k with
    | zero => rw [bytesOf, List.getD_cons_zero, Nat.pow_zero, Nat.div_one]
    | succ k =>
      rw [bytesOf, List.getD_cons_succ, ih _ (by omega), Nat.shiftRight_eq_div_pow, Nat.pow_succ' (n := k), Nat.div_div_eq_div_mul]

theorem getMem_write (s : State) (pa n v a : Nat) : Tbl.get 0 (s.write pa n v).mem a =
    if pa ≤ a ∧ a < pa + n then BitVec.ofNat 8 (v / 256 ^ (a - pa)) else Tbl.get 0 s.mem a := by
  rw [State.write, getMem_setBytes, bytesOf_length]
  split
  · exact bytesOf_getD _ _ (by omega)
  · rfl

/-- The words lo, lo + 1, … of an image, n of them, each stored at its address. -/
def storeWords (s : State) (pa : Nat) (f : Nat → Nat) (lo n : Nat) : State := foldSpan (fun s w => s.write (pa + 4 * w) 4 (f w)) s lo n

theorem storeWords_outside (s : State) (pa : Nat) (f : Nat → Nat) (lo n : Nat) {a : Nat} (h : a < pa + 4 * lo ∨ pa + 4 * (lo + n) ≤ a) :
    Tbl.get 0 (storeWords s pa f lo n).mem a = Tbl.get 0 s.mem a := by
  induction n generalizing s lo with
  | zero => rfl
  | succ n ih => rw [storeWords, foldSpan, ← storeWords, ih _ _ (by omega), getMem_write, if_neg (by omega)]

theorem storeWords_inside (s : State) (pa : Nat) (f : Nat → Nat) (lo n : Nat) {w k : Nat} (hlo : lo ≤ w) (hw : w < lo + n) (hk : k < 4) :
    Tbl.get 0 (storeWords s pa f lo n).mem (pa + 4 * w + k) = BitVec.ofNat 8 (f w / 256 ^ k) := by
  induction n generalizing s lo with
  | zero => omega
  | succ n ih =>
    rw [storeWords, foldSpan, ← storeWords]
    by_cases h : w = lo
    · subst h
      rw [storeWords_outside _ _ _ _ _ (by omega), getMem_write, if_pos (by omega), Nat.add_sub_cancel_left]
    · exact ih _ _ (by omega) (by omega)

theorem storeWords_memOnly (s : State) (pa : Nat) (f : Nat → Nat) (lo n : Nat) : MemOnly s (storeWords s pa f lo n) :=
  foldSpan_keeps (P := MemOnly s) (fun _ _ h => h.trans (write_memOnly ..)) (.refl s) lo n

/-! ## A command leaves the queue -/

/-- A command is done: it leaves its queue, its holds go, and who waits for it goes on. -/
def commandStopped (s : State) (press : Nat) (e : PressEntry) : State :=
  releaseKey ((s.modPress press fun p => { p with queue := p.queue.filter fun x => !(x.id = e.id && !x.op.isPact) }).dropHolds
    e.id fun _ => true) .press e.id

section Stopped
variable (s : State) (press : Nat) (e : PressEntry)

theorem commandStopped_press : (commandStopped s press e).press press =
    { s.press press with queue := (s.press press).queue.filter fun x => !(x.id = e.id && !x.op.isPact) } := by
  rw [commandStopped, releaseKey_press, dropHolds_press, press_modPress_same]

theorem commandStopped_slots : ((commandStopped s press e).press press).slots = (s.press press).slots := by rw [commandStopped_press]

theorem commandStopped_slotWord (slot w : Nat) :
    slotWord ((commandStopped s press e).press press) slot w = slotWord (s.press press) slot w := by
  rw [slotWord, commandStopped_slots, slotWord]

/-- What is left with the command's number is the pact that it delivers again. -/
theorem commandStopped_left {x : PressEntry} (hx : x ∈ ((commandStopped s press e).press press).queue) (hid : x.id = e.id) :
    x.op.isPact = true := by
  rw [commandStopped_press] at hx
  simpa [hid] using (List.mem_filter.mp hx).2

end Stopped

/-! ## What each command does -/

/-- A command executes: it has begun, and nothing that it uses is fenced or halted. -/
structure Executing (s : State) (press i : Nat) (e : PressEntry) : Prop where
  place : (s.press press).queue[i]? = some e
  state : e.state = .stream
  free : pressHeld s press e = false

section Commands
variable {press i : Nat} {s : State} {e : PressEntry} (h : Executing s press i e)
include h

/-- A command that executes, and whose image is at hand if it has one, is due. -/
theorem Executing.due (hop : e.op.isPact = false) (himage : e.op = .plds ∨ e.op = .psts → s.retained (e.core press true) 3 = false) :
    ¬(e.op.isPact || decide (e.state ≠ .stream) || pressHeld s press e ||
      ((decide (e.op = .plds) || decide (e.op = .psts)) && s.retained (e.core press true) 3)) = true := by
  have hret : ((decide (e.op = .plds) || decide (e.op = .psts)) && s.retained (e.core press true) 3) = false := by
    by_cases hi : e.op = .plds ∨ e.op = .psts
    · rw [himage hi, Bool.and_false]
    · simp only [not_or] at hi
      simp [hi.1, hi.2]
  simp [hop, h.state, h.free, hret]

theorem slotCommandDone_pclr (hop : e.op = .pclr) : slotCommandDone press i s =
    some (commandStopped (s.modPress press fun p => fillSlot p e.slot (fun _ => 0) 0 (imageBytes e.f64 / 4)) press e) := by
  have hdue := h.due (by rw [hop]; rfl) (by rw [hop]; nofun)
  simp only [slotCommandDone, h.place, if_neg hdue]
  simp only [hop]
  rfl

theorem slotCommandDone_pscl (hop : e.op = .pscl) : slotCommandDone press i s =
    some (commandStopped ((s.modPress press fun _ => (scaleSlot (s.press press) e.slot e.f64 e.opA).1).modRef e.lead fun t =>
      t.raise (scaleSlot (s.press press) e.slot e.f64 e.opA).2) press e) := by
  have hdue := h.due (by rw [hop]; rfl) (by rw [hop]; nofun)
  simp only [slotCommandDone, h.place, if_neg hdue]
  simp only [hop]
  rfl

theorem slotCommandDone_prdt {u : State} (hop : e.op = .prdt)
    (hu : giveAwaited s e.lead e.opB.toNat (vget (s.press press).pt e.pt 0) = some u) :
    slotCommandDone press i s = some (commandStopped u press e) := by
  have hdue := h.due (by rw [hop]; rfl) (by rw [hop]; nofun)
  simp only [slotCommandDone, h.place, if_neg hdue]
  simp only [hop, hu]
  rfl

theorem slotCommandDone_pwrt (hop : e.op = .pwrt) : slotCommandDone press i s =
    some (commandStopped (s.modPress press fun p => { p with pt := p.pt.setIfInBounds e.pt e.opA }) press e) := by
  have hdue := h.due (by rw [hop]; rfl) (by rw [hop]; nofun)
  simp only [slotCommandDone, h.place, if_neg hdue]
  simp only [hop]
  rfl

variable (hret : s.retained (e.core press true) 3 = false)
include hret

theorem slotCommandDone_plds (hop : e.op = .plds)
    (hp : s.poisoned 0 (spmPA (e.core press true) (e.opA.toNat % 262144)) (4 * (imageBytes e.f64 / 4)) = false) :
    slotCommandDone press i s = some (commandStopped (s.modPress press fun p =>
      fillSlot p e.slot (fun w => s.read 0 (spmPA (e.core press true) (e.opA.toNat % 262144) + 4 * w) 4) 0 (imageBytes e.f64 / 4))
        press e) := by
  have hdue := h.due (by rw [hop]; rfl) fun _ => hret
  simp only [slotCommandDone, h.place, if_neg hdue]
  simp only [hop, hp, if_neg Bool.false_ne_true]
  rfl

/-- An image that cannot be read is told of, and its command is gone. -/
theorem slotCommandDone_unreadable (hop : e.op = .plds)
    (hp : s.poisoned 0 (spmPA (e.core press true) (e.opA.toNat % 262144)) (4 * (imageBytes e.f64 / 4)) = true)
    (hck : s.ckpts (s.ctxOf e.lead.crew) = false) :
    slotCommandDone press i s = some (commandStopped (trapRef s e.lead UNCORR e.opA 0) press e) := by
  have hdue := h.due (by rw [hop]; rfl) fun _ => hret
  simp only [slotCommandDone, h.place, if_neg hdue]
  simp only [hop, hp, hck, if_true, if_neg Bool.false_ne_true]
  rfl

theorem slotCommandDone_psts (hop : e.op = .psts) : slotCommandDone press i s =
    some (commandStopped (storeWords s (spmPA (e.core press true) (e.opA.toNat % 262144)) (slotWord (s.press press) e.slot) 0
      (imageBytes e.f64 / 4)) press e) := by
  have hdue := h.due (by rw [hop]; rfl) fun _ => hret
  simp only [slotCommandDone, h.place, if_neg hdue]
  simp only [hop]
  rfl

end Commands

/-! ## The statement -/

/-- Settles O59: each event takes the branch that its hypotheses choose, and a command's effect is read off the words that it writes. -/
theorem pressesTellAndFinish : Obligations.PressesTellAndFinish := by
  unfold Obligations.PressesTellAndFinish
  refine ⟨fun press k i own scale addr s u e y l hl ha hreach hr hf => event_some (operandFault_active hl ha hreach hr hf),
    fun press i own scale addr s e r l hn hl hre hg hr hf => event_some (operandFault_reissue hn hl hre hg hr hf),
    fun press i s u v e hplace hop hst hland hd hhalt => ?tile,
    fun press i s u v e x hplace hop hst hland hd hhalt hc hf hg hv => ?gradient,
    fun s press e => ?finished, fun press i landed addr s e hplace hop hst hland hhalt => ?faults, fun s press e other addr => ?dfault,
    fun press i s e hplace hst hfree => ?commands⟩
  case tile =>
    intro w n x hu hv
    have hdel : Delivering s press i e := ⟨hplace, hst, hland, hhalt⟩
    exact event_some (pactDeliveryDone_tile hdel hop hd hu hv)
  case gradient =>
    have hdel : Delivering s press i e := ⟨hplace, hst, hland, hhalt⟩
    exact event_some (pactDeliveryDone_gradient hdel hop hd hc hf hg hv)
  case finished =>
    have hend := finishPact_retired s press e
    exact ⟨hend.gone, fun _ hh => finishPact_holds hh, hend.kept⟩
  case faults =>
    have hdel : Delivering s press i e := ⟨hplace, hst, hland, hhalt⟩
    refine ⟨fun a hd => event_some (deliveryFault_doomed hdel hop hd), fun u x t hpdgr hd => ?_, fun u v t hno hd => ?_⟩
    · intro levels hg hgran hnext hfail ht
      exact event_some (deliveryFault_gradient hdel hpdgr hd hg hgran hnext hfail ht)
    · intro rd w gs n x hat hfail hu hv c ht
      exact event_some (deliveryFault_tile hdel hop hno hd rfl rfl hat hfail hu hv ht)
  case dfault =>
    have hend := enterDfault_retired s press e other addr
    exact ⟨hend.gone, fun _ hh => enterDfault_holds hh, fun hprof => enterDfault_mem hprof press other addr, hend.kept⟩
  case commands =>
    intro core words pa
    have hexec : Executing s press i e := ⟨hplace, hst, hfree⟩
    refine ⟨fun hop => ?pclr, fun hop => ?pscl, fun hop hret hp => ?plds, fun hop hret => ?psts, fun hop hret hp hck => ?unreadable,
      fun u hop hu => ?prdt, fun hop => ?pwrt⟩
    case pclr =>
      refine ⟨_, event_some (slotCommandDone_pclr hexec hop), fun w hw => ?_, rfl⟩
      rw [commandStopped_slotWord, press_modPress_same, fillSlot_word, if_pos ⟨Nat.zero_le w, by omega⟩, Nat.zero_mod]
    case pscl =>
      refine ⟨_, event_some (slotCommandDone_pscl hexec hop), ?_, modRef_mem ..⟩
      rw [commandStopped_slots, modRef_press, press_modPress_same]
    case plds =>
      refine ⟨_, event_some (slotCommandDone_plds hexec hret hop hp), fun w hw => ?_, rfl⟩
      rw [commandStopped_slotWord, press_modPress_same, fillSlot_word, if_pos ⟨Nat.zero_le w, by omega⟩]
      exact Nat.mod_eq_of_lt (read_lt ..)
    case psts =>
      refine ⟨_, event_some (slotCommandDone_psts hexec hret hop), fun a ha => ?_, ?_, fun w k hw hk => ?_⟩
      · exact storeWords_outside s pa (slotWord (s.press press) e.slot) 0 words (by omega)
      · obtain ⟨_, hm⟩ := storeWords_memOnly s pa (slotWord (s.press press) e.slot) 0 words
        rw [commandStopped_slots, hm]
        rfl
      · exact storeWords_inside _ _ _ _ _ (Nat.zero_le w) (by omega) hk
    case unreadable =>
      exact ⟨_, event_some (slotCommandDone_unreadable hexec hret hop hp hck), fun _ hx hid => commandStopped_left _ _ _ hx hid⟩
    case prdt =>
      exact ⟨_, event_some (slotCommandDone_prdt hexec hop hu), rfl, fun _ hx hid => commandStopped_left _ _ _ hx hid⟩
    case pwrt =>
      refine ⟨_, event_some (slotCommandDone_pwrt hexec hop), ?_, rfl⟩
      rw [commandStopped_press, press_modPress_same]

end Sys2Proof.Machine
end

