-- ==== Sys2Proof/Proofs/Encoding.lean ====
section
/-! SUPPORT. Words and instructions (R291 to R304), and the X bit of a slot (R289, R303): O39, O40 and O41. -/

namespace Sys2Proof.Machine

open Sys2Proof.Laws

/-! ## The round trip of an instruction through its words (R291 to R304) -/

/-- Every row of Tables 13.9 to 13.16 has the lemma of its own; what no slot encodes has no words. -/
theorem roundTrip (i : Instr) : RoundTrip.Statement i := by
  cases i with
  -- Table 13.9: integer and predicate
  | nop h => exact RoundTrip.nop h
  | add h d a b => exact RoundTrip.add h d a b
  | sub h d a b => exact RoundTrip.sub h d a b
  | mul h d a b => exact RoundTrip.mul h d a b
  | mulh h d a b => exact RoundTrip.mulh h d a b
  | mulhu h d a b => exact RoundTrip.mulhu h d a b
  | div h d a b => exact RoundTrip.div h d a b
  | divu h d a b => exact RoundTrip.divu h d a b
  | rem h d a b => exact RoundTrip.rem h d a b
  | remu h d a b => exact RoundTrip.remu h d a b
  | and h d a b => exact RoundTrip.and h d a b
  | or h d a b => exact RoundTrip.or h d a b
  | xor h d a b => exact RoundTrip.xor h d a b
  | andn h d a b => exact RoundTrip.andn h d a b
  | shl h d a b => exact RoundTrip.shl h d a b
  | shr h d a b => exact RoundTrip.shr h d a b
  | sar h d a b => exact RoundTrip.sar h d a b
  | rotr h d a b => exact RoundTrip.rotr h d a b
  | clz h d a => exact RoundTrip.clz h d a
  | ctz h d a => exact RoundTrip.ctz h d a
  | popc h d a => exact RoundTrip.popc h d a
  | min h d a b => exact RoundTrip.min h d a b
  | max h d a b => exact RoundTrip.max h d a b
  | minu h d a b => exact RoundTrip.minu h d a b
  | maxu h d a b => exact RoundTrip.maxu h d a b
  | mov h d a => exact RoundTrip.mov h d a
  | bswap h d a => exact RoundTrip.bswap h d a
  | addi h d a imm => exact RoundTrip.addi h d a imm
  | muli h d a imm => exact RoundTrip.muli h d a imm
  | andi h d a imm => exact RoundTrip.andi h d a imm
  | ori h d a imm => exact RoundTrip.ori h d a imm
  | xori h d a imm => exact RoundTrip.xori h d a imm
  | shli h d a n => exact RoundTrip.shli h d a n
  | shri h d a n => exact RoundTrip.shri h d a n
  | sari h d a n => exact RoundTrip.sari h d a n
  | movi h d imm => exact RoundTrip.movi h d imm
  | movhi h d a imm => exact RoundTrip.movhi h d a imm
  | extr h d a pos len sx => exact RoundTrip.extr h d a pos len sx
  | insr h d a b pos len => exact RoundTrip.insr h d a b pos len
  | sel h d a b p => exact RoundTrip.sel h d a b p
  | lea h d a b sc imm => exact RoundTrip.lea h d a b sc imm
  | cmp h pd a b cond => exact RoundTrip.cmp h pd a b cond
  | cmpi h pd a cond imm => exact RoundTrip.cmpi h pd a cond imm
  | plog h pd pa pb tab => exact RoundTrip.plog h pd pa pb tab
  | pget h d => exact RoundTrip.pget h d
  | pset h a => exact RoundTrip.pset h a
  | nchild h d a b => exact RoundTrip.nchild h d a b
  | nparent h d a => exact RoundTrip.nparent h d a
  | nlevel h d a => exact RoundTrip.nlevel h d a
  | nlvlbase h d a => exact RoundTrip.nlvlbase h d a
  | nleaf h d a b => exact RoundTrip.nleaf h d a b
  -- Table 13.10: scalar floating point
  | fadd h d a b ty rm => exact RoundTrip.fadd h d a b ty rm
  | fsub h d a b ty rm => exact RoundTrip.fsub h d a b ty rm
  | fmul h d a b ty rm => exact RoundTrip.fmul h d a b ty rm
  | ffma h d a b c ty rm => exact RoundTrip.ffma h d a b c ty rm
  | fdiv h d a b ty rm => exact RoundTrip.fdiv h d a b ty rm
  | fsqrt h d a ty rm => exact RoundTrip.fsqrt h d a ty rm
  | fmin h d a b ty => exact RoundTrip.fmin h d a b ty
  | fmax h d a b ty => exact RoundTrip.fmax h d a b ty
  | fcmp h pd a b ty cond => exact RoundTrip.fcmp h pd a b ty cond
  | fcvt h d a st dt rm => exact RoundTrip.fcvt h d a st dt rm
  | fclass h d a ty => exact RoundTrip.fclass h d a ty
  | fsgn h d a b ty => exact RoundTrip.fsgn h d a b ty
  | fsgnn h d a b ty => exact RoundTrip.fsgnn h d a b ty
  | fsgnx h d a b ty => exact RoundTrip.fsgnx h d a b ty
  | fmovi h d ty imm => exact RoundTrip.fmovi h d ty imm
  -- Table 13.11: control
  | br h tgt => exact RoundTrip.br h tgt
  | brl h d tgt => exact RoundTrip.brl h d tgt
  | jmp h a => exact RoundTrip.jmp h a
  | jmpl h d a => exact RoundTrip.jmpl h d a
  | loop h d tgt => exact RoundTrip.loop h d tgt
  | wfw h => exact RoundTrip.wfw h
  | yield h => exact RoundTrip.yield h
  | exit h => exact RoundTrip.exit h
  -- Table 13.12: memory
  | ld h d a b sz sx sc imm => exact RoundTrip.ld h d a b sz sx sc imm
  | st h d a b sz sc imm => exact RoundTrip.st h d a b sz sc imm
  | ldx h d a b sc imm => exact RoundTrip.ldx h d a b sc imm
  | stx h d a b sc imm => exact RoundTrip.stx h d a b sc imm
  | ldv h vd a b sz mk sc imm => exact RoundTrip.ldv h vd a b sz mk sc imm
  | stv h vd a b sz mk sc imm => exact RoundTrip.stv h vd a b sz mk sc imm
  | gath h vd a vb sz sx mk sc imm => exact RoundTrip.gath h vd a vb sz sx mk sc imm
  | scat h vd a vb sz mk sc imm => exact RoundTrip.scat h vd a vb sz mk sc imm
  | aadd h d a b sz sx imm => exact RoundTrip.aadd h d a b sz sx imm
  | aand h d a b sz sx imm => exact RoundTrip.aand h d a b sz sx imm
  | aor h d a b sz sx imm => exact RoundTrip.aor h d a b sz sx imm
  | axor h d a b sz sx imm => exact RoundTrip.axor h d a b sz sx imm
  | amin h d a b sz sx imm => exact RoundTrip.amin h d a b sz sx imm
  | amax h d a b sz sx imm => exact RoundTrip.amax h d a b sz sx imm
  | axch h d a b sz sx imm => exact RoundTrip.axch h d a b sz sx imm
  | acas h d a b c sz sx imm => exact RoundTrip.acas h d a b c sz sx imm
  | afadd h d a b sz rm imm => exact RoundTrip.afadd h d a b sz rm imm
  | ldw h d a b sz sx sc imm => exact RoundTrip.ldw h d a b sz sx sc imm
  | ldvw h vd a b sz mk sc imm => exact RoundTrip.ldvw h vd a b sz mk sc imm
  -- Table 13.13: registers, streams, queues and synchronisation
  | sbind h d blk => exact RoundTrip.sbind h d blk
  | sdrain h a => exact RoundTrip.sdrain h a
  | sstat h d a => exact RoundTrip.sstat h d a
  | qbind h d a imm => exact RoundTrip.qbind h d a imm
  | qstat h d a => exact RoundTrip.qstat h d a
  | empty h d => exact RoundTrip.empty h d
  | isfull h pd a => exact RoundTrip.isfull h pd a
  | putr h a b rg => exact RoundTrip.putr h a b rg
  | migr h a => exact RoundTrip.migr h a
  | tmodeLight h => exact RoundTrip.tmodeLight h
  | tmodeHeavy h => exact RoundTrip.tmodeHeavy h
  | bar h n => exact RoundTrip.bar h n
  | bara h n => exact RoundTrip.bara h n
  | barw h n => exact RoundTrip.barw h n
  | sev h a e => exact RoundTrip.sev h a e
  | wev h e => exact RoundTrip.wev h e
  | bfree h e => exact RoundTrip.bfree h e
  | dqpush h d a b imm => exact RoundTrip.dqpush h d a b imm
  | dqpop h d a b imm => exact RoundTrip.dqpop h d a b imm
  | dqspl h d a b imm => exact RoundTrip.dqspl h d a b imm
  | dqstl h d a b imm => exact RoundTrip.dqstl h d a b imm
  | item h a => exact RoundTrip.item h a
  | itemEos h a => exact RoundTrip.itemEos h a
  -- Table 13.14: vector and mask
  | vadd h vd va vb ty mk rnd => exact RoundTrip.vadd h vd va vb ty mk rnd
  | vsub h vd va vb ty mk rnd => exact RoundTrip.vsub h vd va vb ty mk rnd
  | vmul h vd va vb ty mk rnd => exact RoundTrip.vmul h vd va vb ty mk rnd
  | vdiv h vd va vb ty mk rnd => exact RoundTrip.vdiv h vd va vb ty mk rnd
  | vfma h vd va vb vc ty mk rnd => exact RoundTrip.vfma h vd va vb vc ty mk rnd
  | vfnma h vd va vb vc ty mk rnd => exact RoundTrip.vfnma h vd va vb vc ty mk rnd
  | vmin h vd va vb ty mk => exact RoundTrip.vmin h vd va vb ty mk
  | vmax h vd va vb ty mk => exact RoundTrip.vmax h vd va vb ty mk
  | vabs h vd va ty mk => exact RoundTrip.vabs h vd va ty mk
  | vneg h vd va ty mk => exact RoundTrip.vneg h vd va ty mk
  | vand h vd va vb ty mk => exact RoundTrip.vand h vd va vb ty mk
  | vor h vd va vb ty mk => exact RoundTrip.vor h vd va vb ty mk
  | vxor h vd va vb ty mk => exact RoundTrip.vxor h vd va vb ty mk
  | vshl h vd va vb ty mk => exact RoundTrip.vshl h vd va vb ty mk
  | vshr h vd va vb ty mk => exact RoundTrip.vshr h vd va vb ty mk
  | vsar h vd va vb ty mk => exact RoundTrip.vsar h vd va vb ty mk
  | vsqrt h vd va ty mk rnd => exact RoundTrip.vsqrt h vd va ty mk rnd
  | vrsq h vd va ty mk rnd => exact RoundTrip.vrsq h vd va ty mk rnd
  | vrcp h vd va ty mk rnd => exact RoundTrip.vrcp h vd va ty mk rnd
  | vexp2 h vd va ty mk rnd => exact RoundTrip.vexp2 h vd va ty mk rnd
  | vlog2 h vd va ty mk rnd => exact RoundTrip.vlog2 h vd va ty mk rnd
  | vcmp h md va vb ty mk cond => exact RoundTrip.vcmp h md va vb ty mk cond
  | vcvt h vd va st ty mk rnd => exact RoundTrip.vcvt h vd va st ty mk rnd
  | vdot h vd va vb vc ty mk rnd => exact RoundTrip.vdot h vd va vb vc ty mk rnd
  | vmov h vd va ty mk => exact RoundTrip.vmov h vd va ty mk
  | vsel h vd va vb ty mk => exact RoundTrip.vsel h vd va vb ty mk
  | vbcast h vd a ty mk => exact RoundTrip.vbcast h vd a ty mk
  | vfill h vd ty mk imm => exact RoundTrip.vfill h vd ty mk imm
  | vext h d va lane ty => exact RoundTrip.vext h d va lane ty
  | vins h vd a lane ty => exact RoundTrip.vins h vd a lane ty
  | viota h vd ty mk => exact RoundTrip.viota h vd ty mk
  | vcmprs h vd va ty mk => exact RoundTrip.vcmprs h vd va ty mk
  | vexpnd h vd va ty mk => exact RoundTrip.vexpnd h vd va ty mk
  | vshuf h vd va vb ty mk => exact RoundTrip.vshuf h vd va vb ty mk
  | vlut h vd va vb ty mk => exact RoundTrip.vlut h vd va vb ty mk
  | vred h d va fn ty mk rnd => exact RoundTrip.vred h d va fn ty mk rnd
  | vscan h vd va fn ty mk rnd => exact RoundTrip.vscan h vd va fn ty mk rnd
  | vsort h vd va vb vc desc ty mk => exact RoundTrip.vsort h vd va vb vc desc ty mk
  | vmerge h vd va vb vc desc ty mk => exact RoundTrip.vmerge h vd va vb vc desc ty mk
  | vpackq h vd va vb bq4 mk => exact RoundTrip.vpackq h vd va vb bq4 mk
  | vunpkq h vd va bq4 hi mk => exact RoundTrip.vunpkq h vd va bq4 hi mk
  | mlog h md ma mb tab => exact RoundTrip.mlog h md ma mb tab
  | mpopc h d ma => exact RoundTrip.mpopc h d ma
  | mget h d ma => exact RoundTrip.mget h d ma
  | mset h md a => exact RoundTrip.mset h md a
  -- Table 13.15: press, copy and transaction barriers
  | pmm h port tag blk => exact RoundTrip.pmm h port tag blk
  | pdsc h port tag blk => exact RoundTrip.pdsc h port tag blk
  | pdgr h port tag blk => exact RoundTrip.pdgr h port tag blk
  | pwait h port tag => exact RoundTrip.pwait h port tag
  | pqry h d port tag => exact RoundTrip.pqry h d port tag
  | pclr h port slot f64 => exact RoundTrip.pclr h port slot f64
  | pscl h a port slot f64 => exact RoundTrip.pscl h a port slot f64
  | plds h a port slot f64 => exact RoundTrip.plds h a port slot f64
  | psts h a port slot f64 => exact RoundTrip.psts h a port slot f64
  | prdl h a b port tag => exact RoundTrip.prdl h a b port tag
  | pabt h port tag => exact RoundTrip.pabt h port tag
  | prdt h d port pt => exact RoundTrip.prdt h d port pt
  | pwrt h a port pt => exact RoundTrip.pwrt h a port pt
  | pord h => exact RoundTrip.pord h
  | cpy h blk => exact RoundTrip.cpy h blk
  | remoteAtomicAdd h blk => exact RoundTrip.remoteAtomicAdd h blk
  | cpym h k blk => exact RoundTrip.cpym h k blk
  | gathr h blk => exact RoundTrip.gathr h blk
  | cpyst h d a => exact RoundTrip.cpyst h d a
  | tbinit h a b => exact RoundTrip.tbinit h a b
  | tbarv h a => exact RoundTrip.tbarv h a
  | tbarx h a b => exact RoundTrip.tbarx h a b
  | tbexp h a b => exact RoundTrip.tbexp h a b
  | tbwait h a b => exact RoundTrip.tbwait h a b
  | tbtry h pd a b => exact RoundTrip.tbtry h pd a b
  -- Table 13.16: system
  | csrr h d n => exact RoundTrip.csrr h d n
  | csrw h a n => exact RoundTrip.csrw h a n
  | csrscSet h d a n => exact RoundTrip.csrscSet h d a n
  | csrscClr h d a n => exact RoundTrip.csrscClr h d a n
  | trap h n => exact RoundTrip.trap h n
  | sysc h n => exact RoundTrip.sysc h n
  | rft h => exact RoundTrip.rft h
  | nret h => exact RoundTrip.nret h
  | feat h d n => exact RoundTrip.feat h d n
  | tlbi h a => exact RoundTrip.tlbi h a
  | tlbiOne h a b => exact RoundTrip.tlbiOne h a b
  | trc h a tag => exact RoundTrip.trc h a tag
  | lutld h a => exact RoundTrip.lutld h a
  | ctxsw h a b => exact RoundTrip.ctxsw h a b
  | ckpt h => exact RoundTrip.ckpt h
  | halt h => exact RoundTrip.halt h
  | fenceo h => exact RoundTrip.fenceo h
  -- ILL, and the steps of other agents
  | _ => exact RoundTrip.of_none rfl

/-- Settles O40, by the round trip of each row. -/
theorem encodeDecode : Obligations.EncodeDecode := by
  unfold Obligations.EncodeDecode
  exact roundTrip

/-! ## Words of table rows -/

/-- A word that holds the slot and the block of a well-formed instruction decodes to it. -/
theorem decodeTableWord_of_encode {i : Instr} {n w : Nat}
    (he : encode i = some (BitVec.ofNat 96 (w % 2 ^ n), BitVec.ofNat 384 (w % 2 ^ n / 2 ^ 96))) (hw : i.WellFormed) :
    decodeTableWord n w = some i := by
  have hd : decode (BitVec.ofNat 96 (w % 2 ^ n)) (BitVec.ofNat 384 (w % 2 ^ n / 2 ^ 96)) = .ok i := encodeDecode i _ _ he hw
  simp only [decodeTableWord, hd]

/-- A word whose slot holds no instruction decodes to none. -/
theorem decodeTableWord_of_error {n w r : Nat}
    (hd : decode (BitVec.ofNat 96 (w % 2 ^ n)) (BitVec.ofNat 384 (w % 2 ^ n / 2 ^ 96)) = .error r) : decodeTableWord n w = none := by
  simp only [decodeTableWord, hd]

/-- Settles O39: the words are those that `encode` gives; of the last two, one has an unassigned opcode (reason 0) and one a D field
that NOP leaves unused (reason 1). -/
theorem decodeWords : Obligations.DecodeWords := by
  unfold Obligations.DecodeWords
  refine ⟨?_, ?_, ?_, ?_, ?_, ?_, ?_, ?_, ?_, ?_, ?_, ?_, ?_, ?_, ?_, ?_, ?_, ?unassigned, ?unused⟩
  case unassigned => exact decodeTableWord_of_error (r := 0) rfl
  case unused => exact decodeTableWord_of_error (r := 1) rfl
  all_goals exact decodeTableWord_of_encode (by decide +kernel) rfl

/-! ## The X bit (R289, R303) -/

theorem takesBlock_iff (op : BitVec 8) : takesBlock op = true ↔
    op = 0xC0 ∨ op = 0xC1 ∨ op = 0xC2 ∨ op = 0xD0 ∨ op = 0xD1 ∨ op = 0xD2 ∨ op = 0x70 := by
  simp only [takesBlock, Bool.or_eq_true, beq_iff_eq]
  tauto

theorem xBitOk_iff (l : LineImg) (k : Nat) : xBitOk l k = true ↔
    ((Fields.unpack (lineSlot l k)).x = true ↔ k = 0 ∧ linePL l = true) ∧
      ((Fields.unpack (lineSlot l k)).x = true ↔ takesBlock (Fields.unpack (lineSlot l k)).op = true) := by
  simp only [xBitOk, Bool.and_eq_true, beq_iff_eq]
  have hplace : (linePL l && k == 0) = true ↔ k = 0 ∧ linePL l = true := by rw [Bool.and_eq_true, beq_iff_eq, and_comm]
  exact and_congr (Bool.eq_iff_iff.trans (iff_congr .rfl hplace)) Bool.eq_iff_iff

theorem memberOf_of_xBit {l : LineImg} {k : Nat} (h : xBitOk l k = false) (a : Word) : memberOf l a k = .error 5 := by
  simp only [memberOf, h, Bool.not_false, if_true]

/-- Settles O41. -/
theorem parameterBlocks : Obligations.ParameterBlocks := by
  unfold Obligations.ParameterBlocks
  intro l a k f takes
  refine ⟨?_, fun h => memberOf_of_xBit h a⟩
  rw [xBitOk_iff, takesBlock_iff]
  show (f.x = true ↔ k = 0 ∧ linePL l = true) ∧ (f.x = true ↔ takes) ↔ _
  cases f.x with
  | true =>
    simp only [true_iff]
    tauto
  | false =>
    simp only [Bool.false_eq_true, false_iff, true_and]
    tauto

end Sys2Proof.Machine
end

