-- ==== Sys2Proof/Proofs/Branches.lean ====
section
/-! SUPPORT. Branches and jumps, and the check of an entry (R286, R287, R294, R345 to R348, R446): O11. -/

namespace Sys2Proof.Machine

/-! ## A taken branch (R286, R287) -/

/-- An instruction whose effect is `branchTo` branches. -/
theorem branches_of_eff {i : Instr} {b : Body} {s s1 : State} {o : Ops} {target : Word} {f : State → State} (hi : Issues i s o s1)
    (hb : bodyOf i = some b) (he : b.eff o s1 = branchTo s1 target f) : Branches i o s s1 target f := by
  rw [branchTo] at he
  rw [Branches]
  rcases henter : enterLine s1 s1.curCore s1.myCtx s1.me.user true target with ⟨s2, img | ⟨c, a, x⟩ | _⟩
  all_goals rw [henter] at he
  · exact exec_jump hi hb he
  · by_cases hc : c = BADTGT
    · simp only [if_pos hc] at he ⊢
      exact exec_trap hi hb he
    · simp only [if_neg hc] at he ⊢
      exact exec_jump hi hb he
  · exact exec_wait hi hb he

/-! ## Where a format-B branch goes (R294) -/

theorem sext_toNat {n : Nat} (x : BitVec n) (h0 : 0 < n) (hn : n ≤ 64) : sext x.toNat n = BitVec.ofInt 64 x.toInt := by
  rw [sext_eq _ _ h0 hn x.isLt, BitVec.toInt_eq_toNat_cond]
  have hpow : 2 ^ (n - 1) * 2 = 2 ^ n := Nat.two_pow_pred_mul_two h0
  have hsmall : x.toNat < 2 ^ (n - 1) ↔ 2 * x.toNat < 2 ^ n := by omega
  simp only [hsmall]
  push_cast
  rfl

theorem fld_eq_extractLsb' {w : Nat} (v : BitVec w) (lo n : Nat) : fld v lo n = (v.extractLsb' lo n).toNat := by
  simp [fld, bits]

/-- The line offset counts lines of 64 bytes. -/
theorem ofInt_shiftLeft_six (z : Int) : BitVec.ofInt 64 z <<< 6 = BitVec.ofInt 64 (64 * z) := by
  rw [BitVec.ofInt_mul, BitVec.shiftLeft_eq_mul_twoPow, BitVec.mul_comm]
  rfl

theorem brTarget_eq (pc : Word) (tgt : BitVec 48) : brTarget pc tgt =
    (pc &&& 0xFFFFFFFFFFFFFFC0#64) + BitVec.ofInt 64 (64 * (tgt.extractLsb' 3 45).toInt) + (tgt.extractLsb' 0 3).setWidth 64 := by
  have hslot : word (fld tgt 0 3) = (tgt.extractLsb' 0 3).setWidth 64 := by
    rw [fld_eq_extractLsb', word, BitVec.ofNat_toNat]
  have hline : sext (fld tgt 3 45) 45 <<< 6 = BitVec.ofInt 64 (64 * (tgt.extractLsb' 3 45).toInt) := by
    rw [fld_eq_extractLsb', sext_toNat _ (by decide) (by decide), ofInt_shiftLeft_six]
  rw [brTarget, hslot, hline, lineOf]

/-! ## LOOP (R348) -/

/-- A counter that does not come to 0 is decremented and the branch is taken; at 1 it comes to 0 and the thread goes on. -/
theorem loop_follows {h : Hdr} {d : BitVec 5} {tgt : BitVec 48} {s s1 : State} {o : Ops} (hi : Issues (.loop h d tgt) s o s1) :
    (o.d ≠ 1 → Branches (.loop h d tgt) o s s1 (brTarget s1.me.pc tgt) fun s2 => giveG s2 (some 1) d (o.d - 1) 0) ∧
    (o.d = 1 → exec (.loop h d tgt) s = .next (after (.loop h d tgt) s (giveG s1 (some 1) d 0 0))) := by
  have hzero : o.d - 1 = 0 ↔ o.d = 1 := sub_eq_zero
  refine ⟨fun hne => branches_of_eff hi rfl (if_pos (hzero.not.mpr hne)), fun hone => exec_done hi rfl ?_⟩
  have hlast : o.d - 1 = 0 := hzero.mpr hone
  exact (if_neg (not_not_intro hlast)).trans (by rw [hlast])

/-! ## The check of an entry (R285, R286) -/

/-- An entry that succeeds has fetched the line, and passed the parity of the line word and the tests of the target. -/
theorem enterLine_ok {s s2 : State} {core ctx : Nat} {user checked : Bool} {pc : Word} {img : LineImg}
    (h : enterLine s core ctx user checked pc = (s2, .ok img)) :
    wordParityOk img = true ∧ tgtForm pc = none ∧ tgtBit img checked pc = none := by
  rcases hfetch : fetchLine s core ctx user (lineOf pc) with ⟨u, img' | ⟨c, a, x⟩ | _⟩
  all_goals rw [enterLine, hfetch] at h
  case ok =>
    dsimp only at h
    split at h
    · cases h
    next hparity =>
    split at h
    · cases h
    split at h
    · cases h
    · cases h
    next hform hbit =>
    cases h
    exact ⟨by simpa using hparity, hform, hbit⟩
  all_goals cases h

theorem slotOf_of_tgtForm {pc : Word} (h : tgtForm pc = none) : slotOf pc < 5 := by
  simp [tgtForm] at h
  omega

theorem lineTgt_of_tgtBit {img : LineImg} {pc : Word} (h : tgtBit img true pc = none) : lineTgt img (slotOf pc) = true := by
  unfold tgtBit at h
  split at h
  · cases h
  · simpa using h

/-- Settles O11. -/
theorem branchesGo : Obligations.BranchesGo := by
  unfold Obligations.BranchesGo
  refine ⟨?br, ?brl, ?jmp, ?jmpl, ?loop, ?nret, ?entry⟩
  case br =>
    intro h tgt s s1 o hi
    rw [← brTarget_eq]
    exact branches_of_eff hi rfl rfl
  case brl =>
    intro h d tgt s s1 o hi
    refine branches_of_eff hi rfl ?_
    rw [← show o.nxt = nextPC s.me.pc 1 false from nxt_of_issues hi rfl]
    rfl
  case jmp =>
    intro h a s s1 o hi
    exact branches_of_eff hi rfl rfl
  case jmpl =>
    intro h d a s s1 o hi
    refine branches_of_eff hi rfl ?_
    rw [← show o.nxt = nextPC s.me.pc 1 false from nxt_of_issues hi rfl]
    rfl
  case loop =>
    intro h d tgt s s1 o hi
    exact loop_follows hi
  case nret =>
    intro h s s1 o hi
    exact branches_of_eff hi rfl rfl
  case entry =>
    intro s s2 core ctx user pc img h
    obtain ⟨hparity, hform, hbit⟩ := enterLine_ok h
    exact ⟨slotOf_of_tgtForm hform, lineTgt_of_tgtBit hbit, hparity⟩

end Sys2Proof.Machine
end

