-- ==== Sys2Proof/Proofs/Privilege.lean ====
section
/-! SUPPORT. What steps 3 and 4 of R300 refuse by opcode, by CSR number and by privilege (R142, R145, R301, R305, R442): O32. -/

namespace Sys2Proof.Machine

/-! ## A trap before anything is read -/

/-- The first check of an issue traps at the instruction's own address. -/
theorem exec_of_priv {i : Instr} {b : Body} {s : State} {n cause : Nat} {addr aux : Word} (hb : bodyOf i = some b)
    (hp : b.priv s = some (.trap n cause addr aux none)) :
    exec i s = .next (takeTrap s s.curCore s.curSlot cause addr aux s.me.pc false false) := by
  have hstop : b.accept s = .error (.trap n cause addr aux none) := by simp only [Body.accept, Body.early, hp]
  exact exec_of_accept_error hb hstop

theorem user_of_prv {t : Thread} (h : t.csr.tstat.getLsbD 0 = false) : t.user = true := by
  simp only [Thread.user, bit, h, Bool.not_false]

theorem not_user_of_prv {t : Thread} (h : t.csr.tstat.getLsbD 0 = true) : t.user = false := by
  simp only [Thread.user, bit, h, Bool.not_true]

/-- An S-only opcode traps with PRIV at U (R305). -/
theorem exec_supervisorOnly {i : Instr} {b : Body} {s : State} (hb : bodyOf i = some b) (hp : b.priv = supervisorOnly)
    (hu : s.me.csr.tstat.getLsbD 0 = false) : exec i s = .next (takeTrap s s.curCore s.curSlot 2 0 0 s.me.pc false false) :=
  exec_of_priv hb (by rw [hp]; exact if_pos (user_of_prv hu))

/-! ## CSR numbers (R442, Table 19.1) -/

theorem csrHidden_iff (n : BitVec 12) : csrHidden n = true ↔ n = 0x006 ∨ n = 0x102 ∨ n = 0x104 := by
  simp [csrHidden, or_assoc]

theorem csrSupW_iff (n : BitVec 12) : csrSupW n = true ↔ n = 0x00B ∨ n = 0x00C ∨ n = 0x00D ∨ n = 0x00E ∨ n = 0x100 := by
  simp [csrSupW, or_assoc]

/-- A number that U may not reach stops every access of a U-level thread. -/
theorem csrStop_hidden {n : BitVec 12} {s : State} (hn : csrHidden n = true) (hu : s.me.user = true) (wr : Bool) :
    csrStop n wr s = some (csrPriv n) := by
  have hassigned : csrAssigned n = true := by
    rcases (csrHidden_iff n).mp hn with rfl | rfl | rfl <;> rfl
  simp [csrStop, hassigned, hu, hn]

/-- A number that U may read and not write stops a write of a U-level thread. -/
theorem csrStop_supW {n : BitVec 12} {s : State} (hn : csrSupW n = true) (hu : s.me.user = true) :
    csrStop n true s = some (csrPriv n) := by
  have hclass : csrAssigned n = true ∧ csrHidden n = false ∧ csrConst n = false := by
    rcases (csrSupW_iff n).mp hn with rfl | rfl | rfl | rfl | rfl <;> decide
  obtain ⟨hassigned, hhidden, hconst⟩ := hclass
  simp [csrStop, hassigned, hhidden, hconst, hu, hn]

/-- A number that no level may write stops a write that is not refused for privilege. -/
theorem csrStop_const {n : BitVec 12} {s : State} (hassigned : csrAssigned n = true) (hconst : csrConst n = true)
    (hpriv : s.me.user = false ∨ csrHidden n = false) : csrStop n true s = some (csrIll s) := by
  rcases hpriv with h | h <;> simp [csrStop, hassigned, hconst, h]

/-- CSRW and both forms of CSRSC make the checks of a write. -/
theorem csrWrite_body {i : Instr} {h : Hdr} {d a : BitVec 5} {n : BitVec 12}
    (hi : i = .csrw h a n ∨ i = .csrscSet h d a n ∨ i = .csrscClr h d a n) : ∃ b, bodyOf i = some b ∧ b.priv = csrStop n true := by
  rcases hi with rfl | rfl | rfl <;> exact ⟨_, rfl, rfl⟩

/-- What U may not write (R442). -/
theorem csrStop_user_write {n : BitVec 12} {s : State} (hu : s.me.user = true)
    (hn : n = 0x006 ∨ n = 0x102 ∨ n = 0x104 ∨ n = 0x00B ∨ n = 0x00C ∨ n = 0x00D ∨ n = 0x00E ∨ n = 0x100) :
    csrStop n true s = some (csrPriv n) := by
  have hclass : csrHidden n = true ∨ csrSupW n = true := by
    rw [csrHidden_iff, csrSupW_iff]
    tauto
  rcases hclass with hhidden | hsup
  · exact csrStop_hidden hhidden hu true
  · exact csrStop_supW hsup hu

/-- What no level may write (R442): at U the numbers that it may not reach are refused for privilege first. -/
theorem csrStop_never_write {n : BitVec 12} {s : State}
    (hn : n = 0x00F ∨ n = 0x101 ∨ n = 0x103 ∨ (n = 0x102 ∨ n = 0x104) ∧ s.me.csr.tstat.getLsbD 0 = true) :
    csrStop n true s = some (csrIll s) := by
  rcases hn with rfl | rfl | rfl | ⟨rfl | rfl, hs⟩
  · exact csrStop_const rfl rfl (.inr rfl)
  · exact csrStop_const rfl rfl (.inr rfl)
  · exact csrStop_const rfl rfl (.inr rfl)
  · exact csrStop_const rfl rfl (.inl (not_user_of_prv hs))
  · exact csrStop_const rfl rfl (.inl (not_user_of_prv hs))

/-- Settles O32. -/
theorem illegalAndPrivileged : Obligations.IllegalAndPrivileged := by
  unfold Obligations.IllegalAndPrivileged
  refine ⟨fun s => exec_of_priv (b := bodyIll) rfl rfl, ?supervisor, ?read, ?write⟩
  case supervisor =>
    intro i h a b s hi hu
    rcases hi with rfl | rfl | rfl | rfl <;> exact exec_supervisorOnly rfl rfl hu
  case read =>
    intro h d n s hn hu
    refine exec_of_priv (b := bodyCsrr h d n) (n := 4) rfl ?_
    show orStop (csrStop n false s) (csrLight d s) = _
    rw [csrStop_hidden ((csrHidden_iff n).mpr hn) (user_of_prv hu)]
    rfl
  case write =>
    intro i h d a n s hi
    obtain ⟨b, hb, hp⟩ := csrWrite_body hi
    refine ⟨fun hn hu => exec_of_priv (n := 4) hb ?_, fun hn => exec_of_priv (n := 3) hb ?_⟩
    · rw [hp]
      exact csrStop_user_write (user_of_prv hu) hn
    · rw [hp]
      exact csrStop_never_write hn

end Sys2Proof.Machine
end

