-- ==== Sys2Proof/Proofs/ScalarResults.lean ====
section
/-! SUPPORT. What the instructions that compute a general or a predicate result give (R329 to R344, R367, R371, R379, R401): O2, O3 and O4. -/

namespace Sys2Proof.Machine

/-! ## The integer values that are not the rule's own term (R329 to R332, R337) -/

/-- A choice by the signed order of two words is one by their values (MIN and MAX, R329), and so is one by the unsigned order. -/
theorem ite_sle {α : Type} (a b : Word) (x y : α) : (if a.sle b then x else y) = if a.toInt ≤ b.toInt then x else y :=
  if_congr BitVec.sle_iff_toInt_le rfl rfl

theorem ite_ule {α : Type} (a b : Word) (x y : α) : (if a.ule b then x else y) = if a.toNat ≤ b.toNat then x else y :=
  if_congr BitVec.ule_iff_toNat_le rfl rfl

/-- An integer instruction computes the rule's value and gives it to its destination with the rule's latency. -/
theorem intValue_eff {i : Instr} {o : Ops} {lat : Option Nat} {d : BitVec 5} {v : Word} (h : intValue i o = some (lat, d, v)) :
    ∃ b g, bodyOf i = some b ∧ b.eff = effG lat d g ∧ g o = (v, 0) := by
  cases i
  all_goals cases h
  all_goals refine ⟨_, _, rfl, rfl, Prod.ext ?_ rfl⟩
  case mulh => exact mulHigh_eq _ _
  case div => exact divS_eq _ _
  case divu => exact divU_eq _ _
  case rem => exact remS_eq _ _
  case remu => exact remU_eq _ _
  case clz => exact clz64_eq _
  case ctz => exact ctz64_eq _
  case popc => exact popc_eq _
  case min | max => exact ite_sle _ _ _ _
  case minu | maxu => exact ite_ule _ _ _ _
  case movhi => exact movhi_eq _ _
  case extr => exact extract_eq _ _ _ _
  case insr => exact insert_eq _ _ _ _
  case nchild => exact nodeChild_eq _ _
  case nparent => exact nodeParent_eq _
  all_goals rfl

/-- Settles O2. -/
theorem integerResults : Obligations.IntegerResults := by
  unfold Obligations.IntegerResults
  intro i s s1 o lat d v hv hi
  obtain ⟨b, g, hb, heff, hg⟩ := intValue_eff hv
  exact exec_effG hb hi heff hg

/-! ## Floating point, reductions and extractions (R338 to R344, R367, R371, R379) -/

/-- An instruction whose effect is to give one asynchronous result, marked as floating point or not, gives it, or waits until its
destination takes a word. -/
theorem exec_effFp {i : Instr} {b : Body} {s s1 : State} {o : Ops} {fp : Bool} {d : BitVec 5} {v : Word} {fl : BitVec 5}
    {g : Ops → Word × BitVec 5} (hb : bodyOf i = some b) (hi : Issues i s o s1) (he : b.eff = effFp fp d g) (hv : g o = (v, fl)) :
    (giveWait s1 d = none → exec i s = .next (after i s (giveG s1 none d v fl fp))) ∧
    (∀ why key, giveWait s1 d = some (why, key) → exec i s = .next (afterWait i o s s1 why key)) := by
  refine ⟨fun hfree => exec_done hi hb ?_, fun why key hwait => exec_wait hi hb ?_⟩
  · simp only [he, effFp, hfree, hv]
  · simp only [he, effFp, hwait]

/-- Settles O3. FDIV, FSQRT and VRED give an asynchronous result that may be marked as floating point; the others give theirs unmarked. -/
theorem floatResults : Obligations.FloatResults := by
  unfold Obligations.FloatResults
  intro i s s1 o lat d v fl hv hi
  cases i
  all_goals cases hv
  case fdiv | fsqrt | vred => exact exec_effFp rfl hi rfl rfl
  case mpopc => exact exec_effG rfl hi rfl (congrArg (fun n => (word n, 0)) (popCount_eq _ _))
  all_goals exact exec_effG rfl hi rfl rfl

/-! ## Predicates (R335, R336, R340, R401) -/

/-- The conditions of Table 15.3 (R335): the model's signed and unsigned orders of words are those of their values. -/
theorem icond_eq (c : Nat) (a b : Word) : icond c a b = condition c a b := by
  unfold icond condition
  split <;> rfl

/-- The place of a truth table that two predicates choose (R336). -/
theorem plogIndex_eq (a b : Bool) : 2 * b2n a + b2n b = (if a then 2 else 0) + if b then 1 else 0 := by cases a <;> rfl

/-- An instruction whose effect is to write a predicate writes it. -/
theorem exec_effP {i : Instr} {b : Body} {s s1 : State} {o : Ops} {lat : Nat} {pd : BitVec 4} {v : Bool} {fl : BitVec 5}
    {g : Ops → Bool × BitVec 5} (hb : bodyOf i = some b) (hi : Issues i s o s1) (he : b.eff = effP lat pd g) (hv : g o = (v, fl)) :
    exec i s = .next (after i s (s1.modMe fun t => t.result (some lat) [.p pd v] fl)) :=
  exec_done hi hb (by rw [he, effP, hv])

/-- ISFULL's operand is the full bit before the turn (R401). -/
theorem isfull_reads {h : Hdr} {pd : BitVec 4} {a : BitVec 5} {s s1 : State} {o : Ops} (hi : Issues (.isfull h pd a) s o s1) :
    o.pa = s.me.fullG a.toNat := by
  obtain ⟨r, s', hg, -, rfl⟩ := accept_some (accept_of_issues hi rfl)
  obtain ⟨x, -, rfl⟩ := gather_some hg
  rfl

/-- PSET writes every predicate but p0, which reads 1, from the bits of its operand (R156, R336). -/
theorem getP_pset (t : Thread) (a : Word) {n : Nat} (h : 1 ≤ n) (h16 : n < 16) :
    ({ t with pred := a.setWidth 16 ||| 1 } : Thread).getP n = a.getLsbD n := by
  have hne : n ≠ 0 := by omega
  simp [Thread.getP, bit, hne, h16]

/-- Settles O4. -/
theorem predicateResults : Obligations.PredicateResults := by
  unfold Obligations.PredicateResults
  refine ⟨?computed, ?isfull, ?pset⟩
  case computed =>
    intro i s s1 o lat pd v fl hv hi
    cases i
    all_goals cases hv
    case cmp | cmpi => exact exec_effP rfl hi rfl (congrArg (·, 0) (icond_eq _ _ _))
    case plog tab => exact exec_effP rfl hi rfl (congrArg (fun n => (tab.getLsbD n, 0)) (plogIndex_eq _ _))
    case fcmp => exact exec_effP rfl hi rfl rfl
  case isfull =>
    intro h pd a s s1 o hi
    exact exec_effP rfl hi rfl (congrArg (·, 0) (isfull_reads hi))
  case pset =>
    intro h a s s1 o hi
    refine ⟨_, exec_done hi rfl rfl, ?_⟩
    rw [after_of_body rfl]
    refine ⟨(onlyMine_modMe s1 _).trans (goOn_only _ _ _ _), ?_⟩
    rw [me_goOn, me_modMe]
    exact ⟨fun n h1 h16 => getP_pset s1.me o.a h1 h16, rfl, rfl⟩

end Sys2Proof.Machine
end

