-- ==== Sys2Proof/Proofs/WaitAndExit.lean ====
section
/-! SUPPORT. NOP, YIELD and TMODE to the mode held, WFW, and EXIT (R329, R349 to R351, R404, R407): O12 and O13. -/

namespace Sys2Proof.Machine

/-- Settles O12. -/
theorem noEffect : Obligations.NoEffect := by
  unfold Obligations.NoEffect
  refine ⟨fun _ _ _ _ hi => exec_done hi rfl rfl, fun _ _ _ _ hi => exec_done hi rfl rfl, ?light, ?heavy⟩
  case light =>
    intro h s s1 o hi hmode
    exact exec_done hi rfl (if_pos hmode)
  case heavy =>
    intro h s s1 o hi hmode
    exact exec_done hi rfl (if_neg (ne_true_of_eq_false hmode))

/-! ## EXIT (R351, R407) -/

/-- The effect has put the thread where it is: nothing more is done. -/
theorem exec_gone {i : Instr} {b : Body} {s s1 s2 : State} {o : Ops} (hi : Issues i s o s1) (hb : bodyOf i = some b)
    (he : b.eff o s1 = .gone s2) : exec i s = .next s2 := by
  rw [exec_of_issues hi hb, he]; rfl

/-- The issuing thread leaves its slot, as EXIT makes it. -/
def leaveSlot (s : State) : State :=
  s.setMe { s.me with occ := false, exited := true, park := none, timer := 0, line := none, nq := [] }

theorem me_leaveSlot (s : State) : (leaveSlot s).me =
    { s.me with occ := false, exited := true, park := none, timer := 0, line := none, nq := [] } := me_setMe _ _

/-- The slot is vacant, its thread has exited, and the registers are as they were. -/
theorem leaveSlot_vacates (s : State) :
    (leaveSlot s).me.occ = false ∧ (leaveSlot s).me.exited = true ∧ (leaveSlot s).me.registers = s.me.registers := by
  rw [me_leaveSlot]
  exact ⟨rfl, rfl, rfl⟩

theorem leaveSlot_only (s : State) : OnlyMine s (leaveSlot s) :=
  onlyMine_modMe s fun t => { t with occ := false, exited := true, park := none, timer := 0, line := none, nq := [] }

/-- EXIT waits for a result, the outbound buffer or a pact. -/
theorem exitEff_waits {s : State} (h : s.me.pend ≠ [] ∨ s.me.outBuf.isSome ∨ s.me.pactsOpen s = true) :
    exitEff s = .wait s .exit (exitKey s.me) := by
  rw [exitEff, if_pos]
  simpa [List.isEmpty_eq_false_iff, or_assoc] using h

/-- With nothing outstanding and its streams drained, the thread leaves its slot, and a worker's exit counts at its crew's barriers. -/
theorem exitEff_leaves {s s2 : State} (hpend : s.me.pend = []) (hout : s.me.outBuf = none) (hpacts : s.me.pactsOpen s = false)
    (hdrain : drainAll s [24, 25, 26, 27] = .ok s2) :
    exitEff s = .gone (if (leaveSlot s2).curSlot = 7 then leaveSlot s2 else exitBars (leaveSlot s2) s2.me.ref.crew s2.me) := by
  rw [exitEff, if_neg (by simp [hpend, hout, hpacts]), hdrain]
  rfl

/-- Settles O13. -/
theorem wfwAndExit : Obligations.WfwAndExit := by
  unfold Obligations.WfwAndExit
  refine ⟨fun h s s1 o hi => exec_hold hi rfl rfl, fun h s s1 o hi => ⟨fun hbusy => ?_, fun s2 hpend hout hpacts hdrain => ?_⟩⟩
  · exact ⟨exitKey s1.me, exec_wait hi rfl (exitEff_waits hbusy)⟩
  · obtain ⟨hvacant, hexited, hregisters⟩ := leaveSlot_vacates s2
    exact ⟨leaveSlot s2, hvacant, hexited, hregisters, leaveSlot_only s2,
      exec_gone hi rfl (exitEff_leaves hpend hout hpacts hdrain)⟩

end Sys2Proof.Machine
end

