-- ==== Sys2Proof/Proofs/StepAnswers.lean ====
section
/-! SUPPORT. Every instruction and every event answers a next state, and so does every step: O43. -/

namespace Sys2Proof.Machine

/-- No instruction and no event faults or is refused: an instruction that a thread issues is carried out by `issue`, and the meaning of
an event is the state after it. -/
theorem exec_next (i : Instr) (s : State) : ∃ t, exec i s = .next t := by
  cases i
  all_goals exact ⟨_, rfl⟩

/-- Settles O43. -/
theorem everyStepAnswers : Obligations.EveryStepAnswers := by
  unfold Obligations.EveryStepAnswers Safe
  intro s
  unfold step
  cases nextMove s with
  | run i u => exact exec_next i u
  | did u => exact ⟨u, rfl⟩

end Sys2Proof.Machine
end

