-- ==== Sys2Proof/Proofs/VectorRoots.lean ====
section
/-! SUPPORT. A root, a reciprocal or a power of integer lanes is no floating-point result to the model (R362, R443), and the refutation of
O8. -/

namespace Sys2Proof.Machine

/-- An asynchronous result goes to the end of those that the thread awaits, with its mark. -/
theorem pend_after_result {i : Instr} {b : Body} (hb : bodyOf i = some b) (s s1 : State) (vd : BitVec 4) (x : Vec) (fl : BitVec 5)
    (fp : Bool) : (after i s (s1.modMe fun t => t.result none [.v vd x] fl fp)).me.pend =
      s1.me.pend ++ [⟨none, [.v vd x], fl, false, fp⟩] := by
  rw [after_of_body hb, me_goOn, me_modMe]
  rfl

/-- VSQRT of 64-bit integer lanes, v1 from v0: no encoding holds it, but the instruction is one. -/
def vsqrtOfIntegers : Instr := .vsqrt Hdr.zero 1 0 4 0 0

theorem vsqrtOfIntegers_issues : ∃ o s1, Issues vsqrtOfIntegers State.reset o s1 := ⟨_, _, _, rfl, rfl⟩

/-- Refutes O8 at VSQRT with an integer TYPE, which issues in the state after reset: the result that its thread then awaits is not marked as a
floating-point one, where the statement marks every VSQRT's. -/
theorem not_vectorLanes : ¬ Obligations.VectorLanes := by
  unfold Obligations.VectorLanes
  intro h
  obtain ⟨o, s1, hi⟩ := vsqrtOfIntegers_issues
  obtain ⟨x, hmarked, -⟩ := h _ _ _ _ _ _ _ _ rfl hi
  obtain ⟨y, hplain, -⟩ := exec_mapLanes (b := bodyVsqrt Hdr.zero 1 0 4 0 0) (fp := false) (g := fun o k =>
    sqrtF (tyF 4) (fmode 0 o) (lane o.va 64 k)) rfl hi rfl fun _ => rfl
  have hpend := congrArg (fun t => t.me.pend) (Host.Outcome.next.inj (hmarked.symm.trans hplain))
  rw [pend_after_result rfl, pend_after_result rfl] at hpend
  have hfp := congrArg Pending.fp (List.head_eq_of_cons_eq (List.append_cancel_left hpend))
  cases show true = false from hfp

end Sys2Proof.Machine
end

