-- ==== Sys2Proof/Proofs/SortAndMerge.lean ====
section
/-! SUPPORT. Keys in order, lanes sorted and runs merged (R373 to R375): what the orders of VSORT and VMERGE are. -/

namespace Sys2Proof.Machine

/-! ## The order of keys (R373) -/

theorem span_eq_range (n : Nat) : span 0 n = List.range n := by
  refine List.ext_getElem? fun k => ?_
  rw [span_getElem?]
  split <;> simp [*]

theorem minExp_swap (a b : FVal) (q : Int) : minExp [a, b] q = minExp [b, a] q := by
  cases a <;> cases b <;> simp only [minExp, List.foldl_cons, List.foldl_nil]
  omega

/-- The place of a datum among the classes that `cmpV` orders: negative infinity, negative, zero, positive, infinity. -/
def FVal.rank : FVal → Int
  | .inf true => -2
  | .inf false => 2
  | .fin true _ _ => -1
  | .fin false _ _ => 1
  | _ => 0

theorem cmpV_of_rank_ne {a b : FVal} (h : a.rank ≠ b.rank) (z : Bool) : cmpV a b z = if a.rank < b.rank then -1 else 1 := if_pos h

theorem cmpV_fin (n n' : Bool) (m m' : Nat) (e e' : Int) (z : Bool) (h : (FVal.fin n m e).rank = (FVal.fin n' m' e').rank) :
    cmpV (.fin n m e) (.fin n' m' e') z =
      let q := minExp [.fin n m e, .fin n' m' e'] 100000
      if scaled q (.fin n m e) < scaled q (.fin n' m' e') then -1
      else if scaled q (.fin n m e) = scaled q (.fin n' m' e') then 0 else 1 := if_neg (not_not.mpr h)

/-- Of two data at most one comes strictly before the other. -/
theorem cmpV_asymm {a b : FVal} (h : cmpV a b true < 0) : ¬ cmpV b a true < 0 := by
  by_cases hr : a.rank = b.rank
  · cases a with
    | fin n m e =>
      cases b with
      | fin n' m' e' =>
        rw [cmpV_fin _ _ _ _ _ _ _ hr] at h
        rw [cmpV_fin _ _ _ _ _ _ _ hr.symm, minExp_swap]
        dsimp only at h ⊢
        split at h <;> split <;> omega
      | nan n' | inf n' | zero n' => cases n <;> cases n' <;> cases hr
    | nan n | inf n | zero n =>
      cases b with
      | fin n' m' e' => cases n <;> cases n' <;> cases hr
      | nan n' | inf n' | zero n' => revert n n'; decide
  · rw [cmpV_of_rank_ne hr] at h
    rw [cmpV_of_rank_ne (Ne.symm hr)]
    split at h <;> split <;> omega

theorem keyBefore_asymm {ty : BitVec 3} {x y : Nat} (h : keyBefore ty x y = true) : keyBefore ty y x = false := by
  unfold keyBefore at h ⊢
  dsimp only at h ⊢
  split at h
  · rw [if_pos (by assumption)]
    simp only [decide_eq_true_eq, decide_eq_false_iff_not] at h ⊢
    omega
  · rw [if_neg (by assumption)]
    split at h
    · cases h
    · split at h
      · rw [if_pos (by assumption)]
      · rw [if_neg (by assumption), if_neg (by assumption), decide_eq_false_iff_not]
        exact cmpV_asymm (of_decide_eq_true h)

theorem keyOrder_asymm {ty : BitVec 3} {desc : Bool} {x y : Nat} (h : keyOrder ty desc x y = true) : keyOrder ty desc y x = false := by
  cases desc <;> exact keyBefore_asymm h

/-! ## Sorting (R373, R374) -/

/-- One lane may stand right before another (the order that `InOrder` states). -/
def Follows (before : Nat → Nat → Bool) (x y : Nat) : Prop := before y x = false ∧ (before x y = false → x < y)

theorem inOrder_of_isChain {before : Nat → Nat → Bool} {l : List Nat} (h : l.IsChain (Follows before)) : InOrder before l := by
  intro k x y hx hy
  obtain ⟨hk, rfl⟩ := List.getElem?_eq_some_iff.mp hx
  obtain ⟨hk1, rfl⟩ := List.getElem?_eq_some_iff.mp hy
  exact List.isChain_iff_getElem.mp h k hk1

/-- A lane above every lane of a list that is in order goes after its equals, and the list stays in order. -/
theorem isChain_insertBy {before : Nat → Nat → Bool} (hasymm : ∀ x y, before x y = true → before y x = false) {x : Nat} {l : List Nat}
    (h : l.IsChain (Follows before)) (hx : ∀ y ∈ l, y < x) : (insertBy before x l).IsChain (Follows before) := by
  induction l with
  | nil => exact .singleton x
  | cons y r ih =>
    unfold insertBy
    split
    · next hb => exact List.isChain_cons_cons.mpr ⟨⟨hasymm _ _ hb, fun hf => absurd hb (ne_true_of_eq_false hf)⟩, h⟩
    · next hb =>
      have hyx : Follows before y x := ⟨Bool.eq_false_iff.mpr hb, fun _ => hx y List.mem_cons_self⟩
      have hr := ih h.tail fun z hz => hx z (List.mem_cons_of_mem y hz)
      cases r with
      | nil => exact List.isChain_cons_cons.mpr ⟨hyx, hr⟩
      | cons z r =>
        unfold insertBy at hr ⊢
        split at hr
        · next hz => rw [if_pos hz]; exact List.isChain_cons_cons.mpr ⟨hyx, hr⟩
        · next hz => rw [if_neg hz]; exact List.isChain_cons_cons.mpr ⟨(List.isChain_cons_cons.mp h).1, hr⟩

theorem perm_insertBy (before : Nat → Nat → Bool) (x : Nat) (l : List Nat) : (insertBy before x l).Perm (x :: l) := by
  induction l with
  | nil => exact .refl _
  | cons y r ih =>
    unfold insertBy
    split
    · exact .refl _
    · exact (ih.cons y).trans (.swap x y r)

/-- Lanes that rise are sorted: the order holds of what has been sorted, which are the lanes taken so far. -/
theorem sortBy_spec {before : Nat → Nat → Bool} (hasymm : ∀ x y, before x y = true → before y x = false) {l : List Nat}
    (h : l.Pairwise (· < ·)) : (sortBy before l).IsChain (Follows before) ∧ (sortBy before l).Perm l := by
  suffices hacc : ∀ acc : List Nat, acc.IsChain (Follows before) → (∀ y ∈ acc, ∀ x ∈ l, y < x) →
      (l.foldl (fun acc x => insertBy before x acc) acc).IsChain (Follows before) ∧
        (l.foldl (fun acc x => insertBy before x acc) acc).Perm (acc ++ l) from hacc [] .nil (by simp)
  induction l with
  | nil => intro acc hc _; exact ⟨hc, by simp⟩
  | cons x r ih =>
    intro acc hc hlt
    obtain ⟨hx, hr⟩ := List.pairwise_cons.mp h
    have hins := perm_insertBy before x acc
    obtain ⟨h1, h2⟩ := ih hr (insertBy before x acc)
      (isChain_insertBy hasymm hc fun y hy => hlt y hy x List.mem_cons_self) fun y hy z hz => by
        rcases List.mem_cons.mp (hins.mem_iff.mp hy) with rfl | hy
        · exact hx z hz
        · exact hlt y hy z (List.mem_cons_of_mem x hz)
    exact ⟨h1, h2.trans ((hins.append_right r).trans List.perm_middle.symm)⟩

/-! ## Merging (R375) -/

/-- Two runs are merged while the fuel lasts: each keeps its order, and no lane is lost. -/
theorem mergeRuns_filter (before : Nat → Nat → Bool) (p : Nat → Bool) {n : Nat} {l u : List Nat} (hn : l.length + u.length ≤ n)
    (hl : ∀ x ∈ l, p x = true) (hu : ∀ x ∈ u, p x = false) :
    (mergeRuns before n l u).filter p = l ∧ (mergeRuns before n l u).filter (fun x => !p x) = u := by
  fun_induction mergeRuns before n l u with
  | case1 l u => 
    obtain ⟨rfl, rfl⟩ : l = [] ∧ u = [] := by simpa using hn
    exact ⟨rfl, rfl⟩
  | case2 n u => exact ⟨List.filter_eq_nil_iff.mpr fun x hx => by simp [hu x hx], List.filter_eq_self.mpr fun x hx => by simp [hu x hx]⟩
  | case3 n l h => exact ⟨List.filter_eq_self.mpr hl, List.filter_eq_nil_iff.mpr fun x hx => by simp [hl x hx]⟩
  | case4 n x l y u h ih =>
    obtain ⟨h1, h2⟩ := ih (by simp at hn ⊢; omega) (fun z hz => hl z (List.mem_cons_of_mem x hz)) hu
    simp [hl x List.mem_cons_self, h1, h2]
  | case5 n x l y u h ih =>
    obtain ⟨h1, h2⟩ := ih (by simp at hn ⊢; omega) hl fun z hz => hu z (List.mem_cons_of_mem y hz)
    simp [hu y List.mem_cons_self, h1, h2]

/-- A lane that has been merged, and the first after it of the other run, are in the order of the merge. -/
theorem mergeRuns_order (before : Nat → Nat → Bool) (half : Nat) {n : Nat} {l u : List Nat} (hn : l.length + u.length ≤ n)
    (hl : ∀ x ∈ l, x < half) (hu : ∀ x ∈ u, half ≤ x) {k x y : Nat} (hx : (mergeRuns before n l u)[k]? = some x)
    (hy : (((mergeRuns before n l u).drop (k + 1)).find? fun z => decide (z < half) != decide (x < half)) = some y) :
    if x < half then before y x = false else before x y = true := by
  fun_induction mergeRuns before n l u generalizing k with
  | case1 l u => cases hx
  | case2 n u =>
    have hxu := hu x (List.mem_of_getElem? hx)
    have hyu := hu y (List.mem_of_mem_drop (List.mem_of_find?_eq_some hy))
    have hne := List.find?_some hy
    simp [Nat.not_lt.mpr hxu, Nat.not_lt.mpr hyu] at hne
  | case3 n l h =>
    have hxl := hl x (List.mem_of_getElem? hx)
    have hyl := hl y (List.mem_of_mem_drop (List.mem_of_find?_eq_some hy))
    have hne := List.find?_some hy
    simp [hxl, hyl] at hne
  | case4 n a l b u h ih =>
    have hn' : l.length + (b :: u).length ≤ n := by simp at hn ⊢; omega
    have hl' : ∀ z ∈ l, z < half := fun z hz => hl z (List.mem_cons_of_mem a hz)
    cases k with
    | zero =>
      obtain rfl : a = x := by simpa using hx
      have ha := hl a List.mem_cons_self
      obtain ⟨-, hup⟩ := mergeRuns_filter before (fun z => decide (z < half)) hn' (by simpa using hl') (by simpa using hu)
      have hhead : b = y := by
        rw [← List.head?_filter] at hy
        simpa [ha, hup] using hy
      simpa [ha, ← hhead] using h
    | succ k => exact ih hn' hl' hu hx hy
  | case5 n a l b u h ih =>
    have hn' : (a :: l).length + u.length ≤ n := by simp at hn ⊢; omega
    have hu' : ∀ z ∈ u, half ≤ z := fun z hz => hu z (List.mem_cons_of_mem b hz)
    cases k with
    | zero =>
      obtain rfl : b = x := by simpa using hx
      have hb := hu b List.mem_cons_self
      obtain ⟨hlow, -⟩ := mergeRuns_filter before (fun z => decide (z < half)) hn' (by simpa using hl) (by simpa using hu')
      have hhead : a = y := by
        rw [← List.head?_filter] at hy
        simpa [Nat.not_lt.mpr hb, hlow] using hy
      simpa [Nat.not_lt.mpr hb, ← hhead] using h
    | succ k => exact ih hn' hl hu' hx hy

/-! ## The order of the source lanes (R374, R375) -/

theorem pairwise_span (lo n : Nat) : (span lo n).Pairwise (· < ·) := by
  induction n generalizing lo with
  | zero => exact .nil
  | succ n ih => exact List.pairwise_cons.mpr ⟨fun x hx => (mem_span.mp hx).1, ih _⟩

theorem pairwise_activeLanes (w : Nat) (m : Mask) : (activeLanes w m).Pairwise (· < ·) := (pairwise_span 0 _).filter _

/-- The active lanes in some order, and then the inactive ones as they are. -/
def activeFirst (w : Nat) (m : Mask) (act : List Nat) : List Nat := act ++ (span 0 (512 / w)).filter fun i => !laneOn w m i

section ActiveFirst

variable {w : Nat} {m : Mask} {act : List Nat} (h : act.Perm (activeLanes w m))
include h

theorem activeFirst_perm : (activeFirst w m act).Perm (span 0 (512 / w)) :=
  (h.append_right _).trans (List.filter_append_perm _ _)

theorem activeFirst_length : (activeFirst w m act).length = 512 / w := (activeFirst_perm h).length_eq.trans (span_length _ _)

theorem activeFirst_take : (activeFirst w m act).take (activeCount w m) = act := List.take_left' h.length_eq

theorem activeFirst_drop :
    (activeFirst w m act).drop (activeCount w m) = (span 0 (512 / w)).filter fun i => !laneOn w m i := List.drop_left' h.length_eq

theorem laneOn_activeFirst {k : Nat} (hk : k < 512 / w) :
    laneOn w m ((activeFirst w m act).getD k 0) = true ↔ k < activeCount w m := by
  rw [← activeFirst_length h] at hk
  have hlen : (activeFirst w m act).length = act.length + ((span 0 (512 / w)).filter fun i => !laneOn w m i).length :=
    List.length_append
  rw [List.getD_eq_getElem?_getD, activeCount, ← h.length_eq, activeFirst]
  by_cases hact : k < act.length
  · rw [List.getElem?_append_left hact, List.getElem?_eq_getElem hact]
    exact iff_of_true (List.mem_filter.mp (h.mem_iff.mp (List.getElem_mem hact))).2 hact
  · rw [List.getElem?_append_right (Nat.not_lt.mp hact), List.getElem?_eq_getElem (by omega)]
    have hoff := (List.mem_filter.mp (List.getElem_mem (l := (span 0 (512 / w)).filter fun i => !laneOn w m i)
      (n := k - act.length) (by omega))).2
    exact iff_of_false (by simpa using hoff) hact

/-- A register whose lanes are those of another in this order. -/
theorem lane_activeFirst (v : Vec) {k : Nat} (hk : k < 512 / w) :
    lane (ofLanes 512 w ((activeFirst w m act).map (lane v w))) w k = lane v w ((activeFirst w m act).getD k 0) := by
  have hlen := activeFirst_length h
  rw [lane_ofLanes (by rw [List.length_map, hlen]; exact mul_div_lanes w), List.getD_eq_getElem?_getD, List.getElem?_map,
    List.getElem?_eq_getElem (by omega), List.getD_eq_getElem _ _ (by omega)]
  exact Nat.mod_eq_of_lt (lane_lt _ _ _)

end ActiveFirst

/-- The merge of the active lanes of the lower half with those of the upper one. -/
theorem mergeRuns_activeLanes (before : Nat → Nat → Bool) (w half : Nat) (m : Mask) :
    let r := mergeRuns before (512 / w + 1) ((activeLanes w m).filter fun i => i < half) ((activeLanes w m).filter fun i => half ≤ i)
    r.Perm (activeLanes w m) ∧ Merged before half r := by
  intro r
  have hside (i : Nat) : decide (half ≤ i) = !decide (i < half) := by rw [← decide_not]; exact decide_eq_decide.mpr Nat.not_lt.symm
  have hsplit : ((activeLanes w m).filter fun i => half ≤ i) = (activeLanes w m).filter fun i => !decide (i < half) :=
    List.filter_congr fun i _ => hside i
  have hn : ((activeLanes w m).filter fun i => i < half).length + ((activeLanes w m).filter fun i => half ≤ i).length ≤ 512 / w + 1 := by
    rw [hsplit, ← List.length_append, (List.filter_append_perm _ _).length_eq]
    exact ((List.length_filter_le _ _).trans (span_length _ _).le).trans (Nat.le_succ _)
  have hl : ∀ x ∈ (activeLanes w m).filter fun i => i < half, x < half := fun x hx => of_decide_eq_true (List.mem_filter.mp hx).2
  have hu : ∀ x ∈ (activeLanes w m).filter fun i => half ≤ i, half ≤ x := fun x hx => of_decide_eq_true (List.mem_filter.mp hx).2
  obtain ⟨hlow, hup⟩ := mergeRuns_filter before (fun i => decide (i < half)) hn (fun x hx => decide_eq_true (hl x hx))
    fun x hx => decide_eq_false (Nat.not_lt.mpr (hu x hx))
  have hup' : (r.filter fun i => half ≤ i) = (activeLanes w m).filter fun i => half ≤ i := by
    exact (List.filter_congr fun i _ => hside i).trans hup
  refine ⟨?_, ?_, ?_, fun k x y => mergeRuns_order before half hn hl hu⟩
  · refine (List.filter_append_perm (fun i => decide (i < half)) r).symm.trans ?_
    rw [hlow, hup, hsplit]
    exact List.filter_append_perm _ _
  · exact hlow ▸ (pairwise_activeLanes w m).filter _
  · exact hup' ▸ (pairwise_activeLanes w m).filter _

end Sys2Proof.Machine
end

