-- ==== Sys2Proof/Proofs/VectorWhole.lean ====
section
/-! SUPPORT. The vector instructions that write all of D, and those that write a mask (R357, R363, R366 to R368, R373 to R377, R379): O9 and
O10. -/

namespace Sys2Proof.Machine

/-! ## Lanes -/

/-- Replacing a field leaves the bits beside it. -/
theorem getLsbD_setFld {w : Nat} (v : BitVec w) (lo n x : Nat) {k : Nat} (hk : k < w) :
    (setFld v lo n x).getLsbD k = if lo ≤ k ∧ k < lo + n then x.testBit (k - lo) else v.getLsbD k := by
  rw [setFld, BitVec.getLsbD_or, BitVec.getLsbD_and, BitVec.getLsbD_not, BitVec.getLsbD_shiftLeft, BitVec.getLsbD_shiftLeft,
    BitVec.getLsbD_ofNat, BitVec.getLsbD_ofNat, Nat.testBit_mod_two_pow, Nat.testBit_two_pow_sub_one]
  by_cases hlo : k < lo
  · rw [if_neg (by omega)]
    simp [hk, hlo]
  · by_cases hn : k < lo + n
    · rw [if_pos ⟨by omega, hn⟩]
      simp [hk, hlo, show k - lo < w by omega, show k - lo < n by omega]
    · rw [if_neg (by omega)]
      simp [hk, hlo, show ¬ k - lo < n by omega]

theorem testBit_lane {n : Nat} (v : BitVec n) (w i j : Nat) : (lane v w i).testBit j = (decide (j < w) && v.getLsbD (w * i + j)) := by
  rw [lane, bits, Nat.testBit_mod_two_pow, Nat.testBit_shiftRight]
  rfl

/-- Lane j of a register in which one lane has been replaced. -/
theorem lane_setFld {w k : Nat} (hw : w * (k + 1) ≤ 512) (v : Vec) (x : Nat) {j : Nat} (hj : w * (j + 1) ≤ 512) :
    lane (setFld v (w * k) w x) w j = if j = k then x % 2 ^ w else lane v w j := by
  refine Nat.eq_of_testBit_eq fun b => ?_
  rw [testBit_lane]
  by_cases hb : b < w
  · rw [getLsbD_setFld _ _ _ _ (by rw [Nat.mul_succ] at hj; omega)]
    by_cases hjk : j = k
    · subst hjk
      simp [hb]
    · have hout : ¬ (w * k ≤ w * j + b ∧ w * j + b < w * k + w) := by
        rcases Nat.lt_or_gt_of_ne hjk with hlt | hlt <;> have := Nat.mul_le_mul_left w (Nat.succ_le_of_lt hlt) <;>
          rw [Nat.mul_succ] at this <;> omega
      rw [if_neg hout, if_neg hjk, testBit_lane]
  · have hj' : (if j = k then x % 2 ^ w else lane v w j).testBit b = false := by
      split
      · simp [hb]
      · simp [testBit_lane, hb]
    simp [hb, hj']

theorem vecSort_follows {i : Instr} {h : Hdr} {vd va vb vc : BitVec 4} {ty mk : BitVec 3} {order : Mask → Vec → List Nat} {s s1 : State}
    {o : Ops} {act : List Nat} (hb : bodyOf i = some (vecSort h vd va vb vc ty mk order)) (hi : Issues i s o s1)
    (ho : order o.ma o.va = activeFirst (tyW ty) o.ma act) (hact : act.Perm (activeLanes (tyW ty) o.ma)) :
    ∃ (l : List Nat) (x y : Vec),
      exec i s = .next (after i s (s1.modMe fun t => t.result none [.v vd x, .v vc y] 0)) ∧
      l.Perm (span 0 (tyN ty)) ∧
      (∀ k, k < tyN ty → lane x (tyW ty) k = lane o.va (tyW ty) (l.getD k 0) ∧ lane y (tyW ty) k = lane o.vb (tyW ty) (l.getD k 0)) ∧
      (∀ k, k < tyN ty → (laneOn (tyW ty) o.ma (l.getD k 0) = true ↔ k < activeCount (tyW ty) o.ma)) ∧
      (l.drop (activeCount (tyW ty) o.ma)).Pairwise (· < ·) ∧ l.take (activeCount (tyW ty) o.ma) = act := by
  refine ⟨activeFirst (tyW ty) o.ma act, ofLanes 512 (tyW ty) ((activeFirst (tyW ty) o.ma act).map (lane o.va (tyW ty))),
    ofLanes 512 (tyW ty) ((activeFirst (tyW ty) o.ma act).map (lane o.vb (tyW ty))), exec_done hi hb (by rw [← ho]; rfl),
    activeFirst_perm hact, fun k hk => ?_, fun k hk => ?_, ?_, activeFirst_take hact⟩
  · exact ⟨lane_activeFirst hact _ hk, lane_activeFirst hact _ hk⟩
  · exact laneOn_activeFirst hact hk
  · rw [activeFirst_drop hact]
    exact (pairwise_span 0 _).filter _

/-- The active lanes sorted. -/
theorem sortOrder_spec (ty : BitVec 3) (desc : Bool) (m : Mask) (a : Vec) :
    ∃ act, act.Perm (activeLanes (tyW ty) m) ∧ InOrder (fun x y => keyOrder ty desc (lane a (tyW ty) x) (lane a (tyW ty) y)) act ∧
      sortOrder ty desc m a = activeFirst (tyW ty) m act := by
  obtain ⟨hchain, hperm⟩ := sortBy_spec (before := fun x y => keyOrder ty desc (lane a (tyW ty) x) (lane a (tyW ty) y))
    (fun _ _ => keyOrder_asymm) (pairwise_activeLanes (tyW ty) m)
  exact ⟨_, hperm, inOrder_of_isChain hchain, rfl⟩

/-- The active lanes of the two halves merged. -/
theorem mergeOrder_spec (ty : BitVec 3) (desc : Bool) (m : Mask) (a : Vec) :
    ∃ act, act.Perm (activeLanes (tyW ty) m) ∧
      Merged (fun x y => keyOrder ty desc (lane a (tyW ty) x) (lane a (tyW ty) y)) (tyN ty / 2) act ∧
      mergeOrder ty desc m a = activeFirst (tyW ty) m act := by
  obtain ⟨hperm, hmerged⟩ := mergeRuns_activeLanes (fun x y => keyOrder ty desc (lane a (tyW ty) x) (lane a (tyW ty) y))
    (tyW ty) (tyN ty / 2) m
  exact ⟨_, hperm, hmerged, rfl⟩

/-- VSEL: A's lane, or B's where the mask is clear. -/
theorem vsel_follows {h : Hdr} {vd va vb : BitVec 4} {ty mk : BitVec 3} {s s1 : State} {o : Ops}
    (hi : Issues (.vsel h vd va vb ty mk) s o s1) :
    ∃ x fl, exec (.vsel h vd va vb ty mk) s =
        .next (after (.vsel h vd va vb ty mk) s (s1.modMe fun t => t.result (some 2) [.v vd x] fl)) ∧
      ∀ k, k < tyN ty →
        lane x (tyW ty) k = if laneOn (tyW ty) o.ma k then lane o.va (tyW ty) k else lane o.vb (tyW ty) k := by
  refine ⟨_, _, exec_done hi rfl rfl, fun k hk => ?_⟩
  rw [mapLanes_lane _ _ _ _ hk]
  exact congrArg (ite _ · _) (Nat.mod_eq_of_lt (lane_lt _ _ _))

/-- The lanes of a TYPE fill a register. -/
theorem tyW_mul_tyN (ty : BitVec 3) : tyW ty * tyN ty = 512 := by
  unfold tyN tyW
  split <;> rfl

theorem tyW_lane_fits {ty : BitVec 3} {k : Nat} (hk : k < tyN ty) : tyW ty * (k + 1) ≤ 512 :=
  (Nat.mul_le_mul_left _ hk).trans (tyW_mul_tyN ty).le

/-- VCMPRS: the active lanes at the bottom, and 0 above them. -/
theorem lane_vcmprs (w : Nat) (m : Mask) (a : Vec) (j : Nat) : lane (ofLanes 512 w ((activeLanes w m).map (lane a w))) w j =
    (((List.range (512 / w)).filter fun k => laneOn w m k).map fun k => lane a w k).getD j 0 := by
  have hlen : (activeLanes w m).length ≤ 512 / w := (List.length_filter_le _ _).trans (span_length _ _).le
  rw [lane_ofLanes (by rw [List.length_map]; exact (Nat.mul_le_mul_left w hlen).trans (mul_div_lanes w)), activeLanes, span_eq_range]
  refine Nat.mod_eq_of_lt ?_
  rw [List.getD_eq_getElem?_getD, List.getElem?_map]
  cases ((List.range (512 / w)).filter (laneOn w m))[j]? with
  | none => exact Nat.two_pow_pos w
  | some k => exact lane_lt _ _ _

/-- Settles O9: VSORT and VMERGE by `activeFirst`, which both put in order, and the others by their lanes. -/
theorem vectorWhole : Obligations.VectorWhole := by
  unfold Obligations.VectorWhole
  refine ⟨fun h vd va vb ty mk s s1 o => vsel_follows, ?vins, ?vcmprs, ?vpackq, ?ordered⟩
  case vins =>
    intro h vd a k ty s s1 o hi hk
    exact ⟨_, exec_done hi rfl rfl, fun j hj => lane_setFld (tyW_lane_fits hk) _ _ (tyW_lane_fits hj)⟩
  case vcmprs =>
    intro h vd va ty mk s s1 o hi
    exact ⟨_, exec_done hi rfl rfl, fun j _ => lane_vcmprs _ _ _ j⟩
  case vpackq =>
    intro h vd va vb bq4 mk s s1 o hi
    exact ⟨_, _, _, _, exec_done hi rfl rfl, by rw [← span_eq_range]; rfl⟩
  case ordered =>
    intro i h vd va vb vc desc ty mk s s1 o hcase hi
    rcases hcase with rfl | rfl
    · obtain ⟨act, hact, hsorted, ho⟩ := sortOrder_spec ty desc o.ma o.va
      obtain ⟨l, x, y, hexec, hperm, hlanes, hon, hrest, htake⟩ := vecSort_follows rfl hi ho hact
      exact ⟨l, x, y, hexec, hperm, hlanes, hon, hrest, fun _ => htake ▸ hsorted, nofun⟩
    · obtain ⟨act, hact, hmerged, ho⟩ := mergeOrder_spec ty desc o.ma o.va
      obtain ⟨l, x, y, hexec, hperm, hlanes, hon, hrest, htake⟩ := vecSort_follows rfl hi ho hact
      exact ⟨l, x, y, hexec, hperm, hlanes, hon, hrest, nofun, fun _ => htake ▸ hmerged⟩

/-! ## Masks (R363, R379) -/

/-- A mask given bit by bit. -/
theorem getLsbD_ofBits (f : Nat → Bool) {j : Nat} (hj : j < 16) :
    (ofLanes 16 1 ((span 0 16).map fun j => b2n (f j))).getLsbD j = f j := by
  have hlane := lane_ofLanes (n := 16) (w := 1) (l := (span 0 16).map fun j => b2n (f j)) (by simp [span_length]) j
  have hbit := testBit_lane (ofLanes 16 1 ((span 0 16).map fun j => b2n (f j))) 1 j 0
  rw [hlane, List.getD_eq_getElem?_getD, List.getElem?_map, span_getElem?, if_pos hj] at hbit
  simp only [Option.map_some, Option.getD_some, Nat.zero_add, Nat.one_mul, Nat.add_zero] at hbit
  rw [show decide (0 < 1) = true from rfl, Bool.true_and] at hbit
  rw [← hbit]
  cases f j <;> rfl

/-- VCMP's lanes that hold: the active ones whose condition does. -/
theorem any_activeLanes (w : Nat) (m : Mask) (f : Nat → Bool × BitVec 5) (k : Nat) :
    (((activeLanes w m).map fun i => (i, f i)).any fun x => x.1 = k && x.2.1) = (k < 512 / w && laneOn w m k && (f k).1) := by
  rw [Bool.eq_iff_iff]
  simp only [List.any_eq_true, List.mem_map, activeLanes, List.mem_filter, mem_span, Bool.and_eq_true, decide_eq_true_eq]
  constructor
  · rintro ⟨x, ⟨i, ⟨⟨-, hi⟩, hon⟩, rfl⟩, rfl, hf⟩
    exact ⟨⟨by omega, hon⟩, hf⟩
  · rintro ⟨⟨hk, hon⟩, hf⟩
    exact ⟨_, ⟨k, ⟨⟨by omega, by omega⟩, hon⟩, rfl⟩, rfl, hf⟩

/-- Settles O10. -/
theorem maskResults : Obligations.MaskResults := by
  unfold Obligations.MaskResults
  refine ⟨?vcmp, ?mlog, fun h md a s s1 o hi => exec_done hi rfl rfl⟩
  case vcmp =>
    intro h md va vb ty mk cond s s1 o hi
    refine ⟨_, _, exec_done hi rfl rfl, fun j hj => ?_⟩
    refine (getLsbD_ofBits _ hj).trans ?_
    simp only [any_activeLanes]
    rfl
  case mlog =>
    intro h md ma mb tab s s1 o hi
    refine ⟨_, exec_done hi rfl rfl, fun j hj => ?_⟩
    exact (getLsbD_ofBits _ hj).trans (congrArg tab.getLsbD (plogIndex_eq _ _))

end Sys2Proof.Machine
end

