-- ==== Sys2Proof/Proofs/LoadStore.lean ====
section
/-! SUPPORT. The access of an instruction that has issued, and the loads of the scalar and the vector forms (R380 to R386, R391): O14 and
O15. -/

namespace Sys2Proof.Machine

/-! ## The access of an instruction (R380) -/

/-- An instruction that issues has no value of an earlier access to give: its debit drops it. -/
theorem carry_of_issues {i : Instr} {s s1 : State} {o : Ops} (hi : Issues i s o s1) : s1.me.carry = none := by
  obtain ⟨b, hb, ha⟩ := hi
  obtain ⟨r, s', -, hd, -⟩ := accept_some ha
  obtain ⟨-, -, rfl⟩ := debit_ok hd
  rw [me_modMe]

theorem loading_access {s : State} (h : s.me.carry = none) (r : BitVec 5) (acc : State → Eff) : loading s r acc = acc s := by
  rw [loading, h]

section Access

variable {s s2 : State} {va : Word} {n : Nat} {acc : Acc} {atomic : Bool} {k : State → Xl → Eff}

theorem access_misaligned (h : va.toNat % n ≠ 0) : access s va n acc atomic k = .trap s MISALIGN va 0 := if_pos h

theorem access_ok {x : Xl} (h : va.toNat % n = 0) (ht : threadAccess s va n acc (!atomic) = (s2, .ok x)) :
    access s va n acc atomic k = k s2 x := by
  rw [access, if_neg (not_not.mpr h), ht]

theorem access_trap {c x : Nat} (h : va.toNat % n = 0) (ht : threadAccess s va n acc (!atomic) = (s2, .trap c x)) :
    access s va n acc atomic k = .trap s2 c va (word x) := by
  rw [access, if_neg (not_not.mpr h), ht]

theorem access_wait (h : va.toNat % n = 0) (ht : threadAccess s va n acc (!atomic) = (s2, .wait)) :
    access s va n acc atomic k = .wait s2 .memory 0 := by
  rw [access, if_neg (not_not.mpr h), ht]

end Access

/-- An access that a thread makes answers a state that differs in no byte. -/
theorem threadAccess_answer {s s2 : State} {va : Word} {n : Nat} {acc : Acc} {count : Bool} {r : AccRes}
    (h : threadAccess s va n acc count = (s2, r)) : AccessOnly s s2 := by
  have hs := threadAccess_only s va n acc count
  rwa [h] at hs

theorem AccessOnly.same {s t : State} (h : AccessOnly s t) : SameBytes s t := ⟨h.mem, h.ws⟩

theorem AccessOnly.me_eq {s t : State} (h : AccessOnly s t) : t.me = s.me := by
  rw [State.me, State.me, State.thread, State.thread, h.threads, h.curCore, h.curSlot]

theorem AccessOnly.myCtx_eq {s t : State} (h : AccessOnly s t) : t.myCtx = s.myCtx := by
  rw [State.myCtx, State.myCtx, State.ctxOf, State.ctxOf, State.crew?, State.crew?, h.crews, h.me_eq]

/-! ## Scalar loads (R384, R385) -/

theorem giveLoaded_free {s : State} {r : BitVec 5} (h : giveWait s r = none) (v : Word) (fl : BitVec 5) :
    giveLoaded s r v fl = .done (giveG s (some 1) r v fl) := by
  rw [giveLoaded, h]

theorem giveLoaded_waits {s : State} {r : BitVec 5} {why : ParkWhy} {key : Nat} (h : giveWait s r = some (why, key)) (v : Word)
    (fl : BitVec 5) : giveLoaded s r v fl = .wait (s.modMe fun t => { t with carry := some (v, fl) }) why key := by
  rw [giveLoaded, h]

/-- What LD's effect is once it has issued. -/
theorem ld_eff {h : Hdr} {d a b : BitVec 5} {sz : BitVec 2} {sx : Bool} {sc : BitVec 3} {imm : BitVec 48} {s s1 : State} {o : Ops}
    (hi : Issues (.ld h d a b sz sx sc imm) s o s1) : (bodyLd h d a b sz sx sc imm).eff o s1 =
      access s1 (o.a + (o.b <<< sc.toNat) + imm.signExtend 64) (2 ^ sz.toNat) .read false fun s x =>
        giveLoaded s d (loadExt (rdX s x (2 ^ sz.toNat)) (2 ^ sz.toNat) sx) 0 := by
  show loadEff d (memAddr o sc imm) (szBytes sz) sx s1 = _
  rw [loadEff, loading_access (carry_of_issues hi)]
  rfl

/-- The full bits that LDX keeps with its operands are those before the turn. -/
theorem ldx_keeps_full {h : Hdr} {d a b : BitVec 5} {sc : BitVec 3} {imm : BitVec 48} {s s1 : State} {o : Ops}
    (hi : Issues (.ldx h d a b sc imm) s o s1) : o.pa = s.me.fullG d.toNat ∧ o.pb = s.me.fullG (d.toNat + 1) := by
  obtain ⟨r, s', hg, -, rfl⟩ := accept_some (accept_of_issues hi rfl)
  obtain ⟨x, -, rfl⟩ := gather_some hg
  exact ⟨rfl, rfl⟩

/-- What LDX does with the sixteen bytes of its access. -/
def ldxLoad (d : BitVec 5) (s : State) (x : Xl) : Eff :=
  .done (s.modMe fun t => t.result (some 1) [t.destG d (word (rdX s x 16)), t.destG (d + 1) (word (rdX s x 16 / 2 ^ 64))] 0)

theorem ldx_eff (h : Hdr) (d a b : BitVec 5) (sc : BitVec 3) (imm : BitVec 48) (o : Ops) (s : State) :
    (bodyLdx h d a b sc imm).eff o s = 
      ldxRegs d o (access s (o.a + (o.b <<< sc.toNat) + imm.signExtend 64) 16 .read false (ldxLoad d)) := rfl

/-- Settles O14. -/
theorem loadsRead : Obligations.LoadsRead := by
  unfold Obligations.LoadsRead
  refine ⟨?ld, ?ldx⟩
  case ld =>
    intro h d a b sz sx sc imm s s1 o hi va n
    refine ⟨fun hva => ?_, fun s2 x hva ht => ?_, fun s2 c x hva ht => ?_, fun s2 hva ht => ?_⟩
    · exact exec_trap hi rfl ((ld_eff hi).trans (access_misaligned hva))
    · have hs := threadAccess_answer ht
      have heff := (ld_eff hi).trans (access_ok hva ht)
      rw [rdX, hs.curCore] at heff
      exact ⟨hs.same, fun hfree => exec_done hi rfl (heff.trans (giveLoaded_free hfree _ _)),
        fun why key hwait => exec_wait hi rfl (heff.trans (giveLoaded_waits hwait _ _))⟩
    · exact exec_trap hi rfl ((ld_eff hi).trans (access_trap hva ht))
    · exact exec_wait hi rfl ((ld_eff hi).trans (access_wait hva ht))
  case ldx =>
    intro h d a b sc imm s s1 s2 o hi hva
    refine ⟨fun x ht => ?_, fun ht => ?_, fun c x ht => ?_⟩
    · have hs := threadAccess_answer ht
      refine ⟨hs.same, exec_done hi rfl ?_⟩
      rw [ldx_eff, access_ok (atomic := false) hva ht, ← hs.curCore]
      rfl
    · exact exec_wait hi rfl (by rw [ldx_eff, access_wait (atomic := false) hva ht]; rfl)
    · obtain ⟨hlow, hhigh⟩ := ldx_keeps_full hi
      rw [← hlow, ← hhigh]
      exact exec_trap hi rfl (by rw [ldx_eff, access_trap (atomic := false) hva ht]; rfl)

/-! ## The block of a vector load (R386) -/

/-- Bytes read in one go, in two parts. -/
theorem read_add (s : State) (die pa i m : Nat) : s.read die pa (i + m) = s.read die pa i + 256 ^ i * s.read die (pa + i) m := by
  induction i generalizing pa with
  | zero => simp [State.read]
  | succ i ih =>
    rw [Nat.add_right_comm, State.read, State.read, ih, show pa + 1 + i = pa + (i + 1) by omega]
    ring

/-- A part of what is read is what is read there. -/
theorem read_part (s : State) (die pa : Nat) {i m n : Nat} (h : i + m ≤ n) :
    s.read die pa n / 256 ^ i % 256 ^ m = s.read die (pa + i) m := by
  obtain ⟨j, rfl⟩ := Nat.exists_eq_add_of_le h
  rw [Nat.add_assoc, read_add, Nat.add_mul_div_left _ _ (Nat.pow_pos (by decide)), Nat.div_eq_of_lt (read_lt _ _ _ _), Nat.zero_add,
    read_add, Nat.add_mul_mod_self_left]
  exact Nat.mod_eq_of_lt (read_lt _ _ _ _)

theorem two_pow_bits (n i : Nat) : 2 ^ (8 * n * i) = 256 ^ (i * n) := by
  rw [show 8 * n * i = 8 * (i * n) by ring, Nat.pow_mul]

theorem szLane_cases : ∀ sz : BitVec 2, 2 ^ sz.toNat = 1 ∨ 2 ^ sz.toNat = 2 ∨ 2 ^ sz.toNat = 4 ∨ 2 ^ sz.toNat = 8 := by decide

/-- The lanes of a size fill the block. -/
theorem szLane_fits (sz : BitVec 2) {k : Nat} (hk : k < 512 / (8 * 2 ^ sz.toNat)) : k * 2 ^ sz.toNat + 2 ^ sz.toNat ≤ 64 := by
  rcases szLane_cases sz with h | h | h | h <;> rw [h] at hk ⊢ <;> omega

/-- A lane of a block that is read is what is read at the lane's place. -/
theorem lane_read (s : State) (die pa : Nat) (sz : BitVec 2) {k : Nat} (hk : k < 512 / (8 * 2 ^ sz.toNat)) :
    lane (BitVec.ofNat 512 (s.read die pa 64)) (8 * 2 ^ sz.toNat) k = s.read die (pa + k * 2 ^ sz.toNat) (2 ^ sz.toNat) := by
  have hlt : s.read die pa 64 < 2 ^ 512 := (read_lt s die pa 64).trans_eq (by rw [show 256 = 2 ^ 8 from rfl, ← Nat.pow_mul])
  rw [lane, bits_eq, BitVec.toNat_ofNat, Nat.mod_eq_of_lt hlt, two_pow_bits, Nat.pow_mul 2 8]
  exact read_part s die pa (szLane_fits sz hk)

theorem lane_mergeLanes (w : Nat) (m : Mask) (old new : Vec) {k : Nat} (hk : k < 512 / w) :
    lane (mergeLanes w m old new) w k = if laneOn w m k then lane new w k else lane old w k := by
  rw [mergeLanes, lane_ofLanes (by simp only [List.length_map, span_length]; exact mul_div_lanes w), List.getD_eq_getElem?_getD,
    List.getElem?_map, span_getElem?, if_pos hk, Nat.zero_add, Option.map_some, Option.getD_some]
  split <;> exact Nat.mod_eq_of_lt (lane_lt _ _ _)

/-- What a vector load makes of D: the active lanes from its block, the others as they were. -/
def vecLoaded (sz : BitVec 2) (o : Ops) (s : State) (pa : Nat) : Vec :=
  mergeLanes (8 * 2 ^ sz.toNat) o.ma o.vd (BitVec.ofNat 512 (s.read (dieOf s.curCore) pa 64))

theorem lane_vecLoaded (sz : BitVec 2) (o : Ops) (s : State) (pa : Nat) {k : Nat} (hk : k < 512 / (8 * 2 ^ sz.toNat)) :
    lane (vecLoaded sz o s pa) (8 * 2 ^ sz.toNat) k =
      if laneOn (8 * 2 ^ sz.toNat) o.ma k then s.read (dieOf s.curCore) (pa + k * 2 ^ sz.toNat) (2 ^ sz.toNat)
      else lane o.vd (8 * 2 ^ sz.toNat) k := by
  rw [vecLoaded, lane_mergeLanes _ _ _ _ hk, lane_read _ _ _ _ hk]

/-! ## Weight loads (R391) -/

/-- What a weight load does with its access, once its page is found and its store is open. -/
theorem weightAccess_found {s s2 : State} {va : Word} {n off : Nat} {x : Xl} {k : State → Xl → Eff} (hva : va.toNat % n = 0)
    (ht : translate s s.curCore s.myCtx s.me.user true va .read = (s2, .ok x)) (hk : kindOf x.pa = .ws off)
    (hopen : wsReadCheck s2 s2.myCtx (dieOf s2.curCore) off x.lvl = none) (hf : fenced s2 s2.myCtx (dieOf s2.curCore) x.pa x.pte = false)
    (hp : s2.poisoned (dieOf s2.curCore) x.pa n = false) :
    weightAccess s va n k = match s2.wsDelay s2.curCore s2.meReader x.pa n with
      | some u => .wait u .memory 0
      | none => k s2 x := by
  rw [weightAccess, if_neg (not_not.mpr hva), ht]
  simp only [hk, hopen, hf, hp, Bool.false_eq_true, if_false] <;> rfl

/-- Elsewhere it meets no weight store. -/
theorem weightAccess_elsewhere {s s2 : State} {va : Word} {n : Nat} {x : Xl} {k : State → Xl → Eff} (hva : va.toNat % n = 0)
    (ht : translate s s.curCore s.myCtx s.me.user true va .read = (s2, .ok x)) (hk : ∀ off, kindOf x.pa ≠ .ws off) :
    weightAccess s va n k = .trap s2 PAGEF va (word (xaux 3 x.lvl)) := by
  rw [weightAccess, if_neg (not_not.mpr hva), ht]
  dsimp only
  split
  · exact absurd (by assumption) (hk _)
  · rfl

/-- What LDW's effect is once it has issued. -/
theorem ldw_eff {h : Hdr} {d a b : BitVec 5} {sz : BitVec 2} {sx : Bool} {sc : BitVec 3} {imm : BitVec 48} {s s1 : State} {o : Ops}
    (hi : Issues (.ldw h d a b sz sx sc imm) s o s1) : (bodyLdw h d a b sz sx sc imm).eff o s1 =
      weightAccess s1 (o.a + (o.b <<< sc.toNat) + imm.signExtend 64) (2 ^ sz.toNat) fun s x =>
        giveLoaded s d (loadExt (rdX s x (2 ^ sz.toNat)) (2 ^ sz.toNat) sx) 0 := by
  show loading s1 d (fun s => weightAccess s (memAddr o sc imm) (szBytes sz) fun s x =>
    giveLoaded s d (loadExt (rdX s x (szBytes sz)) (szBytes sz) sx) 0) = _
  rw [loading_access (carry_of_issues hi)]
  rfl

/-- What a vector load does with its block. -/
def vecLoad (vd : BitVec 4) (sz : BitVec 2) (o : Ops) (s : State) (x : Xl) : Eff :=
  .done (s.modMe fun t => t.result (some 1) [.v vd (vecLoaded sz o s x.pa)] 0)

theorem loadVec_idle {sz : BitVec 2} {o : Ops} (h : activeCount (8 * 2 ^ sz.toNat) o.ma = 0) (vd : BitVec 4) (va : Word) (s : State)
    (acc : State → (State → Xl → Eff) → Eff) :
    loadVec vd sz va o s acc = .done (s.modMe fun t => t.result (some 1) [.v vd o.vd] 0) := if_pos h

theorem loadVec_access {sz : BitVec 2} {o : Ops} (h : activeCount (8 * 2 ^ sz.toNat) o.ma ≠ 0) (vd : BitVec 4) (va : Word) (s : State)
    (acc : State → (State → Xl → Eff) → Eff) : loadVec vd sz va o s acc = acc s (vecLoad vd sz o) := if_neg h

theorem ldv_eff (h : Hdr) (vd : BitVec 4) (a b : BitVec 5) (sz : BitVec 2) (mk sc : BitVec 3) (imm : BitVec 48) (o : Ops) (s : State) :
    (bodyLdv h vd a b sz mk sc imm).eff o s = loadVec vd sz (o.a + (o.b <<< sc.toNat) + imm.signExtend 64) o s fun s k =>
      access s (o.a + (o.b <<< sc.toNat) + imm.signExtend 64) 64 .read false k := rfl

theorem ldvw_eff (h : Hdr) (vd : BitVec 4) (a b : BitVec 5) (sz : BitVec 2) (mk sc : BitVec 3) (imm : BitVec 48) (o : Ops) (s : State) :
    (bodyLdvw h vd a b sz mk sc imm).eff o s = loadVec vd sz (o.a + (o.b <<< sc.toNat) + imm.signExtend 64) o s fun s k =>
      weightAccess s (o.a + (o.b <<< sc.toNat) + imm.signExtend 64) 64 k := rfl

/-- Settles O15. -/
theorem vectorAndWeightLoads : Obligations.VectorAndWeightLoads := by
  unfold Obligations.VectorAndWeightLoads
  refine ⟨?ldv, ?ldw, ?ldvwIdle, ?ldvw⟩
  case ldv =>
    intro h vd a b sz mk sc imm s s1 o hi va
    refine ⟨fun hidle => exec_done hi rfl (by rw [ldv_eff, loadVec_idle hidle]), fun s2 x hact hva ht => ?_⟩
    refine ⟨(threadAccess_answer ht).same, vecLoaded sz o s2 x.pa, exec_done hi rfl ?_, fun k hk => ?_⟩
    · rw [ldv_eff, loadVec_access hact, access_ok (atomic := false) hva ht]
      rfl
    · rw [← (threadAccess_answer ht).curCore]
      exact lane_vecLoaded sz o s2 x.pa hk
  case ldw =>
    intro h d a b sz sx sc imm s s1 o hi va n s2 x hva ht
    refine ⟨fun off hk hopen hf hp => ?_, fun hk => exec_trap hi rfl ((ldw_eff hi).trans (weightAccess_elsewhere hva ht hk))⟩
    have heff := (ldw_eff hi).trans (weightAccess_found hva ht hk hopen hf hp)
    refine ⟨fun hready hfree => exec_done hi rfl ?_, fun s3 hdelay => exec_wait hi rfl ?_⟩
    · rw [heff, hready]
      exact giveLoaded_free hfree _ _
    · rw [heff, hdelay]
  case ldvwIdle =>
    intro h vd a b sz mk sc imm s s1 o hi hidle
    exact exec_done hi rfl (by rw [ldvw_eff, loadVec_idle hidle])
  case ldvw =>
    intro h vd a b sz mk sc imm s s1 s2 o x off hi hact hva ht hk hopen hf hp hready
    refine ⟨vecLoaded sz o s2 x.pa, exec_done hi rfl ?_, fun k hk => lane_vecLoaded sz o s2 x.pa hk⟩
    rw [ldvw_eff, loadVec_access hact, weightAccess_found hva ht hk hopen hf hp, hready]
    rfl

end Sys2Proof.Machine
end

