-- ==== Sys2Proof/Proofs/Stores.lean ====
section
/-! SUPPORT. What a write of a thread changes, and the stores of the scalar and the vector forms with the bytes they leave (R88, R380, R384 to
R387): O16 and O17. -/

namespace Sys2Proof.Machine

/-! ## The write of one line (R88 to R91) -/

/-- What a write of a line can change: memory, the weight stores, poison, and the contexts' logs. -/
def StoreOnly (s t : State) : Prop := ∃ m w p c, t = { s with mem := m, ws := w, poison := p, ctxs := c }

theorem MemOnly.store {s t : State} (h : MemOnly s t) : StoreOnly s t := by
  obtain ⟨m, rfl⟩ := h
  exact ⟨m, _, _, _, rfl⟩

theorem StoreOnly.trans {s t u : State} (h : StoreOnly s t) (g : StoreOnly t u) : StoreOnly s u := by
  obtain ⟨_, _, _, _, rfl⟩ := h
  obtain ⟨m, w, p, c, rfl⟩ := g
  exact ⟨m, w, p, c, rfl⟩

theorem StoreOnly.me_eq {s t : State} (h : StoreOnly s t) : t.me = s.me := by
  obtain ⟨_, _, _, _, rfl⟩ := h
  rfl

theorem unpoison_store (s : State) (pa n : Nat) : StoreOnly s (s.unpoison pa n) := by
  unfold State.unpoison
  split <;> exact ⟨_, _, _, _, rfl⟩

@[simp] theorem unpoison_mem (s : State) (pa n : Nat) : (s.unpoison pa n).mem = s.mem := by
  unfold State.unpoison
  split <;> rfl

@[simp] theorem unpoison_ctxs (s : State) (pa n : Nat) : (s.unpoison pa n).ctxs = s.ctxs := by
  unfold State.unpoison
  split <;> rfl

/-- Bytes written where nothing is logged or held back. -/
def storeHere (s : State) (pa : Nat) (bs : List Byte) : State := (s.setBytes pa bs).unpoison pa bs.length

theorem storeHere_store (s : State) (pa : Nat) (bs : List Byte) : StoreOnly s (storeHere s pa bs) :=
  (setBytes_memOnly _ _ _).store.trans (unpoison_store _ _ _)

theorem storeHere_mem (s : State) (pa : Nat) (bs : List Byte) (p : Nat) : Tbl.get 0 (storeHere s pa bs).mem p =
    if pa ≤ p ∧ p < pa + bs.length then bs.getD (p - pa) 0 else Tbl.get 0 s.mem p := by
  rw [storeHere, unpoison_mem, getMem_setBytes]

theorem storeHere_ckpts (s : State) (pa : Nat) (bs : List Byte) (ctx : Nat) : (storeHere s pa bs).ckpts ctx = s.ckpts ctx := by
  rw [State.ckpts, State.ckpts, State.ctx?, State.ctx?, storeHere, unpoison_ctxs, setBytes_eq]

theorem ctxs_store (s : State) (x : List (Nat × Ctx)) : StoreOnly s { s with ctxs := x } := ⟨_, _, _, _, rfl⟩

theorem logLine_store {s t : State} {ctx pa : Nat} {pte : BitVec 64} (h : logLine s ctx pa pte = some t) : StoreOnly s t := by
  unfold logLine at h
  split at h
  · cases h; exact ⟨_, _, _, _, rfl⟩
  · split at h
    · split at h <;> cases h
      exact (ctxs_store s _).trans (((write_memOnly _ _ _ _).trans (write_memOnly _ _ _ _)).trans (writeEnds_memOnly _ _)).store
    · cases h; exact ⟨_, _, _, _, rfl⟩

theorem holdOut_store {s t : State} {ctx pa : Nat} {bs : List Byte} (h : holdOut s ctx pa bs = some t) : StoreOnly s t := by
  unfold holdOut at h
  split at h
  · cases h
  · split at h <;> cases h
    exact (ctxs_store s _).trans (putEntry_memOnly _ _ _ _).store

theorem storeLine_store {s t : State} {ctx die pa : Nat} {pte : BitVec 64} {bs : List Byte} (h : storeLine s ctx die pa pte bs = some t) :
    StoreOnly s t := by
  unfold storeLine at h
  split at h
  · cases h; exact ⟨_, _, _, _, rfl⟩
  · split at h
    · exact holdOut_store h
    · cases h; exact storeHere_store _ _ _
  · obtain ⟨u, hu, rfl⟩ := Option.map_eq_some_iff.mp h
    exact (logLine_store hu).trans (storeHere_store _ _ _)
  · cases h; exact storeHere_store _ _ _

/-- A context that does not checkpoint logs no line (R88). -/
theorem logLine_plain {s : State} {ctx : Nat} (h : s.ckpts ctx = false) (pa : Nat) (pte : BitVec 64) : logLine s ctx pa pte = some s := by
  unfold State.ckpts at h
  unfold logLine
  split
  · rfl
  · next hc =>
    rw [hc] at h
    dsimp only at h
    rw [h]
    rfl

/-- Nor does it hold back a write: outside the weight stores its bytes are written here. -/
theorem storeLine_plain {s : State} {ctx : Nat} (h : s.ckpts ctx = false) {pa : Nat} (hk : ∀ off, kindOf pa ≠ .ws off) (die : Nat)
    (pte : BitVec 64) (bs : List Byte) : storeLine s ctx die pa pte bs = some (storeHere s pa bs) := by
  unfold storeLine
  split
  · exact absurd (by assumption) (hk _)
  · rw [if_neg (by simp [h])]
    rfl
  · rw [logLine_plain h]
    rfl
  · rfl

/-- The kinds of memory that hold bytes of their own (DRAM, host memory and the scratchpads). -/
def Bytewise (pa : Nat) : Prop := kindOf pa = .dram ∨ kindOf pa = .host ∨ ∃ c k, kindOf pa = .spm c k

theorem range_of_ws {pa off : Nat} (h : kindOf pa = .ws off) : 0x4000000000 ≤ pa ∧ pa < 0x4100000000 := by
  unfold kindOf at h
  split_ifs at h with _ _ hws
  simpa only [Bool.and_eq_true, decide_eq_true_eq] using hws

theorem Bytewise.range {pa : Nat} (h : Bytewise pa) : pa < 0x3000000000 ∨ 0x5000000000 ≤ pa := by
  unfold Bytewise kindOf hostBit at h
  split_ifs at h with hdram hhost hws hspm hctr
  · exact .inl hdram
  · simp only [Bool.and_eq_true, decide_eq_true_eq] at hhost
    omega
  · simp at h
  · simp only [Bool.and_eq_true, decide_eq_true_eq] at hspm
    omega
  · simp at h
  · simp at h

/-- No weight store begins within a line of such an address. -/
theorem Bytewise.not_ws {pa p : Nat} (h : Bytewise pa) (hlo : pa ≤ p) (hhi : p < pa + 64) (off : Nat) : kindOf p ≠ .ws off := by
  intro hws
  obtain ⟨hfrom, hto⟩ := range_of_ws hws
  have hr := h.range
  omega

theorem ackOut_mem (s : State) (pa : Nat) : (ackOut s pa).mem = s.mem := by
  unfold ackOut
  split <;> rfl

theorem ackOut_registers (s : State) (pa : Nat) : (ackOut s pa).me.registers = s.me.registers := by
  unfold ackOut
  split
  · rw [me_modMe]; rfl
  · rfl

theorem AccessOnly.ckpts_eq {s t : State} (h : AccessOnly s t) : t.ckpts t.myCtx = s.ckpts s.myCtx := by
  rw [h.myCtx_eq, State.ckpts, State.ckpts, State.ctx?, State.ctx?, h.ctxs]

/-! ## Scalar stores (R384, R385) -/

/-- An instruction that stores the bytes `bs` at `va` has this effect. -/
def storeEff (va : Word) (bs : List Byte) (s : State) : Eff :=
  access s va bs.length .write false fun s x => putBytes s x bs fun s => .done s

theorem storeEff_ok {s s2 : State} {va : Word} {bs : List Byte} {x : Xl} (hva : va.toNat % bs.length = 0)
    (ht : threadAccess s va bs.length .write true = (s2, .ok x)) : storeEff va bs s =
      match storeLine s2 s.myCtx (dieOf s.curCore) x.pa x.pte bs with
      | none => .wait (s2.wantSeal s.myCtx) .memory 0
      | some u => .done (ackOut u x.pa) := by
  have hs := threadAccess_answer ht
  rw [storeEff, access_ok (atomic := false) hva ht, putBytes, hs.myCtx_eq, hs.curCore] <;> rfl

/-- What a thread that goes on after an instruction has kept. -/
theorem after_keeps {i : Instr} {b : Body} (hb : bodyOf i = some b) (s s2 : State) :
    (after i s s2).mem = s2.mem ∧ (after i s s2).me.registers = s2.me.registers := by
  rw [after_of_body hb]
  exact ⟨rfl, by rw [me_goOn]; rfl⟩

theorem store_follows {i : Instr} {b : Body} {s s1 s2 : State} {o : Ops} {va : Word} {bs : List Byte} {x : Xl} (hb : bodyOf i = some b)
    (hi : Issues i s o s1) (heff : b.eff o s1 = storeEff va bs s1) (hva : va.toNat % bs.length = 0)
    (ht : threadAccess s1 va bs.length .write true = (s2, .ok x)) :
    (∀ s3, storeLine s2 s1.myCtx (dieOf s1.curCore) x.pa x.pte bs = some s3 →
      exec i s = .next (after i s (ackOut s3 x.pa)) ∧
      (s1.ckpts s1.myCtx = false → (kindOf x.pa = .dram ∨ kindOf x.pa = .host ∨ ∃ c k, kindOf x.pa = .spm c k) →
        ∀ p, Tbl.get 0 (after i s (ackOut s3 x.pa)).mem p =
          if x.pa ≤ p ∧ p < x.pa + bs.length then bs.getD (p - x.pa) 0 else Tbl.get 0 s1.mem p) ∧
      (after i s (ackOut s3 x.pa)).me.registers = s1.me.registers) ∧
    (storeLine s2 s1.myCtx (dieOf s1.curCore) x.pa x.pte bs = none →
      exec i s = .next (afterWait i o s (s2.wantSeal s1.myCtx) .memory 0)) := by
  have hs := threadAccess_answer ht
  refine ⟨fun s3 hst => ⟨exec_done hi hb ?_, fun hck hk p => ?_, ?_⟩, fun hst => exec_wait hi hb ?_⟩
  · rw [heff, storeEff_ok hva ht, hst]
  · obtain ⟨hmem, -⟩ := after_keeps hb s (ackOut s3 x.pa)
    rw [storeLine_plain (hs.myCtx_eq ▸ hs.ckpts_eq.trans hck) (Bytewise.not_ws hk (Nat.le_refl _) (Nat.lt_add_of_pos_right (by decide)))] at hst
    rw [hmem, ackOut_mem, ← Option.some.inj hst, storeHere_mem, hs.mem]
  · obtain ⟨-, hreg⟩ := after_keeps hb s (ackOut s3 x.pa)
    rw [hreg, ackOut_registers, (storeLine_store hst).me_eq, hs.me_eq]
  · rw [heff, storeEff_ok hva ht, hst]

/-- Settles O16. -/
theorem storesWrite : Obligations.StoresWrite := by
  unfold Obligations.StoresWrite
  intro i s s1 s2 o va bs x hcase hi hva ht
  rcases hcase with ⟨h, d, a, b, sz, sc, imm, rfl, rfl, rfl⟩ | ⟨h, d, a, b, sc, imm, rfl, rfl, rfl⟩
  · refine store_follows rfl hi ?_ hva ht
    rw [storeEff, bytesOf_length]
    rfl
  · exact store_follows rfl hi rfl hva ht

/-! ## The block of a vector store (R386) -/

theorem mem_activeLanes {w : Nat} {m : Mask} {i : Nat} : i ∈ activeLanes w m ↔ i < 512 / w ∧ laneOn w m i = true := by
  rw [activeLanes, List.mem_filter, mem_span]
  simp

/-- With every lane active, each of them is on. -/
theorem laneOn_of_full {w : Nat} {m : Mask} (h : activeCount w m = 512 / w) {i : Nat} (hi : i < 512 / w) : laneOn w m i = true := by
  have hlen : ((span 0 (512 / w)).filter (laneOn w m)).length = (span 0 (512 / w)).length := h.trans (span_length _ _).symm
  exact List.length_filter_eq_length_iff.mp hlen i (mem_span.mpr ⟨Nat.zero_le _, by omega⟩)

/-- A byte of a lane is a byte of its register. -/
theorem byte_of_lane (v : Vec) {n j : Nat} (i : Nat) (hj : j < n) :
    BitVec.ofNat 8 (lane v (8 * n) i / 256 ^ j) = BitVec.ofNat 8 (v.toNat / 256 ^ (i * n + j)) := by
  apply BitVec.eq_of_toNat_eq
  obtain ⟨k, rfl⟩ : ∃ k, n = j + (k + 1) := ⟨n - j - 1, by omega⟩
  rw [BitVec.toNat_ofNat, BitVec.toNat_ofNat, lane, bits_eq, two_pow_bits, Nat.pow_mul 2 8, Nat.pow_add _ j, Nat.mod_mul_right_div_self,
    Nat.div_div_eq_div_mul, ← Nat.pow_add]
  exact Nat.mod_mod_of_dvd _ (Dvd.intro_left _ (Nat.pow_succ (n := 256) (m := k)).symm)

theorem StoreOnly.myCtx_eq {s t : State} (h : StoreOnly s t) : t.myCtx = s.myCtx := by
  obtain ⟨_, _, _, _, rfl⟩ := h
  rfl

/-- The lanes of a list stored one after the other where nothing is logged: each has its own bytes. -/
theorem putLanes_mem {s t : State} {x : Xl} {n : Nat} {v : Vec} {l : List Nat} (hck : s.ckpts s.myCtx = false) (hx : Bytewise x.pa)
    (hl : ∀ i ∈ l, i * n + n ≤ 64) (hn : 0 < n) (h : putLanes s x (8 * n) v l = some t) (p : Nat) : Tbl.get 0 t.mem p =
      if x.pa ≤ p ∧ p < x.pa + 64 ∧ (p - x.pa) / n ∈ l then BitVec.ofNat 8 (v.toNat / 256 ^ (p - x.pa)) else Tbl.get 0 s.mem p := by
  induction l generalizing s with
  | nil =>
    cases h
    simp
  | cons i r ih =>
    have hi := hl i List.mem_cons_self
    have hst := storeLine_plain hck (pa := x.pa + i * n) (Bytewise.not_ws hx (by omega) (by omega)) (dieOf s.curCore) x.pte
      (bytesOf (lane v (8 * n) i) n)
    rw [putLanes, Nat.mul_div_cancel_left n (by decide), hst] at h
    have hctx := (storeHere_store s (x.pa + i * n) (bytesOf (lane v (8 * n) i) n)).myCtx_eq
    rw [ih (by rw [hctx, storeHere_ckpts, hck]) (fun j hj => hl j (List.mem_cons_of_mem i hj)) h, storeHere_mem, bytesOf_length]
    by_cases hp : x.pa ≤ p ∧ p < x.pa + 64
    · obtain ⟨d, rfl⟩ := Nat.exists_eq_add_of_le hp.1
      have hlane : d / n = i ↔ i * n ≤ d ∧ d < i * n + n := by
        rw [Nat.div_eq_iff hn]
        omega
      rw [Nat.add_sub_cancel_left]
      by_cases hd : d / n = i
      · have hin := hlane.mp hd
        have hbyte : (bytesOf (lane v (8 * n) i) n).getD (x.pa + d - (x.pa + i * n)) 0 = BitVec.ofNat 8 (v.toNat / 256 ^ d) := by
          rw [bytesOf_getD _ _ (by omega), byte_of_lane v i (by omega)]
          congr 3
          omega
        rw [if_pos (show x.pa + i * n ≤ x.pa + d ∧ x.pa + d < x.pa + i * n + n by omega), hbyte, ite_self,
          if_pos ⟨hp.1, hp.2, hd ▸ List.mem_cons_self⟩]
      · have hout : ¬ (x.pa + i * n ≤ x.pa + d ∧ x.pa + d < x.pa + i * n + n) := fun hin => hd (hlane.mpr (by omega))
        rw [if_neg hout]
        exact if_congr (and_congr_right fun _ => and_congr_right fun _ => (List.mem_cons.trans (or_iff_right hd)).symm) rfl rfl
    · rw [if_neg (by omega), if_neg (by omega), if_neg (by omega)]

/-- What STV makes of its block: one write where every lane is active, and one for each active lane elsewhere. -/
def stvStore (sz : BitVec 2) (o : Ops) (s : State) (x : Xl) : Option State :=
  if activeCount (8 * 2 ^ sz.toNat) o.ma = 512 / (8 * 2 ^ sz.toNat) then
    storeLine s s.myCtx (dieOf s.curCore) x.pa x.pte (bytesOf o.vd.toNat 64)
  else putLanes s x (8 * 2 ^ sz.toNat) o.vd (activeLanes (8 * 2 ^ sz.toNat) o.ma)

theorem stv_eff (h : Hdr) (vd : BitVec 4) (a b : BitVec 5) (sz : BitVec 2) (mk sc : BitVec 3) (imm : BitVec 48) (o : Ops) (s : State) :
    (bodyStv h vd a b sz mk sc imm).eff o s =
      if activeCount (8 * 2 ^ sz.toNat) o.ma = 0 then .done s
      else access s (o.a + (o.b <<< sc.toNat) + imm.signExtend 64) 64 .write false fun s x => match stvStore sz o s x with
        | none => .wait (s.wantSeal s.myCtx) .memory 0
        | some u => .done (ackOut u x.pa) := by
  show (if _ then _ else access _ _ _ _ _ fun s x => _) = _
  congr 2
  funext s x
  by_cases hfull : activeCount (8 * 2 ^ sz.toNat) o.ma = 512 / (8 * 2 ^ sz.toNat)
  · rw [stvStore, if_pos hfull, szLane, szBytes, if_pos hfull] <;> rfl
  · rw [stvStore, if_neg hfull, szLane, szBytes, if_neg hfull] <;> rfl

/-- The bytes of a block after STV, where nothing is logged: those of the active lanes are new. -/
theorem stvStore_mem {sz : BitVec 2} {o : Ops} {s t : State} {x : Xl} (hck : s.ckpts s.myCtx = false) (hx : Bytewise x.pa)
    (h : stvStore sz o s x = some t) (p : Nat) : Tbl.get 0 t.mem p =
      if x.pa ≤ p ∧ p < x.pa + 64 ∧ laneOn (8 * 2 ^ sz.toNat) o.ma ((p - x.pa) / 2 ^ sz.toNat) then
        BitVec.ofNat 8 (o.vd.toNat / 256 ^ (p - x.pa))
      else Tbl.get 0 s.mem p := by
  have hlane {d : Nat} (hd : d < 64) : d / 2 ^ sz.toNat < 512 / (8 * 2 ^ sz.toNat) := by
    rcases szLane_cases sz with h | h | h | h <;> rw [h] <;> omega
  unfold stvStore at h
  split at h
  · next hfull =>
    rw [storeLine_plain hck (hx.not_ws (Nat.le_refl _) (Nat.lt_add_of_pos_right (by decide)))] at h
    rw [← Option.some.inj h, storeHere_mem, bytesOf_length]
    by_cases hp : x.pa ≤ p ∧ p < x.pa + 64
    · rw [if_pos hp, if_pos ⟨hp.1, hp.2, laneOn_of_full hfull (hlane (by omega))⟩]
      exact bytesOf_getD _ _ (by omega)
    · rw [if_neg hp, if_neg (fun hin => hp ⟨hin.1, hin.2.1⟩)]
  · rw [putLanes_mem hck hx (fun i hi => szLane_fits sz (mem_activeLanes.mp hi).1) (Nat.two_pow_pos _) h p]
    refine if_congr (and_congr_right fun _ => and_congr_right fun hp => ?_) rfl rfl
    exact mem_activeLanes.trans (and_iff_right (hlane (by omega)))

/-! ## One lane of a scatter (R387) -/

theorem laneBudget_all {s : State} (h : ∀ n r, s.agenda ≠ .part n :: r) (n : Nat) : laneBudget s n = (s, n) := by
  unfold laneBudget
  split
  · exact absurd (by assumption) (h _ _)
  · rfl

/-- Where the agenda says nothing, a try may perform every lane, and begins with the first where none has been performed. -/
theorem laneRun_all {one : State → Nat → Vec → (State × Vec) ⊕ Eff} {l : List Nat} {v : Vec} {s : State}
    (h : ∀ n r, s.agenda ≠ .part n :: r) (hl : s.me.lanes = none) : laneRun one l v s = laneSteps one l.length l s 0 v := by
  rw [laneRun, laneBudget_all h]
  dsimp only
  rw [hl]
  rfl

theorem laneRun_idle {one : State → Nat → Vec → (State × Vec) ⊕ Eff} {v : Vec} {s : State} (h : ∀ n r, s.agenda ≠ .part n :: r) :
    laneRun one [] v s = .inl (s.modMe fun t => { t with lanes := none }, (s.me.lanes.getD (0, v)).2) := by
  rw [laneRun, laneBudget_all h]
  dsimp only
  rw [List.drop_nil, laneSteps]

/-- What SCAT's effect is once it has issued. -/
theorem scat_eff (h : Hdr) (vd : BitVec 4) (a : BitVec 5) (vb : BitVec 4) (sz : BitVec 2) (mk sc : BitVec 3) (imm : BitVec 48) (o : Ops)
    (s : State) : (bodyScat h vd a vb sz mk sc imm).eff o s =
      match laneRun (scatLane o (8 * 2 ^ sz.toNat) sc imm) (activeLanes (8 * 2 ^ sz.toNat) o.ma) 0 s with
      | .inr e => e
      | .inl (s, _) => .done s := rfl

theorem laneAccess_ok {s s2 : State} {va : Word} {n i : Nat} {acc : Acc} {x : Xl} (hva : va.toNat % n = 0)
    (ht : threadAccess s va n acc true = (s2, .ok x)) : laneAccess s va n i acc = (s2, .inl x) := by
  rw [laneAccess, if_neg (not_not.mpr hva), ht]

theorem laneAccess_trap {s s2 : State} {va : Word} {n i : Nat} {acc : Acc} {c a : Nat} (hva : va.toNat % n = 0)
    (ht : threadAccess s va n acc true = (s2, .trap c a)) :
    laneAccess s va n i acc = (s2, .inr (.trap s2 c va (word (a + i * 65536)))) := by
  rw [laneAccess, if_neg (not_not.mpr hva), ht]

theorem szLane_bytes (sz : BitVec 2) : 8 * 2 ^ sz.toNat / 8 = 2 ^ sz.toNat := Nat.mul_div_cancel_left _ (by decide)

/-- A scatter of one lane that is stored. -/
theorem scat_one {s s2 s3 : State} {o : Ops} {sz : BitVec 2} {sc : BitVec 3} {imm : BitVec 48} {k : Nat} {x : Xl}
    (hact : activeLanes (8 * 2 ^ sz.toNat) o.ma = [k]) (hlanes : s.me.lanes = none) (hpart : ∀ n r, s.agenda ≠ .part n :: r)
    (hva : (o.a + (word (lane o.vb (8 * 2 ^ sz.toNat) k) <<< sc.toNat) + imm.signExtend 64).toNat % 2 ^ sz.toNat = 0)
    (ht : threadAccess s (o.a + (word (lane o.vb (8 * 2 ^ sz.toNat) k) <<< sc.toNat) + imm.signExtend 64) (2 ^ sz.toNat) .write true =
      (s2, .ok x))
    (hst : storeLine s2 s2.myCtx (dieOf s2.curCore) x.pa x.pte (bytesOf (lane o.vd (8 * 2 ^ sz.toNat) k) (2 ^ sz.toNat)) = some s3) :
    laneRun (scatLane o (8 * 2 ^ sz.toNat) sc imm) (activeLanes (8 * 2 ^ sz.toNat) o.ma) 0 s =
      .inl ((ackOut s3 x.pa).modMe fun t => { t with lanes := none }, 0) := by
  have hone : scatLane o (8 * 2 ^ sz.toNat) sc imm s k 0 = .inl (ackOut s3 x.pa, 0) := by
    have hacc : laneAccess s (gatherVA o (8 * 2 ^ sz.toNat) false sc imm k) (8 * 2 ^ sz.toNat / 8) k .write = (s2, .inl x) := by
      rw [szLane_bytes]
      exact laneAccess_ok hva ht
    rw [scatLane, hacc, szLane_bytes]
    simp only [hst]
  rw [laneRun_all hpart hlanes, hact]
  show laneSteps _ 1 [k] s 0 0 = _
  rw [laneSteps]
  simp only [hone]
  rfl

/-- Settles O17. -/
theorem vectorStores : Obligations.VectorStores := by
  unfold Obligations.VectorStores
  refine ⟨fun h vd a b sz mk sc imm s s1 o hi => ⟨fun hidle => ?_, fun s2 s3 x hact hva ht hst => ?_, fun s2 x hact hva ht hst => ?_⟩,
    fun h vd a vb sz mk sc imm s s1 o hi => ⟨fun s2 v hrun => ?_, fun s2 why key hrun => ?_, fun hidle hpart => ?_,
      fun k s2 s3 x hact hlanes hpart hva ht hst => ?_⟩⟩
  · exact exec_done hi rfl (by rw [stv_eff, if_pos hidle])
  · have hst : stvStore sz o s2 x = some s3 := hst
    have heff : (bodyStv h vd a b sz mk sc imm).eff o s1 = .done (ackOut s3 x.pa) := by
      rw [stv_eff, if_neg hact, access_ok (atomic := false) hva ht, hst]
    refine ⟨exec_done hi rfl heff, fun hck hk p => ?_⟩
    have hs := threadAccess_answer ht
    obtain ⟨hmem, -⟩ := after_keeps (i := .stv h vd a b sz mk sc imm) rfl s (ackOut s3 x.pa)
    rw [hmem, ackOut_mem, stvStore_mem (hs.ckpts_eq.trans hck) hk hst, hs.mem]
  · have hst : stvStore sz o s2 x = none := hst
    exact exec_wait hi rfl (by rw [stv_eff, if_neg hact, access_ok (atomic := false) hva ht, hst])
  · exact exec_done hi rfl (by rw [scat_eff, hrun])
  · exact exec_wait hi rfl (by rw [scat_eff, hrun])
  · refine exec_done hi rfl ?_
    rw [scat_eff, hidle, laneRun_idle hpart]
  · refine ⟨exec_done hi rfl (by rw [scat_eff, scat_one hact hlanes hpart hva ht hst]), fun hck hk p => ?_⟩
    have hs := threadAccess_answer ht
    rw [storeLine_plain (hs.ckpts_eq.trans hck) (Bytewise.not_ws hk (Nat.le_refl _) (Nat.lt_add_of_pos_right (by decide)))] at hst
    rw [ackOut_mem, ← Option.some.inj hst, storeHere_mem, bytesOf_length, hs.mem]
    split
    · exact bytesOf_getD _ _ (by omega)
    · rfl

end Sys2Proof.Machine
end

