-- ==== Sys2Proof/Proofs/GatherAtomics.lean ====
section
/-! SUPPORT. The lanes of a gather, and the atomics (R387 to R390): O18 and O19. -/

namespace Sys2Proof.Machine

/-! ## The lanes of a gather (R387) -/

theorem SameBytes.trans {s t u : State} (h : SameBytes s t) (g : SameBytes t u) : SameBytes s u := ⟨g.1.trans h.1, g.2.trans h.2⟩

theorem sameBytes_modMe (s : State) (f : Thread → Thread) : SameBytes s (s.modMe f) := ⟨rfl, rfl⟩

/-- The state in which a lane's access answers. -/
def LaneAnswer (s : State) : Xl ⊕ Eff → Prop
  | .inr (.wait t _ _) => SameBytes s t
  | _ => True

theorem laneAccess_answer {s s2 : State} {va : Word} {n i : Nat} {acc : Acc} {r : Xl ⊕ Eff} (h : laneAccess s va n i acc = (s2, r)) :
    SameBytes s s2 ∧ LaneAnswer s r := by
  unfold laneAccess at h
  split at h
  · cases h
    exact ⟨⟨rfl, rfl⟩, trivial⟩
  · split at h <;> rename_i _ ht <;> cases h
    · exact ⟨(threadAccess_answer ht).same, trivial⟩
    · exact ⟨(threadAccess_answer ht).same, trivial⟩
    · exact ⟨(threadAccess_answer ht).same, (threadAccess_answer ht).same⟩

section
variable {one : State → Nat → Vec → (State × Vec) ⊕ Eff}

theorem laneSteps_nil (b : Nat) (s : State) (k : Nat) (v : Vec) :
    laneSteps one b [] s k v = .inl (s.modMe fun t => { t with lanes := none }, v) := by
  cases b <;> rfl

theorem laneSteps_left (i : Nat) (r : List Nat) (s : State) (k : Nat) (v : Vec) :
    laneSteps one 0 (i :: r) s k v = .inr (.wait (s.modMe fun t => { t with lanes := some (k, v) }) .memory 0) := rfl

theorem laneSteps_cons (b i : Nat) (r : List Nat) (s : State) (k : Nat) (v : Vec) :
    laneSteps one (b + 1) (i :: r) s k v = match one s i v with
      | .inl (s, v) => laneSteps one b r s (k + 1) v
      | .inr (.wait s why key) => .inr (.wait (s.modMe fun t => { t with lanes := some (k, v) }) why key)
      | .inr e => .inr e := rfl

end

section
variable {o : Ops} {w : Nat} {sx : Bool} {sc : BitVec 3} {imm : BitVec 48}

theorem gathLane_inl {s s2 : State} {i : Nat} {v v2 : Vec} (h : gathLane o w sx sc imm s i v = .inl (s2, v2)) :
    SameBytes s s2 ∧ ∃ x, v2 = setFld v (w * i) w x := by
  unfold gathLane at h
  split at h
  · cases h
  · next hacc =>
    cases h
    exact ⟨(laneAccess_answer hacc).1, _, by rw [Nat.mul_comm]⟩

theorem gathLane_wait {s s2 : State} {i : Nat} {v : Vec} {why : ParkWhy} {key : Nat}
    (h : gathLane o w sx sc imm s i v = .inr (.wait s2 why key)) : SameBytes s s2 := by
  unfold gathLane at h
  split at h
  · next hacc =>
    cases h
    exact (laneAccess_answer hacc).2
  · cases h

/-- A gather changes no byte of memory, whether its lanes are all performed or one waits. -/
theorem gathSteps_same {budget : Nat} {l : List Nat} {s : State} {k : Nat} {v : Vec} :
    (∀ s2 v2, laneSteps (gathLane o w sx sc imm) budget l s k v = .inl (s2, v2) → SameBytes s s2) ∧
    ∀ s2 why key, laneSteps (gathLane o w sx sc imm) budget l s k v = .inr (.wait s2 why key) → SameBytes s s2 := by
  induction l generalizing budget s k v with
  | nil =>
    rw [laneSteps_nil]
    refine ⟨fun s2 v2 h => ?_, fun s2 why key h => nomatch h⟩
    cases h
    exact sameBytes_modMe _ _
  | cons i r ih =>
    cases budget with
    | zero =>
      refine ⟨fun s2 v2 h => (nomatch h), fun s2 why key h => ?_⟩
      cases h
      exact sameBytes_modMe _ _
    | succ b =>
      rw [laneSteps_cons]
      split
      · next hone =>
        obtain ⟨hsame, -⟩ := gathLane_inl hone
        obtain ⟨hall, hwait⟩ := ih (budget := b)
        exact ⟨fun s2 v2 h => hsame.trans (hall s2 v2 h), fun s2 why key h => hsame.trans (hwait s2 why key h)⟩
      · next hone =>
        refine ⟨fun s2 v2 h => (nomatch h), fun s2 why key h => ?_⟩
        cases h
        exact (gathLane_wait hone).trans (sameBytes_modMe _ _)
      · next hno _ => exact ⟨fun s2 v2 h => (nomatch h), fun s2 why key h => absurd (Sum.inr.inj h) (hno s2 why key)⟩

/-- The lanes that a gather does not load stay. -/
theorem gathSteps_keeps {budget : Nat} {l : List Nat} {s s2 : State} {k : Nat} {v v2 : Vec} {j : Nat} (hl : ∀ i ∈ l, w * (i + 1) ≤ 512)
    (hj : w * (j + 1) ≤ 512) (hjl : j ∉ l) (h : laneSteps (gathLane o w sx sc imm) budget l s k v = .inl (s2, v2)) :
    lane v2 w j = lane v w j := by
  induction l generalizing budget s k v with
  | nil =>
    rw [laneSteps_nil] at h
    cases h
    rfl
  | cons i r ih =>
    cases budget with
    | zero => cases h
    | succ b =>
      rw [laneSteps_cons] at h
      split at h
      · next hone =>
        obtain ⟨-, x, rfl⟩ := gathLane_inl hone
        rw [ih (fun i hi => hl i (List.mem_cons_of_mem _ hi)) (List.not_mem_of_not_mem_cons hjl) h,
          lane_setFld (hl i List.mem_cons_self) _ _ hj, if_neg (List.ne_of_not_mem_cons hjl)]
      · cases h
      · cases h

end

theorem laneBudget_keeps (s : State) (n : Nat) :
    SameBytes s (laneBudget s n).1 ∧ (laneBudget s n).1.me = s.me := by
  unfold laneBudget
  split <;> exact ⟨⟨rfl, rfl⟩, rfl⟩

/-- A try of the lanes begins in a state with the bytes and the thread of its own. -/
theorem laneRun_steps (one : State → Nat → Vec → (State × Vec) ⊕ Eff) (l : List Nat) (v : Vec) (s : State) :
    ∃ b t, SameBytes s t ∧ laneRun one l v s =
      laneSteps one b (l.drop (s.me.lanes.getD (0, v)).1) t (s.me.lanes.getD (0, v)).1 (s.me.lanes.getD (0, v)).2 := by
  obtain ⟨hsame, hme⟩ := laneBudget_keeps s l.length
  refine ⟨(laneBudget s l.length).2, (laneBudget s l.length).1, hsame, ?_⟩
  rw [laneRun, ← hme]

theorem gath_eff (h : Hdr) (vd : BitVec 4) (a : BitVec 5) (vb : BitVec 4) (sz : BitVec 2) (sx : Bool) (mk sc : BitVec 3)
    (imm : BitVec 48) (o : Ops) (s : State) : (bodyGath h vd a vb sz sx mk sc imm).eff o s =
      match laneRun (gathLane o (8 * 2 ^ sz.toNat) sx sc imm) (activeLanes (8 * 2 ^ sz.toNat) o.ma) o.vd s with
      | .inr e => e
      | .inl (s, v) => .done (s.modMe fun t => t.result (some 1) [.v vd v] 0) := rfl

theorem szLane_lane_fits (sz : BitVec 2) {k : Nat} (hk : k < 512 / (8 * 2 ^ sz.toNat)) : 8 * 2 ^ sz.toNat * (k + 1) ≤ 512 := by
  have h := szLane_fits sz hk
  have e : 8 * 2 ^ sz.toNat * (k + 1) = 8 * (k * 2 ^ sz.toNat + 2 ^ sz.toNat) := by ring
  omega

/-- Settles O18. -/
theorem gatherReads : Obligations.GatherReads := by
  unfold Obligations.GatherReads
  intro h vd a vb sz sx mk sc imm s s1 o hi
  dsimp only
  rw [szLane_bytes]
  refine ⟨fun s2 v hrun => ?_, fun s2 why key hrun => ?_, fun k s2 x va hact hlanes hpart hva hal ht => ?_,
    fun k r s2 c x va hact hlanes hpart hva hal ht => ?_⟩
  · obtain ⟨b, t, hst, hsteps⟩ := laneRun_steps (gathLane o (8 * 2 ^ sz.toNat) sx sc imm) (activeLanes (8 * 2 ^ sz.toNat) o.ma) o.vd s1
    rw [hsteps] at hrun
    refine ⟨hst.trans (gathSteps_same.1 s2 v hrun), exec_done hi rfl (by rw [gath_eff, hsteps, hrun]), fun hlanes k hk hoff => ?_⟩
    rw [hlanes] at hrun
    refine gathSteps_keeps (fun i hi => szLane_lane_fits sz (mem_activeLanes.mp hi).1) (szLane_lane_fits sz hk) (fun hin => ?_) hrun
    exact Bool.false_ne_true (hoff.symm.trans (mem_activeLanes.mp hin).2)
  · refine ⟨?_, exec_wait hi rfl (by rw [gath_eff, hrun])⟩
    obtain ⟨b, t, hst, hsteps⟩ := laneRun_steps (gathLane o (8 * 2 ^ sz.toNat) sx sc imm) (activeLanes (8 * 2 ^ sz.toNat) o.ma) o.vd s1
    exact hst.trans (gathSteps_same.2 s2 why key (hsteps ▸ hrun))
  · subst hva
    have hk : k < 512 / (8 * 2 ^ sz.toNat) := (mem_activeLanes.mp (hact ▸ List.mem_singleton_self k)).1
    have hone : gathLane o (8 * 2 ^ sz.toNat) sx sc imm s1 k o.vd =
        .inl (s2, setFld o.vd (8 * 2 ^ sz.toNat * k) (8 * 2 ^ sz.toNat) (rdX s2 x (2 ^ sz.toNat))) := by
      rw [gathLane, szLane_bytes, laneAccess_ok hal ht, Nat.mul_comm k]
    refine ⟨setFld o.vd (8 * 2 ^ sz.toNat * k) (8 * 2 ^ sz.toNat) (rdX s2 x (2 ^ sz.toNat)),
      s2.modMe fun t => { t with lanes := none }, sameBytes_modMe _ _, exec_done hi rfl ?_, fun j hj => ?_⟩
    · rw [gath_eff, laneRun_all hpart hlanes, hact, List.length_singleton, laneSteps_cons]
      simp only [hone]
      rfl
    · rw [lane_setFld (szLane_lane_fits sz hk) _ _ (szLane_lane_fits sz hj), Nat.mod_eq_of_lt, rdX]
      exact (read_lt _ _ _ _).trans_eq (by rw [Nat.pow_mul])
  · subst hva
    have hone : gathLane o (8 * 2 ^ sz.toNat) sx sc imm s1 k o.vd =
        .inr (.trap s2 c (gatherVA o (8 * 2 ^ sz.toNat) sx sc imm k) (word (x + k * 65536))) := by
      rw [gathLane, szLane_bytes, laneAccess_trap hal ht]
    refine exec_trap hi rfl ?_
    rw [gath_eff, laneRun_all hpart hlanes, hact, List.length_cons, laneSteps_cons]
    simp only [hone]

/-! ## The atomics (R388 to R390) -/

/-- An atomic whose access is allowed, and whose destination takes a word: the old value returns, and the new one is stored. -/
theorem atomic_done {s s2 s3 : State} {d : BitVec 5} {sz : BitVec 2} {sx : Bool} {va : Word} {f : Nat → Option Nat × BitVec 5} {x : Xl}
    (hc : s.me.carry = none) (hva : va.toNat % 2 ^ sz.toNat = 0) (ht : threadAccess s va (2 ^ sz.toNat) .write false = (s2, .ok x))
    (hst : storeLine s2 s2.myCtx (dieOf s2.curCore) x.pa x.pte
      (bytesOf ((f (s2.read (dieOf s2.curCore) x.pa (2 ^ sz.toNat))).1.getD (s2.read (dieOf s2.curCore) x.pa (2 ^ sz.toNat)))
        (2 ^ sz.toNat)) = some s3)
    (hg : giveWait (ackOut s3 x.pa) d = none) :
    atomicEff d sz sx va f s = .done (giveG (ackOut s3 x.pa) (some 1) d
      (loadExt (s2.read (dieOf s2.curCore) x.pa (2 ^ sz.toNat)) (2 ^ sz.toNat) sx)
      (f (s2.read (dieOf s2.curCore) x.pa (2 ^ sz.toNat))).2) := by
  rw [atomicEff, loading_access hc, szBytes, access_ok (atomic := true) hva ht]
  dsimp only
  rw [rdX, putBytes, hst]
  exact giveLoaded_free hg _ _

/-- The low bytes of a number do not depend on what is above them. -/
theorem bytesOf_mod (v n : Nat) : bytesOf (v % 2 ^ (8 * n)) n = bytesOf v n := by
  refine List.ext_getElem (by rw [bytesOf_length, bytesOf_length]) fun k hk hk' => ?_
  rw [bytesOf_length] at hk
  rw [← List.getD_eq_getElem (d := 0), ← List.getD_eq_getElem (d := 0), bytesOf_getD _ _ hk, bytesOf_getD _ _ hk]
  apply BitVec.eq_of_toNat_eq
  obtain ⟨m, rfl⟩ : ∃ m, n = k + (m + 1) := ⟨n - k - 1, by omega⟩
  rw [BitVec.toNat_ofNat, BitVec.toNat_ofNat, Nat.pow_mul 2 8, Nat.pow_add, Nat.mod_mul_right_div_self]
  exact Nat.mod_mod_of_dvd _ (Dvd.intro_left _ (Nat.pow_succ (n := 256) (m := m)).symm)

/-- Settles O19. -/
theorem atomicsUpdate : Obligations.AtomicsUpdate := by
  unfold Obligations.AtomicsUpdate
  refine ⟨?integer, ?acas, ?afadd⟩
  case integer =>
    intro i h d a b sz sx imm f s s1 s2 s3 o x n m hcase hi hva ht v hst hg
    have done {g : Nat → Nat → Nat → Nat} {b' : Body} (hb : bodyOf i = some b')
        (he : ∀ o s, b'.eff o s = (atomicBody h d a b sz sx imm g).eff o s)
        (hgf : bytesOf (g (8 * n) v (o.b.toNat % m)) n = bytesOf (f v (o.b.toNat % m)) n) :
        exec i s = .next (after i s (giveG (ackOut s3 x.pa) (some 1) d (loadExt v n sx) 0)) :=
      exec_done hi hb ((he o s1).trans (atomic_done (f := fun v => (some (g (8 * n) v (o.b.toNat % m)), 0)) (carry_of_issues hi) hva ht
        (by rw [← hst, ← hgf]; rfl) hg))
    rcases hcase with ⟨rfl, rfl⟩ | ⟨rfl, rfl⟩ | ⟨rfl, rfl⟩ | ⟨rfl, rfl⟩ | ⟨rfl, rfl⟩ | ⟨rfl, rfl⟩ | ⟨rfl, rfl⟩
    · exact done (g := fun _ v b => v + b) rfl (fun _ _ => rfl) (bytesOf_mod _ _).symm
    · exact done (g := fun _ v b => v &&& b) rfl (fun _ _ => rfl) rfl
    · exact done (g := fun _ v b => v ||| b) rfl (fun _ _ => rfl) rfl
    · exact done (g := fun _ v b => v ^^^ b) rfl (fun _ _ => rfl) rfl
    · exact done (g := fun _ _ b => b) rfl (fun _ _ => rfl) rfl
    · exact done (g := fun w v b => if leqBy sx w v b then v else b) rfl (fun _ _ => rfl) rfl
    · exact done (g := fun w v b => if leqBy sx w v b then b else v) rfl (fun _ _ => rfl) rfl
  case acas =>
    intro h d a b c sz sx imm s s1 s2 s3 o x n hi hva ht v hst hg
    refine exec_done hi rfl (atomic_done (f := fun v => (if v = o.b.toNat % 2 ^ (8 * n) then some o.c.toNat else none, 0))
      (carry_of_issues hi) hva ht ?_ hg)
    rw [← hst]
    show storeLine _ _ _ _ _ (bytesOf ((if v = o.b.toNat % 2 ^ (8 * n) then some o.c.toNat else none).getD v) n) = _
    split <;> rfl
  case afadd =>
    intro h d a b sz rm imm s s1 s2 s3 o x n fm hi hva ht v r hst hg
    exact exec_done hi rfl (atomic_done (f := fun v => (some (addF fm (fmode rm o) v (o.b.toNat % 2 ^ fm.width)).1,
      (addF fm (fmode rm o) v (o.b.toNat % 2 ^ fm.width)).2)) (carry_of_issues hi) hva ht hst hg)

end Sys2Proof.Machine
end

