-- ==== Sys2Proof/Proofs/StreamStatus.lean ====
section
/-! SUPPORT. Binding and draining a stream register, the status words, and QBIND and EMPTY (R394 to R400): O20 and O21. -/

namespace Sys2Proof.Machine

/-! ## Draining and binding a stream register (R394, R396) -/

/-- What SDRAIN makes of the answer of a drain. -/
def drainEff : Drained → Eff
  | .ok s => .done s
  | .wait s => .wait s .memory 0
  | .stopped s f => .trap s f.cause.toNat f.addr f.aux

theorem sdrain_eff (h : Hdr) (a : BitVec 5) (o : Ops) {s : State} {r : Drained} (hd : drainStream s a.toNat = r) :
    (bodySdrain h a).eff o s = drainEff r := by
  show (match drainStream s a.toNat with | .wait s => _ | .stopped s f => _ | .ok s => _) = _
  rw [hd]
  cases r <;> rfl

theorem sbind_eff (h : Hdr) (d : BitVec 5) (blk : BitVec 384) {o : Ops} {s s2 : State} (hd : drainStream s d.toNat = .ok s2) :
    (bodySbind h d blk).eff o s = sbindEff d.toNat o.rcd s2 := by
  show (match drainStream s d.toNat with | .wait s => _ | .stopped s f => _ | .ok s => _) = _
  rw [hd]

theorem sbindEff_fields {s : State} {d : BitVec 320} (h : sdFieldsOk s d = false) (r : Nat) : sbindEff r d s = .trap s PARAM 0 0 := by
  rw [sbindEff, if_pos (by rw [h]; rfl)]

theorem sbindEff_unaligned {s : State} {d : BitVec 320} (hf : sdFieldsOk s d = true) (h : sdAligned d = false) (r : Nat) :
    sbindEff r d s = .trap s MISALIGN (vaOf (sdBase d)) 0 := by
  rw [sbindEff, if_neg (by simp [hf]), if_pos (by rw [h]; rfl)]

theorem sbindEff_bound {s s3 : State} {d : BitVec 320} {l ix : List (Nat × Nat × Nat × BitVec 64)} (hf : sdFieldsOk s d = true)
    (ha : sdAligned d = true) (hp : sdPieces s d = (.ok l, .ok ix)) (hh : ((l ++ ix).all fun p => holdable p.2.1) = true)
    (hr : register s.fresh.2 (holdsOf (if bit d 52 then 7 else 6) s.fresh.1 s.myCtx (bit d 52) (joinPieces l) ++
      holdsOf 6 s.fresh.1 s.myCtx false (joinPieces ix)) = .ok s3) (r : Nat) :
    sbindEff r d s = .done (s3.modStream r fun _ =>
      ⟨d, 0, true, false, [], none, s.fresh.1, latchPages (l ++ ix), false, s3.me.user⟩) := by
  rw [sbindEff, if_neg (by simp [hf]), if_neg (by simp [ha]), hp]
  dsimp only
  rw [if_neg (by simp only [hh]; decide), hr]

/-- The address of an unaligned record, as the statement spells it. -/
theorem vaOf_sdBase (d : BitVec 320) : vaOf (sdBase d) = word ((sint (d.toNat % 2 ^ 48) 48) % 2 ^ 64).toNat := by
  rw [sdBase, fld_eq]
  simp only [pow_zero, Nat.div_one]
  rfl

/-- Settles O20. -/
theorem streamsBindAndDrain : Obligations.StreamsBindAndDrain := by
  unfold Obligations.StreamsBindAndDrain
  refine ⟨fun h a s s1 o hi => ⟨fun s2 hd => ?_, fun s2 hd => ?_, fun s2 f hd => ?_⟩,
    fun h d blk s s1 s2 o hi hd => ⟨fun hf => ?_, fun hf ha => ?_, fun l ix s3 hf ha hp hh hr => ?_⟩⟩
  · exact exec_done hi rfl (sdrain_eff h a o hd)
  · exact exec_wait hi rfl (sdrain_eff h a o hd)
  · exact exec_trap hi rfl (sdrain_eff h a o hd)
  · exact exec_trap hi rfl ((sbind_eff h d blk hd).trans (sbindEff_fields hf _))
  · rw [← vaOf_sdBase]
    exact exec_trap hi rfl ((sbind_eff h d blk hd).trans (sbindEff_unaligned hf ha _))
  · exact exec_done hi rfl ((sbind_eff h d blk hd).trans (sbindEff_bound hf ha hp hh hr _))

/-! ## The status words (R397, R399, R421, R437, R443, R449) -/

theorem b2n_mul (b : Bool) (n : Nat) : b2n b * n = if b then n else 0 := by
  cases b
  · exact Nat.zero_mul n
  · exact Nat.one_mul n

theorem sstatWord_eq (b : StreamBind) : sstatWord b = if b.bound = false ∧ b.stopped = false then 0
    else word (b.total - b.count + (if b.bound then 2 ^ 33 else 0) + (if b.isWrite then 2 ^ 34 else 0) +
      (if b.stopped then 2 ^ 35 else 0)) := by
  rw [sstatWord, b2n_mul, b2n_mul, b2n_mul]
  simp only [Bool.and_eq_true, Bool.not_eq_true']

theorem featWord_eq (n : BitVec 8) : featWord n.toNat = if n = 0 then 0x201 else if n = 1 then 0xFFF else 0 := by
  have hn (k : Nat) (hk : k < 2 ^ 8) : n.toNat = k ↔ n = BitVec.ofNat 8 k := by
    rw [BitVec.toNat_eq, BitVec.toNat_ofNat, Nat.mod_eq_of_lt hk]
  rw [featWord]
  simp only [hn 0 (by decide), hn 1 (by decide)]
  rfl

theorem pqry_eff {s : State} {port : BitVec 2} {p own : Nat} {far : Bool} (hp : myPress s port = some (p, far, own)) (h : Hdr)
    (d : BitVec 5) (tag : BitVec 8) (o : Ops) :
    (bodyPqry h d port tag).eff o s = effG (some 1) d (fun _ => (pqryWord (s.press p) far tag, 0)) o s := pressBody_eff hp _ _ _ _ _

theorem cpyst_eff (h : Hdr) (d a : BitVec 5) (o : Ops) (s : State) :
    (bodyCpyst h d a).eff o s = effG (some 1) d (fun _ => (cpystWord s o.a, 0)) o s := by
  show effG (some 1) d (fun o => (cpystWord s o.a, 0)) o s = _
  unfold effG
  rfl

/-- An instruction whose effect in this state gives one general result at once gives it, or waits until its destination takes it. -/
theorem exec_word {i : Instr} {b : Body} {s s1 : State} {o : Ops} {d : BitVec 5} {v : Word} (hb : bodyOf i = some b)
    (hi : Issues i s o s1) (he : b.eff o s1 = effG (some 1) d (fun _ => (v, 0)) o s1) :
    (giveWait s1 d = none → exec i s = .next (after i s (giveG s1 (some 1) d v 0))) ∧
    ∀ why key, giveWait s1 d = some (why, key) → exec i s = .next (afterWait i o s s1 why key) :=
  ⟨fun h => exec_done hi hb (by rw [he, effG_none h]), fun _ _ h => exec_wait hi hb (by rw [he, effG_some h])⟩

/-! ## QBIND and EMPTY (R398, R400) -/

theorem qbindEff_plain {imm : BitVec 48} (h : imm.toNat % 16 ≠ 5) (d : BitVec 5) (o : Ops) (s : State) :
    qbindEff d imm o s = .done (s.setQ d.toNat (qbindWord imm o.a s)) := by
  refine if_neg fun hk => h ?_
  rw [fld_eq] at hk
  omega

theorem qbindEff_path {imm : BitVec 48} (h : imm.toNat % 16 = 5) (d : BitVec 5) (o : Ops) (s : State) : qbindEff d imm o s =
    access s (ownVA (16 * fld imm 6 14)) 16 .read false fun s _ => .done (s.setQ d.toNat (qbindWord imm o.a s)) := by
  refine if_pos ?_
  rw [fld_eq]
  omega

/-- TB's address is a multiple of 16. -/
theorem ownVA_aligned (k : Nat) : (ownVA (16 * k)).toNat % 16 = 0 := by
  rw [ownVA, word, BitVec.toNat_ofNat, Nat.mod_mod_of_dvd _ (by decide)]
  omega

theorem isFull_emptyReg_destG_ne {t : Thread} {r : BitVec 5} {v : Word} {k : Nat} (h : k ≠ r.toNat) :
    (t.emptyReg (t.destG r v)).isFull k = t.isFull k := by
  cases hy : t.isY r.toNat with
  | true =>
    rw [destG_of_isY hy]
    rfl
  | false =>
    rw [destG_of_not_isY hy, Thread.emptyReg]
    split
    · rfl
    · exact isFull_setFull_ne t h _

/-- The bits of y0 to y3 that emptying a specifier leaves. -/
theorem yfull_emptyReg_destG_ne {t : Thread} {r : BitVec 5} {v : Word} {k : Nat} (h : r.toNat ≠ 10 + k) :
    (t.emptyReg (t.destG r v)).yfull.getLsbD k = t.yfull.getLsbD k := by
  cases hy : t.isY r.toNat with
  | true =>
    obtain ⟨h10, h13⟩ := isY_bounds hy
    rw [destG_of_isY hy]
    refine getLsbD_setFld_bit_ne _ ?_ _
    rw [BitVec.toNat_ofNat]
    omega
  | false =>
    rw [destG_of_not_isY hy, Thread.emptyReg]
    split <;> rfl

/-- Settles O21. -/
theorem statusWordsAndQbind : Obligations.StatusWordsAndQbind := by
  unfold Obligations.StatusWordsAndQbind
  refine ⟨?words, ?qbind, ?empty⟩
  case words =>
    intro i h d v s s1 o hcase hi
    rcases hcase with ⟨a, rfl, hv⟩ | ⟨a, rfl, rfl⟩ | ⟨port, tag, p, far, own, rfl, hp, rfl⟩ | ⟨a, rfl, rfl⟩ | ⟨n, rfl, rfl⟩ | ⟨n, rfl, rfl⟩
    · rw [hv.trans (sstatWord_eq (s1.stream a.toNat)).symm]
      exact exec_word rfl hi rfl
    · exact exec_word rfl hi rfl
    · exact exec_word rfl hi (pqry_eff hp h d tag o)
    · exact exec_word rfl hi (cpyst_eff h d a o s1)
    · rw [← featWord_eq n]
      exact exec_word rfl hi rfl
    · exact exec_word rfl hi rfl
  case qbind =>
    intro h d a imm s s1 o hi
    refine ⟨fun hk => exec_done hi rfl (qbindEff_plain hk d o s1), fun s2 x hk ht => exec_done hi rfl ?_⟩
    exact (qbindEff_path hk d o s1).trans (access_ok (atomic := false) (ownVA_aligned _) ht)
  case empty =>
    intro h d s s1 o hi hd
    refine ⟨_, exec_done hi rfl rfl, (onlyMine_modMe _ _).trans (goOn_only _ _ _ _), ?_⟩
    rw [after_of_body (b := bodyEmpty h d) rfl, me_goOn, me_modMe]
    exact ⟨emptyReg_registers _ _, fullG_emptyReg_destG _ _ hd, fun k hk => isFull_emptyReg_destG_ne hk,
      fun k _ hk => yfull_emptyReg_destG_ne hk⟩

end Sys2Proof.Machine
end

