-- ==== Sys2Proof/Proofs/EventsDeques.lean ====
section
/-! SUPPORT. Event flags, buffer flags, work items and the range deques (R408 to R412): O24 and O25. -/

namespace Sys2Proof.Machine

/-! ## Event flags and buffer flags (R408, R409) -/

theorem sev_eff (h : Hdr) (a : BitVec 5) (e : BitVec 4) (o : Ops) (s : State) : (bodySev h a e).eff o s =
    if targetHeld s o.a then .wait s .message 0
    else .done (setEvent s s.myCtx (o.a.toNat % 4096) (o.a.toNat / 4096 % 8) e.toNat) := by
  have hcore : fld o.a 0 12 = o.a.toNat % 4096 := by rw [fld_eq, pow_zero, Nat.div_one]; rfl
  have hslot : fld o.a 12 3 = o.a.toNat / 4096 % 8 := fld_eq _ _ _
  rw [← hcore, ← hslot]
  rfl

theorem wev_eff (h : Hdr) (e : BitVec 4) (o : Ops) (s : State) : (bodyWev h e).eff o s =
    if s.me.csr.tstat.getLsbD (32 + e.toNat) then .done (s.modMe fun t => t.setTstat (32 + e.toNat) 1 0) else .wait s .event 0 := rfl

theorem after_crewCore {i : Instr} {b : Body} (hb : bodyOf i = some b) (s s2 : State) (n lc : Nat) :
    (after i s s2).crewCore n lc = s2.crewCore n lc := by
  rw [after_of_body hb]
  rfl

/-- The buffer flag of the own core is set. -/
def freeBuffer (e : BitVec 4) (s : State) : State :=
  s.modCrewCore s.me.ref.crew s.me.ref.lcore fun c => { c with bf := setFld c.bf e.toNat 1 1 }

theorem bfree_eff (h : Hdr) (e : BitVec 4) (o : Ops) (s : State) : (bodyBfree h e).eff o s = .done (freeBuffer e s) := rfl

/-! ## Work items (R412) -/

theorem itemEff_eq {s : State} {o : Ops} {q : GQueue} (hq : s.gqueue? s.myGraph o.a.toNat = some q) (heos : q.eos = false) :
    itemEff o s = if s.gqFull s.myGraph o.a.toNat || someoneFirst s (keyItem s.myGraph o.a.toNat) then
      .wait s .message (keyItem s.myGraph o.a.toNat) else .done (gqPush s s.myGraph o.a.toNat o.item) := by
  rw [itemEff, hq]
  exact if_neg (by simp [heos])

/-- After the token a push stops at issue. -/
theorem itemStop_eos {s : State} {o : Ops} {q : GQueue} (ha : o.a.toNat < 65536) (hmine : gqMine s s.myGraph o.a.toNat = true)
    (hq : s.gqueue? s.myGraph o.a.toNat = some q) (heos : q.eos = true) : itemStop o s = some (paramStop o.a.toNat) := by
  rw [itemStop, if_neg (by simp [ha, hmine]), hq]
  exact if_pos heos

theorem gather_of_chk {b : Body} {s s' : State} {o : Ops} {st : Stop} (hr : b.readOps s = .ok (o, s'))
    (hd : firstStop (Dst.stop s) b.dsts = none) (hc : b.chk o s = some st) : b.gather s = .error st := by
  rw [Body.gather, hr]
  simp only [Body.late, hd, hc]

/-- Settles O24. -/
theorem eventsBuffersAndItems : Obligations.EventsBuffersAndItems := by
  unfold Obligations.EventsBuffersAndItems
  refine ⟨?sev, ?wev, ?bfree, ?item, ?eos, ?stops⟩
  case sev =>
    intro h a e s s1 o hi
    exact ⟨fun hheld => exec_done hi rfl ((sev_eff h a e o s1).trans (if_neg (ne_true_of_eq_false hheld))),
      fun hheld => exec_wait hi rfl ((sev_eff h a e o s1).trans (if_pos hheld))⟩
  case wev =>
    intro h e s s1 o hi
    refine ⟨fun hset => ?_, fun hclear => exec_wait hi rfl ((wev_eff h e o s1).trans (if_neg (ne_true_of_eq_false hclear)))⟩
    refine ⟨_, exec_done hi rfl ((wev_eff h e o s1).trans (if_pos hset)), (onlyMine_modMe _ _).trans (goOn_only _ _ _ _), ?_⟩
    rw [after_of_body (b := bodyWev h e) rfl, me_goOn, me_modMe]
    exact ⟨getLsbD_setFld_bit _ (by omega) 0, rfl⟩
  case bfree =>
    intro h e s s1 o hi
    obtain ⟨hmem, hregs⟩ := after_keeps (i := .bfree h e) rfl s (freeBuffer e s1)
    refine ⟨_, exec_done hi rfl (bfree_eff h e o s1), hmem, hregs, fun c hc => ?_⟩
    rw [after_crewCore (b := bodyBfree h e) rfl, freeBuffer, crewCore_modCrewCore_same hc]
    exact getLsbD_setFld_bit _ (by omega) 1
  case item =>
    intro h a s s1 o q hi hq
    refine ⟨fun heos hroom hfirst => exec_done hi rfl ((itemEff_eq hq heos).trans (if_neg (by simp [hroom, hfirst]))),
      fun heos hfull => exec_wait hi rfl ((itemEff_eq hq heos).trans (if_pos (by simp [hfull])))⟩
  case eos => exact fun h a s s1 o hi => exec_done hi rfl rfl
  case stops =>
    intro i h a b s s' o q hcase hb hearly hguard hon hr ha hmine hq heos
    have hstop := itemStop_eos ha hmine hq heos
    rcases hcase with rfl | rfl
    · obtain rfl : bodyItem h a = b := Option.some.inj hb
      exact exec_of_gather_error (b := bodyItem h a) rfl hearly hguard hon
        (gather_of_chk hr rfl ((congrArg (orStop · _) hstop).trans rfl))
    · obtain rfl : bodyItemEos h a = b := Option.some.inj hb
      exact exec_of_gather_error (b := bodyItemEos h a) rfl hearly hguard hon (gather_of_chk hr rfl hstop)

/-! ## The range deques (R410, R411) -/

/-- What one deque instruction makes of its header `q` and its array at `at_`, once both have passed their checks. -/
def dequeRun (d : BitVec 5) (q : Deque) (pa at_ : Nat) (r : DqOp) (s : State) : Eff :=
  match (r.rd ++ r.wr.map (·.1)).find? fun k => (q.entryVA k).toNat % 8 ≠ 0 with
  | some k => .trap s MISALIGN (q.entryVA k) 0
  | none =>
    match (r.rd ++ r.wr.map (·.1)).findSome? fun k => (holdHit s (q.entry at_ k) 8 .write).map fun h => (k, h) with
    | some (k, h) => .trap s RHLD (q.entryVA k) (word (rhldAux h false))
    | none => giveLoaded ((r.wr.foldl (fun s w => s.write (q.entry at_ w.1) 8 w.2) s).write (pa + 16) 8 (r.head + r.tail * 2 ^ 32)) d
        (word r.d) 0

section Header

variable {s s2 : State} {d : BitVec 5} {imm : BitVec 48} {f : Deque → (Nat → Nat) → Nat → DqOp} {o : Ops} {x : Xl} {core off : Nat}
variable (hc : s.me.carry = none) (hva : (o.a + imm.signExtend 64).toNat % 64 = 0)
variable (ht : threadAccess s (o.a + imm.signExtend 64) 64 .write false = (s2, .ok x)) (hk : kindOf x.pa = .spm core off)

include hc hva ht hk

theorem dequeEff_bad (h : (readDeque s2 x.pa).ok = false) : dequeEff d imm f o s = .trap s2 PARAM 0 0 := by
  rw [dequeEff, loading_access hc, imm48, access_ok (atomic := true) hva ht, if_neg (by rw [spmCore, hk]; exact Bool.false_ne_true)]
  exact if_pos (by rw [h]; rfl)

theorem dequeEff_run {arr : Nat} (h : (readDeque s2 x.pa).ok = true) (ha : dequeArray s2 (readDeque s2 x.pa) x.pa = some arr) :
    dequeEff d imm f o s = dequeRun d (readDeque s2 x.pa) x.pa arr
      (f (readDeque s2 x.pa) (fun k => s2.read 0 ((readDeque s2 x.pa).entry arr k) 8) o.b.toNat) s2 := by
  rw [dequeEff, loading_access hc, imm48, access_ok (atomic := true) hva ht, if_neg (by rw [spmCore, hk]; exact Bool.false_ne_true)]
  dsimp only
  rw [if_neg (by simp [h]), ha]
  rfl

end Header

/-- An entry of an aligned array is aligned, and one of another is not. -/
theorem entryVA_mod (q : Deque) (k : Nat) : (q.entryVA k).toNat % 8 = q.ent.toNat % 8 := by
  rw [Deque.entryVA, word, BitVec.toNat_add, BitVec.toNat_ofNat]
  omega

theorem dequeRun_aligned {q : Deque} (h : q.ent.toNat % 8 = 0) {s : State} (hh : s.holds = []) (d : BitVec 5) (pa arr : Nat) (r : DqOp) :
    dequeRun d q pa arr r s = giveLoaded
      ((r.wr.foldl (fun s w => s.write (q.entry arr w.1) 8 w.2) s).write (pa + 16) 8 (r.head + r.tail * 2 ^ 32)) d (word r.d) 0 := by
  have hfit : (r.rd ++ r.wr.map (·.1)).find? (fun k => decide ((q.entryVA k).toNat % 8 ≠ 0)) = none := by
    simp [List.find?_eq_none, entryVA_mod, h]
  have hfree : ((r.rd ++ r.wr.map (·.1)).findSome? fun k => (holdHit s (q.entry arr k) 8 .write).map fun h => (k, h)) = none := by
    simp [List.findSome?_eq_none_iff, holdHit, hh]
  rw [dequeRun, hfit]
  dsimp only
  rw [hfree]

theorem dequeRun_unaligned {q : Deque} (h : q.ent.toNat % 8 ≠ 0) {r : DqOp} {k : Nat} {l : List Nat} (hr : r.rd ++ r.wr.map (·.1) = k :: l)
    (s : State) (d : BitVec 5) (pa arr : Nat) : dequeRun d q pa arr r s = .trap s MISALIGN (q.entryVA k) 0 := by
  rw [dequeRun, hr, List.find?_cons_of_pos (by simpa [entryVA_mod] using h)]

theorem rLo_eq (b : Nat) : rLo b = b % 2 ^ 32 := by rw [rLo, bits_eq, pow_zero, Nat.div_one]
theorem rHi_eq (b : Nat) : rHi b = b / 2 ^ 32 % 2 ^ 32 := bits_eq _ _ _

theorem dqPush_cases (q : Deque) (e : Nat → Nat) (b : Nat) :
    (b % 2 ^ 32 ≥ b / 2 ^ 32 % 2 ^ 32 → dqPush q e b = ⟨1, q.head, q.tail, [], []⟩) ∧
    (b % 2 ^ 32 < b / 2 ^ 32 % 2 ^ 32 → q.n = q.cap → dqPush q e b = ⟨0, q.head, q.tail, [], []⟩) ∧
    (b % 2 ^ 32 < b / 2 ^ 32 % 2 ^ 32 → q.n ≠ q.cap → dqPush q e b = ⟨1, q.head, (q.tail + 1) % 2 ^ 32, [(q.tail, b)], []⟩) := by
  rw [dqPush, rLo_eq, rHi_eq]
  exact ⟨fun h => if_pos h, fun h hn => by rw [if_neg (not_le.mpr h), if_pos hn],
    fun h hn => by rw [if_neg (not_le.mpr h), if_neg hn]⟩

/-- An empty deque has nothing to pop, steal or split. -/
theorem dq_empty {q : Deque} (hn : q.n = 0) (e : Nat → Nat) (b : Nat) : dqPop q e b = ⟨0, q.head, q.tail, [], []⟩ ∧
    dqSteal q e b = ⟨0, q.head, q.tail, [], []⟩ ∧ dqSplit q e b = ⟨0, q.head, q.tail, [], []⟩ := by
  simp [dqPop, dqSteal, dqSplit, hn]

theorem dq_whole {q : Deque} (hn : q.n ≠ 0) (e : Nat → Nat) {b : Nat} (hb : b % 2 ^ 32 = 0) :
    dqPop q e b = ⟨e ((q.tail + 2 ^ 32 - 1) % 2 ^ 32), q.head, (q.tail + 2 ^ 32 - 1) % 2 ^ 32, [], [(q.tail + 2 ^ 32 - 1) % 2 ^ 32]⟩ ∧
    dqSteal q e b = ⟨e q.head, (q.head + 1) % 2 ^ 32, q.tail, [], [q.head]⟩ := by
  have hc : rLo b = 0 := (rLo_eq b).trans hb
  refine ⟨(if_neg hn).trans (if_pos ?_), (if_neg hn).trans (if_neg ?_)⟩
  · rw [hc]
    rfl
  · rw [hc]
    exact Bool.false_ne_true

/-- Settles O25. -/
theorem dequesOperate : Obligations.DequesOperate := by
  unfold Obligations.DequesOperate
  refine ⟨?access, fun q e b => ?ops⟩
  case ops =>
    obtain ⟨hnone, hfull, hput⟩ := dqPush_cases q e b
    exact ⟨hnone, hfull, hput, fun hn => dq_empty hn e b, fun hn hb => dq_whole hn e hb⟩
  case access =>
    intro i h d a b imm f s s1 s2 o x core off hcase hi hva ht hk
    obtain ⟨b', hb, heff⟩ : ∃ b', bodyOf i = some b' ∧ b'.eff = dequeEff d imm f := by
      rcases hcase with ⟨rfl, rfl⟩ | ⟨rfl, rfl⟩ | ⟨rfl, rfl⟩ | ⟨rfl, rfl⟩ <;> exact ⟨_, rfl, rfl⟩
    have hc := carry_of_issues hi
    refine ⟨fun hok => exec_trap hi hb (by rw [heff, dequeEff_bad hc hva ht hk hok]; rfl),
      fun arr hok ha hh => ⟨fun h8 hg => exec_done hi hb ?_, fun k l h8 hr => exec_trap hi hb ?_⟩⟩
    · rw [heff, dequeEff_run hc hva ht hk hok ha, dequeRun_aligned h8 hh, giveLoaded_free hg]
    · rw [heff, dequeEff_run hc hva ht hk hok ha, dequeRun_unaligned h8 hr]
      rfl

end Sys2Proof.Machine
end

