-- ==== Sys2Proof/Proofs/PactIssue.lean ====
section
/-! SUPPORT. A half joins the rendezvous table of its press, or resumes the pact that its end has suspended (R225, R417): O26. -/

namespace Sys2Proof.Machine

/-- An end's own operand fault is no cause of a pact's suspension any more. -/
def clearFault (far : Bool) (id : Nat) (x : PressEntry) : PressEntry :=
  if x.id ≠ id then x
  else { x with causes := if far = x.leadFar then { x.causes with faultA := false } else { x.causes with faultB := false } }

/-- The press with that cause taken from the pact. -/
def resumePact (p : Nat) (far : Bool) (id : Nat) (s : State) : State :=
  s.modPress p fun q => { q with queue := q.queue.map (clearFault far id) }

/-- A half enters the table under a pact's number, and its thread joins the pact. -/
def joinHalf (op : PressOp) (p : Nat) (far : Bool) (tag : BitVec 8) (o : Ops) (id : Nat) (s : State) : State :=
  (joinPact s p far tag id).modPress p fun q => { q with
    halves := q.halves ++ [⟨op, o.rcd, far, tag, (joinPact s p far tag id).me.ref, scaleFactor op o.rcd o.a, id⟩]
    past := q.past.filter fun x => !(x.1 = far && x.2.tag = tag) }

section
variable {op : PressOp} {port : BitVec 2} {tag : BitVec 8} {o : Ops} {s : State} {p own : Nat} {far : Bool}
variable (hp : myPress s port = some (p, far, own))

include hp

theorem pactEff_resume {e : PressEntry} (h : suspended (s.press p) far tag o.rcd = some e) : pactEff op port tag o s =
    .hold (resumePact p far e.id s) .pact e.id := by
  rw [pactEff, hp]
  dsimp only
  rw [h] <;> rfl

theorem pactEff_full (h : suspended (s.press p) far tag o.rcd = none) (hf : tableFull (s.press p) tag = true) :
    pactEff op port tag o s = .wait s .pressQueue 0 := by
  rw [pactEff, hp]
  dsimp only
  rw [h]
  exact if_pos (by rw [hf, Bool.or_true])

/-- A half joins under the number of the other end's half, or under a fresh one. -/
theorem pactEff_join (h : suspended (s.press p) far tag o.rcd = none) (hf : tableFull (s.press p) tag = false)
    (hd : dupHalf (s.press p) far tag = false) : ∃ id s', (s' = s ∨ s' = s.fresh.2) ∧
      pactEff op port tag o s = .hold (joinHalf op p far tag o id s') .pact id := by
  rw [pactEff, hp]
  dsimp only
  rw [h]
  dsimp only
  rw [if_neg (by rw [hd, hf]; exact Bool.false_ne_true)]
  cases (s.press p).halves.find? fun h => decide (h.far ≠ far) && decide (h.tag = tag) with
  | some h => exact ⟨h.id, s, .inl rfl, rfl⟩
  | none => exact ⟨s.fresh.1, s.fresh.2, .inr rfl, rfl⟩

end

theorem joinHalf_joins (op : PressOp) (p : Nat) (far : Bool) (tag : BitVec 8) (o : Ops) (id : Nat) (s : State) :
    (joinHalf op p far tag o id s).mem = s.mem ∧ (joinHalf op p far tag o id s).me.registers = s.me.registers ∧
    ((joinHalf op p far tag o id s).press p).halves =
      (s.press p).halves ++ [⟨op, o.rcd, far, tag, s.me.ref, scaleFactor op o.rcd o.a, id⟩] ∧
    ((joinHalf op p far tag o id s).press p).queue = (s.press p).queue := by
  have hme : (joinPact s p far tag id).me.registers = s.me.registers ∧ (joinPact s p far tag id).me.ref = s.me.ref := by
    rw [joinPact, me_modMe]
    exact ⟨rfl, rfl⟩
  obtain ⟨hregs, href⟩ := hme
  rw [joinHalf, press_modPress_same, href]
  exact ⟨rfl, hregs, rfl, rfl⟩

/-- Settles O26. -/
theorem pactsJoin : Obligations.PactsJoin := by
  unfold Obligations.PactsJoin
  intro i h op port tag blk s s1 o p far own hcase hi hp
  obtain ⟨b, hb, heff⟩ : ∃ b, bodyOf i = some b ∧ b.eff = pactEff op port tag := by
    rcases hcase with ⟨rfl, rfl⟩ | ⟨rfl, rfl⟩ | ⟨rfl, rfl⟩ <;> exact ⟨_, rfl, rfl⟩
  refine ⟨fun hsusp hfull hdup => ?join, fun hsusp hfull _ => ?full, fun e hsusp => ?resume⟩
  case join =>
    obtain ⟨id, s', hs', he⟩ := pactEff_join (op := op) hp hsusp hfull hdup
    obtain ⟨hmem, hregs, hhalves, hqueue⟩ := joinHalf_joins op p far tag o id s'
    refine ⟨joinHalf op p far tag o id s', id, exec_hold hi hb (by rw [heff, he]), ?_⟩
    rcases hs' with rfl | rfl <;> exact ⟨hmem, hregs, hhalves, hqueue⟩
  case full => exact exec_wait hi hb (by rw [heff, pactEff_full hp hsusp hfull])
  case resume =>
    refine ⟨resumePact p far e.id s1, exec_hold hi hb (by rw [heff, pactEff_resume hp hsusp]), rfl, ?_⟩
    rw [resumePact, press_modPress_same]
    exact ⟨rfl, rfl⟩

end Sys2Proof.Machine
end

