-- ==== Sys2Proof/Proofs/PressWaits.lean ====
section
/-! SUPPORT. Waiting for a pact, cancelling it in each of its states, and PORD (R420, R422, R427): O27. -/

namespace Sys2Proof.Machine

/-! ## Waiting (R420) -/

theorem waitsOn_empty {t : Thread} {s : State} {press : Nat} {tag : BitVec 8}
    (h : ∀ j ∈ t.joined, j.press = press → j.tag = tag → pactLive s j.pact = false) : (t.waitsOn s press tag).isEmpty = true := by
  rw [Thread.waitsOn, List.isEmpty_iff, List.map_eq_nil_iff, List.filter_eq_nil_iff]
  intro j hj hlive
  simp only [Bool.and_eq_true, decide_eq_true_eq] at hlive
  obtain ⟨⟨hpress, htag⟩, hl⟩ := hlive
  exact Bool.false_ne_true ((h j hj hpress htag).symm.trans hl)

theorem waitsOn_live {t : Thread} {s : State} {press : Nat} {tag : BitVec 8}
    (h : ∃ j ∈ t.joined, j.press = press ∧ j.tag = tag ∧ pactLive s j.pact = true) : (t.waitsOn s press tag).isEmpty = false := by
  obtain ⟨j, hj, hpress, htag, hl⟩ := h
  have hin : j.pact ∈ t.waitsOn s press tag :=
    List.mem_map.mpr ⟨j, List.mem_filter.mpr ⟨hj, by simp [hpress, htag, hl]⟩, rfl⟩
  exact List.isEmpty_eq_false_iff.mpr (List.ne_nil_of_mem hin)

theorem pwait_eff {s : State} {port : BitVec 2} {p own : Nat} {far : Bool} (hp : myPress s port = some (p, far, own)) (h : Hdr)
    (tag : BitVec 8) (o : Ops) : (bodyPwait h port tag).eff o s =
      if (s.me.waitsOn s p tag).isEmpty then .done s else .wait s .press (keyTag p tag) := pressBody_eff hp _ _ _ _ _

theorem pabt_eff {s : State} {port : BitVec 2} {p own : Nat} {far : Bool} (hp : myPress s port = some (p, far, own)) (h : Hdr)
    (tag : BitVec 8) (o : Ops) : (bodyPabt h port tag).eff o s = pabtEff tag p far o s := pressBody_eff hp _ _ _ _ _

/-! ## PABT by the state of the newest pact (Table 18.4) -/

/-- The mark of an entry of a gang. -/
def PressEntry.mark (g : Nat) (x : PressEntry) : PressEntry := if x.gang = g && x.op.isPact then { x with abort := true } else x

def Press.mark (g : Nat) (q : Press) : Press := { q with queue := q.queue.map (PressEntry.mark g) }

/-- Every entry of a gang is marked for its next suspension point. -/
def markAbort (g : Nat) (s : State) : State := { s with presses := s.presses.map fun q => (q.1, q.2.mark g) }

section
variable {tag : BitVec 8} {p : Nat} {far : Bool} {s : State} {e : PressEntry}

theorem pabtEff_none (h : newestPact (s.press p) far tag = none) (o : Ops) : pabtEff tag p far o s = .done s := by
  rw [pabtEff, h]

variable (h : newestPact (s.press p) far tag = some e)

include h

theorem pabtEff_half {g : Half} {t : State} (hst : e.state = .half)
    (hg : (s.press p).halves.find? (fun x => decide (x.far = far) && decide (x.tag = tag)) = some g)
    (ht : cancelHalf s p g PTIMEO (word (tagAux p far tag + 2048)) = .ok t) (o : Ops) : pabtEff tag p far o s = .done t := by
  rw [pabtEff, h]
  dsimp only
  rw [hst]
  dsimp only
  rw [hg]
  dsimp only
  rw [ht]

theorem pabtEff_cancel {t : State} (hst : e.state = .queued ∨ e.state = .susp) (ht : cancelPact s p e = .ok t) (o : Ops) :
    pabtEff tag p far o s = .done t := by
  rw [pabtEff, h]
  dsimp only
  rcases hst with hst | hst <;> rw [hst] <;> dsimp only <;> rw [ht]

theorem pabtEff_stream (hst : e.state = .stream) (o : Ops) : pabtEff tag p far o s = .hold (markAbort e.gang s) .press e.id := by
  rw [pabtEff, h]
  dsimp only
  rw [hst]
  rfl

theorem pabtEff_over (hst : e.state = .deliver ∨ e.state = .dfault ∨ e.state = .done ∨ e.state = .cancel) (o : Ops) :
    pabtEff tag p far o s = .done s := by
  rw [pabtEff, h]
  dsimp only
  rcases hst with hst | hst | hst | hst <;> rw [hst]

end

theorem markAbort_queue (g : Nat) (s : State) (q : Nat) : ((markAbort g s).press q).queue =
    (s.press q).queue.map fun x => if x.gang = g ∧ x.op.isPact = true then { x with abort := true } else x := by
  have hmark : PressEntry.mark g = fun x => if x.gang = g ∧ x.op.isPact = true then { x with abort := true } else x := by
    funext x
    simp only [PressEntry.mark, Bool.and_eq_true, decide_eq_true_eq]
  have hfind : Tbl.find (markAbort g s).presses q = (Tbl.find s.presses q).map (Press.mark g) :=
    Tbl.find_map (g := fun q : Nat × Press => (q.1, q.2.mark g)) (fun _ => rfl) s.presses q
  rw [← hmark, State.press, State.press, Tbl.get, Tbl.get, hfind]
  cases Tbl.find s.presses q <;> rfl

/-! ## A half is cancelled (R237) -/

/-- A change of a thread that keeps its name, its occupancy and its mode is no change to where any thread is. -/
theorem locate_modThread (s : State) (core k : Nat) {f : Thread → Thread}
    (hf : ∀ t, (f t).ref = t.ref ∧ (f t).occ = t.occ ∧ (f t).light = t.light) (r : TRef) :
    (s.modThread core k f).locate r = s.locate r := by
  have hkeep (c j : Nat) : ((s.modThread core k f).thread c j).ref = (s.thread c j).ref ∧
      ((s.modThread core k f).thread c j).occ = (s.thread c j).occ ∧
      ((s.modThread core k f).thread c j).light = (s.thread c j).light := by
    rw [State.modThread, thread_setThread]
    split
    · next hat =>
      have hth : s.thread c j = s.thread core k := congrArg (Tbl.get State.thread0 s.threads) hat
      rw [hth]
      exact hf _
    · exact ⟨rfl, rfl, rfl⟩
  unfold State.locate
  simp only [fun c j => (hkeep c j).1, fun c j => (hkeep c j).2.1, fun c j => (hkeep c j).2.2]
  rfl

theorem dropAll_eq (s : State) (ids : List Nat) : ∃ h c, ids.foldl (fun s i => s.dropHolds i fun _ => true) s =
    { s with holds := h, crews := c } := by
  induction ids generalizing s with
  | nil => exact ⟨_, _, rfl⟩
  | cons i r ih =>
    obtain ⟨h, c, hr⟩ := ih (s.dropHolds i fun _ => true)
    exact ⟨h, c, hr⟩

/-- The address at which a thread that is trapped from outside goes on. -/
def Thread.trapPoint (t : Thread) : Word := match t.park with | some x => x.addr | none => t.pc

theorem trapRef_slot {s : State} {r : TRef} {core k : Nat} (h : s.locate r = some (.slot core k)) (cause : Nat) (addr aux : Word) :
    trapRef s r cause addr aux = takeTrap s core k cause addr aux (s.thread core k).trapPoint false false := by
  rw [trapRef, h] <;> rfl

/-- The table without a half. -/
def halfGone (s : State) (p : Nat) (g : Half) : State :=
  s.modPress p fun q => { q with halves := q.halves.filter fun x => !(x.id = g.id && x.far = g.far) }.keepPast g.far (g.entry .cancel)

theorem halfGone_press (s : State) (p : Nat) (g : Half) :
    ((halfGone s p g).press p).halves = (s.press p).halves.filter (fun x => !(x.id = g.id && x.far = g.far)) ∧
    ((halfGone s p g).press p).queue = (s.press p).queue := by
  rw [halfGone, press_modPress_same]
  exact ⟨rfl, rfl⟩

/-- A half that leaves the table traps its issuer in its slot. -/
theorem failHalf_slot {s : State} {p : Nat} {g : Half} {core k : Nat} (hloc : s.locate g.issuer = some (.slot core k))
    (hnest : (s.thread core k).csr.tnest.getLsbD 0 = false) (cause : Nat) (addr aux : Word) :
    ∃ gr, failHalf s p g cause addr aux = { ((halfGone s p g).modThread core k fun t => t.unjoin g.id).setThread core k
      (((s.thread core k).unjoin g.id).enterTrap cause addr aux ((s.thread core k).unjoin g.id).trapPoint false false) with graphs := gr } := by
  have hth : ((halfGone s p g).modThread core k fun t => t.unjoin g.id).thread core k = (s.thread core k).unjoin g.id :=
    thread_setThread_same _ _ _ _
  have hloc2 : ((halfGone s p g).modThread core k fun t => t.unjoin g.id).locate g.issuer = some (.slot core k) :=
    (locate_modThread _ core k (f := fun t => t.unjoin g.id) (fun _ => ⟨rfl, rfl, rfl⟩) _).trans hloc
  have hmod : (halfGone s p g).modRef g.issuer (fun t => t.unjoin g.id) = (halfGone s p g).modThread core k fun t => t.unjoin g.id := by
    have hgone : (halfGone s p g).locate g.issuer = some (.slot core k) := hloc
    rw [State.modRef, hgone] <;> rfl
  obtain ⟨gr, hgr⟩ := takeTrap_eq (s := (halfGone s p g).modThread core k fun t => t.unjoin g.id) (core := core) (slot := k)
    (by rw [hth]; exact hnest) cause addr aux ((s.thread core k).unjoin g.id).trapPoint false false
  refine ⟨gr, ?_⟩
  rw [failHalf, ← halfGone, hmod, trapRef_slot hloc2, hth, hgr, hth]

/-- A half whose record has no delivery is cancelled: it leaves the table, and its issuer traps. -/
theorem cancelHalf_slot {s : State} {p : Nat} {g : Half} {core k : Nat} (hrole : bit g.rcd 0 = true)
    (hloc : s.locate g.issuer = some (.slot core k)) (hnest : (s.thread core k).csr.tnest.getLsbD 0 = false) (cause : Nat) (aux : Word) :
    ∃ t, cancelHalf s p g cause aux = .ok t ∧
      (t.press p).halves = (s.press p).halves.filter (fun x => !(x.id = g.id && x.far = g.far)) ∧
      (t.press p).queue = (s.press p).queue ∧ t.mem = s.mem ∧ t.thread core k =
        ((s.thread core k).unjoin g.id).enterTrap cause 0 aux ((s.thread core k).unjoin g.id).trapPoint false false := by
  obtain ⟨gr, hgr⟩ := failHalf_slot (p := p) hloc hnest cause 0 aux
  obtain ⟨hhalves, hqueue⟩ := halfGone_press s p g
  obtain ⟨h, c, hdrop⟩ := dropAll_eq (failHalf s p g cause 0 aux)
    (g.id :: if g.inGang then (gangHalves s g).map fun x => x.2.id else [])
  refine ⟨{ failHalf s p g cause 0 aux with holds := h, crews := c }, ?_, ?_⟩
  · rw [cancelHalf]
    dsimp only
    rw [hdrop, hrole]
    rfl
  · rw [hgr]
    exact ⟨hhalves, hqueue, rfl, thread_setThread_same _ _ _ _⟩

/-! ## A pact is cancelled (R237, R422) -/

/-- No press's queue has an entry that it had not. -/
def QueuesShrink (s t : State) : Prop := ∀ q, ∀ x ∈ (t.press q).queue, x ∈ (s.press q).queue

theorem QueuesShrink.refl (s : State) : QueuesShrink s s := fun _ _ hx => hx

theorem QueuesShrink.trans {s t u : State} (h : QueuesShrink s t) (g : QueuesShrink t u) : QueuesShrink s u :=
  fun q x hx => h q x (g q x hx)

theorem press_modPress_ne (s : State) {p q : Nat} (h : q ≠ p) (f : Press → Press) : (s.modPress p f).press q = s.press q := by
  rw [State.press, modPress_presses, Tbl.get_upd, if_neg h, State.press]

theorem modPress_shrinks {s : State} {p : Nat} {f : Press → Press} (h : ∀ q, ∀ x ∈ (f q).queue, x ∈ q.queue) :
    QueuesShrink s (s.modPress p f) := by
  intro q x hx
  by_cases hq : q = p
  · subst hq
    rw [press_modPress_same] at hx
    exact h _ x hx
  · rwa [press_modPress_ne s hq] at hx

theorem endEntry_shrinks (s : State) (p : Nat) (e : PressEntry) (st : PactState) : QueuesShrink s (endEntry s p e st) := by
  intro q x hx
  rw [endEntry, tracePress_press, releaseKey_press, dropHolds_press] at hx
  exact modPress_shrinks (f := fun q => q.retire e st) (fun q x hx => (List.mem_filter.mp hx).1) q x hx

theorem finishPact_shrinks (s : State) (p : Nat) (e : PressEntry) : QueuesShrink s (finishPact s p e) := by
  refine QueuesShrink.trans (t := endEntry (s.modRef e.lead fun t => t.raise e.flags) p e .done) ?_ (modPress_shrinks fun q x hx => ?_)
  · intro q x hx
    have hend := endEntry_shrinks _ _ _ _ q x hx
    rwa [modRef_press] at hend
  · split at hx
    case h_1 =>
      split at hx
      · exact hx
      · rwa [(slotClear_slotsOnly ..).queue] at hx
    case h_2 => split at hx <;> exact hx
    case h_3 => exact hx

theorem endGang_shrinks (s : State) (g : Nat) : QueuesShrink s (endGang s g) := by
  have hfold (l : List (Nat × PressEntry)) (u : State) :
      QueuesShrink u (l.foldl (fun s x => if x.2.landed then finishPact s x.1 x.2 else s) u) := by
    induction l generalizing u with
    | nil => exact .refl u
    | cons x r ih =>
      refine QueuesShrink.trans ?_ (ih _)
      dsimp only
      split
      · exact finishPact_shrinks _ _ _
      · exact .refl u
  exact fun q x hx => hfold (gangEntries s g) (s.dropHolds g fun h => h.write) q x hx

/-- Entries that end, one after the other, are in no queue. -/
theorem endEntries_gone (l : List (Nat × PressEntry)) (st : PactState) (s : State) :
    QueuesShrink s (l.foldl (fun s x => endEntry s x.1 x.2 st) s) ∧
    ∀ y ∈ l, y.2 ∉ ((l.foldl (fun s x => endEntry s x.1 x.2 st) s).press y.1).queue := by
  induction l generalizing s with
  | nil => exact ⟨.refl s, fun y hy => absurd hy List.not_mem_nil⟩
  | cons x r ih =>
    obtain ⟨hshrink, hgone⟩ := ih (endEntry s x.1 x.2 st)
    refine ⟨QueuesShrink.trans (endEntry_shrinks _ _ _ _) hshrink, fun y hy => ?_⟩
    rcases List.mem_cons.mp hy with rfl | hy
    · intro hin
      have hend := hshrink _ _ hin
      rw [endEntry_press] at hend
      exact (retire_retired _ _ _).gone _ hend rfl
    · exact hgone y hy

theorem entry_of_find {α : Type} {t : List (Nat × α)} {k : Nat} {v : α} (h : Tbl.find t k = some v) : (k, v) ∈ t := by
  induction t with
  | nil => cases h
  | cons x r ih =>
    rw [Tbl.find] at h
    split at h
    · next hk =>
      cases h
      rw [hk]
      exact List.mem_cons_self
    · exact List.mem_cons_of_mem _ (ih h)

theorem mem_gangEntries {s : State} {q : Nat} {x : PressEntry} (hx : x ∈ (s.press q).queue) (hop : x.op.isPact = true) :
    (q, x) ∈ gangEntries s x.gang := by
  cases hf : Tbl.find s.presses q with
  | none =>
    rw [State.press, Tbl.get, hf] at hx
    exact absurd hx List.not_mem_nil
  | some p =>
    rw [State.press, Tbl.get, hf] at hx
    exact List.mem_flatMap.mpr ⟨(q, p), entry_of_find hf, List.mem_map.mpr ⟨x, List.mem_filter.mpr ⟨hx, by simp [hop]⟩, rfl⟩⟩

/-- A pact that does not deliver is cancelled at once: what is left of its gang delivers. -/
theorem cancelPact_gone (s : State) (p : Nat) {e : PressEntry} (hd : e.delivers = false) : ∃ t, cancelPact s p e = .ok t ∧
    ∀ q, ∀ x ∈ (t.press q).queue, x.op.isPact = true → x.gang = e.gang → x.state = .deliver := by
  obtain ⟨hshrink, hgone⟩ := endEntries_gone ((gangEntries s e.gang).filter fun x => x.2.state ≠ .deliver) .cancel s
  rw [cancelPact, hd]
  generalize ((gangEntries s e.gang).filter fun x => x.2.state ≠ .deliver).foldl (fun s x => endEntry s x.1 x.2 .cancel) s = u
    at hshrink hgone ⊢
  refine ⟨_, rfl, fun q x hx hop hg => ?_⟩
  have hu : x ∈ (u.press q).queue := by
    split at hx
    · exact endGang_shrinks _ _ q x hx
    · exact hx
  by_contra hst
  exact hgone (q, x) (List.mem_filter.mpr ⟨hg ▸ mem_gangEntries (hshrink q x hu) hop, by simpa using hst⟩) hu

/-- Settles O27. -/
theorem pressWaits : Obligations.PressWaits := by
  unfold Obligations.PressWaits
  refine ⟨?pwait, ?none, ?pabt, ?pord⟩
  case pwait =>
    intro h port tag s s1 o p far own hi hp
    exact ⟨fun hno => exec_done hi rfl ((pwait_eff hp h tag o).trans (if_pos (waitsOn_empty hno))), fun hlive =>
      ⟨_, exec_wait hi rfl ((pwait_eff hp h tag o).trans (if_neg (ne_true_of_eq_false (waitsOn_live hlive))))⟩⟩
  case none =>
    intro h port tag s s1 o p far own hi hp hn
    exact exec_done hi rfl ((pabt_eff hp h tag o).trans (pabtEff_none hn o))
  case pabt =>
    intro h port tag s s1 o p far own e hi hp hn
    have done {t : State} (he : pabtEff tag p far o s1 = .done t) :
        exec (.pabt h port tag) s = .next (after (.pabt h port tag) s t) := exec_done hi rfl ((pabt_eff hp h tag o).trans he)
    refine ⟨fun g hst hg => ⟨fun t ht => done (pabtEff_half hn hst hg ht o), fun core k hrole hloc hnest => ?_⟩,
      fun t hst ht => done (pabtEff_cancel hn hst ht o), fun hst hd => ?_, fun hst => ?_, fun hst => done (pabtEff_over hn hst o)⟩
    · obtain ⟨t, ht, hhalves, hqueue, hmem, hth⟩ := cancelHalf_slot (p := p) hrole hloc hnest PTIMEO (word (tagAux p far tag + 2048))
      have hfar : g.far = far := by
        have hfound := List.find?_some hg
        simp only [Bool.and_eq_true, decide_eq_true_eq] at hfound
        exact hfound.1
      rw [hfar] at hhalves
      exact ⟨t, done (pabtEff_half hn hst hg ht o), hhalves, hqueue, hmem, hth⟩
    · obtain ⟨t, ht, hgone⟩ := cancelPact_gone s1 p hd
      exact ⟨t, done (pabtEff_cancel hn hst ht o), hgone⟩
    · exact ⟨markAbort e.gang s1, exec_hold hi rfl ((pabt_eff hp h tag o).trans (pabtEff_stream hn hst o)), rfl,
        markAbort_queue e.gang s1⟩
  case pord =>
    intro h s s1 o hi
    refine ⟨_, exec_done hi rfl rfl, (onlyMine_modMe _ _).trans (goOn_only _ _ _ _), ?_⟩
    rw [after_of_body (b := bodyPord h) rfl, me_goOn, me_modMe]
    exact ⟨getLsbD_setFld_bit _ (by decide) 1, fun k hk => getLsbD_setFld_bit_ne _ hk 1, rfl, rfl⟩

end Sys2Proof.Machine
end

