-- ==== Sys2Proof/Proofs/TrapInstructions.lean ====
section
/-! SUPPORT. TRAP and SYSC, and the return from a trap (R444, R445): O34 and O35. -/

namespace Sys2Proof.Machine

/-! ## TRAP and SYSC (R444) -/

/-- The two instructions that trap once they have been debited. -/
structure Traps (i : Instr) (h : Hdr) (n : BitVec 12) (cause : Nat) (b : Body) : Prop where
  body : bodyOf i = some b
  hdr : b.h = h
  srcs : b.srcs = []
  unit : ∀ o s, b.units o s = 1
  early : ∀ s, b.early s = none
  gather : ∀ s, ∃ o, b.gather s = .ok (o, s)
  next : ∀ s : State, nextPC s.me.pc 1 b.blk = nextPC s.me.pc 1 false
  eff : ∀ o s, b.eff o s = .trapNext s cause (n.setWidth 64)

theorem early_bare {b : Body} (hp : b.priv = fun _ => none) (hs : b.srcs = []) (hd : b.dsts = []) (hl : b.light = true)
    (hm : b.mov = false) (s : State) : b.early s = none := by
  rw [Body.early, hp, Body.lightStop, Body.movStop, hs, hd, hl, hm]
  split
  · next hstop => cases hstop
  · split
    · next hstop =>
      split at hstop <;> cases hstop
    · rfl

theorem trap_traps (h : Hdr) (n : BitVec 12) : Traps (.trap h n) h n 0x14 (bodyTrap h n) :=
  ⟨rfl, rfl, rfl, fun _ _ => rfl, early_bare rfl rfl rfl rfl rfl, fun _ => ⟨_, rfl⟩, fun _ => rfl, fun _ _ => rfl⟩

theorem sysc_traps (h : Hdr) (n : BitVec 12) : Traps (.sysc h n) h n 0x15 (bodySysc h n) :=
  ⟨rfl, rfl, rfl, fun _ _ => rfl, early_bare rfl rfl rfl rfl rfl, fun _ => ⟨_, rfl⟩, fun _ => rfl, fun _ _ => rfl⟩

theorem traps_of_case {i : Instr} {h : Hdr} {n : BitVec 12} {cause : Nat}
    (hcase : (i = .trap h n ∧ cause = 0x14) ∨ (i = .sysc h n ∧ cause = 0x15)) : ∃ b, Traps i h n cause b := by
  rcases hcase with ⟨rfl, rfl⟩ | ⟨rfl, rfl⟩
  · exact ⟨_, trap_traps h n⟩
  · exact ⟨_, sysc_traps h n⟩

section
variable {i : Instr} {h : Hdr} {n : BitVec 12} {cause : Nat} {b : Body} (ht : Traps i h n cause b)

include ht

theorem Traps.cost (o : Ops) (s : State) : b.cost o s = fld s.me.csr.ecost (16 * h.e.toNat) 16 := by
  rw [Body.cost, ht.unit, ht.hdr, Nat.mul_one]

/-- The trap, and the debit that comes first. -/
theorem Traps.follows {s s1 : State} {o : Ops} (hi : Issues i s o s1) :
    exec i s = .next (takeTrap s1 s.curCore s.curSlot cause 0 (n.setWidth 64) (nextPC s.me.pc 1 false) false false) ∧
    s1 = s.modMe fun t =>
      { t with csr := { t.csr with ebud := t.csr.ebud - word (fld s.me.csr.ecost (16 * h.e.toNat) 16) }, carry := none } := by
  obtain ⟨r, s', hg, hd, -⟩ := accept_some (accept_of_issues hi ht.body)
  obtain ⟨r', hg'⟩ := ht.gather s
  obtain ⟨rfl, rfl⟩ : r' = r ∧ s = s' := Prod.mk.inj (Except.ok.inj (hg'.symm.trans hg))
  refine ⟨?_, ?_⟩
  · rw [exec_of_issues hi ht.body, ht.eff, ht.next]
    rfl
  · rw [ht.cost] at hd
    exact (debit_ok hd).2.2

theorem Traps.stops (s : State) (hg : s.me.pStop h.g = none) (hn : s.me.getP h.g.toNat ≠ h.n) :
    (fld s.me.csr.ecost (16 * h.e.toNat) 16 > fld s.me.csr.ecap 0 40 →
      exec i s = .next (takeTrap s s.curCore s.curSlot 0x12 0 (word (fld s.me.csr.ecost (16 * h.e.toNat) 16)) s.me.pc false false)) ∧
    (fld s.me.csr.ecost (16 * h.e.toNat) 16 ≤ fld s.me.csr.ecap 0 40 →
      fld s.me.csr.ebud 0 40 < fld s.me.csr.ecost (16 * h.e.toNat) 16 →
      ∃ t, exec i s = .next t ∧ (t.me.park.map fun p => p.why) = some .budget ∧ t.me.pc = s.me.pc) := by
  obtain ⟨o, hgather⟩ := ht.gather s
  obtain ⟨hbig, hpark⟩ := issueStops.1 i b s s o ht.body (ht.early s) (ht.hdr ▸ hg) (ht.hdr ▸ hn) hgather
  rw [ht.hdr, ht.unit, Nat.mul_one] at hbig hpark
  refine ⟨hbig, fun hcap hbud => ?_⟩
  obtain ⟨t, hexec, hwhy, hpc, -⟩ := hpark hcap hbud
  exact ⟨t, hexec, hwhy, hpc⟩

end

/-- The thread that traps is in its handler. -/
theorem takeTrap_me {s : State} (h : s.me.csr.tnest.getLsbD 0 = false) (cause : Nat) (addr aux tpc : Word) (pm async : Bool) :
    (takeTrap s s.curCore s.curSlot cause addr aux tpc pm async).me = s.me.enterTrap cause addr aux tpc pm async := by
  obtain ⟨g, hg⟩ := takeTrap_eq (s := s) (core := s.curCore) (slot := s.curSlot) h cause addr aux tpc pm async
  rw [hg]
  exact thread_setThread_same _ _ _ _

/-- SYSC is never delegated. -/
theorem sysc_not_delegated (t : Thread) : t.delegates 0x15 = false :=
  (not_delegates_iff t 0x15).mpr (.inl (by rw [BitVec.getLsbD_and]; simp))

/-- Settles O34. -/
theorem trapAndSysc : Obligations.TrapAndSysc := by
  unfold Obligations.TrapAndSysc
  refine ⟨fun i h n cause s s1 o hcase hi => ?_, fun i h n s hcase hg hn => ?_, fun h n s s1 o hi hnest => ?_⟩
  · obtain ⟨b, ht⟩ := traps_of_case hcase
    exact ht.follows hi
  · rcases hcase with rfl | rfl
    · exact (trap_traps h n).stops s hg hn
    · exact (sysc_traps h n).stops s hg hn
  · obtain ⟨hexec, hs1⟩ := (sysc_traps h n).follows hi
    have hme : s1.me = { s.me with
        csr := { s.me.csr with ebud := s.me.csr.ebud - word (fld s.me.csr.ecost (16 * h.e.toNat) 16) }, carry := none } := by
      rw [hs1, me_modMe]
    have hnest1 : s1.me.csr.tnest.getLsbD 0 = false := by rw [hme]; exact hnest
    have hcore : s1.curCore = s.curCore := by rw [hs1]; rfl
    have hslot : s1.curSlot = s.curSlot := by rw [hs1]; rfl
    have ht := takeTrap_me hnest1 0x15 0 (n.setWidth 64) (nextPC s.me.pc 1 false) false false
    rw [hcore, hslot] at ht
    refine ⟨_, hexec, ?_⟩
    rw [ht]
    obtain ⟨hpc, hprv⟩ := enterTrap_raised s1.me 0x15 0 (n.setWidth 64) (nextPC s.me.pc 1 false) false false (sysc_not_delegated s1.me)
    obtain ⟨htpc, htaddr, htaux⟩ := enterTrap_saves s1.me 0x15 0 (n.setWidth 64) (nextPC s.me.pc 1 false) false false
    exact ⟨by rw [hpc, hme], hprv, htpc, enterTrap_tcause _ _ _ _ _ _ _, htaddr, htaux⟩

/-! ## The return from a trap (R445) -/

theorem returnTrap_tstat (t : Thread) : t.returnTrap.csr.tstat.getLsbD 0 = t.csr.tstat.getLsbD 1 ∧
    t.returnTrap.csr.tstat.getLsbD 4 = false ∧ ∀ k, k ≠ 0 → k ≠ 4 → t.returnTrap.csr.tstat.getLsbD k = t.csr.tstat.getLsbD k := by
  refine ⟨?_, (getLsbD_setFld_bit _ (by decide) 0).trans rfl, fun k h0 h4 => ?_⟩
  · exact (getLsbD_setFld_bit_ne _ (by decide) 0).trans (getLsbD_setFld_b2n _ (by decide) _)
  · exact (getLsbD_setFld_bit_ne _ h4 0).trans (getLsbD_setFld_bit_ne _ h0 _)

/-- RFT at U whose saved privilege is S stops at issue. -/
theorem rft_gather {h : Hdr} {s : State} (hu : s.me.csr.tstat.getLsbD 0 = false) (hp : s.me.csr.tstat.getLsbD 1 = true) :
    (bodyRft h).gather s = .error (.trap 9 PRIV 0 0 none) := by
  refine gather_of_chk (o := { takeRm Ops.zero s with gd := [] }) (s' := s) rfl rfl (if_pos ?_)
  rw [Thread.user, bit, bit, hu, hp]
  rfl

theorem rft_early (h : Hdr) {s : State} (hl : s.me.light = false) : (bodyRft h).early s = none := by
  have hlight : (bodyRft h).lightStop s = none := by rw [Body.lightStop, hl]; rfl
  rw [Body.early, hlight]
  rfl

theorem afterJump_of_body {i : Instr} {b : Body} (h : bodyOf i = some b) (s2 : State) (pc : Word) (img : Option LineImg) :
    afterJump i s2 pc img = setSkip (goOn s2 pc img) b.h.w.toNat := by
  simp only [afterJump, h]

/-- Settles O35. -/
theorem rftReturns : Obligations.RftReturns := by
  unfold Obligations.RftReturns
  refine ⟨fun h s hl hg hn hu hp => ?_, fun h s s1 o hi => ?_⟩
  · exact exec_of_gather_error (b := bodyRft h) rfl (rft_early h hl) hg hn (rft_gather hu hp)
  · refine ⟨_, exec_jump hi rfl rfl, (onlyMine_modMe _ _).trans (goOn_only _ _ _ _), ?_⟩
    obtain ⟨hprv, hpm, hother⟩ := returnTrap_tstat s1.me
    rw [afterJump_of_body (b := bodyRft h) rfl, me_goOn, me_modMe]
    exact ⟨rfl, hprv, hpm, hother, (getLsbD_setFld_bit _ (by decide) 0).trans rfl, rfl, rfl, rfl, rfl, rfl⟩

end Sys2Proof.Machine
end

