-- ==== Sys2Proof/Proofs/CsrWrites.lean ====
section
/-! SUPPORT. Writes of the special registers under the field access of their map (R442, R443): O31. -/

namespace Sys2Proof.Machine

/-! ## The registers by their number -/

/-- The CSRs that are the thread's own, by their number; `x` stands for every other. -/
def Csrs.read (c : Csrs) (x : Word) (k : Nat) : Word :=
  match k with
  | 0x000 => c.tstat | 0x001 => c.tpc | 0x002 => c.tcause | 0x003 => c.taddr | 0x004 => c.taux | 0x005 => c.tnest
  | 0x006 => c.tvec | 0x007 => c.uvec | 0x008 => c.nvec | 0x009 => c.tdlg | 0x00A => c.fcsr | 0x00B => c.ebud
  | 0x00C => c.eref | 0x00D => c.ecap | 0x00E => c.ecost | 0x00F => c.lpr | 0x010 => c.sndtmo | 0x011 => c.pactmo
  | _ => x

/-- The CSRs that are of the thread's place. -/
def placeRead (s : State) (k : Nat) : Word :=
  match k with
  | 0x100 => (s.core s.curCore).sleepd
  | 0x101 => match s.myCrew with | some x => word (s.me.ref.lcore % x.w + s.me.ref.lcore / x.w * 256) | none => 0
  | 0x102 => word s.curCore
  | 0x103 => word (s.devtime % 32000 / 500 + s.devtime % 32000 * 2 ^ 16)
  | 0x104 => word (((span 0 24).filter fun e => (Tbl.find s.closet (s.curCore * 24 + e)).isSome).map (2 ^ ·)).sum
  | _ => 0

theorem csrRead_eq (s : State) (k : Nat) : csrRead s k = s.me.csr.read (placeRead s k) k := by
  unfold csrRead
  dsimp only
  split
  case h_24 => simp_all [Csrs.read, placeRead]
  all_goals rfl

/-- A CSR of the thread's record after a write. -/
def Csrs.put (c : Csrs) (n : Nat) (v : Word) : Csrs :=
  match n with
  | 0x000 => { c with tstat := maskWrite c.tstat v (if bit c.tstat 0 then 0x2A else 0x28) }
  | 0x001 => { c with tpc := v }
  | 0x002 => { c with tcause := v &&& 0x1FF }
  | 0x003 => { c with taddr := v }
  | 0x004 => { c with taux := v }
  | 0x005 => { c with tnest := v &&& 1 }
  | 0x006 => { c with tvec := v &&& vecMask }
  | 0x007 => { c with uvec := v &&& vecMask }
  | 0x008 => { c with nvec := v &&& vecMask }
  | 0x009 => { c with tdlg := v &&& dlgMask }
  | 0x00A => { c with fcsr := v &&& 0x7F }
  | 0x00B => { c with ebud := capBal v c.ecap }
  | 0x00C => { c with eref := v &&& 0xFFFFFF }
  | 0x00D => { c with ecap := v &&& 0xFFFFFFFFFF, ebud := capBal c.ebud v }
  | 0x00E => { c with ecost := v }
  | 0x010 => { c with sndtmo := v &&& 0xFFFFF }
  | 0x011 => { c with pactmo := v &&& 0xFFFFF }
  | _ => c

/-- Every other register reads as before, but the balance, which a lower cap cuts. -/
theorem put_read_ne (c : Csrs) {n k : Nat} (h : k ≠ n) (hcap : n = 0x00D → k ≠ 0x00B) (v x : Word) :
    (c.put n v).read x k = c.read x k := by
  unfold Csrs.put
  split
  case h_14 =>
    have hbud := hcap rfl
    unfold Csrs.read
    split <;> trivial
  all_goals
    unfold Csrs.read
    split <;> trivial

/-- What a write of a CSR below 0x12 changes: the thread's record, and for a timeout the value that its timers use until it applies. -/
theorem csrWrite_thread (s : State) {n : Nat} (hn : n < 0x12) (hlpr : n ≠ 0x00F) (v : Word) : ∃ w : Thread → Option (Nat × Word × Word),
    csrWrite s n v = s.modMe fun t => { t with csr := t.csr.put n v, tmoWas := w t } := by
  unfold csrWrite
  split
  case h_16 | h_17 => exact ⟨fun t => (t.holdTmo s.devtime).tmoWas, rfl⟩
  case h_18 => exact absurd hn (by decide)
  case h_19 =>
    simp only [imp_false] at *
    omega
  all_goals exact ⟨fun t => t.tmoWas, rfl⟩

/-- A write of a CSR of the thread's record. -/
theorem csrWrite_record (s : State) {n : Nat} (hn : n < 0x12) (hlpr : n ≠ 0x00F) (v : Word) :
    (csrWrite s n v).mem = s.mem ∧ (csrWrite s n v).me.registers = s.me.registers ∧ (csrWrite s n v).me.full = s.me.full ∧
    ∀ k, csrRead (csrWrite s n v) k = (s.me.csr.put n v).read (placeRead s k) k := by
  obtain ⟨w, hw⟩ := csrWrite_thread s hn hlpr v
  rw [hw]
  have hplace (k : Nat) : placeRead (s.modMe fun t => { t with csr := t.csr.put n v, tmoWas := w t }) k = placeRead s k := by
    simp only [placeRead, State.myCrew, me_modMe]
    rfl
  refine ⟨rfl, by rw [me_modMe]; rfl, by rw [me_modMe], fun k => ?_⟩
  rw [csrRead_eq, me_modMe, hplace]

/-- SLEEPD is the core's. -/
theorem csrWrite_sleepd (s : State) (v : Word) :
    (csrWrite s 0x100 v).mem = s.mem ∧ (csrWrite s 0x100 v).me.registers = s.me.registers ∧ (csrWrite s 0x100 v).me.full = s.me.full ∧
    (∀ k, k ≠ 0x100 → csrRead (csrWrite s 0x100 v) k = csrRead s k) ∧ csrRead (csrWrite s 0x100 v) 0x100 = v &&& 3 := by
  have hw : csrWrite s 0x100 v = s.modCore s.curCore fun c => { c with sleepd := v &&& 3 } := rfl
  rw [hw]
  refine ⟨rfl, rfl, rfl, fun k hk => ?_, ?_⟩
  · rw [csrRead_eq, csrRead_eq]
    have hplace : placeRead (s.modCore s.curCore fun c => { c with sleepd := v &&& 3 }) k = placeRead s k := by
      unfold placeRead
      split <;> trivial
    rw [hplace]
    rfl
  · show ((s.modCore s.curCore fun c => { c with sleepd := v &&& 3 }).core s.curCore).sleepd = v &&& 3
    rw [State.core, State.modCore, Tbl.get_upd, if_pos rfl]

/-! ## The numbers that are written -/

/-- A write of a CSR that issues is of one that is written at some level. -/
theorem csr_of_stop {n : BitVec 12} {s : State} (h : csrStop n true s = none) :
    (n.toNat < 0x12 ∧ n.toNat ≠ 0x00F) ∨ n = 0x100 := by
  have hassigned : csrAssigned n = true := by
    by_contra hno
    rw [csrStop, if_pos (by simpa using hno)] at h
    cases h
  have hconst : csrConst n = false := by
    by_contra hyes
    rw [Bool.not_eq_false] at hyes
    by_cases hpriv : s.me.user = false ∨ csrHidden n = false
    · rw [csrStop_const hassigned hyes hpriv] at h
      cases h
    · rw [not_or, Bool.not_eq_false, Bool.not_eq_false] at hpriv
      rw [csrStop_hidden hpriv.2 hpriv.1] at h
      cases h
  simp only [csrAssigned, Bool.or_eq_true, Bool.and_eq_true, decide_eq_true_eq] at hassigned
  simp only [csrConst, Bool.or_eq_false_iff, decide_eq_false_iff_not] at hconst
  bv_omega

theorem priv_of_issues {i : Instr} {b : Body} {s s1 : State} {o : Ops} (hi : Issues i s o s1) (hb : bodyOf i = some b) :
    b.priv s = none := by
  have ha := accept_of_issues hi hb
  unfold Body.accept at ha
  split at ha
  · cases ha
  · next hearly =>
    unfold Body.early at hearly
    split at hearly
    · cases hearly
    · assumption

/-- The value of a CSR after a write, by its number. -/
theorem put_read_same (c : Csrs) {n : BitVec 12} (h : n.toNat < 0x12) (hlpr : n.toNat ≠ 0x00F) (v x : Word) :
    (c.put n.toNat v).read x n.toNat =
      let m : Word := if c.tstat.getLsbD 0 then 0x2A else 0x28
      if n = 0x000 then (c.tstat &&& ~~~m) ||| (v &&& m)
      else if n = 0x002 then v &&& 0x1FF
      else if n = 0x005 then v &&& 1
      else if n = 0x006 ∨ n = 0x007 ∨ n = 0x008 then v &&& 0xFFFFFFFFFFFFFFC7
      else if n = 0x009 then v &&& 0x6DFFFFA
      else if n = 0x00A then v &&& 0x7F
      else if n = 0x00B then word (min (v.toNat % 2 ^ 40) (c.ecap.toNat % 2 ^ 40))
      else if n = 0x00C then v &&& 0xFFFFFF
      else if n = 0x00D then v &&& 0xFFFFFFFFFF
      else if n = 0x010 ∨ n = 0x011 then v &&& 0xFFFFF
      else if n = 0x100 then v &&& 3
      else v := by
  obtain ⟨k, hk⟩ : ∃ k, n.toNat = k := ⟨_, rfl⟩
  obtain rfl : n = BitVec.ofNat 12 k := by rw [← hk, BitVec.ofNat_toNat, BitVec.setWidth_eq]
  rw [hk] at h hlpr ⊢
  by_cases hbud : k = 0x00B
  · subst hbud
    show capBal v c.ecap = word (min (v.toNat % 2 ^ 40) (c.ecap.toNat % 2 ^ 40))
    rw [capBal, fld_eq, fld_eq, pow_zero, Nat.div_one, Nat.div_one]
  · interval_cases k
    all_goals trivial

theorem csrscEff_gives {d : BitVec 5} {s : State} (h : giveWait s d = none) (n : BitVec 12) (f : Word → Word → Word) (o : Ops) :
    csrscEff d n f o s =
      .done (giveG (csrWrite s n.toNat (f (csrRead s n.toNat) o.a)) (some 1) d (csrRead s n.toNat) 0) := by
  rw [csrscEff, h]

/-- Settles O31. -/
theorem csrWrites : Obligations.CsrWrites := by
  unfold Obligations.CsrWrites
  intro i h a n s s1 o v give hcase hi c m
  obtain ⟨b, hb, hpriv, heff⟩ : ∃ b, bodyOf i = some b ∧ b.priv = csrStop n true ∧
      b.eff o s1 = .done (give (csrWrite s1 n.toNat v)) := by
    rcases hcase with ⟨rfl, rfl, rfl⟩ | ⟨d, rfl, rfl, hg, rfl⟩ | ⟨d, rfl, rfl, hg, rfl⟩
    · exact ⟨_, rfl, rfl, rfl⟩
    · exact ⟨_, rfl, rfl, csrscEff_gives hg n (fun old a => old ||| a) o⟩
    · exact ⟨_, rfl, rfl, csrscEff_gives hg n (fun old a => old &&& ~~~a) o⟩
  refine ⟨csrWrite s1 n.toNat v, exec_done hi hb heff, ?_⟩
  have hstop := priv_of_issues hi hb
  rw [hpriv] at hstop
  rcases csr_of_stop hstop with ⟨hn, hlpr⟩ | rfl
  · obtain ⟨hmem, hregs, hfull, hread⟩ := csrWrite_record s1 hn hlpr v
    refine ⟨hmem, hregs, hfull, fun k hk hcap => ?_, (hread _).trans (put_read_same c hn hlpr v _), ?_⟩
    · rw [hread, csrRead_eq s1]
      exact put_read_ne _ hk (fun h13 => hcap (BitVec.eq_of_toNat_eq h13)) _ _
    · rintro rfl
      refine (hread _).trans ?_
      show capBal c.ebud v = _
      rw [capBal, fld_eq, fld_eq, pow_zero, Nat.div_one, Nat.div_one]
  · obtain ⟨hmem, hregs, hfull, hother, hsleep⟩ := csrWrite_sleepd s1 v
    exact ⟨hmem, hregs, hfull, fun k hk _ => hother k hk, hsleep, fun h => absurd h (by decide)⟩

end Sys2Proof.Machine
end

