-- ==== Sys2Proof/Proofs/SwapsFences.lean ====
section
/-! SUPPORT. The closet swap, and the instructions that wait for a seal, halt, or wait for acknowledgements (R453 to R456): O37. -/

namespace Sys2Proof.Machine

/-! ## What the operands' pops leave -/

section
variable {R : State → State → Prop} (hrefl : ∀ s, R s s) (htrans : ∀ s t u, R s t → R t u → R s u) (hpop : ∀ s r, R s (popVal s r).2)

include hrefl hpop in
theorem readG_by {s s' : State} {r : BitVec 5} {w : Word} (h : readG s r = .ok (w, s')) : R s s' := by
  unfold readG at h
  split at h
  · split at h
    · cases h
    · have hval : (popVal s r.toNat).2 = s' := congrArg Prod.snd (Except.ok.inj h)
      exact hval ▸ hpop s r.toNat
  · cases h
    exact hrefl s

include hrefl hpop in
theorem src_read_by {o o' : Ops} {s s' : State} {x : Src} (h : x.read o s = .ok (o', s')) : R s s' := by
  have reads {f : Word → Ops} {r : BitVec 5} (h : (readG s r).map (fun x => (f x.1, x.2)) = .ok (o', s')) : R s s' := by
    cases hr : readG s r with
    | error e => rw [hr] at h; cases h
    | ok y => rw [hr] at h; cases h; exact readG_by hrefl hpop hr
  cases x with
  | a r => exact reads (f := fun w => { o with a := w }) h
  | b r => exact reads (f := fun w => { o with b := w }) h
  | c r => exact reads (f := fun w => { o with c := w }) h
  | d r => exact reads (f := fun w => { o with d := w }) h
  | blk k b =>
    simp only [Src.read] at h
    split at h <;> cases h
    exact hrefl s
  | va r | vb r | vc r | vd r | ma r | mb r | pa r | pb r | preds =>
    cases h
    exact hrefl s

include hrefl htrans hpop in
theorem readAll_by {l : List Src} {o o' : Ops} {s s' : State} (h : readAll o s l = .ok (o', s')) : R s s' := by
  induction l generalizing o s with
  | nil =>
    cases h
    exact hrefl _
  | cons x r ih =>
    rw [readAll] at h
    split at h
    · cases h
    · next hx => exact htrans _ _ _ (src_read_by hrefl hpop hx) (ih h)

end

/-- What a swap's check looks at: the closet, the issuing slot, and the slots of the crews. -/
structure SwapKept (s t : State) : Prop where
  closet : t.closet = s.closet
  curCore : t.curCore = s.curCore
  curSlot : t.curSlot = s.curSlot
  slots : ∀ n lc, t.crewCore n lc = s.crewCore n lc

theorem SwapKept.refl (s : State) : SwapKept s s := ⟨rfl, rfl, rfl, fun _ _ => rfl⟩

theorem SwapKept.trans {s t u : State} (h : SwapKept s t) (g : SwapKept t u) : SwapKept s u :=
  ⟨g.closet.trans h.closet, g.curCore.trans h.curCore, g.curSlot.trans h.curSlot, fun n lc => (g.slots n lc).trans (h.slots n lc)⟩

theorem modMe_swapKept (s : State) (f : Thread → Thread) : SwapKept s (s.modMe f) := ⟨rfl, rfl, rfl, fun _ _ => rfl⟩

theorem dropHolds_swapKept (s : State) (owner : Nat) (p : Hold → Bool) : SwapKept s (s.dropHolds owner p) := by
  refine ⟨rfl, rfl, rfl, fun n lc => ?_⟩
  have hcrew : (s.dropHolds owner p).crew? n = (s.crew? n).map fun c => if c.saved.isSome then c.dropHolds owner p else c :=
    Tbl.find_map (g := fun e : Nat × Crew => (e.1, if e.2.saved.isSome then e.2.dropHolds owner p else e.2)) (fun _ => rfl) s.crews n
  rw [State.crewCore, State.crewCore, hcrew]
  cases s.crew? n with
  | none => rfl
  | some c =>
    show Tbl.get _ (if c.saved.isSome then c.dropHolds owner p else c).cores lc = Tbl.get _ c.cores lc
    split <;> rfl

theorem popVal_swapKept (s : State) (r : Nat) : SwapKept s (popVal s r).2 := by
  unfold popVal
  dsimp only
  split
  · split
    · exact .refl s
    · dsimp only
      split
      · exact (modMe_swapKept s _).trans (dropHolds_swapKept _ _ _)
      · exact modMe_swapKept s _
  · split
    · exact ⟨rfl, rfl, rfl, fun _ _ => rfl⟩
    · exact ⟨rfl, rfl, rfl, fun _ _ => rfl⟩
    · exact ⟨rfl, rfl, rfl, fun _ _ => rfl⟩
    · split
      · exact ⟨rfl, rfl, rfl, fun _ _ => rfl⟩
      · split <;> exact ⟨rfl, rfl, rfl, fun _ _ => rfl⟩
    · exact .refl s

/-! ## CTXSW (R453) -/

theorem SwapKept.ctxswOk_eq {s t : State} (h : SwapKept s t) (o : Ops) : ctxswOk o t = ctxswOk o s := by
  simp only [ctxswOk, State.closetAt, homeSlot, h.closet, h.curCore, h.curSlot, h.slots] <;> rfl

/-- A CTXSW that has issued has passed the limits of R453, and nothing that they look at has changed since. -/
theorem ctxswOk_of_issues {h : Hdr} {a b : BitVec 5} {s s1 : State} {o : Ops} (hi : Issues (.ctxsw h a b) s o s1) :
    ctxswOk o s1 = true := by
  obtain ⟨r, s', hg, hd, -⟩ := accept_some (accept_of_issues (b := bodyCtxsw h a b) hi rfl)
  obtain ⟨x, hread, -⟩ := gather_some hg
  obtain ⟨-, -, hs1⟩ := debit_ok hd
  have hkept : SwapKept s s1 := by
    rw [hs1]
    exact (readAll_by .refl (fun _ _ _ => .trans) popVal_swapKept hread).trans (modMe_swapKept _ _)
  obtain ⟨q, hchk, ho⟩ := chk_of_issues (b := bodyCtxsw h a b) hi rfl
  have hsame : ctxswOk o s1 = ctxswOk q s := by
    rw [hkept.ctxswOk_eq, ho]
    rfl
  by_contra hno
  rw [hsame] at hno
  have hstop : (if ctxswOk q s then none else some (paramStop 0)) = (none : Option Stop) := hchk
  rw [if_neg hno] at hstop
  cases hstop

theorem ctxsw_fields {o : Ops} {s : State} (h : ctxswOk o s = true) :
    fld o.a 0 3 = o.a.toNat ∧ fld o.b 0 5 = o.b.toNat % 32 ∧
    (o.b.getLsbD 63 = false → ctxswEntry o s = o.b.toNat % 32 ∧
      ∀ x, s.closetAt s.curCore (o.b.toNat % 32) = some x → homeSlot s x.th = o.a.toNat) := by
  have hb : fld o.b 0 5 = o.b.toNat % 32 := by rw [fld_eq, pow_zero, Nat.div_one]; rfl
  simp only [ctxswOk, Bool.and_eq_true, decide_eq_true_eq, Bool.or_eq_true, hb] at h
  obtain ⟨⟨⟨ha, -⟩, -⟩, hentry⟩ := h
  refine ⟨by rw [fld_eq, pow_zero, Nat.div_one, Nat.mod_eq_of_lt (by omega)], hb, fun hno => ?_⟩
  have hno' : bit o.b 63 = false := hno
  rw [hno'] at hentry
  obtain ⟨-, hhome⟩ := hentry.resolve_left Bool.false_ne_true
  refine ⟨by rw [ctxswEntry, hno', ← hb]; rfl, fun x hx => ?_⟩
  rw [hx] at hhome
  exact of_decide_eq_true hhome

section Swap
variable {o : Ops} {s : State} {k e : Nat}

theorem ctxswEff_waits (hok : ctxswOk o s = true)
    (h : ((s.thread s.curCore o.a.toNat).occ = true ∧ (s.thread s.curCore o.a.toNat).pend ≠ []) ∨
      swapWaits s s.curCore o.a.toNat (ctxswEntry o s) = true) : ctxswEff o s = .wait s .system 0 := by
  obtain ⟨ha, -, -⟩ := ctxsw_fields hok
  rw [ctxswEff, ha, if_neg (by simp [hok])]
  refine if_pos ?_
  rcases h with ⟨hocc, hpend⟩ | hwait
  · simp [hocc, hpend]
  · simp [hwait]

theorem ctxswEff_swaps (hok : ctxswOk o s = true) (hno : o.b.getLsbD 63 = false)
    (hw : swapWaits s s.curCore o.a.toNat (o.b.toNat % 32) = false)
    (hp : (s.thread s.curCore o.a.toNat).occ = false ∨ (s.thread s.curCore o.a.toNat).pend = []) :
    ctxswEff o s = .done (swapCloset s s.curCore o.a.toNat (o.b.toNat % 32)) := by
  obtain ⟨ha, -, hnamed⟩ := ctxsw_fields hok
  obtain ⟨hentry, hhome⟩ := hnamed hno
  have hready : ((s.thread s.curCore o.a.toNat).occ && !(s.thread s.curCore o.a.toNat).pend.isEmpty) = false := by
    rcases hp with hocc | hpend
    · simp [hocc]
    · simp [hpend]
  rw [ctxswEff, ha, hentry, if_neg (by simp [hok]), if_neg (by simp [hready, hw])]
  cases hx : s.closetAt s.curCore (o.b.toNat % 32) with
  | none => rfl
  | some x =>
    dsimp only
    rw [if_pos (hhome x hx)]

end Swap

/-- The core with the closet entry that a swap leaves. -/
def closetSwapped (s : State) (core k e : Nat) : State :=
  if (s.thread core k).occ then
    { s.fresh.2 with closet := Tbl.ins s.closet (core * 24 + e) ⟨{ s.thread core k with line := none }, s.fresh.1⟩ }
  else { s.fresh.2 with closet := Tbl.del s.closet (core * 24 + e) }

theorem swapCloset_eq (s : State) (core k e : Nat) : swapCloset s core k e = match s.closetAt core e with
    | some x => (closetSwapped s core k e).setThread core k { x.th with line := none }
    | none => if (s.thread core k).occ then (closetSwapped s core k e).setThread core k (s.thread core k).vacate
      else closetSwapped s core k e := rfl

theorem closetSwapped_follows (s : State) (core k e : Nat) :
    (closetSwapped s core k e).mem = s.mem ∧ (∀ c j, (closetSwapped s core k e).thread c j = s.thread c j) ∧
    ((s.thread core k).occ = true → ((closetSwapped s core k e).closetAt core e).map (·.th) = some { s.thread core k with line := none }) ∧
    ((s.thread core k).occ = false → (closetSwapped s core k e).closetAt core e = none) := by
  unfold closetSwapped
  split
  · next hocc =>
    refine ⟨rfl, fun _ _ => rfl, fun _ => ?_, fun h => absurd hocc (ne_true_of_eq_false h)⟩
    rw [State.closetAt, Tbl.find_ins, if_pos rfl]
    rfl
  · next hocc => exact ⟨rfl, fun _ _ => rfl, fun h => absurd h hocc, fun _ => (Tbl.find_del _ _ _).trans (if_pos rfl)⟩

/-- The four rows of R453. -/
theorem swapCloset_rows (s : State) (core k e : Nat) :
    (swapCloset s core k e).mem = s.mem ∧
    (∀ x, s.closetAt core e = some x → (swapCloset s core k e).thread core k = { x.th with line := none }) ∧
    (s.closetAt core e = none → (s.thread core k).occ = true → (swapCloset s core k e).thread core k = (s.thread core k).vacate) ∧
    (s.closetAt core e = none → (s.thread core k).occ = false → (swapCloset s core k e).thread core k = s.thread core k) ∧
    ((s.thread core k).occ = true → ((swapCloset s core k e).closetAt core e).map (·.th) = some { s.thread core k with line := none }) ∧
    ((s.thread core k).occ = false → (swapCloset s core k e).closetAt core e = none) ∧
    ∀ c j, c * 8 + j ≠ core * 8 + k → (swapCloset s core k e).thread c j = s.thread c j := by
  obtain ⟨hmem, hth, hfull, hempty⟩ := closetSwapped_follows s core k e
  have hother (t : Thread) (c j : Nat) (h : c * 8 + j ≠ core * 8 + k) :
      ((closetSwapped s core k e).setThread core k t).thread c j = s.thread c j :=
    ((thread_setThread _ _ _ _ _ _).trans (if_neg h)).trans (hth c j)
  rw [swapCloset_eq]
  cases hx : s.closetAt core e with
  | some x =>
    refine ⟨hmem, fun y hy => ?_, fun h => (nomatch h), fun h => (nomatch h), hfull, hempty, hother _⟩
    cases hy
    exact thread_setThread_same _ _ _ _
  | none =>
    cases hocc : (s.thread core k).occ with
    | true =>
      refine ⟨hmem, fun y hy => (nomatch hy), fun _ _ => thread_setThread_same _ _ _ _, fun _ h => (nomatch h), fun _ => hfull hocc,
        fun h => (nomatch h), hother _⟩
    | false =>
      exact ⟨hmem, fun y hy => (nomatch hy), fun _ h => (nomatch h), fun _ _ => hth _ _, fun h => (nomatch h), fun _ => hempty hocc,
        fun c j _ => hth c j⟩

/-! ## CKPT, HALT and FENCEO (R454 to R456) -/

theorem unsealed_plain {s : State} (h : s.ckpts s.myCtx = false) (o : Ops) : unsealed o s = false := by
  unfold State.ckpts at h
  unfold unsealed
  split
  · next hc =>
    rw [hc] at h
    dsimp only at h
    rw [h]
    rfl
  · rfl

theorem ckpt_eff (h : Hdr) (o : Ops) (s : State) :
    (bodyCkpt h).eff o s = if unsealed o s then .wait (s.wantSeal s.myCtx) .system 0 else .done s := rfl

theorem halt_eff (h : Hdr) (o : Ops) (s : State) : (bodyHalt h).eff o s = .done (if s.mgmt.dbgen then haltMe s else s) := rfl

theorem fenceo_eff (h : Hdr) (o : Ops) (s : State) : (bodyFenceo h).eff o s =
    if unsealed o s then .wait (s.wantSeal s.myCtx) .system 0
    else if s.me.unacked ≠ 0 || copiesOut s s.me.ref then .wait s .system 0
    else .done s := rfl

theorem haltMe_follows (s : State) : (haltMe s).mem = s.mem ∧ (haltMe s).me.halted = true ∧ (haltMe s).me.registers = s.me.registers ∧
    (haltMe s).me.full = s.me.full ∧ (haltMe s).me.csr = s.me.csr ∧ ((haltMe s).vat (vatOf s.curCore)).dbgctl.getLsbD 0 = true ∧
    (∃ r, (haltMe s).mgmt.blackbox.head? = some r ∧ fld r 72 8 = 0x0E ∧ fld r 32 32 = vatOf s.curCore % 2 ^ 32) ∧
    ∀ c k, c * 8 + k ≠ s.curCore * 8 + s.curSlot → (haltMe s).thread c k = s.thread c k := by
  have hme : (haltMe s).me = { s.me with halted := true, haltOwn := true } := me_modMe s fun t => { t with halted := true, haltOwn := true }
  have hvat : (haltMe s).vat (vatOf s.curCore) = { s.vat (vatOf s.curCore) with dbgctl := (s.vat (vatOf s.curCore)).dbgctl ||| 1 } :=
    vat_modVat_same (s.modMe fun t => { t with halted := true, haltOwn := true }) (vatOf s.curCore) fun x =>
      { x with dbgctl := x.dbgctl ||| 1 }
  rw [hme, hvat]
  refine ⟨rfl, rfl, rfl, rfl, rfl, ?_, blackbox_newest _ _ _ _, fun c k h =>
    thread_modMe_other s (fun t => { t with halted := true, haltOwn := true }) h⟩
  rw [BitVec.getLsbD_or, Bool.or_eq_true]
  exact .inr rfl

/-- Settles O37. -/
theorem swapsAndFences : Obligations.SwapsAndFences := by
  unfold Obligations.SwapsAndFences
  refine ⟨fun h a b s s1 o hi => ?ctxsw, fun h s s1 o hi => ?ckpt, fun h s s1 o hi => ?halt, fun h s s1 o hi => ?fenceo⟩
  case ctxsw =>
    have hok := ctxswOk_of_issues hi
    refine ⟨fun hbad => ?_, fun _ hw => exec_wait hi rfl (ctxswEff_waits hok hw), fun _ hno hw hp =>
      ⟨_, exec_done hi rfl (ctxswEff_swaps hok hno hw hp), swapCloset_rows _ _ _ _⟩⟩
    exact absurd hok (ne_true_of_eq_false hbad)
  case ckpt =>
    exact ⟨fun hu => exec_wait hi rfl ((ckpt_eff h o s1).trans (if_pos hu)),
      fun hc => exec_done hi rfl ((ckpt_eff h o s1).trans (if_neg (ne_true_of_eq_false (unsealed_plain hc o))))⟩
  case halt =>
    refine ⟨fun hoff => exec_done hi rfl ?_, fun hon => ⟨haltMe s1, exec_done hi rfl ?_, haltMe_follows s1⟩⟩
    · rw [halt_eff, if_neg (ne_true_of_eq_false hoff)]
    · rw [halt_eff, if_pos hon]
  case fenceo =>
    refine ⟨fun hu => exec_wait hi rfl ?_, fun hu hw => exec_wait hi rfl ?_, fun hu ha hc => exec_done hi rfl ?_⟩
    · rw [fenceo_eff, if_pos hu]
    · rw [fenceo_eff, if_neg (ne_true_of_eq_false hu), if_pos (by simpa using hw)]
    · rw [fenceo_eff, if_neg (ne_true_of_eq_false hu), if_neg (by simp [ha, hc])]

end Sys2Proof.Machine
end

