-- ==== Sys2Proof/Proofs/CanonCarriers.lean ====
section
/-! SUPPORT. Memory stays canonical (O45): what it says of a state, an effect and an answer, and changes over lists. -/

namespace Sys2Proof.Machine

/-- Memory is in its canonical form. Each function that a step runs keeps it, and `canon_f` says so of the function f. -/
def Canon (s : State) : Prop := Memory.wf s.mem = true

/-! Memory is written by `State.setByte`, `State.setBytes`, `State.clear` and by filters alone, and the lemmas at the end of this file
say that these keep the form. Every other `canon_f` goes by the branches of f: each result is the state itself, the state with other
fields changed, or what a function gives that a lemma before has settled. Where f answers `some t`, `.ok t` or the like, the lemma is
about that t. -/

/-! ## Answers that hold a state

The same of the state that an answer holds, by the answer's constructors. -/

def EffCanon : Eff → Prop
  | .done s | .jump s _ _ | .hold s _ _ | .wait s _ _ | .trap s _ _ _ | .trapNext s _ _ | .gone s => Canon s

def BarCanon : BarRes → Prop
  | .ok s => Canon s
  | .held _ => True

def DrainedCanon : Drained → Prop
  | .ok s | .wait s | .stopped s _ => Canon s

def RegisteredCanon : Registered → Prop
  | .ok s => Canon s
  | _ => True

def LandingCanon : Landing → Prop
  | .ok s _ | .delay s => Canon s
  | _ => True

def TurnCanon : Turn → Prop
  | .one _ s | .did s => Canon s

def TurnEffCanon (t : TurnEff) : Prop := EffCanon t.e

def MoveCanon : Move → Prop
  | .run _ s | .did s => Canon s

def HubMoveCanon : HubMove → Prop
  | .done s | .fault s _ _ | .wait s _ => Canon s

def FetchedCanon : Fetched → Prop
  | .ok s _ => Canon s
  | _ => True

def PlaceCanon : Place → Prop
  | .ok s _ => Canon s
  | _ => True

def LaneCanon : (State × Vec) ⊕ Eff → Prop
  | .inl x => Canon x.1
  | .inr e => EffCanon e

def LaneXlCanon : State × (Xl ⊕ Eff) → Prop
  | (s, .inl _) => Canon s
  | (_, .inr e) => EffCanon e

def BothCanon : State ⊕ State → Prop
  | .inl s | .inr s => Canon s

/-- The effect of an instruction keeps memory canonical, whatever the operands. -/
def EffKeeps (f : Ops → State → Eff) : Prop := ∀ o s, Canon s → EffCanon (f o s)

def BodyCanon (b : Body) : Prop := EffKeeps b.eff

theorem BodyCanon.eff_of {b : Body} (hb : BodyCanon b) {s : State} (hs : Canon s) (o : Ops) : EffCanon (b.eff o s) := hb o s hs

/-! ## Changes over a list

Each has a second form as a disjunction, in which a search for instances can use it: it names the one change that would have to
break the form. -/

theorem canon_foldl_of {α : Type} {f : State → α → State} (hf : ∀ s x, Canon s → Canon (f s x)) :
    ∀ (l : List α) {s : State}, Canon s → Canon (l.foldl f s)
  | [], _, hs => hs
  | x :: l, s, hs => canon_foldl_of hf l (hf s x hs)

theorem canon_foldl {α : Type} {f : State → α → State} {l : List α} {s : State} :
    (∃ s x, Canon s ∧ ¬ Canon (f s x)) ∨ ¬ Canon s ∨ Canon (l.foldl f s) := by
  by_cases hf : ∀ s x, Canon s → Canon (f s x)
  · by_cases hs : Canon s
    · exact Or.inr (Or.inr (canon_foldl_of hf l hs))
    · exact Or.inr (Or.inl hs)
  · left
    simpa using hf

theorem canon_foldSpan_of {f : State → Nat → State} (hf : ∀ s i, Canon s → Canon (f s i)) (a n : Nat) {s : State} (hs : Canon s) :
    Canon (foldSpan f s a n) := by
  induction n generalizing s a with
  | zero => exact hs
  | succ n ih => exact ih _ (hf _ _ hs)

theorem canon_foldSpan {f : State → Nat → State} {s : State} {a n : Nat} :
    (∃ s i, Canon s ∧ ¬ Canon (f s i)) ∨ ¬ Canon s ∨ Canon (foldSpan f s a n) := by
  by_cases hf : ∀ s i, Canon s → Canon (f s i)
  · by_cases hs : Canon s
    · exact Or.inr (Or.inr (canon_foldSpan_of hf a n hs))
    · exact Or.inr (Or.inl hs)
  · left
    simpa using hf

theorem canon_getD {x : Option State} {s : State} : (∃ t, x = some t ∧ ¬ Canon t) ∨ ¬ Canon s ∨ Canon (x.getD s) := by
  cases x <;> grind

theorem except_map_eq_ok {ε α β : Type} {f : α → β} {x : Except ε α} {y : β} :
    Except.map f x = .ok y ↔ ∃ a, x = .ok a ∧ f a = y := by
  cases x <;> simp [Except.map]

/-! ## The writes of memory -/

theorem canon_of_mem {s t : State} (h : t.mem = s.mem) (hs : Canon s) : Canon t := by
  unfold Canon
  rw [h]
  exact hs

theorem canon_withGraphs {s : State} (gs : List (Nat × Graph)) (hs : Canon s) : Canon { s with graphs := gs } := hs

theorem canon_filter {s : State} (p : Host.Cell → Bool) (hs : Canon s) : Memory.wf (s.mem.filter p) = true := Tbl.wf_filter p hs

theorem canon_setByte {s : State} (hs : Canon s) (pa : Nat) (b : Byte) : Canon (s.setByte pa b) := wf_setByte hs pa b

theorem canon_setBytes {s : State} (hs : Canon s) (pa : Nat) (b : List Byte) : Canon (s.setBytes pa b) := wf_setBytes hs pa b

theorem canon_clear {s : State} (hs : Canon s) (pa n : Nat) : Canon (s.clear pa n) := wf_clear hs pa n

end Sys2Proof.Machine
end

