-- ==== Sys2Proof/Proofs/CanonThreads.lean ====
section
/-! SUPPORT. Memory stays canonical (O45): changes of threads, contexts and queues, completion records, traps, and how a thread settles. -/

namespace Sys2Proof.Machine

theorem canon_setThread {s : State} (core slot : Nat) (t : Thread) (hs : Canon s) : Canon (State.setThread s core slot t) := by
  grind [State.setThread, Canon]

theorem canon_setMe {s : State} (t : Thread) (hs : Canon s) : Canon (State.setMe s t) := by
  grind [State.setMe, Canon, canon_setThread]

theorem canon_modMe {s : State} (f : Thread → Thread) (hs : Canon s) : Canon (State.modMe s f) := by
  grind [State.modMe, Canon, canon_setMe]

theorem canon_modThread {s : State} (core slot : Nat) (f : Thread → Thread) (hs : Canon s) :
    Canon (State.modThread s core slot f) := by
  grind [State.modThread, Canon, canon_setThread]

theorem canon_modCrew {s : State} (n : Nat) (f : Crew → Crew) (hs : Canon s) : Canon (State.modCrew s n f) := by
  grind [State.modCrew, Canon]

theorem canon_modLoc {s : State} (l : Loc) (f : Thread → Thread) (hs : Canon s) : Canon (State.modLoc s l f) := by
  cases l <;> grind [State.modLoc, Canon, canon_modThread, canon_modCrew, Option.map_eq_some_iff]

theorem canon_write {s : State} (pa n v : Nat) (hs : Canon s) : Canon (State.write s pa n v) := by
  grind [State.write, Canon, canon_setBytes]

theorem canon_modCtx {s : State} (n : Nat) (f : Ctx → Ctx) (hs : Canon s) : Canon (State.modCtx s n f) := by
  grind [State.modCtx, Canon]

theorem canon_free {s : State} (hs : Canon s) : Canon (State.free s).2 := by
  grind [State.free, Canon]

theorem canon_modMgmt {s : State} (f : Mgmt → Mgmt) (hs : Canon s) : Canon (State.modMgmt s f) := by
  grind [State.modMgmt, Canon]

theorem canon_blackbox {s : State} (kind unit detail : Nat) (hs : Canon s) : Canon (State.blackbox s kind unit detail) := by
  grind [State.blackbox, Canon, canon_free, canon_modMgmt]

theorem canon_writeSave {s : State} (n : Nat) (c : Crew) (sv : CrewSave) (at_ : Nat) (hs : Canon s) :
    Canon (writeSave s n c sv at_) := by
  unfold writeSave
  dsimp only
  refine canon_foldl_of (fun s e hs => ?_) _ (canon_foldl_of (fun s i hs => ?_) _
    (canon_foldl_of (fun s e hs => canon_setByte hs _ _) _
      (canon_foldl_of (fun s e hs => canon_setBytes hs _ _) _ (canon_setBytes (canon_clear hs _ _) _ _))))
  · exact canon_setBytes (canon_foldl_of (fun s w hs => canon_write _ _ _ hs) _ hs) _ _
  · exact canon_setBytes (canon_setBytes hs _ _) _ _

theorem canon_dropAgents {s : State} (n : Nat) (hs : Canon s) : Canon (State.dropAgents s n) := by
  grind [State.dropAgents, Canon, Option.map_eq_some_iff]

theorem canon_clearPresses {s : State} (c : Crew) (hs : Canon s) : Canon (State.clearPresses s c) := by
  grind [State.clearPresses, Canon, canon_foldl]

theorem canon_dropThreads {s : State} (n : Nat) (hs : Canon s) : Canon (State.dropThreads s n) := by
  grind [State.dropThreads, Canon]

theorem canon_freeCrew {s : State} (n : Nat) (hs : Canon s) : Canon (freeCrew s n) := by
  grind [freeCrew, Canon, canon_dropAgents, canon_clearPresses, canon_dropThreads]

theorem canon_linkGraphs {s : State} (ctx : Nat) (hs : Canon s) : Canon (linkGraphs s ctx) := by
  grind [linkGraphs, Canon, canon_write, canon_foldl, Option.map_eq_some_iff]

theorem canon_modHub {s : State} (f : Hub → Hub) (hs : Canon s) : Canon (State.modHub s f) := by
  grind [State.modHub, Canon]

theorem canon_modQueue {s : State} (q : Nat) (f : Queue → Queue) (hs : Canon s) : Canon (State.modQueue s q f) := by
  grind [State.modQueue, Canon, canon_modHub]

theorem canon_refreshQueue {s : State} (q : Nat) (hs : Canon s) : Canon (refreshQueue s q) := by
  grind [refreshQueue, Canon, canon_modQueue]

theorem canon_writeEnds {s : State} (c : Ctx) (hs : Canon s) : Canon (State.writeEnds s c) := by
  grind [State.writeEnds, Canon, canon_write]

theorem canon_putEntry {s : State} (c : Ctx) (pa : Nat) (bs : List Byte) (hs : Canon s) : Canon (State.putEntry s c pa bs) := by
  grind [State.putEntry, Canon, canon_writeEnds, canon_setBytes, canon_write]

theorem canon_holdRecord {s : State} (ctx q : Nat) (r : BitVec 256) (irq : Bool) (cmd : Option Cmd) (hs : Canon s) :
    Canon (holdRecord s ctx q r irq cmd) := by
  grind [holdRecord, Canon, canon_putEntry]

theorem canon_ringFault {s : State} (q : Nat) (hs : Canon s) : Canon (State.ringFault s q) := by
  grind [State.ringFault, Canon, canon_modQueue]

theorem canon_signal {s : State} (vec : Nat) (hs : Canon s) : Canon (State.signal s vec) := by
  grind [State.signal, Canon, canon_modHub]

theorem canon_putRecord {s : State} (q : Nat) (r : BitVec 256) (irq : Bool) (hs : Canon s) : Canon (putRecord s q r irq) := by
  grind [putRecord, Canon, canon_ringFault, canon_write, canon_modQueue, canon_signal]

theorem canon_record {s : State} (q : Nat) (r : BitVec 256) (irq : Bool) (cmd : Option Cmd) (hs : Canon s) :
    Canon (State.record s q r irq cmd) := by
  cases cmd <;> grind [State.record, Canon, canon_holdRecord, canon_putRecord]

theorem canon_keepSilent {s : State} (q : Nat) (cmd : Option Cmd) (hs : Canon s) : Canon (keepSilent s q cmd) := by
  cases cmd <;> grind [keepSilent, Canon, canon_modCtx]

theorem canon_finish {s : State} (q id seq typ status detail aux : Nat) (cpl irq : Bool) (hs : Canon s) :
    Canon (finish s q id seq typ status detail aux cpl irq) := by
  grind [finish, Canon, canon_modQueue, canon_record, canon_keepSilent]

theorem canon_complete {s : State} (q id seq typ status detail aux : Nat) (cpl irq : Bool) (hs : Canon s) :
    Canon (complete s q id seq typ status detail aux cpl irq) := by
  grind [complete, Canon, canon_refreshQueue, canon_finish]

theorem canon_endGraph {s : State} (gid status detail : Nat) (hs : Canon s) : Canon (endGraph s gid status detail) := by
  grind [endGraph, Canon, canon_freeCrew, canon_linkGraphs, canon_complete, canon_foldl]

theorem canon_freezeAt {s : State} (l : Loc) (core slot cause : Nat) (addr aux : Word) (hs : Canon s) :
    Canon (freezeAt s l core slot cause addr aux) := by
  grind [freezeAt, Canon, canon_modLoc, canon_write, canon_setBytes, canon_modCtx, canon_blackbox, canon_writeSave, canon_endGraph]

theorem canon_freeze {s : State} (core slot cause : Nat) (addr aux : Word) (hs : Canon s) :
    Canon (freeze s core slot cause addr aux) := by
  grind [freeze, Canon, canon_freezeAt]

theorem canon_modGraph {s : State} (n : Nat) (f : Graph → Graph) (hs : Canon s) : Canon (State.modGraph s n f) := by
  grind [State.modGraph, Canon]

theorem canon_markUncorr {s : State} (crew cause : Nat) (hs : Canon s) : Canon (markUncorr s crew cause) := by
  grind [markUncorr, Canon, canon_modGraph]

theorem canon_takeTrap {s : State} (core slot cause : Nat) (addr aux tpc : Word) (pm async : Bool) (hs : Canon s) :
    Canon (takeTrap s core slot cause addr aux tpc pm async) := by
  grind [takeTrap, Canon, canon_freeze, canon_setThread, canon_markUncorr]

theorem canon_takeAsync {s : State} (core slot : Nat) (hs : Canon s) : Canon (takeAsync s core slot) := by
  grind [takeAsync, Canon, canon_setThread, canon_takeTrap]

theorem canon_moverHandler {s : State} (hs : Canon s) : Canon (moverHandler s) := by
  grind [moverHandler, Canon, canon_modMe]

theorem canon_fresh {s : State} (hs : Canon s) : Canon (State.fresh s).2 := by
  grind [State.fresh, Canon, canon_modHub]

theorem canon_parkMe {s : State} (why : ParkWhy) (key : Nat) (resume : List (Instr × Ops)) (next : Option Word) (hs : Canon s) :
    Canon (parkMe s why key resume next) := by
  grind [parkMe, Canon, canon_fresh, canon_setMe]

theorem canon_moverPop {s : State} (hs : Canon s) : Canon (moverPop s) := by
  grind [moverPop, Canon, canon_modMe, canon_parkMe]

theorem canon_modStream {s : State} (r : Nat) (f : StreamBind → StreamBind) (hs : Canon s) : Canon (State.modStream s r f) := by
  grind [State.modStream, Canon, canon_modMe]

theorem canon_stopMe {s : State} (st : Stop) (pm : Bool) (hs : Canon s) : Canon (stopMe s st pm) := by
  rcases st with ⟨_, _, _, _, _ | _⟩ | _ <;> grind [stopMe, Canon, canon_parkMe, canon_modStream, canon_takeTrap]

theorem canon_debit {s : State} (d : Nat) (hs : Canon s) {t : State} (he : debit s d = .ok t) : Canon t := by
  grind [debit, Canon, canon_modMe]

theorem canon_setSkip {s : State} (w : Nat) (hs : Canon s) : Canon (setSkip s w) := by
  grind [setSkip, Canon, canon_modMe]

theorem canon_goOn {s : State} (pc : Word) (img : Option LineImg) (hs : Canon s) : Canon (goOn s pc img) := by
  grind [goOn, Canon, canon_modMe]

theorem canon_settle {s0 : State} (members : List (Instr × Ops)) (w : Nat) (nxt : Word) (e : Eff) (h_e : EffCanon e) :
    Canon (settle s0 members w nxt e) := by
  cases e <;> grind [settle, Canon, canon_setSkip, canon_goOn, canon_parkMe, canon_takeTrap, EffCanon]

theorem canon_moverSettle {s0 : State} (members : List (Instr × Ops)) (e : Eff) (h_e : EffCanon e) :
    Canon (moverSettle s0 members e) := by
  cases e <;> cases members <;> grind [moverSettle, Canon, canon_parkMe, canon_settle, EffCanon]

theorem canon_moverIssue {s : State} (i : Instr) (b : Body) (o : Ops) (ok sent : MoverStage) (hs : Canon s) (hb : BodyCanon b) :
    Canon (moverIssue s i b o ok sent) := by
  grind [moverIssue, canon_stopMe, → canon_debit, canon_moverSettle, EffCanon, canon_modMe, ! BodyCanon.eff_of]

end Sys2Proof.Machine
end

