-- ==== Sys2Proof/Proofs/CanonAccess.lean ====
section
/-! SUPPORT. Memory stays canonical (O45): translations, traces, barrier updates, streams, accesses, copies, and the movement thread. -/

namespace Sys2Proof.Machine

theorem canon_dropHolds {s : State} (owner : Nat) (p : Hold → Bool) (hs : Canon s) : Canon (State.dropHolds s owner p) := by
  grind [State.dropHolds, Canon, Option.map_eq_some_iff]

theorem canon_bump {s : State} (off n : Nat) (hs : Canon s) : Canon (State.bump s off n) := by
  grind [State.bump, Canon]

theorem canon_modCore {s : State} (c : Nat) (f : Core → Core) (hs : Canon s) : Canon (State.modCore s c f) := by
  grind [State.modCore, Canon]

theorem canon_merge {s : State} (slice pa : Nat) (hs : Canon s) : Canon (State.merge s slice pa) := by
  grind [State.merge, Canon, canon_bump]

theorem canon_countWalk {s : State} (ctx va : Nat) (hs : Canon s) : Canon (State.countWalk s ctx va) := by
  grind [State.countWalk, Canon, canon_merge, canon_foldl]

theorem canon_modVat {s : State} (v : Nat) (f : Vat → Vat) (hs : Canon s) : Canon (State.modVat s v f) := by
  grind [State.modVat, Canon]

theorem canon_tlbLookup {s : State} (core ctx va : Nat) (hs : Canon s) : Canon (tlbLookup s core ctx va).1 := by
  grind [tlbLookup, Canon, canon_bump, canon_modCore, canon_countWalk, canon_modVat]

theorem canon_translate {s : State} (core ctx : Nat) (user tlb : Bool) (va : Word) (acc : Acc) (hs : Canon s) :
    Canon (translate s core ctx user tlb va acc).1 := by
  grind [translate, Canon, canon_tlbLookup, canon_countWalk]

theorem canon_ringPut {s : State} (ctx a : Nat) (bs : List Byte) (hs : Canon s) {t : State} (he : ringPut s ctx a bs = some t) :
    Canon t := by
  induction bs generalizing s a with
  | nil => grind [ringPut]
  | cons b r ih => grind [ringPut, canon_setByte]

theorem canon_profPut {s : State} (ctx : Nat) (bs : List Byte) (hs : Canon s) : Canon (profPut s ctx bs) := by
  grind [profPut, Canon, → canon_ringPut, canon_modCtx, canon_getD, Option.bind_eq_some_iff]

theorem canon_profWrite {s : State} (ctx : Nat) (bs : List Byte) (hs : Canon s) : Canon (profWrite s ctx bs) := by
  grind [profWrite, Canon, canon_profPut]

theorem canon_trace {s : State} (ctx kind tag arg core slot : Nat) (hs : Canon s) : Canon (trace s ctx kind tag arg core slot) := by
  grind [trace, Canon, canon_profWrite]

theorem canon_traceTb {s0 : State} (ctx pa : Nat) (arr : Bool) (who : Option (Nat × Nat)) {s : State} (hs : Canon s) :
    Canon (traceTb s0 ctx pa arr who s) := by
  grind [traceTb, Canon, canon_free, canon_trace]

theorem canon_madeBar {s : State} (src : BarSrc) (hs : Canon s) : Canon (State.madeBar s src) := by
  grind [State.madeBar, Canon]

theorem canon_updateAt {s : State} (core ctx : Nat) (va : Word) (src : BarSrc) (f : Nat → State) (hs : Canon s)
    (hf : ∀ b, Canon (f b)) : BarCanon (updateAt s core ctx va src f) := by
  grind [updateAt, Canon, canon_traceTb, canon_madeBar, BarCanon]

theorem canon_modRef {s : State} (r : TRef) (f : Thread → Thread) (hs : Canon s) : Canon (State.modRef s r f) := by
  grind [State.modRef, Canon, canon_modLoc]

theorem canon_postNotify {s : State} (ctx core slot : Nat) (n : Notify) (hs : Canon s) : Canon (postNotify s ctx core slot n) := by
  grind [postNotify, Canon, canon_modRef]

theorem canon_tbComplete {s : State} (ctx pa b : Nat) (hs : Canon s) : Canon (tbComplete s ctx pa b) := by
  grind [tbComplete, Canon, canon_write, canon_postNotify]

theorem canon_barUpdate {s : State} (ctx pa : Nat) (arr : Bool) (sec : Int) (hs : Canon s) {t : State}
    (he : barUpdate s ctx pa arr sec = .ok t) : Canon t := by
  grind [barUpdate, Canon, canon_tbComplete, canon_write]

theorem canon_countSector {s : State} (ctx pa : Nat) (hs : Canon s) : Canon (countSector s ctx pa) := by
  grind [countSector, Canon, canon_barUpdate]

theorem canon_countAt {s : State} (core ctx : Nat) (va : Word) (src : BarSrc) (hs : Canon s) :
    BarCanon (countAt s core ctx va src) := by
  grind [countAt, Canon, ! canon_updateAt, BarCanon, canon_countSector]

theorem canon_holdBar {s : State} (crew : Nat) (src : BarSrc) (hs : Canon s) : Canon (State.holdBar s crew src) := by
  grind [State.holdBar, Canon]

theorem canon_drainStream {s : State} (r : Nat) (hs : Canon s) : DrainedCanon (drainStream s r) := by
  unfold drainStream
  dsimp only
  split
  · exact canon_modStream _ _ hs
  · grind [canon_modStream, canon_dropHolds, ! canon_countAt, BarCanon, canon_holdBar, DrainedCanon]

theorem canon_drainAll {s : State} (l : List Nat) (hs : Canon s) : DrainedCanon (drainAll s l) := by
  induction l generalizing s with
  | nil => exact hs
  | cons r l ih =>
    have hr := canon_drainStream r hs
    change DrainedCanon (match drainStream s r with | .ok s => drainAll s l | x => x)
    cases hd : drainStream s r with
    | ok t => exact ih (by rw [hd] at hr; exact hr)
    | wait t => rw [hd] at hr; exact hr
    | stopped t f => rw [hd] at hr; exact hr

theorem canon_traceMe {s : State} (kind tag arg : Nat) (hs : Canon s) : Canon (traceMe s kind tag arg) := by
  grind [traceMe, Canon, canon_trace]

theorem canon_traceBar {s : State} (kind ap : Nat) (hs : Canon s) : Canon (traceBar s kind ap) := by
  grind [traceBar, Canon, canon_free, canon_traceMe]

theorem canon_mapThreads {s : State} (f : Thread → Thread) (hs : Canon s) : Canon (State.mapThreads s f) := by
  grind [State.mapThreads, Canon, Option.map_eq_some_iff]

theorem canon_releaseBar {s : State} (n b : Nat) (hs : Canon s) : Canon (releaseBar s n b) := by
  grind [releaseBar, Canon, canon_mapThreads]

theorem canon_completeBar {s : State} (n b : Nat) (hs : Canon s) : Canon (completeBar s n b) := by
  grind [completeBar, Canon, canon_traceBar, canon_releaseBar]

theorem canon_lowerBar {s : State} (n b : Nat) (hs : Canon s) : Canon (lowerBar s n b) := by
  grind [lowerBar, Canon, canon_completeBar]

theorem canon_exitBars {s : State} (n : Nat) (t : Thread) (hs : Canon s) : Canon (exitBars s n t) := by
  grind [exitBars, Canon, canon_modCrew, canon_lowerBar, canon_foldSpan]

theorem canon_exitEff {s : State} (hs : Canon s) : EffCanon (exitEff s) := by
  grind [exitEff, Canon, ! canon_drainAll, DrainedCanon, canon_setMe, canon_exitBars, EffCanon]

theorem canon_wsDelay {s : State} (core who pa n : Nat) (hs : Canon s) {t : State} (he : State.wsDelay s core who pa n = some t) :
    Canon t := by
  grind [State.wsDelay, Canon, canon_bump]

theorem canon_watch {s : State} (va : Word) (n : Nat) (hs : Canon s) : Canon (State.watch s va n) := by
  grind [State.watch, Canon]

theorem canon_endLeases {s : State} (keep : Option Nat) (pa : Nat) (hs : Canon s) : Canon (State.endLeases s keep pa) := by
  grind [State.endLeases, Canon]

theorem canon_countDram {s : State} (pa slice : Nat) (hs : Canon s) : Canon (State.countDram s pa slice) := by
  grind [State.countDram, Canon, canon_bump]

theorem canon_writeBack {s : State} (line slice : Nat) (hs : Canon s) : Canon (State.writeBack s line slice) := by
  grind [State.writeBack, Canon, canon_countDram]

theorem canon_recall {s : State} (slice pa : Nat) (hs : Canon s) : Canon (State.recall s slice pa) := by
  grind [State.recall, Canon, canon_writeBack]

theorem canon_touchL2 {s : State} (slice pa : Nat) (wr ef : Bool) (keep : Option Nat) (hs : Canon s) :
    Canon (State.touchL2 s slice pa wr ef keep) := by
  grind [State.touchL2, Canon, canon_endLeases, canon_recall, canon_countDram, canon_writeBack]

theorem canon_engineRead {s : State} (die slice pa : Nat) (ef : Bool) (hs : Canon s) :
    Canon (State.engineRead s die slice pa ef) := by
  grind [State.engineRead, Canon, canon_touchL2, canon_merge, canon_bump]

theorem canon_threadRead {s : State} (core slice pa : Nat) (fetch ef : Bool) (hs : Canon s) :
    Canon (State.threadRead s core slice pa fetch ef) := by
  grind [State.threadRead, Canon, canon_touchL2, canon_merge, canon_engineRead]

theorem canon_threadAccess {s : State} (va : Word) (n : Nat) (acc : Acc) (count : Bool) (hs : Canon s) :
    Canon (threadAccess s va n acc count).1 := by
  exact canon_of_mem (threadAccess_only s va n acc count).mem hs

theorem canon_migrate {s : State} (home : Nat) (va pc : Word) (hs : Canon s) : EffCanon (migrate s home va pc) := by
  grind [migrate, Canon, canon_parkMe, EffCanon]

theorem canon_access {s : State} (va : Word) (n : Nat) (acc : Acc) (atomic : Bool) (k : State → Xl → Eff) (hs : Canon s)
    (hk : ∀ s x, Canon s → EffCanon (k s x)) : EffCanon (access s va n acc atomic k) := by
  grind [access, Canon, canon_threadAccess, ! canon_migrate, EffCanon]

theorem canon_addHolds {s : State} (l : List Hold) (hs : Canon s) : Canon (State.addHolds s l) := by
  grind [State.addHolds, Canon]

theorem canon_register {s : State} (l : List Hold) (hs : Canon s) : RegisteredCanon (register s l) := by
  grind [register, Canon, canon_addHolds, RegisteredCanon, → List.exists_of_findSome?_eq_some, Option.map_eq_some_iff]

theorem canon_modCrewCore {s : State} (n lc : Nat) (f : CrewCore → CrewCore) (hs : Canon s) :
    Canon (State.modCrewCore s n lc f) := by
  grind [State.modCrewCore, Canon, canon_modCrew]

theorem canon_takeBuffers {s : State} (b : BitVec 4) (c : CopyRec) (hs : Canon s) : Canon (takeBuffers s b c) := by
  grind [takeBuffers, Canon, canon_modCrewCore, canon_foldl]

theorem canon_traceCopy {s : State} (kind : Nat) (c : CopyCmd) (landed : Nat) (hs : Canon s) :
    Canon (traceCopy s kind c landed) := by
  grind [traceCopy, Canon, canon_trace]

theorem canon_copyEff (k : Nat) (b : BitVec 4) (o : Ops) {s : State} (hs : Canon s) : EffCanon (copyEff k b o s) := by
  grind [copyEff, Canon, canon_fresh, ! canon_register, RegisteredCanon, canon_takeBuffers, canon_traceCopy, canon_modVat, EffCanon]

theorem bodyCanon_copyBody (h : Hdr) (k : Nat) (b : BitVec 4) (blk : Block) : BodyCanon (copyBody h k b blk) :=
  fun o _ hs => canon_copyEff k b o hs

theorem canon_moverRequest {blk : BitVec 512} {out : Instr × Body} (he : moverRequest blk = some out) : BodyCanon out.2 := by
  unfold moverRequest at he
  dsimp only at he
  split at he <;> cases he <;> exact bodyCanon_copyBody _ _ _ _

theorem canon_holdOut {s : State} (ctx pa : Nat) (bs : List Byte) (hs : Canon s) {t : State} (he : holdOut s ctx pa bs = some t) :
    Canon t := by
  grind [holdOut, Canon, canon_putEntry]

theorem canon_unpoison {s : State} (pa n : Nat) (hs : Canon s) : Canon (State.unpoison s pa n) := by
  grind [State.unpoison, Canon]

theorem canon_logLine {s : State} (ctx pa : Nat) (pte : BitVec 64) (hs : Canon s) {t : State} (he : logLine s ctx pa pte = some t) :
    Canon t := by
  grind [logLine, Canon, canon_writeEnds, canon_write]

theorem canon_storeLine {s : State} (ctx die pa : Nat) (pte : BitVec 64) (bs : List Byte) (hs : Canon s) {t : State}
    (he : storeLine s ctx die pa pte bs = some t) : Canon t := by
  grind [storeLine, Canon, canon_holdOut, canon_unpoison, canon_setBytes, canon_logLine, canon_foldl, Option.map_eq_some_iff]

theorem canon_wantSeal {s : State} (ctx : Nat) (hs : Canon s) : Canon (State.wantSeal s ctx) := by
  grind [State.wantSeal, Canon, canon_modCtx]

theorem canon_ackOut {s : State} (pa : Nat) (hs : Canon s) : Canon (ackOut s pa) := by
  grind [ackOut, Canon, canon_modMe]

theorem canon_putBytes {s : State} (x : Xl) (bs : List Byte) (k : State → Eff) (hs : Canon s) (hk : ∀ s, Canon s → EffCanon (k s)) :
    EffCanon (putBytes s x bs k) := by
  grind [putBytes, Canon, canon_storeLine, canon_wantSeal, canon_ackOut, EffCanon]

theorem canon_moverStore {s : State} (va v : Word) (next : MoverStage) (hs : Canon s) : Canon (moverStore s va v next) := by
  grind [moverStore, Canon, canon_moverSettle, ! canon_access, EffCanon, ! canon_putBytes, canon_modMe]

theorem canon_moverTurn {s : State} (hs : Canon s) : Canon (moverTurn s) := by
  have hx : BodyCanon (bodyExit plainHdr) := fun _ s hs => canon_exitEff hs
  have hr := @canon_moverRequest
  unfold moverTurn
  split
  · exact canon_moverPop hs
  · exact canon_moverIssue _ _ _ _ _ hs hx
  · exact canon_moverSettle _ _ (canon_access _ _ _ _ _ hs fun s x hs => canon_modMe _ hs)
  next va blk hm =>
    split
    · exact canon_modMe _ hs
    next i b hr =>
      split
      · exact canon_modMe _ hs
      · exact canon_moverIssue _ _ _ _ _ hs (canon_moverRequest hr)
  · exact canon_modMe _ hs
  · exact canon_moverStore _ _ _ hs
  · exact canon_moverStore _ _ _ hs

theorem canon_moverMove {s : State} (hs : Canon s) : Canon (moverMove s) := by
  grind [moverMove, Canon, canon_moverHandler, canon_moverTurn]

theorem canon_issueTrap {s : State} (pm : Bool) (cause : Nat) (addr aux : Word) (hs : Canon s) :
    Canon (issueTrap s pm cause addr aux) := by
  grind [issueTrap, Canon, canon_takeTrap]

end Sys2Proof.Machine
end

