-- ==== Sys2Proof/Proofs/CanonEffects.lean ====
section
/-! SUPPORT. Memory stays canonical (O45): what the instructions of a thread do. -/

namespace Sys2Proof.Machine

theorem canon_tryDeliver {s : State} (sender : TRef) (o : OutWord) (hs : Canon s) {t : State} (he : tryDeliver s sender o = some t) :
    Canon t := by
  grind [tryDeliver, Canon, canon_modRef]

theorem canon_sendWord {s : State} (o : OutWord) (hs : Canon s) : Canon (sendWord s o) := by
  grind [sendWord, Canon, canon_tryDeliver, canon_modMe]

theorem canon_modGQueue {s : State} (gid q : Nat) (f : GQueue → GQueue) (hs : Canon s) : Canon (State.modGQueue s gid q f) := by
  grind [State.modGQueue, Canon, canon_modGraph]

theorem canon_relist {s : State} (gid task : Nat) (hs : Canon s) : Canon (relist s gid task) := by
  grind [relist, Canon, canon_modCrew]

theorem canon_writeQHeader {s : State} (gid q : Nat) (hs : Canon s) : Canon (writeQHeader s gid q) := by
  grind [writeQHeader, Canon, canon_setBytes]

theorem canon_gqPush {s : State} (gid q : Nat) (ws : List Word) (hs : Canon s) : Canon (gqPush s gid q ws) := by
  grind [gqPush, Canon, canon_setBytes, canon_modGQueue, canon_relist, canon_writeQHeader]

theorem canon_pushG {s : State} (r : Nat) (v : Word) (hs : Canon s) : Canon (pushG s r v) := by
  grind [pushG, Canon, canon_modStream, canon_sendWord, canon_modRef, canon_gqPush]

theorem canon_giveG {s : State} (lat : Option Nat) (r : BitVec 5) (v : Word) (fl : BitVec 5) (fp : Bool) (hs : Canon s) :
    Canon (giveG s lat r v fl fp) := by
  grind [giveG, Canon, canon_modMe, canon_pushG]

theorem canon_effG (lat : Option Nat) (r : BitVec 5) (f : Ops → Word × BitVec 5) (o : Ops) {s : State} (hs : Canon s) :
    EffCanon (effG lat r f o s) := by
  grind [effG, Canon, canon_giveG, EffCanon]

theorem canon_effP (lat : Nat) (r : BitVec 4) (f : Ops → Bool × BitVec 5) (o : Ops) {s : State} (hs : Canon s) :
    EffCanon (effP lat r f o s) := by
  grind [effP, Canon, canon_modMe, EffCanon]

theorem canon_effFp (fp : Bool) (r : BitVec 5) (f : Ops → Word × BitVec 5) (o : Ops) {s : State} (hs : Canon s) :
    EffCanon (effFp fp r f o s) := by
  grind [effFp, Canon, canon_giveG, EffCanon]

theorem canon_fetchLine {s : State} (core ctx : Nat) (user : Bool) (line : Word) (hs : Canon s) :
    Canon (fetchLine s core ctx user line).1 := by
  grind [fetchLine, Canon, canon_translate, canon_wsDelay, canon_threadRead]

theorem canon_enterLine {s : State} (core ctx : Nat) (user checked : Bool) (pc : Word) (hs : Canon s) :
    Canon (enterLine s core ctx user checked pc).1 := by
  grind [enterLine, Canon, canon_fetchLine]

theorem canon_branchTo {s : State} (target : Word) (after : State → State) (hs : Canon s) (ha : ∀ s, Canon s → Canon (after s)) :
    EffCanon (branchTo s target after) := by
  grind [branchTo, Canon, canon_enterLine, canon_modMe, EffCanon]

theorem canon_giveLoaded {s : State} (r : BitVec 5) (v : Word) (fl : BitVec 5) (hs : Canon s) : EffCanon (giveLoaded s r v fl) := by
  grind [giveLoaded, Canon, canon_modMe, canon_giveG, EffCanon]

theorem canon_loading {s : State} (r : BitVec 5) (acc : State → Eff) (hs : Canon s) (ha : ∀ s, Canon s → EffCanon (acc s)) :
    EffCanon (loading s r acc) := by
  grind [loading, Canon, ! canon_giveLoaded, EffCanon]

theorem canon_loadEff (d : BitVec 5) (va : Word) (n : Nat) (sx : Bool) {s : State} (hs : Canon s) :
    EffCanon (loadEff d va n sx s) := by
  grind [loadEff, Canon, ! canon_loading, EffCanon, ! canon_access, ! canon_giveLoaded]

theorem canon_ldxRegs (d : BitVec 5) (o : Ops) (e : Eff) (h_e : EffCanon e) : EffCanon (ldxRegs d o e) := by
  cases e <;> grind [ldxRegs, Canon, canon_modMe, EffCanon]

theorem canon_loadVec (vd : BitVec 4) (sz : BitVec 2) (va : Word) (o : Ops) {s : State} (acc : State → (State → Xl → Eff) → Eff)
    (hs : Canon s) (ha : ∀ s k, Canon s → (∀ s x, Canon s → EffCanon (k s x)) → EffCanon (acc s k)) :
    EffCanon (loadVec vd sz va o s acc) := by
  grind [loadVec, Canon, canon_modMe, EffCanon]

theorem canon_putLanes {s : State} (x : Xl) (w : Nat) (v : Vec) (l : List Nat) (hs : Canon s) {t : State}
    (he : putLanes s x w v l = some t) : Canon t := by
  induction l generalizing s with
  | nil => grind [putLanes]
  | cons i l ih => grind [putLanes, canon_storeLine]

theorem canon_laneBudget {s : State} (n : Nat) (hs : Canon s) : Canon (laneBudget s n).1 := by
  grind [laneBudget, Canon]

theorem canon_laneSteps (one : State → Nat → Vec → (State × Vec) ⊕ Eff) (budget : Nat) (l : List Nat) {s : State} (n : Nat)
    (l' : Vec) (hs : Canon s) (ho : ∀ s i v, Canon s → LaneCanon (one s i v)) : LaneCanon (laneSteps one budget l s n l') := by
  induction l generalizing s budget n l' with
  | nil => grind [laneSteps, LaneCanon, canon_modMe]
  | cons i l ih => cases budget <;> grind [laneSteps, LaneCanon, EffCanon, canon_modMe]

theorem canon_laneRun (one : State → Nat → Vec → (State × Vec) ⊕ Eff) (l : List Nat) (v : Vec) {s : State} (hs : Canon s)
    (ho : ∀ s i v, Canon s → LaneCanon (one s i v)) : LaneCanon (laneRun one l v s) := by
  grind [laneRun, Canon, canon_laneBudget, ! canon_laneSteps, LaneCanon, EffCanon]

theorem canon_laneAccess {s : State} (va : Word) (n i : Nat) (acc : Acc) (hs : Canon s) :
    LaneXlCanon (laneAccess s va n i acc) := by
  grind [laneAccess, Canon, canon_threadAccess, LaneXlCanon, EffCanon]

theorem canon_gathLane (o : Ops) (w : Nat) (sx : Bool) (sc : BitVec 3) (imm : BitVec 48) {s : State} (i : Nat) (v : Vec)
    (hs : Canon s) : LaneCanon (gathLane o w sx sc imm s i v) := by
  grind [gathLane, Canon, ! canon_laneAccess, LaneXlCanon, EffCanon, LaneCanon]

theorem canon_scatLane (o : Ops) (w : Nat) (sc : BitVec 3) (imm : BitVec 48) {s : State} (i : Nat) (v : Vec) (hs : Canon s) :
    LaneCanon (scatLane o w sc imm s i v) := by
  grind [scatLane, Canon, ! canon_laneAccess, LaneXlCanon, EffCanon, canon_storeLine, canon_wantSeal, canon_ackOut, LaneCanon]

theorem canon_atomicEff (d : BitVec 5) (sz : BitVec 2) (sx : Bool) (va : Word) (f : Nat → Option Nat × BitVec 5) {s : State}
    (hs : Canon s) : EffCanon (atomicEff d sz sx va f s) := by
  grind [atomicEff, Canon, ! canon_loading, EffCanon, ! canon_access, ! canon_putBytes, ! canon_giveLoaded]

theorem canon_weightAccess {s : State} (va : Word) (n : Nat) (k : State → Xl → Eff) (hs : Canon s)
    (hk : ∀ s x, Canon s → EffCanon (k s x)) : EffCanon (weightAccess s va n k) := by
  unfold weightAccess
  split <;> grind [canon_translate, → canon_wsDelay, EffCanon]

theorem canon_sbindEff (r : Nat) (d : BitVec 320) {s : State} (hs : Canon s) : EffCanon (sbindEff r d s) := by
  grind [sbindEff, Canon, canon_fresh, ! canon_register, RegisteredCanon, canon_modStream, EffCanon]

theorem canon_setQ {s : State} (r : Nat) (w : Word) (hs : Canon s) : Canon (State.setQ s r w) := by
  grind [State.setQ, Canon, canon_modMe]

theorem canon_qbindEff (d : BitVec 5) (imm : BitVec 48) (o : Ops) {s : State} (hs : Canon s) : EffCanon (qbindEff d imm o s) := by
  grind [qbindEff, Canon, ! canon_access, EffCanon, canon_setQ]

theorem canon_putrEff (rg : BitVec 5) (o : Ops) {s : State} (hs : Canon s) : EffCanon (putrEff rg o s) := by
  grind [putrEff, Canon, canon_sendWord, EffCanon]

theorem canon_migrEff (o : Ops) {s : State} (hs : Canon s) : EffCanon (migrEff o s) := by
  grind [migrEff, Canon, canon_parkMe, EffCanon]

theorem canon_pass {s : State} (n : BitVec 3) (hs : Canon s) : EffCanon (pass s n) := by
  grind [pass, Canon, canon_modMe, EffCanon]

theorem canon_arrive {s : State} (n : BitVec 3) (hs : Canon s) : Canon (arrive s n) := by
  grind [arrive, Canon, canon_traceBar, canon_modMe, canon_lowerBar]

theorem canon_setEvent {s : State} (ctx core slot e : Nat) (hs : Canon s) : Canon (setEvent s ctx core slot e) := by
  grind [setEvent, Canon, canon_modRef]

theorem canon_dequeEff (d : BitVec 5) (imm : BitVec 48) (f : Deque → (Nat → Nat) → Nat → DqOp) (o : Ops) {s : State} (hs : Canon s) :
    EffCanon (dequeEff d imm f o s) := by
  unfold dequeEff
  refine canon_loading _ _ hs fun s hs => canon_access _ _ _ _ _ hs fun s x hs => ?_
  dsimp only
  split
  · exact hs
  split
  · exact hs
  split
  · exact hs
  split
  · exact hs
  split
  · exact hs
  · exact canon_giveLoaded _ _ _ (canon_write _ _ _ (canon_foldl_of (fun s w hs => canon_write _ _ _ hs) _ hs))

theorem canon_itemEff (o : Ops) {s : State} (hs : Canon s) : EffCanon (itemEff o s) := by
  grind [itemEff, Canon, canon_gqPush, EffCanon]

theorem canon_trapRef {s : State} (r : TRef) (cause : Nat) (addr aux : Word) (hs : Canon s) :
    Canon (trapRef s r cause addr aux) := by
  grind [trapRef, Canon, canon_takeTrap, canon_freezeAt, canon_modLoc, canon_markUncorr]

theorem canon_closePushers {s : State} (gid q : Nat) (hs : Canon s) : Canon (closePushers s gid q) := by
  grind [closePushers, Canon, canon_trapRef, canon_foldl]

theorem canon_gqEos {s : State} (gid q : Nat) (hs : Canon s) : Canon (gqEos s gid q) := by
  grind [gqEos, Canon, canon_modGQueue, canon_relist, canon_closePushers, canon_writeQHeader]

theorem canon_effV (fp : Bool) (lat : Option Nat) (r : BitVec 4) (f : Ops → Vec × BitVec 5) (o : Ops) {s : State} (hs : Canon s) :
    EffCanon (effV fp lat r f o s) := by
  grind [effV, Canon, canon_modMe, EffCanon]

theorem canon_effM (lat : Nat) (r : BitVec 3) (f : Ops → Mask × BitVec 5) (o : Ops) {s : State} (hs : Canon s) :
    EffCanon (effM lat r f o s) := by
  grind [effM, Canon, canon_modMe, EffCanon]

theorem canon_modPress {s : State} (p : Nat) (f : Press → Press) (hs : Canon s) : Canon (State.modPress s p f) := by
  grind [State.modPress, Canon]

theorem canon_joinPact {s : State} (press : Nat) (far : Bool) (tag : BitVec 8) (id : Nat) (hs : Canon s) :
    Canon (joinPact s press far tag id) := by
  grind [joinPact, Canon, canon_modMe]

theorem canon_pactEff (op : PressOp) (port : BitVec 2) (tag : BitVec 8) (o : Ops) {s : State} (hs : Canon s) :
    EffCanon (pactEff op port tag o s) := by
  grind [pactEff, Canon, canon_modPress, canon_fresh, canon_joinPact, EffCanon, Option.map_eq_some_iff]

theorem canon_enqueue {s : State} (p : Nat) (e : PressEntry) (k : State → Eff) (hs : Canon s) (hk : ∀ s, Canon s → EffCanon (k s)) :
    EffCanon (enqueue s p e k) := by
  grind [enqueue, Canon, canon_modPress, EffCanon]

theorem canon_prdlEff (h : Hdr) (a b : BitVec 5) (port : BitVec 2) (tag : BitVec 8) (p : Nat) (far : Bool) (o : Ops) {s : State}
    (hs : Canon s) : EffCanon (prdlEff h a b port tag p far o s) := by
  unfold prdlEff
  split <;> grind [canon_fresh, ! canon_register, RegisteredCanon, ! canon_enqueue, EffCanon, canon_joinPact]

theorem canon_failHalf {s : State} (press : Nat) (hh : Half) (cause : Nat) (addr aux : Word) (hs : Canon s) :
    Canon (failHalf s press hh cause addr aux) := by
  grind [failHalf, Canon, canon_modPress, canon_trapRef, canon_modRef]

theorem canon_barError {s : State} (ctx pa : Nat) (unlanded : Nat) (hs : Canon s) : Canon (barError s ctx pa unlanded) := by
  grind [barError, Canon, canon_tbComplete]

theorem canon_errorAt {s : State} (core ctx : Nat) (va : Word) (unlanded : Nat) (src : BarSrc) (hs : Canon s) :
    BarCanon (errorAt s core ctx va unlanded src) := by
  grind [errorAt, Canon, ! canon_updateAt, BarCanon, canon_barError]

theorem canon_cancelHalf {s : State} (press : Nat) (hh : Half) (cause : Nat) (aux : Word) (hs : Canon s) :
    BarCanon (cancelHalf s press hh cause aux) := by
  grind [cancelHalf, Canon, canon_dropHolds, canon_failHalf, ! canon_errorAt, BarCanon, canon_foldl, Option.map_eq_some_iff]

theorem canon_tracePress {s : State} (kind : Nat) (e : PressEntry) (hs : Canon s) : Canon (tracePress s kind e) := by
  grind [tracePress, Canon, canon_trace]

theorem canon_releaseKey {s : State} (why : ParkWhy) (key : Nat) (hs : Canon s) : Canon (releaseKey s why key) := by
  grind [releaseKey, Canon, canon_mapThreads]

theorem canon_endEntry {s : State} (press : Nat) (e : PressEntry) (st : PactState) (hs : Canon s) :
    Canon (endEntry s press e st) := by
  grind [endEntry, Canon, canon_tracePress, canon_releaseKey, canon_dropHolds, canon_modPress]

theorem canon_finishPact {s : State} (press : Nat) (e : PressEntry) (hs : Canon s) : Canon (finishPact s press e) := by
  grind [finishPact, Canon, canon_endEntry, canon_modRef, canon_modPress]

theorem canon_endGang {s : State} (g : Nat) (hs : Canon s) : Canon (endGang s g) := by
  grind [endGang, Canon, canon_finishPact, canon_dropHolds, canon_foldl]

theorem canon_cancelPact {s : State} (press : Nat) (e : PressEntry) (hs : Canon s) : BarCanon (cancelPact s press e) := by
  grind [cancelPact, Canon, canon_endEntry, canon_endGang, ! canon_errorAt, BarCanon, canon_foldl]

theorem canon_pabtEff (tag : BitVec 8) (p : Nat) (far : Bool) (o : Ops) {s : State} (hs : Canon s) :
    EffCanon (pabtEff tag p far o s) := by
  unfold pabtEff
  cases newestPact (s.press p) far tag with
  | none => exact hs
  | some e =>
    have hp := canon_cancelPact p e hs
    have hh := fun h => canon_cancelHalf p h PTIMEO (word (tagAux p far tag + 2048)) hs
    dsimp only
    split <;> grind [BarCanon, EffCanon, canon_holdBar, Canon]

theorem canon_madeBar_eff (e : Eff) (h_e : EffCanon e) : EffCanon e.madeBar := by
  cases e <;> grind [Eff.madeBar, Canon, canon_madeBar, EffCanon]

theorem canon_tbInTurn (va : Word) (eff : State → Eff) {s : State} (hs : Canon s) (he : ∀ s, Canon s → EffCanon (eff s)) :
    EffCanon (tbInTurn va eff s) := by
  grind [tbInTurn, Canon, canon_holdBar, ! canon_madeBar_eff, EffCanon]

theorem canon_tbAccess {s : State} (va : Word) (init : Bool) (k : State → Nat → Nat → Eff) (hs : Canon s)
    (hk : ∀ s pa b, Canon s → EffCanon (k s pa b)) : EffCanon (tbAccess s va init k) := by
  grind [tbAccess, Canon, ! canon_access, EffCanon]

theorem canon_tbUpdate (arr : Bool) (n : Nat) (va : Word) {s : State} (hs : Canon s) : EffCanon (tbUpdate arr n va s) := by
  unfold tbUpdate
  split <;> grind [! canon_tbInTurn, EffCanon, ! canon_tbAccess, → canon_barUpdate, canon_traceTb]

theorem canon_csrWrite {s : State} (n : Nat) (v : Word) (hs : Canon s) : Canon (csrWrite s n v) := by
  unfold csrWrite
  split <;> grind [canon_modMe, canon_modCore]

theorem canon_csrscEff (d : BitVec 5) (n : BitVec 12) (f : Word → Word → Word) (o : Ops) {s : State} (hs : Canon s) :
    EffCanon (csrscEff d n f o s) := by
  grind [csrscEff, Canon, canon_giveG, canon_csrWrite, EffCanon]

theorem canon_flushTlb {s : State} (asid : Nat) (va : Option Word) (hs : Canon s) : Canon (flushTlb s asid va) := by
  grind [flushTlb, Canon, Option.map_eq_some_iff]

theorem canon_tlbiEff (va : Option Word) (o : Ops) {s : State} (hs : Canon s) : EffCanon (tlbiEff va o s) := by
  grind [tlbiEff, Canon, canon_flushTlb, EffCanon]

theorem canon_spillCloset {s : State} (core e : Nat) (hs : Canon s) : Canon (spillCloset s core e) := by
  grind [spillCloset, Canon, canon_modCrew, canon_setBytes]

theorem canon_swapCloset {s : State} (core slot e : Nat) (hs : Canon s) : Canon (swapCloset s core slot e) := by
  grind [swapCloset, Canon, canon_fresh, canon_setThread]

theorem canon_ctxswEff (o : Ops) {s : State} (hs : Canon s) : EffCanon (ctxswEff o s) := by
  grind [ctxswEff, Canon, canon_spillCloset, canon_swapCloset, EffCanon]

theorem canon_haltMe {s : State} (hs : Canon s) : Canon (haltMe s) := by
  grind [haltMe, Canon, canon_blackbox, canon_modVat, canon_modMe]

end Sys2Proof.Machine
end

