-- ==== Sys2Proof/Proofs/CanonBodies.lean ====
section
/-! SUPPORT. Memory stays canonical (O45): the bodies of the instructions, each by the effect that it has. -/

namespace Sys2Proof.Machine

theorem bodyCanon_mk' {h : Hdr} {cls : PairClass} {srcs : List Src} {dsts : List Dst} {eff : Ops → State → Eff} (he : EffKeeps eff)
    :
    BodyCanon (Body.mk' h cls srcs dsts eff) := he

theorem bodyCanon_heavy {b : Body} (hb : BodyCanon b) : BodyCanon b.heavy := hb

theorem bodyCanon_withUnits {b : Body} (hb : BodyCanon b) (n : Nat) : BodyCanon (b.withUnits n) := hb

theorem keeps_effG (lat : Option Nat) (r : BitVec 5) (f : Ops → Word × BitVec 5) : EffKeeps (effG lat r f) :=
  fun o _ hs => canon_effG lat r f o hs

theorem keeps_effFp (fp : Bool) (r : BitVec 5) (f : Ops → Word × BitVec 5) : EffKeeps (effFp fp r f) :=
  fun o _ hs => canon_effFp fp r f o hs

theorem keeps_effP (lat : Nat) (r : BitVec 4) (f : Ops → Bool × BitVec 5) : EffKeeps (effP lat r f) :=
  fun o _ hs => canon_effP lat r f o hs

theorem keeps_effV (fp : Bool) (lat : Option Nat) (r : BitVec 4) (f : Ops → Vec × BitVec 5) : EffKeeps (effV fp lat r f) :=
  fun o _ hs => canon_effV fp lat r f o hs

theorem keeps_effM (lat : Nat) (r : BitVec 3) (f : Ops → Mask × BitVec 5) : EffKeeps (effM lat r f) :=
  fun o _ hs => canon_effM lat r f o hs

theorem bodyCanon_alu1 (h : Hdr) (d a : BitVec 5) (lat : Option Nat) (f : Word → Word) : BodyCanon (alu1 h d a lat f) :=
  bodyCanon_mk' (keeps_effG _ _ _)

theorem bodyCanon_alu2 (h : Hdr) (d a b : BitVec 5) (lat : Option Nat) (f : Word → Word → Word) : BodyCanon (alu2 h d a b lat f) :=
  bodyCanon_mk' (keeps_effG _ _ _)

theorem bodyCanon_fp2 (h : Hdr) (d a b : BitVec 5) (ty rm : BitVec 3) (lat : Option Nat) (f : Fmt → Mode → Nat → Nat → Res) :
    BodyCanon (fp2 h d a b ty rm lat f) := bodyCanon_mk' (keeps_effG _ _ _)

theorem bodyCanon_fpSel (h : Hdr) (d a b : BitVec 5) (ty : BitVec 3) (f : Fmt → Nat → Nat → Res) : BodyCanon (fpSel h d a b ty f) :=
  bodyCanon_mk' (keeps_effG _ _ _)

theorem bodyCanon_vecLanes (h : Hdr) (vd : BitVec 4) (w : Nat) (mk : BitVec 3) (srcs : List Src) (lat : Option Nat)
    (f : Ops → Nat → Res) (fp : Bool) : BodyCanon (vecLanes h vd w mk srcs lat f fp) :=
  bodyCanon_heavy (bodyCanon_mk' (keeps_effV _ _ _ _))

theorem bodyCanon_vecWhole (h : Hdr) (vd : BitVec 4) (mk : BitVec 3) (srcs : List Src) (f : Ops → Vec × BitVec 5) :
    BodyCanon (vecWhole h vd mk srcs f) := bodyCanon_heavy (bodyCanon_mk' (keeps_effV _ _ _ _))

theorem bodyCanon_vec1 (h : Hdr) (vd va : BitVec 4) (ty mk : BitVec 3) (lat : Option Nat) (f : Ops → Nat → Res) :
    BodyCanon (vec1 h vd va ty mk lat f) := bodyCanon_vecLanes _ _ _ _ _ _ _ _

theorem bodyCanon_vec2 (h : Hdr) (vd va vb : BitVec 4) (ty mk : BitVec 3) (lat : Option Nat) (f : Ops → Nat → Nat → Res) :
    BodyCanon (vec2 h vd va vb ty mk lat f) := bodyCanon_vecLanes _ _ _ _ _ _ _ _

theorem bodyCanon_vec3 (h : Hdr) (vd va vb vc : BitVec 4) (ty mk : BitVec 3) (lat : Option Nat) (f : Ops → Nat → Nat → Nat → Res) :
    BodyCanon (vec3 h vd va vb vc ty mk lat f) := bodyCanon_vecLanes _ _ _ _ _ _ _ _

theorem bodyCanon_vecBits (h : Hdr) (vd va vb : BitVec 4) (ty mk : BitVec 3) (f : Nat → Nat → Nat) :
    BodyCanon (vecBits h vd va vb ty mk f) := bodyCanon_vec2 _ _ _ _ _ _ _ _

theorem bodyCanon_vecUnary (h : Hdr) (vd va : BitVec 4) (ty mk rnd : BitVec 3) (f : Fmt → Mode → Nat → Res) :
    BodyCanon (vecUnary h vd va ty mk rnd f) := bodyCanon_vec1 _ _ _ _ _ _ _

theorem bodyCanon_vecSort (h : Hdr) (vd va vb vc : BitVec 4) (ty mk : BitVec 3) (order : Mask → Vec → List Nat) :
    BodyCanon (vecSort h vd va vb vc ty mk order) := bodyCanon_heavy (bodyCanon_mk' fun _ _ hs => canon_modMe _ hs)

theorem bodyCanon_atomicBody (h : Hdr) (d a b : BitVec 5) (sz : BitVec 2) (sx : Bool) (imm : BitVec 48) (f : Nat → Nat → Nat → Nat)
    :
    BodyCanon (atomicBody h d a b sz sx imm f) := bodyCanon_mk' fun _ _ hs => canon_atomicEff _ _ _ _ _ hs

theorem bodyCanon_dequeBody (h : Hdr) (d a b : BitVec 5) (imm : BitVec 48) (f : Deque → (Nat → Nat) → Nat → DqOp) :
    BodyCanon (dequeBody h d a b imm f) := bodyCanon_mk' fun o _ hs => canon_dequeEff _ _ _ o hs

theorem bodyCanon_pactBody (h : Hdr) (op : PressOp) (kind : RecKind) (port : BitVec 2) (tag : BitVec 8) (blk : BitVec 384) :
    BodyCanon (pactBody h op kind port tag blk) := fun o _ hs => canon_pactEff op port tag o hs

theorem bodyCanon_csrBody {h : Hdr} {n : BitVec 12} {wr light : Bool} {srcs : List Src} {dsts : List Dst} {eff : Ops → State → Eff}
    (he : EffKeeps eff) : BodyCanon (csrBody h n wr light srcs dsts eff) := he

theorem bodyCanon_tbBody {h : Hdr} {srcs : List Src} {dsts : List Dst} {top : Nat} {eff : Ops → State → Eff} (he : EffKeeps eff) :
    BodyCanon (tbBody h srcs dsts top eff) := he

theorem bodyCanon_pressBody {h : Hdr} {port : BitVec 2} {srcs : List Src} {dsts : List Dst} {eff : Nat → Bool → Ops → State → Eff}
    (he : ∀ p far, EffKeeps (eff p far)) : BodyCanon (pressBody h port srcs dsts eff) := by
  intro o s hs
  change EffCanon (match myPress s port with | some (p, far, _) => eff p far o s | none => .wait s .message 0)
  split
  next p far _ _ => exact he p far o s hs
  next => exact hs

theorem bodyCanon_imageBody (h : Hdr) (op : PressOp) (i : Instr) (a : BitVec 5) (port slot : BitVec 2) (f64 : Bool) :
    BodyCanon (imageBody h op i a port slot f64) := by
  refine bodyCanon_pressBody (h := h) (port := port) (srcs := [.a a]) (dsts := []) fun p far o s hs => ?_
  split
  next id s1 hf =>
  have h1 : Canon s1 := by
    have h := canon_fresh hs
    rwa [hf] at h
  extract_lets hd
  have hr := canon_register [hd] h1
  split
  · exact hs
  split
  · exact hs
  next s2 hs2 =>
    rw [hs2] at hr
    exact canon_enqueue _ _ _ hr fun s hs => hs
  · exact hs

theorem bodyCanon_ill : BodyCanon bodyIll := by
  intro o s hs
  simp only [bodyIll, Body.mk']
  grind [EffCanon]

theorem bodyCanon_nop (h : Hdr) : BodyCanon (bodyNop h) := by
  intro o s hs
  simp only [bodyNop, Body.mk']
  grind [EffCanon]

theorem bodyCanon_pset (h : Hdr) (a : BitVec 5) : BodyCanon (bodyPset h a) := by
  intro o s hs
  simp only [bodyPset, Body.mk']
  grind [canon_modMe, EffCanon]

theorem bodyCanon_br (h : Hdr) (tgt : BitVec 48) : BodyCanon (bodyBr h tgt) := by
  intro o s hs
  simp only [bodyBr, Body.mk']
  grind [! canon_branchTo, EffCanon]

theorem bodyCanon_brl (h : Hdr) (d : BitVec 5) (tgt : BitVec 48) : BodyCanon (bodyBrl h d tgt) := by
  intro o s hs
  simp only [bodyBrl, Body.mk']
  grind [! canon_branchTo, EffCanon, canon_giveG]

theorem bodyCanon_jmp (h : Hdr) (a : BitVec 5) : BodyCanon (bodyJmp h a) := by
  intro o s hs
  simp only [bodyJmp, Body.mk']
  grind [! canon_branchTo, EffCanon]

theorem bodyCanon_jmpl (h : Hdr) (d a : BitVec 5) : BodyCanon (bodyJmpl h d a) := by
  intro o s hs
  simp only [bodyJmpl, Body.mk']
  grind [! canon_branchTo, EffCanon, canon_giveG]

theorem bodyCanon_loop (h : Hdr) (d : BitVec 5) (tgt : BitVec 48) : BodyCanon (bodyLoop h d tgt) := by
  intro o s hs
  simp only [bodyLoop, Body.mk']
  grind [! canon_branchTo, EffCanon, canon_giveG]

theorem bodyCanon_wfw (h : Hdr) : BodyCanon (bodyWfw h) := by
  intro o s hs
  simp only [bodyWfw, Body.mk']
  grind [EffCanon]

theorem bodyCanon_yield (h : Hdr) : BodyCanon (bodyYield h) := by
  intro o s hs
  simp only [bodyYield, Body.mk']
  grind [EffCanon]

theorem bodyCanon_exit (h : Hdr) : BodyCanon (bodyExit h) := by
  intro o s hs
  simp only [bodyExit, Body.mk']
  grind [! canon_exitEff, EffCanon]

theorem bodyCanon_ld (h : Hdr) (d a b : BitVec 5) (sz : BitVec 2) (sx : Bool) (sc : BitVec 3) (imm : BitVec 48) :
    BodyCanon (bodyLd h d a b sz sx sc imm) := by
  intro o s hs
  simp only [bodyLd, Body.mk']
  grind [! canon_loadEff, EffCanon]

theorem bodyCanon_st (h : Hdr) (d a b : BitVec 5) (sz : BitVec 2) (sc : BitVec 3) (imm : BitVec 48) :
    BodyCanon (bodySt h d a b sz sc imm) := by
  intro o s hs
  simp only [bodySt, Body.mk']
  grind [! canon_access, EffCanon, ! canon_putBytes]

theorem bodyCanon_ldx (h : Hdr) (d a b : BitVec 5) (sc : BitVec 3) (imm : BitVec 48) : BodyCanon (bodyLdx h d a b sc imm) := by
  intro o s hs
  simp only [bodyLdx, Body.mk']
  grind [! canon_ldxRegs, EffCanon, ! canon_access, canon_modMe]

theorem bodyCanon_stx (h : Hdr) (d a b : BitVec 5) (sc : BitVec 3) (imm : BitVec 48) : BodyCanon (bodyStx h d a b sc imm) := by
  intro o s hs
  simp only [bodyStx, Body.mk']
  grind [! canon_access, EffCanon, ! canon_putBytes]

theorem bodyCanon_ldv (h : Hdr) (vd : BitVec 4) (a b : BitVec 5) (sz : BitVec 2) (mk sc : BitVec 3) (imm : BitVec 48) :
    BodyCanon (bodyLdv h vd a b sz mk sc imm) := by
  intro o s hs
  simp only [bodyLdv, Body.mk', Body.heavy]
  grind [! canon_loadVec, EffCanon, ! canon_access]

theorem bodyCanon_stv (h : Hdr) (vd : BitVec 4) (a b : BitVec 5) (sz : BitVec 2) (mk sc : BitVec 3) (imm : BitVec 48) :
    BodyCanon (bodyStv h vd a b sz mk sc imm) := by
  intro o s hs
  simp only [bodyStv, Body.mk', Body.heavy]
  grind [! canon_access, EffCanon, ! canon_putBytes, → canon_putLanes, canon_wantSeal, canon_ackOut]

theorem bodyCanon_gath (h : Hdr) (vd : BitVec 4) (a : BitVec 5) (vb : BitVec 4) (sz : BitVec 2) (sx : Bool) (mk sc : BitVec 3)
    (imm : BitVec 48) : BodyCanon (bodyGath h vd a vb sz sx mk sc imm) := by
  intro o s hs
  simp only [bodyGath, Body.mk']
  grind [! canon_laneRun, LaneCanon, ! canon_gathLane, canon_modMe, EffCanon]

theorem bodyCanon_scat (h : Hdr) (vd : BitVec 4) (a : BitVec 5) (vb : BitVec 4) (sz : BitVec 2) (mk sc : BitVec 3) (imm : BitVec 48) :
    BodyCanon (bodyScat h vd a vb sz mk sc imm) := by
  intro o s hs
  simp only [bodyScat, Body.mk']
  grind [! canon_laneRun, LaneCanon, ! canon_scatLane, EffCanon]

theorem bodyCanon_acas (h : Hdr) (d a b c : BitVec 5) (sz : BitVec 2) (sx : Bool) (imm : BitVec 48) :
    BodyCanon (bodyAcas h d a b c sz sx imm) := by
  intro o s hs
  simp only [bodyAcas, Body.mk']
  grind [! canon_atomicEff, EffCanon]

theorem bodyCanon_afadd (h : Hdr) (d a b : BitVec 5) (sz : BitVec 2) (rm : BitVec 3) (imm : BitVec 48) :
    BodyCanon (bodyAfadd h d a b sz rm imm) := by
  intro o s hs
  simp only [bodyAfadd, Body.mk']
  grind [! canon_atomicEff, EffCanon]

theorem bodyCanon_ldw (h : Hdr) (d a b : BitVec 5) (sz : BitVec 2) (sx : Bool) (sc : BitVec 3) (imm : BitVec 48) :
    BodyCanon (bodyLdw h d a b sz sx sc imm) := by
  intro o s hs
  simp only [bodyLdw, Body.mk']
  grind [! canon_loading, EffCanon, ! canon_weightAccess, ! canon_giveLoaded]

theorem bodyCanon_ldvw (h : Hdr) (vd : BitVec 4) (a b : BitVec 5) (sz : BitVec 2) (mk sc : BitVec 3) (imm : BitVec 48) :
    BodyCanon (bodyLdvw h vd a b sz mk sc imm) := by
  intro o s hs
  simp only [bodyLdvw, Body.mk', Body.heavy]
  grind [! canon_loadVec, EffCanon, ! canon_weightAccess]

theorem bodyCanon_sbind (h : Hdr) (d : BitVec 5) (blk : BitVec 384) : BodyCanon (bodySbind h d blk) := by
  intro o s hs
  simp only [bodySbind, Body.mk']
  grind [! canon_drainStream, DrainedCanon, ! canon_sbindEff, EffCanon]

theorem bodyCanon_sdrain (h : Hdr) (a : BitVec 5) : BodyCanon (bodySdrain h a) := by
  intro o s hs
  simp only [bodySdrain, Body.mk']
  grind [! canon_drainStream, DrainedCanon, EffCanon]

theorem bodyCanon_sstat (h : Hdr) (d a : BitVec 5) : BodyCanon (bodySstat h d a) := by
  intro o s hs
  simp only [bodySstat, Body.mk']
  grind [! canon_effG, EffCanon]

theorem bodyCanon_qbind (h : Hdr) (d a : BitVec 5) (imm : BitVec 48) : BodyCanon (bodyQbind h d a imm) := by
  intro o s hs
  simp only [bodyQbind, Body.mk']
  grind [! canon_qbindEff, EffCanon]

theorem bodyCanon_qstat (h : Hdr) (d a : BitVec 5) : BodyCanon (bodyQstat h d a) := by
  intro o s hs
  simp only [bodyQstat, Body.mk']
  grind [! canon_effG, EffCanon]

theorem bodyCanon_empty (h : Hdr) (d : BitVec 5) : BodyCanon (bodyEmpty h d) := by
  intro o s hs
  simp only [bodyEmpty, Body.mk']
  grind [canon_modMe, EffCanon]

theorem bodyCanon_isfull (h : Hdr) (pd : BitVec 4) (a : BitVec 5) : BodyCanon (bodyIsfull h pd a) := by
  intro o s hs
  simp only [bodyIsfull, Body.mk']
  grind [! canon_effP, EffCanon]

theorem bodyCanon_putr (h : Hdr) (a b rg : BitVec 5) : BodyCanon (bodyPutr h a b rg) := by
  intro o s hs
  simp only [bodyPutr, Body.mk']
  grind [! canon_putrEff, EffCanon]

theorem bodyCanon_migr (h : Hdr) (a : BitVec 5) : BodyCanon (bodyMigr h a) := by
  intro o s hs
  simp only [bodyMigr, Body.mk']
  grind [! canon_migrEff, EffCanon]

theorem bodyCanon_tmodeLight (h : Hdr) : BodyCanon (bodyTmodeLight h) := by
  intro o s hs
  simp only [bodyTmodeLight, Body.mk']
  grind [canon_modMe, EffCanon]

theorem bodyCanon_tmodeHeavy (h : Hdr) : BodyCanon (bodyTmodeHeavy h) := by
  intro o s hs
  simp only [bodyTmodeHeavy, Body.mk']
  grind [canon_modMe, EffCanon]

theorem bodyCanon_bar (h : Hdr) (n : BitVec 3) : BodyCanon (bodyBar h n) := by
  intro o s hs
  simp only [bodyBar, Body.mk']
  grind [! canon_pass, EffCanon, canon_arrive]

theorem bodyCanon_bara (h : Hdr) (n : BitVec 3) : BodyCanon (bodyBara h n) := by
  intro o s hs
  simp only [bodyBara, Body.mk']
  grind [canon_arrive, EffCanon]

theorem bodyCanon_barw (h : Hdr) (n : BitVec 3) : BodyCanon (bodyBarw h n) := by
  intro o s hs
  simp only [bodyBarw, Body.mk']
  grind [! canon_pass, EffCanon]

theorem bodyCanon_sev (h : Hdr) (a : BitVec 5) (e : BitVec 4) : BodyCanon (bodySev h a e) := by
  intro o s hs
  simp only [bodySev, Body.mk']
  grind [canon_setEvent, EffCanon]

theorem bodyCanon_wev (h : Hdr) (e : BitVec 4) : BodyCanon (bodyWev h e) := by
  intro o s hs
  simp only [bodyWev, Body.mk']
  grind [canon_modMe, EffCanon]

theorem bodyCanon_bfree (h : Hdr) (e : BitVec 4) : BodyCanon (bodyBfree h e) := by
  intro o s hs
  simp only [bodyBfree, Body.mk']
  grind [canon_modCrewCore, EffCanon]

theorem bodyCanon_item (h : Hdr) (a : BitVec 5) : BodyCanon (bodyItem h a) := by
  intro o s hs
  simp only [bodyItem, Body.mk']
  grind [! canon_itemEff, EffCanon]

theorem bodyCanon_itemEos (h : Hdr) (a : BitVec 5) : BodyCanon (bodyItemEos h a) := by
  intro o s hs
  simp only [bodyItemEos, Body.mk']
  grind [canon_gqEos, EffCanon]

theorem bodyCanon_pwait (h : Hdr) (port : BitVec 2) (tag : BitVec 8) : BodyCanon (bodyPwait h port tag) := by
  refine bodyCanon_pressBody (h := h) (port := port) (srcs := _) (dsts := _) fun p far o s hs => ?_
  grind [EffCanon]

theorem bodyCanon_pqry (h : Hdr) (d : BitVec 5) (port : BitVec 2) (tag : BitVec 8) : BodyCanon (bodyPqry h d port tag) := by
  refine bodyCanon_pressBody (h := h) (port := port) (srcs := _) (dsts := _) fun p far o s hs => ?_
  grind [! canon_effG, EffCanon]

theorem bodyCanon_pclr (h : Hdr) (port slot : BitVec 2) (f64 : Bool) : BodyCanon (bodyPclr h port slot f64) := by
  refine bodyCanon_pressBody (h := h) (port := port) (srcs := _) (dsts := _) fun p far o s hs => ?_
  grind [canon_fresh, ! canon_enqueue, EffCanon]

theorem bodyCanon_pscl (h : Hdr) (a : BitVec 5) (port slot : BitVec 2) (f64 : Bool) : BodyCanon (bodyPscl h a port slot f64) := by
  refine bodyCanon_pressBody (h := h) (port := port) (srcs := [.a a]) (dsts := []) fun p far o s hs => ?_
  grind [canon_fresh, ! canon_enqueue, EffCanon]

theorem bodyCanon_prdl (h : Hdr) (a b : BitVec 5) (port : BitVec 2) (tag : BitVec 8) : BodyCanon (bodyPrdl h a b port tag) := by
  refine bodyCanon_pressBody (h := h) (port := port) (srcs := [.a a, .b b]) (dsts := []) fun p far o s hs => ?_
  grind [! canon_prdlEff, EffCanon]

theorem bodyCanon_pabt (h : Hdr) (port : BitVec 2) (tag : BitVec 8) : BodyCanon (bodyPabt h port tag) := by
  refine bodyCanon_pressBody (h := h) (port := port) (srcs := _) (dsts := _) fun p far o s hs => ?_
  grind [! canon_pabtEff, EffCanon]

theorem bodyCanon_prdt (h : Hdr) (d : BitVec 5) (port : BitVec 2) (pt : BitVec 4) : BodyCanon (bodyPrdt h d port pt) := by
  refine bodyCanon_pressBody (h := h) (port := port) (srcs := _) (dsts := _) fun p far o s hs => ?_
  grind [canon_fresh, ! canon_enqueue, EffCanon, canon_modMe]

theorem bodyCanon_pwrt (h : Hdr) (a : BitVec 5) (port : BitVec 2) (pt : BitVec 4) : BodyCanon (bodyPwrt h a port pt) := by
  refine bodyCanon_pressBody (h := h) (port := port) (srcs := _) (dsts := _) fun p far o s hs => ?_
  grind [canon_fresh, ! canon_enqueue, EffCanon]

theorem bodyCanon_pord (h : Hdr) : BodyCanon (bodyPord h) := by
  intro o s hs
  simp only [bodyPord, Body.mk']
  grind [canon_modMe, EffCanon]

theorem bodyCanon_cpyst (h : Hdr) (d a : BitVec 5) : BodyCanon (bodyCpyst h d a) := by
  intro o s hs
  simp only [bodyCpyst, Body.mk']
  grind [! canon_effG, EffCanon]

theorem bodyCanon_tbinit (h : Hdr) (a b : BitVec 5) : BodyCanon (bodyTbinit h a b) := by
  intro o s hs
  simp only [bodyTbinit, Body.mk', tbBody]
  grind [! canon_tbInTurn, EffCanon, ! canon_tbAccess, canon_write]

theorem bodyCanon_tbarv (h : Hdr) (a : BitVec 5) : BodyCanon (bodyTbarv h a) := by
  intro o s hs
  simp only [bodyTbarv, Body.mk', tbBody]
  grind [! canon_tbUpdate, EffCanon]

theorem bodyCanon_tbarx (h : Hdr) (a b : BitVec 5) : BodyCanon (bodyTbarx h a b) := by
  intro o s hs
  simp only [bodyTbarx, Body.mk', tbBody]
  grind [! canon_tbUpdate, EffCanon]

theorem bodyCanon_tbexp (h : Hdr) (a b : BitVec 5) : BodyCanon (bodyTbexp h a b) := by
  intro o s hs
  simp only [bodyTbexp, Body.mk', tbBody]
  grind [! canon_tbUpdate, EffCanon]

theorem bodyCanon_tbwait (h : Hdr) (a b : BitVec 5) : BodyCanon (bodyTbwait h a b) := by
  intro o s hs
  simp only [bodyTbwait, Body.mk', tbBody]
  grind [! canon_tbAccess, EffCanon]

theorem bodyCanon_tbtry (h : Hdr) (pd : BitVec 4) (a b : BitVec 5) : BodyCanon (bodyTbtry h pd a b) := by
  intro o s hs
  simp only [bodyTbtry, Body.mk', tbBody]
  grind [! canon_tbAccess, EffCanon, ! canon_effP]

theorem bodyCanon_csrr (h : Hdr) (d : BitVec 5) (n : BitVec 12) : BodyCanon (bodyCsrr h d n) := by
  intro o s hs
  simp only [bodyCsrr, Body.mk', csrBody]
  grind [! canon_effG, EffCanon]

theorem bodyCanon_csrw (h : Hdr) (a : BitVec 5) (n : BitVec 12) : BodyCanon (bodyCsrw h a n) := by
  intro o s hs
  simp only [bodyCsrw, Body.mk', csrBody]
  grind [canon_csrWrite, EffCanon]

theorem bodyCanon_csrscSet (h : Hdr) (d a : BitVec 5) (n : BitVec 12) : BodyCanon (bodyCsrscSet h d a n) := by
  intro o s hs
  simp only [bodyCsrscSet, Body.mk', csrBody]
  grind [! canon_csrscEff, EffCanon]

theorem bodyCanon_csrscClr (h : Hdr) (d a : BitVec 5) (n : BitVec 12) : BodyCanon (bodyCsrscClr h d a n) := by
  intro o s hs
  simp only [bodyCsrscClr, Body.mk', csrBody]
  grind [! canon_csrscEff, EffCanon]

theorem bodyCanon_trap (h : Hdr) (n : BitVec 12) : BodyCanon (bodyTrap h n) := by
  intro o s hs
  simp only [bodyTrap, Body.mk']
  grind [EffCanon]

theorem bodyCanon_sysc (h : Hdr) (n : BitVec 12) : BodyCanon (bodySysc h n) := by
  intro o s hs
  simp only [bodySysc, Body.mk']
  grind [EffCanon]

theorem bodyCanon_rft (h : Hdr) : BodyCanon (bodyRft h) := by
  intro o s hs
  simp only [bodyRft, Body.mk']
  grind [canon_modMe, EffCanon]

theorem bodyCanon_nret (h : Hdr) : BodyCanon (bodyNret h) := by
  intro o s hs
  simp only [bodyNret, Body.mk']
  grind [! canon_branchTo, EffCanon, canon_modMe]

theorem bodyCanon_feat (h : Hdr) (d : BitVec 5) (n : BitVec 8) : BodyCanon (bodyFeat h d n) := by
  intro o s hs
  simp only [bodyFeat, Body.mk']
  grind [! canon_effG, EffCanon]

theorem bodyCanon_tlbi (h : Hdr) (a : BitVec 5) : BodyCanon (bodyTlbi h a) := by
  intro o s hs
  simp only [bodyTlbi, Body.mk']
  grind [! canon_tlbiEff, EffCanon]

theorem bodyCanon_tlbiOne (h : Hdr) (a b : BitVec 5) : BodyCanon (bodyTlbiOne h a b) := by
  intro o s hs
  simp only [bodyTlbiOne, Body.mk']
  grind [! canon_tlbiEff, EffCanon]

theorem bodyCanon_trc (h : Hdr) (a : BitVec 5) (tag : BitVec 16) : BodyCanon (bodyTrc h a tag) := by
  intro o s hs
  simp only [bodyTrc, Body.mk']
  grind [canon_traceMe, EffCanon]

theorem bodyCanon_lutld (h : Hdr) (a : BitVec 5) : BodyCanon (bodyLutld h a) := by
  intro o s hs
  simp only [bodyLutld, Body.mk']
  grind [! canon_access, EffCanon, canon_modCrewCore]

theorem bodyCanon_ctxsw (h : Hdr) (a b : BitVec 5) : BodyCanon (bodyCtxsw h a b) := by
  intro o s hs
  simp only [bodyCtxsw, Body.mk']
  grind [! canon_ctxswEff, EffCanon]

theorem bodyCanon_ckpt (h : Hdr) : BodyCanon (bodyCkpt h) := by
  intro o s hs
  simp only [bodyCkpt, Body.mk']
  grind [canon_wantSeal, EffCanon]

theorem bodyCanon_halt (h : Hdr) : BodyCanon (bodyHalt h) := by
  intro o s hs
  simp only [bodyHalt, Body.mk']
  grind [canon_haltMe, EffCanon]

theorem bodyCanon_fenceo (h : Hdr) : BodyCanon (bodyFenceo h) := by
  intro o s hs
  simp only [bodyFenceo, Body.mk']
  grind [canon_wantSeal, EffCanon]

theorem canon_bodyOf_match (i : Instr) : match bodyOf i with | some b => BodyCanon b | none => True := by
  cases i
  case ill => exact bodyCanon_ill
  case nop => exact bodyCanon_nop _
  case add | sub | mul | mulh | mulhu | div | divu | rem | remu | and | or | xor | andn | shl | shr | sar | rotr | min | max | minu
    | maxu | insr | lea | nchild | nleaf => exact bodyCanon_alu2 _ _ _ _ _ _
  case clz | ctz | popc | mov | bswap | addi | muli | andi | ori | xori | shli | shri | sari | movhi | extr | nparent | nlevel |
    nlvlbase => exact bodyCanon_alu1 _ _ _ _ _
  case movi | sel | pget | ffma | fcvt | fclass | fmovi => exact bodyCanon_mk' (keeps_effG _ _ _)
  case cmp | cmpi | plog | fcmp => exact bodyCanon_mk' (keeps_effP _ _ _)
  case pset => exact bodyCanon_pset _ _
  case fadd | fsub | fmul => exact bodyCanon_fp2 _ _ _ _ _ _ _ _
  case fdiv | fsqrt => exact bodyCanon_mk' (keeps_effFp _ _ _)
  case fmin | fmax | fsgn | fsgnn | fsgnx => exact bodyCanon_fpSel _ _ _ _ _ _
  case br => exact bodyCanon_br _ _
  case brl => exact bodyCanon_brl _ _ _
  case jmp => exact bodyCanon_jmp _ _
  case jmpl => exact bodyCanon_jmpl _ _ _
  case loop => exact bodyCanon_loop _ _ _
  case wfw => exact bodyCanon_wfw _
  case yield => exact bodyCanon_yield _
  case exit => exact bodyCanon_exit _
  case ld => exact bodyCanon_ld _ _ _ _ _ _ _ _
  case st => exact bodyCanon_st _ _ _ _ _ _ _
  case ldx => exact bodyCanon_ldx _ _ _ _ _ _
  case stx => exact bodyCanon_stx _ _ _ _ _ _
  case ldv => exact bodyCanon_ldv _ _ _ _ _ _ _ _
  case stv => exact bodyCanon_stv _ _ _ _ _ _ _ _
  case gath => exact bodyCanon_gath _ _ _ _ _ _ _ _ _
  case scat => exact bodyCanon_scat _ _ _ _ _ _ _ _
  case aadd | aand | aor | axor | amin | amax | axch => exact bodyCanon_atomicBody _ _ _ _ _ _ _ _
  case acas => exact bodyCanon_acas _ _ _ _ _ _ _ _
  case afadd => exact bodyCanon_afadd _ _ _ _ _ _ _
  case ldw => exact bodyCanon_ldw _ _ _ _ _ _ _ _
  case ldvw => exact bodyCanon_ldvw _ _ _ _ _ _ _ _
  case sbind => exact bodyCanon_sbind _ _ _
  case sdrain => exact bodyCanon_sdrain _ _
  case sstat => exact bodyCanon_sstat _ _ _
  case qbind => exact bodyCanon_qbind _ _ _ _
  case qstat => exact bodyCanon_qstat _ _ _
  case empty => exact bodyCanon_empty _ _
  case isfull => exact bodyCanon_isfull _ _ _
  case putr => exact bodyCanon_putr _ _ _ _
  case migr => exact bodyCanon_migr _ _
  case tmodeLight => exact bodyCanon_tmodeLight _
  case tmodeHeavy => exact bodyCanon_tmodeHeavy _
  case bar => exact bodyCanon_bar _ _
  case bara => exact bodyCanon_bara _ _
  case barw => exact bodyCanon_barw _ _
  case sev => exact bodyCanon_sev _ _ _
  case wev => exact bodyCanon_wev _ _
  case bfree => exact bodyCanon_bfree _ _
  case dqpush | dqpop | dqspl | dqstl => exact bodyCanon_dequeBody _ _ _ _ _ _
  case item => exact bodyCanon_item _ _
  case itemEos => exact bodyCanon_itemEos _ _
  case vadd | vsub | vmul | vdiv | vmin | vmax => exact bodyCanon_vec2 _ _ _ _ _ _ _ _
  case vfma | vfnma => exact bodyCanon_vec3 _ _ _ _ _ _ _ _ _
  case vabs | vneg | vmov => exact bodyCanon_vec1 _ _ _ _ _ _ _
  case vand | vor | vxor | vshl | vshr | vsar => exact bodyCanon_vecBits _ _ _ _ _ _ _
  case vsqrt | vrsq | vrcp | vexp2 | vlog2 => exact bodyCanon_vecUnary _ _ _ _ _ _ _
  case vcmp | mlog | mset => exact bodyCanon_heavy (bodyCanon_mk' (keeps_effM _ _ _))
  case vcvt | vdot | vbcast | vfill | viota | vexpnd | vshuf | vlut | vscan | vunpkq => exact bodyCanon_vecLanes _ _ _ _ _ _ _ _
  case vsel | vcmprs | vpackq => exact bodyCanon_vecWhole _ _ _ _ _
  case vext | mpopc | mget => exact bodyCanon_heavy (bodyCanon_mk' (keeps_effG _ _ _))
  case vins => exact bodyCanon_heavy (bodyCanon_mk' (keeps_effV _ _ _ _))
  case vred => exact bodyCanon_heavy (bodyCanon_mk' (keeps_effFp _ _ _))
  case vsort | vmerge => exact bodyCanon_vecSort _ _ _ _ _ _ _ _
  case pmm | pdsc | pdgr => exact bodyCanon_pactBody _ _ _ _ _ _
  case pwait => exact bodyCanon_pwait _ _ _
  case pqry => exact bodyCanon_pqry _ _ _ _
  case pclr => exact bodyCanon_pclr _ _ _ _
  case pscl => exact bodyCanon_pscl _ _ _ _ _
  case plds | psts => exact bodyCanon_imageBody _ _ _ _ _ _ _
  case prdl => exact bodyCanon_prdl _ _ _ _ _
  case pabt => exact bodyCanon_pabt _ _ _
  case prdt => exact bodyCanon_prdt _ _ _ _
  case pwrt => exact bodyCanon_pwrt _ _ _ _
  case pord => exact bodyCanon_pord _
  case cpy | remoteAtomicAdd | cpym | gathr => exact bodyCanon_copyBody _ _ _ _
  case cpyst => exact bodyCanon_cpyst _ _ _
  case tbinit => exact bodyCanon_tbinit _ _ _
  case tbarv => exact bodyCanon_tbarv _ _
  case tbarx => exact bodyCanon_tbarx _ _ _
  case tbexp => exact bodyCanon_tbexp _ _ _
  case tbwait => exact bodyCanon_tbwait _ _ _
  case tbtry => exact bodyCanon_tbtry _ _ _ _
  case csrr => exact bodyCanon_csrr _ _ _
  case csrw => exact bodyCanon_csrw _ _ _
  case csrscSet => exact bodyCanon_csrscSet _ _ _ _
  case csrscClr => exact bodyCanon_csrscClr _ _ _ _
  case trap => exact bodyCanon_trap _ _
  case sysc => exact bodyCanon_sysc _ _
  case rft => exact bodyCanon_rft _
  case nret => exact bodyCanon_nret _
  case feat => exact bodyCanon_feat _ _ _
  case tlbi => exact bodyCanon_tlbi _ _
  case tlbiOne => exact bodyCanon_tlbiOne _ _ _
  case trc => exact bodyCanon_trc _ _ _
  case lutld => exact bodyCanon_lutld _ _
  case ctxsw => exact bodyCanon_ctxsw _ _ _
  case ckpt => exact bodyCanon_ckpt _
  case halt => exact bodyCanon_halt _
  case fenceo => exact bodyCanon_fenceo _
  all_goals trivial

theorem canon_bodyOf {i : Instr} {b : Body} (he : bodyOf i = some b) : BodyCanon b := by
  have h := canon_bodyOf_match i
  rw [he] at h
  exact h

end Sys2Proof.Machine
end

