-- ==== Sys2Proof/Proofs/CanonTurns.lean ====
section
/-! SUPPORT. Memory stays canonical (O45): the turn of a thread, alone and in pairs, and the passing of time. -/

namespace Sys2Proof.Machine

theorem canon_memberOf {img : LineImg} {line : Word} {k : Nat} {m : Member} (he : memberOf img line k = .ok m) : BodyCanon m.b := by
  grind [memberOf, canon_bodyOf]

theorem canon_popVal {s : State} (r : Nat) (hs : Canon s) : Canon (popVal s r).2 := by
  unfold popVal
  dsimp only
  split
  · split
    · exact hs
    · dsimp only
      split
      · exact canon_dropHolds _ _ (canon_modStream _ _ hs)
      · exact canon_modStream _ _ hs
  split
  · exact canon_modMe _ hs
  · exact canon_modMe _ hs
  · exact canon_setQ _ _ (canon_modMe _ hs)
  · split
    · exact canon_setQ _ _ hs
    · split <;> exact canon_setQ _ _ hs
  · exact hs

theorem canon_readG {s : State} (r : BitVec 5) (hs : Canon s) {v : Word} {t : State} (he : readG s r = .ok (v, t)) : Canon t := by
  grind [readG, Canon, canon_popVal]

theorem canon_Src_read (o : Ops) {s : State} (x : Src) (hs : Canon s) {o' : Ops} {t : State} (he : Src.read o s x = .ok (o', t)) :
    Canon t := by
  cases x <;> grind [Src.read, Canon, canon_readG, except_map_eq_ok]

theorem canon_readAll (o : Ops) {s : State} (l : List Src) (hs : Canon s) {o' : Ops} {t : State} (he : readAll o s l = .ok (o', t)) :
    Canon t := by
  induction l generalizing s o with
  | nil => grind [readAll]
  | cons x l ih => grind [readAll, canon_Src_read]

theorem canon_Body_readOps (b : Body) {s : State} (hs : Canon s) {o' : Ops} {t : State} (he : Body.readOps b s = .ok (o', t)) :
    Canon t := by
  grind [Body.readOps, Canon, canon_readAll]

theorem canon_Body_gather (b : Body) {s : State} (hs : Canon s) {o' : Ops} {t : State} (he : Body.gather b s = .ok (o', t)) :
    Canon t := by
  grind [Body.gather, Canon, canon_Body_readOps]

theorem canon_Body_accept (b : Body) {s : State} (hs : Canon s) {o' : Ops} {t : State} (he : Body.accept b s = .ok (some (o', t))) :
    Canon t := by
  grind [Body.accept, Canon, → canon_Body_gather, → canon_debit]

theorem canon_armBreak {s : State} (pc : Word) (n : Nat) (hs : Canon s) : Canon (armBreak s pc n) := by
  grind [armBreak, Canon]

theorem canon_beginTurn {s : State} (pc : Word) (n : Nat) (hs : Canon s) : Canon (beginTurn s pc n) := by
  grind [beginTurn, Canon, canon_armBreak, canon_modMe]

theorem canon_Member_readOps (m : Member) {s : State} (hs : Canon s) {o' : Ops} {t : State}
    (he : Member.readOps m s = .ok (some (o', t))) : Canon t := by
  grind [Member.readOps, Canon, canon_Body_readOps, except_map_eq_ok]

theorem canon_admitPair (x y : Member) {s : State} (hs : Canon s) {ox oy : Option Ops} {t : State}
    (he : admitPair x y s = .ok (ox, oy, t)) : Canon t := by
  grind [admitPair, Canon, → canon_Member_readOps, → canon_debit, except_map_eq_ok]

theorem canon_endTurn {s0 : State} (w : Nat) (r : TurnEff) (h_r : TurnEffCanon r) : Canon (endTurn s0 w r) := by
  obtain ⟨e, nxt, again, held⟩ := r
  cases e <;> grind [endTurn, canon_setSkip, canon_parkMe, canon_modMe, canon_settle, TurnEffCanon, EffCanon]

theorem canon_retarget {s : State} (pc : Word) (hs : Canon s) : Canon (retarget s pc) := by
  grind [retarget, Canon, canon_modMe, Option.map_eq_some_iff]

theorem canon_afterFirst (g : Instr × Body × Ops) {s1 sf : State} (all : List (Instr × Ops)) (nxt : Word)
    (j : Option (Word × Option LineImg)) (hb_g : BodyCanon g.2.1) (hs_s1 : Canon s1) (hs_sf : Canon sf) :
    TurnEffCanon (afterFirst g s1 sf all nxt j) := by
  have hg := hb_g.eff_of hs_sf g.2.2
  unfold afterFirst
  generalize g.2.1.eff g.2.2 sf = e at hg ⊢
  cases e <;> grind [canon_retarget, TurnEffCanon, EffCanon]

theorem canon_pairEff (f g : Instr × Body × Ops) {s1 : State} (nxt : Word) (hb_f : BodyCanon f.2.1) (hb_g : BodyCanon g.2.1)
    (hs_s1 : Canon s1) : TurnEffCanon (pairEff f g s1 nxt) := by
  have hf := hb_f.eff_of hs_s1 f.2.2
  have hg := hb_g.eff_of hs_s1 g.2.2
  unfold pairEff
  generalize f.2.1.eff f.2.2 s1 = ef at hf ⊢
  generalize g.2.1.eff g.2.2 s1 = eg at hg ⊢
  cases ef <;> cases eg <;> grind [! canon_afterFirst, TurnEffCanon, EffCanon]

theorem canon_effects (l : List (Member × Ops)) {s1 : State} (nxt : Word) (hb : ∀ x ∈ l, BodyCanon x.1.b) (hs_s1 : Canon s1) :
    TurnEffCanon (effects l s1 nxt) := by
  unfold effects
  split
  next => exact hs_s1
  next m o => exact (hb (m, o) (by simp)).eff_of hs_s1 o
  next m o m' o' _ =>
    have hm := hb (m, o) (by simp)
    have hm' := hb (m', o') (by simp)
    split
    · exact canon_pairEff _ _ nxt hm' hm hs_s1
    · exact canon_pairEff _ _ nxt hm hm' hs_s1

theorem canon_issuePair (x y : Member) {s : State} (hb_x : BodyCanon x.b) (hb_y : BodyCanon y.b) (hs : Canon s) :
    Canon (issuePair x y s) := by
  grind [issuePair, Canon, → canon_admitPair, canon_stopMe, canon_endTurn, ! canon_effects, TurnEffCanon]

theorem canon_issueFrom {s : State} (img : LineImg) (hs : Canon s) : TurnCanon (issueFrom s img) := by
  grind [issueFrom, Canon, canon_issueTrap, canon_memberOf, canon_Body_accept, canon_beginTurn, canon_issuePair, canon_admitPair,
    TurnCanon]

theorem canon_fetchIssue {s : State} (hs : Canon s) : TurnCanon (fetchIssue s) := by
  grind [fetchIssue, Canon, ! canon_issueFrom, TurnCanon, canon_enterLine, canon_issueTrap, canon_parkMe, canon_modMe]

theorem canon_nextInstr {s : State} (hs : Canon s) : TurnCanon (nextInstr s) := by
  grind [nextInstr, Canon, canon_moverMove, canon_modMe, ! canon_fetchIssue, TurnCanon]

theorem canon_retryParked {s : State} (p : Park) (hs : Canon s) : Canon (retryParked s p) := by
  grind [retryParked, Canon, canon_bodyOf, canon_endTurn, ! canon_effects, TurnEffCanon, canon_getD, canon_foldl,
    Option.map_eq_some_iff]

theorem canon_turnOf {s : State} (core slot : Nat) (hs : Canon s) : TurnCanon (turnOf s core slot) := by
  grind [turnOf, Canon, canon_modMe, canon_takeAsync, ! canon_nextInstr, TurnCanon, canon_retryParked]

theorem canon_turnMove {s : State} (core slot : Nat) (hs : Canon s) : MoveCanon (turnMove s core slot) := by
  grind [turnMove, Canon, ! canon_turnOf, TurnCanon, MoveCanon]

theorem canon_at {s : State} (core slot : Nat) (hs : Canon s) : Canon (State.at s core slot) := by
  grind [State.at, Canon]

theorem canon_passTime {s : State} (dt : Nat) (hs : Canon s) : Canon (passTime s dt) := by
  grind [passTime, Canon, canon_setThread, canon_modMgmt, Option.map_eq_some_iff]

theorem canon_elapse {s : State} (dt : Nat) (hs : Canon s) : Canon (elapse s dt) := by
  grind [elapse, Canon, canon_passTime]

theorem canon_haltVat {s : State} (ctx v : Nat) (hs : Canon s) : Canon (haltVat s ctx v) := by
  grind [haltVat, Canon, canon_modRef, canon_modVat, canon_blackbox, canon_foldl, Option.map_eq_some_iff]

theorem canon_haltGroup {s : State} (ctx v : Nat) (hs : Canon s) : Canon (haltGroup s ctx v) := by
  grind [haltGroup, Canon, canon_haltVat, canon_foldl]

theorem canon_breakpointHalt (core slot : Nat) {s : State} (hs : Canon s) {t : State} (he : breakpointHalt core slot s = some t) :
    Canon t := by
  grind [breakpointHalt, Canon, canon_haltGroup]

theorem canon_agendaMove {s : State} (a : Act) (hs : Canon s) : MoveCanon (agendaMove s a) := by
  cases a <;> grind [agendaMove, Canon, ! canon_turnMove, MoveCanon, canon_elapse, canon_breakpointHalt, canon_getD]

theorem canon_rotorMove {s : State} (hs : Canon s) : MoveCanon (rotorMove s) := by
  grind [rotorMove, Canon, ! canon_turnMove, MoveCanon, canon_elapse]

theorem canon_nextMove {s : State} (hs : Canon s) : MoveCanon (nextMove s) := by
  grind [nextMove, Canon, ! canon_agendaMove, MoveCanon, ! canon_rotorMove]

end Sys2Proof.Machine
end

