-- ==== Sys2Proof/Proofs/CanonResets.lean ====
section
/-! SUPPORT. Memory stays canonical (O45): resets, what they keep, links and ports, and the ends of copies. -/

namespace Sys2Proof.Machine

theorem canon_dropCtx0 {s : State} (hs : Canon s) : Canon (dropCtx0 s) := by
  grind [dropCtx0, Canon, canon_freeCrew, canon_foldl, Option.map_eq_some_iff]

theorem canon_writeMarks {s : State} (c : Ctx) (hs : Canon s) : Canon (State.writeMarks s c) := by
  grind [State.writeMarks, Canon, canon_write]

theorem canon_writeHeader {s : State} (ctx : Nat) (hs : Canon s) : Canon (State.writeHeader s ctx) := by
  grind [State.writeHeader, Canon, canon_writeEnds, canon_writeMarks]

theorem canon_remarkCtx {s : State} (n : Nat) (hs : Canon s) : Canon (remarkCtx s n) := by
  grind [remarkCtx, Canon, canon_writeHeader, canon_modCtx, Option.map_eq_some_iff]

theorem canon_modRegion {s : State} (r : Nat) (f : Region → Region) (hs : Canon s) : Canon (State.modRegion s r f) := by
  grind [State.modRegion, Canon, canon_modHub]

theorem canon_restartCmds {s : State} (ctx : Nat) (gs : List (Nat × Graph)) (hs : Canon s) : Canon (restartCmds s ctx gs) := by
  unfold restartCmds
  dsimp only
  refine canon_foldl_of (fun s q hs => ?_) _ (canon_modHub _ (canon_foldl_of (fun s x hs => ?_) _ hs))
  · exact canon_refreshQueue _ (canon_modQueue _ _ hs)
  · exact canon_modRegion _ _ hs

theorem canon_completeAgain (gs : List (Nat × Graph)) {s : State} (o : HeldOut) (hs : Canon s) : Canon (completeAgain gs s o) := by
  unfold completeAgain
  split <;> grind [canon_refreshQueue, canon_modQueue]

theorem canon_putCells {s : State} (pa : Nat) (l : List Host.Cell) (hs : Canon s) : Canon (State.putCells s pa l) := by
  grind [State.putCells, Canon, canon_setByte, canon_foldl]

theorem canon_copyRange {s : State} (src dst n : Nat) (hs : Canon s) : Canon (State.copyRange s src dst n) := by
  grind [State.copyRange, Canon, canon_putCells, canon_clear]

theorem canon_reloadGraph (save : Nat) {s : State} (e : Nat × Graph) (hs : Canon s) : Canon (reloadGraph save s e) := by
  grind [reloadGraph, Canon, canon_copyRange, canon_setBytes, canon_refreshQueue, canon_modQueue]

theorem canon_rehold {s : State} (e : Nat × Crew) (hs : Canon s) : Canon (rehold s e) := by
  grind [rehold, Canon, canon_addHolds, canon_modCrew]

theorem canon_rollbackWith (load : List (Nat × Crew) → State → Nat × Crew → State) (go : State → Nat × Crew → State) {s : State}
    (ctx : Nat) (hs : Canon s) (hl : ∀ l s e, Canon s → Canon (load l s e)) (hg : ∀ s e, Canon s → Canon (go s e)) :
    Canon (rollbackWith load go s ctx) := by
  unfold rollbackWith
  dsimp only
  split
  · exact hs
  refine canon_linkGraphs _ (canon_writeHeader _ ?_)
  have hu : ∀ (s : State) (u : Nat × BitVec 512), Canon s → Canon
    ((s.setBytes (u.1 * 64) (bytesOf u.2.toNat 64)).unpoison (u.1 * 64) 64) :=
    fun s u hs => canon_unpoison _ _ (canon_setBytes hs _ _)
  split
  · refine canon_foldl_of hg _ (canon_foldl_of (fun s e hs => canon_rehold e hs) _ (canon_foldl_of (hl _) _
      (canon_foldl_of (fun s e hs => canon_reloadGraph _ e hs) _ (canon_withGraphs _ ?_))))
    refine canon_blackbox _ _ _ (canon_foldl_of hu _ (canon_foldl_of (fun s o hs => canon_completeAgain _ o hs) _ (canon_modCtx _ _
      (canon_restartCmds _ _ (canon_foldl_of (fun s n hs => canon_freeCrew n hs) _ hs)))))
  · refine canon_foldl_of (fun s g hs => canon_endGraph _ _ _ hs) _ ?_
    refine canon_blackbox _ _ _ (canon_foldl_of hu _ (canon_foldl_of (fun s o hs => canon_completeAgain _ o hs) _ (canon_modCtx _ _
      (canon_restartCmds _ _ (canon_foldl_of (fun s n hs => canon_freeCrew n hs) _ hs)))))

theorem canon_loseCtx {s : State} (n : Nat) (hs : Canon s) : Canon (loseCtx s n) := by
  unfold loseCtx
  split
  · exact hs
  split
  · exact canon_rollbackWith _ _ n hs (fun _ s _ hs => hs) (fun s _ hs => hs)
  · exact canon_blackbox _ _ _ (canon_modMgmt _ (canon_foldl_of (fun s n hs => canon_freeCrew n hs) _ hs))

theorem canon_recreate {s : State} (hs : Canon s) : Canon (recreate s) := by
  grind [recreate, Canon, canon_dropCtx0, canon_remarkCtx, canon_loseCtx, canon_foldl, Option.map_eq_some_iff]

theorem canon_reset : Canon State.reset := by
  rfl

theorem canon_resetCommon {s0 : State} (hs_s0 : Canon s0) : Canon (resetCommon s0) := by
  grind [resetCommon, Canon, canon_recreate, canon_rehold, canon_filter, canon_foldl]

theorem canon_coldReset {s : State} (hs : Canon s) {t : State} (he : coldReset s = some t) : Canon t := by
  grind [coldReset, Canon, canon_resetCommon, canon_modMgmt]

theorem canon_warmReset {s : State} (hs : Canon s) {t : State} (he : warmReset s = some t) : Canon t := by
  grind [warmReset, Canon, canon_resetCommon]

theorem canon_asRun {s : State} (hs : Canon s) : Canon (State.asRun s) := by
  grind [State.asRun, Canon, canon_modMgmt]

theorem canon_addCtx {s : State} (n : Nat) (c : Ctx) (hs : Canon s) : Canon (addCtx s n c) := by
  grind [addCtx, Canon, canon_clear, canon_setBytes, canon_writeEnds, canon_writeMarks]

theorem canon_createCtx0 {s : State} (hs : Canon s) : Canon (createCtx0 s) := by
  grind [createCtx0, Canon, canon_asRun, canon_addCtx]

theorem canon_loadConfig {s : State} (hs : Canon s) : Canon (loadConfig s) := by
  grind [loadConfig, Canon, canon_asRun, canon_modMgmt, canon_modCore, canon_foldl, Option.map_eq_some_iff]

theorem canon_secureBoot (pufOk : Bool) {s : State} (hs : Canon s) {t : State} (he : secureBoot pufOk s = some t) : Canon t := by
  grind [secureBoot, Canon, canon_modMgmt, canon_modHub, canon_createCtx0, canon_loadConfig, Option.map_eq_some_iff]

theorem canon_hostLinkTrain (m0 m1 : Bool) {s : State} (hs : Canon s) {t : State} (he : hostLinkTrain m0 m1 s = some t) :
    Canon t := by
  grind [hostLinkTrain, Canon, canon_modHub, canon_blackbox]

theorem canon_hostLinkModuleFail (md : Nat) {s : State} (hs : Canon s) {t : State} (he : hostLinkModuleFail md s = some t) :
    Canon t := by
  grind [hostLinkModuleFail, Canon, canon_blackbox, canon_modHub]

theorem canon_mapCopies {s : State} (f : CopyCmd → CopyCmd) (hs : Canon s) : Canon (State.mapCopies s f) := by
  grind [State.mapCopies, Canon, Option.map_eq_some_iff]

theorem canon_portDown {s : State} (port : Nat) (hs : Canon s) : Canon (portDown s port) := by
  grind [portDown, Canon, canon_blackbox, canon_modHub, canon_mapCopies]

theorem canon_scaleOutPortFail (port : Nat) {s : State} (hs : Canon s) {t : State} (he : scaleOutPortFail port s = some t) :
    Canon t := by
  grind [scaleOutPortFail, Canon, canon_portDown]

theorem canon_portUp {s : State} (port : Nat) (hs : Canon s) : Canon (portUp s port) := by
  grind [portUp, Canon, canon_blackbox, canon_modHub]

theorem canon_scaleOutPortUp (port : Nat) {s : State} (hs : Canon s) {t : State} (he : scaleOutPortUp port s = some t) :
    Canon t := by
  grind [scaleOutPortUp, Canon, canon_portUp]

theorem canon_putStatus {s : State} (g : Eng) (c : CopyCmd) (status cause : Nat) (va : Word) (aux : Nat) (hs : Canon s) {t : State}
    (he : putStatus s g c status cause va aux = some t) : Canon t := by
  grind [putStatus, Canon, canon_translate, canon_setBytes]

theorem canon_BarRes_orHold (r : BarRes) {s : State} (src : BarSrc) (k : State → State) (h_r : BarCanon r) (hs : Canon s)
    (hk : ∀ s, Canon s → Canon (k s)) {t : State} (he : BarRes.orHold r s src k = some t) : Canon t := by
  cases r <;> grind [BarRes.orHold, Canon, canon_holdBar, BarCanon]

theorem canon_atReceivers {s : State} (g : Eng) (f : State → Nat → State) (hs : Canon s) (hf : ∀ s pa, Canon s → Canon (f s pa)) :
    BarCanon (atReceivers s g f) := by
  grind [atReceivers, Canon, canon_traceTb, BarCanon, canon_foldl, Option.map_eq_some_iff]

theorem canon_errorCopy {s : State} (g : Eng) (left : Nat) (hs : Canon s) : BarCanon (errorCopy s g left) := by
  grind [errorCopy, Canon, ! canon_atReceivers, BarCanon, canon_barError, ! canon_errorAt]

theorem canon_dropCopyHolds {s : State} (id : Nat) (hs : Canon s) : Canon (State.dropCopyHolds s id) := by
  grind [State.dropCopyHolds, Canon, canon_dropHolds]

theorem canon_dropCopy {s : State} (vat : Nat) (c : CopyCmd) (hs : Canon s) : Canon (dropCopy s vat c) := by
  grind [dropCopy, Canon, canon_modVat]

theorem canon_stopCopy {s0 : State} (g : Eng) (status cause : Nat) (va : Word) (aux : Nat) (hs_s0 : Canon s0) {t : State}
    (he : stopCopy s0 g status cause va aux = some t) : Canon t := by
  grind [stopCopy, Canon, canon_putStatus, canon_BarRes_orHold, ! canon_errorCopy, BarCanon, canon_dropCopyHolds, canon_traceCopy,
    canon_dropCopy, Option.bind_eq_some_iff]

theorem canon_walked {s : State} (ctx : Nat) (pages : List (Nat × Nat × BitVec 64)) (again : Bool) (va : Word) (hs : Canon s) :
    Canon (State.walked s ctx pages again va) := by
  grind [State.walked, Canon, canon_countWalk]

theorem canon_engDelay {s : State} (core id pa n : Nat) (hs : Canon s) {out : Landing}
    (he : State.engDelay s core id pa n = some out) : LandingCanon out := by
  grind [State.engDelay, Canon, canon_wsDelay, LandingCanon, Option.map_eq_some_iff]

theorem canon_castRead {s : State} (slice pa : Nat) (hs : Canon s) : Canon (State.castRead s slice pa) := by
  grind [State.castRead, Canon]

theorem canon_countForks {s : State} (home : Nat) (l : List Nat) (hs : Canon s) : Canon (countForks s home l) := by
  grind [countForks, Canon, canon_bump, canon_foldl, Option.map_eq_some_iff]

theorem canon_countLine {s : State} (g : Eng) (x : Xl) (cast : Option (List Nat)) (hs : Canon s) :
    Canon (countLine s g x cast) := by
  unfold countLine
  split <;> grind [canon_engineRead, canon_castRead, canon_touchL2, canon_merge, canon_bump, canon_countForks]

theorem canon_engRead {s : State} (g : Eng) (va n : Nat) (count : Bool) (cast : Option (List Nat)) (hs : Canon s) :
    LandingCanon (engRead s g va n count cast) := by
  grind [engRead, Canon, canon_walked, canon_engDelay, LandingCanon, canon_countLine]

theorem canon_remoteRouteTimeout (vat idx : Nat) {s : State} (hs : Canon s) {t : State} (he : remoteRouteTimeout vat idx s = some t) :
    Canon t := by
  grind [remoteRouteTimeout, Canon, canon_stopCopy]

end Sys2Proof.Machine
end

