-- ==== Sys2Proof/Proofs/CanonPower.lean ====
section
/-! SUPPORT. Memory stays canonical (O45): supply loss, crews saved and restored, operating points, and errors of the structure. -/

namespace Sys2Proof.Machine

theorem canon_startSupplyLoss {s : State} (byFrame : Bool) (hs : Canon s) : Canon (startSupplyLoss s byFrame) := by
  grind [startSupplyLoss, Canon, canon_blackbox, canon_modMgmt]

theorem canon_slwAssert {s : State} (hs : Canon s) {t : State} (he : slwAssert s = some t) : Canon t := by
  grind [slwAssert, Canon, canon_startSupplyLoss, canon_modHub]

theorem canon_writeBackLines {s : State} (lines : List Nat) (hs : Canon s) : Canon (writeBackLines s lines) := by
  grind [writeBackLines, Canon, canon_countDram, canon_foldl, Option.map_eq_some_iff]

theorem canon_writeBackAll {s : State} (hs : Canon s) : Canon (writeBackAll s) := by
  grind [writeBackAll, Canon, canon_writeBackLines]

theorem canon_endGraphAt {s : State} (gid status : Nat) (addr : Nat) (hs : Canon s) : Canon (endGraphAt s gid status addr) := by
  grind [endGraphAt, Canon, canon_freeCrew, canon_linkGraphs, canon_complete, canon_foldl]

theorem canon_dropTokens {s : State} (gid : Nat) (n : TRef × Bool) (hs : Canon s) : Canon (dropTokens s gid n) := by
  grind [dropTokens, Canon, canon_modGQueue, canon_foldl]

theorem canon_curdAdmit (core slot : Nat) {s : State} (hs : Canon s) {t : State} (he : curdAdmit core slot s = some t) :
    Canon t := by
  grind [curdAdmit, Canon, canon_setThread, canon_dropTokens, canon_modCore]

theorem canon_admitCurds {s : State} (n : Nat) (c : Crew) (hs : Canon s) : Canon (admitCurds s n c) := by
  grind [admitCurds, Canon, canon_curdAdmit, canon_getD, canon_foldl]

theorem canon_cancelAborted {s : State} (c : Crew) (hs : Canon s) : Canon (cancelAborted s c) := by
  grind [cancelAborted, Canon, ! canon_cancelPact, BarCanon, canon_foldl, Option.map_eq_some_iff]

theorem canon_saveCrew {s : State} (n : Nat) (state : CrewState) (spm : Bool) (hs : Canon s) {t : State}
    (he : saveCrew s n state spm = some t) : Canon t := by
  grind [saveCrew, Canon, canon_admitCurds, canon_cancelAborted, canon_dropThreads, canon_clearPresses, canon_writeSave,
    Option.map_eq_some_iff]

theorem canon_scrimgCopyDone (n : Nat) {s : State} (hs : Canon s) {t : State} (he : scrimgCopyDone n s = some t) : Canon t := by
  grind [scrimgCopyDone, Canon, canon_endGraphAt, canon_setBytes, canon_saveCrew, canon_modCrew, canon_foldl]

theorem canon_abortPlacement {s : State} (n : Nat) (hs : Canon s) : Canon (abortPlacement s n) := by
  grind [abortPlacement, Canon, canon_modCrew, canon_modHub]

theorem canon_parkForLoss {s : State} (n : Nat) (hs : Canon s) {t : State} (he : parkForLoss s n = some t) : Canon t := by
  grind [parkForLoss, Canon, → canon_scrimgCopyDone, canon_abortPlacement, → canon_saveCrew, canon_getD, Option.map_eq_some_iff]

theorem canon_parkAll {s : State} (l : List Nat) (hs : Canon s) {t : State} (he : parkAll s l = some t) : Canon t := by
  induction l generalizing s with
  | nil => grind [parkAll]
  | cons n l ih => grind [parkAll, canon_parkForLoss, Option.bind_eq_some_iff]

theorem canon_supplyLossSequence {s : State} (hs : Canon s) {t : State} (he : supplyLossSequence s = some t) : Canon t := by
  grind [supplyLossSequence, Canon, canon_writeBackAll, canon_modMgmt, canon_blackbox, canon_parkAll, Option.map_eq_some_iff]

theorem canon_thermtrip (kind idx : Nat) {s : State} (hs : Canon s) {t : State} (he : thermtrip kind idx s = some t) : Canon t := by
  grind [thermtrip, Canon, canon_blackbox, canon_modMgmt]

theorem canon_modPower {s : State} (f : Power → Power) (hs : Canon s) : Canon (State.modPower s f) := by
  grind [State.modPower, Canon]

theorem canon_shedCrew {s : State} (n : Nat) (hs : Canon s) : Canon (shedCrew s n) := by
  grind [shedCrew, Canon, canon_modCrew, canon_abortPlacement]

theorem canon_freeHeldBars {s : State} (n : Nat) (hs : Canon s) : Canon (freeHeldBars s n) := by
  grind [freeHeldBars, Canon, canon_releaseBar, canon_foldSpan]

theorem canon_mapCrew {s : State} (c : Crew) (hs : Canon s) : Canon (mapCrew s c) := by
  grind [mapCrew, Canon, canon_modCtx, canon_foldl]

theorem canon_keepAway {s : State} (l : List (Nat × Nat × Hold)) (hs : Canon s) : Canon (keepAway s l) := by
  grind [keepAway, Canon, canon_modCrew, canon_foldl, Option.map_eq_some_iff]

theorem canon_seatCloset {s : State} (core : Nat) (t : Thread) (hs : Canon s) : Canon (seatCloset s core t) := by
  grind [seatCloset, Canon, canon_spillCloset, canon_fresh, canon_foldl]

theorem canon_seatMover {s : State} (core : Nat) (t : Thread) (hs : Canon s) : Canon (seatMover s core t) := by
  grind [seatMover, Canon, canon_setThread, canon_seatCloset]

theorem canon_seatThread {s : State} (n : Nat) (c : Crew) (both : Bool) (key : Nat) (t : Thread) (hs : Canon s) :
    Canon (seatThread s n c both key t) := by
  grind [seatThread, Canon, canon_seatMover, canon_seatCloset, canon_setThread]

theorem canon_haltPlaced {s : State} (n : Nat) (hs : Canon s) : Canon (haltPlaced s n) := by
  grind [haltPlaced, Canon, canon_modCrew, Option.map_eq_some_iff]

theorem canon_restoreCrew {s : State} (n : Nat) (state : CrewState) (hs : Canon s) {t : State} (he : restoreCrew s n state = some t) :
    Canon t := by
  unfold restoreCrew at he
  dsimp only at he
  split at he
  · cases he
  split at he
  · cases he
  split at he
  · cases he
  cases he
  refine canon_haltPlaced _ (canon_foldl_of (fun s k hs => canon_modCore _ _ hs) _
    (canon_foldl_of (fun s k hs => canon_modVat _ _ hs) _
      (canon_foldl_of (fun s e hs => canon_seatThread _ _ _ _ _ hs) _
        (canon_foldl_of (fun s p hs => by exact hs) _ ?_))))
  split
  · exact canon_foldl_of (fun s i hs => canon_putCells _ _ (canon_clear hs _ _)) _
      (canon_mapCrew _ (canon_keepAway _ (canon_addHolds _ hs)))
  · exact canon_mapCrew _ (canon_keepAway _ (canon_addHolds _ hs))

theorem canon_resumeCrew {s : State} (n : Nat) (hs : Canon s) {t : State} (he : resumeCrew s n = some t) : Canon t := by
  grind [resumeCrew, Canon, canon_freeHeldBars, canon_restoreCrew, Option.map_eq_some_iff]

theorem canon_unshedCrew {s : State} (n : Nat) (hs : Canon s) : Canon (unshedCrew s n) := by
  grind [unshedCrew, Canon, canon_modCrew, canon_freeHeldBars, canon_resumeCrew, canon_getD]

theorem canon_setCeiling {s : State} (k : Nat) (hs : Canon s) : Canon (setCeiling s k) := by
  grind [setCeiling, Canon, canon_modPower, canon_shedCrew, canon_unshedCrew, canon_foldl, Option.map_eq_some_iff]

theorem canon_moveCeiling {s : State} (hs : Canon s) : Canon (moveCeiling s) := by
  grind [moveCeiling, Canon, canon_setCeiling, canon_modPower]

theorem canon_evaluateWith {s : State} (raw : Power → Nat) (skip : Bool) (hs : Canon s) : Canon (evaluateWith s raw skip) := by
  grind [evaluateWith, Canon, canon_modPower, canon_blackbox, canon_moveCeiling]

theorem canon_droopEvaluation {s : State} (hs : Canon s) {t : State} (he : droopEvaluation s = some t) : Canon t := by
  grind [droopEvaluation, Canon, canon_evaluateWith, canon_modPower]

theorem canon_pstpFrame (f : BitVec 128) (idle : Nat) (clean : Bool) {s : State} (hs : Canon s) {t : State}
    (he : pstpFrame f idle clean s = some t) : Canon t := by
  grind [pstpFrame, Canon, canon_droopEvaluation, canon_modPower, canon_blackbox, canon_startSupplyLoss, canon_getD,
    Option.map_eq_some_iff]

theorem canon_telemetryLost {s : State} (hs : Canon s) {t : State} (he : telemetryLost s = some t) : Canon t := by
  grind [telemetryLost, Canon, canon_blackbox, canon_modPower]

theorem canon_eceilStep {s : State} (hs : Canon s) {t : State} (he : eceilStep s = some t) : Canon t := by
  grind [eceilStep, Canon, canon_setCeiling, canon_modPower]

theorem canon_shedGraceExpiry (n : Nat) {s : State} (hs : Canon s) {t : State} (he : shedGraceExpiry n s = some t) : Canon t := by
  grind [shedGraceExpiry, Canon, canon_modCrew, canon_saveCrew, Option.map_eq_some_iff]

theorem canon_sampleCore {s : State} (core : Nat) (v : Nat) (hs : Canon s) : Canon (sampleCore s core v) := by
  grind [sampleCore, Canon, canon_modCore, canon_modPower]

theorem canon_sensorSample (kind idx : Nat) (v : BitVec 16) {s : State} (hs : Canon s) {t : State}
    (he : sensorSample kind idx v s = some t) : Canon t := by
  grind [sensorSample, Canon, canon_modMgmt, canon_sampleCore, canon_modPower, canon_getD]

theorem canon_thermalCapDrop (core : Nat) {s : State} (hs : Canon s) {t : State} (he : thermalCapDrop core s = some t) :
    Canon t := by
  grind [thermalCapDrop, Canon, canon_modCore, canon_modPower, canon_getD]

theorem canon_thermalCapRise (quad : Nat) {s : State} (hs : Canon s) {t : State} (he : thermalCapRise quad s = some t) :
    Canon t := by
  unfold thermalCapRise at he
  split at he
  · split at he
    · cases he
      exact canon_modPower _ hs
    · cases he
  · cases he

theorem canon_dramThrottle (layer : Nat) {s : State} (hs : Canon s) {t : State} (he : dramThrottle layer s = some t) : Canon t := by
  grind [dramThrottle, Canon, canon_modPower]

theorem canon_dramThrottleLift (layer : Nat) {s : State} (hs : Canon s) {t : State} (he : dramThrottleLift layer s = some t) :
    Canon t := by
  unfold dramThrottleLift at he
  split at he
  · split at he
    · cases he
      exact canon_modPower _ hs
    · cases he
  · cases he

theorem canon_relocationMark (core : Nat) {s : State} (hs : Canon s) {t : State} (he : relocationMark core s = some t) :
    Canon t := by
  grind [relocationMark, Canon, canon_modCrew]

theorem canon_flushSlices {s : State} (cores : List Nat) (hs : Canon s) : Canon (flushSlices s cores) := by
  grind [flushSlices, Canon, canon_writeBack, canon_foldl]

theorem canon_relocation (n : Nat) {s : State} (hs : Canon s) {t : State} (he : relocation n s = some t) : Canon t := by
  grind [relocation, Canon, canon_modCrew, canon_freeHeldBars, canon_saveCrew, canon_flushSlices, canon_restoreCrew,
    canon_resumeCrew, Option.map_eq_some_iff, Option.bind_eq_some_iff]

theorem canon_operatingPointChange (quad : Nat) {s : State} (hs : Canon s) {t : State} (he : operatingPointChange quad s = some t) :
    Canon t := by
  grind [operatingPointChange, Canon, canon_modPower]

theorem canon_coreSleep (core : Nat) {s : State} (hs : Canon s) {t : State} (he : coreSleep core s = some t) : Canon t := by
  grind [coreSleep, Canon, canon_modCore]

theorem canon_coreWake (core : Nat) {s : State} (hs : Canon s) {t : State} (he : coreWake core s = some t) : Canon t := by
  grind [coreWake, Canon, canon_modCore]

theorem canon_energyRefill {s : State} (hs : Canon s) {t : State} (he : energyRefill s = some t) : Canon t := by
  grind [energyRefill, Canon, canon_passTime]

theorem canon_wsRefreshWindow {s : State} (hs : Canon s) {t : State} (he : wsRefreshWindow s = some t) : Canon t := by
  grind [wsRefreshWindow, Canon, canon_passTime]

theorem canon_errorGranule {s : State} (code unit : Nat) (hs : Canon s) : Canon (errorGranule s code unit).2 := by
  grind [errorGranule, Canon, canon_free]

theorem canon_structureError (code unit : Nat) (corrected : Bool) (ctx : Nat) {s : State} (hs : Canon s) {t : State}
    (he : structureError code unit corrected ctx s = some t) : Canon t := by
  grind [structureError, Canon, canon_blackbox, canon_errorGranule, canon_modMgmt, canon_portDown]

theorem canon_evictWhere {s : State} (p : Crew → Bool) (hs : Canon s) : Canon (evictWhere s p) := by
  grind [evictWhere, Canon, Option.map_eq_some_iff]

theorem canon_noteRetired {s : State} (kind idx : Nat) (hs : Canon s) : Canon (noteRetired s kind idx) := by
  grind [noteRetired, Canon, canon_modMgmt]

theorem canon_remapRow {s : State} (code unit : Nat) (hs : Canon s) : Canon (remapRow s code unit) := by
  grind [remapRow, Canon, canon_modMgmt]

theorem canon_reloadCrew (old : List (Nat × Crew)) {s : State} (e : Nat × Crew) (hs : Canon s) : Canon (reloadCrew old s e) := by
  grind [reloadCrew, Canon]

theorem canon_resumeReloaded {s : State} (e : Nat × Crew) (hs : Canon s) : Canon (resumeReloaded s e) := by
  grind [resumeReloaded, Canon, canon_restoreCrew, canon_getD]

theorem canon_rollbackCtx {s : State} (ctx : Nat) (hs : Canon s) : Canon (rollbackCtx s ctx) := by
  grind [rollbackCtx, Canon, canon_rollbackWith, canon_reloadCrew, canon_resumeReloaded]

theorem canon_loseState {s : State} (l : List Nat) (hs : Canon s) : Canon (loseState s l) := by
  grind [loseState, Canon, canon_rollbackCtx, canon_endGraphAt, canon_foldl, Option.map_eq_some_iff]

theorem canon_retireUnit {s : State} (code unit : Nat) (hs : Canon s) : Canon (retireUnit s code unit) := by
  unfold retireUnit
  split <;> grind [canon_flushSlices, canon_evictWhere, canon_modCore, canon_modMgmt, canon_noteRetired, canon_remapRow,
    canon_loseState, Option.map_eq_some_iff]

theorem canon_selfTestDone (code unit : Nat) (pass : Bool) {s : State} (hs : Canon s) {t : State}
    (he : selfTestDone code unit pass s = some t) : Canon t := by
  grind [selfTestDone, Canon, canon_modMgmt, canon_portUp, canon_blackbox, canon_retireUnit]

theorem canon_unrecoverableFault (n core slot : Nat) (byThread : Bool) (addr : Word) {s : State} (hs : Canon s) {t : State}
    (he : unrecoverableFault n core slot byThread addr s = some t) : Canon t := by
  grind [unrecoverableFault, Canon, canon_rollbackCtx, canon_takeTrap, canon_endGraphAt]

theorem canon_checkpointPeriod (ctx : Nat) {s : State} (hs : Canon s) {t : State} (he : checkpointPeriod ctx s = some t) :
    Canon t := by
  grind [checkpointPeriod, Canon, canon_wantSeal]

end Sys2Proof.Machine
end

