-- ==== Sys2Proof/Proofs/CanonCheckpoints.lean ====
section
/-! SUPPORT. Memory stays canonical (O45): the seal of an interval, what it releases, and the landing of copies. -/

namespace Sys2Proof.Machine

theorem canon_sealCrew {s : State} (n : Nat) (hs : Canon s) {t : State} {c : Crew} (he : sealCrew s n = some (t, c)) : Canon t := by
  grind [sealCrew, Canon, → canon_saveCrew, → canon_restoreCrew, Option.map_eq_some_iff, Option.bind_eq_some_iff]

theorem canon_sealCrews {s : State} (l : List Nat) (hs : Canon s) {t : State} {cs : List (Nat × Crew)}
    (he : sealCrews s l = some (t, cs)) : Canon t := by
  induction l generalizing s t cs with
  | nil => grind [sealCrews]
  | cons n l ih => grind [sealCrews, canon_sealCrew, Option.bind_eq_some_iff, Option.map_eq_some_iff]

theorem canon_writeSnap {s : State} (e : Nat × Crew) (hs : Canon s) : Canon (writeSnap s e) := by
  grind [writeSnap, Canon, canon_writeSave]

theorem canon_completeCmd {s : State} (q : Nat) (c : Cmd) (status detail aux : Nat) (hs : Canon s) :
    Canon (completeCmd s q c status detail aux) := by
  grind [completeCmd, Canon, canon_complete]

theorem canon_ckptDone (ctx k : Nat) {s : State} (q : Nat) (hs : Canon s) : Canon (ckptDone ctx k s q) := by
  grind [ckptDone, Canon, canon_completeCmd]

theorem canon_releaseRecord {s : State} (x : HeldOut) (hs : Canon s) : Canon (releaseRecord s x) := by
  cases x <;> grind [releaseRecord, Canon, canon_record, canon_putRecord]

theorem canon_setCopy {s : State} (vat : Nat) (c : CopyCmd) (hs : Canon s) : Canon (setCopy s vat c) := by
  grind [setCopy, Canon, canon_modVat, Option.map_eq_some_iff]

theorem canon_engReadSpan {s : State} (g : Eng) (src va n : Nat) (cast : Option (List Nat)) (hs : Canon s) :
    LandingCanon (engReadSpan s g src va n cast) := by
  grind [engReadSpan, Canon, ! canon_engRead, LandingCanon]

theorem canon_freeBytes {s : State} (n : Nat) (hs : Canon s) : Canon (freeBytes s n).2 := by
  have hx : ∀ (l : List Nat) (x : List Byte × State), Canon x.2 →
      Canon (l.foldl (fun (x : List Byte × State) _ => let (w, s) := x.2.free; (x.1 ++ [w.setWidth 8], s)) x).2 := by
    intro l
    induction l with
    | nil => exact fun x hx => hx
    | cons i l ih => exact fun x hx => ih _ (canon_free hx)
  exact hx _ _ hs

theorem canon_gatherElem {s : State} (g : Eng) (ea : Word) (n : Nat) (hs : Canon s) : LandingCanon (gatherElem s g ea n) := by
  grind [gatherElem, Canon, canon_engDelay, LandingCanon, canon_countLine, canon_walked, canon_freeBytes, canon_translate]

theorem canon_engWrite {s : State} (g : Eng) (va : Nat) (bs : List Byte) (now : Bool) (hs : Canon s) :
    LandingCanon (engWrite s g va bs now) := by
  grind [engWrite, Canon, canon_walked, canon_unpoison, canon_setBytes, canon_touchL2, canon_storeLine, LandingCanon]

theorem canon_takeDest {s : State} (hl : List Hold) (k : State → Landing) (hs : Canon s) (hk : ∀ s, Canon s → LandingCanon (k s)) :
    LandingCanon (takeDest s hl k) := by
  grind [takeDest, Canon, canon_addHolds, LandingCanon]

theorem canon_remoteWrite {s : State} (ctx die : Nat) (user : Bool) (va : Word) (owner : Option Nat) (f : State → Nat → List Byte)
    (hs : Canon s) : LandingCanon (remoteWrite s ctx die user va owner f) := by
  grind [remoteWrite, Canon, canon_walked, canon_touchL2, canon_storeLine, LandingCanon]

theorem canon_landOwn {s : State} (g : Eng) (dst n : Nat) (bs : List Byte) (hs : Canon s) :
    LandingCanon (landOwn s g dst n bs).1 := by
  grind [landOwn, Canon, ! canon_takeDest, LandingCanon, ! canon_remoteWrite]

theorem canon_landUnit {s : State} (g : Eng) (j : Nat) (now : Bool) (hs : Canon s) : LandingCanon (landUnit s g j now).1 := by
  grind [landUnit, Canon, ! canon_engReadSpan, LandingCanon, canon_setBytes, ! canon_engRead, ! canon_gatherElem, ! canon_engWrite,
    canon_free, canon_landOwn, canon_foldl, Option.map_eq_some_iff]

theorem canon_countCopy {s : State} (g : Eng) (unit : Nat) (hs : Canon s) : BarCanon (countCopy s g unit) := by
  grind [countCopy, Canon, ! canon_atReceivers, BarCanon, canon_countSector, ! canon_countAt]

theorem canon_afterLanding {s0 s : State} (g : Eng) (j : Nat) (fl : BitVec 5) (hs_s0 : Canon s0) (hs : Canon s) {t : State}
    (he : afterLanding s0 s g j fl = some t) : Canon t := by
  grind [afterLanding, Canon, canon_BarRes_orHold, ! canon_countCopy, BarCanon, canon_putStatus, canon_dropCopyHolds,
    canon_traceCopy, canon_dropCopy, canon_setCopy, Option.bind_eq_some_iff]

theorem canon_releaseUnit {s : State} (vat id j : Nat) (hs : Canon s) : Canon (releaseUnit s vat id j) := by
  unfold releaseUnit
  split <;> grind [canon_setCopy, canon_landUnit, LandingCanon, → canon_afterLanding, canon_getD]

theorem canon_releaseWrite {s : State} (x : HeldOut) (hs : Canon s) : Canon (releaseWrite s x) := by
  cases x <;> grind [releaseWrite, Canon, canon_unpoison, canon_setBytes, canon_releaseUnit]

theorem canon_unparkCrew {s : State} (n : Nat) (hs : Canon s) : Canon (unparkCrew s n) := by
  grind [unparkCrew, Canon, canon_freeHeldBars, canon_modCrew]

theorem canon_intervalSeal (ctx : Nat) {s : State} (hs : Canon s) {t : State} (he : intervalSeal ctx s = some t) : Canon t := by
  unfold intervalSeal at he
  split at he <;> grind [→ canon_sealCrews, canon_writeSnap, canon_copyRange, canon_writeBackLines, canon_modCtx, canon_modMgmt,
    canon_ckptDone, canon_releaseRecord, canon_releaseWrite, canon_unparkCrew, canon_writeHeader, canon_foldl,
    Option.map_eq_some_iff]

theorem canon_rollback (ctx : Nat) {s : State} (hs : Canon s) {t : State} (he : rollback ctx s = some t) : Canon t := by
  grind [rollback, Canon, canon_rollbackCtx]

end Sys2Proof.Machine
end

