-- ==== Sys2Proof/Proofs/CanonHub.lean ====
section
/-! SUPPORT. Memory stays canonical (O45): the host's registers, command packets, copies of the hub, and the commands of contexts. -/

namespace Sys2Proof.Machine

theorem canon_writeMsix {s : State} (off : Nat) (v : Word) (hs : Canon s) : Canon (writeMsix s off v) := by
  grind [writeMsix, Canon, canon_modHub, canon_signal]

theorem canon_bar0RegisterWrite (off : Nat) (v : Word) {s : State} (hs : Canon s) {t : State}
    (he : bar0RegisterWrite off v s = some t) : Canon t := by
  grind [bar0RegisterWrite, Canon, canon_modHub, canon_modMgmt, canon_writeMsix, canon_modPower]

theorem canon_q0ringWrite (v : Word) {s : State} (hs : Canon s) {t : State} (he : q0ringWrite v s = some t) : Canon t := by
  grind [q0ringWrite, Canon, canon_modQueue, canon_refreshQueue]

theorem canon_q0cplWrite (v : Word) {s : State} (hs : Canon s) {t : State} (he : q0cplWrite v s = some t) : Canon t := by
  grind [q0cplWrite, Canon, canon_modQueue]

theorem canon_pkgidWrite (v : BitVec 32) {s : State} (hs : Canon s) {t : State} (he : pkgidWrite v s = some t) : Canon t := by
  grind [pkgidWrite, Canon, canon_modHub]

theorem canon_pstpstRead {s : State} (hs : Canon s) {t : State} (he : pstpstRead s = some t) : Canon t := by
  grind [pstpstRead, Canon, canon_modPower]

theorem canon_stopQueue {s : State} (q code : Nat) (hs : Canon s) : Canon (stopQueue s q code) := by
  grind [stopQueue, Canon, canon_modQueue, canon_refreshQueue, canon_record]

theorem canon_kick (q : Nat) (v : BitVec 32) {s : State} (hs : Canon s) {t : State} (he : kick q v s = some t) : Canon t := by
  grind [kick, Canon, canon_modQueue, canon_stopQueue]

theorem canon_cplheadWrite (q : Nat) (v : BitVec 32) {s : State} (hs : Canon s) {t : State} (he : cplheadWrite q v s = some t) :
    Canon t := by
  grind [cplheadWrite, Canon, canon_modQueue]

theorem canon_pickInClass {s : State} (cls : Nat) (hs : Canon s) {n : Nat} {t : State} (he : pickInClass s cls = some (n, t)) :
    Canon t := by
  grind [pickInClass, Canon, canon_foldl, Option.map_eq_some_iff]

theorem canon_arbitrate {s : State} (hs : Canon s) {n : Nat} {t : State} (he : arbitrate s = some (n, t)) : Canon t := by
  grind [arbitrate, Canon, → canon_pickInClass, → List.exists_of_findSome?_eq_some]

theorem canon_commandFetch (q : Nat) {s : State} (hs : Canon s) {t : State} (he : commandFetch q s = some t) : Canon t := by
  unfold commandFetch at he
  split at he <;> grind [→ canon_arbitrate, canon_stopQueue, canon_modQueue, canon_fresh, canon_refreshQueue]

theorem canon_headerReread (q : Nat) {s : State} (hs : Canon s) {t : State} (he : headerReread q s = some t) : Canon t := by
  grind [headerReread, Canon, canon_stopQueue, canon_refreshQueue, canon_modQueue]

theorem canon_flushBacklog {s : State} (q : Nat) (n : Nat) (hs : Canon s) : Canon (flushBacklog s q n) := by
  induction n generalizing s with
  | zero => grind [flushBacklog]
  | succ n ih => grind [flushBacklog, canon_putRecord, canon_modQueue]

theorem canon_completionRecordWrite (q : Nat) {s : State} (hs : Canon s) {t : State} (he : completionRecordWrite q s = some t) :
    Canon t := by
  grind [completionRecordWrite, Canon, canon_flushBacklog]

theorem canon_nopPacket (q : Nat) {s : State} (hs : Canon s) {t : State} (he : nopPacket q s = some t) : Canon t := by
  grind [nopPacket, Canon, canon_completeCmd, Option.map_eq_some_iff]

theorem canon_faultCmd {s : State} (q : Nat) (c : Cmd) (va : Nat) (hs : Canon s) : Canon (faultCmd s q c va) := by
  grind [faultCmd, Canon, canon_completeCmd]

theorem canon_initQueues {s : State} (gid : Nat) (args : List Word) (hs : Canon s) : Canon (initQueues s gid args) := by
  grind [initQueues, Canon, canon_writeQHeader, canon_gqEos, canon_gqPush, canon_foldl, Option.map_eq_some_iff]

theorem canon_startGraph {s : State} (q : Nat) (c : Cmd) (ts : List TaskDesc) (qs : List QueueDesc) (hs : Canon s) {t : State}
    (he : startGraph s q c ts qs = some t) : Canon t := by
  unfold startGraph at he
  dsimp only at he
  split at he
  · cases he
  split at he
  · cases he
  cases he
  refine canon_linkGraphs _ (canon_setBytes (canon_initQueues _ _ (canon_foldl_of (fun s e hs => by exact hs) _ ?_)) _ _)
  grind [Canon, canon_modCtx, canon_free, canon_modHub]

theorem canon_modCmd {s : State} (q id : Nat) (f : Cmd → Cmd) (hs : Canon s) : Canon (modCmd s q id f) := by
  grind [modCmd, Canon, canon_refreshQueue, canon_modQueue, Option.map_eq_some_iff]

theorem canon_beginCmd {s : State} (q : Nat) (c : Cmd) (hs : Canon s) : Canon (beginCmd s q c) := by
  grind [beginCmd, Canon, canon_modCmd]

theorem canon_launch (q : Nat) {s : State} (hs : Canon s) {t : State} (he : launch q s = some t) : Canon t := by
  unfold launch at he
  split at he <;> grind [canon_faultCmd, → canon_startGraph, canon_beginCmd, → List.exists_of_findSome?_eq_some]

theorem canon_onBegun {s : State} (q typ : Nat) (p : Cmd → Bool) (f : Cmd → Option State) (hf : ∀ c t, f c = some t → Canon t)
    {t : State} (he : onBegun s q typ p f = some t) : Canon t := by
  grind [onBegun, Canon, → List.exists_of_findSome?_eq_some]

theorem canon_onCmd {s : State} (q typ : Nat) (p : Cmd → Bool) (f : Cmd → Option State) (hf : ∀ c t, f c = some t → Canon t)
    {t : State} (he : onCmd s q typ p f = some t) : Canon t := by
  grind [onCmd, Canon, canon_onBegun]

theorem canon_waitCmd {s : State} (q : Nat) (c : Cmd) (hs : Canon s) {t : State} (he : waitCmd s q c = some t) : Canon t := by
  grind [waitCmd, Canon, canon_beginCmd]

theorem canon_copy (q : Nat) {s : State} (hs : Canon s) {t : State} (he : copy q s = some t) : Canon t := by
  grind [copy, Canon, canon_onCmd, canon_waitCmd, canon_faultCmd, ! canon_register, RegisteredCanon, canon_beginCmd, canon_modHub,
    Option.map_eq_some_iff]

theorem canon_hubRead {s : State} (ctx pa n : Nat) (pte : BitVec 64) (counts : Bool) (hs : Canon s) :
    Canon (hubRead s ctx pa n pte counts).1 := by
  grind [hubRead, Canon, canon_engineRead]

theorem canon_hubWrite {s : State} (ctx pa : Nat) (pte : BitVec 64) (bs : List Byte) (hs : Canon s) {t : State}
    (he : hubWrite s ctx pa pte bs = some t) : Canon t := by
  grind [hubWrite, Canon, canon_touchL2, canon_storeLine]

theorem canon_hubMove {s : State} (x : HubCopy) (done : Nat) (n : Nat) (hs : Canon s) : HubMoveCanon (hubMove s x done n) := by
  induction n generalizing s done with
  | zero => grind [hubMove, HubMoveCanon]
  | succ n ih => grind [hubMove, HubMoveCanon, canon_hubRead, canon_hubWrite]

theorem canon_endHubCopy {s : State} (i : Nat) (x : HubCopy) (status landed aux : Nat) (hs : Canon s) :
    Canon (endHubCopy s i x status landed aux) := by
  grind [endHubCopy, Canon, canon_dropHolds, canon_modHub, canon_completeCmd]

theorem canon_hubCopyDone (i : Nat) {s : State} (hs : Canon s) {t : State} (he : hubCopyDone i s = some t) : Canon t := by
  grind [hubCopyDone, Canon, ! canon_hubMove, HubMoveCanon, canon_endHubCopy, canon_wantSeal, canon_modHub]

theorem canon_cmdStore {s : State} (ctx pa : Nat) (pte : BitVec 64) (v : Nat) (hs : Canon s) {t : State}
    (he : cmdStore s ctx pa pte v = some t) : Canon t := by
  grind [cmdStore, Canon, canon_hubWrite]

theorem canon_waitWrite {s : State} (q : Nat) (c : Cmd) (hs : Canon s) {t : State} (he : waitWrite s q c = some t) : Canon t := by
  grind [waitWrite, Canon, canon_beginCmd, canon_wantSeal, canon_waitCmd]

theorem canon_signalStore (q : Nat) {s : State} (hs : Canon s) {t : State} (he : signalStore q s = some t) : Canon t := by
  grind [signalStore, Canon, canon_onCmd, canon_faultCmd, canon_waitCmd, canon_cmdStore, canon_completeCmd, canon_waitWrite]

theorem canon_signalAtomicAdd (q : Nat) {s : State} (hs : Canon s) {t : State} (he : signalAtomicAdd q s = some t) : Canon t := by
  grind [signalAtomicAdd, Canon, canon_onCmd, canon_faultCmd, canon_waitCmd, canon_cmdStore, canon_completeCmd, canon_waitWrite]

theorem canon_signalArrive (q : Nat) {s : State} (hs : Canon s) {t : State} (he : signalArrive q s = some t) : Canon t := by
  grind [signalArrive, Canon, canon_onCmd, canon_waitCmd, canon_beginCmd, canon_holdBar, canon_faultCmd, canon_barUpdate,
    canon_completeCmd, canon_traceTb, canon_madeBar]

theorem canon_evalWaitv {s : State} (q : Nat) (c : Cmd) (hs : Canon s) {t : State} (he : evalWaitv s q c = some t) : Canon t := by
  grind [evalWaitv, Canon, canon_faultCmd, canon_waitCmd, canon_hubRead, canon_completeCmd, canon_modCmd, canon_beginCmd]

theorem canon_waitv (q : Nat) {s : State} (hs : Canon s) {t : State} (he : waitv q s = some t) : Canon t := by
  grind [waitv, Canon, canon_evalWaitv, Option.bind_eq_some_iff]

theorem canon_waitvReevaluate (q : Nat) {s : State} (hs : Canon s) {t : State} (he : waitvReevaluate q s = some t) : Canon t := by
  grind [waitvReevaluate, Canon, canon_onBegun, canon_evalWaitv]

theorem canon_waitvTimeout (q : Nat) {s : State} (hs : Canon s) {t : State} (he : waitvTimeout q s = some t) : Canon t := by
  grind [waitvTimeout, Canon, canon_onBegun, canon_stopQueue, canon_finish]

theorem canon_wsload (q : Nat) {s : State} (hs : Canon s) {t : State} (he : wsload q s = some t) : Canon t := by
  grind [wsload, Canon, canon_completeCmd, canon_faultCmd, canon_modHub, canon_beginCmd, canon_modRegion]

theorem canon_wssealSeal (q : Nat) {s : State} (hs : Canon s) {t : State} (he : wssealSeal q s = some t) : Canon t := by
  grind [wssealSeal, Canon, canon_onCmd, canon_completeCmd, canon_modRegion, canon_modCmd, canon_beginCmd, Option.map_eq_some_iff]

theorem canon_wssealReopen (q : Nat) {s : State} (hs : Canon s) {t : State} (he : wssealReopen q s = some t) : Canon t := by
  grind [wssealReopen, Canon, canon_onCmd, canon_completeCmd, canon_modRegion]

theorem canon_ctxctl (sub : Nat) (f : State → BitVec 512 → Nat ⊕ State) {s : State} (hs : Canon s)
    (hf : ∀ s b t, Canon s → f s b = .inr t → Canon t) {t : State} (he : ctxctl sub f s = some t) : Canon t := by
  grind [ctxctl, Canon, canon_completeCmd, Option.map_eq_some_iff]

theorem canon_createCtx {s : State} (b : BitVec 512) (hs : Canon s) {t : State} (he : createCtx s b = .inr t) : Canon t := by
  grind [createCtx, Canon, canon_addCtx]

theorem canon_create {s : State} (hs : Canon s) {t : State} (he : create s = some t) : Canon t := by
  grind [create, Canon, canon_ctxctl, canon_createCtx]

theorem canon_closeOutputs {s : State} (n : Nat) (hs : Canon s) : Canon (closeOutputs s n) := by
  grind [closeOutputs, Canon, canon_modCtx, canon_putRecord, canon_foldl]

theorem canon_closeCtx {s : State} (n : Nat) (hs : Canon s) : Canon (closeCtx s n) := by
  grind [closeCtx, Canon, canon_closeOutputs, canon_stopQueue, canon_endGraph, canon_foldl, Option.map_eq_some_iff]

theorem canon_endCmds (n : Nat) {s : State} (q : Nat) (hs : Canon s) : Canon (endCmds n s q) := by
  grind [endCmds, Canon, canon_faultCmd, canon_completeCmd, canon_foldl]

theorem canon_freeCtx {s : State} (n : Nat) (hs : Canon s) : Canon (freeCtx s n) := by
  grind [freeCtx, Canon, canon_endCmds, canon_modHub, canon_modMgmt, canon_flushTlb, canon_foldl, Option.map_eq_some_iff]

theorem canon_destroy {s : State} (hs : Canon s) {t : State} (he : destroy s = some t) : Canon t := by
  grind [destroy, Canon, canon_onCmd, canon_completeCmd, canon_closeCtx, canon_freeCtx, canon_beginCmd]

theorem canon_resumeQueue {s : State} (q : Nat) (hs : Canon s) : Canon (resumeQueue s q) := by
  grind [resumeQueue, Canon, canon_endGraph, canon_modCrew, canon_foldl]

theorem canon_qsetQueue {s : State} (b : BitVec 512) (hs : Canon s) {t : State} (he : qsetQueue s b = .inr t) : Canon t := by
  grind [qsetQueue, Canon, canon_modQueue, canon_resumeQueue]

theorem canon_qset {s : State} (hs : Canon s) {t : State} (he : qset s = some t) : Canon t := by
  grind [qset, Canon, canon_ctxctl, canon_qsetQueue]

theorem canon_qresetQueue {s : State} (b : BitVec 512) (hs : Canon s) {t : State} (he : qresetQueue s b = .inr t) : Canon t := by
  grind [qresetQueue, Canon, canon_modQueue, canon_refreshQueue, canon_resumeQueue]

theorem canon_qreset {s : State} (hs : Canon s) {t : State} (he : qreset s = some t) : Canon t := by
  grind [qreset, Canon, canon_ctxctl, canon_qresetQueue]

theorem canon_wsregRegion {s : State} (b : BitVec 512) (hs : Canon s) {t : State} (he : wsregRegion s b = .inr t) : Canon t := by
  grind [wsregRegion, Canon, canon_modHub]

theorem canon_wsreg {s : State} (hs : Canon s) {t : State} (he : wsreg s = some t) : Canon t := by
  grind [wsreg, Canon, canon_ctxctl, canon_wsregRegion]

theorem canon_wsfreeRegion {s : State} (b : BitVec 512) (hs : Canon s) {t : State} (he : wsfreeRegion s b = .inr t) : Canon t := by
  grind [wsfreeRegion, Canon, canon_modHub]

theorem canon_wsfree {s : State} (hs : Canon s) {t : State} (he : wsfree s = some t) : Canon t := by
  grind [wsfree, Canon, canon_ctxctl, canon_wsfreeRegion]

theorem canon_ckptPacket (q : Nat) {s : State} (hs : Canon s) {t : State} (he : ckptPacket q s = some t) : Canon t := by
  grind [ckptPacket, Canon, canon_completeCmd, canon_beginCmd, canon_modCtx]

theorem canon_resync {s : State} (hs : Canon s) {t : State} (he : resync s = some t) : Canon t := by
  grind [resync, Canon, canon_faultCmd, canon_completeCmd, canon_setBytes]

end Sys2Proof.Machine
end

