-- ==== Sys2Proof/Proofs/CanonHost.lean ====
section
/-! SUPPORT. Memory stays canonical (O45): preemption, profiles, the mailbox, accesses of the host, placement, and the events of slots. -/

namespace Sys2Proof.Machine

theorem canon_preemptCrew {s : State} (n : Nat) (hs : Canon s) : Canon (preemptCrew s n) := by
  grind [preemptCrew, Canon, canon_modCrew, canon_abortPlacement]

theorem canon_preemptSwapOut (q : Nat) {s : State} (hs : Canon s) {t : State} (he : preemptSwapOut q s = some t) : Canon t := by
  grind [preemptSwapOut, Canon, canon_onCmd, canon_completeCmd, canon_preemptCrew, canon_beginCmd, canon_foldl]

theorem canon_preemptRestore (q : Nat) {s : State} (hs : Canon s) {t : State} (he : preemptRestore q s = some t) : Canon t := by
  grind [preemptRestore, Canon, canon_onCmd, canon_completeCmd, canon_modCrew, canon_foldl]

theorem canon_spillPc {s : State} (core : Nat) (e : PcEntry) (hs : Canon s) : Canon (spillPc s core e) := by
  grind [spillPc, Canon, canon_profPut]

theorem canon_spillCore (ctx : Nat) {s : State} (core : Nat) (hs : Canon s) : Canon (spillCore ctx s core) := by
  grind [spillCore, Canon, canon_profPut, canon_modHub, canon_foldl]

theorem canon_profSpill {s : State} (ctx : Nat) (hs : Canon s) : Canon (profSpill s ctx) := by
  grind [profSpill, Canon, canon_modHub, canon_spillPc, canon_spillCore, canon_foldl, Option.map_eq_some_iff]

theorem canon_profileStart (q : Nat) {s : State} (hs : Canon s) {t : State} (he : profileStart q s = some t) : Canon t := by
  grind [profileStart, Canon, canon_onCmd, canon_faultCmd, canon_waitCmd, canon_profSpill, canon_modCtx, canon_ringPut,
    canon_completeCmd, canon_getD]

theorem canon_profileStop (q : Nat) {s : State} (hs : Canon s) {t : State} (he : profileStop q s = some t) : Canon t := by
  grind [profileStop, Canon, canon_onCmd, canon_completeCmd, canon_modCtx]

theorem canon_profileSpill (q : Nat) {s : State} (hs : Canon s) {t : State} (he : profileSpill q s = some t) : Canon t := by
  grind [profileSpill, Canon, canon_onCmd, canon_completeCmd, canon_profSpill]

theorem canon_profCount {s : State} (key : Nat) (hs : Canon s) : Canon (profCount s key) := by
  grind [profCount, Canon, canon_modHub]

theorem canon_countPc {s : State} (core : Nat) (line : Word) (reason ctx : Nat) (hs : Canon s) :
    Canon (countPc s core line reason ctx) := by
  grind [countPc, Canon, canon_modHub, canon_spillPc]

theorem canon_accountCore {s : State} (core : Nat) (hs : Canon s) : Canon (accountCore s core) := by
  grind [accountCore, Canon, canon_profCount, canon_countPc, canon_foldl]

theorem canon_profileAccount {s : State} (hs : Canon s) {t : State} (he : profileAccount s = some t) : Canon t := by
  grind [profileAccount, Canon, canon_accountCore, canon_foldl]

theorem canon_qfence (q : Nat) {s : State} (hs : Canon s) {t : State} (he : qfence q s = some t) : Canon t := by
  refine canon_onCmd _ _ _ _ (fun c t hc => ?_) he
  beta_reduce at hc
  split at hc
  · cases hc
    exact canon_completeCmd _ _ _ _ _ hs
  extract_lets q2 s2 x passed before at hc
  split at hc
  · cases hc
    exact canon_completeCmd _ _ _ _ _ hs
  split at hc
  · cases hc
    exact canon_completeCmd _ _ _ _ _ hs
  · exact canon_waitCmd _ _ hs hc

theorem canon_mailbox (code : Nat) (f : State → Nat × State) {s : State} (hs : Canon s) (hf : ∀ s, Canon s → Canon (f s).2)
    {t : State} (he : mailbox code f s = some t) : Canon t := by
  grind [mailbox, Canon, canon_modMgmt]

theorem canon_putWindow {s : State} (off : Nat) (bs : List Byte) (hs : Canon s) : Canon (State.putWindow s off bs) := by
  grind [State.putWindow, Canon, canon_modMgmt, canon_foldl]

theorem canon_attest (writeOk : Bool) {s : State} (hs : Canon s) {t : State} (he : attest writeOk s = some t) : Canon t := by
  grind [attest, Canon, canon_mailbox, canon_putWindow, canon_modMgmt]

theorem canon_answer {s : State} (r : Option (List Byte)) (hs : Canon s) : Canon (answer s r).2 := by
  cases r <;> grind [answer, Canon, canon_putWindow]

theorem canon_bbread {s : State} (hs : Canon s) {t : State} (he : bbread s = some t) : Canon t := by
  grind [bbread, Canon, canon_mailbox, canon_answer]

theorem canon_fwstage {s : State} (hs : Canon s) {t : State} (he : fwstage s = some t) : Canon t := by
  grind [fwstage, Canon, canon_mailbox, canon_modMgmt, canon_blackbox, canon_foldl]

theorem canon_fwactivate {s : State} (hs : Canon s) {t : State} (he : fwactivate s = some t) : Canon t := by
  grind [fwactivate, Canon, canon_mailbox, canon_modMgmt, canon_blackbox]

theorem canon_sensrd {s : State} (hs : Canon s) {t : State} (he : sensrd s = some t) : Canon t := by
  grind [sensrd, Canon, canon_mailbox, canon_answer]

theorem canon_debug (code : Nat) (f : State → Nat × State) {s : State} (hs : Canon s) (hf : ∀ s, Canon s → Canon (f s).2)
    {t : State} (he : debug code f s = some t) : Canon t := by
  grind [debug, Canon, canon_mailbox]

theorem canon_dbghalt {s : State} (hs : Canon s) {t : State} (he : dbghalt s = some t) : Canon t := by
  grind [dbghalt, Canon, canon_debug, canon_haltGroup, canon_putWindow, canon_foldl]

theorem canon_resumeFar {s : State} (ctx v : Nat) (hs : Canon s) : Canon (resumeFar s ctx v) := by
  grind [resumeFar, Canon, canon_modRef, canon_foldl]

theorem canon_resumeVat (ctx : Nat) {s : State} (v : Nat) (hs : Canon s) : Canon (resumeVat ctx s v) := by
  grind [resumeVat, Canon, canon_modVat, canon_resumeFar, canon_blackbox, Option.map_eq_some_iff]

theorem canon_dbgresume {s : State} (hs : Canon s) {t : State} (he : dbgresume s = some t) : Canon t := by
  grind [dbgresume, Canon, canon_debug, canon_resumeVat, canon_foldl]

theorem canon_debugCore (code : Nat) (f : State → Nat × State) {s : State} (hs : Canon s) (hf : ∀ s, Canon s → Canon (f s).2)
    {t : State} (he : debugCore code f s = some t) : Canon t := by
  grind [debugCore, Canon, canon_debug]

theorem canon_dbgstep {s : State} (hs : Canon s) {t : State} (he : dbgstep s = some t) : Canon t := by
  grind [dbgstep, Canon, canon_debugCore, canon_modThread]

theorem canon_dbgread {s : State} (hs : Canon s) {t : State} (he : dbgread s = some t) : Canon t := by
  grind [dbgread, Canon, canon_debugCore, canon_putWindow]

theorem canon_selectWrite {s : State} (core slot sel : Nat) (hs : Canon s) {t : State} (he : selectWrite s core slot sel = some t) :
    Canon t := by
  grind [selectWrite, Canon, canon_modThread, canon_csrWrite, canon_foldl]

theorem canon_dbgwrite {s : State} (hs : Canon s) {t : State} (he : dbgwrite s = some t) : Canon t := by
  grind [dbgwrite, Canon, canon_debugCore, canon_selectWrite]

theorem canon_dbgcfg {s : State} (hs : Canon s) {t : State} (he : dbgcfg s = some t) : Canon t := by
  grind [dbgcfg, Canon, canon_debug, canon_modVat]

theorem canon_mailboxDone {s : State} (hs : Canon s) {t : State} (he : mailboxDone s = some t) : Canon t := by
  grind [mailboxDone, Canon, canon_modMgmt, canon_signal]

theorem canon_maskedWrite {s : State} (pa : Nat) (data : BitVec 512) (mask : BitVec 64) (hs : Canon s) :
    Canon (maskedWrite s pa data mask) := by
  grind [maskedWrite, Canon, canon_setByte, canon_foldl]

theorem canon_touchResident {s : State} (pa : Nat) (wr : Bool) (hs : Canon s) : Canon (State.touchResident s pa wr) := by
  grind [State.touchResident, Canon, canon_touchL2, canon_merge, canon_endLeases]

theorem canon_hostPerform {s : State} (write : Bool) (line : Nat) (data : BitVec 512) (mask : BitVec 64) (hs : Canon s) :
    Canon (hostPerform s write line data mask) := by
  grind [hostPerform, Canon, canon_maskedWrite, canon_touchResident, canon_unpoison, canon_modHub]

theorem canon_logHost {s : State} (pa : Nat) (l : List (Nat × Ctx)) (hs : Canon s) {t : State} (he : logHost s pa l = .inl t) :
    Canon t := by
  induction l generalizing s with
  | nil => grind [logHost]
  | cons x l ih => grind [logHost, canon_logLine]

theorem canon_hostTry {s : State} (write : Bool) (line : Nat) (data : BitVec 512) (mask : BitVec 64) (hs : Canon s) :
    BothCanon (hostTry s write line data mask) := by
  grind [hostTry, Canon, canon_logHost, canon_wantSeal, canon_hostPerform, BothCanon]

theorem canon_hostMemAccess (write : Bool) (line : Nat) (data : BitVec 512) (mask : BitVec 64) {s : State} (hs : Canon s)
    {t : State} (he : hostMemAccess write line data mask s = some t) : Canon t := by
  grind [hostMemAccess, Canon, canon_modHub, canon_hostPerform, ! canon_hostTry, BothCanon]

theorem canon_hostHoldTimeout (i : Nat) {s : State} (hs : Canon s) {t : State} (he : hostHoldTimeout i s = some t) : Canon t := by
  grind [hostHoldTimeout, Canon, canon_modHub]

theorem canon_relistCrews {s : State} (hs : Canon s) : Canon (relistCrews s) := by
  grind [relistCrews, Canon, Option.map_eq_some_iff]

theorem canon_reserveNext {s : State} (only0 : Bool) (hs : Canon s) {t : State} (he : reserveNext s only0 = some t) : Canon t := by
  grind [reserveNext, Canon, canon_modHub, canon_modCrew, Option.map_eq_some_iff]

theorem canon_placementReserve {s : State} (hs : Canon s) {t : State} (he : placementReserve s = some t) : Canon t := by
  grind [placementReserve, Canon, canon_relistCrews, canon_reserveNext, canon_abortPlacement, canon_modCrew, canon_modHub,
    Option.map_eq_some_iff, Option.bind_eq_some_iff]

theorem canon_placementCommit {s : State} (hs : Canon s) {t : State} (he : placementCommit s = some t) : Canon t := by
  unfold placementCommit at he
  dsimp only at he
  split at he
  · cases he
  split at he
  · cases he
  split at he
  · cases he
  cases he
  refine canon_haltPlaced _ (canon_foldl_of (fun s i hs => ?_) _ (canon_mapCrew _ (canon_clearPresses _ hs)))
  exact canon_seatMover _ _ (canon_foldl_of (fun s x hs => canon_setThread _ _ _ hs) _ (canon_clear hs _ _))

theorem canon_waitListStarvation (_cls : Nat) {s : State} (hs : Canon s) {t : State} (he : waitListStarvation _cls s = some t) :
    Canon t := by
  grind [waitListStarvation, Canon]

theorem canon_gangPreempt (n : Nat) {s : State} (hs : Canon s) {t : State} (he : gangPreempt n s = some t) : Canon t := by
  grind [gangPreempt, Canon, canon_saveCrew]

theorem canon_swapOut (n : Nat) {s : State} (hs : Canon s) {t : State} (he : swapOut n s = some t) : Canon t := by
  grind [swapOut, Canon, canon_writeSave, Option.map_eq_some_iff]

theorem canon_crewRestore (n : Nat) {s : State} (hs : Canon s) {t : State} (he : crewRestore n s = some t) : Canon t := by
  grind [crewRestore, Canon, canon_modHub, canon_resumeCrew, Option.map_eq_some_iff]

theorem canon_idleSwap (n : Nat) {s : State} (hs : Canon s) {t : State} (he : idleSwap n s = some t) : Canon t := by
  grind [idleSwap, Canon, canon_saveCrew, canon_modCrew, canon_swapOut, Option.map_eq_some_iff, Option.bind_eq_some_iff]

theorem canon_itemDispense (gid task : Nat) {s : State} (hs : Canon s) {t : State} (he : itemDispense gid task s = some t) :
    Canon t := by
  unfold itemDispense at he
  split at he <;> grind [canon_modGQueue, canon_modGraph, canon_modThread, canon_writeQHeader]

theorem canon_eosDispense (gid q core slot : Nat) {s : State} (hs : Canon s) {t : State}
    (he : eosDispense gid q core slot s = some t) : Canon t := by
  grind [eosDispense, Canon, canon_modGQueue, canon_modThread]

theorem canon_graphRetire (gid : Nat) {s : State} (hs : Canon s) {t : State} (he : graphRetire gid s = some t) : Canon t := by
  grind [graphRetire, Canon, canon_endGraph, canon_profSpill]

theorem canon_asyncTrapEntry (core slot : Nat) {s : State} (hs : Canon s) {t : State} (he : asyncTrapEntry core slot s = some t) :
    Canon t := by
  grind [asyncTrapEntry, Canon, canon_at, canon_takeAsync]

theorem canon_notifyEntry (core slot : Nat) {s : State} (hs : Canon s) {t : State} (he : notifyEntry core slot s = some t) :
    Canon t := by
  grind [notifyEntry, Canon, canon_at, canon_modMe]

theorem canon_asyncResultLand (core slot i : Nat) {s : State} (hs : Canon s) {t : State}
    (he : asyncResultLand core slot i s = some t) : Canon t := by
  grind [asyncResultLand, Canon, canon_setThread]

theorem canon_retryIf (ok : Park → Bool) (core slot : Nat) {s : State} (hs : Canon s) {t : State}
    (he : retryIf ok core slot s = some t) : Canon t := by
  grind [retryIf, Canon, canon_retryParked, canon_at]

theorem canon_accessPerformed (core slot : Nat) {s : State} (hs : Canon s) {t : State} (he : accessPerformed core slot s = some t) :
    Canon t := by
  grind [accessPerformed, Canon, canon_retryIf]

theorem canon_deliverOut (reg : Bool) (core slot : Nat) {s : State} (hs : Canon s) {t : State}
    (he : deliverOut reg core slot s = some t) : Canon t := by
  grind [deliverOut, Canon, canon_modLoc, canon_tryDeliver, Option.map_eq_some_iff]

theorem canon_exitTrap {s : State} (core slot cause : Nat) (addr aux : Word) (hs : Canon s) :
    Canon (exitTrap s core slot cause addr aux) := by
  grind [exitTrap, Canon, canon_setThread, canon_takeTrap]

theorem canon_sendTimeout (core slot : Nat) {s : State} (hs : Canon s) {t : State} (he : sendTimeout core slot s = some t) :
    Canon t := by
  grind [sendTimeout, Canon, canon_exitTrap, canon_takeTrap]

theorem canon_addTokens {s : State} (gid : Nat) (n : TRef × Bool) (l : List Nat) (hs : Canon s) : Canon (addTokens s gid n l) := by
  grind [addTokens, Canon, canon_modGQueue, canon_foldl]

theorem canon_curdResume (core : Nat) {s : State} (hs : Canon s) {t : State} (he : curdResume core s = some t) : Canon t := by
  grind [curdResume, Canon, canon_free, canon_modCore, canon_setThread, canon_addTokens]

theorem canon_closetSwap (core : Nat) {s : State} (hs : Canon s) {t : State} (he : closetSwap core s = some t) : Canon t := by
  grind [closetSwap, Canon, → canon_retryIf, → List.exists_of_findSome?_eq_some]

theorem canon_movementSwap (core : Nat) {s : State} (hs : Canon s) {t : State} (he : movementSwap core s = some t) : Canon t := by
  grind [movementSwap, Canon, canon_swapCloset, Option.bind_eq_some_iff]

end Sys2Proof.Machine
end

