-- ==== Sys2Proof/Proofs/CanonPresses.lean ====
section
/-! SUPPORT. Memory stays canonical (O45): pacts and their deliveries, remote packets, stream elements, and weights. -/

namespace Sys2Proof.Machine

theorem canon_mismatch {s : State} (press : Nat) (hh : Half) (reason : Nat) (hs : Canon s) :
    Canon (mismatch s press hh reason) := by
  grind [mismatch, Canon, canon_failHalf]

theorem canon_failPairs {s : State} (ps : List Pair) (press : Nat) (lead : Bool) (cause : Nat) (addr : Word) (aux : Nat)
    (hs : Canon s) : Canon (failPairs s ps press lead cause addr aux) := by
  grind [failPairs, Canon, canon_failHalf, canon_mismatch, canon_foldl]

theorem canon_release {s : State} (r : TRef) (hs : Canon s) : Canon (State.release s r) := by
  grind [State.release, Canon, canon_modRef]

theorem canon_formPair {s : State} (x : Pair) (gang rank : Nat) (pages : List (Nat × Nat × BitVec 64)) (hs : Canon s) :
    Canon (formPair s x gang rank pages) := by
  grind [formPair, Canon, canon_modPress, canon_release, canon_modRef]

theorem canon_formPairs {s : State} (ps : List Pair) (rank : Nat) (hs : Canon s) {t : State} (he : formPairs s ps rank = some t) :
    Canon t := by
  unfold formPairs at he
  split at he <;> grind [canon_failPairs, canon_dropHolds, ! canon_register, RegisteredCanon, canon_formPair, canon_foldl,
    Option.map_eq_some_iff]

theorem canon_pactForm (press : Nat) (tag : BitVec 8) {s : State} (hs : Canon s) {t : State} (he : pactForm press tag s = some t) :
    Canon t := by
  grind [pactForm, Canon, canon_mismatch, canon_formPairs, canon_foldl]

theorem canon_pactTimeout (core slot : Nat) {s : State} (hs : Canon s) {t : State} (he : pactTimeout core slot s = some t) :
    Canon t := by
  unfold pactTimeout at he
  dsimp only at he
  split at he <;> grind [→ canon_BarRes_orHold, ! canon_cancelHalf, BarCanon, ! canon_cancelPact, canon_exitTrap, canon_takeTrap]

theorem canon_pressEntryStart (press i : Nat) {s : State} (hs : Canon s) {t : State} (he : pressEntryStart press i s = some t) :
    Canon t := by
  grind [pressEntryStart, Canon, canon_tracePress, canon_modPress]

theorem canon_pressWalks {s : State} (press : Nat) (e : PressEntry) (hs : Canon s) : Canon (pressWalks s press e) := by
  grind [pressWalks, Canon, canon_walked, canon_foldSpan, canon_foldl]

theorem canon_onward {s : State} (press i : Nat) (e : PressEntry) (k : Nat) (next : State → PressEntry → Option State)
    (hs : Canon s) (hn : ∀ s e t, Canon s → next s e = some t → Canon t) {t : State} (he : onward s press i e k next = some t) :
    Canon t := by
  grind [onward, Canon, canon_modPress, canon_pressWalks, canon_bump]

theorem canon_streamEnd (press i : Nat) {s : State} (e : PressEntry) (hs : Canon s) : Canon (streamEnd press i s e) := by
  grind [streamEnd, Canon, canon_modPress, canon_releaseKey, canon_dropHolds, canon_finishPact]

theorem canon_pactStreamEnd (press : Nat) {s : State} (hs : Canon s) {t : State} (he : pactStreamEnd press s = some t) :
    Canon t := by
  grind [pactStreamEnd, Canon, canon_onward, canon_streamEnd]

theorem canon_countGrads {s : State} (rd : Reader) (near : Nat) (d : Desc) (l : Nat) (hs : Canon s) :
    Canon (countGrads s rd near d l) := by
  grind [countGrads, Canon, canon_walked, canon_engineRead, canon_foldl]

theorem canon_engineStore {s : State} (rd : Reader) (va : Nat) (bs : List Byte) (hs : Canon s) {t : State}
    (he : engineStore s rd va bs = some t) : Canon t := by
  grind [engineStore, Canon, canon_walked, canon_touchL2, canon_storeLine]

theorem canon_addAtHome {s : State} (rd : Reader) (va v : Nat) (hs : Canon s) {t : State} {fl : BitVec 5}
    (he : addAtHome s rd va v = some (t, fl)) : Canon t := by
  grind [addAtHome, Canon, canon_engineStore, Option.map_eq_some_iff]

theorem canon_performAdds {s : State} (rd : Reader) (e : PressEntry) (l : List (Nat × Res)) (hs : Canon s) :
    Canon (performAdds s rd e l).1 := by
  induction l generalizing s e with
  | nil => grind [performAdds]
  | cons w l ih => grind [performAdds, canon_addAtHome]

theorem canon_gradTo {s : State} (press : Nat) (e : PressEntry) (l : Nat) (most : Option Nat) (hs : Canon s) {t : State}
    {x : PressEntry × Bool} (he : gradTo s press e l most = some (t, x)) : Canon t := by
  grind [gradTo, Canon, canon_countGrads, canon_performAdds, canon_foldl, Option.map_eq_some_iff]

theorem canon_engineStores {s : State} (rd : Reader) (l : List (Nat × List Byte)) (hs : Canon s) {t : State}
    (he : engineStores s rd l = some t) : Canon t := by
  induction l generalizing s with
  | nil => grind [engineStores]
  | cons w l ih => grind [engineStores, canon_engineStore, Option.bind_eq_some_iff]

theorem canon_countN {s : State} (core ctx : Nat) (va : Word) (src : BarSrc) (n : Nat) (hs : Canon s) :
    BarCanon (countN s core ctx va src n) := by
  induction n generalizing s with
  | zero => grind [countN, BarCanon]
  | succ n ih => grind [countN, canon_countAt, BarCanon]

theorem canon_landTile (press i : Nat) {s : State} (e : PressEntry) (hs : Canon s) : Canon (landTile press i s e) := by
  grind [landTile, Canon, canon_endGang, canon_finishPact, canon_modPress]

theorem canon_pactDeliveryDone (press i : Nat) {s : State} (hs : Canon s) {t : State} (he : pactDeliveryDone press i s = some t) :
    Canon t := by
  unfold pactDeliveryDone at he
  dsimp only at he
  split at he <;> grind [→ canon_gradTo, → canon_BarRes_orHold, ! canon_countAt, BarCanon, canon_dropHolds, canon_finishPact,
    → canon_engineStores, ! canon_countN, canon_landTile, Option.bind_eq_some_iff]

theorem canon_activeTo {s : State} (press i : Nat) (e : PressEntry) (k : Nat) (next : State → PressEntry → Option State)
    (hs : Canon s) (hn : ∀ s e t, Canon s → next s e = some t → Canon t) {t : State} (he : activeTo s press i e k next = some t) :
    Canon t := by
  grind [activeTo, Canon, canon_gradTo, canon_modPress, canon_onward]

theorem canon_suspendNow (press i : Nat) {s : State} (e : PressEntry) (hs : Canon s) {t : State}
    (he : suspendNow press i s e = some t) : Canon t := by
  grind [suspendNow, Canon, canon_BarRes_orHold, ! canon_cancelPact, BarCanon, canon_modPress]

theorem canon_pactSuspend (press koff : Nat) {s : State} (hs : Canon s) {t : State} (he : pactSuspend press koff s = some t) :
    Canon t := by
  grind [pactSuspend, Canon, → canon_activeTo, → canon_suspendNow, → List.exists_of_findSome?_eq_some]

theorem canon_resumeNow (press i : Nat) {s : State} (e : PressEntry) (hs : Canon s) : Canon (resumeNow press i s e) := by
  grind [resumeNow, Canon, canon_releaseKey, canon_modPress]

theorem canon_pactResume (press : Nat) {s : State} (hs : Canon s) {t : State} (he : pactResume press s = some t) : Canon t := by
  grind [pactResume, Canon, canon_resumeNow, → List.exists_of_findSome?_eq_some]

theorem canon_failFetch {s : State} (press i koff : Nat) (own scale : Bool) (addr : Word) (e : PressEntry) (hs : Canon s)
    {t : State} (he : failFetch s press i koff own scale addr e = some t) : Canon t := by
  grind [failFetch, Canon, canon_modPress]

theorem canon_operandFault (press koff : Nat) (own scale : Bool) (addr : Word) {s : State} (hs : Canon s) {t : State}
    (he : operandFault press koff own scale addr s = some t) : Canon t := by
  unfold operandFault at he
  split at he <;> grind [→ canon_activeTo, canon_modRef, → canon_failFetch, canon_trapRef, Option.map_eq_some_iff,
    → List.exists_of_findSome?_eq_some]

theorem canon_tellPdlv {s : State} (press : Nat) (e : PressEntry) (other : Bool) (addr : Word) (hs : Canon s) :
    Canon (tellPdlv s press e other addr) := by
  grind [tellPdlv, Canon, canon_modRef]

theorem canon_enterDfault {s : State} (press : Nat) (e : PressEntry) (other : Bool) (addr : Word) (hs : Canon s) :
    Canon (enterDfault s press e other addr) := by
  grind [enterDfault, Canon, canon_tellPdlv, canon_endEntry]

theorem canon_failGang {s : State} (g : Nat) (addr : Word) (hs : Canon s) : Canon (failGang s g addr) := by
  grind [failGang, Canon, canon_enterDfault, canon_endGang, canon_foldl, Option.map_eq_some_iff]

theorem canon_deliveryFault (press i landed : Nat) (addr : Word) {s : State} (hs : Canon s) {t : State}
    (he : deliveryFault press i landed addr s = some t) : Canon t := by
  unfold deliveryFault at he
  dsimp only at he
  split at he <;> grind [canon_enterDfault, → canon_gradTo, canon_dropHolds, → canon_BarRes_orHold, ! canon_errorAt, BarCanon,
    → canon_engineStores, ! canon_countN, canon_modPress, canon_failGang, Option.bind_eq_some_iff]

theorem canon_holdUnit {s : State} (g : Eng) (j : Nat) (pa : Option Nat) (bs : List Byte) (hs : Canon s) {t : State}
    (he : holdUnit s g j pa bs = some t) : Canon t := by
  grind [holdUnit, Canon, canon_setCopy, canon_putEntry, canon_free, canon_wantSeal]

theorem canon_copySectorLand (vat idx sector : Nat) {s : State} (hs : Canon s) {t : State}
    (he : copySectorLand vat idx sector s = some t) : Canon t := by
  grind [copySectorLand, Canon, canon_landUnit, LandingCanon, canon_afterLanding, canon_holdUnit, canon_setCopy]

theorem canon_copyFailure (vat idx sector : Nat) (rmt : Bool) {s : State} (hs : Canon s) {t : State}
    (he : copyFailure vat idx sector rmt s = some t) : Canon t := by
  grind [copyFailure, Canon, canon_landUnit, LandingCanon, canon_stopCopy]

theorem canon_cpymAccept (core : Nat) {s : State} (hs : Canon s) {t : State} (he : cpymAccept core s = some t) : Canon t := by
  grind [cpymAccept, Canon, canon_retryIf]

theorem canon_endRemote {s : State} (xfer : Nat) (hs : Canon s) {t : State} (he : endRemote s xfer = some t) : Canon t := by
  grind [endRemote, Canon, canon_dropHolds, canon_modHub]

theorem canon_waitRemote {s : State} (e : RemoteIn) (hs : Canon s) {t : State} (he : waitRemote s e = some t) : Canon t := by
  grind [waitRemote, Canon, canon_modHub]

theorem canon_remoteSector (xfer ctx : Nat) (user : Bool) (va : Word) (n : Nat) (data : BitVec 512) (base : Word) (len : Nat)
    (last : Bool) {s : State} (hs : Canon s) {t : State} (he : remoteSector xfer ctx user va n data base len last s = some t) :
    Canon t := by
  grind [remoteSector, Canon, ! canon_remoteWrite, LandingCanon, ! canon_takeDest, canon_modHub, canon_dropHolds, canon_waitRemote,
    canon_endRemote]

theorem canon_remoteReadIn (xfer ctx : Nat) (user : Bool) (va : Word) (n : Nat) {s : State} (hs : Canon s) {t : State}
    (he : remoteReadIn xfer ctx user va n s = some t) : Canon t := by
  grind [remoteReadIn, Canon, canon_engineRead, canon_modHub]

theorem canon_remoteAdd (xfer kind ctx : Nat) (user : Bool) (va : Word) (n : Nat) (data : BitVec 512) {s : State} (hs : Canon s)
    {t : State} (he : remoteAdd xfer kind ctx user va n data s = some t) : Canon t := by
  grind [remoteAdd, Canon, canon_modHub, ! canon_takeDest, LandingCanon, ! canon_remoteWrite, canon_waitRemote]

theorem canon_remoteWriteArrive (xfer kind ctx asid : Nat) (va : Word) (n : Nat) (p : RemotePacket) (last : Bool) {s : State}
    (hs : Canon s) {t : State} (he : remoteWriteArrive xfer kind ctx asid va n p last s = some t) : Canon t := by
  grind [remoteWriteArrive, Canon, canon_endRemote, canon_remoteSector, canon_remoteReadIn, canon_remoteAdd]

theorem canon_streamRead {s : State} (b : StreamBind) (va : Word) (n : Nat) (counts : Bool) (hs : Canon s) :
    FetchedCanon (streamRead s b va n counts) := by
  grind [streamRead, Canon, canon_walked, canon_engineRead, FetchedCanon]

theorem canon_streamPlace {s : State} (b : StreamBind) (j : Nat) (hs : Canon s) : PlaceCanon (streamPlace s b j) := by
  grind [streamPlace, Canon, ! canon_streamRead, FetchedCanon, PlaceCanon]

theorem canon_streamElementFetch (core slot sr : Nat) {s : State} (hs : Canon s) {t : State}
    (he : streamElementFetch core slot sr s = some t) : Canon t := by
  grind [streamElementFetch, Canon, canon_at, canon_modStream, ! canon_streamPlace, PlaceCanon, ! canon_streamRead, FetchedCanon]

theorem canon_stopStream {s0 s : State} (r : Nat) (b : StreamBind) (f : AsyncTrap) (hs_s0 : Canon s0) (hs : Canon s) {t : State}
    (he : stopStream s0 s r b f = some t) : Canon t := by
  grind [stopStream, Canon, canon_modStream, canon_dropHolds, canon_takeTrap, canon_BarRes_orHold, ! canon_errorAt, BarCanon]

theorem canon_streamElementLand (core slot sr : Nat) (ok : Bool) {s : State} (hs : Canon s) {t : State}
    (he : streamElementLand core slot sr ok s = some t) : Canon t := by
  unfold streamElementLand at he
  split at he <;> grind [canon_at, ! canon_streamPlace, PlaceCanon, → canon_stopStream, canon_modStream, → canon_engineStore,
    Option.map_eq_some_iff]

theorem canon_tlbiComplete (core slot : Nat) {s : State} (hs : Canon s) {t : State} (he : tlbiComplete core slot s = some t) :
    Canon t := by
  grind [tlbiComplete, Canon, canon_retryIf]

theorem canon_issue (i : Instr) (b : Body) {s : State} (hb : BodyCanon b) (hs : Canon s) : Canon (issue i b s) := by
  grind [issue, Canon, → canon_Body_accept, canon_stopMe, canon_setSkip, canon_goOn, canon_settle, ! BodyCanon.eff_of]

theorem canon_slwRelease {s : State} (hs : Canon s) {t : State} (he : slwRelease s = some t) : Canon t := by
  grind [slwRelease, Canon, canon_modHub]

theorem canon_putWeights {s : State} (dies : BitVec 4) (off : Nat) (bs : List Byte) (hs : Canon s) :
    Canon (putWeights s dies off bs) := by
  grind [putWeights, Canon, canon_foldl]

theorem canon_loadWeights {s : State} (x : HubCopy) (off : Nat) (dies : BitVec 4) (done : Nat) (n : Nat) (hs : Canon s) :
    HubMoveCanon (loadWeights s x off dies done n) := by
  induction n generalizing s done with
  | zero => grind [loadWeights, HubMoveCanon]
  | succ n ih => grind [loadWeights, HubMoveCanon, canon_hubRead, canon_putWeights]

theorem canon_wsloadDone (i : Nat) {s : State} (hs : Canon s) {t : State} (he : wsloadDone i s = some t) : Canon t := by
  unfold wsloadDone at he
  split at he <;> grind [canon_modHub, canon_completeCmd, canon_modRegion, ! canon_loadWeights, HubMoveCanon]

theorem canon_remoteHoldWaitTimeout (xfer : Nat) {s : State} (hs : Canon s) {t : State} (he : remoteHoldWaitTimeout xfer s = some t) :
    Canon t := by
  grind [remoteHoldWaitTimeout, Canon, canon_modHub]

theorem canon_writeAcknowledge (core slot n : Nat) {s : State} (hs : Canon s) {t : State}
    (he : writeAcknowledge core slot n s = some t) : Canon t := by
  grind [writeAcknowledge, Canon, canon_modThread]

theorem canon_keyTreeStateLoad {s : State} (hs : Canon s) {t : State} (he : keyTreeStateLoad s = some t) : Canon t := by
  grind [keyTreeStateLoad, Canon, canon_modMgmt]

theorem canon_vstbyFailure {s : State} (hs : Canon s) {t : State} (he : vstbyFailure s = some t) : Canon t := by
  grind [vstbyFailure, Canon, canon_modMgmt, canon_filter]

theorem canon_giveAwaited {s : State} (r : TRef) (d : Nat) (v : Word) (hs : Canon s) {t : State} (he : giveAwaited s r d v = some t) :
    Canon t := by
  grind [giveAwaited, Canon, canon_modRef, canon_pushG]

theorem canon_slotCommandDone (press i : Nat) {s : State} (hs : Canon s) {t : State} (he : slotCommandDone press i s = some t) :
    Canon t := by
  unfold slotCommandDone at he
  dsimp only at he
  split at he
  · cases he
  next e _ =>
  have stop : ∀ {s : State}, Canon s → Canon (releaseKey ((s.modPress press fun p =>
      { p with queue := p.queue.filter fun x => !(x.id = e.id && !x.op.isPact) }).dropHolds e.id fun _ => true) .press e.id) :=
    fun hs => canon_releaseKey _ _ (canon_dropHolds _ _ (canon_modPress _ _ hs))
  split at he
  · cases he
  split at he
  · cases he
    exact stop (canon_modPress _ _ hs)
  · cases he
    exact stop (canon_modRef _ _ (canon_modPress _ _ hs))
  · split at he
    · split at he
      · cases he
      · cases he
        exact stop (canon_trapRef _ _ _ _ hs)
    · cases he
      exact stop (canon_modPress _ _ hs)
  · cases he
    exact stop (canon_foldSpan_of (fun s w hs => canon_write _ _ _ hs) _ _ hs)
  · obtain ⟨u, hu, rfl⟩ := Option.map_eq_some_iff.1 he
    exact stop (canon_giveAwaited _ _ _ hs hu)
  · cases he
    exact stop (canon_modPress _ _ hs)
  · cases he

end Sys2Proof.Machine
end

