-- ==== Sys2Proof/Proofs/CanonStep.lean ====
section
/-! SUPPORT. Memory stays canonical (O45): every instruction and every event of the machine, and so every step. -/

namespace Sys2Proof.Machine

/-- An event that does not apply leaves the state as it is. -/
theorem canon_event {s t : State} {o : Option State} (hs : Canon s) (ho : ∀ t, o = some t → Canon t) (he : event s o = .next t) :
    Canon t := by
  cases he
  cases o with
  | none => exact hs
  | some t => exact ho t rfl

theorem canon_exec_event {i : Instr} {s t : State} (hb : bodyOf i = none) (hs : Canon s) (he : exec i s = .next t) : Canon t := by
  cases i
  case coldReset => exact canon_event hs (fun _ h => canon_coldReset hs h) he
  case warmReset => exact canon_event hs (fun _ h => canon_warmReset hs h) he
  case secureBoot => exact canon_event hs (fun _ h => canon_secureBoot _ hs h) he
  case hostLinkTrain => exact canon_event hs (fun _ h => canon_hostLinkTrain _ _ hs h) he
  case hostLinkModuleFail => exact canon_event hs (fun _ h => canon_hostLinkModuleFail _ hs h) he
  case scaleOutPortFail => exact canon_event hs (fun _ h => canon_scaleOutPortFail _ hs h) he
  case scaleOutPortUp => exact canon_event hs (fun _ h => canon_scaleOutPortUp _ hs h) he
  case remoteRouteTimeout => exact canon_event hs (fun _ h => canon_remoteRouteTimeout _ _ hs h) he
  case slwAssert => exact canon_event hs (fun _ h => canon_slwAssert hs h) he
  case supplyLossSequence => exact canon_event hs (fun _ h => canon_supplyLossSequence hs h) he
  case thermtrip => exact canon_event hs (fun _ h => canon_thermtrip _ _ hs h) he
  case pstpFrame => exact canon_event hs (fun _ h => canon_pstpFrame _ _ _ hs h) he
  case telemetryLost => exact canon_event hs (fun _ h => canon_telemetryLost hs h) he
  case droopEvaluation => exact canon_event hs (fun _ h => canon_droopEvaluation hs h) he
  case eceilStep => exact canon_event hs (fun _ h => canon_eceilStep hs h) he
  case shedGraceExpiry => exact canon_event hs (fun _ h => canon_shedGraceExpiry _ hs h) he
  case sensorSample => exact canon_event hs (fun _ h => canon_sensorSample _ _ _ hs h) he
  case thermalCapDrop => exact canon_event hs (fun _ h => canon_thermalCapDrop _ hs h) he
  case thermalCapRise => exact canon_event hs (fun _ h => canon_thermalCapRise _ hs h) he
  case dramThrottle => exact canon_event hs (fun _ h => canon_dramThrottle _ hs h) he
  case dramThrottleLift => exact canon_event hs (fun _ h => canon_dramThrottleLift _ hs h) he
  case relocationMark => exact canon_event hs (fun _ h => canon_relocationMark _ hs h) he
  case relocation => exact canon_event hs (fun _ h => canon_relocation _ hs h) he
  case operatingPointChange => exact canon_event hs (fun _ h => canon_operatingPointChange _ hs h) he
  case coreSleep => exact canon_event hs (fun _ h => canon_coreSleep _ hs h) he
  case coreWake => exact canon_event hs (fun _ h => canon_coreWake _ hs h) he
  case energyRefill => exact canon_event hs (fun _ h => canon_energyRefill hs h) he
  case wsRefreshWindow => exact canon_event hs (fun _ h => canon_wsRefreshWindow hs h) he
  case structureError => exact canon_event hs (fun _ h => canon_structureError _ _ _ _ hs h) he
  case selfTestDone => exact canon_event hs (fun _ h => canon_selfTestDone _ _ _ hs h) he
  case unrecoverableFault => exact canon_event hs (fun _ h => canon_unrecoverableFault _ _ _ _ _ hs h) he
  case checkpointPeriod => exact canon_event hs (fun _ h => canon_checkpointPeriod _ hs h) he
  case intervalSeal => exact canon_event hs (fun _ h => canon_intervalSeal _ hs h) he
  case rollback => exact canon_event hs (fun _ h => canon_rollback _ hs h) he
  case bar0RegisterWrite => exact canon_event hs (fun _ h => canon_bar0RegisterWrite _ _ hs h) he
  case q0ringWrite => exact canon_event hs (fun _ h => canon_q0ringWrite _ hs h) he
  case q0cplWrite => exact canon_event hs (fun _ h => canon_q0cplWrite _ hs h) he
  case pkgidWrite => exact canon_event hs (fun _ h => canon_pkgidWrite _ hs h) he
  case pstpstRead => exact canon_event hs (fun _ h => canon_pstpstRead hs h) he
  case kick => exact canon_event hs (fun _ h => canon_kick _ _ hs h) he
  case cplheadWrite => exact canon_event hs (fun _ h => canon_cplheadWrite _ _ hs h) he
  case commandFetch => exact canon_event hs (fun _ h => canon_commandFetch _ hs h) he
  case headerReread => exact canon_event hs (fun _ h => canon_headerReread _ hs h) he
  case completionRecordWrite => exact canon_event hs (fun _ h => canon_completionRecordWrite _ hs h) he
  case nopPacket => exact canon_event hs (fun _ h => canon_nopPacket _ hs h) he
  case launch => exact canon_event hs (fun _ h => canon_launch _ hs h) he
  case copy => exact canon_event hs (fun _ h => canon_copy _ hs h) he
  case hubCopyDone => exact canon_event hs (fun _ h => canon_hubCopyDone _ hs h) he
  case signalStore => exact canon_event hs (fun _ h => canon_signalStore _ hs h) he
  case signalAtomicAdd => exact canon_event hs (fun _ h => canon_signalAtomicAdd _ hs h) he
  case signalArrive => exact canon_event hs (fun _ h => canon_signalArrive _ hs h) he
  case waitv => exact canon_event hs (fun _ h => canon_waitv _ hs h) he
  case waitvReevaluate => exact canon_event hs (fun _ h => canon_waitvReevaluate _ hs h) he
  case waitvTimeout => exact canon_event hs (fun _ h => canon_waitvTimeout _ hs h) he
  case wsload => exact canon_event hs (fun _ h => canon_wsload _ hs h) he
  case wssealSeal => exact canon_event hs (fun _ h => canon_wssealSeal _ hs h) he
  case wssealReopen => exact canon_event hs (fun _ h => canon_wssealReopen _ hs h) he
  case create => exact canon_event hs (fun _ h => canon_create hs h) he
  case destroy => exact canon_event hs (fun _ h => canon_destroy hs h) he
  case qset => exact canon_event hs (fun _ h => canon_qset hs h) he
  case qreset => exact canon_event hs (fun _ h => canon_qreset hs h) he
  case wsreg => exact canon_event hs (fun _ h => canon_wsreg hs h) he
  case wsfree => exact canon_event hs (fun _ h => canon_wsfree hs h) he
  case ckptPacket => exact canon_event hs (fun _ h => canon_ckptPacket _ hs h) he
  case resync => exact canon_event hs (fun _ h => canon_resync hs h) he
  case preemptSwapOut => exact canon_event hs (fun _ h => canon_preemptSwapOut _ hs h) he
  case preemptRestore => exact canon_event hs (fun _ h => canon_preemptRestore _ hs h) he
  case profileStart => exact canon_event hs (fun _ h => canon_profileStart _ hs h) he
  case profileStop => exact canon_event hs (fun _ h => canon_profileStop _ hs h) he
  case profileSpill => exact canon_event hs (fun _ h => canon_profileSpill _ hs h) he
  case profileAccount => exact canon_event hs (fun _ h => canon_profileAccount hs h) he
  case qfence => exact canon_event hs (fun _ h => canon_qfence _ hs h) he
  case attest => exact canon_event hs (fun _ h => canon_attest _ hs h) he
  case bbread => exact canon_event hs (fun _ h => canon_bbread hs h) he
  case fwstage => exact canon_event hs (fun _ h => canon_fwstage hs h) he
  case fwactivate => exact canon_event hs (fun _ h => canon_fwactivate hs h) he
  case sensrd => exact canon_event hs (fun _ h => canon_sensrd hs h) he
  case dbghalt => exact canon_event hs (fun _ h => canon_dbghalt hs h) he
  case dbgresume => exact canon_event hs (fun _ h => canon_dbgresume hs h) he
  case dbgstep => exact canon_event hs (fun _ h => canon_dbgstep hs h) he
  case dbgread => exact canon_event hs (fun _ h => canon_dbgread hs h) he
  case dbgwrite => exact canon_event hs (fun _ h => canon_dbgwrite hs h) he
  case dbgcfg => exact canon_event hs (fun _ h => canon_dbgcfg hs h) he
  case mailboxDone => exact canon_event hs (fun _ h => canon_mailboxDone hs h) he
  case breakpointHalt => exact canon_event hs (fun _ h => canon_breakpointHalt _ _ hs h) he
  case hostMemAccess => exact canon_event hs (fun _ h => canon_hostMemAccess _ _ _ _ hs h) he
  case hostHoldTimeout => exact canon_event hs (fun _ h => canon_hostHoldTimeout _ hs h) he
  case placementReserve => exact canon_event hs (fun _ h => canon_placementReserve hs h) he
  case placementCommit => exact canon_event hs (fun _ h => canon_placementCommit hs h) he
  case scrimgCopyDone => exact canon_event hs (fun _ h => canon_scrimgCopyDone _ hs h) he
  case waitListStarvation => exact canon_event hs (fun _ h => canon_waitListStarvation _ hs h) he
  case gangPreempt => exact canon_event hs (fun _ h => canon_gangPreempt _ hs h) he
  case swapOut => exact canon_event hs (fun _ h => canon_swapOut _ hs h) he
  case crewRestore => exact canon_event hs (fun _ h => canon_crewRestore _ hs h) he
  case idleSwap => exact canon_event hs (fun _ h => canon_idleSwap _ hs h) he
  case itemDispense => exact canon_event hs (fun _ h => canon_itemDispense _ _ hs h) he
  case eosDispense => exact canon_event hs (fun _ h => canon_eosDispense _ _ _ _ hs h) he
  case graphRetire => exact canon_event hs (fun _ h => canon_graphRetire _ hs h) he
  case asyncTrapEntry => exact canon_event hs (fun _ h => canon_asyncTrapEntry _ _ hs h) he
  case notifyEntry => exact canon_event hs (fun _ h => canon_notifyEntry _ _ hs h) he
  case asyncResultLand => exact canon_event hs (fun _ h => canon_asyncResultLand _ _ _ hs h) he
  case accessPerformed => exact canon_event hs (fun _ h => canon_accessPerformed _ _ hs h) he
  case sendDelivery => exact canon_event hs (fun _ h => canon_deliverOut _ _ _ hs h) he
  case putrLand => exact canon_event hs (fun _ h => canon_deliverOut _ _ _ hs h) he
  case sendTimeout => exact canon_event hs (fun _ h => canon_sendTimeout _ _ hs h) he
  case curdAdmit => exact canon_event hs (fun _ h => canon_curdAdmit _ _ hs h) he
  case curdResume => exact canon_event hs (fun _ h => canon_curdResume _ hs h) he
  case closetSwap => exact canon_event hs (fun _ h => canon_closetSwap _ hs h) he
  case movementSwap => exact canon_event hs (fun _ h => canon_movementSwap _ hs h) he
  case pactForm => exact canon_event hs (fun _ h => canon_pactForm _ _ hs h) he
  case pactTimeout => exact canon_event hs (fun _ h => canon_pactTimeout _ _ hs h) he
  case pressEntryStart => exact canon_event hs (fun _ h => canon_pressEntryStart _ _ hs h) he
  case pactStreamEnd => exact canon_event hs (fun _ h => canon_pactStreamEnd _ hs h) he
  case pactDeliveryDone => exact canon_event hs (fun _ h => canon_pactDeliveryDone _ _ hs h) he
  case pactSuspend => exact canon_event hs (fun _ h => canon_pactSuspend _ _ hs h) he
  case pactResume => exact canon_event hs (fun _ h => canon_pactResume _ hs h) he
  case operandFault => exact canon_event hs (fun _ h => canon_operandFault _ _ _ _ _ hs h) he
  case deliveryFault => exact canon_event hs (fun _ h => canon_deliveryFault _ _ _ _ hs h) he
  case copySectorLand => exact canon_event hs (fun _ h => canon_copySectorLand _ _ _ hs h) he
  case copyFailure => exact canon_event hs (fun _ h => canon_copyFailure _ _ _ _ hs h) he
  case cpymAccept => exact canon_event hs (fun _ h => canon_cpymAccept _ hs h) he
  case remoteWriteArrive => exact canon_event hs (fun _ h => canon_remoteWriteArrive _ _ _ _ _ _ _ _ hs h) he
  case streamElementFetch => exact canon_event hs (fun _ h => canon_streamElementFetch _ _ _ hs h) he
  case streamElementLand => exact canon_event hs (fun _ h => canon_streamElementLand _ _ _ _ hs h) he
  case tlbiComplete => exact canon_event hs (fun _ h => canon_tlbiComplete _ _ hs h) he
  case slwRelease => exact canon_event hs (fun _ h => canon_slwRelease hs h) he
  case wsloadDone => exact canon_event hs (fun _ h => canon_wsloadDone _ hs h) he
  case remoteHoldWaitTimeout => exact canon_event hs (fun _ h => canon_remoteHoldWaitTimeout _ hs h) he
  case writeAcknowledge => exact canon_event hs (fun _ h => canon_writeAcknowledge _ _ _ hs h) he
  case keyTreeStateLoad => exact canon_event hs (fun _ h => canon_keyTreeStateLoad hs h) he
  case vstbyFailure => exact canon_event hs (fun _ h => canon_vstbyFailure hs h) he
  case slotCommandDone => exact canon_event hs (fun _ h => canon_slotCommandDone _ _ hs h) he
  all_goals cases hb

theorem canon_exec {i : Instr} {s t : State} (hs : Canon s) (he : exec i s = .next t) : Canon t := by
  cases hb : bodyOf i with
  | none => exact canon_exec_event hb hs he
  | some b =>
    rw [exec_of_body hb] at he
    cases he
    exact canon_issue i b (canon_bodyOf hb) hs

theorem canon_step {s t : State} (hs : Canon s) (he : step s = .next t) : Canon t := by
  have hm := canon_nextMove hs
  unfold step at he
  split at he
  next i u hu =>
    rw [hu] at hm
    exact canon_exec hm he
  next u hu =>
    rw [hu] at hm
    cases he
    exact hm

/-- Settles O45: every function that a step runs keeps memory canonical, and memory is written only byte by byte or filtered. -/
theorem memoryStaysCanonical : Obligations.MemoryStaysCanonical := by
  unfold Obligations.MemoryStaysCanonical
  exact fun _ _ hs he => canon_step hs he

end Sys2Proof.Machine
end
